-- ==== Sys2Proof/Word.lean ====
section
/-!
DEFINITION. Word.lean: the word types of the module: 64-bit register words, 32-bit array words and bytes (R10, R41).
-/
namespace Sys2Proof

/-- A 64-bit word: the widest register of BAR0 and the word of a Kretas register. -/
abbrev Word := BitVec 64

/-- A 32-bit word: the data word of the array. -/
abbrev W32 := BitVec 32

/-- A byte of memory. -/
abbrev Byte := BitVec 8

end Sys2Proof
end

