-- ==== Sys2Proof/Forms.lean ====
section
/-!
DEFINITION. Forms.lean: the operand forms of the commands: who makes an access, where a word enters a segment, what a port asks for.
-/
namespace Sys2Proof

/-- A requester of register and memory accesses: a host function (0 physical, 1 to 12 virtual), a sequencer or a DMA channel. -/
inductive Req where
  | fn (f : Fin 13)
  | seq (n : Fin 24)
  | dma (c : Fin 64)
deriving DecidableEq, Repr

/-- Where a word enters a track: driven segment `k` of island `i` in the order of `SSEL` (R364), the spine joint of track `t`, the receive
stream of a lane, or read stream `k` of memory stream port `p` (R117). -/
inductive Driver where
  | seg (i : Fin 156) (k : Fin 80)
  | joint (i : Fin 156) (t : Fin 4)
  | lane (l : Fin 192)
  | msp (p : Fin 24) (k : Fin 8)
deriving DecidableEq, Repr

/-- An access of the stream/DMA port to an island memory (R137): a read, or a write with data and tags, at a byte offset; `size` bytes.  `host` tells a write of the
host (R147). -/
inductive PortReq where
  | read (off : BitVec 18) (size : Fin 9)
  | write (off : BitVec 18) (size : Fin 9) (data : Word) (tags : BitVec 8) (host : Bool)
deriving DecidableEq, Repr

/-- An access of the external port to a sequencer bank (R194), at a byte offset; `size` bytes. -/
inductive PortReq20 where
  | read (off : BitVec 20) (size : Fin 9)
  | write (off : BitVec 20) (size : Fin 9) (data : Word)
deriving DecidableEq, Repr

/-- The phases of a patrol window (R151): its borrow, its march with the failing cells it meets, each a bit of an ECC word of the window, its write-back, and the
return that ends the redirection. -/
inductive PatrolStep where
  | borrow
  | march (faults : List (Fin 32 × Fin 80))
  | writeBack
  | ret
deriving DecidableEq, Repr

/-- A descriptor as it stands in a submission ring (R398): code, partition, whether every zero bit is zero, tag and parameters. -/
structure Desc where
  code : BitVec 8
  part : BitVec 4
  clean : Bool
  tag : BitVec 32
  p0 : Word
  p1 : Word
  p2 : Word
  p3 : Word
  p4 : Word
  p5 : Word
  p6 : Word
deriving DecidableEq, Repr

/-- A frame of the Camyan ring without its type: the fields that stand in its four blocks (R412). -/
structure RingFrame where
  src : BitVec 6
  dst : BitVec 6
  bc : Bool
  hop : BitVec 7
  seq : BitVec 8
  ts : Word
  pay : Word
  fcrc : BitVec 32
deriving DecidableEq, Repr

/-- A CXL memory device as firmware finds it (R403, R410): its number, its port, whether its media is ready, its capacity in units of 256 MiB. -/
structure CxlDev where
  dev : Fin 8
  port : Fin 2
  active : Bool
  cap : BitVec 24
deriving DecidableEq, Repr

/-- What a health estimate is kept for (R461): an island, a lane quad or a regulator rail. -/
inductive Monitor where
  | isl (i : Fin 156)
  | quad (q : Fin 48)
  | rail (k : Fin 6)
deriving DecidableEq, Repr

/-- An operation of the `DBGACC` instruction (R472). -/
inductive DbgOp where
  | read (pa : BitVec 52)
  | write (pa : BitVec 52) (data : Word)
  | halt (q : Fin 32)
  | run (q : Fin 32)
deriving DecidableEq, Repr

/-- A host request in BAR2 (R391), at an offset, of `size` bytes; a write may carry poison. -/
inductive ApReq where
  | read (off : BitVec 36) (size : Fin 9)
  | write (off : BitVec 36) (size : Fin 9) (data : Word) (poison : Bool)
deriving DecidableEq, Repr

end Sys2Proof
end

