-- ==== Sys2Proof/Syntax.lean ====
section
/-!
DEFINITION. Syntax.lean: the commands of the block, one constructor per row of spec/opcode_table.json, in the order of the table.  Each
docstring gives the row's mnemonic, the rule that governs it and its operands.
-/
namespace Sys2Proof

/-- One command: an access, an operation or an event of the opcode table. -/
inductive Instr where
  /-- `REGISTER_WRITE` (R12). -/
  | registerWrite (f : Fin 13) (bar4 : Bool) (off : BitVec 24) (wide : Bool) (v : BitVec 64)
  /-- `GATED_ACCESS` (R33). -/
  | gatedAccess (f : Fin 13) (off : BitVec 24) (write : Bool)
  /-- `GATED_ACCESS_CLEAR` (R33). -/
  | gatedAccessClear
  /-- `BAD_CODE` (R5). -/
  | badCode (f : Fin 13) (d : Desc)
  /-- `GET_INFO` (R401). -/
  | getInfo (f : Fin 13) (d : Desc)
  /-- `LOAD_PARTITION` (R401). -/
  | loadPartition (f : Fin 13) (d : Desc) (memOk : Bool)
  /-- `UNLOAD_PARTITION` (R401). -/
  | unloadPartition (f : Fin 13) (d : Desc)
  /-- `START_PARTITION` (R401). -/
  | startPartition (f : Fin 13) (d : Desc)
  /-- `STOP_PARTITION` (R401). -/
  | stopPartition (f : Fin 13) (d : Desc)
  /-- `SET_POWER` (R447). -/
  | setPower (f : Fin 13) (d : Desc) (expired : Bool)
  /-- `READ_HEALTH` (R462). -/
  | readHealth (f : Fin 13) (d : Desc) (memOk : Bool)
  /-- `REPAIR_ISLAND` (R463). -/
  | repairIsland (f : Fin 13) (d : Desc)
  /-- `CAPTURE` (R471). -/
  | capture (f : Fin 13) (d : Desc) (memOk : Bool)
  /-- `READ_REPAIR` (R356). -/
  | readRepair (f : Fin 13) (d : Desc) (memOk expired : Bool)
  /-- `SET_LANES` (R180). -/
  | setLanes (f : Fin 13) (d : Desc) (expired : Bool)
  /-- `RING_JOIN` (R424). -/
  | ringJoin (f : Fin 13) (d : Desc)
  /-- `RING_LEAVE` (R424). -/
  | ringLeave (f : Fin 13) (d : Desc)
  /-- `CXL_STATUS` (R401). -/
  | cxlStatus (f : Fin 13) (d : Desc) (memOk : Bool)
  /-- `UPDATE_FLASH` (R377). -/
  | updateFlash (f : Fin 13) (d : Desc) (memOk : Bool) (bad : Fin 5)
  /-- `READ_ERRORS` (R458). -/
  | readErrors (f : Fin 13) (d : Desc) (memOk : Bool)
  /-- `WARM_RESET` (R441). -/
  | warmReset (f : Fin 13) (d : Desc)
  /-- `MAILBOX_SUBMIT` (R398). -/
  | mailboxSubmit (f : Fin 13) (tail : BitVec 32)
  /-- `MAILBOX_COMPLETION_HEAD` (R399). -/
  | mailboxCompletionHead (f : Fin 13) (head : BitVec 32)
  /-- `MAILBOX_RESET` (R409). -/
  | mailboxReset (f : Fin 13) (en : Bool) (vec : BitVec 11)
  /-- `GLB_PART_CFG_WRITE` (R23). -/
  | glbPartCfgWrite (n : Fin 12) (v : BitVec 32)
  /-- `WORD_UNIT_FIRING` (R47). -/
  | wordUnitFiring (i : Fin 156) (u : Fin 16) (edge : Bool)
  /-- `FIRING_RESULT` (R56). -/
  | firingResult (i : Fin 156) (u : Fin 16) (edge : Bool)
  /-- `PLD_COMPLETE` (R59). -/
  | pldComplete (i : Fin 156) (u : Fin 16)
  /-- `HINC_WRITE` (R69). -/
  | hincWrite (i : Fin 156) (u : Fin 16)
  /-- `TOKEN_PASS` (R52). -/
  | tokenPass (i : Fin 156) (u : Fin 16)
  /-- `TOKEN_JOIN` (R52). -/
  | tokenJoin (i : Fin 156) (u : Fin 16)
  /-- `ABORT_TOKEN` (R53). -/
  | abortToken (i : Fin 156) (u : Fin 16)
  /-- `BLOCK_END_EMISSION` (R66). -/
  | blockEndEmission (i : Fin 156) (u : Fin 16)
  /-- `MOULT_RELAY` (R87). -/
  | moultRelay (i : Fin 156) (u : Fin 16)
  /-- `PLANE_CHANGE_JOIN` (R88). -/
  | planeChangeJoin (i : Fin 156) (u : Fin 16)
  /-- `MOULT_DROP` (R89). -/
  | moultDrop (i : Fin 156) (u : Fin 16)
  /-- `OWED_TOKEN_DROP` (R100). -/
  | owedTokenDrop (i : Fin 156) (u : Fin 16)
  /-- `JOIN_RELEASE` (R100). -/
  | joinRelease (i : Fin 156) (mask : BitVec 16)
  /-- `MOULT_STALL` (R99). -/
  | moultStall (i : Fin 156) (u : Fin 16)
  /-- `MOULT_CLRCNT` (R111). -/
  | moultClrcnt (i : Fin 156)
  /-- `SEGMENT_SWITCH` (R93). -/
  | segmentSwitch (d : Driver)
  /-- `BROADCAST_ARRIVAL` (R103). -/
  | broadcastArrival (i : Fin 156)
  /-- `FENCE_PASSAGE` (R106). -/
  | fencePassage (i : Fin 156) (e : Fin 137)
  /-- `ARRAY_IDLE` (R105). -/
  | arrayIdle (n : Fin 12)
  /-- `FIFO_PUSH` (R123). -/
  | fifoPush (d : Driver)
  /-- `SPINE_DRIVE` (R121). -/
  | spineDrive (i : Fin 156) (t : Fin 4)
  /-- `RT_CLRCNT` (R132). -/
  | rtClrcnt (i : Fin 156)
  /-- `QUEUE_PUSH` (R146). -/
  | queuePush (i : Fin 156) (q : Fin 4)
  /-- `QUEUE_MARK` (R148). -/
  | queueMark (i : Fin 156) (q : Fin 4)
  /-- `QUEUE_REWIND` (R148). -/
  | queueRewind (i : Fin 156) (q : Fin 4)
  /-- `QUEUE_RELEASE` (R148). -/
  | queueRelease (i : Fin 156) (q : Fin 4)
  /-- `QUEUE_FLUSH` (R148). -/
  | queueFlush (i : Fin 156) (q : Fin 4)
  /-- `QUEUE_CLRCNT` (R154). -/
  | queueClrcnt (i : Fin 156) (q : Fin 4)
  /-- `QREG_WRITE` (R154). -/
  | qregWrite (i : Fin 156) (q : Fin 4) (v : BitVec 32)
  /-- `ISLAND_MEMORY_ACCESS` (R137). -/
  | islandMemoryAccess (i : Fin 156) (p : PortReq) (clash : Bool)
  /-- `PATROL_WINDOW` (R151). -/
  | patrolWindow (i : Fin 156) (st : PatrolStep)
  /-- `CLRECC` (R154). -/
  | clrecc (i : Fin 156)
  /-- `ISL_CLRCOLL` (R154). -/
  | islClrcoll (i : Fin 156)
  /-- `ACC_LO_READ` (R80). -/
  | accLoRead (i : Fin 156) (n : Fin 16) (low : Bool)
  /-- `FLA_EVT_CLEAR` (R80). -/
  | flaEvtClear (i : Fin 156) (bits : BitVec 8)
  /-- `QUAD_CONFIG_WRITE` (R156). -/
  | quadConfigWrite (q : Fin 48) (v : BitVec 32)
  /-- `LANE_ENABLE` (R181). -/
  | laneEnable (l : Fin 192) (v : BitVec 32)
  /-- `LANE_TRAIN` (R176). -/
  | laneTrain (l : Fin 192)
  /-- `LANE_CLRCNT` (R181). -/
  | laneClrcnt (l : Fin 192)
  /-- `DATA_BLOCK` (R158). -/
  | dataBlock (l : Fin 192) (early late : BitVec 32) (fixed : Bool)
  /-- `TOKEN_BLOCK` (R159). -/
  | tokenBlock (l : Fin 192) (body : BitVec 51) (half : Bool) (sb : BitVec 4) (fixed : Bool)
  /-- `FLIGHT_CLOSE` (R167). -/
  | flightClose (l : Fin 192) (fcrc : BitVec 32) (fseq : BitVec 8) (half : Bool) (sb : BitVec 4) (fixed : Bool)
  /-- `CREDIT_RETURN` (R168). -/
  | creditReturn (l : Fin 192) (aseq : BitVec 8) (nak : Bool) (cred : BitVec 16) (half : Bool) (sb : BitVec 4) (aligned fixed : Bool)
  /-- `QUIET_BLOCK` (R180). -/
  | quietBlock (l : Fin 192) (cause : BitVec 4) (half : Bool) (sb : BitVec 4) (fixed : Bool)
  /-- `ABORT_BLOCK` (R172). -/
  | abortBlock (l : Fin 192) (payload : BitVec 28) (cause : BitVec 4) (half : Bool) (sb : BitVec 4) (fixed : Bool)
  /-- `TRAIN_BLOCK` (R176). -/
  | trainBlock (l : Fin 192) (ts : BitVec 3) (n : BitVec 2) (icred : BitVec 16) (fec : Bool) (nseq : BitVec 8) (skew : BitVec 8) (half : Bool) (sb : BitVec 4) (fixed : Bool)
  /-- `IDLE_BLOCK` (R159). -/
  | idleBlock (l : Fin 192) (half : Bool) (sb : BitVec 4) (fixed : Bool)
  /-- `INVALID_BLOCK` (R175). -/
  | invalidBlock (l : Fin 192) (hdr fixed : Bool)
  /-- `FLIGHT_END` (R165). -/
  | flightEnd (l : Fin 192)
  /-- `CREDIT_RETURN_TIMER` (R166). -/
  | creditReturnTimer (l : Fin 192)
  /-- `ACK_TIMEOUT` (R168). -/
  | ackTimeout (l : Fin 192)
  /-- `TIMED_BURST_START` (R170). -/
  | timedBurstStart (l : Fin 192)
  /-- `BURST_UNDERRUN` (R172). -/
  | burstUnderrun (l : Fin 192)
  /-- `TX_ABORT_TOKEN` (R172). -/
  | txAbortToken (l : Fin 192)
  /-- `SEEK_TIMEOUT` (R176). -/
  | seekTimeout (l : Fin 192)
  /-- `SEQ_RUN` (R210). -/
  | seqRun (n : Fin 24) (run : Bool)
  /-- `SEQ_RESET` (R211). -/
  | seqReset (n : Fin 24)
  /-- `SEQ_STEP` (R210). -/
  | seqStep (n : Fin 24)
  /-- `SEQ_CLRERR` (R210). -/
  | seqClrerr (n : Fin 24)
  /-- `SEQ_CLRCOLL` (R210). -/
  | seqClrcoll (n : Fin 24)
  /-- `AEV_PEND_CLEAR` (R210). -/
  | aevPendClear (n : Fin 24) (bits : BitVec 24)
  /-- `DOORBELL_SET` (R209). -/
  | doorbellSet (n : Fin 24) (bits : BitVec 16)
  /-- `INTAKE_HOLD` (R105). -/
  | intakeHold (n : Fin 24) (hold : Bool)
  /-- `PARTITION_FLAG_DRIVE` (R207). -/
  | partitionFlagDrive (n : Fin 24) (drv : BitVec 3)
  /-- `PARTITION_FAIL_FLAG` (R207). -/
  | partitionFailFlag (p : Fin 12)
  /-- `ARRAY_EVENT` (R208). -/
  | arrayEvent (p : Fin 12)
  /-- `SEQUENCER_BANK_ACCESS` (R194). -/
  | sequencerBankAccess (n : Fin 24) (p : PortReq20) (clash : Bool)
  /-- `SEQ_TIMER_EXPIRY` (R251). -/
  | seqTimerExpiry (n : Fin 24)
  /-- `INTERRUPT_ENTRY` (R247). -/
  | interruptEntry (n : Fin 24)
  /-- `MACHINE_CHECK` (R256). -/
  | machineCheck (n : Fin 24) (kind : Fin 5)
  /-- `LOAD_RETURN` (R193). -/
  | loadReturn (n : Fin 24)
  /-- `POSTED_STORE_BUS_ERROR` (R215). -/
  | postedStoreBusError (n : Fin 24)
  /-- `MAC_PRODUCT_ADD` (R202). -/
  | macProductAdd (n : Fin 24)
  /-- `SEQ_DMAFQ_READ` (R285). -/
  | seqDmafqRead (n : Fin 24)
  /-- `ADD` (R217). -/
  | add (n : Fin 24) (rd ra rb : Fin 32)
  /-- `SUB` (R217). -/
  | sub (n : Fin 24) (rd ra rb : Fin 32)
  /-- `AND` (R217). -/
  | and (n : Fin 24) (rd ra rb : Fin 32)
  /-- `OR` (R217). -/
  | or (n : Fin 24) (rd ra rb : Fin 32)
  /-- `XOR` (R217). -/
  | xor (n : Fin 24) (rd ra rb : Fin 32)
  /-- `ANDN` (R217). -/
  | andn (n : Fin 24) (rd ra rb : Fin 32)
  /-- `SLL` (R217). -/
  | sll (n : Fin 24) (rd ra rb : Fin 32)
  /-- `SRL` (R217). -/
  | srl (n : Fin 24) (rd ra rb : Fin 32)
  /-- `SRA` (R217). -/
  | sra (n : Fin 24) (rd ra rb : Fin 32)
  /-- `ROR` (R217). -/
  | ror (n : Fin 24) (rd ra rb : Fin 32)
  /-- `SLT` (R217). -/
  | slt (n : Fin 24) (rd ra rb : Fin 32)
  /-- `SLTU` (R217). -/
  | sltu (n : Fin 24) (rd ra rb : Fin 32)
  /-- `MUL` (R217). -/
  | mul (n : Fin 24) (rd ra rb : Fin 32)
  /-- `MULH` (R217). -/
  | mulh (n : Fin 24) (rd ra rb : Fin 32)
  /-- `MULHU` (R217). -/
  | mulhu (n : Fin 24) (rd ra rb : Fin 32)
  /-- `DIV` (R217). -/
  | div (n : Fin 24) (rd ra rb : Fin 32)
  /-- `DIVU` (R217). -/
  | divu (n : Fin 24) (rd ra rb : Fin 32)
  /-- `REM` (R217). -/
  | rem (n : Fin 24) (rd ra rb : Fin 32)
  /-- `REMU` (R217). -/
  | remu (n : Fin 24) (rd ra rb : Fin 32)
  /-- `ADDW` (R217). -/
  | addw (n : Fin 24) (rd ra rb : Fin 32)
  /-- `SUBW` (R217). -/
  | subw (n : Fin 24) (rd ra rb : Fin 32)
  /-- `POPC` (R217). -/
  | popc (n : Fin 24) (rd ra : Fin 32)
  /-- `CLZ` (R217). -/
  | clz (n : Fin 24) (rd ra : Fin 32)
  /-- `MIN` (R217). -/
  | min (n : Fin 24) (rd ra rb : Fin 32)
  /-- `MAX` (R217). -/
  | max (n : Fin 24) (rd ra rb : Fin 32)
  /-- `MINU` (R217). -/
  | minu (n : Fin 24) (rd ra rb : Fin 32)
  /-- `MAXU` (R217). -/
  | maxu (n : Fin 24) (rd ra rb : Fin 32)
  /-- `SEXTW` (R217). -/
  | sextw (n : Fin 24) (rd ra : Fin 32)
  /-- `ZEXTW` (R217). -/
  | zextw (n : Fin 24) (rd ra : Fin 32)
  /-- `ADDI` (R218). -/
  | addi (n : Fin 24) (rd ra : Fin 32) (imm : BitVec 16)
  /-- `ANDI` (R218). -/
  | andi (n : Fin 24) (rd ra : Fin 32) (imm : BitVec 16)
  /-- `ORI` (R218). -/
  | ori (n : Fin 24) (rd ra : Fin 32) (imm : BitVec 16)
  /-- `XORI` (R218). -/
  | xori (n : Fin 24) (rd ra : Fin 32) (imm : BitVec 16)
  /-- `LUI` (R218). -/
  | lui (n : Fin 24) (rd : Fin 32) (imm : BitVec 16)
  /-- `ORHI` (R218). -/
  | orhi (n : Fin 24) (rd ra : Fin 32) (imm : BitVec 16)
  /-- `SLTI` (R218). -/
  | slti (n : Fin 24) (rd ra : Fin 32) (imm : BitVec 16)
  /-- `SLTIU` (R218). -/
  | sltiu (n : Fin 24) (rd ra : Fin 32) (imm : BitVec 16)
  /-- `SHI` (R218). -/
  | shi (n : Fin 24) (rd ra : Fin 32) (kind : BitVec 2) (k : BitVec 6)
  /-- `LD` (R219). -/
  | ld (n : Fin 24) (rd ra : Fin 32) (imm : BitVec 16)
  /-- `LW` (R219). -/
  | lw (n : Fin 24) (rd ra : Fin 32) (imm : BitVec 16)
  /-- `LWU` (R219). -/
  | lwu (n : Fin 24) (rd ra : Fin 32) (imm : BitVec 16)
  /-- `LH` (R219). -/
  | lh (n : Fin 24) (rd ra : Fin 32) (imm : BitVec 16)
  /-- `LHU` (R219). -/
  | lhu (n : Fin 24) (rd ra : Fin 32) (imm : BitVec 16)
  /-- `LB` (R219). -/
  | lb (n : Fin 24) (rd ra : Fin 32) (imm : BitVec 16)
  /-- `LBU` (R219). -/
  | lbu (n : Fin 24) (rd ra : Fin 32) (imm : BitVec 16)
  /-- `SD` (R219). -/
  | sd (n : Fin 24) (rs ra : Fin 32) (imm : BitVec 16)
  /-- `SW` (R219). -/
  | sw (n : Fin 24) (rs ra : Fin 32) (imm : BitVec 16)
  /-- `SH` (R219). -/
  | sh (n : Fin 24) (rs ra : Fin 32) (imm : BitVec 16)
  /-- `SB` (R219). -/
  | sb (n : Fin 24) (rs ra : Fin 32) (imm : BitVec 16)
  /-- `FLD` (R219). -/
  | fld (n : Fin 24) (fd ra : Fin 32) (imm : BitVec 16)
  /-- `FST` (R219). -/
  | fst (n : Fin 24) (fs ra : Fin 32) (imm : BitVec 16)
  /-- `DLD` (R220). -/
  | dld (n : Fin 24) (rd re : Fin 32) (px ix py iy : Fin 8) (w : Bool)
  /-- `BEQ` (R221). -/
  | beq (n : Fin 24) (ra rb : Fin 32) (off : BitVec 16)
  /-- `BNE` (R221). -/
  | bne (n : Fin 24) (ra rb : Fin 32) (off : BitVec 16)
  /-- `BLT` (R221). -/
  | blt (n : Fin 24) (ra rb : Fin 32) (off : BitVec 16)
  /-- `BGE` (R221). -/
  | bge (n : Fin 24) (ra rb : Fin 32) (off : BitVec 16)
  /-- `BLTU` (R221). -/
  | bltu (n : Fin 24) (ra rb : Fin 32) (off : BitVec 16)
  /-- `BGEU` (R221). -/
  | bgeu (n : Fin 24) (ra rb : Fin 32) (off : BitVec 16)
  /-- `J` (R221). -/
  | j (n : Fin 24) (off : BitVec 26)
  /-- `JALR` (R221). -/
  | jalr (n : Fin 24) (rd ra : Fin 32) (imm : BitVec 16)
  /-- `CALLW` (R222). -/
  | callw (n : Fin 24) (off : BitVec 26)
  /-- `CALLWR` (R222). -/
  | callwr (n : Fin 24) (ra : Fin 32) (imm : BitVec 16)
  /-- `RETW` (R222). -/
  | retw (n : Fin 24)
  /-- `RPT` (R196). -/
  | rpt (n : Fin 24) (f : Bool) (imm : BitVec 10) (ra : Fin 32)
  /-- `LOOP` (R224). -/
  | loop (n : Fin 24) (ra : Fin 32) (len : BitVec 16)
  /-- `MAC` (R225). -/
  | mac (n : Fin 24) (ra rb : Fin 32) (a : Fin 2)
  /-- `MACU` (R225). -/
  | macu (n : Fin 24) (ra rb : Fin 32) (a : Fin 2)
  /-- `MSU` (R225). -/
  | msu (n : Fin 24) (ra rb : Fin 32) (a : Fin 2)
  /-- `DMAC` (R225). -/
  | dmac (n : Fin 24) (ra rb : Fin 32) (a : Fin 2)
  /-- `DMACX` (R225). -/
  | dmacx (n : Fin 24) (ra rb : Fin 32) (a : Fin 2)
  /-- `DMACS` (R225). -/
  | dmacs (n : Fin 24) (ra rb : Fin 32) (a : Fin 2)
  /-- `ACCA` (R225). -/
  | acca (n : Fin 24) (ra : Fin 32) (a : Fin 2)
  /-- `ACLR` (R225). -/
  | aclr (n : Fin 24) (a : Fin 2)
  /-- `EXT` (R225). -/
  | ext (n : Fin 24) (rd : Fin 32) (a : Fin 2) (k : Fin 64)
  /-- `EXTS` (R225). -/
  | exts (n : Fin 24) (rd : Fin 32) (a : Fin 2) (k : Fin 64)
  /-- `EXTD` (R225). -/
  | extd (n : Fin 24) (rd : Fin 32) (a : Fin 2) (k : Fin 64)
  /-- `EXTDS` (R225). -/
  | extds (n : Fin 24) (rd : Fin 32) (a : Fin 2) (k : Fin 64)
  /-- `NORM` (R225). -/
  | norm (n : Fin 24) (rd : Fin 32) (a : Fin 2)
  /-- `MAXI` (R227). -/
  | maxi (n : Fin 24) (rd ra rb : Fin 32)
  /-- `MINI` (R227). -/
  | mini (n : Fin 24) (rd ra rb : Fin 32)
  /-- `FADD` (R228). -/
  | fadd (n : Fin 24) (d a b : Fin 32) (sp : Bool)
  /-- `FSUB` (R228). -/
  | fsub (n : Fin 24) (d a b : Fin 32) (sp : Bool)
  /-- `FMUL` (R228). -/
  | fmul (n : Fin 24) (d a b : Fin 32) (sp : Bool)
  /-- `FDIV` (R228). -/
  | fdiv (n : Fin 24) (d a b : Fin 32) (sp : Bool)
  /-- `FSQRT` (R228). -/
  | fsqrt (n : Fin 24) (d a : Fin 32) (sp : Bool)
  /-- `FMADD` (R228). -/
  | fmadd (n : Fin 24) (d a b : Fin 32) (sp : Bool)
  /-- `FMIN` (R228). -/
  | fmin (n : Fin 24) (d a b : Fin 32) (sp : Bool)
  /-- `FMAX` (R228). -/
  | fmax (n : Fin 24) (d a b : Fin 32) (sp : Bool)
  /-- `FNEG` (R228). -/
  | fneg (n : Fin 24) (d a : Fin 32) (sp : Bool)
  /-- `FABS` (R228). -/
  | fabs (n : Fin 24) (d a : Fin 32) (sp : Bool)
  /-- `FMOV` (R228). -/
  | fmov (n : Fin 24) (d a : Fin 32) (sp : Bool)
  /-- `FCVT` (R228). -/
  | fcvt (n : Fin 24) (d a : Fin 32) (sp : Bool)
  /-- `FTOI` (R228). -/
  | ftoi (n : Fin 24) (d a : Fin 32) (sp : Bool)
  /-- `ITOF` (R228). -/
  | itof (n : Fin 24) (d a : Fin 32) (sp : Bool)
  /-- `FMVGF` (R228). -/
  | fmvgf (n : Fin 24) (d a : Fin 32) (sp : Bool)
  /-- `FMVFG` (R228). -/
  | fmvfg (n : Fin 24) (d a : Fin 32) (sp : Bool)
  /-- `FEQ` (R228). -/
  | feq (n : Fin 24) (d a b : Fin 32) (sp : Bool)
  /-- `FLT` (R228). -/
  | flt (n : Fin 24) (d a b : Fin 32) (sp : Bool)
  /-- `FLE` (R228). -/
  | fle (n : Fin 24) (d a b : Fin 32) (sp : Bool)
  /-- `MFCS` (R228). -/
  | mfcs (n : Fin 24) (d : Fin 32)
  /-- `MTCS` (R229). -/
  | mtcs (n : Fin 24) (a : Fin 32)
  /-- `STMM` (R231). -/
  | stmm (n : Fin 24) (rm ra : Fin 32) (b : Fin 2) (off : BitVec 15) (cut : Fin 17)
  /-- `LDMM` (R231). -/
  | ldmm (n : Fin 24) (rm ra : Fin 32) (b : Fin 2) (off : BitVec 15) (cut : Fin 17)
  /-- `CXSL` (R233). -/
  | cxsl (n : Fin 24) (ra : Fin 32)
  /-- `CXSU` (R233). -/
  | cxsu (n : Fin 24) (ra : Fin 32)
  /-- `CXRL` (R233). -/
  | cxrl (n : Fin 24)
  /-- `CXRU` (R233). -/
  | cxru (n : Fin 24)
  /-- `FLUSHW` (R234). -/
  | flushw (n : Fin 24)
  /-- `FILLW` (R234). -/
  | fillw (n : Fin 24)
  /-- `MFS` (R235). -/
  | mfs (n : Fin 24) (rd sp : Fin 32) (h : Bool)
  /-- `MTS` (R235). -/
  | mts (n : Fin 24) (ra sp : Fin 32) (h : Bool)
  /-- `RETT` (R236). -/
  | rett (n : Fin 24)
  /-- `SYSCALL` (R235). -/
  | syscall (n : Fin 24)
  /-- `BREAK` (R235). -/
  | breakI (n : Fin 24)
  /-- `MCALL` (R256). -/
  | mcall (n : Fin 24)
  /-- `ISYNC` (R195). -/
  | isync (n : Fin 24)
  /-- `FENCE` (R235). -/
  | fence (n : Fin 24)
  /-- `DMARESUME` (R237). -/
  | dmaresume (n : Fin 24) (rd ra : Fin 32)
  /-- `ACTX` (R239). -/
  | actx (n : Fin 24) (plane : BitVec 4) (fenced : Bool)
  /-- `MOULT` (R240). -/
  | moult (n : Fin 24) (ra rb : Fin 32) (plane row : BitVec 4) (east : Bool)
  /-- `MOULT_TOKEN_ENTRY` (R240). -/
  | moultTokenEntry (n : Fin 24)
  /-- `APARM` (R205). -/
  | aparm (n : Fin 24) (ra : Fin 32) (scope : BitVec 2) (row col k : BitVec 4)
  /-- `PARAMETER_DELIVERY` (R79). -/
  | parameterDelivery (p : Fin 12)
  /-- `FORK` (R241). -/
  | fork (n : Fin 24) (k : Fin 4) (fp pp : BitVec 4)
  /-- `BRF` (R242). -/
  | brf (n : Fin 24) (cond : Fin 4) (c v : Bool) (k : Fin 4) (off : BitVec 16)
  /-- `AWAIT` (R243). -/
  | await (n : Fin 24) (rd ra rb : Fin 32)
  /-- `FREEZE` (R244). -/
  | freeze (n : Fin 24) (v : Bool)
  /-- `TLB_INVALIDATE` (R278). -/
  | tlbInvalidate (r : Req) (v : BitVec 64)
  /-- `INVALIDATION_COMPLETE` (R278). -/
  | invalidationComplete
  /-- `PAGE_TABLE_WALK` (R274). -/
  | pageTableWalk (r : Req) (va : BitVec 48)
  /-- `DMA_GO` (R284). -/
  | dmaGo (c : Fin 64)
  /-- `DMA_DESCRIPTOR_FETCH` (R284). -/
  | dmaDescriptorFetch (c : Fin 64)
  /-- `DMA_UNIT_TRANSFER` (R284). -/
  | dmaUnitTransfer (c : Fin 64) (clash : Bool)
  /-- `DMA_RESUME` (R286). -/
  | dmaResume (c : Fin 64)
  /-- `DMA_ABORT` (R291). -/
  | dmaAbort (c : Fin 64)
  /-- `MSP_GO` (R296). -/
  | mspGo (p : Fin 24) (k : Fin 16)
  /-- `MSP_READ_COMPLETE` (R293). -/
  | mspReadComplete (p : Fin 24) (k : Fin 8)
  /-- `MSP_WRITE_WORD` (R294). -/
  | mspWriteWord (p : Fin 24) (k : Fin 8) (clash : Bool)
  /-- `MSP_RESUME` (R298). -/
  | mspResume (p : Fin 24) (k : Fin 16)
  /-- `MSP_ABORT` (R298). -/
  | mspAbort (p : Fin 24) (k : Fin 16)
  /-- `FORK_ARMING` (R313). -/
  | forkArming (i : Fin 156)
  /-- `FORK_RESOLUTION` (R315). -/
  | forkResolution (i : Fin 156)
  /-- `HOLD_WORD` (R316). -/
  | holdWord (i : Fin 156)
  /-- `STEERING_WAIT_TIMEOUT` (R316). -/
  | steeringWaitTimeout (i : Fin 156)
  /-- `FORK_CFG_WRITE` (R322). -/
  | forkCfgWrite (i : Fin 156) (v : BitVec 64)
  /-- `FORCE` (R317). -/
  | force (i : Fin 156) (k : Fin 4) (out : Bool)
  /-- `FORK_CLRCNT` (R322). -/
  | forkClrcnt (i : Fin 156)
  /-- `CYCLE_REBASE` (R330). -/
  | cycleRebase (i : Fin 156) (v : BitVec 40)
  /-- `FAIL_MARK_IDLE_TIMEOUT` (R328). -/
  | failMarkIdleTimeout (i : Fin 156)
  /-- `FAIL_PORT_ITEM` (R331). -/
  | failPortItem (r : Fin 12)
  /-- `HOME_SLICE_RECORD` (R346). -/
  | homeSliceRecord (h : Fin 4)
  /-- `COMMIT_TICK` (R340). -/
  | commitTick (p : Fin 12)
  /-- `MAP_WRITE_FAILURE` (R338). -/
  | mapWriteFailure (p : Fin 12) (u : BitVec 14)
  /-- `ARM` (R334). -/
  | arm (p : Fin 12) (u : BitVec 14)
  /-- `ARM_COMPLETE` (R334). -/
  | armComplete (p : Fin 12)
  /-- `DISARM` (R334). -/
  | disarm (p : Fin 12) (u : BitVec 14)
  /-- `SOLVE` (R334). -/
  | solve (p : Fin 12) (u : BitVec 14)
  /-- `SOLVESITE` (R334). -/
  | solvesite (p : Fin 12) (site : BitVec 6)
  /-- `FLUSH` (R334). -/
  | flush (p : Fin 12)
  /-- `QUERY` (R334). -/
  | query (p : Fin 12) (u : BitVec 14)
  /-- `NEWRUN` (R341). -/
  | newrun (p : Fin 12)
  /-- `FE_CLRCNT` (R358). -/
  | feClrcnt (p : Fin 12)
  /-- `SOLVER_START` (R350). -/
  | solverStart
  /-- `SOLVE_COMPLETE` (R351). -/
  | solveComplete (k : Fin 4)
  /-- `SOLVE_TIME_BOUND` (R351). -/
  | solveTimeBound (k : Fin 4)
  /-- `RRQ_HEAD_WRITE` (R354). -/
  | rrqHeadWrite (p : Fin 12) (v : BitVec 16)
  /-- `LOAD_GO` (R378). -/
  | loadGo (src : Fin 8) (mode : Fin 4) (part : Fin 16)
  /-- `LOAD_ABORT` (R371). -/
  | loadAbort
  /-- `WINDOW_WRITE` (R372). -/
  | windowWrite (wide : Bool) (v : BitVec 64)
  /-- `CSP_SELECT` (R375). -/
  | cspSelect (mode : BitVec 2)
  /-- `CSP_BYTE` (R375). -/
  | cspByte (b : BitVec 8)
  /-- `CSP_DESELECT` (R375). -/
  | cspDeselect
  /-- `LOAD_HEADER` (R368). -/
  | loadHeader
  /-- `FRAME_RECORD` (R369). -/
  | frameRecord
  /-- `LOAD_VERIFY` (R361). -/
  | loadVerify (stagingError : Bool)
  /-- `ECLOSION` (R380). -/
  | eclosion
  /-- `LOAD_TIMEOUT` (R370). -/
  | loadTimeout
  /-- `SCRUB_FRAME` (R385). -/
  | scrubFrame (upset : BitVec 1024) (crcUpset : BitVec 32)
  /-- `READBACK` (R386). -/
  | readback (island : BitVec 8) (frame : BitVec 7)
  /-- `CFG_POLICY_LOCK` (R387). -/
  | cfgPolicyLock (fields : BitVec 3)
  /-- `APERTURE_ACCESS` (R391). -/
  | apertureAccess (f : Fin 13) (a : ApReq)
  /-- `MSIX_UNMASK` (R393). -/
  | msixUnmask (f : Fin 13) (vec : BitVec 11) (masked : Bool)
  /-- `D3HOT_ENTRY` (R396). -/
  | d3hotEntry (f : Fin 13)
  /-- `D3HOT_EXIT` (R396). -/
  | d3hotExit (f : Fin 13)
  /-- `PERST_N` (R407). -/
  | perstN (low : Bool)
  /-- `HOT_RESET` (R407). -/
  | hotReset
  /-- `HOST_LINK_DOWN` (R407). -/
  | hostLinkDown
  /-- `HDM_COMMIT` (R404). -/
  | hdmCommit (d : Fin 16) (v : BitVec 64)
  /-- `CXP_LOCK` (R410). -/
  | cxpLock
  /-- `CXL_REQUEST_TIMEOUT` (R405). -/
  | cxlRequestTimeout (p : Fin 2) (pa : BitVec 52) (read : Bool)
  /-- `CXL_LINK_LOSS` (R405). -/
  | cxlLinkLoss (p : Fin 2)
  /-- `CXL_RETRAIN_WAIT_TIMEOUT` (R405). -/
  | cxlRetrainWaitTimeout (p : Fin 2)
  /-- `CXL_L1_ENTRY` (R406). -/
  | cxlL1Entry (p : Fin 2)
  /-- `CXL_DEVICE_EVENT` (R403). -/
  | cxlDeviceEvent (dev : Fin 8) (ev : BitVec 64)
  /-- `TIME_FRAME` (R415). -/
  | timeFrame (r : Fin 2) (f : RingFrame)
  /-- `SYNC_FRAME` (R416). -/
  | syncFrame (r : Fin 2) (f : RingFrame)
  /-- `START_FRAME` (R413). -/
  | startFrame (r : Fin 2) (f : RingFrame)
  /-- `STOP_FRAME` (R413). -/
  | stopFrame (r : Fin 2) (f : RingFrame)
  /-- `GFAIL_FRAME` (R418). -/
  | gfailFrame (r : Fin 2) (f : RingFrame)
  /-- `DECIDE_FRAME` (R417). -/
  | decideFrame (r : Fin 2) (f : RingFrame)
  /-- `FSUM_FRAME` (R420). -/
  | fsumFrame (r : Fin 2) (f : RingFrame)
  /-- `MBOX_FRAME` (R420). -/
  | mboxFrame (r : Fin 2) (f : RingFrame)
  /-- `JOIN_FRAME` (R422). -/
  | joinFrame (r : Fin 2) (f : RingFrame)
  /-- `CLAIM_FRAME` (R422). -/
  | claimFrame (r : Fin 2) (f : RingFrame)
  /-- `LEAVE_FRAME` (R423). -/
  | leaveFrame (r : Fin 2) (f : RingFrame)
  /-- `PROBE_FRAME` (R415). -/
  | probeFrame (r : Fin 2) (f : RingFrame) (trip : BitVec 32)
  /-- `CICADA_BLOCK` (R422). -/
  | cicadaBlock (r : Fin 2) (id : BitVec 6) (tm : Bool)
  /-- `ROUTE_ACTION` (R416). -/
  | routeAction
  /-- `TIME_SEND` (R415). -/
  | timeSend
  /-- `PROBE_SEND` (R415). -/
  | probeSend
  /-- `CICADA_SEND` (R422). -/
  | cicadaSend (r : Fin 2)
  /-- `RING_CTL_JOIN` (R422). -/
  | ringCtlJoin
  /-- `RING_JOIN_TIMER` (R422). -/
  | ringJoinTimer
  /-- `RING_CTL_LEAVE` (R423). -/
  | ringCtlLeave
  /-- `RING_SILENCE` (R422). -/
  | ringSilence (r : Fin 2)
  /-- `MBOX_SEND` (R420). -/
  | mboxSend (v : BitVec 32)
  /-- `RXHDR_READ` (R420). -/
  | rxhdrRead
  /-- `RXDATA_READ` (R420). -/
  | rxdataRead
  /-- `TRIG_EDGE` (R425). -/
  | trigEdge (k : Fin 8) (rise : Bool)
  /-- `TRIG_LEVEL` (R425). -/
  | trigLevel (k : Fin 8) (high : Bool)
  /-- `TRIG_STUCK` (R425). -/
  | trigStuck (k : Fin 8)
  /-- `ROUTE_STUCK` (R418). -/
  | routeStuck (r : Fin 16)
  /-- `POWER_ON` (R437). -/
  | powerOn (cool : Bool)
  /-- `BROWNOUT` (R477). -/
  | brownout (cool : Bool)
  /-- `COLD_RST_N` (R430). -/
  | coldRstN (low cool : Bool)
  /-- `WARM_RST_N` (R430). -/
  | warmRstN (low : Bool)
  /-- `RST_COLD` (R429). -/
  | rstCold
  /-- `RST_WARM` (R429). -/
  | rstWarm
  /-- `PARTITION_RESET` (R432). -/
  | partitionReset (bits : BitVec 12)
  /-- `RESET_RELEASE` (R433). -/
  | resetRelease (d : Fin 244)
  /-- `DOMAIN_RESET_TIMEOUT` (R433). -/
  | domainResetTimeout (d : Fin 244)
  /-- `TRIM_LOAD` (R436). -/
  | trimLoad (ok : Bool) (cspMode modId : BitVec 2)
  /-- `FIRMWARE_LOAD` (R438). -/
  | firmwareLoad
  /-- `EARLY_SERVICE` (R439). -/
  | earlyService
  /-- `FULL_SERVICE` (R440). -/
  | fullService (devs : List CxlDev)
  /-- `ISLAND_CLOCK_LOSS` (R434). -/
  | islandClockLoss (i : Fin 156)
  /-- `ISLAND_CLOCK_RESTORE` (R434). -/
  | islandClockRestore (i : Fin 156)
  /-- `ISLAND_HALT_TIMEOUT` (R434). -/
  | islandHaltTimeout (i : Fin 156)
  /-- `CLOCK_RETUNE` (R435). -/
  | clockRetune (i : Fin 156) (freq : BitVec 7)
  /-- `RUNG_REQUEST` (R443). -/
  | rungRequest (n : Fin 12) (r : BitVec 2)
  /-- `RUNG_ENTRY_COMPLETE` (R443). -/
  | rungEntryComplete (n : Fin 12)
  /-- `WAKE` (R445). -/
  | wake (n : Fin 12) (src : Fin 3)
  /-- `WAKE_ADMISSION` (R446). -/
  | wakeAdmission (wait : BitVec 32)
  /-- `CLRDEF` (R448). -/
  | clrdef
  /-- `STORM_WINDOW_END` (R456). -/
  | stormWindowEnd
  /-- `CONTAINED_HANDLING` (R451). -/
  | containedHandling
  /-- `FATAL_HANDLING` (R452). -/
  | fatalHandling
  /-- `SAFE_HOLD` (R454). -/
  | safeHold (expired : Bool)
  /-- `CAPTURE_GO` (R467). -/
  | captureGo (n : Fin 12)
  /-- `FREEZE_ARRIVAL` (R467). -/
  | freezeArrival (i : Fin 156)
  /-- `CAPTURE_RESUME` (R471). -/
  | captureResume (n : Fin 12)
  /-- `CAPTURE_READBACK` (R470). -/
  | captureReadback (island : BitVec 8) (record : BitVec 5)
  /-- `DEBUG_REGISTER_SELECT` (R474). -/
  | debugRegisterSelect (reg : BitVec 8) (q : BitVec 5)
  /-- `DBGACC` (R472). -/
  | dbgacc (op : DbgOp)
  /-- `DBGUNLOCK` (R473). -/
  | dbgunlock (sig : BitVec 768) (slot : BitVec 2)
  /-- `EXTEST` (R472). -/
  | extest (pins data : BitVec 80)
  /-- `SAMPLE_PRELOAD` (R472). -/
  | samplePreload (pins data : BitVec 80)
  /-- `IDCODE` (R472). -/
  | idcode
  /-- `BYPASS` (R472). -/
  | bypass
  /-- `HEALTH_SAMPLE` (R460). -/
  | healthSample (m : Monitor) (hours : BitVec 24) (conf : BitVec 2) (cause : BitVec 4) (crossed : Bool) (elapsed : BitVec 32)
  /-- `AUTO_REPAIR` (R462). -/
  | autoRepair (i : Fin 156) (late : Bool)
  /-- `SMBUS_READ` (R459). -/
  | smbusRead (addr : BitVec 7) (cmd : BitVec 8) (sense : BitVec 16)
  /-- `RAIL_FAULT` (R480). -/
  | railFault (k : Fin 6) (mv : BitVec 16)
  /-- `JUNCTION_OVERTEMP` (R485). -/
  | junctionOvertemp (temp : BitVec 16)
  /-- `THERMAL_TRIP` (R485). -/
  | thermalTrip
  /-- `POWER_CAP_TICK` (R486). -/
  | powerCapTick (power : BitVec 10) (lid : BitVec 16)
  /-- `LANE_BLOCK_TIME` (R170). -/
  | laneBlockTime (l : Fin 192)
  /-- `QUAD_PLL_LOCK` (R181). -/
  | quadPllLock (q : Fin 48)
  /-- `CSP_WAIT_TIMEOUT` (R378). -/
  | cspWaitTimeout
  /-- `AWAIT_TIMEOUT` (R243). -/
  | awaitTimeout (n : Fin 24)
  /-- `HOST_LINK_TRAINED` (R437). -/
  | hostLinkTrained (flit : Bool) (width : BitVec 5) (speed : BitVec 3)
  /-- `CXL_LINK_TRAINED` (R405). -/
  | cxlLinkTrained (p : Fin 2) (fast : Bool) (width : BitVec 5) (switch : Bool)
  /-- `RING_INVALID_BLOCK` (R411). -/
  | ringInvalidBlock (r : Fin 2) (hdr : Bool)
  /-- `RING_LEAVE_TIMER` (R423). -/
  | ringLeaveTimer
  /-- `LID_ABOVE_LIMIT` (R486). -/
  | lidAboveLimit
deriving DecidableEq, Repr

end Sys2Proof
end

