-- ==== Sys2Proof/Decode.lean ====
section
/-!
DEFINITION. Decode.lean: the command that a word spells by the table's bits.  No row of spec/opcode_table.json gives bits: the block's commands are accesses, operations
and events, so no word spells one.  (The words of sequencer instructions are read by `insOf` of Machine/KretasStep.lean, for the step of R210.)
-/
namespace Sys2Proof

/-- The command that a word of `nbits` bits spells by the bits of the opcode table, which gives none. -/
def decodeTableWord (_nbits _w : Nat) : Option Instr := none

end Sys2Proof
end

