-- ==== Sys2Proof/Config.lean ====
section
/-!
DEFINITION. Config.lean: what one module fixes at manufacture, and the FREE VALUES: constants with no body, so that nothing can be
proved about a particular value of them.  Where the spec leaves a value open the meaning stores `Config.freeValue` applied to the
model's counter `State.free`, and a statement about it holds for every value.
-/
namespace Sys2Proof.Config

/-- A value the spec leaves open, one per place of the model's counter (log entry 3). -/
opaque freeValue : Nat → Word

/-- A bit the spec leaves open (log entry 3). -/
opaque freeBit : Nat → Bool

/-- Whether tininess is found after rounding (IEEE 754 leaves it to the implementation; log entry 22). -/
opaque tinyAfterRounding : Bool

/-- Whether a fused multiply-add of infinity and zero with a quiet NaN raises the invalid flag (IEEE 754 leaves it open; log entry 22). -/
opaque fmaNanInvalid : Bool

/-- Whether the minimum or maximum of two zeros with these signs is the first operand (open; log entry 22). -/
opaque zeroPick (mx signA signB : Bool) : Bool

/-- The firmware version that the information services report, which the spec does not give (log entry 23). -/
opaque firmwareVersion : BitVec 32

/-- The AES keys in the eFuse slots, which the spec does not give (R361; log entry 26). -/
opaque aesKey (slot : Nat) : BitVec 256

/-- The public keys in the eFuse slots, as the coordinates of a point of P-384 (R361, R473; log entry 26). -/
opaque pubKeyX (slot : Nat) : BitVec 384
opaque pubKeyY (slot : Nat) : BitVec 384

/-- The key that the controller draws at cold reset number `key`, and the initialisation vector it uses for the slot of partition `n` (R382; log entry 26). -/
opaque residentKey (key : Nat) : BitVec 256
opaque residentIv (key n : Nat) : BitVec 96

/-- What `GET_INFO` shows of the `IMAGE_ID`s of the images last loaded in partitions 0 to 11, in the bits of `R1` that R401 neither names nor reserves: R360 has them reported
and gives no place (log entry 23). -/
opaque imageReport (ids : List Word) : BitVec 12

/-- Essential bits of a frame that an image with a map does not carry, which the spec leaves open (log entry 3). -/
opaque freeMap (n k : Nat) : BitVec 1024

/-- Trim values of the eFuse (R2, R136, R387, R473), which differ from module to module (log entry 27): the ordering code is HZ7120-AE. -/
opaque variantAE : Bool
/-- Signature and AES key slots programmed and revoked. -/
opaque sigProg : BitVec 4
opaque sigRev : BitVec 4
opaque aesProg : BitVec 2
opaque aesRev : BitVec 2
/-- Debug level. -/
opaque debugLevel : BitVec 2
/-- Redundant rows used in an island memory. -/
opaque memRed (i : Nat) : BitVec 8

end Sys2Proof.Config
end

