-- ==== Sys2Proof/Machine/Bits.lean ====
section
/-!
DEFINITION. Machine/Bits.lean: bit fields of a word, saturating counters, byte order and the shapes of a register descriptor.
-/
namespace Sys2Proof.Machine

/-- A named field of a register: the key of the register and the field's bits (the Bits column of a register table). -/
structure RF where
  key : Nat
  hi : Nat
  lo : Nat
deriving DecidableEq, Repr

/-- The access codes of R12. -/
inductive Acc where
  | ro | rw | wo | w1c | w1s | rwl | ros
deriving DecidableEq, Repr

/-- One row of a register table: bits, access, value after cold reset, and whether warm reset keeps it. -/
structure Fld where
  hi : Nat
  lo : Nat
  acc : Acc
  rst : Nat
  warm : Bool
deriving DecidableEq, Repr

/-- One register of a block: offset, distance and number of its copies, 64 bits wide or not, and its fields. -/
structure RegD where
  off : Nat
  stride : Nat
  count : Nat
  w64 : Bool
  flds : List Fld
deriving DecidableEq, Repr

/-- Bits `hi` to `lo` of a number. -/
def bitsOf (v hi lo : Nat) : Nat := v / 2 ^ lo % 2 ^ (hi + 1 - lo)

/-- Bit `n` of a number. -/
def bitOf (v n : Nat) : Bool := v / 2 ^ n % 2 == 1

/-- The number of a truth value. -/
def b2n (b : Bool) : Nat := if b then 1 else 0

/-- Bits `hi` to `lo` of a word, as a number. -/
def getBits (v : Word) (hi lo : Nat) : Nat := bitsOf v.toNat hi lo

/-- A word with the low bits of `n` in its bits `hi` to `lo` and every other bit kept. -/
def setBits (v : Word) (hi lo n : Nat) : Word :=
  let m : Word := BitVec.ofNat 64 ((2 ^ (hi + 1 - lo) - 1) * 2 ^ lo)
  (v &&& ~~~m) ||| (BitVec.ofNat 64 (n % 2 ^ (hi + 1 - lo) * 2 ^ lo))

/-- The largest value of a field. -/
def RF.max (f : RF) : Nat := 2 ^ (f.hi + 1 - f.lo) - 1

/-- A signed number as the two's complement number of `w` bits. -/
def toTwos (w : Nat) (x : Int) : Nat := (x % (2 ^ w : Nat)).toNat

/-- The signed value of the low `w` bits of a number. -/
def sgn (w n : Nat) : Int :=
  let m := n % 2 ^ w
  if 2 * m < 2 ^ w then m else (m : Int) - (2 ^ w : Nat)

/-- A signed number clamped to `w` bits, and whether it was clamped. -/
def clampS (w : Nat) (x : Int) : Int × Bool :=
  let hi : Int := (2 ^ (w - 1) : Nat) - 1
  let lo : Int := -(2 ^ (w - 1) : Nat)
  if x > hi then (hi, true) else if x < lo then (lo, true) else (x, false)

/-- The little-endian bytes of a number (R10's byte order: words and registers are stored little-endian). -/
def bytesLE : (n : Nat) → Nat → List Byte
  | 0, _ => []
  | n + 1, v => BitVec.ofNat 8 v :: bytesLE n (v / 256)

/-- The number that little-endian bytes spell. -/
def numLE : List Byte → Nat
  | [] => 0
  | b :: bs => b.toNat + 256 * numLE bs

/-- The positions of the bits that are 1 among the low `w` bits of `v`, lowest first. -/
def onesOf (w v : Nat) : List Nat := (List.range w).filter (bitOf v)

/-- The number of bits that are 1 among the low `w` bits of `v`. -/
def popCount (w v : Nat) : Nat := (onesOf w v).length

/-- Replace the element at a place of a list, if there is one. -/
def listSet {α : Type} : List α → Nat → α → List α
  | [], _, _ => []
  | _ :: xs, 0, v => v :: xs
  | x :: xs, n + 1, v => x :: listSet xs n v

end Sys2Proof.Machine
end

