-- ==== Sys2Proof/Machine/Cipher.lean ====
section
/-!
DEFINITION. Machine/Cipher.lean: the algorithms that R361, R382 and R473 name, as their standards define them: AES-256 and its Galois/counter mode (FIPS 197,
SP 800-38D), SHA-384 (FIPS 180-4) and the verification of ECDSA signatures on P-384 (FIPS 186-4).  The spec names them and gives the keys no values: PRESUMED from those
standards, the keys uninterpreted (log entry 26).
-/
namespace Sys2Proof.Machine

/-- The number that big-endian bytes spell. -/
def numBE (bs : List Byte) : Nat := bs.foldl (fun a b => a * 256 + b.toNat) 0

/-- The big-endian bytes of a number. -/
def bytesBE (n v : Nat) : List Byte := (bytesLE n v).reverse

/-! ### AES-256 -/

/-- Multiplication in the field of 256 elements. -/
def gfMul (a b : Nat) : Nat :=
  ((List.range 8).foldl (fun x i => (if bitOf b i then x.1 ^^^ x.2 else x.1, if x.2 < 128 then 2 * x.2 else 2 * x.2 ^^^ 0x11B)) (0, a)).1

/-- The inverse in that field, the power 254; 0 for 0. -/
def gfInv (a : Nat) : Nat :=
  ((List.range 7).foldl (fun x _ => let p := gfMul x.2 x.2; (gfMul x.1 p, p)) (1, a)).1

/-- A byte turned left. -/
def rotByte (a k : Nat) : Nat := (a * 2 ^ k + a / 2 ^ (8 - k)) % 256

/-- The substitution of a byte. -/
def aesSub (a : Nat) : Nat :=
  let b := gfInv a
  b ^^^ rotByte b 1 ^^^ rotByte b 2 ^^^ rotByte b 3 ^^^ rotByte b 4 ^^^ 0x63

/-- The substitution of each byte of a 32-bit word. -/
def aesSubWord (w : Nat) : Nat := (List.range 4).foldl (fun a k => a + aesSub (w / 2 ^ (8 * k) % 256) * 2 ^ (8 * k)) 0

/-- The 60 words of the key schedule. -/
def aesWords (key : BitVec 256) : List Nat :=
  (List.range 52).foldl (fun ws k =>
    let i := k + 8
    let t := ws.getD (i - 1) 0
    let t := if i % 8 = 0 then aesSubWord (t * 256 % 2 ^ 32 + t / 2 ^ 24) ^^^ 2 ^ (i / 8 - 1 + 24) else if i % 8 = 4 then aesSubWord t else t
    ws ++ [ws.getD k 0 ^^^ t]) ((List.range 8).map (fun k => key.toNat / 2 ^ (32 * (7 - k)) % 2 ^ 32))

/-- The bytes of a round key. -/
def aesRoundKey (ws : List Nat) (r : Nat) : List Nat := (List.range 16).map (fun k => ws.getD (4 * r + k / 4) 0 / 2 ^ (8 * (3 - k % 4)) % 256)

/-- Two lists of bytes added. -/
def xorList (a b : List Nat) : List Nat := (a.zip b).map (fun x => x.1 ^^^ x.2)

/-- The rows of a block, whose bytes stand column by column, are shifted. -/
def aesShift (b : List Nat) : List Nat := (List.range 16).map (fun k => b.getD (4 * ((k / 4 + k % 4) % 4) + k % 4) 0)

/-- The columns of a block are mixed. -/
def aesMix (b : List Nat) : List Nat :=
  (List.range 16).map (fun k =>
    let c (j : Nat) : Nat := b.getD (k / 4 * 4 + (k % 4 + j) % 4) 0
    gfMul (c 0) 2 ^^^ gfMul (c 1) 3 ^^^ c 2 ^^^ c 3)

/-- One block under AES-256. -/
def aesBlock (key : BitVec 256) (b : List Nat) : List Nat :=
  let ws := aesWords key
  let b := (List.range 13).foldl (fun b r => xorList (aesMix (aesShift (b.map aesSub))) (aesRoundKey ws (r + 1))) (xorList b (aesRoundKey ws 0))
  xorList (aesShift (b.map aesSub)) (aesRoundKey ws 14)

/-! ### Galois/counter mode -/

/-- The counter block `n` of an initialisation vector of 12 bytes. -/
def gcmCounter (iv : List Byte) (n : Nat) : List Nat := (iv ++ bytesBE 4 n).map BitVec.toNat

/-- The key stream by byte position; the data begin at counter 2. -/
def gcmStream (key : BitVec 256) (iv : List Byte) (pos : Nat) : Byte := BitVec.ofNat 8 ((aesBlock key (gcmCounter iv (2 + pos / 16))).getD (pos % 16) 0)

/-- Multiplication in the field of GHASH, whose first bit is the most significant. -/
def ghashMul (x y : Nat) : Nat :=
  ((List.range 128).foldl (fun a i => (if bitOf x (127 - i) then a.1 ^^^ a.2 else a.1, if a.2 % 2 = 1 then a.2 / 2 ^^^ 0xE1 * 2 ^ 120 else a.2 / 2)) (0, y)).1

/-- Bytes made up with zeros to blocks of 16, as numbers. -/
def ghashBlocks (bs : List Byte) : List Nat := (List.range ((bs.length + 15) / 16)).map (fun k => let b := (bs.drop (16 * k)).take 16; numBE b * 2 ^ (8 * (16 - b.length)))

/-- The authentication tag over additional data and a ciphertext: 16 bytes, read as the model reads the header's `TAG`, little-endian. -/
def gcmTag (key : BitVec 256) (iv aad ct : List Byte) : Nat :=
  let h := numBE ((aesBlock key (List.replicate 16 0)).map (BitVec.ofNat 8))
  let y := (ghashBlocks aad ++ ghashBlocks ct ++ [aad.length * 8 * 2 ^ 64 + ct.length * 8]).foldl (fun y b => ghashMul (y ^^^ b) h) 0
  numLE (bytesBE 16 (y ^^^ numBE ((aesBlock key (gcmCounter iv 1)).map (BitVec.ofNat 8))))

/-! ### SHA-384 -/

/-- The first 80 primes. -/
def primes80 : List Nat :=
  [2, 3, 5, 7, 11, 13, 17, 19, 23, 29, 31, 37, 41, 43, 47, 53, 59, 61, 67, 71, 73, 79, 83, 89, 97, 101, 103, 107, 109, 113] ++
  [127, 131, 137, 139, 149, 151, 157, 163, 167, 173, 179, 181, 191, 193, 197, 199, 211, 223, 227, 229, 233, 239, 241, 251] ++
  [257, 263, 269, 271, 277, 281, 283, 293, 307, 311, 313, 317, 331, 337, 347, 349, 353, 359, 367, 373, 379, 383, 389, 397, 401, 409]

/-- The first 64 bits of the fraction of a `k`-th root. -/
def rootBits (k p : Nat) : Nat :=
  (List.range 70).foldl (fun r i => let t := r + 2 ^ (69 - i); if t ^ k ≤ p * 2 ^ (64 * k) then t else r) 0 % 2 ^ 64

/-- A 64-bit number turned right. -/
def rotr64 (x k : Nat) : Nat := x / 2 ^ k + x % 2 ^ k * 2 ^ (64 - k)

/-- The message schedule of one block of 128 bytes. -/
def shaWords (b : List Byte) : List Nat :=
  (List.range 64).foldl (fun ws k =>
    let a := ws.getD (k + 1) 0
    let c := ws.getD (k + 14) 0
    ws ++ [(ws.getD k 0 + (rotr64 a 1 ^^^ rotr64 a 8 ^^^ a / 2 ^ 7) + ws.getD (k + 9) 0 + (rotr64 c 19 ^^^ rotr64 c 61 ^^^ c / 2 ^ 6)) % 2 ^ 64])
    ((List.range 16).map (fun k => numBE ((b.drop (8 * k)).take 8)))

/-- One round: the eight words, with a constant and a word of the schedule. -/
def shaRound (h : List Nat) (k w : Nat) : List Nat :=
  match h with
  | [a, b, c, d, e, f, g, i] =>
    let t := i + (rotr64 e 14 ^^^ rotr64 e 18 ^^^ rotr64 e 41) + ((e &&& f) ^^^ ((2 ^ 64 - 1 - e) &&& g)) + k + w
    let u := (rotr64 a 28 ^^^ rotr64 a 34 ^^^ rotr64 a 39) + ((a &&& b) ^^^ (a &&& c) ^^^ (b &&& c))
    [(t + u) % 2 ^ 64, a, b, c, (d + t) % 2 ^ 64, e, f, g]
  | h => h

/-- The hash after one block. -/
def shaBlock (ks h : List Nat) (b : List Byte) : List Nat :=
  let h' := (ks.zip (shaWords b)).foldl (fun h x => shaRound h x.1 x.2) h
  (h.zip h').map (fun x => (x.1 + x.2) % 2 ^ 64)

/-- The SHA-384 digest of a message, as a number of 384 bits. -/
def sha384 (m : List Byte) : Nat :=
  let pad := m ++ [0x80] ++ List.replicate ((239 - m.length % 128) % 128) 0 ++ bytesBE 16 (m.length * 8)
  let ks := primes80.map (rootBits 3)
  let h := (List.range (pad.length / 128)).foldl (fun h k => shaBlock ks h ((pad.drop (128 * k)).take 128)) (((primes80.drop 8).take 8).map (rootBits 2))
  (h.take 6).foldl (fun a w => a * 2 ^ 64 + w) 0

/-! ### ECDSA on P-384 -/

/-- The prime of the field, the order of the group, the curve's constant and its base point. -/
def p384P : Nat := 2 ^ 384 - 2 ^ 128 - 2 ^ 96 + 2 ^ 32 - 1
def p384N : Nat := 0xFFFFFFFFFFFFFFFFFFFFFFFFFFFFFFFFFFFFFFFFFFFFFFFFC7634D81F4372DDF581A0DB248B0A77AECEC196ACCC52973
def p384X : Nat := 0xAA87CA22BE8B05378EB1C71EF320AD746E1D3B628BA79B9859F741E082542A385502F25DBF55296C3A545E3872760AB7
def p384Y : Nat := 0x3617DE4A96262C6F5D9E98BF9292DC29F8F41DBD289A147CE9DA3113B5F0B8C00A60B1CE1D7E819D7A431D7C90EA0E5F

/-- A power modulo a number, of an exponent of 384 bits. -/
def powMod (m b e : Nat) : Nat := (List.range 384).foldl (fun a i => let a := a * a % m; if bitOf e (383 - i) then a * b % m else a) 1

/-- The inverse modulo a prime. -/
def invMod (m a : Nat) : Nat := powMod m (a % m) (m - 2)

/-- The sum of two points of the curve; none is the point at infinity. -/
def ecAdd (a b : Option (Nat × Nat)) : Option (Nat × Nat) :=
  match a, b with
  | none, b => b
  | a, none => a
  | some (x, y), some (u, v) =>
    let p := p384P
    if x = u ∧ (y + v) % p = 0 then none
    else
      let l := if x = u then (3 * x * x + p - 3) * invMod p (2 * y) % p else (v + p - y) * invMod p (u + p - x) % p
      let w := (l * l + 2 * p - x - u) % p
      some (w, (l * (x + p - w) + p - y) % p)

/-- A multiple of a point. -/
def ecMul (k : Nat) (a : Option (Nat × Nat)) : Option (Nat × Nat) :=
  (List.range 384).foldl (fun r i => let r := ecAdd r r; if bitOf k (383 - i) then ecAdd r a else r) none

/-- Whether a signature, r and s big-endian in 48 bytes each, of a digest verifies under a public key. -/
def ecdsaOk (x y : BitVec 384) (z : Nat) (sig : List Byte) : Bool :=
  let n := p384N
  let r := numBE (sig.take 48)
  let s := numBE ((sig.drop 48).take 48)
  let w := invMod n s
  decide (0 < r) && decide (r < n) && decide (0 < s) && decide (s < n) &&
    (match ecAdd (ecMul (z * w % n) (some (p384X, p384Y))) (ecMul (r * w % n) (some (x.toNat, y.toNat))) with
     | some (v, _) => v % n == r
     | none => false)

/-! ### With the module's keys -/

/-- Whether a signature over a message verifies under the public key in eFuse slot `slot` (R361, R473). -/
def sigOk (slot : Nat) (msg sig : List Byte) : Bool := ecdsaOk (Config.pubKeyX slot) (Config.pubKeyY slot) (sha384 msg) sig

/-- Bytes from position `pos` on pass through the key stream of an image (R361): encrypting and decrypting are the same. -/
def imageCrypt (slot iv pos : Nat) (bs : List Byte) : List Byte := bs.zipIdx.map (fun x => x.1 ^^^ gcmStream (Config.aesKey slot) (bytesLE 12 iv) (pos + x.2))

/-- The tag of an image (R361). -/
def imageTag (slot iv : Nat) (aad ct : List Byte) : Nat := gcmTag (Config.aesKey slot) (bytesLE 12 iv) aad ct

/-- Bytes of a resident slot from offset `off` on pass through the stream of the key drawn at cold reset `key` (R382); its initialisation vector is open. -/
def residentCrypt (key n off : Nat) (bs : List Byte) : List Byte :=
  bs.zipIdx.map (fun x => x.1 ^^^ gcmStream (Config.residentKey key) (bytesLE 12 (Config.residentIv key n).toNat) (off + x.2))

end Sys2Proof.Machine
end

