-- ==== Sys2Proof/Machine/Map.lean ====
section
/-!
DEFINITION. Machine/Map.lean: sparse maps as lists of key and value pairs with rising keys, and the byte memory as a list of cells in one
canonical form: addresses strictly rising, and no cell equal to what an unlisted address reads as, which is zero (R136, R194).
-/
namespace Sys2Proof.Machine

/-- A sparse map from numbers: pairs in rising key order. -/
abbrev Map (α : Type) := List (Nat × α)

/-- The value at a key, if the map lists one. -/
def Map.find {α : Type} : Map α → Nat → Option α
  | [], _ => none
  | (k', v) :: m, k => if k' = k then some v else Map.find m k

/-- The value at a key, or the default of an unlisted key. -/
def Map.getD {α : Type} (m : Map α) (k : Nat) (d : α) : α := (Map.find m k).getD d

/-- The map with one key's value replaced or inserted in order. -/
def Map.set {α : Type} : Map α → Nat → α → Map α
  | [], k, v => [(k, v)]
  | (k', v') :: m, k, v =>
    if k' = k then (k, v) :: m
    else if k < k' then (k, v) :: (k', v') :: m
    else (k', v') :: Map.set m k v

/-- The map without a key. -/
def Map.del {α : Type} (m : Map α) (k : Nat) : Map α := m.filter (fun e => e.1 != k)

/-- The byte memory of the module and of the memories behind its links. -/
abbrev Memory := List Host.Cell

/-- The byte at an address; an unlisted address reads zero. -/
def Memory.get (m : Memory) (a : Nat) : Byte := (Map.find m a).getD 0

/-- Store a byte: a zero byte removes the cell, any other replaces or inserts it in order. -/
def Memory.put : Memory → Nat → Byte → Memory
  | [], a, b => if b = 0 then [] else [(a, b)]
  | (k, v) :: m, a, b =>
    if k = a then (if b = 0 then m else (a, b) :: m)
    else if a < k then (if b = 0 then (k, v) :: m else (a, b) :: (k, v) :: m)
    else (k, v) :: Memory.put m a b

/-- `n` bytes from an address on, lowest address first. -/
def Memory.gets (m : Memory) (a : Nat) : Nat → List Byte
  | 0 => []
  | n + 1 => Memory.get m a :: Memory.gets m (a + 1) n

/-- Store bytes from an address on. -/
def Memory.puts (m : Memory) (a : Nat) : List Byte → Memory
  | [] => m
  | b :: bs => Memory.puts (Memory.put m a b) (a + 1) bs

/-- The little-endian number in `n` bytes at an address. -/
def Memory.num (m : Memory) (a n : Nat) : Nat := numLE (Memory.gets m a n)

/-- Every address of a list of cells is above `lo`, addresses strictly rise and no cell is zero. -/
def Memory.above : Nat → Memory → Bool
  | _, [] => true
  | lo, (a, b) :: m => decide (lo ≤ a) && b != 0 && Memory.above (a + 1) m

/-- The canonical form of a memory: addresses strictly rising and no zero cell. -/
def Memory.wf (m : Memory) : Bool := Memory.above 0 m

/-- The memory without the cells from `lo` to `hi - 1`: they read zero. -/
def Memory.wipe (m : Memory) (lo hi : Nat) : Memory := m.filter (fun c => c.1 < lo || hi ≤ c.1)

/-- Copy `n` bytes from `lo` to `d`. -/
def Memory.copy (m : Memory) (lo n d : Nat) : Memory :=
  (m.filter (fun c => decide (lo ≤ c.1) && decide (c.1 < lo + n))).foldl (fun m c => Memory.put m (c.1 - lo + d) c.2) (Memory.wipe m d (d + n))

end Sys2Proof.Machine
end

