-- ==== Sys2Proof/Machine/FeState.lean ====
section
/-!
DEFINITION. Machine/FeState.lean: what the fail engine keeps beside its registers and the line tracker RAM: repair units, the Fail Address Table, tile caches, the
solvers and the commit headers (R333 to R354).
-/
namespace Sys2Proof.Machine

/-- One entry of the Fail Address Table (R348): its place in the table, and its cell position with the mask of uncovered failing cells. -/
structure FatEntry where
  slot : Nat
  part : Nat
  unit : Nat
  row : Nat
  col : Nat
  mask : Nat
deriving DecidableEq, Repr

/-- A record as a slice holds it (R323), with the partition that its fail port belongs to. -/
structure FeRec where
  part : Nat
  site : Nat
  unit : Nat
  row : Nat
  col : Nat
  mask : Nat
  cyc : Nat
deriving DecidableEq, Repr

/-- A tile of a slice's cache (R335, R337): the unit, the row segment and its words by column. -/
structure Tile where
  unit : Nat
  row : Nat
  base : Nat
  words : Map Nat
deriving DecidableEq, Repr

/-- A repair unit (R333, R334, R346): its state, its descriptor as the last ARM set it, and what the home slice keeps for it. -/
structure FUnit where
  st : Nat               -- 0 IDLE, 1 ARMING, 2 ARMED, 3 QUEUED, 4 SOLVING, 5 DONE
  part : Nat
  mapbase : Nat
  fmt : Nat
  an : Bool
  auto : Bool
  len : Nat
  tbase : Nat
  nr : Nat
  nc : Nat
  iomode : Bool
  sr : Nat
  sc : Nat
  site : Nat
  gen : Nat
  fr : Int
  fc : Int
  mrRows : List Nat      -- must-repair rows and column lines found
  mrCols : List Nat
  fatfull : Bool
  mapfull : Bool
  maperr : Bool
  warm : Bool
  late : Bool
  nwrite : Nat
  lastcyc : Nat
deriving DecidableEq, Repr

/-- A unit that has never been armed. -/
def FUnit.idle : FUnit :=
  { st := 0, part := 0, mapbase := 0, fmt := 0, an := false, auto := false, len := 0, tbase := 0, nr := 1, nc := 1, iomode := false, sr := 0, sc := 0, site := 0,
    gen := 0, fr := 0, fc := 0, mrRows := [], mrCols := [], fatfull := false, mapfull := false, maperr := false, warm := false, late := false, nwrite := 0,
    lastcyc := 0 }

/-- A result that waits for its place in a Repair Result Queue: the entry's words but for `PHASE`. -/
structure FeResult where
  part : Nat
  unit : Nat
  words : List Nat
deriving DecidableEq, Repr

/-- The latest mark of one collector for one site (R339). -/
structure SiteMark where
  site : Nat
  isl : Nat
  cyc : Nat
  ended : Bool
deriving DecidableEq, Repr

/-- The site entries and run flags as the last commit tick took them (R342). -/
structure FeTick where
  marks : List SiteMark
  siteLost : Nat
  siteSusp : Nat
  bad : Map Nat
  lost : Bool
  susp : Bool
deriving DecidableEq, Repr

/-- What the fail engine keeps for a partition. -/
structure FePart where
  seqno : Nat
  lost : Bool
  susp : Bool
  maperr : Bool
  warm : Bool
  warmCnt : Nat
  marks : List SiteMark
  siteLost : Nat         -- bit s: a mark of site s carried the lost flag
  siteSusp : Nat
  bad : Map Nat          -- lowest first-bad cycle by site
  body : List Nat        -- the header body of the last tick: `PCOMMIT`, the flags, two words a site
  tick : FeTick          -- what it was taken from
  arming : Option Nat    -- the unit whose ARM is in progress
  phase : Bool           -- the value `PHASE` takes next
deriving DecidableEq, Repr

/-- A partition without marks. -/
def FePart.fresh : FePart :=
  { seqno := 0, lost := false, susp := false, maperr := false, warm := false, warmCnt := 0, marks := [], siteLost := 0, siteSusp := 0, bad := [],
    body := List.replicate 130 0, tick := { marks := [], siteLost := 0, siteSusp := 0, bad := [], lost := false, susp := false }, arming := none, phase := true }

/-- What the fail engine keeps for the module. -/
structure Fe where
  tiles : Map (List Tile)    -- the tile cache of each slice, oldest first
  lines : List FeRec         -- fail-list entries not written yet, oldest first
  home : Map (List FeRec)    -- records on their way to each home slice's analysis, oldest first
  served : Map Nat           -- the logical column that each fail port served last, plus 1
  solveQ : List Nat          -- units that wait for a solver, oldest first
  engines : Map Nat          -- the unit that each busy solver engine holds
  kept : Map FeResult        -- results that engines keep for want of holding space
  held : List FeResult       -- the holding space, oldest first; at most 256
  early : List FeResult      -- early results that wait for holding space, oldest first
deriving DecidableEq, Repr

/-- A fail engine with nothing in it. -/
def Fe.empty : Fe := { tiles := [], lines := [], home := [], served := [], solveQ := [], engines := [], kept := [], held := [], early := [] }

end Sys2Proof.Machine
end

