-- ==== Sys2Proof/Machine/ModState.lean ====
section
/-!
DEFINITION. Machine/ModState.lean: what the shared blocks of the module keep beside their registers: configuration controller, mailbox, ring node,
reset and power sequencing, repair, debug port.
-/
namespace Sys2Proof.Machine

/-- One configuration frame as the configuration memory stores it (R362, R365): its 1,024 bits, the `FCRC` and the `FADDR` it was written with. -/
structure CfgFrame where
  data : BitVec 1024
  crc : W32
  faddr : W32
deriving DecidableEq, Repr

/-- The configuration controller (R359 to R387). -/
structure Cfg where
  src : Nat                -- source of the running load: 0 window, 1 CSP, 2 flash update, 3 flash golden, 4 resident slot
  mode : Nat               -- its mode: 0 hold, 1 live, 2 full; a reload is mode 0 from source 4
  part : Nat
  golden : Bool            -- it is the golden fall-back of a full load (R371)
  buf : List Byte          -- the input buffer, oldest byte first
  feed : List Byte         -- bytes that firmware has still to write into the window (R401)
  feedBad : Bool           -- its read of the bytes after these failed, or they are poisoned (R370)
  ended : Bool             -- the source has ended: no more bytes will come
  hdr : List Byte          -- the 256 header bytes taken
  body : List Byte         -- the bytes taken after the header, as carried, newest first
  seen : List Nat          -- `FADDR`s of the records accepted, newest first
  staged : Map CfgFrame    -- records of a live load by `FADDR` (R373)
  mapTaken : Nat           -- essential-bit map records taken
  mapsIn : Map (BitVec 1024) -- their contents, by `FADDR`
  cspWait : Bool           -- a load from the Configuration Slave Port waits for `CSP_CS_N` (R378)
  boot : Nat               -- start-up array load (R376): 0 none, 1 waits for a CSP image, 2 update image, 3 golden image, 4 CSP image
  csLow : Bool             -- `CSP_CS_N` is low
  cspMode : Nat            -- `CSP_MODE` as `CSP_CS_N` fell last
  cspBoot : Nat            -- `CSP_MODE` as the trim load completed (R376)
  low : Nat                -- rising edges of `CSP_CLK` since `CSP_RDY` fell
  noted : Bool             -- bytes outside a load have been logged in this low period
  scrubAt : Nat            -- next frame of the sweep: island × 128 + frame (R385)
  scrubNoted : List Nat    -- frames whose mismatch without a valid slot has been logged
  maps : Map (BitVec 1024) -- essential bits of the frames loaded; a frame without an entry has every bit essential
  hdrs : Map (List Byte)   -- header of the image last loaded in each partition
  key : Nat                -- number of the key that encrypts resident slots (R382)
  crypt : List Nat         -- frames that their slots hold encrypted (R382): partition × 2^18 + number of the record
  last : Map Nat           -- by partition, the code with which the last load that named it ended; firmware reads it at the end of a load
deriving DecidableEq, Repr

/-- A configuration controller without a load. -/
def Cfg.idle : Cfg :=
  { src := 0, mode := 0, part := 0, golden := false, buf := [], feed := [], feedBad := false, ended := false, hdr := [], body := [], seen := [], staged := [], mapTaken := 0,
    mapsIn := [], cspWait := false, boot := 0, csLow := false, cspMode := 0, cspBoot := 0, low := 0, noted := false, scrubAt := 0, scrubNoted := [], maps := [], hdrs := [],
    key := 0, crypt := [], last := [] }

/-- A mailbox command that firmware has taken (R398): the function, its descriptor, and whether it is executing and what it waits for. -/
structure Job where
  fn : Nat
  d : Desc
  started : Bool
  wake : Bool              -- `WAKEEN` bit 2 of its partition was set as the command came (R445, R447)
  note : Nat               -- what the command keeps while it waits
  sets : List (RF × Nat)   -- the fields the command has set, and the values it wrote (R8)
deriving DecidableEq, Repr

/-- A completion as it is written into a ring, without `PHASE` (R399). -/
structure Cpl where
  w0 : Nat
  tag : Nat
  r0 : Word
  r1 : Word
deriving DecidableEq, Repr

/-- What a function's mailbox keeps beside its ring memory and registers: the value `PHASE` takes next and the completions that wait (R399), and descriptors taken. -/
structure Mbx where
  phase : Bool
  wait : List Cpl
  taken : List Nat         -- slots of the submission ring from `MBX_SQH` on whose descriptors firmware has taken ahead of others that wait (R7, R398)
deriving DecidableEq, Repr

/-- A mailbox after cold reset. -/
def Mbx.empty : Mbx := { phase := true, wait := [], taken := [] }

/-- An entry of the ring node's receive FIFO (R420). -/
structure RxEntry where
  fsum : Bool
  src : Nat
  pay : Word
deriving DecidableEq, Repr

/-- What the receiver of a ring lane has seen of its blocks (R411, R175); places in the stream of blocks are told in 1/256 block, 0.01 ns. -/
structure RingLine where
  lock : Bool              -- block lock
  pos : Nat                -- place of the next block
  since : Nat              -- place behind the latest invalid header
  bad : List Nat           -- places of the invalid headers among the last 64 blocks, newest first
  silent : Bool            -- the ring has been silent for 4 µs and has delivered nothing since (R422)
deriving DecidableEq, Repr

/-- A ring lane whose receiver has seen nothing. -/
def RingLine.fresh : RingLine := { lock := false, pos := 0, since := 0, bad := [], silent := false }

/-- The ring node (R411 to R424) and the trigger pins (R425). -/
structure Ring where
  up : Nat                 -- ns of the node's clock since the trim load, which no correction of `RING_TIME` steps
  line0 : RingLine         -- the receiver of ring 0
  line1 : RingLine
  open0 : Bool             -- ring 0's bypass is open
  open1 : Bool
  seq : Nat                -- `SEQ` of the next frame of this node
  txq : List (Nat × RingFrame) -- its own frames waiting to be sent, highest priority first; at most 32
  gap : Nat                -- ticks until the line is free for the next own frame
  got : Map (List Nat)     -- by source, the `SEQ` values delivered last, newest first; at most 128
  heard : Map (List Nat)   -- by source, the `SEQ` values received last on either ring, newest first; at most 128
  heads : Map Nat          -- by 2 × source + ring, the last `SEQ` seen on that ring, plus 1
  missing : List (Nat × Nat × Nat) -- source, `SEQ` and ring of gaps seen on one ring
  due : List (Nat × RingFrame) -- delivered frames that wait for their `TS`, in arrival order
  rx : List RxEntry        -- receive FIFO, oldest first; at most 16
  shown : Bool             -- the oldest entry is presented (R420)
  level : List (Nat × Nat) -- routes in level mode whose output is 1, with the event number
  hitAt : Map Nat          -- `up` at each route's latest match in edge mode, plus 1
  pulse : Map Nat          -- by trigger, `up` at the end of the 8 ns pulse of a route
  step : Nat               -- 0 idle; join: 1 listening, 2 ring 0 settles, 3 waits for a CLAIM, 4 ring 1 settles, 5 waits for echoes; leave: 6 waits for LEAVE, 7 ring 1 closed
  leaving : List Nat       -- rings on which the LEAVE frame has not returned (R423)
  rejoin : Bool            -- the node joins again at the end of its leave: Diapause was left in the meantime (R424)
  nonce : Word
  echo : List Nat          -- rings with a PROBE request waiting for its echo
  nodes : List (Nat × Nat) -- sources of CICADA blocks with `up` at the latest
  master : Option Nat      -- the source of TIME that the node follows
  masterAt : Nat           -- `up` at the latest TIME frame of it, or CICADA block that names it the master
  timeHop : Nat            -- `SEQ` × 128 + `HOP` of the TIME copy used last
  slew : Int               -- correction of `RING_TIME` still to be slewed, in ns (R415)
  slewAt : Nat             -- ticks since the last slewed ns
  fails : Nat              -- bit n: `FAILS` of partition n as the node saw it last
  rose : Nat               -- bit n: it rose since the last FSUM
  edge : Map Nat           -- by pin, `up` at the latest edge, plus 1
  calm : Map Nat           -- by masked pin, `up` since which it has been seen inactive (R425)
  drove : Map Nat          -- by pin, the level it drove at the latest tick (R425)
deriving DecidableEq, Repr

/-- A node out of the ring. -/
def Ring.out : Ring :=
  { up := 0, line0 := RingLine.fresh, line1 := RingLine.fresh, open0 := false, open1 := false, seq := 0, txq := [], gap := 0, got := [], heard := [], heads := [], missing := [],
    due := [], rx := [], shown := false, level := [], hitAt := [], pulse := [], step := 0, leaving := [], rejoin := false, nonce := 0, echo := [], nodes := [], master := none,
    masterAt := 0, timeHop := 0, slew := 0, slewAt := 0, fails := 0, rose := 0, edge := [], calm := [], drove := [] }

/-- A wake that waits for the wake controller (R446): the partition and how many of its rows have still to be admitted; `started` after the first. -/
structure WakeReq where
  part : Nat
  left : Nat
  started : Bool
deriving DecidableEq, Repr

/-- The progress record of a spare-column repair (R464, R465). -/
structure Repair where
  part : Nat
  row : Nat
  col : Nat
  step : Nat               -- the next step of R464 to perform
  p : Nat                  -- in step 5, the physical column to be copied next
  ran : Bool               -- the partition was RUNNING at step 1
  reset : Bool             -- a partition reset waits for step 6
  warm : Bool              -- a warm reset met the repair
deriving DecidableEq, Repr

/-- Reset, power and debug state of the module. -/
structure Sys where
  vin : Bool               -- VIN is valid
  coldLow : Bool           -- `COLD_RST_N` is low
  warmLow : Bool
  perstLow : Bool
  stage : Nat              -- 0 off, 1 always-on domain up and trim load due, 2 trim loaded, 3 firmware running, 4 no firmware
  trimFails : Nat          -- failed trim attempts since the last reset source was released
  trip : Bool              -- the thermal trip holds (R485)
  pgood : Bool             -- `PGOOD` is high: the rails have come into regulation (R437); low in trim fault (R436) and after a trip (R485)
  spares : Map Nat         -- stored spare map: rows with a retired island
  rel : List Nat           -- domains in reset whose release has been requested
  late : List Nat          -- domains of these whose wait has been logged as overlong (R433, R499)
  prst : Nat               -- bit n: a partition reset of partition n has begun and not all its domains have left reset since (R432)
  trained : Bool           -- the host link has trained since cold reset
  warmSvc : Bool           -- firmware is restarting after a warm reset
  reloads : List Nat       -- partitions that firmware has still to reload after a warm reset (R384)
  flashDue : Bool          -- a warm reset aborted a full load: firmware runs the flash sequence (R384)
  leaves : Map (Nat × Nat) -- by partition, the table and the address at which firmware last wrote island-memory leaves (R35)
  wakes : List WakeReq     -- oldest first
  entering : Map Nat       -- by partition, the rung that an entry in progress goes to
  nextRung : Map Nat       -- by partition, the rung to go to when the change in progress completes (R443, R447)
  lastDefer : Map Nat      -- by partition, the deferral of its latest wake in ns
  trigEv : Nat             -- bit n: a TRIG event of partition n, enabled as it came, since it entered its rung
  wakeOld : Map (Nat × Nat) -- by partition, the doorbells that were pending at a write of `WAKEEN`, and those of them that its old value enabled (R447)
  repair : Option Repair
  l0p : Bool               -- the host has L0p enabled (R395)
  hasd : Bool              -- the host has set Hardware Autonomous Speed Disable
  cxlDead : Nat            -- bit p: the request outstanding at CXL port p will not complete (R405)
  fault : Nat              -- management fault code (R459)
  alert : Bool             -- `ALERT_N` is low
  capMs : Nat              -- ms since `CEIL` was last changed (R486)
  hot : Bool               -- the lid is above 75.0 °C (R486)
  holds : Map (Nat × Nat)  -- by requester, address and value of its most recent lower-half write (R10)
  pins : Map Nat           -- output pins that hold a level or high impedance: TRIG 0 to 7, GPIO 8 to 23; 0, 1, or 2 for high impedance
  ir : Nat                 -- JTAG instruction
  bsr : BitVec 80          -- boundary-scan register
  extest : Bool
  dbgResult : Nat          -- status of the latest `DBGACC`
  dbgData : Word
  challenge : Word
  tries : Nat              -- failed unlock attempts since cold reset
  better : Map Nat         -- by monitor × 4 + state, seconds for which its estimate has stood for that state or a better one (R461)
  healthAt : Word          -- `RING_TIME` of the latest estimate (R462)
  modId : Nat              -- `MOD_ID` as sampled at the start of the trim load (R496)
deriving DecidableEq, Repr

/-- The module before VIN becomes valid. -/
def Sys.off : Sys :=
  { vin := false, coldLow := false, warmLow := false, perstLow := false, stage := 0, trimFails := 0, trip := false, pgood := false, spares := [], rel := [], late := [], prst := 0,
    trained := false, warmSvc := false, reloads := [], flashDue := false, leaves := [], wakes := [], entering := [], nextRung := [], lastDefer := [], trigEv := 0, wakeOld := [], repair := none, l0p := false, hasd := false, cxlDead := 0, fault := 0, alert := false, capMs := 0, hot := false,
    holds := [], pins := [], ir := 2, bsr := 0, extest := false, dbgResult := 0, dbgData := 0, challenge := 0, tries := 0, better := [], healthAt := 0, modId := 0 }

end Sys2Proof.Machine
end

