-- ==== Sys2Proof/Machine/ArrayState.lean ====
section
/-!
DEFINITION. Machine/ArrayState.lean: what an island keeps beside its registers, its memory and its configuration frames: the word units'
accumulators, block state, input entries, pipelines and output registers, the flag logic array's storage elements, the termination FIFOs,
the planes of the switch box, the fail collector and the messages on the control net.
-/
namespace Sys2Proof.Machine

/-- The array word of R41: `[35]` TK, `[34]` ST, `[33]` U1, `[32]` U0, `[31:0]` DATA. -/
abbrev AWord := BitVec 36

/-- One firing on its way to the output register (R47, R54): the operation word it fired under, its operands, the condition s of R50,
and whether it was skipped (R49). -/
structure Firing where
  opw : W32
  mbase : BitVec 16
  a : AWord
  b : AWord
  m : AWord
  s : Bool
  skip : Bool
  tok : Option AWord     -- the FAIL token that follows the result (R327)
  left : Nat := 0        -- island cycles until the result can stand in the output register (R55)
deriving DecidableEq, Repr

/-- The state one word unit keeps for all its planes (R70), its input entries (R47), its pipeline and its output register (R48). -/
structure Wu where
  acc : BitVec 72        -- accumulator (R63)
  pinned : Bool          -- the accumulator is pinned (R63)
  poison : Bool          -- poison bit (R64)
  t0 : BitVec 160        -- permutation table T0, entry i in bits 5i+4..5i (R59)
  t1 : BitVec 160        -- permutation table T1
  bexp : Nat             -- running minimum m of BEXP (R67)
  best : W32             -- best value V of SMAX and SMIN (R68)
  index : W32            -- index X
  pos : Nat              -- position counter
  posStop : Bool         -- the position counter stopped at its limit
  replaced : Bool        -- a replacement occurred in the block (C of SMAX and SMIN)
  blkSt : Bool           -- OR of ST over the block
  seqM : Nat             -- sequential M counter n (R51)
  seqPre : Option (Nat × AWord) := none -- word address and word that a sequential read has fetched with the word before it (R138)
  lastTags : BitVec 2    -- user tags of the last firing (R57)
  a : List AWord         -- entries of input A, head first
  b : List AWord         -- entries of input B
  m : List AWord         -- entries of input M filled by pass-through of a queue (R146)
  pipe : List Firing     -- firings without a result yet, oldest first
  out : List AWord       -- the output register, and behind it the words one emission has committed (R66, R68)
  taken : List Nat       -- consumers that have accepted the output word (R48)
  blkDone : Bool         -- the block result of the token at A has been emitted (R66)
  disc : List Nat        -- inputs (0 A, 1 B, 2 M) that discard up to an ABORT token, once for each such token (R53)
  owed : List Nat        -- inputs that owe a MOULT token (R100)
  timer : Nat            -- join timer (R98)
  stalled : Bool         -- the event of the present stall has been raised (R99)
deriving DecidableEq, Repr

/-- The identity permutation: entry i is i (R59). -/
def permIdentity : BitVec 160 :=
  BitVec.ofNat 160 ((List.range 32).foldl (fun t i => t + i * 2 ^ (5 * i)) 0)

/-- A word unit after island reset (R70). -/
def Wu.reset : Wu :=
  { acc := 0, pinned := false, poison := false, t0 := permIdentity, t1 := permIdentity, bexp := 31, best := 0,
    index := 0xFFFFFFFF, pos := 0, posStop := false, replaced := false, blkSt := false, seqM := 0, lastTags := 0,
    a := [], b := [], m := [], pipe := [], out := [], taken := [], blkDone := false, disc := [], owed := [], timer := 0,
    stalled := false }

/-- What a collector sends to its fail port: a record (R323), a progress mark or an end mark (R328). -/
inductive ItemKind where
  | record | progress | finish
deriving DecidableEq, Repr

/-- A fail record or a mark, with the flags of R328 to R330. -/
structure FailItem where
  kind : ItemKind
  lost : Bool
  susp : Bool
  rebase : Bool
  site : Nat
  unit : Nat
  row : Nat
  col : Nat
  mask : W32
  cyc : Nat
  bad : Option Nat       -- first-bad cycle of a flagged mark
deriving DecidableEq, Repr

/-- The fail collector of an island (R324 to R330). -/
structure Collector where
  fifo : List FailItem   -- the record FIFO with the marks in order, oldest first; at most 16 items (R329)
  hold : Option FailItem -- the holding register of a mark that found the FIFO full (R328)
  fired : Nat            -- firings counted towards the next progress mark of PROG
  idle : Nat             -- island cycles since the most recent firing
  covered : Bool         -- a mark covers the most recent firing
  lastCyc : Nat          -- vector cycle of the most recent firing
  lost : Bool            -- flags of the next mark (R326, R329)
  susp : Bool
  bad : Option Nat       -- earliest lost or suspect cycle that no mark covers yet
deriving DecidableEq, Repr

/-- A broadcast of `ACTX` on its way to an island or held there by a lock (R102, R108). -/
structure Bcast where
  fenced : Bool
  plane : BitVec 4
deriving DecidableEq, Repr

/-- What arrives over the control net or the parameter bus at an island that a capture holds (R468). -/
inductive Arrival where
  | bcast (b : Bcast)
  | arming (set fp pp : Nat)
  | resolution (set : Nat) (fail : Bool)
  | param (k : Nat) (v : W32)
deriving DecidableEq, Repr

/-- An access that waits in a stream/DMA port (R147), and the sequencer whose posted store it is; 24 for every other requester. -/
structure PortWait where
  req : PortReq
  src : Nat := 24
deriving DecidableEq, Repr

/-- What an island keeps beside its registers, memory and frames.  Planes of the switch box are keyed by element: 16 + s driven segment s,
96 + t termination t, 128 + k spine joint k. -/
structure Isl where
  wus : Map Wu
  q : BitVec 24          -- macrocell storage elements (R73)
  mcLast : BitVec 24     -- macrocell outputs at the most recent island edge (R74)
  tdNow : BitVec 4       -- token detectors (R78)
  tdNext : BitVec 4      -- tokens placed since the last island edge
  fifos : Map (List AWord)   -- termination FIFOs, head first (R122)
  fifoTaken : Map (List Nat) -- consumers that have taken a termination's head (R116)
  segTaken : Map (List Nat)  -- terminations that have taken the word on a segment (R116)
  queueTaken : Map (List Nat) -- consumers that have taken a queue's head (R145)
  box : Map Nat          -- current planes of segments, terminations and joints (R93)
  boxPend : Map Nat      -- switches of the box that wait for a lock or for the next edge (R94, R110)
  fencePend : List Nat := []  -- elements whose waiting switch is that of the armed broadcast (R108)
  boxHold : Map (AWord × List Nat) := [] -- a word that stands on a segment or joint which has changed its source, and the terminations that have yet to take it (R104, R116)
  relPend : Nat := 0     -- word units released at the next island edge (R100)
  follow : List (Nat × Bool) -- the planes idle elements of the box take at the next island edge, in order, and whether under the fence (R94, R106)
  comb : Map Nat         -- combining buffers: the ECC word whose low half a queue has pushed without its pair (R138, R139)
  qcmd : Map Nat         -- commands of a queue's present edge: 1 mark, 2 rewind, 4 release, 16 flush; 8: the mark is one of a popped MARK token; 32: a word has been popped (R146, R148)
  pref : Map (Nat × AWord) := [] -- prefetch buffers: the word a queue has read with the word before it, and its word address (R138)
  wrote : List Nat := [] -- ECC words that the island port has written since the last island edge (R140)
  portQ : List PortWait  -- accesses that wait in the stream/DMA port, oldest first (R147)
  xref : Bool            -- a full FIFO has refused a word in the present cycle (R132)
  switched : Bool        -- the steering unit has switched queues since the last island edge (R315)
  waitLogged : Bool      -- the present wait at a fork point has been logged as overlong (R316)
  spWait : List Nat      -- spine tracks whose joint waits for an opposing driver (R121)
  bcasts : List Bcast    -- broadcasts on the control net, oldest first
  arrived : List Arrival := [] -- what has arrived while a capture held the island, oldest first (R468)
  lineSent : Map Nat := [] -- for each event line the island cycle of its latest delivery (R77)
  unsw : List Nat        -- elements an armed fenced broadcast has not switched yet (R106)
  inReset : Bool         -- the island is held in reset
  clkHalt : Bool         -- halted by clock stretching (R434)
  haltLogged : Bool      -- its halt has been logged as overlong (R434, R499)
  frozen : Bool          -- held by a firefly capture (R467)
  freezeCmd : Bool       -- a freeze command is on its way (R467)
  cycle : Nat            -- island cycles since reset
  pf : BitVec 4          -- PF0 to PF3 as the control net delivers them (R71)
  ffDrive : Bool         -- the island drives the partition fail flag (R76)
  ffRise : Bool          -- it has driven the flag since the primary last saw the flag (R207)
  coll : Collector
  forkIn : List (Nat × Nat × Nat) -- FORK armings on the control net: set, fail plane, pass plane (R313)
  resIn : List (Nat × Bool × Nat) -- resolutions on the control net: set, outcome fail (R315), armings ahead of it
deriving DecidableEq, Repr

/-- A collector after island reset (R330). -/
def Collector.reset : Collector := 
  { fifo := [], hold := none, fired := 0, idle := 0, covered := true, lastCyc := 2 ^ 40 - 1, lost := false, susp := false, bad := none }

/-- An island held in reset (R19, R70, R73, R83, R125). -/
def Isl.reset : Isl :=
  { wus := [], q := 0, mcLast := 0, tdNow := 0, tdNext := 0, fifos := [], fifoTaken := [], segTaken := [], queueTaken := [], box := [],
    boxPend := [], follow := [], comb := [], qcmd := [], portQ := [], xref := false, switched := false, waitLogged := false, spWait := [], bcasts := [], unsw := [], inReset := true, clkHalt := false, haltLogged := false,
    frozen := false, freezeCmd := false, cycle := 0, pf := 0, ffDrive := false, ffRise := false, coll := Collector.reset, forkIn := [], resIn := [] }

end Sys2Proof.Machine
end

