-- ==== Sys2Proof/Machine/PortState.lean ====
section
/-!
DEFINITION. Machine/PortState.lean: what the ports at the row ends keep beside their registers: the streams that are dealt to tracks
(R163, R293), the lanes (R155 to R183) and the streams of the memory stream ports (R292 to R298).
-/
namespace Sys2Proof.Machine

/-- One item of a stream that is dealt to tracks: the word; whether it is the last of its block; and, for a token injected by `MOULT` into
some tracks only, the mask of those tracks (0 for an item of the stream itself). -/
structure StreamItem where
  w : AWord
  ends : Bool
  mask : Nat
deriving DecidableEq, Repr

/-- A stream that is dealt to the tracks of its group (R163): its items in order, the index of the next data word after the most recent
token, and the tracks that have taken the token at its head. -/
structure StreamBuf where
  items : List StreamItem
  deal : Nat
  took : List Nat
deriving DecidableEq, Repr

/-- A stream with nothing in it. -/
def StreamBuf.empty : StreamBuf := { items := [], deal := 0, took := [] }

/-- A block of a lane before scrambling (R158, R159): a data block with its earlier and later word, or a control block. -/
inductive Blk where
  | data (early late : W32)
  | ctl (type : BitVec 8) (sb : BitVec 4) (half : Bool) (body : BitVec 51)
deriving DecidableEq, Repr

/-- One flight of the transmitter that waits for its acknowledgement (R167, R168). -/
structure Flight where
  fseq : Nat
  items : Nat
deriving DecidableEq, Repr

/-- What a stream lane keeps beside its registers.  The fields of the logical stream (from `flight` on) are kept in the first lane of a group. -/
structure Lane where
  txt : Bool             -- modes taken at the last training (R182)
  rxt : Bool
  rpen : Bool
  rpq : Nat
  rpu : Nat
  lock : Bool            -- block lock (R175)
  hdrs : List Bool       -- validity of the most recent sync headers, newest first, at most 64
  keepState : Bool       -- in seek from normal operation: flight sequence, credits and replay state kept (R176)
  seekLogged : Bool      -- the deferred error of a seek of 1 ms has been logged (R176)
  rxTrain : Nat          -- consecutive TRAIN blocks received for the present training state
  txTrain : Nat          -- TRAIN blocks sent in the present training state
  pll : Bool             -- waits to train for the quad's clock, or for the wake of its partition (R181)
  rxSb : BitVec 4        -- SB bits of the most recent valid control block
  ls1 : Bool             -- LS1 pulses in the present island cycle
  flight : List Blk      -- blocks of the open flight received
  flightBad : Bool       -- an invalid block stands in the open flight
  rxSeq : Nat            -- expected FSEQ
  naked : Bool           -- a NAK has been returned since the last good flight
  late : Bool            -- the last data word of `buf` is a later word that is not offered until HALF of the next block is known (R158)
  buf : StreamBuf        -- words delivered and not yet taken
  stale : Nat            -- blocks of `buf` from before the last training, for which no credit is granted again (R166)
  granted : Nat          -- cumulative credits granted with those of ICRED, modulo 65,536
  returned : Nat         -- credits granted at the last return block
  ackDue : Bool          -- an acknowledgement is owed
  nakDue : Bool
  rxAbort : Bool         -- inside a run of ABORT blocks
  held : Option W32      -- a single word not yet in a block
  blocks : List Blk      -- blocks assembled and not yet sent, oldest first
  txDeal : Nat           -- index of the next word after the most recent token
  asm : Bool             -- a timed burst is being assembled
  burst : Bool           -- a timed burst is running
  opening : Bool         -- the running burst begins with a data word, and its inserted SYNC block is not yet sent (R170)
  discard : Bool         -- discards items up to an EOS or ABORT token (R172)
  credLimit : Nat        -- CRED of the far side
  sent : Nat             -- data and TOKEN blocks sent, modulo 65,536
  fseq : Nat             -- FSEQ of the open or next flight
  inFlight : List Blk    -- blocks of the open flight sent, oldest first
  opened : Nat           -- items in those blocks
  idle : Nat             -- block times with nothing to send
  unacked : List Flight  -- flights closed and not acknowledged, oldest first
  acked : Nat            -- items in acknowledged flights since the mark (Q)
  accepted : Nat         -- items accepted since the mark (A)
  replayDrop : Nat       -- items on the way from before a rewind, to discard
  ackDrop : Nat          -- items after a rewind that are already acknowledged, to discard
  replays : Nat          -- consecutive replays without progress
  stopped : Bool         -- the replay limit is reached: no service until a TRAIN write (R169)
  turn : Nat             -- lane of the group that sends the next block, counted from the first (R162)
  copies : Nat           -- return CREDIT copies still to be sent in a bonded group (R162)
  copied : Blk           -- the return block of those copies
  rested : Bool          -- since a warm or partition reset it discards everything until the partition starts (R180)
deriving DecidableEq, Repr

/-- A lane that is off. -/
def Lane.off : Lane :=
  { txt := false, rxt := false, rpen := false, rpq := 0, rpu := 0, lock := false, hdrs := [], keepState := false, seekLogged := false,
    rxTrain := 0, txTrain := 0, pll := false, rxSb := 0, ls1 := false, flight := [], flightBad := false, rxSeq := 0, naked := false,
    late := false, buf := StreamBuf.empty, stale := 0, granted := 0, returned := 0, ackDue := false, nakDue := false, rxAbort := false, held := none,
    blocks := [], txDeal := 0, asm := false, burst := false, opening := false, discard := false, credLimit := 0, sent := 0, fseq := 0, inFlight := [],
    idle := 0, opened := 0, unacked := [], acked := 0, accepted := 0, replayDrop := 0, ackDrop := 0, replays := 0, stopped := false,
    turn := 0, copies := 0, copied := .data 0 0, rested := false }

/-- What a stream of a memory stream port keeps beside its registers. -/
structure Msp where
  buf : StreamBuf        -- words accepted into the share and not yet taken (R293)
  base : Nat             -- BASE, LEN and translation as the stream held them at its GO (R292)
  len : Nat
  ptbase : Nat
  asid : Nat
  txDeal : Nat           -- index of the next word a write stream collects (R294)
  filling : Bool         -- a read stream still reads its range
  cxl : Bool             -- an armed timed stream whose range reads the CXL window (R296)
deriving DecidableEq, Repr

/-- An idle stream. -/
def Msp.idle : Msp :=
  { buf := StreamBuf.empty, base := 0, len := 0, ptbase := 0, asid := 0, txDeal := 0, filling := false, cxl := false }

end Sys2Proof.Machine
end

