-- ==== Sys2Proof/Machine/RegTab.lean ====
section
/-!
DEFINITION. Machine/RegTab.lean: the register tables of the spec, one descriptor per register (offset in its block, width, fields with
bits, access code, reset value, and whether warm reset keeps the field), and one named field constant per field, so that meanings
name registers and fields as the manual does.  Blocks follow R38.  Reset values marked `trim`, `per source` or computed read 0 here and are
supplied by the views of Machine/RegBus.lean.
-/

namespace Sys2Proof.Machine

/-- `GLB_DEVICE_ID`, 32 bits (R2). -/
def GLB_DEVICE_ID : Nat := 0x0 + 0x0
def GLB_DEVICE_ID.DEVICE_ID : RF := ⟨GLB_DEVICE_ID, 31, 0⟩
/-- `GLB_REVISION`, 32 bits (R2). -/
def GLB_REVISION : Nat := 0x0 + 0x4
def GLB_REVISION.FAMILY : RF := ⟨GLB_REVISION, 23, 16⟩
def GLB_REVISION.REV : RF := ⟨GLB_REVISION, 15, 8⟩
def GLB_REVISION.VARIANT : RF := ⟨GLB_REVISION, 3, 0⟩
/-- `GLB_ROW_MAPr`, 32 bits (R18). -/
def GLB_ROW_MAP (r : Nat) : Nat := 0x0 + 0x200 + r * 0x4
def GLB_ROW_MAP.SPARE_USED (r : Nat) : RF := ⟨GLB_ROW_MAP r, 31, 31⟩
def GLB_ROW_MAP.OWNER (r : Nat) : RF := ⟨GLB_ROW_MAP r, 7, 4⟩
def GLB_ROW_MAP.SPARE_PTR (r : Nat) : RF := ⟨GLB_ROW_MAP r, 3, 0⟩
/-- `GLB_PART_CFGn`, 32 bits (R21). -/
def GLB_PART_CFG (p : Nat) : Nat := 0x0 + 0x100 + p * 0x10
def GLB_PART_CFG.EN (p : Nat) : RF := ⟨GLB_PART_CFG p, 31, 31⟩
def GLB_PART_CFG.STATE (p : Nat) : RF := ⟨GLB_PART_CFG p, 30, 28⟩
def GLB_PART_CFG.ERRCODE (p : Nat) : RF := ⟨GLB_PART_CFG p, 27, 24⟩
def GLB_PART_CFG.VF (p : Nat) : RF := ⟨GLB_PART_CFG p, 23, 20⟩
def GLB_PART_CFG.NROWS (p : Nat) : RF := ⟨GLB_PART_CFG p, 11, 8⟩
def GLB_PART_CFG.FIRST_ROW (p : Nat) : RF := ⟨GLB_PART_CFG p, 3, 0⟩
/-- `GLB_PART_SEQn`, 32 bits (R21). -/
def GLB_PART_SEQ (p : Nat) : Nat := 0x0 + 0x104 + p * 0x10
def GLB_PART_SEQ.PRIMARY (p : Nat) : RF := ⟨GLB_PART_SEQ p, 28, 24⟩
def GLB_PART_SEQ.MASK (p : Nat) : RF := ⟨GLB_PART_SEQ p, 23, 0⟩
/-- `GLB_GATED_ACCESS`, 32 bits (R33). -/
def GLB_GATED_ACCESS : Nat := 0x0 + 0x10
def GLB_GATED_ACCESS.CLEAR : RF := ⟨GLB_GATED_ACCESS, 31, 31⟩
def GLB_GATED_ACCESS.COUNT : RF := ⟨GLB_GATED_ACCESS, 30, 24⟩
def GLB_GATED_ACCESS.OFFSET : RF := ⟨GLB_GATED_ACCESS, 23, 0⟩
/-- `ISL_WU_STAT`, 32 bits (R80). -/
def ISL_WU_STAT (i : Nat) : Nat := 0x40_0000 + i * 0x1_0000 + 0x100
def ISL_WU_STAT.SATS (i : Nat) : RF := ⟨ISL_WU_STAT i, 31, 16⟩
def ISL_WU_STAT.AOV (i : Nat) : RF := ⟨ISL_WU_STAT i, 15, 0⟩
/-- `ISL_WU_STAT2`, 32 bits (R80). -/
def ISL_WU_STAT2 (i : Nat) : Nat := 0x40_0000 + i * 0x1_0000 + 0x104
def ISL_WU_STAT2.BADOP (i : Nat) : RF := ⟨ISL_WU_STAT2 i, 31, 16⟩
def ISL_WU_STAT2.TKMIS (i : Nat) : RF := ⟨ISL_WU_STAT2 i, 15, 0⟩
/-- `ISL_WU_FLAGS`, 64 bits (R80). -/
def ISL_WU_FLAGS (i : Nat) : Nat := 0x40_0000 + i * 0x1_0000 + 0x108
def ISL_WU_FLAGS.ALL (i : Nat) : RF := ⟨ISL_WU_FLAGS i, 63, 0⟩
/-- `ISL_FLA_MC`, 32 bits (R80). -/
def ISL_FLA_MC (i : Nat) : Nat := 0x40_0000 + i * 0x1_0000 + 0x110
def ISL_FLA_MC.MC (i : Nat) : RF := ⟨ISL_FLA_MC i, 23, 0⟩
/-- `ISL_FLA_EVT`, 32 bits (R80). -/
def ISL_FLA_EVT (i : Nat) : Nat := 0x40_0000 + i * 0x1_0000 + 0x114
def ISL_FLA_EVT.EV (i : Nat) : RF := ⟨ISL_FLA_EVT i, 7, 0⟩
/-- `ISL_FLA_EVCNT`, 64 bits (R80). -/
def ISL_FLA_EVCNT (i : Nat) : Nat := 0x40_0000 + i * 0x1_0000 + 0x118
def ISL_FLA_EVCNT.CNT0 (i : Nat) : RF := ⟨ISL_FLA_EVCNT i, 7, 0⟩
/-- `ISL_PARAMk`, 32 bits (R80). -/
def ISL_PARAM (i k : Nat) : Nat := 0x40_0000 + i * 0x1_0000 + 0x180 + k * 0x4
def ISL_PARAM.VALUE (i k : Nat) : RF := ⟨ISL_PARAM i k, 31, 0⟩
/-- `ISL_WU_ACC_LOn`, 64 bits (R80). -/
def ISL_WU_ACC_LO (i n : Nat) : Nat := 0x40_0000 + i * 0x1_0000 + 0x200 + n * 0x10
def ISL_WU_ACC_LO.ACC_LO (i n : Nat) : RF := ⟨ISL_WU_ACC_LO i n, 63, 0⟩
/-- `ISL_WU_ACC_HIn`, 32 bits (R80). -/
def ISL_WU_ACC_HI (i n : Nat) : Nat := 0x40_0000 + i * 0x1_0000 + 0x208 + n * 0x10
def ISL_WU_ACC_HI.PIN (i n : Nat) : RF := ⟨ISL_WU_ACC_HI i n, 8, 8⟩
def ISL_WU_ACC_HI.GUARD (i n : Nat) : RF := ⟨ISL_WU_ACC_HI i n, 7, 0⟩
/-- `ISL_PLANE_CUR`, 64 bits (R111). -/
def ISL_PLANE_CUR (i : Nat) : Nat := 0x40_0000 + i * 0x1_0000 + 0x300
def ISL_PLANE_CUR.WU0 (i : Nat) : RF := ⟨ISL_PLANE_CUR i, 3, 0⟩
/-- `ISL_PLANE_AUX`, 32 bits (R111). -/
def ISL_PLANE_AUX (i : Nat) : Nat := 0x40_0000 + i * 0x1_0000 + 0x308
def ISL_PLANE_AUX.FLA (i : Nat) : RF := ⟨ISL_PLANE_AUX i, 31, 28⟩
def ISL_PLANE_AUX.QC3 (i : Nat) : RF := ⟨ISL_PLANE_AUX i, 27, 24⟩
def ISL_PLANE_AUX.QC2 (i : Nat) : RF := ⟨ISL_PLANE_AUX i, 23, 20⟩
def ISL_PLANE_AUX.QC1 (i : Nat) : RF := ⟨ISL_PLANE_AUX i, 19, 16⟩
def ISL_PLANE_AUX.QC0 (i : Nat) : RF := ⟨ISL_PLANE_AUX i, 15, 12⟩
def ISL_PLANE_AUX.SBLAST (i : Nat) : RF := ⟨ISL_PLANE_AUX i, 11, 8⟩
def ISL_PLANE_AUX.SBMIX (i : Nat) : RF := ⟨ISL_PLANE_AUX i, 7, 7⟩
def ISL_PLANE_AUX.ARMED (i : Nat) : RF := ⟨ISL_PLANE_AUX i, 6, 6⟩
def ISL_PLANE_AUX.ATGT (i : Nat) : RF := ⟨ISL_PLANE_AUX i, 3, 0⟩
/-- `ISL_PLANE_USE`, 32 bits (R111). -/
def ISL_PLANE_USE (i : Nat) : Nat := 0x40_0000 + i * 0x1_0000 + 0x30C
def ISL_PLANE_USE.LOCK (i : Nat) : RF := ⟨ISL_PLANE_USE i, 31, 16⟩
def ISL_PLANE_USE.USED (i : Nat) : RF := ⟨ISL_PLANE_USE i, 15, 0⟩
/-- `ISL_MOULT_WDT`, 32 bits (R111). -/
def ISL_MOULT_WDT (i : Nat) : Nat := 0x40_0000 + i * 0x1_0000 + 0x310
def ISL_MOULT_WDT.LIMIT (i : Nat) : RF := ⟨ISL_MOULT_WDT i, 23, 0⟩
/-- `ISL_MOULT_STAT`, 32 bits (R111). -/
def ISL_MOULT_STAT (i : Nat) : Nat := 0x40_0000 + i * 0x1_0000 + 0x314
def ISL_MOULT_STAT.STALL (i : Nat) : RF := ⟨ISL_MOULT_STAT i, 31, 31⟩
def ISL_MOULT_STAT.MIS (i : Nat) : RF := ⟨ISL_MOULT_STAT i, 30, 30⟩
def ISL_MOULT_STAT.LOCKWAIT (i : Nat) : RF := ⟨ISL_MOULT_STAT i, 20, 20⟩
def ISL_MOULT_STAT.UNIT (i : Nat) : RF := ⟨ISL_MOULT_STAT i, 19, 16⟩
def ISL_MOULT_STAT.PEND (i : Nat) : RF := ⟨ISL_MOULT_STAT i, 14, 12⟩
def ISL_MOULT_STAT.TPLANE (i : Nat) : RF := ⟨ISL_MOULT_STAT i, 11, 8⟩
def ISL_MOULT_STAT.MUNIT (i : Nat) : RF := ⟨ISL_MOULT_STAT i, 7, 4⟩
/-- `ISL_MOULT_CNT`, 32 bits (R111). -/
def ISL_MOULT_CNT (i : Nat) : Nat := 0x40_0000 + i * 0x1_0000 + 0x318
def ISL_MOULT_CNT.STALLS (i : Nat) : RF := ⟨ISL_MOULT_CNT i, 31, 24⟩
def ISL_MOULT_CNT.DROPS (i : Nat) : RF := ⟨ISL_MOULT_CNT i, 23, 16⟩
def ISL_MOULT_CNT.SWITCHES (i : Nat) : RF := ⟨ISL_MOULT_CNT i, 15, 0⟩
/-- `ISL_MOULT_CTL`, 32 bits (R111). -/
def ISL_MOULT_CTL (i : Nat) : Nat := 0x40_0000 + i * 0x1_0000 + 0x31C
def ISL_MOULT_CTL.CLRCNT (i : Nat) : RF := ⟨ISL_MOULT_CTL i, 31, 31⟩
def ISL_MOULT_CTL.RELEASE (i : Nat) : RF := ⟨ISL_MOULT_CTL i, 15, 0⟩
/-- `ISL_RT_POS`, 32 bits (R132). -/
def ISL_RT_POS (i : Nat) : Nat := 0x40_0000 + i * 0x1_0000 + 0x400
def ISL_RT_POS.ROW (i : Nat) : RF := ⟨ISL_RT_POS i, 15, 12⟩
def ISL_RT_POS.LCOL (i : Nat) : RF := ⟨ISL_RT_POS i, 11, 8⟩
def ISL_RT_POS.PCOL (i : Nat) : RF := ⟨ISL_RT_POS i, 7, 4⟩
def ISL_RT_POS.FENCE_N (i : Nat) : RF := ⟨ISL_RT_POS i, 3, 3⟩
def ISL_RT_POS.FENCE_S (i : Nat) : RF := ⟨ISL_RT_POS i, 2, 2⟩
def ISL_RT_POS.WEND (i : Nat) : RF := ⟨ISL_RT_POS i, 1, 1⟩
def ISL_RT_POS.EEND (i : Nat) : RF := ⟨ISL_RT_POS i, 0, 0⟩
/-- `ISL_RT_STAT`, 32 bits (R132). -/
def ISL_RT_STAT (i : Nat) : Nat := 0x40_0000 + i * 0x1_0000 + 0x404
def ISL_RT_STAT.FENCED (i : Nat) : RF := ⟨ISL_RT_STAT i, 31, 31⟩
def ISL_RT_STAT.BADSEL (i : Nat) : RF := ⟨ISL_RT_STAT i, 30, 30⟩
def ISL_RT_STAT.SPWAIT (i : Nat) : RF := ⟨ISL_RT_STAT i, 29, 29⟩
def ISL_RT_STAT.SPWAITL (i : Nat) : RF := ⟨ISL_RT_STAT i, 28, 28⟩
/-- `ISL_RT_CNT`, 32 bits (R132). -/
def ISL_RT_CNT (i : Nat) : Nat := 0x40_0000 + i * 0x1_0000 + 0x408
def ISL_RT_CNT.FDROP (i : Nat) : RF := ⟨ISL_RT_CNT i, 31, 16⟩
def ISL_RT_CNT.XFULL (i : Nat) : RF := ⟨ISL_RT_CNT i, 15, 0⟩
/-- `ISL_RT_CTL`, 32 bits (R132). -/
def ISL_RT_CTL (i : Nat) : Nat := 0x40_0000 + i * 0x1_0000 + 0x40C
def ISL_RT_CTL.CLRCNT (i : Nat) : RF := ⟨ISL_RT_CTL i, 31, 31⟩
/-- `ISL_XF_LVL0`, 64 bits (R132). -/
def ISL_XF_LVL0 (i : Nat) : Nat := 0x40_0000 + i * 0x1_0000 + 0x410
def ISL_XF_LVL0.T0 (i : Nat) : RF := ⟨ISL_XF_LVL0 i, 3, 0⟩
/-- `ISL_XF_LVL1`, 64 bits (R132). -/
def ISL_XF_LVL1 (i : Nat) : Nat := 0x40_0000 + i * 0x1_0000 + 0x418
def ISL_XF_LVL1.T16 (i : Nat) : RF := ⟨ISL_XF_LVL1 i, 3, 0⟩
/-- `ISL_MEM_ECC`, 32 bits (R154). -/
def ISL_MEM_ECC (i : Nat) : Nat := 0x40_0000 + i * 0x1_0000 + 0x500
def ISL_MEM_ECC.CECNT (i : Nat) : RF := ⟨ISL_MEM_ECC i, 31, 16⟩
def ISL_MEM_ECC.UECNT (i : Nat) : RF := ⟨ISL_MEM_ECC i, 15, 0⟩
/-- `ISL_MEM_CEADDR`, 32 bits (R154). -/
def ISL_MEM_CEADDR (i : Nat) : Nat := 0x40_0000 + i * 0x1_0000 + 0x504
def ISL_MEM_CEADDR.VALID (i : Nat) : RF := ⟨ISL_MEM_CEADDR i, 31, 31⟩
def ISL_MEM_CEADDR.PORT (i : Nat) : RF := ⟨ISL_MEM_CEADDR i, 30, 30⟩
def ISL_MEM_CEADDR.SYND (i : Nat) : RF := ⟨ISL_MEM_CEADDR i, 25, 18⟩
def ISL_MEM_CEADDR.BADDR (i : Nat) : RF := ⟨ISL_MEM_CEADDR i, 17, 0⟩
/-- `ISL_MEM_UEADDR`, 32 bits (R154). -/
def ISL_MEM_UEADDR (i : Nat) : Nat := 0x40_0000 + i * 0x1_0000 + 0x508
def ISL_MEM_UEADDR.VALID (i : Nat) : RF := ⟨ISL_MEM_UEADDR i, 31, 31⟩
def ISL_MEM_UEADDR.PORT (i : Nat) : RF := ⟨ISL_MEM_UEADDR i, 30, 30⟩
def ISL_MEM_UEADDR.SYND (i : Nat) : RF := ⟨ISL_MEM_UEADDR i, 25, 18⟩
def ISL_MEM_UEADDR.BADDR (i : Nat) : RF := ⟨ISL_MEM_UEADDR i, 17, 0⟩
/-- `ISL_MEM_COLL`, 32 bits (R154). -/
def ISL_MEM_COLL (i : Nat) : Nat := 0x40_0000 + i * 0x1_0000 + 0x50C
def ISL_MEM_COLL.COUNT (i : Nat) : RF := ⟨ISL_MEM_COLL i, 31, 20⟩
def ISL_MEM_COLL.FADDR (i : Nat) : RF := ⟨ISL_MEM_COLL i, 17, 0⟩
/-- `ISL_MEM_RED`, 32 bits (R154). -/
def ISL_MEM_RED (i : Nat) : Nat := 0x40_0000 + i * 0x1_0000 + 0x510
def ISL_MEM_RED.USED (i : Nat) : RF := ⟨ISL_MEM_RED i, 7, 0⟩
/-- `ISL_MEM_CTL`, 32 bits (R154). -/
def ISL_MEM_CTL (i : Nat) : Nat := 0x40_0000 + i * 0x1_0000 + 0x514
def ISL_MEM_CTL.CLRECC (i : Nat) : RF := ⟨ISL_MEM_CTL i, 31, 31⟩
def ISL_MEM_CTL.CLRCOLL (i : Nat) : RF := ⟨ISL_MEM_CTL i, 30, 30⟩
def ISL_MEM_CTL.INJ (i : Nat) : RF := ⟨ISL_MEM_CTL i, 1, 0⟩
/-- `ISL_PATROL_CTL`, 32 bits (R154). -/
def ISL_PATROL_CTL (i : Nat) : Nat := 0x40_0000 + i * 0x1_0000 + 0x580
def ISL_PATROL_CTL.EN (i : Nat) : RF := ⟨ISL_PATROL_CTL i, 31, 31⟩
def ISL_PATROL_CTL.INTERVAL (i : Nat) : RF := ⟨ISL_PATROL_CTL i, 23, 0⟩
/-- `ISL_PATROL_STAT`, 32 bits (R154). -/
def ISL_PATROL_STAT (i : Nat) : Nat := 0x40_0000 + i * 0x1_0000 + 0x584
def ISL_PATROL_STAT.ACTIVE (i : Nat) : RF := ⟨ISL_PATROL_STAT i, 31, 31⟩
def ISL_PATROL_STAT.STEP (i : Nat) : RF := ⟨ISL_PATROL_STAT i, 30, 28⟩
def ISL_PATROL_STAT.ABAND (i : Nat) : RF := ⟨ISL_PATROL_STAT i, 27, 20⟩
def ISL_PATROL_STAT.SWEEPS (i : Nat) : RF := ⟨ISL_PATROL_STAT i, 19, 10⟩
def ISL_PATROL_STAT.WIN (i : Nat) : RF := ⟨ISL_PATROL_STAT i, 9, 0⟩
/-- `ISL_PATROL_FAULT`, 32 bits (R154). -/
def ISL_PATROL_FAULT (i : Nat) : Nat := 0x40_0000 + i * 0x1_0000 + 0x588
def ISL_PATROL_FAULT.VALID (i : Nat) : RF := ⟨ISL_PATROL_FAULT i, 31, 31⟩
def ISL_PATROL_FAULT.BIT (i : Nat) : RF := ⟨ISL_PATROL_FAULT i, 24, 18⟩
def ISL_PATROL_FAULT.BADDR (i : Nat) : RF := ⟨ISL_PATROL_FAULT i, 17, 0⟩
/-- `ISL_PATROL_CNT`, 32 bits (R154). -/
def ISL_PATROL_CNT (i : Nat) : Nat := 0x40_0000 + i * 0x1_0000 + 0x58C
def ISL_PATROL_CNT.FAULTS (i : Nat) : RF := ⟨ISL_PATROL_CNT i, 31, 16⟩
def ISL_PATROL_CNT.CEFIX (i : Nat) : RF := ⟨ISL_PATROL_CNT i, 15, 0⟩
/-- `ISL_QREGq`, 32 bits (R154). -/
def ISL_QREG (i q : Nat) : Nat := 0x40_0000 + i * 0x1_0000 + 0x600 + q * 0x20
def ISL_QREG.SIZE16 (i q : Nat) : RF := ⟨ISL_QREG i q, 27, 16⟩
def ISL_QREG.BASE (i q : Nat) : RF := ⟨ISL_QREG i q, 15, 0⟩
/-- `ISL_QWMq`, 32 bits (R154). -/
def ISL_QWM (i q : Nat) : Nat := 0x40_0000 + i * 0x1_0000 + 0x604 + q * 0x20
def ISL_QWM.HW (i q : Nat) : RF := ⟨ISL_QWM i q, 31, 16⟩
def ISL_QWM.LW (i q : Nat) : RF := ⟨ISL_QWM i q, 15, 0⟩
/-- `ISL_QPTRq`, 64 bits (R154). -/
def ISL_QPTR (i q : Nat) : Nat := 0x40_0000 + i * 0x1_0000 + 0x608 + q * 0x20
def ISL_QPTR.MARK (i q : Nat) : RF := ⟨ISL_QPTR i q, 47, 32⟩
def ISL_QPTR.TAIL (i q : Nat) : RF := ⟨ISL_QPTR i q, 31, 16⟩
def ISL_QPTR.HEAD (i q : Nat) : RF := ⟨ISL_QPTR i q, 15, 0⟩
/-- `ISL_QSTATq`, 32 bits (R154). -/
def ISL_QSTAT (i q : Nat) : Nat := 0x40_0000 + i * 0x1_0000 + 0x610 + q * 0x20
def ISL_QSTAT.MKV (i q : Nat) : RF := ⟨ISL_QSTAT i q, 31, 31⟩
def ISL_QSTAT.HL (i q : Nat) : RF := ⟨ISL_QSTAT i q, 30, 30⟩
def ISL_QSTAT.LL (i q : Nat) : RF := ⟨ISL_QSTAT i q, 29, 29⟩
def ISL_QSTAT.HX (i q : Nat) : RF := ⟨ISL_QSTAT i q, 28, 28⟩
def ISL_QSTAT.LX (i q : Nat) : RF := ⟨ISL_QSTAT i q, 27, 27⟩
def ISL_QSTAT.QBAD (i q : Nat) : RF := ⟨ISL_QSTAT i q, 26, 26⟩
def ISL_QSTAT.NOMARK (i q : Nat) : RF := ⟨ISL_QSTAT i q, 25, 25⟩
def ISL_QSTAT.OCC (i q : Nat) : RF := ⟨ISL_QSTAT i q, 16, 0⟩
/-- `ISL_QCNTq`, 32 bits (R154). -/
def ISL_QCNT (i q : Nat) : Nat := 0x40_0000 + i * 0x1_0000 + 0x614 + q * 0x20
def ISL_QCNT.HXCNT (i q : Nat) : RF := ⟨ISL_QCNT i q, 31, 24⟩
def ISL_QCNT.LXCNT (i q : Nat) : RF := ⟨ISL_QCNT i q, 23, 16⟩
def ISL_QCNT.REFUSED (i q : Nat) : RF := ⟨ISL_QCNT i q, 15, 0⟩
/-- `ISL_QDEPq`, 32 bits (R154). -/
def ISL_QDEP (i q : Nat) : Nat := 0x40_0000 + i * 0x1_0000 + 0x618 + q * 0x20
def ISL_QDEP.DEPTH (i q : Nat) : RF := ⟨ISL_QDEP i q, 16, 0⟩
/-- `ISL_QCMDq`, 32 bits (R154). -/
def ISL_QCMD (i q : Nat) : Nat := 0x40_0000 + i * 0x1_0000 + 0x61C + q * 0x20
def ISL_QCMD.FLUSH (i q : Nat) : RF := ⟨ISL_QCMD i q, 31, 31⟩
def ISL_QCMD.CLRCNT (i q : Nat) : RF := ⟨ISL_QCMD i q, 30, 30⟩
def ISL_QCMD.MARK (i q : Nat) : RF := ⟨ISL_QCMD i q, 2, 2⟩
def ISL_QCMD.RELEASE (i q : Nat) : RF := ⟨ISL_QCMD i q, 1, 1⟩
def ISL_QCMD.REWIND (i q : Nat) : RF := ⟨ISL_QCMD i q, 0, 0⟩
/-- `LQ_CFG`, 32 bits (R181). -/
def LQ_CFG (q : Nat) : Nat := 0xE0_0000 + q * 0x1000 + 0x0
def LQ_CFG.FEC (q : Nat) : RF := ⟨LQ_CFG q, 4, 4⟩
def LQ_CFG.RATE (q : Nat) : RF := ⟨LQ_CFG q, 2, 0⟩
/-- `LQ_STAT`, 32 bits (R181). -/
def LQ_STAT (q : Nat) : Nat := 0xE0_0000 + q * 0x1000 + 0x4
def LQ_STAT.PLL (q : Nat) : RF := ⟨LQ_STAT q, 31, 31⟩
def LQ_STAT.UP (q : Nat) : RF := ⟨LQ_STAT q, 3, 0⟩
/-- `LQ_LSSEL`, 32 bits (R181). -/
def LQ_LSSEL (q : Nat) : Nat := 0xE0_0000 + q * 0x1000 + 0x8
def LQ_LSSEL.SBTX (q : Nat) : RF := ⟨LQ_LSSEL q, 15, 8⟩
def LQ_LSSEL.SBBIT (q : Nat) : RF := ⟨LQ_LSSEL q, 4, 3⟩
def LQ_LSSEL.LANE (q : Nat) : RF := ⟨LQ_LSSEL q, 2, 0⟩
/-- `LANE_CTL`, 32 bits (R181). -/
def LANE_CTL (l : Nat) : Nat := 0xE0_0000 + l / 4 * 0x1000 + l % 4 * 0x40 + 0x100
def LANE_CTL.EN (l : Nat) : RF := ⟨LANE_CTL l, 31, 31⟩
def LANE_CTL.TXT (l : Nat) : RF := ⟨LANE_CTL l, 30, 30⟩
def LANE_CTL.RXT (l : Nat) : RF := ⟨LANE_CTL l, 29, 29⟩
def LANE_CTL.RPEN (l : Nat) : RF := ⟨LANE_CTL l, 28, 28⟩
def LANE_CTL.RPQ (l : Nat) : RF := ⟨LANE_CTL l, 27, 26⟩
def LANE_CTL.RPU (l : Nat) : RF := ⟨LANE_CTL l, 25, 22⟩
def LANE_CTL.FLEN (l : Nat) : RF := ⟨LANE_CTL l, 21, 17⟩
def LANE_CTL.TRAIN (l : Nat) : RF := ⟨LANE_CTL l, 16, 16⟩
def LANE_CTL.ACKTO (l : Nat) : RF := ⟨LANE_CTL l, 15, 8⟩
/-- `LANE_BOND`, 32 bits (R183). -/
def LANE_BOND (l : Nat) : Nat := 0xE0_0000 + l / 4 * 0x1000 + l % 4 * 0x40 + 0x104
def LANE_BOND.G (l : Nat) : RF := ⟨LANE_BOND l, 5, 4⟩
def LANE_BOND.N (l : Nat) : RF := ⟨LANE_BOND l, 1, 0⟩
/-- `LANE_STAT`, 32 bits (R183). -/
def LANE_STAT (l : Nat) : Nat := 0xE0_0000 + l / 4 * 0x1000 + l % 4 * 0x40 + 0x108
def LANE_STAT.UP (l : Nat) : RF := ⟨LANE_STAT l, 31, 31⟩
def LANE_STAT.TSTATE (l : Nat) : RF := ⟨LANE_STAT l, 30, 28⟩
def LANE_STAT.UNDR (l : Nat) : RF := ⟨LANE_STAT l, 27, 27⟩
def LANE_STAT.UCAUSE (l : Nat) : RF := ⟨LANE_STAT l, 26, 24⟩
def LANE_STAT.RPFAIL (l : Nat) : RF := ⟨LANE_STAT l, 23, 23⟩
def LANE_STAT.DESKEW (l : Nat) : RF := ⟨LANE_STAT l, 22, 22⟩
def LANE_STAT.RXOVF (l : Nat) : RF := ⟨LANE_STAT l, 21, 21⟩
def LANE_STAT.ALIGN (l : Nat) : RF := ⟨LANE_STAT l, 20, 20⟩
def LANE_STAT.LOCKLOSS (l : Nat) : RF := ⟨LANE_STAT l, 19, 19⟩
def LANE_STAT.BONDCFG (l : Nat) : RF := ⟨LANE_STAT l, 18, 18⟩
/-- `LANE_ERRCNT`, 32 bits (R183). -/
def LANE_ERRCNT (l : Nat) : Nat := 0xE0_0000 + l / 4 * 0x1000 + l % 4 * 0x40 + 0x10C
def LANE_ERRCNT.BADBLK (l : Nat) : RF := ⟨LANE_ERRCNT l, 31, 16⟩
def LANE_ERRCNT.FECCOR (l : Nat) : RF := ⟨LANE_ERRCNT l, 15, 8⟩
def LANE_ERRCNT.TXST (l : Nat) : RF := ⟨LANE_ERRCNT l, 7, 0⟩
/-- `LANE_RPCNT`, 32 bits (R183). -/
def LANE_RPCNT (l : Nat) : Nat := 0xE0_0000 + l / 4 * 0x1000 + l % 4 * 0x40 + 0x110
def LANE_RPCNT.REPLAYS (l : Nat) : RF := ⟨LANE_RPCNT l, 31, 16⟩
def LANE_RPCNT.NAKS (l : Nat) : RF := ⟨LANE_RPCNT l, 15, 8⟩
def LANE_RPCNT.LOST (l : Nat) : RF := ⟨LANE_RPCNT l, 7, 0⟩
/-- `LANE_CREDIT`, 32 bits (R183). -/
def LANE_CREDIT (l : Nat) : Nat := 0xE0_0000 + l / 4 * 0x1000 + l % 4 * 0x40 + 0x114
def LANE_CREDIT.TXCRED (l : Nat) : RF := ⟨LANE_CREDIT l, 31, 16⟩
def LANE_CREDIT.RXFREE (l : Nat) : RF := ⟨LANE_CREDIT l, 9, 0⟩
/-- `LANE_SKEW`, 32 bits (R183). -/
def LANE_SKEW (l : Nat) : Nat := 0xE0_0000 + l / 4 * 0x1000 + l % 4 * 0x40 + 0x118
def LANE_SKEW.SKEW (l : Nat) : RF := ⟨LANE_SKEW l, 7, 0⟩
/-- `LANE_CLR`, 32 bits (R183). -/
def LANE_CLR (l : Nat) : Nat := 0xE0_0000 + l / 4 * 0x1000 + l % 4 * 0x40 + 0x11C
def LANE_CLR.CLRCNT (l : Nat) : RF := ⟨LANE_CLR l, 31, 31⟩
/-- `SEQ_CTL`, 32 bits (R210). -/
def SEQ_CTL (n : Nat) : Nat := 0x10_0000 + n * 0x1_0000 + 0x0
def SEQ_CTL.RUN (n : Nat) : RF := ⟨SEQ_CTL n, 31, 31⟩
def SEQ_CTL.RESET (n : Nat) : RF := ⟨SEQ_CTL n, 30, 30⟩
def SEQ_CTL.STEP (n : Nat) : RF := ⟨SEQ_CTL n, 29, 29⟩
/-- `SEQ_STAT`, 32 bits (R210). -/
def SEQ_STAT (n : Nat) : Nat := 0x10_0000 + n * 0x1_0000 + 0x4
def SEQ_STAT.STATE (n : Nat) : RF := ⟨SEQ_STAT n, 31, 29⟩
def SEQ_STAT.PRIMARY (n : Nat) : RF := ⟨SEQ_STAT n, 28, 28⟩
def SEQ_STAT.PART (n : Nat) : RF := ⟨SEQ_STAT n, 27, 24⟩
def SEQ_STAT.PL (n : Nat) : RF := ⟨SEQ_STAT n, 23, 22⟩
def SEQ_STAT.TW (n : Nat) : RF := ⟨SEQ_STAT n, 21, 21⟩
def SEQ_STAT.SH (n : Nat) : RF := ⟨SEQ_STAT n, 20, 20⟩
/-- `SEQ_BOOT`, 64 bits (R210). -/
def SEQ_BOOT (n : Nat) : Nat := 0x10_0000 + n * 0x1_0000 + 0x8
def SEQ_BOOT.ADDR (n : Nat) : RF := ⟨SEQ_BOOT n, 47, 2⟩
/-- `SEQ_PC`, 64 bits (R210). -/
def SEQ_PC (n : Nat) : Nat := 0x10_0000 + n * 0x1_0000 + 0x10
def SEQ_PC.PC (n : Nat) : RF := ⟨SEQ_PC n, 47, 0⟩
/-- `SEQ_CYCLE`, 64 bits (R210). -/
def SEQ_CYCLE (n : Nat) : Nat := 0x10_0000 + n * 0x1_0000 + 0x18
def SEQ_CYCLE.COUNT (n : Nat) : RF := ⟨SEQ_CYCLE n, 63, 0⟩
/-- `SEQ_LWPROT`, 32 bits (R210). -/
def SEQ_LWPROT (n : Nat) : Nat := 0x10_0000 + n * 0x1_0000 + 0x20
def SEQ_LWPROT.UWR (n : Nat) : RF := ⟨SEQ_LWPROT n, 31, 16⟩
def SEQ_LWPROT.URD (n : Nat) : RF := ⟨SEQ_LWPROT n, 15, 0⟩
/-- `SEQ_BANK_ERR`, 32 bits (R210). -/
def SEQ_BANK_ERR (n : Nat) : Nat := 0x10_0000 + n * 0x1_0000 + 0x24
def SEQ_BANK_ERR.CECNT (n : Nat) : RF := ⟨SEQ_BANK_ERR n, 31, 16⟩
def SEQ_BANK_ERR.UECNT (n : Nat) : RF := ⟨SEQ_BANK_ERR n, 15, 0⟩
/-- `SEQ_BANK_COLL`, 32 bits (R210). -/
def SEQ_BANK_COLL (n : Nat) : Nat := 0x10_0000 + n * 0x1_0000 + 0x28
def SEQ_BANK_COLL.COUNT (n : Nat) : RF := ⟨SEQ_BANK_COLL n, 31, 20⟩
def SEQ_BANK_COLL.FADDR (n : Nat) : RF := ⟨SEQ_BANK_COLL n, 19, 0⟩
/-- `SEQ_BANK_CTL`, 32 bits (R210). -/
def SEQ_BANK_CTL (n : Nat) : Nat := 0x10_0000 + n * 0x1_0000 + 0x2C
def SEQ_BANK_CTL.CLRERR (n : Nat) : RF := ⟨SEQ_BANK_CTL n, 31, 31⟩
def SEQ_BANK_CTL.CLRCOLL (n : Nat) : RF := ⟨SEQ_BANK_CTL n, 30, 30⟩
/-- `SEQ_AEV_PEND`, 32 bits (R210). -/
def SEQ_AEV_PEND (n : Nat) : Nat := 0x10_0000 + n * 0x1_0000 + 0x40
def SEQ_AEV_PEND.PEND (n : Nat) : RF := ⟨SEQ_AEV_PEND n, 23, 0⟩
/-- `SEQ_AEV_IE`, 32 bits (R210). -/
def SEQ_AEV_IE (n : Nat) : Nat := 0x10_0000 + n * 0x1_0000 + 0x44
def SEQ_AEV_IE.IE (n : Nat) : RF := ⟨SEQ_AEV_IE n, 23, 0⟩
/-- `SEQ_PFLAG`, 32 bits (R210). -/
def SEQ_PFLAG (n : Nat) : Nat := 0x10_0000 + n * 0x1_0000 + 0x48
def SEQ_PFLAG.FAILL (n : Nat) : RF := ⟨SEQ_PFLAG n, 31, 31⟩
def SEQ_PFLAG.FAILS (n : Nat) : RF := ⟨SEQ_PFLAG n, 30, 30⟩
def SEQ_PFLAG.INHOLD (n : Nat) : RF := ⟨SEQ_PFLAG n, 4, 4⟩
def SEQ_PFLAG.PFDRV (n : Nat) : RF := ⟨SEQ_PFLAG n, 3, 1⟩
/-- `SEQ_DBELL`, 32 bits (R210). -/
def SEQ_DBELL (n : Nat) : Nat := 0x10_0000 + n * 0x1_0000 + 0x4C
def SEQ_DBELL.PEND (n : Nat) : RF := ⟨SEQ_DBELL n, 15, 0⟩
/-- `SEQ_DBELL_SET`, 32 bits (R210). -/
def SEQ_DBELL_SET (n : Nat) : Nat := 0x10_0000 + n * 0x1_0000 + 0x50
def SEQ_DBELL_SET.SET (n : Nat) : RF := ⟨SEQ_DBELL_SET n, 15, 0⟩
/-- `SEQ_AEV_SRCk`, 32 bits (R210). -/
def SEQ_AEV_SRC (n k : Nat) : Nat := 0x10_0000 + n * 0x1_0000 + 0x80 + k * 0x4
def SEQ_AEV_SRC.VALID (n k : Nat) : RF := ⟨SEQ_AEV_SRC n k, 31, 31⟩
def SEQ_AEV_SRC.COUNT (n k : Nat) : RF := ⟨SEQ_AEV_SRC n k, 23, 16⟩
def SEQ_AEV_SRC.KIND (n k : Nat) : RF := ⟨SEQ_AEV_SRC n k, 8, 8⟩
def SEQ_AEV_SRC.SRC (n k : Nat) : RF := ⟨SEQ_AEV_SRC n k, 7, 0⟩
/-- `SEQ_MCHK`, 32 bits (R268). -/
def SEQ_MCHK (n : Nat) : Nat := 0x10_0000 + n * 0x1_0000 + 0x30
def SEQ_MCHK.VALID (n : Nat) : RF := ⟨SEQ_MCHK n, 31, 31⟩
def SEQ_MCHK.KIND (n : Nat) : RF := ⟨SEQ_MCHK n, 30, 28⟩
def SEQ_MCHK.ACC (n : Nat) : RF := ⟨SEQ_MCHK n, 9, 8⟩
def SEQ_MCHK.CODE (n : Nat) : RF := ⟨SEQ_MCHK n, 7, 0⟩
/-- `SEQ_IRQ`, 32 bits (R268). -/
def SEQ_IRQ (n : Nat) : Nat := 0x10_0000 + n * 0x1_0000 + 0x34
def SEQ_IRQ.PEND (n : Nat) : RF := ⟨SEQ_IRQ n, 19, 16⟩
def SEQ_IRQ.EN (n : Nat) : RF := ⟨SEQ_IRQ n, 3, 0⟩
/-- `SEQ_MCHK_PC`, 64 bits (R268). -/
def SEQ_MCHK_PC (n : Nat) : Nat := 0x10_0000 + n * 0x1_0000 + 0x60
def SEQ_MCHK_PC.PC (n : Nat) : RF := ⟨SEQ_MCHK_PC n, 47, 0⟩
/-- `SEQ_MCHK_VA`, 64 bits (R268). -/
def SEQ_MCHK_VA (n : Nat) : Nat := 0x10_0000 + n * 0x1_0000 + 0x68
def SEQ_MCHK_VA.VA (n : Nat) : RF := ⟨SEQ_MCHK_VA n, 47, 0⟩
/-- `SEQ_TIMER`, 64 bits (R268). -/
def SEQ_TIMER (n : Nat) : Nat := 0x10_0000 + n * 0x1_0000 + 0x70
def SEQ_TIMER.EN (n : Nat) : RF := ⟨SEQ_TIMER n, 63, 63⟩
def SEQ_TIMER.CMP (n : Nat) : RF := ⟨SEQ_TIMER n, 62, 0⟩
/-- `MMU_PARTn`, 64 bits (R299). -/
def MMU_PART (p : Nat) : Nat := 0xFC_0000 + 0x0 + p * 0x10
def MMU_PART.PTBASE (p : Nat) : RF := ⟨MMU_PART p, 51, 12⟩
def MMU_PART.ASID (p : Nat) : RF := ⟨MMU_PART p, 11, 0⟩
/-- `MMU_INV`, 64 bits (R299). -/
def MMU_INV : Nat := 0xFC_0000 + 0x100
def MMU_INV.BUSY : RF := ⟨MMU_INV, 63, 63⟩
def MMU_INV.TYPE : RF := ⟨MMU_INV, 62, 61⟩
def MMU_INV.PIN : RF := ⟨MMU_INV, 60, 60⟩
def MMU_INV.ASID : RF := ⟨MMU_INV, 59, 44⟩
def MMU_INV.VPN : RF := ⟨MMU_INV, 35, 0⟩
/-- `MMU_STAT`, 32 bits (R299). -/
def MMU_STAT : Nat := 0xFC_0000 + 0x108
def MMU_STAT.PINFULL : RF := ⟨MMU_STAT, 31, 31⟩
def MMU_STAT.INVLOST : RF := ⟨MMU_STAT, 30, 30⟩
def MMU_STAT.PINHIT : RF := ⟨MMU_STAT, 29, 29⟩
def MMU_STAT.PINUSED : RF := ⟨MMU_STAT, 9, 0⟩
/-- `DMA_CHn_OWN`, 32 bits (R300). -/
def DMA_CH_OWN (c : Nat) : Nat := 0xF8_0000 + 0x0 + c * 0x40
def DMA_CH_OWN.KIND (c : Nat) : RF := ⟨DMA_CH_OWN c, 31, 31⟩
def DMA_CH_OWN.PRIO (c : Nat) : RF := ⟨DMA_CH_OWN c, 30, 29⟩
def DMA_CH_OWN.PART (c : Nat) : RF := ⟨DMA_CH_OWN c, 27, 24⟩
def DMA_CH_OWN.SEQ (c : Nat) : RF := ⟨DMA_CH_OWN c, 20, 16⟩
def DMA_CH_OWN.OCTX (c : Nat) : RF := ⟨DMA_CH_OWN c, 15, 0⟩
/-- `DMA_CHn_XLT`, 64 bits (R300). -/
def DMA_CH_XLT (c : Nat) : Nat := 0xF8_0000 + 0x8 + c * 0x40
def DMA_CH_XLT.TE (c : Nat) : RF := ⟨DMA_CH_XLT c, 63, 63⟩
def DMA_CH_XLT.PTBASE (c : Nat) : RF := ⟨DMA_CH_XLT c, 51, 12⟩
def DMA_CH_XLT.ASID (c : Nat) : RF := ⟨DMA_CH_XLT c, 11, 0⟩
/-- `DMA_CHn_DESC`, 64 bits (R300). -/
def DMA_CH_DESC (c : Nat) : Nat := 0xF8_0000 + 0x10 + c * 0x40
def DMA_CH_DESC.ADDR (c : Nat) : RF := ⟨DMA_CH_DESC c, 51, 6⟩
/-- `DMA_CHn_CSR`, 32 bits (R300). -/
def DMA_CH_CSR (c : Nat) : Nat := 0xF8_0000 + 0x18 + c * 0x40
def DMA_CH_CSR.GO (c : Nat) : RF := ⟨DMA_CH_CSR c, 31, 31⟩
def DMA_CH_CSR.ABORT (c : Nat) : RF := ⟨DMA_CH_CSR c, 30, 30⟩
def DMA_CH_CSR.RESUME (c : Nat) : RF := ⟨DMA_CH_CSR c, 29, 29⟩
def DMA_CH_CSR.STATE (c : Nat) : RF := ⟨DMA_CH_CSR c, 28, 26⟩
def DMA_CH_CSR.FCODE (c : Nat) : RF := ⟨DMA_CH_CSR c, 25, 22⟩
def DMA_CH_CSR.FSIDE (c : Nat) : RF := ⟨DMA_CH_CSR c, 21, 20⟩
/-- `DMA_CHn_FVA`, 64 bits (R300). -/
def DMA_CH_FVA (c : Nat) : Nat := 0xF8_0000 + 0x20 + c * 0x40
def DMA_CH_FVA.ADDR (c : Nat) : RF := ⟨DMA_CH_FVA c, 51, 0⟩
/-- `SEQ_CTXID`, 32 bits (R301). -/
def SEQ_CTXID (n : Nat) : Nat := 0x10_0000 + n * 0x1_0000 + 0x78
def SEQ_CTXID.CTXID (n : Nat) : RF := ⟨SEQ_CTXID n, 15, 0⟩
/-- `SEQ_DMAFQ`, 32 bits (R301). -/
def SEQ_DMAFQ (n : Nat) : Nat := 0x10_0000 + n * 0x1_0000 + 0x7C
def SEQ_DMAFQ.VALID (n : Nat) : RF := ⟨SEQ_DMAFQ n, 31, 31⟩
def SEQ_DMAFQ.KIND (n : Nat) : RF := ⟨SEQ_DMAFQ n, 30, 30⟩
def SEQ_DMAFQ.PORT (n : Nat) : RF := ⟨SEQ_DMAFQ n, 28, 24⟩
def SEQ_DMAFQ.INDEX (n : Nat) : RF := ⟨SEQ_DMAFQ n, 5, 0⟩
/-- `MSP_BASE`, 64 bits (R302). -/
def MSP_BASE (p s : Nat) : Nat := 0xF9_0000 + p * 0x800 + 0x0 + s * 0x40
def MSP_BASE.VA (p s : Nat) : RF := ⟨MSP_BASE p s, 47, 2⟩
/-- `MSP_LEN`, 64 bits (R302). -/
def MSP_LEN (p s : Nat) : Nat := 0xF9_0000 + p * 0x800 + 0x8 + s * 0x40
def MSP_LEN.DONE (p s : Nat) : RF := ⟨MSP_LEN p s, 63, 32⟩
def MSP_LEN.LEN (p s : Nat) : RF := ⟨MSP_LEN p s, 31, 2⟩
/-- `MSP_CFG`, 32 bits (R302). -/
def MSP_CFG (p s : Nat) : Nat := 0xF9_0000 + p * 0x800 + 0x10 + s * 0x40
def MSP_CFG.TIMED (p s : Nat) : RF := ⟨MSP_CFG p s, 31, 31⟩
def MSP_CFG.G (p s : Nat) : RF := ⟨MSP_CFG p s, 30, 29⟩
def MSP_CFG.ENDTOK (p s : Nat) : RF := ⟨MSP_CFG p s, 28, 27⟩
def MSP_CFG.DB (p s : Nat) : RF := ⟨MSP_CFG p s, 26, 23⟩
def MSP_CFG.NOTIFY (p s : Nat) : RF := ⟨MSP_CFG p s, 22, 22⟩
def MSP_CFG.SEQ (p s : Nat) : RF := ⟨MSP_CFG p s, 21, 17⟩
def MSP_CFG.LANES (p s : Nat) : RF := ⟨MSP_CFG p s, 15, 8⟩
def MSP_CFG.DEPTH (p s : Nat) : RF := ⟨MSP_CFG p s, 7, 0⟩
/-- `MSP_CFG2`, 32 bits (R302). -/
def MSP_CFG2 (p s : Nat) : Nat := 0xF9_0000 + p * 0x800 + 0x14 + s * 0x40
def MSP_CFG2.CTXID (p s : Nat) : RF := ⟨MSP_CFG2 p s, 31, 16⟩
def MSP_CFG2.RATE (p s : Nat) : RF := ⟨MSP_CFG2 p s, 15, 0⟩
/-- `MSP_CSR`, 32 bits (R302). -/
def MSP_CSR (p s : Nat) : Nat := 0xF9_0000 + p * 0x800 + 0x18 + s * 0x40
def MSP_CSR.GO (p s : Nat) : RF := ⟨MSP_CSR p s, 31, 31⟩
def MSP_CSR.ABORT (p s : Nat) : RF := ⟨MSP_CSR p s, 30, 30⟩
def MSP_CSR.RESUME (p s : Nat) : RF := ⟨MSP_CSR p s, 29, 29⟩
def MSP_CSR.STATE (p s : Nat) : RF := ⟨MSP_CSR p s, 28, 26⟩
def MSP_CSR.ARMERR (p s : Nat) : RF := ⟨MSP_CSR p s, 25, 23⟩
def MSP_CSR.FCODE (p s : Nat) : RF := ⟨MSP_CSR p s, 22, 19⟩
def MSP_CSR.PSN (p s : Nat) : RF := ⟨MSP_CSR p s, 18, 18⟩
def MSP_CSR.STARVE (p s : Nat) : RF := ⟨MSP_CSR p s, 17, 17⟩
def MSP_CSR.ALIGN (p s : Nat) : RF := ⟨MSP_CSR p s, 16, 16⟩
def MSP_CSR.TOKDROP (p s : Nat) : RF := ⟨MSP_CSR p s, 15, 8⟩
def MSP_CSR.PCNT (p s : Nat) : RF := ⟨MSP_CSR p s, 7, 0⟩
/-- `MSP_COLL`, 64 bits (R302). -/
def MSP_COLL (p s : Nat) : Nat := 0xF9_0000 + p * 0x800 + 0x20 + s * 0x40
def MSP_COLL.COUNT (p s : Nat) : RF := ⟨MSP_COLL p s, 63, 52⟩
def MSP_COLL.FADDR (p s : Nat) : RF := ⟨MSP_COLL p s, 51, 0⟩
/-- `ISL_FORK_CFG`, 64 bits (R322). -/
def ISL_FORK_CFG (i : Nat) : Nat := 0x40_0000 + i * 0x1_0000 + 0x700
def ISL_FORK_CFG.STEN (i : Nat) : RF := ⟨ISL_FORK_CFG i, 63, 63⟩
def ISL_FORK_CFG.SU (i : Nat) : RF := ⟨ISL_FORK_CFG i, 62, 59⟩
def ISL_FORK_CFG.HOLDP (i : Nat) : RF := ⟨ISL_FORK_CFG i, 58, 55⟩
def ISL_FORK_CFG.FLP (i : Nat) : RF := ⟨ISL_FORK_CFG i, 54, 51⟩
def ISL_FORK_CFG.BREN (i : Nat) : RF := ⟨ISL_FORK_CFG i, 50, 50⟩
def ISL_FORK_CFG.BRSET (i : Nat) : RF := ⟨ISL_FORK_CFG i, 49, 48⟩
def ISL_FORK_CFG.BRSIDE (i : Nat) : RF := ⟨ISL_FORK_CFG i, 47, 47⟩
def ISL_FORK_CFG.SEN (i : Nat) : RF := ⟨ISL_FORK_CFG i, 43, 40⟩
def ISL_FORK_CFG.KEEP (i : Nat) : RF := ⟨ISL_FORK_CFG i, 39, 32⟩
def ISL_FORK_CFG.QSEL (i : Nat) : RF := ⟨ISL_FORK_CFG i, 31, 16⟩
/-- `ISL_FORK_STAT`, 32 bits (R322). -/
def ISL_FORK_STAT (i : Nat) : Nat := 0x40_0000 + i * 0x1_0000 + 0x708
def ISL_FORK_STAT.STATE (i : Nat) : RF := ⟨ISL_FORK_STAT i, 31, 30⟩
def ISL_FORK_STAT.CUR (i : Nat) : RF := ⟨ISL_FORK_STAT i, 29, 28⟩
def ISL_FORK_STAT.WSET (i : Nat) : RF := ⟨ISL_FORK_STAT i, 27, 26⟩
def ISL_FORK_STAT.ARMED (i : Nat) : RF := ⟨ISL_FORK_STAT i, 25, 22⟩
def ISL_FORK_STAT.LATCH (i : Nat) : RF := ⟨ISL_FORK_STAT i, 21, 18⟩
def ISL_FORK_STAT.LOUT (i : Nat) : RF := ⟨ISL_FORK_STAT i, 17, 14⟩
def ISL_FORK_STAT.WAITOV (i : Nat) : RF := ⟨ISL_FORK_STAT i, 13, 13⟩
def ISL_FORK_STAT.LOSTRES (i : Nat) : RF := ⟨ISL_FORK_STAT i, 12, 12⟩
def ISL_FORK_STAT.FSTARVE (i : Nat) : RF := ⟨ISL_FORK_STAT i, 11, 11⟩
def ISL_FORK_STAT.FBAD (i : Nat) : RF := ⟨ISL_FORK_STAT i, 10, 10⟩
/-- `ISL_FORK_CNT`, 32 bits (R322). -/
def ISL_FORK_CNT (i : Nat) : Nat := 0x40_0000 + i * 0x1_0000 + 0x70C
def ISL_FORK_CNT.HOLDS (i : Nat) : RF := ⟨ISL_FORK_CNT i, 31, 16⟩
def ISL_FORK_CNT.COUNT (i : Nat) : RF := ⟨ISL_FORK_CNT i, 15, 0⟩
/-- `ISL_FORK_CTL`, 32 bits (R322). -/
def ISL_FORK_CTL (i : Nat) : Nat := 0x40_0000 + i * 0x1_0000 + 0x710
def ISL_FORK_CTL.CLRCNT (i : Nat) : RF := ⟨ISL_FORK_CTL i, 31, 31⟩
def ISL_FORK_CTL.FORCE (i : Nat) : RF := ⟨ISL_FORK_CTL i, 30, 30⟩
def ISL_FORK_CTL.FSET (i : Nat) : RF := ⟨ISL_FORK_CTL i, 29, 28⟩
def ISL_FORK_CTL.FOUT (i : Nat) : RF := ⟨ISL_FORK_CTL i, 27, 27⟩
/-- `ISL_FCAP_CFG`, 64 bits (R357). -/
def ISL_FCAP_CFG (i : Nat) : Nat := 0x40_0000 + i * 0x1_0000 + 0x800
def ISL_FCAP_CFG.FEN (i : Nat) : RF := ⟨ISL_FCAP_CFG i, 63, 63⟩
def ISL_FCAP_CFG.FSU (i : Nat) : RF := ⟨ISL_FCAP_CFG i, 62, 59⟩
def ISL_FCAP_CFG.FASRC (i : Nat) : RF := ⟨ISL_FCAP_CFG i, 58, 53⟩
def ISL_FCAP_CFG.FXSRC (i : Nat) : RF := ⟨ISL_FCAP_CFG i, 52, 47⟩
def ISL_FCAP_CFG.CBITS (i : Nat) : RF := ⟨ISL_FCAP_CFG i, 46, 42⟩
def ISL_FCAP_CFG.FTOK (i : Nat) : RF := ⟨ISL_FCAP_CFG i, 41, 41⟩
def ISL_FCAP_CFG.FSTALL (i : Nat) : RF := ⟨ISL_FCAP_CFG i, 40, 40⟩
def ISL_FCAP_CFG.PROG (i : Nat) : RF := ⟨ISL_FCAP_CFG i, 39, 36⟩
def ISL_FCAP_CFG.SITE (i : Nat) : RF := ⟨ISL_FCAP_CFG i, 35, 30⟩
def ISL_FCAP_CFG.RU (i : Nat) : RF := ⟨ISL_FCAP_CFG i, 29, 16⟩
/-- `ISL_FCAP_CYC`, 64 bits (R357). -/
def ISL_FCAP_CYC (i : Nat) : Nat := 0x40_0000 + i * 0x1_0000 + 0x808
def ISL_FCAP_CYC.CYC (i : Nat) : RF := ⟨ISL_FCAP_CYC i, 39, 0⟩
/-- `ISL_FCAP_STAT`, 32 bits (R357). -/
def ISL_FCAP_STAT (i : Nat) : Nat := 0x40_0000 + i * 0x1_0000 + 0x810
def ISL_FCAP_STAT.LOSTS (i : Nat) : RF := ⟨ISL_FCAP_STAT i, 31, 31⟩
def ISL_FCAP_STAT.SUSP (i : Nat) : RF := ⟨ISL_FCAP_STAT i, 30, 30⟩
def ISL_FCAP_STAT.OCC (i : Nat) : RF := ⟨ISL_FCAP_STAT i, 28, 24⟩
def ISL_FCAP_STAT.LOSTCNT (i : Nat) : RF := ⟨ISL_FCAP_STAT i, 15, 8⟩
def ISL_FCAP_STAT.STCNT (i : Nat) : RF := ⟨ISL_FCAP_STAT i, 7, 0⟩
/-- `ISL_FCAP_BAD`, 64 bits (R357). -/
def ISL_FCAP_BAD (i : Nat) : Nat := 0x40_0000 + i * 0x1_0000 + 0x818
def ISL_FCAP_BAD.VALID (i : Nat) : RF := ⟨ISL_FCAP_BAD i, 63, 63⟩
def ISL_FCAP_BAD.KIND (i : Nat) : RF := ⟨ISL_FCAP_BAD i, 62, 62⟩
def ISL_FCAP_BAD.CYC (i : Nat) : RF := ⟨ISL_FCAP_BAD i, 39, 0⟩
/-- `FE_GSTAT`, 32 bits (R358). -/
def FE_GSTAT : Nat := 0xF0_0000 + 0x0
def FE_GSTAT.SOLVBUSY : RF := ⟨FE_GSTAT, 31, 28⟩
def FE_GSTAT.EARLYBUF : RF := ⟨FE_GSTAT, 27, 27⟩
def FE_GSTAT.FATUSED : RF := ⟨FE_GSTAT, 16, 0⟩
/-- `FE_PnUNITS`, 32 bits (R358). -/
def FE_PUNITS (p : Nat) : Nat := 0xF0_0000 + 0x1000 + p * 0x100
def FE_PUNITS.UCOUNT (p : Nat) : RF := ⟨FE_PUNITS p, 30, 16⟩
def FE_PUNITS.UFIRST (p : Nat) : RF := ⟨FE_PUNITS p, 13, 0⟩
/-- `FE_PnTRK`, 64 bits (R358). -/
def FE_PTRK (p : Nat) : Nat := 0xF0_0000 + 0x1008 + p * 0x100
def FE_PTRK.TCOUNT (p : Nat) : RF := ⟨FE_PTRK p, 53, 32⟩
def FE_PTRK.TFIRST (p : Nat) : RF := ⟨FE_PTRK p, 20, 0⟩
/-- `FE_PnMAPLO`, 64 bits (R358). -/
def FE_PMAPLO (p : Nat) : Nat := 0xF0_0000 + 0x1010 + p * 0x100
def FE_PMAPLO.ADDR (p : Nat) : RF := ⟨FE_PMAPLO p, 51, 12⟩
/-- `FE_PnMAPHI`, 64 bits (R358). -/
def FE_PMAPHI (p : Nat) : Nat := 0xF0_0000 + 0x1018 + p * 0x100
def FE_PMAPHI.ADDR (p : Nat) : RF := ⟨FE_PMAPHI p, 51, 12⟩
/-- `FE_PnHDR`, 64 bits (R358). -/
def FE_PHDR (p : Nat) : Nat := 0xF0_0000 + 0x1020 + p * 0x100
def FE_PHDR.EN (p : Nat) : RF := ⟨FE_PHDR p, 63, 63⟩
def FE_PHDR.ADDR (p : Nat) : RF := ⟨FE_PHDR p, 51, 6⟩
/-- `FE_PnRRQ`, 64 bits (R358). -/
def FE_PRRQ (p : Nat) : Nat := 0xF0_0000 + 0x1028 + p * 0x100
def FE_PRRQ.BASE (p : Nat) : RF := ⟨FE_PRRQ p, 51, 7⟩
def FE_PRRQ.LOG2N (p : Nat) : RF := ⟨FE_PRRQ p, 4, 0⟩
/-- `FE_PnRRQC`, 32 bits (R358). -/
def FE_PRRQC (p : Nat) : Nat := 0xF0_0000 + 0x1030 + p * 0x100
def FE_PRRQC.VEC (p : Nat) : RF := ⟨FE_PRRQC p, 26, 16⟩
/-- `FE_PnRRQP`, 32 bits (R358). -/
def FE_PRRQP (p : Nat) : Nat := 0xF0_0000 + 0x1034 + p * 0x100
def FE_PRRQP.TAIL (p : Nat) : RF := ⟨FE_PRRQP p, 31, 16⟩
def FE_PRRQP.HEAD (p : Nat) : RF := ⟨FE_PRRQP p, 15, 0⟩
/-- `FE_PnFAT`, 64 bits (R358). -/
def FE_PFAT (p : Nat) : Nat := 0xF0_0000 + 0x1038 + p * 0x100
def FE_PFAT.QUOTA (p : Nat) : RF := ⟨FE_PFAT p, 48, 32⟩
def FE_PFAT.USED (p : Nat) : RF := ⟨FE_PFAT p, 16, 0⟩
/-- `FE_PnCMD`, 32 bits (R358). -/
def FE_PCMD (p : Nat) : Nat := 0xF0_0000 + 0x1060 + p * 0x100
def FE_PCMD.OP (p : Nat) : RF := ⟨FE_PCMD p, 31, 28⟩
def FE_PCMD.SITE (p : Nat) : RF := ⟨FE_PCMD p, 27, 22⟩
def FE_PCMD.UNIT (p : Nat) : RF := ⟨FE_PCMD p, 13, 0⟩
/-- `FE_PnCST`, 32 bits (R358). -/
def FE_PCST (p : Nat) : Nat := 0xF0_0000 + 0x1064 + p * 0x100
def FE_PCST.BUSY (p : Nat) : RF := ⟨FE_PCST p, 31, 31⟩
def FE_PCST.ERRCODE (p : Nat) : RF := ⟨FE_PCST p, 30, 27⟩
def FE_PCST.USTATE (p : Nat) : RF := ⟨FE_PCST p, 26, 24⟩
/-- `FE_PnCNT`, 64 bits (R358). -/
def FE_PCNT (p : Nat) : Nat := 0xF0_0000 + 0x1068 + p * 0x100
def FE_PCNT.NOTARMED (p : Nat) : RF := ⟨FE_PCNT p, 63, 48⟩
def FE_PCNT.OOR (p : Nat) : RF := ⟨FE_PCNT p, 47, 32⟩
def FE_PCNT.LATE (p : Nat) : RF := ⟨FE_PCNT p, 31, 16⟩
def FE_PCNT.PERR (p : Nat) : RF := ⟨FE_PCNT p, 15, 0⟩
/-- `FE_PnFLAGS`, 32 bits (R358). -/
def FE_PFLAGS (p : Nat) : Nat := 0xF0_0000 + 0x1070 + p * 0x100
def FE_PFLAGS.RRQFULL (p : Nat) : RF := ⟨FE_PFLAGS p, 31, 31⟩
def FE_PFLAGS.MAPERR (p : Nat) : RF := ⟨FE_PFLAGS p, 30, 30⟩
def FE_PFLAGS.FATFULL (p : Nat) : RF := ⟨FE_PFLAGS p, 29, 29⟩
def FE_PFLAGS.MAPFULL (p : Nat) : RF := ⟨FE_PFLAGS p, 28, 28⟩
def FE_PFLAGS.LOST (p : Nat) : RF := ⟨FE_PFLAGS p, 27, 27⟩
def FE_PFLAGS.CMDLOST (p : Nat) : RF := ⟨FE_PFLAGS p, 26, 26⟩
def FE_PFLAGS.RANGEERR (p : Nat) : RF := ⟨FE_PFLAGS p, 25, 25⟩
def FE_PFLAGS.CLRCNT (p : Nat) : RF := ⟨FE_PFLAGS p, 24, 24⟩
/-- `FE_PnQRY`, 64 bits (R358). -/
def FE_PQRY (p : Nat) : Nat := 0xF0_0000 + 0x1078 + p * 0x100
def FE_PQRY.GEN (p : Nat) : RF := ⟨FE_PQRY p, 62, 56⟩
def FE_PQRY.FR (p : Nat) : RF := ⟨FE_PQRY p, 55, 51⟩
def FE_PQRY.FC (p : Nat) : RF := ⟨FE_PQRY p, 50, 46⟩
def FE_PQRY.SPARSE (p : Nat) : RF := ⟨FE_PQRY p, 45, 36⟩
def FE_PQRY.UFLAGS (p : Nat) : RF := ⟨FE_PQRY p, 35, 32⟩
def FE_PQRY.NWRITE (p : Nat) : RF := ⟨FE_PQRY p, 31, 0⟩
/-- `CFG_LOAD`, 32 bits (R387). -/
def CFG_LOAD : Nat := 0x3_0000 + 0x0
def CFG_LOAD.GO : RF := ⟨CFG_LOAD, 31, 31⟩
def CFG_LOAD.ABORT : RF := ⟨CFG_LOAD, 30, 30⟩
def CFG_LOAD.SRC : RF := ⟨CFG_LOAD, 29, 27⟩
def CFG_LOAD.MODE : RF := ⟨CFG_LOAD, 26, 25⟩
def CFG_LOAD.PART : RF := ⟨CFG_LOAD, 3, 0⟩
/-- `CFG_STAT`, 32 bits (R387). -/
def CFG_STAT : Nat := 0x3_0000 + 0x4
def CFG_STAT.BUSY : RF := ⟨CFG_STAT, 31, 31⟩
def CFG_STAT.PHASE : RF := ⟨CFG_STAT, 30, 28⟩
def CFG_STAT.DONE : RF := ⟨CFG_STAT, 27, 27⟩
/-- `CFG_ERR`, 32 bits (R387). -/
def CFG_ERR : Nat := 0x3_0000 + 0x8
def CFG_ERR.CODE : RF := ⟨CFG_ERR, 31, 27⟩
def CFG_ERR.SRC : RF := ⟨CFG_ERR, 26, 24⟩
def CFG_ERR.MODE : RF := ⟨CFG_ERR, 23, 22⟩
def CFG_ERR.PART : RF := ⟨CFG_ERR, 21, 18⟩
def CFG_ERR.FBKERR : RF := ⟨CFG_ERR, 17, 17⟩
def CFG_ERR.FBK : RF := ⟨CFG_ERR, 16, 16⟩
def CFG_ERR.FADDR : RF := ⟨CFG_ERR, 15, 0⟩
/-- `CFG_PROG`, 32 bits (R387). -/
def CFG_PROG : Nat := 0x3_0000 + 0xC
def CFG_PROG.FDONE : RF := ⟨CFG_PROG, 31, 16⟩
def CFG_PROG.NFRAMES : RF := ⟨CFG_PROG, 15, 0⟩
/-- `CFG_WINFREE`, 32 bits (R387). -/
def CFG_WINFREE : Nat := 0x3_0000 + 0x10
def CFG_WINFREE.FREE : RF := ⟨CFG_WINFREE, 16, 0⟩
/-- `CFG_CSPTGT`, 32 bits (R387). -/
def CFG_CSPTGT : Nat := 0x3_0000 + 0x14
def CFG_CSPTGT.EN : RF := ⟨CFG_CSPTGT, 31, 31⟩
def CFG_CSPTGT.PART : RF := ⟨CFG_CSPTGT, 3, 0⟩
/-- `CFG_BOOT`, 32 bits (R387). -/
def CFG_BOOT : Nat := 0x3_0000 + 0x18
def CFG_BOOT.ARRAY : RF := ⟨CFG_BOOT, 31, 30⟩
def CFG_BOOT.CSPERR : RF := ⟨CFG_BOOT, 25, 21⟩
def CFG_BOOT.UPDERR : RF := ⟨CFG_BOOT, 20, 16⟩
def CFG_BOOT.GLDERR : RF := ⟨CFG_BOOT, 4, 0⟩
/-- `CFG_IRQ`, 32 bits (R387). -/
def CFG_IRQ : Nat := 0x3_0000 + 0x1C
def CFG_IRQ.EN : RF := ⟨CFG_IRQ, 31, 31⟩
def CFG_IRQ.VEC : RF := ⟨CFG_IRQ, 10, 0⟩
/-- `CFG_RES`, 64 bits (R387). -/
def CFG_RES : Nat := 0x3_0000 + 0x20
def CFG_RES.BASE : RF := ⟨CFG_RES, 51, 27⟩
def CFG_RES.EN : RF := ⟨CFG_RES, 0, 0⟩
/-- `CFG_RESVAL`, 32 bits (R387). -/
def CFG_RESVAL : Nat := 0x3_0000 + 0x28
def CFG_RESVAL.VALID : RF := ⟨CFG_RESVAL, 11, 0⟩
/-- `CFG_POLICY`, 32 bits (R387). -/
def CFG_POLICY : Nat := 0x3_0000 + 0x2C
def CFG_POLICY.LOCK : RF := ⟨CFG_POLICY, 31, 31⟩
def CFG_POLICY.SIGPROG : RF := ⟨CFG_POLICY, 15, 12⟩
def CFG_POLICY.SIGREV : RF := ⟨CFG_POLICY, 11, 8⟩
def CFG_POLICY.AESPROG : RF := ⟨CFG_POLICY, 7, 6⟩
def CFG_POLICY.AESREV : RF := ⟨CFG_POLICY, 5, 4⟩
def CFG_POLICY.LIVEEN : RF := ⟨CFG_POLICY, 2, 2⟩
def CFG_POLICY.REQENC : RF := ⟨CFG_POLICY, 1, 1⟩
def CFG_POLICY.REQSIG : RF := ⟨CFG_POLICY, 0, 0⟩
/-- `CFG_SCRUB`, 32 bits (R387). -/
def CFG_SCRUB : Nat := 0x3_0000 + 0x30
def CFG_SCRUB.EN : RF := ⟨CFG_SCRUB, 31, 31⟩
def CFG_SCRUB.INTERVAL : RF := ⟨CFG_SCRUB, 23, 0⟩
/-- `CFG_SCRUBSTAT`, 32 bits (R387). -/
def CFG_SCRUBSTAT : Nat := 0x3_0000 + 0x34
def CFG_SCRUBSTAT.FIXED : RF := ⟨CFG_SCRUBSTAT, 31, 16⟩
def CFG_SCRUBSTAT.ESSIN : RF := ⟨CFG_SCRUBSTAT, 15, 8⟩
def CFG_SCRUBSTAT.NORES : RF := ⟨CFG_SCRUBSTAT, 7, 0⟩
/-- `CFG_SCRUBLAST`, 32 bits (R387). -/
def CFG_SCRUBLAST : Nat := 0x3_0000 + 0x38
def CFG_SCRUBLAST.VALID : RF := ⟨CFG_SCRUBLAST, 31, 31⟩
def CFG_SCRUBLAST.ISLAND : RF := ⟨CFG_SCRUBLAST, 23, 16⟩
def CFG_SCRUBLAST.FRAME : RF := ⟨CFG_SCRUBLAST, 6, 0⟩
/-- `CFG_RBADDR`, 32 bits (R387). -/
def CFG_RBADDR : Nat := 0x3_0000 + 0x40
def CFG_RBADDR.READY : RF := ⟨CFG_RBADDR, 31, 31⟩
def CFG_RBADDR.ISLAND : RF := ⟨CFG_RBADDR, 23, 16⟩
def CFG_RBADDR.FRAME : RF := ⟨CFG_RBADDR, 6, 0⟩
/-- `CFG_RBDATAk`, 32 bits (R387). -/
def CFG_RBDATA (k : Nat) : Nat := 0x3_0000 + 0x100 + k * 0x4
def CFG_RBDATA.DATA (k : Nat) : RF := ⟨CFG_RBDATA k, 31, 0⟩
/-- `CFG_RBCRC`, 32 bits (R387). -/
def CFG_RBCRC : Nat := 0x3_0000 + 0x180
def CFG_RBCRC.DATA : RF := ⟨CFG_RBCRC, 31, 0⟩
/-- `HL_STAT`, 32 bits (R408). -/
def HL_STAT (fn : Nat) : Nat := 0x1000_0000 + fn * 0x1000 + 0x0
def HL_STAT.FLIT (fn : Nat) : RF := ⟨HL_STAT fn, 31, 31⟩
def HL_STAT.L0P (fn : Nat) : RF := ⟨HL_STAT fn, 30, 30⟩
def HL_STAT.LPBLK (fn : Nat) : RF := ⟨HL_STAT fn, 29, 29⟩
def HL_STAT.D3 (fn : Nat) : RF := ⟨HL_STAT fn, 28, 28⟩
def HL_STAT.WIDTH (fn : Nat) : RF := ⟨HL_STAT fn, 23, 19⟩
def HL_STAT.SPEED (fn : Nat) : RF := ⟨HL_STAT fn, 18, 16⟩
/-- `HL_AP`, 64 bits (R408). -/
def HL_AP (fn : Nat) : Nat := 0x1000_0000 + fn * 0x1000 + 0x10
def HL_AP.BASE (fn : Nat) : RF := ⟨HL_AP fn, 13, 0⟩
/-- `HL_APERR`, 32 bits (R408). -/
def HL_APERR : Nat := 0x8_0000 + 0x18
def HL_APERR.VALID : RF := ⟨HL_APERR, 31, 31⟩
def HL_APERR.WRITE : RF := ⟨HL_APERR, 30, 30⟩
def HL_APERR.FUNC : RF := ⟨HL_APERR, 27, 24⟩
def HL_APERR.COUNT : RF := ⟨HL_APERR, 23, 0⟩
/-- `HL_VFLIMv`, 64 bits (R408). -/
def HL_VFLIM (v : Nat) : Nat := 0x8_0000 + 0x100 + v * 0x8
def HL_VFLIM.SIZE (v : Nat) : RF := ⟨HL_VFLIM v, 45, 32⟩
def HL_VFLIM.FIRST (v : Nat) : RF := ⟨HL_VFLIM v, 13, 0⟩
/-- `MBX_SQT`, 32 bits (R409). -/
def MBX_SQT (fn : Nat) : Nat := 0x2000_0000 + fn * 0x1000 + 0x0
def MBX_SQT.PTR (fn : Nat) : RF := ⟨MBX_SQT fn, 11, 0⟩
/-- `MBX_CQH`, 32 bits (R409). -/
def MBX_CQH (fn : Nat) : Nat := 0x2000_0000 + fn * 0x1000 + 0x8
def MBX_CQH.PTR (fn : Nat) : RF := ⟨MBX_CQH fn, 11, 0⟩
/-- `MBX_SQH`, 32 bits (R409). -/
def MBX_SQH (fn : Nat) : Nat := 0x2000_0000 + fn * 0x1000 + 0x4
def MBX_SQH.PTR (fn : Nat) : RF := ⟨MBX_SQH fn, 11, 0⟩
/-- `MBX_CQT`, 32 bits (R409). -/
def MBX_CQT (fn : Nat) : Nat := 0x2000_0000 + fn * 0x1000 + 0xC
def MBX_CQT.PTR (fn : Nat) : RF := ⟨MBX_CQT fn, 11, 0⟩
/-- `MBX_CTL`, 32 bits (R409). -/
def MBX_CTL (fn : Nat) : Nat := 0x2000_0000 + fn * 0x1000 + 0x10
def MBX_CTL.EN (fn : Nat) : RF := ⟨MBX_CTL fn, 31, 31⟩
def MBX_CTL.RESET (fn : Nat) : RF := ⟨MBX_CTL fn, 30, 30⟩
def MBX_CTL.VEC (fn : Nat) : RF := ⟨MBX_CTL fn, 10, 0⟩
/-- `MBX_STAT`, 32 bits (R409). -/
def MBX_STAT (fn : Nat) : Nat := 0x2000_0000 + fn * 0x1000 + 0x14
def MBX_STAT.READY (fn : Nat) : RF := ⟨MBX_STAT fn, 31, 31⟩
def MBX_STAT.OVF (fn : Nat) : RF := ⟨MBX_STAT fn, 30, 30⟩
def MBX_STAT.CQWAIT (fn : Nat) : RF := ⟨MBX_STAT fn, 29, 29⟩
/-- `CXP_PSTATp`, 32 bits (R410). -/
def CXP_PSTAT (p : Nat) : Nat := 0x9_0000 + 0x0 + p * 0x100
def CXP_PSTAT.UP (p : Nat) : RF := ⟨CXP_PSTAT p, 31, 31⟩
def CXP_PSTAT.SPEED (p : Nat) : RF := ⟨CXP_PSTAT p, 30, 28⟩
def CXP_PSTAT.F256 (p : Nat) : RF := ⟨CXP_PSTAT p, 27, 27⟩
def CXP_PSTAT.WIDTH (p : Nat) : RF := ⟨CXP_PSTAT p, 26, 22⟩
def CXP_PSTAT.L1 (p : Nat) : RF := ⟨CXP_PSTAT p, 21, 21⟩
def CXP_PSTAT.SW (p : Nat) : RF := ⟨CXP_PSTAT p, 20, 20⟩
def CXP_PSTAT.DOWNS (p : Nat) : RF := ⟨CXP_PSTAT p, 15, 0⟩
/-- `CXP_DEVd`, 64 bits (R410). -/
def CXP_DEV (d : Nat) : Nat := 0x9_0000 + 0x800 + d * 0x40
def CXP_DEV.PRESENT (d : Nat) : RF := ⟨CXP_DEV d, 63, 63⟩
def CXP_DEV.PORT (d : Nat) : RF := ⟨CXP_DEV d, 62, 62⟩
def CXP_DEV.ACTIVE (d : Nat) : RF := ⟨CXP_DEV d, 61, 61⟩
def CXP_DEV.SLOW (d : Nat) : RF := ⟨CXP_DEV d, 47, 32⟩
def CXP_DEV.CAP (d : Nat) : RF := ⟨CXP_DEV d, 23, 0⟩
/-- `CXP_LOCK`, 32 bits (R410). -/
def CXP_LOCK : Nat := 0x9_0000 + 0xF00
def CXP_LOCK.LOCK : RF := ⟨CXP_LOCK, 31, 31⟩
/-- `RING_CTL`, 32 bits (R427). -/
def RING_CTL : Nat := 0xA_0000 + 0x0
def RING_CTL.JOIN : RF := ⟨RING_CTL, 31, 31⟩
def RING_CTL.LEAVE : RF := ⟨RING_CTL, 30, 30⟩
def RING_CTL.TMASTER : RF := ⟨RING_CTL, 29, 29⟩
def RING_CTL.AUTOJ : RF := ⟨RING_CTL, 28, 28⟩
def RING_CTL.RXEN : RF := ⟨RING_CTL, 27, 27⟩
def RING_CTL.RXSEQ : RF := ⟨RING_CTL, 26, 22⟩
def RING_CTL.RXDB : RF := ⟨RING_CTL, 21, 18⟩
def RING_CTL.ID : RF := ⟨RING_CTL, 17, 12⟩
def RING_CTL.LEAD : RF := ⟨RING_CTL, 11, 0⟩
/-- `RING_STAT`, 32 bits (R427). -/
def RING_STAT : Nat := 0xA_0000 + 0x4
def RING_STAT.JOINED : RF := ⟨RING_STAT, 31, 31⟩
def RING_STAT.R0UP : RF := ⟨RING_STAT, 30, 30⟩
def RING_STAT.R1UP : RF := ⟨RING_STAT, 29, 29⟩
def RING_STAT.TSYNC : RF := ⟨RING_STAT, 28, 28⟩
def RING_STAT.TMACT : RF := ⟨RING_STAT, 27, 27⟩
def RING_STAT.JSTATE : RF := ⟨RING_STAT, 26, 24⟩
def RING_STAT.JERR : RF := ⟨RING_STAT, 23, 22⟩
def RING_STAT.TSTEP : RF := ⟨RING_STAT, 21, 21⟩
def RING_STAT.TMLOST : RF := ⟨RING_STAT, 20, 20⟩
def RING_STAT.TXFULL : RF := ⟨RING_STAT, 19, 19⟩
def RING_STAT.NODES : RF := ⟨RING_STAT, 18, 12⟩
/-- `RING_DLY`, 32 bits (R427). -/
def RING_DLY : Nat := 0xA_0000 + 0x10
def RING_DLY.DW : RF := ⟨RING_DLY, 31, 16⟩
def RING_DLY.DE : RF := ⟨RING_DLY, 15, 0⟩
/-- `RING_CNT`, 64 bits (R427). -/
def RING_CNT : Nat := 0xA_0000 + 0x18
def RING_CNT.CRCERR : RF := ⟨RING_CNT, 63, 48⟩
def RING_CNT.LOSTF : RF := ⟨RING_CNT, 47, 32⟩
def RING_CNT.LATE : RF := ⟨RING_CNT, 31, 16⟩
def RING_CNT.TXDROP : RF := ⟨RING_CNT, 15, 0⟩
/-- `RING_MBCTL`, 32 bits (R427). -/
def RING_MBCTL : Nat := 0xA_0000 + 0x28
def RING_MBCTL.GO : RF := ⟨RING_MBCTL, 31, 31⟩
def RING_MBCTL.MBBC : RF := ⟨RING_MBCTL, 30, 30⟩
def RING_MBCTL.DST : RF := ⟨RING_MBCTL, 5, 0⟩
/-- `RING_RXHDR`, 32 bits (R427). -/
def RING_RXHDR : Nat := 0xA_0000 + 0x30
def RING_RXHDR.VALID : RF := ⟨RING_RXHDR, 31, 31⟩
def RING_RXHDR.FSUM : RF := ⟨RING_RXHDR, 30, 30⟩
def RING_RXHDR.RXDROP : RF := ⟨RING_RXHDR, 29, 22⟩
def RING_RXHDR.SRC : RF := ⟨RING_RXHDR, 21, 16⟩
/-- `RING_PEXP`, 32 bits (R427). -/
def RING_PEXP : Nat := 0xA_0000 + 0x40
def RING_PEXP.FS : RF := ⟨RING_PEXP, 27, 16⟩
def RING_PEXP.GF : RF := ⟨RING_PEXP, 11, 0⟩
/-- `RING_DECs`, 32 bits (R427). -/
def RING_DEC (d : Nat) : Nat := 0xA_0000 + 0x48 + d * 0x4
def RING_DEC.NEW (d : Nat) : RF := ⟨RING_DEC d, 31, 31⟩
def RING_DEC.FAIL (d : Nat) : RF := ⟨RING_DEC d, 30, 30⟩
def RING_DEC.EVNO (d : Nat) : RF := ⟨RING_DEC d, 7, 0⟩
/-- `RING_ROUTEk`, 64 bits (R427). -/
def RING_ROUTE (k : Nat) : Nat := 0xA_0000 + 0x80 + k * 0x8
def RING_ROUTE.EN (k : Nat) : RF := ⟨RING_ROUTE k, 63, 63⟩
def RING_ROUTE.LVL (k : Nat) : RF := ⟨RING_ROUTE k, 62, 62⟩
def RING_ROUTE.TMASK (k : Nat) : RF := ⟨RING_ROUTE k, 61, 57⟩
def RING_ROUTE.EVAL (k : Nat) : RF := ⟨RING_ROUTE k, 56, 49⟩
def RING_ROUTE.EVMASK (k : Nat) : RF := ⟨RING_ROUTE k, 48, 41⟩
def RING_ROUTE.DBEN (k : Nat) : RF := ⟨RING_ROUTE k, 40, 40⟩
def RING_ROUTE.PART (k : Nat) : RF := ⟨RING_ROUTE k, 39, 36⟩
def RING_ROUTE.DB (k : Nat) : RF := ⟨RING_ROUTE k, 35, 32⟩
def RING_ROUTE.TEN (k : Nat) : RF := ⟨RING_ROUTE k, 31, 31⟩
def RING_ROUTE.TRIG (k : Nat) : RF := ⟨RING_ROUTE k, 30, 28⟩
def RING_ROUTE.STUCKS (k : Nat) : RF := ⟨RING_ROUTE k, 27, 27⟩
def RING_ROUTE.STUCK (k : Nat) : RF := ⟨RING_ROUTE k, 26, 16⟩
def RING_ROUTE.OVR (k : Nat) : RF := ⟨RING_ROUTE k, 15, 0⟩
/-- `TRIG_CFGk`, 64 bits (R428). -/
def TRIG_CFG (k : Nat) : Nat := 0xA_0000 + 0x200 + k * 0x10
def TRIG_CFG.DBEN (k : Nat) : RF := ⟨TRIG_CFG k, 36, 36⟩
def TRIG_CFG.DB (k : Nat) : RF := ⟨TRIG_CFG k, 35, 32⟩
def TRIG_CFG.OE (k : Nat) : RF := ⟨TRIG_CFG k, 31, 31⟩
def TRIG_CFG.OUT (k : Nat) : RF := ⟨TRIG_CFG k, 30, 30⟩
def TRIG_CFG.OSRC (k : Nat) : RF := ⟨TRIG_CFG k, 29, 28⟩
def TRIG_CFG.IMODE (k : Nat) : RF := ⟨TRIG_CFG k, 27, 25⟩
def TRIG_CFG.SEND (k : Nat) : RF := ⟨TRIG_CFG k, 24, 24⟩
def TRIG_CFG.EVNO (k : Nat) : RF := ⟨TRIG_CFG k, 23, 16⟩
def TRIG_CFG.PART (k : Nat) : RF := ⟨TRIG_CFG k, 15, 12⟩
def TRIG_CFG.STUCK (k : Nat) : RF := ⟨TRIG_CFG k, 11, 0⟩
/-- `TRIG_STATk`, 32 bits (R428). -/
def TRIG_STAT (k : Nat) : Nat := 0xA_0000 + 0x208 + k * 0x10
def TRIG_STAT.IN (k : Nat) : RF := ⟨TRIG_STAT k, 31, 31⟩
def TRIG_STAT.STUCK (k : Nat) : RF := ⟨TRIG_STAT k, 30, 30⟩
def TRIG_STAT.MASKED (k : Nat) : RF := ⟨TRIG_STAT k, 29, 29⟩
def TRIG_STAT.EVT (k : Nat) : RF := ⟨TRIG_STAT k, 28, 28⟩
def TRIG_STAT.OVR (k : Nat) : RF := ⟨TRIG_STAT k, 15, 0⟩
/-- `TRIG_GPIOk`, 32 bits (R428). -/
def TRIG_GPIO (k : Nat) : Nat := 0xA_0000 + 0x300 + k * 0x4
def TRIG_GPIO.OE (k : Nat) : RF := ⟨TRIG_GPIO k, 31, 31⟩
def TRIG_GPIO.OUT (k : Nat) : RF := ⟨TRIG_GPIO k, 30, 30⟩
def TRIG_GPIO.IN (k : Nat) : RF := ⟨TRIG_GPIO k, 29, 29⟩
def TRIG_GPIO.PART (k : Nat) : RF := ⟨TRIG_GPIO k, 3, 0⟩
/-- `RST_CTL`, 32 bits (R448). -/
def RST_CTL : Nat := 0x1_0000 + 0x0
def RST_CTL.WARM : RF := ⟨RST_CTL, 31, 31⟩
def RST_CTL.COLD : RF := ⟨RST_CTL, 30, 30⟩
def RST_CTL.KEY : RF := ⟨RST_CTL, 15, 0⟩
/-- `RST_CAUSE`, 32 bits (R448). -/
def RST_CAUSE : Nat := 0x1_0000 + 0x4
def RST_CAUSE.COLDSRC : RF := ⟨RST_CAUSE, 31, 28⟩
def RST_CAUSE.WARMSRC : RF := ⟨RST_CAUSE, 27, 24⟩
def RST_CAUSE.WARMCNT : RF := ⟨RST_CAUSE, 15, 0⟩
/-- `RST_PART`, 32 bits (R448). -/
def RST_PART : Nat := 0x1_0000 + 0x8
def RST_PART.RESET : RF := ⟨RST_PART, 11, 0⟩
/-- `RST_STAT`, 32 bits (R448). -/
def RST_STAT : Nat := 0x1_0000 + 0xC
def RST_STAT.SVC : RF := ⟨RST_STAT, 31, 30⟩
def RST_STAT.FWSRC : RF := ⟨RST_STAT, 29, 28⟩
def RST_STAT.TRIMCOPY : RF := ⟨RST_STAT, 27, 26⟩
def RST_STAT.TRIMFAILS : RF := ⟨RST_STAT, 25, 24⟩
def RST_STAT.PRST : RF := ⟨RST_STAT, 11, 0⟩
/-- `PWR_PARTn`, 32 bits (R448). -/
def PWR_PART (p : Nat) : Nat := 0x1_0000 + 0x100 + p * 0x4
def PWR_PART.RUNG (p : Nat) : RF := ⟨PWR_PART p, 31, 30⟩
def PWR_PART.CUR (p : Nat) : RF := ⟨PWR_PART p, 29, 28⟩
def PWR_PART.BUSY (p : Nat) : RF := ⟨PWR_PART p, 27, 27⟩
def PWR_PART.ERR (p : Nat) : RF := ⟨PWR_PART p, 26, 24⟩
def PWR_PART.WAKES (p : Nat) : RF := ⟨PWR_PART p, 15, 8⟩
def PWR_PART.WAKEEN (p : Nat) : RF := ⟨PWR_PART p, 2, 0⟩
/-- `PWR_WAKE_DEFER`, 32 bits (R448). -/
def PWR_WAKE_DEFER : Nat := 0x1_0000 + 0x180
def PWR_WAKE_DEFER.COUNT : RF := ⟨PWR_WAKE_DEFER, 31, 16⟩
def PWR_WAKE_DEFER.MAXNS : RF := ⟨PWR_WAKE_DEFER, 15, 0⟩
/-- `PWR_STAT`, 32 bits (R448). -/
def PWR_STAT : Nat := 0x1_0000 + 0x184
def PWR_STAT.MODRUNG : RF := ⟨PWR_STAT, 31, 30⟩
def PWR_STAT.CLRDEF : RF := ⟨PWR_STAT, 0, 0⟩
/-- `CLK_ISLi`, 32 bits (R449). -/
def CLK_ISL (i : Nat) : Nat := 0x2_0000 + 0x0 + i * 0x4
def CLK_ISL.STABLE (i : Nat) : RF := ⟨CLK_ISL i, 31, 31⟩
def CLK_ISL.CLKERR (i : Nat) : RF := ⟨CLK_ISL i, 30, 30⟩
def CLK_ISL.CAP (i : Nat) : RF := ⟨CLK_ISL i, 29, 29⟩
def CLK_ISL.CUR (i : Nat) : RF := ⟨CLK_ISL i, 22, 16⟩
def CLK_ISL.FREQ (i : Nat) : RF := ⟨CLK_ISL i, 6, 0⟩
/-- `CLK_STAB0`, 32 bits (R449). -/
def CLK_STAB0 : Nat := 0x2_0000 + 0x400
def CLK_STAB0.SEQ : RF := ⟨CLK_STAB0, 23, 0⟩
/-- `CLK_STAB1`, 32 bits (R449). -/
def CLK_STAB1 : Nat := 0x2_0000 + 0x404
def CLK_STAB1.AON : RF := ⟨CLK_STAB1, 15, 15⟩
def CLK_STAB1.DMA : RF := ⟨CLK_STAB1, 14, 14⟩
def CLK_STAB1.CFG : RF := ⟨CLK_STAB1, 13, 13⟩
def CLK_STAB1.RING : RF := ⟨CLK_STAB1, 12, 11⟩
def CLK_STAB1.CXL : RF := ⟨CLK_STAB1, 10, 9⟩
def CLK_STAB1.HL : RF := ⟨CLK_STAB1, 8, 8⟩
def CLK_STAB1.FE : RF := ⟨CLK_STAB1, 7, 4⟩
def CLK_STAB1.SVC : RF := ⟨CLK_STAB1, 3, 0⟩
/-- `ERR_CTL`, 32 bits (R475). -/
def ERR_CTL : Nat := 0x4_0000 + 0x0
def ERR_CTL.XSTOP : RF := ⟨ERR_CTL, 31, 31⟩
def ERR_CTL.DIRQ : RF := ⟨ERR_CTL, 30, 30⟩
def ERR_CTL.VEC : RF := ⟨ERR_CTL, 26, 16⟩
def ERR_CTL.STORM : RF := ⟨ERR_CTL, 15, 0⟩
/-- `ERR_STAT`, 32 bits (R475). -/
def ERR_STAT : Nat := 0x4_0000 + 0x4
def ERR_STAT.HACT : RF := ⟨ERR_STAT, 31, 31⟩
def ERR_STAT.FATAL : RF := ⟨ERR_STAT, 30, 30⟩
def ERR_STAT.SAFE : RF := ⟨ERR_STAT, 29, 29⟩
def ERR_STAT.OVF : RF := ⟨ERR_STAT, 15, 0⟩
/-- `ERR_LOGP`, 32 bits (R475). -/
def ERR_LOGP : Nat := 0x4_0000 + 0x8
def ERR_LOGP.TAIL : RF := ⟨ERR_LOGP, 27, 16⟩
def ERR_LOGP.HEAD : RF := ⟨ERR_LOGP, 11, 0⟩
/-- `ERR_PSTATn`, 32 bits (R475). -/
def ERR_PSTAT (p : Nat) : Nat := 0x4_0000 + 0x100 + p * 0x4
def ERR_PSTAT.XCNT (p : Nat) : RF := ⟨ERR_PSTAT p, 31, 24⟩
def ERR_PSTAT.DCNT (p : Nat) : RF := ⟨ERR_PSTAT p, 23, 16⟩
def ERR_PSTAT.CCNT (p : Nat) : RF := ⟨ERR_PSTAT p, 15, 0⟩
/-- `ERR_CAPn`, 32 bits (R475). -/
def ERR_CAP (p : Nat) : Nat := 0x4_0000 + 0x200 + p * 0x4
def ERR_CAP.GO (p : Nat) : RF := ⟨ERR_CAP p, 31, 31⟩
def ERR_CAP.RESUME (p : Nat) : RF := ⟨ERR_CAP p, 30, 30⟩
def ERR_CAP.STATE (p : Nat) : RF := ⟨ERR_CAP p, 29, 28⟩
/-- `ERR_CAPRB`, 32 bits (R475). -/
def ERR_CAPRB : Nat := 0x4_0000 + 0x240
def ERR_CAPRB.ISLAND : RF := ⟨ERR_CAPRB, 23, 16⟩
def ERR_CAPRB.RECORD : RF := ⟨ERR_CAPRB, 4, 0⟩
/-- `HLTH_CTL`, 32 bits (R475). -/
def HLTH_CTL : Nat := 0x4_0000 + 0x1000
def HLTH_CTL.EN : RF := ⟨HLTH_CTL, 31, 31⟩
def HLTH_CTL.AUTOREP : RF := ⟨HLTH_CTL, 1, 0⟩
/-- `HLTH_ISLi`, 32 bits (R475). -/
def HLTH_ISL (i : Nat) : Nat := 0x4_0000 + 0x1400 + i * 0x4
def HLTH_ISL.STATE (i : Nat) : RF := ⟨HLTH_ISL i, 31, 30⟩
def HLTH_ISL.CONF (i : Nat) : RF := ⟨HLTH_ISL i, 29, 28⟩
def HLTH_ISL.CAUSE (i : Nat) : RF := ⟨HLTH_ISL i, 27, 24⟩
def HLTH_ISL.HOURS (i : Nat) : RF := ⟨HLTH_ISL i, 23, 0⟩
/-- `HLTH_LQq`, 32 bits (R475). -/
def HLTH_LQ (q : Nat) : Nat := 0x4_0000 + 0x1800 + q * 0x4
def HLTH_LQ.STATE (q : Nat) : RF := ⟨HLTH_LQ q, 31, 30⟩
def HLTH_LQ.CONF (q : Nat) : RF := ⟨HLTH_LQ q, 29, 28⟩
def HLTH_LQ.CAUSE (q : Nat) : RF := ⟨HLTH_LQ q, 27, 24⟩
def HLTH_LQ.HOURS (q : Nat) : RF := ⟨HLTH_LQ q, 23, 0⟩
/-- `HLTH_RAILk`, 32 bits (R475). -/
def HLTH_RAIL (k : Nat) : Nat := 0x4_0000 + 0x1900 + k * 0x4
def HLTH_RAIL.STATE (k : Nat) : RF := ⟨HLTH_RAIL k, 31, 30⟩
def HLTH_RAIL.CONF (k : Nat) : RF := ⟨HLTH_RAIL k, 29, 28⟩
def HLTH_RAIL.CAUSE (k : Nat) : RF := ⟨HLTH_RAIL k, 27, 24⟩
def HLTH_RAIL.HOURS (k : Nat) : RF := ⟨HLTH_RAIL k, 23, 0⟩
/-- `HLTH_DBGSEL`, 32 bits (R475). -/
def HLTH_DBGSEL : Nat := 0x4_0000 + 0x2000
def HLTH_DBGSEL.VALID : RF := ⟨HLTH_DBGSEL, 31, 31⟩
def HLTH_DBGSEL.REG : RF := ⟨HLTH_DBGSEL, 15, 8⟩
def HLTH_DBGSEL.SEQ : RF := ⟨HLTH_DBGSEL, 4, 0⟩
/-- `HLTH_DBGSTAT`, 32 bits (R475). -/
def HLTH_DBGSTAT : Nat := 0x4_0000 + 0x2010
def HLTH_DBGSTAT.UNLOCKED : RF := ⟨HLTH_DBGSTAT, 2, 2⟩
def HLTH_DBGSTAT.LVL : RF := ⟨HLTH_DBGSTAT, 1, 0⟩
/-- `PWR_THERM`, 32 bits (R487). -/
def PWR_THERM : Nat := 0x1_0000 + 0x188
def PWR_THERM.CAPACT : RF := ⟨PWR_THERM, 31, 31⟩
def PWR_THERM.LIDHI : RF := ⟨PWR_THERM, 30, 30⟩
def PWR_THERM.CAPHIT : RF := ⟨PWR_THERM, 29, 29⟩
def PWR_THERM.CEIL : RF := ⟨PWR_THERM, 28, 22⟩
def PWR_THERM.DIEP : RF := ⟨PWR_THERM, 19, 10⟩
/-- `CXP_HDMd 0x00`, 64 bits (R410). -/
def CXP_HDM0 (d : Nat) : Nat := 0x9_0000 + 0x1000 + d * 0x40
def CXP_HDM0.BASE (d : Nat) : RF := ⟨CXP_HDM0 d, 43, 28⟩
/-- `CXP_HDMd 0x08`, 64 bits (R410). -/
def CXP_HDM1 (d : Nat) : Nat := 0x9_0000 + 0x1008 + d * 0x40
def CXP_HDM1.SIZE (d : Nat) : RF := ⟨CXP_HDM1 d, 44, 28⟩
/-- `CXP_HDMd 0x10`, 64 bits (R410). -/
def CXP_HDM2 (d : Nat) : Nat := 0x9_0000 + 0x1010 + d * 0x40
def CXP_HDM2.COMMIT (d : Nat) : RF := ⟨CXP_HDM2 d, 63, 63⟩
def CXP_HDM2.COMMITTED (d : Nat) : RF := ⟨CXP_HDM2 d, 62, 62⟩
def CXP_HDM2.ERR (d : Nat) : RF := ⟨CXP_HDM2 d, 61, 60⟩
def CXP_HDM2.DPABASE (d : Nat) : RF := ⟨CXP_HDM2 d, 43, 28⟩
def CXP_HDM2.IG (d : Nat) : RF := ⟨CXP_HDM2 d, 6, 4⟩
def CXP_HDM2.IW (d : Nat) : RF := ⟨CXP_HDM2 d, 1, 0⟩
/-- `CXP_HDMd 0x18`, 64 bits (R410). -/
def CXP_HDM3 (d : Nat) : Nat := 0x9_0000 + 0x1018 + d * 0x40
def CXP_HDM3.TGT7 (d : Nat) : RF := ⟨CXP_HDM3 d, 30, 28⟩
def CXP_HDM3.TGT6 (d : Nat) : RF := ⟨CXP_HDM3 d, 26, 24⟩
def CXP_HDM3.TGT5 (d : Nat) : RF := ⟨CXP_HDM3 d, 22, 20⟩
def CXP_HDM3.TGT4 (d : Nat) : RF := ⟨CXP_HDM3 d, 18, 16⟩
def CXP_HDM3.TGT3 (d : Nat) : RF := ⟨CXP_HDM3 d, 14, 12⟩
def CXP_HDM3.TGT2 (d : Nat) : RF := ⟨CXP_HDM3 d, 10, 8⟩
def CXP_HDM3.TGT1 (d : Nat) : RF := ⟨CXP_HDM3 d, 6, 4⟩
def CXP_HDM3.TGT0 (d : Nat) : RF := ⟨CXP_HDM3 d, 2, 0⟩
/-- `RING_TIME`, 64 bits (R427). -/
def RING_TIME : Nat := 0xA_0000 + 0x8
def RING_TIME.TIME : RF := ⟨RING_TIME, 63, 0⟩
/-- `RING_MBTX`, 64 bits (R427). -/
def RING_MBTX : Nat := 0xA_0000 + 0x20
def RING_MBTX.MSG : RF := ⟨RING_MBTX, 63, 0⟩
/-- `RING_RXDATA`, 64 bits (R427). -/
def RING_RXDATA : Nat := 0xA_0000 + 0x38
def RING_RXDATA.PAY : RF := ⟨RING_RXDATA, 63, 0⟩
/-- `TRIG_TSk`, 64 bits (R428). -/
def TRIG_TS (k : Nat) : Nat := 0xA_0000 + 0x280 + k * 0x8
def TRIG_TS.TS (k : Nat) : RF := ⟨TRIG_TS k, 63, 0⟩
/-- `HLTH_DBGDATA`, 64 bits (R475). -/
def HLTH_DBGDATA : Nat := 0x4_0000 + 0x2008
def HLTH_DBGDATA.DATA : RF := ⟨HLTH_DBGDATA, 63, 0⟩
/-- `ERR_FIRSTF`, 64 bits (R475). -/
def ERR_FIRSTF (k : Nat) : Nat := 0x4_0000 + 0x40 + k * 0x8
def ERR_FIRSTF.REC (k : Nat) : RF := ⟨ERR_FIRSTF k, 63, 0⟩
/-- `FE_PnUD0`, 64 bits (R358). -/
def FE_PUD0 (p : Nat) : Nat := 0xF0_0000 + 0x1040 + p * 0x100
def FE_PUD0.MAPBASE (p : Nat) : RF := ⟨FE_PUD0 p, 51, 6⟩
def FE_PUD0.FMT (p : Nat) : RF := ⟨FE_PUD0 p, 3, 2⟩
def FE_PUD0.AN (p : Nat) : RF := ⟨FE_PUD0 p, 1, 1⟩
def FE_PUD0.AUTO (p : Nat) : RF := ⟨FE_PUD0 p, 0, 0⟩
/-- `FE_PnUD1`, 64 bits (R358). -/
def FE_PUD1 (p : Nat) : Nat := 0xF0_0000 + 0x1048 + p * 0x100
def FE_PUD1.LEN (p : Nat) : RF := ⟨FE_PUD1 p, 63, 32⟩
def FE_PUD1.TBASE (p : Nat) : RF := ⟨FE_PUD1 p, 20, 0⟩
/-- `FE_PnUD2`, 64 bits (R358). -/
def FE_PUD2 (p : Nat) : Nat := 0xF0_0000 + 0x1050 + p * 0x100
def FE_PUD2.NRM1 (p : Nat) : RF := ⟨FE_PUD2 p, 63, 44⟩
def FE_PUD2.NCM1 (p : Nat) : RF := ⟨FE_PUD2 p, 43, 28⟩
def FE_PUD2.IOMODE (p : Nat) : RF := ⟨FE_PUD2 p, 27, 27⟩
def FE_PUD2.SR (p : Nat) : RF := ⟨FE_PUD2 p, 26, 22⟩
def FE_PUD2.SC (p : Nat) : RF := ⟨FE_PUD2 p, 21, 17⟩
def FE_PUD2.SITE (p : Nat) : RF := ⟨FE_PUD2 p, 5, 0⟩

/-- The registers of block GLB. -/
def regsGLB : List RegD := [
  -- GLB_DEVICE_ID
  ⟨0x0, 0x0, 1, false, [⟨31, 0, .ro, 0x4C597120, false⟩]⟩,
  -- GLB_REVISION
  ⟨0x4, 0x0, 1, false, [⟨23, 16, .ro, 0x7, false⟩, ⟨15, 8, .ro, 0xB0, false⟩, ⟨3, 0, .ro, 0, true⟩]⟩,
  -- GLB_ROW_MAP
  ⟨0x200, 0x4, 12, false, [⟨31, 31, .ro, 0, true⟩, ⟨7, 4, .ro, 0xF, true⟩, ⟨3, 0, .ro, 0xC, true⟩]⟩,
  -- GLB_PART_CFG
  ⟨0x100, 0x10, 12, false, [⟨31, 31, .rw, 0, true⟩, ⟨30, 28, .ro, 0, false⟩, ⟨27, 24, .ro, 0, true⟩, ⟨23, 20, .rw, 0, true⟩, ⟨11, 8, .rw, 0, true⟩, ⟨3, 0, .rw, 0, true⟩]⟩,
  -- GLB_PART_SEQ
  ⟨0x104, 0x10, 12, false, [⟨28, 24, .rw, 0, true⟩, ⟨23, 0, .rw, 0, true⟩]⟩,
  -- GLB_GATED_ACCESS
  ⟨0x10, 0x0, 1, false, [⟨31, 31, .wo, 0, false⟩, ⟨30, 24, .ro, 0, false⟩, ⟨23, 0, .ro, 0, false⟩]⟩]

/-- The registers of block ISL. -/
def regsISL : List RegD := [
  -- ISL_WU_STAT
  ⟨0x100, 0x0, 1, false, [⟨31, 16, .w1c, 0, false⟩, ⟨15, 0, .w1c, 0, false⟩]⟩,
  -- ISL_WU_STAT2
  ⟨0x104, 0x0, 1, false, [⟨31, 16, .w1c, 0, false⟩, ⟨15, 0, .w1c, 0, false⟩]⟩,
  -- ISL_WU_FLAGS
  ⟨0x108, 0x0, 1, true, [⟨63, 0, .ro, 0, false⟩]⟩,
  -- ISL_FLA_MC
  ⟨0x110, 0x0, 1, false, [⟨23, 0, .ro, 0, false⟩]⟩,
  -- ISL_FLA_EVT
  ⟨0x114, 0x0, 1, false, [⟨7, 0, .w1c, 0, false⟩]⟩,
  -- ISL_FLA_EVCNT
  ⟨0x118, 0x0, 1, true, [⟨63, 8, .ro, 0, false⟩, ⟨7, 0, .ro, 0, false⟩]⟩,
  -- ISL_PARAM
  ⟨0x180, 0x4, 16, false, [⟨31, 0, .ro, 0, false⟩]⟩,
  -- ISL_WU_ACC_LO
  ⟨0x200, 0x10, 16, true, [⟨63, 0, .ro, 0, false⟩]⟩,
  -- ISL_WU_ACC_HI
  ⟨0x208, 0x10, 16, false, [⟨8, 8, .ro, 0, false⟩, ⟨7, 0, .ro, 0, false⟩]⟩,
  -- ISL_PLANE_CUR
  ⟨0x300, 0x0, 1, true, [⟨63, 4, .ro, 0, false⟩, ⟨3, 0, .ro, 0, false⟩]⟩,
  -- ISL_PLANE_AUX
  ⟨0x308, 0x0, 1, false, [⟨31, 28, .ro, 0, false⟩, ⟨27, 24, .ro, 0, false⟩, ⟨23, 20, .ro, 0, false⟩, ⟨19, 16, .ro, 0, false⟩, ⟨15, 12, .ro, 0, false⟩, ⟨11, 8, .ro, 0, false⟩, ⟨7, 7, .ro, 0, false⟩, ⟨6, 6, .ro, 0, false⟩, ⟨3, 0, .ro, 0, false⟩]⟩,
  -- ISL_PLANE_USE
  ⟨0x30C, 0x0, 1, false, [⟨31, 16, .ro, 0, false⟩, ⟨15, 0, .ro, 0x1, false⟩]⟩,
  -- ISL_MOULT_WDT
  ⟨0x310, 0x0, 1, false, [⟨23, 0, .rw, 0x10000, false⟩]⟩,
  -- ISL_MOULT_STAT
  ⟨0x314, 0x0, 1, false, [⟨31, 31, .w1c, 0, false⟩, ⟨30, 30, .w1c, 0, false⟩, ⟨20, 20, .ro, 0, false⟩, ⟨19, 16, .ro, 0, false⟩, ⟨14, 12, .ro, 0, false⟩, ⟨11, 8, .ro, 0, false⟩, ⟨7, 4, .ro, 0, false⟩]⟩,
  -- ISL_MOULT_CNT
  ⟨0x318, 0x0, 1, false, [⟨31, 24, .ro, 0, false⟩, ⟨23, 16, .ro, 0, false⟩, ⟨15, 0, .ro, 0, false⟩]⟩,
  -- ISL_MOULT_CTL
  ⟨0x31C, 0x0, 1, false, [⟨31, 31, .wo, 0, false⟩, ⟨15, 0, .wo, 0, false⟩]⟩,
  -- ISL_RT_POS
  ⟨0x400, 0x0, 1, false, [⟨15, 12, .ro, 0, false⟩, ⟨11, 8, .ro, 0, false⟩, ⟨7, 4, .ro, 0, false⟩, ⟨3, 3, .ro, 0x1, false⟩, ⟨2, 2, .ro, 0x1, false⟩, ⟨1, 1, .ro, 0, false⟩, ⟨0, 0, .ro, 0, false⟩]⟩,
  -- ISL_RT_STAT
  ⟨0x404, 0x0, 1, false, [⟨31, 31, .w1c, 0, false⟩, ⟨30, 30, .w1c, 0, false⟩, ⟨29, 29, .w1c, 0, false⟩, ⟨28, 28, .ro, 0, false⟩]⟩,
  -- ISL_RT_CNT
  ⟨0x408, 0x0, 1, false, [⟨31, 16, .ro, 0, false⟩, ⟨15, 0, .ro, 0, false⟩]⟩,
  -- ISL_RT_CTL
  ⟨0x40C, 0x0, 1, false, [⟨31, 31, .wo, 0, false⟩]⟩,
  -- ISL_XF_LVL0
  ⟨0x410, 0x0, 1, true, [⟨63, 4, .ro, 0, false⟩, ⟨3, 0, .ro, 0, false⟩]⟩,
  -- ISL_XF_LVL1
  ⟨0x418, 0x0, 1, true, [⟨63, 4, .ro, 0, false⟩, ⟨3, 0, .ro, 0, false⟩]⟩,
  -- ISL_MEM_ECC
  ⟨0x500, 0x0, 1, false, [⟨31, 16, .ro, 0, false⟩, ⟨15, 0, .ro, 0, false⟩]⟩,
  -- ISL_MEM_CEADDR
  ⟨0x504, 0x0, 1, false, [⟨31, 31, .w1c, 0, false⟩, ⟨30, 30, .ro, 0, false⟩, ⟨25, 18, .ro, 0, false⟩, ⟨17, 0, .ro, 0, false⟩]⟩,
  -- ISL_MEM_UEADDR
  ⟨0x508, 0x0, 1, false, [⟨31, 31, .w1c, 0, false⟩, ⟨30, 30, .ro, 0, false⟩, ⟨25, 18, .ro, 0, false⟩, ⟨17, 0, .ro, 0, false⟩]⟩,
  -- ISL_MEM_COLL
  ⟨0x50C, 0x0, 1, false, [⟨31, 20, .ro, 0, false⟩, ⟨17, 0, .ro, 0, false⟩]⟩,
  -- ISL_MEM_RED
  ⟨0x510, 0x0, 1, false, [⟨7, 0, .ro, 0, true⟩]⟩,
  -- ISL_MEM_CTL
  ⟨0x514, 0x0, 1, false, [⟨31, 31, .wo, 0, false⟩, ⟨30, 30, .wo, 0, false⟩, ⟨1, 0, .rw, 0, false⟩]⟩,
  -- ISL_PATROL_CTL
  ⟨0x580, 0x0, 1, false, [⟨31, 31, .rw, 0x1, false⟩, ⟨23, 0, .rw, 0x10000, false⟩]⟩,
  -- ISL_PATROL_STAT
  ⟨0x584, 0x0, 1, false, [⟨31, 31, .ro, 0, false⟩, ⟨30, 28, .ro, 0, false⟩, ⟨27, 20, .ro, 0, false⟩, ⟨19, 10, .ro, 0, false⟩, ⟨9, 0, .ro, 0, false⟩]⟩,
  -- ISL_PATROL_FAULT
  ⟨0x588, 0x0, 1, false, [⟨31, 31, .w1c, 0, false⟩, ⟨24, 18, .ro, 0, false⟩, ⟨17, 0, .ro, 0, false⟩]⟩,
  -- ISL_PATROL_CNT
  ⟨0x58C, 0x0, 1, false, [⟨31, 16, .w1c, 0, false⟩, ⟨15, 0, .w1c, 0, false⟩]⟩,
  -- ISL_QREG
  ⟨0x600, 0x20, 4, false, [⟨27, 16, .rw, 0, false⟩, ⟨15, 0, .rw, 0, false⟩]⟩,
  -- ISL_QWM
  ⟨0x604, 0x20, 4, false, [⟨31, 16, .rw, 0xFFFF, false⟩, ⟨15, 0, .rw, 0, false⟩]⟩,
  -- ISL_QPTR
  ⟨0x608, 0x20, 4, true, [⟨47, 32, .ro, 0, false⟩, ⟨31, 16, .ro, 0, false⟩, ⟨15, 0, .ro, 0, false⟩]⟩,
  -- ISL_QSTAT
  ⟨0x610, 0x20, 4, false, [⟨31, 31, .ro, 0, false⟩, ⟨30, 30, .ro, 0, false⟩, ⟨29, 29, .ro, 0x1, false⟩, ⟨28, 28, .w1c, 0, false⟩, ⟨27, 27, .w1c, 0, false⟩, ⟨26, 26, .w1c, 0, false⟩, ⟨25, 25, .w1c, 0, false⟩, ⟨16, 0, .ro, 0, false⟩]⟩,
  -- ISL_QCNT
  ⟨0x614, 0x20, 4, false, [⟨31, 24, .ro, 0, false⟩, ⟨23, 16, .ro, 0, false⟩, ⟨15, 0, .ro, 0, false⟩]⟩,
  -- ISL_QDEP
  ⟨0x618, 0x20, 4, false, [⟨16, 0, .ro, 0, false⟩]⟩,
  -- ISL_QCMD
  ⟨0x61C, 0x20, 4, false, [⟨31, 31, .wo, 0, false⟩, ⟨30, 30, .wo, 0, false⟩, ⟨2, 2, .wo, 0, false⟩, ⟨1, 1, .wo, 0, false⟩, ⟨0, 0, .wo, 0, false⟩]⟩,
  -- ISL_FORK_CFG
  ⟨0x700, 0x0, 1, true, [⟨63, 63, .rw, 0, false⟩, ⟨62, 59, .rw, 0, false⟩, ⟨58, 55, .rw, 0, false⟩, ⟨54, 51, .rw, 0, false⟩, ⟨50, 50, .rw, 0, false⟩, ⟨49, 48, .rw, 0, false⟩, ⟨47, 47, .rw, 0, false⟩, ⟨43, 40, .rw, 0, false⟩, ⟨39, 32, .rw, 0, false⟩, ⟨31, 16, .rw, 0, false⟩]⟩,
  -- ISL_FORK_STAT
  ⟨0x708, 0x0, 1, false, [⟨31, 30, .ro, 0, false⟩, ⟨29, 28, .ro, 0, false⟩, ⟨27, 26, .ro, 0, false⟩, ⟨25, 22, .ro, 0, false⟩, ⟨21, 18, .ro, 0, false⟩, ⟨17, 14, .ro, 0, false⟩, ⟨13, 13, .w1c, 0, false⟩, ⟨12, 12, .w1c, 0, false⟩, ⟨11, 11, .w1c, 0, false⟩, ⟨10, 10, .w1c, 0, false⟩]⟩,
  -- ISL_FORK_CNT
  ⟨0x70C, 0x0, 1, false, [⟨31, 16, .ro, 0, false⟩, ⟨15, 0, .ro, 0, false⟩]⟩,
  -- ISL_FORK_CTL
  ⟨0x710, 0x0, 1, false, [⟨31, 31, .wo, 0, false⟩, ⟨30, 30, .wo, 0, false⟩, ⟨29, 28, .wo, 0, false⟩, ⟨27, 27, .wo, 0, false⟩]⟩,
  -- ISL_FCAP_CFG
  ⟨0x800, 0x0, 1, true, [⟨63, 63, .rw, 0, false⟩, ⟨62, 59, .rw, 0, false⟩, ⟨58, 53, .rw, 0x3F, false⟩, ⟨52, 47, .rw, 0x3F, false⟩, ⟨46, 42, .rw, 0, false⟩, ⟨41, 41, .rw, 0, false⟩, ⟨40, 40, .rw, 0, false⟩, ⟨39, 36, .rw, 0x4, false⟩, ⟨35, 30, .rw, 0, false⟩, ⟨29, 16, .rw, 0, false⟩]⟩,
  -- ISL_FCAP_CYC
  ⟨0x808, 0x0, 1, true, [⟨39, 0, .rw, 0, false⟩]⟩,
  -- ISL_FCAP_STAT
  ⟨0x810, 0x0, 1, false, [⟨31, 31, .w1c, 0, false⟩, ⟨30, 30, .w1c, 0, false⟩, ⟨28, 24, .ro, 0, false⟩, ⟨15, 8, .ro, 0, false⟩, ⟨7, 0, .ro, 0, false⟩]⟩,
  -- ISL_FCAP_BAD
  ⟨0x818, 0x0, 1, true, [⟨63, 63, .w1c, 0, false⟩, ⟨62, 62, .ro, 0, false⟩, ⟨39, 0, .ro, 0, false⟩]⟩]

/-- The registers of block LQ. -/
def regsLQ : List RegD := [
  -- LQ_CFG
  ⟨0x0, 0x0, 1, false, [⟨4, 4, .rw, 0, true⟩, ⟨2, 0, .rw, 0, true⟩]⟩,
  -- LQ_STAT
  ⟨0x4, 0x0, 1, false, [⟨31, 31, .ro, 0, true⟩, ⟨3, 0, .ro, 0, true⟩]⟩,
  -- LQ_LSSEL
  ⟨0x8, 0x0, 1, false, [⟨15, 8, .rw, 0, true⟩, ⟨4, 3, .rw, 0, true⟩, ⟨2, 0, .rw, 0, true⟩]⟩,
  -- LANE_CTL
  ⟨0x100, 0x40, 4, false, [⟨31, 31, .rw, 0, true⟩, ⟨30, 30, .rw, 0, true⟩, ⟨29, 29, .rw, 0, true⟩, ⟨28, 28, .rw, 0, true⟩, ⟨27, 26, .rw, 0, true⟩, ⟨25, 22, .rw, 0, true⟩, ⟨21, 17, .rw, 0xF, true⟩, ⟨16, 16, .wo, 0, true⟩, ⟨15, 8, .rw, 0xA, true⟩]⟩,
  -- LANE_BOND
  ⟨0x104, 0x40, 4, false, [⟨5, 4, .rw, 0, true⟩, ⟨1, 0, .rw, 0, true⟩]⟩,
  -- LANE_STAT
  ⟨0x108, 0x40, 4, false, [⟨31, 31, .ro, 0, true⟩, ⟨30, 28, .ro, 0, true⟩, ⟨27, 27, .w1c, 0, false⟩, ⟨26, 24, .ro, 0, true⟩, ⟨23, 23, .w1c, 0, false⟩, ⟨22, 22, .w1c, 0, false⟩, ⟨21, 21, .w1c, 0, false⟩, ⟨20, 20, .w1c, 0, false⟩, ⟨19, 19, .w1c, 0, false⟩, ⟨18, 18, .w1c, 0, false⟩]⟩,
  -- LANE_ERRCNT
  ⟨0x10C, 0x40, 4, false, [⟨31, 16, .ro, 0, false⟩, ⟨15, 8, .ro, 0, false⟩, ⟨7, 0, .ro, 0, false⟩]⟩,
  -- LANE_RPCNT
  ⟨0x110, 0x40, 4, false, [⟨31, 16, .ro, 0, false⟩, ⟨15, 8, .ro, 0, false⟩, ⟨7, 0, .ro, 0, false⟩]⟩,
  -- LANE_CREDIT
  ⟨0x114, 0x40, 4, false, [⟨31, 16, .ro, 0, true⟩, ⟨9, 0, .ro, 0x200, true⟩]⟩,
  -- LANE_SKEW
  ⟨0x118, 0x40, 4, false, [⟨7, 0, .ro, 0, true⟩]⟩,
  -- LANE_CLR
  ⟨0x11C, 0x40, 4, false, [⟨31, 31, .wo, 0, true⟩]⟩]

/-- The registers of block SEQ. -/
def regsSEQ : List RegD := [
  -- SEQ_CTL
  ⟨0x0, 0x0, 1, false, [⟨31, 31, .rw, 0, false⟩, ⟨30, 30, .wo, 0, false⟩, ⟨29, 29, .wo, 0, false⟩]⟩,
  -- SEQ_STAT
  ⟨0x4, 0x0, 1, false, [⟨31, 29, .ro, 0, false⟩, ⟨28, 28, .ro, 0, false⟩, ⟨27, 24, .ro, 0xF, false⟩, ⟨23, 22, .ro, 0x1, false⟩, ⟨21, 21, .ro, 0, false⟩, ⟨20, 20, .ro, 0, false⟩]⟩,
  -- SEQ_BOOT
  ⟨0x8, 0x0, 1, true, [⟨47, 2, .rw, 0, true⟩]⟩,
  -- SEQ_PC
  ⟨0x10, 0x0, 1, true, [⟨47, 0, .ro, 0, false⟩]⟩,
  -- SEQ_CYCLE
  ⟨0x18, 0x0, 1, true, [⟨63, 0, .ro, 0, false⟩]⟩,
  -- SEQ_LWPROT
  ⟨0x20, 0x0, 1, false, [⟨31, 16, .rw, 0xFFFF, true⟩, ⟨15, 0, .rw, 0xFFFF, true⟩]⟩,
  -- SEQ_BANK_ERR
  ⟨0x24, 0x0, 1, false, [⟨31, 16, .ro, 0, false⟩, ⟨15, 0, .ro, 0, false⟩]⟩,
  -- SEQ_BANK_COLL
  ⟨0x28, 0x0, 1, false, [⟨31, 20, .ro, 0, false⟩, ⟨19, 0, .ro, 0, false⟩]⟩,
  -- SEQ_BANK_CTL
  ⟨0x2C, 0x0, 1, false, [⟨31, 31, .wo, 0, false⟩, ⟨30, 30, .wo, 0, false⟩]⟩,
  -- SEQ_AEV_PEND
  ⟨0x40, 0x0, 1, false, [⟨23, 0, .w1c, 0, false⟩]⟩,
  -- SEQ_AEV_IE
  ⟨0x44, 0x0, 1, false, [⟨23, 0, .rw, 0, false⟩]⟩,
  -- SEQ_PFLAG
  ⟨0x48, 0x0, 1, false, [⟨31, 31, .ro, 0, false⟩, ⟨30, 30, .w1c, 0, false⟩, ⟨4, 4, .rw, 0, false⟩, ⟨3, 1, .rw, 0, false⟩]⟩,
  -- SEQ_DBELL
  ⟨0x4C, 0x0, 1, false, [⟨15, 0, .w1c, 0, false⟩]⟩,
  -- SEQ_DBELL_SET
  ⟨0x50, 0x0, 1, false, [⟨15, 0, .wo, 0, false⟩]⟩,
  -- SEQ_AEV_SRC
  ⟨0x80, 0x4, 24, false, [⟨31, 31, .ro, 0, false⟩, ⟨23, 16, .ro, 0, false⟩, ⟨8, 8, .ro, 0, false⟩, ⟨7, 0, .ro, 0, false⟩]⟩,
  -- SEQ_MCHK
  ⟨0x30, 0x0, 1, false, [⟨31, 31, .w1c, 0, false⟩, ⟨30, 28, .ro, 0, false⟩, ⟨9, 8, .ro, 0, false⟩, ⟨7, 0, .ro, 0, false⟩]⟩,
  -- SEQ_IRQ
  ⟨0x34, 0x0, 1, false, [⟨19, 16, .ro, 0, false⟩, ⟨3, 0, .rw, 0xF, false⟩]⟩,
  -- SEQ_MCHK_PC
  ⟨0x60, 0x0, 1, true, [⟨47, 0, .ro, 0, false⟩]⟩,
  -- SEQ_MCHK_VA
  ⟨0x68, 0x0, 1, true, [⟨47, 0, .ro, 0, false⟩]⟩,
  -- SEQ_TIMER
  ⟨0x70, 0x0, 1, true, [⟨63, 63, .rw, 0, false⟩, ⟨62, 0, .rw, 0, false⟩]⟩,
  -- SEQ_CTXID
  ⟨0x78, 0x0, 1, false, [⟨15, 0, .rw, 0, false⟩]⟩,
  -- SEQ_DMAFQ
  ⟨0x7C, 0x0, 1, false, [⟨31, 31, .ro, 0, false⟩, ⟨30, 30, .ro, 0, false⟩, ⟨28, 24, .ro, 0, false⟩, ⟨5, 0, .ro, 0, false⟩]⟩]

/-- The registers of block MMU. -/
def regsMMU : List RegD := [
  -- MMU_PART
  ⟨0x0, 0x10, 12, true, [⟨51, 12, .rw, 0, true⟩, ⟨11, 0, .rw, 0, true⟩]⟩,
  -- MMU_INV
  ⟨0x100, 0x0, 1, true, [⟨63, 63, .ro, 0, false⟩, ⟨62, 61, .wo, 0, false⟩, ⟨60, 60, .wo, 0, false⟩, ⟨59, 44, .wo, 0, false⟩, ⟨35, 0, .wo, 0, false⟩]⟩,
  -- MMU_STAT
  ⟨0x108, 0x0, 1, false, [⟨31, 31, .w1c, 0, false⟩, ⟨30, 30, .w1c, 0, false⟩, ⟨29, 29, .w1c, 0, false⟩, ⟨9, 0, .ro, 0, false⟩]⟩]

/-- The registers of block DMA. -/
def regsDMA : List RegD := [
  -- DMA_CH_OWN
  ⟨0x0, 0x40, 64, false, [⟨31, 31, .rw, 0, true⟩, ⟨30, 29, .rw, 0, true⟩, ⟨27, 24, .rw, 0xF, true⟩, ⟨20, 16, .rw, 0, true⟩, ⟨15, 0, .rw, 0, true⟩]⟩,
  -- DMA_CH_XLT
  ⟨0x8, 0x40, 64, true, [⟨63, 63, .rw, 0x1, true⟩, ⟨51, 12, .rw, 0, true⟩, ⟨11, 0, .rw, 0, true⟩]⟩,
  -- DMA_CH_DESC
  ⟨0x10, 0x40, 64, true, [⟨51, 6, .rw, 0, false⟩]⟩,
  -- DMA_CH_CSR
  ⟨0x18, 0x40, 64, false, [⟨31, 31, .wo, 0, false⟩, ⟨30, 30, .wo, 0, false⟩, ⟨29, 29, .wo, 0, false⟩, ⟨28, 26, .ro, 0, false⟩, ⟨25, 22, .ro, 0, false⟩, ⟨21, 20, .ro, 0, false⟩]⟩,
  -- DMA_CH_FVA
  ⟨0x20, 0x40, 64, true, [⟨51, 0, .ro, 0, false⟩]⟩]

/-- The registers of block MSP. -/
def regsMSP : List RegD := [
  -- MSP_BASE
  ⟨0x0, 0x40, 16, true, [⟨47, 2, .rw, 0, false⟩]⟩,
  -- MSP_LEN
  ⟨0x8, 0x40, 16, true, [⟨63, 32, .ro, 0, false⟩, ⟨31, 2, .rw, 0, false⟩]⟩,
  -- MSP_CFG
  ⟨0x10, 0x40, 16, false, [⟨31, 31, .rw, 0, false⟩, ⟨30, 29, .rw, 0, false⟩, ⟨28, 27, .rw, 0, false⟩, ⟨26, 23, .rw, 0, false⟩, ⟨22, 22, .rw, 0, false⟩, ⟨21, 17, .rw, 0, false⟩, ⟨15, 8, .rw, 0, false⟩, ⟨7, 0, .rw, 0, false⟩]⟩,
  -- MSP_CFG2
  ⟨0x14, 0x40, 16, false, [⟨31, 16, .rw, 0, false⟩, ⟨15, 0, .rw, 0, false⟩]⟩,
  -- MSP_CSR
  ⟨0x18, 0x40, 16, false, [⟨31, 31, .wo, 0, false⟩, ⟨30, 30, .wo, 0, false⟩, ⟨29, 29, .wo, 0, false⟩, ⟨28, 26, .ro, 0, false⟩, ⟨25, 23, .ro, 0, false⟩, ⟨22, 19, .ro, 0, false⟩, ⟨18, 18, .w1c, 0, false⟩, ⟨17, 17, .w1c, 0, false⟩, ⟨16, 16, .w1c, 0, false⟩, ⟨15, 8, .ro, 0, false⟩, ⟨7, 0, .ro, 0, false⟩]⟩,
  -- MSP_COLL
  ⟨0x20, 0x40, 16, true, [⟨63, 52, .ro, 0, false⟩, ⟨51, 0, .ro, 0, false⟩]⟩]

/-- The registers of block FE. -/
def regsFE : List RegD := [
  -- FE_GSTAT
  ⟨0x0, 0x0, 1, false, [⟨31, 28, .ro, 0, false⟩, ⟨27, 27, .ro, 0x1, true⟩, ⟨16, 0, .ro, 0, true⟩]⟩,
  -- FE_PUNITS
  ⟨0x1000, 0x100, 12, false, [⟨30, 16, .rw, 0, true⟩, ⟨13, 0, .rw, 0, true⟩]⟩,
  -- FE_PTRK
  ⟨0x1008, 0x100, 12, true, [⟨53, 32, .rw, 0, true⟩, ⟨20, 0, .rw, 0, true⟩]⟩,
  -- FE_PMAPLO
  ⟨0x1010, 0x100, 12, true, [⟨51, 12, .rw, 0, true⟩]⟩,
  -- FE_PMAPHI
  ⟨0x1018, 0x100, 12, true, [⟨51, 12, .rw, 0, true⟩]⟩,
  -- FE_PHDR
  ⟨0x1020, 0x100, 12, true, [⟨63, 63, .rw, 0, true⟩, ⟨51, 6, .rw, 0, true⟩]⟩,
  -- FE_PRRQ
  ⟨0x1028, 0x100, 12, true, [⟨51, 7, .rw, 0, true⟩, ⟨4, 0, .rw, 0x4, true⟩]⟩,
  -- FE_PRRQC
  ⟨0x1030, 0x100, 12, false, [⟨26, 16, .rw, 0, true⟩]⟩,
  -- FE_PRRQP
  ⟨0x1034, 0x100, 12, false, [⟨31, 16, .ro, 0, true⟩, ⟨15, 0, .rw, 0, true⟩]⟩,
  -- FE_PFAT
  ⟨0x1038, 0x100, 12, true, [⟨48, 32, .rw, 0, true⟩, ⟨16, 0, .ro, 0, true⟩]⟩,
  -- FE_PCMD
  ⟨0x1060, 0x100, 12, false, [⟨31, 28, .wo, 0, true⟩, ⟨27, 22, .wo, 0, true⟩, ⟨13, 0, .wo, 0, true⟩]⟩,
  -- FE_PCST
  ⟨0x1064, 0x100, 12, false, [⟨31, 31, .ro, 0, true⟩, ⟨30, 27, .ro, 0, true⟩, ⟨26, 24, .ro, 0, true⟩]⟩,
  -- FE_PCNT
  ⟨0x1068, 0x100, 12, true, [⟨63, 48, .ro, 0, true⟩, ⟨47, 32, .ro, 0, true⟩, ⟨31, 16, .ro, 0, true⟩, ⟨15, 0, .ro, 0, true⟩]⟩,
  -- FE_PFLAGS
  ⟨0x1070, 0x100, 12, false, [⟨31, 31, .w1c, 0, true⟩, ⟨30, 30, .w1c, 0, true⟩, ⟨29, 29, .w1c, 0, true⟩, ⟨28, 28, .w1c, 0, true⟩, ⟨27, 27, .w1c, 0, true⟩, ⟨26, 26, .w1c, 0, true⟩, ⟨25, 25, .w1c, 0, true⟩, ⟨24, 24, .wo, 0, true⟩]⟩,
  -- FE_PQRY
  ⟨0x1078, 0x100, 12, true, [⟨62, 56, .ro, 0, true⟩, ⟨55, 51, .ro, 0, true⟩, ⟨50, 46, .ro, 0, true⟩, ⟨45, 36, .ro, 0, true⟩, ⟨35, 32, .ro, 0, true⟩, ⟨31, 0, .ro, 0, true⟩]⟩,
  -- FE_PUD0
  ⟨0x1040, 0x100, 12, true, [⟨51, 6, .rw, 0, true⟩, ⟨3, 2, .rw, 0, true⟩, ⟨1, 1, .rw, 0, true⟩, ⟨0, 0, .rw, 0, true⟩]⟩,
  -- FE_PUD1
  ⟨0x1048, 0x100, 12, true, [⟨63, 32, .rw, 0, true⟩, ⟨20, 0, .rw, 0, true⟩]⟩,
  -- FE_PUD2
  ⟨0x1050, 0x100, 12, true, [⟨63, 44, .rw, 0, true⟩, ⟨43, 28, .rw, 0, true⟩, ⟨27, 27, .rw, 0, true⟩, ⟨26, 22, .rw, 0, true⟩, ⟨21, 17, .rw, 0, true⟩, ⟨5, 0, .rw, 0, true⟩]⟩]

/-- The registers of block CFG. -/
def regsCFG : List RegD := [
  -- CFG_LOAD
  ⟨0x0, 0x0, 1, false, [⟨31, 31, .wo, 0, false⟩, ⟨30, 30, .wo, 0, false⟩, ⟨29, 27, .rw, 0, false⟩, ⟨26, 25, .rw, 0, false⟩, ⟨3, 0, .rw, 0, false⟩]⟩,
  -- CFG_STAT
  ⟨0x4, 0x0, 1, false, [⟨31, 31, .ro, 0, false⟩, ⟨30, 28, .ro, 0, false⟩, ⟨27, 27, .w1c, 0, false⟩]⟩,
  -- CFG_ERR
  ⟨0x8, 0x0, 1, false, [⟨31, 27, .ros, 0, true⟩, ⟨26, 24, .ros, 0, true⟩, ⟨23, 22, .ros, 0, true⟩, ⟨21, 18, .ros, 0, true⟩, ⟨17, 17, .ros, 0, true⟩, ⟨16, 16, .ros, 0, true⟩, ⟨15, 0, .ros, 0, true⟩]⟩,
  -- CFG_PROG
  ⟨0xC, 0x0, 1, false, [⟨31, 16, .ro, 0, false⟩, ⟨15, 0, .ro, 0, false⟩]⟩,
  -- CFG_WINFREE
  ⟨0x10, 0x0, 1, false, [⟨16, 0, .ro, 0x10000, false⟩]⟩,
  -- CFG_CSPTGT
  ⟨0x14, 0x0, 1, false, [⟨31, 31, .rw, 0, true⟩, ⟨3, 0, .rw, 0, true⟩]⟩,
  -- CFG_BOOT
  ⟨0x18, 0x0, 1, false, [⟨31, 30, .ros, 0x3, true⟩, ⟨25, 21, .ros, 0, true⟩, ⟨20, 16, .ros, 0, true⟩, ⟨4, 0, .ros, 0, true⟩]⟩,
  -- CFG_IRQ
  ⟨0x1C, 0x0, 1, false, [⟨31, 31, .rw, 0, true⟩, ⟨10, 0, .rw, 0, true⟩]⟩,
  -- CFG_RES
  ⟨0x20, 0x0, 1, true, [⟨51, 27, .rwl, 0, true⟩, ⟨0, 0, .rwl, 0, true⟩]⟩,
  -- CFG_RESVAL
  ⟨0x28, 0x0, 1, false, [⟨11, 0, .ros, 0, true⟩]⟩,
  -- CFG_POLICY
  ⟨0x2C, 0x0, 1, false, [⟨31, 31, .w1s, 0, true⟩, ⟨15, 12, .ro, 0, true⟩, ⟨11, 8, .ro, 0, true⟩, ⟨7, 6, .ro, 0, true⟩, ⟨5, 4, .ro, 0, true⟩, ⟨2, 2, .rwl, 0x1, true⟩, ⟨1, 1, .rwl, 0, true⟩, ⟨0, 0, .rwl, 0, true⟩]⟩,
  -- CFG_SCRUB
  ⟨0x30, 0x0, 1, false, [⟨31, 31, .rw, 0x1, true⟩, ⟨23, 0, .rw, 0x3E8, true⟩]⟩,
  -- CFG_SCRUBSTAT
  ⟨0x34, 0x0, 1, false, [⟨31, 16, .w1c, 0, true⟩, ⟨15, 8, .w1c, 0, true⟩, ⟨7, 0, .w1c, 0, true⟩]⟩,
  -- CFG_SCRUBLAST
  ⟨0x38, 0x0, 1, false, [⟨31, 31, .w1c, 0, true⟩, ⟨23, 16, .ro, 0, true⟩, ⟨6, 0, .ro, 0, true⟩]⟩,
  -- CFG_RBADDR
  ⟨0x40, 0x0, 1, false, [⟨31, 31, .ro, 0, true⟩, ⟨23, 16, .rw, 0, true⟩, ⟨6, 0, .rw, 0, true⟩]⟩,
  -- CFG_RBDATA
  ⟨0x100, 0x4, 32, false, [⟨31, 0, .ro, 0, true⟩]⟩,
  -- CFG_RBCRC
  ⟨0x180, 0x0, 1, false, [⟨31, 0, .ro, 0, true⟩]⟩]

/-- The registers of block HLF. -/
def regsHLF : List RegD := [
  -- HL_STAT
  ⟨0x0, 0x0, 1, false, [⟨31, 31, .ro, 0, true⟩, ⟨30, 30, .ro, 0, true⟩, ⟨29, 29, .ro, 0, true⟩, ⟨28, 28, .ro, 0, true⟩, ⟨23, 19, .ro, 0, true⟩, ⟨18, 16, .ro, 0, true⟩]⟩,
  -- HL_AP
  ⟨0x10, 0x0, 1, true, [⟨13, 0, .rw, 0, true⟩]⟩]

/-- The registers of block HL. -/
def regsHL : List RegD := [
  -- HL_APERR
  ⟨0x18, 0x0, 1, false, [⟨31, 31, .w1c, 0, true⟩, ⟨30, 30, .ro, 0, true⟩, ⟨27, 24, .ro, 0, true⟩, ⟨23, 0, .ro, 0, true⟩]⟩,
  -- HL_VFLIM
  ⟨0x100, 0x8, 13, true, [⟨45, 32, .rw, 0, true⟩, ⟨13, 0, .rw, 0, true⟩]⟩]

/-- The registers of block MBX. -/
def regsMBX : List RegD := [
  -- MBX_SQT
  ⟨0x0, 0x0, 1, false, [⟨11, 0, .rw, 0, true⟩]⟩,
  -- MBX_CQH
  ⟨0x8, 0x0, 1, false, [⟨11, 0, .rw, 0, true⟩]⟩,
  -- MBX_SQH
  ⟨0x4, 0x0, 1, false, [⟨11, 0, .ro, 0, true⟩]⟩,
  -- MBX_CQT
  ⟨0xC, 0x0, 1, false, [⟨11, 0, .ro, 0, true⟩]⟩,
  -- MBX_CTL
  ⟨0x10, 0x0, 1, false, [⟨31, 31, .rw, 0, true⟩, ⟨30, 30, .wo, 0, true⟩, ⟨10, 0, .rw, 0, true⟩]⟩,
  -- MBX_STAT
  ⟨0x14, 0x0, 1, false, [⟨31, 31, .ro, 0, true⟩, ⟨30, 30, .w1c, 0, true⟩, ⟨29, 29, .ro, 0, true⟩]⟩]

/-- The registers of block CXP. -/
def regsCXP : List RegD := [
  -- CXP_PSTAT
  ⟨0x0, 0x100, 2, false, [⟨31, 31, .ro, 0, true⟩, ⟨30, 28, .ro, 0, true⟩, ⟨27, 27, .ro, 0, true⟩, ⟨26, 22, .ro, 0, true⟩, ⟨21, 21, .ro, 0, true⟩, ⟨20, 20, .ro, 0, true⟩, ⟨15, 0, .ro, 0, true⟩]⟩,
  -- CXP_DEV
  ⟨0x800, 0x40, 8, true, [⟨63, 63, .ro, 0, true⟩, ⟨62, 62, .ro, 0, true⟩, ⟨61, 61, .ro, 0, true⟩, ⟨47, 32, .ro, 0, true⟩, ⟨23, 0, .ro, 0, true⟩]⟩,
  -- CXP_LOCK
  ⟨0xF00, 0x0, 1, false, [⟨31, 31, .w1s, 0, true⟩]⟩,
  -- CXP_HDM0
  ⟨0x1000, 0x40, 16, true, [⟨43, 28, .rwl, 0, true⟩]⟩,
  -- CXP_HDM1
  ⟨0x1008, 0x40, 16, true, [⟨44, 28, .rwl, 0, true⟩]⟩,
  -- CXP_HDM2
  ⟨0x1010, 0x40, 16, true, [⟨63, 63, .rwl, 0, true⟩, ⟨62, 62, .ro, 0, true⟩, ⟨61, 60, .ro, 0, true⟩, ⟨43, 28, .rwl, 0, true⟩, ⟨6, 4, .rwl, 0, true⟩, ⟨1, 0, .rwl, 0, true⟩]⟩,
  -- CXP_HDM3
  ⟨0x1018, 0x40, 16, true, [⟨30, 28, .rwl, 0, true⟩, ⟨26, 24, .rwl, 0, true⟩, ⟨22, 20, .rwl, 0, true⟩, ⟨18, 16, .rwl, 0, true⟩, ⟨14, 12, .rwl, 0, true⟩, ⟨10, 8, .rwl, 0, true⟩, ⟨6, 4, .rwl, 0, true⟩, ⟨2, 0, .rwl, 0, true⟩]⟩]

/-- The registers of block RING. -/
def regsRING : List RegD := [
  -- RING_CTL
  ⟨0x0, 0x0, 1, false, [⟨31, 31, .wo, 0, true⟩, ⟨30, 30, .wo, 0, true⟩, ⟨29, 29, .rw, 0, true⟩, ⟨28, 28, .rw, 0, true⟩, ⟨27, 27, .rw, 0, true⟩, ⟨26, 22, .rw, 0, true⟩, ⟨21, 18, .rw, 0, true⟩, ⟨17, 12, .rw, 0, true⟩, ⟨11, 0, .rw, 0x7D0, true⟩]⟩,
  -- RING_STAT
  ⟨0x4, 0x0, 1, false, [⟨31, 31, .ro, 0, true⟩, ⟨30, 30, .ro, 0, true⟩, ⟨29, 29, .ro, 0, true⟩, ⟨28, 28, .ro, 0, true⟩, ⟨27, 27, .ro, 0, true⟩, ⟨26, 24, .ro, 0, true⟩, ⟨23, 22, .ro, 0, true⟩, ⟨21, 21, .w1c, 0, true⟩, ⟨20, 20, .w1c, 0, true⟩, ⟨19, 19, .w1c, 0, true⟩, ⟨18, 12, .ro, 0, true⟩]⟩,
  -- RING_DLY
  ⟨0x10, 0x0, 1, false, [⟨31, 16, .ro, 0, true⟩, ⟨15, 0, .ro, 0, true⟩]⟩,
  -- RING_CNT
  ⟨0x18, 0x0, 1, true, [⟨63, 48, .ro, 0, true⟩, ⟨47, 32, .ro, 0, true⟩, ⟨31, 16, .ro, 0, true⟩, ⟨15, 0, .ro, 0, true⟩]⟩,
  -- RING_MBCTL
  ⟨0x28, 0x0, 1, false, [⟨31, 31, .wo, 0, true⟩, ⟨30, 30, .rw, 0, true⟩, ⟨5, 0, .rw, 0, true⟩]⟩,
  -- RING_RXHDR
  ⟨0x30, 0x0, 1, false, [⟨31, 31, .ro, 0, true⟩, ⟨30, 30, .ro, 0, true⟩, ⟨29, 22, .ro, 0, true⟩, ⟨21, 16, .ro, 0, true⟩]⟩,
  -- RING_PEXP
  ⟨0x40, 0x0, 1, false, [⟨27, 16, .rw, 0, true⟩, ⟨11, 0, .rw, 0, true⟩]⟩,
  -- RING_DEC
  ⟨0x48, 0x4, 4, false, [⟨31, 31, .w1c, 0, true⟩, ⟨30, 30, .ro, 0, true⟩, ⟨7, 0, .ro, 0, true⟩]⟩,
  -- RING_ROUTE
  ⟨0x80, 0x8, 16, true, [⟨63, 63, .rw, 0, true⟩, ⟨62, 62, .rw, 0, true⟩, ⟨61, 57, .rw, 0, true⟩, ⟨56, 49, .rw, 0, true⟩, ⟨48, 41, .rw, 0, true⟩, ⟨40, 40, .rw, 0, true⟩, ⟨39, 36, .rw, 0, true⟩, ⟨35, 32, .rw, 0, true⟩, ⟨31, 31, .rw, 0, true⟩, ⟨30, 28, .rw, 0, true⟩, ⟨27, 27, .w1c, 0, true⟩, ⟨26, 16, .rw, 0x3E8, true⟩, ⟨15, 0, .ro, 0, true⟩]⟩,
  -- TRIG_CFG
  ⟨0x200, 0x10, 8, true, [⟨36, 36, .rw, 0, true⟩, ⟨35, 32, .rw, 0, true⟩, ⟨31, 31, .rw, 0, true⟩, ⟨30, 30, .rw, 0, true⟩, ⟨29, 28, .rw, 0, true⟩, ⟨27, 25, .rw, 0, true⟩, ⟨24, 24, .rw, 0, true⟩, ⟨23, 16, .rw, 0, true⟩, ⟨15, 12, .rw, 0xF, true⟩, ⟨11, 0, .rw, 0x3E8, true⟩]⟩,
  -- TRIG_STAT
  ⟨0x208, 0x10, 8, false, [⟨31, 31, .ro, 0, true⟩, ⟨30, 30, .w1c, 0, true⟩, ⟨29, 29, .ro, 0, true⟩, ⟨28, 28, .w1c, 0, true⟩, ⟨15, 0, .ro, 0, true⟩]⟩,
  -- TRIG_GPIO
  ⟨0x300, 0x4, 16, false, [⟨31, 31, .rw, 0, true⟩, ⟨30, 30, .rw, 0, true⟩, ⟨29, 29, .ro, 0, true⟩, ⟨3, 0, .rw, 0xF, true⟩]⟩,
  -- RING_TIME
  ⟨0x8, 0x0, 1, true, [⟨63, 0, .ro, 0, true⟩]⟩,
  -- RING_MBTX
  ⟨0x20, 0x0, 1, true, [⟨63, 0, .rw, 0, true⟩]⟩,
  -- RING_RXDATA
  ⟨0x38, 0x0, 1, true, [⟨63, 0, .ro, 0, true⟩]⟩,
  -- TRIG_TS
  ⟨0x280, 0x8, 8, true, [⟨63, 0, .ro, 0, true⟩]⟩]

/-- The registers of block RST. -/
def regsRST : List RegD := [
  -- RST_CTL
  ⟨0x0, 0x0, 1, false, [⟨31, 31, .wo, 0, true⟩, ⟨30, 30, .wo, 0, true⟩, ⟨15, 0, .wo, 0, true⟩]⟩,
  -- RST_CAUSE
  ⟨0x4, 0x0, 1, false, [⟨31, 28, .ros, 0, true⟩, ⟨27, 24, .ros, 0, true⟩, ⟨15, 0, .ros, 0, true⟩]⟩,
  -- RST_PART
  ⟨0x8, 0x0, 1, false, [⟨11, 0, .wo, 0, true⟩]⟩,
  -- RST_STAT
  ⟨0xC, 0x0, 1, false, [⟨31, 30, .ro, 0, true⟩, ⟨29, 28, .ro, 0, true⟩, ⟨27, 26, .ro, 0, true⟩, ⟨25, 24, .ro, 0, true⟩, ⟨11, 0, .ro, 0, true⟩]⟩,
  -- PWR_PART
  ⟨0x100, 0x4, 12, false, [⟨31, 30, .rw, 0, false⟩, ⟨29, 28, .ro, 0, true⟩, ⟨27, 27, .ro, 0, true⟩, ⟨26, 24, .ro, 0, true⟩, ⟨15, 8, .ro, 0, true⟩, ⟨2, 0, .rw, 0x7, true⟩]⟩,
  -- PWR_WAKE_DEFER
  ⟨0x180, 0x0, 1, false, [⟨31, 16, .ro, 0, true⟩, ⟨15, 0, .ro, 0, true⟩]⟩,
  -- PWR_STAT
  ⟨0x184, 0x0, 1, false, [⟨31, 30, .ro, 0x3, true⟩, ⟨0, 0, .wo, 0, true⟩]⟩,
  -- PWR_THERM
  ⟨0x188, 0x0, 1, false, [⟨31, 31, .ro, 0, true⟩, ⟨30, 30, .w1c, 0, true⟩, ⟨29, 29, .w1c, 0, true⟩, ⟨28, 22, .ro, 0x70, true⟩, ⟨19, 10, .ro, 0, true⟩]⟩]

/-- The registers of block CLK. -/
def regsCLK : List RegD := [
  -- CLK_ISL
  ⟨0x0, 0x4, 156, false, [⟨31, 31, .ro, 0, false⟩, ⟨30, 30, .w1c, 0, false⟩, ⟨29, 29, .ro, 0, false⟩, ⟨22, 16, .ro, 0, false⟩, ⟨6, 0, .rw, 0, true⟩]⟩,
  -- CLK_STAB0
  ⟨0x400, 0x0, 1, false, [⟨23, 0, .ro, 0, true⟩]⟩,
  -- CLK_STAB1
  ⟨0x404, 0x0, 1, false, [⟨15, 15, .ro, 0x1, true⟩, ⟨14, 14, .ro, 0, true⟩, ⟨13, 13, .ro, 0, true⟩, ⟨12, 11, .ro, 0, true⟩, ⟨10, 9, .ro, 0, true⟩, ⟨8, 8, .ro, 0, true⟩, ⟨7, 4, .ro, 0, true⟩, ⟨3, 0, .ro, 0, true⟩]⟩]

/-- The registers of block ERR. -/
def regsERR : List RegD := [
  -- ERR_CTL
  ⟨0x0, 0x0, 1, false, [⟨31, 31, .rw, 0x1, true⟩, ⟨30, 30, .rw, 0, true⟩, ⟨26, 16, .rw, 0, true⟩, ⟨15, 0, .rw, 0x40, true⟩]⟩,
  -- ERR_STAT
  ⟨0x4, 0x0, 1, false, [⟨31, 31, .ro, 0, false⟩, ⟨30, 30, .ro, 0, false⟩, ⟨29, 29, .ro, 0, false⟩, ⟨15, 0, .ros, 0, true⟩]⟩,
  -- ERR_LOGP
  ⟨0x8, 0x0, 1, false, [⟨27, 16, .ros, 0, true⟩, ⟨11, 0, .rw, 0, true⟩]⟩,
  -- ERR_PSTAT
  ⟨0x100, 0x4, 12, false, [⟨31, 24, .w1c, 0, true⟩, ⟨23, 16, .w1c, 0, true⟩, ⟨15, 0, .w1c, 0, true⟩]⟩,
  -- ERR_CAP
  ⟨0x200, 0x4, 12, false, [⟨31, 31, .wo, 0, true⟩, ⟨30, 30, .wo, 0, true⟩, ⟨29, 28, .ro, 0, false⟩]⟩,
  -- ERR_CAPRB
  ⟨0x240, 0x0, 1, false, [⟨23, 16, .rw, 0, true⟩, ⟨4, 0, .rw, 0, true⟩]⟩,
  -- HLTH_CTL
  ⟨0x1000, 0x0, 1, false, [⟨31, 31, .rw, 0x1, true⟩, ⟨1, 0, .rw, 0, true⟩]⟩,
  -- HLTH_ISL
  ⟨0x1400, 0x4, 156, false, [⟨31, 30, .ros, 0, true⟩, ⟨29, 28, .ros, 0, true⟩, ⟨27, 24, .ros, 0, true⟩, ⟨23, 0, .ros, 0xFFFFFF, true⟩]⟩,
  -- HLTH_LQ
  ⟨0x1800, 0x4, 48, false, [⟨31, 30, .ros, 0, true⟩, ⟨29, 28, .ros, 0, true⟩, ⟨27, 24, .ros, 0, true⟩, ⟨23, 0, .ros, 0xFFFFFF, true⟩]⟩,
  -- HLTH_RAIL
  ⟨0x1900, 0x4, 6, false, [⟨31, 30, .ros, 0, true⟩, ⟨29, 28, .ros, 0, true⟩, ⟨27, 24, .ros, 0, true⟩, ⟨23, 0, .ros, 0xFFFFFF, true⟩]⟩,
  -- HLTH_DBGSEL
  ⟨0x2000, 0x0, 1, false, [⟨31, 31, .ro, 0, true⟩, ⟨15, 8, .rw, 0, true⟩, ⟨4, 0, .rw, 0, true⟩]⟩,
  -- HLTH_DBGSTAT
  ⟨0x2010, 0x0, 1, false, [⟨2, 2, .ro, 0, true⟩, ⟨1, 0, .ro, 0, true⟩]⟩,
  -- HLTH_DBGDATA
  ⟨0x2008, 0x0, 1, true, [⟨63, 0, .ro, 0, true⟩]⟩,
  -- ERR_FIRSTF
  ⟨0x40, 0x8, 4, true, [⟨63, 0, .ros, 0, true⟩]⟩]

end Sys2Proof.Machine
end

