-- ==== Sys2Proof/Machine/SeqState.lean ====
section
/-!
DEFINITION. Machine/SeqState.lean: what a sequencer keeps beside its registers of BAR0 and its bank (R184 to R186, R202, R205, R285), and what a partition keeps.
-/
namespace Sys2Proof.Machine

/-- A MAC instruction in its pipeline: the accumulator it adds to (bank × 2 + A), what it adds, and the cycle at whose end it adds (R202, R203). -/
structure MacOp where
  acc : Nat
  delta : Int
  due : Nat
deriving DecidableEq, Repr

/-- An outstanding load outside the local window (R193): the register it writes, its data, and what is needed to execute it again (R200): the address and the word
of its instruction with the rest. -/
structure LoadOp where
  reg : Nat
  data : Word
  va : Nat
  size : Nat
  sext : Bool
  pc : Nat
  word : Nat
deriving DecidableEq, Repr

/-- A bus error response to a posted store (R215): the store's address and its instruction word. -/
structure PostErr where
  va : Nat
  word : Nat
deriving DecidableEq, Repr

/-- A write on the partition parameter bus (R205): the islands named by scope, row and column, the parameter word and its value. -/
structure ParamWrite where
  scope : Nat
  row : Nat
  col : Nat
  k : Nat
  value : W32
deriving DecidableEq, Repr

/-- An entry of the DMA fault queue (R285): the channel, or the stream of a memory stream port, and its context ID. -/
structure FaultEntry where
  stream : Bool
  port : Nat
  index : Nat
  ctx : Nat
deriving DecidableEq, Repr

/-- Where an `AWAIT` waits (R243): its mask, its destination, and its timeout in sequencer cycles (0 for none). -/
structure AwaitOp where
  mask : Nat
  rd : Nat
  limit : Nat
deriving DecidableEq, Repr

/-- A MOULT token on its way to its stream (R240): the row end, the stream masks and the token, and whether it has arrived while a capture held the partition (R468). -/
structure MoultTok where
  row : Nat
  east : Bool
  mask : Nat
  plane : Nat
  tag : Nat
  due : Bool := false
deriving DecidableEq, Repr

/-- The state of a sequencer's core. -/
structure Seq where
  st : Nat               -- `SEQ_STAT.STATE`: 0 reset, 1 halted, 2 running, 3 AWAIT, 4 DFAULT, 5 power rung
  pc : Nat
  r : Map Word           -- registers as R474 numbers them: 0 to 15 g, 16 to 23 shadow g8 to g15, 24 + 8k + j frame Fk, 80 to 95 trap window, 96 to 127 f
  fcs : Nat
  status : Word
  epc : Nat
  cause : Nat
  tvec : Nat
  wcur : Nat
  wres : Nat
  wsp : Nat
  cxlink : Nat
  fpowner : Nat
  asid : Nat
  ptbase : Nat
  rptc : Nat
  lpc : Word
  lcnt : Nat
  acc : Map (BitVec 72)  -- bank × 2 + A
  cycle : Nat            -- `SEQ_CYCLE`
  macs : List MacOp      -- oldest first
  loads : List LoadOp    -- outstanding loads, oldest first
  lost : List (Nat × List LoadOp) -- loads that traps abandoned, of the latest trap first, with the `SEQ_CTXID` of the context they are of, to be executed again after its return (R200)
  again : List LoadOp    -- abandoned loads of the context just returned to, to be executed again before its next instruction (R200, R249)
  errs : List PostErr    -- bus error responses to posted stores on their way
  held : Option PostErr  -- a response held under R252
  params : List ParamWrite -- the 8-entry queue to the parameter bus
  moults : List MoultTok -- MOULT tokens on their way to their streams
  wait : Option AwaitOp
  dmaq : List FaultEntry -- the DMA fault queue, oldest first
  stepping : Bool        -- a step has been asked for by `SEQ_CTL.STEP` (R210)
  mcheck : Option Nat    -- a machine check request: 1 stop, 2 state read, 3 parity corrected, 4 parity not correctable
  before : Nat           -- the state a power rung or a safe point interrupted
  blocks : Map Nat       -- the fetch buffer and the instruction cache: 32-byte blocks as they were fetched, by `fetchBlock` key (R192, R195)
  body : Map Nat         -- the repeat cache: instruction words of the loop's body by address (R199)
  soon : List (Nat × Nat) -- places whose result arrives later, with the cycle from which they can be used (R192, R216)
  fmask : Option Nat     -- the cached mask word of the HZ5 frame (R261)
deriving DecidableEq, Repr

/-- STATUS after reset: supervisor level, `PPL` supervisor (R186). -/
def statusReset : Word := 0x5

/-- A core in the state of R211, with its program counter at the boot address. -/
def Seq.reset (st boot : Nat) : Seq :=
  { st := st, pc := boot, r := [], fcs := 0, status := statusReset, epc := 0, cause := 0, tvec := 0, wcur := 0, wres := 0, wsp := 0, cxlink := 0,
    fpowner := 0, asid := 0, ptbase := 0, rptc := 0, lpc := 0, lcnt := 0, acc := [], cycle := 0, macs := [], loads := [], lost := [], again := [], errs := [],
    held := none, params := [], moults := [], wait := none, dmaq := [], stepping := false, mcheck := none, before := 1,
    blocks := [], body := [], soon := [], fmask := none }

/-- One entry of a translation buffer (R277): the full address space ID, the virtual page and its size in bits, and the leaf. -/
structure TlbEntry where
  asid : Nat
  bits : Nat             -- 12, 21 or 30
  page : Nat
  leaf : Word
  pinned : Bool          -- it stands in the pinned TLB (R276)
deriving DecidableEq, Repr

/-- What a DMA channel holds of its descriptor (R281 to R283) and of the results it will write there. -/
structure Chan where
  loaded : Bool          -- the descriptor has been read and checked
  pa : Nat               -- its physical address
  ctl : Nat
  src : Nat
  dst : Nat
  len : Nat
  done : Nat
  next : Nat
  coll : Bool
  psn : Bool
  ccnt : Nat
  pcnt : Nat
  caddr : Nat
deriving DecidableEq, Repr

/-- A channel without a descriptor. -/
def Chan.empty : Chan :=
  { loaded := false, pa := 0, ctl := 0, src := 0, dst := 0, len := 0, done := 0, next := 0, coll := false, psn := false, ccnt := 0, pcnt := 0, caddr := 0 }

/-- What a partition keeps beside its registers. -/
structure Part where
  served : Nat           -- the sequencer the parameter bus served last (R205); 24 before the first
  flag : Bool            -- the partition fail flag as its primary saw it last (R207)
deriving DecidableEq, Repr

end Sys2Proof.Machine
end

