-- ==== Sys2Proof/Machine/State.lean ====
section
/-!
DEFINITION. Machine/State.lean: the state of the block, its reasons to stop and the state after reset.
-/
namespace Sys2Proof.Machine

/-- Why a step stops with a fault: no command of the block does, so that there is no reason. -/
inductive Fault where
deriving DecidableEq, Repr

/-- Why a step is refused. -/
inductive Refusal where
  /-- A command without a meaning yet.  Safe. -/
  | notModelled (mnemonic : String)
deriving DecidableEq, Repr

/-- What the block sends out, in order: the model's own record of its outputs. -/
inductive Out where
  | msix (fn vec : Nat)          -- an MSI-X message (R393)
  | aer (fn kind : Nat)          -- an AER message: 1 non-fatal, 2 fatal (R394)
  | read (data : Word)           -- data a read returned
  | poisoned (data : Word)       -- data a read returned with poison
  | block (lane : Nat) (b : Blk) -- a block a lane sends (R157), before scrambling
  | busError                     -- an access ended with a bus error (R37)
  | collided                     -- a write was dropped by the owner-wins rule (R140)
  | frame (ring type : Nat) (f : RingFrame) -- a frame leaves on a ring (R412)
  | cicada (ring id : Nat) (tm : Bool)      -- a CICADA block leaves on a ring (R411)
  | trigPulse (k : Nat)          -- an 8 ns pulse on a trigger output (R417)
  | trigLevel (k : Nat) (b : Bool) -- a trigger output changes its level
  | abort                        -- a read completed with Completer Abort status (R391)
  | scan (ir data : Nat)         -- what the data register of a JTAG instruction captured (R472)
deriving DecidableEq, Repr

/-- An array event on the partition control net (R77, R149, R208). -/
structure AEv where
  part : Nat
  bit : Nat
  kind : Nat
  src : Nat
  cycle : Nat            -- of an event line: its island's cycle at the delivery (R77)
deriving DecidableEq, Repr

/-- One record of the error log (R455). -/
structure LogRec where
  w0 : Word
  w1 : Word
  w2 : Word
  w3 : Word
deriving DecidableEq, Repr

/-- Occurrences of one condition of one source in the present window of 1 ms (R456): those recorded, those suppressed, whether a storm goes on from an earlier
window, and what the latest suppressed one named. -/
structure Storm where
  n : Nat
  sup : Nat
  going : Bool
  part : Nat
  i0 : Word
  i1 : Word
deriving DecidableEq, Repr

/-- A contained or fatal record that waits for its handling (R451 to R453). -/
structure Handling where
  sev : Nat
  code : Nat
  part : Nat
  src : Nat
  asked : Bool             -- the stop of its partitions has been requested
  followed : Bool          -- firmware has begun what R451 asks for after the stop
deriving DecidableEq, Repr

/-- The state of the block: everything the spec gives it, and the model's own `pending`, `out` and `free`. -/
structure State where
  /-- The commands that wait, first in, first out: the block's interface. -/
  pending : List Instr
  /-- Every register of the register map of R6 to R497 that holds a value of its own, by its offset in BAR0; an unlisted one reads its reset value (`regReset`). -/
  regs : Map Word
  /-- Bytes: the island memories with their tag and ECC bits (R133 to R136), the tracker, the banks (R191), the CXL and host memories, the boot flash (R376) and the BAR4 rings
(R397), at the key bases of Machine/Ops.lean. -/
  mem : Memory
  /-- The configuration frames (R363), by island and frame number. -/
  frames : Map CfgFrame
  /-- What the islands hold beside their registers (R40 to R154, R313 to R332). -/
  isl : Map Isl
  /-- The Myotis lanes (R155 to R182). -/
  lanes : Map Lane
  /-- The memory stream ports and their streams (R299 to R312). -/
  msps : Map Msp
  /-- The 24 sequencers (R183 to R268). -/
  seqs : Map Seq
  /-- What stands on the partition nets: parameter writes and MOULT tokens under way (R85, R86). -/
  parts : Map Part
  /-- The DMA channels (R281 to R298). -/
  dmas : Map Chan
  /-- The translations the MMU holds, pinned ones among them (R278). -/
  tlb : List TlbEntry
  /-- The fail engine's units (R333, R334). -/
  units : Map FUnit
  /-- The Fail Address Table (R348). -/
  fat : List FatEntry
  /-- The fail engine's state of each partition (R340 to R346). -/
  feParts : Map FePart
  /-- The fail engine's shared state: tile caches, solvers and results (R337, R351, R354). -/
  fe : Fe
  /-- Array events on the partition control net (R77, R208). -/
  aev : List AEv
  /-- The error log, by entry (R455). -/
  log : Map LogRec
  /-- The sequence number of the next record (R455). -/
  logSeq : Nat
  /-- The log holds 4,096 records that are not consumed, so that `TAIL` stands at `HEAD` (R455). -/
  logFull : Bool
  /-- The storm windows of conditions and sources (R456). -/
  storm : Map Storm
  /-- Contained and fatal records that wait for handling, or are handled (R451 to R453). -/
  handling : List Handling
  /-- The MSI-X vectors that the host has unmasked (R393). -/
  msixOn : List Nat
  /-- The MSI-X messages that are pending (R393). -/
  msixPend : List Nat
  /-- The configuration controller and its port (R361 to R387). -/
  cfg : Cfg
  /-- The mailbox commands that firmware has taken and not ended (R397 to R401). -/
  jobs : List Job
  /-- The mailboxes: the phase of their completion rings and completions that wait (R399). -/
  mbx : Map Mbx
  /-- The ring node: join, clocks, frames under way (R408 to R428). -/
  ring : Ring
  /-- Pins, supplies, start-up, resets, repair, wakes, health and the debug port (R429 to R497). -/
  sys : Sys
  /-- What the block has sent out, in order: the model's own record, which no command reads. -/
  out : List Out
  /-- The number of open values drawn so far: the model's own counter (log entry 3). -/
  free : Nat
deriving DecidableEq, Repr

/-- The block right after reset: the module before its supply becomes valid, every register at its reset value, every memory reading zero and nothing under way
(R136, R194, R409, R430, R437; log entries 4, 6 and 7). -/
def State.reset : State :=
  { pending := [], regs := [], mem := [], frames := [], isl := [], lanes := [], msps := [], seqs := [], parts := [], dmas := [], tlb := [], units := [], fat := [],
    feParts := [], fe := Fe.empty, aev := [], log := [], logSeq := 0, logFull := false, storm := [], handling := [], msixOn := [], msixPend := [], cfg := Cfg.idle, jobs := [], mbx := [],
    ring := Ring.out, sys := Sys.off, out := [], free := 0 }

end Sys2Proof.Machine
end

