-- ==== Sys2Proof/Machine/Ops.lean ====
section
/-!
DEFINITION. Machine/Ops.lean: the named operations over registers, islands and frames, and the shared ways one block tells another of an
event: the error log (R450 to R457), MSI-X messages (R393), array events (R208) and doorbells (R209).
-/
namespace Sys2Proof.Machine

/-! ### Registers -/

/-- The descriptors of the block an offset lies in (R38), and the offset within one copy of the block. -/
def blockOf (k : Nat) : List RegD × Nat :=
  if k < 0x1_0000 then (regsGLB, k)
  else if k < 0x2_0000 then (regsRST, k - 0x1_0000)
  else if k < 0x3_0000 then (regsCLK, k - 0x2_0000)
  else if k < 0x4_0000 then (regsCFG, k - 0x3_0000)
  else if k < 0x8_0000 then (regsERR, k - 0x4_0000)
  else if k < 0x9_0000 then (regsHL, k - 0x8_0000)
  else if k < 0xA_0000 then (regsCXP, k - 0x9_0000)
  else if k < 0xB_0000 then (regsRING, k - 0xA_0000)
  else if k < 0x10_0000 then ([], 0)
  else if k < 0x28_0000 then (regsSEQ, k % 0x1_0000)
  else if k < 0x40_0000 then ([], 0)
  else if k < 0xDC_0000 then (regsISL, k % 0x1_0000)
  else if k < 0xE0_0000 then ([], 0)
  else if k < 0xE3_0000 then (regsLQ, k % 0x1000)
  else if k < 0xF0_0000 then ([], 0)
  else if k < 0xF8_0000 then (regsFE, k - 0xF0_0000)
  else if k < 0xF9_0000 then (regsDMA, k - 0xF8_0000)
  else if k < 0xF9_C000 then (regsMSP, (k - 0xF9_0000) % 0x800)
  else if k < 0xFC_0000 then ([], 0)
  else if k < 0x100_0000 then (regsMMU, k - 0xFC_0000)
  else if k < 0x1000_0000 then ([], 0)
  else if k < 0x2000_0000 then (regsHLF, k % 0x1000)
  else if k < 0x3000_0000 then (regsMBX, k % 0x1000)
  else ([], 0)

/-- Whether a descriptor names the register at an offset of its block. -/
def RegD.covers (d : RegD) (o : Nat) : Bool :=
  if d.stride = 0 then o == d.off
  else decide (d.off ≤ o) && (o - d.off) % d.stride == 0 && decide ((o - d.off) / d.stride < d.count)

/-- The descriptor of the register at a key. -/
def regDesc (k : Nat) : Option RegD := (blockOf k).1.find? (fun d => d.covers (blockOf k).2)

/-- The value after cold reset of a register with these fields: the Reset column (R12). -/
def resetWord (fs : List Fld) : Word := BitVec.ofNat 64 (fs.foldl (fun a f => a + f.rst * 2 ^ f.lo) 0)

/-- The value after cold reset of the register at a key. -/
def regReset (k : Nat) : Word :=
  match regDesc k with
  | some d => resetWord d.flds
  | none => 0

/-- The stored value of a register. -/
def State.rd (s : State) (k : Nat) : Word := Map.getD s.regs k (regReset k)

/-- Store a register. -/
def State.wr (s : State) (k : Nat) (v : Word) : State := { s with regs := Map.set s.regs k v }

/-- The value of a field. -/
def State.f (s : State) (x : RF) : Nat := getBits (s.rd x.key) x.hi x.lo

/-- Whether a field is not zero. -/
def State.on (s : State) (x : RF) : Bool := s.f x != 0

/-- Store a field, every other bit of its register kept. -/
def State.setF (s : State) (x : RF) (n : Nat) : State := s.wr x.key (setBits (s.rd x.key) x.hi x.lo n)

/-- Add to a counter field, saturating at its largest value. -/
def State.bump (s : State) (x : RF) (n : Nat := 1) : State := s.setF x (min (s.f x + n) x.max)

/-- Set the bits of a field that are 1 in `n`. -/
def State.orF (s : State) (x : RF) (n : Nat) : State := s.setF x (s.f x ||| n)

/-- One bit of a field, as a field. -/
def RF.bit (x : RF) (n : Nat) : RF := { key := x.key, hi := x.lo + n, lo := x.lo + n }

/-- Element `n` of a field made of elements of `w` bits. -/
def RF.elem (x : RF) (w n : Nat) : RF := { key := x.key, hi := x.lo + w * n + w - 1, lo := x.lo + w * n }

/-! ### Free values -/

/-- A value the spec leaves open: the free value at the model's counter, which advances (log entry 3). -/
def State.fresh (s : State) : Word × State := (Config.freeValue s.free, { s with free := s.free + 1 })

/-- A bit the spec leaves open. -/
def State.freshBit (s : State) : Bool × State := (Config.freeBit s.free, { s with free := s.free + 1 })

/-- Record an output. -/
def State.emit (s : State) (o : Out) : State := { s with out := s.out ++ [o] }

/-! ### Partitions, rows and islands -/

/-- Row of a physical island index (R15). -/
def rowOf (i : Nat) : Nat := i / 13

/-- Physical column of a physical island index (R15). -/
def pcolOf (i : Nat) : Nat := i % 13

/-- The physical column out of service in a row (R16). -/
def State.spare (s : State) (r : Nat) : Nat := s.f (GLB_ROW_MAP.SPARE_PTR r)

/-- The logical column of a physical column (R16). -/
def State.lcol (s : State) (i : Nat) : Nat := if pcolOf i < s.spare (rowOf i) then pcolOf i else pcolOf i - 1

/-- Whether an island is in service: it is not at its row's spare pointer (R16). -/
def State.inService (s : State) (i : Nat) : Bool := pcolOf i != s.spare (rowOf i)

/-- The physical index of logical island (r, c) (R16). -/
def State.phys (s : State) (r c : Nat) : Nat := r * 13 + (if c < s.spare r then c else c + 1)

/-- The owner of a row: a partition, or 15 (R18). -/
def State.owner (s : State) (r : Nat) : Nat := s.f (GLB_ROW_MAP.OWNER r)

/-- The partition of an island, or 15. -/
def State.islPart (s : State) (i : Nat) : Nat := s.owner (rowOf i)

/-- The rows of a partition: the rows it owns. -/
def State.rowsOf (s : State) (n : Nat) : List Nat := (List.range 12).filter (fun r => s.owner r == n)

/-- The in-service islands of a partition, by physical index. -/
def State.islandsOf (s : State) (n : Nat) : List Nat :=
  (s.rowsOf n).flatMap (fun r => ((List.range 13).map (fun p => r * 13 + p)).filter s.inService)

/-- The sequencers of a partition (R20), whether it is enabled or not. -/
def State.seqsOf (s : State) (n : Nat) : List Nat := onesOf 24 (s.f (GLB_PART_SEQ.MASK n))

/-- Whether a partition is enabled. -/
def State.enabled (s : State) (n : Nat) : Bool := decide (n < 12) && s.on (GLB_PART_CFG.EN n)

/-- The partitions that are enabled. -/
def State.enabledParts (s : State) : List Nat := (List.range 12).filter s.enabled

/-- The module rung: the shallowest rung of the enabled partitions, Diapause with none. -/
def State.modRung (s : State) : Nat := (s.enabledParts.map (fun n => s.f (PWR_PART.CUR n))).foldl min 3

/-- Whether a function answers memory requests: not in D3hot (R396) and the link trained (R437). -/
def State.fnOpen (s : State) (fn : Nat) : Bool := s.f (HL_STAT.WIDTH fn) != 0 && !s.on (HL_STAT.D3 fn)

/-- A row that is a host write of a register of the physical function's view: it has its effect while that function answers memory requests (R396; log entry 8). -/
def pfWrite (g : State → State) (s : State) : Host.Outcome State Fault Refusal := .next (if s.fnOpen 0 then g s else s)

/-- Whether the trim load is done: until then every domain but the always-on one is held in reset (R3, R436). -/
def State.trimmed (s : State) : Bool := decide (2 ≤ s.sys.stage)

/-- The primary sequencer of an enabled partition (R25). -/
def State.primary (s : State) (n : Nat) : Option Nat :=
  if s.enabled n then some (s.f (GLB_PART_SEQ.PRIMARY n)) else none

/-- The enabled partition a sequencer belongs to (R20). -/
def State.seqPart (s : State) (q : Nat) : Option Nat :=
  (List.range 12).find? (fun n => s.enabled n && bitOf (s.f (GLB_PART_SEQ.MASK n)) q)

/-- The function that serves a partition, 0 for the physical function (R21). -/
def State.vfOf (s : State) (n : Nat) : Nat := if n < 12 then s.f (GLB_PART_CFG.VF n) else 0

/-- The enabled partition that virtual function `v` serves (R390). -/
def State.vfPart (s : State) (v : Nat) : Option Nat :=
  (List.range 12).find? (fun n => s.enabled n && s.f (GLB_PART_CFG.VF n) == v && v != 0)

/-- The states of a partition (R21). -/
def stEMPTY : Nat := 0
def stLOADING : Nat := 1
def stSTOPPED : Nat := 2
def stRUNNING : Nat := 3
def stINVALID : Nat := 4
def stREPAIRING : Nat := 5

/-- Whether a partition's band is in the loading state of R379: in a load, after a load that failed, and in a repair from step 5 on (R371, R464). -/
def State.bandHeld (s : State) (n : Nat) : Bool :=
  decide (n < 12) &&
    (let st := s.f (GLB_PART_CFG.STATE n)
     st == stLOADING || st == stINVALID || (st == stREPAIRING && (match s.sys.repair with
       | some r => r.part == n && decide (5 ≤ r.step)
       | none => false)))

/-- The state an island keeps beside its registers. -/
def State.getIsl (s : State) (i : Nat) : Isl := Map.getD s.isl i Isl.reset

/-- Store an island's state. -/
def State.setIsl (s : State) (i : Nat) (x : Isl) : State := { s with isl := Map.set s.isl i x }

/-- Change an island's state. -/
def State.onIsl (s : State) (i : Nat) (g : Isl → Isl) : State := s.setIsl i (g (s.getIsl i))

/-- A word unit of an island. -/
def Isl.wu (x : Isl) (u : Nat) : Wu := Map.getD x.wus u Wu.reset

/-- A word unit of an island. -/
def State.getWu (s : State) (i u : Nat) : Wu := (s.getIsl i).wu u

/-- Store a word unit. -/
def State.setWu (s : State) (i u : Nat) (w : Wu) : State := s.onIsl i (fun x => { x with wus := Map.set x.wus u w })

/-- Change a word unit. -/
def State.onWu (s : State) (i u : Nat) (g : Wu → Wu) : State := s.setWu i u (g (s.getWu i u))

/-- Whether an island's clock runs and the island is out of reset (R32, R433, R434, R442). -/
def State.islClk (s : State) (i : Nat) : Bool :=
  s.inService i && !(s.getIsl i).inReset && !(s.getIsl i).clkHalt &&
    (match s.islPart i with
     | 15 => true
     | n => s.f (PWR_PART.CUR n) == 0)

/-- Whether an island takes its own steps: its clock runs and no firefly capture holds it (R467). -/
def State.islRuns (s : State) (i : Nat) : Bool := s.islClk i && !(s.getIsl i).frozen

/-- Whether a firefly capture holds an island of a partition (R467). -/
def State.partFrozen (s : State) (p : Nat) : Bool := decide (p < 12) && (s.islandsOf p).any (fun i => (s.getIsl i).frozen)

/-- Whether a partition stands in a power rung below Active: its channels and streams then do nothing (R442). -/
def State.partDown (s : State) (p : Nat) : Bool := decide (p < 12) && s.f (PWR_PART.CUR p) != 0

/-- Record an access to a register whose clock does not run (R33). -/
def gatedAccess (off : Nat) (s : State) : State :=
  (s.bump GLB_GATED_ACCESS.COUNT).setF GLB_GATED_ACCESS.OFFSET off

/-- A write of an island register by the physical function: its effect, or a gated access when the island's clock does not run (R33). -/
def islWrite (i key : Nat) (g : State → State) (s : State) : State := if s.islClk i then g s else gatedAccess key s

/-! ### Messages to the host -/

/-- The index of one vector of one function. -/
def msixIx (fn vec : Nat) : Nat := fn * 2048 + vec

/-- Whether a vector's message may be sent: enabled, unmasked, and the function not in D3hot (R393). -/
def State.msixOpen (s : State) (fn vec : Nat) : Bool := s.msixOn.contains (msixIx fn vec) && !s.on (HL_STAT.D3 fn)

/-! ### The error log -/

/-- The severity of a condition: column SEV of R457. -/
def sevOf (code : Nat) : Nat :=
  match code with
  | 0x0101 => 0 | 0x0102 => 1 | 0x0103 => 0 | 0x0104 => 0 | 0x0105 => 1
  | 0x0201 => 1 | 0x0202 => 1 | 0x0203 => 2 | 0x0204 => 2 | 0x0205 => 1
  | 0x0301 => 1 | 0x0302 => 1 | 0x0303 => 1 | 0x0304 => 1 | 0x0305 => 1 | 0x0306 => 2
  | 0x0401 => 2 | 0x0402 => 1 | 0x0403 => 0
  | 0x0501 => 1 | 0x0502 => 1
  | 0x0601 => 0 | 0x0602 => 1 | 0x0603 => 1 | 0x0604 => 3
  | 0x0701 => 0 | 0x0702 => 1 | 0x0703 => 2 | 0x0704 => 1
  | 0x0801 => 1 | 0x0802 => 1 | 0x0803 => 2
  | 0x0901 => 1 | 0x0902 => 0
  | 0x0A01 => 0 | 0x0A02 => 0 | 0x0A03 => 0 | 0x0A04 => 0 | 0x0A05 => 0
  | 0x0B01 => 0 | 0x0B02 => 1 | 0x0B03 => 3 | 0x0B04 => 3 | 0x0B05 => 3
  | _ => 0

/-- The SRC value of a source kind and number (R457). -/
def srcOf (kind num : Nat) : Nat := kind * 4096 + num % 4096

/-- The SRC value of sequencer `n`'s clock domain (R457). -/
def srcSeq (n : Nat) : Nat := srcOf 0 (156 + n)

/-- Write one record at TAIL and advance it; a full ring loses its oldest record (R455). -/
def writeRecord (storm : Bool) (count sev part code src : Nat) (nest : Bool) (i0 i1 : Word) (s : State) : State :=
  let tail := s.f ERR_LOGP.TAIL
  let head := s.f ERR_LOGP.HEAD
  let w1 : Nat := sev + 4 * b2n nest + 8 * b2n storm + part % 16 * 2 ^ 4 + code * 2 ^ 8 + src * 2 ^ 24 + count % 2 ^ 16 * 2 ^ 40
    + s.logSeq % 256 * 2 ^ 56
  let r : LogRec := { w0 := s.rd RING_TIME, w1 := BitVec.ofNat 64 w1, w2 := i0, w3 := i1 }
  let full := s.logFull
  let s := { s with log := Map.set s.log tail r, logSeq := s.logSeq + 1, logFull := full || (tail + 1) % 4096 == head }
  let s := s.setF ERR_LOGP.TAIL ((tail + 1) % 4096)
  let s := if full then (s.setF ERR_LOGP.HEAD ((head + 1) % 4096)).bump ERR_STAT.OVF else s
  if sev = 3 ∧ s.rd (ERR_FIRSTF 0) = 0 ∧ s.rd (ERR_FIRSTF 1) = 0 then
    (((s.wr (ERR_FIRSTF 0) r.w0).wr (ERR_FIRSTF 1) r.w1).wr (ERR_FIRSTF 2) r.w2).wr (ERR_FIRSTF 3) r.w3
  else s

/-- The count of a partition's records of one severity (`ERR_PSTATn`). -/
def countRecord (sev part : Nat) (s : State) : State :=
  if part < 12 then
    match sev with
    | 0 => s.bump (ERR_PSTAT.CCNT part)
    | 1 => s.bump (ERR_PSTAT.DCNT part)
    | 2 => s.bump (ERR_PSTAT.XCNT part)
    | _ => s
  else s

/-- Whether a record carries `NEST`: its severity is not below that of the handling that runs (R453). -/
def State.nests (s : State) (sev : Nat) : Bool :=
  match s.handling with
  | [] => false
  | h :: _ => decide (h.sev ≤ sev)

/-- Log one occurrence of a condition that sends no message of its own: the record or its suppression (R456), and the counters. -/
def logPlain (code part src : Nat) (i0 i1 : Word) (s : State) : State :=
  let sev := sevOf code
  let key := code * 65536 + src
  let w := Map.getD s.storm key { n := 0, sup := 0, going := false, part := 15, i0 := 0, i1 := 0 }
  let lim := s.f ERR_CTL.STORM
  let s := countRecord sev part s
  if lim ≠ 0 ∧ (w.going = true ∨ lim ≤ w.n) then { s with storm := Map.set s.storm key { w with sup := w.sup + 1, part := part, i0 := i0, i1 := i1 } }
  else writeRecord false 1 sev part code src (s.nests sev) i0 i1 { s with storm := Map.set s.storm key { w with n := w.n + 1 } }

/-- Raise an MSI-X message: sent, held pending, or logged as beyond its table (R393). -/
def sendMsix (fn vec : Nat) (s : State) : State :=
  if (if fn = 0 then 512 else 128) ≤ vec then logPlain 0x0A05 15 (srcOf 6 fn) (BitVec.ofNat 64 vec) 0 s
  else if s.msixOpen fn vec then s.emit (.msix fn vec)
  else if s.msixPend.contains (msixIx fn vec) then s
  else { s with msixPend := s.msixPend ++ [msixIx fn vec] }

/-- Log one occurrence of a condition with its action (R450): deferred records may send the vector, contained ones send it and an AER
non-fatal message and wait for handling, fatal ones wait for handling. -/
def logErr (code part src : Nat) (i0 : Word := 0) (i1 : Word := 0) (s : State) : State :=
  let sev := sevOf code
  let s := logPlain code part src i0 i1 s
  match sev with
  | 0 => s
  | 1 => if s.on ERR_CTL.DIRQ then sendMsix 0 (s.f ERR_CTL.VEC) s else s
  | 2 =>
    let s := (sendMsix 0 (s.f ERR_CTL.VEC) s).emit (.aer (s.vfOf part) 1)
    if part < 12 then
      State.setF { s with handling := s.handling ++ [{ sev := 2, code := code, part := part, src := src, asked := false, followed := false }] } ERR_STAT.HACT 1
    else s
  | _ => State.setF { s with handling := { sev := 3, code := code, part := part, src := src, asked := false, followed := false } :: s.handling } ERR_STAT.HACT 1

/-! ### Array events and doorbells -/

/-- Put an array event on the partition control net. -/
def raiseAev (n bit kind src : Nat) (s : State) : State := if n < 12 then { s with aev := s.aev ++ [⟨n, bit, kind, src, 0⟩] } else s

/-- Put a rise of an event line of island `i` on the net (R77, R149): one that comes while a delivery of the line is pending for a later cycle is merged into it; else it
is delivered at once, or 4 island cycles after the line's latest delivery. -/
def raiseLine (n i k : Nat) (s : State) : State :=
  let x := s.getIsl i
  if n < 12 ∧ s.aev.all (fun e => !(e.part == n && e.bit == k && e.src == i && decide (x.cycle < e.cycle))) then
    let at' := match Map.find x.lineSent k with
      | some c => max x.cycle (c + 4)
      | none => x.cycle
    State.onIsl { s with aev := s.aev ++ [⟨n, k, 0, i, at'⟩] } i (fun x => { x with lineSent := Map.set x.lineSent k at' })
  else s

/-- Set doorbell bits of a sequencer (R209). -/
def setDoorbell (q bits : Nat) (s : State) : State :=
  let new := bits &&& (65535 ^^^ s.f (SEQ_DBELL.PEND q))
  let old (e : Nat × Nat × Nat) : Nat × Nat × Nat := if s.primary e.1 = some q then (e.1, e.2.1 &&& (65535 ^^^ new), e.2.2 &&& (65535 ^^^ new)) else e
  State.orF { s with sys := { s.sys with wakeOld := s.sys.wakeOld.map old } } (SEQ_DBELL.PEND q) bits

/-- Doorbell `d` of a partition's primary. -/
def ringPrimary (n d : Nat) (s : State) : State :=
  match s.primary n with
  | some q => setDoorbell q (2 ^ d) s
  | none => s

/-! ### Device physical addresses of R34 -/

/-- Island memory of physical index `i`. -/
def islMemBase (i : Nat) : Nat := 0x1_0000_0000 + i * 0x4_0000

/-- Sequencer bank `n`. -/
def bankBase (n : Nat) : Nat := 0x2_0000_0000 + n * 0x10_0000

/-- Line tracker RAM. -/
def trackerBase : Nat := 0x3_0000_0000

/-- The CXL window. -/
def cxlBase : Nat := 0x1000_0000_0000

/-- The host aperture. -/
def hostBase : Nat := 0x8_0000_0000_0000

/-- Keys beyond the 52-bit space: the four tag bits of each 32-bit word of an island memory (R134), one byte per word. -/
def tagKey (a : Nat) : Nat := 2 ^ 52 + a / 4

/-- Keys beyond the 52-bit space: the ECC condition of each ECC word: 0 sound, 1 a single-bit error, 2 uncorrectable or poisoned. -/
def eccKey (a : Nat) : Nat := 2 ^ 53 + a / 8

/-- Change the memory. -/
def State.onMem (s : State) (g : Memory → Memory) : State := { s with mem := g s.mem }

/-- One byte of the memory of the module and of the memories behind its links. -/
def State.byte (s : State) (a : Nat) : Byte := Memory.get s.mem a

end Sys2Proof.Machine
end

