-- ==== Sys2Proof/Machine/Frames.lean ====
section
/-!
DEFINITION. Machine/Frames.lean: the configuration frames of an island (R364) and the CRC-32 of R360: every per-plane content of a word unit,
the switch box, the flag logic array and the queue controllers is read from the frames here.
-/
namespace Sys2Proof.Machine

/-- One bit of the CRC-32 of R360, reflected form: the next register value for one message bit. -/
def crcBit (c : Nat) (b : Nat) : Nat := if (c + b) % 2 = 1 then c / 2 ^^^ 0xEDB8_8320 else c / 2

/-- The CRC-32 register after one byte, bit 0 first. -/
def crcByte (c : Nat) (b : Nat) : Nat := (List.range 8).foldl (fun c i => crcBit c (b / 2 ^ i % 2)) c

/-- CRC-32 of bytes in ascending order: initial value all ones, final inversion (R360). -/
def crc32 (bs : List Byte) : Nat := (bs.foldl (fun c b => crcByte c b.toNat) 0xFFFF_FFFF) ^^^ 0xFFFF_FFFF

/-- The 128 bytes of a frame, lowest first. -/
def frameBytes (d : BitVec 1024) : List Byte := bytesLE 128 d.toNat

/-- A number of `n` fields of `w` bits, all equal to `v`. -/
def repField (w n v : Nat) : Nat := (List.range n).foldl (fun a i => a + v * 2 ^ (w * i)) 0

/-- The blank queue controller field of frame 6p + 1. -/
def blankQueue : Nat := 0x3F + 17 * 2 ^ 8 + 31 * 2 ^ 13 + 31 * 2 ^ 18 + 31 * 2 ^ 23

/-- The blank macrocell field of frame 6p + 5. -/
def blankMacro : Nat := 31 * 2 ^ 16 + 31 * 2 ^ 21 + 31 * 2 ^ 26

/-- The blank content of frame `k` of an island (R364). -/
def blankFrame (k : Nat) : BitVec 1024 :=
  if k < 96 then
    match k % 6 with
    | 0 => BitVec.ofNat 1024 (repField 32 16 0xFFF0_0000)
    | 1 => BitVec.ofNat 1024 (repField 6 80 0x3F * 2 ^ 48 + repField 7 32 0x7F * 2 ^ 528 + repField 8 4 0x3F * 2 ^ 752
             + repField 29 4 blankQueue * 2 ^ 784)
    | 5 => BitVec.ofNat 1024 (repField 34 24 blankMacro)
    | _ => BitVec.ofNat 1024 (2 ^ 1024 - 1)
  else if k = 120 then BitVec.ofNat 1024 (repField 32 4 0xFFFF_0000 * 2 ^ 128)
  else if k = 121 then BitVec.ofNat 1024 ((4 * 2 ^ 36 + 0x3F * 2 ^ 47 + 0x3F * 2 ^ 53) * 2 ^ 64)
  else if k = 122 then BitVec.ofNat 1024 (0x1_0000 + 0x8001_0000 * 2 ^ 32)
  else 0

/-- A frame with the CRC of its record: over `FADDR` and data (R362). -/
def CfgFrame.of (faddr : Nat) (d : BitVec 1024) : CfgFrame :=
  { data := d, crc := BitVec.ofNat 32 (crc32 (bytesLE 4 faddr ++ frameBytes d)), faddr := BitVec.ofNat 32 faddr }

/-- Whether a stored frame agrees with its CRC. -/
def CfgFrame.sound (f : CfgFrame) : Bool := f.crc == BitVec.ofNat 32 (crc32 (bytesLE 4 f.faddr.toNat ++ frameBytes f.data))

/-- `FADDR` that the blank content of cold reset carries: row, physical column and frame; the spec gives it none (DESIGN CHOICE, log entry 28). -/
def blankAddr (i k : Nat) : Nat := rowOf i * 2 ^ 12 + pcolOf i * 2 ^ 8 + k

/-- `FADDR` of frame `k` of an island, its row counted from `first` (R362). -/
def State.faddr (s : State) (first i k : Nat) : Nat := (rowOf i - first) * 2 ^ 12 + s.lcol i * 2 ^ 8 + k

/-- Frame `k` of physical island `i` with its stored CRC (R365); a frame that nothing has written since cold reset is blank. -/
def State.frame (s : State) (i k : Nat) : CfgFrame :=
  match Map.find s.frames (i * 128 + k) with
  | some f => f
  | none => CfgFrame.of (blankAddr i k) (blankFrame k)

/-- Write a frame. -/
def State.setFrame (s : State) (i k : Nat) (f : CfgFrame) : State := { s with frames := Map.set s.frames (i * 128 + k) f }

/-- The content of frame `k` of island `i` as a number. -/
def State.fnum (s : State) (i k : Nat) : Nat :=
  match Map.find s.frames (i * 128 + k) with
  | some f => f.data.toNat
  | none => (blankFrame k).toNat

/-- `w` bits at bit `lo` of a frame. -/
def State.fbits (s : State) (i k lo w : Nat) : Nat := s.fnum i k / 2 ^ lo % 2 ^ w

/-! ### Word units -/

/-- The current plane of a word unit. -/
def State.wuPlane (s : State) (i u : Nat) : Nat := s.f ((⟨ISL_PLANE_CUR i, 63, 0⟩ : RF).elem 4 u)

/-- The operand word of a word unit in a plane (R44). -/
def State.operandWord (s : State) (i u p : Nat) : Nat := s.fbits i (6 * p) (32 * u) 32

/-- The operation word of a word unit in a plane (R45). -/
def State.opWord (s : State) (i u p : Nat) : Nat := s.fbits i (6 * p) (512 + 32 * u) 32

/-- The marks `MSA`, `MSB`, `MSM` of a word unit in a plane, in bits 0 to 2 (R86). -/
def State.marks (s : State) (i u p : Nat) : Nat := s.fbits i (6 * p + 1) (3 * u) 3

/-- Fields of an operand word. -/
def srcA (w : Nat) : Nat := bitsOf w 31 26
def srcB (w : Nat) : Nat := bitsOf w 25 20
def mMode (w : Nat) : Nat := bitsOf w 19 18
def mQ (w : Nat) : Nat := bitsOf w 17 16
def mBase (w : Nat) : Nat := bitsOf w 15 0

/-- Fields of an operation word. -/
def opc (w : Nat) : Nat := bitsOf w 31 24
def opPM (w : Nat) : Nat := bitsOf w 23 22
def opPSEL (w : Nat) : Nat := bitsOf w 21 17
def opSAT (w : Nat) : Bool := bitOf w 16
def opUT (w : Nat) : Nat := bitsOf w 15 14
def opK (w : Nat) : Nat := bitsOf w 13 8
def opDROP (w : Nat) : Bool := bitOf w 7
def opEMIT (w : Nat) : Nat := bitsOf w 6 5
def opF0 (w : Nat) : Nat := bitsOf w 4 3
def opF1 (w : Nat) : Nat := bitsOf w 2 1
def opTJ (w : Nat) : Bool := bitOf w 0

/-! ### The switch box -/

/-- The current plane of an element of the switch box: 16 + s segment, 96 + t termination, 128 + k joint (R93). -/
def State.boxPlane (s : State) (i e : Nat) : Nat := Map.getD (s.getIsl i).box e 0

/-- Whether frame 96 enables a segment, a termination or a joint, by element number. -/
def State.boxEnabled (s : State) (i e : Nat) : Bool := s.fbits i 96 (e - 16) 1 == 1

/-- `SSEL` of segment `k` in a plane; 0x3F when disabled. -/
def State.ssel (s : State) (i k p : Nat) : Nat := if s.boxEnabled i (16 + k) then s.fbits i (6 * p + 1) (48 + 6 * k) 6 else 0x3F

/-- `TSEL` of termination `t` in a plane; 0x7F when disabled. -/
def State.tsel (s : State) (i t p : Nat) : Nat := if s.boxEnabled i (96 + t) then s.fbits i (6 * p + 1) (528 + 7 * t) 7 else 0x7F

/-- The joint of spine track `t` in a plane: `SPSRC`, `DRVE`, `DRVW`; idle when disabled (R118). -/
def State.joint (s : State) (i t p : Nat) : Nat × Bool × Bool :=
  if s.boxEnabled i (128 + t) then
    let v := s.fbits i (6 * p + 1) (752 + 8 * t) 8
    (v % 64, bitOf v 6, bitOf v 7)
  else (0x3F, false, false)

/-! ### Queue controllers and the flag logic array -/

/-- The current plane of queue controller `q`. -/
def State.qcPlane (s : State) (i q : Nat) : Nat := s.f (((⟨ISL_PLANE_AUX i, 27, 12⟩ : RF)).elem 4 q)

/-- The field of queue controller `q` in a plane (R145). -/
def State.qcField (s : State) (i q p : Nat) : Nat := s.fbits i (6 * p + 1) (784 + 29 * q) 29

def qPSRC (v : Nat) : Nat := bitsOf v 5 0
def qPT (v : Nat) : Bool := bitOf v 6
def qWSEL (v : Nat) : Bool := bitOf v 7
def qFLW (v : Nat) : Nat := bitsOf v 12 8
def qMKS (v : Nat) : Nat := bitsOf v 17 13
def qRWS (v : Nat) : Nat := bitsOf v 22 18
def qRLS (v : Nat) : Nat := bitsOf v 27 23
def qTOK (v : Nat) : Bool := bitOf v 28

/-- The current plane of the flag logic array. -/
def State.flaPlane (s : State) (i : Nat) : Nat := s.f (ISL_PLANE_AUX.FLA i)

/-- The flag logic array's settings in a plane (frame 6p + 1). -/
def State.flw (s : State) (i p : Nat) : Nat := s.fbits i (6 * p + 1) 900 4
def State.even (s : State) (i p : Nat) : Nat := s.fbits i (6 * p + 1) 904 8
def State.ffen (s : State) (i p : Nat) : Bool := s.fbits i (6 * p + 1) 912 1 == 1
def State.sben (s : State) (i p : Nat) : Nat := s.fbits i (6 * p + 1) 913 4

/-- Token detector `d`: unit and type (R78). -/
def State.tokDet (s : State) (i d p : Nat) : Nat × Nat :=
  let v := s.fbits i (6 * p + 1) (917 + 8 * d) 8
  (v % 16, v / 16)

/-- Literal slot `j` of product term `k` (R364). -/
def State.litSlot (s : State) (i k j p : Nat) : Nat :=
  let bit := 48 * k + 8 * j
  s.fbits i (6 * p + 2 + bit / 1024) (bit % 1024) 8

/-- Macrocell `m` in a plane (R73). -/
def State.macro (s : State) (i m p : Nat) : Nat := s.fbits i (6 * p + 5) (34 * m) 34

end Sys2Proof.Machine
end

