-- ==== Sys2Proof/Machine/ArrayWord.lean ====
section
/-!
DEFINITION. Machine/ArrayWord.lean: the 36-bit array word and its tokens (R41, R42, R85).
-/
namespace Sys2Proof.Machine

def AWord.tk (w : AWord) : Bool := w.getLsbD 35
def AWord.st (w : AWord) : Bool := w.getLsbD 34
def AWord.tags (w : AWord) : BitVec 2 := w.extractLsb' 32 2
def AWord.data (w : AWord) : W32 := w.extractLsb' 0 32

/-- The type of a token, 0 for a data word (R42). -/
def AWord.type (w : AWord) : Nat := if AWord.tk w then (AWord.data w).toNat / 2 ^ 28 else 0

/-- Assemble an array word. -/
def AWord.mk (tk st : Bool) (tags : BitVec 2) (d : W32) : AWord :=
  BitVec.ofNat 36 (b2n tk * 2 ^ 35 + b2n st * 2 ^ 34 + tags.toNat * 2 ^ 32 + d.toNat)

def tokMOULT : Nat := 1
def tokBLOCK : Nat := 2
def tokMARK : Nat := 3
def tokEOS : Nat := 4
def tokABORT : Nat := 5
def tokSYNC : Nat := 6
def tokFAIL : Nat := 7

/-- A token with a payload and zero tags. -/
def mkTok (type payload : Nat) : AWord := AWord.mk true false 0 (BitVec.ofNat 32 (type * 2 ^ 28 + payload % 2 ^ 28))

/-- The target plane of a MOULT token (R85). -/
def AWord.plane (w : AWord) : Nat := (AWord.data w).toNat % 16

end Sys2Proof.Machine
end

