-- ==== Sys2Proof/Machine/Collector.lean ====
section
/-!
DEFINITION. Machine/Collector.lean: the fail collector of an island (R324 to R330): records, marks, and what it does at a firing of its compare
unit.
-/
namespace Sys2Proof.Machine

/-- Change an island's collector. -/
def State.onColl (s : State) (i : Nat) (g : Collector → Collector) : State := s.onIsl i (fun x => { x with coll := g x.coll })

/-- The collector of an island. -/
def State.coll (s : State) (i : Nat) : Collector := (s.getIsl i).coll

/-- The lower of two first-bad cycles. -/
def minOpt : Option Nat → Option Nat → Option Nat
  | none, b => b
  | a, none => a
  | some a, some b => some (min a b)

/-- The newer of two marks takes the flags of both and the lower first-bad cycle (R328). -/
def FailItem.merge (old new : FailItem) : FailItem :=
  { new with kind := (if old.kind = .finish ∨ new.kind = .finish then .finish else .progress), lost := old.lost || new.lost,
             susp := old.susp || new.susp, rebase := old.rebase || new.rebase, bad := minOpt old.bad new.bad }

/-- A mark in the holding register enters the FIFO once it has room (R328). -/
def Collector.drain (c : Collector) : Collector :=
  match c.hold with
  | some m => if c.fifo.length < 16 then { c with fifo := c.fifo ++ [m], hold := none } else c
  | none => c

/-- Send a mark: it enters the FIFO, or waits in the holding register, merged with a mark that waits there (R328). -/
def Collector.send (c : Collector) (m : FailItem) : Collector :=
  let c := c.drain
  match c.hold with
  | some old => { c with hold := some (old.merge m) }
  | none => if c.fifo.length < 16 then { c with fifo := c.fifo ++ [m] } else { c with hold := some m }

/-- The collector sends a mark for cycle `cyc` with the flags that no mark covers yet (R326, R328, R329). -/
def collMark (i : Nat) (kind : ItemKind) (rebase : Bool) (cyc : Nat) (s : State) : State :=
  let site := s.f (ISL_FCAP_CFG.SITE i)
  s.onColl i (fun c =>
    let m : FailItem := { kind := kind, lost := c.lost, susp := c.susp, rebase := rebase, site := site, unit := 0, row := 0, col := 0,
                          mask := 0, cyc := cyc, bad := c.bad }
    { c.send m with lost := false, susp := false, bad := none, covered := true })

/-- A word leaves the compare unit: BLOCK sends a progress mark and EOS an end mark (R328). -/
def collLeaves (i u : Nat) (w : AWord) (s : State) : State :=
  if s.on (ISL_FCAP_CFG.FEN i) ∧ s.f (ISL_FCAP_CFG.FSU i) = u then
    if w.type = tokBLOCK then collMark i .progress false (s.coll i).lastCyc s
    else if w.type = tokEOS then collMark i .finish false (s.coll i).lastCyc s
    else s
  else s

/-- The first lost or suspect vector is recorded, for the next mark and in the register (R326, R328, R329). -/
def collBad (i kind cyc : Nat) (s : State) : State :=
  let s := s.onColl i (fun c => { c with bad := some (c.bad.getD cyc) })
  if s.on (ISL_FCAP_BAD.VALID i) then s else s.wr (ISL_FCAP_BAD i) (BitVec.ofNat 64 (2 ^ 63 + kind * 2 ^ 62 + cyc))

/-- Row and column of a record: FA split at `CBITS`, at most 16 (R325). -/
def State.failPlace (s : State) (i : Nat) (fa : Option AWord) : Nat × Nat :=
  match fa with
  | none => (0, 0)
  | some w =>
    let cb := min (s.f (ISL_FCAP_CFG.CBITS i)) 16
    ((AWord.data w).toNat / 2 ^ cb % 2 ^ 20, (AWord.data w).toNat % 2 ^ cb)

/-- What the collector does at a firing of its compare unit with the firing's result, status and source words: the vector cycle, a record or
its loss, and the progress mark after 2^(PROG + 6) firings (R324 to R329).  The result is the FAIL token of R327, if any. -/
def collFire (i : Nat) (val : W32) (st : Bool) (fa fx : Option AWord) (s : State) : Option AWord × State :=
  let cyc := s.f (ISL_FCAP_CYC.CYC i)
  let s := s.setF (ISL_FCAP_CYC.CYC i) ((cyc + 1) % 2 ^ 40)
  let s := s.onColl i (fun c => { c.drain with covered := false, lastCyc := cyc, fired := c.fired + 1, idle := 0 })
  let (tok, s) :=
    if st then
      (none, collBad i 1 cyc (((s.bump (ISL_FCAP_STAT.STCNT i)).setF (ISL_FCAP_STAT.SUSP i) 1).onColl i (fun c => { c with susp := true })))
    else if val = 0 then (none, s)
    else if 16 ≤ (s.coll i).fifo.length then
      (none, collBad i 0 cyc (((s.bump (ISL_FCAP_STAT.LOSTCNT i)).setF (ISL_FCAP_STAT.LOSTS i) 1).onColl i (fun c => { c with lost := true })))
    else
      let (row, col) := s.failPlace i fa
      let site := match fx with
        | some w => bitsOf (AWord.data w).toNat 29 24
        | none => s.f (ISL_FCAP_CFG.SITE i)
      let unit := match fx with
        | some w => bitsOf (AWord.data w).toNat 13 0
        | none => s.f (ISL_FCAP_CFG.RU i)
      let r : FailItem := { kind := .record, lost := false, susp := false, rebase := false, site := site, unit := unit, row := row, col := col,
                            mask := val, cyc := cyc, bad := none }
      ((if s.on (ISL_FCAP_CFG.FTOK i) then some (mkTok tokFAIL cyc) else none), s.onColl i (fun c => { c with fifo := c.fifo ++ [r] }))
  let s := if 2 ^ (s.f (ISL_FCAP_CFG.PROG i) + 6) ≤ (s.coll i).fired then collMark i .progress false cyc (s.onColl i (fun c => { c with fired := 0 })) else s
  (tok, s)

/-- `FAIL_MARK_IDLE_TIMEOUT` (R328): 256 island cycles pass without a firing after a firing that no mark covers. -/
def execFailMarkIdleTimeout (i : Fin 156) (s : State) : Host.Outcome State Fault Refusal :=
  if s.islRuns i ∧ s.on (ISL_FCAP_CFG.FEN i) ∧ (s.coll i).covered = false ∧ 256 ≤ (s.coll i).idle then .next (collMark i .progress false (s.coll i).lastCyc s)
  else .next s

/-- The effect of a write of `ISL_FCAP_CYC` (R330). -/
def cycleRebase (i v : Nat) (s : State) : State :=
  let cyc := v % 2 ^ 40
  let s := s.wr (ISL_FCAP_CYC i) (BitVec.ofNat 64 cyc)
  let s := s.onColl i (fun c => { c with lastCyc := (cyc + 2 ^ 40 - 1) % 2 ^ 40 })
  collMark i .progress true ((cyc + 2 ^ 40 - 1) % 2 ^ 40) s

end Sys2Proof.Machine
end

