-- ==== Sys2Proof/Machine/Array.lean ====
section
/-!
DEFINITION. Machine/Array.lean: the paths of the array: which segment leads where (R112 to R117), who consumes a word (R48, R116), how an
element changes plane (R93 to R97, R110), the lane groups of a row end (R161), and what one edge of an island's clock does to the flag
logic array (R71 to R78).
-/
namespace Sys2Proof.Machine

/-! ### Segments (R112 to R115) -/

inductive Dir where
  | e | w | s | n
deriving DecidableEq, Repr

/-- Direction, length and track of driven segment `k`, in the order of `SSEL` (R364). -/
def segInfo (k : Nat) : Dir × Nat × Nat :=
  if k < 16 then (.e, 1, k) else if k < 32 then (.w, 1, k - 16)
  else if k < 40 then (.e, 3, k - 32) else if k < 48 then (.w, 3, k - 40)
  else if k < 52 then (.e, 6, k - 48) else if k < 56 then (.w, 6, k - 52)
  else if k < 64 then (.s, 1, k - 56) else if k < 72 then (.n, 1, k - 64)
  else if k < 76 then (.s, 3, k - 72) else (.n, 3, k - 76)

/-- The `TSEL` code under which a segment arrives at its end island (R115). -/
def segCode (k : Nat) : Nat :=
  if k < 16 then k else if k < 32 then 0x20 + (k - 16)
  else if k < 40 then 0x10 + (k - 32) else if k < 48 then 0x30 + (k - 40)
  else if k < 52 then 0x18 + (k - 48) else if k < 56 then 0x38 + (k - 52)
  else if k < 64 then 0x40 + (k - 56) else if k < 72 then 0x50 + (k - 64)
  else if k < 76 then 0x48 + (k - 72) else 0x58 + (k - 76)

/-- Where a segment ends: at an island, at the ports beyond a row end, or nowhere (R113, R117). -/
inductive SegEnd where
  | isl (i : Nat)
  | port
  | none
deriving DecidableEq, Repr

/-- The end of driven segment `k` of island `i`. -/
def State.segEnd (s : State) (i k : Nat) : SegEnd :=
  let r := rowOf i
  let c := s.lcol i
  match segInfo k with
  | (.e, len, _) => if c + len ≤ 11 then .isl (s.phys r (c + len)) else if len = 1 then .port else .none
  | (.w, len, _) => if len ≤ c then .isl (s.phys r (c - len)) else if len = 1 then .port else .none
  | (.s, len, _) => if r + len ≤ 11 then .isl (s.phys (r + len) c) else .none
  | (.n, len, _) => if len ≤ r then .isl (s.phys (r - len) c) else .none

/-- Whether a partition fence stands between rows `r` and `r + 1` (R126). -/
def State.fenceBelow (s : State) (r : Nat) : Bool :=
  decide (11 ≤ r) || s.owner r == 15 || s.owner r != s.owner (r + 1)

/-- Whether driven segment `k` of island `i` crosses a partition fence (R126). -/
def State.segFenced (s : State) (i k : Nat) : Bool :=
  let r := rowOf i
  match segInfo k with
  | (.s, len, _) => (List.range len).any (fun j => s.fenceBelow (r + j))
  | (.n, len, _) => (List.range len).any (fun j => s.fenceBelow (r - len + j))
  | _ => false

/-- The islands whose joint a spine segment of track `t` flows into, going east (`d` = true) or west from logical column `c` of row `r`, with
`n` columns left: pass-through joints, and the first cutting joint unless it drives towards the segment (R118, R119). -/
def State.spineTaps (s : State) (r t : Nat) (d : Bool) : Nat → Nat → List Nat
  | _, 0 => []
  | c, n + 1 =>
    let i := s.phys r c
    match s.joint i t (s.boxPlane i (128 + t)) with
    | (_, false, false) => i :: State.spineTaps s r t d (if d then c + 1 else c - 1) n
    | (_, e, w) => if (if d then w else e) then [] else [i]

/-- Whether another joint drives against the segment that joint (i, t) would drive; one of an island in reset drives nothing (R121). -/
def State.spineOpposed (s : State) (i t : Nat) : Bool :=
  let r := rowOf i
  let c := s.lcol i
  let (_, e, w) := s.joint i t (s.boxPlane i (128 + t))
  let facing (d : Bool) (cols : List Nat) : Bool :=
    match cols.find? (fun c' => let j := s.phys r c'; let x := s.joint j t (s.boxPlane j (128 + t)); x.2.1 || x.2.2) with
    | some c' =>
      let j := s.phys r c'
      let x := s.joint j t (s.boxPlane j (128 + t))
      (if d then x.2.2 else x.2.1) && !((s.getIsl j).spWait.contains t) && !(s.getIsl j).inReset
    | none => false
  (e && facing true ((List.range (11 - c)).map (fun k => c + 1 + k))) ||
  (w && facing false ((List.range c).map (fun k => c - 1 - k)))

/-! ### Sources and consumers (R46, R48, R116) -/

/-- The word a source of the crossbar presents, coded as `SSEL` (R114). -/
def State.srcWord (s : State) (i code : Nat) : Option AWord :=
  if code < 16 then (s.getWu i code).out.head?
  else if code < 48 then (Map.getD (s.getIsl i).fifos (code - 16) []).head?
  else none

/-- Whether the M input of a unit takes from a queue in its current plane (R51). -/
def State.queueM (s : State) (i u : Nat) : Bool := mMode (s.operandWord i u (s.wuPlane i u)) == 3

/-- Whether the operation of a unit's current plane is PASS (0x01) with its operand from a queue: A is then unused (R55). -/
def State.passQueue (s : State) (i u : Nat) : Bool :=
  opc (s.opWord i u (s.wuPlane i u)) == 0x01 && s.queueM i u

/-- The source code of input A (0) or B (1) of a unit in its current plane. -/
def State.inSrc (s : State) (i u x : Nat) : Nat :=
  let w := s.operandWord i u (s.wuPlane i u)
  if x = 0 then (if s.passQueue i u then 0x3F else srcA w) else srcB w

/-- The consumers that select a source in their current planes: 2u and 2u + 1 the inputs A and B of unit u, 32 + k driven segment k,
112 + t the joint of spine track t, 116 + q the push port of queue q, 120 and 121 the fail collector's sources (R48, R116, R324). -/
def State.consumers (s : State) (i code : Nat) : List Nat :=
  ((List.range 32).filter (fun x => s.inSrc i (x / 2) (x % 2) == code)) ++
  (((List.range 80).filter (fun k => s.ssel i k (s.boxPlane i (16 + k)) == code && s.segEnd i k != .none)).map (fun k => 32 + k)) ++
  (((List.range 4).filter (fun t => let j := s.joint i t (s.boxPlane i (128 + t)); j.1 == code && (j.2.1 || j.2.2))).map (fun t => 112 + t)) ++
  (((List.range 4).filter (fun q => qPSRC (s.qcField i q (s.qcPlane i q)) == code)).map (fun q => 116 + q)) ++
  (if s.on (ISL_FCAP_CFG.FEN i) && s.f (ISL_FCAP_CFG.FASRC i) == code then [120] else []) ++
  (if s.on (ISL_FCAP_CFG.FEN i) && s.f (ISL_FCAP_CFG.FXSRC i) == code && s.f (ISL_FCAP_CFG.FASRC i) != code then [121] else [])

/-- The consumers that have taken the word a source presents. -/
def State.takenOf (s : State) (i code : Nat) : List Nat :=
  if code < 16 then (s.getWu i code).taken else Map.getD (s.getIsl i).fifoTaken (code - 16) []

/-- The word a source presents to one consumer: nothing once that consumer has taken it. -/
def State.offered (s : State) (i code cid : Nat) : Option AWord :=
  if s.islRuns i && !(s.takenOf i code).contains cid then s.srcWord i code else none

/-- A token detector sees a unit place a token in its output register (R78). -/
def noteToken (i u : Nat) (w : AWord) (s : State) : State :=
  if AWord.tk w then
    let p := s.flaPlane i
    let hit := (List.range 4).foldl (fun a d =>
      let (un, ty) := s.tokDet i d p
      a + (if un = u ∧ (ty = 0 ∨ ty = w.type) then 2 ^ d else 0)) 0
    s.onIsl i (fun x => { x with tdNext := x.tdNext ||| BitVec.ofNat 4 hit })
  else s

/-- Remove the word at a source; the word behind it now stands in the output register (R78), and a word that leaves the compare unit is seen by the fail
collector (R328). -/
def State.popSrc (s : State) (i code : Nat) : State :=
  if code < 16 then
    let out := (s.getWu i code).out
    let s := s.onWu i code (fun w => { w with out := out.tail, taken := [] })
    let s := match out.tail with
      | v :: _ => noteToken i code v s
      | [] => s
    match out with
    | v :: _ => collLeaves i code v s
    | [] => s
  else s.onIsl i (fun x => { x with fifos := Map.set x.fifos (code - 16) (Map.getD x.fifos (code - 16) []).tail,
                                    fifoTaken := Map.set x.fifoTaken (code - 16) [] })

/-- A consumer takes the word at a source; the word leaves when every consumer has taken it (R48, R116). -/
def State.takeSrc (s : State) (i code cid : Nat) : State :=
  let tk := cid :: s.takenOf i code
  if (s.consumers i code).all tk.contains then s.popSrc i code
  else if code < 16 then s.onWu i code (fun w => { w with taken := tk })
  else s.onIsl i (fun x => { x with fifoTaken := Map.set x.fifoTaken (code - 16) tk })

/-- The entries of input A (0) or B (1) of a word unit. -/
def Wu.entries (w : Wu) (x : Nat) : List AWord := if x = 0 then w.a else w.b

/-- Replace the entries of input A or B. -/
def Wu.setEntries (w : Wu) (x : Nat) (l : List AWord) : Wu := if x = 0 then { w with a := l } else { w with b := l }

/-- One input of a word unit takes a word into its two entries of buffering when a source offers one and there is room (R47); a unit that
discards up to an ABORT token drops the data it meets with nothing ahead of them (R53, R92). -/
def intakeOne (i u x : Nat) (s : State) : State :=
  let w := s.getWu i u
  let code := s.inSrc i u x
  if (w.entries x).length < 2 ∧ code < 48 then
    match s.offered i code (2 * u + x) with
    | none => s
    | some v =>
      let s := s.takeSrc i code (2 * u + x)
      if w.disc.contains x ∧ w.entries x = [] then
        if v.type = tokABORT then s.onWu i u (fun w => { w with disc := w.disc.erase x })
        else if AWord.tk v then s.onWu i u (fun w => w.setEntries x (w.entries x ++ [v]))
        else s
      else s.onWu i u (fun w => w.setEntries x (w.entries x ++ [v]))
  else s

/-- The fail collector discards a token at the head of one of its sources (R324). -/
def collDiscard (i cid src : Nat) (s : State) : State :=
  if s.on (ISL_FCAP_CFG.FEN i) ∧ src < 48 then
    match s.offered i src cid with
    | some w => if AWord.tk w then s.takeSrc i src cid else s
    | none => s
  else s

/-- The fail collector takes the result words of a compare unit that no other consumer selects (R324). -/
def collTakes (i : Nat) (s : State) : State :=
  let u := s.f (ISL_FCAP_CFG.FSU i)
  if s.on (ISL_FCAP_CFG.FEN i) ∧ s.islRuns i ∧ s.consumers i u = [] then
    (s.getWu i u).out.foldl (fun s _ => s.popSrc i u) s
  else s

/-- The inputs whose entries have room: 2u for A of unit u and 2u + 1 for B. -/
def State.wanting (s : State) (i : Nat) : List Nat :=
  (List.range 32).filter (fun x => decide (s.inSrc i (x / 2) (x % 2) < 48))

/-- Words whose consumers have all taken them leave: those that a change of plane left without a consumer yet to take them (R104, R116). -/
def retireWords (i : Nat) (s : State) : State :=
  if s.islRuns i then
    let x := s.getIsl i
    let codes := (x.wus.filter (fun e => !e.2.taken.isEmpty)).map (·.1) ++ (x.fifoTaken.filter (fun e => !e.2.isEmpty)).map (fun e => 16 + e.1)
    codes.foldl (fun s c => if s.consumers i c ≠ [] ∧ (s.consumers i c).all (s.takenOf i c).contains then s.popSrc i c else s) s
  else s

/-- Every input of an island takes what its entries have room for; two rounds fill both entries (R47).  The fail collector takes and
discards what R324 gives it. -/
def settle (i : Nat) (s : State) : State :=
  let s := retireWords i s
  let xs := s.wanting i
  let s := (xs ++ xs).foldl (fun s x => intakeOne i (x / 2) (x % 2) s) s
  let s := collDiscard i 120 (s.f (ISL_FCAP_CFG.FASRC i)) s
  let s := if s.f (ISL_FCAP_CFG.FXSRC i) = s.f (ISL_FCAP_CFG.FASRC i) then s else collDiscard i 121 (s.f (ISL_FCAP_CFG.FXSRC i)) s
  collTakes i s

/-- The source that a segment or joint of the box selects in its current plane. -/
def State.boxCode (s : State) (i e : Nat) : Nat := if e < 96 then s.ssel i (e - 16) (s.boxPlane i e) else (s.joint i (e - 128) (s.boxPlane i e)).1

/-- The number under which a segment or joint of the box consumes its source. -/
def boxCid (e : Nat) : Nat := if e < 96 then e + 16 else e - 16

/-- The word a segment or joint of the box carries: one that it took from an earlier source and that has still to reach a termination, else what its selection in its
current plane offers (R113, R114, R116). -/
def State.boxWord (s : State) (i e : Nat) : Option AWord :=
  match Map.find (s.getIsl i).boxHold e with
  | some h => if s.islRuns i then some h.1 else none
  | none => if s.boxCode i e < 48 then s.offered i (s.boxCode i e) (boxCid e) else none

/-- The word driven segment `k` of island `i` carries. -/
def State.segWord (s : State) (i k : Nat) : Option AWord := s.boxWord i (16 + k)

/-- The terminations of an island that select an arriving segment by its `TSEL` code in their current planes (R115). -/
def State.termsOf (s : State) (i code : Nat) : List Nat := (List.range 32).filter (fun t => s.tsel i t (s.boxPlane i (96 + t)) == code)

/-- The number of words in a termination FIFO. -/
def State.fifoLen (s : State) (i t : Nat) : Nat := (Map.getD (s.getIsl i).fifos t []).length

/-- The terminations that tap the spine segment a joint drives to the east (`d` = true) or to the west, each coded as `32 * island + t` (R119). -/
def State.spineTargets (s : State) (i t : Nat) (d : Bool) : List Nat :=
  let c := s.lcol i
  (if d then s.spineTaps (rowOf i) t true (c + 1) (11 - c) else s.spineTaps (rowOf i) t false (c - 1) c).flatMap
    (fun x => (s.termsOf x (0x60 + t)).map (fun n => 32 * x + n))

/-- The segments that box element `e` drives, a driven segment or those of a joint: the terminations that select each, and whether a termination lies on it. -/
def State.sidesOf (s : State) (i e : Nat) : List (List Nat × (Nat → Bool)) :=
  if e < 96 then
    match s.segEnd i (e - 16) with
    | .isl j => [((s.termsOf j (segCode (e - 16))).map (fun t => 32 * j + t), fun _ => true)]
    | _ => []
  else
    let j := s.joint i (e - 128) (s.boxPlane i e)
    (if j.2.1 then [(s.spineTargets i (e - 128) true, fun x => decide (s.lcol i < s.lcol (x / 32)))] else []) ++
    (if j.2.2 then [(s.spineTargets i (e - 128) false, fun x => decide (s.lcol (x / 32) < s.lcol i))] else [])

/-- The terminations that box element `e` leads to. -/
def State.targetsOf (s : State) (i e : Nat) : List Nat := (s.sidesOf i e).flatMap (·.1)

/-- Whether a word that box element `e` presents may leave, once the terminations in `tk` have taken it: on each segment the element drives all that select it have,
and some have, because a segment that no termination selects does not complete its handshake (R116, R118). -/
def State.passageDone (s : State) (i e : Nat) (tk : List Nat) : Bool :=
  !(s.sidesOf i e).isEmpty && (s.sidesOf i e).all (fun d => d.1.all tk.contains && (!d.1.isEmpty || tk.any d.2))

/-- The `TSEL` code under which a termination selects box element `e`. -/
def boxTap (e : Nat) : Nat := if e < 96 then segCode (e - 16) else 0x60 + (e - 128)

/-- What box element `e` presents: its word, and the terminations that have yet to take it. -/
def State.presents (s : State) (i e : Nat) : Option (AWord × List Nat) :=
  match s.boxWord i e, Map.find (s.getIsl i).boxHold e with
  | some w, some h => some (w, h.2.filter (fun x => s.tsel (x / 32) (x % 32) (s.boxPlane (x / 32) (96 + x % 32)) == boxTap e))
  | some w, none => some (w, (s.targetsOf i e).filter (fun x => !(Map.getD (s.getIsl i).segTaken e []).contains x))
  | none, _ => none

/-! ### Planes (R82 to R97) -/

/-- The current plane of an element: 0 to 15 word units, 16 to 131 the switch box, 132 the flag logic array, 133 to 136 queue controllers. -/
def State.elemPlane (s : State) (i e : Nat) : Nat :=
  if e < 16 then s.wuPlane i e
  else if e < 132 then s.boxPlane i e
  else if e = 132 then s.flaPlane i
  else s.qcPlane i (e - 133)

/-- Whether a plane of an island is locked by a live load (R110). -/
def State.locked (s : State) (i p : Nat) : Bool := bitOf (s.f (ISL_PLANE_USE.LOCK i)) p

/-- The operation codes of the table of R55. -/
def opAssigned (c : Nat) : Bool :=
  decide (c ≤ 0x0C) || (decide (0x10 ≤ c) && decide (c ≤ 0x17)) || [0x20, 0x21, 0x22].contains c ||
  (decide (0x24 ≤ c) && decide (c ≤ 0x27)) || (decide (0x30 ≤ c) && decide (c ≤ 0x37)) ||
  (decide (0x40 ≤ c) && decide (c ≤ 0x43)) || (decide (0x48 ≤ c) && decide (c ≤ 0x50)) || [0x58, 0x5C, 0x5D, 0x60].contains c

/-- Set `BADOP` of a unit whose current plane holds an unassigned code (R55). -/
def checkOp (i u : Nat) (s : State) : State :=
  if opAssigned (opc (s.opWord i u (s.wuPlane i u))) then s else s.orF (ISL_WU_STAT2.BADOP i) (2 ^ u)

/-- Whether a termination's selection names a segment that arrives at the island, or none (R115). -/
def State.tselOk (s : State) (i v : Nat) : Bool :=
  let r := rowOf i
  let c := s.lcol i
  if v = 0x7F then true
  else if v < 0x10 then true
  else if v < 0x18 then decide (3 ≤ c)
  else if v < 0x1C then decide (6 ≤ c)
  else if v < 0x20 then false
  else if v < 0x30 then true
  else if v < 0x38 then decide (c + 3 ≤ 11)
  else if v < 0x3C then decide (c + 6 ≤ 11)
  else if v < 0x40 then false
  else if v < 0x48 then decide (1 ≤ r)
  else if v < 0x4C then decide (3 ≤ r)
  else if v < 0x50 then false
  else if v < 0x58 then decide (r + 1 ≤ 11)
  else if v < 0x5C then decide (r + 3 ≤ 11)
  else if v < 0x60 then false
  else decide (v < 0x64)

/-- Set `BADSEL` when the selection of a box element's current plane is reserved or names what does not exist (R114, R115). -/
def checkSel (i e : Nat) (s : State) : State :=
  let p := s.boxPlane i e
  let bad :=
    if e < 96 then
      let v := s.ssel i (e - 16) p
      (decide (0x30 ≤ v) && decide (v < 0x3F)) || (v != 0x3F && s.segEnd i (e - 16) == .none)
    else if e < 128 then !s.tselOk i (s.tsel i (e - 96) p)
    else
      let v := (s.joint i (e - 128) p).1
      decide (0x30 ≤ v) && decide (v < 0x3F)
  if bad then s.setF (ISL_RT_STAT.BADSEL i) 1 else s

/-- `SBMIX` follows the planes of the segments and terminations (R95). -/
def updateMix (i : Nat) (s : State) : State :=
  let p := s.boxPlane i 16
  s.setF (ISL_PLANE_AUX.SBMIX i) (b2n (!((List.range 112).all (fun e => s.boxPlane i (16 + e) == p))))

/-- A joint whose new plane drives against another joint waits (R121). -/
def updateJoint (i t : Nat) (s : State) : State :=
  if s.spineOpposed i t then
    ((s.onIsl i (fun x => { x with spWait := if x.spWait.contains t then x.spWait else t :: x.spWait })).setF (ISL_RT_STAT.SPWAIT i) 1).setF
      (ISL_RT_STAT.SPWAITL i) 1
  else
    let s := s.onIsl i (fun x => { x with spWait := x.spWait.erase t })
    s.setF (ISL_RT_STAT.SPWAITL i) (b2n (!(s.getIsl i).spWait.isEmpty))

/-- The joints of an island that drive against another joint, because one that stood between them no longer cuts the track, wait from this edge on (R121). -/
def waitFacing (i : Nat) (s : State) : State :=
  (List.range 4).foldl (fun s t => if !(s.getIsl i).spWait.contains t && s.spineOpposed i t then updateJoint i t s else s) s

/-- When the selection of a segment or joint changes while terminations have taken the word it presents and others have not, the word leaves its source and stays on the
element for those others, which take it before the new source's words: each takes it once (R104, R116; DESIGN CHOICE, log entry 53). -/
def endPassage (i e : Nat) (s : State) : State :=
  match Map.find (s.getIsl i).boxHold e, Map.find (s.getIsl i).segTaken e with
  | none, some tk =>
    let code := s.boxCode i e
    let held := if tk.isEmpty ∨ 48 ≤ code then none else s.srcWord i code
    let rest := (s.targetsOf i e).filter (fun x => !tk.contains x)
    let s := s.onIsl i (fun x => { x with segTaken := Map.del x.segTaken e })
    match held with
    | some w => s.takeSrc i code (boxCid e) |>.onIsl i (fun x => { x with boxHold := Map.set x.boxHold e (w, rest) })
    | none => s
  | _, _ => s

/-- Put an element of the box at a plane: its frame word then selects its source (R93 to R95, R121). -/
def setBox (i e p : Nat) (s : State) : State :=
  let old := s.boxPlane i e
  let s := s.onIsl i (fun x => { x with boxPend := Map.del x.boxPend e, fencePend := x.fencePend.erase e })
  let same :=
    if e < 96 then s.ssel i (e - 16) old == s.ssel i (e - 16) p
    else e < 128 || s.joint i (e - 128) old == s.joint i (e - 128) p
  let s := if same then s else endPassage i e s
  let s := checkSel i e (s.onIsl i (fun x => { x with box := Map.set x.box e p }))
  if e < 128 then updateMix i s else updateJoint i (e - 128) s

/-- Put an element at a plane.  A word unit that really changes plane restarts its sequential M counter (R51). -/
def setPlane (i e p : Nat) (s : State) : State :=
  if e < 16 then
    let s := s.onIsl i (fun x => { x with boxPend := Map.del x.boxPend e, fencePend := x.fencePend.erase e })
    if s.wuPlane i e = p then s
    else checkOp i e ((s.setF ((⟨ISL_PLANE_CUR i, 63, 0⟩ : RF).elem 4 e) p).onWu i e (fun w => { w with seqM := 0, seqPre := none }))
  else if e < 132 then setBox i e p s
  else if e = 132 then (s.setF (ISL_PLANE_AUX.FLA i) p).onIsl i (fun x => { x with boxPend := Map.del x.boxPend e, fencePend := x.fencePend.erase e })
  else
    let s := (s.setF ((⟨ISL_PLANE_AUX i, 27, 12⟩ : RF).elem 4 (e - 133)) p).onIsl i (fun x => { x with boxPend := Map.del x.boxPend e, fencePend := x.fencePend.erase e })
    if qPSRC (s.qcField i (e - 133) p) < 0x31 ∨ qPSRC (s.qcField i (e - 133) p) = 0x3F then s
    else s.setF (ISL_QSTAT.QBAD i (e - 133)) 1

/-- Put an element at a plane, or make it wait for the plane's lock (R108, R110); `fence` tells that the switch is that of the armed broadcast. -/
def requestPlane (i e p : Nat) (s : State) (fence : Bool := false) : State :=
  if s.locked i p then
    s.onIsl i (fun x => { x with boxPend := Map.set x.boxPend e p, fencePend := if fence then e :: x.fencePend.erase e else x.fencePend.erase e })
  else setPlane i e p s

/-- The elements that switch with word unit `u`: the flag logic array by `FLW`, queue controllers by `QFLW` (R96, R97). -/
def State.followers (s : State) (i u : Nat) : List Nat :=
  (if s.flw i (s.flaPlane i) = u then [132] else []) ++
  (((List.range 4).filter (fun q => qFLW (s.qcField i q (s.qcPlane i q)) == u)).map (fun q => 133 + q))

/-- Word unit `u` and its followers switch to a plane; the followers take it also where the unit stands on it already (R96, R97; DESIGN CHOICE, log entry 53). -/
def switchUnit (i u p : Nat) (s : State) : State :=
  (s.followers i u).foldl (fun s e => requestPlane i e p s) (setPlane i u p s)

/-- Word unit `u` and its followers switch to a plane under the fence, or wait for the plane's lock (R106, R108). -/
def requestUnit (i u p : Nat) (s : State) : State :=
  (s.followers i u).foldl (fun s e => requestPlane i e p s true) (requestPlane i u p s true)

/-- Whether an element of the box is idle in its current plane: disabled, without a selection, or with one that behaves as none, because it is reserved or names
what does not exist (R94, R114, R115). -/
def State.boxIdle (s : State) (i e : Nat) : Bool :=
  let p := s.boxPlane i e
  if e < 96 then decide (0x30 ≤ s.ssel i (e - 16) p) || s.segEnd i (e - 16) == .none
  else if e < 128 then s.tsel i (e - 96) p == 0x7F || !s.tselOk i (s.tsel i (e - 96) p)
  else
    let j := s.joint i (e - 128) p
    decide (0x30 ≤ j.1) || (!j.2.1 && !j.2.2)

/-- An element of an armed island has switched under the fence; `ARMED` clears with the last one (R106). -/
def fenceDone (i e : Nat) (s : State) : State :=
  let s := s.onIsl i (fun x => { x with unsw := x.unsw.erase e })
  if (s.getIsl i).unsw.isEmpty then (s.setF (ISL_PLANE_AUX.ARMED i) 0).setF (ISL_PLANE_AUX.ATGT i) 0 else s

/-- An element switches under the fence of an armed island to the armed target, or waits for its lock (R106, R108). -/
def fenceSwitch (i e : Nat) (s : State) : State :=
  let p := s.f (ISL_PLANE_AUX.ATGT i)
  let s := if e < 16 then requestUnit i e p s else requestPlane i e p s true
  if s.locked i p then s else fenceDone i e s

/-- A token passes element `e` of an island's switch box: a MOULT token switches it, and idle elements follow at the next edge (R93, R94); in
an armed island a SYNC token switches it to the armed target (R106). -/
def passBox (i e : Nat) (w : AWord) (s : State) : State :=
  if w.type = tokMOULT then
    let p := AWord.plane w
    let s := (requestPlane i e p s).setF (ISL_PLANE_AUX.SBLAST i) p
    s.onIsl i (fun x => { x with follow := x.follow ++ [(p, false)] })
  else if w.type = tokSYNC ∧ s.on (ISL_PLANE_AUX.ARMED i) ∧ (s.getIsl i).unsw.contains e then
    let p := s.f (ISL_PLANE_AUX.ATGT i)
    (fenceSwitch i e s).onIsl i (fun x => { x with follow := x.follow ++ [(p, true)] })
  else s

/-- Idle elements of the box take the plane of the most recent MOULT token at the edge after it passed (R94); behind a SYNC token that was the fence they take the armed
target, which is their fence (R106). -/
def followIdle (i : Nat) (s : State) : State :=
  (s.getIsl i).follow.foldl (fun s f =>
    ((List.range 116).filter (fun e => s.boxIdle i (16 + e))).foldl
      (fun s e =>
        let s := requestPlane i (16 + e) f.1 s f.2
        if f.2 ∧ (s.getIsl i).unsw.contains (16 + e) ∧ s.locked i f.1 = false then fenceDone i (16 + e) s else s) s)
    (s.onIsl i (fun x => { x with follow := [] }))

/-! ### The way into the termination FIFOs (R113 to R123) -/

/-- Whether a termination FIFO takes words: its island is out of reset and not held by a capture; a halted clock alone does not keep it from filling (R19, R32, R123,
R467). -/
def State.fifoOpen (s : State) (i : Nat) : Bool := s.inService i && !(s.getIsl i).inReset && !(s.getIsl i).frozen

/-- Whether a full termination FIFO refuses the word that box element `e` presents (R123); a joint that waits for an opposing driver presents none (R121). -/
def State.refused (s : State) (i e : Nat) : Bool :=
  (decide (e < 96) || !(s.getIsl i).spWait.contains (e - 128)) &&
  (match s.presents i e with
   | some (_, rest) => rest.any (fun x => s.fifoOpen (x / 32) && decide (6 ≤ s.fifoLen (x / 32) (x % 32)))
   | none => false)

/-- A cycle of an island with a refusal counts once (R132). -/
def countRefusal (i : Nat) (s : State) : State :=
  if (s.getIsl i).xref then s else (s.bump (ISL_RT_CNT.XFULL i)).onIsl i (fun x => { x with xref := true })

/-- A new cycle of an island: it counts if a word that waits on the way out of it is refused again (R132). -/
def recountRefusal (i : Nat) (s : State) : State :=
  let s := if (s.getIsl i).xref then s.onIsl i (fun x => { x with xref := false }) else s
  if ((s.getIsl i).segTaken.map (·.1) ++ (s.getIsl i).boxHold.map (·.1)).any (fun e => decide (e < 132) && s.refused i e) then countRefusal i s else s

/-- The effect of `ISL_RT_CTL.CLRCNT` (R132): a refusal of the present cycle is counted after the clear. -/
def clearRouteCounts (i : Nat) (s : State) : State := s.wr (ISL_RT_CNT i) (BitVec.ofNat 64 (b2n (s.getIsl i).xref))

/-! ### Lane groups and tracks of a row end (R161, R163) -/

/-- The size a code of R183 names. -/
def sizeCode (c : Nat) : Nat := 2 ^ (c % 4)

/-- Lane number of position `k` at the west (`e` = 0) or east (`e` = 1) end of a row (R39). -/
def laneAt (r e k : Nat) : Nat := r * 16 + e * 8 + k

/-- The groups of a row end from position 0 upward: first position, g, n, and whether the first lane's position suits its g (R161). -/
def State.groupsFrom (s : State) (r e : Nat) : Nat → Nat → List (Nat × Nat × Nat × Bool)
  | _, 0 => []
  | k, fuel + 1 =>
    if 8 ≤ k then []
    else
      let l := laneAt r e k
      let g := sizeCode (s.f (LANE_BOND.G l))
      let n := min (sizeCode (s.f (LANE_BOND.N l))) g
      if k % g = 0 then (k, g, n, true) :: State.groupsFrom s r e (k + g) fuel
      else (k, 1, 1, false) :: State.groupsFrom s r e (k + 1) fuel

/-- The group a lane belongs to: first lane, g, n, and whether it can train (R161). -/
def State.groupOf (s : State) (l : Nat) : Nat × Nat × Nat × Bool :=
  let r := l / 16
  let e := l % 16 / 8
  let k := l % 8
  match (s.groupsFrom r e 0 8).find? (fun x => decide (x.1 ≤ k) && decide (k < x.1 + x.2.1)) with
  | some (f, g, n, ok) =>
    let span := decide (g = 8) && (s.rd (LQ_CFG (laneAt r e 0 / 4)) != s.rd (LQ_CFG (laneAt r e 4 / 4)))
    (laneAt r e f, g, n, ok && !span)
  | none => (l, 1, 1, true)

/-- The state of a lane. -/
def State.getLane (s : State) (l : Nat) : Lane := Map.getD s.lanes l Lane.off

/-- Store the state of a lane. -/
def State.setLane (s : State) (l : Nat) (x : Lane) : State := { s with lanes := Map.set s.lanes l x }

/-- Change a lane. -/
def State.onLane (s : State) (l : Nat) (g : Lane → Lane) : State := s.setLane l (g (s.getLane l))

/-- The state of stream `k` of memory stream port `p`. -/
def State.getMsp (s : State) (p k : Nat) : Msp := Map.getD s.msps (p * 16 + k) Msp.idle

/-- Store the state of a stream. -/
def State.setMsp (s : State) (p k : Nat) (x : Msp) : State := { s with msps := Map.set s.msps (p * 16 + k) x }

/-- The first stream of a stream's group, and g (R293). -/
def State.mspGroup (s : State) (p k : Nat) : Nat × Nat :=
  let base := k / 8 * 8
  let pos := k % 8
  match [8, 4, 2].find? (fun g => decide (sizeCode (s.f (MSP_CFG.G p (base + pos / g * g))) = g)) with
  | some g => (base + pos / g * g, g)
  | none => (k, 1)

/-- The word a dealt stream offers to track `j` of a group of `g` (R163). -/
def StreamBuf.offer (b : StreamBuf) (g j : Nat) : Option AWord :=
  match b.items with
  | [] => none
  | x :: _ =>
    if x.mask ≠ 0 then (if bitOf x.mask j && !b.took.contains j then some x.w else none)
    else if AWord.tk x.w then (if b.took.contains j then none else some x.w)
    else if b.deal % g = j then some x.w else none

/-- Track `j` takes the word offered to it; the result says whether the item's block has left (R163, R166). -/
def StreamBuf.take (b : StreamBuf) (g j : Nat) : StreamBuf × Bool :=
  match b.items with
  | [] => (b, false)
  | x :: rest =>
    if x.mask ≠ 0 ∨ AWord.tk x.w then
      let need := if x.mask ≠ 0 then onesOf 8 x.mask else List.range g
      let took := j :: b.took
      if need.all took.contains then
        ({ items := rest, deal := if need.length = g then 0 else b.deal, took := [] }, x.ends)
      else ({ b with took := took }, false)
    else ({ items := rest, deal := b.deal + 1, took := [] }, x.ends)

/-- Whether the intake of a partition is held (R105). -/
def State.intakeHeld (s : State) (n : Nat) : Bool :=
  match s.primary n with
  | some q => s.on (SEQ_PFLAG.INHOLD q)
  | none => false

/-- Row end of a lane: the island at logical column 0 or 11 (R40). -/
def State.endIsl (s : State) (r e : Nat) : Nat := s.phys r (if e = 0 then 0 else 11)

/-- The segment of the end island that leads to transmit position `k` (lanes, `k` < 8) or write stream `k` (8 to 15) of a row end (R117). -/
def portSeg (e k : Nat) : Nat := if e = 0 then 16 + k else k

/-- The word at the head of transmit track `k` of a row end (R117). -/
def State.trackWord (s : State) (r e k : Nat) : Option AWord := s.segWord (s.endIsl r e) (portSeg e k)

/-- The port takes the word at the head of a transmit track. -/
def takeTrack (r e k : Nat) (s : State) : State :=
  let i := s.endIsl r e
  let g := portSeg e k
  match s.segWord i g with
  | none => s
  | some w =>
    let code := s.ssel i g (s.boxPlane i (16 + g))
    settle i (passBox i (16 + g) w (s.takeSrc i code (32 + g)))

/-! ### The flag logic array (R71 to R78) -/

/-- The partition fail flag: the OR of the fail drive of every island of the partition (R207). -/
def State.pf0 (s : State) (n : Nat) : Bool := s.isl.any (fun x => x.2.ffDrive && s.islPart x.1 == n)

/-- Inputs `LS0` to `LS3` of an island: the selected lane's status at a row end, else bits of parameter word 15 (R71, R174). -/
def State.lsIn (s : State) (i k : Nat) : Bool :=
  let r := rowOf i
  let c := s.lcol i
  if c = 0 ∨ c = 11 then
    let e := if c = 0 then 0 else 1
    let q := r * 4 + 2 * e
    let l := laneAt r e (s.f (LQ_LSSEL.LANE q))
    let x := s.getLane (s.groupOf l).1
    match k with
    | 0 => s.on (LANE_STAT.UP l) && s.f (LANE_STAT.TSTATE l) == 3
    | 1 => x.ls1
    | 2 => x.burst
    | _ => (s.getLane l).rxSb.getLsbD (s.f (LQ_LSSEL.SBBIT q))
  else bitOf (s.f (ISL_PARAM.VALUE i 15)) k

/-- One of the 48 inputs of the flag logic array; a disabled input reads 0 (R71, R364). -/
def State.flaIn (s : State) (i n : Nat) : Bool :=
  if s.fbits i 112 n 1 = 0 then false
  else if n < 32 then
    let u := n / 2
    let w := s.opWord i u (s.wuPlane i u)
    let sel := if n % 2 = 0 then opF0 w else opF1 w
    bitOf ((s.rd (ISL_WU_FLAGS i)).toNat) (4 * u + sel)
  else if n < 36 then (s.getIsl i).tdNow.getLsbD (n - 32)
  else if n < 40 then
    let q := n - 36
    if qWSEL (s.qcField i q (s.qcPlane i q)) then s.on (ISL_QSTAT.HL i q) else s.on (ISL_QSTAT.LL i q)
  else if n = 40 then s.pf0 (s.islPart i)
  else if n < 44 then (s.getIsl i).pf.getLsbD (n - 40)
  else s.lsIn i (n - 44)

/-- The feedback of a macrocell: its storage element in register mode, else its output at the most recent edge (R74). -/
def State.flaQF (s : State) (i m p : Nat) : Bool :=
  if bitsOf (s.macro i m p) 33 32 = 0 then (s.getIsl i).q.getLsbD m else (s.getIsl i).mcLast.getLsbD m

/-- The value of a literal number of R364. -/
def State.literal (s : State) (i p v : Nat) : Option Bool :=
  if v < 48 then some (s.flaIn i v)
  else if v < 72 then some (s.flaQF i (v - 48) p)
  else if v < 120 then some (!s.flaIn i (v - 72))
  else if v < 144 then some (!s.flaQF i (v - 120) p)
  else none

/-- A product term: the AND of its literals; 0 with none connected (R72). -/
def State.term (s : State) (i k p : Nat) : Bool :=
  let lits := (List.range 6).filterMap (fun j => s.literal i p (s.litSlot i k j p))
  !lits.isEmpty && lits.all id

/-- The value f of a macrocell (R73). -/
def State.macroF (s : State) (i m p : Nat) : Bool :=
  let c := s.macro i m p
  let g := m / 6
  let pt (t : Nat) : Bool := decide (t < 16) && s.term i (16 * g + t) p
  let o := (onesOf 16 (bitsOf c 15 0)).any (fun j => s.term i (16 * g + j) p)
  if pt (bitsOf c 25 21) then false else if pt (bitsOf c 20 16) then true else xor o (bitOf c 31)

/-- The output of a macrocell (R73). -/
def State.mc (s : State) (i m : Nat) : Bool :=
  let p := s.flaPlane i
  let c := s.macro i m p
  let g := m / 6
  match bitsOf c 33 32 with
  | 0 => (s.getIsl i).q.getLsbD m
  | 1 => if decide (bitsOf c 30 26 < 16) && s.term i (16 * g + bitsOf c 30 26) p then s.macroF i m p else (s.getIsl i).q.getLsbD m
  | _ => s.macroF i m p

/-- The storage element of a macrocell after an island edge (R73). -/
def State.macroNext (s : State) (i m : Nat) : Bool :=
  match bitsOf (s.macro i m (s.flaPlane i)) 33 32 with
  | 1 => s.mc i m
  | _ => s.macroF i m (s.flaPlane i)

/-- All 24 macrocell outputs. -/
def State.mcAll (s : State) (i : Nat) : BitVec 24 :=
  BitVec.ofNat 24 ((List.range 24).foldl (fun a m => a + b2n (s.mc i m) * 2 ^ m) 0)

/-- All 24 storage elements after an edge. -/
def State.qAll (s : State) (i : Nat) : BitVec 24 :=
  BitVec.ofNat 24 ((List.range 24).foldl (fun a m => a + b2n (s.macroNext i m) * 2 ^ m) 0)

/-- A rising edge of event macrocell k: the sticky bit, the counter, and the event on the control net (R77). -/
def islandEvent (i k : Nat) (s : State) : State :=
  let s := s.orF (ISL_FLA_EVT.EV i) (2 ^ k)
  let s := s.bump ((⟨ISL_FLA_EVCNT i, 63, 0⟩ : RF).elem 8 k)
  raiseLine (s.islPart i) i k s

end Sys2Proof.Machine
end

