-- ==== Sys2Proof/Machine/IslandMemory.lean ====
section
/-!
DEFINITION. Machine/IslandMemory.lean: the island memories with their tags, SECDED and faulty cells (R133 to R143, R153), and the queue controllers' positions, pops,
stores and commands (R144 to R150).
-/
namespace Sys2Proof.Machine

/-! ### ECC words -/

/-- The ECC condition of the ECC word that holds a byte: 0 sound, 1 single-bit error, 2 uncorrectable. -/
def State.ecc (s : State) (a : Nat) : Nat := (s.byte (eccKey a)).toNat

/-- Set the ECC condition of an ECC word. -/
def State.setEcc (s : State) (a n : Nat) : State := s.onMem (fun m => Memory.put m (eccKey a) (BitVec.ofNat 8 n))

/-- The four tags of the 32-bit word at an address (R134). -/
def State.tagsAt (s : State) (a : Nat) : Nat := (s.byte (tagKey a)).toNat

/-- Store the four tags of a 32-bit word. -/
def State.setTags (s : State) (a t : Nat) : State := s.onMem (fun m => Memory.put m (tagKey a) (BitVec.ofNat 8 (t % 16)))

/-- Keys of the faulty cells of the island memories (R153): for an ECC word 0 for none, b + 1 for the one cell b, 255 for more. -/
def cellKey (a : Nat) : Nat := 2 ^ 57 + a / 8

/-- The faulty cells of the ECC word that holds a byte. -/
def State.badCells (s : State) (a : Nat) : Nat := (s.byte (cellKey a)).toNat

/-- Cell `b` of an ECC word has failed a march (R153). -/
def markCell (a b : Nat) (s : State) : State :=
  let c := s.badCells a
  s.onMem (fun m => Memory.put m (cellKey a) (BitVec.ofNat 8 (if c = 0 ∨ c = b + 1 then b + 1 else 255)))

/-- Whether a byte of an island memory lies in the window that the patrol engine holds in its shadow (R151, R152). -/
def State.shadowed (s : State) (i off : Nat) : Bool :=
  s.f (ISL_PATROL_STAT.STEP i) != 0 && s.f (ISL_PATROL_STAT.WIN i) == off / 256

/-- What a read of the ECC word at byte `off` of an island memory finds: 0 sound, 1 a single-bit error, 2 uncorrectable.  A faulty cell that holds data gives an error,
and with another error an uncorrectable one (R153); the shadow of a patrol window holds no cell's fault (R152). -/
def State.found (s : State) (i off : Nat) : Nat :=
  let a := islMemBase i + off
  let e := s.ecc a
  let c := s.badCells a
  if c = 0 ∨ s.shadowed i off then e else if c = 255 then 2 else min (e + 1) 2

/-- An access of either port to the window in borrow or march makes the patrol abandon it and write it back (R152). -/
def patrolTouch (i off : Nat) (s : State) : State :=
  let st := s.f (ISL_PATROL_STAT.STEP i)
  if (st = 1 ∨ st = 2) ∧ off / 256 = s.f (ISL_PATROL_STAT.WIN i) then
    (s.setF (ISL_PATROL_STAT.STEP i) 3).bump (ISL_PATROL_STAT.ABAND i)
  else s

/-- A read at a port of the ECC word at byte `off` of an island memory, with the counting, recording and logging of R141; `port` is 0 for
the island port.  The syndrome of an error is open, because the spec gives no code matrix. -/
def eccPort (i off port : Nat) (s : State) : Nat × State :=
  let s := patrolTouch i off s
  let ba := off / 8 * 8
  match s.found i off with
  | 0 => (0, s)
  | 1 =>
    let s := s.bump (ISL_MEM_ECC.CECNT i)
    let (fv, s) := s.fresh
    let s := if s.on (ISL_MEM_CEADDR.VALID i) then s
      else s.wr (ISL_MEM_CEADDR i) (BitVec.ofNat 64 (2 ^ 31 + port * 2 ^ 30 + fv.toNat % 256 * 2 ^ 18 + ba))
    (1, logErr 0x0101 (s.islPart i) (srcOf 0 i) (s.rd (ISL_MEM_CEADDR i)) 0 s)
  | _ =>
    let s := s.bump (ISL_MEM_ECC.UECNT i)
    let (fv, s) := s.fresh
    let s := if s.on (ISL_MEM_UEADDR.VALID i) then s
      else s.wr (ISL_MEM_UEADDR i) (BitVec.ofNat 64 (2 ^ 31 + port * 2 ^ 30 + fv.toNat % 256 * 2 ^ 18 + ba))
    (2, logErr 0x0102 (s.islPart i) (srcOf 0 i) (s.rd (ISL_MEM_UEADDR i)) 0 s)

/-- The island port writes the ECC word at byte `off` at the present edge: a write of the stream/DMA port there at the same edge is dropped (R140). -/
def ownerWrote (i off : Nat) (s : State) : State := s.onIsl i (fun x => { x with wrote := if x.wrote.contains (off / 8) then x.wrote else off / 8 :: x.wrote })

/-- The read-modify-write of the word that queue `q` keeps in its combining buffer without a pair (R138, R139); an uncorrectable word stays so (R142). -/
def combWrite (i q : Nat) (s : State) : State :=
  match Map.find (s.getIsl i).comb q with
  | none => s
  | some k =>
    let s := s.onIsl i (fun x => { x with comb := Map.del x.comb q })
    let (e, s) := eccPort i (8 * k) 0 s
    ownerWrote i (8 * k) (s.setEcc (islMemBase i + 8 * k) (if e = 2 then 2 else 0))

/-- An access to an ECC word finds it written: no combining buffer keeps a word of it any longer. -/
def combDrain (i off : Nat) (s : State) : State :=
  ((s.getIsl i).comb.filter (fun e => e.2 == off / 8)).foldl (fun s e => combWrite i e.1 s) s

/-- What a read finds in the ECC word at byte `off` of an island memory (R141). -/
def eccRead (i off port : Nat) (s : State) : Nat × State := eccPort i off port (combDrain i off s)

/-- The 32-bit word at word address `w` of an island memory. -/
def State.memWord (s : State) (i w : Nat) : W32 := BitVec.ofNat 32 (Memory.num s.mem (islMemBase i + w % 65536 * 4) 4)

/-- The word that an M input reads at word address `w`: TK is 0 and ST is set by an uncorrectable error (R135). -/
def State.mWord (s : State) (i w : Nat) : AWord :=
  let t := s.tagsAt (islMemBase i + w % 65536 * 4)
  AWord.mk false (bitOf t 2 || s.found i (w % 65536 * 4) == 2) (BitVec.ofNat 2 t) (s.memWord i w)

/-- An island-port read of a word for an M input. -/
def islReadM (i w : Nat) (s : State) : AWord × State :=
  let s := (eccRead i (w % 65536 * 4) 0 s).2
  (s.mWord i w, s)

/-- A sequential M read (R51) of word address `w`: with the first word of an ECC word the whole ECC word is read, and the second is then at hand (R138). -/
def islReadSeq (i u w : Nat) (s : State) : AWord × State :=
  let at' := w % 65536
  match (s.getWu i u).seqPre with
  | some (b, v) =>
    if b = at' then (v, s.onWu i u (fun x => { x with seqPre := none }))
    else
      let (v, s) := islReadM i w s
      (v, s.onWu i u (fun x => { x with seqPre := if at' % 2 = 0 then some (at' + 1, s.mWord i (at' + 1)) else none }))
  | none =>
    let (v, s) := islReadM i w s
    (v, if at' % 2 = 0 then s.onWu i u (fun x => { x with seqPre := some (at' + 1, s.mWord i (at' + 1)) }) else s)

/-- A 32-bit write of the island port with tags: a read-modify-write of its ECC word, which keeps an uncorrectable word uncorrectable (R139, R142). -/
def memWrite32 (i w : Nat) (d : W32) (tags : Nat) (s : State) : State :=
  let off := w % 65536 * 4
  let a := islMemBase i + off
  let (e, s) := eccRead i off 0 s
  let s := (s.onMem (fun m => Memory.puts m a (bytesLE 4 d.toNat))).setTags a tags
  ownerWrote i off (s.setEcc a (if e = 2 then 2 else 0))

/-! ### Queue controllers (R144 to R149) -/

/-- Capacity of a queue in words. -/
def State.qCap (s : State) (i q : Nat) : Nat := s.f (ISL_QREG.SIZE16 i q) * 16 + 16

/-- Word address of an offset of a queue's region. -/
def State.qAddr (s : State) (i q off : Nat) : Nat := (s.f (ISL_QREG.BASE i q) / 16 * 16 + off) % 65536

def State.qDepth (s : State) (i q : Nat) : Nat := s.f (ISL_QDEP.DEPTH i q)
def State.qOcc (s : State) (i q : Nat) : Nat := s.f (ISL_QSTAT.OCC i q)
def State.qMarked (s : State) (i q : Nat) : Bool := s.on (ISL_QSTAT.MKV i q)

/-- The pass and fail queue of fork set `k` (R310). -/
def State.forkQueues (s : State) (i k : Nat) : Nat × Nat :=
  let v := bitsOf (s.f (ISL_FORK_CFG.QSEL i)) (4 * k + 3) (4 * k)
  (v % 4, v / 4)

/-- Whether fork set `k` takes part in an island: enabled, two different queues, and none shared with another enabled set (R310). -/
def State.forkOk (s : State) (i k : Nat) : Bool :=
  let en (j : Nat) : Bool := bitOf (s.f (ISL_FORK_CFG.SEN i)) j
  let (p, f) := s.forkQueues i k
  en k && p != f && (List.range 4).all (fun j => j == k || !en j ||
    (let (p', f') := s.forkQueues i j; p' != p && p' != f && f' != p && f' != f))

/-- The occupancy at which a queue counts as full: its capacity, or 256 words while a fork set of it is armed (R144, R314). -/
def State.qLimit (s : State) (i q : Nat) : Nat :=
  let armed := (List.range 4).any (fun k => bitOf (s.f (ISL_FORK_STAT.ARMED i)) k && s.forkOk i k &&
    (let (p, f) := s.forkQueues i k; p == q || f == q))
  if armed then min (s.qCap i q) 256 else s.qCap i q

/-- The level bits a queue's occupancy gives: high and low (R149). -/
def State.qLevels (s : State) (i q : Nat) : Bool × Bool :=
  (decide (s.f (ISL_QWM.HW i q) ≤ s.qOcc i q), decide (s.qOcc i q ≤ s.f (ISL_QWM.LW i q)))

/-- Evaluate the level bits: each change is a crossing with its sticky bit, its counter and its event, which follows the delivery limit of R77 (R149). -/
def qEval (i q : Nat) (s : State) : State :=
  let (h, l) := s.qLevels i q
  let s := if b2n h = s.f (ISL_QSTAT.HL i q) then s
    else raiseLine (s.islPart i) i (8 + q)
      (((s.setF (ISL_QSTAT.HL i q) (b2n h)).setF (ISL_QSTAT.HX i q) 1).bump (ISL_QCNT.HXCNT i q))
  if b2n l = s.f (ISL_QSTAT.LL i q) then s
  else raiseLine (s.islPart i) i (12 + q)
    (((s.setF (ISL_QSTAT.LL i q) (b2n l)).setF (ISL_QSTAT.LX i q) 1).bump (ISL_QCNT.LXCNT i q))

/-- Whether the island's steering unit is in effect: enabled, and its unit's plane is PASS from a queue (R310). -/
def State.steers (s : State) (i : Nat) : Bool :=
  s.on (ISL_FORK_CFG.STEN i) && s.passQueue i (s.f (ISL_FORK_CFG.SU i))

/-- The queue an M input in queue mode takes from: the unit's `MQ`, or `CUR` for the steering unit (R51, R311). -/
def State.mQueue (s : State) (i u : Nat) : Option Nat :=
  if s.queueM i u then
    if s.steers i && s.f (ISL_FORK_CFG.SU i) == u then some (s.f (ISL_FORK_STAT.CUR i))
    else some (mQ (s.operandWord i u (s.wuPlane i u)))
  else none

/-- The consumers of a queue (R145). -/
def State.qConsumers (s : State) (i q : Nat) : List Nat := (List.range 16).filter (fun u => s.mQueue i u == some q)

/-- The word at an offset of a queue's region as a pop delivers it, with the tags of R135. -/
def State.qWord (s : State) (i q off : Nat) : AWord :=
  let w := s.qAddr i q off
  let t := s.tagsAt (islMemBase i + w * 4)
  if s.found i (w * 4) = 2 then AWord.mk false true 0 (s.memWord i w) else AWord.mk (bitOf t 3) (bitOf t 2) (BitVec.ofNat 2 t) (s.memWord i w)

/-- The word that a queue's prefetch buffer holds for word address `w` (R138). -/
def State.fetched (s : State) (i q w : Nat) : Option AWord :=
  match Map.find (s.getIsl i).pref q with
  | some (a, v) => if a = w then some v else none
  | none => none

/-- The word at the head of a queue: the prefetched one, or that in memory. -/
def State.qHead (s : State) (i q : Nat) : Option AWord :=
  let h := s.f (ISL_QPTR.HEAD i q)
  if s.qDepth i q = 0 then none else some ((s.fetched i q (s.qAddr i q h)).getD (s.qWord i q h))

/-- The consumers that have taken a queue's head. -/
def State.qTaken (s : State) (i q : Nat) : List Nat := Map.getD (s.getIsl i).queueTaken q []

/-- Mark, rewind and release, in the order of R148: rewind, release, mark.  A rewind makes the head a word that no consumer has taken. -/
def qCommands (i q : Nat) (mark rewind release : Bool) (s : State) : State :=
  let s := if rewind then
      if s.qMarked i q then
        ((s.setF (ISL_QPTR.HEAD i q) (s.f (ISL_QPTR.MARK i q))).setF (ISL_QDEP.DEPTH i q) (s.qOcc i q)).onIsl i
          (fun x => { x with queueTaken := Map.set x.queueTaken q [], pref := Map.del x.pref q })
      else s.setF (ISL_QSTAT.NOMARK i q) 1
    else s
  let s := if release then
      if s.qMarked i q then (s.setF (ISL_QSTAT.MKV i q) 0).setF (ISL_QSTAT.OCC i q) (s.qDepth i q)
      else s.setF (ISL_QSTAT.NOMARK i q) 1
    else s
  if mark then
    ((s.setF (ISL_QPTR.MARK i q) (s.f (ISL_QPTR.HEAD i q))).setF (ISL_QSTAT.MKV i q) 1).setF (ISL_QSTAT.OCC i q) (s.qDepth i q)
  else s

/-- Empty a queue (R148): offsets 0, no mark, counters and sticky bits kept. -/
def qEmpty (i q : Nat) (s : State) : State :=
  let s := (combWrite i q s).wr (ISL_QPTR i q) 0
  let s := ((s.setF (ISL_QSTAT.MKV i q) 0).setF (ISL_QSTAT.OCC i q) 0).setF (ISL_QDEP.DEPTH i q) 0
  s.onIsl i (fun x => { x with queueTaken := Map.set x.queueTaken q [], pref := Map.del x.pref q })

/-- The commands that macrocells, a popped MARK token and a register write in a held island have given a queue at its present edge: 1 mark, 2 rewind, 4 release, 16 flush, 8 with
a mark of a MARK token, and 32 once a word has been popped at the edge. -/
def State.qPending (s : State) (i q : Nat) : Nat := Map.getD (s.getIsl i).qcmd q 0

/-- The end of a queue's edge (R148, R149): the commands given at it, each once whatever its sources, then a flush, then the level bits. -/
def qEnd (i q : Nat) (mark rewind release flush : Bool) (s : State) : State :=
  let c := s.qPending i q
  let s := if c = 0 then s else s.onIsl i (fun x => { x with qcmd := Map.del x.qcmd q })
  let s := qCommands i q (mark || bitOf c 0) (rewind || bitOf c 1) (release || bitOf c 2) s
  qEval i q (if flush || bitOf c 4 then qEmpty i q s else s)

/-- A flush of a queue (R148). -/
def qFlush (i q : Nat) (s : State) : State := qEnd i q false false false true s

/-- Add commands to those of a queue's present edge. -/
def qGive (i q c : Nat) (s : State) : State :=
  if c = 0 then s else s.onIsl i (fun x => { x with qcmd := Map.set x.qcmd q (Map.getD x.qcmd q 0 ||| c) })

/-- Commands through the command path of a queue (R148, R168): at once, or in an island that a capture holds at its next edge. -/
def qOrder (i q : Nat) (mark rewind release flush : Bool) (s : State) : State :=
  if s.islRuns i then qEnd i q mark rewind release flush s
  else qGive i q (b2n mark + 2 * b2n rewind + 4 * b2n release + 16 * b2n flush) s

/-- A MARK token that is popped under `QTOK`, from the queue or passing through it, gives a mark command (R145). -/
def qToken (i q : Nat) (w : AWord) (s : State) : State :=
  if w.type = tokMARK ∧ qTOK (s.qcField i q (s.qcPlane i q)) then qGive i q 9 s else s

/-- A queue reads the word at its head from memory: the whole ECC word where the next word is its second half, which then stands in the prefetch buffer (R138). -/
def qFetch (i q : Nat) (s : State) : State :=
  let h := s.f (ISL_QPTR.HEAD i q)
  let a := s.qAddr i q h
  if (s.fetched i q a).isSome then s.onIsl i (fun x => { x with pref := Map.del x.pref q })
  else
    let s := (eccRead i (a * 4) 0 s).2
    if a % 2 = 0 ∧ 2 ≤ s.qDepth i q then s.onIsl i (fun x => { x with pref := Map.set x.pref q (a + 1, s.qWord i q (h + 1)) }) else s

/-- The head leaves a queue: pointers, counting of an ECC finding, and the mark command of a MARK token.  A mark that an earlier pop gave is of an earlier edge. -/
def qPop (i q : Nat) (s : State) : State :=
  let s := if bitOf (s.qPending i q) 3 then qEnd i q false false false false s else s
  match s.qHead i q with
  | none => s
  | some w =>
    let s := qGive i q 32 (qFetch i q s)
    let s := s.setF (ISL_QPTR.HEAD i q) ((s.f (ISL_QPTR.HEAD i q) + 1) % s.qCap i q)
    let s := s.setF (ISL_QDEP.DEPTH i q) (s.qDepth i q - 1)
    let s := if s.qMarked i q then s else s.setF (ISL_QSTAT.OCC i q) (s.qOcc i q - 1)
    qToken i q w (s.onIsl i (fun x => { x with queueTaken := Map.set x.queueTaken q [] }))

/-- A unit takes the head of a queue; the head leaves with its last consumer (R145). -/
def takeQueue (i q u : Nat) (s : State) : State :=
  let tk := u :: s.qTaken i q
  if (s.qConsumers i q).all tk.contains then qPop i q s
  else s.onIsl i (fun x => { x with queueTaken := Map.set x.queueTaken q tk })

/-- Queue heads that every consumer has taken leave: those that a change of plane left without a consumer yet to take them (R104, R145). -/
def retireQueues (i : Nat) (s : State) : State :=
  ((s.getIsl i).queueTaken.filter (fun e => !e.2.isEmpty)).foldl (fun s e =>
    if s.qConsumers i e.1 ≠ [] ∧ (s.qConsumers i e.1).all e.2.contains then qPop i e.1 s else s) s

/-- The cells of one word pushed at word address `w` (R138, R139): a high half whose low half the combining buffer keeps makes a whole ECC word, written without a
read; a low half waits for its pair; any other word is a read-modify-write. -/
def qWrite (i q w : Nat) (v : AWord) (s : State) : State :=
  let off := w % 65536 * 4
  let a := islMemBase i + off
  let put (s : State) : State := (s.onMem (fun m => Memory.puts m a (bytesLE 4 (AWord.data v).toNat))).setTags a (v.toNat / 2 ^ 32)
  if Map.find (s.getIsl i).comb q = some (off / 8) ∧ w % 2 = 1 then
    ownerWrote i off ((put (patrolTouch i off (s.onIsl i (fun x => { x with comb := Map.del x.comb q })))).setEcc a 0)
  else
    let s := combDrain i off (combWrite i q s)
    if w % 2 = 0 then put (patrolTouch i off (s.onIsl i (fun x => { x with comb := Map.set x.comb q (off / 8) })))
    else memWrite32 i w (AWord.data v) (v.toNat / 2 ^ 32) s

/-- Store one word at the tail of a queue; an overruled push stores nothing (R147). -/
def qStore (i q : Nat) (w : AWord) (written : Bool) (s : State) : State :=
  let t := s.f (ISL_QPTR.TAIL i q)
  let s := if written then qWrite i q (s.qAddr i q t) w s else s
  let s := s.setF (ISL_QPTR.TAIL i q) ((t + 1) % s.qCap i q)
  (s.setF (ISL_QDEP.DEPTH i q) (s.qDepth i q + 1)).setF (ISL_QSTAT.OCC i q) (s.qOcc i q + 1)

/-- The plane change of a queue controller with `QFLW` = 16 at the push of a MOULT token, or of a SYNC token in an armed island (R97, R106). -/
def qPushSwitch (i q : Nat) (w : AWord) (s : State) : State :=
  if qFLW (s.qcField i q (s.qcPlane i q)) = 16 then
    if w.type = tokMOULT then requestPlane i (133 + q) (AWord.plane w) s
    else if w.type = tokSYNC ∧ s.on (ISL_PLANE_AUX.ARMED i) ∧ (s.getIsl i).unsw.contains (133 + q) then fenceSwitch i (133 + q) s
    else s
  else s

end Sys2Proof.Machine
end

