-- ==== Sys2Proof/Machine/Fork.lean ====
section
/-!
DEFINITION. Machine/Fork.lean: dual-path pre-generation in an island (R310 to R317): fork points, armings, resolutions and the steering wait.
-/
namespace Sys2Proof.Machine

/-- Set `FBAD` where an enabled set or the steering unit is set inconsistently; a unit that cannot steer is off, and one that comes to steer pops (R310). -/
def forkCheck (i : Nat) (s : State) : State :=
  let bad := (List.range 4).any (fun k => bitOf (s.f (ISL_FORK_CFG.SEN i)) k && !s.forkOk i k) ||
    (s.on (ISL_FORK_CFG.STEN i) && !s.steers i)
  let s := if bad then s.setF (ISL_FORK_STAT.FBAD i) 1 else s
  if s.steers i = s.on (ISL_FORK_STAT.STATE i) then s else s.setF (ISL_FORK_STAT.STATE i) (b2n (s.steers i))

/-- `CUR` is loaded from the `MQ` of the steering unit's current plane; the count restarts and a wait ends; a unit that cannot steer is off
(R310, R311, R312, R317). -/
def forkReload (i : Nat) (s : State) : State :=
  let u := s.f (ISL_FORK_CFG.SU i)
  let s := s.setF (ISL_FORK_STAT.CUR i) (mQ (s.operandWord i u (s.wuPlane i u)))
  let s := s.setF (ISL_FORK_CNT.COUNT i) 0
  s.setF (ISL_FORK_STAT.STATE i) (b2n (s.steers i))

/-- The set and segment length that govern the queue `CUR`: the pass length in [31:16] and the fail length in [15:0] of parameter word `FLP`
(R312). -/
def State.forkSegment (s : State) (i : Nat) : Option (Nat × Nat) :=
  let cur := s.f (ISL_FORK_STAT.CUR i)
  let len := s.f (ISL_PARAM.VALUE i (s.f (ISL_FORK_CFG.FLP i)))
  (List.range 4).findSome? (fun k =>
    if s.forkOk i k then
      let (p, f) := s.forkQueues i k
      if f = cur then some (k, len % 65536) else if p = cur then some (k, len / 65536) else none
    else none)

/-- A switch of the steering unit to the selected queue (R315): the other queue is flushed unless kept, the count restarts and the wait ends.
Whether the selected queue is empty is seen at the next edge. -/
def forkSwitch (i k : Nat) (fail : Bool) (s : State) : State :=
  let (p, f) := s.forkQueues i k
  let sel := if fail then f else p
  let other := if fail then p else f
  let keep := bitOf (s.f (ISL_FORK_CFG.KEEP i)) (if fail then 2 * k else 2 * k + 1)
  let s := s.setF (ISL_FORK_STAT.CUR i) sel
  let s := if keep then s else qFlush i other s
  let s := (s.setF (ISL_FORK_CNT.COUNT i) 0).setF (ISL_FORK_STAT.STATE i) 1
  s.onIsl i (fun x => { x with switched := true })

/-- The steering unit reaches a fork point when the count meets a non-zero segment length: it switches on a latched outcome, else it waits
(R312, R315). -/
def forkPoint (i : Nat) (s : State) : State :=
  if s.steers i ∧ s.f (ISL_FORK_STAT.STATE i) = 1 then
    match s.forkSegment i with
    | none => s
    | some (k, len) =>
      if len ≠ 0 ∧ len ≤ s.f (ISL_FORK_CNT.COUNT i) then
        if bitOf (s.f (ISL_FORK_STAT.LATCH i)) k then
          let out := bitOf (s.f (ISL_FORK_STAT.LOUT i)) k
          let s := s.setF ((ISL_FORK_STAT.LATCH i).bit k) 0
          forkSwitch i k out s
        else ((s.setF (ISL_FORK_STAT.STATE i) 2).setF (ISL_FORK_STAT.WSET i) k).onIsl i (fun x => { x with waitLogged := false })
      else s
  else s

/-- The steering unit at an island edge: the first edge after a switch sees whether the selected queue is empty (R315), and a fork point may be reached (R312). -/
def forkEdge (i : Nat) (s : State) : State :=
  if !s.on (ISL_FORK_CFG.STEN i) then s
  else
    let s :=
      if (s.getIsl i).switched then
        let s := s.onIsl i (fun x => { x with switched := false })
        if s.qDepth i (s.f (ISL_FORK_STAT.CUR i)) = 0 then s.setF (ISL_FORK_STAT.FSTARVE i) 1 else s
      else s
    forkPoint i s

/-- A resolution of set `k` in a fork island (R315): the set is no longer armed, and the island switches or latches the outcome. -/
def forkResolve (i k : Nat) (fail : Bool) (s : State) : State :=
  if s.forkOk i k then
    let s := s.setF ((ISL_FORK_STAT.ARMED i).bit k) 0
    if s.f (ISL_FORK_STAT.STATE i) = 2 ∧ s.f (ISL_FORK_STAT.WSET i) = k then forkSwitch i k fail s
    else (s.setF ((ISL_FORK_STAT.LATCH i).bit k) 1).setF ((ISL_FORK_STAT.LOUT i).bit k) (b2n fail)
  else forkCheck i s

/-- A broadcast has switched the steering unit: `CUR` is loaded again (R311), and a unit that no longer steers is noted (R310). -/
def steerSwitched (i e : Nat) (s : State) : State :=
  if s.on (ISL_FORK_CFG.STEN i) ∧ s.f (ISL_FORK_CFG.SU i) = e then forkCheck i (forkReload i s) else s

/-- Every element of an island switches to a plane at once, or waits for the plane's lock, as at an immediate broadcast (R103, R108); the steering unit reloads `CUR`
when it switches (R311). -/
def switchAll (i p : Nat) (s : State) : State :=
  let s := (List.range 137).foldl (fun s e => requestPlane i e p s) s
  if s.locked i p then s else steerSwitched i (s.f (ISL_FORK_CFG.SU i)) s

/-- Switches that waited for a lock take place once it is clear (R110); that of the armed broadcast was the element's fence (R106). -/
def applyPending (i : Nat) (s : State) : State :=
  (s.getIsl i).boxPend.foldl (fun s ep =>
    if s.locked i ep.2 then s
    else
      let fence := (s.getIsl i).fencePend.contains ep.1
      let s := steerSwitched i ep.1 (setPlane i ep.1 ep.2 s)
      if fence ∧ (s.getIsl i).unsw.contains ep.1 then fenceDone i ep.1 s else s) s

/-- An arming of set `k` in an island (R313): a branch island switches its elements, a fork island marks the set armed. -/
def forkArm (i k fp pp : Nat) (s : State) : State :=
  let s :=
    if s.on (ISL_FORK_CFG.BREN i) ∧ s.f (ISL_FORK_CFG.BRSET i) = k then
      let p := if s.on (ISL_FORK_CFG.BRSIDE i) then fp else pp
      (List.range 137).foldl (fun s e => requestPlane i e p s) s
    else s
  let s := forkCheck i s
  if s.forkOk i k then
    let (p, f) := s.forkQueues i k
    let cur := s.f (ISL_FORK_STAT.CUR i)
    let s :=
      if bitOf (s.f (ISL_FORK_STAT.ARMED i)) k then
        let s := if p = cur then s else qFlush i p s
        if f = cur then s else qFlush i f s
      else s
    let s := s.setF ((ISL_FORK_STAT.ARMED i).bit k) 1
    if bitOf (s.f (ISL_FORK_STAT.LATCH i)) k then
      (s.setF ((ISL_FORK_STAT.LATCH i).bit k) 0).setF (ISL_FORK_STAT.LOSTRES i) 1
    else s
  else s

/-- `HOLD_WORD` (R316): a steering unit that waits at a fork point and whose output register is free emits the hold word, tags zero. -/
def execHoldWord (i : Fin 156) (s : State) : Host.Outcome State Fault Refusal :=
  let u := s.f (ISL_FORK_CFG.SU i)
  let w := s.getWu i u
  if s.islRuns i ∧ s.f (ISL_FORK_STAT.STATE i) = 2 ∧ w.out = [] ∧ w.pipe = [] then
    let hw := AWord.mk false false 0 (BitVec.ofNat 32 (s.f (ISL_PARAM.VALUE i (s.f (ISL_FORK_CFG.HOLDP i)))))
    .next (settle i ((s.onWu i u (fun w => { w with out := [hw] })).bump (ISL_FORK_CNT.HOLDS i)))
  else .next s

/-- `STEERING_WAIT_TIMEOUT` (R316): a wait longer than the watchdog limit sets `WAITOV` and is logged once; the unit goes on waiting. -/
def execSteeringWaitTimeout (i : Fin 156) (s : State) : Host.Outcome State Fault Refusal :=
  if s.islRuns i ∧ s.f (ISL_FORK_STAT.STATE i) = 2 ∧ s.on (ISL_MOULT_WDT.LIMIT i) ∧ (s.getIsl i).waitLogged = false then
    let s := (s.setF (ISL_FORK_STAT.WAITOV i) 1).onIsl i (fun x => { x with waitLogged := true })
    .next (logErr 0x0205 (s.islPart i) (srcOf 0 i) (s.rd (ISL_FORK_STAT i)) 0 s)
  else .next s

/-- The effect of a write of `ISL_FORK_CFG` (R322): a change of `STEN` or `SU` ends a wait, and a rise of `STEN`, or a change of `SU` while it is 1, reloads `CUR`
(R311). -/
def forkCfgWrite (i : Nat) (v : Word) (s : State) : State :=
  let old := s.rd (ISL_FORK_CFG i)
  let s := s.wr (ISL_FORK_CFG i) (v &&& 0xFFFF8FFFFFFF0000)
  let s := if getBits old 63 59 = getBits v 63 59 then s
    else if s.on (ISL_FORK_CFG.STEN i) then forkReload i s
    else s.setF (ISL_FORK_STAT.STATE i) 0
  forkCheck i s

/-- The effect of `FORCE` (R317): a resolution in this island only, armed or not. -/
def forkForce (i k : Nat) (fail : Bool) (s : State) : State := forkResolve i k fail s

end Sys2Proof.Machine
end

