-- ==== Sys2Proof/Machine/Flags.lean ====
section
/-!
DEFINITION. Machine/Flags.lean: the results and the flags Z, N, C and V of the word unit operations (R55 to R69), as functions of their operands.
-/
namespace Sys2Proof.Machine

/-- The four flags of a word unit in the order of a nibble of `ISL_WU_FLAGS`: Z bit 0, N bit 1, C bit 2, V bit 3. -/
structure Flags where
  z : Bool
  n : Bool
  c : Bool
  v : Bool
deriving DecidableEq, Repr

/-- Flags from a nibble. -/
def Flags.ofNat (x : Nat) : Flags := { z := bitOf x 0, n := bitOf x 1, c := bitOf x 2, v := bitOf x 3 }

/-- The nibble of the flags. -/
def Flags.toNat (f : Flags) : Nat := b2n f.z + 2 * b2n f.n + 4 * b2n f.c + 8 * b2n f.v

/-- A result word with its flags, its own status bit, and whether a store saturated (R57, R64). -/
structure Res where
  val : W32
  f : Flags
  st : Bool
  sat : Bool
deriving DecidableEq, Repr

/-- Entry `r` of the Z N column of R55: Z for a zero result, N its top bit. -/
def resR (val : W32) (c v : Bool) : Res :=
  { val := val, f := { z := val == 0, n := val.msb, c := c, v := v }, st := false, sat := false }

/-- Whether a signed number lies outside `w` bits. -/
def ovf (w : Nat) (x : Int) : Bool := (clampS w x).2

/-- ADD and ADC (R55): carry out and signed overflow. -/
def aluAdd (a b : W32) (s : Nat) : Res :=
  resR (BitVec.ofNat 32 (a.toNat + b.toNat + s)) (decide (2 ^ 32 ≤ a.toNat + b.toNat + s)) (ovf 32 (a.toInt + b.toInt + s))

/-- SUB and SBC (R55): borrow and signed overflow. -/
def aluSub (a b : W32) (s : Nat) : Res :=
  resR (a - b - BitVec.ofNat 32 s) (decide (a.toNat < b.toNat + s)) (ovf 32 (a.toInt - b.toInt - s))

/-- The high and the low half of a word. -/
def hi16 (a : W32) : BitVec 16 := a.extractLsb' 16 16
def lo16 (a : W32) : BitVec 16 := a.extractLsb' 0 16

/-- A word of two halves. -/
def halves (h l : BitVec 16) : W32 := h ++ l

/-- DADD (R55). -/
def aluDadd (a b : W32) : Res :=
  let c (x y : BitVec 16) : Bool := decide (2 ^ 16 ≤ x.toNat + y.toNat)
  let v (x y : BitVec 16) : Bool := ovf 16 (x.toInt + y.toInt)
  resR (halves (hi16 a + hi16 b) (lo16 a + lo16 b)) (c (hi16 a) (hi16 b) || c (lo16 a) (lo16 b)) (v (hi16 a) (hi16 b) || v (lo16 a) (lo16 b))

/-- DSUB (R55). -/
def aluDsub (a b : W32) : Res :=
  let c (x y : BitVec 16) : Bool := decide (x.toNat < y.toNat)
  let v (x y : BitVec 16) : Bool := ovf 16 (x.toInt - y.toInt)
  resR (halves (hi16 a - hi16 b) (lo16 a - lo16 b)) (c (hi16 a) (hi16 b) || c (lo16 a) (lo16 b)) (v (hi16 a) (hi16 b) || v (lo16 a) (lo16 b))

/-- SHL and SHLV: `n` from 0 to 63; C is the last bit shifted out, and 0 for no shift (R58). -/
def aluShl (a : W32) (n : Nat) : Res := resR (a <<< n) (decide (n ≠ 0) && decide (n ≤ 32) && a.getLsbD (32 - n)) false

/-- SHR and SHRV (R58). -/
def aluShr (a : W32) (n : Nat) : Res := resR (a >>> n) (decide (n ≠ 0) && a.getLsbD (n - 1)) false

/-- ASR and ASRV (R58). -/
def aluAsr (a : W32) (n : Nat) : Res :=
  resR (a.sshiftRight n) (decide (n ≠ 0) && (if n ≤ 32 then a.getLsbD (n - 1) else a.msb)) false

/-- ROL and ROLV: the amount modulo 32 (R58). -/
def aluRol (a : W32) (n : Nat) : Res :=
  let r := a.rotateLeft (n % 32)
  resR r (decide (n % 32 ≠ 0) && r.getLsbD 0) false

/-- MAX, MIN, MAXU and MINU choose B only when it is strictly greater or smaller (R55). -/
def aluPick (a b : W32) (chooseB : Bool) : Res := resR (if chooseB then b else a) chooseB false

/-- PERM (R59): bit i of the result is the bit of A that entry i of the table names. -/
def aluPerm (t : BitVec 160) (a : W32) : W32 :=
  BitVec.ofNat 32 ((List.range 32).foldl (fun r i => r + b2n (a.getLsbD (t.toNat / 2 ^ (5 * i) % 32)) * 2 ^ i) 0)

/-- One step of the Galois register of LFSR: the state and the bit shifted out (R60). -/
def lfsrStep (b : W32) (x : W32 × Bool) : W32 × Bool :=
  let t := x.1 >>> 1
  (if x.1.getLsbD 0 then t ^^^ b else t, x.1.getLsbD 0)

/-- LFSR: `n` steps from state A with polynomial mask B (R60). -/
def aluLfsr (a b : W32) (n : Nat) : Res :=
  let r := (List.range n).foldl (fun x _ => lfsrStep b x) (a, false)
  resR r.1 r.2 false

/-- The next signature of MISR (R61). -/
def misrStep (acc a b : W32) : W32 := (lfsrStep b (acc, false)).1 ^^^ a

/-- Gray to binary (R62): each bit is the exclusive or of the bits of A from its place up. -/
def aluG2b (a : W32) : W32 :=
  let t := a ^^^ (a >>> 1)
  let t := t ^^^ (t >>> 2)
  let t := t ^^^ (t >>> 4)
  let t := t ^^^ (t >>> 8)
  t ^^^ (t >>> 16)

/-- One half of DMUL: the Q15 product, truncated, saturated when `sat` (R64); the half, and whether it overflowed. -/
def dmulHalf (sat : Bool) (x y : BitVec 16) : BitVec 16 × Bool :=
  let p : Int := (x.toInt * y.toInt) / 2 ^ 15
  if p > 0x7FFF then (if sat then 0x7FFF else BitVec.ofInt 16 p, true) else (BitVec.ofInt 16 p, false)

/-- DMUL (R55, R64). -/
def aluDmul (sat : Bool) (a b : W32) : Res :=
  let (h, vh) := dmulHalf sat (hi16 a) (hi16 b)
  let (l, vl) := dmulHalf sat (lo16 a) (lo16 b)
  let r := resR (halves h l) false (vh || vl)
  { r with st := sat && (vh || vl), sat := sat && (vh || vl) }

/-- The result of an operation that is a function of its operands: its operation word, its tables, its flags before the firing, the
condition s of R50, and its operands.  `none`: the operation has no such result (accumulator, block and table operations, NOP). -/
def alu (opw : Nat) (t0 t1 : BitVec 160) (old : Flags) (s : Bool) (a b m : W32) : Option Res :=
  let k := opK opw
  let n := b.toNat % 64
  match opc opw with
  | 0x01 => some { resR a false false with f := { old with z := a == 0, n := a.msb } }
  | 0x02 => some (aluAdd a b 0)
  | 0x03 => some (aluAdd a b (b2n s))
  | 0x04 => some (aluSub a b 0)
  | 0x05 => some (aluSub a b (b2n s))
  | 0x06 => some (resR (a &&& b) false false)
  | 0x07 => some (resR (a ||| b) false false)
  | 0x08 => some (resR (a ^^^ b) false false)
  | 0x09 => some (resR (a &&& ~~~b) false false)
  | 0x0A => some (resR (if s then b else a) false false)
  | 0x0B => some (aluDadd a b)
  | 0x0C => some (aluDsub a b)
  | 0x10 => some (aluShl a k)
  | 0x11 => some (aluShr a k)
  | 0x12 => some (aluAsr a k)
  | 0x13 => some (aluRol a k)
  | 0x14 => some (aluShl a n)
  | 0x15 => some (aluShr a n)
  | 0x16 => some (aluAsr a n)
  | 0x17 => some (aluRol a n)
  | 0x20 => some (resR ((a ^^^ b) &&& ~~~m) ((a ^^^ b) &&& m != 0) false)
  | 0x21 => some (resR ((a ^^^ b) &&& ~~~m) ((a ^^^ b) &&& m != 0) false)
  | 0x22 => some { aluSub a b 0 with val := a }
  | 0x24 => some (aluPick a b (a.slt b))
  | 0x25 => some (aluPick a b (b.slt a))
  | 0x26 => some (aluPick a b (a.ult b))
  | 0x27 => some (aluPick a b (b.ult a))
  | 0x30 => some (resR (aluPerm (if bitOf k 0 then t1 else t0) a) false false)
  | 0x32 => some (aluLfsr a b (k % 32 + 1))
  | 0x34 => some (resR (BitVec.ofNat 32 (popCount 32 a.toNat)) false false)
  | 0x35 => some (resR (a ^^^ (a >>> 1)) false false)
  | 0x36 => some (resR (aluG2b a) false false)
  | 0x37 => some (resR m false false)
  | 0x40 => some (resR (a * b) false false)
  | 0x41 => some (resR (BitVec.ofInt 32 (a.toInt * b.toInt / 2 ^ 32)) false false)
  | 0x42 => some (resR (BitVec.ofNat 32 (a.toNat * b.toNat / 2 ^ 32)) false false)
  | 0x43 => some (aluDmul (opSAT opw) a b)
  | _ => none

/-! ### The accumulator (R63 to R65) -/

/-- What an accumulating operation adds (R55). -/
def accDelta (code : Nat) (a b : W32) : Int :=
  let ah := (hi16 a).toInt
  let al := (lo16 a).toInt
  let bh := (hi16 b).toInt
  let bl := (lo16 b).toInt
  match code with
  | 0x48 => a.toInt * b.toInt
  | 0x49 => (a.toNat * b.toNat : Nat)
  | 0x4A => -(a.toInt * b.toInt)
  | 0x4B => ah * bh + al * bl
  | 0x4C => ah * bl + al * bh
  | 0x4D => ah * bh - al * bl
  | _ => a.toInt

/-- Flags of the accumulator: Z and N of its value, C while the guard bits are in use, V while pinned (R55, R63). -/
def accFlags (acc : BitVec 72) (pinned : Bool) : Flags :=
  let g := acc.toNat / 2 ^ 63
  { z := acc == 0, n := acc.msb, c := g != 0 && g != 511, v := pinned }

/-- The flags of a cleared accumulator (R65). -/
def clearedFlags : Flags := { z := true, n := false, c := false, v := false }

/-- A store from the accumulator: the word, its own saturation, and whether it saturated (R64). -/
def accStore (k : Nat) (sat : Bool) (acc : BitVec 72) : W32 × Bool :=
  let v : Int := acc.toInt / 2 ^ k
  if sat then ((BitVec.ofInt 32 (clampS 32 v).1), (clampS 32 v).2) else (BitVec.ofInt 32 v, false)

/-- The number of bits below the sign bit that equal it, in a word of `w` bits (R67). -/
def headroom (w v : Nat) : Nat :=
  let sgnb := bitOf v (w - 1)
  ((List.range (w - 1)).takeWhile (fun j => bitOf v (w - 2 - j) == sgnb)).length

/-- The headroom of a data word, over the word or over both halves (R67). -/
def blockHeadroom (dual : Bool) (a : W32) : Nat :=
  if dual then min (headroom 16 (a.toNat / 2 ^ 16)) (headroom 16 (a.toNat % 2 ^ 16)) else headroom 32 a.toNat

/-- The initial running minimum of BEXP (R67). -/
def bexpInit (opw : Nat) : Nat := if bitOf (opK opw) 0 then 15 else 31

/-- The initial best value of SMAX and SMIN (R68). -/
def bestInit (opw : Nat) : W32 :=
  match opc opw == 0x5C, bitOf (opK opw) 0 with
  | true, false => 0x8000_0000
  | false, false => 0x7FFF_FFFF
  | true, true => 0
  | false, true => 0xFFFF_FFFF

/-- Whether a data word replaces the best value of SMAX or SMIN (R68). -/
def bestReplaces (opw : Nat) (a best : W32) : Bool :=
  let better :=
    match opc opw == 0x5C, bitOf (opK opw) 0 with
    | true, false => best.slt a
    | false, false => a.slt best
    | true, true => best.ult a
    | false, true => a.ult best
  better || (bitOf (opK opw) 1 && a == best)

end Sys2Proof.Machine
end

