-- ==== Sys2Proof/Machine/Operands.lean ====
section
/-!
DEFINITION. Machine/Operands.lean: which inputs an operation uses (R55), the kinds of operations the rules of tokens and of emission tell apart, what
the inputs of a word unit present (R46 to R53), and when it can fire (R47).
-/
namespace Sys2Proof.Machine

/-- The operation code in effect: an unassigned code behaves as NOP (R55). -/
def opCode (opw : Nat) : Nat := if opAssigned (opc opw) then opc opw else 0

/-- Accumulating operations and MISR, which `EMIT` governs (R65). -/
def isAcc (code : Nat) : Bool := (decide (0x48 ≤ code) && decide (code ≤ 0x4E)) || code == 0x33

/-- BEXP, SMAX and SMIN. -/
def isBlock (code : Nat) : Bool := code == 0x58 || code == 0x5C || code == 0x5D

/-- Whether an operation uses input B (column Uses of R55; B of SMAX and SMIN under `K[2]`, R68). -/
def usesB (opw : Nat) : Bool :=
  let c := opCode opw
  (decide (0x02 ≤ c) && decide (c ≤ 0x0C)) || (decide (0x14 ≤ c) && decide (c ≤ 0x17)) || (decide (0x20 ≤ c) && decide (c ≤ 0x27)) ||
  c == 0x32 || c == 0x33 || (decide (0x40 ≤ c) && decide (c ≤ 0x4D)) || ((c == 0x5C || c == 0x5D) && bitOf (opK opw) 2)

/-- Whether an operation uses input M, with the operand word for PASS (R55). -/
def usesM (opw od : Nat) : Bool :=
  let c := opCode opw
  c == 0x20 || c == 0x21 || c == 0x37 || (c == 0x01 && mMode od == 3)

/-- Whether an operation uses input A: every operation but NOP and PASS of a queue (R55). -/
def usesA (opw od : Nat) : Bool := opCode opw != 0 && !(opCode opw == 0x01 && mMode od == 3)

/-- The operation word of a unit's current plane. -/
def State.curOp (s : State) (i u : Nat) : Nat := s.opWord i u (s.wuPlane i u)

/-- The operand word of a unit's current plane. -/
def State.curOd (s : State) (i u : Nat) : Nat := s.operandWord i u (s.wuPlane i u)

/-- Whether input `x` (0 A, 1 B, 2 M) is used by the current plane's operation. -/
def State.used (s : State) (i u x : Nat) : Bool :=
  match x with
  | 0 => usesA (s.curOp i u) (s.curOd i u)
  | 1 => usesB (s.curOp i u)
  | _ => usesM (s.curOp i u) (s.curOd i u)

/-- Whether input `x` is a used stream input: not a parameter word, and M only in queue mode (R46, R52). -/
def State.isStream (s : State) (i u x : Nat) : Bool :=
  s.used i u x && (if x = 2 then s.queueM i u else decide (s.inSrc i u x < 0x30))

/-- The used stream inputs of a unit, in the order A, B, M. -/
def State.streams (s : State) (i u : Nat) : List Nat := [0, 1, 2].filter (s.isStream i u)

/-- Whether the steering unit of the island waits at its fork point: it takes nothing from its queue (R312, R316). -/
def State.steerWaits (s : State) (i u : Nat) : Bool :=
  s.steers i && s.f (ISL_FORK_CFG.SU i) == u && s.f (ISL_FORK_STAT.STATE i) == 2

/-- What input `x` presents at its head: a parameter word is always valid, A and B the head of their entries, M the word passed through or
the head of its queue, and nothing while a steering unit waits at its fork point (R46, R47, R51, R312). -/
def State.inHead (s : State) (i u x : Nat) : Option AWord :=
  let w := s.getWu i u
  if x = 2 then
    if s.steerWaits i u then none
    else
      match w.m with
      | v :: _ => some v
      | [] =>
        match s.mQueue i u with
        | some q => if (s.qTaken i q).contains u then none else s.qHead i q
        | none => none
  else
    let code := s.inSrc i u x
    if 0x30 ≤ code then some (AWord.mk false false 0 (BitVec.ofNat 32 (s.f (ISL_PARAM.VALUE i (code - 0x30)))))
    else (w.entries x).head?

/-- The unit consumes the word at the head of input `x`; a parameter word stays (R46). -/
def consumeIn (i u x : Nat) (s : State) : State :=
  let w := s.getWu i u
  if x = 2 then
    if w.m.isEmpty then
      match s.mQueue i u with
      | some q => takeQueue i q u s
      | none => s
    else s.onWu i u (fun w => { w with m := w.m.tail })
  else if 0x30 ≤ s.inSrc i u x then s
  else settle i (s.onWu i u (fun w => w.setEntries x (w.entries x).tail))

/-- The marks in effect: marked inputs that the operation uses, M only in queue mode (R86). -/
def State.marked (s : State) (i u : Nat) : List Nat :=
  let mk := s.marks i u (s.wuPlane i u)
  [0, 1, 2].filter (fun x => bitOf mk x && s.used i u x && (x != 2 || s.queueM i u))

/-- The type of the token at the head of input `x`, 0 for none (R42). -/
def State.headType (s : State) (i u x : Nat) : Nat :=
  match s.inHead i u x with
  | some w => AWord.type w
  | none => 0

/-- Whether a token stands at the head of input `x`. -/
def State.headTk (s : State) (i u x : Nat) : Bool :=
  match s.inHead i u x with
  | some w => AWord.tk w
  | none => false

/-- What a source of the fail collector presents, when a source is named (R324). -/
def State.collSrc (s : State) (i src cid : Nat) : Option AWord := if src < 48 then s.offered i src cid else none

/-- Whether the fail collector lets its compare unit fire: each named source presents a data word, and there is room or `FSTALL` is 0 (R324). -/
def State.collReady (s : State) (i u : Nat) : Bool :=
  if s.on (ISL_FCAP_CFG.FEN i) && s.f (ISL_FCAP_CFG.FSU i) == u then
    let fa := s.f (ISL_FCAP_CFG.FASRC i)
    let fx := s.f (ISL_FCAP_CFG.FXSRC i)
    let ok (src cid : Nat) : Bool := decide (48 ≤ src) || (match s.collSrc i src cid with
      | some w => !AWord.tk w
      | none => false)
    ok fa 120 && (fx == fa || ok fx 121) && (decide ((s.coll i).fifo.length < 16) || !s.on (ISL_FCAP_CFG.FSTALL i))
  else true

/-- Whether input `x` of a unit presents a valid data word, or is not used (R47).  An indexed or sequential M is read when the unit fires; data that the unit is to
discard are no operands (R53). -/
def State.inReady (s : State) (i u x : Nat) : Bool :=
  !s.used i u x || (x == 2 && !s.queueM i u) ||
  (!(s.getWu i u).disc.contains x &&
    (match s.inHead i u x with
     | some w => !AWord.tk w
     | none => false))

/-- Whether a word unit could fire but for its inputs (R47): what a capture kept waiting has taken effect (R468),
its operation is not NOP, its output register is free, its pipeline has room, no PLD occupies it, and the
fail collector lets it. -/
def State.fireFree (s : State) (i u : Nat) : Bool :=
  let w := s.getWu i u
  s.islRuns i && (s.getIsl i).arrived.isEmpty && opCode (s.curOp i u) != 0 && w.out.isEmpty && decide (w.pipe.length < 5) &&
    w.pipe.all (fun f => opc f.opw.toNat != 0x31 || f.skip) && s.collReady i u

/-- Whether a word unit can fire (R47): every used input presents data, and nothing else keeps it. -/
def State.canFire (s : State) (i u : Nat) : Bool := s.fireFree i u && [0, 1, 2].all (s.inReady i u)

/-- Whether a word unit would take the word of its queue at this edge, were there one: a pop that meets an empty queue (R146). -/
def State.awaitsM (s : State) (i u : Nat) : Bool :=
  s.fireFree i u && [0, 1].all (s.inReady i u) && s.used i u 2 && s.queueM i u && (s.getWu i u).m.isEmpty && !s.steerWaits i u &&
    !(s.getWu i u).disc.contains 2

end Sys2Proof.Machine
end

