-- ==== Sys2Proof/Machine/QueuePort.lean ====
section
/-!
DEFINITION. Machine/QueuePort.lean: pushes into the queues (R146, R147), the stream/DMA port of an island memory (R137 to R142, R147), the patrol engine (R151 to R153),
and the meanings of their commands.
-/
namespace Sys2Proof.Machine

/-! ### Pushes (R146) -/

/-- Whether a push passes through: no depth at the start of the edge, no mark, `QPT` set, and every consumer would take the word at this edge (R146). -/
def State.qPasses (s : State) (i q : Nat) : Bool :=
  let cs := s.qConsumers i q
  s.qDepth i q == 0 && !bitOf (s.qPending i q) 5 && !s.qMarked i q && qPT (s.qcField i q (s.qcPlane i q)) && !cs.isEmpty && cs.all (s.awaitsM i)

/-- A push that is accepted: passed through or stored, with its plane change (R145, R146). -/
def qAccept (i q : Nat) (w : AWord) (s : State) : State :=
  let s :=
    if s.qPasses i q then qToken i q w ((s.qConsumers i q).foldl (fun s u => s.onWu i u (fun x => { x with m := x.m ++ [w] })) s)
    else qStore i q w true s
  qPushSwitch i q w s

/-! ### The stream/DMA port (R137 to R142, R147) -/

/-- The queues whose regions take port writes as pushes and hold a word address (R147, R150). -/
def State.pushQueues (s : State) (i w : Nat) : List Nat :=
  (List.range 4).filter (fun q => qPSRC (s.qcField i q (s.qcPlane i q)) == 0x30 &&
    decide ((w + 65536 - s.qAddr i q 0) % 65536 < s.qCap i q))

/-- How a write at the stream/DMA port ended. -/
inductive PortEnd where
  | done | collided | waits
deriving DecidableEq, Repr

/-- A drop by the owner-wins rule (R140). -/
def recordCollision (i off : Nat) (s : State) : State :=
  let s := if s.f (ISL_MEM_COLL.COUNT i) = 0 then s.setF (ISL_MEM_COLL.FADDR i) (off / 8 * 8) else s
  s.bump (ISL_MEM_COLL.COUNT i)

/-- The check bits that a port write leaves in an ECC word: uncorrectable with poison (R288), inverted as `INJ` says (R154), else as stored.  A word that R142 has just
written with inverted check bits stays uncorrectable under `INJ` (DESIGN CHOICE, log entry 64). -/
def markEcc (i off : Nat) (bad : Bool) (s : State) : State :=
  let inj := s.f (ISL_MEM_CTL.INJ i)
  if bad ∨ inj = 1 ∨ inj = 2 then
    let s := combDrain i off s
    let a := islMemBase i + off
    s.setEcc a (if bad ∨ inj = 2 ∨ s.ecc a = 2 then 2 else 1)
  else s

/-- `INJ` returns to 0 once a port write is done (R154). -/
def endInject (i : Nat) (s : State) : State := if s.f (ISL_MEM_CTL.INJ i) = 0 then s else s.setF (ISL_MEM_CTL.INJ i) 0

/-- Plain data of a port write into one ECC word, with the tags of its 32-bit words (R134, R139, R142). -/
def portStore (i off size : Nat) (data tags : Nat) (bad : Bool) (s : State) : State :=
  let a := islMemBase i + off
  let full := decide (size = 8)
  let (e, s) := if full then (0, patrolTouch i off (combDrain i off s)) else eccRead i off 1 s
  let s := s.onMem (fun m => Memory.puts m a (bytesLE size data))
  let s := if full then (s.setTags a tags).setTags (a + 4) (tags / 16) else s.setTags a tags
  endInject i (markEcc i off bad (s.setEcc a (if e = 2 then 2 else 0)))

/-- The words of one port write are pushed into a queue (R147), and its edge ends.  A poisoned word is marked uncorrectable where it is stored, and has status where it
passes through (R135, R288); an overruled push only advances the tail. -/
def pushWords (i q : Nat) (ws : List AWord) (bad clash : Bool) (s : State) : State :=
  let (offs, s) := ws.foldl (fun (acc : List Nat × State) w =>
    let (offs, s) := acc
    if clash then (offs, qStore i q w false s)
    else if s.qPasses i q then (offs, qAccept i q (if bad then AWord.mk false true 0 (AWord.data w) else w) s)
    else (s.qAddr i q (s.f (ISL_QPTR.TAIL i q)) * 4 :: offs, qAccept i q w s)) ([], s)
  qEnd i q false false false false (offs.foldl (fun s off => markEcc i off bad s) s)

/-- A write of `size` bytes at byte `off` of an island memory by the stream/DMA port; `clash` tells that the island port writes the same ECC
word at the same edge, `bad` that the data are poisoned.  Each queue whose push region holds the address takes the push, all of them or none.  A push that waits for room is
not counted in `REFUSED` (DESIGN CHOICE, log entry 64). -/
def portWrite (i off size data tags : Nat) (bad host clash : Bool) (s : State) : PortEnd × State :=
  match s.pushQueues i (off / 4) with
  | q :: qs =>
    if size < 4 then (.done, (q :: qs).foldl (fun s q => s.setF (ISL_QSTAT.QBAD i q) 1) s)
    else if (s.getIsl i).frozen then (.waits, s)
    else
      let ws : List AWord := BitVec.ofNat 36 (data % 2 ^ 32 + tags % 16 * 2 ^ 32) ::
        (if size = 8 then [BitVec.ofNat 36 (data / 2 ^ 32 % 2 ^ 32 + tags / 16 % 16 * 2 ^ 32)] else [])
      if (q :: qs).all (fun q => decide (s.qOcc i q + ws.length ≤ s.qLimit i q)) then
        let tail := s.qAddr i q (s.f (ISL_QPTR.TAIL i q)) * 4
        let s := (q :: qs).foldl (fun s q => pushWords i q ws bad clash s) s
        if clash then (.collided, recordCollision i tail s) else (.done, endInject i s)
      else if host then (.done, (q :: qs).foldl (fun s q => s.bump (ISL_QCNT.REFUSED i q)) s)
      else (.waits, s)
  | [] =>
    if clash then (.collided, recordCollision i off s)
    else (.done, portStore i off size data tags bad s)

/-- A read of `size` bytes at byte `off` by the stream/DMA port: the data, the tags of the ECC word, and whether it is poisoned (R141). -/
def portRead (i off size : Nat) (s : State) : Nat × Nat × Bool × State :=
  let (e, s) := eccRead i off 1 s
  let a := islMemBase i + off
  (Memory.num s.mem a size, s.tagsAt (off / 8 * 8 + islMemBase i) + 16 * s.tagsAt (off / 8 * 8 + 4 + islMemBase i), e == 2, s)

/-- Whether an access is one of the port's own: 1, 2, 4 or 8 bytes, aligned to its size. -/
def sizeOk (off size : Nat) : Bool := [1, 2, 4, 8].contains size && off % size == 0

/-- The accesses of a port that make up a request: itself, or, of another size or alignment, one of each of its bytes in ascending order, as offset, size and place
of its lowest bit. -/
def pieces (off size : Nat) : List (Nat × Nat × Nat) :=
  if sizeOk off size then [(off, size, 0)] else (List.range size).map (fun k => (off + k, 1, 8 * k))

/-- A read at the port, answered with the data, or with poison when one of its accesses was (R141). -/
def portAnswer (i off size : Nat) (s : State) : State :=
  let (d, bad, s) := (pieces off size).foldl (fun (acc : Nat × Bool × State) p =>
    let (d, bad, s) := acc
    let (v, _, b, s) := portRead i (p.1 % 0x4_0000) p.2.1 s
    (d + v * 2 ^ p.2.2, bad || b, s)) (0, false, s)
  s.emit (if bad then .poisoned (BitVec.ofNat 64 d) else .read (BitVec.ofNat 64 d))

/-- The port serves a request: what it leaves, and whether the request waits instead (R137, R147). -/
def portServe (i : Nat) (p : PortReq) (clash : Bool) (s : State) : Bool × State :=
  match p with
  | .read off size => (false, portAnswer i off.toNat size s)
  | .write off size data tags host =>
    (pieces off.toNat size).foldl (fun (acc : Bool × State) x =>
      if acc.1 then acc
      else
        match portWrite i (x.1 % 0x4_0000) x.2.1 (data.toNat / 2 ^ x.2.2 % 2 ^ (8 * x.2.1)) tags.toNat false host clash acc.2 with
        | (.done, s) => (false, s)
        | (.collided, s) => (false, s.emit .collided)
        | (.waits, s) => (true, s)) (false, s)

/-- Whether the island port has written, at the present edge, the ECC word that a write of the port goes to: the one at the tail for a push (R140, R147). -/
def State.clashes (s : State) (i off : Nat) : Bool :=
  match s.pushQueues i (off / 4) with
  | [] => (s.getIsl i).wrote.contains (off / 8)
  | qs => qs.any (fun q => (s.getIsl i).wrote.contains (s.qAddr i q (s.f (ISL_QPTR.TAIL i q)) / 2))

/-- Whether a request is a write that meets one of the island port at its edge. -/
def State.reqClashes (s : State) (i : Nat) (p : PortReq) : Bool :=
  match p with
  | .write off _ _ _ _ => s.clashes i off.toNat
  | .read _ _ => false

/-- The oldest request that waits in the port is served at the end of an edge once it finds room (R147); the owner's write of that edge overrules it (R140). -/
def portRetry (i : Nat) (s : State) : State :=
  match (s.getIsl i).portQ with
  | [] => s
  | p :: rest =>
    match portServe i p.req (s.reqClashes i p.req) s with
    | (true, _) => s
    | (false, s) => s.onIsl i (fun x => { x with portQ := rest })

/-- `ISLAND_MEMORY_ACCESS` (R137 to R142, R147): an access of the stream/DMA port.  An island whose clock does not run answers with the bus
error of R37; a push that finds too little room waits whole in the port, and what comes later waits behind it. -/
def execIslandMemoryAccess (i : Fin 156) (p : PortReq) (clash : Bool) (s : State) : Host.Outcome State Fault Refusal :=
  if !s.islClk i then .next (s.emit .busError)
  else
    let wait : State := s.onIsl i (fun x => { x with portQ := x.portQ ++ [{ req := p }] })
    if (s.getIsl i).portQ ≠ [] then .next wait
    else
      match portServe i p clash s with
      | (true, _) => .next wait
      | (false, s) => .next s

/-! ### Commands of the queue controllers -/

/-- `QUEUE_PUSH` (R146): the push source's word is accepted, passed through or refused against the queue's state; an accepted one ends the queue's edge. -/
def execQueuePush (i : Fin 156) (q : Fin 4) (s : State) : Host.Outcome State Fault Refusal :=
  let code := qPSRC (s.qcField i q (s.qcPlane i q))
  match s.offered i code (116 + q) with
  | none => .next s
  | some w =>
    if s.qOcc i q < s.qLimit i q then
      .next (settle i (qEnd i q false false false false (qAccept i q w (s.takeSrc i code (116 + q)))))
    else .next (s.bump (ISL_QCNT.REFUSED i q))

/-- Items popped from a queue since its mark: S of R168. -/
def State.replayS (s : State) (i q : Nat) : Nat := if s.qMarked i q then s.qOcc i q - s.qDepth i q else 0

/-- A lane that replays through a queue of an island issues MARK at an edge at which Q = S (R168); what it has still to discard was popped before that mark. -/
def laneMark (i l : Nat) (s : State) : State :=
  let x := s.getLane l
  let n := s.replayS i x.rpq
  if x.rpen ∧ x.stopped = false ∧ x.acked = n ∧ (n ≠ 0 ∨ s.qMarked i x.rpq = false) then
    (qGive i x.rpq 1 s).onLane l (fun x => { x with acked := 0, accepted := 0, replayDrop := x.replayDrop + x.ackDrop, ackDrop := 0 })
  else s

/-- The marks of the lanes at an island's row end. -/
def laneMarks (i : Nat) (s : State) : State :=
  let c := s.lcol i
  if c = 0 ∨ c = 11 then (List.range 8).foldl (fun s k => laneMark i (laneAt (rowOf i) (if c = 0 then 0 else 1) k) s) s else s

/-- `QUEUE_MARK` (R148). -/
def execQueueMark (i : Fin 156) (q : Fin 4) (s : State) : Host.Outcome State Fault Refusal :=
  .next (if s.islRuns i then qEnd i q true false false false s else s)

/-- `QUEUE_REWIND` (R148). -/
def execQueueRewind (i : Fin 156) (q : Fin 4) (s : State) : Host.Outcome State Fault Refusal :=
  .next (if s.islRuns i then qEnd i q false true false false s else s)

/-- `QUEUE_RELEASE` (R148). -/
def execQueueRelease (i : Fin 156) (q : Fin 4) (s : State) : Host.Outcome State Fault Refusal :=
  .next (if s.islRuns i then qEnd i q false false true false s else s)

/-- `QUEUE_FLUSH` (R148). -/
def execQueueFlush (i : Fin 156) (q : Fin 4) (s : State) : Host.Outcome State Fault Refusal :=
  .next (if s.islRuns i then qFlush i q s else s)

/-- The effect of `ISL_QCMDq.CLRCNT` (R154). -/
def qClearCounts (i q : Nat) (s : State) : State := s.wr (ISL_QCNT i q) 0

/-- The effect of a write of `ISL_QREGq` (R154): the region is set and the queue flushed. -/
def qregWrite (i q v : Nat) (s : State) : State :=
  qFlush i q ((combWrite i q s).wr (ISL_QREG i q) (BitVec.ofNat 64 (bitsOf v 27 16 * 2 ^ 16 + bitsOf v 15 4 * 16)))

/-! ### Patrol (R151 to R153) -/

/-- The byte offsets of the ECC words of window `n`. -/
def windowWords (n : Nat) : List Nat := (List.range 32).map (fun k => n * 256 + k * 8)

/-- Step 1: the window is borrowed.  From here on its words are those of the shadow: single-bit errors are corrected and counted in `CEFIX`, uncorrectable words stay
marked. -/
def patrolBorrow (i : Nat) (s : State) : State :=
  let s := (windowWords (s.f (ISL_PATROL_STAT.WIN i))).foldl (fun s off =>
    match s.found i off with
    | 0 => s
    | 1 => (s.setEcc (islMemBase i + off) 0).bump (ISL_PATROL_CNT.CEFIX i)
    | _ => s.setEcc (islMemBase i + off) 2) s
  (s.setF (ISL_PATROL_STAT.ACTIVE i) 1).setF (ISL_PATROL_STAT.STEP i) 1

/-- A cell that fails the march is a patrol fault: recorded while `FAULTS` = 0, whatever `VALID` holds (DESIGN CHOICE between R153 and R154, log entry 64), counted, logged,
and faulty from now on (R153). -/
def patrolFault (i : Nat) (cell : Fin 32 × Fin 80) (s : State) : State :=
  let (k, b) := cell
  let off := s.f (ISL_PATROL_STAT.WIN i) * 256 + k * 8
  let s :=
    if s.f (ISL_PATROL_CNT.FAULTS i) = 0 then s.wr (ISL_PATROL_FAULT i) (BitVec.ofNat 64 (2 ^ 31 + b * 2 ^ 18 + off)) else s
  let s := markCell (islMemBase i + off) b (s.bump (ISL_PATROL_CNT.FAULTS i))
  logErr 0x0103 (s.islPart i) (srcOf 0 i) (s.rd (ISL_PATROL_FAULT i)) 0 s

/-- Step 2: the march, with the cells that fail it (R153). -/
def patrolMarch (i : Nat) (faults : List (Fin 32 × Fin 80)) (s : State) : State :=
  faults.foldl (fun s c => patrolFault i c s) (s.setF (ISL_PATROL_STAT.STEP i) 2)

/-- Step 4: the shadow stands in the window again, and the engine moves to the next one. -/
def patrolReturn (i : Nat) (s : State) : State :=
  let n := s.f (ISL_PATROL_STAT.WIN i)
  let s := (s.setF (ISL_PATROL_STAT.ACTIVE i) 0).setF (ISL_PATROL_STAT.STEP i) 0
  let s := s.setF (ISL_PATROL_STAT.WIN i) ((n + 1) % 1024)
  if n = 1023 then s.setF (ISL_PATROL_STAT.SWEEPS i) ((s.f (ISL_PATROL_STAT.SWEEPS i) + 1) % 1024) else s

/-- `PATROL_WINDOW` (R151): a window's borrow, march, write-back and return, each when the engine stands before it. -/
def execPatrolWindow (i : Fin 156) (st : PatrolStep) (s : State) : Host.Outcome State Fault Refusal :=
  if !s.islRuns i then .next s
  else
    match st, s.f (ISL_PATROL_STAT.STEP i) with
    | .borrow, 0 => .next (if s.on (ISL_PATROL_CTL.EN i) then patrolBorrow i s else s)
    | .march faults, 1 => .next (patrolMarch i faults s)
    | .writeBack, 2 => .next (s.setF (ISL_PATROL_STAT.STEP i) 3)
    | .ret, 3 => .next (patrolReturn i s)
    | _, _ => .next s

end Sys2Proof.Machine
end

