-- ==== Sys2Proof/Machine/WordUnits.lean ====
section
/-!
DEFINITION. Machine/WordUnits.lean: the edge of an island's clock and the meanings of the word unit commands: firings and results (R47 to R51, R54
to R70), tokens (R52, R53) and block ends (R65 to R68).
-/
namespace Sys2Proof.Machine

/-! ### Edges of macrocells and lanes -/

/-- Rising edges of the macrocells from `old` to `now`, over those of the 24 that `mask` selects. -/
def rising (old now mask : BitVec 24) : BitVec 24 := now &&& ~~~old &&& mask

/-- Queue commands of macrocells (R148): a rising edge of the macrocell that `MKS`, `RWS` or `RLS` of a controller's plane names. -/
def edgeQueue (i q : Nat) (up : BitVec 24) (s : State) : State :=
  let v := s.qcField i q (s.qcPlane i q)
  let hit (m : Nat) : Bool := decide (m < 24) && up.getLsbD m
  qGive i q (b2n (hit (qMKS v)) + 2 * b2n (hit (qRWS v)) + 4 * b2n (hit (qRLS v))) s

/-- The `LS1` pulses of the lanes at an island's row end last for one of its cycles (R174). -/
def endPulses (i : Nat) (s : State) : State :=
  let c := s.lcol i
  if c = 0 ∨ c = 11 then
    (List.range 8).foldl (fun s k =>
      let l := laneAt (rowOf i) (if c = 0 then 0 else 1) k
      if (s.getLane l).ls1 then s.onLane l (fun x => { x with ls1 := false }) else s) s
  else s

/-! ### Firings -/

/-- The tags of a result (R57): `ST` given, `U1` and `U0` by `UT` from the tags of A and B. -/
def utTags (opw : Nat) (a b : BitVec 2) : BitVec 2 :=
  match opUT opw with
  | 0 => a
  | 1 => b
  | 2 => a ||| b
  | _ => 0

/-- The operand a skipped firing or PASS passes on: A, or M for PASS of a queue (R49, R55). -/
def passOperand (opw od : Nat) (a m : AWord) : AWord := if usesA opw od then a else m

/-- The predicate P of a unit at the present edge (R49). -/
def State.predicate (s : State) (i opw : Nat) : Bool := decide (opPSEL opw < 24) && (s.getIsl i).mcLast.getLsbD (opPSEL opw)

/-- Whether the predicate mode of an operation is met (R45, R49). -/
def pmMet (pm : Nat) (p : Bool) : Bool :=
  match pm with
  | 1 => p
  | 2 => !p
  | _ => true

/-- The flags of a word unit. -/
def State.wuFlags (s : State) (i u : Nat) : Flags := Flags.ofNat (s.f ((⟨ISL_WU_FLAGS i, 63, 0⟩ : RF).elem 4 u))

/-- Set the flags of a word unit (R56). -/
def State.setWuFlags (s : State) (i u : Nat) (f : Flags) : State := s.setF ((⟨ISL_WU_FLAGS i, 63, 0⟩ : RF).elem 4 u) f.toNat

/-- The M operand of a firing in indexed or sequential mode, or 0 with zero tags when unused (R51). -/
def readM (i u opw od : Nat) (a : AWord) (s : State) : AWord × State :=
  if usesM opw od then
    match mMode od with
    | 1 => islReadM i (mBase od + (AWord.data a).toNat % 65536) s
    | 2 =>
      let n := (s.getWu i u).seqM
      islReadSeq i u (mBase od + n) (s.onWu i u (fun w => { w with seqM := n + 1 }))
    | 3 => ((s.inHead i u 2).getD 0, s)
    | _ => (0, s)
  else (0, s)

/-! ### Results -/

/-- Words placed in the output register, or behind the words that stand there; a detector sees a token when it comes to stand in the register (R48, R78). -/
def place (i u : Nat) (ws : List AWord) (s : State) : State :=
  let s :=
    match (s.getWu i u).out, ws with
    | [], v :: _ => noteToken i u v (s.onWu i u (fun w => { w with taken := [] }))
    | _, _ => s
  settle i (s.onWu i u (fun w => { w with out := w.out ++ ws }))

/-- The word a result gives, with the tags of R57. -/
def resultWord (e : Firing) (st : Bool) (v : W32) : AWord :=
  AWord.mk false (st || AWord.st e.a || AWord.st e.b || AWord.st e.m) (utTags e.opw.toNat (AWord.tags e.a) (AWord.tags e.b)) v

/-- A store from the accumulator with the tags given, as a word, with `SATS` (R61, R64). -/
def storeAcc (i u opw : Nat) (tags : BitVec 2) (s : State) : AWord × State :=
  let w := s.getWu i u
  if opc opw = 0x33 then (AWord.mk false (w.poison || w.pinned) tags (w.acc.extractLsb' 0 32), s)
  else
    let (v, sat) := accStore (opK opw) (opSAT opw) w.acc
    (AWord.mk false (sat || w.pinned || w.poison) tags v, if sat then s.orF (ISL_WU_STAT.SATS i) (2 ^ u) else s)

/-- Clear the accumulator (R63 to R65). -/
def clearAcc (i u : Nat) (s : State) : State :=
  (s.onWu i u (fun w => { w with acc := 0, pinned := false, poison := false })).setWuFlags i u clearedFlags

/-- The accumulator after an accumulating firing: exact, pinned beyond 72 bits (R63), and its flags.  While it stays pinned every accumulation sets AOV again, also after
software has cleared the bit; a MISR firing replaces a pinned accumulator with its signature and V with 0, and the pin stays (DESIGN CHOICE, log entry 63). -/
def accumulate (i u : Nat) (e : Firing) (s : State) : State :=
  let w := s.getWu i u
  let code := opc e.opw.toNat
  let poison := w.poison || AWord.st e.a || AWord.st e.b
  if code = 0x33 then
    let v := misrStep (w.acc.extractLsb' 0 32) (AWord.data e.a) (AWord.data e.b)
    (s.onWu i u (fun w => { w with acc := BitVec.ofNat 72 v.toNat, poison := poison })).setWuFlags i u
      { z := v == 0, n := v.msb, c := false, v := false }
  else
    let x := w.acc.toInt + accDelta code (AWord.data e.a) (AWord.data e.b)
    let (x', sat) := clampS 72 x
    let acc := if w.pinned then w.acc else BitVec.ofInt 72 x'
    let pin := w.pinned || sat
    let s := s.onWu i u (fun w => { w with acc := acc, pinned := pin, poison := poison })
    let s := if pin then s.orF (ISL_WU_STAT.AOV i) (2 ^ u) else s
    s.setWuFlags i u (accFlags acc pin)

/-- A data word of BEXP, SMAX or SMIN changes the block state (R67, R68).  The position counter counts as stopped from the first word that finds it at 0xFFFF_FFFF (DESIGN
CHOICE, log entry 63). -/
def blockStep (e : Firing) (w : Wu) : Wu :=
  let opw := e.opw.toNat
  let st := AWord.st e.a || (usesB opw && AWord.st e.b)
  let w := { w with blkSt := w.blkSt || st }
  if opc opw = 0x58 then { w with bexp := min w.bexp (blockHeadroom (bitOf (opK opw) 0) (AWord.data e.a)) }
  else
    let ix : W32 := if bitOf (opK opw) 2 then AWord.data e.b else BitVec.ofNat 32 w.pos
    let w' := if bestReplaces opw (AWord.data e.a) w.best then { w with best := AWord.data e.a, index := ix, replaced := true } else w
    if w.pos = 0xFFFF_FFFF then { w' with posStop := true } else { w' with pos := w.pos + 1 }

/-- The block state at the start of a block (R67, R68).  After island reset under an operation other than SMAX and SMIN, the best value, which R70 does not give, is what
`bestInit` gives for that operation (DESIGN CHOICE, log entry 63). -/
def blockInit (opw : Nat) (w : Wu) : Wu :=
  if opc opw = 0x58 then { w with bexp := bexpInit opw, blkSt := false }
  else { w with best := bestInit opw, index := 0xFFFF_FFFF, pos := 0, posStop := false, replaced := false, blkSt := false }

/-- The words a completing firing emits, and the state after it (R55 to R65).  The user tags of ASTO are those that the last firing's own `UT` gave, whatever plane ASTO fires
in (DESIGN CHOICE, log entry 63). -/
def complete (i u : Nat) (e : Firing) (s : State) : List AWord × State :=
  let opw := e.opw.toNat
  let code := opc opw
  let w := s.getWu i u
  if e.skip then ((if opDROP opw then [] else [e.a]), s)
  else
    let tags := utTags opw (AWord.tags e.a) (AWord.tags e.b)
    let s := if code = 0x4F ∨ code = 0x50 then s else s.onWu i u (fun w => { w with lastTags := tags })
    if isAcc code then
      let s := accumulate i u e s
      if opEMIT opw = 0 then
        let (v, s) := storeAcc i u opw tags s
        ([v], s)
      else ([], s)
    else if code = 0x4F then
      let (v, s) := storeAcc i u opw w.lastTags s
      ([v], s)
    else if code = 0x50 then ([], clearAcc i u s)
    else if isBlock code then ([], s.onWu i u (blockStep e))
    else
      match alu opw w.t0 w.t1 (s.wuFlags i u) e.s (AWord.data e.a) (AWord.data e.b) (AWord.data e.m) with
      | none => ([], s)
      | some r =>
        let s := s.setWuFlags i u r.f
        let s := if r.sat then s.orF (ISL_WU_STAT.SATS i) (2 ^ u) else s
        ((if code = 0x21 ∧ r.val = 0 then [] else [resultWord e r.st r.val]), s)

/-- Read the 32 bytes of a permutation table from island memory (R59). -/
def readTable (i mbase : Nat) (s : State) : BitVec 160 × State :=
  let off := mbase / 8 * 8 * 4
  let s := (List.range 4).foldl (fun s k => (eccRead i (off + 8 * k) 0 s).2) s
  (BitVec.ofNat 160 ((List.range 32).foldl (fun t k => t + (s.byte (islMemBase i + off + k)).toNat % 32 * 2 ^ (5 * k)) 0), s)

/-- A PLD completes: its table is loaded and A leaves unchanged, tags included (R57, R59). -/
def completePld (i u : Nat) (e : Firing) (s : State) : List AWord × State :=
  let (t, s) := readTable i e.mbase.toNat s
  let s := s.onWu i u (fun w =>
    let w := { w with lastTags := AWord.tags e.a }
    if bitOf (opK e.opw.toNat) 0 then { w with t1 := t } else { w with t0 := t })
  ([e.a], s)

/-- A HINC completes: the bin is incremented, stopping at its largest value; C for a clamped bin, V for a full counter (R69).  The word is
written with the tags it had. -/
def completeHinc (i u : Nat) (e : Firing) (s : State) : List AWord × State :=
  let v := (AWord.data e.a).toNat / 2 ^ opK e.opw.toNat
  let w := e.mbase.toNat + min v 4095
  let old := s.memWord i w
  let full := old == 0xFFFF_FFFF
  let s := memWrite32 i w (if full then old else old + 1) (s.tagsAt (islMemBase i + w % 65536 * 4)) s
  let f := s.wuFlags i u
  ([], (s.setWuFlags i u { f with c := decide (4095 < v), v := full }).onWu i u
    (fun x => { x with lastTags := utTags e.opw.toNat (AWord.tags e.a) 0 }))

/-- What completes a firing, of whatever operation (R54, R56, R59, R69). -/
def completeAny (i u : Nat) (e : Firing) (s : State) : List AWord × State :=
  let code := opc e.opw.toNat
  if e.skip then complete i u e s
  else if code = 0x31 then completePld i u e s
  else if code = 0x60 then completeHinc i u e s
  else complete i u e s

/-- The collector's part in a firing (R324): it takes a word from each source and counts the vector. -/
def collAtFiring (i u : Nat) (r : W32 × Bool) (s : State) : Option AWord × State :=
  if s.on (ISL_FCAP_CFG.FEN i) ∧ s.f (ISL_FCAP_CFG.FSU i) = u then
    let fa := s.f (ISL_FCAP_CFG.FASRC i)
    let fx := s.f (ISL_FCAP_CFG.FXSRC i)
    let wa := s.collSrc i fa 120
    let wx := if fx = fa then wa else s.collSrc i fx 121
    let s := if wa.isSome then s.takeSrc i fa 120 else s
    let s := if fx ≠ fa ∧ wx.isSome then s.takeSrc i fx 121 else s
    collFire i r.1 r.2 wa wx s
  else (none, s)

/-- What the collector sees of a firing: its result and status, as the unit will emit it (R324, R326).  The firings ahead of it in the pipeline complete first. -/
def State.firingResult (s : State) (i u : Nat) (e : Firing) : W32 × Bool :=
  let opw := e.opw.toNat
  let w := s.getWu i u
  let st := AWord.st e.a || AWord.st e.b || AWord.st e.m
  if e.skip then (0, false)
  else
    match alu opw w.t0 w.t1 (s.wuFlags i u) e.s (AWord.data e.a) (AWord.data e.b) (AWord.data e.m) with
    | some r => (r.val, st || r.st)
    | none =>
      let s := w.pipe.foldl (fun s e => (completeAny i u e s).2) s
      match (completeAny i u e s).1 with
      | v :: _ => (AWord.data v, AWord.st v)
      | [] => (0, st)

/-- The island cycles from a firing to its result, with those that an indexed M adds (R51, R55). -/
def opLatency (opw od : Nat) : Nat :=
  let c := opCode opw
  (if c = 0x31 then 5 else if (0x40 ≤ c ∧ c ≤ 0x43) ∨ (0x48 ≤ c ∧ c ≤ 0x4E) ∨ c = 0x60 then 3 else if c = 0x34 ∨ c = 0x36 then 2 else 1) +
    (if usesM opw od && mMode od == 1 then 2 else 0)

/-- A firing of a word unit (R47 to R51): operands consumed, the pipeline entry made under the current plane (R54), and the collector's part.
`a`, `b` and the head of M are the operands.  Two choices (DESIGN CHOICE, log entry 63): a skipped firing leaves the sequential M counter as it is, and where M takes A's place
(R55) its user tags stand for A's. -/
def fire (i u : Nat) (s : State) : State :=
  let opw := s.curOp i u
  let od := s.curOd i u
  let a := if s.used i u 0 then (s.inHead i u 0).getD 0 else 0
  let b := if s.used i u 1 then (s.inHead i u 1).getD 0 else 0
  let p := s.predicate i opw
  let skip := !pmMet (opPM opw) p
  let cond := if opPM opw = 3 then p else (s.wuFlags i u).c
  let (m, s) := if skip then ((if s.queueM i u && s.used i u 2 then (s.inHead i u 2).getD 0 else 0), s) else readM i u opw od a s
  let x := if usesA opw od then a else m
  let e : Firing := { opw := BitVec.ofNat 32 opw, mbase := BitVec.ofNat 16 (mBase od), a := x, b := b, m := m, s := cond, skip := skip, tok := none,
                      left := opLatency opw od }
  let (tok, s) := collAtFiring i u (s.firingResult i u e) s
  let e := { e with tok := tok }
  let s := s.onWu i u (fun w => { w with pipe := w.pipe ++ [e] })
  let s := [0, 1, 2].foldl (fun s y => if s.isStream i u y then consumeIn i u y s else s) s
  if s.steers i ∧ s.f (ISL_FORK_CFG.SU i) = u then forkPoint i (s.bump (ISL_FORK_CNT.COUNT i)) else s

/-- Complete the oldest firing of a unit with what `g` makes of it, when the output register is free for what it emits. -/
def finishOldest (i u : Nat) (g : Firing → State → List AWord × State) (s : State) : State :=
  match (s.getWu i u).pipe with
  | [] => s
  | e :: rest =>
    let (ws, s') := g e s
    let ws := ws ++ e.tok.toList
    if ws ≠ [] ∧ (s.getWu i u).out ≠ [] then s
    else place i u ws (s'.onWu i u (fun w => { w with pipe := rest }))

/-- Whether the oldest firing of a unit is an executed firing of `code`. -/
def State.oldestIs (s : State) (i u code : Nat) : Bool :=
  match (s.getWu i u).pipe with
  | [] => false
  | e :: _ => opc e.opw.toNat == code && !e.skip

/-! ### Tokens (R52, R53, R65 to R68) -/

/-- Whether a unit can emit a token: nothing in its pipeline or its output register, so that its output stays in order (R48, R91). -/
def State.emitFree (s : State) (i u : Nat) : Bool := s.islRuns i && (s.getWu i u).out.isEmpty && (s.getWu i u).pipe.isEmpty

/-- Whether a unit owes a block result before it may forward the BLOCK or EOS token at A (R65 to R68). -/
def State.owesBlock (s : State) (i u : Nat) : Bool :=
  let opw := s.curOp i u
  let t := s.headType i u 0
  s.isStream i u 0 && (t == tokBLOCK || t == tokEOS) && !(s.getWu i u).blkDone &&
    (isBlock (opCode opw) || (isAcc (opCode opw) && decide (2 ≤ opEMIT opw)))

/-- Whether a SYNC token at an input waits for the fence of an armed island (R106). -/
def State.syncAwaited (s : State) (i u x : Nat) : Bool :=
  s.on (ISL_PLANE_AUX.ARMED i) && (s.getIsl i).unsw.contains u && s.headType i u x == tokSYNC &&
    ((s.marked i u).isEmpty || (s.marked i u).contains x)

/-- Whether the token rules of R52 handle the token at input `x`: not MOULT, not ABORT, not a SYNC token that a fence waits for, and not while a block result is owed to
the token at A, which goes first (R52, R66). -/
def State.plainToken (s : State) (i u x : Nat) : Bool :=
  s.headTk i u x && s.headType i u x != tokMOULT && s.headType i u x != tokABORT && !s.syncAwaited i u x && !s.owesBlock i u

/-- A BLOCK or EOS token that passes input A restarts the sequential M counter and the block (R51, R66). -/
def passesA (i u : Nat) (t : Nat) (s : State) : State :=
  if t = tokBLOCK ∨ t = tokEOS then s.onWu i u (fun w => { w with seqM := 0, seqPre := none, blkDone := false }) else s

/-- The unit forwards the token at the head of input `x` on its own. -/
def forward (i u x : Nat) (s : State) : State :=
  match s.inHead i u x with
  | none => s
  | some v =>
    let s := consumeIn i u x s
    place i u [v] (if x = 0 then passesA i u (AWord.type v) s else s)

/-! ### The join timers (R98, R99) -/

/-- The marked inputs of a unit that hold a token of a type, in the order A, B, M; a MOULT token that the input owes is not held (R100). -/
def State.holding (s : State) (i u t : Nat) : List Nat :=
  (s.marked i u).filter (fun x => s.headType i u x == t && (t != tokMOULT || !(s.getWu i u).owed.contains x))

/-- Whether a broadcast is held at a unit by the lock of its target plane: a switch that waits, or a fence that stands at its inputs (R106, R108). -/
def State.lockHeld (s : State) (i u : Nat) : Bool :=
  (Map.find (s.getIsl i).boxPend u).isSome ||
  (s.on (ISL_PLANE_AUX.ARMED i) && s.locked i (s.f (ISL_PLANE_AUX.ATGT i)) &&
    (if (s.marked i u).isEmpty then (s.streams i u).any (s.syncAwaited i u) else (s.marked i u).all (s.syncAwaited i u)))

/-- The plane a unit is to switch to: the target of its earliest held MOULT token, or of the broadcast held at it. -/
def State.heldPlane (s : State) (i u : Nat) : Nat :=
  match s.holding i u tokMOULT with
  | x :: _ => AWord.plane ((s.inHead i u x).getD 0)
  | [] => (Map.find (s.getIsl i).boxPend u).getD (if s.on (ISL_PLANE_AUX.ARMED i) then s.f (ISL_PLANE_AUX.ATGT i) else 0)

/-- Whether a unit waits for its switch: an incomplete join, or a lock (R98, R108). -/
def State.joinWaits (s : State) (i u : Nat) : Bool := !(s.holding i u tokMOULT).isEmpty || s.lockHeld i u

/-- The event, the count, the record and the log entry of a switch stall (R99). -/
def moultStall (i u : Nat) (s : State) : State :=
  let held := s.holding i u tokMOULT
  let pend := if held = [] then 0 else (s.marked i u).foldl (fun a x => if held.contains x then a else a + 2 ^ x) 0
  let lock := b2n (s.lockHeld i u || (pend == 0 && s.locked i (s.heldPlane i u)))
  let s := raiseAev (s.islPart i) 16 0 i (s.bump (ISL_MOULT_CNT.STALLS i))
  let s := if s.on (ISL_MOULT_STAT.STALL i) then s
    else ((((s.setF (ISL_MOULT_STAT.STALL i) 1).setF (ISL_MOULT_STAT.UNIT i) u).setF (ISL_MOULT_STAT.PEND i) pend).setF
      (ISL_MOULT_STAT.TPLANE i) (s.heldPlane i u)).setF (ISL_MOULT_STAT.LOCKWAIT i) lock
  logErr 0x0201 (s.islPart i) (srcOf 0 i) (s.rd (ISL_MOULT_STAT i)) 0 s

/-- Whether the join timer of a unit has reached the limit in a stall that has raised no event yet (R98, R99). -/
def State.stallDue (s : State) (i u : Nat) : Bool :=
  s.on (ISL_MOULT_WDT.LIMIT i) && s.joinWaits i u && decide (s.f (ISL_MOULT_WDT.LIMIT i) ≤ (s.getWu i u).timer) && !(s.getWu i u).stalled

/-- A stall raises its event once (R99). -/
def raiseStall (i u : Nat) (s : State) : State :=
  if s.stallDue i u then moultStall i u (s.onWu i u (fun w => { w with stalled := true })) else s

/-- The join timers at an island edge (R98, R99): a unit that waits for its switch counts, and stalls at the limit; any other restarts. -/
def tickTimers (i : Nat) (s : State) : State :=
  (List.range 16).foldl (fun s u =>
    let w := s.getWu i u
    if s.joinWaits i u then raiseStall i u (s.setWu i u { w with timer := w.timer + 1 })
    else if w.timer = 0 ∧ w.stalled = false then s
    else s.setWu i u { w with timer := 0, stalled := false }) s

/-! ### Joins, releases and broadcasts at an edge (R88 to R108) -/

/-- A token takes its place in the output order: in the output register, or behind the firings still in the pipeline (R91). -/
def placeOrdered (i u : Nat) (v : AWord) (s : State) : State :=
  if (s.getWu i u).pipe = [] then place i u [v] s
  else
    let e : Firing := { opw := 0, mbase := 0, a := v, b := 0, m := 0, s := false, skip := true, tok := none,
                        left := ((s.getWu i u).pipe.getLast?.map (·.left)).getD 0 }
    s.onWu i u (fun w => { w with pipe := w.pipe ++ [e] })

/-- A unit joins the held tokens of its inputs `xs`: they are consumed, the unit switches to the plane of the earliest, its followers with it, and that
token is forwarded (R88, R90).  Words that stand behind them in the inputs' entries are operands of the new plane, whatever source it selects (DESIGN CHOICE, log entry 53); these
inputs discard nothing before the switch, and after it only where the new plane is in join mode (R92). -/
def joinSwitch (i u : Nat) (xs : List Nat) (s : State) : State :=
  match xs with
  | [] => s
  | x :: _ =>
    let v := (s.inHead i u x).getD 0
    let p := AWord.plane v
    let mis := !xs.all (fun y => AWord.plane ((s.inHead i u y).getD 0) == p)
    let s := if mis then (s.setF (ISL_MOULT_STAT.MIS i) 1).setF (ISL_MOULT_STAT.MUNIT i) u else s
    let disc := (s.getWu i u).disc
    let s := xs.foldl (fun s y => consumeIn i u y s) (s.onWu i u (fun w => { w with disc := w.disc.filter (fun y => !xs.contains y) }))
    let s := switchUnit i u p s
    let s := s.setF (ISL_MOULT_CNT.SWITCHES i) ((s.f (ISL_MOULT_CNT.SWITCHES i) + 1) % 65536)
    let s := s.onWu i u (fun w => { w with timer := 0, stalled := false, disc := if opTJ (s.curOp i u) then disc else w.disc })
    placeOrdered i u v (forkCheck i s)

/-- The marked inputs of a unit without a MOULT token. -/
def State.lacking (s : State) (i u : Nat) : List Nat := (s.marked i u).filter (fun x => !(s.holding i u tokMOULT).contains x)

/-- Whether a release can complete the join of a unit (R100): it holds a token and lacks another.  A unit with no token held, or one that waits only for a locked plane,
is left alone, and so is one whose target is locked besides (DESIGN CHOICE, log entry 53). -/
def State.releasable (s : State) (i u : Nat) : Bool :=
  !(s.holding i u tokMOULT).isEmpty && !(s.lacking i u).isEmpty && !s.locked i (s.heldPlane i u)

/-- A release of unit `u` (R100): its join completes with the tokens held, and each marked input without one is owed. -/
def releaseUnit (i u : Nat) (s : State) : State :=
  let held := s.holding i u tokMOULT
  let missing := s.lacking i u
  if !s.releasable i u then s
  else
    let s := joinSwitch i u held s
    s.onWu i u (fun w => { w with owed := w.owed ++ missing.filter (fun x => !w.owed.contains x) })

/-- The effect of `ISL_MOULT_CTL.RELEASE` (R100): each unit named whose join is incomplete is released at the island's next edge. -/
def moultRelease (i mask : Nat) (s : State) : State :=
  let us := (onesOf 16 mask).filter (s.releasable i)
  if us.isEmpty then s else s.onIsl i (fun x => { x with relPend := us.foldl (fun a u => a ||| 2 ^ u) x.relPend })

/-- The releases due at an island edge. -/
def applyReleases (i : Nat) (s : State) : State :=
  let r := (s.getIsl i).relPend
  if r = 0 then s else (onesOf 16 r).foldl (fun s u => releaseUnit i u s) (s.onIsl i (fun x => { x with relPend := 0 }))

/-- Whether a word unit switches at the arrival of a fenced broadcast: no used input but parameter words and its own output (R106). -/
def State.fenceFree (s : State) (i u : Nat) : Bool := (s.streams i u).all (fun x => x != 2 && s.inSrc i u x == u)

/-- The elements that wait for a fence after a fenced broadcast: word units with stream inputs, the enabled elements of the box, and queue
controllers that switch at a push; the others switch with their unit, at arrival, or with idle elements (R94, R106). -/
def State.fenceWaiters (s : State) (i : Nat) : List Nat :=
  (List.range 16).filter (fun u => !s.fenceFree i u) ++ ((List.range 116).map (16 + ·)) ++
    ((List.range 4).filter (fun q => qFLW (s.qcField i q (s.qcPlane i q)) == 16)).map (133 + ·)

/-- A fenced broadcast arrives (R106): armed with its target; elements without a fence of their own switch, or wait for the lock of the target.  Switches that waited
for the lock of an earlier armed target are replaced (R108); the steering unit that switches reloads `CUR` (R311). -/
def armFence (i p : Nat) (s : State) : State :=
  let now := (List.range 16).filter (s.fenceFree i) ++
    ((List.range 4).filter (fun q => decide (17 ≤ qFLW (s.qcField i q (s.qcPlane i q))))).map (133 + ·)
  let wait := s.fenceWaiters i
  let s := (s.setF (ISL_PLANE_AUX.ARMED i) 1).setF (ISL_PLANE_AUX.ATGT i) p
  let s := s.onIsl i (fun x => { x with unsw := wait, boxPend := x.boxPend.filter (fun ep => !x.fencePend.contains ep.1), fencePend := [] })
  now.foldl (fun s e =>
    if e < 16 then (let s := requestUnit i e p s; if s.locked i p then s else steerSwitched i e s) else requestPlane i e p s true) s

/-- A broadcast takes effect at an island: every element at once, or the island is armed (R103, R106, R108). -/
def broadcast (i : Nat) (b : Bcast) (s : State) : State :=
  if b.fenced then armFence i b.plane.toNat s
  else
    let s := ((s.setF (ISL_PLANE_AUX.ARMED i) 0).setF (ISL_PLANE_AUX.ATGT i) 0).onIsl i (fun x => { x with unsw := [] })
    switchAll i b.plane.toNat s

/-- What arrived while a capture held the island takes effect, in the order of its arrival, at its first edge after the resume (R468). -/
def applyArrival (i : Nat) (a : Arrival) (s : State) : State :=
  match a with
  | .bcast b => settle i (broadcast i b s)
  | .arming k fp pp => settle i (forkArm i k fp pp s)
  | .resolution k fail => if bitOf (s.f (ISL_FORK_STAT.ARMED i)) k then forkResolve i k fail s else s
  | .param k v => s.setF (ISL_PARAM.VALUE i k) v.toNat

/-- All that arrived while a capture held the island. -/
def applyArrivals (i : Nat) (s : State) : State :=
  if (s.getIsl i).arrived = [] then s
  else (s.getIsl i).arrived.foldl (fun s a => applyArrival i a s) (s.onIsl i (fun x => { x with arrived := [] }))

/-- An arrival takes effect at a running island, waits at one that a capture holds (R468), and stays on its way to one whose clock does not run (R32, R103). -/
def arrive (i : Nat) (a : Arrival) (s : State) : State :=
  if s.islRuns i ∧ (s.getIsl i).arrived = [] then applyArrival i a s else s.onIsl i (fun x => { x with arrived := x.arrived ++ [a] })

/-- A cycle passes for the firings in an island's pipelines (R55). -/
def tickPipes (i : Nat) (s : State) : State :=
  (List.range 16).foldl (fun s u =>
    if (s.getWu i u).pipe.any (fun e => e.left != 0) then s.onWu i u (fun w => { w with pipe := w.pipe.map (fun e => { e with left := e.left - 1 }) }) else s) s

/-! ### The island edge -/

/-- The collector at an island edge: a waiting mark enters the FIFO, and 256 cycles without a firing after one that no mark covers send a progress mark (R328). -/
def collEdge (i : Nat) (s : State) : State :=
  let s := s.onColl i (fun c => { c.drain with idle := c.idle + 1 })
  let c := s.coll i
  if c.idle = 256 ∧ c.covered = false ∧ s.on (ISL_FCAP_CFG.FEN i) then collMark i .progress false c.lastCyc s else s

/-- The end of an island's edge, which its next edge brings: marks of replaying lanes, the write that waits in the port (R147), the queues' commands and levels (R148, R149), and
words that no consumer has yet to take (R116, R145). -/
def endEdge (i : Nat) (s : State) : State :=
  let s := portRetry i (laneMarks i s)
  let s := retireQueues i ((List.range 4).foldl (fun s q => qEnd i q false false false false s) s)
  if (s.getIsl i).wrote = [] then s else s.onIsl i (fun x => { x with wrote := [] })

/-- One edge of an island's clock, for everything but the commands that name themselves.  First the edge before it ends, and what a capture kept waiting takes effect
(R468); then come the token detectors (R78), the flag logic array (R73 to R77), the queue commands its macrocells give (R148), the fail drive (R76), idle elements of
the box (R94), switches that waited for a lock (R110), releases (R100), facing joints (R121), refusals (R132), the steering unit's fork point (R312), the marks of the
collector, the pipelines (R55) and the join timers (R98). -/
def islandEdge (i : Nat) (s : State) : State :=
  let s := applyArrivals i (endEdge i s)
  let s := s.onIsl i (fun x => { x with tdNow := x.tdNext, tdNext := 0 })
  let x := s.getIsl i
  let p := s.flaPlane i
  let now := s.mcAll i
  let up := rising x.mcLast now (BitVec.ofNat 24 (2 ^ 24 - 1))
  let q := s.qAll i
  let ff := s.ffen i p && now.getLsbD 23
  let s := s.onIsl i (fun x => { x with q := q, mcLast := now, ffDrive := ff, ffRise := x.ffRise || ff, cycle := x.cycle + 1 })
  let ev := s.even i p
  let s := (List.range 8).foldl (fun s k => if bitOf ev k && up.getLsbD (16 + k) then islandEvent i k s else s) s
  let s := (List.range 4).foldl (fun s qn => edgeQueue i qn up s) s
  let s := waitFacing i (applyReleases i (applyPending i (followIdle i s)))
  let s := forkEdge i (recountRefusal i s)
  settle i (endPulses i (tickTimers i (tickPipes i (collEdge i s))))

/-! ### The commands of firings and results -/

/-- `WORD_UNIT_FIRING` (R47). -/
def execWordUnitFiring (i : Fin 156) (u : Fin 16) (edge : Bool) (s : State) : Host.Outcome State Fault Refusal :=
  let s := if edge ∧ s.islRuns i then islandEdge i s else s
  .next (if s.canFire i u then fire i u s else s)

/-- `FIRING_RESULT` (R56): the oldest firing's result, its flags and its effect on the unit's state; PLD and HINC complete by commands of their own. -/
def execFiringResult (i : Fin 156) (u : Fin 16) (edge : Bool) (s : State) : Host.Outcome State Fault Refusal :=
  let s := if edge ∧ s.islRuns i then islandEdge i s else s
  if s.islRuns i ∧ ¬ s.oldestIs i u 0x31 ∧ ¬ s.oldestIs i u 0x60 then .next (finishOldest i u (complete i u) s) else .next s

/-- `PLD_COMPLETE` (R59). -/
def execPldComplete (i : Fin 156) (u : Fin 16) (s : State) : Host.Outcome State Fault Refusal :=
  .next (if s.islRuns i ∧ s.oldestIs i u 0x31 then finishOldest i u (completePld i u) s else s)

/-- `HINC_WRITE` (R69). -/
def execHincWrite (i : Fin 156) (u : Fin 16) (s : State) : Host.Outcome State Fault Refusal :=
  .next (if s.islRuns i ∧ s.oldestIs i u 0x60 then finishOldest i u (completeHinc i u) s else s)

/-! ### The commands of tokens -/

/-- `TOKEN_PASS` (R52, TJ = 0): the token of the earliest of A, B and M is forwarded on its own. -/
def execTokenPass (i : Fin 156) (u : Fin 16) (s : State) : Host.Outcome State Fault Refusal :=
  if s.emitFree i u ∧ opTJ (s.curOp i u) = false then
    match (s.streams i u).find? (s.plainToken i u) with
    | none => .next s
    | some x => .next (forward i u x s)
  else .next s

/-- The unit consumes the tokens at the heads of the inputs `xs` and emits the earliest one. -/
def joinTokens (i u : Nat) (xs : List Nat) (s : State) : State :=
  match xs with
  | [] => s
  | x :: _ =>
    match s.inHead i u x with
    | none => s
    | some v =>
      let t0 := s.headType i u 0
      let a := xs.contains 0
      let s := xs.foldl (fun s y => consumeIn i u y s) s
      place i u [v] (if a then passesA i u t0 s else s)

/-- `TOKEN_JOIN` (R52, TJ = 1): once every used stream input presents a token the unit consumes them all and emits one. -/
def execTokenJoin (i : Fin 156) (u : Fin 16) (s : State) : Host.Outcome State Fault Refusal :=
  let xs := s.streams i u
  if s.emitFree i u ∧ opTJ (s.curOp i u) = true ∧ xs ≠ [] ∧ xs.all (s.plainToken i u) = true then
    let t := s.headType i u (xs.headD 0)
    let mix := !xs.all (fun x => s.headType i u x == t)
    let s := joinTokens i u xs s
    .next (if mix then s.orF (ISL_WU_STAT2.TKMIS i) (2 ^ u.val) else s)
  else .next s

/-- Discard the data words at the entries of an input (R53). -/
def discardData (i u x : Nat) (s : State) : State :=
  if x = 2 then s
  else settle i (s.onWu i u (fun w => w.setEntries x ((w.entries x).dropWhile (fun v => !AWord.tk v))))

/-- An input that discards after an ABORT drops data and the ABORT token that ends the discard (R53). -/
def discardStep (i u x : Nat) (s : State) : State :=
  match s.inHead i u x with
  | some v =>
    if AWord.tk v then
      if v.type = tokABORT then (consumeIn i u x s).onWu i u (fun w => { w with disc := w.disc.erase x }) else s
    else consumeIn i u x s
  | none => s

/-- Whether an input that discards has something to drop: data, or the ABORT token that ends the discard (R53). -/
def State.discards (s : State) (i u x : Nat) : Bool :=
  match s.inHead i u x with
  | some v => !AWord.tk v || v.type == tokABORT
  | none => false

/-- `ABORT_TOKEN` (R53, R92): inputs that discard drop what they present, an ABORT token that ends it among it.  Where none has anything to drop, the ABORT token of the
earliest other input is forwarded; in join mode each other used stream input then discards up to its own. -/
def execAbortToken (i : Fin 156) (u : Fin 16) (s : State) : Host.Outcome State Fault Refusal :=
  let disc := (s.getWu i u).disc
  if !s.islRuns i then .next s
  else if disc.any (s.discards i u) then .next (disc.eraseDups.foldl (fun s x => discardStep i u x s) s)
  else if s.emitFree i u then
    match (s.streams i u).find? (fun x => s.headType i u x == tokABORT) with
    | none => .next s
    | some x =>
      let others := (s.streams i u).filter (fun y => y != x)
      let join := opTJ (s.curOp i u)
      let s := forward i u x s
      .next (if join then others.foldl (fun s y => discardData i u y s) (s.onWu i u (fun w => { w with disc := w.disc ++ others })) else s)
  else .next s

/-- The block result of a unit: the words emitted before the token, and the state after (R65, R67, R68).  A first BEXP block in dual mode after a reset under another plane
starts from the m = 31 of R70 and, empty, emits it (DESIGN CHOICE, log entry 63). -/
def blockResult (i u : Nat) (s : State) : List AWord × State :=
  let opw := s.curOp i u
  let code := opCode opw
  let w := s.getWu i u
  if isAcc code then
    let (v, s) := storeAcc i u opw w.lastTags s
    ([v], if opEMIT opw = 2 then clearAcc i u s else s)
  else if code = 0x58 then
    let r := resR (BitVec.ofNat 32 w.bexp) false false
    ([AWord.mk false w.blkSt w.lastTags r.val], (s.setWuFlags i u r.f).onWu i u (blockInit opw))
  else
    let r := resR w.best w.replaced false
    ([AWord.mk false w.blkSt w.lastTags w.best, AWord.mk false (w.blkSt || w.posStop) w.lastTags w.index],
      (s.setWuFlags i u r.f).onWu i u (blockInit opw))

/-- `BLOCK_END_EMISSION` (R65 to R68): a BLOCK or EOS token at A with no firing before it left in the pipeline makes the unit emit its block result and
then, in pass mode, the token; in join mode the token waits for its join. -/
def execBlockEndEmission (i : Fin 156) (u : Fin 16) (s : State) : Host.Outcome State Fault Refusal :=
  if s.emitFree i u ∧ s.owesBlock i u then
    let v := (s.inHead i u 0).getD 0
    let join := opTJ (s.curOp i u)
    let (ws, s) := blockResult i u s
    if join then .next (place i u ws (s.onWu i u (fun w => { w with blkDone := true })))
    else .next (place i u (ws ++ [v]) (passesA i u (AWord.type v) (consumeIn i u 0 s)))
  else .next s

end Sys2Proof.Machine
end

