-- ==== Sys2Proof/Machine/Planes.lean ====
section
/-!
DEFINITION. Machine/Planes.lean: the meanings of the commands of plane changes (R85 to R111): relays, joins, drops and releases of MOULT tokens, the watchdog,
broadcasts, fork armings and resolutions as they arrive.
-/
namespace Sys2Proof.Machine

/-- `MOULT_RELAY` (R87): an unmarked unit forwards the MOULT token of the earliest of A, B and M, whatever its token mode. -/
def execMoultRelay (i : Fin 156) (u : Fin 16) (s : State) : Host.Outcome State Fault Refusal :=
  if s.emitFree i u ∧ (s.marked i u).isEmpty = true then
    match (s.streams i u).find? (fun x => s.headType i u x == tokMOULT && !(s.getWu i u).owed.contains x) with
    | none => .next s
    | some x => .next (forward i u x s)
  else .next s

/-- `PLANE_CHANGE_JOIN` (R88). -/
def execPlaneChangeJoin (i : Fin 156) (u : Fin 16) (s : State) : Host.Outcome State Fault Refusal :=
  let ms := s.marked i u
  if s.islRuns i ∧ (s.getWu i u).out = [] ∧ (s.getWu i u).pipe.length < 5 ∧ ms ≠ [] ∧ ms.all (fun x => s.headType i u x == tokMOULT && !(s.getWu i u).owed.contains x) = true ∧
      s.locked i (s.heldPlane i u) = false then
    .next (joinSwitch i u ms s)
  else .next s

/-- `MOULT_DROP` (R89): a MOULT token at an unmarked used stream input of a marked unit is consumed and counted. -/
def execMoultDrop (i : Fin 156) (u : Fin 16) (s : State) : Host.Outcome State Fault Refusal :=
  let ms := s.marked i u
  if s.islRuns i ∧ ms ≠ [] then
    match (s.streams i u).find? (fun x => !ms.contains x && s.headType i u x == tokMOULT && !(s.getWu i u).owed.contains x) with
    | none => .next s
    | some x => .next (consumeIn i u x (s.bump (ISL_MOULT_CNT.DROPS i)))
  else .next s

/-- `OWED_TOKEN_DROP` (R100): the MOULT token at an owed input is consumed without effect and its owed bit cleared. -/
def execOwedTokenDrop (i : Fin 156) (u : Fin 16) (s : State) : Host.Outcome State Fault Refusal :=
  if s.islRuns i then
    match (s.getWu i u).owed.find? (fun x => s.headType i u x == tokMOULT) with
    | none => .next s
    | some x =>
      let s := consumeIn i u x (s.bump (ISL_MOULT_CNT.DROPS i))
      .next (s.onWu i u (fun w => { w with owed := w.owed.erase x }))
  else .next s

/-- `JOIN_RELEASE` (R100): a write of `ISL_MOULT_CTL.RELEASE` by the physical function. -/
def execJoinRelease (i : Fin 156) (mask : BitVec 16) (s : State) : Host.Outcome State Fault Refusal :=
  .next (islWrite i (ISL_MOULT_CTL i) (moultRelease i mask.toNat) s)

/-- `MOULT_STALL` (R99): the join timer of a unit has reached the limit; the event is raised once for the stall and the unit goes on waiting. -/
def execMoultStall (i : Fin 156) (u : Fin 16) (s : State) : Host.Outcome State Fault Refusal := .next (if s.islRuns i then raiseStall i u s else s)

/-- `MOULT_CLRCNT` (R111). -/
def execMoultClrcnt (i : Fin 156) (s : State) : Host.Outcome State Fault Refusal :=
  .next (islWrite i (ISL_MOULT_CTL i) (fun s => s.wr (ISL_MOULT_CNT i) 0) s)

/-! ### Broadcasts and fences (R102 to R108) -/

/-- `BROADCAST_ARRIVAL` (R103, R108): the oldest broadcast on its way to a running island takes effect at its edge, and waits at one that a capture holds (R468); while its
target is locked each element waits. -/
def execBroadcastArrival (i : Fin 156) (s : State) : Host.Outcome State Fault Refusal :=
  match (s.getIsl i).bcasts with
  | [] => .next s
  | b :: rest => .next (if s.islClk i then arrive i (.bcast b) (s.onIsl i (fun x => { x with bcasts := rest })) else s)

/-- `FORK_ARMING` (R313): the oldest arming on its way to the island arrives. -/
def execForkArming (i : Fin 156) (s : State) : Host.Outcome State Fault Refusal :=
  match (s.getIsl i).forkIn with
  | [] => .next s
  | (k, fp, pp) :: rest =>
    let ahead (x : Isl) : Isl := { x with forkIn := rest, resIn := x.resIn.map (fun r => (r.1, r.2.1, r.2.2 - 1)) }
    .next (if s.islClk i ∧ (s.getIsl i).resIn.all (fun r => r.2.2 != 0) = true then arrive i (.arming k fp pp) (s.onIsl i ahead) else s)

/-- `FORK_RESOLUTION` (R315, R317): the oldest resolution on its way to the island arrives; one of a set that is not armed does nothing. -/
def execForkResolution (i : Fin 156) (s : State) : Host.Outcome State Fault Refusal :=
  match (s.getIsl i).resIn with
  | [] => .next s
  | (k, out, ahead) :: rest =>
    .next (if s.islClk i ∧ ahead = 0 then arrive i (.resolution k out) (s.onIsl i (fun x => { x with resIn := rest })) else s)

/-- The fence of a word unit (R106): the SYNC tokens at its marked inputs are joined, or the one at any stream input of an unmarked unit is forwarded, and
the unit switches with its followers, which no counter counts (DESIGN CHOICE, log entry 53); the steering unit reloads `CUR`, because the fence is its broadcast's (R311). -/
def fenceUnit (i u : Nat) (s : State) : State :=
  let p := s.f (ISL_PLANE_AUX.ATGT i)
  let ms := s.marked i u
  let xs := if ms.isEmpty then ((s.streams i u).filter (fun x => s.headType i u x == tokSYNC)).take 1
    else if ms.all (fun x => s.headType i u x == tokSYNC) then ms else []
  match xs with
  | [] => s
  | x :: _ =>
    let v := (s.inHead i u x).getD 0
    let s := xs.foldl (fun s y => consumeIn i u y s) s
    let s := fenceDone i u (switchUnit i u p s)
    placeOrdered i u v (steerSwitched i u s)

end Sys2Proof.Machine
end

