-- ==== Sys2Proof/Machine/Routing.lean ====
section
/-!
DEFINITION. Machine/Routing.lean: words on segments, spine joints and port tracks and their way into the termination FIFOs (R112 to R127), and the meanings
of the routing commands.
-/
namespace Sys2Proof.Machine

/-- A word enters a termination FIFO, passing the termination's multiplexer (R93, R122). -/
def fifoEnter (i t : Nat) (w : AWord) (s : State) : State :=
  settle i (passBox i (96 + t) w (s.onIsl i (fun x => { x with fifos := Map.set x.fifos t (Map.getD x.fifos t [] ++ [w]) })))

/-- A word is presented to terminations, each an island and a number coded `32 * island + t`: those that are open and have room take it unless they already have; the result
lists all that have taken it, and whether a full FIFO refused (R116, R123). -/
def offerTo (w : AWord) (targets taken : List Nat) (s : State) : List Nat × Bool × State :=
  targets.foldl (fun (acc : List Nat × Bool × State) x =>
    let (tk, ref, s) := acc
    if tk.contains x ∨ s.fifoOpen (x / 32) = false then acc
    else if 6 ≤ s.fifoLen (x / 32) (x % 32) then (tk, true, s)
    else (x :: tk, ref, fifoEnter (x / 32) (x % 32) w s)) (taken, false, s)

/-- A box element presents its word to the terminations it leads to, and keeps who has taken it; once the passage is done the word leaves (R116, R123).  A word that
stands on the element since before it changed its source leaves with the last termination that it is kept for. -/
def present (i e : Nat) (w : AWord) (s : State) : State :=
  match Map.find (s.getIsl i).boxHold e with
  | some _ =>
    let rest := ((s.presents i e).map (·.2)).getD []
    let (tk, ref, s) := offerTo w rest [] s
    let s := if ref then countRefusal i s else s
    let rest := rest.filter (fun x => !tk.contains x)
    if rest = [] then settle i (passBox i e w (s.onIsl i (fun x => { x with boxHold := Map.del x.boxHold e })))
    else s.onIsl i (fun x => { x with boxHold := Map.set x.boxHold e (w, rest) })
  | none =>
    let (tk, ref, s) := offerTo w (s.targetsOf i e) (Map.getD (s.getIsl i).segTaken e []) s
    let s := if ref then countRefusal i s else s
    if s.passageDone i e tk then
      settle i (passBox i e w ((s.onIsl i (fun x => { x with segTaken := Map.del x.segTaken e })).takeSrc i (s.boxCode i e) (boxCid e)))
    else s.onIsl i (fun x => { x with segTaken := Map.set x.segTaken e tk })

/-- A driven segment of an island presents its word to the terminations of its end island (R113, R116, R123): the word leaves when all have taken it; at a
fence it is discarded (R127); at a row end the ports take it by their own commands; with no termination that selects it it stays; a segment that does not exist takes
nothing (R113, R114). -/
def pushSegment (i k : Nat) (s : State) : State :=
  match s.segWord i k with
  | none => s
  | some w =>
    match s.segEnd i k with
    | .isl _ =>
      if s.segFenced i k then
        let s := (s.setF (ISL_RT_STAT.FENCED i) 1).bump (ISL_RT_CNT.FDROP i)
        settle i (passBox i (16 + k) w
          (if (Map.find (s.getIsl i).boxHold (16 + k)).isSome then s.onIsl i (fun x => { x with boxHold := Map.del x.boxHold (16 + k) })
           else s.takeSrc i (s.boxCode i (16 + k)) (32 + k)))
      else present i (16 + k) w s
    | _ => s

/-- A spine joint that drives and does not wait presents its word to the terminations that tap its segments (R118, R119); one that meets a driver of the same piece
waits from now on (R121).  A word that a joint drives to both sides leaves when the taps of both have taken it. -/
def pushJoint (i t : Nat) (s : State) : State :=
  if (s.getIsl i).spWait.contains t then s
  else if s.spineOpposed i t then updateJoint i t s
  else
    match s.boxWord i (128 + t) with
    | none => s
    | some w => present i (128 + t) w s

/-- The terminations of a row end's island that select position `k` of the port's arriving tracks (R117). -/
def State.portTargets (s : State) (r e k : Nat) : List Nat :=
  let i := s.endIsl r e
  (s.termsOf i (if e = 0 then k else 0x20 + k)).map (fun t => 32 * i + t)

/-- Position of a lane: row, end and number at the row end (R39). -/
def laneRow (l : Nat) : Nat := l / 16
def laneEnd (l : Nat) : Nat := l % 16 / 8
def lanePos (l : Nat) : Nat := l % 8

/-- What a lane does when a word has left its buffer: with the last of a block an untimed lane grants a credit again, but for the blocks of before its training (R166). -/
def laneWordLeft (f : Nat) (blockEnds : Bool) (s : State) : State :=
  if !blockEnds then s
  else
    s.onLane f (fun x =>
      if x.stale ≠ 0 then { x with stale := x.stale - 1 }
      else if x.rxt then x
      else { x with granted := (x.granted + 1) % 65536 })

/-- The word a lane's stream offers to track `j` of its group: none while it is the later word of a block whose `HALF` is not known (R158, R163). -/
def Lane.offer (x : Lane) (g j : Nat) : Option AWord :=
  if x.late ∧ x.buf.items.tail.all (fun y => AWord.tk y.w) = true ∧ (x.buf.items.head?.map (fun y => AWord.tk y.w)) = some false then none
  else x.buf.offer g j

/-- The receive stream of a lane presents its word to its track (R117, R163); with intake held it offers none (R105). -/
def pushLane (l : Nat) (s : State) : State :=
  let r := laneRow l
  let e := laneEnd l
  let (f, g, _, _) := s.groupOf l
  if s.intakeHeld (s.owner r) then s
  else
    match (s.getLane f).offer g (l - f) with
    | none => s
    | some w =>
      let targets := s.portTargets r e (lanePos l)
      let key := 1000 + l
      let i := s.endIsl r e
      let (tk, _, s) := offerTo w targets (Map.getD (s.getIsl i).segTaken key []) s
      if targets.isEmpty ∨ ¬ (targets.all tk.contains = true) then s.onIsl i (fun x => { x with segTaken := Map.set x.segTaken key tk })
      else
        let s := s.onIsl i (fun x => { x with segTaken := Map.del x.segTaken key })
        let (b', ends) := (s.getLane f).buf.take g (l - f)
        laneWordLeft f ends (s.onLane f (fun x => { x with buf := b' }))

/-- The port rings the doorbell of a stream that asks for it, if the sequencer belongs to the partition (R295). -/
def mspNotify (p k : Nat) (s : State) : State :=
  let q := s.f (MSP_CFG.SEQ p k)
  if s.on (MSP_CFG.NOTIFY p k) ∧ q < 24 ∧ bitOf (s.f (GLB_PART_SEQ.MASK (s.owner (p / 2)))) q then setDoorbell q (2 ^ s.f (MSP_CFG.DB p k)) s else s

/-- A running read stream whose whole range has been accepted is done (R293, R295, R305). -/
def readDone (p k : Nat) (s : State) : State :=
  if s.f (MSP_CSR.STATE p k) = 3 ∧ (s.getMsp p k).filling = false then mspNotify p k (s.setF (MSP_CSR.STATE p k) 5) else s

/-- A read stream of a memory stream port presents its word to its track (R117, R293); with intake held it offers none (R105), nor while it fills or is suspended
(R298); a ready timed stream runs from its first word, and one that finds its share empty notes it (R296, R297). -/
def pushRead (p k : Nat) (s : State) : State :=
  let r := p / 2
  let e := p % 2
  let (f, g) := s.mspGroup p k
  if s.intakeHeld (s.owner r) then s
  else
    let b := (s.getMsp p f).buf
    let st := s.f (MSP_CSR.STATE p f)
    if st = 1 ∨ st = 4 then s
    else
    match b.offer g (k - f) with
    | none => if st = 3 ∧ s.on (MSP_CFG.TIMED p f) ∧ b.items = [] ∧ (s.getMsp p f).filling then s.setF (MSP_CSR.STARVE p f) 1 else s
    | some w =>
      let targets := s.portTargets r e (8 + k)
      let key := 2000 + p * 16 + k
      let i := s.endIsl r e
      let (tk, _, s) := offerTo w targets (Map.getD (s.getIsl i).segTaken key []) s
      if targets.isEmpty ∨ ¬ (targets.all tk.contains = true) then s.onIsl i (fun x => { x with segTaken := Map.set x.segTaken key tk })
      else
        let s := s.onIsl i (fun x => { x with segTaken := Map.del x.segTaken key })
        let s := s.setMsp p f { s.getMsp p f with buf := (b.take g (k - f)).1 }
        readDone p f (if st = 2 then s.setF (MSP_CSR.STATE p f) 3 else s)

/-- A driver presents its word (R123). -/
def pushDriver (d : Driver) (s : State) : State :=
  match d with
  | .seg i k => pushSegment i k s
  | .joint i t => pushJoint i t s
  | .lane l => pushLane l s
  | .msp p k => pushRead p k s

/-- The word a driver presents. -/
def State.driverWord (s : State) (d : Driver) : Option AWord :=
  match d with
  | .seg i k => s.segWord i k
  | .joint i t => s.boxWord i (128 + t.val)
  | .lane l => let (f, g, _, _) := s.groupOf l; (s.getLane f).offer g (l - f)
  | .msp p k => let (f, g) := s.mspGroup p k; (s.getMsp p f).buf.offer g (k - f)

/-- `FIFO_PUSH` (R123). -/
def execFifoPush (d : Driver) (s : State) : Host.Outcome State Fault Refusal := .next (pushDriver d s)

/-- `SEGMENT_SWITCH` (R93, R94): a MOULT token that a driver presents passes the segment and the terminations that select it. -/
def execSegmentSwitch (d : Driver) (s : State) : Host.Outcome State Fault Refusal :=
  match s.driverWord d with
  | some w => .next (if w.type = tokMOULT then pushDriver d s else s)
  | none => .next s

/-- `SPINE_DRIVE` (R121): a joint that waited drives once no other joint drives its piece from the opposite side. -/
def execSpineDrive (i : Fin 156) (t : Fin 4) (s : State) : Host.Outcome State Fault Refusal :=
  if s.islRuns i ∧ (s.getIsl i).spWait.contains t.val = true ∧ s.spineOpposed i t = false then .next (updateJoint i t s) else .next s

/-- `RT_CLRCNT` (R132). -/
def execRtClrcnt (i : Fin 156) (s : State) : Host.Outcome State Fault Refusal := .next (islWrite i (ISL_RT_CTL i) (clearRouteCounts i) s)

/-- `FENCE_PASSAGE` (R106): in an armed island a SYNC token passes element `e`: a word unit joins or forwards it and switches once the target is not locked; a
segment, a joint or a queue controller switches as the SYNC token it presents passes it. -/
def execFencePassage (i : Fin 156) (e : Fin 137) (s : State) : Host.Outcome State Fault Refusal :=
  if s.islRuns i ∧ s.on (ISL_PLANE_AUX.ARMED i) ∧ (s.getIsl i).unsw.contains e.val = true then
    if e.val < 16 then
      .next (if (s.getWu i e).out = [] ∧ (s.getWu i e).pipe.length < 5 ∧ s.locked i (s.f (ISL_PLANE_AUX.ATGT i)) = false then fenceUnit i e s else s)
    else if e.val < 96 then
      match s.segWord i (e - 16) with
      | some w => .next (if w.type = tokSYNC then pushSegment i (e - 16) s else s)
      | none => .next s
    else if 128 ≤ e.val ∧ e.val < 132 then
      match s.boxWord i e with
      | some w => .next (if w.type = tokSYNC then pushJoint i (e - 128) s else s)
      | none => .next s
    else .next s
  else .next s

/-- Whether an island holds no word in its FIFOs, input buffers, pipelines and output registers (R105). -/
def Isl.drained (x : Isl) : Bool :=
  x.fifos.all (fun f => f.2.isEmpty) && x.boxHold.isEmpty &&
  x.wus.all (fun w => w.2.a.isEmpty && w.2.b.isEmpty && w.2.m.isEmpty && w.2.pipe.isEmpty && w.2.out.isEmpty)

/-- Whether a partition is drained (R105). -/
def State.drained (s : State) (n : Nat) : Bool := (s.islandsOf n).all (fun i => (s.getIsl i).drained)

/-- `ARRAY_IDLE` (R105): the partition is drained and raises the array event `AIDLE`. -/
def execArrayIdle (n : Fin 12) (s : State) : Host.Outcome State Fault Refusal :=
  .next (if s.enabled n ∧ s.drained n then raiseAev n 19 0 0 s else s)

end Sys2Proof.Machine
end

