-- ==== Sys2Proof/Machine/IslandRegs.lean ====
section
/-!
DEFINITION. Machine/IslandRegs.lean: the meanings of the commands that read or write one register of an island (R80, R154, R317, R322, R330).  Each is an access by
the physical function: with the island's clock stopped it is a gated access (R33).
-/
namespace Sys2Proof.Machine

/-- `QUEUE_CLRCNT` (R154). -/
def execQueueClrcnt (i : Fin 156) (q : Fin 4) (s : State) : Host.Outcome State Fault Refusal :=
  .next (islWrite i (ISL_QCMD i q) (qClearCounts i q) s)

/-- `QREG_WRITE` (R154). -/
def execQregWrite (i : Fin 156) (q : Fin 4) (v : BitVec 32) (s : State) : Host.Outcome State Fault Refusal :=
  .next (islWrite i (ISL_QREG i q) (qregWrite i q v.toNat) s)

/-- `CLRECC` (R154). -/
def execClrecc (i : Fin 156) (s : State) : Host.Outcome State Fault Refusal :=
  .next (islWrite i (ISL_MEM_CTL i) (fun s => s.wr (ISL_MEM_ECC i) 0) s)

/-- `ISL_CLRCOLL` (R154). -/
def execIslClrcoll (i : Fin 156) (s : State) : Host.Outcome State Fault Refusal :=
  .next (islWrite i (ISL_MEM_CTL i) (fun s => s.wr (ISL_MEM_COLL i) 0) s)

/-- A read of `ISL_WU_ACC_LOn`: the guard byte and the pin state are latched (R80). -/
def latchGuard (i n : Nat) (s : State) : State :=
  let w := s.getWu i n
  (s.setF (ISL_WU_ACC_HI.GUARD i n) (w.acc.toNat / 2 ^ 64)).setF (ISL_WU_ACC_HI.PIN i n) (b2n w.pinned)

/-- `ACC_LO_READ` (R80, R81): a 64-bit read, or the read of the lower half when `low`. -/
def execAccLoRead (i : Fin 156) (n : Fin 16) (low : Bool) (s : State) : Host.Outcome State Fault Refusal :=
  if s.islClk i then
    let acc := (s.getWu i n).acc.toNat
    .next ((latchGuard i n s).emit (.read (BitVec.ofNat 64 (if low then acc % 2 ^ 32 else acc))))
  else .next ((gatedAccess (ISL_WU_ACC_LO i n) s).emit (.read 0))

/-- The effect of a write of 1 to bits of `ISL_FLA_EVT`: the bits and their counters clear (R80). -/
def flaEvtClear (i bits : Nat) (s : State) : State :=
  (onesOf 8 bits).foldl (fun s k => (s.setF ((ISL_FLA_EVT.EV i).bit k) 0).setF ((⟨ISL_FLA_EVCNT i, 63, 0⟩ : RF).elem 8 k) 0) s

/-- `FLA_EVT_CLEAR` (R80). -/
def execFlaEvtClear (i : Fin 156) (bits : BitVec 8) (s : State) : Host.Outcome State Fault Refusal :=
  .next (islWrite i (ISL_FLA_EVT i) (flaEvtClear i bits.toNat) s)

/-- `FORK_CFG_WRITE` (R322). -/
def execForkCfgWrite (i : Fin 156) (v : BitVec 64) (s : State) : Host.Outcome State Fault Refusal :=
  .next (islWrite i (ISL_FORK_CFG i) (forkCfgWrite i v) s)

/-- `FORCE` (R317). -/
def execForce (i : Fin 156) (k : Fin 4) (out : Bool) (s : State) : Host.Outcome State Fault Refusal :=
  .next (islWrite i (ISL_FORK_CTL i) (forkForce i k out) s)

/-- `FORK_CLRCNT` (R322). -/
def execForkClrcnt (i : Fin 156) (s : State) : Host.Outcome State Fault Refusal :=
  .next (islWrite i (ISL_FORK_CTL i) (fun s => s.setF (ISL_FORK_CNT.HOLDS i) 0) s)

/-- `CYCLE_REBASE` (R330): a 64-bit write of `ISL_FCAP_CYC`. -/
def execCycleRebase (i : Fin 156) (v : BitVec 40) (s : State) : Host.Outcome State Fault Refusal :=
  .next (islWrite i (ISL_FCAP_CYC i) (cycleRebase i v.toNat) s)

end Sys2Proof.Machine
end

