-- ==== Sys2Proof/Machine/Lanes.lean ====
section
/-!
DEFINITION. Machine/Lanes.lean: the stream lanes (R155 to R183): training, the receiver, the transmitter and the meanings of the lane commands.
-/
namespace Sys2Proof.Machine

/-! ### Blocks -/

def tyIDLE : Nat := 0x1E
def tyTOKEN : Nat := 0x2D
def tyCREDIT : Nat := 0x33
def tyQUIET : Nat := 0x4B
def tyABORT : Nat := 0x55
def tyTRAIN : Nat := 0x66

/-- Bits [65:2] of a block (R158, R159). -/
def Blk.bits (b : Blk) : Nat :=
  match b with
  | .data early late => early.toNat + late.toNat * 2 ^ 32
  | .ctl ty sb half body => ty.toNat + sb.toNat * 2 ^ 8 + b2n half * 2 ^ 12 + body.toNat * 2 ^ 13

/-- `FCRC` of a flight: over bits [65:2] of its data and TOKEN blocks, bit 2 of each first (R165). -/
def flightCrc (bs : List Blk) : Nat := crc32 (bs.flatMap (fun b => bytesLE 8 b.bits))

/-- The type of a control block; none for a data block. -/
def Blk.type : Blk → Option Nat
  | .data _ _ => none
  | .ctl ty _ _ _ => some ty.toNat

/-- Whether a block is a data or TOKEN block, which credits and flights count (R165, R166). -/
def Blk.counts (b : Blk) : Bool := b.type == none || b.type == some tyTOKEN

/-- A control block with the sideband bits left to the time of sending. -/
def ctlBlk (ty body : Nat) (half : Bool) : Blk := .ctl (BitVec.ofNat 8 ty) 0 half (BitVec.ofNat 51 body)

/-- The TOKEN block of a token (R159). -/
def tokenBlk (w : AWord) (bs tm half : Bool) : Blk :=
  ctlBlk tyTOKEN ((AWord.data w).toNat + b2n (AWord.st w) * 2 ^ 32 + b2n ((AWord.tags w).getLsbD 1) * 2 ^ 33 + b2n ((AWord.tags w).getLsbD 0) * 2 ^ 34 +
    b2n bs * 2 ^ 35 + b2n tm * 2 ^ 36) half

/-- The token a TOKEN block carries. -/
def bodyToken (body : Nat) : AWord :=
  AWord.mk true (bitOf body 32) (BitVec.ofNat 2 (b2n (bitOf body 34) + 2 * b2n (bitOf body 33))) (BitVec.ofNat 32 body)

/-- Whether a block's `HALF` names the later word of the data block before it as padding (R158). -/
def Blk.half (b : Blk) : Bool :=
  match b with
  | .data _ _ => false
  | .ctl _ _ half _ => half

/-- The items in a block that stands before the blocks `rest`: a token, or two words but for the pad that the next block names, of whatever flight it is (R158, R168). -/
def Blk.items (b : Blk) (rest : List Blk) : Nat :=
  if b.type.isSome then 1 else 2 - b2n ((rest.head?.map Blk.half).getD false)

/-! ### Where a lane stands -/

/-- The quad of a lane and the end island and track of a lane. -/
def laneQuad (l : Nat) : Nat := l / 4
def State.laneIsl (s : State) (l : Nat) : Nat := s.endIsl (laneRow l) (laneEnd l)

/-- The first lane of a lane's group. -/
def State.leader (s : State) (l : Nat) : Nat := (s.groupOf l).1

/-- Training state of a lane. -/
def State.tstate (s : State) (l : Nat) : Nat := s.f (LANE_STAT.TSTATE l)

/-- The cause with which a lane must send QUIET, if it must (R180, R379). -/
def State.quietCause (s : State) (l : Nat) : Option Nat :=
  let n := s.owner (laneRow l)
  if s.on ERR_STAT.SAFE then some 3
  else if s.on CFG_STAT.BUSY ∧ s.cfg.mode = 2 ∧ 2 ≤ s.f CFG_STAT.PHASE then some 0
  else if s.bandHeld n then some 0
  else none

/-- Whether a lane's receiver discards everything (R180): no owner, a load, a reset until the partition starts, or safe hold. -/
def State.rxDiscards (s : State) (l : Nat) : Bool := (s.quietCause l).isSome || s.owner (laneRow l) == 15 || (s.getLane l).rested

/-- Whether a lane's quad is off on a power rung (R180): Torpor or deeper. -/
def State.laneDown (s : State) (l : Nat) : Bool :=
  let n := s.owner (laneRow l)
  decide (n < 12) && decide (2 ≤ s.f (PWR_PART.CUR n))

/-- The lanes that carry a lane's logical stream: the first n of its group (R161). -/
def State.groupLanes (s : State) (l : Nat) : List Nat :=
  let (f, _, n, _) := s.groupOf l
  (List.range n).map (fun k => f + k)

/-- The `N` code of a group: a value above `G` acts as `G` (R183). -/
def State.bondN (s : State) (f : Nat) : Nat := min (s.f (LANE_BOND.N f)) (s.f (LANE_BOND.G f))

/-- Whether the transmitter of a lane's group runs its stream: all its lanes in normal operation, in an owned row of an Active partition that no load, reset or safe hold
quiets (R180). -/
def State.txRuns (s : State) (l : Nat) : Bool :=
  let n := s.owner (laneRow l)
  (s.groupLanes l).all (fun k => s.tstate k == 3 && !(s.getLane k).rested) && (s.quietCause l).isNone && n != 15 && s.f (PWR_PART.CUR n) == 0

/-- Blocks held in a lane's receive buffer (R166). -/
def Lane.rxHeld (x : Lane) : Nat := (x.buf.items.filter (fun y => y.ends)).length + (x.flight.filter Blk.counts).length

/-- The log record of a lane's condition. -/
def laneErr (code l : Nat) (info : Word) (s : State) : State := logErr code (s.owner (laneRow l)) (srcOf 3 l) info 0 s

/-! ### Replay through a queue (R168, R169) -/

/-- A lane's command to its replay queue (R168). -/
def replayOrder (f : Nat) (mark rewind release : Bool) (s : State) : State :=
  qOrder (s.laneIsl f) (s.getLane f).rpq mark rewind release false s

/-- Flights lost without replay are counted and logged (R169). -/
def loseFlights (f : Nat) (fs : List Flight) (s : State) : State :=
  fs.foldl (fun s y => laneErr 0x0305 f (BitVec.ofNat 64 y.fseq) (s.bump (LANE_RPCNT.LOST f))) s

/-- The flights that wait for an acknowledgement, the open one with them. -/
def Lane.outstanding (x : Lane) : List Flight :=
  x.unacked ++ (if x.inFlight.isEmpty then [] else [{ fseq := x.fseq, items := x.opened }])

/-- A NAK or an acknowledgement timeout (R168, R169): replay from the first unacknowledged flight, or count the flight lost.  After 16 replays without progress the
lane stops until a write of `TRAIN`. -/
def replay (f : Nat) (s : State) : State :=
  let x := s.getLane f
  if x.rpen then
    if x.stopped then s
    else if 16 ≤ x.replays then
      laneErr 0x0306 f (s.rd (LANE_RPCNT f))
        (raiseAev (s.owner (laneRow f)) 18 1 f ((s.setF (LANE_STAT.RPFAIL f) 1).onLane f (fun x => { x with stopped := true })))
    else
      let late := s.replayS (s.laneIsl f) x.rpq - x.accepted
      let seq := match x.unacked with
        | y :: _ => y.fseq
        | [] => x.fseq
      (replayOrder f false true false (s.bump (LANE_RPCNT.REPLAYS f))).onLane f (fun x =>
        { x with replayDrop := x.replayDrop + late, ackDrop := x.acked, accepted := 0, held := none, blocks := [], inFlight := [], opened := 0, unacked := [], fseq := seq, txDeal := 0, replays := x.replays + 1, idle := 0 })
  else
    match x.unacked with
    | [] => s
    | y :: rest => loseFlights f [y] (s.onLane f (fun x => { x with unacked := rest }))

/-- Flights up to `aseq` are acknowledged (R167, R168). -/
def ackFlights (f aseq : Nat) (s : State) : State :=
  let x := s.getLane f
  if x.unacked.any (fun y => y.fseq == aseq) then
    let done := x.unacked.takeWhile (fun y => y.fseq != aseq)
    let rest := x.unacked.drop (done.length + 1)
    let n := (x.unacked.take (done.length + 1)).foldl (fun a y => a + y.items) 0
    s.onLane f (fun x => { x with unacked := rest, acked := x.acked + n, replays := 0 })
  else s

/-- The replay queue gives up its mark (R169, R177). -/
def replayRelease (f : Nat) (s : State) : State :=
  let x := s.getLane f
  if x.rpen ∧ s.qMarked (s.laneIsl f) x.rpq = true then replayOrder f false false true s else s

/-! ### Training (R175 to R177) -/

/-- `UP` of a lane in its own register and in `LQ_STAT`. -/
def setUp (l : Nat) (b : Bool) (s : State) : State :=
  (s.setF (LANE_STAT.UP l) (b2n b)).setF ((LQ_STAT.UP (laneQuad l)).bit (l % 4)) (b2n b)

/-- A lane's modes take the values of `LANE_CTL` (R182); a lane whose replay is enabled by that issues MARK (R168). -/
def takeModes (l : Nat) (s : State) : State :=
  let m := s.rd (LANE_CTL l)
  let old := (s.getLane l).rpen
  let s := s.onLane l (fun x => { x with txt := getBits m 30 30 != 0, rxt := getBits m 29 29 != 0, rpen := getBits m 28 28 != 0, rpq := getBits m 27 26, rpu := getBits m 25 22 })
  if (s.getLane l).rpen ∧ old = false then replayOrder l true false false s else s

/-- What a lane keeps when it gives up the state of its stream: its block lock, what its receiver holds, and that its replay limit was reached, which only a write of
`TRAIN` ends (R169, R175, R176). -/
def Lane.cleared (x : Lane) : Lane := { Lane.off with lock := x.lock, hdrs := x.hdrs, rxSb := x.rxSb, buf := x.buf, stopped := x.stopped }

/-- A lane goes to seek (R176): with `keep` its flight sequence, credits and replay state stay, else they go and so does `UP`. -/
def toSeek (l : Nat) (keep : Bool) (s : State) : State :=
  let s := s.setF (LANE_STAT.TSTATE l) 1
  if keep then s.onLane l (fun x => { x with keepState := true, seekLogged := false, rxTrain := 0, txTrain := 0 })
  else
    let s := replayRelease l s
    takeModes l (setUp l false (s.onLane l Lane.cleared))

/-- The lanes of a group that are past seek go to seek together (R162, R176; log entry 54).  A lane that stands in seek with its state kept keeps it only with `keep`. -/
def groupSeek (l : Nat) (keep : Bool) (s : State) : State :=
  (s.groupLanes l).foldl (fun s k =>
    if 2 ≤ s.tstate k ∨ (s.tstate k = 1 ∧ keep = false ∧ (s.getLane k).keepState = true) then toSeek k keep s else s) s

/-- A lane whose stream a reset cleared resyncs at the start of its partition (R177, R180). -/
def laneResync (l : Nat) (s : State) : State :=
  if (s.getLane l).rested then
    let s := s.onLane l (fun x => { x with rested := false, rxTrain := 0, txTrain := 0 })
    if s.tstate l = 3 then s.setF (LANE_STAT.TSTATE l) 4 else s
  else s

/-- The lanes of a partition, by the rows it owns (R20). -/
def State.lanesOf (s : State) (n : Nat) : List Nat := (s.rowsOf n).flatMap (fun r => (List.range 16).map (fun k => 16 * r + k))

/-- Training starts, or is refused to a lane of a wrong group (R161), or waits for the quad's clock or the wake of a partition on a power rung (R181).  The other
lanes of a group train with it (log entry 54). -/
def startTraining (l : Nat) (s : State) : State :=
  let (f, _, n, ok) := s.groupOf l
  let p := s.owner (laneRow l)
  if !ok then s.setF (LANE_STAT.BONDCFG f) 1
  else if f + n ≤ l then s
  else if s.on (LQ_STAT.PLL (laneQuad l)) ∧ (12 ≤ p ∨ s.f (PWR_PART.CUR p) = 0) then groupSeek l false (toSeek l false s)
  else s.onLane l (fun x => { x with pll := true })

/-- A lane is off: electrical idle (R155, R180).  A reached replay limit outlasts it (R169). -/
def laneOff (l : Nat) (s : State) : State :=
  ((setUp l false s).setF (LANE_STAT.TSTATE l) 0).onLane l (fun x => { Lane.off with stopped := x.stopped })

/-- A group enters normal operation (R166, R176, R177): credits restart from `ICRED` on both sides, a flight received in part goes, and the next block goes on the
first lane. -/
def enterNormal (f icred : Nat) (ls : List Nat) (s : State) : State :=
  let s := ls.foldl (fun s k =>
    (setUp k true (s.setF (LANE_STAT.TSTATE k) 3)).onLane k (fun x => { x with keepState := false, rxTrain := 0, txTrain := 0 })) s
  s.onLane f (fun x =>
    { x with flight := [], flightBad := false, credLimit := icred, sent := 0, granted := 512, returned := 512, stale := (x.buf.items.filter (fun y => y.ends)).length, turn := 0, copies := 0 })

/-- A group keeps no state of its stream any more (R177): its mark is given up and its outstanding flights are lost. -/
def dropStream (f : Nat) (ls : List Nat) (s : State) : State :=
  let s := loseFlights f (s.getLane f).outstanding (replayRelease f s)
  ls.foldl (fun s k => takeModes k (s.onLane k Lane.cleared)) s

/-- The fields of a received TRAIN block (R159). -/
structure TrainBody where
  ts : Nat
  n : Nat
  icred : Nat
  fec : Bool
  nseq : Nat
  skew : Nat             -- skew of the group the receiver measures, in 0.1 ns (R162)
deriving DecidableEq, Repr

/-- A received TRAIN block (R176, R177).  A group's lanes leave a training state together, when each of them may.  A lane without block lock takes no block, in resync as in
seek (R176; DEDUCED from R177, resync runs with block lock held).  `LANE_SKEW.SKEW` follows the blocks of `TS` = 2 in ready alone: that the skew measured in resync does
not enter it is the model's choice (DESIGN CHOICE, log entry 54). -/
def trainBlock (l : Nat) (b : TrainBody) (s : State) : State :=
  let f := s.leader l
  let ls := s.groupLanes l
  let go (st : Nat) (s : State) : State :=
    ls.foldl (fun s k => (s.setF (LANE_STAT.TSTATE k) st).onLane k (fun x => { x with rxTrain := 0, txTrain := 0 })) s
  let met (st sent : Nat) (s : State) : Bool :=
    ls.all (fun k => s.tstate k == st && (s.getLane k).lock && decide (8 ≤ (s.getLane k).rxTrain) && decide (sent ≤ (s.getLane k).txTrain))
  let seen := s.onLane l (fun x => { x with rxTrain := x.rxTrain + 1 })
  let skewed := decide (2 ≤ ls.length) && decide (80 < b.skew)
  if (s.getLane l).lock = false then s.onLane l (fun x => { x with rxTrain := 0 })
  else
  match s.tstate l with
  | 1 =>
    if b.fec = s.on (LQ_CFG.FEC (laneQuad l)) ∧ b.n = s.bondN f then
      if met 1 0 seen then
        if ls.all (fun k => (seen.getLane k).keepState) then go 4 seen else go 2 seen
      else seen
    else s.onLane l (fun x => { x with rxTrain := 0 })
  | 2 =>
    if b.ts = 2 then
      let s := seen.setF (LANE_SKEW.SKEW f) (min b.skew 255)
      if skewed then groupSeek l false (s.setF (LANE_STAT.DESKEW f) 1)
      else if met 2 16 s then enterNormal f b.icred ls (s.onLane f (fun x => { x with fseq := 0, rxSeq := 0 }))
      else s
    else s
  | 3 =>
    if b.ts = 4 then go 4 s
    else if b.ts = 1 ∨ b.ts = 2 then groupSeek l true s
    else s
  | 4 =>
    if b.ts = 2 then go 2 (dropStream f ls s)
    else if b.ts = 4 then
      if skewed then seen.setF (LANE_STAT.DESKEW f) 1
      else if met 4 8 seen then
        let s := enterNormal f b.icred ls (ackFlights f ((b.nseq + 255) % 256) seen)
        let x := s.getLane f
        if x.txt ∨ x.outstanding = [] then s
        else if x.rpen then replay f s
        else loseFlights f x.outstanding (s.onLane f (fun x => { x with unacked := [], inFlight := [], opened := 0, fseq := b.nseq }))
      else seen
    else s
  | _ => s

/-! ### The receiver -/

/-- A sync header is seen: block lock after 64 valid ones, lost after 16 invalid ones within 64 (R175). -/
def seeHeader (l : Nat) (valid : Bool) (s : State) : State :=
  let x := s.getLane l
  let h := (valid :: x.hdrs).take 64
  let bad := (h.filter (fun b => !b)).length
  let s := s.onLane l (fun x => { x with hdrs := h, lock := if x.lock then decide (bad < 16) else h.length == 64 && bad == 0 })
  if x.lock ∧ 16 ≤ bad then
    let s := s.onLane l (fun x => { x with hdrs := [] })
    if s.tstate l = 3 then groupSeek l true (laneErr 0x0301 l (s.rd (LANE_STAT l)) (s.setF (LANE_STAT.LOCKLOSS l) 1)) else s
  else s

/-- Put items into a lane's receive buffer. -/
def rxItems (f : Nat) (xs : List StreamItem) (s : State) : State :=
  s.onLane f (fun x => { x with buf := { x.buf with items := x.buf.items ++ xs } })

/-- A received data word carries no tags (R160). -/
def rxWord (st : Bool) (d : W32) : AWord := AWord.mk false st 0 d

/-- The items of a stream without its last data word, a pad, and whether the pad's block has left with it (R158). -/
def dropPad (xs : List StreamItem) : List StreamItem × Bool :=
  let back := xs.reverse
  let toks := back.takeWhile (fun x => AWord.tk x.w)
  match back.drop toks.length with
  | _ :: e :: rest =>
    if e.ends ∨ AWord.tk e.w = true then ((toks ++ e :: rest).reverse, true) else ((toks ++ { e with ends := true } :: rest).reverse, false)
  | _ :: [] => (toks.reverse, true)
  | [] => (xs, false)

/-- The later word that waits for `HALF` is offered, or discarded when `HALF` names it as padding (R158). -/
def settleLate (f : Nat) (half : Bool) (s : State) : State :=
  if (s.getLane f).late then
    let s := s.onLane f (fun x => { x with late := false })
    if half then
      let (xs, gone) := dropPad (s.getLane f).buf.items
      laneWordLeft f gone (s.onLane f (fun x => { x with buf := { x.buf with items := xs } }))
    else s
  else s

/-- A bad or dropped timed block: the pulse, the count and the log record (R171). -/
def badTimed (l f : Nat) (s : State) : State :=
  let s := (s.bump (LANE_ERRCNT.BADBLK l)).onLane f (fun x => { x with ls1 := true })
  laneErr 0x0303 l (s.rd (LANE_ERRCNT l)) s

/-- A block of a timed stream enters the buffer, or is dropped when it is full (R171). -/
def rxTimed (l f : Nat) (g : State → State) (s : State) : State :=
  if 512 ≤ (s.getLane f).rxHeld then badTimed l f (s.setF (LANE_STAT.RXOVF l) 1) else g s

/-- A block of a timed stream settles the data block before it by its `HALF`; of an untimed stream the next flight does (R158; log entry 54). -/
def settleTimed (f : Nat) (half : Bool) (s : State) : State := if (s.getLane f).rxt then settleLate f half s else s

/-- A block arrives at a lane.  A lane that is off, in reset, disabled or without its quad's clock, has no receiver, and its status and counters hold (R3, R180, R181). -/
def received (l : Nat) (g : State → State) (s : State) : Host.Outcome State Fault Refusal := .next (if s.tstate l = 0 then s else g s)

/-- What every block does at its lane: a codeword that ends with it and that short FEC corrected is counted (R179), its sync header is seen, and one that is no TRAIN block
breaks a run of them (R176). -/
def blockSeen (l : Nat) (hdr fixed train : Bool) (s : State) : State :=
  let s := if fixed ∧ s.on (LQ_CFG.FEC (laneQuad l)) = true then s.bump (LANE_ERRCNT.FECCOR l) else s
  let s := seeHeader l hdr s
  if s.tstate l = 1 ∧ train = false ∧ (s.getLane l).rxTrain ≠ 0 then s.onLane l (fun x => { x with rxTrain := 0 }) else s

/-- A control block's bookkeeping: its sideband bits are held, and HALF settles the data block before it (R158, R173). -/
def ctlSeen (l : Nat) (sb : BitVec 4) (half fixed train : Bool) (s : State) : State :=
  let s := (blockSeen l true fixed train s).onLane l (fun x => { x with rxSb := sb })
  settleTimed (s.leader l) half s

/-- A run of ABORT blocks ends at any other block. -/
def endAbortRun (f : Nat) (s : State) : State := if (s.getLane f).rxAbort then s.onLane f (fun x => { x with rxAbort := false }) else s

/-- Whether a lane takes stream blocks: normal operation and nothing that makes it discard (R180). -/
def State.rxTakes (s : State) (l : Nat) : Bool := s.tstate l == 3 && !s.rxDiscards l

/-- `DATA_BLOCK` (R158, R171); `fixed` tells that short FEC corrected the codeword that ends with the block (R179). -/
def execDataBlock (l : Fin 192) (early late : BitVec 32) (fixed : Bool) (s : State) : Host.Outcome State Fault Refusal :=
  received l (fun s =>
    let s := blockSeen l true fixed false s
    let f := s.leader l
    let s := endAbortRun f (settleTimed f false s)
    if s.rxTakes l then
      if (s.getLane f).rxt then
        rxTimed l f (fun s => (rxItems f [{ w := rxWord false early, ends := false, mask := 0 }, { w := rxWord false late, ends := true, mask := 0 }] s).onLane f
          (fun x => { x with late := true })) s
      else s.onLane f (fun x => { x with flight := x.flight ++ [.data early late] })
    else s) s

/-- `TOKEN_BLOCK` (R159, R163); `body` is the block's body. -/
def execTokenBlock (l : Fin 192) (body : BitVec 51) (half : Bool) (sb : BitVec 4) (fixed : Bool) (s : State) : Host.Outcome State Fault Refusal :=
  received l (fun s =>
    let s := ctlSeen l sb half fixed false s
    let f := s.leader l
    let s := endAbortRun f s
    if s.rxTakes l then
      if (s.getLane f).rxt then rxTimed l f (rxItems f [{ w := bodyToken body.toNat, ends := true, mask := 0 }]) s
      else s.onLane f (fun x => { x with flight := x.flight ++ [.ctl (BitVec.ofNat 8 tyTOKEN) sb half body] })
    else s) s

/-- The items of a flight: the words of its data blocks without the pads that HALF names, and its tokens (R158, R167). -/
def flightItems (closeHalf : Bool) : List Blk → List StreamItem
  | [] => []
  | .data e l :: rest =>
    let pad := match rest with
      | [] => closeHalf
      | .ctl _ _ h _ :: _ => h
      | .data _ _ :: _ => false
    (if pad then [{ w := rxWord false e, ends := true, mask := 0 }]
     else [{ w := rxWord false e, ends := false, mask := 0 }, { w := rxWord false l, ends := true, mask := 0 }]) ++ flightItems closeHalf rest
  | .ctl ty _ _ body :: rest =>
    (if ty.toNat = tyABORT then
      { w := AWord.mk true (decide (body.toNat / 2 ^ 28 % 16 ≠ 0)) 0 (BitVec.ofNat 32 (tokABORT * 2 ^ 28 + body.toNat % 2 ^ 28)), ends := false, mask := 0 }
     else { w := bodyToken body.toNat, ends := true, mask := 0 }) :: flightItems closeHalf rest

/-- Whether a flight begins with a block that names the later word before it as padding (R158, R160). -/
def flightHalf (closeHalf : Bool) : List Blk → Bool
  | [] => closeHalf
  | .ctl _ _ h _ :: _ => h
  | .data _ _ :: _ => false

/-- Whether the later word of a flight's last block may still turn out to be padding: the transmitter closed the flight at its length, 16 blocks or a multiple of it,
and the token that names the pad may open the next flight (R158, R160, R165; log entry 54). -/
def flightOpenEnd (closeHalf : Bool) (bs : List Blk) : Bool :=
  !closeHalf && (bs.getLast?.map (fun b => b.type == none)).getD false && (bs.filter Blk.counts).length % 16 == 0

/-- A good flight is delivered (R167). -/
def deliverFlight (f : Nat) (half : Bool) (bs : List Blk) (s : State) : State :=
  let s := if bs.isEmpty ∧ half = false then s else settleLate f (flightHalf half bs) s
  (rxItems f (flightItems half bs) s).onLane f (fun x => { x with late := x.late || flightOpenEnd half bs })

/-- `FLIGHT_CLOSE` (R167): the flight is delivered, refused with a NAK, or discarded as a duplicate.  A NAK that is still to be sent when the flight it asks for arrives is not
sent any more. -/
def flightClose (l fcrc fseq : Nat) (half : Bool) (s : State) : State :=
  let f := s.leader l
  let x := s.getLane f
  let counted := x.flight.filter Blk.counts
  let clear (s : State) : State := s.onLane f (fun x => { x with flight := [], flightBad := false })
  let regrant (s : State) : State := s.onLane f (fun x => { x with granted := (x.granted + counted.length) % 65536 })
  if x.flightBad ∨ flightCrc counted ≠ fcrc then
    let s := regrant (clear s)
    if x.naked then s
    else (s.bump (LANE_RPCNT.NAKS f)).onLane f (fun x => { x with naked := true, nakDue := true, ls1 := true })
  else if fseq = x.rxSeq then
    deliverFlight f half x.flight ((clear s).onLane f (fun x => { x with rxSeq := (x.rxSeq + 1) % 256, naked := false, nakDue := false, ackDue := true }))
  else if (x.rxSeq + 256 - fseq) % 256 ≤ 127 then (regrant (clear s)).onLane f (fun x => { x with ackDue := true })
  else regrant (clear s)

/-- `FLIGHT_CLOSE` (R167). -/
def execFlightClose (l : Fin 192) (fcrc : BitVec 32) (fseq : BitVec 8) (half : Bool) (sb : BitVec 4) (fixed : Bool) (s : State) : Host.Outcome State Fault Refusal :=
  received l (fun s =>
    let s := ctlSeen l sb half fixed false s
    let f := s.leader l
    let s := endAbortRun f s
    if s.tstate l = 3 ∧ (s.getLane f).rxt = false then
      if s.rxDiscards l then s.onLane f (fun x => { x with flight := [], flightBad := false })
      else flightClose l fcrc.toNat fseq.toNat half s
    else s) s

/-- `CREDIT_RETURN` (R166 to R168, R180).  `aligned` is false when the copies of a bonded stream's return block stood in different turns (R162); that its state is kept then is the
model's choice (DESIGN CHOICE, log entry 54). -/
def execCreditReturn (l : Fin 192) (aseq : BitVec 8) (nak : Bool) (cred : BitVec 16) (half : Bool) (sb : BitVec 4) (aligned fixed : Bool) (s : State) :
    Host.Outcome State Fault Refusal :=
  received l (fun s =>
    let s := ctlSeen l sb half fixed false s
    let f := s.leader l
    let s := endAbortRun f s
    if s.rxTakes l then
      if aligned then
        let s := ackFlights f aseq.toNat (s.onLane f (fun x => { x with credLimit := cred.toNat }))
        if nak then replay f s else s
      else groupSeek f true (s.setF (LANE_STAT.DESKEW f) 1)
    else s) s

/-- `QUIET_BLOCK` (R180): the receiver delivers nothing and stays locked. -/
def execQuietBlock (l : Fin 192) (_cause : BitVec 4) (half : Bool) (sb : BitVec 4) (fixed : Bool) (s : State) : Host.Outcome State Fault Refusal :=
  received l (fun s => endAbortRun (s.leader l) (ctlSeen l sb half fixed false s)) s

/-- `ABORT_BLOCK` (R171, R172): the first block of a run that finds room delivers one ABORT token, in order behind the flight that is open. -/
def execAbortBlock (l : Fin 192) (payload : BitVec 28) (cause : BitVec 4) (half : Bool) (sb : BitVec 4) (fixed : Bool) (s : State) : Host.Outcome State Fault Refusal :=
  received l (fun s =>
    let s := ctlSeen l sb half fixed false s
    let f := s.leader l
    let x := s.getLane f
    let token : AWord := AWord.mk true (cause != 0) 0 (BitVec.ofNat 32 (tokABORT * 2 ^ 28 + payload.toNat))
    let begun (s : State) : State := s.onLane f (fun x => { x with rxAbort := true })
    if s.rxTakes l ∧ x.rxAbort = false then
      if x.rxt then rxTimed l f (fun s => rxItems f [{ w := token, ends := true, mask := 0 }] (begun s)) s
      else if x.flight = [] then rxItems f [{ w := token, ends := false, mask := 0 }] (begun (settleLate f half s))
      else
        (begun s).onLane f (fun x =>
          { x with flight := x.flight ++ [.ctl (BitVec.ofNat 8 tyABORT) sb half (BitVec.ofNat 51 (payload.toNat + cause.toNat * 2 ^ 28))] })
    else s) s

/-- `TRAIN_BLOCK` (R176, R177). -/
def execTrainBlock (l : Fin 192) (ts : BitVec 3) (n : BitVec 2) (icred : BitVec 16) (fec : Bool) (nseq : BitVec 8) (skew : BitVec 8) (half : Bool) (sb : BitVec 4)
    (fixed : Bool) (s : State) : Host.Outcome State Fault Refusal :=
  received l (fun s =>
    trainBlock l { ts := ts.toNat, n := n.toNat, icred := icred.toNat, fec := fec, nseq := nseq.toNat, skew := skew.toNat } (ctlSeen l sb half fixed true s)) s

/-- `IDLE_BLOCK` (R159). -/
def execIdleBlock (l : Fin 192) (half : Bool) (sb : BitVec 4) (fixed : Bool) (s : State) : Host.Outcome State Fault Refusal :=
  received l (fun s => endAbortRun (s.leader l) (ctlSeen l sb half fixed false s)) s

/-- `INVALID_BLOCK` (R157, R167, R171, R175): `hdr` tells whether its sync header is valid. -/
def execInvalidBlock (l : Fin 192) (hdr fixed : Bool) (s : State) : Host.Outcome State Fault Refusal :=
  received l (fun s =>
    let f := s.leader l
    let normal := s.rxTakes l
    let s := settleTimed f false s
    let s :=
      if normal then
        if (s.getLane f).rxt then
          let z := rxWord true 0
          if 512 ≤ (s.getLane f).rxHeld then badTimed l f (s.setF (LANE_STAT.RXOVF l) 1)
          else badTimed l f (rxItems f [{ w := z, ends := false, mask := 0 }, { w := z, ends := true, mask := 0 }] s)
        else (s.bump (LANE_ERRCNT.BADBLK l)).onLane f (fun x => { x with flightBad := !x.flight.isEmpty })
      else s.bump (LANE_ERRCNT.BADBLK l)
    blockSeen l hdr fixed false s) s

/-! ### The transmitter -/

/-- The sideband bits a lane sends (R173). -/
def State.txSb (s : State) (l : Nat) : BitVec 4 :=
  let i := s.laneIsl l
  let q := laneRow l * 4 + 2 * laneEnd l
  if bitOf (s.f (LQ_LSSEL.SBTX q)) (lanePos l) then BitVec.ofNat 4 ((s.getIsl i).mcLast.toNat / 2 ^ 20 &&& s.sben i (s.flaPlane i)) else 0

/-- A block as a lane sends it, with the sideband bits of its moment (R173). -/
def State.stamped (s : State) (l : Nat) (b : Blk) : Blk :=
  match b with
  | .data e a => .data e a
  | .ctl ty _ half body => .ctl ty (s.txSb l) half body

/-- A block leaves on a lane. -/
def sendBlk (l : Nat) (b : Blk) (s : State) : State := s.emit (.block l (s.stamped l b))

/-- The lane that sends the next block of a group of `n` (R162). -/
def State.turnLane (s : State) (f n : Nat) : Nat := f + (s.getLane f).turn % n

/-- A block of the logical stream leaves on the lane whose turn it is (R162). -/
def sendTurn (f n : Nat) (b : Blk) (s : State) : State :=
  let s := sendBlk (s.turnLane f n) b s
  if n ≤ 1 then s else s.onLane f (fun x => { x with turn := (x.turn + 1) % n })

/-- Eight ABORT blocks and then IDLE (R172). -/
def abortRun (body : Nat) : List Blk := List.replicate 8 (ctlBlk tyABORT body false) ++ [ctlBlk tyIDLE 0 false]

/-- An item accepted from the tracks joins the blocks (R160, R170).  A token completes a single held word's block with a pad. -/
def txItem (f : Nat) (w : AWord) (s : State) : State :=
  let x := s.getLane f
  if 0 < x.replayDrop then s.onLane f (fun x => { x with replayDrop := x.replayDrop - 1 })
  else if 0 < x.ackDrop then s.onLane f (fun x => { x with ackDrop := x.ackDrop - 1, accepted := x.accepted + 1 })
  else if x.discard then
    if w.type = tokEOS ∨ w.type = tokABORT then s.onLane f (fun x => { x with discard := false }) else s
  else
    let s := s.onLane f (fun x => { x with accepted := x.accepted + 1, idle := 0 })
    let opens := x.txt && !x.asm
    if AWord.tk w then
      let half := x.held.isSome
      let pre : List Blk := match x.held with
        | some e => [.data e 0]
        | none => []
      let body : List Blk :=
        if w.type = tokABORT then abortRun ((AWord.data w).toNat % 2 ^ 28)
        else [tokenBlk w opens x.txt half]
      let body := match body with
        | .ctl ty sb _ b :: rest => .ctl ty sb half b :: rest
        | bs => bs
      let ends := w.type == tokEOS || w.type == tokABORT
      s.onLane f (fun x => { x with held := none, blocks := x.blocks ++ pre ++ body, asm := x.txt && !ends })
    else
      let s := if AWord.st w then s.bump (LANE_ERRCNT.TXST f) else s
      match x.held with
      | none => s.onLane f (fun x => { x with held := some (AWord.data w), asm := x.txt })
      | some e => s.onLane f (fun x => { x with held := none, blocks := x.blocks ++ [.data e (AWord.data w)], asm := x.txt })

/-- Whether a lane group has room to assemble more (R178: up to eight blocks ahead) and its replay limit is not reached (R169). -/
def State.txRoom (s : State) (f : Nat) : Bool := decide ((s.getLane f).blocks.length < 8) && !(s.getLane f).stopped

/-- Take a token from every track of a group, the types compared (R164). -/
def takeTokens (f g : Nat) (w : AWord) (s : State) : State :=
  let r := laneRow f
  let e := laneEnd f
  let k := lanePos f
  let same := (List.range g).all (fun j => match s.trackWord r e (k + j) with
    | some v => AWord.type v == AWord.type w
    | none => true)
  let s := (List.range g).foldl (fun s j => takeTrack r e (k + j) s) s
  let s := if same then s else s.setF (LANE_STAT.ALIGN f) 1
  s.onLane f (fun x => { x with txDeal := 0 })

/-- Data ahead of the other tracks' tokens is discarded while the lane waits for them (R164). -/
def dropAhead (f g : Nat) (s : State) : State :=
  (List.range g).foldl (fun s j =>
    match s.trackWord (laneRow f) (laneEnd f) (lanePos f + j) with
    | some w => if AWord.tk w then s else takeTrack (laneRow f) (laneEnd f) (lanePos f + j) (s.setF (LANE_STAT.ALIGN f) 1)
    | none => s) s

/-- The token that stands at the head of every track of a group, that of position 0; none while some track lacks one (R164). -/
def State.trackToken (s : State) (f g : Nat) : Option AWord :=
  let heads := (List.range g).map (fun j => s.trackWord (laneRow f) (laneEnd f) (lanePos f + j))
  if heads.all (fun h => match h with
    | some w => AWord.tk w
    | none => false) then heads.headD none else none

/-- Collect items from the tracks of a group while there is room (R164); an ABORT token is left to its own command. -/
def txCollect (f g : Nat) : Nat → State → State
  | 0, s => s
  | fuel + 1, s =>
    if !s.txRoom f then s
    else
      let j := (s.getLane f).txDeal % g
      match s.trackWord (laneRow f) (laneEnd f) (lanePos f + j) with
      | none => s
      | some w =>
        if AWord.tk w then
          match s.trackToken f g with
          | some v => if v.type = tokABORT ∧ (s.getLane f).discard = false then s else txCollect f g fuel (txItem f v (takeTokens f g v s))
          | none => dropAhead f g s
        else txCollect f g fuel (txItem f w ((takeTrack (laneRow f) (laneEnd f) (lanePos f + j) s).onLane f (fun x => { x with txDeal := x.txDeal + 1 })))

/-- `TX_ABORT_TOKEN` (R172): an ABORT token at the tracks of a lane in normal operation ends the burst with eight ABORT blocks of cause 0. -/
def execTxAbortToken (l : Fin 192) (s : State) : Host.Outcome State Fault Refusal :=
  let (f, g, _, _) := s.groupOf l
  if s.txRuns l ∧ (s.getLane f).stopped = false then
    match s.trackToken f g with
    | some v => .next (if v.type = tokABORT then txItem f v (takeTokens f g v s) else s)
    | none => .next s
  else .next s

/-- The abort of a timed burst with cause 1 or 2 (R172). -/
def burstAbort (f cause : Nat) (s : State) : State :=
  let s := s.onLane f (fun x => { x with held := none, asm := false, burst := false, opening := false, discard := true, blocks := abortRun (cause * 2 ^ 28) })
  let s := (s.setF (LANE_STAT.UNDR f) 1).setF (LANE_STAT.UCAUSE f) cause
  laneErr 0x0304 f (BitVec.ofNat 64 cause) (raiseAev (s.owner (laneRow f)) 17 1 f s)

/-- A translation fault aborts the timed burst of a lane that it feeds, if one is begun (R170, R172). -/
def burstFault (f : Nat) (s : State) : State :=
  let x := s.getLane f
  if x.txt ∧ (x.burst ∨ x.asm) then burstAbort f 2 s else s

/-- Whether a block is the TOKEN block of an EOS token. -/
def Blk.isEos (b : Blk) : Bool :=
  match b with
  | .ctl ty _ _ body => ty.toNat == tyTOKEN && body.toNat / 2 ^ 28 % 16 == tokEOS
  | .data _ _ => false

/-- Whether the transmitter holds what starts the burst at its front: two complete blocks, or all of a shorter burst up to its EOS or ABORT token (R170).  The SYNC block
that is inserted before a data word is sent from `opening` and is no block of these. -/
def Lane.burstReady (x : Lane) : Bool :=
  let bs := x.blocks.takeWhile Blk.counts
  decide (2 ≤ bs.length) || bs.any Blk.isEos || (!bs.isEmpty && decide (bs.length < x.blocks.length))

/-- `TIMED_BURST_START` (R170): a burst that begins with a data word begins with an inserted SYNC block. -/
def execTimedBurstStart (l : Fin 192) (s : State) : Host.Outcome State Fault Refusal :=
  let f := s.leader l
  let x := s.getLane f
  if s.txRuns l ∧ x.txt ∧ x.burst = false ∧ x.burstReady = true then
    .next (s.onLane f (fun x => { x with burst := true, opening := (x.blocks.head?.bind Blk.type).isNone }))
  else .next s

/-- `BURST_UNDERRUN` (R172): a running burst whose lane holds no complete block at a block time is aborted with cause 1. -/
def execBurstUnderrun (l : Fin 192) (s : State) : Host.Outcome State Fault Refusal :=
  let f := s.leader l
  let x := s.getLane f
  if s.tstate l = 3 ∧ x.burst ∧ x.blocks = [] then .next (burstAbort f 1 s) else .next s

/-- The return CREDIT block of a receiver (R166, R167). -/
def returnBlk (x : Lane) : Blk :=
  ctlBlk tyCREDIT ((x.rxSeq + 255) % 256 + b2n x.nakDue * 2 ^ 8 + x.granted * 2 ^ 9 + 2 ^ 50) false

/-- The receiver of a group sends a return block, and in a bonded group the same block in n consecutive turns (R162).  Each return that a flight owes goes out by itself: a
NAK first, and an acknowledgement that is owed beside it after it (R167). -/
def sendReturn (f n : Nat) (s : State) : State :=
  let x := s.getLane f
  if 0 < x.copies then (sendTurn f n x.copied s).onLane f (fun x => { x with copies := x.copies - 1 })
  else
    (sendTurn f n (returnBlk x) s).onLane f (fun x =>
      { x with copies := n - 1, copied := returnBlk x, returned := x.granted, ackDue := x.ackDue && x.nakDue, nakDue := false })

/-- Whether a receiver owes a return block: copies of the last one, an acknowledgement, or 16 new credits (R162, R166). -/
def Lane.owesReturn (x : Lane) : Bool :=
  decide (0 < x.copies) || (!x.rxt && (x.ackDue || x.nakDue || decide (16 ≤ (x.granted + 65536 - x.returned) % 65536)))

/-- Whether a run of ABORT blocks and its IDLE block stand at the front of the blocks, so that nothing may come between them (R172). -/
def Lane.aborting (x : Lane) : Bool := (x.blocks.head?.map (fun b => !b.counts)).getD false

/-- The flight is closed: its close block goes out and it waits for its acknowledgement (R165). -/
def closeFlight (f n : Nat) (s : State) : State :=
  let x := s.getLane f
  (sendTurn f n (ctlBlk tyCREDIT (flightCrc x.inFlight + x.fseq * 2 ^ 32) false) s).onLane f (fun x =>
    { x with unacked := x.unacked ++ [{ fseq := x.fseq, items := x.opened }], inFlight := [], opened := 0, fseq := (x.fseq + 1) % 256, idle := 0 })

/-- Credits an untimed transmitter has (R166). -/
def Lane.credits (x : Lane) : Nat := (x.credLimit + 65536 - x.sent) % 65536

/-- Flight length in blocks (R165). -/
def State.flightLen (s : State) (f : Nat) : Nat := (s.f (LANE_CTL.FLEN f) + 1) * 16

/-- Whether the open flight is to be closed: it has its length, or eight block times of the group's n lanes passed with nothing to send (R165). -/
def State.flightDone (s : State) (f n : Nat) : Bool :=
  let x := s.getLane f
  !x.inFlight.isEmpty && (decide (s.flightLen f ≤ x.inFlight.length) || decide (8 * n ≤ x.idle))

/-- The next block of the stream, or IDLE (R165, R166); `idle` counts the turns with nothing to send. -/
def txNext (f n : Nat) (s : State) : State :=
  let x := s.getLane f
  match x.blocks with
  | [] => (sendTurn f n (ctlBlk tyIDLE 0 false) s).onLane f (fun x => { x with idle := x.idle + 1 })
  | b :: rest =>
    if b.counts then
      if 1 ≤ x.credits ∧ x.credits ≤ 32768 then
        let b' := s.stamped (s.turnLane f n) b
        (sendTurn f n b s).onLane f (fun x => { x with blocks := rest, sent := (x.sent + 1) % 65536, inFlight := x.inFlight ++ [b'], opened := x.opened + b.items rest, idle := 0 })
      else sendTurn f n (ctlBlk tyIDLE 0 false) s
    else (sendTurn f n b s).onLane f (fun x => { x with blocks := rest })

/-- One turn of an untimed transmitter (R165, R166, R169). -/
def txUntimed (f n : Nat) (s : State) : State :=
  let x := s.getLane f
  if x.owesReturn ∧ (x.aborting = false ∨ 0 < x.copies) then sendReturn f n s
  else if x.stopped then sendTurn f n (ctlBlk tyIDLE 0 false) s
  else if s.flightDone f n then closeFlight f n s
  else txNext f n s

/-- One turn of a timed transmitter (R170, R172): a running burst sends its next block; between bursts go ABORT blocks, return blocks and IDLE. -/
def txTimed (f n : Nat) (s : State) : State :=
  let x := s.getLane f
  let front (s : State) : State :=
    match (s.getLane f).blocks with
    | [] => sendTurn f n (ctlBlk tyIDLE 0 false) s
    | b :: rest => (sendTurn f n b s).onLane f (fun x => { x with blocks := rest, burst := x.burst && !b.isEos && b.counts })
  if 0 < x.copies then sendReturn f n s
  else if x.burst then
    if x.opening then (sendTurn f n (tokenBlk (mkTok tokSYNC 0) true true false) s).onLane f (fun x => { x with opening := false })
    else front (if x.blocks.isEmpty then burstAbort f 1 s else s)
  else if x.aborting then front s
  else if x.owesReturn then sendReturn f n s
  else sendTurn f n (ctlBlk tyIDLE 0 false) s

/-- The TRAIN block of a lane (R159, R166). -/
def State.trainBlk (s : State) (l ts : Nat) : Blk :=
  let f := s.leader l
  ctlBlk tyTRAIN (l + ts * 2 ^ 8 + (l - f) * 2 ^ 11 + s.bondN f * 2 ^ 14 + 512 * 2 ^ 16 + s.f (LQ_CFG.FEC (laneQuad l)) * 2 ^ 32 + (s.getLane f).rxSeq * 2 ^ 33) false

/-- A lane sends a TRAIN block. -/
def sendTrain (l : Nat) (s : State) : State :=
  (sendBlk l (s.trainBlk l (s.tstate l)) s).onLane l (fun x => { x with txTrain := x.txTrain + 1 })

/-- `LANE_BLOCK_TIME` (R162, R165, R170, R176, R180): one turn of a lane's transmitter.  In normal operation the block goes on the lane of the group whose turn it is; in
ready the TRAIN blocks of all lanes of a group go in the turn of its first lane. -/
def execLaneBlockTime (l : Fin 192) (s : State) : Host.Outcome State Fault Refusal :=
  let ts := s.tstate l
  if s.laneDown l ∨ ts = 0 then .next s
  else
    let (f, g, n, _) := s.groupOf l
    match s.quietCause l with
    | some c => .next (if ts = 3 then sendTurn f n (ctlBlk tyQUIET c false) s else sendBlk l (ctlBlk tyQUIET c false) s)
    | none =>
      if ts = 2 then .next (if l = f then (s.groupLanes l).foldl (fun s k => if s.tstate k = 2 then sendTrain k s else s) s else s)
      else if ts ≠ 3 then .next (sendTrain l s)
      else if s.txRuns l then
        let s := txCollect f g 32 s
        .next (if (s.getLane f).txt then txTimed f n s else txUntimed f n s)
      else .next (sendTurn f n (ctlBlk tyIDLE 0 false) s)

/-- `FLIGHT_END` (R165): the flight has its length, or eight block times passed with nothing to send. -/
def execFlightEnd (l : Fin 192) (s : State) : Host.Outcome State Fault Refusal :=
  let (f, _, n, _) := s.groupOf l
  if s.txRuns l ∧ (s.getLane f).txt = false ∧ (s.getLane f).stopped = false ∧ s.flightDone f n = true then .next (closeFlight f n s) else .next s

/-- `CREDIT_RETURN_TIMER` (R166): the return block goes out, or after the burst or the ABORT blocks that may not be broken (R170, R172). -/
def execCreditReturnTimer (l : Fin 192) (s : State) : Host.Outcome State Fault Refusal :=
  let (f, _, n, _) := s.groupOf l
  let x := s.getLane f
  if s.txRuns l ∧ x.rxt = false then
    .next (if x.burst ∨ x.aborting = true then s.onLane f (fun x => { x with ackDue := true }) else sendReturn f n s)
  else .next s

/-- `ACK_TIMEOUT` (R168, R169). -/
def execAckTimeout (l : Fin 192) (s : State) : Host.Outcome State Fault Refusal :=
  let f := s.leader l
  if s.tstate l = 3 ∧ (s.getLane f).unacked ≠ [] then .next (replay f s) else .next s

/-- `SEEK_TIMEOUT` (R176): 1 ms in seek logs a deferred error once and clears `UP`. -/
def execSeekTimeout (l : Fin 192) (s : State) : Host.Outcome State Fault Refusal :=
  if s.tstate l = 1 ∧ (s.getLane l).seekLogged = false then
    .next (laneErr 0x0302 l 0 (setUp l false (s.onLane l (fun x => { x with seekLogged := true }))))
  else .next s

/-! ### Lane registers (R156, R181 to R183) -/

/-- The effect of a write of `LQ_CFG` (R156); a quad in reset takes none (R3).  Until Full Service quads 0 to 7 are offered at a `RATE` up to 3 and the others not (R439). -/
def quadConfig (q v : Nat) (s : State) : State :=
  if s.trimmed = false then s
  else
  let old := s.f (LQ_CFG.RATE q)
  let want := v % 8
  let rate := if 5 ≤ want ∨ ((want = 4 ∨ 8 ≤ q) ∧ s.f RST_STAT.SVC ≠ 2) then old else want
  let fec := v / 16 % 2
  if rate = old ∧ fec = s.f (LQ_CFG.FEC q) then s
  else
    let s := (s.setF (LQ_CFG.RATE q) rate).setF (LQ_CFG.FEC q) fec
    let s := if rate = old then s else s.setF (LQ_STAT.PLL q) 0
    (List.range 4).foldl (fun s k =>
      let l := 4 * q + k
      let s := laneOff l s
      if rate ≠ 0 ∧ s.on (LANE_CTL.EN l) then startTraining l s else s) s

/-- `QUAD_CONFIG_WRITE` (R156). -/
def execQuadConfigWrite (q : Fin 48) (v : BitVec 32) (s : State) : Host.Outcome State Fault Refusal := .next (quadConfig q v.toNat s)

/-- The effect of a write of `LANE_CTL` (R176, R181, R182): the fields, of which the modes of a lane in training act at once while `UP` = 0; a start of training at a rise
of `EN` or a write of `TRAIN`, which alone ends a reached replay limit (R169), the lane off at a fall of `EN`.  A lane in reset takes no write (R3). -/
def laneCtl (l v : Nat) (s : State) : State :=
  if s.trimmed = false then s
  else
  let old := s.on (LANE_CTL.EN l)
  let s := s.wr (LANE_CTL l) (BitVec.ofNat 64 (bitsOf v 31 17 * 2 ^ 17 + bitsOf v 15 8 * 2 ^ 8))
  let en := bitOf v 31
  if !en then (if old then laneOff l s else s)
  else
  let s := if bitOf v 16 then s.onLane (s.leader l) (fun x => { x with stopped := false }) else s
  if (!old || bitOf v 16) && s.f (LQ_CFG.RATE (laneQuad l)) != 0 then
    startTraining l (s.setF (LANE_STAT.TSTATE l) (if old then s.tstate l else 0))
  else if s.on (LANE_STAT.UP l) = false ∧ (s.tstate l ≠ 0 ∨ (s.getLane l).keepState = true) then takeModes l s
  else s

/-- `LANE_ENABLE` (R181): a write of `LANE_CTL` with `EN` set. -/
def execLaneEnable (l : Fin 192) (v : BitVec 32) (s : State) : Host.Outcome State Fault Refusal := .next (laneCtl l (v ||| 0x8000_0000).toNat s)

/-- `LANE_TRAIN` (R176): a write of `LANE_CTL` that keeps its fields and sets `TRAIN`. -/
def execLaneTrain (l : Fin 192) (s : State) : Host.Outcome State Fault Refusal := .next (laneCtl l ((s.rd (LANE_CTL l)).toNat + 2 ^ 16) s)

/-- `LANE_CLRCNT` (R181). -/
def laneClrcnt (l : Nat) (s : State) : State := (s.wr (LANE_ERRCNT l) 0).wr (LANE_RPCNT l) 0

/-- `LANE_CLRCNT` (R181). -/
def execLaneClrcnt (l : Fin 192) (s : State) : Host.Outcome State Fault Refusal := .next (laneClrcnt l s)

/-- `QUAD_PLL_LOCK` (R181): the quad's clock becomes stable and the lanes that wait for it train. -/
def execQuadPllLock (q : Fin 48) (s : State) : Host.Outcome State Fault Refusal :=
  if s.f (LQ_CFG.RATE q) ≠ 0 ∧ (8 ≤ q.val → s.f RST_STAT.SVC = 2) then
    .next ((List.range 4).foldl (fun s k =>
      let l := 4 * q.val + k
      if (s.getLane l).pll then startTraining l (s.onLane l (fun x => { x with pll := false })) else s) (s.setF (LQ_STAT.PLL q) 1))
  else .next s

end Sys2Proof.Machine
end

