-- ==== Sys2Proof/Machine/Ring.lean ====
section
/-!
DEFINITION. Machine/Ring.lean: the Camyan ring: frames received, forwarded, delivered and sent (R411 to R415), routes (R416 to R418), the ring mailbox (R420), joining
and leaving (R421 to R423), and the trigger pins (R425, R426).
-/
namespace Sys2Proof.Machine

/-! ### Frames -/

/-- Frame types (R413). -/
def frTIME : Nat := 0x81
def frSYNC : Nat := 0x82
def frSTART : Nat := 0x83
def frSTOP : Nat := 0x84
def frGFAIL : Nat := 0x85
def frDECIDE : Nat := 0x86
def frFSUM : Nat := 0x87
def frMBOX : Nat := 0x88
def frJOIN : Nat := 0x89
def frCLAIM : Nat := 0x8A
def frLEAVE : Nat := 0x8B
def frPROBE : Nat := 0x8C

/-- Change the ring node's state. -/
def State.onRing (s : State) (g : Ring → Ring) : State := { s with ring := g s.ring }

/-- The node's ID. -/
def State.nodeId (s : State) : Nat := s.f RING_CTL.ID

/-- Bits [65:2] of a frame's blocks 0 to 2: the header with its type, source, destination, `BC`, `HOP` and `SEQ`, the time stamp and the payload (R412). -/
def frameFront (ty : Nat) (f : RingFrame) : List Nat :=
  [ty + f.src.toNat * 2 ^ 8 + f.dst.toNat * 2 ^ 14 + b2n f.bc * 2 ^ 20 + f.hop.toNat * 2 ^ 21 + f.seq.toNat * 2 ^ 28, f.ts.toNat, f.pay.toNat]

/-- The CRC of a frame: that of R165 over bits [65:2] of its blocks 0 to 2, bit 2 of each first (R412). -/
def frameCrc (ty : Nat) (f : RingFrame) : BitVec 32 := BitVec.ofNat 32 (crc32 ((frameFront ty f).flatMap (bytesLE 8)))

/-- The four blocks of a frame as they leave, each with whether it is a control block: 64 bits from bit 2 on, of which block 3 holds `FCRC` and zeros (R412). -/
def frameBlocks (ty : Nat) (f : RingFrame) : List (Bool × Nat) :=
  [true, false, false, false].zip (frameFront ty f ++ [f.fcrc.toNat])

/-- Whether a frame's `FCRC` is right. -/
def frameOk (ty : Nat) (f : RingFrame) : Bool := f.fcrc == frameCrc ty f

/-- A frame with its `FCRC` computed. -/
def frameClosed (ty : Nat) (f : RingFrame) : RingFrame := { f with fcrc := frameCrc ty f }

/-- The receiver of a ring lane. -/
def Ring.line (x : Ring) (r : Nat) : RingLine := if r = 0 then x.line0 else x.line1

/-- Change the receiver of a ring lane. -/
def State.onLine (s : State) (r : Nat) (g : RingLine → RingLine) : State :=
  s.onRing (fun x => if r = 0 then { x with line0 := g x.line0 } else { x with line1 := g x.line1 })

/-- Blocks with valid headers pass, `n` of 1/256 block: 64 of them in a row gain block lock (R175). -/
def RingLine.pass (n : Nat) (x : RingLine) : RingLine :=
  let pos := x.pos + n
  if !x.lock && decide (x.since + 64 * 256 ≤ pos) then { x with pos := pos, lock := true, bad := [] } else { x with pos := pos }

/-- A block with an invalid header: the 16th within 64 blocks loses lock (R175). -/
def RingLine.fail (x : RingLine) : RingLine :=
  let bad := x.pos :: x.bad.filter (fun b => decide (x.pos < b + 64 * 256))
  let lost := x.lock && decide (16 ≤ bad.length)
  { x with pos := x.pos + 256, since := x.pos + 256, lock := x.lock && !lost, bad := if lost then [] else bad, silent := false }

/-- `n` blocks with valid headers arrive on a ring (R411, R422): a receiver with block lock takes them, and the ring is up; a node in reset receives nothing (R3). -/
def ringIn (r n : Nat) (g : State → State) (s : State) : State :=
  if s.trimmed = false then s
  else
    let locked := (s.ring.line r).lock
    let s := s.onLine r (fun x => { x.pass (256 * n) with silent := false })
    if locked then g (s.setF (if r = 0 then RING_STAT.R0UP else RING_STAT.R1UP) 1) else s

/-- Whether ring `r`'s bypass is open. -/
def Ring.isOpen (x : Ring) (r : Nat) : Bool := if r = 0 then x.open0 else x.open1

/-- A frame of this node, before its `SEQ` is known. -/
def State.ownFrame (s : State) (ts pay : Word) (dst : Nat) (bc : Bool) : RingFrame :=
  { src := BitVec.ofNat 6 s.nodeId, dst := BitVec.ofNat 6 dst, bc := bc, hop := 0, seq := 0, ts := ts, pay := pay, fcrc := 0 }

/-- Emit a frame, with its CRC, on those of the given rings whose bypass is open (R421). -/
def emitFrame (rings : List Nat) (ty : Nat) (f : RingFrame) (s : State) : State :=
  rings.foldl (fun s r => if s.ring.isOpen r then s.emit (.frame r ty (frameClosed ty f)) else s) s

/-- Priority of an own frame (R414). -/
def framePrio (ty : Nat) : Nat :=
  if ty = frTIME then 0 else if ty = frGFAIL then 1 else if ty = frFSUM then 3 else if ty = frMBOX then 4 else 2

/-- Put a frame into the queue behind those of its priority. -/
def txInsert (x : Nat × RingFrame) : List (Nat × RingFrame) → List (Nat × RingFrame)
  | [] => [x]
  | y :: ys => if framePrio x.1 < framePrio y.1 then x :: y :: ys else y :: txInsert x ys

/-- A frame is originated: it waits for its turn, or finds the queue of 32 full (R414). -/
def originate (ty : Nat) (f : RingFrame) (s : State) : State :=
  if 32 ≤ s.ring.txq.length then (if ty = frMBOX then s.setF RING_STAT.TXFULL 1 else s.bump RING_CNT.TXDROP)
  else s.onRing (fun x => { x with txq := txInsert (ty, f) x.txq })

/-! ### Trigger outputs (R426) -/

/-- Whether a route's output holds trigger `k` at 1 (R417, R418). -/
def State.routeLevel (s : State) (k : Nat) : Bool :=
  (List.range 16).any (fun r => s.on (RING_ROUTE.EN r) && s.on (RING_ROUTE.LVL r) && s.on (RING_ROUTE.TEN r) && s.f (RING_ROUTE.TRIG r) == k &&
    s.ring.level.any (fun y => y.1 == r && decide (y.2 < 256)))

/-- Whether a route's pulse stands at trigger `k` (R417). -/
def State.routePulse (s : State) (k : Nat) : Bool :=
  match Map.find s.ring.pulse k with
  | some t => decide (s.ring.up < t)
  | none => false

/-- The value that a trigger output follows (R426). -/
def State.trigValue (s : State) (k : Nat) : Bool :=
  match s.f (TRIG_CFG.OSRC k) with
  | 1 => s.routeLevel k || s.routePulse k
  | 2 => match s.primary (s.f (TRIG_CFG.PART k)) with
    | some n => s.on (SEQ_PFLAG.FAILL n)
    | none => false
  | _ => s.on (TRIG_CFG.OUT k)

/-- What output pin `k` carries (0 to 7 TRIG, 8 to 23 GPIO): 0, 1, or 2 for high impedance (R379, R426). -/
def State.pinOut (s : State) (k : Nat) : Nat :=
  match Map.find s.sys.pins k with
  | some v => v
  | none =>
    if k < 8 then (if s.on (TRIG_CFG.OE k) then b2n (s.trigValue k) else 2)
    else if s.on (TRIG_GPIO.OE (k - 8)) then b2n (s.on (TRIG_GPIO.OUT (k - 8))) else 2

/-- The owner of an output pin. -/
def State.pinPart (s : State) (k : Nat) : Nat := if k < 8 then s.f (TRIG_CFG.PART k) else s.f (TRIG_GPIO.PART (k - 8))

/-- The pins of a partition hold their last state (R379, R431). -/
def holdPins (sel : Nat → Bool) (s : State) : State :=
  { s with sys := { s.sys with pins := (List.range 24).foldl (fun m k => if sel k then Map.set m k (s.pinOut k) else m) s.sys.pins } }

/-- Whether a route may drive a trigger output now. -/
def State.routeDrives (s : State) (r : Nat) : Bool :=
  let k := s.f (RING_ROUTE.TRIG r)
  s.on (RING_ROUTE.TEN r) && s.f (TRIG_CFG.OSRC k) == 1 && s.on (TRIG_CFG.OE k) && (Map.find s.sys.pins k).isNone && !s.sys.extest

/-! ### Routes (R417, R418) -/

/-- Whether a route matches a frame type and event number. -/
def State.routeHit (s : State) (r ty ev : Nat) : Bool :=
  s.on (RING_ROUTE.EN r) && decide (frSYNC ≤ ty ∧ ty ≤ frDECIDE) && bitOf (s.f (RING_ROUTE.TMASK r)) (ty - frSYNC) &&
    ev &&& s.f (RING_ROUTE.EVMASK r) == s.f (RING_ROUTE.EVAL r) &&& s.f (RING_ROUTE.EVMASK r)

/-- The doorbell of a route. -/
def routeBell (r : Nat) (s : State) : State :=
  if s.on (RING_ROUTE.DBEN r) then ringPrimary (s.f (RING_ROUTE.PART r)) (s.f (RING_ROUTE.DB r)) s else s

/-- A match of a route in edge mode: merged with a match less than 2 ns before, itself merged or not, else its doorbell and an 8 ns pulse (R418). -/
def routeEdge (r : Nat) (s : State) : State :=
  let near := match Map.find s.ring.hitAt r with
    | some t => decide (s.ring.up < t + 1)
    | none => false
  let s := s.onRing (fun x => { x with hitAt := Map.set x.hitAt r (x.up + 1) })
  if near then s.bump (RING_ROUTE.OVR r)
  else
    let s := routeBell r s
    let k := s.f (RING_ROUTE.TRIG r)
    if s.routeDrives r then (s.onRing (fun x => { x with pulse := Map.set x.pulse k (x.up + 8) })).emit (.trigPulse k) else s

/-- A set or clear frame at a route in level mode. -/
def routeLevelAct (r ev : Nat) (up : Bool) (s : State) : State :=
  let cur := s.ring.level.find? (fun y => y.1 == r && y.2 % 256 == ev)
  if up then
    if cur.isSome then s
    else
      let s := routeBell r (s.onRing (fun x => { x with level := x.level ++ [(r, ev)] }))
      if s.routeDrives r then s.emit (.trigLevel (s.f (RING_ROUTE.TRIG r)) true) else s
  else
    match cur with
    | none => s
    | some y =>
      let s := s.onRing (fun x => { x with level := x.level.erase y })
      if y.2 < 256 ∧ s.routeDrives r then s.emit (.trigLevel (s.f (RING_ROUTE.TRIG r)) (s.routeLevel (s.f (RING_ROUTE.TRIG r)))) else s

/-- Every matching route acts on a frame; a DECIDE also records its outcome (R417). -/
def routeAct (ty : Nat) (f : RingFrame) (s : State) : State :=
  let ev := f.pay.toNat % 256
  let s := (List.range 16).foldl (fun s r =>
    if s.routeHit r ty ev then
      if s.on (RING_ROUTE.LVL r) then (if ty = frGFAIL then routeLevelAct r ev (f.pay.getLsbD 8) s else s)
      else routeEdge r s
    else s) s
  if ty = frDECIDE then
    let k := bitsOf f.pay.toNat 9 8
    ((s.setF (RING_DEC.NEW k) 1).setF (RING_DEC.FAIL k) (b2n (f.pay.getLsbD 10))).setF (RING_DEC.EVNO k) ev
  else s

/-! ### Delivery -/

/-- A frame enters the receive FIFO, or is dropped when it is full; each arrival rings the doorbell (R420). -/
def rxEnter (fsum : Bool) (f : RingFrame) (s : State) : State :=
  let s := if 16 ≤ s.ring.rx.length then s.bump RING_RXHDR.RXDROP
    else s.onRing (fun x => { x with rx := x.rx ++ [{ fsum := fsum, src := f.src.toNat, pay := f.pay }] })
  if s.on RING_CTL.RXEN ∧ s.f RING_CTL.RXSEQ < 24 then setDoorbell (s.f RING_CTL.RXSEQ) (2 ^ s.f RING_CTL.RXDB) s else s

/-- A timed frame waits for its `TS`; one already past acts at once and counts in `LATE` (R416). -/
def deliverTimed (ty : Nat) (f : RingFrame) (s : State) : State :=
  if f.ts.toNat < (s.rd RING_TIME).toNat then routeAct ty f (s.bump RING_CNT.LATE)
  else s.onRing (fun x => { x with due := x.due ++ [(ty, f)] })

/-- A node has left the ring: when it was the master there is none, and the time follows no one (R415). -/
def masterLeft (src : Nat) (s : State) : State :=
  if s.ring.master = some src then (s.setF RING_STAT.TSYNC 0).onRing (fun x => { x with master := none, slew := 0 }) else s

/-- A frame is delivered locally (R414, R416 to R420, R423).  A GFAIL too acts at its `TS`, which a frame from another node finds past. -/
def deliver (ty : Nat) (f : RingFrame) (s : State) : State :=
  if frSYNC ≤ ty ∧ ty ≤ frDECIDE then deliverTimed ty f s
  else if ty = frFSUM then rxEnter true f s
  else if ty = frMBOX then rxEnter false f s
  else if ty = frLEAVE then masterLeft f.src.toNat s
  else s

/-- An own frame leaves on both rings with the next `SEQ`; a TIME frame carries the time at sending (R413), and event frames are delivered locally at sending (R414). -/
def sendFrame (rings : List Nat) (ty : Nat) (f : RingFrame) (s : State) : State :=
  let f := { f with src := BitVec.ofNat 6 s.nodeId, seq := BitVec.ofNat 8 s.ring.seq, ts := if ty = frTIME then s.rd RING_TIME else f.ts }
  let s := emitFrame rings ty f (s.onRing (fun x => { x with seq := (x.seq + 1) % 256 }))
  if frSYNC ≤ ty ∧ ty ≤ frDECIDE then deliver ty f s else s

/-- The first waiting own frame leaves when the line is free (R412: a frame takes 10.24 ns). -/
def ringSend (s : State) : State :=
  if 0 < s.ring.gap then s.onRing (fun x => { x with gap := x.gap - 1 })
  else
    match s.ring.txq with
    | [] => s
    | (ty, f) :: rest => sendFrame [0, 1] ty f (s.onRing (fun x => { x with txq := rest, gap := 10 }))

/-- Sequence numbers that a frame skips are missing on its ring; those missing on both rings count in `LOSTF` (R414).  A number that either ring has delivered is not
missing, be its frame for this node or not, and one that lies 128 behind is forgotten. -/
def seqGap (r : Nat) (f : RingFrame) (s : State) : State :=
  let src := f.src.toNat
  let q := f.seq.toNat
  let key := 2 * src + r
  let old := Map.find s.ring.heads key
  let heard := Map.getD s.ring.heard src []
  let s := s.onRing (fun x =>
    { x with
      heads := Map.set x.heads key ((q + 1) % 256)
      heard := if heard.contains q then x.heard else Map.set x.heard src ((q :: heard).take 128)
      missing := x.missing.filter (fun m => m.1 != src || (m.2.1 != q && decide ((q + 256 - m.2.1) % 256 < 128))) })
  match old with
  | none => s
  | some e =>
    let n := (q + 256 - e) % 256
    if 128 ≤ n then s
    else
      (List.range n).foldl (fun s k =>
        let m := (e + k) % 256
        if heard.contains m then s
        else if s.ring.missing.contains (src, m, 1 - r) then
          (s.onRing (fun x => { x with missing := x.missing.erase (src, m, 1 - r) })).bump RING_CNT.LOSTF
        else s.onRing (fun x => { x with missing := (src, m, r) :: x.missing })) s

/-- Treatment of a received frame (R414): discarded with a wrong CRC, removed, else forwarded with `HOP` + 1 and its payload changed by `fwd`, and delivered once
by `take`, which is told whether it is the first copy.  A closed bypass passes it straight on, and the node only listens (R421). -/
def recvFrame (r ty : Nat) (f : RingFrame) (fwd : RingFrame → RingFrame) (take : Bool → State → State) (s : State) : State :=
  if s.ring.isOpen r = false then ringIn r 4 (fun s => s) (s.emit (.frame r ty f))
  else
    ringIn r 4 (fun s =>
      if frameOk ty f = false then s.bump RING_CNT.CRCERR
      else if f.src.toNat = s.nodeId ∨ 63 ≤ f.hop.toNat then s
      else
        let s := seqGap r f (emitFrame [r] ty (fwd { f with hop := f.hop + 1 }) s)
        if f.bc ∨ f.dst.toNat = s.nodeId then
          let had := Map.getD s.ring.got f.src.toNat []
          if had.contains f.seq.toNat then take false s
          else take true (s.onRing (fun x => { x with got := Map.set x.got f.src.toNat ((f.seq.toNat :: had).take 128) }))
        else s) s

/-- A frame without any treatment of its own. -/
def recvPlain (r ty : Nat) (f : RingFrame) (s : State) : State :=
  recvFrame r ty f (fun f => f) (fun first s => if first then deliver ty f s else s) s

/-! ### Time (R415) -/

/-- Upstream link delay of a ring, in 1/16 ns. -/
def State.linkDelay (s : State) (r : Nat) : Nat := if r = 0 then s.f RING_DLY.DW else s.f RING_DLY.DE

/-- The time of arrival that a TIME frame tells: `TS` + `ACC` + the node's own upstream link delay. -/
def State.arrival (s : State) (r : Nat) (f : RingFrame) : Nat := f.ts.toNat + (f.pay.toNat % 2 ^ 32 + s.linkDelay r) / 16

/-- `RING_TIME` is corrected to a time of arrival: slewed below 1 µs, stepped from there. -/
def correctTime (t : Nat) (s : State) : State :=
  let d : Int := (t : Int) - ((s.rd RING_TIME).toNat : Int)
  let s := s.setF RING_STAT.TSYNC 1
  if d.natAbs < 1000 then s.onRing (fun x => { x with slew := d })
  else ((s.wr RING_TIME (BitVec.ofNat 64 t)).setF RING_STAT.TSTEP 1).onRing (fun x => { x with slew := 0 })

/-- A TIME frame at its receiver: a lower ID takes mastership; a master ignores higher ones; the copy with the lower `HOP` is used. -/
def takeTime (r : Nat) (f : RingFrame) (first : Bool) (s : State) : State :=
  let src := f.src.toNat
  let rank := s.on RING_CTL.TMASTER && decide (s.nodeId < src)
  if rank then s
  else
    let s := if s.on RING_STAT.TMACT then (s.setF RING_STAT.TMACT 0).setF RING_STAT.TMLOST 1 else s
    match s.ring.master with
    | some m =>
      if m < src then s
      else
      let s := if m = src then s.onRing (fun x => { x with masterAt := x.up }) else s
      if first ∨ (s.ring.timeHop / 128 = f.seq.toNat ∧ f.hop.toNat < s.ring.timeHop % 128) then
        correctTime (s.arrival r f) (s.onRing (fun x => { x with master := some src, masterAt := x.up, timeHop := f.seq.toNat * 128 + f.hop.toNat }))
      else s
    | none => correctTime (s.arrival r f) (s.onRing (fun x => { x with master := some src, masterAt := x.up, timeHop := f.seq.toNat * 128 + f.hop.toNat }))

/-- `RING_TIME` counts a ns, and a correction is slewed by 1 ns in 10,000 (R415). -/
def timeCount (s : State) : State :=
  let now := s.rd RING_TIME
  if s.ring.slew = 0 then s.wr RING_TIME (now + 1)
  else if s.ring.slewAt < 9999 then (s.wr RING_TIME (now + 1)).onRing (fun x => { x with slewAt := x.slewAt + 1 })
  else if 0 < s.ring.slew then (s.wr RING_TIME (now + 2)).onRing (fun x => { x with slew := x.slew - 1, slewAt := 0 })
  else s.onRing (fun x => { x with slew := x.slew + 1, slewAt := 0 })

/-- A master of which nothing has been heard for 64 µs, the time for which R422 counts a node, is no master any more (DESIGN CHOICE, log entry 33). -/
def masterGone (s : State) : State :=
  match s.ring.master with
  | some m => if s.ring.masterAt + 64000 ≤ s.ring.up then masterLeft m s else s
  | none => s

/-- A ns of the node's clock, from the trim load on (R3): the time counts, and a ring that is not silent brings IDLE blocks where no command names others (log entry 33). -/
def ringClock (s : State) : State :=
  if s.trimmed = false then s
  else
    let tick (x : RingLine) : RingLine := if x.silent then x else x.pass 100
    masterGone ((timeCount s).onRing (fun x => { x with up := x.up + 1, line0 := tick x.line0, line1 := tick x.line1 }))

/-- `TIME_FRAME` (R415): forwarded with its delay added; the node's time follows it. -/
def execTimeFrame (r : Fin 2) (f : RingFrame) (s : State) : Host.Outcome State Fault Refusal :=
  let add := s.linkDelay r + 384
  .next (recvFrame r frTIME f (fun f => { f with pay := setBits f.pay 31 0 (f.pay.toNat + add) }) (takeTime r f) s)

/-- `SYNC_FRAME` (R416). -/
def execSyncFrame (r : Fin 2) (f : RingFrame) (s : State) : Host.Outcome State Fault Refusal := .next (recvPlain r frSYNC f s)
/-- `START_FRAME` (R413). -/
def execStartFrame (r : Fin 2) (f : RingFrame) (s : State) : Host.Outcome State Fault Refusal := .next (recvPlain r frSTART f s)
/-- `STOP_FRAME` (R413). -/
def execStopFrame (r : Fin 2) (f : RingFrame) (s : State) : Host.Outcome State Fault Refusal := .next (recvPlain r frSTOP f s)
/-- `GFAIL_FRAME` (R418). -/
def execGfailFrame (r : Fin 2) (f : RingFrame) (s : State) : Host.Outcome State Fault Refusal := .next (recvPlain r frGFAIL f s)
/-- `DECIDE_FRAME` (R417). -/
def execDecideFrame (r : Fin 2) (f : RingFrame) (s : State) : Host.Outcome State Fault Refusal := .next (recvPlain r frDECIDE f s)
/-- `FSUM_FRAME` (R420). -/
def execFsumFrame (r : Fin 2) (f : RingFrame) (s : State) : Host.Outcome State Fault Refusal := .next (recvPlain r frFSUM f s)
/-- `MBOX_FRAME` (R420). -/
def execMboxFrame (r : Fin 2) (f : RingFrame) (s : State) : Host.Outcome State Fault Refusal := .next (recvPlain r frMBOX f s)
/-- `ROUTE_ACTION` (R416): the oldest delivered frame whose `TS` has come acts. -/
def execRouteAction (s : State) : Host.Outcome State Fault Refusal :=
  match s.ring.due.find? (fun e => decide (e.2.ts.toNat ≤ (s.rd RING_TIME).toNat)) with
  | none => .next s
  | some e => .next (routeAct e.1 e.2 (s.onRing (fun x => { x with due := x.due.erase e })))

/-- `ROUTE_STUCK` (R418): a level held past `STUCK` µs: the doorbell once more, a corrected error, and the output 0 until a clear frame. -/
def execRouteStuck (r : Fin 16) (s : State) : Host.Outcome State Fault Refusal :=
  match s.ring.level.find? (fun y => y.1 == r.val && decide (y.2 < 256)) with
  | none => .next s
  | some y =>
    let s := s.onRing (fun x => { x with level := x.level.map (fun z => if z = y then (z.1, z.2 + 256) else z) })
    let s := routeBell r (s.setF (RING_ROUTE.STUCKS r) 1)
    let s := if s.routeDrives r then s.emit (.trigLevel (s.f (RING_ROUTE.TRIG r)) (s.routeLevel (s.f (RING_ROUTE.TRIG r)))) else s
    .next (logErr 0x0902 15 (srcOf 5 (16 + r)) 0 0 s)

/-- `TIME_SEND` (R415): the time master sends TIME on both rings, first of its own frames (R414); its own time follows no other node. -/
def execTimeSend (s : State) : Host.Outcome State Fault Refusal :=
  let led := match s.ring.master with
    | some m => decide (m < s.nodeId)
    | none => false
  if s.on RING_STAT.JOINED ∧ s.on RING_CTL.TMASTER ∧ led = false then
    let s := ((s.setF RING_STAT.TMACT 1).setF RING_STAT.TSYNC 0).onRing (fun x => { x with master := none, slew := 0 })
    .next (originate frTIME (s.ownFrame (s.rd RING_TIME) 0 0 true) s)
  else .next s

/-- PROBE requests leave on both rings, and their echoes are awaited. -/
def probe (s : State) : State :=
  let s := emitFrame [0, 1] frPROBE (s.ownFrame 0 0 0 false) s
  s.onRing (fun x => { x with echo := [0, 1] })

/-- `PROBE_SEND` (R415). -/
def execProbeSend (s : State) : Host.Outcome State Fault Refusal := .next (if s.on RING_STAT.JOINED then probe s else s)

/-! ### Joining and leaving (R422, R423) -/

/-- A join ends: the node is joined (step 4). -/
def joined (s : State) : State := ((s.setF RING_STAT.JOINED 1).setF RING_STAT.JSTATE 4).onRing (fun x => { x with step := 0 })

/-- A join ends with a duplicate ID. -/
def dupId (s : State) : State :=
  ((s.setF RING_STAT.JERR 1).setF RING_STAT.JSTATE 0).onRing (fun x => { x with step := 0, open0 := false })

/-- `PROBE_FRAME` (R415): a request is echoed on the other ring; an echo sets the link delay from the round trip in ps; a node never forwards PROBE, but a closed bypass
passes it straight on (R421). -/
def execProbeFrame (r : Fin 2) (f : RingFrame) (trip : BitVec 32) (s : State) : Host.Outcome State Fault Refusal :=
  if s.ring.isOpen r = false then .next (ringIn r 4 (fun s => s) (s.emit (.frame r frPROBE f)))
  else
    .next (ringIn r 4 (fun s =>
      if frameOk frPROBE f = false then s.bump RING_CNT.CRCERR
      else if f.pay.getLsbD 0 = false then emitFrame [1 - r.val] frPROBE { s.ownFrame 0 1 0 false with seq := f.seq } s
      else if s.ring.echo.contains r.val then
        let s := s.setF (if r.val = 0 then RING_DLY.DW else RING_DLY.DE) ((trip.toNat - 20480) / 125)
        let s := s.onRing (fun x => { x with echo := x.echo.erase r.val })
        if s.ring.step = 5 ∧ s.ring.echo = [] then joined s else s
      else s) s)

/-- Whether a receiver takes a frame: its lane has block lock, its bypass is open, and the CRC is right. -/
def State.ringTakes (s : State) (r ty : Nat) (f : RingFrame) : Bool := s.trimmed && (s.ring.line r).lock && s.ring.isOpen r && frameOk ty f

/-- `JOIN_FRAME` (R422): forwarded; a joined node with the same ID and another nonce answers with CLAIM. -/
def execJoinFrame (r : Fin 2) (f : RingFrame) (s : State) : Host.Outcome State Fault Refusal :=
  let dup := s.ringTakes r frJOIN f && s.on RING_STAT.JOINED && f.src.toNat == s.nodeId && f.pay.toNat % 2 ^ 32 != s.ring.nonce.toNat % 2 ^ 32
  let s := recvPlain r frJOIN f s
  .next (if dup then sendFrame [0, 1] frCLAIM (s.ownFrame (s.rd RING_TIME) (BitVec.ofNat 64 (f.pay.toNat % 2 ^ 32)) f.src.toNat false) s else s)

/-- `CLAIM_FRAME` (R422): a CLAIM that answers the node's own JOIN ends its join; any other is treated as every frame. -/
def execClaimFrame (r : Fin 2) (f : RingFrame) (s : State) : Host.Outcome State Fault Refusal :=
  if s.ringTakes r frCLAIM f ∧ s.ring.step = 3 ∧ f.dst.toNat = s.nodeId ∧ f.pay.toNat % 2 ^ 32 = s.ring.nonce.toNat % 2 ^ 32 then .next (ringIn r 4 dupId s)
  else .next (recvPlain r frCLAIM f s)

/-- Ring 1 closes in a leave (R423). -/
def leaveStep (s : State) : State := s.onRing (fun x => { x with step := 7, open1 := false, leaving := [] })

/-- `LEAVE_FRAME` (R423): forwarded and delivered; the node's own, back on a ring, ends its wait when it is back on both. -/
def execLeaveFrame (r : Fin 2) (f : RingFrame) (s : State) : Host.Outcome State Fault Refusal :=
  let back := s.ringTakes r frLEAVE f && s.ring.step == 6 && f.src.toNat == s.nodeId
  let s := recvPlain r frLEAVE f s
  if back then
    let s := s.onRing (fun x => { x with leaving := x.leaving.erase r.val })
    .next (if s.ring.leaving = [] then leaveStep s else s)
  else .next s

/-- The nodes whose CICADA blocks came in the last 64 µs (R422). -/
def State.nodesSeen (s : State) : Nat := (s.ring.nodes.filter (fun y => decide (s.ring.up ≤ y.2 + 64000))).length

/-- `CICADA_BLOCK` (R411, R422): its source counts among the nodes of the last 64 µs; the time master's own tells by `TM` whether it still is (R415); while the node
listens, its own ID is a duplicate.  A closed bypass passes the block straight on (R421). -/
def execCicadaBlock (r : Fin 2) (id : BitVec 6) (tm : Bool) (s : State) : Host.Outcome State Fault Refusal :=
  let s := if s.ring.isOpen r then s else s.emit (.cicada r id.toNat tm)
  .next (ringIn r 1 (fun s =>
    let now := s.ring.up
    let s := s.onRing (fun x => { x with nodes := (id.toNat, now) :: (x.nodes.filter (fun y => y.1 != id.toNat && decide (now ≤ y.2 + 64000))) })
    let s := s.setF RING_STAT.NODES s.ring.nodes.length
    let s := if s.ring.master = some id.toNat then (if tm then s.onRing (fun x => { x with masterAt := now }) else masterLeft id.toNat s) else s
    if s.ring.step = 1 ∧ id.toNat = s.nodeId then dupId s else s) s)

/-- `CICADA_SEND` (R422). -/
def execCicadaSend (r : Fin 2) (s : State) : Host.Outcome State Fault Refusal :=
  .next (if s.on RING_STAT.JOINED ∧ s.ring.isOpen r then s.emit (.cicada r s.nodeId (s.on RING_STAT.TMACT)) else s)

/-- A join starts (R422), once the node has left reset (R3) and while no Diapause keeps the bypasses closed (R421). -/
def ringJoin (s : State) : State :=
  if s.trimmed = false ∨ s.modRung = 3 ∨ s.on RING_STAT.JOINED ∨ s.ring.step ≠ 0 then s
  else ((s.setF RING_STAT.JERR 0).setF RING_STAT.JSTATE 1).onRing (fun x => { x with step := 1 })

/-- A leave starts (R423): LEAVE on both rings, whose return is awaited on those whose bypass is open. -/
def ringLeave (s : State) : State :=
  if s.on RING_STAT.JOINED then
    (sendFrame [0, 1] frLEAVE (s.ownFrame (s.rd RING_TIME) 0 0 true) s).onRing (fun x =>
      { x with step := 6, leaving := [0, 1].filter (fun r => x.isOpen r) })
  else s

/-- Diapause at the ring node (R421, R424): a joined node leaves, and a join in progress ends with both bypasses closed. -/
def ringDiapause (s : State) : State :=
  if s.on RING_STAT.JOINED then (if s.ring.step = 0 then ringLeave s else s.onRing (fun x => { x with rejoin := false }))
  else if s.ring.step = 0 then s
  else (s.setF RING_STAT.JSTATE 0).onRing (fun x => { x with step := 0, open0 := false, open1 := false, echo := [] })

/-- The module leaves Diapause (R424): with `AUTOJ` the node joins again, at once or when the leave that is under way has ended. -/
def ringReturns (s : State) : State :=
  if s.on RING_CTL.AUTOJ = false then s
  else if s.on RING_STAT.JOINED ∧ s.ring.step ≠ 0 then s.onRing (fun x => { x with rejoin := true })
  else ringJoin s

/-- `RING_CTL_JOIN` (R422). -/
def execRingCtlJoin (s : State) : Host.Outcome State Fault Refusal := .next (ringJoin s)

/-- `RING_CTL_LEAVE` (R423). -/
def execRingCtlLeave (s : State) : Host.Outcome State Fault Refusal := .next (ringLeave s)

/-- `RING_JOIN_TIMER` (R422): the wait of the present step of a join expires. -/
def execRingJoinTimer (s : State) : Host.Outcome State Fault Refusal :=
  match s.ring.step with
  | 1 => .next ((s.setF RING_STAT.JSTATE 2).onRing (fun x => { x with step := 2, open0 := true }))
  | 2 =>
    let (v, s) := s.fresh
    let s := s.onRing (fun x => { x with step := 3, nonce := v &&& 0xFFFF_FFFF })
    .next (sendFrame [0] frJOIN (s.ownFrame (s.rd RING_TIME) s.ring.nonce 0 true) s)
  | 3 => .next ((s.setF RING_STAT.JSTATE 3).onRing (fun x => { x with step := 4, open1 := true }))
  | 4 => .next ((probe s).onRing (fun x => { x with step := 5 }))
  | 5 => .next (joined (s.setF RING_STAT.JERR 2))
  | _ => .next s

/-- `RING_LEAVE_TIMER` (R423): ring 1 closes, and then ring 0, and `JOINED` clears. -/
def execRingLeaveTimer (s : State) : Host.Outcome State Fault Refusal :=
  match s.ring.step with
  | 6 => .next (leaveStep s)
  | 7 =>
    let again := s.ring.rejoin
    let s := s.onRing (fun x => { x with step := 0, open0 := false, master := none, echo := [], rejoin := false })
    let s := (((s.setF RING_STAT.JOINED 0).setF RING_STAT.JSTATE 0).setF RING_STAT.TSYNC 0).setF RING_STAT.TMACT 0
    .next (if again then ringJoin s else s)
  | _ => .next s

/-- `RING_SILENCE` (R422): no valid block for 4 µs; the lane has lost block lock with them (log entry 33). -/
def execRingSilence (r : Fin 2) (s : State) : Host.Outcome State Fault Refusal :=
  let up := if r.val = 0 then RING_STAT.R0UP else RING_STAT.R1UP
  let s := if s.trimmed then s.onLine r (fun x => { x with lock := false, since := x.pos, bad := [], silent := true }) else s
  .next (if s.on up then logErr 0x0901 15 (srcOf 0 (239 + r)) 0 0 (s.setF up 0) else s)

/-- `RING_INVALID_BLOCK` (R411): counted; `hdr` tells that the header itself is valid, else it counts against the lane's block lock (R175).  A node in reset receives
nothing (R3). -/
def execRingInvalidBlock (r : Fin 2) (hdr : Bool) (s : State) : Host.Outcome State Fault Refusal :=
  .next (if s.trimmed = false then s
    else (s.bump RING_CNT.CRCERR).onLine r (fun x => if hdr then { x.pass 256 with silent := false } else x.fail))

/-! ### The ring mailbox (R420) -/

/-- A write of `RING_MBCTL`: `GO` sends `RING_MBTX`. -/
def mbSend (v : Nat) (s : State) : State :=
  let s := (s.setF RING_MBCTL.MBBC (bitsOf v 30 30)).setF RING_MBCTL.DST (v % 64)
  if bitOf v 31 then originate frMBOX (s.ownFrame (s.rd RING_TIME) (s.rd RING_MBTX) (s.f RING_MBCTL.DST) (s.on RING_MBCTL.MBBC)) s else s

/-- `MBOX_SEND` (R420). -/
def execMboxSend (v : BitVec 32) (s : State) : Host.Outcome State Fault Refusal := .next (mbSend v.toNat s)

/-- A read of `RING_RXHDR`: the oldest entry is presented and `RXDROP` clears. -/
def rxHeader (s : State) : Nat × State :=
  let d := s.f RING_RXHDR.RXDROP
  let s := s.setF RING_RXHDR.RXDROP 0
  match s.ring.rx with
  | [] => (d * 2 ^ 22, s)
  | e :: _ => (2 ^ 31 + b2n e.fsum * 2 ^ 30 + d * 2 ^ 22 + e.src * 2 ^ 16, s.onRing (fun x => { x with shown := true }))

/-- A read of `RING_RXDATA`: the presented entry's payload; the entry is removed. -/
def rxPayload (s : State) : Word × State :=
  match s.ring.shown, s.ring.rx with
  | true, e :: rest => (e.pay, s.onRing (fun x => { x with rx := rest, shown := false }))
  | _, _ => (0, s)

/-- `RXHDR_READ` (R420). -/
def execRxhdrRead (s : State) : Host.Outcome State Fault Refusal :=
  let (v, s) := rxHeader s
  .next (s.emit (.read (BitVec.ofNat 64 v)))

/-- `RXDATA_READ` (R420). -/
def execRxdataRead (s : State) : Host.Outcome State Fault Refusal :=
  let (v, s) := rxPayload s
  .next (s.emit (.read v))

/-! ### Partition exports (R419) -/

/-- The node looks at `FAILS` of a partition's primary: a change is exported with GFAIL while its bit of `GF` is set. -/
def noteFails (p : Nat) (s : State) : State :=
  match s.primary p with
  | none => s
  | some n =>
    let now := s.on (SEQ_PFLAG.FAILS n)
    if now = bitOf s.ring.fails p then s
    else
      let s := s.onRing (fun x => { x with fails := x.fails ^^^ 2 ^ p, rose := if now then x.rose ||| 2 ^ p else x.rose })
      if bitOf (s.f RING_PEXP.GF) p then
        originate frGFAIL (s.ownFrame (s.rd RING_TIME) (BitVec.ofNat 64 (0xF0 + p + 256 * b2n now)) 0 true) s
      else s

/-- The primary of a partition is another from now on: the node takes its `FAILS` as it stands, and no rise of it is left to report (R419). -/
def failsFollow (p : Nat) (s : State) : State :=
  match s.primary p with
  | none => s
  | some n =>
    let bit := 2 ^ p
    let off (v : Nat) : Nat := if bitOf v p then v - bit else v
    s.onRing (fun x => { x with fails := off x.fails + (if s.on (SEQ_PFLAG.FAILS n) then bit else 0), rose := off x.rose })

/-- FSUM at a commit tick of a partition. -/
def sendFsum (p pcommit : Nat) (lost : Bool) (s : State) : State :=
  if bitOf (s.f RING_PEXP.FS) p then
    let pay := p + 16 * b2n lost + 32 * b2n (bitOf s.ring.rose p) + pcommit % 2 ^ 40 * 256
    originate frFSUM (s.ownFrame (s.rd RING_TIME) (BitVec.ofNat 64 pay) 0 true)
      (s.onRing (fun x => { x with rose := if bitOf x.rose p then x.rose - 2 ^ p else x.rose }))
  else s

/-! ### Trigger pins (R425) -/

/-- A trigger pin raises its event: the doorbell of its partition's primary, and SYNC; the partition's wake source notes it (R445). -/
def trigEvent (k : Nat) (s : State) : State :=
  let p := s.f (TRIG_CFG.PART k)
  let s := (s.wr (TRIG_TS k) (s.rd RING_TIME)).setF (TRIG_STAT.EVT k) 1
  let s := if s.on (TRIG_CFG.DBEN k) then ringPrimary p (s.f (TRIG_CFG.DB k)) s else s
  let s := if s.on (TRIG_CFG.SEND k) then
      originate frSYNC (s.ownFrame (s.rd RING_TIME + BitVec.ofNat 64 (s.f RING_CTL.LEAD)) (BitVec.ofNat 64 (s.f (TRIG_CFG.EVNO k))) 0 true) s
    else s
  if p < 12 ∧ bitOf (s.f (PWR_PART.WAKEEN p)) 1 then { s with sys := { s.sys with trigEv := s.sys.trigEv ||| 2 ^ p } } else s

/-- Whether a level at a pin is active in its level mode. -/
def State.trigActive (s : State) (k : Nat) (high : Bool) : Bool :=
  let mode := s.f (TRIG_CFG.IMODE k)
  (mode == 4 && high) || (mode == 5 && !high)

/-- A pin is seen at a level (R425): in a level mode becoming active raises the event, unless the pin is masked; a masked pin that is inactive begins its 1 µs. -/
def trigLevel (k : Nat) (high : Bool) (s : State) : State :=
  let was := s.trigActive k (s.on (TRIG_STAT.IN k))
  let s := s.setF (TRIG_STAT.IN k) (b2n high)
  if s.trigActive k high then
    let s := s.onRing (fun x => { x with calm := Map.del x.calm k })
    if was ∨ s.on (TRIG_STAT.MASKED k) then s else trigEvent k s
  else if s.on (TRIG_STAT.MASKED k) ∧ (Map.find s.ring.calm k).isNone then s.onRing (fun x => { x with calm := Map.set x.calm k x.up })
  else s

/-- A pin shows an edge (R425): in a level mode it reaches the level behind it; in an edge mode an active edge raises the event, unless it follows another edge by less than
2 ns. -/
def trigEdge (k : Nat) (rise : Bool) (s : State) : State :=
  let mode := s.f (TRIG_CFG.IMODE k)
  if mode = 4 ∨ mode = 5 then trigLevel k rise s
  else
    let active := if rise then mode == 1 || mode == 3 else mode == 2 || mode == 3
    let near := match Map.find s.ring.edge k with
      | some t => decide (s.ring.up < t + 1)
      | none => false
    let s := (s.setF (TRIG_STAT.IN k) (b2n rise)).onRing (fun x => { x with edge := Map.set x.edge k (x.up + 1) })
    if active then (if near then s.bump (TRIG_STAT.OVR k) else trigEvent k s) else s

/-- `TRIG_EDGE` (R425), from the trim load on (R3). -/
def execTrigEdge (k : Fin 8) (rise : Bool) (s : State) : Host.Outcome State Fault Refusal := .next (if s.trimmed then trigEdge k rise s else s)

/-- `TRIG_LEVEL` (R425), from the trim load on (R3). -/
def execTrigLevel (k : Fin 8) (high : Bool) (s : State) : Host.Outcome State Fault Refusal := .next (if s.trimmed then trigLevel k high s else s)

/-- A ns at a trigger pin (R425): the input samples the level that the pin itself drives, and a masked pin that has been inactive for 1 µs is masked no more. -/
def trigClock (k : Nat) (s : State) : State :=
  let v := s.pinOut k
  let s :=
    if v = Map.getD s.ring.drove k 2 then s
    else
      let s := s.onRing (fun x => { x with drove := if v = 2 then Map.del x.drove k else Map.set x.drove k v })
      if v = 2 ∨ v = s.f (TRIG_STAT.IN k) then s else trigEdge k (v == 1) s
  match Map.find s.ring.calm k with
  | some t =>
    if t + 1000 ≤ s.ring.up then (s.setF (TRIG_STAT.MASKED k) 0).onRing (fun x => { x with calm := Map.del x.calm k }) else s
  | none => s

/-- A ns at every trigger pin, from the trim load on (R3). -/
def trigClocks (s : State) : State := if s.trimmed = false then s else (List.range 8).foldl (fun s k => trigClock k s) s

/-- `TRIG_STUCK` (R425): a level held past `STUCK` µs: one more event, a corrected error, and the pin reads inactive from now on. -/
def execTrigStuck (k : Fin 8) (s : State) : Host.Outcome State Fault Refusal :=
  let mode := s.f (TRIG_CFG.IMODE k)
  let high := s.on (TRIG_STAT.IN k)
  if ((mode = 4 ∧ high) ∨ (mode = 5 ∧ high = false)) ∧ s.on (TRIG_STAT.MASKED k) = false ∧ s.trimmed = true then
    let s := (trigEvent k (s.setF (TRIG_STAT.STUCK k) 1)).setF (TRIG_STAT.MASKED k) 1
    .next (logErr 0x0902 15 (srcOf 5 k) 0 0 s)
  else .next s

end Sys2Proof.Machine
end

