-- ==== Sys2Proof/Machine/SeqOps.lean ====
section
/-!
DEFINITION. Machine/SeqOps.lean: the named operations over a sequencer's state: its registers and windows (R184 to R187), its status, its accumulators (R202, R203), its
reset (R211), and the meanings of the commands that read or write one of its registers of BAR0.
-/
namespace Sys2Proof.Machine

/-! ### The core's state -/

/-- The state of sequencer `n`. -/
def State.getSeq (s : State) (n : Nat) : Seq := Map.getD s.seqs n (Seq.reset 0 0)

/-- Store the state of sequencer `n`. -/
def State.setSeq (s : State) (n : Nat) (x : Seq) : State := { s with seqs := Map.set s.seqs n x }

/-- Change the state of sequencer `n`. -/
def State.onSeq (s : State) (n : Nat) (g : Seq → Seq) : State := s.setSeq n (g (s.getSeq n))

/-- Fields of STATUS (R186). -/
def Seq.sb (x : Seq) (bit : Nat) : Bool := x.status.getLsbD bit
def stIE : Nat := 4
def stPIE : Nat := 5
def stSH : Nat := 6
def stPSH : Nat := 7
def stTW : Nat := 8
def stPTW : Nat := 9
def stFPEN : Nat := 10
def stHZ5C : Nat := 11
def stTE : Nat := 12
def stRP : Nat := 13
def stPRP : Nat := 14
def stLA : Nat := 15
def stPLA : Nat := 16

/-- The privilege level: 0 user, 1 supervisor, 2 monitor. -/
def Seq.pl (x : Seq) : Nat := getBits x.status 1 0

/-- STATUS with one bit set to a value. -/
def Seq.setSb (x : Seq) (bit : Nat) (b : Bool) : Seq := { x with status := setBits x.status bit bit (b2n b) }

/-- Place of register specifier `k` in the register numbering of R474: g0 to g15 with the bank of `SH`, w0 to w15 of the window in use (R184, R187), and f0 to
f31 for 32 to 63. -/
def Seq.place (x : Seq) (k : Nat) : Nat :=
  if 32 ≤ k then 64 + k
  else if k < 8 then k
  else if k < 16 then (if x.sb stSH then k + 8 else k)
  else if x.sb stTW then 80 + (k - 16)
  else if k < 24 then 24 + 8 * (x.wcur % 7) + (k - 16)
  else 24 + 8 * ((x.wcur + 1) % 7) + (k - 24)

/-- The value at a place; g0 reads zero. -/
def Seq.atPlace (x : Seq) (p : Nat) : Word := if p = 0 then 0 else Map.getD x.r p 0

/-- The value of register specifier `k`. -/
def Seq.reg (x : Seq) (k : Nat) : Word := x.atPlace (x.place k)

/-- Write a place; a write to g0 is discarded, and a write ends an outstanding load of the same place, and a wait for one. -/
def Seq.putPlace (x : Seq) (p : Nat) (v : Word) : Seq :=
  if p = 0 then x else { x with r := Map.set x.r p v, loads := x.loads.filter (fun l => l.reg != p), soon := x.soon.filter (fun e => e.1 != p) }

/-- Write register specifier `k`. -/
def Seq.put (x : Seq) (k : Nat) (v : Word) : Seq := x.putPlace (x.place k) v

/-- A result that an instruction leaves at a place can be used from the cycle on that lies its latency after its issue (R192, R216): before, the pipeline interlocks. -/
def Seq.usedFrom (x : Seq) (p latency : Nat) : Seq :=
  if p = 0 ∨ latency < 2 then x else { x with soon := x.soon.filter (fun e => decide (x.cycle < e.2)) ++ [(p, x.cycle + latency)] }

/-- An accumulator: bank × 2 + A. -/
def Seq.accAt (x : Seq) (a : Nat) : BitVec 72 := Map.getD x.acc a 0

/-- Write an accumulator. -/
def Seq.putAcc (x : Seq) (a : Nat) (v : BitVec 72) : Seq := { x with acc := Map.set x.acc a v }

/-- The number of accumulator A in the bank that `SH` selects (R203). -/
def Seq.accIx (x : Seq) (a : Nat) : Nat := 2 * b2n (x.sb stSH) + a

/-- The limits at which an accumulator counts as pinned (R226). -/
def accMax : BitVec 72 := 0x7F_FFFF_FFFF_FFFF_FFFF
def accMin : BitVec 72 := 0x80_0000_0000_0000_0000

/-- A product added to an accumulator: exact, pinned beyond 72 bits, and no change to a pinned one (R63, R226). -/
def accAdd (acc : BitVec 72) (d : Int) : BitVec 72 :=
  if acc = accMax ∨ acc = accMin then acc else BitVec.ofInt 72 (clampS 72 (acc.toInt + d)).1

/-- Products due at or before the end of a cycle are added, oldest first (R202). -/
def Seq.drainMacs (x : Seq) (upTo : Nat) : Seq :=
  let due := x.macs.filter (fun m => decide (m.due ≤ upTo))
  due.foldl (fun x m => x.putAcc m.acc (accAdd (x.accAt m.acc) m.delta)) { x with macs := x.macs.filter (fun m => decide (upTo < m.due)) }

/-- Cycles pass: products that fall due before the next issue are added (R202). -/
def Seq.pass (x : Seq) (n : Nat) : Seq := Seq.drainMacs { x with cycle := (x.cycle + n) % 2 ^ 64 } (x.cycle + n - 1)

/-- The value of a special register (R185); an accumulator's high part is sign-extended, and ASID holds the partition in its upper bits (R270). -/
def Seq.special (x : Seq) (part sp : Nat) (h : Bool) : Word :=
  let acc (a : Nat) : Word :=
    let v := x.accAt (x.accIx a)
    if h then BitVec.ofInt 64 (sgn 8 (v.toNat / 2 ^ 64)) else BitVec.ofNat 64 v.toNat
  match sp with
  | 0 => x.status
  | 1 => BitVec.ofNat 64 x.pc
  | 2 => BitVec.ofNat 64 x.epc
  | 3 => BitVec.ofNat 64 x.cause
  | 4 => BitVec.ofNat 64 x.tvec
  | 5 => BitVec.ofNat 64 x.wcur
  | 6 => BitVec.ofNat 64 x.wres
  | 7 => BitVec.ofNat 64 x.wsp
  | 8 => BitVec.ofNat 64 x.cxlink
  | 9 => BitVec.ofNat 64 x.fpowner
  | 10 => BitVec.ofNat 64 (x.asid % 2 ^ 12 + part * 2 ^ 12)
  | 11 => BitVec.ofNat 64 x.ptbase
  | 12 => BitVec.ofNat 64 x.rptc
  | 13 => x.lpc
  | 14 => BitVec.ofNat 64 x.lcnt
  | 15 => acc 0
  | _ => acc 1

/-- Write WSP: the cached mask word of the HZ5 frame is read again (R261). -/
def Seq.setWsp (x : Seq) (v : Nat) : Seq := { x with wsp := v, fmask := none }

/-- Write LPC: the repeat cache starts afresh (R199). -/
def Seq.setLpc (x : Seq) (v : Word) : Seq := { x with lpc := v, body := [] }

/-- Whether a sequencer's clock runs and it is out of reset (R33, R442). -/
def State.seqClk (s : State) (n : Nat) : Bool := (s.getSeq n).st != 0 && !s.partDown ((s.seqPart n).getD 15)

/-- A write of a sequencer register by the physical function, or a gated access (R33, R210). -/
def seqWrite (n key : Nat) (g : State → State) (s : State) : State := if s.seqClk n then g s else gatedAccess key s

/-! ### `SEQ_CTL` (R210, R211) -/

/-- The partition whose primary sequencer `n` is. -/
def State.primaryOf (s : State) (n : Nat) : Option Nat := (List.range 12).find? (fun p => s.primary p == some n)

/-- `STATE` of the partition follows its primary (R26): STOPPED to RUNNING when it runs, RUNNING to STOPPED when it halts, is reset or stops in DFAULT. -/
def partFollows (n : Nat) (s : State) : State :=
  match s.primaryOf n with
  | none => s
  | some p =>
    let st := (s.getSeq n).st
    if s.f (GLB_PART_CFG.STATE p) = stSTOPPED ∧ st = 2 then (s.lanesOf p).foldl (fun s l => laneResync l s) (s.setF (GLB_PART_CFG.STATE p) stRUNNING)
    else if s.f (GLB_PART_CFG.STATE p) = stRUNNING ∧ (st = 0 ∨ st = 1 ∨ st = 4) then s.setF (GLB_PART_CFG.STATE p) stSTOPPED
    else s

/-- The reset of a core (R211): halted, the bank unchanged, `SEQ_MCHK` and the entries of the DMA fault queue kept.  Parameter writes still queued and MOULT tokens on
their way are dropped with the pipeline that issued them (DESIGN CHOICE, log entry 57). -/
def resetCore (n : Nat) (s : State) : State :=
  let s := s.setSeq n { Seq.reset 1 (s.f (SEQ_BOOT.ADDR n) * 4) with dmaq := (s.getSeq n).dmaq }
  partFollows n (s.setF (SEQ_CTL.RUN n) 0)

/-- A sequencer stops for a rung (R443 step 1): where it waits in `AWAIT`, or at a boundary with no repeat pending. -/
def seqDoze (q : Nat) (s : State) : State :=
  let x := s.getSeq q
  if (x.st = 2 ∧ x.rptc = 0) ∨ x.st = 3 then s.setSeq q { x with before := x.st, st := 5 } else s

/-- Whether the partition of a sequencer enters a rung. -/
def State.dozes (s : State) (q : Nat) : Bool :=
  match s.seqPart q with
  | some n => (Map.find s.sys.entering n).isSome
  | none => false

/-- A write of `RUN` (R210): 1 sets a halted core of an enabled partition running; 0 halts it at a boundary with no repeat pending, and at once in `AWAIT`. -/
def seqRun (n : Nat) (run : Bool) (s : State) : State :=
  let x := s.getSeq n
  if run then
    if (s.seqPart n).isNone ∨ x.st = 4 then s
    else
      let s := s.setF (SEQ_CTL.RUN n) 1
      if x.st = 1 then partFollows n (s.setSeq n { x with st := 2 }) else s
  else
    let s := s.setF (SEQ_CTL.RUN n) 0
    if (x.st = 2 ∧ x.rptc = 0) ∨ x.st = 3 then partFollows n (s.setSeq n { x with st := 1, wait := none }) else s

/-- `SEQ_RUN` (R210). -/
def execSeqRun (n : Fin 24) (run : Bool) (s : State) : Host.Outcome State Fault Refusal :=
  .next (seqWrite n (SEQ_CTL n) (seqRun n run) s)

/-- `SEQ_RESET` (R211). -/
def execSeqReset (n : Fin 24) (s : State) : Host.Outcome State Fault Refusal := .next (seqWrite n (SEQ_CTL n) (resetCore n) s)

/-- `SEQ_CLRERR` (R210). -/
def execSeqClrerr (n : Fin 24) (s : State) : Host.Outcome State Fault Refusal :=
  .next (seqWrite n (SEQ_BANK_CTL n) (fun s => s.wr (SEQ_BANK_ERR n) 0) s)

/-- `SEQ_CLRCOLL` (R210). -/
def execSeqClrcoll (n : Fin 24) (s : State) : Host.Outcome State Fault Refusal :=
  .next (seqWrite n (SEQ_BANK_CTL n) (fun s => s.wr (SEQ_BANK_COLL n) 0) s)

/-- The effect of writing 1 to bits of `SEQ_AEV_PEND` (R210): the bits and their sources clear. -/
def aevClear (n bits : Nat) (s : State) : State :=
  (onesOf 24 bits).foldl (fun s k => (s.setF ((SEQ_AEV_PEND.PEND n).bit k) 0).wr (SEQ_AEV_SRC n k) 0) s

/-- `AEV_PEND_CLEAR` (R210). -/
def execAevPendClear (n : Fin 24) (bits : BitVec 24) (s : State) : Host.Outcome State Fault Refusal :=
  .next (seqWrite n (SEQ_AEV_PEND n) (aevClear n bits.toNat) s)

/-- `DOORBELL_SET` (R209). -/
def execDoorbellSet (n : Fin 24) (bits : BitVec 16) (s : State) : Host.Outcome State Fault Refusal :=
  .next (seqWrite n (SEQ_DBELL_SET n) (setDoorbell n bits.toNat) s)

/-- The partition flags `PF1` to `PF3` as the primary of a partition drives them (R207, R210). -/
def State.pfDriven (s : State) (p : Nat) : BitVec 4 :=
  match s.primary p with
  | some n => BitVec.ofNat 4 (s.f (SEQ_PFLAG.PFDRV n) % 8 * 2)
  | none => 0

/-- The flag lines of a partition stand at an island. -/
def pfReach (i : Nat) (s : State) : State := s.onIsl i (fun x => { x with pf := s.pfDriven (s.islPart i) })

/-- The effect of a write of `PFDRV` (R207): only the primary's field changes, and the flag lines reach every island. -/
def pflagDrive (n drv : Nat) (s : State) : State :=
  match s.primaryOf n with
  | none => s
  | some p => (s.islandsOf p).foldl (fun s i => pfReach i s) (s.setF (SEQ_PFLAG.PFDRV n) (drv % 8))

/-- A write of `INHOLD` in the primary (R105). -/
def intakeHold (n : Nat) (hold : Bool) (s : State) : State :=
  if (s.primaryOf n).isSome then s.setF (SEQ_PFLAG.INHOLD n) (b2n hold) else s

/-- `INTAKE_HOLD` (R105). -/
def execIntakeHold (n : Fin 24) (hold : Bool) (s : State) : Host.Outcome State Fault Refusal :=
  .next (seqWrite n (SEQ_PFLAG n) (intakeHold n hold) s)

/-- `PARTITION_FLAG_DRIVE` (R207). -/
def execPartitionFlagDrive (n : Fin 24) (drv : BitVec 3) (s : State) : Host.Outcome State Fault Refusal :=
  .next (seqWrite n (SEQ_PFLAG n) (pflagDrive n drv.toNat) s)

/-- The state a partition keeps beside its registers. -/
def State.getPart (s : State) (p : Nat) : Part := Map.getD s.parts p { served := 24, flag := false }

/-- Store the state of a partition. -/
def State.setPart (s : State) (p : Nat) (x : Part) : State := { s with parts := Map.set s.parts p x }

/-- Whether an island of a partition has driven the fail flag since the primary saw it last (R207). -/
def State.pf0Rose (s : State) (p : Nat) : Bool := (s.islandsOf p).any (fun i => (s.getIsl i).ffRise)

/-- The fail flag of a partition reaches its primary (R207): an assertion, be it over already, sets `FAILS` and `FAILL`, and its rise raises event 20. -/
def seeFlag (p : Nat) (s : State) : State :=
  match s.primary p with
  | none => s
  | some n =>
    let now := s.pf0 p
    let seen := now || s.pf0Rose p
    let was := (s.getPart p).flag
    let s := (s.islandsOf p).foldl (fun s i => if (s.getIsl i).ffRise then s.onIsl i (fun x => { x with ffRise := false }) else s) s
    let s := s.setPart p { s.getPart p with flag := now }
    if seen then
      let s := (s.setF (SEQ_PFLAG.FAILS n) 1).setF (SEQ_PFLAG.FAILL n) 1
      noteFails p (if was then s else raiseAev p 20 0 0 s)
    else s.setF (SEQ_PFLAG.FAILL n) 0

/-- `PARTITION_FAIL_FLAG` (R207). -/
def execPartitionFailFlag (p : Fin 12) (s : State) : Host.Outcome State Fault Refusal := .next (seeFlag p s)

/-- An array event is recorded at the primary (R208): its pending bit, and the first source and the count of occurrences. -/
def recordAev (n : Nat) (e : AEv) (s : State) : State :=
  let k := e.bit
  let s := if s.on ((SEQ_AEV_PEND.PEND n).bit k) ∧ s.on (SEQ_AEV_SRC.VALID n k) then s
    else s.wr (SEQ_AEV_SRC n k) (BitVec.ofNat 64 (2 ^ 31 + e.kind % 2 * 2 ^ 8 + e.src % 256))
  (s.setF ((SEQ_AEV_PEND.PEND n).bit k) 1).bump (SEQ_AEV_SRC.COUNT n k)

/-- `SEQ_TIMER_EXPIRY` (R251): with `EN` set the count reaches `CMP`, and the line is pending from then on. -/
def execSeqTimerExpiry (n : Fin 24) (s : State) : Host.Outcome State Fault Refusal :=
  if s.seqClk n ∧ (s.getSeq n).st ≠ 5 ∧ s.on (SEQ_TIMER.EN n) then
    .next (s.onSeq n (fun x => if x.cycle < s.f (SEQ_TIMER.CMP n) then x.pass (s.f (SEQ_TIMER.CMP n) - x.cycle) else x))
  else .next s

/-- `MAC_PRODUCT_ADD` (R202): the cycle at whose end the oldest MAC in flight adds its product passes. -/
def execMacProductAdd (n : Fin 24) (s : State) : Host.Outcome State Fault Refusal :=
  let x := s.getSeq n
  match x.macs with
  | [] => .next s
  | m :: _ => .next (s.setSeq n (x.pass (m.due + 1 - x.cycle)))

/-- `LOAD_RETURN` (R193): the data of the oldest outstanding load is written to its register. -/
def execLoadReturn (n : Fin 24) (s : State) : Host.Outcome State Fault Refusal :=
  match (s.getSeq n).loads with
  | [] => .next s
  | l :: rest => .next (s.onSeq n (fun x => { x with r := (if l.reg = 0 then x.r else Map.set x.r l.reg l.data), loads := rest }))

/-! ### Interrupt lines (R251) -/

/-- Whether the DMA fault queue holds an entry of the running context (R285). -/
def State.dmaPending (s : State) (n : Nat) : Bool := (s.getSeq n).dmaq.any (fun e => e.ctx == s.f (SEQ_CTXID.CTXID n))

/-- The four interrupt lines, bit k for code 0x10 + k; array events are pending in a primary only (R210). -/
def State.irqPend (s : State) (n : Nat) : Nat :=
  b2n (s.dmaPending n) + 2 * b2n ((s.primaryOf n).isSome && s.f (SEQ_AEV_PEND.PEND n) &&& s.f (SEQ_AEV_IE.IE n) != 0) + 4 * b2n (s.on (SEQ_DBELL.PEND n)) +
    8 * b2n (s.on (SEQ_TIMER.EN n) && decide (s.f (SEQ_TIMER.CMP n) ≤ (s.getSeq n).cycle))

/-- The lowest pending and enabled interrupt line. -/
def State.irqLine (s : State) (n : Nat) : Option Nat := (onesOf 4 (s.irqPend n &&& s.f (SEQ_IRQ.EN n))).head?

/-- A read of `SEQ_DMAFQ` (R285): the oldest entry of the running context, removed; the value is 0 when there is none. -/
def dmafqRead (n : Nat) (s : State) : Nat × State :=
  match (s.getSeq n).dmaq.find? (fun e => e.ctx == s.f (SEQ_CTXID.CTXID n)) with
  | none => (0, s)
  | some e =>
    let v := 2 ^ 31 + b2n e.stream * 2 ^ 30 + e.port % 32 * 2 ^ 24 + e.index % 64
    (v, s.onSeq n (fun x => { x with dmaq := x.dmaq.erase e }))

/-- `SEQ_DMAFQ_READ` (R285). -/
def execSeqDmafqRead (n : Fin 24) (s : State) : Host.Outcome State Fault Refusal :=
  if s.seqClk n then
    let (v, s) := dmafqRead n s
    .next (s.emit (.read (BitVec.ofNat 64 v)))
  else .next ((gatedAccess (SEQ_DMAFQ n) s).emit (.read 0))

end Sys2Proof.Machine
end

