-- ==== Sys2Proof/Machine/Bus.lean ====
section
/-!
DEFINITION. Machine/Bus.lean: the device physical space (R34): which unit answers an address, and the memory reads and writes of every requester; sequencer banks with
their SECDED (R194); the CXL window (R404); and the MMU with its translation buffers (R269 to R278).
-/
namespace Sys2Proof.Machine

/-! ### The device physical space -/

/-- What a physical address names. -/
inductive Region where
  | reg (off : Nat)
  | isl (i off : Nat)
  | bank (n off : Nat)
  | tracker (off : Nat)
  | fat (off : Nat)
  | early (pa : Nat)     -- the on-die buffer that stands for the first 4 MiB of the CXL window (R344)
  | cxl (dev dpa : Nat)
  | host (h : Nat)
  | unmapped
deriving DecidableEq, Repr

/-- The committed HDM decoder that covers a window offset (R404). -/
def State.hdmOf (s : State) (o : Nat) : Option Nat :=
  (List.range 16).find? (fun d => s.on (CXP_HDM2.COMMITTED d) &&
    (let b := s.f (CXP_HDM0.BASE d) * 2 ^ 28
     decide (b ≤ o) && decide (o < b + s.f (CXP_HDM1.SIZE d) * 2 ^ 28)))

/-- Target `p` of a decoder. -/
def State.hdmTarget (s : State) (d p : Nat) : Nat := s.f ((⟨CXP_HDM3 d, 63, 0⟩ : RF).elem 4 p) % 8

/-- Device and device address of a window offset (R404). -/
def State.hdmMap (s : State) (o : Nat) : Option (Nat × Nat) :=
  match s.hdmOf o with
  | none => none
  | some d =>
    let ways := 2 ^ s.f (CXP_HDM2.IW d)
    let gran := 256 * 2 ^ min (s.f (CXP_HDM2.IG d)) 6
    let a := o - s.f (CXP_HDM0.BASE d) * 2 ^ 28
    some (s.hdmTarget d (a / gran % ways), s.f (CXP_HDM2.DPABASE d) * 2 ^ 28 + a / (gran * ways) * gran + a % gran)

/-- Whether a CXL device answers: its port is up, its media is ready and the address lies within its capacity (R404, R405). -/
def State.devAnswers (s : State) (dev dpa : Nat) : Bool :=
  s.on (CXP_DEV.ACTIVE dev) && s.on (CXP_PSTAT.UP (s.f (CXP_DEV.PORT dev))) && decide (dpa < s.f (CXP_DEV.CAP dev) * 2 ^ 28)

/-- Whether the request outstanding at a device's port does not complete (R405). -/
def State.cxlLost (s : State) (dev : Nat) : Bool := bitOf s.sys.cxlDead (s.f (CXP_DEV.PORT dev))

/-- That request has ended with a bus error. -/
def State.cxlNoted (s : State) (dev : Nat) : State :=
  if s.cxlLost dev then { s with sys := { s.sys with cxlDead := s.sys.cxlDead - 2 ^ s.f (CXP_DEV.PORT dev) } } else s

/-- A read at a CXL device completes.  Whether it took more than 700 ns, which `SLOW` counts, is open: no row tells its time (R405; log entry 66). -/
def State.cxlRead (s : State) (dev : Nat) : State :=
  let (slow, s) := s.freshBit
  s.setF (CXP_DEV.SLOW dev) (min (s.f (CXP_DEV.SLOW dev) + b2n slow) 65535)

/-- What a device physical address names (R34). -/
def State.region (s : State) (pa : Nat) : Region :=
  if pa < 0x100_0000 then .reg pa
  else if 0x1_0000_0000 ≤ pa ∧ pa < 0x1_0270_0000 then .isl ((pa - 0x1_0000_0000) / 0x4_0000) (pa % 0x4_0000)
  else if 0x2_0000_0000 ≤ pa ∧ pa < 0x2_0180_0000 then .bank ((pa - 0x2_0000_0000) / 0x10_0000) (pa % 0x10_0000)
  else if 0x3_0000_0000 ≤ pa ∧ pa < 0x3_0060_0000 then .tracker (pa - 0x3_0000_0000)
  else if 0x3_0100_0000 ≤ pa ∧ pa < 0x3_0200_0000 then .fat (pa - 0x3_0100_0000)
  else if 0x1000_0000_0000 ≤ pa ∧ pa < 0x1000_0040_0000 ∧ s.on FE_GSTAT.EARLYBUF then .early pa
  else if 0x1000_0000_0000 ≤ pa ∧ pa < 0x2000_0000_0000 then
    match s.hdmMap (pa - 0x1000_0000_0000) with
    | some (dev, dpa) => .cxl dev dpa
    | none => .unmapped
  else if 0x8_0000_0000_0000 ≤ pa ∧ pa < 0x10_0000_0000_0000 then .host (pa - 0x8_0000_0000_0000)
  else .unmapped

/-- Keys of the memory of CXL device `dev`, beyond the 52-bit space. -/
def cxlKey (dev dpa : Nat) : Nat := 2 ^ 54 + dev * 2 ^ 50 + dpa

/-- What a read returned: the data, the stored tags of an island memory's ECC word, and whether it is poisoned. -/
structure Got where
  data : Nat
  tags : Nat
  bad : Bool
deriving DecidableEq, Repr

/-- A read of an ECC word of a bank finds its condition (R194): a corrected error is counted and logged, an uncorrectable one too. -/
def bankEcc (n off : Nat) (s : State) : Nat × State :=
  let a := bankBase n + off
  match s.ecc a with
  | 0 => (0, s)
  | 1 =>
    let s := s.bump (SEQ_BANK_ERR.CECNT n)
    (1, logErr 0x0104 ((s.seqPart n).getD 15) (srcSeq n) (BitVec.ofNat 64 (off / 8 * 8)) 0 s)
  | _ =>
    let s := s.bump (SEQ_BANK_ERR.UECNT n)
    (2, logErr 0x0105 ((s.seqPart n).getD 15) (srcSeq n) (BitVec.ofNat 64 (off / 8 * 8)) 0 s)

/-- A write of a bank: a part of an ECC word is a read-modify-write, which keeps an uncorrectable word uncorrectable (R139, R142, R194). -/
def bankStore (n off size data : Nat) (bad : Bool) (s : State) : State :=
  let (e, s) := if size = 8 then (0, s) else bankEcc n off s
  let s := s.onMem (fun m => Memory.puts m (bankBase n + off) (bytesLE size data))
  s.setEcc (bankBase n + off) (if bad ∨ e = 2 then 2 else 0)

/-- A drop at a bank by the owner-wins rule (R194). -/
def bankCollision (n off : Nat) (s : State) : State :=
  let s := if s.f (SEQ_BANK_COLL.COUNT n) = 0 then s.setF (SEQ_BANK_COLL.FADDR n) (off / 8 * 8) else s
  s.bump (SEQ_BANK_COLL.COUNT n)

/-- Whether the fail engine's clock runs: its slices are out of reset (R33). -/
def State.feClk (s : State) : Bool := s.on CLK_STAB1.FE

/-- Bytes of the Fail Address Table window (R348): entry e at 16e, zero elsewhere. -/
def State.fatRead (s : State) (off size : Nat) : Nat :=
  match s.fat.find? (fun e => e.slot == off / 16) with
  | none => 0
  | some e => (2 ^ 127 + e.part * 2 ^ 82 + e.unit * 2 ^ 68 + e.row * 2 ^ 48 + e.col * 2 ^ 32 + e.mask) / 2 ^ (8 * (off % 16)) % 2 ^ (8 * size)

/-- Whether an access to a physical address has to wait behind what waits in the stream/DMA port of its island (R147). -/
def State.portHeld (s : State) (pa : Nat) : Bool :=
  match s.region pa with
  | .isl i _ => !(s.getIsl i).portQ.isEmpty
  | _ => false

/-- The ECC word that a write at a physical address lands on: the one at the tail for a push, whose address in the region is ignored (R140, R147). -/
def State.landing (s : State) (pa : Nat) : Nat :=
  match s.region pa with
  | .isl i off =>
    match s.pushQueues i (off / 4) with
    | q :: _ => pa - off + s.qAddr i q (s.f (ISL_QPTR.TAIL i q)) / 2 * 8
    | [] => pa / 8 * 8
  | _ => pa / 8 * 8

/-- A read of memory of 1, 2, 4 or 8 bytes by a requester other than the owner; `none` is a bus error (R37).  Registers are read by another path.  Whether the
host completes a read is the host's (R279); a write of host memory has no completion. -/
def busRead (pa size : Nat) (s : State) : Option Got × State :=
  match s.region pa with
  | .isl i off =>
    if s.islClk i then
      let (d, t, bad, s) := portRead i off size s
      (some { data := d, tags := t, bad := bad }, s)
    else (none, s)
  | .bank n off =>
    if s.seqClk n then
      let (e, s) := bankEcc n off s
      (some { data := Memory.num s.mem (bankBase n + off) size, tags := 0, bad := e == 2 }, s)
    else (none, s)
  | .tracker _ => if s.feClk then (some { data := Memory.num s.mem pa size, tags := 0, bad := s.ecc pa == 2 }, s) else (none, s)
  | .fat off => if s.feClk then (some { data := s.fatRead off size, tags := 0, bad := s.ecc pa == 2 }, s) else (none, s)
  | .early a => if s.feClk then (some { data := Memory.num s.mem a size, tags := 0, bad := s.ecc a == 2 }, s) else (none, s)
  | .cxl dev dpa =>
    let s := s.setF (CXP_PSTAT.L1 (s.f (CXP_DEV.PORT dev))) 0
    if s.cxlLost dev then (none, s.cxlNoted dev)
    else if s.devAnswers dev dpa then (some { data := Memory.num s.mem (cxlKey dev dpa) size, tags := 0, bad := s.ecc (cxlKey dev dpa) == 2 }, s.cxlRead dev)
    else (none, s)
  | .host h =>
    let (ends, s) := s.freshBit
    (if ends then some { data := Memory.num s.mem (hostBase + h) size, tags := 0, bad := s.ecc (hostBase + h) == 2 } else none, s)
  | .reg _ => (none, s)
  | .unmapped => (none, s)

/-- How a write ended. -/
inductive WrEnd where
  | done | collided | waits | error
deriving DecidableEq, Repr

/-- A write of memory; `bad` writes the data as poisoned, `clash` tells that the owner writes the same ECC word at that edge (R140). -/
def busWrite (pa size data tags : Nat) (bad host clash : Bool) (s : State) : WrEnd × State :=
  match s.region pa with
  | .isl i off =>
    if s.islClk i then
      if (s.getIsl i).portQ ≠ [] then (.waits, s)
      else
      match portWrite i off size data tags bad host clash s with
      | (.done, s) => (.done, s)
      | (.collided, s) => (.collided, s)
      | (.waits, s) => (.waits, s)
    else (.error, s)
  | .bank n off =>
    if s.seqClk n then
      if clash then (.collided, bankCollision n off s) else (.done, bankStore n off size data bad s)
    else (.error, s)
  | .tracker _ => if s.feClk then (.done, s) else (.error, s)
  | .fat _ => if s.feClk then (.done, s) else (.error, s)
  | .early a =>
    if s.feClk then (.done, (s.onMem (fun m => Memory.puts m a (bytesLE size data))).setEcc a (if bad then 2 else if size = 8 then 0 else s.ecc a))
    else (.error, s)
  | .cxl dev dpa =>
    let s := s.setF (CXP_PSTAT.L1 (s.f (CXP_DEV.PORT dev))) 0
    if s.cxlLost dev then (.error, s.cxlNoted dev)
    else if s.devAnswers dev dpa then
      let k := cxlKey dev dpa
      (.done, (s.onMem (fun m => Memory.puts m k (bytesLE size data))).setEcc k (if bad then 2 else if size = 8 then 0 else s.ecc k))
    else (.error, s)
  | .host h =>
    let k := hostBase + h
    (.done, (s.onMem (fun m => Memory.puts m k (bytesLE size data))).setEcc k (if bad then 2 else if size = 8 then 0 else s.ecc k))
  | .reg _ => (.error, s)
  | .unmapped => (.error, s)

/-- A write whose requester goes on: where it cannot be served at once it waits in the port of its island, marked as a store of sequencer `src` (R147, R193). -/
def busPost (pa size data src : Nat) (clash : Bool) (s : State) : WrEnd × State :=
  match busWrite pa size data 0 false false clash s with
  | (.waits, s) =>
    (.waits, match s.region pa with
      | .isl i off =>
        s.onIsl i (fun x => { x with portQ := x.portQ ++
          [{ req := .write (BitVec.ofNat 18 off) (Fin.ofNat 9 size) (BitVec.ofNat 64 data) 0 false, src := src }] })
      | _ => s)
  | r => r

/-- Whether the owner wrote, at the edge of a store, the ECC word it goes to (R140): an island port that wrote it since its last edge may have done so at that edge or
before, which the spec leaves open. -/
def ownerMeets (pa : Nat) (s : State) : Bool × State :=
  match s.region pa with
  | .isl i off => if s.clashes i off then s.freshBit else (false, s)
  | _ => (false, s)

/-- The reads that make up a request at `base`, one after another: the data, and whether one was poisoned; nothing when one ended with a bus error. -/
def busReads (base off size : Nat) (s : State) : Option (Nat × Bool) × State :=
  (pieces off size).foldl (fun (acc : Option (Nat × Bool) × State) p =>
    match acc with
    | (none, s) => (none, s)
    | (some (d, bad), s) =>
      match busRead (base + p.1) p.2.1 s with
      | (some g, s) => (some (d + g.data * 2 ^ p.2.2, bad || g.bad), s)
      | (none, s) => (none, s)) (some (0, false), s)

/-- The writes that make up a request at `base`, one after another, up to one that does not end well. -/
def busWrites (base off size data : Nat) (bad host clash : Bool) (s : State) : WrEnd × State :=
  (pieces off size).foldl (fun (acc : WrEnd × State) p =>
    match acc with
    | (.done, s) => busWrite (base + p.1) p.2.1 (data / 2 ^ p.2.2 % 2 ^ (8 * p.2.1)) 0 bad host clash s
    | r => r) (.done, s)

/-- `SEQUENCER_BANK_ACCESS` (R194): an access at the external port of a bank. -/
def execSequencerBankAccess (n : Fin 24) (p : PortReq20) (clash : Bool) (s : State) : Host.Outcome State Fault Refusal :=
  match p with
  | .read off size =>
    match busReads (bankBase n) off.toNat size s with
    | (some (d, bad), s) => .next (s.emit (if bad then .poisoned (BitVec.ofNat 64 d) else .read (BitVec.ofNat 64 d)))
    | (none, s) => .next (s.emit .busError)
  | .write off size data =>
    match busWrites (bankBase n) off.toNat size data.toNat false false clash s with
    | (.error, s) => .next (s.emit .busError)
    | (.collided, s) => .next (s.emit .collided)
    | (_, s) => .next s

/-! ### The MMU (R269 to R278) -/

/-- Rights of a page (R273). -/
def pteV (w : Word) : Bool := w.getLsbD 0
def pteR (w : Word) : Bool := w.getLsbD 1
def pteW (w : Word) : Bool := w.getLsbD 2
def pteX (w : Word) : Bool := w.getLsbD 3
def pteU (w : Word) : Bool := w.getLsbD 4
def ptePin (w : Word) : Bool := w.getLsbD 5
def pteL (w : Word) : Bool := w.getLsbD 6
def ptePpn (w : Word) : Nat := getBits w 51 12

/-- A read of a page-table entry (R274): `none` when its address is not memory or its data are not sound, which is logged against `src`. -/
def readPte (pa part src : Nat) (s : State) : Option Word × State :=
  let (g, s) : Option Got × State := match s.region pa with
    | .host _ => (none, s)
    | _ => busRead pa 8 s
  match g with
  | some g => if g.bad then (none, logErr 0x0501 part src (BitVec.ofNat 64 pa) 0 s) else (some (BitVec.ofNat 64 g.data), s)
  | none => (none, logErr 0x0501 part src (BitVec.ofNat 64 pa) 0 s)

/-- A page-table walk from `level` down (R272 to R274): the page size in bits and the leaf, or nothing for a translation fault. -/
def walk (part src va : Nat) : (level : Nat) → (base : Nat) → State → Option (Nat × Word) × State
  | level, base, s =>
    let shift := 12 + 9 * level
    match readPte (base + va / 2 ^ shift % 512 * 8) part src s with
    | (none, s) => (none, s)
    | (some w, s) =>
      if !pteV w || getBits w 63 52 != 0 || getBits w 11 7 != 0 then (none, s)
      else
        match level with
        | 0 => (some (12, w), s)
        | lower + 1 =>
          if pteL w then
            if 2 ≤ lower ∨ ptePpn w % 2 ^ (9 * level) ≠ 0 then (none, s) else (some (shift, w), s)
          else if getBits w 6 1 ≠ 0 then (none, s)
          else walk part src va lower (ptePpn w * 4096) s

/-- Whether a buffered translation covers a virtual address in an address space. -/
def TlbEntry.hits (e : TlbEntry) (asid va : Nat) : Bool := e.asid == asid && e.page == va / 2 ^ e.bits

/-- Keep a walked translation: a pinned one in the pinned TLB while it has room (R276). -/
def tlbKeep (asid va bits : Nat) (leaf : Word) (s : State) : State :=
  let used := s.f MMU_STAT.PINUSED
  let pin := ptePin leaf
  let s := if pin ∧ 512 ≤ used then s.setF MMU_STAT.PINFULL 1 else s
  let put := pin && decide (used < 512)
  let s := if put then s.setF MMU_STAT.PINUSED (used + 1) else s
  let e : TlbEntry := { asid := asid, bits := bits, page := va / 2 ^ bits, leaf := leaf, pinned := put }
  if s.tlb.contains e then s else { s with tlb := e :: s.tlb }

/-- Whether the TLBs that serve a requester hold a buffered translation: the pinned TLB holds its own (R276); which of the micro-TLBs and the shared TLB have room for
another at the moment, the spec leaves open (R277, log entry 55). -/
def stands (e : TlbEntry) (s : State) : Bool × State := if e.pinned then (true, s) else s.freshBit

/-- The first of some buffered translations that stands. -/
def standing : List TlbEntry → State → Option TlbEntry × State
  | [], s => (none, s)
  | e :: es, s =>
    match stands e s with
    | (true, s) => (some e, s)
    | (false, s) => standing es s

/-- The leaf that translates an address (R277): a buffered translation that stands, or, on a miss, the one that a walk of the table finds and that is kept.  An older
translation of the address is kept beside it, since another requester's micro-TLB may hold it until its invalidation. -/
def leafOf (asid ptbase part src va : Nat) (s : State) : Option (Nat × Word) × State :=
  match standing (s.tlb.filter (fun e => e.hits asid va)) s with
  | (some e, s) => (some (e.bits, e.leaf), s)
  | (none, s) =>
    match walk part src va 3 ptbase s with
    | (none, s) => (none, s)
    | (some (b, w), s) => (some (b, w), tlbKeep asid va b w s)

/-- The result of a translation: a physical address, or a trap code of R245: 0x0A translation fault, 0x0B access violation. -/
inductive Xlt where
  | ok (pa : Nat)
  | fault (code : Nat)
deriving DecidableEq, Repr

/-- Translate an address and check the rights that an access needs (R275). -/
def translate (asid ptbase part src va : Nat) (rights : Word → Bool) (s : State) : Xlt × State :=
  match leafOf asid ptbase part src va s with
  | (none, s) => (.fault 0x0A, s)
  | (some (b, w), s) => if rights w then (.ok (ptePpn w * 4096 + va % 2 ^ b), s) else (.fault 0x0B, s)

/-- Full address space ID of a sequencer (R270). -/
def State.seqAsid (s : State) (n : Nat) : Nat := (s.getSeq n).asid % 4096 + (s.seqPart n).getD 15 * 4096

/-- `PAGE_TABLE_WALK` (R274): a requester's miss walks the table of its address space; a translation found is kept. -/
def execPageTableWalk (r : Req) (va : BitVec 48) (s : State) : Host.Outcome State Fault Refusal :=
  match r with
  | .fn _ => .next s
  | .seq n => .next (leafOf (s.seqAsid n) (s.getSeq n).ptbase ((s.seqPart n).getD 15) (srcSeq n) va.toNat s).2
  | .dma c =>
    let p := s.f (DMA_CH_OWN.PART c)
    .next (leafOf (p * 4096 + s.f (DMA_CH_XLT.ASID c)) (s.f (DMA_CH_XLT.PTBASE c) * 4096) p (srcOf 1 c) va.toNat s).2

/-- A write of `MMU_INV` (R278); `part` is the partition that a virtual function or a sequencer is held to. -/
def tlbInvalidate (part : Option Nat) (v : Word) (s : State) : State :=
  if s.on MMU_INV.BUSY then s.setF MMU_STAT.INVLOST 1
  else
    let v := match part with
      | none => v
      | some p =>
        let v := setBits v 59 56 p
        if getBits v 62 61 = 3 then setBits v 62 61 0 else v
    s.wr MMU_INV (setBits v 63 63 1 &&& 0xFFFFF00FFFFFFFFF)

/-- Whether an invalidation names a buffered translation (R278). -/
def invMatches (v : Word) (e : TlbEntry) : Bool :=
  let asid := getBits v 59 44
  (getBits v 60 60 != 0 || !e.pinned) &&
  (match getBits v 62 61 with
   | 0 => e.asid / 4096 == asid / 4096
   | 1 => e.asid == asid
   | 2 => e.asid == asid && e.page == getBits v 35 0 * 4096 / 2 ^ e.bits
   | _ => true)

/-- `TLB_INVALIDATE` (R278): a write by a host function, or by a sequencer. -/
def execTlbInvalidate (r : Req) (v : BitVec 64) (s : State) : Host.Outcome State Fault Refusal :=
  match r with
  | .fn f => .next (tlbInvalidate (if f.val = 0 then none else some ((s.vfPart f).getD 15)) v s)
  | .seq n => .next (tlbInvalidate (some ((s.seqPart n).getD 15)) v s)
  | .dma _ => .next s

end Sys2Proof.Machine
end

