-- ==== Sys2Proof/Machine/Dma.lean ====
section
/-!
DEFINITION. Machine/Dma.lean: invalidation of translations (R278), and the DMA channels: descriptors, units of transfer, faults, resumption and abort (R280 to R291).
-/
namespace Sys2Proof.Machine

/-! ### Invalidation (R278, R297) -/

/-- Whether a buffered translation serves an armed timed read stream. -/
def State.servesTimed (s : State) (e : TlbEntry) : Bool :=
  (List.range 24).any (fun p => (List.range 8).any (fun k =>
    let m := s.getMsp p k
    let st := s.f (MSP_CSR.STATE p k)
    decide (1 ≤ st ∧ st ≤ 3) && s.on (MSP_CFG.TIMED p k) && m.asid == e.asid &&
      decide (m.base < (e.page + 1) * 2 ^ e.bits) && decide (e.page * 2 ^ e.bits < m.base + m.len)))

/-- `INVALIDATION_COMPLETE` (R278): the matching entries are gone and `BUSY` clears; a timed stream that lost a pinned one sets `PINHIT` (R297). -/
def execInvalidationComplete (s : State) : Host.Outcome State Fault Refusal :=
  if s.on MMU_INV.BUSY then
    let v := s.rd MMU_INV
    let gone := s.tlb.filter (invMatches v)
    let kept := s.tlb.filter (fun e => !invMatches v e)
    let s := if gone.any (fun e => e.pinned && s.servesTimed e) then s.setF MMU_STAT.PINHIT 1 else s
    .next ((State.setF { s with tlb := kept } MMU_STAT.PINUSED (kept.filter (fun e => e.pinned)).length).setF MMU_INV.BUSY 0)
  else .next s

/-! ### Fault entries (R285) -/

/-- Whether two fault entries are of the same channel or stream. -/
def FaultEntry.same (a b : FaultEntry) : Bool := a.stream == b.stream && a.port == b.port && a.index == b.index

/-- Queue a fault entry for a sequencer, at most one per channel or stream: a later fault's entry takes the place of an earlier one (DESIGN CHOICE, log entry 57). -/
def queueFault (n : Nat) (e : FaultEntry) (s : State) : State :=
  if n < 24 then s.onSeq n (fun x => { x with dmaq := x.dmaq.filter (fun a => !a.same e) ++ [e] }) else s

/-- Remove the fault entry of a channel or stream. -/
def unqueueFault (stream : Bool) (port index : Nat) (s : State) : State :=
  { s with seqs := s.seqs.map (fun q => (q.1, { q.2 with dmaq := q.2.dmaq.filter (fun e => !e.same { stream := stream, port := port, index := index, ctx := 0 }) })) }

/-! ### Channels -/

/-- A channel's descriptor state. -/
def State.getCh (s : State) (c : Nat) : Chan := Map.getD s.dmas c Chan.empty

/-- Store a channel's descriptor state. -/
def State.setCh (s : State) (c : Nat) (x : Chan) : State := { s with dmas := Map.set s.dmas c x }

/-- The partition of a channel. -/
def State.chPart (s : State) (c : Nat) : Nat := s.f (DMA_CH_OWN.PART c)

/-- Translate an address of a channel (R269, R275); the result is a fault code of R283 or a physical address. -/
def chXlt (c va : Nat) (rights : Word → Bool) (s : State) : Except Nat Nat × State :=
  if !s.on (DMA_CH_XLT.TE c) then (.ok (va % 2 ^ 52), s)
  else
    let p := s.chPart c
    match translate (p * 4096 + s.f (DMA_CH_XLT.ASID c)) (s.f (DMA_CH_XLT.PTBASE c) * 4096) p (srcOf 1 c) (va % 2 ^ 48) rights s with
    | (.ok pa, s) => (.ok pa, s)
    | (.fault code, s) => (.error (if code = 0x0A then 1 else 2), s)

/-- `STAT` of a descriptor (R283). -/
def Chan.stat (x : Chan) (ended fcode fside : Nat) : Nat :=
  ended * 2 ^ 61 + b2n x.coll * 2 ^ 60 + b2n x.psn * 2 ^ 59 + fcode * 2 ^ 55 + fside * 2 ^ 53 + min x.ccnt 4095 * 2 ^ 40 + min x.pcnt 255 * 2 ^ 32

/-- Write `DONE` and `STAT` into the descriptor. -/
def chReport (c ended fcode fside : Nat) (s : State) : State :=
  let x := s.getCh c
  let s := (busPost (x.pa + 0x20) 8 x.done 24 false s).2
  (busPost (x.pa + 0x28) 8 (x.stat ended fcode fside) 24 false s).2

/-- Suspend a channel (R285): the report, the fault registers, and the notice to the owner. -/
def chSuspend (c fcode fside va : Nat) (s : State) : State :=
  let s := if fside = 2 then s else chReport c 2 fcode fside s
  let s := ((s.setF (DMA_CH_CSR.STATE c) 2).setF (DMA_CH_CSR.FCODE c) fcode).setF (DMA_CH_CSR.FSIDE c) fside
  let s := s.setF (DMA_CH_FVA.ADDR c) (if s.on (DMA_CH_XLT.TE c) then va % 2 ^ 48 else va)
  let p := s.chPart c
  if s.on (DMA_CH_OWN.KIND c) then
    queueFault (s.f (DMA_CH_OWN.SEQ c)) { stream := false, port := 0, index := c, ctx := s.f (DMA_CH_OWN.OCTX c) } s
  else sendMsix (s.vfOf p) (s.f (DMA_CH_OWN.OCTX c) % 2 ^ 11) s

/-- Notify the owner that a descriptor has ended (R282, R284). -/
def chNotify (c : Nat) (s : State) : State :=
  let x := s.getCh c
  if !bitOf x.ctl 4 then s
  else if s.on (DMA_CH_OWN.KIND c) then setDoorbell (s.f (DMA_CH_OWN.SEQ c)) (2 ^ (x.ctl / 2 ^ 8 % 16)) s
  else sendMsix (s.vfOf (s.chPart c)) (s.f (DMA_CH_OWN.OCTX c) % 2 ^ 11) s

/-- The end of a descriptor (R284): reported with `CADDR`, notified, and chained or the channel goes idle. -/
def chEnd (c : Nat) (s : State) : State :=
  let x := s.getCh c
  let s := chNotify c (busPost (x.pa + 0x30) 8 x.caddr 24 false (chReport c 1 0 0 s)).2
  if bitOf x.ctl 3 ∧ x.next ≠ 0 then (s.setCh c Chan.empty).setF (DMA_CH_DESC.ADDR c) (x.next / 64)
  else (s.setCh c Chan.empty).setF (DMA_CH_CSR.STATE c) 0

/-- A descriptor whose `DONE` has reached `LEN` ends. -/
def chMaybeEnd (c : Nat) (s : State) : State := if (s.getCh c).len ≤ (s.getCh c).done then chEnd c s else s

/-- `GO` (R284, R300): starts an idle channel of a partition. -/
def chGo (c : Nat) (s : State) : State :=
  if s.f (DMA_CH_CSR.STATE c) = 0 ∧ s.chPart c ≠ 15 then (s.setCh c Chan.empty).setF (DMA_CH_CSR.STATE c) 1 else s

/-- `RESUME` (R286): removes the fault entry and reads the descriptor again; counts of the descriptor go on. -/
def chResume (c : Nat) (s : State) : State :=
  if s.f (DMA_CH_CSR.STATE c) = 2 then
    let s := unqueueFault false 0 c s
    (s.setCh c { s.getCh c with loaded := false }).setF (DMA_CH_CSR.STATE c) 1
  else s

/-- Words of memory at a physical address: the data, and whether one was poisoned; none is a bus error. -/
def busWords : (n pa : Nat) → State → Option (List Nat × Bool) × State
  | 0, _, s => (some ([], false), s)
  | n + 1, pa, s =>
    match busRead pa 8 s with
    | (none, s) => (none, s)
    | (some g, s) =>
      match busWords n (pa + 8) s with
      | (none, s) => (none, s)
      | (some (ds, bad), s) => (some (g.data :: ds, bad || g.bad), s)

/-- The words of a channel's descriptor (R281): its physical address and the words, or a fault code of R283; 0 while they have to wait behind a push (R147), as those that
an abort reads do not (log entry 60). -/
def chWords (c : Nat) (abort : Bool) (s : State) : Except Nat (Nat × List Nat) × State :=
  match chXlt c (s.f (DMA_CH_DESC.ADDR c) * 64) (fun w => pteR w && pteW w) s with
  | (.error f, s) => (.error f, s)
  | (.ok pa, s) =>
    if !abort && s.portHeld pa then (.error 0, s)
    else
    match busWords 8 pa s with
    | (none, s) => (.error 3, s)
    | (some (ws, bad), s) => (if bad then .error 6 else .ok (pa, ws), s)

/-- Whether a reserved bit of a descriptor is set (R281 to R283). -/
def reservedSet (ws : List Nat) : Bool :=
  let w (k : Nat) : Nat := ws.getD k 0
  w 0 / 2 ^ 12 != 0 || w 0 / 2 ^ 5 % 8 != 0 || w 3 / 2 ^ 40 != 0 || w 4 / 2 ^ 40 != 0 || bitOf (w 5) 52 || w 5 % 2 ^ 32 != 0 || w 6 / 2 ^ 52 != 0

/-- A channel takes its descriptor from the words read at a physical address; its counts go on. -/
def chTake (c pa : Nat) (ws : List Nat) (s : State) : State :=
  let w (k : Nat) : Nat := ws.getD k 0
  s.setCh c { s.getCh c with loaded := true, pa := pa, ctl := w 0, src := w 1, dst := w 2, len := w 3, done := w 4, next := w 7 }

/-- The descriptor of a running channel is read and checked (R281, R284). -/
def chFetch (c : Nat) (s : State) : State :=
  let va := s.f (DMA_CH_DESC.ADDR c) * 64
  match chWords c false s with
  | (.error f, s) => if f = 0 then s else chSuspend c f 2 va s
  | (.ok (pa, ws), s) =>
    let w (k : Nat) : Nat := ws.getD k 0
    if reservedSet ws then chSuspend c 5 2 va s
    else if w 2 % 4 ≠ 0 ∨ w 3 % 4 ≠ 0 ∨ (!bitOf (w 0) 0 ∧ w 1 % 4 ≠ 0) then chSuspend c 4 2 va s
    else chMaybeEnd c (chTake c pa ws s)

/-- `ABORT` (R291): the channel stops, writes `DONE` and `END` = 3, notifies the owner and goes idle.  A descriptor that it does not hold, before the first read or
between a suspension or a resume and the next read, is read for this; one that cannot be read stays as it is (log entry 60). -/
def chAbort (c : Nat) (s : State) : State :=
  if s.f (DMA_CH_CSR.STATE c) = 0 then s
  else
    let s := if (s.getCh c).loaded then s
      else
        match chWords c true s with
        | (.ok (pa, ws), s) => chTake c pa ws s
        | (.error _, s) => s
    let s := if (s.getCh c).loaded then chNotify c (chReport c 3 0 0 s) else s
    ((unqueueFault false 0 c s).setCh c Chan.empty).setF (DMA_CH_CSR.STATE c) 0

/-- Island memory answers an address. -/
def State.isIsl (s : State) (pa : Nat) : Bool :=
  match s.region pa with
  | .isl _ _ => true
  | _ => false

/-- The tag nibbles of `size` bytes at an address, from those of its ECC word (R134). -/
def tagPart (pa size tags : Nat) : Nat := if size = 8 then tags else tags / 16 ^ (pa % 8 / 4) % 16

/-- The source of a unit (R284, R288): data, tags and whether it is poisoned, or a fault code with its address; code 0 while it has to wait behind a push (R147). -/
def chSource (c size : Nat) (s : State) : Except (Nat × Nat) Got × State :=
  let x := s.getCh c
  if bitOf x.ctl 0 then (.ok { data := (x.src % 2 ^ 64 * (2 ^ 64 + 1)) / 2 ^ (8 * (x.done % 8)) % 2 ^ (8 * size), tags := 0, bad := false }, s)
  else
    let va := x.src + x.done
    match chXlt c va pteR s with
    | (.error f, s) => (.error (f, va), s)
    | (.ok pa, s) =>
      if s.portHeld pa then (.error (0, va), s)
      else
      match busRead pa size s with
      | (none, s) => (.error (3, va), s)
      | (some g, s) =>
        let keep := bitOf x.ctl 1 && s.isIsl pa
        (.ok { g with tags := if keep then tagPart pa size g.tags else 0 }, s)

/-- One unit of transfer moves (R284, R287 to R289); `clash` tells that the owner writes the same ECC word at that edge. -/
def chUnit (c : Nat) (clash : Bool) (s : State) : State :=
  let x := s.getCh c
  let dst := x.dst + x.done
  let size := if dst % 8 = 0 ∧ (bitOf x.ctl 0 ∨ (x.src + x.done) % 8 = 0) ∧ 8 ≤ x.len - x.done then 8 else 4
  match chSource c size s with
  | (.error (f, va), s) => if f = 0 then s else chSuspend c f 0 va s
  | (.ok g, s) =>
    if g.bad ∧ bitOf x.ctl 2 then chSuspend c 6 0 (x.src + x.done) s
    else
      match chXlt c dst pteW s with
      | (.error f, s) => chSuspend c f 1 dst s
      | (.ok pa, s) =>
        let word := s.landing pa
        match busWrite pa size g.data (if s.isIsl pa then g.tags else 0) g.bad false clash s with
        | (.error, s) => chSuspend c 3 1 dst s
        | (.waits, s) => s
        | (r, s) =>
          let s := if g.bad ∧ x.psn = false then logErr 0x0502 (s.chPart c) (srcOf 1 c) (BitVec.ofNat 64 (s.f (DMA_CH_DESC.ADDR c) * 64)) 0 s else s
          let x := if g.bad then { x with psn := true, pcnt := min (x.pcnt + 1) 255 } else x
          let x := if r = .collided then
            { x with coll := true, ccnt := min (x.ccnt + 1) 4095, caddr := if x.ccnt = 0 then word else x.caddr } else x
          chMaybeEnd c (s.setCh c { x with done := x.done + size })

/-- Whether the DMA complex has its clock. -/
def State.dmaClk (s : State) : Bool := s.on CLK_STAB1.DMA

/-- A write of a register of the DMA and MMU complex by the physical function, or a gated access (R33). -/
def dmaWrite (key : Nat) (g : State → State) (s : State) : State := if s.dmaClk then g s else gatedAccess key s

/-- `DMA_GO` (R284). -/
def execDmaGo (c : Fin 64) (s : State) : Host.Outcome State Fault Refusal := .next (dmaWrite (DMA_CH_CSR c) (chGo c) s)

/-- `DMA_RESUME` (R286). -/
def execDmaResume (c : Fin 64) (s : State) : Host.Outcome State Fault Refusal := .next (dmaWrite (DMA_CH_CSR c) (chResume c) s)

/-- `DMA_ABORT` (R291). -/
def execDmaAbort (c : Fin 64) (s : State) : Host.Outcome State Fault Refusal := .next (dmaWrite (DMA_CH_CSR c) (chAbort c) s)

/-- `DMA_DESCRIPTOR_FETCH` (R284): a running channel without a descriptor reads it. -/
def execDmaDescriptorFetch (c : Fin 64) (s : State) : Host.Outcome State Fault Refusal :=
  if s.f (DMA_CH_CSR.STATE c) = 1 ∧ (s.getCh c).loaded = false ∧ s.partDown (s.chPart c) = false then .next (chFetch c s) else .next s

end Sys2Proof.Machine
end

