-- ==== Sys2Proof/Machine/Msp.lean ====
section
/-!
DEFINITION. Machine/Msp.lean: the memory stream ports: read and write streams, timed streams, faults, resumption and abort (R292 to R298).
-/
namespace Sys2Proof.Machine

/-- Partition of a port. -/
def State.mspPart (s : State) (p : Nat) : Nat := s.owner (p / 2)

/-- Whether a port takes traffic: its partition is Active and not in the loading state (R379, R443). -/
def State.mspServed (s : State) (p : Nat) : Bool := !s.partDown (s.mspPart p) && !s.bandHeld (s.mspPart p)

/-- State of a stream (`MSP_CSR.STATE`). -/
def State.mspSt (s : State) (p k : Nat) : Nat := s.f (MSP_CSR.STATE p k)

/-- Change a stream. -/
def State.onMsp (s : State) (p k : Nat) (g : Msp → Msp) : State := s.setMsp p k (g (s.getMsp p k))

/-- Translate an address of a stream (R269, R275); the result is a fault code of R283 or a physical address and the leaf's `PIN`. -/
def mspXlt (p k va : Nat) (rights : Word → Bool) (s : State) : Except Nat (Nat × Bool) × State :=
  let m := s.getMsp p k
  match leafOf m.asid m.ptbase (s.mspPart p) (srcOf 2 (p * 16 + k)) va s with
  | (none, s) => (.error 1, s)
  | (some (b, w), s) => if rights w then (.ok (ptePpn w * 4096 + va % 2 ^ b, ptePin w), s) else (.error 2, s)

/-- Bytes of a stream's range done so far. -/
def State.mspDone (s : State) (p k : Nat) : Nat := s.f (MSP_LEN.DONE p k)

/-- Append an item to a stream's share. -/
def mspPush (p k : Nat) (x : StreamItem) (s : State) : State := s.onMsp p k (fun m => { m with buf := { m.buf with items := m.buf.items ++ [x] } })

/-- A token for every track of a group. -/
def tokenItem (ty : Nat) : StreamItem := { w := AWord.mk true false 0 (BitVec.ofNat 32 (ty * 2 ^ 28)), ends := false, mask := 0 }

/-- A fault entry for the stream's sequencer (R298). -/
def mspFaultEntry (p k : Nat) (s : State) : State :=
  queueFault (s.f (MSP_CFG.SEQ p k)) { stream := true, port := p, index := k, ctx := s.f (MSP_CFG2.CTXID p k) } s

/-- A fault of a timed stream (R297): one ABORT token, the abort of the bursts it feeds, the fault entry, and idle. -/
def timedFault (p k code : Nat) (s : State) : State :=
  let s := mspPush p k (tokenItem tokABORT) (s.onMsp p k (fun m => { m with filling := false }))
  let s := (onesOf 8 (s.f (MSP_CFG.LANES p k))).foldl (fun s q => burstFault (s.leader (16 * (p / 2) + 8 * (p % 2) + q)) s) s
  mspFaultEntry p k ((s.setF (MSP_CSR.FCODE p k) code).setF (MSP_CSR.STATE p k) 0)

/-- A fault of an untimed stream (R298): suspended. -/
def mspSuspend (p k code : Nat) (s : State) : State := mspFaultEntry p k ((s.setF (MSP_CSR.FCODE p k) code).setF (MSP_CSR.STATE p k) 4)

/-- Whether a stream is a timed read stream. -/
def State.mspTimed (s : State) (p k : Nat) : Bool := decide (k < 8) && s.on (MSP_CFG.TIMED p k)

/-- The whole range of a read stream has been accepted (R293): its end token follows behind it, and a running stream is done, though its consumers still hold up to a
share of its words (R305); a timed stream that fills is ready (R296), and is done with its first delivered word (`pushRead`). -/
def readEnd (p k : Nat) (s : State) : State :=
  let s := s.onMsp p k (fun m => { m with filling := false })
  let s := match s.f (MSP_CFG.ENDTOK p k) with
    | 1 => mspPush p k (tokenItem tokEOS) s
    | 2 => mspPush p k (tokenItem tokBLOCK) s
    | _ => s
  if s.mspSt p k = 1 then mspNotify p k (s.setF (MSP_CSR.STATE p k) 2) else readDone p k s

/-- The share of a read stream in bytes (R293). -/
def State.share (s : State) (p k : Nat) : Nat := (s.f (MSP_CFG.DEPTH p k) + 1) * 256

/-! ### Arming (R296) -/

/-- The pages of a range: for each the page size in bits, the leaf and the address; none when a page has no valid leaf with `R`. -/
def pagesOf (part src ptbase stop : Nat) : (fuel : Nat) → (va : Nat) → State → Option (List (Nat × Word × Nat)) × State
  | 0, _, s => (some [], s)
  | fuel + 1, va, s =>
    if stop ≤ va then (some [], s)
    else
      match walk part src va 3 ptbase s with
      | (none, s) => (none, s)
      | (some (b, w), s) =>
        if !pteR w then (none, s)
        else
          match pagesOf part src ptbase stop fuel ((va / 2 ^ b + 1) * 2 ^ b) s with
          | (none, s) => (none, s)
          | (some ps, s) => (some ((b, w, va) :: ps), s)

/-- Whether an address lies in the CXL window, or in another memory. -/
def State.inMem (s : State) (cxl : Bool) (pa : Nat) : Bool :=
  match s.region pa with
  | .cxl _ _ => true
  | .early _ => true
  | .reg _ => false
  | .host _ => false
  | .unmapped => false
  | _ => !cxl

/-- One address of each MiB that the part of a page below `stop` takes: every range of R34 and of an HDM decoder begins and ends at a whole MiB. -/
def pageParts (stop : Nat) (pg : Nat × Word × Nat) : List Nat :=
  let pa := ptePpn pg.2.1 * 4096 + pg.2.2 % 2 ^ pg.1
  let len := min stop ((pg.2.2 / 2 ^ pg.1 + 1) * 2 ^ pg.1) - pg.2.2
  (List.range ((pa % 2 ^ 20 + len + 2 ^ 20 - 1) / 2 ^ 20)).map (fun k => max pa ((pa / 2 ^ 20 + k) * 2 ^ 20))

/-- Whether some part of a page maps into the CXL window. -/
def State.pageCxl (s : State) (stop : Nat) (pg : Nat × Word × Nat) : Bool := (pageParts stop pg).any (s.inMem true)

/-- Whether every part of a page maps into a memory. -/
def State.pageMem (s : State) (stop : Nat) (pg : Nat × Word × Nat) : Bool := (pageParts stop pg).all (fun a => s.inMem true a || s.inMem false a)

/-- Whether a pinned translation of a page is held already. -/
def State.pinHeld (s : State) (asid : Nat) (pg : Nat × Word × Nat) : Bool :=
  s.tlb.any (fun e => e.pinned && e.asid == asid && e.bits == pg.1 && e.page == pg.2.2 / 2 ^ pg.1)

/-- Armed timed streams of a port. -/
def State.armed (s : State) (p : Nat) : List Nat := (List.range 8).filter (fun k => s.on (MSP_CFG.TIMED p k) && decide (1 ≤ s.mspSt p k ∧ s.mspSt p k ≤ 3))

/-- Bytes of a port's prefetch buffer that its active read streams hold. -/
def State.sharesHeld (s : State) (p : Nat) : Nat :=
  (((List.range 8).filter (fun k => decide (1 ≤ s.mspSt p k ∧ s.mspSt p k ≤ 4))).map (s.share p)).sum

/-- Bytes of it that read streams which are not active still hold, but for stream `k` (R305). -/
def State.sharesLeft (s : State) (p k : Nat) : Nat :=
  (((List.range 8).filter (fun j => j != k && !decide (1 ≤ s.mspSt p j ∧ s.mspSt p j ≤ 4))).map (fun j => 4 * (s.getMsp p j).buf.items.length)).sum

/-- The checks of an arming, in order (R296): the code of the first that fails, or the pages of the range. -/
def armChecks (p k : Nat) (s : State) : Except Nat (List (Nat × Word × Nat)) × State :=
  let m := s.getMsp p k
  let rate := s.f (MSP_CFG2.RATE p k)
  if m.len = 0 ∨ rate = 0 ∨ s.f (MSP_CFG.LANES p k) = 0 then (.error 1, s)
  else
    match pagesOf (s.mspPart p) (srcOf 2 (p * 16 + k)) m.ptbase (m.base + m.len) 1048578 m.base s with
    | (none, s) => (.error 2, s)
    | (some ps, s) =>
      let stop := m.base + m.len
      let cxl := ps.any (s.pageCxl stop)
      let lat := if cxl then 1000 else 250
      let ports := ((s.armed p).map (fun j => s.f (MSP_CFG2.RATE p j))).sum
      let all := ((List.range 24).map (fun q => (((s.armed q).filter (fun j => (s.getMsp q j).cxl)).map (fun j => s.f (MSP_CFG2.RATE q j))).sum)).sum
      let e :=
        if !ps.all (s.pageMem stop) then 3
        else if !ps.all (fun pg => ptePin pg.2.1) then 4
        else if 512 < s.f MMU_STAT.PINUSED + (ps.filter (fun pg => !s.pinHeld m.asid pg)).length then 5
        else if s.share p k * 1000 < rate * lat ∨ 65536 < s.sharesHeld p + s.sharesLeft p k + s.share p k then 6
        else if 32000 < ports + rate ∨ (cxl ∧ 192000 < all + rate) then 7
        else 0
      (if e = 0 then .ok ps else .error e, s)

/-- An arming (R296): refused with its code, or the pages are held and the stream fills. -/
def arm (p k : Nat) (s : State) : State :=
  match armChecks p k s with
  | (.error e, s) => (s.setF (MSP_CSR.ARMERR p k) e).setF (MSP_CSR.STATE p k) 0
  | (.ok ps, s) =>
    let asid := (s.getMsp p k).asid
    let cxl := ps.any (s.pageCxl ((s.getMsp p k).base + (s.getMsp p k).len))
    let s := ps.foldl (fun s pg => if s.pinHeld asid pg then s else tlbKeep asid pg.2.2 pg.1 pg.2.1 s) s
    (s.onMsp p k (fun m => { m with filling := true, cxl := cxl })).setF (MSP_CSR.STATE p k) 1

/-! ### Commands -/

/-- `GO` (R292, R293, R295, R296): of a group's first stream, in an owned row, when it is idle, done, aborted or full. -/
def mspGo (p k : Nat) (s : State) : State :=
  let st := s.mspSt p k
  if (s.mspGroup p k).1 ≠ k ∨ s.mspPart p = 15 ∨ s.bandHeld (s.mspPart p) ∨ (1 ≤ st ∧ st ≤ 4) then s
  else
    let n := s.mspPart p
    let s := ((((s.setF (MSP_CSR.ARMERR p k) 0).setF (MSP_CSR.FCODE p k) 0).setF (MSP_CSR.TOKDROP p k) 0).setF (MSP_CSR.PCNT p k) 0).wr (MSP_COLL p k) 0
    let s := s.setF (MSP_LEN.DONE p k) 0
    let s := s.onMsp p k (fun m => { m with
      base := s.f (MSP_BASE.VA p k) * 4, len := s.f (MSP_LEN.LEN p k) * 4, ptbase := s.f (MMU_PART.PTBASE n) * 4096, asid := s.f (MMU_PART.ASID n) + n * 4096,
      filling := decide (k < 8), cxl := false })
    if s.mspTimed p k then arm p k s
    else
      let s := s.setF (MSP_CSR.STATE p k) 3
      if (s.getMsp p k).len = 0 then (if k < 8 then readEnd p k s else s.setF (MSP_CSR.STATE p k) 7) else s

/-- `RESUME` (R298). -/
def mspResume (p k : Nat) (s : State) : State :=
  if s.mspSt p k = 4 then unqueueFault true p k (s.setF (MSP_CSR.STATE p k) 3) else s

/-- `ABORT` (R298): the stream stops in any state; a read stream sends one ABORT token to every track of its group. -/
def mspAbort (p k : Nat) (s : State) : State :=
  if (s.mspGroup p k).1 ≠ k then s
  else
    let s := unqueueFault true p k ((s.onMsp p k (fun m => { m with filling := false })).setF (MSP_CSR.STATE p k) 6)
    if k < 8 then mspPush p k (tokenItem tokABORT) s else s

/-- `MSP_GO` (R296). -/
def execMspGo (p : Fin 24) (k : Fin 16) (s : State) : Host.Outcome State Fault Refusal := .next (dmaWrite (MSP_CSR p k) (mspGo p k) s)

/-- `MSP_RESUME` (R298). -/
def execMspResume (p : Fin 24) (k : Fin 16) (s : State) : Host.Outcome State Fault Refusal := .next (dmaWrite (MSP_CSR p k) (mspResume p k) s)

/-- `MSP_ABORT` (R298). -/
def execMspAbort (p : Fin 24) (k : Fin 16) (s : State) : Host.Outcome State Fault Refusal := .next (dmaWrite (MSP_CSR p k) (mspAbort p k) s)

/-- A word of memory as a read stream delivers it (R293): stored tags from island memory; a poisoned word carries `ST` = 1. -/
def readItem (isl : Bool) (pa : Nat) (g : Got) : StreamItem :=
  let d : W32 := BitVec.ofNat 32 g.data
  let w := if g.bad then AWord.mk false true 0 d
    else if isl then BitVec.ofNat 36 (g.data % 2 ^ 32 + tagPart pa 4 g.tags * 2 ^ 32) else AWord.mk false false 0 d
  { w := w, ends := false, mask := 0 }

/-- A fault of a read stream, timed or not. -/
def readFault (p k code : Nat) (s : State) : State := if s.mspTimed p k then timedFault p k code s else mspSuspend p k code s

/-- The next word of a read stream is accepted into its share (R293, R296, R297). -/
def readWord (p k : Nat) (s : State) : State :=
  let m := s.getMsp p k
  let done := s.mspDone p k
  let timed := s.mspTimed p k
  match mspXlt p k (m.base + done) pteR s with
  | (.error f, s) => readFault p k f s
  | (.ok (pa, pin), s) =>
    if timed ∧ pin = false then readFault p k 1 s
    else if s.portHeld pa then s
    else
      match busRead pa 4 s with
      | (none, s) => readFault p k 3 s
      | (some g, s) =>
        let s := mspPush p k (readItem (s.isIsl pa) pa g) s
        let s := if g.bad then
            let s := (s.setF (MSP_CSR.PSN p k) 1).bump (MSP_CSR.PCNT p k)
            if timed then logErr 0x0502 (s.mspPart p) (srcOf 2 (p * 16 + k)) (BitVec.ofNat 64 (m.base + done)) 0 s else s
          else s
        let s := s.setF (MSP_LEN.DONE p k) (done + 4)
        if m.len ≤ done + 4 then readEnd p k s
        else if s.mspSt p k = 1 ∧ s.share p k ≤ 4 * (s.getMsp p k).buf.items.length then mspNotify p k (s.setF (MSP_CSR.STATE p k) 2)
        else s

/-- The word a write stream stores next, from its tracks (R294): a data word in turn, or the token that stands on every track; `none` while it waits. -/
inductive Collected where
  | data (j : Nat) (w : AWord)
  | token (w : AWord) (same : Bool)
  | skew
  | nothing
deriving DecidableEq, Repr

/-- What the tracks of a write stream's group offer (R294). -/
def State.collect (s : State) (p f g : Nat) : Collected :=
  let head (j : Nat) : Option AWord := s.trackWord (p / 2) (p % 2) (f + j)
  match head ((s.getMsp p f).txDeal % g) with
  | none => .nothing
  | some w =>
    if !AWord.tk w then .data ((s.getMsp p f).txDeal % g) w
    else
      let hs := (List.range g).map head
      if hs.all (fun h => match h with
        | some v => AWord.tk v
        | none => false) then
        .token ((head 0).getD w) (hs.all (fun h => match h with
          | some v => AWord.type v == AWord.type ((head 0).getD w)
          | none => true))
      else .skew

/-- Store one item of a write stream; then `next`. -/
def writeItem (p f : Nat) (w : AWord) (clash : Bool) (next : State → State) (s : State) : State :=
  let m := s.getMsp p f
  let done := s.mspDone p f
  match mspXlt p f (m.base + done) pteW s with
  | (.error c, s) => mspSuspend p f c s
  | (.ok (pa, _), s) =>
    let isl := s.isIsl pa
    if AWord.tk w ∧ isl = false then next (if AWord.type w = tokEOS then s else s.bump (MSP_CSR.TOKDROP p f))
    else
      let word := s.landing pa
      match busWrite pa 4 (AWord.data w).toNat (if isl then w.toNat / 2 ^ 32 else 0) false false clash s with
      | (.error, s) => mspSuspend p f 3 s
      | (.waits, s) => s
      | (r, s) =>
        let s := if r = .collided then
            (if s.f (MSP_COLL.COUNT p f) = 0 then s.setF (MSP_COLL.FADDR p f) word else s).bump (MSP_COLL.COUNT p f)
          else s
        let s := s.setF (MSP_LEN.DONE p f) (done + 4)
        next (if m.len ≤ done + 4 ∧ ¬ (AWord.tk w ∧ AWord.type w = tokEOS) then s.setF (MSP_CSR.STATE p f) 7 else s)

end Sys2Proof.Machine
end

