-- ==== Sys2Proof/Machine/FailEngine.lean ====
section
/-!
DEFINITION. Machine/FailEngine.lean: fail ports and slices, repair units, fail bit maps, the commit header, line trackers and the Fail Address Table, the repair
solvers and the Repair Result Queue (R331 to R358).
-/
namespace Sys2Proof.Machine

/-! ### State -/

/-- A repair unit. -/
def State.getUnit (s : State) (u : Nat) : FUnit := Map.getD s.units u FUnit.idle
/-- Store a repair unit. -/
def State.setUnit (s : State) (u : Nat) (x : FUnit) : State := { s with units := Map.set s.units u x }
/-- Change a repair unit. -/
def State.onUnit (s : State) (u : Nat) (g : FUnit → FUnit) : State := s.setUnit u (g (s.getUnit u))
/-- What the fail engine keeps for a partition. -/
def State.getFe (s : State) (p : Nat) : FePart := Map.getD s.feParts p FePart.fresh
/-- Store it. -/
def State.setFe (s : State) (p : Nat) (x : FePart) : State := { s with feParts := Map.set s.feParts p x }
/-- Change it. -/
def State.onFe (s : State) (p : Nat) (g : FePart → FePart) : State := s.setFe p (g (s.getFe p))
/-- Change the fail engine. -/
def State.feOn (s : State) (g : Fe → Fe) : State := { s with fe := g s.fe }

/-- Whether a unit belongs to a partition (R333). -/
def State.unitOf (s : State) (p u : Nat) : Bool :=
  decide (s.f (FE_PUNITS.UFIRST p) ≤ u) && decide (u < s.f (FE_PUNITS.UFIRST p) + s.f (FE_PUNITS.UCOUNT p))

/-- A write of a register of the fail engine by the physical function, or a gated access (R33). -/
def feWrite (key : Nat) (g : State → State) (s : State) : State := if s.feClk then g s else gatedAccess key s

/-- SRC of slice `k` (R457). -/
def srcSlice (k : Nat) : Nat := srcOf 0 (184 + k)

/-! ### Maps (R335 to R338) -/

/-- A map write of slice `k` fails (R338): flagged in the unit, the partition's flags and the header, and logged. -/
def mapError (k p u : Nat) (s : State) : State :=
  let s := (s.onUnit u (fun x => { x with maperr := true })).setF (FE_PFLAGS.MAPERR p) 1
  logErr 0x0602 p (srcSlice k) (BitVec.ofNat 64 u) 0 (s.onFe p (fun x => { x with maperr := true }))

/-- Write words of 8 bytes from an address on; the result tells whether every write was taken. -/
def feStore : (pa : Nat) → List Nat → State → Bool × State
  | _, [], s => (true, s)
  | pa, w :: ws, s =>
    match busWrite pa 8 w 0 false false false s with
    | (.done, s) => feStore (pa + 8) ws s
    | (_, s) => (false, (feStore (pa + 8) ws s).2)

/-- Slice `k` writes one element of a unit's map (`bytes` long), or finds the region full (R337). -/
def mapWrite (k u bytes : Nat) (ws : List Nat) (s : State) : State :=
  let x := s.getUnit u
  if x.len ≤ x.nwrite then (s.setUnit u { x with mapfull := true }).setF (FE_PFLAGS.MAPFULL x.part) 1
  else
    let s := s.setUnit u { x with nwrite := x.nwrite + 1 }
    match feStore (x.mapbase * 64 + x.nwrite * bytes) ws s with
    | (true, s) => s
    | (false, s) => mapError k x.part u s

/-- Pair up 32-bit words into 8-byte words. -/
def pairWords : List Nat → List Nat
  | a :: b :: ws => (a + b * 2 ^ 32) :: pairWords ws
  | [a] => [a]
  | [] => []

/-- A tile's 64 bytes for up to 14 words of its row segment (R335). -/
def tileWords (x : FUnit) (t : Tile) (ws : Map Nat) : List Nat :=
  let pres := ws.foldl (fun a w => a + 2 ^ (w.1 - t.base)) 0
  let hdr := 2 ^ 63 + x.gen * 2 ^ 56 + ws.length * 2 ^ 52 + pres * 2 ^ 36 + t.base * 2 ^ 20 + t.row
  hdr :: pairWords (ws.map (fun w => w.2) ++ List.replicate (14 - ws.length) 0)

/-- A tile that slice `k` caches is written: two tiles when more than 14 words are present. -/
def tileOut (k : Nat) (t : Tile) (s : State) : State :=
  let x := s.getUnit t.unit
  let s := mapWrite k t.unit 64 (tileWords x t (t.words.take 14)) s
  if 14 < t.words.length then mapWrite k t.unit 64 (tileWords x t (t.words.drop 14)) s else s

/-- An entry of a fail list (R336). -/
def listWords (x : FUnit) (r : FeRec) : List Nat :=
  let n := r.row * 2 ^ 88 + r.col * 2 ^ 72 + r.mask * 2 ^ 40 + r.cyc + x.gen * 2 ^ 108 + 2 ^ 127
  [n % 2 ^ 64, n / 2 ^ 64]

/-- Write the tiles and list lines that satisfy a condition on their unit. -/
def flushMaps (sel : Nat → Bool) (s : State) : State :=
  let ts := (List.range 4).flatMap (fun k => ((Map.getD s.fe.tiles k []).filter (fun t => sel t.unit)).map (fun t => (k, t)))
  let ls := s.fe.lines.filter (fun r => sel r.unit)
  let s := s.feOn (fun fe => { fe with
    tiles := fe.tiles.map (fun e => (e.1, e.2.filter (fun t => !sel t.unit))), lines := fe.lines.filter (fun r => !sel r.unit) })
  ls.foldl (fun s r => mapWrite (r.unit % 4) r.unit 16 (listWords (s.getUnit r.unit) r) s) (ts.foldl (fun s x => tileOut x.1 x.2 s) s)

/-- A fail is merged into a slice's tile cache; a full cache evicts a tile, which one is open (R337, log entry 25). -/
def tileMerge (k : Nat) (r : FeRec) (s : State) : State :=
  let ts := Map.getD s.fe.tiles k []
  let base := r.col / 16 * 16
  let same (t : Tile) : Bool := t.unit == r.unit && t.row == r.row && t.base == base
  if ts.any same then
    s.feOn (fun fe => { fe with tiles := Map.set fe.tiles k (ts.map (fun t =>
      if same t then { t with words := Map.set t.words r.col (Map.getD t.words r.col 0 ||| r.mask) } else t)) })
  else
    let (v, s) := if ts.length < 4096 then (0, s) else s.fresh
    let s := if ts.length < 4096 then s
      else match ts[v.toNat % 4096]? with
        | some t => tileOut k t (s.feOn (fun fe => { fe with tiles := Map.set fe.tiles k (ts.erase t) }))
        | none => s
    s.feOn (fun fe => { fe with tiles := Map.set fe.tiles k (Map.getD fe.tiles k [] ++ [{ unit := r.unit, row := r.row, base := base, words := [(r.col, r.mask)] }]) })

/-! ### Results (R353, R354) -/

/-- Entries of a partition's ring. -/
def State.ringLen (s : State) (p : Nat) : Nat :=
  let n := s.f (FE_PRRQ.LOG2N p)
  2 ^ (if 4 ≤ n ∧ n ≤ 16 then n else 4)

/-- Whether a partition's ring is full. -/
def State.ringFull (s : State) (p : Nat) : Bool := (s.f (FE_PRRQP.TAIL p) + 1) % s.ringLen p == s.f (FE_PRRQP.HEAD p) % s.ringLen p

/-- Write a result into its ring: the entry, `TAIL`, the phase, the message and the event. -/
def ringPut (r : FeResult) (s : State) : State :=
  let p := r.part
  let t := s.f (FE_PRRQP.TAIL p)
  let ph := (s.getFe p).phase
  let ws := match r.words with
    | w :: rest => (w + b2n ph * 2 ^ 63) :: rest
    | [] => []
  let s := (feStore (s.f (FE_PRRQ.BASE p) * 128 + t * 128) ws s).2
  let t' := (t + 1) % s.ringLen p
  let s := s.setF (FE_PRRQP.TAIL p) t'
  let s := if t' = 0 then s.onFe p (fun x => { x with phase := !ph }) else s
  raiseAev p 23 0 0 (sendMsix (s.vfOf p) (s.f (FE_PRRQC.VEC p)) s)

/-- Place a result: in its ring, or, when that is full, in the holding space if there is room (R354). -/
def placeResult (r : FeResult) (s : State) : Bool × State :=
  if s.ringFull r.part = false ∧ s.fe.held.all (fun h => h.part != r.part) then (true, ringPut r s)
  else
    let s := s.setF (FE_PFLAGS.RRQFULL r.part) 1
    if s.fe.held.length < 256 then (true, s.feOn (fun fe => { fe with held := fe.held ++ [r] })) else (false, s)

/-- A list of line numbers as 3-byte slots, 16 of them, in words of 8 bytes. -/
def slotWords (ls : List Nat) : List Nat :=
  let v := ((ls.take 16).foldr (fun l a => l + a * 2 ^ 24) 0)
  (List.range 6).map (fun k => v / 2 ^ (64 * k) % 2 ^ 64)

/-- Insert into an ascending list without repeats. -/
def insertLine (l : Nat) : List Nat → List Nat
  | [] => [l]
  | k :: ks => if l < k then l :: k :: ks else if l = k then k :: ks else k :: insertLine l ks

/-- The entry of a result (R353) but for `PHASE`: 0 repaired, 1 unrepairable, 2 undecided. -/
def resultOf (u : Nat) (x : FUnit) (result reason time : Nat) (early lost : Bool) (rows cols : List Nat) : FeResult :=
  let w0 := b2n x.maperr * 2 ^ 47 + b2n x.mapfull * 2 ^ 46 + b2n lost * 2 ^ 45 + b2n x.late * 2 ^ 44 + b2n x.warm * 2 ^ 43 + b2n early * 2 ^ 42 +
    min cols.length 16 * 2 ^ 37 + min rows.length 16 * 2 ^ 32 + reason * 2 ^ 28 + result * 2 ^ 26 + x.site * 2 ^ 20 + x.part * 2 ^ 16 + u
  { part := x.part, unit := u, words := [w0, time * 2 ^ 40 + x.lastcyc] ++ slotWords rows ++ slotWords cols ++ [0, 0] }

/-- Whether the collectors of a unit's site have lost records. -/
def State.siteLost (s : State) (x : FUnit) : Bool := bitOf (s.getFe x.part).siteLost x.site

/-! ### Line trackers and the table (R345 to R349) -/

/-- Tracker `t`. -/
def State.trk (s : State) (t : Nat) : Nat := Memory.num s.mem (trackerBase + 3 * t) 3

/-- Store tracker `t`. -/
def setTrk (t v : Nat) (s : State) : State := s.onMem (fun m => Memory.puts m (trackerBase + 3 * t) (bytesLE 3 v))

/-- Fields of a tracker. -/
def trkCnt (v : Nat) : Nat := v % 2 ^ 16
def trkMR (v : Nat) : Bool := bitOf v 16
def trkSOL (v : Nat) : Bool := bitOf v 17
def trkLIVE (v : Nat) : Bool := bitOf v 18
def mkTrk (cnt : Nat) (mr sol live : Bool) : Nat := min cnt 65535 + b2n mr * 2 ^ 16 + b2n sol * 2 ^ 17 + b2n live * 2 ^ 18

/-- Column line of a cell (R333). -/
def FUnit.cline (x : FUnit) (c io : Nat) : Nat := if x.iomode then c * 32 + io else c

/-- Column lines of a unit. -/
def FUnit.nlc (x : FUnit) : Nat := if x.iomode then x.nc * 32 else x.nc

/-- Trackers of a row and of a column line. -/
def FUnit.rowTrk (x : FUnit) (r : Nat) : Nat := x.tbase + r
def FUnit.colTrk (x : FUnit) (l : Nat) : Nat := x.tbase + x.nr + l

/-- A unit's entries. -/
def State.cellsOf (s : State) (u : Nat) : List FatEntry := s.fat.filter (fun e => e.unit == u)

/-- The unit's cells: row, column line and I/O bit of every set mask bit. -/
def State.cells (s : State) (u : Nat) : List (Nat × Nat) :=
  let x := s.getUnit u
  (s.cellsOf u).flatMap (fun e => (onesOf 32 e.mask).map (fun io => (e.row, x.cline e.col io)))

/-- Whether a line holds cells. -/
def State.rowLive (s : State) (u r : Nat) : Bool := (s.cells u).any (fun c => c.1 == r)
def State.colLive (s : State) (u l : Nat) : Bool := (s.cells u).any (fun c => c.2 == l)

/-- Change a tracker's count and its `LIVE` bit. -/
def trkUpd (t : Nat) (cnt : Nat) (live : Bool) (s : State) : State :=
  let v := s.trk t
  setTrk t (mkTrk cnt (trkMR v) (trkSOL v) live) s

/-- Make a row a must-repair line (R346): its cells leave the table and the crossing lines' counts fall. -/
def mrRow (u r : Nat) (s : State) : State :=
  let x := s.getUnit u
  let gone := (s.cells u).filter (fun c => c.1 == r)
  let s := { s with fat := s.fat.filter (fun e => !(e.unit == u && e.row == r)) }
  let v := s.trk (x.rowTrk r)
  let s := setTrk (x.rowTrk r) (mkTrk (trkCnt v) true (trkSOL v) false) s
  let s := gone.foldl (fun s c => trkUpd (x.colTrk c.2) (trkCnt (s.trk (x.colTrk c.2)) - 1) (s.colLive u c.2) s) s
  s.onUnit u (fun x => { x with fr := x.fr - 1, mrRows := insertLine r x.mrRows })

/-- The mask of the bits of a column line at a column. -/
def FUnit.lineMask (x : FUnit) (l : Nat) : Nat := if x.iomode then 2 ^ (l % 32) else 2 ^ 32 - 1

/-- Make a column line a must-repair line (R346). -/
def mrCol (u l : Nat) (s : State) : State :=
  let x := s.getUnit u
  let gone := (s.cells u).filter (fun c => c.2 == l)
  let col := if x.iomode then l / 32 else l
  let keep (e : FatEntry) : Option FatEntry :=
    if e.unit = u ∧ e.col = col then
      let m := e.mask &&& (2 ^ 32 - 1 - x.lineMask l)
      if m = 0 then none else some { e with mask := m }
    else some e
  let s := { s with fat := s.fat.filterMap keep }
  let v := s.trk (x.colTrk l)
  let s := setTrk (x.colTrk l) (mkTrk (trkCnt v) true (trkSOL v) false) s
  let s := gone.foldl (fun s c => trkUpd (x.rowTrk c.1) (trkCnt (s.trk (x.rowTrk c.1)) - 1) (s.rowLive u c.1) s) s
  s.onUnit u (fun x => { x with fc := x.fc - 1, mrCols := insertLine l x.mrCols })

/-- SETTLE (R346): lines whose count exceeds the free spares of the other kind become must-repair, until nothing changes. -/
def settleUnit (u : Nat) : Nat → State → State
  | 0, s => s
  | fuel + 1, s =>
    let x := s.getUnit u
    let cs := s.cells u
    match cs.find? (fun c => decide (x.fc < trkCnt (s.trk (x.rowTrk c.1)))) with
    | some c => settleUnit u fuel (mrRow u c.1 s)
    | none =>
      match cs.find? (fun c => decide (x.fr < trkCnt (s.trk (x.colTrk c.2)))) with
      | some c => settleUnit u fuel (mrCol u c.2 s)
      | none => s

/-- Entries a partition may hold (R349). -/
def State.fatQuota (s : State) (p : Nat) : Nat := if s.f (FE_PFAT.QUOTA p) = 0 then 65536 else s.f (FE_PFAT.QUOTA p)

/-- The first free place of the table at or after a number, wrapping. -/
def freeSlot (fat : List FatEntry) (start : Nat) : Nat :=
  ((List.range 65536).find? (fun k => fat.all (fun e => e.slot != (start + k) % 65536))).map (fun k => (start + k) % 65536) |>.getD 0

/-- OR a mask into the entry of a cell position, making one when there is none; false when that fails (R348, R349).  Which free place a new entry takes is open
(log entry 25). -/
def fatOr (p u row col mask : Nat) (s : State) : Bool × State :=
  if s.fat.any (fun e => e.unit == u && e.row == row && e.col == col) then
    (true, { s with fat := s.fat.map (fun e => if e.unit = u ∧ e.row = row ∧ e.col = col then { e with mask := e.mask ||| mask } else e) })
  else if s.fatQuota p ≤ (s.fat.filter (fun e => e.part == p)).length ∨ 65536 ≤ s.fat.length then (false, s)
  else
    let (v, s) := s.fresh
    (true, { s with fat := s.fat ++ [{ slot := freeSlot s.fat (v.toNat % 65536), part := p, unit := u, row := row, col := col, mask := mask }] })

/-- An early result (R347): the unit is DONE and its result is queued at once. -/
def earlyResult (u reason : Nat) (s : State) : State :=
  let x := s.getUnit u
  let r := resultOf u x 1 reason 0 true (s.siteLost x) x.mrRows x.mrCols
  let s := (s.setUnit u { x with st := 5 }).feOn (fun fe => { fe with solveQ := fe.solveQ.erase u })
  match placeResult r s with
  | (true, s) => s
  | (false, s) => s.feOn (fun fe => { fe with early := fe.early ++ [r] })

/-- ANALYSIS of a record by the home slice (R346, R347, R349). -/
def analyse (r : FeRec) (s : State) : State :=
  let u := r.unit
  let x := s.getUnit u
  if !x.an || !(x.st == 2 || x.st == 3) || x.fatfull then s
  else
    let s := s.setUnit u { x with lastcyc := r.cyc }
    if trkMR (s.trk (x.rowTrk r.row)) then s
    else
      let old := match s.fat.find? (fun e => e.unit == u && e.row == r.row && e.col == r.col) with
        | some e => e.mask
        | none => 0
      let bits := (onesOf 32 r.mask).filter (fun io => !bitOf old io && !trkMR (s.trk (x.colTrk (x.cline r.col io))))
      if bits = [] then s
      else
        let new := bits.foldl (fun a io => a + 2 ^ io) 0
        match fatOr r.part u r.row r.col new s with
        | (false, s) =>
          let s := (s.onUnit u (fun x => { x with fatfull := true })).setF (FE_PFLAGS.FATFULL r.part) 1
          logErr 0x0603 r.part (srcSlice (u % 4)) (BitVec.ofNat 64 u) 0 s
        | (true, s) =>
          let s := trkUpd (x.rowTrk r.row) (trkCnt (s.trk (x.rowTrk r.row)) + bits.length) true s
          let s := bits.foldl (fun s io => trkUpd (x.colTrk (x.cline r.col io)) (trkCnt (s.trk (x.colTrk (x.cline r.col io))) + 1) true s) s
          let s := settleUnit u ((s.cells u).length + 1) s
          let y := s.getUnit u
          if y.fr < 0 ∨ y.fc < 0 then earlyResult u 5 s
          else if 2 * y.fr * y.fc < (s.cells u).length then earlyResult u 4 s
          else s

/-! ### Records and marks at a slice (R331, R332, R337, R339) -/

/-- A record is discarded (R332): counted, and the first of its kind logged: 0 `PERR`, 1 `NOTARMED`, 2 `OOR`. -/
def discardRec (p kind : Nat) (s : State) : State :=
  let c := match kind with
    | 0 => FE_PCNT.PERR p
    | 1 => FE_PCNT.NOTARMED p
    | _ => FE_PCNT.OOR p
  let s := if s.f c = 0 then logErr 0x0601 p (srcOf 8 p) (BitVec.ofNat 64 kind) 0 s else s
  s.bump c

/-- A slice takes a record of partition `p` (R331, R332, R337): discarded, or merged into the maps and sent to its home slice. -/
def sliceRecord (k p : Nat) (it : FailItem) (s : State) : State :=
  let u := it.unit
  let x := s.getUnit u
  if !s.unitOf p u then discardRec p 0 s
  else if x.st < 2 then discardRec p 1 s
  else if x.nr ≤ it.row ∨ x.nc ≤ it.col then discardRec p 2 s
  else
    let r : FeRec := { part := p, site := it.site, unit := u, row := it.row, col := it.col, mask := it.mask.toNat, cyc := it.cyc }
    let s := if x.fmt = 1 then tileMerge k r s else s
    s.feOn (fun fe => { fe with home := Map.set fe.home (u % 4) (Map.getD fe.home (u % 4) [] ++ [r]) })

/-- A result whose `LATE` bit is set (R352). -/
def FeResult.setLate (r : FeResult) : FeResult :=
  match r.words with
  | w :: rest => { r with words := (if bitOf w 44 then w else w + 2 ^ 44) :: rest }
  | [] => r

/-- A record arrives for a SOLVING unit (R352): its result, which an engine may hold already, carries `LATE`. -/
def markLate (u : Nat) (s : State) : State :=
  (s.onUnit u (fun x => { x with late := true })).feOn (fun fe => { fe with kept := fe.kept.map (fun e => (e.1, if e.2.unit = u then e.2.setLate else e.2)) })

/-- The home slice takes its oldest record (R336, R346, R352). -/
def homeRecord (h : Nat) (s : State) : State :=
  match Map.getD s.fe.home h [] with
  | [] => s
  | r :: rest =>
    let s := s.feOn (fun fe => { fe with home := Map.set fe.home h rest })
    let x := s.getUnit r.unit
    let s := if x.fmt = 2 then s.feOn (fun fe => { fe with lines := fe.lines ++ [r] }) else s
    if x.st = 4 ∨ x.st = 5 then
      let s := s.bump (FE_PCNT.LATE r.part)
      if x.st = 4 then markLate r.unit s else s
    else analyse r s

/-- Every record on its way to a home slice is taken. -/
def drainHome (s : State) : State :=
  (List.range 4).foldl (fun s h => (List.range (Map.getD s.fe.home h []).length).foldl (fun s _ => homeRecord h s) s) s

/-- Queue a solve of an ARMED unit (R350). -/
def queueSolve (u : Nat) (s : State) : State :=
  if (s.getUnit u).st = 2 then (s.onUnit u (fun x => { x with st := 3 })).feOn (fun fe => { fe with solveQ := fe.solveQ ++ [u] }) else s

/-- Units of a partition in ascending order. -/
def State.unitsOf (s : State) (p : Nat) : List Nat := (s.units.map (fun e => e.1)).filter (s.unitOf p)

/-- Whether every collector of a site has sent an end mark (R339). -/
def FePart.ended (x : FePart) (site : Nat) : Bool :=
  let ms := x.marks.filter (fun m => m.site == site)
  !ms.isEmpty && ms.all (fun m => m.ended)

/-- A slice takes a mark of island `i` into the state of its site (R328, R339, R350). -/
def sliceMark (p i : Nat) (it : FailItem) (s : State) : State :=
  let fin := it.kind == .finish
  let old := (s.getFe p).marks.find? (fun m => m.site == it.site && m.isl == i)
  let m : SiteMark := { site := it.site, isl := i, cyc := it.cyc, ended := fin || (match old with | some o => o.ended | none => false) }
  let s := s.onFe p (fun x => { x with
    marks := x.marks.filter (fun m => !(m.site == it.site && m.isl == i)) ++ [m], lost := x.lost || it.lost, susp := x.susp || it.susp,
    siteLost := if it.lost then x.siteLost ||| 2 ^ it.site else x.siteLost, siteSusp := if it.susp then x.siteSusp ||| 2 ^ it.site else x.siteSusp,
    bad := match minOpt (Map.find x.bad it.site) it.bad with
      | some b => Map.set x.bad it.site b
      | none => x.bad })
  let s := if it.lost then s.setF (FE_PFLAGS.LOST p) 1 else s
  if fin then
    let s := flushMaps (fun u => s.unitOf p u && (s.getUnit u).site == it.site) (drainHome s)
    if (s.getFe p).ended it.site then
      (s.unitsOf p).foldl (fun s u => if (s.getUnit u).auto ∧ (s.getUnit u).site = it.site then queueSolve u s else s) s
    else s
  else s

/-- The island that a fail port serves next: the first in ascending logical column after the one served last whose collector holds an item and runs (R32, R331, R467). -/
def State.portNext (s : State) (r : Nat) : Option Nat :=
  let last := Map.getD s.fe.served r 0
  let order := (List.range 12).map (fun k => (last + k) % 12)
  order.find? (fun c => s.islRuns (s.phys r c) && !(s.coll (s.phys r c)).fifo.isEmpty)

/-- `FAIL_PORT_ITEM` (R331): the fail port of a row hands its slice the next item; a port of an unowned row takes nothing (R19). -/
def execFailPortItem (r : Fin 12) (s : State) : Host.Outcome State Fault Refusal :=
  let p := s.owner r
  if p = 15 ∨ s.feClk = false then .next s
  else
    match s.portNext r with
    | none => .next s
    | some c =>
      let i := s.phys r c
      match (s.coll i).fifo with
      | [] => .next s
      | it :: rest =>
        let s := s.onColl i (fun x => Collector.drain { x with fifo := rest })
        let s := s.feOn (fun fe => { fe with served := Map.set fe.served r (c + 1) })
        .next (if it.kind = .record then sliceRecord (r / 3) p it s else sliceMark p i it s)

/-- `HOME_SLICE_RECORD` (R346): a home slice takes the oldest record on its way to it. -/
def execHomeSliceRecord (h : Fin 4) (s : State) : Host.Outcome State Fault Refusal := .next (if s.feClk then homeRecord h s else s)

/-! ### The commit header (R339 to R342) -/

/-- A site entry of the header: `CCYC`, `ACT`, `LOST`, `SUSP`, `ENDED`, and `FIRSTBAD`. -/
def FePart.siteWords (x : FePart) (site : Nat) : List Nat :=
  match x.marks.filter (fun m => m.site == site) with
  | [] => [0, 0]
  | m :: ms =>
    let c := ms.foldl (fun a m => min a m.cyc) m.cyc
    [c + 2 ^ 40 + b2n (bitOf x.siteLost site) * 2 ^ 41 + b2n (bitOf x.siteSusp site) * 2 ^ 42 + b2n (x.ended site) * 2 ^ 43, Map.getD x.bad site 0]

/-- `PCOMMIT`: the lowest `CCYC` over active sites. -/
def FePart.pcommit (x : FePart) : Nat :=
  match x.marks with
  | [] => 0
  | m :: ms => ms.foldl (fun a m => min a m.cyc) m.cyc

/-- The header's flags and site entries (R339), without `SEQNO` and the timestamp. -/
def FePart.bodyWords (x : FePart) : List Nat :=
  let flags := b2n x.lost + 2 * b2n x.susp + 4 * b2n x.maperr + 8 * b2n x.warm + min x.warmCnt 255 * 2 ^ 8
  x.pcommit :: flags :: (List.range 64).flatMap x.siteWords

/-- A tick takes the site entries and flags as they stand (R340, R342). -/
def FePart.taken (x : FePart) : FePart :=
  { x with body := x.bodyWords, tick := { marks := x.marks, siteLost := x.siteLost, siteSusp := x.siteSusp, bad := x.bad, lost := x.lost, susp := x.susp } }

/-- Write the header: `SEQNO` + 1, the body, `SEQNO` + 2 (R340); a failed write is flagged (R338). -/
def writeHeader (p : Nat) (s : State) : State :=
  let x := s.getFe p
  let a := s.f (FE_PHDR.ADDR p) * 64
  let b := x.bodyWords
  let words := [b.headD 0, (b.drop 1).headD 0, (s.rd RING_TIME).toNat, 0, 0, 0, 0] ++ b.drop 2
  let (ok0, s) := feStore a [x.seqno + 1] s
  let (ok1, s) := feStore (a + 8) words s
  let (ok2, s) := feStore a [x.seqno + 2] s
  let s := s.onFe p (fun x => { x with seqno := x.seqno + 2 }.taken)
  if ok0 && ok1 && ok2 then s
  else logErr 0x0602 p (srcSlice 0) 0 0 ((s.setF (FE_PFLAGS.MAPERR p) 1).onFe p (fun x => { x with maperr := true }))

/-- A commit tick (R340, R342, R419): maps, header, event 22 and the partition's FSUM. -/
def commit (p : Nat) (s : State) : State :=
  let s := drainHome s
  let s := flushMaps (s.unitOf p) s
  let s := if s.on (FE_PHDR.EN p) then writeHeader p s else s.onFe p FePart.taken
  sendFsum p (s.getFe p).pcommit (s.getFe p).lost (raiseAev p 22 0 0 s)

/-- The commit tick of a partition whose site entries or flags would change (R340, R342). -/
def commitDue (p : Nat) (s : State) : State := if s.feClk ∧ (s.getFe p).bodyWords ≠ (s.getFe p).body then commit p s else s

/-- `COMMIT_TICK` (R340, R342): when a site entry or flag would change. -/
def execCommitTick (p : Fin 12) (s : State) : Host.Outcome State Fault Refusal := .next (commitDue p s)

/-- `MAP_WRITE_FAILURE` (R338): a map write of a unit that has written completes with an error or not at all.  The row does not tell which slice wrote a tile: its home slice
logs (log entry 66). -/
def execMapWriteFailure (p : Fin 12) (u : BitVec 14) (s : State) : Host.Outcome State Fault Refusal :=
  .next (if s.feClk ∧ s.unitOf p u.toNat ∧ (s.getUnit u.toNat).nwrite ≠ 0 then mapError (u.toNat % 4) p u.toNat s else s)

/-! ### Commands (R334) -/

/-- A command ends with an error code. -/
def feEnd (p code : Nat) (s : State) : State := (s.setF (FE_PCST.ERRCODE p) code).setF (FE_PCST.BUSY p) 0

/-- A write of `FE_PnCMD` (R334, R358): ignored with `CMDLOST` while a command is in progress. -/
def feCmd (p : Nat) (g : State → State) (s : State) : State :=
  if s.on (FE_PCST.BUSY p) then s.setF (FE_PFLAGS.CMDLOST p) 1 else g s

/-- A unit as a staged descriptor describes it (R333). -/
def State.staged (s : State) (p u : Nat) : FUnit :=
  { FUnit.idle with
    part := p, mapbase := s.f (FE_PUD0.MAPBASE p), fmt := s.f (FE_PUD0.FMT p), an := s.on (FE_PUD0.AN p), auto := s.on (FE_PUD0.AUTO p), len := s.f (FE_PUD1.LEN p),
    tbase := s.f (FE_PUD1.TBASE p), nr := s.f (FE_PUD2.NRM1 p) + 1, nc := s.f (FE_PUD2.NCM1 p) + 1, iomode := s.on (FE_PUD2.IOMODE p), sr := s.f (FE_PUD2.SR p),
    sc := s.f (FE_PUD2.SC p), site := s.f (FE_PUD2.SITE p), gen := (s.getUnit u).gen, st := 1 }

/-- Bytes of a unit's map region. -/
def FUnit.mapBytes (x : FUnit) : Nat := x.len * (if x.fmt = 1 then 64 else 16)

/-- Trackers of a unit: the first and the number. -/
def FUnit.trkCount (x : FUnit) : Nat := x.nr + x.nlc

/-- The checks of ARM, in order (R334, R344). -/
def State.armCode (s : State) (p u : Nat) : Nat :=
  let x := s.staged p u
  let st := (s.getUnit u).st
  let lo := x.mapbase * 64
  let hi := lo + x.mapBytes
  if !s.unitOf p u then 1
  else if st ≠ 0 ∧ st ≠ 5 then 2
  else if 16 < x.sr ∨ 16 < x.sc ∨ x.fmt = 3 ∨ (x.len = 0 ∧ x.fmt ≠ 0) ∨ (x.an ∧ 2097152 < x.tbase + x.trkCount) then 3
  else if x.fmt ≠ 0 ∧ (lo < s.f (FE_PMAPLO.ADDR p) * 4096 ∨ (s.f (FE_PMAPHI.ADDR p) + 1) * 4096 < hi ∨
      (s.on FE_GSTAT.EARLYBUF ∧ (lo < cxlBase ∨ cxlBase + 0x40_0000 < hi))) then 4
  else if x.an ∧ (x.tbase < s.f (FE_PTRK.TFIRST p) ∨ s.f (FE_PTRK.TFIRST p) + s.f (FE_PTRK.TCOUNT p) < x.tbase + x.trkCount ∨
      s.units.any (fun e => e.1 != u && e.2.st != 0 && e.2.an && decide (e.2.tbase < x.tbase + x.trkCount) && decide (x.tbase < e.2.tbase + e.2.trkCount))) then 5
  else 0

/-- ARM (R334): the checks; a unit that passes is ARMING while its trackers are cleared. -/
def feArm (p u : Nat) (s : State) : State :=
  let c := s.armCode p u
  if c ≠ 0 then feEnd p c s
  else (((State.setUnit (flushMaps (fun v => v == u) (drainHome s)) u (s.staged p u)).onFe p (fun x => { x with arming := some u })).setF (FE_PCST.BUSY p) 1)

/-- `ARM` (R334). -/
def execArm (p : Fin 12) (u : BitVec 14) (s : State) : Host.Outcome State Fault Refusal := .next (feWrite (FE_PCMD p) (feCmd p (feArm p u.toNat)) s)

/-- The end of an ARM (R334): trackers zero, FAT entries gone, `GEN` one up, ARMED. -/
def armDone (p u : Nat) (s : State) : State :=
  let x := s.getUnit u
  let s := if x.an then s.onMem (fun m => Memory.wipe m (trackerBase + 3 * x.tbase) (trackerBase + 3 * (x.tbase + x.trkCount))) else s
  let s := { s with fat := s.fat.filter (fun e => e.unit != u) }
  let s := s.setUnit u { x with st := 2, gen := (x.gen + 1) % 128, fr := x.sr, fc := x.sc }
  feEnd p 0 (s.onFe p (fun x => { x with arming := none }))

/-- `ARM_COMPLETE` (R334). -/
def execArmComplete (p : Fin 12) (s : State) : Host.Outcome State Fault Refusal :=
  match (s.getFe p).arming with
  | some u => .next (if s.feClk then armDone p u s else s)
  | none => .next s

/-- A unit returns to IDLE (R334): its solve is abandoned and its FAT entries are freed; what the slices hold of its records and its map comes first (log entry 25).  A result
formed early is no solve and stays (R354). -/
def disarmUnit (u : Nat) (s : State) : State :=
  let s := flushMaps (fun v => v == u) (drainHome s)
  let x := s.getUnit u
  let eng := s.fe.engines.filter (fun e => e.2 == u)
  let s := eng.foldl (fun s e => s.setF (FE_GSTAT.SOLVBUSY.bit e.1) 0) s
  let s := s.feOn (fun fe => { fe with
    solveQ := fe.solveQ.erase u, engines := fe.engines.filter (fun e => e.2 != u), kept := fe.kept.filter (fun e => e.2.unit != u) })
  let s := { s with fat := s.fat.filter (fun e => e.unit != u) }
  s.setUnit u { x with st := 0 }

/-- DISARM (R334). -/
def feDisarm (p u : Nat) (s : State) : State :=
  if !s.unitOf p u then feEnd p 1 s else feEnd p 0 (disarmUnit u s)

/-- `DISARM` (R334). -/
def execDisarm (p : Fin 12) (u : BitVec 14) (s : State) : Host.Outcome State Fault Refusal := .next (feWrite (FE_PCMD p) (feCmd p (feDisarm p u.toNat)) s)

/-- SOLVE (R334). -/
def feSolve (p u : Nat) (s : State) : State :=
  if !s.unitOf p u then feEnd p 1 s
  else if (s.getUnit u).st ≠ 2 then feEnd p 2 s
  else feEnd p 0 (queueSolve u s)

/-- `SOLVE` (R334). -/
def execSolve (p : Fin 12) (u : BitVec 14) (s : State) : Host.Outcome State Fault Refusal := .next (feWrite (FE_PCMD p) (feCmd p (feSolve p u.toNat)) s)

/-- SOLVESITE (R334). -/
def feSolveSite (p site : Nat) (s : State) : State :=
  let us := (s.unitsOf p).filter (fun u => (s.getUnit u).st != 0 && (s.getUnit u).site == site)
  let bad := us.any (fun u => (s.getUnit u).st != 2)
  feEnd p (if bad then 2 else 0) (us.foldl (fun s u => queueSolve u s) s)

/-- `SOLVESITE` (R334). -/
def execSolvesite (p : Fin 12) (site : BitVec 6) (s : State) : Host.Outcome State Fault Refusal := .next (feWrite (FE_PCMD p) (feCmd p (feSolveSite p site.toNat)) s)

/-- FLUSH (R334): every tile and list line of the partition, then the header. -/
def feFlush (p : Nat) (s : State) : State :=
  let s := drainHome s
  let s := flushMaps (s.unitOf p) s
  feEnd p 0 (if s.on (FE_PHDR.EN p) then writeHeader p s else s.onFe p FePart.taken)

/-- `FLUSH` (R334). -/
def execFlush (p : Fin 12) (s : State) : Host.Outcome State Fault Refusal := .next (feWrite (FE_PCMD p) (feCmd p (feFlush p)) s)

/-- QUERY (R334, R358). -/
def feQuery (p u : Nat) (s : State) : State :=
  if !s.unitOf p u then feEnd p 1 s
  else
    let x := s.getUnit u
    let q := x.gen * 2 ^ 56 + x.fr.toNat * 2 ^ 51 + x.fc.toNat * 2 ^ 46 + min (s.cells u).length 1023 * 2 ^ 36 +
      (b2n x.fatfull + 2 * b2n x.mapfull + 4 * b2n x.maperr + 8 * b2n x.warm) * 2 ^ 32 + x.nwrite
    feEnd p 0 ((s.wr (FE_PQRY p) (BitVec.ofNat 64 q)).setF (FE_PCST.USTATE p) x.st)

/-- `QUERY` (R334). -/
def execQuery (p : Fin 12) (u : BitVec 14) (s : State) : Host.Outcome State Fault Refusal := .next (feWrite (FE_PCMD p) (feCmd p (feQuery p u.toNat)) s)

/-- NEWRUN (R341, R342): site entries and flags clear, and the header restarts. -/
def feNewRun (p : Nat) (s : State) : State :=
  let s := s.onFe p (fun x => { FePart.fresh with arming := x.arming, phase := x.phase })
  if s.on (FE_PHDR.EN p) then writeHeader p s else s

/-- `NEWRUN` (R341). -/
def execNewrun (p : Fin 12) (s : State) : Host.Outcome State Fault Refusal := .next (feWrite (FE_PCMD p) (feCmd p (fun s => feEnd p 0 (feNewRun p s))) s)

/-- `FE_CLRCNT` (R358). -/
def execFeClrcnt (p : Fin 12) (s : State) : Host.Outcome State Fault Refusal := .next (feWrite (FE_PFLAGS p) (fun s => s.wr (FE_PCNT p) 0) s)

/-! ### The solvers (R350, R351) -/

/-- Cells in a row, and in a column line. -/
def inRow (cs : List (Nat × Nat)) (r : Nat) : Nat := (cs.filter (fun c => c.1 == r)).length
def inCol (cs : List (Nat × Nat)) (l : Nat) : Nat := (cs.filter (fun c => c.2 == l)).length

/-- The lowest of some numbers. -/
def lowest : List Nat → Option Nat
  | [] => none
  | k :: ks => some (ks.foldl min k)

/-- What a search holds: spares free, cells left, and the lines taken. -/
structure Search where
  fr : Int
  fc : Int
  cells : List (Nat × Nat)
  rows : List Nat
  cols : List Nat
deriving DecidableEq, Repr

/-- Force lines one at a time, recounting (R351). -/
def forceLines : Nat → Search → Search
  | 0, x => x
  | fuel + 1, x =>
    match lowest ((x.cells.map (fun c => c.1)).filter (fun r => decide (x.fc < inRow x.cells r))) with
    | some r => forceLines fuel { x with fr := x.fr - 1, cells := x.cells.filter (fun c => c.1 != r), rows := r :: x.rows }
    | none =>
      match lowest ((x.cells.map (fun c => c.2)).filter (fun l => decide (x.fr < inCol x.cells l))) with
      | some l => forceLines fuel { x with fc := x.fc - 1, cells := x.cells.filter (fun c => c.2 != l), cols := l :: x.cols }
      | none => x

/-- The search of R351; `depth` bounds the spares it can still try. -/
def solveCells : (depth : Nat) → Search → Option Search
  | depth, x =>
    let x := forceLines (x.cells.length + 1) x
    if x.fr < 0 ∨ x.fc < 0 ∨ 2 * x.fr * x.fc < x.cells.length then none
    else
      match lowest (x.cells.map (fun c => c.1)) with
      | none => some x
      | some r =>
        match depth, lowest ((x.cells.filter (fun c => c.1 == r)).map (fun c => c.2)) with
        | d + 1, some l =>
          let byRow := if 0 < x.fr then solveCells d { x with fr := x.fr - 1, cells := x.cells.filter (fun c => c.1 != r), rows := r :: x.rows } else none
          match byRow with
          | some y => some y
          | none => if 0 < x.fc then solveCells d { x with fc := x.fc - 1, cells := x.cells.filter (fun c => c.2 != l), cols := l :: x.cols } else none
        | _, _ => none

/-- Lines of a repaired unit carry `SOL` (R351). -/
def markSol (x : FUnit) (rows cols : List Nat) (s : State) : State :=
  let mark (s : State) (t : Nat) : State :=
    let v := s.trk t
    setTrk t (mkTrk (trkCnt v) (trkMR v) true (trkLIVE v)) s
  cols.foldl (fun s l => mark s (x.colTrk l)) (rows.foldl (fun s r => mark s (x.rowTrk r)) s)

/-- The lowest free engine. -/
def State.freeEngine (s : State) : Option Nat := (List.range 4).find? (fun k => (Map.find s.fe.engines k).isNone && (Map.find s.fe.kept k).isNone)

/-- An engine becomes free. -/
def freeEng (k : Nat) (s : State) : State := (s.feOn (fun fe => { fe with engines := Map.del fe.engines k, kept := Map.del fe.kept k })).setF (FE_GSTAT.SOLVBUSY.bit k) 0

/-- A result formed by engine `k` is placed, or kept by the engine while ring and holding space are full (R354). -/
def engineResult (k u : Nat) (r : FeResult) (s : State) : State :=
  match placeResult r s with
  | (true, s) => freeEng k (s.onUnit u (fun x => { x with st := 5 }))
  | (false, s) => s.feOn (fun fe => { fe with kept := Map.set fe.kept k r })

/-- An undecided result (R351). -/
def undecided (k u reason : Nat) (s : State) : State :=
  let x := s.getUnit u
  engineResult k u (resultOf u x 2 reason 0 false (s.siteLost x) x.mrRows x.mrCols) s

/-- Whether units of a partition may start (R354). -/
def State.mayStart (s : State) (u : Nat) : Bool := !(s.ringFull (s.getUnit u).part && decide (256 ≤ s.fe.held.length))

/-- `SOLVER_START` (R350, R351, R344): at Full Service the lowest free engine takes the oldest queued unit; one without analysis or with a full table is undecided at once. -/
def execSolverStart (s : State) : Host.Outcome State Fault Refusal :=
  match s.freeEngine, s.fe.solveQ.find? s.mayStart with
  | some k, some u =>
    if s.f RST_STAT.SVC ≠ 2 ∨ s.feClk = false then .next s
    else
      let x := s.getUnit u
      let s := (s.setUnit u { x with st := 4, late := false }).feOn (fun fe => { fe with solveQ := fe.solveQ.erase u, engines := Map.set fe.engines k u })
      let s := s.setF (FE_GSTAT.SOLVBUSY.bit k) 1
      .next (if x.an = false then undecided k u 3 s else if x.fatfull then undecided k u 2 s else s)
  | _, _ => .next s

/-- The end of a search (R351): repaired, or unrepairable with reason 6. -/
def solveEnd (k u : Nat) (s : State) : State :=
  let x := s.getUnit u
  let (v, s) := s.fresh
  let time := v.toNat % 20001
  let cs := s.cells u
  match solveCells 32 { fr := x.fr, fc := x.fc, cells := cs, rows := [], cols := [] } with
  | some y =>
    let rows := y.rows.foldl (fun a l => insertLine l a) x.mrRows
    let cols := y.cols.foldl (fun a l => insertLine l a) x.mrCols
    engineResult k u (resultOf u x 0 0 time false (s.siteLost x) rows cols) (markSol x rows cols s)
  | none => engineResult k u (resultOf u x 1 6 time false (s.siteLost x) x.mrRows x.mrCols) s

/-- `SOLVE_COMPLETE` (R351, R354): engine `k` ends its search, or places the result it keeps. -/
def execSolveComplete (k : Fin 4) (s : State) : Host.Outcome State Fault Refusal :=
  match Map.find s.fe.engines k, Map.find s.fe.kept k with
  | some u, some r => .next (engineResult k u r s)
  | some u, none => .next (solveEnd k u s)
  | none, _ => .next s

/-- `SOLVE_TIME_BOUND` (R351): a search that reaches 2 ms ends undecided with reason 1. -/
def execSolveTimeBound (k : Fin 4) (s : State) : Host.Outcome State Fault Refusal :=
  match Map.find s.fe.engines k, Map.find s.fe.kept k with
  | some u, none =>
    let x := s.getUnit u
    .next (engineResult k u (resultOf u x 2 1 20000 false (s.siteLost x) x.mrRows x.mrCols) s)
  | _, _ => .next s

/-- Held results of a partition enter its ring while it has room (R354). -/
def drainHeld (p : Nat) : Nat → State → State
  | 0, s => s
  | fuel + 1, s =>
    match s.fe.held.find? (fun r => r.part == p) with
    | some r => if s.ringFull p then s else drainHeld p fuel (ringPut r (s.feOn (fun fe => { fe with held := fe.held.erase r })))
    | none => s

/-- Early results, then results that engines keep, pass on as space frees (R354). -/
def passOn (s : State) : State :=
  let s := s.fe.early.foldl (fun s r =>
    match placeResult r s with
    | (true, s) => s.feOn (fun fe => { fe with early := fe.early.erase r })
    | (false, s) => s) s
  s.fe.kept.foldl (fun s e => engineResult e.1 e.2.unit e.2 s) s

/-- A write of `HEAD` (R354). -/
def rrqHead (p v : Nat) (s : State) : State := passOn (drainHeld p 256 (s.setF (FE_PRRQP.HEAD p) (v % 65536)))

/-- `RRQ_HEAD_WRITE` (R354). -/
def execRrqHeadWrite (p : Fin 12) (v : BitVec 16) (s : State) : Host.Outcome State Fault Refusal := .next (feWrite (FE_PRRQP p) (rrqHead p v.toNat) s)

/-! ### Disabling and resets (R343, R355) -/

/-- Disabling a partition disarms its units (R355); its records not yet in the fail engine are lost (R24).  An ARM in progress ends with its unit IDLE and `ERRCODE` 0: the
spec gives that end no code (DESIGN CHOICE, log entry 25). -/
def feDisable (p : Nat) (s : State) : State :=
  let s := (s.unitsOf p).foldl (fun s u => if (s.getUnit u).st = 0 then s else disarmUnit u s) s
  if (s.getFe p).arming.isSome then feEnd p 0 (s.onFe p (fun x => { x with arming := none })) else s

/-- What a partition keeps through a warm reset (R343): the site entries of its last tick, since the records that later marks cover are lost with the tile caches; the
header then tells of the reset. -/
def FePart.afterWarm (x : FePart) : FePart :=
  { x with
    marks := x.tick.marks, siteLost := x.tick.siteLost, siteSusp := x.tick.siteSusp, bad := x.tick.bad, lost := x.tick.lost, susp := x.tick.susp,
    warm := true, warmCnt := min (x.warmCnt + 1) 255 }

/-- Warm reset of the fail engine (R343). -/
def feWarm (s : State) : State :=
  let back (u : Nat) (x : FUnit) : FUnit :=
    if x.st = 3 ∨ x.st = 4 ∨ (x.st = 5 ∧ (s.fe.early ++ s.fe.held).any (fun r => r.unit == u)) then { x with st := 2, warm := true } else x
  { s with
    units := s.units.map (fun e => (e.1, back e.1 e.2)), fe := Fe.empty,
    feParts := (List.range 12).map (fun p => (p, (s.getFe p).afterWarm)) }

end Sys2Proof.Machine
end

