-- ==== Sys2Proof/Machine/Hold.lean ====
section
/-!
DEFINITION. Machine/Hold.lean: field writes by access code (R12, R13), and the parts that loads, resets, repairs and power rungs share: islands and sequencers put into
reset and released, clocks (R433 to R435), streams aborted, captures dropped (R471), and requests to the wake controller (R445).
-/
namespace Sys2Proof.Machine

/-! ### Fields (R12, R13) -/

/-- The bits of a field as a mask. -/
def Fld.mask (f : Fld) : Word := BitVec.ofNat 64 ((2 ^ (f.hi + 1 - f.lo) - 1) * 2 ^ f.lo)

/-- The bits of `a` outside a mask and of `b` inside it. -/
def blend (m a b : Word) : Word := (a &&& ~~~m) ||| (b &&& m)

/-- What a write does to one field (R12); `locked` tells that the lock bit of the block is set. -/
def Fld.write (locked : Bool) (v old : Word) (f : Fld) : Word :=
  match f.acc with
  | .rw => blend f.mask old v
  | .rwl => if locked then old else blend f.mask old v
  | .w1c => old &&& ~~~(v &&& f.mask)
  | .w1s => old ||| (v &&& f.mask)
  | .ro => old
  | .wo => old
  | .ros => old

/-- Whether a write would change a locked field (R13). -/
def Fld.refused (v old : Word) (f : Fld) : Bool :=
  match f.acc with
  | .rwl => old &&& f.mask != v &&& f.mask
  | _ => false

/-- Whether the lock bit of a register's block is set (R13, R387, R410). -/
def State.locks (s : State) (k : Nat) : Bool :=
  if 0x3_0000 ≤ k ∧ k < 0x4_0000 then s.on CFG_POLICY.LOCK
  else if 0x9_0000 ≤ k ∧ k < 0xA_0000 then s.on CXP_LOCK.LOCK
  else false

/-- A register write that sets its fields by access code (R12); a write that would change a locked field is logged once (R13). -/
def fieldWrite (k : Nat) (v : Word) (s : State) : State :=
  match regDesc k with
  | none => s
  | some d =>
    let locked := s.locks k
    let old := s.rd k
    let s := s.wr k (d.flds.foldl (fun a f => f.write locked v a) old)
    if locked && d.flds.any (fun f => f.refused v old) then logErr 0x0A01 15 (srcOf 7 (k / 0x1_0000)) (BitVec.ofNat 64 k) 0 s else s

/-- The value of a register after a reset that keeps only the fields marked so (R431 and the register tables). -/
def warmWord (k : Nat) (v : Word) : Word :=
  match regDesc k with
  | none => 0
  | some d => d.flds.foldl (fun a f => if f.warm then blend f.mask a v else a) (resetWord d.flds)

/-- The registers in a range of keys take their values after warm reset. -/
def warmRegs (lo hi : Nat) (s : State) : State :=
  { s with regs := s.regs.map (fun r => if lo ≤ r.1 ∧ r.1 < hi then (r.1, warmWord r.1 r.2) else r) }

/-! ### Clocks and islands (R433 to R435, R486) -/

/-- The frequency code an island runs at: the lowest of `FREQ`, `CEIL` and, before Full Service, 600 MHz (R435, R486). -/
def State.islFreq (s : State) (i : Nat) : Nat :=
  let f := min (min (s.f (CLK_ISL.FREQ i)) 112) (s.f PWR_THERM.CEIL)
  if s.f RST_STAT.SVC = 2 then f else min f 16

/-- An island's clock is retuned. -/
def retune (i : Nat) (s : State) : State :=
  (s.setF (CLK_ISL.CUR i) (s.islFreq i)).setF (CLK_ISL.CAP i)
    (b2n (s.f RST_STAT.SVC != 2 && decide (16 < min (min (s.f (CLK_ISL.FREQ i)) 112) (s.f PWR_THERM.CEIL))))

/-- An island's clock runs and is stable. -/
def clkStart (i : Nat) (s : State) : State := (retune i s).setF (CLK_ISL.STABLE i) 1

/-- An island's clock stops. -/
def clkStop (i : Nat) (s : State) : State := ((s.setF (CLK_ISL.STABLE i) 0).setF (CLK_ISL.CUR i) 0).setF (CLK_ISL.CAP i) 0

/-- An island enters reset (R70, R73, R80, R83, R125, R144, R330): its state and registers at their reset values, its memory and frames kept. -/
def islReset (i : Nat) (s : State) : State := (warmRegs (0x40_0000 + i * 0x1_0000) (0x41_0000 + i * 0x1_0000) s).setIsl i Isl.reset

/-- The release of domains is requested (R433); a domain whose wait goes on keeps its mark of having been logged (R499). -/
def requestRelease (ds : List Nat) (s : State) : State :=
  { s with sys := { s.sys with rel := s.sys.rel.filter (fun d => !ds.contains d) ++ ds, late := s.sys.late.filter s.sys.rel.contains } }

/-- Domains whose reset is requested again wait for no release. -/
def dropRelease (d : Nat) (s : State) : State := { s with sys := { s.sys with rel := s.sys.rel.filter (fun x => x != d), late := s.sys.late.filter (fun x => x != d) } }

/-- An island is held in reset with its clock stopped (R19, R379). -/
def islHold (i : Nat) (s : State) : State := dropRelease i (clkStop i (islReset i s))

/-- What an island finds in its frames as it leaves reset at plane 0: block states (R70), unassigned operations (R55), selections that name nothing (R114, R115, R145). -/
def islWake (i : Nat) (s : State) : State :=
  let s := (List.range 16).foldl (fun s u => checkOp i u (s.onWu i u (blockInit (s.opWord i u 0)))) s
  let s := (List.range 116).foldl (fun s e => checkSel i (16 + e) s) s
  (List.range 4).foldl (fun s q =>
    let p := qPSRC (s.qcField i q 0)
    if p < 0x31 ∨ p = 0x3F then s else s.setF (ISL_QSTAT.QBAD i q) 1) s

/-- Rows that stand in reset until Full Service (R439). -/
def State.rowOpen (s : State) (r : Nat) : Bool := decide (r < 2) || s.f RST_STAT.SVC == 2

/-- Sequencers that stand in reset until Full Service (R439). -/
def State.seqOpen (s : State) (q : Nat) : Bool := decide (q < 4) || s.f RST_STAT.SVC == 2

/-- An island leaves reset at an edge of its stable clock (R433); an out-of-service one never does (R17), one of a row that awaits Full Service not yet. -/
def islRelease (i : Nat) (s : State) : State :=
  if s.inService i && s.rowOpen (rowOf i) && (s.getIsl i).inReset then
    islWake i (pfReach i ((clkStart i s).onIsl i (fun x => { x with inReset := false })))
  else s

/-! ### Sequencers -/

/-- A sequencer enters reset (R211): its core at the reset state, its bank kept. -/
def seqHold (n : Nat) (s : State) : State :=
  partFollows n ((s.setSeq n (Seq.reset 0 (s.f (SEQ_BOOT.ADDR n) * 4))).setF (SEQ_CTL.RUN n) 0)

/-- A reset of a sequencer by software (R210, R211, R433): one whose clock is stable has left it again at its next edge, halted; another stays in reset with its release
requested, or until Full Service (R439). -/
def seqReset (n : Nat) (s : State) : State :=
  if s.on (CLK_STAB0.SEQ.bit n) then resetCore n s
  else if s.seqOpen n then requestRelease [156 + n] (seqHold n s)
  else seqHold n s

/-- A sequencer halts, its issued products and loads complete (R24, R25). -/
def seqHalt (n : Nat) (s : State) : State :=
  let x := (s.getSeq n).drainMacs (2 ^ 65)
  let x := x.loads.foldl (fun x l => if l.reg = 0 then x else { x with r := Map.set x.r l.reg l.data }) x
  partFollows n ((s.setSeq n { x with st := if x.st = 0 then 0 else 1, loads := [], wait := none, stepping := false, mcheck := none }).setF (SEQ_CTL.RUN n) 0)

/-- Firmware's stop of a sequencer at a safe point by machine check request (R256, R401): one that waits, runs with no repeat pending, or stands on a power rung, where it
is at such a boundary (R443), halts there; in a repeat the request waits for its end. -/
def seqStop (n : Nat) (s : State) : State :=
  let s := s.setF (SEQ_CTL.RUN n) 0
  let x := s.getSeq n
  if x.st = 3 ∨ x.st = 5 ∨ (x.st = 2 ∧ x.rptc = 0) then partFollows n (s.setSeq n { x with st := 1, wait := none, mcheck := none })
  else if x.st = 2 then s.setSeq n { x with mcheck := some 1 }
  else s

/-- Whether every sequencer of a partition stands at a safe point. -/
def State.allSafe (s : State) (p : Nat) : Bool := (s.seqsOf p).all (fun q => (s.getSeq q).st != 2 && (s.getSeq q).st != 3)

/-! ### Streams, bursts and captures -/

/-- The channels and streams of a partition are aborted (R291, R298). -/
def abortStreams (p : Nat) (s : State) : State :=
  let s := ((List.range 64).filter (fun c => s.chPart c == p)).foldl (fun s c => chAbort c s) s
  (s.rowsOf p).foldl (fun s r => (List.range 32).foldl (fun s k =>
    let q := 2 * r + k / 16
    let st := s.mspSt q (k % 16)
    if (1 ≤ st ∧ st ≤ 4) ∨ st = 7 then mspAbort q (k % 16) s else unqueueFault true q (k % 16) s) s) s

/-- A running burst ends as an abort with cause 0 (R172, R401): eight ABORT blocks, nothing recorded; the payload, which no token gives, is open. -/
def burstStop (f : Nat) (s : State) : State :=
  if (s.getLane f).burst then
    let (v, s) := s.fresh
    s.onLane f (fun x => { x with held := none, asm := false, burst := false, opening := false, blocks := abortRun (v.toNat % 2 ^ 28) })
  else s

/-- Running timed bursts of a partition end as aborts with cause 0 (R401, R464). -/
def stopBursts (p : Nat) (s : State) : State := (s.lanesOf p).foldl (fun s l => burstStop l s) s

/-- A capture of a partition is discarded (R471). -/
def captureDrop (p : Nat) (s : State) : State :=
  if s.f (ERR_CAP.STATE p) = 0 then s
  else (s.islandsOf p).foldl (fun s i => s.onIsl i (fun x => { x with frozen := false, freezeCmd := false })) (s.setF (ERR_CAP.STATE p) 0)

/-- The lanes of a partition as warm reset leaves them (R180): lock and `UP` kept, streams cleared until the partition starts; counters and W1C bits cleared (R181). -/
def laneRest (l : Nat) (s : State) : State :=
  let x := s.getLane l
  let s := s.setLane l { Lane.off with
    txt := x.txt, rxt := x.rxt, rpen := x.rpen, rpq := x.rpq, rpu := x.rpu, lock := x.lock, hdrs := x.hdrs, pll := x.pll, rxSb := x.rxSb,
    rested := s.tstate l == 3 || s.tstate l == 4 }
  ((s.wr (LANE_ERRCNT l) 0).wr (LANE_RPCNT l) 0).wr (LANE_STAT l) (s.rd (LANE_STAT l) &&& 0xF700_0000)

/-! ### Wakes (R445) -/

/-- Whether a partition waits for the wake controller. -/
def State.waking (s : State) (p : Nat) : Bool := s.sys.wakes.any (fun w => w.part == p)

/-- A partition on a rung asks to be Active (R445); during an entry it is served when the entry completes (R447). -/
def requestWake (p : Nat) (s : State) : State :=
  if (Map.find s.sys.entering p).isSome then { s with sys := { s.sys with nextRung := Map.set s.sys.nextRung p 0 } }
  else if s.f (PWR_PART.CUR p) = 0 ∨ s.waking p then s
  else State.setF { s with sys := { s.sys with wakes := s.sys.wakes ++ [{ part := p, left := (s.rowsOf p).length, started := false }] } } (PWR_PART.BUSY p) 1

/-! ### The shared blocks on the module rung (R435, R444) -/

/-- Whether the module rung lets the clock of a service core (domains 180 to 183) or of a fail engine slice (184 to 187) run, once firmware runs (R435, R444). -/
def State.rungRuns (s : State) (d : Nat) : Bool := decide (s.sys.stage < 3) || d == 180 || decide (s.modRung < (if d < 184 then 2 else 3))

/-- The clock bits of four such domains from `d` on: those that have left reset and run. -/
def State.sharedBits (s : State) (d : Nat) : Nat := ((List.range 4).map (fun k => if s.sys.rel.contains (d + k) then 0 else b2n (s.rungRuns (d + k)) * 2 ^ k)).foldl (· + ·) 0

/-- What the shared blocks do as the module rung changes (R435, R444, R424): from Torpor on only service core 0 runs; in Diapause the fail engine is off after a final commit
tick and the ring node leaves; after it they return. -/
def rungChanged (old : Nat) (s : State) : State :=
  let now := s.modRung
  let s := if s.sys.stage < 3 ∨ (old < 2) = (now < 2) then s else s.setF CLK_STAB1.SVC (s.sharedBits 180)
  if s.sys.stage < 3 ∨ (old = 3) = (now = 3) then s
  else if now = 3 then ringDiapause (((List.range 12).foldl (fun s p => commitDue p s) s).setF CLK_STAB1.FE 0)
  else
    let s := s.setF CLK_STAB1.FE (s.sharedBits 184)
    ringReturns s

end Sys2Proof.Machine
end

