-- ==== Sys2Proof/Machine/Load.lean ====
section
/-!
DEFINITION. Machine/Load.lean: the configuration controller: sources of image bytes, the checks of an image, loading in the four modes, commit, eclosion and resident images
(R359 to R384, R387).
-/
namespace Sys2Proof.Machine

/-- Whether the configuration controller has its clock. -/
def State.cfgClk (s : State) : Bool := s.on CLK_STAB1.CFG

/-- A write of a register of the configuration controller by the physical function, or a gated access (R33). -/
def cfgWrite (key : Nat) (g : State → State) (s : State) : State := if s.cfgClk then g s else gatedAccess key s

/-- Change the controller's state. -/
def State.onCfg (s : State) (g : Cfg → Cfg) : State := { s with cfg := g s.cfg }

/-! ### Memories behind the controller -/

/-- Keys of the boot flash, stored complemented, so that erased flash reads 0xFF (R376, R377). -/
def flashKey (a : Nat) : Nat := 2 ^ 55 + a

/-- Bytes of the boot flash. -/
def State.flash (s : State) (a n : Nat) : List Byte := (Memory.gets s.mem (flashKey a) n).map (fun b => ~~~ b)

/-- Write bytes of the boot flash. -/
def flashPut (a : Nat) (bs : List Byte) (s : State) : State := s.onMem (fun m => Memory.puts m (flashKey a) (bs.map (fun b => ~~~ b)))

/-- Array images in flash: the update and the golden one (R376). -/
def flashUpdate : Nat := 0x0500_0000
def flashGolden : Nat := 0x0100_0000

/-- Write bytes to memory, 8 at a time. -/
def busPut (pa : Nat) : List Byte → State → State
  | b0 :: b1 :: b2 :: b3 :: b4 :: b5 :: b6 :: b7 :: bs, s =>
    busPut (pa + 8) bs (busWrite pa 8 (numLE [b0, b1, b2, b3, b4, b5, b6, b7]) 0 false false false s).2
  | _, s => s

/-! ### Headers (R360) -/

/-- A number of `n` bytes at an offset of a header. -/
def hnum (h : List Byte) (off n : Nat) : Nat := numLE ((h.drop off).take n)

def hFlags (h : List Byte) : Nat := hnum h 0x006 2
def hSigned (h : List Byte) : Bool := bitOf (hFlags h) 0
def hEnc (h : List Byte) : Bool := bitOf (hFlags h) 1
def hFull (h : List Byte) : Bool := bitOf (hFlags h) 2
def hMap (h : List Byte) : Bool := bitOf (hFlags h) 3
def hFw (h : List Byte) : Bool := bitOf (hFlags h) 4
def hRows (h : List Byte) : Nat := hnum h 0x00E 1
def hKeys (h : List Byte) : Nat := hnum h 0x00F 1
def hPlanes (h : List Byte) : Nat := hnum h 0x010 2
def hFrames (h : List Byte) : Nat := hnum h 0x014 4
def hTotal (h : List Byte) : Nat := hnum h 0x018 4
def hIv (h : List Byte) : Nat := hnum h 0x028 12
def hTag (h : List Byte) : Nat := hnum h 0x040 16

/-- Replace bytes of a header. -/
def splice (h : List Byte) (off : Nat) (bs : List Byte) : List Byte := h.take off ++ bs ++ h.drop (off + bs.length)

/-- Whether the bytes from `off` on are zero. -/
def zeroAt (h : List Byte) (off n : Nat) : Bool := ((h.drop off).take n).all (fun b => b == 0)

/-- Whether `HCRC` is right. -/
def hcrcOk (h : List Byte) : Bool := hnum h 0x0FC 4 == crc32 (h.take 0x0FC)

/-- Whether `HDRVER` is 1 and every zero field and flag bit is zero. -/
def versionOk (h : List Byte) : Bool :=
  hnum h 0x004 2 == 1 && decide (hFlags h < 32) && hKeys h / 4 % 4 == 0 && hKeys h / 64 == 0 && zeroAt h 0x012 2 && zeroAt h 0x01C 4 && zeroAt h 0x034 12 &&
    zeroAt h 0x050 48 && zeroAt h 0x0E0 28

/-- The length that the header's counts give. -/
def hLength (h : List Byte) : Nat := 256 + hFrames h * 136 + (if hMap h then hFrames h * 128 else 0)

/-! ### Resident slots (R381, R382) -/

/-- Whether resident images are kept. -/
def State.slotOn (s : State) : Bool := s.on CFG_RES.EN && s.f RST_STAT.SVC == 2

/-- Address of the slot of partition `n`. -/
def State.slotBase (s : State) (n : Nat) : Nat := s.f CFG_RES.BASE * 2 ^ 27 + n * 0x80_0000

/-- First row of a partition's band. -/
def State.firstRow (s : State) (n : Nat) : Nat := s.f (GLB_PART_CFG.FIRST_ROW n)

/-- Number of a frame among the records of its partition's slot. -/
def State.slotIx (s : State) (n i k : Nat) : Nat := ((rowOf i - s.firstRow n) * 12 + s.lcol i) * 128 + k

/-- Offset of a map record in the slot. -/
def State.mapOff (s : State) (n i k : Nat) : Nat := 256 + s.f (GLB_PART_CFG.NROWS n) * 12 * 128 * 136 + s.slotIx n i k * 128

/-- Header of the image last loaded in a partition. -/
def State.loadedHdr (s : State) (n : Nat) : List Byte := Map.getD s.cfg.hdrs n []

/-- The record `ix` of a slot as it is carried: encrypted under the resident key when its image was (R382); decrypting is the same. -/
def State.slotCrypt (s : State) (n ix : Nat) (bs : List Byte) : List Byte :=
  if s.cfg.crypt.contains (n * 2 ^ 18 + ix) then residentCrypt s.cfg.key n (ix * 136) bs else bs

/-- Whether the slot of partition `n` holds record `ix` encrypted, from now on. -/
def cryptSet (n ix : Nat) (enc : Bool) (s : State) : State :=
  let x := n * 2 ^ 18 + ix
  s.onCfg (fun c => { c with crypt := if enc then (if c.crypt.contains x then c.crypt else x :: c.crypt) else c.crypt.filter (fun y => y != x) })

/-- The record of a frame with its own `FADDR`. -/
def frameRecord (f : CfgFrame) : List Byte := bytesLE 4 f.faddr.toNat ++ frameBytes f.data ++ bytesLE 4 f.crc.toNat

/-- Write the record of a frame into the slot of its partition. -/
def slotFrame (n i k : Nat) (s : State) : State :=
  if s.slotOn then
    let ix := s.slotIx n i k
    busPut (s.slotBase n + 256 + ix * 136) (s.slotCrypt n ix (frameRecord (CfgFrame.of (s.faddr (s.firstRow n) i k) (s.frame i k).data))) s
  else s

/-- Essential bits of a frame; without a map every bit is essential, and frames 120 to 127 never are (R364, R381). -/
def State.essential (s : State) (i k : Nat) : BitVec 1024 := if 120 ≤ k then 0 else Map.getD s.cfg.maps (i * 128 + k) (BitVec.allOnes 1024)

/-- The map bits that a slot holds. -/
def State.slotMap (s : State) (i k : Nat) : BitVec 1024 := Map.getD s.cfg.maps (i * 128 + k) (BitVec.allOnes 1024)

/-- The header of a slot (R381). -/
def State.slotHdr (s : State) (n : Nat) : List Byte :=
  let h := s.loadedHdr n
  let rows := s.f (GLB_PART_CFG.NROWS n)
  let nf := rows * 12 * 128
  let fl := hFlags h - (if hFull h then 4 else 0) + (if hMap h then 0 else 8)
  let h := splice h 0x006 (bytesLE 2 fl)
  let h := splice h 0x00E (bytesLE 1 rows)
  let h := splice h 0x010 (bytesLE 2 0xFFFF)
  let h := splice h 0x014 (bytesLE 4 nf)
  let h := splice h 0x018 (bytesLE 4 (256 + nf * 264))
  splice h 0x0FC (bytesLE 4 (crc32 (h.take 0x0FC)))

/-- The header and the map of a slot are written, and the slot becomes valid. -/
def slotFinish (n : Nat) (s : State) : State :=
  if s.slotOn then
    let s := busPut (s.slotBase n) (s.slotHdr n) s
    let s := (s.islandsOf n).foldl (fun s i => (List.range 128).foldl (fun s k => busPut (s.slotBase n + s.mapOff n i k) (frameBytes (s.slotMap i k)) s) s) s
    s.setF (CFG_RESVAL.VALID.bit n) 1
  else s

/-! ### The running load -/

/-- The controller between loads. -/
def Cfg.clear (c : Cfg) : Cfg :=
  { c with golden := false, buf := [], feed := [], feedBad := false, ended := false, hdr := [], body := [], seen := [], staged := [], mapTaken := 0, mapsIn := [], cspWait := false, boot := 0 }

/-- A load begins with its header phase, and wakes the partition it names (R445); one whose mode its header gives names it then. -/
def cfgBegin (src mode part : Nat) (golden : Bool) (boot : Nat) (s : State) : State :=
  let s := ((s.setF CFG_STAT.BUSY 1).setF CFG_STAT.PHASE 1).wr CFG_PROG 0
  let s := if mode < 2 ∧ part < 12 then requestWake part s else s
  s.onCfg (fun c => { c.clear with src := src, mode := mode, part := part, golden := golden, boot := boot })

/-- The partitions a load covers. -/
def State.loadParts (s : State) : List Nat := if s.cfg.mode = 2 then s.enabledParts else [s.cfg.part]

/-- The islands a load covers. -/
def State.loadIslands (s : State) : List Nat := if s.cfg.mode = 2 then (List.range 156).filter s.inService else s.islandsOf s.cfg.part

/-- Row that record addresses count from (R363). -/
def State.loadFirst (s : State) : Nat := if s.cfg.mode = 2 then 0 else s.firstRow s.cfg.part

/-- Whether the running load names a partition. -/
def State.loadNames (s : State) (p : Nat) : Bool := s.on CFG_STAT.BUSY && s.cfg.mode != 2 && s.cfg.part == p

/-- `CFG_ERR` describes the running load (R387). -/
def setCfgErr (code faddr : Nat) (s : State) : State :=
  let s := (((s.setF CFG_ERR.CODE code).setF CFG_ERR.SRC s.cfg.src).setF CFG_ERR.MODE (if s.cfg.mode = 3 then 0 else s.cfg.mode)).setF CFG_ERR.PART s.cfg.part
  ((s.setF CFG_ERR.FADDR faddr).setF CFG_ERR.FBK 0).setF CFG_ERR.FBKERR 0

/-- The next reload that firmware owes after a warm reset begins (R384). -/
def nextReload (s : State) : State :=
  match s.sys.reloads with
  | [] => s
  | n :: rest => if s.on CFG_STAT.BUSY then s else cfgBegin 4 0 n false 0 { s with sys := { s.sys with reloads := rest } }

/-- A repair that a warm reset interrupted ends with its reload; when that fails the partition is INVALID and a record names the controller (R464, R465). -/
def repairReloaded (src p : Nat) (s : State) : State :=
  match s.sys.repair with
  | none => s
  | some r =>
    if src = 4 ∧ r.part = p ∧ r.warm = true then
      let s := { s with sys := { s.sys with repair := none } }
      if s.f (GLB_PART_CFG.STATE p) = stSTOPPED then s else logErr 0x0204 15 (srcOf 0 241) 0 0 (s.setF (GLB_PART_CFG.STATE p) stINVALID)
    else s

/-- Whether two records are handled together: contained ones of one partition (R453). -/
def Handling.joins (h x : Handling) : Bool := x.sev == 2 && x.part == h.part

/-- Whether a reload of a partition waits or runs. -/
def State.reloading (s : State) (p : Nat) : Bool := s.sys.reloads.contains p || (s.loadNames p && s.cfg.src == 4)

/-- The handling of the contained records of a partition ends, once firmware has done what they ask for and no reload of it is left; `HACT` falls with the last (R451,
R453). -/
def handled (p : Nat) (s : State) : State :=
  let ended (x : Handling) : Bool := x.sev == 2 && x.part == p && x.followed
  if s.reloading p ∨ s.handling.any ended = false then s
  else
    let rest := s.handling.filter (fun x => !ended x)
    State.setF { s with handling := rest } ERR_STAT.HACT (b2n !rest.isEmpty)

/-- A load has ended (R372, R387), and with a reload the handling that asked for it (R453). -/
def cfgEnd (s : State) : State :=
  let p := s.cfg.part
  let s := repairReloaded s.cfg.src p s
  let s := s.onCfg (fun c => if c.mode = 2 then c else { c with last := Map.set c.last c.part (s.f CFG_ERR.CODE) })
  let s := (((s.setF CFG_STAT.BUSY 0).setF CFG_STAT.PHASE 0).setF CFG_STAT.DONE 1).onCfg Cfg.clear
  nextReload (handled p (if s.on CFG_IRQ.EN then sendMsix 0 (s.f CFG_IRQ.VEC) s else s))

/-- The plane locks of a partition clear (R373). -/
def unlockBand (p : Nat) (s : State) : State := (s.islandsOf p).foldl (fun s i => s.setF (ISL_PLANE_USE.LOCK i) 0) s

/-- A full load without a good image leaves its partitions INVALID (R371). -/
def fullInvalid (s : State) : State :=
  s.enabledParts.foldl (fun s n => if s.f (GLB_PART_CFG.STATE n) = stLOADING then s.setF (GLB_PART_CFG.STATE n) stINVALID else s) s

/-- The failure of a full load: the start-up sequence goes on to its next image (R376), a load that failed later than its header falls back to the golden image (R371). -/
def fullFail (code : Nat) (late : Bool) (s : State) : State :=
  match s.cfg.boot with
  | 4 => cfgBegin 2 2 0 false 2 (s.setF CFG_BOOT.CSPERR code)
  | 2 =>
    let s := s.setF CFG_BOOT.UPDERR code
    cfgBegin 3 2 0 late 3 (if late then s.setF CFG_ERR.FBK 1 else s)
  | 3 => cfgEnd (fullInvalid ((s.setF CFG_BOOT.GLDERR code).setF CFG_BOOT.ARRAY 3))
  | _ =>
    if s.cfg.golden ∨ (late ∧ s.cfg.src = 3) then cfgEnd (fullInvalid s)
    else if late then cfgBegin 3 2 0 true 0 (s.setF CFG_ERR.FBK 1)
    else cfgEnd s

/-- A load fails with a code of R370; the outcome is that of R371. -/
def cfgFail (code faddr : Nat) (s : State) : State :=
  let late := decide (1 < s.f CFG_STAT.PHASE)
  let s := if s.cfg.golden then s.setF CFG_ERR.FBKERR 1 else setCfgErr code faddr s
  match s.cfg.mode with
  | 2 => fullFail code late s
  | 1 => cfgEnd (if late ∧ code ≠ 0x15 then unlockBand s.cfg.part s else s)
  | _ => if s.cfg.boot = 4 then fullFail code late s else cfgEnd (if late then s.setF (GLB_PART_CFG.STATE s.cfg.part) stINVALID else s)

/-! ### Sources (R372, R375, R376, R383) -/

/-- What taking bytes gave. -/
inductive Taken where
  | bytes (bs : List Byte)
  | wait
  | failed
deriving DecidableEq, Repr

/-- Firmware's bytes enter the window while the buffer has room (R401). -/
def Cfg.refill (c : Cfg) : Cfg :=
  let room := 65536 - c.buf.length
  { c with buf := c.buf ++ c.feed.take room, feed := c.feed.drop room }

/-- Position of the next image byte. -/
def Cfg.at (c : Cfg) : Nat := c.hdr.length + c.body.length

/-- A read of flash, which can fail (R370): whether it does is the flash's. -/
def flashTake (a n : Nat) (s : State) : Taken × State :=
  let (bad, s) := s.freshBit
  (if bad then .failed else .bytes (s.flash a n), s)

/-- The next `n` bytes of the image; `n` is a multiple of 8. -/
def takeBytes (n : Nat) (s : State) : Taken × State :=
  match s.cfg.src with
  | 2 => flashTake (flashUpdate + s.cfg.at) n s
  | 3 => flashTake (flashGolden + s.cfg.at) n s
  | 4 =>
    match busWords (n / 8) (s.slotBase s.cfg.part + s.cfg.at) s with
    | (some (ws, false), s) => (.bytes (ws.flatMap (bytesLE 8)), s)
    | (_, s) => (.failed, s)
  | _ =>
    let s := s.onCfg Cfg.refill
    if s.cfg.buf.length < n then (if s.cfg.feed.isEmpty && s.cfg.feedBad then .failed else .wait, s) else (.bytes (s.cfg.buf.take n), s.onCfg (fun c => { c with buf := c.buf.drop n }))

/-- Bytes after the header in plaintext (R361, R382). -/
def State.plain (s : State) (bs : List Byte) : List Byte :=
  let h := s.cfg.hdr
  let pos := s.cfg.body.length
  if s.cfg.src = 4 then (if pos < hFrames h * 136 then s.slotCrypt s.cfg.part (pos / 136) bs else bs)
  else if !hEnc h then bs
  else imageCrypt (hKeys h / 16 % 4) (hIv h) pos bs

/-! ### The header phase (R368) -/

/-- Whether the running load is the reload of a partition's repair (R464, R465): step 8 has begun it, or firmware has after a warm reset. -/
def State.repairLoad (s : State) (p : Nat) : Bool :=
  s.cfg.src == 4 && s.sys.repair.any (fun r => r.part == p && (r.step == 9 || (r.warm && r.step == 8)))

/-- Whether a partition's state permits a hold load or a reload (R366); a repair's own reload finds it REPAIRING (R464). -/
def State.holdPermitted (s : State) (p : Nat) : Bool :=
  s.enabled p &&
    (let st := s.f (GLB_PART_CFG.STATE p)
     st == stEMPTY || st == stSTOPPED || st == stINVALID || (st == stREPAIRING && s.repairLoad p))

/-- Whether the states of the partitions permit the load's mode (R366); a fall-back and the start-up sequence follow a load that was permitted. -/
def State.statePermits (s : State) (mode : Nat) : Bool :=
  match mode with
  | 2 => s.cfg.golden || s.cfg.boot != 0 ||
      s.enabledParts.all (fun n => let st := s.f (GLB_PART_CFG.STATE n); st != stLOADING && st != stRUNNING && st != stREPAIRING)
  | 1 => s.enabled s.cfg.part && (s.f (GLB_PART_CFG.STATE s.cfg.part) == stSTOPPED || s.f (GLB_PART_CFG.STATE s.cfg.part) == stRUNNING)
  | _ => s.holdPermitted s.cfg.part

/-- Whether the header fits the mode: `FW`, `FULL`, `NROWS`, `PLANES`, `TOTAL` and `NFRAMES`. -/
def State.headerFits (s : State) (mode : Nat) (h : List Byte) : Bool :=
  let rows := if mode = 2 then 12 else s.f (GLB_PART_CFG.NROWS s.cfg.part)
  !hFw h && (hFull h == (mode == 2)) && hRows h == rows && (mode != 1 || hPlanes h != 0) && hTotal h == hLength h &&
    decide (hFrames h ≤ rows * 12 * (if mode = 1 then 96 else 128)) && !((s.cfg.src == 2 || s.cfg.src == 3) && mode != 2)

/-- Whether a key slot is programmed and not revoked. -/
def slotGood (prog rev k : Nat) : Bool := bitOf prog k && !bitOf rev k

/-- Whether the header meets the policy (R368). -/
def State.policyOk (s : State) (mode : Nat) (h : List Byte) : Bool :=
  (!s.on CFG_POLICY.REQSIG || hSigned h) && (!s.on CFG_POLICY.REQENC || hEnc h) &&
    (!hSigned h || slotGood (s.f CFG_POLICY.SIGPROG) (s.f CFG_POLICY.SIGREV) (hKeys h % 4)) &&
    (!hEnc h || slotGood (s.f CFG_POLICY.AESPROG) (s.f CFG_POLICY.AESREV) (hKeys h / 16 % 4)) && (mode != 1 || s.on CFG_POLICY.LIVEEN)

/-- The first header check that fails, 0 when all pass (R368, R383). -/
def State.headerCode (s : State) (mode : Nat) (h : List Byte) : Nat :=
  let res := s.cfg.src == 4
  let c (n : Nat) : Nat := if res then 0x12 else n
  if res && !bitOf (s.f CFG_RESVAL.VALID) s.cfg.part then 0x12
  else if hnum h 0 4 ≠ 0x485A_4346 then c 0x01
  else if !hcrcOk h then c 0x02
  else if !versionOk h then c 0x03
  else if hnum h 0x008 4 ≠ 0x4C59_7120 ∨ hnum h 0x00C 1 ≠ 7 ∨ s.f GLB_REVISION.REV < hnum h 0x00D 1 then c 0x04
  else if !s.headerFits mode h then c 0x05
  else if !s.statePermits mode then 0x06
  else if !res && !s.policyOk mode h then 0x07
  else 0

/-- The band enters the loading state (R379).  Its partitions are woken: a load of the Configuration Slave Port names its partition by its header, and a full load, which names
none, needs the clocks of all to eclode (DEDUCED from R380 and R442, log entry 41). -/
def holdBand (s : State) : State :=
  let full := s.cfg.mode == 2
  let ps := s.loadParts
  let s := if full then { s with sys := { s.sys with pins := (List.range 24).map (fun k => (k, 2)) } } else holdPins (fun k => ps.contains (s.pinPart k)) s
  let s := ps.foldl (fun s n =>
    let s := captureDrop n s
    let s := if s.f (GLB_PART_CFG.STATE n) = stREPAIRING then s else s.setF (GLB_PART_CFG.STATE n) stLOADING
    requestWake n ((s.seqsOf n).foldl (fun s q => seqReset q s) s)) s
  s.loadIslands.foldl (fun s i => islHold i s) s

/-- Write a frame of the load, and its record in the slot of its partition (R363, R381); a reload takes its frames from the slot itself. -/
def putFrame (i k : Nat) (d : BitVec 1024) (s : State) : State :=
  let s := s.setFrame i k (CfgFrame.of (s.faddr s.loadFirst i k) d)
  let n := s.islPart i
  if n < 12 ∧ s.cfg.src ≠ 4 then slotFrame n i k (cryptSet n (s.slotIx n i k) (hEnc s.cfg.hdr) s) else s

/-- Blank content in every frame of the band (R368). -/
def blankBand (s : State) : State := s.loadIslands.foldl (fun s i => (List.range 128).foldl (fun s k => putFrame i k (blankFrame k) s) s) s

/-- The phase after the last record (R367). -/
def cfgAdvance (s : State) : State :=
  let h := s.cfg.hdr
  if s.f CFG_PROG.FDONE = hFrames h ∧ (hMap h = false ∨ s.cfg.mapTaken = hFrames h) then s.setF CFG_STAT.PHASE 3 else s

/-- The header checks have passed (R368, R381). -/
def headerPass (mode : Nat) (h : List Byte) (s : State) : State :=
  let s := s.onCfg (fun c => { c with hdr := h, mode := mode })
  let s := if mode = 2 then s.wr CFG_RESVAL 0 else s.setF (CFG_RESVAL.VALID.bit s.cfg.part) 0
  let s := (s.setF CFG_STAT.PHASE 2).setF CFG_PROG.NFRAMES (hFrames h)
  let s :=
    if mode = 1 then unlockBand s.cfg.part s
    else
      let s := s.onCfg (fun c => { c with hdrs := s.loadParts.foldl (fun m n => Map.set m n h) c.hdrs })
      blankBand (holdBand s)
  cfgAdvance s

/-- `LOAD_HEADER` (R368, R383): the 256 header bytes are taken and checked; a slot is read only when it is valid. -/
def execLoadHeader (s : State) : Host.Outcome State Fault Refusal :=
  if s.cfgClk ∧ s.on CFG_STAT.BUSY ∧ s.f CFG_STAT.PHASE = 1 ∧ s.cfg.cspWait = false ∧ s.cfg.boot ≠ 1 then
    if s.cfg.src = 4 ∧ bitOf (s.f CFG_RESVAL.VALID) s.cfg.part = false then .next (cfgFail 0x12 0 s)
    else
    match takeBytes 256 s with
    | (.wait, s) => .next s
    | (.failed, s) => .next (cfgFail 0x13 0 s)
    | (.bytes h, s) =>
      let mode := if s.cfg.mode = 3 then (if hFull h then 2 else 0) else s.cfg.mode
      match s.headerCode mode h with
      | 0 => .next (headerPass mode h s)
      | code => .next (cfgFail code 0 (s.onCfg (fun c => { c with mode := mode })))
  else .next s

/-! ### Frames (R362, R363, R369) -/

/-- Whether the joint of spine track `t` in a frame 6p + 1 drives east, and west. -/
def jointBits (d t : Nat) : Bool × Bool := (bitOf d (752 + 8 * t + 6), bitOf d (752 + 8 * t + 7))

/-- Record address of a frame of the running load (R362). -/
def State.recAddr (s : State) (i k : Nat) : Nat := s.faddr s.loadFirst i k

/-- The joints of another island for the spine check: staged ones of a live load, else those in its frame (R120). -/
def State.spineJoint (s : State) (i k t : Nat) : Bool × Bool :=
  if s.cfg.mode = 1 then
    match Map.find s.cfg.staged (s.recAddr i k) with
    | some f => jointBits f.data.toNat t
    | none => (false, false)
  else jointBits (s.fnum i k) t

/-- Whether a frame would leave a spine segment driven from both ends (R120). -/
def State.spineClash (s : State) (i k : Nat) (d : Nat) : Bool :=
  let c := s.lcol i
  let next (t : Nat) (cols : List Nat) : Option (Bool × Bool) :=
    ((cols.map (fun c' => s.spineJoint (s.phys (rowOf i) c') k t)).find? (fun j => j.1 || j.2))
  k < 96 && k % 6 == 1 && (List.range 4).any (fun t =>
    let (e, w) := jointBits d t
    (e && (match next t ((List.range (11 - c)).map (fun n => c + 1 + n)) with | some j => j.2 | none => false)) ||
    (w && (match next t ((List.range c).map (fun n => c - 1 - n)) with | some j => j.1 | none => false)))

/-- The checks of a record in their order (R369): the code of the first that fails, 0 when all pass. -/
def State.frameCode (s : State) (r : List Byte) : Nat :=
  let h := s.cfg.hdr
  let a := hnum r 0 4
  let k := a % 128
  let live := s.cfg.mode == 1
  let i := s.phys (s.loadFirst + a / 4096 % 16) (a / 256 % 16)
  if hnum r 132 4 ≠ crc32 (r.take 132) then (if s.cfg.src = 4 then 0x12 else 0x0C)
  else if a / 65536 ≠ 0 ∨ bitOf a 7 ∨ s.cfg.seen.contains a then 0x0B
  else if hRows h ≤ a / 4096 % 16 ∨ 11 < a / 256 % 16 then 0x0D
  else if live ∧ 96 ≤ k then 0x0F
  else if live ∧ ¬ bitOf (hPlanes h) (k / 6) then 0x0B
  else if s.spineClash i k (hnum r 4 128) then 0x0E
  else 0

/-- A record that passed its checks is written or staged. -/
def acceptRecord (r : List Byte) (s : State) : State :=
  let a := hnum r 0 4
  let i := s.phys (s.loadFirst + a / 4096 % 16) (a / 256 % 16)
  let k := a % 128
  let d := BitVec.ofNat 1024 (hnum r 4 128)
  let s := if s.cfg.mode = 1 then s.onCfg (fun c => { c with staged := Map.set c.staged a (CfgFrame.of a d) }) else putFrame i k d s
  (s.onCfg (fun c => { c with seen := a :: c.seen })).setF CFG_PROG.FDONE (s.f CFG_PROG.FDONE + 1)

/-- A record of the essential-bit map, in the order of the frame records (R362). -/
def acceptMap (m : List Byte) (s : State) : State :=
  let a := s.cfg.seen.reverse.getD s.cfg.mapTaken 0
  s.onCfg (fun c => { c with mapTaken := c.mapTaken + 1, mapsIn := Map.set c.mapsIn a (BitVec.ofNat 1024 (numLE m)) })

/-- `FRAME_RECORD` (R369): the next frame record, or record of the map, is taken. -/
def execFrameRecord (s : State) : Host.Outcome State Fault Refusal :=
  if s.cfgClk ∧ s.on CFG_STAT.BUSY ∧ s.f CFG_STAT.PHASE = 2 then
    let frames := decide (s.f CFG_PROG.FDONE < hFrames s.cfg.hdr)
    match takeBytes (if frames then 136 else 128) s with
    | (.wait, s) => .next s
    | (.failed, s) => .next (cfgFail 0x13 0 s)
    | (.bytes bs, s) =>
      let r := s.plain bs
      let s := s.onCfg (fun c => { c with body := bs.reverse ++ c.body })
      if frames then
        match s.frameCode r with
        | 0 => .next (cfgAdvance (acceptRecord r s))
        | code => .next (cfgFail code (hnum r 0 2) s)
      else .next (cfgAdvance (acceptMap r s))
  else .next s

/-! ### Verify and commit (R361, R373) -/

/-- The code of the first check of the verify phase that fails (R361); a reload makes none (R383). -/
def State.verifyCode (s : State) : Nat :=
  let h := s.cfg.hdr
  let ct := s.cfg.body.reverse
  if s.cfg.src = 4 then 0
  else if hEnc h ∧ hTag h ≠ imageTag (hKeys h / 16 % 4) (hIv h) (h.take 0x40) ct then 0x11
  else if hSigned h ∧ sigOk (hKeys h % 4) (h.take 0x80 ++ ct) ((h.drop 0x80).take 96) = false then 0x10
  else 0

/-- The planes in use in an island (R109). -/
def State.planesUsed (s : State) (i : Nat) : List Nat :=
  ((List.range 137).map (s.elemPlane i)) ++
    ((List.range 16).flatMap (fun u => (s.holding i u tokMOULT).map (fun x => AWord.plane ((s.inHead i u x).getD 0)))) ++
    (if s.on (ISL_PLANE_AUX.ARMED i) then [s.f (ISL_PLANE_AUX.ATGT i)] else [])

/-- The frames that the load writes in each island: all, or those of the declared planes. -/
def State.loadFrames (s : State) : List Nat :=
  if s.cfg.mode = 1 then (onesOf 16 (hPlanes s.cfg.hdr)).flatMap (fun p => (List.range 6).map (fun j => 6 * p + j)) else List.range 128

/-- The essential bits of the frames loaded; those of frames that an image with a map does not carry are open (log entry 3). -/
def takeMaps (s : State) : State :=
  let h := s.cfg.hdr
  let n := s.free
  let keys := s.loadIslands.flatMap (fun i => s.loadFrames.map (fun k => (i * 128 + k, s.recAddr i k)))
  let s := { s with free := n + 1 }
  s.onCfg (fun c => { c with maps := keys.foldl (fun m x => if hMap h then Map.set m x.1 (Map.getD c.mapsIn x.2 (Config.freeMap n x.1)) else Map.del m x.1) c.maps })

/-- The claim of a live load (R373): in every island of the band the declared planes are locked, unless one of them is in use. -/
def claimLive (s : State) : State :=
  let s := s.setF CFG_STAT.PHASE 4
  let is := s.islandsOf s.cfg.part
  if is.any (fun i => (onesOf 16 (hPlanes s.cfg.hdr)).any (fun q => (s.planesUsed i).contains q)) then cfgFail 0x0F 0 s
  else is.foldl (fun s i => s.orF (ISL_PLANE_USE.LOCK i) (hPlanes s.cfg.hdr)) s

/-- The rest of its commit (R363, R373): every frame of every declared plane is written where its address lies now, then the locks clear and the slot follows. -/
def commitLive (stagingError : Bool) (s : State) : State :=
  let p := s.cfg.part
  if stagingError then cfgFail 0x15 0 s
  else
    let s := takeMaps s
    let s := (s.islandsOf p).foldl (fun s i => s.loadFrames.foldl (fun s k =>
      match Map.find s.cfg.staged (s.recAddr i k) with
      | some f => putFrame i k f.data s
      | none => putFrame i k (blankFrame k) s) s) s
    cfgEnd (setCfgErr 0 0 (slotFinish p (unlockBand p s)))

/-- `LOAD_VERIFY` (R361, R373): the checks after the last byte; a live load makes its claim and, when the row is taken again, the rest of its commit; the others go on to
eclosion with the clocks of the band starting. -/
def execLoadVerify (stagingError : Bool) (s : State) : Host.Outcome State Fault Refusal :=
  if s.cfgClk ∧ s.on CFG_STAT.BUSY ∧ s.f CFG_STAT.PHASE = 3 then
    match s.verifyCode with
    | 0 => .next (if s.cfg.mode = 1 then claimLive s else (takeMaps s).setF CFG_STAT.PHASE 5)
    | code => .next (cfgFail code 0 s)
  else if s.cfgClk ∧ s.on CFG_STAT.BUSY ∧ s.f CFG_STAT.PHASE = 4 then .next (commitLive stagingError s)
  else .next s

/-! ### Eclosion (R380) -/

/-- The level bits that a queue starts with, which are no crossing (R154). -/
def startLevels (i q : Nat) (s : State) : State :=
  let (h, l) := s.qLevels i q
  (s.setF (ISL_QSTAT.HL i q) (b2n h)).setF (ISL_QSTAT.LL i q) (b2n l)

/-- Frames 120 to 122 load their registers. -/
def eclodeRegs (i : Nat) (s : State) : State :=
  let s := (List.range 4).foldl (fun s q =>
    startLevels i q (fieldWrite (ISL_QWM i q) (BitVec.ofNat 64 (s.fbits i 120 (128 + 32 * q) 32)) (qregWrite i q (s.fbits i 120 (32 * q) 32) s))) s
  let s := forkCfgWrite i (BitVec.ofNat 64 (s.fbits i 121 0 64)) s
  let s := fieldWrite (ISL_FCAP_CFG i) (BitVec.ofNat 64 (s.fbits i 121 64 64)) s
  let s := fieldWrite (ISL_MOULT_WDT i) (BitVec.ofNat 64 (s.fbits i 122 0 32)) s
  fieldWrite (ISL_PATROL_CTL i) (BitVec.ofNat 64 (s.fbits i 122 32 32)) s

/-- Step 3 in an island (R364, R380, R433, R435): its clock is at `ICLK`, its registers load, and its release is requested. -/
def eclodeIsl (i : Nat) (s : State) : State :=
  if s.inService i && s.rowOpen (rowOf i) && (s.getIsl i).inReset then requestRelease [i] (eclodeRegs i (s.setF (CLK_ISL.FREQ i) (s.fbits i 96 116 7))) else s

/-- The pins of a partition drive their reset values (R380). -/
def eclodePins (p : Nat) (s : State) : State :=
  (List.range 24).foldl (fun s k =>
    if s.pinPart k = p then
      let s := { s with sys := { s.sys with pins := Map.del s.sys.pins k } }
      s.setF (if k < 8 then TRIG_CFG.OUT k else TRIG_GPIO.OUT (k - 8)) 0
    else s) s

/-- The three steps in one partition. -/
def eclode (p : Nat) (s : State) : State :=
  let s := (s.islandsOf p).foldl (fun s i => eclodeIsl i s) (eclodePins p s)
  (slotFinish p s).setF (GLB_PART_CFG.STATE p) stSTOPPED

/-- A load that has succeeded ends (R371, R376, R387). -/
def cfgDone (s : State) : State :=
  let s := if s.cfg.golden then s else setCfgErr 0 0 s
  let s := match s.cfg.boot with
    | 2 => s.setF CFG_BOOT.ARRAY 0
    | 3 => s.setF CFG_BOOT.ARRAY 1
    | 4 => s.setF CFG_BOOT.ARRAY 2
    | _ => s
  let s := if s.cfg.mode = 2 then { s with sys := { s.sys with pins := [] } } else s
  cfgEnd s

/-- `ECLOSION` (R380): with the clocks of the band stable, which needs its partitions Active, the three steps run. -/
def execEclosion (s : State) : Host.Outcome State Fault Refusal :=
  if s.cfgClk ∧ s.on CFG_STAT.BUSY ∧ s.f CFG_STAT.PHASE = 5 ∧ s.loadParts.all (fun n => s.f (PWR_PART.CUR n) == 0) = true then
    .next (cfgDone (s.loadParts.foldl (fun s n => eclode n s) s))
  else .next s

/-! ### Starting and ending loads (R372, R375, R378) -/

/-- A write of `CFG_LOAD` with `GO` (R378): BUSY while a load runs, else the load starts. -/
def loadGo (src mode part : Nat) (s : State) : State :=
  if s.on CFG_STAT.BUSY then s.setF CFG_ERR.CODE 0x16
  else
    let src := if 5 ≤ src then 0 else src
    let mode := if src = 4 ∨ mode = 3 then 0 else mode
    let s := cfgBegin src mode part false 0 s
    if src = 1 then s.onCfg (fun c => { c with cspWait := true }) else s

/-- A write of `CFG_LOAD` (R387). -/
def cfgLoadWrite (v : Nat) (s : State) : State :=
  let s := ((s.setF CFG_LOAD.SRC (bitsOf v 29 27)).setF CFG_LOAD.MODE (bitsOf v 26 25)).setF CFG_LOAD.PART (bitsOf v 3 0)
  let s := if bitOf v 30 ∧ s.on CFG_STAT.BUSY then cfgFail 0x14 0 s else s
  if bitOf v 31 then loadGo (bitsOf v 29 27) (bitsOf v 26 25) (bitsOf v 3 0) s else s

/-- `LOAD_GO` (R378). -/
def execLoadGo (src : Fin 8) (mode : Fin 4) (part : Fin 16) (s : State) : Host.Outcome State Fault Refusal :=
  pfWrite (cfgWrite CFG_LOAD (cfgLoadWrite (2 ^ 31 + src.val * 2 ^ 27 + mode.val * 2 ^ 25 + part.val))) s

/-- `LOAD_ABORT` (R371); the other fields keep their values. -/
def execLoadAbort (s : State) : Host.Outcome State Fault Refusal :=
  pfWrite (cfgWrite CFG_LOAD (cfgLoadWrite (2 ^ 30 + (s.rd CFG_LOAD).toNat % 2 ^ 30))) s

/-- Whether a load from a source takes bytes. -/
def State.loadFrom (s : State) (src : Nat) : Bool := s.on CFG_STAT.BUSY && s.cfg.src == src && !s.cfg.cspWait && s.cfg.boot != 1

/-- Image bytes that no load takes (R372, R375). -/
def strayBytes (via : Nat) (s : State) : State := logErr 0x0A04 15 (srcOf 0 241) (BitVec.ofNat 64 via) 0 s

/-- A write into the host window (R372). -/
def windowPut (bs : List Byte) (s : State) : State :=
  if s.loadFrom 0 then
    if s.cfg.buf.length + bs.length ≤ 65536 then s.onCfg (fun c => { c with buf := c.buf ++ bs }) else cfgFail 0x0A 0 s
  else strayBytes 0 s

/-- `WINDOW_WRITE` (R372): 32 or 64 bits. -/
def execWindowWrite (wide : Bool) (v : BitVec 64) (s : State) : Host.Outcome State Fault Refusal :=
  pfWrite (cfgWrite 0x3_8000 (windowPut (bytesLE (if wide then 8 else 4) v.toNat))) s

/-- The output `CSP_RDY` (R375): low with fewer than 64 bytes free in the input buffer, and when no load of the port can be accepted. -/
def State.cspRdy (s : State) : Bool :=
  s.cfgClk && (s.cfg.cspMode == 1 || s.cfg.cspMode == 2) && decide (s.cfg.buf.length + 64 ≤ 65536 || !s.loadFrom 1) &&
    (s.loadFrom 1 || (!s.cfg.csLow && (s.cfg.cspWait || (s.on CFG_STAT.BUSY && s.cfg.boot == 1) || (!s.on CFG_STAT.BUSY && s.on CFG_CSPTGT.EN))))

/-- `CSP_SELECT` (R375, R376, R378): `CSP_CS_N` falls with `CSP_MODE` at the pins. -/
def execCspSelect (mode : BitVec 2) (s : State) : Host.Outcome State Fault Refusal :=
  let good := mode == 1 || mode == 2
  let s := s.onCfg (fun c => { c with csLow := true, cspMode := mode.toNat, low := 0, noted := false })
  if !s.cfgClk then .next s
  else if s.cfg.cspWait then .next (if good then s.onCfg (fun c => { c with cspWait := false }) else cfgFail 0x09 0 s)
  else if s.on CFG_STAT.BUSY ∧ s.cfg.boot = 1 then .next (if good then s.onCfg (fun c => { c with boot := 4 }) else s)
  else if ¬ s.on CFG_STAT.BUSY ∧ s.on CFG_CSPTGT.EN ∧ good then .next (cfgBegin 1 3 (s.f CFG_CSPTGT.PART) false 0 s)
  else .next s

/-- `CSP_BYTE` (R375): a byte clocked at the port. -/
def execCspByte (b : BitVec 8) (s : State) : Host.Outcome State Fault Refusal :=
  if s.cfgClk = false ∨ s.cfg.csLow = false ∨ (s.cfg.cspMode ≠ 1 ∧ s.cfg.cspMode ≠ 2) then .next s
  else
    let load := s.loadFrom 1
    let low := if s.cspRdy then 0 else s.cfg.low + (if s.cfg.cspMode = 2 then 8 else 1)
    let s := s.onCfg (fun c => { c with low := low })
    if low ≤ 16 then .next (if load ∧ s.cfg.buf.length < 65536 then s.onCfg (fun c => { c with buf := c.buf ++ [b] }) else s)
    else if load then .next (cfgFail 0x0A 0 s)
    else if s.cfg.noted then .next s
    else .next (strayBytes 1 (s.onCfg (fun c => { c with noted := true })))

/-- `CSP_DESELECT` (R375): `CSP_CS_N` rises; before `TOTAL` bytes the load ends with SHORT. -/
def execCspDeselect (s : State) : Host.Outcome State Fault Refusal :=
  let s := s.onCfg (fun c => { c with csLow := false })
  let h := s.cfg.hdr ++ s.cfg.buf
  if s.cfgClk ∧ s.loadFrom 1 ∧ s.f CFG_STAT.PHASE ≤ 2 ∧ (h.length < 256 ∨ h.length + s.cfg.body.length < hTotal h) then .next (cfgFail 0x08 0 s)
  else .next (if s.loadFrom 1 then s.onCfg (fun c => { c with ended := true }) else s)

/-- Whether a load waits for bytes of the window or of the Configuration Slave Port. -/
def State.loadStarved (s : State) : Bool :=
  (s.loadFrom 0 || s.loadFrom 1) && s.cfg.feed.isEmpty && !s.cfg.feedBad &&
    (match s.f CFG_STAT.PHASE with
     | 1 => decide (s.cfg.buf.length < 256)
     | 2 => decide (s.cfg.buf.length < (if s.f CFG_PROG.FDONE < hFrames s.cfg.hdr then 136 else 128))
     | _ => false)

/-- `LOAD_TIMEOUT` (R370): 10 ms without a byte. -/
def execLoadTimeout (s : State) : Host.Outcome State Fault Refusal := .next (if s.cfgClk ∧ s.loadStarved then cfgFail 0x09 0 s else s)

/-- `CSP_WAIT_TIMEOUT` (R376, R378): 1 s without a fall of `CSP_CS_N`, or at start-up without a complete image, moves on: a load that waits ends, the start-up sequence takes the
update image in flash. -/
def execCspWaitTimeout (s : State) : Host.Outcome State Fault Refusal :=
  if s.cfgClk = false ∨ s.on CFG_STAT.BUSY = false then .next s
  else if s.cfg.cspWait then .next (cfgFail 0x09 0 s)
  else if s.cfg.boot = 1 then .next (cfgBegin 2 2 0 false 2 s)
  else if s.cfg.boot = 4 ∧ s.f CFG_STAT.PHASE ≤ 2 then .next (cfgFail 0x09 0 s)
  else .next s

/-- `CFG_POLICY_LOCK` (R13, R387): a write of `CFG_POLICY` with `LOCK`; RWL fields of the same write still take their values. -/
def execCfgPolicyLock (fields : BitVec 3) (s : State) : Host.Outcome State Fault Refusal :=
  pfWrite (cfgWrite CFG_POLICY (fieldWrite CFG_POLICY (BitVec.ofNat 64 (2 ^ 31 + fields.toNat)))) s

end Sys2Proof.Machine
end

