-- ==== Sys2Proof/Machine/Scrub.lean ====
section
/-!
DEFINITION. Machine/Scrub.lean: the sweep of the configuration memory and readback (R385, R386).
-/
namespace Sys2Proof.Machine

/-- Whether the sweep reads a frame (R385): of an in-service island of a STOPPED or RUNNING partition, in no locked plane. -/
def State.scrubbed (s : State) (x : Nat) : Bool :=
  let i := x / 128
  let k := x % 128
  let n := s.islPart i
  decide (i < 156) && s.inService i && s.enabled n && (s.f (GLB_PART_CFG.STATE n) == stSTOPPED || s.f (GLB_PART_CFG.STATE n) == stRUNNING) &&
    !(decide (k < 96) && bitOf (s.f (ISL_PLANE_USE.LOCK i)) (k / 6))

/-- The next frame of the sweep from a place on, by island and then by frame, around the end. -/
def State.scrubNext (s : State) (at_ : Nat) : Option Nat :=
  match ((List.range (156 * 128 - at_)).map (fun d => at_ + d)).find? s.scrubbed with
  | some x => some x
  | none => (List.range at_).find? s.scrubbed

/-- The record of a frame in the slot of its partition, in plaintext; `none` when it cannot be read. -/
def slotRead (n i k : Nat) (s : State) : Option CfgFrame × State :=
  let ix := s.slotIx n i k
  match busWords 17 (s.slotBase n + 256 + ix * 136) s with
  | (some (ws, false), s) =>
    let bs := s.slotCrypt n ix (ws.flatMap (bytesLE 8))
    let f : CfgFrame := { data := BitVec.ofNat 1024 (hnum bs 4 128), crc := BitVec.ofNat 32 (hnum bs 132 4), faddr := BitVec.ofNat 32 (hnum bs 0 4) }
    (if f.sound then some f else none, s)
  | (_, s) => (none, s)

/-- A frame and its CRC are rewritten from the slot's record. -/
def scrubRewrite (i k : Nat) (f : CfgFrame) (s : State) : State := (s.setFrame i k f).bump CFG_SCRUBSTAT.FIXED

/-- The first essential finding is noted. -/
def scrubLast (i k : Nat) (s : State) : State :=
  if s.on CFG_SCRUBLAST.VALID then s
  else ((s.setF CFG_SCRUBLAST.VALID 1).setF CFG_SCRUBLAST.ISLAND i).setF CFG_SCRUBLAST.FRAME k

/-- A frame that disagrees with its CRC (R385). -/
def scrubMismatch (i k : Nat) (s : State) : State :=
  let n := s.islPart i
  let log (code : Nat) : State → State := logErr code n (srcOf 0 i) (BitVec.ofNat 64 k) 0
  let (rec?, s) := if s.slotOn && bitOf (s.f CFG_RESVAL.VALID) n then slotRead n i k s else (none, s)
  match rec? with
  | none =>
    let s := s.bump CFG_SCRUBSTAT.NORES
    if s.cfg.scrubNoted.contains (i * 128 + k) then s else log 0x0704 (s.onCfg (fun c => { c with scrubNoted := (i * 128 + k) :: c.scrubNoted }))
  | some f =>
    let diff := (s.frame i k).data ^^^ f.data
    let used := decide (96 ≤ k) || (s.planesUsed i).contains (k / 6)
    let s := scrubRewrite i k f s
    if diff &&& s.essential i k = 0 then log 0x0701 s
    else if used then log 0x0703 ((scrubLast i k s).bump CFG_SCRUBSTAT.ESSIN)
    else log 0x0702 (scrubLast i k s)

/-- Bits of a stored frame, or of its stored CRC, are upset. -/
def upsetFrame (i k : Nat) (data : BitVec 1024) (crc : BitVec 32) (s : State) : State :=
  if data = 0 ∧ crc = 0 then s
  else
    let f := s.frame i k
    s.setFrame i k { f with data := f.data ^^^ data, crc := f.crc ^^^ crc }

/-- `SCRUB_FRAME` (R385): the next frame of the sweep is read and compared with its CRC; the operands are the bits that were upset since it was last read. -/
def execScrubFrame (upset : BitVec 1024) (crcUpset : BitVec 32) (s : State) : Host.Outcome State Fault Refusal :=
  if s.cfgClk ∧ s.on CFG_SCRUB.EN ∧ s.on CFG_STAT.BUSY = false then
    match s.scrubNext s.cfg.scrubAt with
    | none => .next s
    | some x =>
      let s := upsetFrame (x / 128) (x % 128) upset crcUpset (s.onCfg (fun c => { c with scrubAt := (x + 1) % (156 * 128) }))
      .next (if (s.frame (x / 128) (x % 128)).sound then s.onCfg (fun c => { c with scrubNoted := c.scrubNoted.filter (fun y => y != x) })
        else scrubMismatch (x / 128) (x % 128) s)
  else .next s

/-! ### Readback (R386, R470) -/

/-- Data and its CRC enter the readback registers. -/
def readbackPut (d : BitVec 1024) (crc : Nat) (s : State) : State :=
  let s := (List.range 32).foldl (fun s k => s.wr (CFG_RBDATA k) (BitVec.ofNat 64 (d.toNat / 2 ^ (32 * k) % 2 ^ 32))) s
  (s.wr CFG_RBCRC (BitVec.ofNat 64 crc)).setF CFG_RBADDR.READY 1

/-- The effect of a write of `CFG_RBADDR` (R386); a frame of an out-of-service island, or of no island, reads as zero. -/
def readback (i k : Nat) (s : State) : State :=
  let s := ((s.setF CFG_RBADDR.READY 0).setF CFG_RBADDR.ISLAND i).setF CFG_RBADDR.FRAME k
  if decide (i < 156) && s.inService i then readbackPut (s.frame i k).data (s.frame i k).crc.toNat s else readbackPut 0 0 s

/-- `READBACK` (R386): a write of `CFG_RBADDR` by the physical function. -/
def execReadback (island : BitVec 8) (frame : BitVec 7) (s : State) : Host.Outcome State Fault Refusal :=
  pfWrite (cfgWrite CFG_RBADDR (readback island.toNat frame.toNat)) s

end Sys2Proof.Machine
end

