-- ==== Sys2Proof/Machine/Mailbox.lean ====
section
/-!
DEFINITION. Machine/Mailbox.lean: the Service Mailbox: ring memory, descriptors, completions and the order in which firmware executes commands (R5 to R8, R397 to R402, R409).
-/
namespace Sys2Proof.Machine

/-! ### Ring memory (R397 to R399) -/

/-- Key of a byte of the ring memory of a function, by its BAR4 offset. -/
def ringKey (fn off : Nat) : Nat := 2 ^ 56 + fn * 2 ^ 20 + off

/-- Entries of each ring of a function. -/
def ringSize (fn : Nat) : Nat := if fn = 0 then 4096 else 256

/-- BAR4 offsets of the completion ring and of the doorbell page. -/
def cqOffset (fn : Nat) : Nat := if fn = 0 then 0x4_0000 else 0x4000
def doorbellOffset (fn : Nat) : Nat := if fn = 0 then 0xF_F000 else 0xF000

/-- What a function's mailbox keeps. -/
def State.getMbx (s : State) (fn : Nat) : Mbx := Map.getD s.mbx fn Mbx.empty

/-- Change a function's mailbox. -/
def State.onMbx (s : State) (fn : Nat) (g : Mbx → Mbx) : State := { s with mbx := Map.set s.mbx fn (g (s.getMbx fn)) }

/-- The descriptor in a slot of a submission ring (R398). -/
def State.descAt (s : State) (fn slot : Nat) : Desc :=
  let w (k : Nat) : Word := BitVec.ofNat 64 (Memory.num s.mem (ringKey fn (slot * 64 + 8 * k)) 8)
  let w0 := (w 0).toNat
  { code := BitVec.ofNat 8 w0, part := BitVec.ofNat 4 (w0 / 2 ^ 8), clean := bitsOf w0 31 12 == 0, tag := BitVec.ofNat 32 (w0 / 2 ^ 32),
    p0 := w 1, p1 := w 2, p2 := w 3, p3 := w 4, p4 := w 5, p5 := w 6, p6 := w 7 }

/-- Whether a completion ring has room: it is full when tail + 1 = head. -/
def State.cqRoom (s : State) (fn : Nat) : Bool := (s.f (MBX_CQT.PTR fn) + 1) % ringSize fn != s.f (MBX_CQH.PTR fn)

/-- Firmware writes a completion at the tail, advances it and sends the vector (R399). -/
def cplWrite (fn : Nat) (c : Cpl) (s : State) : State :=
  let t := s.f (MBX_CQT.PTR fn)
  let ph := (s.getMbx fn).phase
  let s := s.onMem (fun m => Memory.puts m (ringKey fn (cqOffset fn + t * 32))
    (bytesLE 8 (c.w0 + b2n ph * 2 ^ 63) ++ bytesLE 8 c.tag ++ bytesLE 8 c.r0.toNat ++ bytesLE 8 c.r1.toNat))
  let t' := (t + 1) % ringSize fn
  let s := s.setF (MBX_CQT.PTR fn) t'
  let s := if t' = 0 then s.onMbx fn (fun x => { x with phase := !ph }) else s
  sendMsix fn (s.f (MBX_CTL.VEC fn)) s

/-- Whether firmware runs and takes descriptors of a function. -/
def State.mbxReady (s : State) (fn : Nat) : Bool := s.on (MBX_STAT.READY fn)

/-- Whether firmware runs (R438, R441, R454). -/
def State.firmOn (s : State) : Bool := s.sys.stage == 3 && !s.sys.warmSvc && !s.on ERR_STAT.SAFE

/-- The oldest waiting completion is written when firmware serves the ring and it has room (R399, R409). -/
def cplNext (fn : Nat) (s : State) : State :=
  match (s.getMbx fn).wait with
  | [] => s
  | c :: rest => if s.mbxReady fn && s.on (MBX_CTL.EN fn) && s.cqRoom fn then cplWrite fn c (s.onMbx fn (fun x => { x with wait := rest })) else s

/-- Waiting completions are written in finishing order while there is room (R399). -/
def cplFlush (fn : Nat) (s : State) : State :=
  let s := (List.range (s.getMbx fn).wait.length).foldl (fun s _ => cplNext fn s) s
  s.setF (MBX_STAT.CQWAIT fn) (b2n (s.mbxReady fn && !(s.getMbx fn).wait.isEmpty && !s.cqRoom fn))

/-- A command finishes: its completion joins those that wait, and what can be written is written. -/
def cplPut (fn status code detail : Nat) (dist : Bool) (tag : BitVec 32) (r0 r1 : Word) (s : State) : State :=
  let c : Cpl := { w0 := status % 256 + code % 256 * 2 ^ 8 + detail % 65536 * 2 ^ 16 + b2n dist * 2 ^ 32, tag := tag.toNat, r0 := r0, r1 := r1 }
  cplFlush fn (s.onMbx fn (fun x => { x with wait := x.wait ++ [c] }))

/-- Completion status values (R400). -/
def csOK : Nat := 0x00
def csBADCODE : Nat := 0x01
def csNOTPERMITTED : Nat := 0x02
def csBADPARAM : Nat := 0x03
def csSTATE : Nat := 0x04
def csPARTDEF : Nat := 0x05
def csCONFIG : Nat := 0x06
def csTIMEOUT : Nat := 0x07
def csHOSTMEM : Nat := 0x08
def csRESET : Nat := 0x09
def csNOTREADY : Nat := 0x0A
def csFLASH : Nat := 0x0B
def csNORESULT : Nat := 0x0C

/-! ### Order of execution (R5 to R7, R402) -/

/-- Module-wide commands, and those that name no partition (R6). -/
def codeModule (c : Nat) : Bool := c == 0x0C || c == 0x0D || c == 0x0F || c == 0x11
def codeNoPart (c : Nat) : Bool := c == 0x01 || c == 0x07 || c == 0x0E || c == 0x10

/-- Whether a function may not issue a command (R6). -/
def State.notPermitted (s : State) (fn : Nat) (d : Desc) : Bool :=
  fn != 0 && (codeModule d.code.toNat || d.code == 0x0E || (!codeNoPart d.code.toNat && s.vfPart fn != some d.part.toNat))

/-- What orders a command: 0 only its function, 1 its partition, 2 everything ahead of it in the ring of the physical function. -/
def State.jobKind (s : State) (j : Job) : Nat :=
  let c := j.d.code.toNat
  if c = 0 ∨ 0x12 ≤ c ∨ s.notPermitted j.fn j.d = true ∨ codeNoPart c = true then 0 else if codeModule c then 2 else 1

/-- Whether a command behind another has to wait for it. -/
def State.jobBlocks (s : State) (a b : Job) : Bool :=
  (a.fn == b.fn && (s.jobKind a == 2 || s.jobKind b == 2 || (s.jobKind a == 0 && s.jobKind b == 0))) ||
    (s.jobKind a == 1 && s.jobKind b == 1 && a.d.part == b.d.part)

/-- The job that a firmware command names: the first of its function with this descriptor, with its place. -/
def State.jobOf (s : State) (fn : Nat) (d : Desc) : Option (Nat × Job) := s.jobs.zipIdx.findSome? (fun x => if x.1.fn = fn ∧ x.1.d = d then some (x.2, x.1) else none)

/-- Whether the job at a place may execute. -/
def State.jobFree (s : State) (k : Nat) (j : Job) : Bool := j.started || (s.mbxReady j.fn && !(s.jobs.take k).any (fun a => s.jobBlocks a j))

/-! ### Taking descriptors (R398) -/

/-- A descriptor as a command that firmware takes now; `WAKEEN` bit 2 of its partition decides whether it wakes it (R445, R447). -/
def State.asJob (s : State) (fn : Nat) (d : Desc) : Job :=
  { fn := fn, d := d, started := false, wake := decide (d.part.toNat < 12) && bitOf (s.f (PWR_PART.WAKEEN d.part.toNat)) 2, note := 0, sets := [] }

/-- The head passes the slots whose descriptors have been taken. -/
def passTaken (fn : Nat) : Nat → State → State
  | 0, s => s
  | fuel + 1, s =>
    let h := s.f (MBX_SQH.PTR fn) % ringSize fn
    if (s.getMbx fn).taken.contains h then
      passTaken fn fuel ((s.onMbx fn (fun x => { x with taken := x.taken.filter (fun k => k != h) })).setF (MBX_SQH.PTR fn) ((h + 1) % ringSize fn))
    else s

/-- Firmware comes to a slot of a ring (R7, R398, R402): it takes the descriptor when the command may execute; `ahead` are the commands that wait ahead of it. -/
def takeSlot (fn slot : Nat) (ahead : List Job) (s : State) : List Job × State :=
  if (s.getMbx fn).taken.contains slot then (ahead, s)
  else
    let j := s.asJob fn (s.descAt fn slot)
    if (s.jobs ++ ahead).any (fun a => s.jobBlocks a j) then (ahead ++ [j], s)
    else (ahead, State.onMbx { s with jobs := s.jobs ++ [j] } fn (fun x => { x with taken := x.taken ++ [slot] }))

/-- Firmware takes every descriptor between head and tail whose command may execute now; the others wait in the ring, and the head stays at the first of them. -/
def takeDescs (fn : Nat) (s : State) : State :=
  if s.mbxReady fn && s.on (MBX_CTL.EN fn) then
    let n := ringSize fn
    let h := s.f (MBX_SQH.PTR fn) % n
    let count := (s.f (MBX_SQT.PTR fn) + n - h) % n
    passTaken fn count ((List.range count).foldl (fun x k => takeSlot fn ((h + k) % n) x.1 x.2) ([], s)).2
  else s

/-- What waits in the rings is looked at again, by function; which function comes first for a partition that has become free is open (DESIGN CHOICE, log entry 20). -/
def takeAll (s : State) : State := (List.range 13).foldl (fun s f => takeDescs f s) s

/-- A write of `MBX_SQT` or `MBX_CQH` (R409); a value at or above the ring size is ignored. -/
def ringPtrWrite (x : RF) (fn v : Nat) (s : State) : State :=
  if v % 4096 < ringSize fn then s.setF x (v % 4096) else s.setF (MBX_STAT.OVF fn) 1

/-- A write of `MBX_SQT`. -/
def sqtWrite (fn v : Nat) (s : State) : State := takeDescs fn (ringPtrWrite (MBX_SQT.PTR fn) fn v s)

/-- A write of `MBX_CQH`. -/
def cqhWrite (fn v : Nat) (s : State) : State := cplFlush fn (ringPtrWrite (MBX_CQH.PTR fn) fn v s)

/-- A write of `MBX_CTL` (R409): `RESET` acts while `EN`, as it stood before the write, is 0, and a reset ring starts a first pass. -/
def mbxCtlWrite (fn v : Nat) (s : State) : State :=
  let s := if bitOf v 30 && !s.on (MBX_CTL.EN fn) then
      ((((s.setF (MBX_SQT.PTR fn) 0).setF (MBX_SQH.PTR fn) 0).setF (MBX_CQH.PTR fn) 0).setF (MBX_CQT.PTR fn) 0).onMbx fn (fun x => { x with phase := true, taken := [] })
    else s
  takeDescs fn (cplFlush fn ((s.setF (MBX_CTL.EN fn) (b2n (bitOf v 31))).setF (MBX_CTL.VEC fn) (v % 2048)))

/-- `MAILBOX_SUBMIT` (R398): a host write of `MBX_SQT`. -/
def execMailboxSubmit (f : Fin 13) (tail : BitVec 32) (s : State) : Host.Outcome State Fault Refusal :=
  .next (if s.fnOpen f then sqtWrite f tail.toNat s else s)

/-- `MAILBOX_COMPLETION_HEAD` (R399): a host write of `MBX_CQH`. -/
def execMailboxCompletionHead (f : Fin 13) (head : BitVec 32) (s : State) : Host.Outcome State Fault Refusal :=
  .next (if s.fnOpen f then cqhWrite f head.toNat s else s)

/-- `MAILBOX_RESET` (R409): a write of `MBX_CTL` with `RESET`. -/
def execMailboxReset (f : Fin 13) (en : Bool) (vec : BitVec 11) (s : State) : Host.Outcome State Fault Refusal :=
  .next (if s.fnOpen f then mbxCtlWrite f (b2n en * 2 ^ 31 + 2 ^ 30 + vec.toNat) s else s)

/-! ### Executing commands -/

/-- Remove the job at a place. -/
def jobDrop (k : Nat) (s : State) : State := { s with jobs := s.jobs.eraseIdx k }

/-- A job has begun, or keeps a new note. -/
def jobNote (k n : Nat) (s : State) : State :=
  { s with jobs := s.jobs.zipIdx.map (fun x => if x.2 = k then { x.1 with started := true, note := n } else x.1) }

/-- A command notes the fields that it has set, with the values they took last. -/
def jobSets (k : Nat) (fs : List RF) (s : State) : State :=
  { s with jobs := s.jobs.zipIdx.map (fun x =>
      if x.2 = k then { x.1 with sets := x.1.sets.filter (fun y => !fs.contains y.1) ++ fs.map (fun f => (f, s.f f)) } else x.1) }

/-- Whether a field that the job at a place has set no longer holds the value it took (R8). -/
def State.jobDist (s : State) (k : Nat) : Bool :=
  match s.jobs[k]? with
  | some j => j.sets.any (fun x => s.f x.1 != x.2)
  | none => false

/-- A job completes, marked as disturbed when a field it has set holds another value (R8); commands that waited for it are taken. -/
def jobEnd (k : Nat) (j : Job) (status detail : Nat) (r0 r1 : Word) (s : State) : State :=
  takeAll (cplPut j.fn status j.d.code.toNat detail (s.jobDist k) j.d.tag r0 r1 (jobDrop k s))

/-- Parameters that a command does not name are zero (R401): the bits it names, by parameter. -/
def codeMask (c k : Nat) : Nat :=
  let all := 2 ^ 64 - 1
  match c, k with
  | 0x02, 0 => 0x3_1F0F_0F0F
  | 0x02, 6 => 2 ^ 48 - 1
  | 0x02, _ => all
  | 0x04, 0 => 1
  | 0x06, 0 => 3
  | 0x07, 0 => all
  | 0x07, 1 => all
  | 0x10, 0 => all
  | 0x10, 1 => all
  | 0x08, 0 => 0xF0F
  | 0x09, 0 => 1
  | 0x09, 1 => all
  | 0x0A, 0 => 0xBFFF
  | 0x0A, 1 => all
  | 0x0B, 3 => 2 ^ 22 - 1
  | 0x0B, k => if k ≤ 2 then all else 0
  | 0x0C, 0 => 0x3F
  | 0x0E, 0 => all
  | 0x0F, 0 => 1
  | 0x0F, 1 => all
  | 0x0F, 2 => all
  | _, _ => 0

/-- Whether a descriptor sets a zero bit (R398, R400). -/
def descZeroBit (d : Desc) : Bool :=
  !d.clean || ([d.p0, d.p1, d.p2, d.p3, d.p4, d.p5, d.p6].zipIdx.any (fun x => x.1 &&& ~~~BitVec.ofNat 64 (codeMask d.code.toNat x.2) != 0))

/-- Whether fatal hold lets a command execute (R452). -/
def codeInHold (c : Nat) : Bool := c == 0x01 || c == 0x07 || c == 0x10 || c == 0x11

/-- The status with which a command ends before it executes, if it does: not permitted, a zero bit or no such partition, fatal hold. -/
def State.early (s : State) (j : Job) : Option Nat :=
  let c := j.d.code.toNat
  if s.notPermitted j.fn j.d then some csNOTPERMITTED
  else if descZeroBit j.d || (!codeNoPart c && !codeModule c && decide (11 < j.d.part.toNat)) then some csBADPARAM
  else if s.on ERR_STAT.FATAL && !codeInHold c then some csNOTREADY
  else none

/-- A firmware command on the first executable job with its descriptor: fatal hold, which ends a job that has started too (R452), the checks that end it early, the wake of its partition (R445), then its own meaning, which
gets the place of the job and the job. -/
def firmware (code : Nat) (f : Nat) (d : Desc) (run : Nat → Job → State → State) (s : State) : State :=
  match s.jobOf f d with
  | none => s
  | some (k, j) =>
    if d.code.toNat ≠ code ∨ s.jobFree k j = false ∨ s.firmOn = false then s
    else if s.on ERR_STAT.FATAL = true ∧ codeInHold code = false ∧ j.started = true then jobEnd k j csNOTREADY 0 0 0 s
    else if j.started then run k j s
    else
      match s.early j with
      | some st => jobEnd k j st 0 0 0 s
      | none =>
        let n := d.part.toNat
        if s.jobKind j = 1 ∧ code ≠ 0x06 ∧ s.enabled n = true ∧ s.f (PWR_PART.CUR n) ≠ 0 ∧ j.wake = true then requestWake n s
        else run k j s

/-- `BAD_CODE` (R5): a descriptor with a reserved code, which fatal hold ends like every other command (R452). -/
def execBadCode (f : Fin 13) (d : Desc) (s : State) : Host.Outcome State Fault Refusal :=
  match s.jobOf f d with
  | none => .next s
  | some (k, j) =>
    if (d.code = 0 ∨ 0x12 ≤ d.code.toNat) ∧ s.jobFree k j = true ∧ s.firmOn = true then 
      .next (jobEnd k j (if s.on ERR_STAT.FATAL then csNOTREADY else csBADCODE) 0 0 0 s)
    else .next s

/-! ### Resets (R407) -/

/-- Warm reset ends the executing commands with RESET; `WARM_RESET` itself goes on (R402). -/
def mbxWarm (s : State) : State :=
  let ended := s.jobs.filter (fun j => j.started && j.d.code != 0x11)
  let s := { s with jobs := s.jobs.filter (fun j => !(j.started && j.d.code != 0x11)) }
  let s := (List.range 13).foldl (fun s f => s.setF (MBX_STAT.READY f) 0) s
  ended.foldl (fun s j => cplPut j.fn csRESET j.d.code.toNat 0 false j.d.tag 0 0 s) s

/-- A fundamental reset of the link clears the rings; queued commands are discarded, executing ones finish without a completion. -/
def mbxClear (s : State) : State :=
  let s := { s with jobs := [], mbx := [] }
  let s := s.onMem (fun m => Memory.wipe m (ringKey 0 0) (ringKey 13 0))
  { s with regs := s.regs.filter (fun x => x.1 < 0x2000_0000 || 0x3000_0000 ≤ x.1) }

/-- Firmware serves the mailboxes again: waiting completions are written and descriptors taken. -/
def mbxServe (s : State) : State := (List.range 13).foldl (fun s f => takeDescs f (cplFlush f (s.setF (MBX_STAT.READY f) 1))) s

end Sys2Proof.Machine
end

