-- ==== Sys2Proof/Machine/Repair.lean ====
section
/-!
DEFINITION. Machine/Repair.lean: the health states of the monitors (R461), partition reset (R432), the start of a partition, and the steps of spare-column repair (R463 to R466).
-/
namespace Sys2Proof.Machine

/-! ### Health (R461) -/

/-- The health register of a monitor. -/
def monReg (m : Monitor) : Nat :=
  match m with
  | .isl i => HLTH_ISL i
  | .quad q => HLTH_LQ q
  | .rail k => HLTH_RAIL k

/-- The `SRC` of a monitor's records (R457), and the partition they name. -/
def monSrc (m : Monitor) : Nat :=
  match m with
  | .isl i => srcOf 0 i
  | .quad q => srcOf 0 (188 + q)
  | .rail k => srcOf 9 k

def State.monPart (s : State) (m : Monitor) : Nat :=
  match m with
  | .isl i => s.islPart i
  | .quad q => s.owner (q / 4)
  | .rail _ => 15

/-- Fields of a health register. -/
def hSTATE (k : Nat) : RF := ⟨k, 31, 30⟩
def hCONF (k : Nat) : RF := ⟨k, 29, 28⟩
def hCAUSE (k : Nat) : RF := ⟨k, 27, 24⟩
def hHOURS (k : Nat) : RF := ⟨k, 23, 0⟩

/-- The state that an estimate stands for (R461). -/
def hoursState (h : Nat) : Nat := if 10000 < h then 0 else if 1000 ≤ h then 1 else if 24 ≤ h then 2 else 3

/-- A monitor enters a state; WORN and FAILING are logged on entry. -/
def hlthEnter (m : Monitor) (st : Nat) (s : State) : State :=
  let k := monReg m
  if s.f (hSTATE k) = st then s
  else
    let s := s.setF (hSTATE k) st
    if st = 2 then logErr 0x0B01 (s.monPart m) (monSrc m) (s.rd k) 0 s
    else if st = 3 then logErr 0x0B02 (s.monPart m) (monSrc m) (s.rd k) 0 s
    else s

/-- The number of a monitor among all. -/
def monIx (m : Monitor) : Nat :=
  match m with
  | .isl i => i
  | .quad q => 256 + q
  | .rail k => 512 + k

/-- The times for which a monitor's estimate has stood for state `b` or a better one, by monitor and state, forgotten for the states of `sel`. -/
def betterDrop (m : Monitor) (sel : Nat → Bool) (s : State) : State :=
  { s with sys := { s.sys with better := (List.range 4).foldl (fun b st => if sel st then Map.del b (monIx m * 4 + st) else b) s.sys.better } }

/-- The estimate stands for state `st`, `elapsed` seconds after the one before: the times of the better states below `old` that it supports go on, from 0 at the first such
estimate, and those that it does not support end (R461). -/
def betterTimes (m : Monitor) (old st elapsed : Nat) (s : State) : State :=
  let key (b : Nat) : Nat := monIx m * 4 + b
  let add (t : Map Nat) (b : Nat) : Map Nat :=
    if b < st ∨ old ≤ b then Map.del t (key b)
    else Map.set t (key b) (match Map.find s.sys.better (key b) with
      | some x => x + elapsed
      | none => 0)
  { s with sys := { s.sys with better := (List.range 4).foldl add s.sys.better } }

/-- The best state for which the estimate has stood for 24 h. -/
def State.betterDue (s : State) (m : Monitor) : Option Nat := (List.range 3).find? (fun b => decide (86400 ≤ Map.getD s.sys.better (monIx m * 4 + b) 0))

/-- A new estimate (R461): a worse state at once, a better one after 24 h at estimates that support it, and none better than FAILING, whose estimate does not rise (log
entry 45). -/
def hlthEstimate (m : Monitor) (hours conf cause elapsed : Nat) (s : State) : State :=
  let k := monReg m
  let old := s.f (hSTATE k)
  let h := if old = 3 then min hours (s.f (hHOURS k)) else hours
  let s := ((s.setF (hHOURS k) h).setF (hCONF k) conf).setF (hCAUSE k) cause
  let s := { s with sys := { s.sys with healthAt := s.rd RING_TIME } }
  let st := hoursState h
  if old = 3 then s
  else if old ≤ st then hlthEnter m st (betterDrop m (fun _ => true) s)
  else
    let s := betterTimes m old st elapsed s
    match s.betterDue m with
    | some b => hlthEnter m b (betterDrop m (fun x => decide (b ≤ x)) s)
    | none => s

/-- A domain has a record of code 0x0203 or 0x0204: an island is FAILING from then on, whoever owns it (R451, R461). -/
def hlthClock (d : Nat) (s : State) : State :=
  if h : d < 156 then hlthEnter (.isl ⟨d, h⟩) 3 ((s.setF (hHOURS (HLTH_ISL d)) 0).setF (hCAUSE (HLTH_ISL d)) 8) else s

/-! ### Parts of a partition -/

/-- The translations of a partition's address space IDs are removed, pinned ones included (R278). -/
def tlbDrop (n : Nat) (s : State) : State :=
  let keep := s.tlb.filter (fun e => e.asid / 4096 != n)
  State.setF { s with tlb := keep } MMU_STAT.PINUSED (keep.filter (fun e => e.pinned)).length

/-- The sequencers of a partition, as domains (R457's numbers), that the service level lets leave reset. -/
def State.seqDomains (s : State) (n : Nat) : List Nat := ((s.seqsOf n).filter s.seqOpen).map (fun q => 156 + q)

/-- Domains of a partition that can leave reset: its in-service islands, and its sequencers. -/
def State.partDomains (s : State) (n : Nat) : List Nat := (s.islandsOf n).filter (fun i => s.rowOpen (rowOf i)) ++ s.seqDomains n

/-- The partition of a domain, 15 for the module. -/
def State.domainPart (s : State) (d : Nat) : Nat :=
  if d < 156 then s.islPart d
  else if d < 180 then (s.seqPart (d - 156)).getD 15
  else if 188 ≤ d ∧ d < 236 then s.owner ((d - 188) / 4)
  else 15

/-- Whether an island or a sequencer of a partition stands in reset (R432). -/
def State.inReset (s : State) (n : Nat) : Bool := (s.islandsOf n).any (fun i => (s.getIsl i).inReset) || (s.seqsOf n).any (fun q => (s.getSeq q).st == 0)

/-- `RST_STAT.PRST` of a partition (R432): from its reset until every island and sequencer of it has left reset, and while its reset waits for a repair (R465). -/
def State.prst (s : State) (n : Nat) : Bool :=
  (bitOf s.sys.prst n && s.inReset n) || (match s.sys.repair with
    | some r => r.part == n && r.reset
    | none => false)

/-- The reset of a partition has ended when all its domains have left it. -/
def prstSettle (n : Nat) (s : State) : State := if s.inReset n then s else { s with sys := { s.sys with prst := s.sys.prst &&& (2 ^ 12 - 1 - 2 ^ n % 2 ^ 12) } }

/-- A change of a partition's rung is abandoned, and a partition below Active asks to be admitted (R441, R447). -/
def abandonRung (n : Nat) (s : State) : State :=
  let s := { s with sys := { s.sys with
    entering := Map.del s.sys.entering n, nextRung := Map.del s.sys.nextRung n, wakes := s.sys.wakes.filter (fun w => w.part != n) } }
  requestWake n ((s.setF (PWR_PART.RUNG n) 0).setF (PWR_PART.BUSY n) 0)

/-- The outcome of a partition reset for `STATE` (R432). -/
def resetState (st : Nat) : Nat := if st = stSTOPPED ∨ st = stRUNNING ∨ st = stREPAIRING then stSTOPPED else st

/-- A partition reset takes effect (R432).  While a repair goes on, the partition stays REPAIRING and its band held. -/
def partResetNow (n : Nat) (s : State) : State :=
  let s := if s.loadNames n then cfgFail 0x14 0 s else s
  let st := s.f (GLB_PART_CFG.STATE n)
  let repairing := s.sys.repair.any (fun r => r.part == n)
  let st' := if repairing then st else resetState st
  let s := captureDrop n (holdPins (fun k => s.pinPart k == n) (abortStreams n s))
  let s := s.setF (GLB_PART_CFG.STATE n) st'
  let s := (s.seqsOf n).foldl (fun s q => seqHold q s) ((s.islandsOf n).foldl (fun s i => islReset i s) s)
  let s := (s.lanesOf n).foldl (fun s l => laneRest l s) (tlbDrop n s)
  let s := abandonRung n { s with aev := s.aev.filter (fun e => e.part != n), parts := Map.del s.parts n, sys := { s.sys with trigEv := s.sys.trigEv &&& (2 ^ 12 - 1 - 2 ^ n) } }
  let s := { s with sys := { s.sys with prst := s.sys.prst ||| 2 ^ n, rel := s.sys.rel.filter (fun d => !(decide (d < 156) && s.islPart d == n)) } }
  requestRelease (if st' = stSTOPPED then s.partDomains n else s.seqDomains n) s

/-- A write of `RST_PART` for an enabled partition (R432); steps 1 to 6 of a repair hold the reset (R465). -/
def partReset (n : Nat) (s : State) : State :=
  if !s.enabled n then s
  else
    match s.sys.repair with
    | some r =>
      if r.part = n ∧ r.step ≤ 6 then { s with sys := { s.sys with repair := some { r with reset := true } } }
      else if r.part = n then partResetNow n { s with sys := { s.sys with repair := some { r with ran := false } } }
      else partResetNow n s
    | none => partResetNow n s

/-- `PARTITION_RESET` (R429, R432): a write of `RST_PART` by the physical function. -/
def execPartitionReset (bits : BitVec 12) (s : State) : Host.Outcome State Fault Refusal :=
  pfWrite (fun s => (onesOf 12 bits.toNat).foldl (fun s n => partReset n s) s) s

/-- Firmware starts a partition (R401): sequencers in DFAULT are reset, NEWRUN is issued unless the run continues, and the primary runs. -/
def startPart (p : Nat) (newrun : Bool) (s : State) : State :=
  let s := (s.seqsOf p).foldl (fun s q => if (s.getSeq q).st = 4 then seqReset q s else s) s
  let s := if newrun then feNewRun p s else s
  match s.primary p with
  | some q => seqRun q true s
  | none => s

/-- A partition whose sequencers all stand at a safe point is STOPPED. -/
def stopSeen (p : Nat) (s : State) : State :=
  if s.f (GLB_PART_CFG.STATE p) = stRUNNING ∧ s.allSafe p = true then s.setF (GLB_PART_CFG.STATE p) stSTOPPED else s

/-- The requests that bring the sequencers of a partition to a safe point; running bursts end as aborts with cause 0 (R401, R464). -/
def stopRequest (p : Nat) (s : State) : State := stopBursts p ((s.seqsOf p).foldl (fun s q => seqStop q s) s)

/-- Firmware stops a partition (R401): its sequencers halt at a safe point. -/
def stopPart (p : Nat) (s : State) : State := stopSeen p (stopRequest p s)

/-- Whether a request to stop waits for a sequencer of a partition to reach its safe point; one that a direct write has set running again is left so (R8). -/
def State.stopsDue (s : State) (p : Nat) : Bool := (s.seqsOf p).any (fun q => (s.getSeq q).mcheck == some 1)

/-- The fields that a stop sets. -/
def State.runFields (s : State) (p : Nat) : List RF := (s.seqsOf p).map SEQ_CTL.RUN

/-! ### Page tables (R35, R271 to R273, R401) -/

/-- Address of the level-0 entry for a virtual address, when the upper tables exist. -/
def leafSlot (va : Nat) : (level : Nat) → (base : Nat) → State → Option Nat × State
  | 0, base, s => (some (base + va / 2 ^ 12 % 512 * 8), s)
  | level + 1, base, s =>
    match readPte (base + va / 2 ^ (12 + 9 * (level + 1)) % 512 * 8) 15 (srcOf 0 180) s with
    | (none, s) => (none, s)
    | (some w, s) => if pteV w && !pteL w then leafSlot va level (ptePpn w * 4096) s else (none, s)

/-- Rights of an island-memory leaf: V, R, W and PIN. -/
def leafRights : Nat := 1 + 2 + 4 + 32

/-- Write the level-0 leaf of one page; false when an upper table is missing. -/
def writeLeaf (ptbase va pa : Nat) (s : State) : Bool × State :=
  match leafSlot va 3 ptbase s with
  | (none, s) => (false, s)
  | (some a, s) => (true, (busWrite a 8 (pa / 4096 * 4096 + leafRights) 0 false false false s).2)

/-- The leaves of the island memories of a partition, by logical position (R35, R401): 64 pages for each island; false when one is missing. -/
def writeLeaves (n ptbase va : Nat) (s : State) : Bool × State :=
  (List.range (s.f (GLB_PART_CFG.NROWS n) * 12 * 64)).foldl (fun x k =>
    let i := x.2.phys (x.2.firstRow n + k / 768) (k / 64 % 12)
    let (ok, s) := writeLeaf ptbase (va + k * 4096) (islMemBase i + k % 64 * 4096) x.2
    (x.1 && ok, s)) (true, s)

/-! ### Spare-column repair (R464) -/

/-- Change the record of the repair. -/
def State.onRepair (s : State) (g : Repair → Repair) : State := { s with sys := { s.sys with repair := s.sys.repair.map g } }

/-- Copy the memory of an island to another (R464 step 5): uncorrectable words arrive poisoned, single-bit errors corrected. -/
def islCopy (a b : Nat) (s : State) : State :=
  let x := islMemBase a
  let y := islMemBase b
  s.onMem (fun m =>
    let m := Memory.copy (Memory.copy (Memory.copy m x 0x4_0000 y) (tagKey x) 0x1_0000 (tagKey y)) (eccKey x) 0x8000 (eccKey y)
    m.filter (fun c => !(decide (eccKey y ≤ c.1) && decide (c.1 < eccKey y + 0x8000) && c.2 == 1)))

/-- The spare pointer of a row moves (R464 step 6): the stored spare map is written, the retired island is held and its row has no spare left. -/
def movePointer (row c : Nat) (s : State) : State :=
  let s := (s.setF (GLB_ROW_MAP.SPARE_PTR row) c).setF (GLB_ROW_MAP.SPARE_USED row) 1
  islHold (row * 13 + c) { s with sys := { s.sys with spares := Map.set s.sys.spares row c } }

/-- Step 7: the island-memory leaves that firmware wrote are rebuilt, and the partition's translations are invalidated. -/
def repairLeaves (n : Nat) (s : State) : State :=
  tlbDrop n (match Map.find s.sys.leaves n with
    | some (pt, va) => (writeLeaves n pt va s).2
    | none => s)

/-- One step of R464, of the steps 1 to 8; the copy of one memory is one step of step 5. -/
def repairStep (s : State) : State :=
  match s.sys.repair with
  | none => s
  | some r =>
    let n := r.part
    let go (g : State → State) : State := (g s).onRepair (fun r => { r with step := r.step + 1 })
    match r.step with
    | 1 =>
      let s := if s.f (GLB_PART_CFG.STATE n) = stREPAIRING then s else stopRequest n (s.setF (GLB_PART_CFG.STATE n) stREPAIRING)
      if s.stopsDue n then s else s.onRepair (fun r => { r with step := 2 })
    | 2 => go (commit n)
    | 3 => go (abortStreams n)
    | 4 => go (fun s =>
        let s := captureDrop n (holdPins (fun k => s.pinPart k == n) s)
        let s := (s.islandsOf n).foldl (fun s i => islHold i s) ((s.seqsOf n).foldl (fun s q => seqReset q s) s)
        clkStart (r.row * 13 + 12) s)
    | 5 =>
      let s := islCopy (r.row * 13 + r.p) (r.row * 13 + r.p + 1) s
      s.onRepair (fun r => if r.p ≤ r.col then { r with step := 6 } else { r with p := r.p - 1 })
    | 6 =>
      let s := go (movePointer r.row r.col)
      if r.reset then partResetNow n (s.onRepair (fun r => { r with reset := false, ran := false })) else s
    | 7 => go (repairLeaves n)
    | 8 => if s.on CFG_STAT.BUSY then s else go (cfgBegin 4 0 n false 0)
    | _ => s

/-- The steps 5 to 7 that a warm reset interrupted (R465). -/
def repairResume (s : State) : State :=
  (List.range 15).foldl (fun s _ => if s.sys.repair.any (fun r => decide (5 ≤ r.step) && decide (r.step ≤ 7)) then repairStep s else s) s

end Sys2Proof.Machine
end

