-- ==== Sys2Proof/Machine/Reset.lean ====
section
/-!
DEFINITION. Machine/Reset.lean: cold and warm reset and their sources, the release of domains, and the trim load (R429 to R436, R441, R477).
-/
namespace Sys2Proof.Machine

/-! ### Cold reset -/

/-- Keys of the memories that a cold reset clears: the module's own, with their tags and ECC conditions, and the mailbox rings; host, CXL and flash memory stay. -/
def coldMemory (m : Memory) : Memory := Memory.wipe (Memory.wipe (Memory.wipe m 0 hostBase) (2 ^ 52) (2 ^ 53 + 2 ^ 48)) (ringKey 0 0) (ringKey 13 0)

/-- A cold reset (R431): everything starts again from the eFuse; the always-on domain is up while VIN is valid.  `src` is what `COLDSRC` records; a warm
source before Early Service records none (R441).  A thermal trip ends only with a junction below 90 °C (R485). -/
def coldReset (src : Option Nat) (cool : Bool) (s : State) : State :=
  let old := s.f RST_CAUSE.COLDSRC
  let t : State := { State.reset with
    pending := s.pending, mem := coldMemory s.mem, out := s.out, free := s.free,
    cfg := { Cfg.idle with csLow := s.cfg.csLow, cspMode := s.cfg.cspMode, key := s.cfg.key + 1 },
    sys := { Sys.off with
      vin := s.sys.vin, coldLow := s.sys.coldLow, warmLow := s.sys.warmLow, perstLow := s.sys.perstLow, stage := if s.sys.vin then 1 else 0,
      trip := s.sys.trip && !cool, spares := s.sys.spares, ir := s.sys.ir, bsr := s.sys.bsr, extest := s.sys.extest, challenge := s.sys.challenge } }
  t.setF RST_CAUSE.COLDSRC (src.getD old)

/-- `POWER_ON` (R437, R476): VIN becomes valid and the always-on domain starts; a brownout stays recorded (R477). -/
def execPowerOn (cool : Bool) (s : State) : Host.Outcome State Fault Refusal :=
  if s.sys.vin then .next s
  else .next (coldReset (if s.f RST_CAUSE.COLDSRC = 2 then none else some 1) cool { s with sys := { s.sys with vin := true } })

/-- `BROWNOUT` (R477): VIN below its threshold, `PWR_EN` low or the input current too high. -/
def execBrownout (cool : Bool) (s : State) : Host.Outcome State Fault Refusal :=
  if s.sys.vin then .next (coldReset (some 2) cool { s with sys := { s.sys with vin := false } }) else .next s

/-- The trim loader starts again when a reset source is released (R436). -/
def trimAgain (s : State) : State := if s.sys.stage = 1 ∧ s.f RST_STAT.SVC ≠ 3 then { s with sys := { s.sys with trimFails := 0 } } else s

/-- `COLD_RST_N` (R430): the pin falls or rises. -/
def execColdRstN (low cool : Bool) (s : State) : Host.Outcome State Fault Refusal :=
  let was := s.sys.coldLow
  let s := { s with sys := { s.sys with coldLow := low } }
  if low && !was && s.sys.vin then .next (coldReset (some 3) cool s) else if !low && was then .next (trimAgain s) else .next s

/-! ### Warm reset (R431, R441) -/

/-- A warm reset ends the running load (R370, R384): what it wrote stays, and a full load past its header owes a flash sequence. -/
def loadWarm (s : State) : State :=
  if s.on CFG_STAT.BUSY then
    let due := s.cfg.mode == 2 && (decide (1 < s.f CFG_STAT.PHASE) || s.cfg.golden || s.cfg.boot != 0)
    let repair := s.sys.repair.any (fun r => s.cfg.src == 4 && r.part == s.cfg.part && decide (5 ≤ r.step))
    let s := if s.cfg.golden then s.setF CFG_ERR.FBKERR 1 else setCfgErr 0x14 0 s
    let s := if repair then s.setF (CFG_RESVAL.VALID.bit s.cfg.part) 1 else s
    ({ s with sys := { s.sys with flashDue := due } } : State).onCfg Cfg.clear
  else s

/-- A repair meets a warm reset (R465): before its copy has begun it is abandoned, later it is completed after release. -/
def repairWarm (s : State) : State :=
  match s.sys.repair with
  | none => s
  | some r =>
    if r.step ≤ 4 then { s with sys := { s.sys with repair := none } }
    else { s with sys := { s.sys with repair := some { r with reset := false, ran := false, warm := true, step := min r.step 8 } } }

/-- Domains that a warm reset reaches (R431): service cores, fail engine, configuration controller, DMA complex and the sequencers of the present service level. -/
def State.warmDomains (s : State) : List Nat :=
  (List.range 4).map (fun k => 180 + k) ++ (List.range 4).map (fun k => 184 + k) ++ [241, 243] ++
    (List.range (if s.f RST_STAT.SVC = 2 then 24 else 4)).map (fun k => 156 + k)

/-- The effect of a warm reset on the state of a running module (R431). -/
def warmState (src : Nat) (s : State) : State :=
  let held := s.sys.repair.any (fun r => decide (5 ≤ r.step))
  let rp := match s.sys.repair with
    | some r => r.part
    | none => 15
  let s := holdPins (fun k => s.pinPart k < 12) (mbxWarm s)
  let s := repairWarm (loadWarm s)
  let s := (List.range 192).foldl (fun s l => laneRest l s) (feWarm s)
  let s := { s with
    isl := [], seqs := (List.range 24).map (fun q => (q, Seq.reset 0 (s.f (SEQ_BOOT.ADDR q) * 4))), msps := [], dmas := [], tlb := [], parts := [], aev := [],
    handling := [], regs := s.regs.map (fun r => (r.1, warmWord r.1 r.2)) }
  let s := (List.range 156).foldl (fun s i => clkStop i s) s
  let s := if held then s.setF (GLB_PART_CFG.STATE rp) stREPAIRING else s
  let s := { s with sys := { s.sys with
    entering := [], nextRung := [], wakes := [], trigEv := 0, wakeOld := [], holds := [], fault := 0, alert := false, reloads := [], warmSvc := true, rel := [], late := [] } }
  let s := s.enabledParts.foldl (fun s n => abandonRung n s) s
  let s := (((s.setF CLK_STAB1.SVC 0).setF CLK_STAB1.FE 0).setF CLK_STAB1.CFG 0).setF CLK_STAB1.DMA 0
  let s := requestRelease s.warmDomains (s.setF CLK_STAB0.SEQ 0)
  s.enabledParts.foldl (fun s n => noteFails n s) ((s.setF RST_CAUSE.WARMSRC src).bump RST_CAUSE.WARMCNT)

/-- A warm reset by a source (R429, R441): it does not leave trim fault (R436), and before Early Service acts as a cold reset from the trim load onward. -/
def warmReset (src : Nat) (s : State) : State :=
  if s.sys.stage = 0 ∨ s.sys.trip = true ∨ s.f RST_STAT.SVC = 3 then s
  else if s.f RST_STAT.SVC = 0 then coldReset none false s
  else warmState src s

/-- `WARM_RST_N` (R430): the pin falls or rises. -/
def execWarmRstN (low : Bool) (s : State) : Host.Outcome State Fault Refusal :=
  let was := s.sys.warmLow
  let s := { s with sys := { s.sys with warmLow := low } }
  if low && !was && !s.sys.coldLow then .next (warmReset 1 s) else if !low && was then .next (trimAgain s) else .next s

/-! ### `RST_CTL` (R429) -/

/-- A write of `RST_CTL` by the physical function: a key that does not match the bit is ignored and logged. -/
def rstCtlWrite (v : Nat) (s : State) : State :=
  match bitOf v 31, bitOf v 30, v % 65536 with
  | true, false, 0x3C96 => warmReset 3 s
  | false, true, 0x5A17 => coldReset (some 4) false s
  | false, false, _ => s
  | _, _, _ => logErr 0x0A03 15 (srcOf 7 1) (BitVec.ofNat 64 v) 0 s

/-- `RST_COLD` (R429): `COLD` with its key. -/
def execRstCold (s : State) : Host.Outcome State Fault Refusal := pfWrite (rstCtlWrite (2 ^ 30 + 0x5A17)) s

/-- `RST_WARM` (R429): `WARM` with its key. -/
def execRstWarm (s : State) : Host.Outcome State Fault Refusal := pfWrite (rstCtlWrite (2 ^ 31 + 0x3C96)) s

/-! ### Release (R433) -/

/-- Firmware is back after a warm reset (R441): the mailbox is served, an interrupted repair is completed, and partitions with a valid slot are reloaded (R384). -/
def firmwareBack (s : State) : State :=
  let s := mbxServe { s with sys := { s.sys with warmSvc := false } }
  let s := repairResume s
  let rp := match s.sys.repair with
    | some r => if r.warm then [r.part] else []
    | none => []
  let rest := s.enabledParts.filter (fun n => bitOf (s.f CFG_RESVAL.VALID) n && !rp.contains n)
  let s := { s with sys := { s.sys with reloads := if s.slotOn then rp ++ rest else rp } }
  if s.sys.flashDue then cfgBegin 2 2 0 false 2 { s with sys := { s.sys with flashDue := false } } else nextReload s

/-- A domain leaves reset at an edge of its stable clock. -/
def releaseDomain (d : Nat) (s : State) : State :=
  let s := dropRelease d { s with sys := { s.sys with pgood := true } }
  if d < 156 then
    (let st := s.f (GLB_PART_CFG.STATE (s.islPart d))
     if s.enabled (s.islPart d) ∧ (st = stSTOPPED ∨ st = stRUNNING) then islRelease d s else s)
  else if d < 180 then resetCore (d - 156) (s.setF (CLK_STAB0.SEQ.bit (d - 156)) 1)
  else if d < 184 then
    (let s := s.setF (CLK_STAB1.SVC.bit (d - 180)) (b2n (s.rungRuns d))
     if d = 180 ∧ s.sys.warmSvc = true then firmwareBack s else s)
  else if d < 188 then s.setF (CLK_STAB1.FE.bit (d - 184)) (b2n (s.rungRuns d))
  else if d < 236 then s
  else
    match d with
    | 236 => s.setF CLK_STAB1.HL 1
    | 237 => s.setF (CLK_STAB1.CXL.bit 0) 1
    | 238 => s.setF (CLK_STAB1.CXL.bit 1) 1
    | 239 => s.setF (CLK_STAB1.RING.bit 0) 1
    | 240 => s.setF (CLK_STAB1.RING.bit 1) 1
    | 241 => s.setF CLK_STAB1.CFG 1
    | 243 => s.setF CLK_STAB1.DMA 1
    | _ => s

/-- The pins of a partition that a partition reset held follow their sources again when its last domain has left reset. -/
def pinsAfter (n : Nat) (s : State) : State :=
  let st := s.f (GLB_PART_CFG.STATE n)
  if n < 12 ∧ s.sys.rel.any (fun d => d < 180 && s.domainPart d == n) = false ∧ (st = stSTOPPED ∨ st = stRUNNING) then
    { s with sys := { s.sys with pins := s.sys.pins.filter (fun x => s.pinPart x.1 != n) } }
  else s

/-- Whether a pin that is low holds a reset (R430); `PERST_N` does so once the host link has trained. -/
def State.pinHolds (s : State) : Bool := s.sys.coldLow || s.sys.warmLow || (s.sys.perstLow && s.sys.trained)

/-- `RESET_RELEASE` (R433): a domain whose release has been requested leaves reset at an edge of its stable clock, which a partition on a rung does not have (R442, R447);
a pin that is low holds its reset. -/
def execResetRelease (d : Fin 244) (s : State) : Host.Outcome State Fault Refusal :=
  let n := s.domainPart d
  if s.sys.rel.contains d.val ∧ s.pinHolds = false ∧ s.partDown n = false then .next (pinsAfter n (prstSettle n (releaseDomain d s)))
  else .next s

/-- `DOMAIN_RESET_TIMEOUT` (R433): a domain is still in reset 1 ms after the request, logged once for the wait (R499); no pin requests its reset. -/
def execDomainResetTimeout (d : Fin 244) (s : State) : Host.Outcome State Fault Refusal :=
  .next (if s.sys.rel.contains d.val ∧ s.sys.late.contains d.val = false ∧ s.pinHolds = false then
      hlthClock d (logErr 0x0204 (s.domainPart d) (srcOf 0 d) 0 0 { s with sys := { s.sys with late := d.val :: s.sys.late } })
    else s)

/-! ### Trim load (R436) -/

/-- The trim values enter the registers that show them (R2, R18, R136, R387, R473). -/
def trimValues (s : State) : State :=
  let s := s.setF GLB_REVISION.VARIANT (if Config.variantAE then 2 else 1)
  let s := (s.setF CFG_POLICY.SIGPROG Config.sigProg.toNat).setF CFG_POLICY.SIGREV Config.sigRev.toNat
  let s := (s.setF CFG_POLICY.AESPROG Config.aesProg.toNat).setF CFG_POLICY.AESREV Config.aesRev.toNat
  let s := s.setF HLTH_DBGSTAT.LVL Config.debugLevel.toNat
  let s := (List.range 156).foldl (fun s i => s.setF (ISL_MEM_RED.USED i) (Config.memRed i).toNat) s
  s.sys.spares.foldl (fun s x => (s.setF (GLB_ROW_MAP.SPARE_PTR x.1) x.2).setF (GLB_ROW_MAP.SPARE_USED x.1) (b2n (decide (x.2 < 12)))) s

/-- Domains whose release follows the trim load: all but the islands, the always-on domain and the sequencers that wait for Full Service. -/
def startDomains : List Nat := (List.range 4).map (fun k => 156 + k) ++ (List.range 62).map (fun k => 180 + k) ++ [243]

/-- `TRIM_LOAD` (R436): one attempt, at the next eFuse copy, whose CRC is right or not; `CSP_MODE` is sampled when the load completes (R376), `MOD_ID`
when it starts (R496). -/
def execTrimLoad (ok : Bool) (cspMode modId : BitVec 2) (s : State) : Host.Outcome State Fault Refusal :=
  if s.sys.stage ≠ 1 ∨ s.sys.coldLow = true ∨ s.sys.warmLow = true ∨ s.sys.trip = true ∨ s.f RST_STAT.SVC = 3 then .next s
  else
    let s := if s.sys.trimFails = 0 then { s with sys := { s.sys with modId := modId.toNat } } else s
    if ok then
      let s := trimValues ((s.setF RST_STAT.TRIMCOPY s.sys.trimFails).setF RST_STAT.TRIMFAILS s.sys.trimFails)
      .next (requestRelease startDomains ({ s with sys := { s.sys with stage := 2 }, cfg := { s.cfg with cspBoot := cspMode.toNat } }))
    else if s.sys.trimFails < 2 then .next { s with sys := { s.sys with trimFails := s.sys.trimFails + 1 } }
    else .next (State.setF { s with sys := { s.sys with trimFails := 3, fault := 0x31, alert := true } } RST_STAT.SVC 3)

end Sys2Proof.Machine
end

