-- ==== Sys2Proof/Machine/Startup.lean ====
section
/-!
DEFINITION. Machine/Startup.lean: firmware from its load to Full Service (R437 to R440), its checks of images in flash, and the commit of CXL decoders (R404).
-/
namespace Sys2Proof.Machine

/-! ### Checks of an image (R360, R361, R368, R369, R438) -/

/-- Whether the records of an image pass the checks of R369 that do not depend on a band: CRC, format and place. -/
def recordsOk (h : List Byte) : (n : Nat) → List Nat → List Byte → Bool
  | 0, _, _ => true
  | n + 1, seen, bs =>
    let r := bs.take 136
    let a := hnum r 0 4
    hnum r 132 4 == crc32 (r.take 132) && a / 65536 == 0 && !bitOf a 7 && !seen.contains a && decide (a / 4096 % 16 < hRows h) && decide (a / 256 % 16 ≤ 11) &&
      recordsOk h n (a :: seen) (bs.drop 136)

/-- Whether firmware accepts the header, the tag and the signature of an image (R360, R361, R368, R377); an array image for flash is a full one. -/
def State.imageOk (s : State) (fw : Bool) (bs : List Byte) : Bool :=
  let h := bs.take 256
  let ct := bs.drop 256
  hnum h 0 4 == 0x485A_4346 && hcrcOk h && versionOk h &&
    hnum h 0x008 4 == 0x4C59_7120 && hnum h 0x00C 1 == 7 && decide (hnum h 0x00D 1 ≤ s.f GLB_REVISION.REV) &&
    hFw h == fw && (fw || (hFull h && hRows h == 12)) && hTotal h == hLength h && decide (hFrames h ≤ hRows h * 12 * 128) && bs.length == hTotal h &&
    s.policyOk 0 h && (!hEnc h || hTag h == imageTag (hKeys h / 16 % 4) (hIv h) (h.take 0x40) ct) &&
    (!hSigned h || sigOk (hKeys h % 4) (h.take 0x80 ++ ct) ((h.drop 0x80).take 96))

/-- Whether the firmware image at an address of the flash is accepted, its records too (R369, R438); blank flash fails at once. -/
def State.flashOk (s : State) (fw : Bool) (a : Nat) : Bool :=
  let h := s.flash a 256
  hnum h 0 4 == 0x485A_4346 && hcrcOk h && s.imageOk fw (s.flash a (hTotal h)) &&
    recordsOk h (hFrames h) [] (if hEnc h then imageCrypt (hKeys h / 16 % 4) (hIv h) 0 (s.flash (a + 256) (hTotal h - 256))
      else s.flash (a + 256) (hTotal h - 256))

/-! ### Firmware load and Early Service -/

/-- Firmware defines partition 0 (R25's note): rows 0 and 1, sequencers 0 to 3, sequencer 0 primary, no virtual function. -/
def firstPartition (s : State) : State :=
  let s := ((s.setF (GLB_PART_SEQ.PRIMARY 0) 0).setF (GLB_PART_SEQ.MASK 0) 0xF).setF (GLB_PART_CFG.EN 0) 1
  let s := ((s.setF (GLB_PART_CFG.NROWS 0) 2).setF (GLB_PART_CFG.FIRST_ROW 0) 0).setF (GLB_PART_CFG.VF 0) 0
  (s.setF (GLB_ROW_MAP.OWNER 0) 0).setF (GLB_ROW_MAP.OWNER 1) 0

/-- Firmware runs, from one of its images (R376, R438, R439): partition 0 is defined and the start-up array load begins. -/
def firmwareRuns (src : Nat) (s : State) : State :=
  let s := firstPartition (({ s with sys := { s.sys with stage := 3 } } : State).setF RST_STAT.FWSRC src)
  if s.cfg.cspBoot ≠ 0 then cfgBegin 1 2 0 false 1 s else cfgBegin 2 2 0 false 2 s

/-- `FIRMWARE_LOAD` (R438): the released service cores check the update image and then the golden one; with neither they halt. -/
def execFirmwareLoad (s : State) : Host.Outcome State Fault Refusal :=
  if s.sys.stage = 2 ∧ bitOf (s.f CLK_STAB1.SVC) 0 = true ∧ s.cfgClk = true then
    if s.flashOk true 0x0400_0000 then .next (firmwareRuns 0 s)
    else if s.flashOk true 0 then .next (firmwareRuns 1 s)
    else .next (State.setF { s with sys := { s.sys with stage := 4, fault := 0x32, alert := true } } RST_STAT.FWSRC 3)
  else .next s

/-- `EARLY_SERVICE` (R439). -/
def execEarlyService (s : State) : Host.Outcome State Fault Refusal :=
  if s.sys.stage = 3 ∧ s.f RST_STAT.SVC = 0 then .next (mbxServe (s.setF RST_STAT.SVC 1)) else .next s

/-! ### HDM decoders (R404) -/

/-- Whether two ranges meet. -/
def rangesMeet (a n b m : Nat) : Bool := decide (a < b + m) && decide (b < a + n)

/-- The first check of a commit that fails, 0 when all pass; sizes in units of 256 MiB. -/
def State.hdmCheck (s : State) (d : Nat) : Nat :=
  let base := s.f (CXP_HDM0.BASE d)
  let size := s.f (CXP_HDM1.SIZE d)
  let ways := 2 ^ s.f (CXP_HDM2.IW d)
  if size = 0 ∨ size % ways ≠ 0 ∨ 2 ^ 16 < base + size then 1
  else if (List.range 16).any (fun e => e != d && s.on (CXP_HDM2.COMMITTED e) && rangesMeet base size (s.f (CXP_HDM0.BASE e)) (s.f (CXP_HDM1.SIZE e))) then 2
  else if (List.range ways).any (fun p => !s.on (CXP_DEV.ACTIVE (s.hdmTarget d p))) then 3
  else 0

/-- The effect of a write of `COMMIT`. -/
def hdmCommit (d : Nat) (on : Bool) (s : State) : State :=
  if on then
    let e := s.hdmCheck d
    (((s.setF (CXP_HDM2.COMMIT d) 1).setF (CXP_HDM2.ERR d) e).setF (CXP_HDM2.COMMITTED d) (b2n (e == 0)))
  else ((s.setF (CXP_HDM2.COMMIT d) 0).setF (CXP_HDM2.ERR d) 0).setF (CXP_HDM2.COMMITTED d) 0

/-- A write of the third register of a decoder (R410): its fields by access code, and the commit while the block is not locked. -/
def hdm2Write (d : Nat) (v : Word) (s : State) : State :=
  let locked := s.on CXP_LOCK.LOCK
  let s := fieldWrite (CXP_HDM2 d) v s
  if locked then s else hdmCommit d (v.getLsbD 63) s

/-! ### Full Service (R440) -/

/-- What firmware finds of a device whose port is up (R403, R410). -/
def findDevice (x : CxlDev) (s : State) : State :=
  if s.on (CXP_PSTAT.UP x.port) then
    (((s.setF (CXP_DEV.PRESENT x.dev) 1).setF (CXP_DEV.PORT x.dev) x.port).setF (CXP_DEV.ACTIVE x.dev) (b2n x.active)).setF (CXP_DEV.CAP x.dev) x.cap.toNat
  else s

/-- Firmware interleaves the active devices at 4 KiB over one range from window offset 0 (R410): the largest power of two of them, each used as far as the smallest
reaches (log entry 40). -/
def firmwareDecoder (s : State) : State :=
  let ds := (List.range 8).filter (fun d => s.on (CXP_DEV.ACTIVE d))
  let iw := if ds.length < 2 then 0 else if ds.length < 4 then 1 else if ds.length < 8 then 2 else 3
  let used := ds.take (2 ^ iw)
  let least := (used.map (fun d => s.f (CXP_DEV.CAP d))).foldl min (2 ^ 24)
  let size := min (2 ^ iw * least) (2 ^ 16) / 2 ^ iw * 2 ^ iw
  if ds.isEmpty ∨ s.on CXP_LOCK.LOCK = true then s
  else
    let s := (s.setF (CXP_HDM0.BASE 0) 0).setF (CXP_HDM1.SIZE 0) size
    let s := ((s.setF (CXP_HDM2.IW 0) iw).setF (CXP_HDM2.IG 0) 4).setF (CXP_HDM2.DPABASE 0) 0
    let s := used.zipIdx.foldl (fun s x => s.setF ((⟨CXP_HDM3 0, 63, 0⟩ : RF).elem 4 x.2) x.1) s
    hdmCommit 0 true s

/-- Whether committed decoders cover the first 4 MiB of the window. -/
def State.bufferCovered (s : State) : Bool := (s.hdmOf 0).isSome

/-- The fail engine moves from its on-die buffer into CXL memory at the same addresses, when committed decoders cover them (R344). -/
def bufferMove (s : State) : State :=
  if s.on FE_GSTAT.EARLYBUF && s.bufferCovered then
    (List.range 16384).foldl (fun s b =>
      match s.hdmMap (b * 256) with
      | none => s
      | some (dev, dpa) =>
        let a := cxlBase + b * 256
        s.onMem (fun m => Memory.copy (Memory.copy m a 256 (cxlKey dev dpa)) (eccKey a) 32 (eccKey (cxlKey dev dpa)))) (s.setF FE_GSTAT.EARLYBUF 0)
  else s

/-- Firmware builds the slot of a loaded partition by reading back its frames (R383). -/
def buildSlot (n : Nat) (s : State) : State :=
  let st := s.f (GLB_PART_CFG.STATE n)
  if s.slotOn && (st == stSTOPPED || st == stRUNNING) then
    slotFinish n ((s.islandsOf n).foldl (fun s i => (List.range 128).foldl (fun s k => slotFrame n i k s) s) s)
  else s

/-- The rows and sequencers that waited for Full Service leave reset; running islands retune (R439, R440). -/
def openRows (s : State) : State :=
  let s := requestRelease ((List.range 20).map (fun k => 160 + k)) s
  let s := (List.range 156).foldl (fun s i => if s.on (CLK_ISL.STABLE i) then retune i s else s) s
  s.enabledParts.foldl (fun s n =>
    let st := s.f (GLB_PART_CFG.STATE n)
    if st = stSTOPPED ∨ st = stRUNNING then (s.islandsOf n).foldl (fun s i => eclodeIsl i s) s else s) s

/-- `FULL_SERVICE` (R440): firmware finds the devices, commits and locks the decoders, moves the fail engine, opens the rows, builds the resident images, and
sends its completion. -/
def execFullService (devs : List CxlDev) (s : State) : Host.Outcome State Fault Refusal :=
  if s.f RST_STAT.SVC = 1 ∧ s.mbxReady 0 = true then
    let s := firmwareDecoder (devs.foldl (fun s x => findDevice x s) s)
    let s := bufferMove (s.setF CXP_LOCK.LOCK 1)
    let s := openRows (s.setF RST_STAT.SVC 2)
    let s := s.enabledParts.foldl (fun s n => buildSlot n s) s
    .next (cplPut 0 csOK 0 0 false 0 0 0 s)
  else .next s

/-- `HDM_COMMIT` (R404): a write of the register that holds `COMMIT`, by the physical function. -/
def execHdmCommit (d : Fin 16) (v : BitVec 64) (s : State) : Host.Outcome State Fault Refusal :=
  pfWrite (fun s => if s.on CLK_STAB1.CXL then hdm2Write d v s else gatedAccess (CXP_HDM2 d) s) s

/-- `CXP_LOCK` (R410): a write of `CXP_LOCK` with `LOCK`. -/
def execCxpLock (s : State) : Host.Outcome State Fault Refusal :=
  pfWrite (fun s => if s.on CLK_STAB1.CXL then fieldWrite CXP_LOCK (BitVec.ofNat 64 (2 ^ 31)) s else gatedAccess CXP_LOCK s) s

end Sys2Proof.Machine
end

