-- ==== Sys2Proof/Machine/Power.lean ====
section
/-!
DEFINITION. Machine/Power.lean: the power ladder with its entries and wakes (R442 to R448), island clocks (R434, R435) and the end of a storm window (R456).
-/
namespace Sys2Proof.Machine

/-! ### Entry to a rung (R443) -/

/-- A collector sends a progress mark for its last firing, and its port hands everything on to the fail engine (R443 step 3). -/
def drainIsl (p i : Nat) (s : State) : State :=
  let c := s.coll i
  let s := if c.covered then s else collMark i .progress false c.lastCyc s
  let c := s.coll i
  let s := s.onColl i (fun x => { x with fifo := [], hold := none })
  (c.fifo ++ c.hold.toList).foldl (fun s it => if it.kind = .record then sliceRecord (rowOf i / 3) p it s else sliceMark p i it s) s

/-- The final marks and the commit tick of a partition. -/
def drainPart (p : Nat) (s : State) : State := commit p ((s.islandsOf p).foldl (fun s i => drainIsl p i s) s)

/-- Why a request to enter a rung is refused (R443, R468): 1 STATE, 2 BURST, 0 not at all. -/
def State.rungRefused (s : State) (n : Nat) : Nat :=
  let st := s.f (GLB_PART_CFG.STATE n)
  if (st ≠ stSTOPPED ∧ st ≠ stRUNNING) ∨ s.loadNames n = true ∨ s.f (ERR_CAP.STATE n) ≠ 0 then 1
  else if (s.lanesOf n).any (fun l => (s.getLane l).burst) ∨
      (s.rowsOf n).any (fun r => (List.range 16).any (fun k =>
        let q := 2 * r + k / 8
        s.on (MSP_CFG.TIMED q (k % 8)) && decide (1 ≤ s.mspSt q (k % 8)) && decide (s.mspSt q (k % 8) ≤ 3))) then 2
  else 0

/-- A sequencer goes on after a wake (R446). -/
def seqResume (q : Nat) (s : State) : State :=
  let x := s.getSeq q
  if x.st = 5 then s.setSeq q { x with st := x.before } else s

/-- A change to a rung begins (R443, R445): Active by a wake, a shallower rung by a wake and then its entry, a deeper one by its entry. -/
def rungGo (n r : Nat) (s : State) : State :=
  let cur := s.f (PWR_PART.CUR n)
  if r = cur then s
  else if r = 0 then requestWake n s
  else if r < cur then requestWake n { s with sys := { s.sys with nextRung := Map.set s.sys.nextRung n r } }
  else
    let s := if cur = 0 then { s with sys := { s.sys with trigEv := s.sys.trigEv &&& (2 ^ 12 - 1 - 2 ^ n) } } else s
    let s := State.setF { s with sys := { s.sys with entering := Map.set s.sys.entering n r } } (PWR_PART.BUSY n) 1
    if cur = 0 then (s.seqsOf n).foldl (fun s q => seqDoze q s) s else s

/-- A request for a rung (R443, R445, R447): one that is refused sets `ERR` alone; while a change is in progress the request replaces the target. -/
def rungRequest (n r : Nat) (s : State) : State :=
  if !s.enabled n then s
  else
    match if r = 0 then 0 else s.rungRefused n with
    | 0 =>
      let s := (s.setF (PWR_PART.RUNG n) r).setF (PWR_PART.ERR n) 0
      if s.on (PWR_PART.BUSY n) then { s with sys := { s.sys with nextRung := Map.set s.sys.nextRung n r } } else rungGo n r s
    | e => s.setF (PWR_PART.ERR n) e

/-- A write of `WAKEEN` (R447): sources that are pending keep the choice of its old value. -/
def wakeenWrite (n v : Nat) (s : State) : State :=
  let pend := match s.primary n with
    | some q => s.f (SEQ_DBELL.PEND q)
    | none => 0
  let (old, on) := Map.getD s.sys.wakeOld n (0, 0)
  let on := if bitOf (s.f (PWR_PART.WAKEEN n)) 0 then on ||| (pend &&& (65535 ^^^ old)) else on
  State.setF { s with sys := { s.sys with wakeOld := Map.set s.sys.wakeOld n (old ||| pend, on) } } (PWR_PART.WAKEEN n) v

/-- `RUNG_REQUEST` (R443): a write of `RUNG`. -/
def execRungRequest (n : Fin 12) (r : BitVec 2) (s : State) : Host.Outcome State Fault Refusal := .next (rungRequest n r.toNat s)

/-- The change that waited for the end of another begins (R447). -/
def rungNext (n : Nat) (s : State) : State :=
  match Map.find s.sys.nextRung n with
  | none => s
  | some r => rungGo n r { s with sys := { s.sys with nextRung := Map.del s.sys.nextRung n } }

/-- The lanes of a partition that goes to Torpor or deeper (R180): 16 QUIET blocks with cause 1, then electrical idle. -/
def lanesDown (n : Nat) (s : State) : State :=
  let s := (s.lanesOf n).foldl (fun s l =>
    if s.tstate l = 0 then s
    else
      let keep := s.tstate l == 3 || s.tstate l == 4 || (s.tstate l == 1 && (s.getLane l).keepState)
      let s := (List.range 16).foldl (fun s _ => sendBlk l (ctlBlk tyQUIET 1 false) s) s
      ((setUp l false s).setF (LANE_STAT.TSTATE l) 0).onLane l (fun x => { x with keepState := keep, lock := false, hdrs := [] })) s
  (s.rowsOf n).foldl (fun s r => (List.range 4).foldl (fun s k => s.setF (LQ_STAT.PLL (4 * r + k)) 0) s) s

/-- The lanes of a partition that has left rung `cur` (R177, R181): from Torpor or deeper the quads' clocks return and the lanes seek; from Rest the lanes resync; a start of
training that waited takes effect. -/
def lanesUp (n cur : Nat) (s : State) : State :=
  let s := if cur < 2 then s else
    (s.rowsOf n).foldl (fun s r => (List.range 4).foldl (fun s k => s.setF (LQ_STAT.PLL (4 * r + k)) (b2n (s.f (LQ_CFG.RATE (4 * r + k)) != 0))) s) s
  (s.lanesOf n).foldl (fun s l =>
    let x := s.getLane l
    if s.on (LANE_CTL.EN l) = false ∨ s.on (LQ_STAT.PLL (laneQuad l)) = false then s
    else if x.pll then startTraining l (s.onLane l (fun x => { x with pll := false }))
    else if cur < 2 then
      if s.tstate l = 3 then (s.setF (LANE_STAT.TSTATE l) 4).onLane l (fun x => { x with rxTrain := 0, txTrain := 0 }) else s
    else if x.keepState then toSeek l true s
    else startTraining l s) s

/-- The doorbells of the primary of a partition that would wake it (R445, R447). -/
def State.wakeBells (s : State) (n : Nat) : Nat :=
  let (old, on) := Map.getD s.sys.wakeOld n (0, 0)
  on ||| (if bitOf (s.f (PWR_PART.WAKEEN n)) 0 then 65535 ^^^ old else 0)

/-- The generators of a partition that goes to Torpor or deeper are off (R442): its clocks stop and are stable no more. -/
def clocksOff (n : Nat) (s : State) : State :=
  let s := (s.islandsOf n).foldl (fun s i => if (s.getIsl i).inReset then s else clkStop i s) s
  (s.seqsOf n).foldl (fun s q => s.setF (CLK_STAB0.SEQ.bit q) 0) s

/-- The clocks of a partition that has left such a rung, but for those of islands whose clock was lost (R434) and of domains in reset, whose release starts them. -/
def clocksOn (n : Nat) (s : State) : State :=
  let s := (s.islandsOf n).foldl (fun s i => if (s.getIsl i).inReset || (s.getIsl i).clkHalt then s else clkStart i s) s
  (s.seqsOf n).foldl (fun s q => if (s.getSeq q).st = 0 then s else s.setF (CLK_STAB0.SEQ.bit q) 1) s

/-- Whether a wake source of a partition is pending and was enabled as it came (R445, R447). -/
def State.wakePending (s : State) (n src : Nat) : Bool :=
  match src with
  | 0 => (match s.primary n with
    | some q => s.f (SEQ_DBELL.PEND q) &&& s.wakeBells n != 0
    | none => false)
  | 1 => bitOf s.sys.trigEv n
  | _ => s.jobs.any (fun j => j.wake && s.jobKind j == 1 && j.d.part.toNat == n && j.d.code != 0x06)

/-- An entry completes (R443, R444, R445): the rung is reached, and a source that is already pending wakes the partition at once. -/
def rungReached (n t : Nat) (s : State) : State :=
  let cur := s.f (PWR_PART.CUR n)
  let old := s.modRung
  let s := if cur = 0 then drainPart n s else s
  let s := if t ≥ 2 ∧ cur < 2 then clocksOff n (lanesDown n s) else s
  let s := (s.setF (PWR_PART.CUR n) t).setF (PWR_PART.BUSY n) 0
  let s := rungChanged old { s with sys := { s.sys with entering := Map.del s.sys.entering n } }
  if (Map.find s.sys.nextRung n).isSome then rungNext n s
  else if (List.range 3).any (fun k => s.wakePending n k) then requestWake n s
  else s

/-- `RUNG_ENTRY_COMPLETE` (R443): once every sequencer has stopped. -/
def execRungEntryComplete (n : Fin 12) (s : State) : Host.Outcome State Fault Refusal :=
  match Map.find s.sys.entering n with
  | none => .next s
  | some t =>
    let s := (s.seqsOf n).foldl (fun s q => seqDoze q s) s
    .next (if s.allSafe n then rungReached n t s else s)

/-! ### Wakes (R445, R446) -/

/-- `WAKE` (R445): a source of `WAKEEN` that is pending: 0 a doorbell of the primary, 1 a TRIG event, 2 a mailbox command. -/
def execWake (n : Fin 12) (src : Fin 3) (s : State) : Host.Outcome State Fault Refusal :=
  .next (if s.enabled n ∧ s.wakePending n src = true then requestWake n s else s)

/-- A partition is admitted at its last row's slot: its rows run and its sequencers go on. -/
def admitWake (n : Nat) (s : State) : State :=
  let cur := s.f (PWR_PART.CUR n)
  let old := s.modRung
  let s := ((s.setF (PWR_PART.CUR n) 0).setF (PWR_PART.BUSY n) 0).bump (PWR_PART.WAKES n)
  let s := (s.seqsOf n).foldl (fun s q => seqResume q s) s
  let s := if 2 ≤ cur then clocksOn n s else s
  let s := if 1 ≤ cur then lanesUp n cur s else s
  rungNext n (rungChanged old { s with sys := { s.sys with trigEv := s.sys.trigEv &&& (2 ^ 12 - 1 - 2 ^ n) } })

/-- `WAKE_ADMISSION` (R446): a slot of 30 ns admits the next row of the oldest request; `wait` is the time in ns from the request to its first slot. -/
def execWakeAdmission (wait : BitVec 32) (s : State) : Host.Outcome State Fault Refusal :=
  match s.sys.wakes with
  | [] => .next s
  | w :: rest =>
    let s := if w.started then s
      else
        let s := { s with sys := { s.sys with lastDefer := Map.set s.sys.lastDefer w.part wait.toNat } }
        if wait = 0 then s else (s.bump PWR_WAKE_DEFER.COUNT).setF PWR_WAKE_DEFER.MAXNS (max (s.f PWR_WAKE_DEFER.MAXNS) (min wait.toNat 65535))
    if w.left ≤ 1 then .next (admitWake w.part { s with sys := { s.sys with wakes := rest } })
    else .next { s with sys := { s.sys with wakes := { w with left := w.left - 1, started := true } :: rest } }

/-- `CLRDEF` (R448). -/
def execClrdef (s : State) : Host.Outcome State Fault Refusal := .next (s.wr PWR_WAKE_DEFER 0)

/-! ### Island clocks (R434, R435) -/

/-- The record of a condition of an island's clock. -/
def clkErr (code i : Nat) (s : State) : State := logErr code (s.islPart i) (srcOf 0 i) (s.rd (CLK_ISL i)) 0 s

/-- `ISLAND_CLOCK_LOSS` (R434): the clock of a released island leaves its tolerance, and the island halts. -/
def execIslandClockLoss (i : Fin 156) (s : State) : Host.Outcome State Fault Refusal :=
  if s.on (CLK_ISL.STABLE i) ∧ (s.getIsl i).inReset = false then
    let s := ((s.setF (CLK_ISL.STABLE i) 0).setF (CLK_ISL.CLKERR i) 1).onIsl i (fun x => { x with clkHalt := true, haltLogged := false })
    .next (clkErr 0x0202 i s)
  else .next s

/-- `ISLAND_CLOCK_RESTORE` (R434): the clock is stable again, and the island goes on with the state it held; not while its generator is off (R442). -/
def execIslandClockRestore (i : Fin 156) (s : State) : Host.Outcome State Fault Refusal :=
  let p := s.islPart i
  if (s.getIsl i).clkHalt ∧ (12 ≤ p ∨ s.f (PWR_PART.CUR p) < 2) then .next (clkStart i (s.onIsl i (fun x => { x with clkHalt := false }))) else .next s

/-- `ISLAND_HALT_TIMEOUT` (R434): an island stays halted for 100 µs, logged once for the halt (R499). -/
def execIslandHaltTimeout (i : Fin 156) (s : State) : Host.Outcome State Fault Refusal :=
  .next (if (s.getIsl i).clkHalt ∧ (s.getIsl i).haltLogged = false then
      hlthClock i (clkErr 0x0203 i (s.onIsl i (fun x => { x with haltLogged := true })))
    else s)

/-- The effect of a write of `FREQ` (R435, R449). -/
def clkFreq (i v : Nat) (s : State) : State :=
  let s := s.setF (CLK_ISL.FREQ i) (v % 128)
  if s.on (CLK_ISL.STABLE i) then retune i s else s

/-- A write of `CLK_ISLi`: `FREQ`, and `CLKERR` by writing 1. -/
def clkIslWrite (i v : Nat) (s : State) : State := clkFreq i v (if bitOf v 30 then s.setF (CLK_ISL.CLKERR i) 0 else s)

/-- `CLOCK_RETUNE` (R435). -/
def execClockRetune (i : Fin 156) (freq : BitVec 7) (s : State) : Host.Outcome State Fault Refusal := .next (clkFreq i freq.toNat s)

/-! ### Storm windows (R456) -/

/-- The window of one condition and source ends: a summary record, and the storm goes on while the window had more than `STORM` occurrences. -/
def stormEnd (key : Nat) (w : Storm) (s : State) : State :=
  let code := key / 65536
  let s := if w.sup = 0 then s else writeRecord true (min w.sup 65535) (sevOf code) w.part code (key % 65536) (s.nests (sevOf code)) w.i0 w.i1 s
  if s.f ERR_CTL.STORM < w.n + w.sup ∧ s.on ERR_CTL.STORM then { s with storm := Map.set s.storm key { w with n := 0, sup := 0, going := true } }
  else { s with storm := Map.del s.storm key }

/-- `STORM_WINDOW_END` (R456). -/
def execStormWindowEnd (s : State) : Host.Outcome State Fault Refusal := .next (s.storm.foldl (fun s x => stormEnd x.1 x.2 s) s)

end Sys2Proof.Machine
end

