-- ==== Sys2Proof/Machine/Capture.lean ====
section
/-!
DEFINITION. Machine/Capture.lean: the firefly capture: freezing, what arrives meanwhile, the capture records, readback and release (R467 to R471), and
the arrival of MOULT tokens at their streams (R85, R240).
-/
namespace Sys2Proof.Machine

/-! ### Freezing and release (R467, R471) -/

/-- A capture of a partition starts, unless one is held or under way (R244, R467): the freeze command leaves for every island. -/
def captureGo (n : Nat) (s : State) : State :=
  if s.enabled n ∧ s.f (ERR_CAP.STATE n) = 0 then
    (s.islandsOf n).foldl (fun s i => s.onIsl i (fun x => { x with freezeCmd := true })) (s.setF (ERR_CAP.STATE n) 1)
  else s

/-- A token injected into some tracks of a dealt stream: the whole group when every track is selected (R163, R240). -/
def injectItem (w : AWord) (g mask : Nat) : StreamItem := { w := w, ends := false, mask := if mask % 2 ^ g = 2 ^ g - 1 then 0 else mask % 2 ^ g }

/-- A MOULT token enters the selected streams of a row end behind every word accepted (R85, R240). -/
def moultEnter (t : MoultTok) (s : State) : State :=
  let e := b2n t.east
  let w := AWord.mk true false 0 (BitVec.ofNat 32 (tokMOULT * 2 ^ 28 + t.tag * 2 ^ 4 + t.plane))
  let s := (List.range 8).foldl (fun s k =>
    let (f, g, _, _) := s.groupOf (16 * t.row + 8 * e + k)
    let sel := t.mask / 2 ^ (f % 8) % 2 ^ g
    if f % 8 = k ∧ sel ≠ 0 then s.onLane f (fun x => { x with buf := { x.buf with items := x.buf.items ++ [injectItem w g sel] } }) else s) s
  (List.range 8).foldl (fun s k =>
    let p := 2 * t.row + e
    let (f, g) := s.mspGroup p k
    let sel := t.mask / 2 ^ (8 + f) % 2 ^ g
    if f = k ∧ sel ≠ 0 then
      let m := s.getMsp p f
      s.setMsp p f { m with buf := { m.buf with items := m.buf.items ++ [injectItem w g sel] } }
    else s) s

/-- The oldest `MOULT` of a sequencer arrives at its streams (R240): while a capture holds the partition it waits there (R468), and it enters none of a row that is not the
partition's. -/
def moultArrive (n : Nat) (s : State) : State :=
  let x := s.getSeq n
  match s.seqPart n with
  | none => s
  | some p =>
    if s.partFrozen p then
      match x.moults.findIdx? (fun t => !t.due) with
      | some k => s.setSeq n { x with moults := x.moults.modify k (fun t => { t with due := true }) }
      | none => s
    else
      match x.moults with
      | [] => s
      | t :: rest =>
        let s := s.setSeq n { x with moults := rest }
        if s.owner t.row = p then moultEnter t s else s

/-- The MOULT tokens of a sequencer that arrived while a capture held its partition enter their streams, before any island fires again (R468). -/
def moultsDue (n : Nat) (s : State) : State :=
  ((s.getSeq n).moults.takeWhile (·.due)).foldl (fun s _ => moultArrive n s) s

/-- A held capture is released, and every island goes on from its held state (R468, R471). -/
def captureResume (n : Nat) (s : State) : State :=
  if s.f (ERR_CAP.STATE n) = 2 then (s.seqsOf n).foldl (fun s q => moultsDue q s) (captureDrop n s) else s

/-- `CAPTURE_GO` (R467): `ERR_CAPn.GO` written 1 by the physical function. -/
def execCaptureGo (n : Fin 12) (s : State) : Host.Outcome State Fault Refusal := .next (captureGo n s)

/-- The freeze command arrives at an island whose clock runs: it holds, and with the last island of its partition event 21 is set (R467). -/
def freezeArrival (i : Nat) (s : State) : State :=
  let n := s.islPart i
  if (s.getIsl i).freezeCmd ∧ s.islClk i then
    let s := s.onIsl i (fun x => { x with frozen := true, freezeCmd := false })
    if n < 12 ∧ s.f (ERR_CAP.STATE n) = 1 ∧ (s.islandsOf n).all (fun i => (s.getIsl i).frozen) then raiseAev n 21 0 0 (s.setF (ERR_CAP.STATE n) 2) else s
  else s

/-- `FREEZE_ARRIVAL` (R467). -/
def execFreezeArrival (i : Fin 156) (s : State) : Host.Outcome State Fault Refusal := .next (freezeArrival i s)

/-- `CAPTURE_RESUME` (R471): `ERR_CAPn.RESUME` written 1 by the physical function. -/
def execCaptureResume (n : Fin 12) (s : State) : Host.Outcome State Fault Refusal := .next (captureResume n s)

/-! ### The records (R469) -/

/-- Fields of a record: its lowest bit, its width, its value. -/
abbrev RecFields := List (Nat × Nat × Nat)

/-- A record of 1,024 bits from its fields. -/
def packRec (fs : RecFields) : BitVec 1024 := BitVec.ofNat 1024 (fs.foldl (fun a f => a + f.2.2 % 2 ^ f.2.1 * 2 ^ f.1) 0)

/-- A word with its valid bit in 37 bits; nothing is zero. -/
def validWord (ws : List AWord) (k : Nat) : Nat :=
  match ws[k]? with
  | some w => w.toNat + 2 ^ 36
  | none => 0

/-- Record 0: the counter, current planes, storage elements, owed bits and parameter words. -/
def capIsland (i : Nat) (s : State) : RecFields :=
  let x := s.getIsl i
  [(0, 40, x.cycle), (64, 64, (s.rd (ISL_PLANE_CUR i)).toNat), (128, 32, (s.rd (ISL_PLANE_AUX i)).toNat), (160, 24, x.q.toNat)] ++
    (List.range 16).map (fun u => (184 + 3 * u, 3, (x.wu u).owed.foldl (fun a k => a ||| 2 ^ k) 0)) ++
    (List.range 16).map (fun k => (232 + 32 * k, 32, s.f (ISL_PARAM.VALUE i k)))

/-- Record 1: the planes of the switch box and the fork unit. -/
def capBox (i : Nat) (s : State) : RecFields :=
  (List.range 116).map (fun e => (4 * e, 4, s.boxPlane i (16 + e))) ++
    [(464, 32, (s.rd (ISL_FORK_STAT i)).toNat), (496, 32, (s.rd (ISL_FORK_CNT i)).toNat)]

/-- The words that the firings of a pipeline have still to emit, or to write to island memory, oldest first, each with the cycles that remain of its firing. -/
def pipeWords (i u : Nat) : List Firing → State → List (AWord × Nat)
  | [], _ => []
  | e :: es, s =>
    let code := opc e.opw.toNat
    let (ws, s) :=
      if code = 0x60 ∧ e.skip = false then
        let s := (completeHinc i u e s).2
        let w := e.mbase.toNat + min ((AWord.data e.a).toNat / 2 ^ opK e.opw.toNat) 4095
        ([AWord.mk false false 0 (s.memWord i w)], s)
      else completeAny i u e s
    (ws ++ e.tok.toList).map (fun w => (w, e.left)) ++ pipeWords i u es s

/-- A word unit's record; words that have passed the pipeline and wait behind the output register have no cycles left (log entry 44). -/
def capUnit (i u : Nat) (s : State) : RecFields :=
  let w := s.getWu i u
  let blk := if opc (s.opWord i u (s.wuPlane i u)) = 0x58 then w.bexp else w.best.toNat
  let slots := (w.out.drop 1).map (fun v => (v, 0)) ++ pipeWords i u w.pipe s
  [(0, 72, w.acc.toNat), (72, 4, (s.wuFlags i u).toNat), (76, 1, b2n w.poison), (80, 32, blk), (112, 32, w.index.toNat), (144, 32, w.pos), (176, 16, w.seqM),
    (192, 160, w.t0.toNat), (352, 160, w.t1.toNat), (512, 37, validWord w.out 0), (549, 37, validWord w.a 0), (586, 37, validWord w.a 1),
    (623, 37, validWord w.b 0), (660, 37, validWord w.b 1), (697, 37, validWord w.m 0), (734, 37, validWord w.m 1)] ++
    (List.range 5).map (fun k => (771 + 40 * k, 40, validWord (slots.map (·.1)) k + ((slots[k]?.map (·.2)).getD 0) % 8 * 2 ^ 37))

/-- Record 18 + k: terminations 4k to 4k + 3. -/
def capTerms (i k : Nat) (s : State) : RecFields :=
  (List.range 4).flatMap (fun j => (List.range 6).map (fun g => (256 * j + 37 * g, 37, validWord (Map.getD (s.getIsl i).fifos (4 * k + j) []) g)))

/-- Record 26 + h: queue controllers 2h and 2h + 1; the prefetch buffer holds the first words of the queue, the combining buffer the word that waits for its pair (R138;
log entry 44). -/
def capQueues (i h : Nat) (s : State) : RecFields :=
  (List.range 2).flatMap (fun j =>
    let q := 2 * h + j
    let pre := (s.qHead i q).toList ++ ((List.range (min 4 (s.qDepth i q))).drop 1).map (fun k => s.qWord i q ((s.f (ISL_QPTR.HEAD i q) + k) % s.qCap i q))
    let comb := if (Map.find (s.getIsl i).comb q).isSome then [s.qWord i q ((s.f (ISL_QPTR.TAIL i q) + s.qCap i q - 1) % s.qCap i q)] else []
    [(512 * j, 48, (s.rd (ISL_QPTR i q)).toNat), (512 * j + 48, 1, s.f (ISL_QSTAT.MKV i q)), (512 * j + 49, 1, s.f (ISL_QSTAT.HL i q)),
      (512 * j + 50, 1, s.f (ISL_QSTAT.LL i q))] ++
      (List.range 4).map (fun k => (512 * j + 52 + 37 * k, 37, validWord pre k)) ++
      (List.range 4).map (fun k => (512 * j + 200 + 37 * k, 37, validWord comb k)))

/-- An entry of a collector's FIFO in the layout of R323. -/
def FailItem.bits (m : FailItem) : Nat :=
  m.site % 64 * 2 ^ 122 + m.unit % 2 ^ 14 * 2 ^ 108 + m.row % 2 ^ 20 * 2 ^ 88 + m.col % 2 ^ 16 * 2 ^ 72 + m.mask.toNat * 2 ^ 40 + m.cyc % 2 ^ 40

/-- Record 28 + h: entries 8h to 8h + 7 of the collector's FIFO. -/
def capFails (i h : Nat) (s : State) : RecFields :=
  (List.range 8).map (fun e => (128 * e, 128, match (s.coll i).fifo[8 * h + e]? with
    | some m => m.bits
    | none => 0))

/-- Record 30: the collector and the join timers. -/
def capTimers (i : Nat) (s : State) : RecFields :=
  [(0, 40, s.f (ISL_FCAP_CYC.CYC i)), (40, 5, (s.coll i).fifo.length), (45, 1, b2n (s.coll i).hold.isSome)] ++
    (List.range 16).map (fun u => (48 + 24 * u, 24, (s.getWu i u).timer))

/-- Capture record `k` of an island (R469). -/
def capRecord (i k : Nat) (s : State) : BitVec 1024 :=
  packRec (
    if k = 0 then capIsland i s
    else if k = 1 then capBox i s
    else if k < 18 then capUnit i (k - 2) s
    else if k < 26 then capTerms i (k - 18) s
    else if k < 28 then capQueues i (k - 26) s
    else if k < 30 then capFails i (k - 28) s
    else if k = 30 then capTimers i s
    else [])

/-- Whether a capture of an island's partition is held. -/
def State.captured (s : State) (i : Nat) : Bool :=
  decide (i < 156) && s.inService i && decide (s.islPart i < 12) && s.f (ERR_CAP.STATE (s.islPart i)) == 2

/-- The effect of a write of `ERR_CAPRB` (R470). -/
def captureFetch (i k : Nat) (s : State) : State :=
  let s := ((s.setF ERR_CAPRB.ISLAND i).setF ERR_CAPRB.RECORD k).setF CFG_RBADDR.READY 0
  let d := if s.captured i then capRecord i k s else 0
  readbackPut d (crc32 (frameBytes d)) s

/-- `CAPTURE_READBACK` (R470): a write of `ERR_CAPRB` by the physical function. -/
def execCaptureReadback (island : BitVec 8) (record : BitVec 5) (s : State) : Host.Outcome State Fault Refusal :=
  .next (captureFetch island.toNat record.toNat s)

/-- The captured state of a partition as `CAPTURE` writes it: header, then 4 KiB for each in-service island (R471). -/
def captureBytes (n : Nat) (s : State) : List Byte :=
  bytesLE 8 (n + (s.rowsOf n).length * 2 ^ 8) ++ bytesLE 8 (s.rd RING_TIME).toNat ++ List.replicate 48 0 ++
    (s.islandsOf n).flatMap (fun i => (List.range 32).flatMap (fun k => frameBytes (capRecord i k s)))

end Sys2Proof.Machine
end

