-- ==== Sys2Proof/Machine/Errors.lean ====
section
/-!
DEFINITION. Machine/Errors.lean: contained and fatal handling and safe hold (R451 to R454), wear samples and automatic repair (R460 to R462), the management bus
(R459), and the protections of rails and temperature (R480, R485, R486).
-/
namespace Sys2Proof.Machine

/-! ### Health (R460, R461) -/

/-- `HEALTH_SAMPLE` (R460, R461): firmware's estimate for a monitor from its samples, `elapsed` seconds after the one before; `crossed` tells of a limit already
crossed.  The trend itself is outside the model. -/
def execHealthSample (m : Monitor) (hours : BitVec 24) (conf : BitVec 2) (cause : BitVec 4) (crossed : Bool) (elapsed : BitVec 32) (s : State) :
    Host.Outcome State Fault Refusal :=
  .next (if s.firmOn ∧ s.on HLTH_CTL.EN then hlthEstimate m (if crossed then 0 else hours.toNat) conf.toNat cause.toNat elapsed.toNat s else s)

/-! ### Automatic repair (R462) -/

/-- Whether firmware may repair an island by itself: it is FAILING, and the checks of R463 pass for its row. -/
def State.repairable (s : State) (i : Nat) : Bool :=
  let n := s.islPart i
  let st := s.f (GLB_PART_CFG.STATE n)
  s.f (hSTATE (HLTH_ISL i)) == 3 && s.f RST_STAT.SVC == 2 && decide (pcolOf i < 12) && s.spare (rowOf i) == 12 && s.enabled n &&
    (st == stSTOPPED || st == stRUNNING) && s.slotOn && bitOf (s.f CFG_RESVAL.VALID) n && s.sys.repair.isNone

/-- A repair begins (R463, R464): its record, before step 1. -/
def repairBegin (i : Nat) (s : State) : State :=
  let n := s.islPart i
  { s with sys := { s.sys with
    repair := some { part := n, row := rowOf i, col := pcolOf i, step := 1, p := 11, ran := s.f (GLB_PART_CFG.STATE n) == stRUNNING, reset := false, warm := false } } }

/-- The end of a repair, after its reload (R464): whether it succeeded. -/
def repairFinish (r : Repair) (s : State) : Bool × State :=
  let s := { s with sys := { s.sys with repair := none } }
  if s.f (GLB_PART_CFG.STATE r.part) = stSTOPPED then (true, if r.ran then startPart r.part false s else s)
  else (false, logErr 0x0204 15 (srcOf 0 241) 0 0 (s.setF (GLB_PART_CFG.STATE r.part) stINVALID))

/-- Whether `AUTOREP` lets firmware act on FAILING islands. -/
def State.autoOn (s : State) : Bool := s.f HLTH_CTL.AUTOREP == 1 || s.f HLTH_CTL.AUTOREP == 2

/-- The island that firmware repairs when the primary of a partition calls the safe-point service (R256, R462). -/
def State.autoPending (s : State) (n : Nat) : Option Nat :=
  if s.firmOn && s.autoOn then (s.islandsOf n).find? s.repairable else none

/-- `AUTO_REPAIR` (R462): a repair that goes on takes its next step; otherwise one begins on an island of a STOPPED partition, or, under `AUTOREP` = 2, of one that is
still RUNNING 1 s after its state change (`late`). -/
def execAutoRepair (i : Fin 156) (late : Bool) (s : State) : Host.Outcome State Fault Refusal :=
  if s.firmOn = false then .next s
  else
    match s.sys.repair with
    | some r =>
      if r.row * 13 + r.col ≠ i.val ∨ r.warm = true ∨ s.jobs.any (fun j => j.started && j.d.code == 0x08) = true then .next s
      else if r.step = 9 then .next (if s.loadNames r.part then s else (repairFinish r s).2)
      else .next (repairStep s)
    | none =>
      let st := s.f (GLB_PART_CFG.STATE (s.islPart i))
      .next (if s.autoOn ∧ s.repairable i ∧ (st = stSTOPPED ∨ (late = true ∧ s.f HLTH_CTL.AUTOREP = 2)) then repairStep (repairBegin i s) else s)

/-! ### Handling of contained and fatal records (R451 to R454) -/

/-- Whether a contained record stops its partition (R451 step 1). -/
def State.containedStops (s : State) (h : Handling) : Bool := s.on ERR_CTL.XSTOP || h.code == 0x0401 || h.code == 0x0203

/-- What firmware does for a contained record once its partition has stopped (R451 step 2). -/
def containedFollow (h : Handling) (s : State) : State :=
  let s := if h.code = 0x0703 ∧ s.enabled h.part then nextReload { s with sys := { s.sys with reloads := s.sys.reloads ++ [h.part] } } else s
  if h.code = 0x0203 ∨ h.code = 0x0204 then hlthClock h.src s else s

/-- A stop that handling asks for: requested once, then watched until its sequencers stand at a safe point. -/
def stopFor (asked : Bool) (n : Nat) (s : State) : State := if asked then stopSeen n s else stopPart n s

/-- `CONTAINED_HANDLING` (R451, R453): the contained records of the partition whose record is the oldest; the handling waits for the safe point of its stop, and goes on until
the reload that it asks for has ended.  A record that joins it brings no second stop. -/
def execContainedHandling (s : State) : Host.Outcome State Fault Refusal :=
  match s.handling with
  | [] => .next s
  | h :: _ =>
    if h.sev = 2 ∧ s.firmOn then
      let hs := s.handling.filter h.joins
      let stop := hs.any s.containedStops && s.enabled h.part && !hs.any (fun x => x.followed)
      let s := if stop then stopFor h.asked h.part s else s
      if stop && s.stopsDue h.part then .next { s with handling := s.handling.map (fun x => if h.joins x then { x with asked := true } else x) }
      else
        let s := { s with handling := s.handling.map (fun x => if h.joins x then { x with followed := true } else x) }
        .next (handled h.part ((hs.filter (fun x => !x.followed)).foldl (fun s h => containedFollow h s) s))
    else .next s

/-- Fatal records that wait for their handling. -/
def State.fatals (s : State) : Nat := (s.handling.filter (fun h => h.sev == 3)).length

/-- The steps of R452 after the stop: commit ticks, messages, fatal hold. -/
def fatalEnd (s : State) : State :=
  let s := s.enabledParts.foldl (fun s p => commit p s) s
  let s := sendMsix 0 (s.f ERR_CTL.VEC) (s.emit (.aer 0 2))
  (State.setF { s with handling := [] } ERR_STAT.HACT 0).setF ERR_STAT.FATAL 1

/-- `FATAL_HANDLING` (R452): it waits until the sequencers of every enabled partition stand at a safe point. -/
def execFatalHandling (s : State) : Host.Outcome State Fault Refusal :=
  if s.fatals = 1 ∧ s.firmOn then
    let asked := s.handling.any (fun h => h.sev == 3 && h.asked)
    let s := { s with sys := { s.sys with fault := 0x40, alert := true } }
    let s := s.enabledParts.foldl (fun s p => stopFor asked p s) s
    if s.enabledParts.any s.stopsDue then .next { s with handling := s.handling.map (fun h => if h.sev = 3 then { h with asked := true } else h) }
    else .next (fatalEnd s)
  else .next s

/-- Why safe hold is entered (R454): a second fatal record during fatal handling, fatal handling beyond 10 ms, or a fatal record while no firmware runs. -/
def State.safeDue (s : State) (expired : Bool) : Bool := decide (2 ≤ s.fatals) || (decide (s.fatals = 1) && (expired || s.sys.stage != 3))

/-- The always-on domain holds the pins, halts the cores and commits. -/
def safeStop (s : State) : State :=
  let s := holdPins (fun _ => true) (s.setF ERR_STAT.SAFE 1)
  let s := (List.range 24).foldl (fun s q => seqHalt q s) s
  s.enabledParts.foldl (fun s p => commit p s) s

/-- It raises the alert, signals a host whose link is up, and the mailbox is not served. -/
def safeAlert (s : State) : State :=
  let s := { s with sys := { s.sys with fault := 0x41, alert := true } }
  let s := if s.f (HL_STAT.WIDTH 0) = 0 then s else s.emit (.aer 0 2)
  (List.range 13).foldl (fun s f => s.setF (MBX_STAT.READY f) 0) s

/-- `SAFE_HOLD` (R454); `expired` tells that fatal handling has taken 10 ms. -/
def execSafeHold (expired : Bool) (s : State) : Host.Outcome State Fault Refusal :=
  .next (if s.safeDue expired = true ∧ s.on ERR_STAT.SAFE = false then safeAlert (safeStop s) else s)

/-! ### Management bus (R459, R496) -/

/-- The answer of the management bus to a read command; `sense` is what the sensor reads. -/
def State.smbus (s : State) (cmd sense : Nat) : Option Nat :=
  if cmd = 0 then some (s.f RST_STAT.SVC + 4 * b2n (s.on ERR_STAT.FATAL) + 8 * b2n (s.on ERR_STAT.SAFE) + 16 * s.modRung)
  else if cmd = 1 then some s.sys.fault
  else if [0x10, 0x11, 0x12, 0x20, 0x21, 0x30, 0x31, 0x32, 0x33, 0x34, 0x35].contains cmd then some (if s.sys.pgood then sense else 0)
  else none

/-- `SMBUS_READ` (R459): a read command at an address of the bus. -/
def execSmbusRead (addr : BitVec 7) (cmd : BitVec 8) (sense : BitVec 16) (s : State) : Host.Outcome State Fault Refusal :=
  if s.sys.stage ≠ 0 ∧ addr.toNat = 0x58 + s.sys.modId then
    match s.smbus cmd.toNat sense.toNat with
    | some v => .next (s.emit (.read (BitVec.ofNat 64 v)))
    | none => .next s
  else .next s

/-! ### Rails and temperature (R480, R485, R486) -/

/-- `RAIL_FAULT` (R480): a rail that has been in regulation leaves it for 10 µs. -/
def execRailFault (k : Fin 6) (mv : BitVec 16) (s : State) : Host.Outcome State Fault Refusal :=
  .next (if s.sys.pgood then logErr 0x0B03 15 (srcOf 9 k) (BitVec.ofNat 64 mv.toNat) 0 s else s)

/-- `JUNCTION_OVERTEMP` (R485): a junction above 110 °C, in units of 0.5 °C. -/
def execJunctionOvertemp (temp : BitVec 16) (s : State) : Host.Outcome State Fault Refusal :=
  .next (if s.sys.stage ≠ 0 ∧ 220 < temp.toInt then logErr 0x0B04 15 (srcOf 0 242) (temp.signExtend 64) 0 s else s)

/-- `THERMAL_TRIP` (R485): the module is held in cold reset with only VAON up. -/
def execThermalTrip (s : State) : Host.Outcome State Fault Refusal :=
  if s.sys.vin then .next (coldReset none false { s with sys := { s.sys with trip := true } }) else .next s

/-- Whether the module is an HZ7120-AE. -/
def State.isAE (s : State) : Bool := s.f GLB_REVISION.VARIANT == 2

/-- The lid rises above 75.0 °C (R486): an HZ7120-AE enforces its power cap from then on. -/
def lidHigh (s : State) : State := State.setF { s with sys := { s.sys with hot := true } } PWR_THERM.LIDHI 1

/-- What firmware sees of the lid at its sample. -/
def lidSeen (above : Bool) (s : State) : State :=
  match above, s.sys.hot with
  | true, false => lidHigh s
  | false, true => { s with sys := { s.sys with hot := false } }
  | _, _ => s

/-- `LID_ABOVE_LIMIT` (R486). -/
def execLidAboveLimit (s : State) : Host.Outcome State Fault Refusal := .next (if s.sys.stage ≠ 0 then lidHigh s else s)

/-- A new frequency ceiling: every running island is retuned. -/
def setCeil (c : Nat) (s : State) : State :=
  let s := (s.setF PWR_THERM.CEIL c).setF PWR_THERM.CAPACT (b2n (decide (c < 112)))
  let s := { s with sys := { s.sys with capMs := 0 } }
  (List.range 156).foldl (fun s i => if s.on (CLK_ISL.STABLE i) then retune i s else s) s

/-- `POWER_CAP_TICK` (R486): every 1 ms, with die power in W and the lid temperature in units of 0.5 °C. -/
def execPowerCapTick (power : BitVec 10) (lid : BitVec 16) (s : State) : Host.Outcome State Fault Refusal :=
  if s.firmOn = false then .next s
  else
    let s := lidSeen (decide (150 < lid.toInt)) (s.setF PWR_THERM.DIEP power.toNat)
    let c := s.f PWR_THERM.CEIL
    let s := { s with sys := { s.sys with capMs := min (s.sys.capMs + 1) 10 } }
    if ¬ s.isAE then .next s
    else if s.sys.hot ∧ 380 < power.toNat then .next (setCeil (c - 1) (s.setF PWR_THERM.CAPHIT 1))
    else if (power.toNat ≤ 370 ∨ lid.toInt ≤ 146) ∧ s.sys.capMs = 10 ∧ c < 112 then .next (setCeil (c + 1) s)
    else .next s

end Sys2Proof.Machine
end

