-- ==== Sys2Proof/Machine/Debug.lean ====
section
/-!
DEFINITION. Machine/Debug.lean: a sequencer's registers for the physical function (R474), and the JTAG port (R472, R473).
-/
namespace Sys2Proof.Machine

/-! ### A halted sequencer's registers (R474) -/

/-- The register of a sequencer that `REG` selects, if it selects one. -/
def Seq.debug (x : Seq) (part reg : Nat) : Option Word :=
  let acc (a hi : Nat) : Word := BitVec.ofNat 64 ((x.accAt a).toNat / 2 ^ (64 * hi) % 2 ^ 64)
  if reg = 0 then some 0
  else if reg < 128 then some (Map.getD x.r reg 0)
  else if reg = 128 then some (BitVec.ofNat 64 x.fcs)
  else if reg < 146 then some (x.special part (reg - 129) false)
  else if reg < 154 then some (acc ((reg - 146) / 2) ((reg - 146) % 2))
  else none

/-- The effect of a write of `HLTH_DBGSEL`: the register is latched while the sequencer is halted, in reset or in DFAULT. -/
def debugSelect (reg q : Nat) (s : State) : State :=
  let s := (s.setF HLTH_DBGSEL.REG reg).setF HLTH_DBGSEL.SEQ q
  let st := (s.getSeq q).st
  match (if q < 24 ∧ (st = 0 ∨ st = 1 ∨ st = 4) then (s.getSeq q).debug ((s.seqPart q).getD 15) reg else none) with
  | some v => (s.setF HLTH_DBGSEL.VALID 1).wr HLTH_DBGDATA v
  | none => (s.setF HLTH_DBGSEL.VALID 0).wr HLTH_DBGDATA 0

/-- `DEBUG_REGISTER_SELECT` (R474): a write of `HLTH_DBGSEL` by the physical function. -/
def execDebugRegisterSelect (reg : BitVec 8) (q : BitVec 5) (s : State) : Host.Outcome State Fault Refusal := .next (debugSelect reg.toNat q.toNat s)

/-! ### The test access port (R472) -/

/-- Whether DBGACC is open (R473): level 0, or level 1 after an unlock.  Before the trim load nothing can be read (R3), and the level is not known: the port is closed (log
entry 61). -/
def State.dbgOpen (s : State) : Bool :=
  s.trimmed && (s.f HLTH_DBGSTAT.LVL == 0 || (s.f HLTH_DBGSTAT.LVL == 1 && s.on HLTH_DBGSTAT.UNLOCKED))

/-- A selected instruction; EXTEST holds the pins only while it is selected. -/
def jtagSelect (ir : Nat) (s : State) : State := { s with sys := { s.sys with ir := ir, extest := ir == 0 } }

/-- `EXTEST` (R472): the boundary-scan register takes the SB pins from the module's logic and is captured from them. -/
def execExtest (pins data : BitVec 80) (s : State) : Host.Outcome State Fault Refusal :=
  let s := jtagSelect 0 s
  .next ({ s with sys := { s.sys with bsr := data } }.emit (.scan 0 pins.toNat))

/-- `SAMPLE_PRELOAD` (R472): the boundary-scan register is captured from the pins and loaded, and the pins stay with the module's logic. -/
def execSamplePreload (pins data : BitVec 80) (s : State) : Host.Outcome State Fault Refusal :=
  let s := jtagSelect 1 s
  .next ({ s with sys := { s.sys with bsr := data } }.emit (.scan 1 pins.toNat))

/-- `IDCODE` (R472). -/
def execIdcode (s : State) : Host.Outcome State Fault Refusal := .next ((jtagSelect 2 s).emit (.scan 2 0xB712_0001))

/-- `BYPASS` (R472): the one-bit register, which captures 0 as IEEE 1149.1 gives; every instruction value not in the table acts so. -/
def execBypass (s : State) : Host.Outcome State Fault Refusal := .next ((jtagSelect 0xFF s).emit (.scan 0xFF 0))

/-- What `DBGUNLOCK` signs: `DEVICE_ID`, then the challenge, both little-endian (R473). -/
def State.unlockMsg (s : State) : List Byte := bytesLE 4 (s.rd GLB_DEVICE_ID).toNat ++ bytesLE 8 s.sys.challenge.toNat

/-- `DBGUNLOCK` (R472, R473): the challenge is captured and a signature checked; a failed attempt draws a new challenge, and after three none is accepted. -/
def execDbgunlock (sig : BitVec 768) (slot : BitVec 2) (s : State) : Host.Outcome State Fault Refusal :=
  let s := (jtagSelect 0x11 s).emit (.scan 0x11 s.sys.challenge.toNat)
  if 3 ≤ s.sys.tries then .next s
  else if bitOf (s.f CFG_POLICY.SIGPROG) slot.toNat ∧ ¬ bitOf (s.f CFG_POLICY.SIGREV) slot.toNat ∧ sigOk slot.toNat s.unlockMsg (bytesLE 96 sig.toNat) then
    .next (s.setF HLTH_DBGSTAT.UNLOCKED 1)
  else
    let (v, s) := s.fresh
    .next { s with sys := { s.sys with tries := s.sys.tries + 1, challenge := v } }

end Sys2Proof.Machine
end

