-- ==== Sys2Proof/Machine/Link.lean ====
section
/-!
DEFINITION. Machine/Link.lean: the host link with its aperture, messages and power states (R388 to R396), the CXL ports (R403 to R406), and the resets of both (R407).
-/
namespace Sys2Proof.Machine

/-! ### Host link training (R388, R437) -/

/-- Whether a negotiated width and speed exist: 64 GT/s needs FLIT mode. -/
def linkMode (flit : Bool) (width speed : Nat) : Bool := [1, 4, 8, 16].contains width && decide (1 ≤ speed) && decide (speed ≤ (if flit then 6 else 5))

/-- `HOST_LINK_TRAINED` (R437): training completes and every function sees the link in L0.  Whether the host lets it narrow by L0p and change its speed by itself, which it
sets in configuration space and no row carries, is open (R395; log entry 34); `LPBLK` tells that it prevents one of them. -/
def execHostLinkTrained (flit : Bool) (width : BitVec 5) (speed : BitVec 3) (s : State) : Host.Outcome State Fault Refusal :=
  if s.on CLK_STAB1.HL ∧ s.sys.perstLow = false ∧ linkMode flit width.toNat speed.toNat then
    let s := (List.range 13).foldl (fun s f =>
      ((s.setF (HL_STAT.FLIT f) (b2n flit)).setF (HL_STAT.WIDTH f) width.toNat).setF (HL_STAT.SPEED f) speed.toNat) s
    let (l0p, s) := s.freshBit
    let (hasd, s) := s.freshBit
    let s := (List.range 13).foldl (fun s f => s.setF (HL_STAT.LPBLK f) (b2n (!l0p || hasd))) s
    .next { s with sys := { s.sys with trained := true, l0p := l0p, hasd := hasd } }
  else .next s

/-! ### The BAR2 aperture (R391) -/

/-- Window offset of an aperture offset of a function. -/
def State.apOffset (s : State) (fn off : Nat) : Nat := s.f (HL_AP.BASE fn) * 2 ^ 30 + off

/-- Whether an aperture access is unmapped: beyond the window, outside the range of a virtual function, or under no committed decoder. -/
def State.apUnmapped (s : State) (fn off : Nat) : Bool :=
  let w := s.apOffset fn off
  decide (0x1000_0000_0000 ≤ w) ||
    (fn != 0 && !(decide (s.f (HL_VFLIM.FIRST fn) * 2 ^ 30 ≤ w) && decide (w < (s.f (HL_VFLIM.FIRST fn) + s.f (HL_VFLIM.SIZE fn)) * 2 ^ 30))) ||
    (match s.region (cxlBase + w) with
     | .early _ => false
     | .cxl _ _ => false
     | _ => true)

/-- An unmapped access is recorded: the first in `HL_APERR`, all counted, each an AER non-fatal error of its function. -/
def apError (fn : Nat) (write : Bool) (s : State) : State :=
  let s := if s.on HL_APERR.VALID then s else ((s.setF HL_APERR.VALID 1).setF HL_APERR.FUNC fn).setF HL_APERR.WRITE (b2n write)
  (s.bump HL_APERR.COUNT).emit (.aer fn 1)

/-- A host request in BAR2 of a function. -/
def aperture (fn : Nat) (a : ApReq) (s : State) : State :=
  match a with
  | .read off size =>
    if (pieces off.toNat size).any (fun p => s.apUnmapped fn p.1) then (apError fn false s).emit .abort
    else
      match busReads (cxlBase + s.apOffset fn 0) off.toNat size s with
      | (some (d, bad), s) => s.emit (if bad then .poisoned (BitVec.ofNat 64 d) else .read (BitVec.ofNat 64 d))
      | (none, s) => s.emit .abort
  | .write off size data poison =>
    if (pieces off.toNat size).any (fun p => s.apUnmapped fn p.1) then apError fn true s
    else (busWrites (cxlBase + s.apOffset fn 0) off.toNat size data.toNat poison true false s).2

/-- Offset of a host request. -/
def apPlace : ApReq → Nat
  | .read off _ => off.toNat
  | .write off _ _ _ => off.toNat

/-- `APERTURE_ACCESS` (R391): a request in BAR2 of a function that answers memory requests. -/
def execApertureAccess (f : Fin 13) (a : ApReq) (s : State) : Host.Outcome State Fault Refusal :=
  if s.fnOpen f ∧ (f.val = 0 ∨ apPlace a < 2 ^ 34) then .next (aperture f a s) else .next s

/-! ### Messages and power states of a function (R393, R396) -/

/-- Pending messages of a function that may be sent now are sent. -/
def msixFlush (fn : Nat) (s : State) : State :=
  (s.msixPend.filter (fun k => k / 2048 == fn)).foldl (fun s k =>
    if s.msixOpen fn (k % 2048) then State.emit { s with msixPend := s.msixPend.filter (fun x => x != k) } (.msix fn (k % 2048)) else s) s

/-- `MSIX_UNMASK` (R393): the host unmasks an enabled vector, or masks it again; a pending message of an open vector is sent. -/
def execMsixUnmask (f : Fin 13) (vec : BitVec 11) (masked : Bool) (s : State) : Host.Outcome State Fault Refusal :=
  let k := msixIx f vec.toNat
  let on := s.msixOn.filter (fun x => x != k)
  if (if f.val = 0 then 512 else 128) ≤ vec.toNat then .next s
  else if masked then .next { s with msixOn := on }
  else .next (msixFlush f { s with msixOn := k :: on })

/-- `D3HOT_ENTRY` (R396). -/
def execD3hotEntry (f : Fin 13) (s : State) : Host.Outcome State Fault Refusal := .next (s.setF (HL_STAT.D3 f) 1)

/-- `D3HOT_EXIT` (R396): every state is kept, and held messages are sent. -/
def execD3hotExit (f : Fin 13) (s : State) : Host.Outcome State Fault Refusal := .next (msixFlush f (s.setF (HL_STAT.D3 f) 0))

/-! ### Resets of the host link (R407) -/

/-- A fundamental reset of the host link: its registers, the MSI-X tables and the mailboxes at their reset values. -/
def linkReset (s : State) : State :=
  let s := { s with msixOn := [], msixPend := [] }
  mbxClear { s with regs := s.regs.filter (fun x => !((decide (0x8_0000 ≤ x.1) && decide (x.1 < 0x9_0000)) || (decide (0x1000_0000 ≤ x.1) && decide (x.1 < 0x2000_0000)))) }

/-- A fundamental reset of the link and a warm reset of the module, once the link has trained (R429). -/
def linkEvent (src : Nat) (s : State) : State := if s.sys.trained then warmReset src (linkReset s) else s

/-- `PERST_N` (R407, R430): the pin falls or rises. -/
def execPerstN (low : Bool) (s : State) : Host.Outcome State Fault Refusal :=
  let was := s.sys.perstLow
  let s := { s with sys := { s.sys with perstLow := low } }
  .next (if low && !was then linkEvent 4 s else s)

/-- `HOT_RESET` (R407). -/
def execHotReset (s : State) : Host.Outcome State Fault Refusal := .next (linkEvent 5 s)

/-- `HOST_LINK_DOWN` (R407). -/
def execHostLinkDown (s : State) : Host.Outcome State Fault Refusal := .next (linkEvent 5 s)

/-! ### CXL ports (R403, R405, R406) -/

/-- `CXL_LINK_TRAINED` (R405): a port trains or retrains, at 64 GT/s with 256-byte flits or at 32 GT/s with 68-byte flits; what waited for it too long has ended by then. -/
def execCxlLinkTrained (p : Fin 2) (fast : Bool) (width : BitVec 5) (switch : Bool) (s : State) : Host.Outcome State Fault Refusal :=
  if s.on (CLK_STAB1.CXL.bit p) ∧ [4, 8, 16].contains width.toNat then
    let s := ((s.setF (CXP_PSTAT.UP p) 1).setF (CXP_PSTAT.SPEED p) (if fast then 6 else 5)).setF (CXP_PSTAT.F256 p) (b2n fast)
    let s := { s with sys := { s.sys with cxlDead := if bitOf s.sys.cxlDead p then s.sys.cxlDead - 2 ^ p.val else s.sys.cxlDead } }
    .next (((s.setF (CXP_PSTAT.WIDTH p) width.toNat).setF (CXP_PSTAT.SW p) (b2n switch)).setF (CXP_PSTAT.L1 p) 0)
  else .next s

/-- `CXL_LINK_LOSS` (R405): requests at the port end as bus errors until it has retrained; its decoders are kept. -/
def execCxlLinkLoss (p : Fin 2) (s : State) : Host.Outcome State Fault Refusal :=
  if s.on (CXP_PSTAT.UP p) then
    let s := (((s.setF (CXP_PSTAT.UP p) 0).setF (CXP_PSTAT.SPEED p) 0).setF (CXP_PSTAT.WIDTH p) 0).setF (CXP_PSTAT.L1 p) 0
    let s := (s.setF (CXP_PSTAT.F256 p) 0).bump (CXP_PSTAT.DOWNS p)
    .next (logErr 0x0803 15 (srcOf 0 (237 + p)) (s.rd (CXP_PSTAT p)) 0 s)
  else .next s

/-- The request outstanding at a port will end as a bus error. -/
def cxlEnds (p : Nat) (s : State) : State := { s with sys := { s.sys with cxlDead := s.sys.cxlDead ||| 2 ^ p } }

/-- A read that took more than 700 ns is counted at its device (R405). -/
def cxlSlow (pa : Nat) (s : State) : State :=
  match s.region pa with
  | .cxl dev _ => s.bump (CXP_DEV.SLOW dev)
  | _ => s

/-- `CXL_REQUEST_TIMEOUT` (R405): the request outstanding at a port has no completion after 1 ms; the access that follows at that port is the one that ends. -/
def execCxlRequestTimeout (p : Fin 2) (pa : BitVec 52) (read : Bool) (s : State) : Host.Outcome State Fault Refusal :=
  let s := if read then cxlSlow pa.toNat s else s
  .next (logErr 0x0802 15 (srcOf 0 (237 + p)) (BitVec.ofNat 64 pa.toNat) 0 (cxlEnds p s))

/-- `CXL_RETRAIN_WAIT_TIMEOUT` (R405): a request has waited 1 ms for a port that retrains. -/
def execCxlRetrainWaitTimeout (p : Fin 2) (s : State) : Host.Outcome State Fault Refusal := .next (if s.on (CXP_PSTAT.UP p) then s else cxlEnds p s)

/-- `CXL_L1_ENTRY` (R406). -/
def execCxlL1Entry (p : Fin 2) (s : State) : Host.Outcome State Fault Refusal :=
  .next (if 2 ≤ s.modRung ∧ s.on (CXP_PSTAT.UP p) then s.setF (CXP_PSTAT.L1 p) 1 else s)

/-- `CXL_DEVICE_EVENT` (R403): a device's event record, of which the log keeps the first 8 bytes. -/
def execCxlDeviceEvent (dev : Fin 8) (ev : BitVec 64) (s : State) : Host.Outcome State Fault Refusal :=
  .next (if s.on (CXP_DEV.PRESENT dev) then logErr 0x0801 15 (srcOf 4 dev) ev 0 s else s)

end Sys2Proof.Machine
end

