-- ==== Sys2Proof/Machine/PartCfg.lean ====
section
/-!
DEFINITION. Machine/PartCfg.lean: writes of `GLB_PART_CFGn` with their checks, and the enabling and disabling of a partition (R21 to R26).
-/
namespace Sys2Proof.Machine

/-- What a write of `GLB_PART_CFGn` carries. -/
structure PartDef where
  vf : Nat
  nrows : Nat
  first : Nat
deriving DecidableEq, Repr

/-- The fields of a written value. -/
def PartDef.of (v : Nat) : PartDef := { vf := bitsOf v 23 20, nrows := bitsOf v 11 8, first := bitsOf v 3 0 }

/-- The other enabled partitions. -/
def State.others (s : State) (n : Nat) : List Nat := s.enabledParts.filter (fun m => m != n)

/-- The checks of a write of `EN` = 1 to a partition that is not enabled, in order (R23). -/
def State.enableCheck (s : State) (n : Nat) (d : PartDef) : Nat :=
  let mask := s.f (GLB_PART_SEQ.MASK n)
  let prim := s.f (GLB_PART_SEQ.PRIMARY n)
  if d.nrows = 0 ∨ 12 < d.first + d.nrows then 1
  else if (List.range d.nrows).any (fun k => (s.others n).contains (s.owner (d.first + k))) then 2
  else if mask = 0 ∨ 2 * d.nrows < popCount 24 mask then 3
  else if (s.others n).any (fun m => s.f (GLB_PART_SEQ.MASK m) &&& mask != 0) then 4
  else if 23 < prim ∨ bitOf mask prim = false then 5
  else if 12 < d.vf ∨ (d.vf ≠ 0 ∧ (s.others n).any (fun m => s.f (GLB_PART_CFG.VF m) == d.vf)) then 6
  else 0

/-- Store the carried fields. -/
def partStore (n : Nat) (d : PartDef) (s : State) : State :=
  ((s.setF (GLB_PART_CFG.VF n) d.vf).setF (GLB_PART_CFG.NROWS n) d.nrows).setF (GLB_PART_CFG.FIRST_ROW n) d.first

/-- A partition is enabled: EMPTY, with the rows of its band (R23, R26). -/
def partEnable (n : Nat) (d : PartDef) (s : State) : State :=
  let old := s.modRung
  let s := ((partStore n d s).setF (GLB_PART_CFG.EN n) 1).setF (GLB_PART_CFG.STATE n) stEMPTY
  let s := (List.range d.nrows).foldl (fun s k => s.setF (GLB_ROW_MAP.OWNER (d.first + k)) n) s
  rungChanged old (failsFollow n s)

/-- Parameter writes and MOULT tokens that a sequencer has sent and that have not arrived are dropped (DESIGN CHOICE, log entry 62). -/
def dropSends (q : Nat) (s : State) : State := s.onSeq q (fun x => { x with params := [], moults := [] })

/-- A partition is disabled (R24): its islands are held, its sequencers halted and its streams aborted, its rows are unowned; memories, banks, its resident image and
its fail data are kept.  What its sequencers sent to its islands and streams ends with it (R20, R27).  Words that a read stream had accepted, those in a lane's receive
buffer and the blocks that a lane has assembled stay where they are for the row's next owner: R24 and R298 do not say whether they are dropped (DESIGN CHOICE, log entry 62). -/
def partDisable (n : Nat) (s : State) : State :=
  let old := s.modRung
  let s := if s.loadNames n then cfgFail 0x14 0 s else s
  let s := feDisable n (captureDrop n (abortStreams n s))
  let cur := s.f (PWR_PART.CUR n)
  let s := if 1 ≤ cur then lanesUp n cur (s.setF (PWR_PART.CUR n) 0) else s
  let s := if 2 ≤ cur then clocksOn n s else s
  let s := (s.seqsOf n).foldl (fun s q => dropSends q (seqHalt q s)) ((s.islandsOf n).foldl (fun s i => islHold i s) s)
  let s := { s with
    aev := s.aev.filter (fun e => e.part != n), parts := Map.del s.parts n,
    sys := { s.sys with
      entering := Map.del s.sys.entering n, nextRung := Map.del s.sys.nextRung n, wakes := s.sys.wakes.filter (fun w => w.part != n),
      reloads := s.sys.reloads.filter (fun p => p != n), leaves := Map.del s.sys.leaves n, trigEv := s.sys.trigEv &&& (2 ^ 12 - 1 - 2 ^ n),
      wakeOld := Map.del s.sys.wakeOld n, prst := s.sys.prst &&& (2 ^ 12 - 1 - 2 ^ n) } }
  let s := ((s.setF (PWR_PART.RUNG n) 0).setF (PWR_PART.CUR n) 0).setF (PWR_PART.BUSY n) 0
  let s := (s.rowsOf n).foldl (fun s r => s.setF (GLB_ROW_MAP.OWNER r) 15) s
  rungChanged old (handled n ((s.setF (GLB_PART_CFG.STATE n) stEMPTY).setF (GLB_PART_CFG.EN n) 0))

/-- A write of `GLB_PART_CFGn` (R22, R23). -/
def partCfgWrite (n v : Nat) (s : State) : State :=
  let d := PartDef.of v
  let st := s.f (GLB_PART_CFG.STATE n)
  let was := s.on (GLB_PART_CFG.EN n)
  if bitOf v 31 then
    if was then s.setF (GLB_PART_CFG.ERRCODE n) 0
    else
      match s.enableCheck n d with
      | 0 => partEnable n d (s.setF (GLB_PART_CFG.ERRCODE n) 0)
      | e => s.setF (GLB_PART_CFG.ERRCODE n) e
  else if st = stLOADING ∨ st = stRUNNING ∨ st = stREPAIRING then s.setF (GLB_PART_CFG.ERRCODE n) 7
  else if was then partDisable n (s.setF (GLB_PART_CFG.ERRCODE n) 0)
  else partStore n d (s.setF (GLB_PART_CFG.ERRCODE n) 0)

/-- `GLB_PART_CFG_WRITE` (R22, R23): a write by the physical function. -/
def execGlbPartCfgWrite (n : Fin 12) (v : BitVec 32) (s : State) : Host.Outcome State Fault Refusal := pfWrite (partCfgWrite n v.toNat) s

/-- A write of `GLB_PART_SEQn`, ignored while the partition is enabled (R22). -/
def partSeqWrite (n : Nat) (v : Word) (s : State) : State := if s.on (GLB_PART_CFG.EN n) then s else fieldWrite (GLB_PART_SEQ n) v s

end Sys2Proof.Machine
end

