-- ==== Sys2Proof/Machine/RegBus.lean ====
section
/-!
DEFINITION. Machine/RegBus.lean: accesses to the registers of BAR0 by any requester: their width (R10, R11), whom they reach (R280, R390, R458), stopped clocks (R33), and
what a read returns and a write does (R12 and the register tables).
-/
namespace Sys2Proof.Machine

/-! ### Requesters -/

/-- Who makes an access. -/
inductive Who where
  | fn (f : Nat)           -- a host function
  | seq (q : Nat)
  | jtag
deriving DecidableEq, Repr

/-- The number of a requester, under which its lower-half write is held (R10). -/
def Who.id : Who → Nat
  | .fn f => f
  | .seq q => 16 + q
  | .jtag => 200

/-- Whether a requester writes with the rights of the physical function: itself, and the debug port. -/
def Who.pf : Who → Bool
  | .fn f => f == 0
  | .jtag => true
  | _ => false

/-- Whether a requester is a sequencer of partition `n`. -/
def State.isSeqOf (s : State) (w : Who) (n : Nat) : Bool :=
  match w with
  | .seq q => s.seqPart q == some n
  | _ => false

/-- Whether a requester may write what the physical function, the sequencers of partition `n` and the function that serves it may write (R280). -/
def State.mayWrite (s : State) (w : Who) (n : Nat) : Bool :=
  w.pf || s.isSeqOf w n ||
    (match w with
     | .fn f => s.vfPart f == some n
     | _ => false)

/-- A write from another partition is discarded and logged (R280); the record names the partition of the register. -/
def deniedWrite (off part : Nat) (s : State) : State := logErr 0x0A02 part (srcOf 7 (off / 0x1_0000)) (BitVec.ofNat 64 off) 0 s

/-! ### Layout (R10, R11, R38) -/

/-- The register that an offset falls on: its key, whether it is 64 bits wide, and whether the offset is that of its upper half. -/
structure Place where
  key : Nat
  w64 : Bool
  upper : Bool
deriving DecidableEq, Repr

/-- The host link registers that each function sees as its own (R408). -/
def ownLink (off : Nat) : Bool := off == 0x8_0000 || off == 0x8_0010 || off == 0x8_0014

/-- The key under which an offset is stored: that of the function's own copy for its host link registers; other requesters see those of the physical function. -/
def linkKey (w : Who) (off : Nat) : Nat :=
  if ownLink off then
    (match w with
     | .fn f => HL_STAT f
     | _ => HL_STAT 0) + (off - 0x8_0000)
  else off

/-- Whether an offset below the end of BAR0 lies in the error log (R455). -/
def inLog (off : Nat) : Bool := decide (0x6_0000 ≤ off) && decide (off < 0x8_0000)

/-- Whether an offset lies in the host window (R372). -/
def inCfgWindow (off : Nat) : Bool := decide (0x3_8000 ≤ off) && decide (off < 0x4_0000)

/-- The register that a 4-byte aligned offset falls on, if there is one. -/
def placeOf (w : Who) (off : Nat) : Option Place :=
  let k := linkKey w off
  if 0x100_0000 ≤ off ∨ off % 4 ≠ 0 ∨ off = 0x8_0100 ∨ off = 0x8_0104 then none
  else if inLog off then some { key := off / 8 * 8, w64 := true, upper := off % 8 == 4 }
  else
    match regDesc k with
    | some d => some { key := k, w64 := d.w64, upper := false }
    | none =>
      if off % 8 ≠ 4 then none
      else
        match regDesc (k - 4) with
        | some d => if d.w64 then some { key := k - 4, w64 := true, upper := true } else none
        | none => none

/-- Whether the domain of an offset has its clock, or stays accessible without (R33). -/
def State.regClk (s : State) (off : Nat) : Bool :=
  if off < 0x3_0000 then true
  else if off < 0x4_0000 then s.cfgClk
  else if off < 0x8_0000 then true
  else if off < 0x9_0000 then s.on CLK_STAB1.HL
  else if off < 0xA_0000 then s.on CLK_STAB1.CXL
  else if off < 0xB_0000 then s.on CLK_STAB1.RING
  else if off < 0x10_0000 then true
  else if off < 0x28_0000 then
    let q := (off - 0x10_0000) / 0x1_0000
    s.seqClk q || ((s.getSeq q).st == 5 && off == SEQ_STAT q)
  else if off < 0x40_0000 then true
  else if off < 0xDC_0000 then s.islClk ((off - 0x40_0000) / 0x1_0000)
  else if off < 0xF0_0000 then true
  else if off < 0xF8_0000 then s.feClk
  else s.dmaClk

/-! ### Reach (R390, R458) -/

/-- What a virtual function that serves partition `n` reaches. -/
def State.partReach (s : State) (n off : Nat) : Bool :=
  if off < 0x1_0000 then decide (0x200 ≤ off) && decide (off < 0x230) && s.owner ((off - 0x200) / 4) == n
  else if off < 0x4_0000 then false
  else if off < 0x8_0000 then off == ERR_PSTAT n || off == ERR_CAP n
  else if off < 0x10_0000 then false
  else if off < 0x28_0000 then bitOf (s.f (GLB_PART_SEQ.MASK n)) ((off - 0x10_0000) / 0x1_0000)
  else if off < 0x40_0000 then false
  else if off < 0xDC_0000 then s.islPart ((off - 0x40_0000) / 0x1_0000) == n
  else if off < 0xE0_0000 then false
  else if off < 0xE3_0000 then s.owner ((off - 0xE0_0000) / 0x4000) == n
  else if off < 0xF0_0000 then false
  else if off < 0xF8_0000 then off == FE_GSTAT || (off - 0xF0_1000) / 0x100 == n && decide (0xF0_1000 ≤ off)
  else if off < 0xF8_1000 then s.chPart ((off - 0xF8_0000) / 0x40) == n
  else if off < 0xFC_0000 then false
  else off / 8 * 8 == MMU_PART n || off / 8 * 8 == MMU_INV || off == MMU_STAT

/-- Whether a requester reaches an offset: a virtual function only what R390 lists, every other requester all of BAR0. -/
def State.reaches (s : State) (w : Who) (off : Nat) : Bool :=
  match w with
  | .fn 0 => true
  | .fn f =>
    off == GLB_DEVICE_ID || off == GLB_REVISION || ownLink off ||
      (match s.vfPart f with
       | some n => s.partReach n off
       | none => false)
  | _ => true

/-! ### Reads -/

/-- The fields that a read of a register returns: write-only ones read zero (R12), reserved ones too (R11). -/
def readFields (fs : List Fld) (v : Word) : Nat :=
  (fs.foldl (fun a f => match f.acc with
    | .wo => a
    | _ => a ||| (v &&& f.mask)) (0 : Word)).toNat

/-- Word `j` of record `k` of the error log. -/
def State.logWord (s : State) (k j : Nat) : Nat :=
  match Map.find s.log k with
  | none => 0
  | some r => ([r.w0, r.w1, r.w2, r.w3].getD j 0).toNat

/-- A read of an island register (R80, R111, R132, R357): the fields that follow the state. -/
def islView (i o : Nat) (v : Nat) (s : State) : Nat :=
  let k := 0x40_0000 + i * 0x1_0000 + o
  if k = ISL_FLA_MC i then (s.mcAll i).toNat
  else if k = ISL_PLANE_USE i then
    let used := s.planesUsed i
    v / 2 ^ 16 * 2 ^ 16 + ((List.range 16).filter used.contains).foldl (fun a p => a + 2 ^ p) 0
  else if k = ISL_RT_POS i then
    let n := s.islPart i
    let r := rowOf i
    r * 2 ^ 12 + s.lcol i * 2 ^ 8 + pcolOf i * 2 ^ 4 + b2n (r == 0 || s.owner (r - 1) != n) * 2 ^ 3 + b2n (r == 11 || s.owner (r + 1) != n) * 2 ^ 2 +
      b2n (s.lcol i == 0) * 2 + b2n (s.lcol i == 11)
  else if k = ISL_XF_LVL0 i then (List.range 16).foldl (fun a t => a + s.fifoLen i t * 16 ^ t) 0
  else if k = ISL_XF_LVL1 i then (List.range 16).foldl (fun a t => a + s.fifoLen i (16 + t) * 16 ^ t) 0
  else if k = ISL_FCAP_STAT i then v - bitsOf v 28 24 * 2 ^ 24 + (s.coll i).fifo.length % 32 * 2 ^ 24
  else v

/-- A read of a sequencer register (R210, R268). -/
def seqView (q o : Nat) (v : Nat) (s : State) : Nat :=
  let k := 0x10_0000 + q * 0x1_0000 + o
  let x := s.getSeq q
  if k = SEQ_STAT q then
    x.st * 2 ^ 29 + b2n (s.primaryOf q).isSome * 2 ^ 28 + (s.seqPart q).getD 15 * 2 ^ 24 + x.pl * 2 ^ 22 + b2n (x.sb stTW) * 2 ^ 21 + b2n (x.sb stSH) * 2 ^ 20
  else if k = SEQ_PC q then x.pc
  else if k = SEQ_CYCLE q then x.cycle
  else if k = SEQ_IRQ q then v % 2 ^ 16 + s.irqPend q * 2 ^ 16
  else if k = SEQ_AEV_PEND q ∧ (s.primaryOf q).isNone then 0
  else v

/-- A read of a lane or quad register (R181, R183). -/
def laneView (k v : Nat) (s : State) : Nat :=
  let l := (k - 0xE0_0000) / 0x1000 * 4 + (k % 0x1000 - 0x100) / 0x40
  if k % 0x1000 = 8 ∧ (k - 0xE0_0000) / 0x1000 % 2 = 1 then 0
  else if 0x100 ≤ k % 0x1000 ∧ k = LANE_CREDIT l then (s.getLane (s.leader l)).credits * 2 ^ 16 + (512 - (s.getLane (s.leader l)).rxHeld)
  else v

/-- A read of a host link status register (R395): while every enabled partition is in Torpor or Diapause a link in FLIT mode is narrowed to x1 and slowed to 2.5 GT/s, as far
as the host allows each. -/
def linkView (fn v : Nat) (s : State) : Nat :=
  if 2 ≤ s.modRung ∧ s.f (HL_STAT.WIDTH fn) ≠ 0 then
    let w := s.rd (HL_STAT fn)
    let w := if s.on (HL_STAT.FLIT fn) && s.sys.l0p then setBits (setBits w 30 30 1) 23 19 1 else w
    (if s.sys.hasd then w else setBits w 18 16 1).toNat
  else v

/-- A read of a register at its full width, whose clock runs. -/
def regView (k : Nat) (s : State) : Nat :=
  let v := match regDesc k with
    | some d => readFields d.flds (s.rd k)
    | none => 0
  if inLog k then s.logWord ((k - 0x6_0000) / 0x20) (k % 0x20 / 8)
  else if k = CFG_WINFREE then 65536 - s.cfg.buf.length
  else if k = RST_STAT then v / 2 ^ 12 * 2 ^ 12 + ((List.range 12).filter s.prst).foldl (fun a n => a + 2 ^ n) 0
  else if k = PWR_STAT then s.modRung * 2 ^ 30
  else if k = RING_STAT then (setBits (BitVec.ofNat 64 v) 18 12 (s.nodesSeen % 128)).toNat
  else if k = FE_GSTAT then v / 2 ^ 17 * 2 ^ 17 + s.fat.length % 2 ^ 17
  else if 0xF0_1000 ≤ k ∧ k < 0xF0_1C00 ∧ k % 0x100 = 0x38 then
    v / 2 ^ 32 * 2 ^ 32 + (s.fat.filter (fun e => e.part == (k - 0xF0_1000) / 0x100)).length
  else if 0xA_0300 ≤ k ∧ k < 0xA_0340 then
    let n := (k - 0xA_0300) / 4
    if s.pinOut (8 + n) = 2 then v else setBits (BitVec.ofNat 64 v) 29 29 (s.pinOut (8 + n)) |>.toNat
  else if 0x10_0000 ≤ k ∧ k < 0x28_0000 then seqView ((k - 0x10_0000) / 0x1_0000) (k % 0x1_0000) v s
  else if 0x40_0000 ≤ k ∧ k < 0xDC_0000 then islView ((k - 0x40_0000) / 0x1_0000) (k % 0x1_0000) v s
  else if 0xE0_0000 ≤ k ∧ k < 0xE3_0000 then laneView k v s
  else if 0x1000_0000 ≤ k ∧ k < 0x2000_0000 ∧ k % 0x1000 = 0 then linkView ((k - 0x1000_0000) / 0x1000) v s
  else v

/-- A read with the effects that reads have: the guard latch (R80), the DMA fault queue (R285), the mailbox FIFO of the ring (R420; one made as two halves removes with its
upper half), and the level of an undriven general purpose pin, which is open. -/
def regRead (k : Nat) (upper half : Bool) (s : State) : Nat × State :=
  let i := (k - 0x40_0000) / 0x1_0000
  let o := k % 0x1_0000
  if 0x40_0000 ≤ k ∧ k < 0xDC_0000 ∧ 0x200 ≤ o ∧ o < 0x300 ∧ o % 0x10 = 0 then
    let n := (o - 0x200) / 0x10
    ((s.getWu i n).acc.toNat % 2 ^ 64, if upper then s else latchGuard i n s)
  else if 0x10_0000 ≤ k ∧ k < 0x28_0000 ∧ o = 0x7C then dmafqRead ((k - 0x10_0000) / 0x1_0000) s
  else if k = RING_RXHDR then rxHeader s
  else if k = RING_RXDATA then
    let (v, t) := rxPayload s
    (v.toNat, if half && !upper then s else t)
  else if 0xA_0300 ≤ k ∧ k < 0xA_0340 ∧ s.pinOut (8 + (k - 0xA_0300) / 4) = 2 then
    let (b, s) := s.freshBit
    ((setBits (BitVec.ofNat 64 (regView k s)) 29 29 (b2n b)).toNat, s)
  else (regView k s, s)

/-! ### Writes -/

/-- A write of `GLB_GATED_ACCESS`, and of the registers of the identity and global block. -/
def glbWrite (k : Nat) (v : Word) (s : State) : State :=
  if k = GLB_GATED_ACCESS then (if v.getLsbD 31 then s.wr GLB_GATED_ACCESS 0 else s)
  else if 0x100 ≤ k ∧ k < 0x1C0 then
    if k % 0x10 = 0 then partCfgWrite ((k - 0x100) / 0x10) v.toNat s else partSeqWrite ((k - 0x100) / 0x10) v s
  else s

/-- A write of the reset and power block (R429, R448): sequencers of partition `n` write `PWR_PARTn` alone. -/
def rstWrite (w : Who) (k : Nat) (v : Word) (s : State) : State :=
  let n := (k - 0x1_0100) / 4
  let power := decide (0x1_0100 ≤ k) && decide (k < 0x1_0130)
  if !(w.pf || (power && s.isSeqOf w n)) then deniedWrite k (if power then n else 15) s
  else if k = RST_CTL then rstCtlWrite v.toNat s
  else if k = RST_PART then (onesOf 12 v.toNat).foldl (fun s n => partReset n s) s
  else if power then rungRequest n (getBits v 31 30) (wakeenWrite n (getBits v 2 0) s)
  else if k = PWR_STAT then (if v.getLsbD 0 then s.wr PWR_WAKE_DEFER 0 else s)
  else fieldWrite k v s

/-- A write of the configuration block (R387). -/
def cfgBlockWrite (k : Nat) (v : Word) (s : State) : State :=
  if k = CFG_LOAD then cfgLoadWrite v.toNat s
  else if k = CFG_RBADDR then readback (getBits v 23 16) (getBits v 6 0) s
  else fieldWrite k v s

/-- A write that clears each whole field in which it carries a value other than zero (`ERR_PSTATn`, `CFG_SCRUBSTAT`, `ISL_PATROL_CNT`). -/
def fieldsClear (fs : List RF) (v : Word) (s : State) : State := fs.foldl (fun s x => if getBits v x.hi x.lo = 0 then s else s.setF x 0) s

/-- A write of the errors and health block (R458, R475).  A write of `HEAD` consumes records: of a full log all of them when it names `TAIL` (DEDUCED, log entry 45). -/
def errWrite (w : Who) (k : Nat) (v : Word) (s : State) : State :=
  if 0x4_0100 ≤ k ∧ k < 0x4_0130 then
    let n := (k - 0x4_0100) / 4
    if w.pf || (s.mayWrite w n && !s.isSeqOf w n) then fieldsClear [ERR_PSTAT.XCNT n, ERR_PSTAT.DCNT n, ERR_PSTAT.CCNT n] v s else deniedWrite k n s
  else if 0x4_0200 ≤ k ∧ k < 0x4_0230 then
    let n := (k - 0x4_0200) / 4
    if s.mayWrite w n then
      let s := if v.getLsbD 31 then captureGo n s else s
      if v.getLsbD 30 then captureResume n s else s
    else deniedWrite k n s
  else if !w.pf then deniedWrite k 15 s
  else if k = ERR_LOGP then { fieldWrite k v s with logFull := false }
  else if k = ERR_CAPRB then captureFetch (getBits v 23 16) (getBits v 4 0) s
  else if k = HLTH_DBGSEL then debugSelect (getBits v 15 8) (getBits v 4 0) s
  else fieldWrite k v s

/-- A write of the host link and CXL blocks (R404, R408, R410). -/
def linkWrite (k : Nat) (v : Word) (s : State) : State :=
  if k = HL_APERR then (if v.getLsbD 31 then (s.setF HL_APERR.VALID 0).setF HL_APERR.COUNT 0 else s)
  else if 0x9_1000 ≤ k ∧ k < 0x9_1400 ∧ k % 0x40 = 0x10 then hdm2Write ((k - 0x9_1000) / 0x40) v s
  else fieldWrite k v s

/-- A write of `RING_CTL` (R427): the fields, `ID` not while joined; a node that no longer offers is no master (R415); then a join or a leave. -/
def ringCtlWrite (v : Word) (s : State) : State :=
  let id := if s.on RING_STAT.JOINED then s.f RING_CTL.ID else getBits v 17 12
  let s := (fieldWrite RING_CTL v s).setF RING_CTL.ID id
  let s := if v.getLsbD 29 then s else s.setF RING_STAT.TMACT 0
  let s := if v.getLsbD 31 then ringJoin s else s
  if v.getLsbD 30 then ringLeave s else s

/-- Whether a requester may write the registers of a pin of partition `p` (R426, R280). -/
def State.mayWritePin (s : State) (w : Who) (p : Nat) : Bool := w.pf || s.isSeqOf w p

/-- A write of the ring and triggers block (R426 to R428): the owner of a pin is written by the physical function alone. -/
def ringWrite (w : Who) (k : Nat) (v : Word) (s : State) : State :=
  let pin (x : RF) : State :=
    if w.pf then fieldWrite k v s
    else if s.mayWritePin w (s.f x) then (fieldWrite k v s).setF x (s.f x)
    else deniedWrite k (s.f x) s
  if k = RING_CTL then ringCtlWrite v s
  else if k = RING_MBCTL then mbSend v.toNat s
  else if 0xA_0200 ≤ k ∧ k < 0xA_0280 then
    let n := (k - 0xA_0200) / 0x10
    if k % 0x10 = 0 then pin (TRIG_CFG.PART n)
    else if s.mayWritePin w (s.f (TRIG_CFG.PART n)) then
      let s := fieldWrite k v s
      if v.getLsbD 28 then s.setF (TRIG_STAT.OVR n) 0 else s
    else deniedWrite k (s.f (TRIG_CFG.PART n)) s
  else if 0xA_0300 ≤ k ∧ k < 0xA_0340 then pin (TRIG_GPIO.PART ((k - 0xA_0300) / 4))
  else fieldWrite k v s

/-- A write of `SEQ_CTL` (R210): `RESET`, or `RUN` and, of a core that stays halted, a step.  That a write with `RESET` and with `RUN` or `STEP` resets the core and leaves
it halted is the model's choice (DESIGN CHOICE, log entry 57). -/
def seqCtlWrite (q : Nat) (v : Word) (s : State) : State :=
  if v.getLsbD 30 then resetCore q s
  else
    let s := seqRun q (v.getLsbD 31) s
    if v.getLsbD 29 && (s.getSeq q).st == 1 then s.onSeq q (fun x => { x with stepping := true }) else s

/-- A write of `SEQ_PFLAG` (R105, R207): a clear of `FAILS` that meets an assertion of the flag leaves it set (R14). -/
def pflagWrite (q : Nat) (v : Word) (s : State) : State :=
  let s := if v.getLsbD 30 && !((s.primaryOf q).any s.pf0) then
      let s := s.setF (SEQ_PFLAG.FAILS q) 0
      match s.primaryOf q with
      | some p => noteFails p s
      | none => s
    else s
  pflagDrive q (getBits v 3 1) (intakeHold q (v.getLsbD 4) s)

/-- A write of a sequencer register (R210, R268, R301). -/
def seqRegWrite (k : Nat) (v : Word) (s : State) : State :=
  let q := (k - 0x10_0000) / 0x1_0000
  if k = SEQ_CTL q then seqCtlWrite q v s
  else if k = SEQ_BANK_CTL q then
    let s := if v.getLsbD 31 then s.wr (SEQ_BANK_ERR q) 0 else s
    if v.getLsbD 30 then s.wr (SEQ_BANK_COLL q) 0 else s
  else if k = SEQ_AEV_PEND q then aevClear q (getBits v 23 0) s
  else if k = SEQ_PFLAG q then pflagWrite q v s
  else if k = SEQ_DBELL_SET q then setDoorbell q (getBits v 15 0) s
  else fieldWrite k v s

/-- A write of a queue register of an island (R148, R149, R154); its commands, in an island that a capture holds, wait for its next edge. -/
def queueRegWrite (i o : Nat) (v : Word) (s : State) : State :=
  let q := (o - 0x600) / 0x20
  match o % 0x20 with
  | 0 => qregWrite i q v.toNat s
  | 4 => fieldWrite (ISL_QWM i q) v s
  | 0x1C =>
    let s := if v.getLsbD 30 then qClearCounts i q s else s
    if getBits v 2 0 = 0 ∧ v.getLsbD 31 = false then s
    else qOrder i q (v.getLsbD 2) (v.getLsbD 0) (v.getLsbD 1) (v.getLsbD 31) s
  | _ => fieldWrite (0x40_0000 + i * 0x1_0000 + o) v s

/-- A write of an island register (R80, R111, R132, R154, R322, R357). -/
def islRegWrite (k : Nat) (v : Word) (s : State) : State :=
  let i := (k - 0x40_0000) / 0x1_0000
  let o := k % 0x1_0000
  if 0x600 ≤ o ∧ o < 0x680 then queueRegWrite i o v s
  else
    match o with
    | 0x114 => flaEvtClear i (getBits v 7 0) s
    | 0x31C => moultRelease i (getBits v 15 0) (if v.getLsbD 31 then s.wr (ISL_MOULT_CNT i) 0 else s)
    | 0x40C => if v.getLsbD 31 then clearRouteCounts i s else s
    | 0x514 =>
      let s := if v.getLsbD 31 then s.wr (ISL_MEM_ECC i) 0 else s
      let s := if v.getLsbD 30 then s.wr (ISL_MEM_COLL i) 0 else s
      s.setF (ISL_MEM_CTL.INJ i) (getBits v 1 0)
    | 0x58C => fieldsClear [ISL_PATROL_CNT.FAULTS i, ISL_PATROL_CNT.CEFIX i] v s
    | 0x700 => forkCfgWrite i v s
    | 0x710 =>
      let s := if v.getLsbD 31 then s.setF (ISL_FORK_CNT.HOLDS i) 0 else s
      if v.getLsbD 30 then forkForce i (getBits v 29 28) (v.getLsbD 27) s else s
    | 0x808 => cycleRebase i (getBits v 39 0) s
    | 0x810 =>
      let s := if v.getLsbD 31 then s.setF (ISL_FCAP_STAT.LOSTCNT i) 0 else s
      let s := if v.getLsbD 30 then s.setF (ISL_FCAP_STAT.STCNT i) 0 else s
      fieldWrite k v s
    | _ => fieldWrite k v s

/-- A write of a lane quad register (R181, R183). -/
def quadWrite (k : Nat) (v : Word) (s : State) : State :=
  let q := (k - 0xE0_0000) / 0x1000
  let o := k % 0x1000
  if o = 0 then quadConfig q v.toNat s
  else if o = 8 then (if q % 2 = 0 then fieldWrite k v s else s)
  else if o < 0x100 then s
  else
    let l := 4 * q + (o - 0x100) / 0x40
    match o % 0x40 with
    | 0 => laneCtl l v.toNat s
    | 0x1C => if v.getLsbD 31 then laneClrcnt l s else s
    | _ => fieldWrite k v s

/-- Whether two ranges given by first and number overlap; an empty one overlaps nothing. -/
def spanMeets (a n b m : Nat) : Bool := decide (0 < n) && decide (0 < m) && decide (a < b + m) && decide (b < a + n)

/-- Whether a write of a range register of partition `p` is ignored (R358). -/
def State.rangeRefused (s : State) (p k : Nat) (v : Word) : Bool :=
  (s.units.any (fun e => s.unitOf p e.1 && e.2.st != 0)) ||
    ((List.range 12).any (fun m => m != p &&
      (if k = FE_PUNITS p then spanMeets (getBits v 13 0) (getBits v 30 16) (s.f (FE_PUNITS.UFIRST m)) (s.f (FE_PUNITS.UCOUNT m))
       else if k = FE_PTRK p then spanMeets (getBits v 20 0) (getBits v 53 32) (s.f (FE_PTRK.TFIRST m)) (s.f (FE_PTRK.TCOUNT m))
       else false)))

/-- A command written to `FE_PnCMD` (R334). -/
def feCommand (p : Nat) (v : Word) (s : State) : State :=
  let u := getBits v 13 0
  match getBits v 31 28 with
  | 1 => feCmd p (feArm p u) s
  | 2 => feCmd p (feDisarm p u) s
  | 3 => feCmd p (feSolve p u) s
  | 4 => feCmd p (feSolveSite p (getBits v 27 22)) s
  | 5 => feCmd p (feFlush p) s
  | 6 => feCmd p (feQuery p u) s
  | 7 => feCmd p (fun s => feEnd p 0 (feNewRun p s)) s
  | _ => s

/-- A write of the commit header address (R339, R358): an enabled header is written with the next commit. -/
def feHdrWrite (p : Nat) (v : Word) (s : State) : State :=
  let s := fieldWrite (FE_PHDR p) v s
  if v.getLsbD 63 then s.onFe p (fun x => { x with body := [] }) else s

/-- A write of a register of the page of a partition that only the physical function may write. -/
def fePfWrite (p k : Nat) (v : Word) (s : State) : State :=
  if k = FE_PUNITS p ∨ k = FE_PTRK p ∨ k = FE_PMAPLO p ∨ k = FE_PMAPHI p then
    (if s.rangeRefused p k v then s.setF (FE_PFLAGS.RANGEERR p) 1 else fieldWrite k v s)
  else if k = FE_PHDR p then feHdrWrite p v s
  else fieldWrite k v s

/-- A write of the fail engine block (R358). -/
def feRegWrite (w : Who) (k : Nat) (v : Word) (s : State) : State :=
  let p := (k - 0xF0_1000) / 0x100
  if k < 0xF0_1000 then s
  else if k % 0x100 < 0x34 ∨ k % 0x100 = 0x38 then
    (if w.pf then fePfWrite p k v s else if s.mayWrite w p then s else deniedWrite k p s)
  else if !s.mayWrite w p then deniedWrite k p s
  else if k = FE_PRRQP p then rrqHead p (getBits v 15 0) s
  else if k = FE_PCMD p then feCommand p v s
  else if k = FE_PFLAGS p then
    let s := fieldWrite k v s
    if v.getLsbD 24 then s.wr (FE_PCNT p) 0 else s
  else fieldWrite k v s

/-- A write of a DMA channel register (R280, R300). -/
def chRegWrite (w : Who) (k : Nat) (v : Word) (s : State) : State :=
  let c := (k - 0xF8_0000) / 0x40
  if !(w.pf || (s.chPart c != 15 && s.mayWrite w (s.chPart c))) then deniedWrite k (s.chPart c) s
  else if k = DMA_CH_OWN c then
    if s.f (DMA_CH_CSR.STATE c) ≠ 0 then s
    else if w.pf then fieldWrite k v s
    else (s.setF (DMA_CH_OWN.PRIO c) (getBits v 30 29)).setF (DMA_CH_OWN.OCTX c) (getBits v 15 0)
  else if k = DMA_CH_XLT c then
    let te := if w.pf || v.getLsbD 63 then getBits v 63 63 else s.f (DMA_CH_XLT.TE c)
    (fieldWrite k v s).setF (DMA_CH_XLT.TE c) te
  else if k = DMA_CH_CSR c then
    let s := if v.getLsbD 31 then chGo c s else s
    let s := if v.getLsbD 29 then chResume c s else s
    if v.getLsbD 30 then chAbort c s else s
  else fieldWrite k v s

/-- A write of a register of a stream of a memory stream port (R292, R302). -/
def mspRegWrite (w : Who) (k : Nat) (v : Word) (s : State) : State :=
  let p := (k - 0xF9_0000) / 0x800
  let x := k % 0x800 / 0x40
  if !(w.pf || (s.mspPart p != 15 && s.mayWrite w (s.mspPart p))) then deniedWrite k (s.mspPart p) s
  else if k = MSP_CSR p x then
    let s := fieldWrite k v s
    let s := if v.getLsbD 31 then mspGo p x s else s
    let s := if v.getLsbD 29 then mspResume p x s else s
    if v.getLsbD 30 then mspAbort p x s else s
  else fieldWrite k v s

/-- The partition to which an invalidation of a requester is held (R278). -/
def State.invPart (s : State) (w : Who) : Option Nat :=
  match w with
  | .fn 0 => none
  | .fn f => some ((s.vfPart f).getD 15)
  | .seq q => some ((s.seqPart q).getD 15)
  | .jtag => none

/-- A write of the MMU block (R278, R299). -/
def mmuWrite (w : Who) (k : Nat) (v : Word) (s : State) : State :=
  if k = MMU_INV then tlbInvalidate (s.invPart w) v s
  else if k < MMU_INV then
    let n := (k - 0xFC_0000) / 0x10
    if s.mayWrite w n then fieldWrite k v s else deniedWrite k n s
  else fieldWrite k v s

/-- A write of a whole register whose clock runs, by a requester that reaches it. -/
def regWrite (w : Who) (k : Nat) (v : Word) (s : State) : State :=
  if k < 0x1_0000 then glbWrite k v s
  else if k < 0x2_0000 then rstWrite w k v s
  else if k < 0x3_0000 then (if k < 0x2_0270 then clkIslWrite ((k - 0x2_0000) / 4) v.toNat s else s)
  else if k < 0x4_0000 then (if k = CFG_SCRUBSTAT then fieldsClear [CFG_SCRUBSTAT.FIXED, CFG_SCRUBSTAT.ESSIN, CFG_SCRUBSTAT.NORES] v s else cfgBlockWrite k v s)
  else if inLog k then s
  else if k < 0x8_0000 then errWrite w k v s
  else if k < 0xA_0000 then linkWrite k v s
  else if k < 0x10_0000 then ringWrite w k v s
  else if k < 0x28_0000 then seqRegWrite k v s
  else if k < 0xDC_0000 then islRegWrite k v s
  else if k < 0xF0_0000 then quadWrite k v s
  else if k < 0xF8_0000 then feRegWrite w k v s
  else if k < 0xF9_0000 then chRegWrite w k v s
  else if k < 0xFC_0000 then mspRegWrite w k v s
  else if k < 0x100_0000 then mmuWrite w k v s
  else fieldWrite k v s

/-! ### The access (R10, R11, R33, R37) -/

/-- Hold or drop the lower half of a requester (R10). -/
def setHold (id : Nat) (h : Option (Nat × Nat)) (s : State) : State :=
  { s with sys := { s.sys with holds := match h with
      | some x => Map.set s.sys.holds id x
      | none => Map.del s.sys.holds id } }

/-- A write at the width of the access to a register whose clock runs. -/
def placeWrite (w : Who) (p : Place) (size v : Nat) (s : State) : State :=
  if size = 8 then (if p.w64 && !p.upper then regWrite w p.key (BitVec.ofNat 64 v) s else s)
  else if size ≠ 4 then s
  else if !p.w64 then regWrite w p.key (BitVec.ofNat 64 v) s
  else if !p.upper then setHold w.id (some (p.key, v)) s
  else
    let lo := match Map.find s.sys.holds w.id with
      | some (k, l) => if k = p.key then l else 0
      | none => 0
    regWrite w p.key (BitVec.ofNat 64 (v * 2 ^ 32 + lo)) (setHold w.id none s)

/-- A read at the width of the access from a register whose clock runs. -/
def placeRead (p : Place) (size : Nat) (s : State) : Nat × State :=
  if size = 8 then (if p.w64 && !p.upper then regRead p.key false false s else (0, s))
  else if size ≠ 4 then (0, s)
  else if !p.w64 then regRead p.key false false s
  else
    let (v, s) := regRead p.key p.upper true s
    (if p.upper then v / 2 ^ 32 else v % 2 ^ 32, s)

/-- Whether an access names something behind a clock: a register or the host window. -/
def named (w : Who) (off : Nat) : Bool := (placeOf w (off / 4 * 4)).isSome || inCfgWindow off

/-- Whether an access is one of a host function. -/
def Who.host : Who → Bool
  | .fn _ => true
  | _ => false

/-- The partition that owns a register of a DMA channel, a stream or a stream port's address space (R280, R292, R299). -/
def State.ownerOf (s : State) (off : Nat) : Option Nat :=
  if off < 0xF8_0000 then none
  else if off < 0xF8_1000 then some (s.chPart ((off - 0xF8_0000) / 0x40))
  else if 0xF9_0000 ≤ off ∧ off < 0xF9_C000 then some (s.mspPart ((off - 0xF9_0000) / 0x800))
  else if 0xFC_0000 ≤ off ∧ off < 0xFC_00C0 then some ((off - 0xFC_0000) / 0x10)
  else none

/-- A write by a virtual function of an offset that it does not reach is discarded (R11, R390); one of a register that another partition owns is logged (R280). -/
def outOfReach (w : Who) (off : Nat) (s : State) : State :=
  match w, s.ownerOf off with
  | .fn f, some n => if s.vfPart f = some n ∨ named w off = false ∨ s.regClk off = false then s else deniedWrite (off / 4 * 4) n s
  | _, _ => s

/-- A write of BAR0: whether it completes without a bus error, and the state after it. -/
def barWrite (w : Who) (off size data : Nat) (s : State) : Bool × State :=
  let v := data % 2 ^ (8 * size)
  if !s.reaches w off then (true, outOfReach w off s)
  else if !named w off then (true, s)
  else if !s.regClk off then (if w.host then (true, gatedAccess off s) else (false, s))
  else if inCfgWindow off then (true, if size = 4 ∨ size = 8 then windowPut (bytesLE size v) s else s)
  else
    match placeOf w off with
    | some p => (true, placeWrite w p size v s)
    | none => (true, s)

/-- A read of BAR0: the data, none where it ends as a bus error, and the state after it. -/
def barRead (w : Who) (off size : Nat) (s : State) : Option Nat × State :=
  if !s.reaches w off || !named w off then (some 0, s)
  else if !s.regClk off then (if w.host then (some 0, gatedAccess off s) else (none, s))
  else
    match placeOf w off with
    | some p =>
      let (v, s) := placeRead p size s
      (some v, s)
    | none => (some 0, s)

end Sys2Proof.Machine
end

