-- ==== Sys2Proof/Machine/Transfer.lean ====
section
/-!
DEFINITION. Machine/Transfer.lean: the units that DMA channels and memory stream ports move (R284, R293, R294), to whom registers are unmapped (R275), and the host's
accesses to BAR0 and BAR4 (R10 to R12, R33, R397).
-/
namespace Sys2Proof.Machine

/-- A read of the device physical space, registers included, by the debug port (R472). -/
def debugRead (pa size : Nat) (s : State) : Option Got × State :=
  match s.region pa with
  | .reg off =>
    match barRead .jtag off size s with
    | (some d, s) => (some { data := d, tags := 0, bad := false }, s)
    | (none, s) => (none, s)
  | _ => busRead pa size s

/-- A write of the device physical space, registers included, by the debug port. -/
def debugWrite (pa size data : Nat) (s : State) : WrEnd × State :=
  match s.region pa with
  | .reg off =>
    match barWrite .jtag off size data s with
    | (true, s) => (.done, s)
    | (false, s) => (.error, s)
  | _ => busWrite pa size data 0 false false false s

/-- `DMA_UNIT_TRANSFER` (R284): a running channel moves its next unit. -/
def execDmaUnitTransfer (c : Fin 64) (clash : Bool) (s : State) : Host.Outcome State Fault Refusal :=
  if s.f (DMA_CH_CSR.STATE c) = 1 ∧ (s.getCh c).loaded ∧ s.partDown (s.chPart c) = false then
    .next (chUnit c clash s)
  else .next s

/-- `MSP_READ_COMPLETE` (R293): the next word of a read stream's range arrives, while its share has room. -/
def execMspReadComplete (p : Fin 24) (k : Fin 8) (s : State) : Host.Outcome State Fault Refusal :=
  let m := s.getMsp p k
  let st := s.mspSt p k
  if 1 ≤ st ∧ st ≤ 3 ∧ m.filling ∧ s.mspServed p ∧ 4 * m.buf.items.length < s.share p k then .next (readWord p k s) else .next s

/-- `MSP_WRITE_WORD` (R294): a running write stream takes its next word or token from its tracks. -/
def execMspWriteWord (p : Fin 24) (k : Fin 8) (clash : Bool) (s : State) : Host.Outcome State Fault Refusal :=
  let (f, g) := s.mspGroup p (8 + k)
  let take (s : State) (j : Nat) : State := takeTrack (p / 2) (p % 2) (f + j) s
  if s.mspSt p f ≠ 3 ∨ s.mspServed p = false then .next s
  else
    match s.collect p f g with
    | .nothing => .next s
    | .data j w => .next (writeItem p f w clash (fun s => (take s j).onMsp p f (fun m => { m with txDeal := m.txDeal + 1 })) s)
    | .token w same =>
      .next (writeItem p f w clash (fun s =>
        let s := (List.range g).foldl take s
        let s := (if same then s else s.setF (MSP_CSR.ALIGN p f) 1).onMsp p f (fun m => { m with txDeal := 0 })
        if w.type = tokEOS then mspNotify p f (s.setF (MSP_CSR.STATE p f) 5) else s) s)
    | .skew =>
      .next ((List.range g).foldl (fun s j =>
        match s.trackWord (p / 2) (p % 2) (f + j) with
        | some w => if AWord.tk w then s else take (s.setF (MSP_CSR.ALIGN p f) 1) j
        | none => s) s)

/-! ### Host accesses -/

/-- A write in BAR4 of a function (R397 to R399, R409): ring memory, or a register of the doorbell page; the rest is discarded. -/
def bar4Write (f off size v : Nat) (s : State) : State :=
  let db := doorbellOffset f
  let rings := cqOffset f + ringSize f * 32
  if off + size ≤ rings then s.onMem (fun m => Memory.puts m (ringKey f off) (bytesLE size v))
  else if size = 4 ∧ off = db then sqtWrite f v s
  else if size = 4 ∧ off = db + 8 then cqhWrite f v s
  else if size = 4 ∧ off = db + 0x10 then mbxCtlWrite f v s
  else if size = 4 ∧ off = db + 0x14 then fieldWrite (MBX_STAT f) (BitVec.ofNat 64 v) s
  else s

/-- `REGISTER_WRITE` (R10 to R13): a write in BAR0, or in BAR4, of `wide` 8 or 4 bytes by a host function that answers memory requests.  One that is not aligned to its
size is an access of the register of no width, which changes nothing (R10; log entry 51). -/
def execRegisterWrite (f : Fin 13) (bar4 : Bool) (off : BitVec 24) (wide : Bool) (v : BitVec 64) (s : State) : Host.Outcome State Fault Refusal :=
  let size := if wide then 8 else 4
  if s.fnOpen f = false then .next s
  else if bar4 then .next (bar4Write f off.toNat size (v.toNat % 2 ^ (8 * size)) s)
  else if off.toNat % size ≠ 0 then .next s
  else .next (barWrite (.fn f) off.toNat size v.toNat s).2

/-- `GATED_ACCESS` (R33): an access by a host function to a register or the window of a domain whose clock does not run. -/
def execGatedAccess (f : Fin 13) (off : BitVec 24) (write : Bool) (s : State) : Host.Outcome State Fault Refusal :=
  let o := off.toNat / 4 * 4
  if s.fnOpen f && s.reaches (.fn f) o && named (.fn f) o && !s.regClk o then
    let s := gatedAccess o s
    .next (if write then s else s.emit (.read 0))
  else .next s

/-- `GATED_ACCESS_CLEAR` (R33): a write of 1 to `CLEAR` by the physical function. -/
def execGatedAccessClear (s : State) : Host.Outcome State Fault Refusal := pfWrite (glbWrite GLB_GATED_ACCESS 0x8000_0000) s

/-! ### The debug port (R472, R473) -/

/-- The result of a `DBGACC` operation is kept for the next capture: status 0 OK, 1 bus error, 2 locked, 3 busy, and the data. -/
def dbgEnd (status : Nat) (data : Word) (s : State) : State := { s with sys := { s.sys with dbgResult := status, dbgData := data } }

/-- The operation of `DBGACC`, open. -/
def dbgRun (op : DbgOp) (s : State) : State :=
  match op with
  | .read pa =>
    match debugRead (pa.toNat / 8 * 8) 8 s with
    | (some g, s) => dbgEnd 0 (BitVec.ofNat 64 g.data) s
    | (none, s) => dbgEnd 1 0 s
  | .write pa data =>
    match debugWrite (pa.toNat / 8 * 8) 8 data.toNat s with
    | (.error, s) => dbgEnd 1 0 s
    | (.waits, s) => dbgEnd 3 0 s
    | (_, s) => dbgEnd 0 0 s
  | .halt q => if 24 ≤ q.val ∨ s.seqClk q = false then dbgEnd 1 0 s else dbgEnd 0 0 (seqRun q false s)
  | .run q => if 24 ≤ q.val ∨ s.seqClk q = false then dbgEnd 1 0 s else dbgEnd 0 0 (seqRun q true s)

/-- `DBGACC` (R472): the capture returns the previous result; the update runs the operation, unless the debug level closes the port (R473). -/
def execDbgacc (op : DbgOp) (s : State) : Host.Outcome State Fault Refusal :=
  let s := (jtagSelect 0x10 s).emit (.scan 0x10 (s.sys.dbgResult + s.sys.dbgData.toNat * 2 ^ 64))
  .next (if s.dbgOpen then dbgRun op s else dbgEnd 2 0 s)

end Sys2Proof.Machine
end

