-- ==== Sys2Proof/Machine/Firmware.lean ====
section
/-!
DEFINITION. Machine/Firmware.lean: the mailbox commands of R401 that firmware executes.  A command that has to wait takes its row again: the row stands for the moments at
which firmware looks at what it waits for.  `expired` says that the time a command gives its wait has passed, `memOk` that the host memory which a parameter
names answers.
-/
namespace Sys2Proof.Machine

/-! ### Host buffers (R401) -/

/-- Whether a parameter is a host bus address in the space that reaches the host. -/
def addrOk (a : Word) (n : Nat) : Bool := decide (a.toNat + n ≤ 2 ^ 51)

/-- Whether a parameter is a buffer that a command writes, which is 64-byte aligned. -/
def bufOk (a : Word) (n : Nat) : Bool := a.toNat % 64 == 0 && addrOk a n

/-- Write bytes to host memory. -/
def hostPut (a : Nat) (bs : List Byte) (s : State) : State :=
  let n := bs.length / 8 * 8
  let s := busPut (hostBase + a) (bs.take n) s
  (bs.drop n).zipIdx.foldl (fun s x => (busWrite (hostBase + a + n + x.2) 1 x.1.toNat 0 false false false s).2) s

/-- Bytes of host memory. -/
def State.hostGet (s : State) (a n : Nat) : List Byte := Memory.gets s.mem (hostBase + a) n

/-- A command ends by writing a buffer: what the buffer holds, and the results. -/
def bufferEnd (k : Nat) (j : Job) (a : Word) (bs : List Byte) (memOk : Bool) (r0 r1 : Word) (s : State) : State :=
  if bs = [] then jobEnd k j csOK 0 r0 r1 s
  else if memOk then jobEnd k j csOK 0 r0 r1 (hostPut a.toNat bs s)
  else jobEnd k j csHOSTMEM 0 0 0 s

/-- `STATE` of the partition of a job ends it. -/
def stateEnd (k : Nat) (j : Job) (s : State) : State :=
  let st := s.f (GLB_PART_CFG.STATE j.d.part.toNat)
  jobEnd k j csSTATE st 0 0 s

/-! ### Information services -/

/-- `IMAGE_ID` of the image last loaded in a partition (R360). -/
def State.imageId (s : State) (n : Nat) : Word := BitVec.ofNat 64 (hnum (s.loadedHdr n) 0x020 8)

/-- `GET_INFO` (R2, R360, R401). -/
def getInfo (k : Nat) (j : Job) (s : State) : State :=
  jobEnd k j csOK 0 (BitVec.ofNat 64 (s.rd GLB_DEVICE_ID).toNat ||| BitVec.ofNat 64 ((s.rd GLB_REVISION).toNat * 2 ^ 32))
    (BitVec.ofNat 64 (Config.firmwareVersion.toNat + b2n (s.f RST_STAT.SVC == 2) * 2 ^ 32 + s.f CFG_BOOT.ARRAY * 2 ^ 33 +
      (Config.imageReport ((List.range 12).map s.imageId)).toNat * 2 ^ 36)) s

def execGetInfo (f : Fin 13) (d : Desc) (s : State) : Host.Outcome State Fault Refusal := .next (firmware 0x01 f d getInfo s)

/-- Whether a function sees the health of a row (R462). -/
def State.seesRow (s : State) (fn row : Nat) : Bool := fn == 0 || s.vfPart fn == some (s.owner row)

/-- The 848 bytes of the health report (R462). -/
def State.healthBytes (s : State) (fn : Nat) : List Byte :=
  let word (see : Bool) (k : Nat) : List Byte := bytesLE 4 (if see then (s.rd k).toNat else 0)
  (List.range 156).flatMap (fun i => word (s.seesRow fn (rowOf i)) (HLTH_ISL i)) ++
    (List.range 48).flatMap (fun q => word (s.seesRow fn (q / 4)) (HLTH_LQ q)) ++
    (List.range 6).flatMap (fun r => word (fn == 0) (HLTH_RAIL r)) ++ bytesLE 8 s.sys.healthAt.toNat

/-- `READ_HEALTH` (R462); a shorter buffer receives what it holds. -/
def readHealth (memOk : Bool) (k : Nat) (j : Job) (s : State) : State :=
  let bs := (s.healthBytes j.fn).take j.d.p1.toNat
  if bufOk j.d.p0 bs.length then bufferEnd k j j.d.p0 bs memOk (BitVec.ofNat 64 bs.length) 0 s else jobEnd k j csBADPARAM 0 0 0 s

def execReadHealth (f : Fin 13) (d : Desc) (memOk : Bool) (s : State) : Host.Outcome State Fault Refusal := .next (firmware 0x07 f d (readHealth memOk) s)

/-- The records that a function reads, oldest first (R458). -/
def State.errorBytes (s : State) (fn : Nat) : List (List Byte) :=
  let h := s.f ERR_LOGP.HEAD
  (List.range (if s.logFull then 4096 else (s.f ERR_LOGP.TAIL + 4096 - h) % 4096)).filterMap (fun x =>
    match Map.find s.log ((h + x) % 4096) with
    | some r => if fn = 0 ∨ s.vfPart fn = some (bitsOf r.w1.toNat 7 4) then some ([r.w0, r.w1, r.w2, r.w3].flatMap (fun w => bytesLE 8 w.toNat)) else none
    | none => none)

/-- `READ_ERRORS` (R458): whole records, until the buffer is full. -/
def readErrors (memOk : Bool) (k : Nat) (j : Job) (s : State) : State :=
  let bs := ((s.errorBytes j.fn).take (j.d.p1.toNat / 32)).flatten
  if bufOk j.d.p0 bs.length then bufferEnd k j j.d.p0 bs memOk (BitVec.ofNat 64 bs.length) 0 s else jobEnd k j csBADPARAM 0 0 0 s

def execReadErrors (f : Fin 13) (d : Desc) (memOk : Bool) (s : State) : Host.Outcome State Fault Refusal := .next (firmware 0x10 f d (readErrors memOk) s)

/-- The device and decoder registers as `CXL_STATUS` writes them. -/
def State.cxlBytes (s : State) : List Byte :=
  ((List.range 8).map CXP_DEV ++ (List.range 16).flatMap (fun d => [CXP_HDM0 d, CXP_HDM1 d, CXP_HDM2 d, CXP_HDM3 d])).flatMap (fun r => bytesLE 8 (regView r s))

/-- `CXL_STATUS` (R401). -/
def cxlStatus (memOk : Bool) (k : Nat) (j : Job) (s : State) : State :=
  let r0 := BitVec.ofNat 64 ((s.rd (CXP_PSTAT 0)).toNat + (s.rd (CXP_PSTAT 1)).toNat * 2 ^ 32)
  let r1 := BitVec.ofNat 64 (((List.range 8).filter (fun d => s.on (CXP_DEV.ACTIVE d))).foldl (fun a d => a + 2 ^ d) 0)
  if j.d.p0 = 0 then jobEnd k j csOK 0 r0 r1 s
  else if bufOk j.d.p0 576 then bufferEnd k j j.d.p0 s.cxlBytes memOk r0 r1 s
  else jobEnd k j csBADPARAM 0 0 0 s

def execCxlStatus (f : Fin 13) (d : Desc) (memOk : Bool) (s : State) : Host.Outcome State Fault Refusal := .next (firmware 0x0E f d (cxlStatus memOk) s)

/-! ### `LOAD_PARTITION` (R8, R25, R280, R387, R401) -/

/-- The sequencers that firmware assigns: the lowest-numbered free ones; when there are too few, the lowest others, so that the checks of R23 report the clash. -/
def State.pickSeqs (s : State) (count : Nat) : List Nat :=
  let free := (List.range 24).filter (fun q => (s.seqPart q).isNone)
  (free ++ (List.range 24).filter (fun q => !free.contains q)).take count

/-- Firmware writes both registers of a partition that is not defined, and enables it. -/
def loadDefine (d : Desc) (s : State) : State :=
  let n := d.part.toNat
  let p0 := d.p0.toNat
  let qs := s.pickSeqs (bitsOf p0 28 24)
  let s := partSeqWrite n (BitVec.ofNat 64 (qs.foldl (fun a q => a + 2 ^ q) 0 + qs.foldl min 31 * 2 ^ 24)) s
  partCfgWrite n (2 ^ 31 + bitsOf p0 19 16 * 2 ^ 20 + bitsOf p0 11 8 * 2 ^ 8 + bitsOf p0 3 0) s

/-- The fields that the definition sets. -/
def defineFields (n : Nat) : List RF :=
  [GLB_PART_CFG.EN n, GLB_PART_CFG.VF n, GLB_PART_CFG.NROWS n, GLB_PART_CFG.FIRST_ROW n, GLB_PART_SEQ.PRIMARY n, GLB_PART_SEQ.MASK n]

/-- The registers of the fail-engine block, by offset in the page: all but `FE_PnRRQP`. -/
def feBlock : List Nat := [0x00, 0x08, 0x10, 0x18, 0x20, 0x28, 0x30, 0x38]

/-- Firmware writes the fail-engine block, and sets `HEAD` to 0. -/
def loadFe (n a : Nat) (s : State) : State :=
  let s := feBlock.foldl (fun s o => fePfWrite n (0xF0_1000 + n * 0x100 + o) (BitVec.ofNat 64 (numLE (s.hostGet (a + o) (if o = 0x30 then 4 else 8)))) s) s
  rrqHead n 0 s

/-- The fields of the fail-engine block that the block sets: those of its registers that software writes, and `HEAD`. -/
def feFields (n : Nat) : List RF :=
  FE_PRRQP.HEAD n :: feBlock.flatMap (fun o =>
    let r := 0xF0_1000 + n * 0x100 + o
    match regDesc r with
    | some d => (d.flds.filter (fun f => f.acc == .rw)).map (fun f => ⟨r, f.hi, f.lo⟩)
    | none => [])

/-- The channels of the mask that are idle become the partition's, with the host as their owner. -/
def loadChannels (n mask : Nat) (s : State) : List RF × State :=
  let cs := (onesOf 64 mask).filter (fun c => s.f (DMA_CH_CSR.STATE c) == 0)
  (cs.flatMap (fun c => [DMA_CH_OWN.PART c, DMA_CH_OWN.KIND c]), cs.foldl (fun s c => (s.setF (DMA_CH_OWN.PART c) n).setF (DMA_CH_OWN.KIND c) 0) s)

/-- Firmware writes the island-memory leaves and remembers where, for later repairs (R35); false when an upper table is missing. -/
def loadLeaves (n : Nat) (d : Desc) (s : State) : Bool × State :=
  if d.p6 = 0 then (true, s)
  else
    let pt := getBits d.p5 51 12 * 4096
    let (ok, s) := writeLeaves n pt d.p6.toNat s
    (ok, { s with sys := { s.sys with leaves := Map.set s.sys.leaves n (pt, d.p6.toNat) } })

/-- Bytes of host memory up to the first that is poisoned, and whether one is. -/
def State.hostSound (s : State) (a n : Nat) : List Byte × Bool :=
  match (List.range n).find? (fun x => s.ecc (hostBase + a + x) == 2) with
  | some x => (s.hostGet a x, true)
  | none => (s.hostGet a n, false)

/-- The image is streamed into the window, or the slot is reloaded. -/
def loadStream (mode n : Nat) (d : Desc) (s : State) : State :=
  if mode = 2 then loadGo 4 0 n s
  else
    let (bs, bad) := s.hostSound d.p1.toNat d.p2.toNat
    (loadGo 0 mode n s).onCfg (fun c => { c with feed := bs, feedBad := bad })

/-- Host memory that stops answering while an image is streamed (R370): the bytes not yet read are lost. -/
def loadUnread (s : State) : State := if s.cfg.feed = [] then s else s.onCfg (fun c => { c with feed := [], feedBad := true })

/-- Whether the parameters of `LOAD_PARTITION` are in range. -/
def loadParamsOk (mode : Nat) (d : Desc) : Bool :=
  decide (mode < 3) && (if mode = 2 then d.p2 == 0 else addrOk d.p1 d.p2.toNat) && addrOk d.p3 64 && d.p6.toNat % 4096 == 0

/-- What firmware writes for a defined partition before it starts the load. -/
def loadSetup (mode : Nat) (k : Nat) (j : Job) (s : State) : State :=
  let n := j.d.part.toNat
  let s := if j.d.p3 = 0 then s else jobSets k (feFields n) (loadFe n j.d.p3.toNat s)
  let (fs, s) := loadChannels n j.d.p4.toNat s
  let s := jobSets k (fs ++ [MMU_PART.PTBASE n, MMU_PART.ASID n]) (fieldWrite (MMU_PART n) j.d.p5 s)
  match loadLeaves n j.d s with
  | (false, s) => jobEnd k j csBADPARAM 0 0 0 s
  | (true, s) => jobNote k 1 (loadStream mode n j.d s)

/-- The first part of the command: its checks, and the definition of the partition. -/
def loadFirst (memOk : Bool) (k : Nat) (j : Job) (s : State) : State :=
  let n := j.d.part.toNat
  let mode := bitsOf j.d.p0.toNat 33 32
  if !loadParamsOk mode j.d then jobEnd k j csBADPARAM 0 0 0 s
  else if s.f RST_STAT.SVC ≠ 2 ∧ (mode ≠ 0 ∨ n ≠ 0) then jobEnd k j csNOTREADY 0 0 0 s
  else if s.on CFG_STAT.BUSY then s
  else
    let s := if s.enabled n then s else jobSets k (defineFields n) (loadDefine j.d s)
    let e := s.f (GLB_PART_CFG.ERRCODE n)
    if !s.enabled n then jobEnd k j csPARTDEF e (BitVec.ofNat 64 (e * 2 ^ 8)) 0 s
    else if mode = 0 ∧ s.f (GLB_PART_CFG.STATE n) = stRUNNING then stateEnd k j s
    else if !memOk && (mode != 2 || j.d.p3 != 0) then jobEnd k j csHOSTMEM 0 0 0 s
    else loadSetup mode k j s

/-- `LOAD_PARTITION`: firmware waits for the configuration controller, and completes with the code of the load. -/
def loadPartition (memOk : Bool) (k : Nat) (j : Job) (s : State) : State :=
  let n := j.d.part.toNat
  if !j.started then loadFirst memOk k j s
  else if s.loadNames n then (if memOk then s else loadUnread s)
  else
    let code := Map.getD s.cfg.last n 0
    jobEnd k j (if code = 0 then csOK else csCONFIG) code (BitVec.ofNat 64 (code + s.f (GLB_PART_CFG.ERRCODE n) * 2 ^ 8)) 0 s

def execLoadPartition (f : Fin 13) (d : Desc) (memOk : Bool) (s : State) : Host.Outcome State Fault Refusal := .next (firmware 0x02 f d (loadPartition memOk) s)

/-! ### `UNLOAD_PARTITION`, `START_PARTITION`, `STOP_PARTITION` -/

/-- The band is held as for a hold load (R379), and blank content stands in every frame. -/
def unloadBand (n : Nat) (s : State) : State :=
  let s := captureDrop n (holdPins (fun p => s.pinPart p == n) s)
  let s := (s.islandsOf n).foldl (fun s i => islHold i s) ((s.seqsOf n).foldl (fun s q => seqReset q s) s)
  (s.islandsOf n).foldl (fun s i => (List.range 128).foldl (fun s k => s.setFrame i k (CfgFrame.of (s.faddr (s.firstRow n) i k) (blankFrame k))) s) s

/-- `UNLOAD_PARTITION` (R24, R381): refused while the partition is busy or RUNNING. -/
def unloadPartition (k : Nat) (j : Job) (s : State) : State :=
  let n := j.d.part.toNat
  let st := s.f (GLB_PART_CFG.STATE n)
  if s.enabled n && (st == stEMPTY || st == stSTOPPED || st == stINVALID) then
    jobEnd k j csOK 0 0 0 (partDisable n ((unloadBand n s).setF (CFG_RESVAL.VALID.bit n) 0))
  else stateEnd k j s

def execUnloadPartition (f : Fin 13) (d : Desc) (s : State) : Host.Outcome State Fault Refusal := .next (firmware 0x03 f d unloadPartition s)

/-- `START_PARTITION` (R26, R255, R341): only a STOPPED partition is started. -/
def startPartition (k : Nat) (j : Job) (s : State) : State :=
  let n := j.d.part.toNat
  if s.enabled n && s.f (GLB_PART_CFG.STATE n) == stSTOPPED then jobEnd k j csOK 0 0 0 (startPart n (!bitOf j.d.p0.toNat 0) s) else stateEnd k j s

def execStartPartition (f : Fin 13) (d : Desc) (s : State) : Host.Outcome State Fault Refusal := .next (firmware 0x04 f d startPartition s)

/-- `STOP_PARTITION` (R256, R401): the stop is requested once (R8), and complete when every request to stop has been taken at its safe point. -/
def stopPartition (k : Nat) (j : Job) (s : State) : State :=
  let n := j.d.part.toNat
  let st := s.f (GLB_PART_CFG.STATE n)
  if s.enabled n && (st == stSTOPPED || st == stRUNNING) then
    let s := if j.started then stopSeen n s else jobSets k (s.runFields n) (stopPart n s)
    if s.stopsDue n then jobNote k 1 s else jobEnd k j csOK 0 0 0 s
  else stateEnd k j s

def execStopPartition (f : Fin 13) (d : Desc) (s : State) : Host.Outcome State Fault Refusal := .next (firmware 0x05 f d stopPartition s)

/-! ### `SET_POWER` (R447) -/

/-- The request, once, and again while `ERR` reads BURST. -/
def powerRequest (k : Nat) (j : Job) (s : State) : State :=
  let n := j.d.part.toNat
  let r := bitsOf j.d.p0.toNat 1 0
  if !j.started then
    jobSets k [PWR_PART.RUNG n] (rungRequest n r { s with sys := { s.sys with lastDefer := Map.del s.sys.lastDefer n } })
  else if s.f (PWR_PART.ERR n) = 2 ∧ s.on (PWR_PART.BUSY n) = false then
    (let s := rungRequest n r s
     if s.f (PWR_PART.ERR n) = 0 then jobSets k [PWR_PART.RUNG n] s else s)
  else s

/-- `SET_POWER`: complete when `CUR` equals the request; `expired` ends the retries after BURST. -/
def setPower (expired : Bool) (k : Nat) (j : Job) (s : State) : State :=
  let n := j.d.part.toNat
  let r := bitsOf j.d.p0.toNat 1 0
  let s := powerRequest k j s
  let busy := s.on (PWR_PART.BUSY n)
  if (!s.enabled n && r != 0) || (!busy && s.f (PWR_PART.ERR n) == 1) then stateEnd k j s
  else if !busy && s.f (PWR_PART.ERR n) == 2 then (if expired then jobEnd k j csTIMEOUT 0 0 0 s else jobNote k 1 s)
  else if s.f (PWR_PART.CUR n) = r then
    jobEnd k j csOK 0 (BitVec.ofNat 64 (r + min (Map.getD s.sys.lastDefer n 0) 65535 * 2 ^ 16)) 0 s
  else jobNote k 1 s

def execSetPower (f : Fin 13) (d : Desc) (expired : Bool) (s : State) : Host.Outcome State Fault Refusal := .next (firmware 0x06 f d (setPower expired) s)

/-! ### `REPAIR_ISLAND` (R463 to R465) -/

/-- The first check of R463 that fails: its status and detail. -/
def State.repairCheck (s : State) (d : Desc) : Option (Nat × Nat) :=
  let row := bitsOf d.p0.toNat 3 0
  let c := bitsOf d.p0.toNat 11 8
  let n := s.owner row
  let st := s.f (GLB_PART_CFG.STATE n)
  if s.f RST_STAT.SVC ≠ 2 then some (csNOTREADY, 0)
  else if 11 < row ∨ 11 < c then some (csBADPARAM, 1)
  else if s.spare row < 12 then some (csBADPARAM, 2)
  else if s.enabled n ∧ (st = stLOADING ∨ st = stREPAIRING ∨ st = stINVALID) then some (csSTATE, st)
  else if s.enabled n ∧ (st = stSTOPPED ∨ st = stRUNNING) ∧ bitOf (s.f CFG_RESVAL.VALID) n = false then some (csBADPARAM, 3)
  else none

/-- A repair that succeeded returns the pointer, and the time it took, which is open. -/
def repairOk (k : Nat) (j : Job) (row : Nat) (s : State) : State :=
  let (t, s) := s.fresh
  jobEnd k j csOK 0 (BitVec.ofNat 64 (s.spare row)) t s

/-- The command before its repair has begun: a virtual function names only rows of its partition (R6); another repair comes to its end first. -/
def repairFirst (k : Nat) (j : Job) (s : State) : State :=
  let row := bitsOf j.d.p0.toNat 3 0
  let c := bitsOf j.d.p0.toNat 11 8
  if j.fn ≠ 0 ∧ row ≤ 11 ∧ s.vfPart j.fn ≠ some (s.owner row) then jobEnd k j csNOTPERMITTED 0 0 0 s
  else match s.repairCheck j.d with
  | some (st, detail) => jobEnd k j st detail 0 0 s
  | none =>
    if s.sys.repair.isSome then s
    else if s.enabled (s.owner row) ∧ s.f (GLB_PART_CFG.STATE (s.owner row)) ≠ stEMPTY then
      jobNote k 1 (jobSets k (s.runFields (s.owner row)) (repairStep (repairBegin (row * 13 + c) s)))
    else repairOk k j row (movePointer row c s)

/-- `REPAIR_ISLAND`: each time the row is taken firmware performs its next step. -/
def repairIsland (k : Nat) (j : Job) (s : State) : State :=
  if !j.started then repairFirst k j s
  else
    match s.sys.repair with
    | none => jobEnd k j csCONFIG 0 0 0 s
    | some r =>
      if r.step ≠ 9 then repairStep s
      else if s.loadNames r.part then s
      else
        match repairFinish r s with
        | (true, s) => repairOk k j r.row (if r.ran then jobSets k ((s.primary r.part).toList.map SEQ_CTL.RUN) s else s)
        | (false, s) => jobEnd k j csCONFIG (Map.getD s.cfg.last r.part 0) 0 0 s

def execRepairIsland (f : Fin 13) (d : Desc) (s : State) : Host.Outcome State Fault Refusal := .next (firmware 0x08 f d repairIsland s)

/-! ### `CAPTURE` (R439, R471) -/

/-- `CAPTURE`: a capture is started, waited for and written; one that is dropped meanwhile ends the command. -/
def capture (memOk : Bool) (k : Nat) (j : Job) (s : State) : State :=
  let n := j.d.part.toNat
  let size := 64 + (s.rowsOf n).length * 49152
  if s.f RST_STAT.SVC ≠ 2 then jobEnd k j csNOTREADY 0 0 0 s
  else if !s.enabled n then stateEnd k j s
  else if bitOf j.d.p0.toNat 0 then jobEnd k j csOK 0 0 0 (captureResume n s)
  else if !bufOk j.d.p1 size then jobEnd k j csBADPARAM 0 0 0 s
  else
    let s := if j.started then s else jobNote k 1 (captureGo n s)
    let st := s.f (ERR_CAP.STATE n)
    if st = 0 then stateEnd k j s
    else if st ≠ 2 then s
    else if j.d.p1 = 0 then jobEnd k j csOK 0 0 0 s
    else
      let bs := captureBytes n s
      bufferEnd k j j.d.p1 bs memOk (BitVec.ofNat 64 bs.length) 0 s

def execCapture (f : Fin 13) (d : Desc) (memOk : Bool) (s : State) : Host.Outcome State Fault Refusal := .next (firmware 0x09 f d (capture memOk) s)

/-! ### `READ_REPAIR` (R356) -/

/-- An entry of a partition's ring, if its memory answers. -/
def ringEntry (p ix : Nat) (s : State) : Option (List Byte) × State :=
  match busWords 16 (s.f (FE_PRRQ.BASE p) * 128 + ix * 128) s with
  | (some (ws, false), s) => (some (ws.flatMap (bytesLE 8)), s)
  | (_, s) => (none, s)

/-- Places between `HEAD` and `TAIL`, oldest first. -/
def State.ringPlaces (s : State) (p : Nat) : List Nat :=
  let n := s.ringLen p
  let h := s.f (FE_PRRQP.HEAD p) % n
  (List.range ((s.f (FE_PRRQP.TAIL p) + n - h) % n)).map (fun x => (h + x) % n)

/-- The newest entry of a unit among places, and its place. -/
def newestOf (p u : Nat) (places : List Nat) (s : State) : Option (Nat × List Byte) × State :=
  places.foldl (fun x ix =>
    match ringEntry p ix x.2 with
    | (some e, s) => (if numLE (e.take 2) % 2 ^ 14 = u then some (ix, e) else x.1, s)
    | (none, s) => (x.1, s)) (none, s)

/-- The entry that the command asks for. -/
def repairEntry (p : Nat) (d : Desc) (s : State) : Option (Nat × List Byte) × State :=
  if bitOf d.p0.toNat 15 then newestOf p (bitsOf d.p0.toNat 13 0) (s.ringPlaces p) s
  else
    match s.ringPlaces p with
    | [] => (none, s)
    | ix :: _ =>
      match ringEntry p ix s with
      | (some e, s) => (some (ix, e), s)
      | (none, s) => (none, s)

/-- `READ_REPAIR`: the entry is written and `HEAD` moves past it; for a named ARMED unit firmware requests a solve and waits. -/
def readRepair (memOk expired : Bool) (k : Nat) (j : Job) (s : State) : State :=
  let p := j.d.part.toNat
  let u := bitsOf j.d.p0.toNat 13 0
  if !bufOk j.d.p1 128 then jobEnd k j csBADPARAM 0 0 0 s
  else
    match repairEntry p j.d s with
    | (some (ix, e), s) =>
      if memOk then jobEnd k j csOK 0 0 0 (rrqHead p ((ix + 1) % s.ringLen p) (hostPut j.d.p1.toNat e s)) else jobEnd k j csHOSTMEM 0 0 0 s
    | (none, s) =>
      if j.started then (if expired then jobEnd k j csTIMEOUT 0 0 0 s else s)
      else if bitOf j.d.p0.toNat 15 ∧ s.unitOf p u = true ∧ (s.getUnit u).st = 2 then jobNote k 1 (queueSolve u s)
      else jobEnd k j csNORESULT 0 0 0 s

def execReadRepair (f : Fin 13) (d : Desc) (memOk expired : Bool) (s : State) : Host.Outcome State Fault Refusal :=
  .next (firmware 0x0A f d (readRepair memOk expired) s)

/-! ### `SET_LANES` (R180, R401) -/

/-- The lanes that the mask names. -/
def laneMask (d : Desc) : List Nat := onesOf 192 (d.p0.toNat + d.p1.toNat * 2 ^ 64 + d.p2.toNat * 2 ^ 128)

/-- Whether a named lane carries its group's stream, so that it can be `UP` (R161). -/
def State.laneNeeded (s : State) (l : Nat) : Bool :=
  let (f, _, n, _) := s.groupOf l
  decide (f ≤ l) && decide (l < f + n)

/-- The quad whose `LQ_LSSEL` serves a lane's row end (R181). -/
def rowEndQuad (l : Nat) : Nat := 4 * laneRow l + 2 * laneEnd l

/-- The fields that the command sets. -/
def laneFields (ls : List Nat) : List RF :=
  ls.flatMap (fun l => [LANE_BOND.G l, LANE_BOND.N l, LQ_CFG.RATE (laneQuad l), LQ_CFG.FEC (laneQuad l), LANE_CTL.EN l, LANE_CTL.TXT l, LANE_CTL.RXT l, LANE_CTL.RPEN l,
    LANE_CTL.RPQ l, LANE_CTL.RPU l, LANE_CTL.FLEN l, LQ_LSSEL.SBTX (rowEndQuad l), LQ_LSSEL.SBBIT (rowEndQuad l), LQ_LSSEL.LANE (rowEndQuad l)])

/-- Firmware writes `LQ_LSSEL` of the row ends of the named lanes (R180), with values that the command does not give: free values. -/
def lssels (ls : List Nat) (s : State) : State :=
  ((List.range 48).filter (fun q => ls.any (fun l => rowEndQuad l == q))).foldl (fun s q =>
    let (v, s) := s.fresh
    ((s.setF (LQ_LSSEL.SBTX q) (getBits v 15 8)).setF (LQ_LSSEL.SBBIT q) (getBits v 4 3)).setF (LQ_LSSEL.LANE q) (getBits v 2 0)) s

/-- Firmware writes the bonds, the quads, the lanes and the row ends' selections. -/
def laneSetup (ls : List Nat) (c : Nat) (s : State) : State :=
  let s := ls.foldl (fun s l => (s.setF (LANE_BOND.G l) (bitsOf c 5 4)).setF (LANE_BOND.N l) (bitsOf c 7 6)) s
  let s := ((List.range 48).filter (fun q => ls.any (fun l => laneQuad l == q))).foldl (fun s q => quadConfig q (bitsOf c 2 0 + bitsOf c 3 3 * 16) s) s
  lssels ls <| ls.foldl (fun s l =>
    laneCtl l (2 ^ 31 + bitsOf c 8 8 * 2 ^ 30 + bitsOf c 9 9 * 2 ^ 29 + bitsOf c 10 10 * 2 ^ 28 + bitsOf c 12 11 * 2 ^ 26 + bitsOf c 16 13 * 2 ^ 22 +
      bitsOf c 21 17 * 2 ^ 17 + s.f (LANE_CTL.ACKTO l) * 2 ^ 8) s) s

/-- The map of lanes that are `UP`. -/
def State.lanesUpMap (s : State) (ls : List Nat) : Nat := (ls.filter (fun l => s.on (LANE_STAT.UP l))).foldl (fun a l => a + 2 ^ l) 0

/-- `SET_LANES`: refused while the partition is RUNNING; complete when the lanes are `UP` or the wait has expired. -/
def setLanes (expired : Bool) (k : Nat) (j : Job) (s : State) : State :=
  let n := j.d.part.toNat
  let ls := laneMask j.d
  let c := j.d.p3.toNat
  if !j.started && (!s.enabled n || s.f (GLB_PART_CFG.STATE n) == stRUNNING) then stateEnd k j s
  else if !j.started && (ls.any (fun l => s.owner (laneRow l) != n) || decide (4 < bitsOf c 2 0)) then jobEnd k j csBADPARAM 0 0 0 s
  else
    let s := if j.started then s else jobNote k 1 (jobSets k (laneFields ls) (laneSetup ls c s))
    if expired || ls.all (fun l => s.on (LANE_STAT.UP l) || !s.laneNeeded l) then
      let m := s.lanesUpMap ls
      jobEnd k j csOK 0 (BitVec.ofNat 64 m) (BitVec.ofNat 64 (m / 2 ^ 64)) s
    else s

def execSetLanes (f : Fin 13) (d : Desc) (expired : Bool) (s : State) : Host.Outcome State Fault Refusal := .next (firmware 0x0B f d (setLanes expired) s)

/-! ### Ring, flash and warm reset -/

/-- `RING_JOIN` (R424): complete at step 4 or with `JERR`. -/
def ringJoinCmd (k : Nat) (j : Job) (s : State) : State :=
  let s := if j.started then s
    else
      let s := if s.on RING_STAT.JOINED then s else s.setF RING_CTL.ID (bitsOf j.d.p0.toNat 5 0)
      jobNote k 1 (jobSets k [RING_CTL.ID] (ringJoin s))
  if s.on RING_STAT.JOINED then jobEnd k j csOK 0 (BitVec.ofNat 64 (s.f RING_CTL.ID + s.nodesSeen % 128 * 2 ^ 16)) 0 s
  else if s.ring.step = 0 ∧ s.f RING_STAT.JERR ≠ 0 then jobEnd k j csBADPARAM (s.f RING_STAT.JERR) 0 0 s
  else s

def execRingJoin (f : Fin 13) (d : Desc) (s : State) : Host.Outcome State Fault Refusal := .next (firmware 0x0C f d ringJoinCmd s)

/-- `RING_LEAVE` (R424): complete when `JOINED` = 0. -/
def ringLeaveCmd (k : Nat) (j : Job) (s : State) : State :=
  let s := if j.started then s else jobNote k 1 (ringLeave s)
  if s.on RING_STAT.JOINED then s else jobEnd k j csOK 0 0 0 s

def execRingLeave (f : Fin 13) (d : Desc) (s : State) : Host.Outcome State Fault Refusal := .next (firmware 0x0D f d ringLeaveCmd s)

/-- The update slots of the boot flash (R376, R377, R438): address and size. -/
def flashSlot (array : Bool) : Nat × Nat := if array then (flashUpdate, 0x0300_0000) else (0x0400_0000, 0x0100_0000)

/-- `UPDATE_FLASH` (R377): the image is checked, the slot erased, written and compared; `bad` is the step of these that the flash makes fail, 0 none.  The slot is left erased when
a step fails. -/
def updateFlash (memOk : Bool) (bad : Nat) (k : Nat) (j : Job) (s : State) : State :=
  let array := bitOf j.d.p0.toNat 0
  let (base, size) := flashSlot array
  let len := j.d.p2.toNat
  if !addrOk j.d.p1 len || decide (size < len) then jobEnd k j csBADPARAM 0 0 0 s
  else if !memOk then jobEnd k j csHOSTMEM 0 0 0 s
  else
    let bs := s.hostGet j.d.p1.toNat len
    let erased := s.onMem (fun m => Memory.wipe m (flashKey base) (flashKey (base + size)))
    if !s.imageOk (!array) bs then jobEnd k j csFLASH 1 0 0 erased
    else if 2 ≤ bad ∧ bad ≤ 4 then jobEnd k j csFLASH bad 0 0 erased
    else jobEnd k j csOK 0 0 0 (flashPut base bs erased)

def execUpdateFlash (f : Fin 13) (d : Desc) (memOk : Bool) (bad : Fin 5) (s : State) : Host.Outcome State Fault Refusal :=
  .next (firmware 0x0F f d (updateFlash memOk bad) s)

/-- `WARM_RESET` (R402, R429, R441): complete when the steps that follow the reset have been performed. -/
def warmResetCmd (k : Nat) (j : Job) (s : State) : State :=
  if !j.started then warmReset 2 (jobNote k 1 s)
  else if s.mbxReady j.fn && s.sys.reloads.isEmpty && !s.on CFG_STAT.BUSY && s.sys.repair.isNone then jobEnd k j csOK 0 0 0 s
  else s

def execWarmReset (f : Fin 13) (d : Desc) (s : State) : Host.Outcome State Fault Refusal := .next (firmware 0x11 f d warmResetCmd s)

end Sys2Proof.Machine
end

