-- ==== Sys2Proof/Machine/Kretas.lean ====
section
/-!
DEFINITION. Machine/Kretas.lean: how a sequencer issues an instruction: its fetch, its data accesses (R191 to R193, R215), its traps (R245 to R254), repeats and loops
(R196 to R199), what comes first at a boundary (R250), and the pieces of an instruction word (R212).  A command of an instruction names the instruction that the sequencer's fetch delivered.
-/
namespace Sys2Proof.Machine

/-! ### Memory through the three buses -/

/-- Codes of `CAUSE.ACC` (R246). -/
def caLoad : Nat := 0
def caStore : Nat := 1
def caFetch : Nat := 2
def caJump : Nat := 3

/-- Trap codes (R245). -/
def tcILL : Nat := 0x05
def tcPRV : Nat := 0x06
def tcFPU : Nat := 0x07
def tcAOW : Nat := 0x08
def tcALN : Nat := 0x09
def tcTF : Nat := 0x0A
def tcAV : Nat := 0x0B
def tcBE : Nat := 0x0C
def tcDE : Nat := 0x0D
def tcSC : Nat := 0x0E
def tcBK : Nat := 0x0F

/-- Whether a virtual address lies in the local window (R191). -/
def inWindow (va : Nat) : Bool := decide (va < 0x10_0000)

/-- Whether `SEQ_LWPROT` lets the present level make an access in the local window (R191). -/
def State.lwAllows (s : State) (n va : Nat) (store : Bool) : Bool :=
  (s.getSeq n).pl != 0 || bitOf (s.f (if store then SEQ_LWPROT.UWR n else SEQ_LWPROT.URD n)) (va / 0x1_0000)

/-- The rights an access of the present level needs (R275): bit 1 R, 2 W, 3 X of the leaf, and U at user level. -/
def needs (user : Bool) (bit : Nat) (w : Word) : Bool := w.getLsbD bit && (!user || pteU w)

/-- Where an access goes: the local window, a physical address, or a trap. -/
inductive Way where
  | local (off : Nat)
  | phys (pa : Nat)
  | trap (code : Nat)
deriving DecidableEq, Repr

/-- The way of an access of sequencer `n`: bit 1 load, 2 store, 3 fetch (R191, R275). -/
def route (n va bit : Nat) (s : State) : Way × State :=
  let x := s.getSeq n
  if inWindow va then ((if s.lwAllows n va (bit == 2) then .local va else .trap tcAV), s)
  else if !x.sb stTE then (.trap tcTF, s)
  else
    match translate (s.seqAsid n) x.ptbase ((s.seqPart n).getD 15) (srcSeq n) va (needs (x.pl == 0) bit) s with
    | (.ok pa, s) => (.phys pa, s)
    | (.fault c, s) => (.trap c, s)

/-- The result of an access: data and whether it came from the local window, or a trap. -/
inductive Acs where
  | ok (data : Nat) (near : Bool)
  | trap (code : Nat)
  | stall
deriving DecidableEq, Repr

/-- Whether posted stores of a sequencer wait in the port of an island other than `at'` (R147, R193). -/
def State.storesWait (s : State) (n : Nat) (at' : Option Nat) : Bool := s.isl.any (fun x => some x.1 != at' && x.2.portQ.any (fun p => p.src == n))

/-- Posted stores of a sequencer that have no response yet (R193). -/
def State.storesOut (s : State) (n : Nat) : Nat :=
  (s.getSeq n).errs.length + s.isl.foldl (fun a x => a + (x.2.portQ.filter (fun p => p.src == n)).length) 0

/-- The island whose memory a physical address names. -/
def State.islOf (s : State) (pa : Nat) : Option Nat :=
  match s.region pa with
  | .isl i _ => some i
  | _ => none

/-- A load of `size` bytes (R219): alignment, translation and rights, bus error, uncorrectable or poisoned data, in the order of R214.  Accesses outside the local window
take effect in program order (R193): a load waits behind stores, and behind what waits in the port it goes to (R147). -/
def kLoad (n va size : Nat) (s : State) : Acs × State :=
  if va % size ≠ 0 then (.trap tcALN, s)
  else
    match route n va 1 s with
    | (.trap c, s) => (.trap c, s)
    | (.local off, s) =>
      let (e, s) := bankEcc n off s
      if e = 2 then (.trap tcDE, s) else (.ok (Memory.num s.mem (bankBase n + off) size) true, s)
    | (.phys pa, s) =>
      if s.storesWait n none || s.portHeld pa then (.stall, s)
      else
      match s.region pa with
      | .reg off =>
        match barRead (.seq n) off size s with
        | (some d, s) => (.ok d false, s)
        | (none, s) => (.trap tcBE, s)
      | _ =>
        match busRead pa size s with
        | (some g, s) => if g.bad then (.trap tcDE, s) else (.ok g.data false, s)
        | (none, s) => (.trap tcBE, s)

/-- A store of `size` bytes by the instruction word `w` (R219): the checks are precise; a bus error of a posted store comes back later (R215); a push that finds its
queue full waits in the port, posted (R147).  A seventeenth store without a response waits, and so does one behind a store that waits at another island (R193). -/
def kStore (n w va size data : Nat) (s : State) : Acs × State :=
  if va % size ≠ 0 then (.trap tcALN, s)
  else
    match route n va 2 s with
    | (.trap c, s) => (.trap c, s)
    | (.local off, s) => (.ok 0 true, bankStore n off size (data % 2 ^ (8 * size)) false s)
    | (.phys pa, s) =>
      let late (s : State) : State := s.onSeq n (fun x => { x with errs := x.errs ++ [⟨va, w⟩] })
      if decide (16 ≤ s.storesOut n) || s.storesWait n (s.islOf pa) then (.stall, s)
      else
      match s.region pa with
      | .reg off =>
        match barWrite (.seq n) off size (data % 2 ^ (8 * size)) s with
        | (true, s) => (.ok 0 false, s)
        | (false, s) => (.ok 0 false, late s)
      | _ =>
        let (clash, s) := ownerMeets pa s
        match busPost pa size (data % 2 ^ (8 * size)) n clash s with
        | (.error, s) => (.ok 0 false, late s)
        | (_, s) => (.ok 0 false, s)

/-! ### The fetch (R191, R194, R195, R199, R37) -/

/-- The 32-byte block of an address that a fetch names: blocks of the local window, then those of the physical address space. -/
def fetchBlock (far : Bool) (a : Nat) : Nat := if far then 2 ^ 15 + a / 32 else a / 32

/-- Word of a held block at an address. -/
def blockWord (b a : Nat) : Nat := b / 2 ^ (8 * (a % 32)) % 2 ^ 32

/-- A block comes to be held; of the blocks held before, each stays or is evicted, which the spec leaves open (R195, log entry 55). -/
def holdBlock (n key b : Nat) (s : State) : State :=
  let (kept, s) := (s.getSeq n).blocks.foldl (fun (acc : Map Nat × State) e =>
    let (stays, s) := acc.2.freshBit
    (if stays && e.1 != key then acc.1 ++ [e] else acc.1, s)) ([], s)
  s.onSeq n (fun x => { x with blocks := Map.set kept key b })

/-- A block of the local window is fetched whole: each of its four ECC words is read (R194); the fetch fails by the ECC word it wants, and the block is held when all
are sound. -/
def fetchNear (n off : Nat) (s : State) : Acs × State :=
  let base := off / 32 * 32
  let (es, s) := (List.range 4).foldl (fun (acc : List Nat × State) k =>
    let (e, s) := bankEcc n (base + 8 * k) acc.2
    (acc.1 ++ [e], s)) ([], s)
  if es.getD (off % 32 / 8) 0 = 2 then (.trap 0x01, s)
  else
    let b := Memory.num s.mem (bankBase n + base) 32
    (.ok (blockWord b off) true, if es.contains 2 then s else holdBlock n (fetchBlock false off) b s)

/-- A block elsewhere is fetched whole through the instruction cache (R192); the fetch fails by the word it wants, and the block is held when all words came soundly. -/
def fetchFar (n pa : Nat) (s : State) : Acs × State :=
  match busRead pa 4 s with
  | (none, s) => (.trap 0x04, s)
  | (some g, s) =>
    if g.bad then (.trap 0x01, s)
    else
      let base := pa / 32 * 32
      let (b, s) := (List.range 8).foldl (fun (acc : Option Nat × State) k =>
        if base + 4 * k = pa then (acc.1.map (· + g.data * 2 ^ (32 * k)), acc.2)
        else
          match acc.1, busRead (base + 4 * k) 4 acc.2 with
          | some b, (some h, s) => (if h.bad then none else some (b + h.data * 2 ^ (32 * k)), s)
          | _, (_, s) => (none, s)) (some 0, s)
      (.ok g.data false, match b with
        | some b => holdBlock n (fetchBlock true pa) b s
        | none => s)

/-- Whether an address lies in the body of an active loop that the repeat cache can hold (R199). -/
def Seq.inBody (x : Seq) (va : Nat) : Bool :=
  let start := getBits x.lpc 47 0
  let len := getBits x.lpc 63 48
  x.sb stLA && decide (len ≤ 32) && decide (start ≤ va ∧ va < start + 4 * len)

/-- The fetch of the word at an address: from the repeat cache, a held block or memory; or a trap.  A word of a loop's body is captured in the repeat cache. -/
def kFetch (n va : Nat) (s : State) : Acs × State :=
  let body := (s.getSeq n).inBody va
  match if body then Map.find (s.getSeq n).body va else none with
  | some w => (.ok w true, s)
  | none =>
    let held (key a : Nat) (s : State) (fetch : State → Acs × State) : Acs × State :=
      match Map.find (s.getSeq n).blocks key with
      | some b => (.ok (blockWord b a) true, s)
      | none => fetch s
    let r : Acs × State :=
      match route n va 3 s with
      | (.trap c, s) => (.trap (c - 8), s)
      | (.local off, s) => held (fetchBlock false off) off s (fetchNear n off)
      | (.phys pa, s) => held (fetchBlock true pa) pa s (fetchFar n pa)
    match r with
    | (.ok w near, s) => (.ok w near, if body then s.onSeq n (fun x => { x with body := Map.set x.body va w }) else s)
    | r => r

/-! ### Traps -/

/-- A machine check record (R268): the first since `VALID` was cleared. -/
def recordMchk (n kind code acc pc va : Nat) (s : State) : State :=
  if s.on (SEQ_MCHK.VALID n) then s
  else ((s.wr (SEQ_MCHK n) (BitVec.ofNat 64 (2 ^ 31 + kind * 2 ^ 28 + acc * 2 ^ 8 + code))).wr (SEQ_MCHK_PC n) (BitVec.ofNat 64 pc)).wr (SEQ_MCHK_VA n)
    (BitVec.ofNat 64 va)

/-- A double trap or a window double fault (R190, R254, R255): the core stops in DFAULT and firmware logs a contained error. -/
def dfault (n kind code acc pc va : Nat) (s : State) : State :=
  let s := recordMchk n kind code acc pc va s
  let s := partFollows n (s.onSeq n (fun x => { x with st := 4, stepping := false }))
  logErr 0x0401 ((s.seqPart n).getD 15) (srcSeq n) (s.rd (SEQ_MCHK n)) (s.rd (SEQ_MCHK_PC n)) s

/-- STATUS at trap entry (R186). -/
def Seq.enterStatus (x : Seq) (int : Bool) : Seq :=
  let v := x.status
  let v := setBits v 3 2 (getBits v 1 0)
  let v := setBits v stPIE stPIE (getBits v stIE stIE)
  let v := setBits v stPSH stPSH (getBits v stSH stSH)
  let v := setBits v stPTW stPTW (getBits v stTW stTW)
  let v := setBits v stPRP stPRP (getBits v stRP stRP)
  let v := setBits v stPLA stPLA (getBits v stLA stLA)
  let v := setBits v 1 0 1
  let v := setBits v stIE stIE 0
  let v := setBits v stTW stTW 1
  let v := setBits v stRP stRP 0
  let v := setBits v stLA stLA 0
  { x with status := if int then setBits v stSH stSH 1 else v }

/-- What a trap carries: its code, EPC, `CAUSE` flags and the values of w14 and w15 (R245 to R248). -/
structure Trap where
  code : Nat
  epc : Nat
  acc : Nat
  int : Bool
  imp : Bool
  w14 : Nat
  w15 : Nat
deriving DecidableEq, Repr

/-- TAKING A TRAP (R247): outstanding loads are abandoned, noted under the context ID of the program they are of (R200; log entry 65); EPC, CAUSE, STATUS, the trap window's w14 and w15, the HZ5 frame of an interrupt under `HZ5C`, and the vector. -/
def takeTrap (n : Nat) (t : Trap) (s : State) : State :=
  let x := s.getSeq n
  let hz5 := t.int && x.sb stHZ5C
  let cause := t.code + t.acc * 2 ^ 8 + b2n (x.sb stTW) * 2 ^ 29 + b2n t.imp * 2 ^ 30 + b2n t.int * 2 ^ 31
  let ctx := s.f (SEQ_CTXID.CTXID n)
  let cut := x.loads ++ x.again
  let x := { x with epc := t.epc, cause := cause, lost := (if cut.isEmpty && x.lost.all (fun l => l.1 != ctx) then x.lost else (ctx, cut) :: x.lost), loads := [], again := [],
                    wait := none, stepping := false, fmask := none,
                    st := if x.st = 3 then (if x.stepping then 1 else 2) else x.st }
  let x := x.enterStatus t.int
  let x := (x.putPlace 94 (BitVec.ofNat 64 t.w14)).putPlace 95 (BitVec.ofNat 64 t.w15)
  let wsp := if hz5 then (x.wsp + 2 ^ 48 - 320) % 2 ^ 48 else x.wsp
  let x := { x with wsp := wsp, pc := (x.tvec + t.code * 0x80) % 2 ^ 48 }
  let s := s.setSeq n (x.pass (if hz5 then 8 else 6))
  if hz5 then (kStore n 0 (wsp + 0x100) 8 0 s).2 else s

/-- An exception of the instruction at `pc` whose access at `va` failed, 0 for one without an address (R254, R268): a double trap while `TW` = 1 and `IE` = 0, else a
trap. -/
def raise (n pc va : Nat) (t : Trap) (s : State) : State :=
  let x := s.getSeq n
  if x.sb stTW ∧ x.sb stIE = false then dfault n 5 t.code t.acc pc va s else takeTrap n t s

/-! ### What comes first at a boundary (R250) -/

/-- What firmware does at a safe point (R256): 1 stop, 2 state read, 3 a parity error that it corrects, 4 one that it cannot correct. -/
def safePoint (n kind : Nat) (s : State) : State :=
  let s := s.onSeq n (fun x => { x with mcheck := none })
  match kind with
  | 1 => partFollows n (s.onSeq n (fun x => { x with st := 1, wait := none }))
  | 3 => logErr 0x0403 ((s.seqPart n).getD 15) (srcSeq n) 0 0 (s.onSeq n (fun x => if x.st = 3 then { x with st := 2, wait := none } else x))
  | 4 => dfault n 6 0 0 (s.getSeq n).pc 0 s
  | _ => s.onSeq n (fun x => if x.st = 3 then { x with st := 2, wait := none } else x)

/-- A machine check request is taken at a boundary with RPTC 0, at once in `AWAIT`; a core that does not run keeps its state.  The entry of a rung stops a core at the same
boundaries (R443). -/
def takeCheck (n : Nat) (s : State) : State :=
  let s := if s.dozes n ∧ (s.getSeq n).mcheck = none then seqDoze n s else s
  let x := s.getSeq n
  match x.mcheck with
  | none => s
  | some k =>
    if x.st = 2 ∨ x.st = 3 then (if x.rptc = 0 ∨ x.st = 3 then safePoint n k s else s)
    else
      let s := s.setSeq n { x with mcheck := none }
      if k = 3 then logErr 0x0403 ((s.seqPart n).getD 15) (srcSeq n) 0 0 s else s

/-- An imprecise bus error at a boundary (R215, R248). -/
def imprecise (n : Nat) (e : PostErr) (s : State) : State :=
  takeTrap n { code := tcBE, epc := (s.getSeq n).pc, acc := caStore, int := false, imp := true, w14 := e.word, w15 := e.va } s

/-- Whether a response waits until the handler allows it (R252). -/
def Seq.holds (x : Seq) : Bool := x.sb stTW && !x.sb stIE

/-- The interrupt that would be taken at this boundary (R250). -/
def State.irqTaken (s : State) (n : Nat) : Option Nat := if (s.getSeq n).sb stIE ∧ (s.getSeq n).rptc = 0 then s.irqLine n else none

/-- The interrupt of line `k` is taken (R245, R247). -/
def takeIrq (n k : Nat) (s : State) : State :=
  takeTrap n { code := 0x10 + k, epc := (s.getSeq n).pc, acc := 0, int := true, imp := false, w14 := 0, w15 := 0 } s

/-- What comes before the instruction at PC (R250): a machine check request, a bus error response that is not held, an interrupt.  After a service that lets the
program go on, and when nothing comes first, `next` follows.  A core that is not running meets nothing at its boundary (log entry 56). -/
def atBoundary (n : Nat) (next : State → State) (s : State) : State :=
  let ends := (s.getSeq n).st
  if ends ≠ 2 ∧ ends ≠ 3 then next s
  else
    let s := takeCheck n s
    let x := s.getSeq n
    if x.st ≠ ends then s
    else
      match if x.holds then none else x.held with
      | some e => imprecise n e (s.setSeq n { x with held := none })
      | none =>
        match s.irqTaken n with
        | some k => takeIrq n k s
        | none => next s

/-! ### Loads (R193, R219) -/

/-- Data of a load of `size` bytes as a register holds it. -/
def extend (size : Nat) (sext : Bool) (d : Nat) : Word := if sext then BitVec.ofInt 64 (sgn (8 * size) d) else BitVec.ofNat 64 d

/-- The oldest outstanding load returns when eight are outstanding (R193). -/
def loadRoom (n : Nat) (s : State) : State :=
  let x := s.getSeq n
  match x.loads with
  | l :: rest =>
    if 8 ≤ x.loads.length then s.setSeq n { x with r := (if l.reg = 0 then x.r else Map.set x.r l.reg l.data), loads := rest } else s
  | [] => s

/-- Data of a load reach a register: from the local window with a load-use distance of 2 (R192), else as an outstanding load (R193). -/
def loadInto (n : Nat) (near : Bool) (l : LoadOp) (s : State) : State :=
  if near then s.onSeq n (fun x => (x.putPlace l.reg l.data).usedFrom l.reg 2)
  else (loadRoom n s).onSeq n (fun x => { x with loads := x.loads.filter (fun m => m.reg != l.reg || l.reg == 0) ++ [l] })

/-- Abandoned loads are executed again, in order (R200); what is left of them when one has to wait, or faults and raises its trap with EPC at it (R245), comes after. -/
def reload (n : Nat) : List LoadOp → State → Bool × State
  | [], s => (true, s)
  | l :: ls, s =>
    match kLoad n l.va l.size s with
    | (.ok d _, s) => reload n ls (loadInto n false { l with data := extend l.size l.sext d } s)
    | (.trap c, s) =>
      (false, raise n l.pc l.va { code := c, epc := l.pc, acc := caLoad, int := false, imp := false, w14 := l.word, w15 := l.va }
        (s.onSeq n (fun x => { x with again := ls })))
    | (.stall, s) => (false, s.onSeq n (fun x => { x with again := l :: ls }))

/-- What follows at a boundary at which nothing came first (R249, R250): loads that the trap just left had abandoned, then `next`. -/
def relaunch (n : Nat) (next : State → State) (s : State) : State :=
  match (s.getSeq n).again with
  | [] => next s
  | ls =>
    match reload n ls (s.onSeq n (fun x => { x with again := [] })) with
    | (true, s) => next s
    | (false, s) => s

/-! ### Issue -/

/-- How the execution of an instruction ends. -/
inductive KOut where
  | ok (s : State)                                  -- complete; the next instruction follows
  | jump (pc : Nat) (s : State)                     -- complete, with a transfer of control
  | trap (code acc va : Nat) (s : State)            -- an exception; EPC is this instruction
  | after (code : Nat) (s : State)                  -- SYSCALL, BREAK: EPC is the next instruction
  | dfault (kind code acc va : Nat) (s : State)     -- a window double fault
  | stay (s : State)                                -- waits at the same instruction

/-- Outstanding loads of the registers return (R193). -/
def landRegs (n : Nat) (srcs : List Nat) (s : State) : State :=
  let x := s.getSeq n
  let ps := srcs.map x.place
  let now := x.loads.filter (fun l => ps.contains l.reg)
  if now = [] then s
  else s.setSeq n (now.foldl (fun x l => { x with r := (if l.reg = 0 then x.r else Map.set x.r l.reg l.data) })
    { x with loads := x.loads.filter (fun l => !ps.contains l.reg) })

/-- Cycles for which the pipeline interlocks on places whose result arrives later (R192, R216). -/
def Seq.interlock (x : Seq) (ps : List Nat) : Nat := x.soon.foldl (fun a p => if ps.contains p.1 then max a (p.2 - x.cycle) else a) 0

/-- The source registers of an instruction are ready: outstanding loads of them have returned (R193), and results that arrive later have arrived (R192,
R216). -/
def landLoads (n : Nat) (srcs : List Nat) (s : State) : State :=
  let w := (s.getSeq n).interlock (srcs.map (s.getSeq n).place)
  landRegs n srcs (if w = 0 then s else s.onSeq n (fun x => x.pass w))

/-- The address after an instruction that completes without transferring control, with the end check of a loop (R198): the return to the start of a body that is too
long for the repeat cache costs 2 cycles (R199).  A length field of 0, which only `MTS` can write, acts as 1 (DESIGN CHOICE, log entry 57). -/
def Seq.advance (x : Seq) : Seq :=
  let start := getBits x.lpc 47 0
  let len := getBits x.lpc 63 48
  if x.sb stLA ∧ x.pc = (start + 4 * (len - 1)) % 2 ^ 48 then
    if 1 < x.lcnt then
      let x := if 32 < len then x.pass 2 else x
      { x with lcnt := x.lcnt - 1, pc := start }
    else { (x.setSb stLA false) with lcnt := 0, pc := (x.pc + 4) % 2 ^ 48 }
  else { x with pc := (x.pc + 4) % 2 ^ 48 }

/-- An instruction has completed: cycles pass, a step is over, and a core whose `RUN` is 0 halts (R210). -/
def finish (n cycles : Nat) (s : State) : State :=
  let x := (s.getSeq n).pass cycles
  let halt := x.st = 2 ∧ s.f (SEQ_CTL.RUN n) = 0 ∧ x.sb stRP = false
  partFollows n (s.setSeq n { x with stepping := x.stepping && x.sb stRP, st := if halt then 1 else x.st })

/-- An exception of the instruction word `w` at PC: w14 holds the word for codes 0x05 to 0x0F (R248), and w15 the address, or FPOWNER for FPU (R245). -/
def raiseAt (n w code acc va epc : Nat) (s : State) : State :=
  let x := s.getSeq n
  raise n x.pc va { code := code, epc := epc, acc := acc, int := false, imp := false, w14 := if 5 ≤ code ∧ code ≤ 15 then w else 0,
                    w15 := if code = tcFPU then x.fpowner else va } s

/-- An instruction: its word, whether R196 counts it as repeatable, its issue cycles, the registers it reads (g and w 0 to 31, f 32 to 63), its operation, and
what follows it at the boundary. -/
structure KIns where
  word : W32
  rep : Bool
  cycles : Nat
  srcs : List Nat
  body : Nat → State → KOut
  after : Nat → State → State := fun _ s => s

/-- One execution of an instruction. -/
def runOnce (n : Nat) (k : KIns) (s : State) : State :=
  match k.body n s with
  | .ok s => k.after n (finish n k.cycles (s.onSeq n Seq.advance))
  | .jump pc s => k.after n (finish n k.cycles (s.onSeq n (fun x => { x with pc := pc % 2 ^ 48 })))
  | .trap c a va s => raiseAt n k.word.toNat c a va (s.getSeq n).pc s
  | .after c s => raiseAt n k.word.toNat c 0 0 (((s.getSeq n).pc + 4) % 2 ^ 48) s
  | .dfault d c a va s => dfault n d c a (s.getSeq n).pc va s
  | .stay s => s

/-- The executions of a repeated instruction (R196, R197): RPTC falls by one after each, and the last one goes on. -/
def runRepeat (n : Nat) (k : KIns) : Nat → State → State
  | 0, s => s
  | m + 1, s =>
    let x := s.getSeq n
    if x.rptc = 0 then finish n 0 (s.setSeq n (Seq.advance (x.setSb stRP false)))
    else
      match k.body n (landLoads n k.srcs s) with
      | .ok s => runRepeat n k m (s.onSeq n (fun x => Seq.pass { x with rptc := x.rptc - 1 } k.cycles))
      | .trap c a va s => raiseAt n k.word.toNat c a va (s.getSeq n).pc s
      | .dfault d c a va s => dfault n d c a (s.getSeq n).pc va s
      | .jump _ s | .after _ s | .stay s => s

/-- Whether a sequencer issues instructions: running, or halted with a step asked for (R210). -/
def State.issues (s : State) (n : Nat) : Bool := (s.getSeq n).st == 2 || ((s.getSeq n).st == 1 && (s.getSeq n).stepping)

/-- An instruction that has been fetched: under a repeat only a repeatable instruction runs, RPTC times; any other runs once. -/
def issueFetched (n : Nat) (k : KIns) (s : State) : State :=
  let s := landLoads n k.srcs s
  if (s.getSeq n).sb stRP then
    if k.rep then runRepeat n k 1025 s else raiseAt n k.word.toNat tcILL 0 0 (s.getSeq n).pc s
  else runOnce n k s

/-- ISSUE: what comes first at the boundary (R250), then the fetch, whose faults precede all checks (R214), then the instruction. -/
def issue (n : Nat) (k : KIns) (s : State) : State :=
  if !s.issues n then s
  else
    atBoundary n (relaunch n (fun s =>
      let pc := (s.getSeq n).pc
      match kFetch n pc s with
      | (.trap c, s) => raiseAt n 0 c caFetch pc pc s
      | (_, s) => issueFetched n k s)) s

/-! ### Instruction words (R212) -/

/-- A word of the R, I, B and J formats from its opcode and fields. -/
def wordR (op rd ra rb low : Nat) : W32 := BitVec.ofNat 32 (op * 2 ^ 26 + rd * 2 ^ 21 + ra * 2 ^ 16 + rb * 2 ^ 11 + low)
def wordI (op rd ra imm : Nat) : W32 := BitVec.ofNat 32 (op * 2 ^ 26 + rd * 2 ^ 21 + ra * 2 ^ 16 + imm % 2 ^ 16)
def wordJ (op off : Nat) : W32 := BitVec.ofNat 32 (op * 2 ^ 26 + off % 2 ^ 26)

/-- A register of sequencer `n`. -/
def State.kr (s : State) (n k : Nat) : Word := (s.getSeq n).reg k

/-- Write a register of sequencer `n`. -/
def State.kput (s : State) (n k : Nat) (v : Word) : State := s.onSeq n (fun x => x.put k v)

/-- `(ra + sext(imm))[47:0]`. -/
def ea (a : Word) (imm : Int) : Nat := (a + BitVec.ofInt 64 imm).toNat % 2 ^ 48

end Sys2Proof.Machine
end

