-- ==== Sys2Proof/Machine/KretasInt.lean ====
section
/-!
DEFINITION. Machine/KretasInt.lean: the integer instructions of a sequencer (R217, R218).
-/
namespace Sys2Proof.Machine

/-- A 32-bit number sign-extended to 64 bits. -/
def sext32 (v : Nat) : Word := BitVec.ofInt 64 (sgn 32 v)

/-- A truth value as a register. -/
def bw (b : Bool) : Word := if b then 1 else 0

/-- The number of leading zeros of a 64-bit word. -/
def clz64 (v : Nat) : Nat := if v = 0 then 64 else 63 - Nat.log2 v

/-- Quotients and remainders (R217): truncation toward zero; a divisor of zero gives all ones and the dividend. -/
def divS (a b : Word) : Word := if b = 0 then BitVec.allOnes 64 else BitVec.ofInt 64 (Int.tdiv a.toInt b.toInt)
def divU (a b : Word) : Word := if b = 0 then BitVec.allOnes 64 else BitVec.ofNat 64 (a.toNat / b.toNat)
def remS (a b : Word) : Word := if b = 0 then a else BitVec.ofInt 64 (Int.tmod a.toInt b.toInt)
def remU (a b : Word) : Word := if b = 0 then a else BitVec.ofNat 64 (a.toNat % b.toNat)

/-- The operation of each function code of the integer group (R217). -/
def intFn (fn : Nat) (a b : Word) : Word :=
  let k := b.toNat % 64
  match fn with
  | 0x00 => a + b
  | 0x01 => a - b
  | 0x02 => a &&& b
  | 0x03 => a ||| b
  | 0x04 => a ^^^ b
  | 0x05 => a &&& ~~~b
  | 0x06 => a <<< k
  | 0x07 => a >>> k
  | 0x08 => a.sshiftRight k
  | 0x09 => a.rotateRight k
  | 0x0A => bw (a.slt b)
  | 0x0B => bw (a.ult b)
  | 0x0C => a * b
  | 0x0D => BitVec.ofInt 64 (a.toInt * b.toInt / 2 ^ 64)
  | 0x0E => BitVec.ofNat 64 (a.toNat * b.toNat / 2 ^ 64)
  | 0x0F => divS a b
  | 0x10 => divU a b
  | 0x11 => remS a b
  | 0x12 => remU a b
  | 0x13 => sext32 (a + b).toNat
  | 0x14 => sext32 (a - b).toNat
  | 0x15 => BitVec.ofNat 64 (popCount 64 a.toNat)
  | 0x16 => BitVec.ofNat 64 (clz64 a.toNat)
  | 0x17 => if a.slt b then a else b
  | 0x18 => if a.slt b then b else a
  | 0x19 => if a.ult b then a else b
  | 0x1A => if a.ult b then b else a
  | 0x1B => sext32 a.toNat
  | _ => BitVec.ofNat 64 (a.toNat % 2 ^ 32)

/-- An integer instruction of function code `fn` (R217): divisions take 34 cycles and are not repeatable, and products have a latency of 3. -/
def kInt (fn : Nat) (rd ra rb : Nat) : KIns :=
  let div := decide (0x0F ≤ fn ∧ fn ≤ 0x12)
  { word := wordR 0x01 rd ra rb fn, rep := !div, cycles := if div then 34 else 1, srcs := [ra, rb],
    body := fun n s =>
      .ok ((s.kput n rd (intFn fn (s.kr n ra) (s.kr n rb))).onSeq n (fun x => x.usedFrom (x.place rd) (if 0x0C ≤ fn ∧ fn ≤ 0x0E then 3 else 1))) }

/-- The operation of each immediate opcode (R218); `imm` is the 16-bit field. -/
def immFn (op : Nat) (a : Word) (imm : Nat) : Word :=
  let sx : Word := BitVec.ofInt 64 (sgn 16 imm)
  let zx : Word := BitVec.ofNat 64 imm
  match op with
  | 0x02 => a + sx
  | 0x03 => a &&& zx
  | 0x04 => a ||| zx
  | 0x05 => a ^^^ zx
  | 0x06 => sext32 (imm * 2 ^ 16)
  | 0x07 => a ||| (zx <<< 32)
  | 0x08 => bw (a.slt sx)
  | 0x09 => bw (a.ult sx)
  | _ =>
    let k := imm % 64
    match imm / 64 % 4 with
    | 0 => a <<< k
    | 1 => a >>> k
    | 2 => a.sshiftRight k
    | _ => a.rotateRight k

/-- An immediate instruction (R218). -/
def kImm (op rd ra imm : Nat) : KIns :=
  { word := wordI op rd ra imm, rep := true, cycles := 1, srcs := [ra], body := fun n s => .ok (s.kput n rd (immFn op (s.kr n ra) imm)) }

/-- `ADD` (R217). -/
def execAdd (n : Fin 24) (rd ra rb : Fin 32) (s : State) : Host.Outcome State Fault Refusal := .next (issue n (kInt 0x00 rd ra rb) s)

/-- `SUB` (R217). -/
def execSub (n : Fin 24) (rd ra rb : Fin 32) (s : State) : Host.Outcome State Fault Refusal := .next (issue n (kInt 0x01 rd ra rb) s)

/-- `AND` (R217). -/
def execAnd (n : Fin 24) (rd ra rb : Fin 32) (s : State) : Host.Outcome State Fault Refusal := .next (issue n (kInt 0x02 rd ra rb) s)

/-- `OR` (R217). -/
def execOr (n : Fin 24) (rd ra rb : Fin 32) (s : State) : Host.Outcome State Fault Refusal := .next (issue n (kInt 0x03 rd ra rb) s)

/-- `XOR` (R217). -/
def execXor (n : Fin 24) (rd ra rb : Fin 32) (s : State) : Host.Outcome State Fault Refusal := .next (issue n (kInt 0x04 rd ra rb) s)

/-- `ANDN` (R217). -/
def execAndn (n : Fin 24) (rd ra rb : Fin 32) (s : State) : Host.Outcome State Fault Refusal := .next (issue n (kInt 0x05 rd ra rb) s)

/-- `SLL` (R217). -/
def execSll (n : Fin 24) (rd ra rb : Fin 32) (s : State) : Host.Outcome State Fault Refusal := .next (issue n (kInt 0x06 rd ra rb) s)

/-- `SRL` (R217). -/
def execSrl (n : Fin 24) (rd ra rb : Fin 32) (s : State) : Host.Outcome State Fault Refusal := .next (issue n (kInt 0x07 rd ra rb) s)

/-- `SRA` (R217). -/
def execSra (n : Fin 24) (rd ra rb : Fin 32) (s : State) : Host.Outcome State Fault Refusal := .next (issue n (kInt 0x08 rd ra rb) s)

/-- `ROR` (R217). -/
def execRor (n : Fin 24) (rd ra rb : Fin 32) (s : State) : Host.Outcome State Fault Refusal := .next (issue n (kInt 0x09 rd ra rb) s)

/-- `SLT` (R217). -/
def execSlt (n : Fin 24) (rd ra rb : Fin 32) (s : State) : Host.Outcome State Fault Refusal := .next (issue n (kInt 0x0A rd ra rb) s)

/-- `SLTU` (R217). -/
def execSltu (n : Fin 24) (rd ra rb : Fin 32) (s : State) : Host.Outcome State Fault Refusal := .next (issue n (kInt 0x0B rd ra rb) s)

/-- `MUL` (R217). -/
def execMul (n : Fin 24) (rd ra rb : Fin 32) (s : State) : Host.Outcome State Fault Refusal := .next (issue n (kInt 0x0C rd ra rb) s)

/-- `MULH` (R217). -/
def execMulh (n : Fin 24) (rd ra rb : Fin 32) (s : State) : Host.Outcome State Fault Refusal := .next (issue n (kInt 0x0D rd ra rb) s)

/-- `MULHU` (R217). -/
def execMulhu (n : Fin 24) (rd ra rb : Fin 32) (s : State) : Host.Outcome State Fault Refusal := .next (issue n (kInt 0x0E rd ra rb) s)

/-- `DIV` (R217). -/
def execDiv (n : Fin 24) (rd ra rb : Fin 32) (s : State) : Host.Outcome State Fault Refusal := .next (issue n (kInt 0x0F rd ra rb) s)

/-- `DIVU` (R217). -/
def execDivu (n : Fin 24) (rd ra rb : Fin 32) (s : State) : Host.Outcome State Fault Refusal := .next (issue n (kInt 0x10 rd ra rb) s)

/-- `REM` (R217). -/
def execRem (n : Fin 24) (rd ra rb : Fin 32) (s : State) : Host.Outcome State Fault Refusal := .next (issue n (kInt 0x11 rd ra rb) s)

/-- `REMU` (R217). -/
def execRemu (n : Fin 24) (rd ra rb : Fin 32) (s : State) : Host.Outcome State Fault Refusal := .next (issue n (kInt 0x12 rd ra rb) s)

/-- `ADDW` (R217). -/
def execAddw (n : Fin 24) (rd ra rb : Fin 32) (s : State) : Host.Outcome State Fault Refusal := .next (issue n (kInt 0x13 rd ra rb) s)

/-- `SUBW` (R217). -/
def execSubw (n : Fin 24) (rd ra rb : Fin 32) (s : State) : Host.Outcome State Fault Refusal := .next (issue n (kInt 0x14 rd ra rb) s)

/-- `POPC` (R217). -/
def execPopc (n : Fin 24) (rd ra : Fin 32) (s : State) : Host.Outcome State Fault Refusal := .next (issue n (kInt 0x15 rd ra 0) s)

/-- `CLZ` (R217). -/
def execClz (n : Fin 24) (rd ra : Fin 32) (s : State) : Host.Outcome State Fault Refusal := .next (issue n (kInt 0x16 rd ra 0) s)

/-- `MIN` (R217). -/
def execMin (n : Fin 24) (rd ra rb : Fin 32) (s : State) : Host.Outcome State Fault Refusal := .next (issue n (kInt 0x17 rd ra rb) s)

/-- `MAX` (R217). -/
def execMax (n : Fin 24) (rd ra rb : Fin 32) (s : State) : Host.Outcome State Fault Refusal := .next (issue n (kInt 0x18 rd ra rb) s)

/-- `MINU` (R217). -/
def execMinu (n : Fin 24) (rd ra rb : Fin 32) (s : State) : Host.Outcome State Fault Refusal := .next (issue n (kInt 0x19 rd ra rb) s)

/-- `MAXU` (R217). -/
def execMaxu (n : Fin 24) (rd ra rb : Fin 32) (s : State) : Host.Outcome State Fault Refusal := .next (issue n (kInt 0x1A rd ra rb) s)

/-- `SEXTW` (R217). -/
def execSextw (n : Fin 24) (rd ra : Fin 32) (s : State) : Host.Outcome State Fault Refusal := .next (issue n (kInt 0x1B rd ra 0) s)

/-- `ZEXTW` (R217). -/
def execZextw (n : Fin 24) (rd ra : Fin 32) (s : State) : Host.Outcome State Fault Refusal := .next (issue n (kInt 0x1C rd ra 0) s)

/-- `ADDI` (R218). -/
def execAddi (n : Fin 24) (rd ra : Fin 32) (imm : BitVec 16) (s : State) : Host.Outcome State Fault Refusal := .next (issue n (kImm 0x02 rd ra imm.toNat) s)

/-- `ANDI` (R218). -/
def execAndi (n : Fin 24) (rd ra : Fin 32) (imm : BitVec 16) (s : State) : Host.Outcome State Fault Refusal := .next (issue n (kImm 0x03 rd ra imm.toNat) s)

/-- `ORI` (R218). -/
def execOri (n : Fin 24) (rd ra : Fin 32) (imm : BitVec 16) (s : State) : Host.Outcome State Fault Refusal := .next (issue n (kImm 0x04 rd ra imm.toNat) s)

/-- `XORI` (R218). -/
def execXori (n : Fin 24) (rd ra : Fin 32) (imm : BitVec 16) (s : State) : Host.Outcome State Fault Refusal := .next (issue n (kImm 0x05 rd ra imm.toNat) s)

/-- `LUI` (R218). -/
def execLui (n : Fin 24) (rd : Fin 32) (imm : BitVec 16) (s : State) : Host.Outcome State Fault Refusal := .next (issue n (kImm 0x06 rd 0 imm.toNat) s)

/-- `ORHI` (R218). -/
def execOrhi (n : Fin 24) (rd ra : Fin 32) (imm : BitVec 16) (s : State) : Host.Outcome State Fault Refusal := .next (issue n (kImm 0x07 rd ra imm.toNat) s)

/-- `SLTI` (R218). -/
def execSlti (n : Fin 24) (rd ra : Fin 32) (imm : BitVec 16) (s : State) : Host.Outcome State Fault Refusal := .next (issue n (kImm 0x08 rd ra imm.toNat) s)

/-- `SLTIU` (R218). -/
def execSltiu (n : Fin 24) (rd ra : Fin 32) (imm : BitVec 16) (s : State) : Host.Outcome State Fault Refusal := .next (issue n (kImm 0x09 rd ra imm.toNat) s)

/-- `SHI` (R218). -/
def execShi (n : Fin 24) (rd ra : Fin 32) (kind : BitVec 2) (k : BitVec 6) (s : State) : Host.Outcome State Fault Refusal := .next (issue n (kImm 0x0A rd ra (kind.toNat * 64 + k.toNat)) s)

end Sys2Proof.Machine
end

