-- ==== Sys2Proof/Machine/KretasMem.lean ====
section
/-!
DEFINITION. Machine/KretasMem.lean: loads, stores, the dual load and the masked multiple transfers of a sequencer (R219, R220, R231, R232), the filling of the HZ5 frame
(R261), and the half-context transfers (R233, R264 to R267).
-/
namespace Sys2Proof.Machine

/-! ### Loads (R193, R219) -/

/-- The load that the instruction at PC with word `w` makes into a place. -/
def State.loadOp (s : State) (n w place va size : Nat) (sext : Bool) (d : Nat) : LoadOp :=
  { reg := place, data := extend size sext d, va := va, size := size, sext := sext, pc := (s.getSeq n).pc, word := w }

/-- All outstanding loads return. -/
def landAll (n : Nat) (s : State) : State :=
  s.onSeq n (fun x => x.loads.foldl (fun x l => { x with r := (if l.reg = 0 then x.r else Map.set x.r l.reg l.data) }) { x with loads := [] })

/-- Whether an access is repeated outside the local window, which raises ILL (R219). -/
def State.farRepeat (s : State) (n va : Nat) : Bool := (s.getSeq n).sb stRP && !inWindow va

/-- A load into a place at an address, by the instruction word `w`. -/
def loadTo (n w place va size : Nat) (sext : Bool) (s : State) : KOut :=
  if s.farRepeat n va then .trap tcILL 0 0 s
  else
    match kLoad n va size s with
    | (.ok d near, s) => .ok (loadInto n near (s.loadOp n w place va size sext d) s)
    | (.trap c, s) => .trap c caLoad va s
    | (.stall, s) => .stay s

/-- A store of the low bytes of a value at an address, by the instruction word `w`. -/
def storeFrom (n w va size : Nat) (v : Word) (s : State) : KOut :=
  if s.farRepeat n va then .trap tcILL 0 0 s
  else
    match kStore n w va size v.toNat s with
    | (.ok _ _, s) => .ok s
    | (.trap c, s) => .trap c caStore va s
    | (.stall, s) => .stay s

/-- Effective address of the I format (R219). -/
def State.eaI (s : State) (n ra imm : Nat) : Nat := ea (s.kr n ra) (sgn 16 imm)

/-- A load instruction (R219). -/
def kLd (op size : Nat) (sext : Bool) (rd ra imm : Nat) : KIns :=
  { word := wordI op rd ra imm, rep := true, cycles := 1, srcs := [ra],
    body := fun n s => loadTo n (wordI op rd ra imm).toNat ((s.getSeq n).place rd) (s.eaI n ra imm) size sext s }

/-- A store instruction (R219). -/
def kSt (op size : Nat) (rs ra imm : Nat) : KIns :=
  { word := wordI op rs ra imm, rep := true, cycles := 1, srcs := [ra, rs],
    body := fun n s => storeFrom n (wordI op rs ra imm).toNat (s.eaI n ra imm) size (s.kr n rs) s }

/-! ### The HZ5 frame (R260, R261) -/

/-- Whether an HZ5 frame is active. -/
def Seq.hz5Active (x : Seq) : Bool := x.sb stHZ5C && x.sb stTW && bitOf x.cause 31

/-- A store of the hardware's own: a bus error is met at once (R190, R261). -/
def hwStore (n va data : Nat) (s : State) : Acs × State :=
  let k := (s.getSeq n).errs.length
  match kStore n 0 va 8 data s with
  | (.ok d near, s) =>
    if k < (s.getSeq n).errs.length then (.trap tcBE, s.onSeq n (fun x => { x with errs := x.errs.take k })) else (.ok d near, s)
  | r => r

/-- Cycles for which a fill of the hardware's own waits for its loads (R188): the two of the local window; the latency of another target is not fixed (R193). -/
def fillWait (va : Nat) : Nat := if inWindow va then 2 else 0

/-- The mask word of the active HZ5 frame: the cached one, or, the first time after a change of WSP, a trap entry or a `RETT`, the one in memory (R261; log entry
58). -/
def hz5Mask (n : Nat) (s : State) : Acs × State :=
  let x := s.getSeq n
  match x.fmask with
  | some m => (.ok m true, s)
  | none => kLoad n (x.wsp + 0x100) 8 s

/-- FILL (R261): before `fk` (`k` < 32) or `fcs` (`k` = 32) changes, its old value is stored in the active frame, once; a fault is a double trap of `KIND` 4. -/
def hz5Fill (n k : Nat) (next : State → KOut) (s : State) : KOut :=
  let x := s.getSeq n
  if !x.hz5Active then next s
  else
    match hz5Mask n s with
    | (.trap c, s) => .dfault 4 c caLoad (x.wsp + 0x100) s
    | (.stall, s) => .stay s
    | (.ok m _, s) =>
      let s := s.onSeq n (fun x => { x with fmask := some m })
      if bitOf m (8 + k) then next s
      else
        match (if k < 32 then hwStore n (x.wsp + 8 * k) (x.atPlace (96 + k)).toNat s else (.ok 0 true, s)) with
        | (.trap c, s) => .dfault 4 c caStore (x.wsp + 8 * k) s
        | (.stall, s) => .stay s
        | (.ok _ _, s) =>
          let m' := (if k < 32 then m else m / 256 * 256 + x.fcs % 256) + 2 ^ (8 + k)
          match hwStore n (x.wsp + 0x100) m' s with
          | (.trap c, s) => .dfault 4 c caStore (x.wsp + 0x100) s
          | (.stall, s) => .stay s
          | (.ok _ _, s) => next (s.onSeq n (fun x => { x.pass (if inWindow (x.wsp + 0x100) then 3 else 0) with fmask := some m' }))

/-- FP instructions need the unit enabled (R201, R214). -/
def needFp (n : Nat) (next : State → KOut) (s : State) : KOut := if (s.getSeq n).sb stFPEN then next s else .trap tcFPU 0 0 s

/-- A repeat outside the local window raises ILL (R219), before every other check (R214). -/
def nearRepeat (n ra imm : Nat) (next : State → KOut) (s : State) : KOut := if s.farRepeat n (s.eaI n ra imm) then .trap tcILL 0 0 s else next s

/-- `FLD` and `FST` (R219). -/
def kFld (fd ra imm : Nat) : KIns :=
  { word := wordI 0x1C fd ra imm, rep := true, cycles := 1, srcs := [ra],
    body := fun n => nearRepeat n ra imm (needFp n (fun s =>
      let va := s.eaI n ra imm
      match kLoad n va 8 s with
      | (.ok d near, s) => hz5Fill n fd (fun s => .ok (loadInto n near (s.loadOp n (wordI 0x1C fd ra imm).toNat (96 + fd) va 8 false d) s)) s
      | (.trap c, s) => .trap c caLoad va s
      | (.stall, s) => .stay s)) }
def kFst (fs ra imm : Nat) : KIns :=
  { word := wordI 0x1D fs ra imm, rep := true, cycles := 1, srcs := [ra, 32 + fs],
    body := fun n => nearRepeat n ra imm (needFp n (fun s => storeFrom n (wordI 0x1D fs ra imm).toNat (s.eaI n ra imm) 8 (s.kr n (32 + fs)) s)) }

/-- `LD` (R219). -/
def execLd (n : Fin 24) (rd ra : Fin 32) (imm : BitVec 16) (s : State) : Host.Outcome State Fault Refusal := .next (issue n (kLd 0x10 8 false rd ra imm.toNat) s)
/-- `LW` (R219). -/
def execLw (n : Fin 24) (rd ra : Fin 32) (imm : BitVec 16) (s : State) : Host.Outcome State Fault Refusal := .next (issue n (kLd 0x11 4 true rd ra imm.toNat) s)
/-- `LWU` (R219). -/
def execLwu (n : Fin 24) (rd ra : Fin 32) (imm : BitVec 16) (s : State) : Host.Outcome State Fault Refusal := .next (issue n (kLd 0x12 4 false rd ra imm.toNat) s)
/-- `LH` (R219). -/
def execLh (n : Fin 24) (rd ra : Fin 32) (imm : BitVec 16) (s : State) : Host.Outcome State Fault Refusal := .next (issue n (kLd 0x13 2 true rd ra imm.toNat) s)
/-- `LHU` (R219). -/
def execLhu (n : Fin 24) (rd ra : Fin 32) (imm : BitVec 16) (s : State) : Host.Outcome State Fault Refusal := .next (issue n (kLd 0x14 2 false rd ra imm.toNat) s)
/-- `LB` (R219). -/
def execLb (n : Fin 24) (rd ra : Fin 32) (imm : BitVec 16) (s : State) : Host.Outcome State Fault Refusal := .next (issue n (kLd 0x15 1 true rd ra imm.toNat) s)
/-- `LBU` (R219). -/
def execLbu (n : Fin 24) (rd ra : Fin 32) (imm : BitVec 16) (s : State) : Host.Outcome State Fault Refusal := .next (issue n (kLd 0x16 1 false rd ra imm.toNat) s)
/-- `SD` (R219). -/
def execSd (n : Fin 24) (rs ra : Fin 32) (imm : BitVec 16) (s : State) : Host.Outcome State Fault Refusal := .next (issue n (kSt 0x18 8 rs ra imm.toNat) s)
/-- `SW` (R219). -/
def execSw (n : Fin 24) (rs ra : Fin 32) (imm : BitVec 16) (s : State) : Host.Outcome State Fault Refusal := .next (issue n (kSt 0x19 4 rs ra imm.toNat) s)
/-- `SH` (R219). -/
def execSh (n : Fin 24) (rs ra : Fin 32) (imm : BitVec 16) (s : State) : Host.Outcome State Fault Refusal := .next (issue n (kSt 0x1A 2 rs ra imm.toNat) s)
/-- `SB` (R219). -/
def execSb (n : Fin 24) (rs ra : Fin 32) (imm : BitVec 16) (s : State) : Host.Outcome State Fault Refusal := .next (issue n (kSt 0x1B 1 rs ra imm.toNat) s)
/-- `FLD` (R219). -/
def execFld (n : Fin 24) (fd ra : Fin 32) (imm : BitVec 16) (s : State) : Host.Outcome State Fault Refusal := .next (issue n (kFld fd ra imm.toNat) s)
/-- `FST` (R219). -/
def execFst (n : Fin 24) (fs ra : Fin 32) (imm : BitVec 16) (s : State) : Host.Outcome State Fault Refusal := .next (issue n (kFst fs ra imm.toNat) s)

/-! ### `DLD` (R220) -/

/-- Pointer steps of `DLD`. -/
def dldStep (c : Nat) : Int :=
  match c with
  | 1 => 1 | 2 => -1 | 3 => 2 | 4 => -2 | 5 => 4 | 6 => -4 | _ => 0

/-- A local-window load of `DLD`: alignment, the window, its protection, and the data. -/
def dldLoad (n va size : Nat) (s : State) : Except Nat Nat × State :=
  if va % size ≠ 0 then (.error tcALN, s)
  else if !inWindow va then (.error tcAV, s)
  else
    match kLoad n va size s with
    | (.ok d _, s) => (.ok d, s)
    | (.trap c, s) => (.error c, s)
    | (.stall, s) => (.error tcBE, s)

/-- `DLD` (R220), also under a repeat: the X-side checks before the Y-side checks; nothing changes on an exception. -/
def kDld (rd re px ix py iy : Nat) (w : Bool) : KIns :=
  { word := BitVec.ofNat 32 (0x1E * 2 ^ 26 + rd * 2 ^ 21 + re * 2 ^ 16 + px * 2 ^ 13 + ix * 2 ^ 10 + py * 2 ^ 7 + iy * 2 ^ 4 + b2n w * 8),
    rep := true, cycles := 1, srcs := [px, py],
    body := fun n s =>
      let size := if w then 4 else 8
      if px = 0 ∨ py = 0 ∨ px = py ∨ rd = re ∨ rd = px ∨ rd = py ∨ re = px ∨ re = py ∨ ix = 7 ∨ iy = 7 then .trap tcILL 0 0 s
      else
        let ax := (s.kr n px).toNat % 2 ^ 48
        let ay := (s.kr n py).toNat % 2 ^ 48
        match dldLoad n ax size s with
        | (.error c, s) => .trap c caLoad ax s
        | (.ok dx, s) =>
          match dldLoad n ay size s with
          | (.error c, s) => .trap c caLoad ay s
          | (.ok dy, s) =>
            let vx := s.kr n px + BitVec.ofInt 64 (dldStep ix * size)
            let vy := s.kr n py + BitVec.ofInt 64 (dldStep iy * size)
            let s := (((s.kput n rd (extend size w dx)).kput n re (extend size w dy)).kput n px vx).kput n py vy
            let s := s.onSeq n (fun x => (x.usedFrom (x.place rd) 2).usedFrom (x.place re) 2)
            .ok (if ax / 0x8_0000 = ay / 0x8_0000 then s.onSeq n (fun x => x.pass 1) else s) }

/-- `DLD` (R220). -/
def execDld (n : Fin 24) (rd re : Fin 32) (px ix py iy : Fin 8) (w : Bool) (s : State) : Host.Outcome State Fault Refusal :=
  .next (issue n (kDld rd re px ix py iy w) s)

/-! ### `STMM` and `LDMM` (R231, R232) -/

/-- Transfers of the registers from `j` on that the mask register selects, in ascending order; `left` are done before an interrupt cuts the instruction. -/
def mmStep (load : Bool) (n w rm ra b : Nat) (off : Int) : (todo : Nat) → (j left : Nat) → State → KOut
  | 0, _, _, s => .ok s
  | todo + 1, j, left, s =>
    if !bitOf (s.kr n rm).toNat j then mmStep load n w rm ra b off todo (j + 1) left s
    else if left = 0 then .stay s
    else
      let va := ea (s.kr n ra) (off * 8 + 8 * j)
      let k := 16 * b + j
      let o :=
        if load then
          match kLoad n va 8 s with
          | (.ok d near, s) => KOut.ok (loadInto n near (s.loadOp n w ((s.getSeq n).place k) va 8 false d) s)
          | (.trap c, s) => .trap c caLoad va s
          | (.stall, s) => .stay s
        else
          match kStore n w va 8 (s.kr n k).toNat s with
          | (.ok _ _, s) => .ok s
          | (.trap c, s) => .trap c caStore va s
          | (.stall, s) => .stay s
      match o with
      | .ok s => mmStep load n w rm ra b off todo (j + 1) (left - 1) ((s.kput n rm (s.kr n rm &&& ~~~((1 : Word) <<< j))).onSeq n (fun x => x.pass 1))
      | o => o

/-- The word of a masked multiple transfer. -/
def wordMm (load : Bool) (rm ra b off : Nat) : W32 :=
  BitVec.ofNat 32 ((if load then 0x3C else 0x3B) * 2 ^ 26 + rm * 2 ^ 21 + ra * 2 ^ 16 + b * 2 ^ 15 + off % 2 ^ 15)

/-- A transfer that ends early leaves the registers it has loaded complete (R232, R263): `m` selected them at its start, and `rm` selects those still to come. -/
def KOut.landed (n rm b m : Nat) (o : KOut) : KOut :=
  let land (s : State) : State := landRegs n (((List.range 16).filter (fun j => bitOf m j && !bitOf (s.kr n rm).toNat j)).map (16 * b + ·)) s
  match o with
  | .trap c a va s => .trap c a va (land s)
  | .stay s => .stay (land s)
  | o => o

/-- A masked multiple transfer (R231): an interrupt that arrives after `cut` transfers cuts it while interrupts are enabled (R232; log entry 59). -/
def kMm (load : Bool) (rm ra b off cut : Nat) : KIns :=
  { word := wordMm load rm ra b off, rep := false, cycles := 0,
    srcs := rm :: ra :: (List.range 16).map (16 * b + ·),
    body := fun n s =>
      let m := (s.kr n rm).toNat
      let sel (r : Nat) : Bool := r / 16 == b && bitOf m (r % 16)
      if sel rm ∨ sel ra then .trap tcILL 0 0 s
      else
        let va0 := ea (s.kr n ra) (sgn 15 off * 8)
        if va0 % 8 ≠ 0 then .trap tcALN (if load then caLoad else caStore) va0 s
        else
          let s := if m % 2 ^ 16 = 0 then s.onSeq n (fun x => x.pass 1) else s
          let cuts := (s.getSeq n).sb stIE && (s.getSeq n).rptc == 0
          (mmStep load n (wordMm load rm ra b off).toNat rm ra b (sgn 15 off) 16 0 (if cuts then cut else 16) s).landed n rm b m }

/-- `STMM` (R231). -/
def execStmm (n : Fin 24) (rm ra : Fin 32) (b : Fin 2) (off : BitVec 15) (cut : Fin 17) (s : State) : Host.Outcome State Fault Refusal :=
  .next (issue n (kMm false rm ra b off.toNat cut) s)

/-- `LDMM` (R231). -/
def execLdmm (n : Fin 24) (rm ra : Fin 32) (b : Fin 2) (off : BitVec 15) (cut : Fin 17) (s : State) : Host.Outcome State Fault Refusal :=
  .next (issue n (kMm true rm ra b off.toNat cut) s)

/-! ### Half-context transfers (R233, R264 to R267) -/

/-- Supervisor instructions at user level raise PRV (R214). -/
def needSup (n : Nat) (next : State → KOut) (s : State) : KOut := if (s.getSeq n).pl = 0 then .trap tcPRV 0 0 s else next s

/-- Store words from an address on, by the instruction word `wd`; the first fault ends it. -/
def storeWords (n wd : Nat) : (va : Nat) → List Nat → (State → KOut) → State → KOut
  | _, [], next, s => next s
  | va, w :: ws, next, s =>
    match kStore n wd (va % 2 ^ 48) 8 w s with
    | (.ok _ _, s) => storeWords n wd (va + 8) ws next s
    | (.trap c, s) => .trap c caStore (va % 2 ^ 48) s
    | (.stall, s) => .stay s

/-- Load `k` words from an address on; the first fault ends it. -/
def loadWords (n : Nat) : (k va : Nat) → (List Nat → State → KOut) → State → KOut
  | 0, _, next, s => next [] s
  | k + 1, va, next, s =>
    match kLoad n (va % 2 ^ 48) 8 s with
    | (.ok d _, s) => loadWords n k (va + 8) (fun ds s => next (d :: ds) s) s
    | (.trap c, s) => .trap c caLoad (va % 2 ^ 48) s
    | (.stall, s) => .stay s

/-- The words of a lower-half area (R264). -/
def Seq.lowerWords (x : Seq) : List Nat :=
  (List.range 7).map (fun k => (x.atPlace (k + 1)).toNat) ++ [x.epc, x.status.toNat, x.wcur + x.wres * 2 ^ 8, x.wsp, 0, 0, 0, x.cxlink, 0x4C]

/-- The words of an upper-half area of a bank (R265). -/
def Seq.upperWords (x : Seq) (b : Nat) : List Nat :=
  let a0 := (x.accAt (2 * b)).toNat
  let a1 := (x.accAt (2 * b + 1)).toNat
  (List.range 8).map (fun k => (x.atPlace (8 + 8 * b + k)).toNat) ++
    [a0 % 2 ^ 64, a1 % 2 ^ 64, a0 / 2 ^ 64 + a1 / 2 ^ 64 * 2 ^ 8, x.lpc.toNat, x.lcnt + x.rptc * 2 ^ 32, 0, x.cxlink, 0x55 + b * 2 ^ 8]

/-- The word of a half-context instruction. -/
def wordHalf (fn ra : Nat) : W32 := BitVec.ofNat 32 (0x3D * 2 ^ 26 + ra * 2 ^ 21 + fn)

/-- A save of a half at the address in ra (R233): CXLINK changes last. -/
def kCxs (upper : Bool) (ra : Nat) : KIns :=
  { word := wordHalf (b2n upper) ra, rep := false, cycles := 16, srcs := ra :: (List.range 16),
    body := fun n => needSup n (fun s =>
      let s := landAll n s
      let va := (s.kr n ra).toNat % 2 ^ 48
      if va % 64 ≠ 0 then .trap tcALN caStore va s
      else
        let x := s.getSeq n
        let ws := if upper then x.upperWords (b2n (x.sb stPSH)) else x.lowerWords
        storeWords n (wordHalf (b2n upper) ra).toNat va ws (fun s => .ok (s.onSeq n (fun x => { x with cxlink := va }))) s) }

/-- A privilege field keeps its old value when 2 or 3 is written below monitor level (R186). -/
def plField (pl old new : Nat) : Nat := if 2 ≤ new ∧ pl < 2 then old else new

/-- The lower half from the words of an area (R264): STATUS whole, within the values its fields take (R186). -/
def Seq.fromLower (x : Seq) (ws : List Nat) : Seq :=
  let w (k : Nat) : Nat := ws.getD k 0
  let x' := (List.range 7).foldl (fun (x : Seq) k => x.putPlace (k + 1) (BitVec.ofNat 64 (w k))) x
  let st : Word := BitVec.ofNat 64 (w 8 % 2 ^ 17)
  let st := setBits st 1 0 (plField x.pl (getBits x.status 1 0) (getBits st 1 0))
  let st := setBits st 3 2 (plField x.pl (getBits x.status 3 2) (getBits st 3 2))
  let wc := w 9 % 8
  let wr := w 9 / 2 ^ 8 % 8
  { x' with epc := w 7 % 2 ^ 48, status := st, wcur := (if wc = 7 then x.wcur else wc), wres := (if 6 ≤ wr then x.wres else wr), wsp := w 10 % 2 ^ 48 / 64 * 64,
            cxlink := w 14 % 2 ^ 48, fmask := none }

/-- The upper half from the words of an area, into the bank its tag names (R265, R266).  The accumulators take their values at the issue of `CXRU`, so that products then
in flight are added to them: no rule names the cycle of its sixteen (DESIGN CHOICE, log entry 57). -/
def Seq.fromUpper (x : Seq) (ws : List Nat) : Seq :=
  let w (k : Nat) : Nat := ws.getD k 0
  let b := w 15 / 2 ^ 8 % 2
  let x := (List.range 8).foldl (fun (x : Seq) k => x.putPlace (8 + 8 * b + k) (BitVec.ofNat 64 (w k))) x
  let x := x.putAcc (2 * b) (BitVec.ofNat 72 (w 8 + w 10 % 2 ^ 8 * 2 ^ 64))
  let x := x.putAcc (2 * b + 1) (BitVec.ofNat 72 (w 9 + w 10 / 2 ^ 8 % 2 ^ 8 * 2 ^ 64))
  { x.setLpc (BitVec.ofNat 64 (w 11 / 4 * 4)) with lcnt := w 12 % 2 ^ 32, rptc := min (w 12 / 2 ^ 32 % 2 ^ 11) 1024, cxlink := w 14 % 2 ^ 48 }

/-- A restore of a half from the area at CXLINK (R233, R266): ILL when CXLINK is 0 or the tag names the other half. -/
def kCxr (upper : Bool) : KIns :=
  { word := wordHalf (2 + b2n upper) 0, rep := false, cycles := 16, srcs := [],
    body := fun n s =>
      if (s.getSeq n).cxlink = 0 then .trap tcILL 0 0 s
      else needSup n (fun s =>
      let va := (s.getSeq n).cxlink
      if va % 64 ≠ 0 then .trap tcALN caLoad va s
      else
        loadWords n 16 va (fun ws s =>
          let tag := ws.getD 15 0
          if (if upper then tag = 0x55 ∨ tag = 0x155 else tag = 0x4C) then
            .ok (s.onSeq n (fun x => (if upper then x.fromUpper ws else x.fromLower ws).pass (fillWait va)))
          else .trap tcILL 0 0 s) s) s }

/-- `CXSL` (R233). -/
def execCxsl (n : Fin 24) (ra : Fin 32) (s : State) : Host.Outcome State Fault Refusal := .next (issue n (kCxs false ra) s)
/-- `CXSU` (R233). -/
def execCxsu (n : Fin 24) (ra : Fin 32) (s : State) : Host.Outcome State Fault Refusal := .next (issue n (kCxs true ra) s)
/-- `CXRL` (R233). -/
def execCxrl (n : Fin 24) (s : State) : Host.Outcome State Fault Refusal := .next (issue n (kCxr false) s)
/-- `CXRU` (R233). -/
def execCxru (n : Fin 24) (s : State) : Host.Outcome State Fault Refusal := .next (issue n (kCxr true) s)

end Sys2Proof.Machine
end

