-- ==== Sys2Proof/Machine/KretasFlow.lean ====
section
/-!
DEFINITION. Machine/KretasFlow.lean: branches, jumps, register windows, repeats and loops of a sequencer (R188, R196, R198, R221 to R224, R234).
-/
namespace Sys2Proof.Machine

/-- A transfer of control to a target, which must be word-aligned (R221). -/
def jumpTo (t : Nat) (s : State) : KOut := if t % 4 ≠ 0 then .trap tcALN caJump t s else .jump t s

/-- The address `off` instructions from PC. -/
def State.relPc (s : State) (n : Nat) (off : Int) : Nat := ((((s.getSeq n).pc : Int) + off * 4) % 2 ^ 48).toNat

/-- The relation of a branch opcode (R221). -/
def branchFn (op : Nat) (a b : Word) : Bool :=
  match op with
  | 0x20 => a == b
  | 0x21 => a != b
  | 0x22 => a.slt b
  | 0x23 => !a.slt b
  | 0x24 => a.ult b
  | _ => !a.ult b

/-- A conditional branch (R221): 1 cycle, 2 when taken. -/
def kBranch (op ra rb off : Nat) : KIns :=
  { word := wordI op ra rb off, rep := false, cycles := 1, srcs := [ra, rb],
    body := fun n s =>
      if branchFn op (s.kr n ra) (s.kr n rb) then jumpTo (s.relPc n (sgn 16 off)) (s.onSeq n (fun x => x.pass 1)) else .ok s }

/-- `J` (R221). -/
def kJ (off : Nat) : KIns := { word := wordJ 0x26 off, rep := false, cycles := 1, srcs := [], body := fun n s => jumpTo (s.relPc n (sgn 26 off)) s }

/-- `JALR` (R221). -/
def kJalr (rd ra imm : Nat) : KIns :=
  { word := wordI 0x27 rd ra imm, rep := false, cycles := 1, srcs := [ra],
    body := fun n s =>
      let t := ea (s.kr n ra) (sgn 16 imm * 4)
      if t % 4 ≠ 0 then .trap tcALN caJump t s
      else .jump t (s.kput n rd (BitVec.ofNat 64 (((s.getSeq n).pc + 4) % 2 ^ 48))) }

/-! ### Windows (R188, R222, R234) -/

/-- Store `k` words of a frame from word `j` on at an address; the first fault is a window double fault of the kind (R190). -/
def spillFrame (n kind frame : Nat) : (todo : Nat) → (j va : Nat) → (State → KOut) → State → KOut
  | 0, _, _, next, s => next s
  | todo + 1, j, va, next, s =>
    match hwStore n va ((s.getSeq n).atPlace (24 + 8 * (frame % 7) + j)).toNat s with
    | (.trap c, s) => .dfault kind c caStore va s
    | (.stall, s) => .stay s
    | (.ok _ _, s) => spillFrame n kind frame todo (j + 1) ((va + 8) % 2 ^ 48) next s

/-- Load the words of a frame from an address; the first fault is a window double fault of the kind (R190). -/
def fillFrame (n kind frame : Nat) : (todo : Nat) → (j va : Nat) → (State → KOut) → State → KOut
  | 0, _, _, next, s => next s
  | todo + 1, j, va, next, s =>
    match kLoad n va 8 s with
    | (.trap c, s) => .dfault kind c caLoad va s
    | (.stall, s) => .stay s
    | (.ok d _, s) =>
      fillFrame n kind frame todo (j + 1) ((va + 8) % 2 ^ 48) next (s.onSeq n (fun x => x.putPlace (24 + 8 * (frame % 7) + j) (BitVec.ofNat 64 d)))

/-- WSP and the registers as they stood before an instruction that ended in a double fault (R214, R255), or has to wait and starts again. -/
def KOut.keep (n : Nat) (x : Seq) (o : KOut) : KOut :=
  let back (s : State) : State := s.onSeq n (fun y => { y.setWsp x.wsp with r := x.r })
  match o with
  | .dfault k c a va s => .dfault k c a va (back s)
  | .stay s => .stay (back s)
  | o => o

/-- The rotation of a window call to a target (R222): the return address becomes the callee's w7. -/
def windowCall (n t : Nat) (s : State) : KOut :=
  let x := s.getSeq n
  if x.sb stTW then .trap tcILL 0 0 s
  else if t % 4 ≠ 0 then .trap tcALN caJump t s
  else
    let turn (s : State) : KOut :=
      .jump t (s.onSeq n (fun x => { x.put 31 (BitVec.ofNat 64 ((x.pc + 4) % 2 ^ 48)) with wcur := (x.wcur + 1) % 7 }))
    if x.wres = 5 then
      let sp := (x.wsp + 2 ^ 48 - 64) % 2 ^ 48
      spillFrame n 1 (x.wcur + 2) 8 0 sp (fun s => turn (s.onSeq n (fun x => (x.pass 9).setWsp sp))) (landAll n s)
    else turn (s.onSeq n (fun x => { x with wres := x.wres + 1 }))

/-- `CALLW` (R222). -/
def kCallw (off : Nat) : KIns :=
  { word := wordJ 0x28 off, rep := false, cycles := 1, srcs := [], body := fun n s => windowCall n (s.relPc n (sgn 26 off)) s }

/-- `CALLWR` (R222): ra is read before the rotation. -/
def kCallwr (ra imm : Nat) : KIns :=
  { word := wordI 0x29 0 ra imm, rep := false, cycles := 1, srcs := [ra], body := fun n s => windowCall n (ea (s.kr n ra) (sgn 16 imm * 4)) s }

/-- `RETW` (R222): a fill when no caller's window is resident. -/
def kRetw : KIns :=
  { word := wordJ 0x2A 0, rep := false, cycles := 1, srcs := [23],
    body := fun n s =>
      let x := s.getSeq n
      let t := (s.kr n 23).toNat % 2 ^ 48
      if x.sb stTW then .trap tcILL 0 0 s
      else if t % 4 ≠ 0 then .trap tcALN caJump t s
      else
        let turn (s : State) : KOut := .jump t (s.onSeq n (fun x => { x with wcur := (x.wcur + 6) % 7 }))
        if x.wres = 0 then
          (fillFrame n 2 (x.wcur + 6) 8 0 x.wsp (fun s => turn (s.onSeq n (fun x => (x.pass (9 + fillWait x.wsp)).setWsp ((x.wsp + 64) % 2 ^ 48)))) s).keep n x
        else turn (s.onSeq n (fun x => { x with wres := x.wres - 1 })) }

/-- `FLUSHW` and `FILLW` need supervisor level, `TW` = 1 and `IE` = 0, and raise ILL otherwise (R234). -/
def needTrapWindow (n : Nat) (next : State → KOut) (s : State) : KOut :=
  let x := s.getSeq n
  if x.pl = 0 ∨ x.sb stTW = false ∨ x.sb stIE then .trap tcILL 0 0 s else next s

/-- Spill the frames in order, each below the last (R234). -/
def spillMany (n : Nat) : List Nat → (State → KOut) → State → KOut
  | [], next, s => next s
  | f :: fs, next, s =>
    let sp := ((s.getSeq n).wsp + 2 ^ 48 - 64) % 2 ^ 48
    spillFrame n 3 f 8 0 sp (fun s => spillMany n fs next (s.onSeq n (fun x => (x.pass 8).setWsp sp))) s

/-- The word of a system instruction (R235). -/
def wordSys (fn rd ra sp : Nat) (h : Bool) : W32 := BitVec.ofNat 32 (0x3A * 2 ^ 26 + rd * 2 ^ 21 + ra * 2 ^ 16 + sp * 2 ^ 11 + b2n h * 2 ^ 10 + fn)

/-- `FLUSHW` (R234): the callers' frames oldest first, the current frame and the next one. -/
def kFlushw : KIns :=
  { word := wordSys 0x09 0 0 0 false, rep := false, cycles := 2, srcs := [],
    body := fun n => needTrapWindow n (fun s =>
      let s := landAll n s
      let x := s.getSeq n
      let fs := (List.range x.wres).map (fun k => x.wcur + 7 - (x.wres - k)) ++ [x.wcur, x.wcur + 1]
      (spillMany n fs (fun s => .ok (s.onSeq n (fun x => { x with wres := 0 }))) s).keep n x) }

/-- `FILLW` (R234). -/
def kFillw : KIns :=
  { word := wordSys 0x0A 0 0 0 false, rep := false, cycles := 18, srcs := [],
    body := fun n => needTrapWindow n (fun s =>
      let x := s.getSeq n
      (fillFrame n 3 (x.wcur + 1) 8 0 x.wsp (fun s =>
        fillFrame n 3 x.wcur 8 0 ((x.wsp + 64) % 2 ^ 48) (fun s =>
          .ok (s.onSeq n (fun x => { (x.pass (fillWait x.wsp)).setWsp ((x.wsp + 128) % 2 ^ 48) with wres := 0 }))) s) s).keep n x) }

/-! ### Repeat and loop (R196, R198, R223, R224) -/

/-- Whether an instruction word is one that R196 counts as repeatable: the Rpt column of R217 and R218, loads, stores and `DLD`, and the MAC group. -/
def repeatable (w : W32) : Bool :=
  let op := w.toNat / 2 ^ 26
  let fn := w.toNat % 2 ^ 6
  if op = 0x01 then decide (fn ≤ 0x1C) && !decide (0x0F ≤ fn ∧ fn ≤ 0x12)
  else decide (0x02 ≤ op ∧ op ≤ 0x0A) || decide (0x10 ≤ op ∧ op ≤ 0x16) || decide (0x18 ≤ op ∧ op ≤ 0x1E) ||
    (op == 0x38 && w.toNat / 2 ^ 6 % 16 != 15)

/-- The word that a fetch would deliver at an address, if the fetch does not fail. -/
def State.wordAt (s : State) (n va : Nat) : Option W32 :=
  match kFetch n va s with
  | (.ok d _, _) => some (BitVec.ofNat 32 d)
  | _ => none

/-- `RPT` with a count (R196, R223): ILL when the instruction that follows is not repeatable. -/
def kRpt (word : W32) (srcs : List Nat) (count : Nat → State → Nat) : KIns :=
  { word := word, rep := false, cycles := 1, srcs := srcs,
    body := fun n s =>
      let next := (s.getSeq n).advance.pc
      if (match s.wordAt n next with | some w => repeatable w | none => true) then
        .ok (s.onSeq n (fun x => { x.setSb stRP true with rptc := min (max (count n s) 1) 1024 }))
      else .trap tcILL 0 0 s }

/-- `LOOP` (R198, R224): a length of 0 raises ILL, a count of 0 skips the body. -/
def kLoop (ra len : Nat) : KIns :=
  { word := BitVec.ofNat 32 (0x37 * 2 ^ 26 + ra * 2 ^ 21 + len), rep := false, cycles := 1, srcs := [ra],
    body := fun n s =>
      if len = 0 then .trap tcILL 0 0 s
      else
        let c := (s.kr n ra).toNat % 2 ^ 32
        let start := ((s.getSeq n).pc + 4) % 2 ^ 48
        let s := s.onSeq n (fun x => { (x.setSb stLA (c != 0)).setLpc (BitVec.ofNat 64 (len * 2 ^ 48 + start)) with lcnt := c })
        .jump (if c = 0 then start + 4 * len else start) s }

/-- `BEQ` (R221). -/
def execBeq (n : Fin 24) (ra rb : Fin 32) (off : BitVec 16) (s : State) : Host.Outcome State Fault Refusal := .next (issue n (kBranch 0x20 ra rb off.toNat) s)
/-- `BNE` (R221). -/
def execBne (n : Fin 24) (ra rb : Fin 32) (off : BitVec 16) (s : State) : Host.Outcome State Fault Refusal := .next (issue n (kBranch 0x21 ra rb off.toNat) s)
/-- `BLT` (R221). -/
def execBlt (n : Fin 24) (ra rb : Fin 32) (off : BitVec 16) (s : State) : Host.Outcome State Fault Refusal := .next (issue n (kBranch 0x22 ra rb off.toNat) s)
/-- `BGE` (R221). -/
def execBge (n : Fin 24) (ra rb : Fin 32) (off : BitVec 16) (s : State) : Host.Outcome State Fault Refusal := .next (issue n (kBranch 0x23 ra rb off.toNat) s)
/-- `BLTU` (R221). -/
def execBltu (n : Fin 24) (ra rb : Fin 32) (off : BitVec 16) (s : State) : Host.Outcome State Fault Refusal := .next (issue n (kBranch 0x24 ra rb off.toNat) s)
/-- `BGEU` (R221). -/
def execBgeu (n : Fin 24) (ra rb : Fin 32) (off : BitVec 16) (s : State) : Host.Outcome State Fault Refusal := .next (issue n (kBranch 0x25 ra rb off.toNat) s)
/-- `J` (R221). -/
def execJ (n : Fin 24) (off : BitVec 26) (s : State) : Host.Outcome State Fault Refusal := .next (issue n (kJ off.toNat) s)
/-- `JALR` (R221). -/
def execJalr (n : Fin 24) (rd ra : Fin 32) (imm : BitVec 16) (s : State) : Host.Outcome State Fault Refusal := .next (issue n (kJalr rd ra imm.toNat) s)
/-- `CALLW` (R222). -/
def execCallw (n : Fin 24) (off : BitVec 26) (s : State) : Host.Outcome State Fault Refusal := .next (issue n (kCallw off.toNat) s)
/-- `CALLWR` (R222). -/
def execCallwr (n : Fin 24) (ra : Fin 32) (imm : BitVec 16) (s : State) : Host.Outcome State Fault Refusal := .next (issue n (kCallwr ra imm.toNat) s)
/-- `RETW` (R222). -/
def execRetw (n : Fin 24) (s : State) : Host.Outcome State Fault Refusal := .next (issue n kRetw s)
/-- `FLUSHW` (R234). -/
def execFlushw (n : Fin 24) (s : State) : Host.Outcome State Fault Refusal := .next (issue n kFlushw s)
/-- `FILLW` (R234). -/
def execFillw (n : Fin 24) (s : State) : Host.Outcome State Fault Refusal := .next (issue n kFillw s)
/-- `LOOP` (R224). -/
def execLoop (n : Fin 24) (ra : Fin 32) (len : BitVec 16) (s : State) : Host.Outcome State Fault Refusal := .next (issue n (kLoop ra len.toNat) s)

/-- `RPT` (R223): with `F` = 0 the count is the immediate plus 1, with `F` = 1 it is ra[31:0]. -/
def kRptI (imm : Nat) : KIns := kRpt (BitVec.ofNat 32 (0x36 * 2 ^ 26 + imm)) [] (fun _ _ => imm + 1)
def kRptR (ra : Nat) : KIns :=
  kRpt (BitVec.ofNat 32 (0x36 * 2 ^ 26 + 2 ^ 25 + ra * 2 ^ 20)) [ra] (fun n s => (s.kr n ra).toNat % 2 ^ 32)

/-- `RPT` (R223). -/
def execRpt (n : Fin 24) (f : Bool) (imm : BitVec 10) (ra : Fin 32) (s : State) : Host.Outcome State Fault Refusal :=
  .next (issue n (if f then kRptR ra else kRptI imm.toNat) s)

end Sys2Proof.Machine
end

