-- ==== Sys2Proof/Machine/KretasMac.lean ====
section
/-!
DEFINITION. Machine/KretasMac.lean: the MAC and DSP instructions of a sequencer (R225 to R227).
-/
namespace Sys2Proof.Machine

/-- The word of a MAC or DSP instruction (R225). -/
def wordMac (fn rd ra rb a k : Nat) : W32 :=
  BitVec.ofNat 32 (0x38 * 2 ^ 26 + rd * 2 ^ 21 + ra * 2 ^ 16 + rb * 2 ^ 11 + a * 2 ^ 10 + fn * 2 ^ 6 + k)

/-- What a MAC instruction adds to its accumulator (R225). -/
def macDelta (fn : Nat) (a b : Word) : Int :=
  let s32 (v : Word) : Int := sgn 32 v.toNat
  let h (v : Word) : Int := sgn 16 (v.toNat / 2 ^ 16)
  let l (v : Word) : Int := sgn 16 v.toNat
  match fn with
  | 0 => s32 a * s32 b
  | 1 => ((a.toNat % 2 ^ 32 * (b.toNat % 2 ^ 32) : Nat) : Int)
  | 2 => -(s32 a * s32 b)
  | 3 => h a * h b + l a * l b
  | 4 => h a * l b + l a * h b
  | 5 => h a * h b - l a * l b
  | _ => a.toInt

/-- An instruction that adds to an accumulator of the bank selected at issue at the end of cycle t + 2 (R202, R203). -/
def kMac (fn ra rb a : Nat) : KIns :=
  { word := wordMac fn 0 ra rb a 0, rep := true, cycles := 1, srcs := [ra, rb],
    body := fun n s =>
      let d := macDelta fn (s.kr n ra) (s.kr n rb)
      .ok (s.onSeq n (fun x => { x with macs := x.macs ++ [{ acc := x.accIx a, delta := d, due := x.cycle + 2 }] })) }

/-- `ACLR` (R225): written at the end of cycle t, before the products added there. -/
def kAclr (a : Nat) : KIns :=
  { word := wordMac 7 0 0 0 a 0, rep := true, cycles := 1, srcs := [], body := fun n s => .ok (s.onSeq n (fun x => x.putAcc (x.accIx a) 0)) }

/-- Bits below the sign of a 72-bit number that are equal to it (R225). -/
def redundant72 (v : BitVec 72) : Nat :=
  let m : Nat := if v.toInt < 0 then (-v.toInt - 1).toNat else v.toNat
  if m = 0 then 71 else 70 - Nat.log2 m

/-- What an extraction delivers (R225): narrowing truncates toward minus infinity. -/
def extFn (fn : Nat) (acc : BitVec 72) (k : Nat) : Word :=
  let v : Int := acc.toInt / 2 ^ k
  match fn with
  | 8 => BitVec.ofInt 64 (sgn 32 (toTwos 72 v))
  | 9 => BitVec.ofInt 64 (clampS 32 v).1
  | 10 => BitVec.ofInt 64 v
  | 11 => BitVec.ofInt 64 (clampS 64 v).1
  | _ => BitVec.ofNat 64 (redundant72 acc)

/-- An extraction: the accumulator as it stands at the start of its cycle (R202). -/
def kExt (fn rd a k : Nat) : KIns :=
  { word := wordMac fn rd 0 0 a k, rep := true, cycles := 1, srcs := [],
    body := fun n s =>
      let x := s.getSeq n
      .ok (s.kput n rd (extFn fn (x.accAt (x.accIx a)) k)) }

/-- `MAXI` and `MINI` (R227). -/
def kBest (mini : Bool) (rd ra rb : Nat) : KIns :=
  { word := wordMac (13 + b2n mini) rd ra rb 0 0, rep := true, cycles := 1, srcs := [rd, ra, rb],
    body := fun n s =>
      if rd % 2 = 1 ∨ rb = rd ∨ rb = rd + 1 then .trap tcILL 0 0 s
      else
        let a := s.kr n ra
        let b := s.kr n rb
        let d := s.kr n rd
        let s := if (if mini then a.slt d else d.slt a) then (s.kput n rd a).kput n (rd + 1) b else s
        .ok (s.kput n rb (b + 1)) }

/-- `MAC` (R225). -/
def execMac (n : Fin 24) (ra rb : Fin 32) (a : Fin 2) (s : State) : Host.Outcome State Fault Refusal := .next (issue n (kMac 0 ra rb a) s)
/-- `MACU` (R225). -/
def execMacu (n : Fin 24) (ra rb : Fin 32) (a : Fin 2) (s : State) : Host.Outcome State Fault Refusal := .next (issue n (kMac 1 ra rb a) s)
/-- `MSU` (R225). -/
def execMsu (n : Fin 24) (ra rb : Fin 32) (a : Fin 2) (s : State) : Host.Outcome State Fault Refusal := .next (issue n (kMac 2 ra rb a) s)
/-- `DMAC` (R225). -/
def execDmac (n : Fin 24) (ra rb : Fin 32) (a : Fin 2) (s : State) : Host.Outcome State Fault Refusal := .next (issue n (kMac 3 ra rb a) s)
/-- `DMACX` (R225). -/
def execDmacx (n : Fin 24) (ra rb : Fin 32) (a : Fin 2) (s : State) : Host.Outcome State Fault Refusal := .next (issue n (kMac 4 ra rb a) s)
/-- `DMACS` (R225). -/
def execDmacs (n : Fin 24) (ra rb : Fin 32) (a : Fin 2) (s : State) : Host.Outcome State Fault Refusal := .next (issue n (kMac 5 ra rb a) s)
/-- `ACCA` (R225). -/
def execAcca (n : Fin 24) (ra : Fin 32) (a : Fin 2) (s : State) : Host.Outcome State Fault Refusal := .next (issue n (kMac 6 ra 0 a) s)
/-- `ACLR` (R225). -/
def execAclr (n : Fin 24) (a : Fin 2) (s : State) : Host.Outcome State Fault Refusal := .next (issue n (kAclr a) s)
/-- `EXT` (R225). -/
def execExt (n : Fin 24) (rd : Fin 32) (a : Fin 2) (k : Fin 64) (s : State) : Host.Outcome State Fault Refusal := .next (issue n (kExt 8 rd a k) s)
/-- `EXTS` (R225). -/
def execExts (n : Fin 24) (rd : Fin 32) (a : Fin 2) (k : Fin 64) (s : State) : Host.Outcome State Fault Refusal := .next (issue n (kExt 9 rd a k) s)
/-- `EXTD` (R225). -/
def execExtd (n : Fin 24) (rd : Fin 32) (a : Fin 2) (k : Fin 64) (s : State) : Host.Outcome State Fault Refusal := .next (issue n (kExt 10 rd a k) s)
/-- `EXTDS` (R225). -/
def execExtds (n : Fin 24) (rd : Fin 32) (a : Fin 2) (k : Fin 64) (s : State) : Host.Outcome State Fault Refusal := .next (issue n (kExt 11 rd a k) s)
/-- `NORM` (R225). -/
def execNorm (n : Fin 24) (rd : Fin 32) (a : Fin 2) (s : State) : Host.Outcome State Fault Refusal := .next (issue n (kExt 12 rd a 0) s)
/-- `MAXI` (R227). -/
def execMaxi (n : Fin 24) (rd ra rb : Fin 32) (s : State) : Host.Outcome State Fault Refusal := .next (issue n (kBest false rd ra rb) s)
/-- `MINI` (R227). -/
def execMini (n : Fin 24) (rd ra rb : Fin 32) (s : State) : Host.Outcome State Fault Refusal := .next (issue n (kBest true rd ra rb) s)

end Sys2Proof.Machine
end

