-- ==== Sys2Proof/Machine/Float.lean ====
section
/-!
DEFINITION. Machine/Float.lean: IEEE 754 arithmetic in binary64 and binary32 over exact integers (R230).  A finite number is m × 2^e with m an integer; results are
computed exactly, or with a sticky bit below, and rounded once.
-/
namespace Sys2Proof.Machine

/-- A binary format: exponent and fraction bits. -/
structure Fmt where
  eb : Nat
  mb : Nat
deriving DecidableEq, Repr

/-- binary64 and binary32. -/
def f64 : Fmt := { eb := 11, mb := 52 }
def f32 : Fmt := { eb := 8, mb := 23 }

/-- Largest exponent field. -/
def Fmt.emax (f : Fmt) : Nat := 2 ^ f.eb - 1
/-- Exponent of the unit of a subnormal number. -/
def Fmt.emin (f : Fmt) : Int := 2 - 2 ^ (f.eb - 1) - f.mb
/-- Bits of the format. -/
def Fmt.size (f : Fmt) : Nat := 1 + f.eb + f.mb
/-- The pattern of infinity without its sign. -/
def Fmt.inf (f : Fmt) : Nat := f.emax * 2 ^ f.mb
/-- The canonical quiet NaN (R230). -/
def Fmt.nan (f : Fmt) : Nat := f.inf + 2 ^ (f.mb - 1)

/-- A number taken apart. -/
inductive FpNum where
  | nan (quiet : Bool)
  | inf (neg : Bool)
  | fin (neg : Bool) (m : Nat) (e : Int)     -- zero when m = 0
deriving DecidableEq, Repr

/-- Take a bit pattern apart. -/
def Fmt.unpack (f : Fmt) (v : Nat) : FpNum :=
  let neg := bitOf v (f.eb + f.mb)
  let e := v / 2 ^ f.mb % 2 ^ f.eb
  let m := v % 2 ^ f.mb
  if e = f.emax then (if m = 0 then .inf neg else .nan (bitOf m (f.mb - 1)))
  else if e = 0 then .fin neg m f.emin
  else .fin neg (m + 2 ^ f.mb) (f.emin + e - 1)

/-- Flags of `fcs` [4:0] (R229). -/
def fNV : Nat := 16
def fDZ : Nat := 8
def fOF : Nat := 4
def fUF : Nat := 2
def fNX : Nat := 1

/-- The sign bit of a format. -/
def Fmt.sign (f : Fmt) (neg : Bool) : Nat := b2n neg * 2 ^ (f.eb + f.mb)

/-- A fraction m / 2^sh rounded to an integer: mode 0 nearest even, 1 toward zero, 2 down, 3 up. -/
def roundShift (rm : Nat) (neg : Bool) (m sh : Nat) : Nat × Bool :=
  let q := m / 2 ^ sh
  let r := m % 2 ^ sh
  let up :=
    match rm with
    | 0 => decide (2 ^ sh < 2 * r) || (decide (2 * r = 2 ^ sh) && q % 2 == 1)
    | 1 => false
    | 2 => neg && r != 0
    | _ => !neg && r != 0
  (if up then q + 1 else q, r != 0)

/-- ROUND: ±m × 2^e with m > 0 to a format, with the flags raised; overflow and underflow as IEEE 754 has them (R230).  Whether tininess is found before or after
rounding is open (log entry 22). -/
def Fmt.round (f : Fmt) (rm : Nat) (neg : Bool) (m : Nat) (e : Int) : Nat × Nat :=
  let nb : Int := Nat.log2 m + 1
  let q := max (e + nb - (f.mb + 1)) f.emin
  let (r, inexact) := if q ≤ e then (m * 2 ^ (e - q).toNat, false) else roundShift rm neg m (q - e).toNat
  let v := ((q - f.emin).toNat * 2 ^ f.mb) + r
  let tinyBefore := decide (e + nb - 1 < f.emin + f.mb)
  let free := e + nb - (f.mb + 1)
  let after := if free ≤ e then m * 2 ^ (e - free).toNat else (roundShift rm neg m (free - e).toNat).1
  let tinyAfter := tinyBefore && !(decide (after = 2 ^ (f.mb + 1)) && decide (e + nb = f.emin + f.mb))
  let tiny := if Config.tinyAfterRounding then tinyAfter else tinyBefore
  if f.inf ≤ v then
    let toInf := match rm with
      | 0 => true | 1 => false | 2 => neg | _ => !neg
    (f.sign neg + (if toInf then f.inf else f.inf - 1), fOF + fNX)
  else (f.sign neg + v, (if inexact then fNX else 0) + (if inexact ∧ tiny then fUF else 0))

/-- Round a signed exact number m × 2^e; an exact zero takes the sign given. -/
def Fmt.roundInt (f : Fmt) (rm : Nat) (zeroNeg : Bool) (m : Int) (e : Int) : Nat × Nat :=
  if m = 0 then (f.sign zeroNeg, 0) else f.round rm (decide (m < 0)) m.natAbs e

/-- The sign that a sum of exact zero takes: the common sign of its terms, else plus, or minus when rounding down. -/
def zeroSign (rm : Nat) (a b : Bool) : Bool := if a = b then a else rm == 2

/-- Signed integer of a magnitude. -/
def signed (neg : Bool) (m : Nat) : Int := if neg then -(m : Int) else m

/-- Invalid flag of signalling NaN operands. -/
def snan : FpNum → Bool
  | .nan q => !q
  | _ => false

/-- The NaN result of an operation, with `NV` for a signalling operand. -/
def Fmt.nanOf (f : Fmt) (xs : List FpNum) : Nat × Nat := (f.nan, if xs.any snan then fNV else 0)

/-- Whether a number is a NaN. -/
def FpNum.isNan : FpNum → Bool
  | .nan _ => true
  | _ => false

/-- Sum of two numbers. -/
def Fmt.add (f : Fmt) (rm : Nat) (a b : FpNum) : Nat × Nat :=
  match a, b with
  | .inf x, .inf y => if x = y then (f.sign x + f.inf, 0) else (f.nan, fNV)
  | .inf x, .fin _ _ _ => (f.sign x + f.inf, 0)
  | .fin _ _ _, .inf y => (f.sign y + f.inf, 0)
  | .fin x m e, .fin y k g =>
    let lo := min e g
    f.roundInt rm (zeroSign rm x y) (signed x m * 2 ^ (e - lo).toNat + signed y k * 2 ^ (g - lo).toNat) lo
  | a, b => f.nanOf [a, b]

/-- The opposite of a number. -/
def FpNum.neg : FpNum → FpNum
  | .nan q => .nan q
  | .inf x => .inf (!x)
  | .fin x m e => .fin (!x) m e

/-- Product of two numbers. -/
def Fmt.mul (f : Fmt) (rm : Nat) (a b : FpNum) : Nat × Nat :=
  match a, b with
  | .inf x, .inf y => (f.sign (x != y) + f.inf, 0)
  | .inf x, .fin y m _ => if m = 0 then (f.nan, fNV) else (f.sign (x != y) + f.inf, 0)
  | .fin x m _, .inf y => if m = 0 then (f.nan, fNV) else (f.sign (x != y) + f.inf, 0)
  | .fin x m e, .fin y k g => f.roundInt rm (x != y) (signed (x != y) (m * k)) (e + g)
  | a, b => f.nanOf [a, b]

/-- Quotient of two numbers. -/
def Fmt.div (f : Fmt) (rm : Nat) (a b : FpNum) : Nat × Nat :=
  match a, b with
  | .inf _, .inf _ => (f.nan, fNV)
  | .inf x, .fin y _ _ => (f.sign (x != y) + f.inf, 0)
  | .fin x _ _, .inf y => (f.sign (x != y), 0)
  | .fin x m e, .fin y k g =>
    let neg := x != y
    if k = 0 then (if m = 0 then (f.nan, fNV) else (f.sign neg + f.inf, fDZ))
    else if m = 0 then (f.sign neg, 0)
    else
      let sh := 2 * f.mb + 4
      let q := m * 2 ^ sh / k
      let sticky := b2n (m * 2 ^ sh % k != 0)
      f.round rm neg (2 * q + sticky) (e - g - sh - 1)
  | a, b => f.nanOf [a, b]

/-- The integer square root by bisection on bits. -/
def isqrt (m : Nat) : (bits : Nat) → Nat → Nat
  | 0, r => r
  | b + 1, r => if (r + 2 ^ b) * (r + 2 ^ b) ≤ m then isqrt m b (r + 2 ^ b) else isqrt m b r

/-- Square root of a number. -/
def Fmt.sqrt (f : Fmt) (rm : Nat) (a : FpNum) : Nat × Nat :=
  match a with
  | .nan _ => f.nanOf [a]
  | .inf x => if x then (f.nan, fNV) else (f.inf, 0)
  | .fin x m e =>
    if m = 0 then (f.sign x, 0)
    else if x then (f.nan, fNV)
    else
      let odd := (e % 2).toNat
      let sh := 2 * f.mb + 6
      let v := m * 2 ^ odd * 2 ^ sh
      let r := isqrt v (2 * f.mb + 8) 0
      f.round rm false (2 * r + b2n (r * r != v)) ((e - odd - sh) / 2 - 1)

/-- c + a × b with one rounding.  Whether infinity times zero beside a quiet NaN raises `NV` is open (log entry 22). -/
def Fmt.fma (f : Fmt) (rm : Nat) (c a b : FpNum) : Nat × Nat :=
  let bad := match a, b with
    | .inf _, .fin _ m _ => m == 0
    | .fin _ m _, .inf _ => m == 0
    | _, _ => false
  if a.isNan || b.isNan then f.nanOf [a, b, c]
  else if bad then (if c.isNan then (f.nan, if snan c || Config.fmaNanInvalid then fNV else 0) else (f.nan, fNV))
  else if c.isNan then f.nanOf [c]
  else
    match a, b with
    | .fin x m e, .fin y k g => f.add rm c (.fin (x != y) (m * k) (e + g))
    | .inf x, .inf y => f.add rm c (.inf (x != y))
    | .inf x, .fin y _ _ => f.add rm c (.inf (x != y))
    | .fin x _ _, .inf y => f.add rm c (.inf (x != y))
    | _, _ => (f.nan, 0)

/-- Order of two numbers that are no NaNs: -1, 0 or 1. -/
def numCmp (a b : FpNum) : Int :=
  match a, b with
  | .inf x, .inf y => if x = y then 0 else if x then -1 else 1
  | .inf x, _ => if x then -1 else 1
  | _, .inf y => if y then 1 else -1
  | .fin x m e, .fin y k g =>
    let lo := min e g
    let u : Int := signed x m * 2 ^ (e - lo).toNat
    let v : Int := signed y k * 2 ^ (g - lo).toNat
    if u < v then -1 else if u = v then 0 else 1
  | _, _ => 0

/-- `FMIN` and `FMAX` on patterns (R228): a quiet NaN operand yields the other operand; which zero is the smaller of +0 and −0 is open (log entry 22). -/
def Fmt.pick (f : Fmt) (mx : Bool) (va vb : Nat) : Nat × Nat :=
  let a := f.unpack va
  let b := f.unpack vb
  if snan a || snan b then (f.nan, fNV)
  else if a.isNan && b.isNan then (f.nan, 0)
  else if a.isNan then (vb, 0)
  else if b.isNan then (va, 0)
  else
    match numCmp a b with
    | 0 => (if Config.zeroPick mx (bitOf va (f.eb + f.mb)) (bitOf vb (f.eb + f.mb)) then va else vb, 0)
    | c => (if (c < 0) != mx then va else vb, 0)

/-- A number of one format converted to another. -/
def Fmt.convert (f : Fmt) (rm : Nat) (a : FpNum) : Nat × Nat :=
  match a with
  | .nan _ => f.nanOf [a]
  | .inf x => (f.sign x + f.inf, 0)
  | .fin x m e => f.roundInt rm x (signed x m) e

/-- A number as an int64 (R228, R230): 0 for a NaN, the nearer limit outside the range, both with `NV`. -/
def toInt64 (rm : Nat) (a : FpNum) : Word × Nat :=
  let top : Word := 0x7FFFFFFFFFFFFFFF
  let bot : Word := 0x8000000000000000
  match a with
  | .nan _ => (0, fNV)
  | .inf x => (if x then bot else top, fNV)
  | .fin x m e =>
    let (r, inexact) := if 0 ≤ e then (if 2000 < e then (m * 2 ^ 64, false) else (m * 2 ^ e.toNat, false)) else roundShift rm x m (-e).toNat
    let v := signed x r
    if v < -(2 ^ 63) then (bot, fNV)
    else if 2 ^ 63 ≤ v then (top, fNV)
    else (BitVec.ofInt 64 v, if inexact then fNX else 0)

/-- A comparison (R228, R230): 0 equal, 1 less, 2 less or equal; 0 with a NaN. -/
def fpCmp (kind : Nat) (a b : FpNum) : Bool × Nat :=
  if a.isNan || b.isNan then (false, if kind ≠ 0 || snan a || snan b then fNV else 0)
  else
    let c := numCmp a b
    (match kind with
     | 0 => c == 0
     | 1 => c == -1
     | _ => c != 1, 0)

end Sys2Proof.Machine
end

