-- ==== Sys2Proof/Machine/KretasFp.lean ====
section
/-!
DEFINITION. Machine/KretasFp.lean: the floating-point instructions of a sequencer (R201, R228 to R230).
-/
namespace Sys2Proof.Machine

/-- The word of an FP instruction (R228). -/
def wordFp (fn d a b : Nat) (sp : Bool) : W32 :=
  BitVec.ofNat 32 (0x39 * 2 ^ 26 + d * 2 ^ 21 + a * 2 ^ 16 + b * 2 ^ 11 + b2n sp * 2 ^ 10 + fn * 2 ^ 5)

/-- The format that `S` names. -/
def fmtOf (sp : Bool) : Fmt := if sp then f32 else f64

/-- An FP register as a pattern of a format: binary32 stands in bits [31:0] (R201). -/
def State.fpat (s : State) (n k : Nat) (sp : Bool) : Nat := (s.kr n (32 + k)).toNat % 2 ^ (fmtOf sp).size

/-- An FP register taken apart. -/
def State.fpNum (s : State) (n k : Nat) (sp : Bool) : FpNum := (fmtOf sp).unpack (s.fpat n k sp)

/-- The rounding mode (R229). -/
def State.rmode (s : State) (n : Nat) : Nat := (s.getSeq n).fcs / 32 % 8

/-- The first change of `fcs` in an active HZ5 frame fills (R261). -/
def fillFlags (n flags : Nat) (next : State → KOut) (s : State) : KOut :=
  if (s.getSeq n).fcs ||| flags = (s.getSeq n).fcs then next s else hz5Fill n 32 next s

/-- Sticky flags are raised. -/
def orFlags (n flags : Nat) (s : State) : State := s.onSeq n (fun x => { x with fcs := x.fcs ||| flags })

/-- Latency of a pipelined FP instruction by function code (R228). -/
def fpLatency (fn : Nat) : Nat := if fn ≤ 2 then 4 else if fn = 5 then 5 else if 11 ≤ fn ∧ fn ≤ 13 then 2 else 1

/-- A result reaches its register, and can be used after the latency. -/
def fpPut (n k fn : Nat) (v : Word) (s : State) : State := (s.kput n k v).onSeq n (fun x => x.usedFrom (x.place k) (fpLatency fn))

/-- Flags and the write of an FP register, after the fills (R261). -/
def fpDone (n d fn : Nat) (r : Nat × Nat) (s : State) : KOut :=
  fillFlags n r.2 (hz5Fill n d (fun s => .ok (fpPut n (32 + d) fn (BitVec.ofNat 64 r.1) (orFlags n r.2 s)))) s

/-- An FP instruction with an FP destination; `op` gives the pattern and the flags from the state. -/
def kFpF (fn d a b : Nat) (sp : Bool) (srcs : List Nat) (op : Nat → State → Nat × Nat) : KIns :=
  { word := wordFp fn d a b sp, rep := false, cycles := 1, srcs := srcs, body := fun n => needFp n (fun s => fpDone n d fn (op n s) s) }

/-- An FP instruction with a general destination. -/
def kFpG (fn d a b : Nat) (sp : Bool) (srcs : List Nat) (op : Nat → State → Word × Nat) : KIns :=
  { word := wordFp fn d a b sp, rep := false, cycles := 1, srcs := srcs,
    body := fun n => needFp n (fun s =>
      let (v, fl) := op n s
      fillFlags n fl (fun s => .ok (fpPut n d fn v (orFlags n fl s))) s) }

/-- Issue cycles of a blocking division or square root (R228). -/
def fpBlock (sp : Bool) : Nat := if sp then 16 else 30

/-- `FADD`, `FSUB`, `FMUL` and `FDIV` by function code (R228). -/
def kArith (fn d a b : Nat) (sp : Bool) : KIns :=
  { kFpF fn d a b sp [32 + a, 32 + b] (fun n s =>
    let x := s.fpNum n a sp
    let y := s.fpNum n b sp
    match fn with
    | 0 => (fmtOf sp).add (s.rmode n) x y
    | 1 => (fmtOf sp).add (s.rmode n) x y.neg
    | 2 => (fmtOf sp).mul (s.rmode n) x y
    | _ => (fmtOf sp).div (s.rmode n) x y) with cycles := if fn = 3 then fpBlock sp else 1 }

/-- `FSQRT`. -/
def kSqrt (d a : Nat) (sp : Bool) : KIns :=
  { kFpF 4 d a 0 sp [32 + a] (fun n s => (fmtOf sp).sqrt (s.rmode n) (s.fpNum n a sp)) with cycles := fpBlock sp }

/-- `FMADD`. -/
def kFmadd (d a b : Nat) (sp : Bool) : KIns :=
  kFpF 5 d a b sp [32 + d, 32 + a, 32 + b] (fun n s => (fmtOf sp).fma (s.rmode n) (s.fpNum n d sp) (s.fpNum n a sp) (s.fpNum n b sp))

/-- `FMIN` and `FMAX`. -/
def kPick (mx : Bool) (d a b : Nat) (sp : Bool) : KIns :=
  kFpF (6 + b2n mx) d a b sp [32 + a, 32 + b] (fun n s => (fmtOf sp).pick mx (s.fpat n a sp) (s.fpat n b sp))

/-- `FNEG`, `FABS` and `FMOV` by function code 8 to 10: operations on the sign bit. -/
def kSign (fn d a : Nat) (sp : Bool) : KIns :=
  kFpF fn d a 0 sp [32 + a] (fun n s =>
    let v := s.fpat n a sp
    let top := 2 ^ ((fmtOf sp).size - 1)
    (match fn with
     | 8 => if v < top then v + top else v - top
     | 9 => v % top
     | _ => v, 0))

/-- `FCVT`. -/
def kFcvt (d a : Nat) (sp : Bool) : KIns := kFpF 11 d a 0 sp [32 + a] (fun n s => (fmtOf (!sp)).convert (s.rmode n) (s.fpNum n a sp))

/-- `FTOI`. -/
def kFtoi (d a : Nat) (sp : Bool) : KIns := kFpG 12 d a 0 sp [32 + a] (fun n s => toInt64 (s.rmode n) (s.fpNum n a sp))

/-- `ITOF`. -/
def kItof (d a : Nat) (sp : Bool) : KIns := kFpF 13 d a 0 sp [a] (fun n s => (fmtOf sp).roundInt (s.rmode n) false (s.kr n a).toInt 0)

/-- `FMVGF`. -/
def kFmvgf (d a : Nat) (sp : Bool) : KIns := kFpG 14 d a 0 sp [32 + a] (fun n s => (BitVec.ofNat 64 (s.fpat n a sp), 0))

/-- `FMVFG`. -/
def kFmvfg (d a : Nat) (sp : Bool) : KIns := kFpF 15 d a 0 sp [a] (fun n s => ((s.kr n a).toNat % 2 ^ (fmtOf sp).size, 0))

/-- `FEQ`, `FLT` and `FLE`: relation 0, 1, 2. -/
def kFcmp (rel d a b : Nat) (sp : Bool) : KIns :=
  kFpG (16 + rel) d a b sp [32 + a, 32 + b] (fun n s =>
    let (v, fl) := fpCmp rel (s.fpNum n a sp) (s.fpNum n b sp)
    (bw v, fl))

/-- `MFCS`. -/
def kMfcs (d : Nat) : KIns := kFpG 19 d 0 0 false [] (fun n s => (BitVec.ofNat 64 (s.getSeq n).fcs, 0))

/-- `MTCS` (R229): an `RM` of 4 to 7 leaves the field unchanged; bits [31:8] are reserved. -/
def kMtcs (a : Nat) : KIns :=
  { word := wordFp 20 0 a 0 false, rep := false, cycles := 1, srcs := [a],
    body := fun n => needFp n (fun s =>
      let v := (s.kr n a).toNat % 256
      let old := (s.getSeq n).fcs
      let v := if 4 ≤ v / 32 then old / 32 % 8 * 32 + v % 32 else v
      hz5Fill n 32 (fun s => .ok (s.onSeq n (fun x => { x with fcs := v }))) s) }

/-- `FADD` (R228). -/
def execFadd (n : Fin 24) (d a b : Fin 32) (sp : Bool) (s : State) : Host.Outcome State Fault Refusal := .next (issue n (kArith 0 d a b sp) s)
/-- `FSUB` (R228). -/
def execFsub (n : Fin 24) (d a b : Fin 32) (sp : Bool) (s : State) : Host.Outcome State Fault Refusal := .next (issue n (kArith 1 d a b sp) s)
/-- `FMUL` (R228). -/
def execFmul (n : Fin 24) (d a b : Fin 32) (sp : Bool) (s : State) : Host.Outcome State Fault Refusal := .next (issue n (kArith 2 d a b sp) s)
/-- `FDIV` (R228). -/
def execFdiv (n : Fin 24) (d a b : Fin 32) (sp : Bool) (s : State) : Host.Outcome State Fault Refusal := .next (issue n (kArith 3 d a b sp) s)
/-- `FSQRT` (R228). -/
def execFsqrt (n : Fin 24) (d a : Fin 32) (sp : Bool) (s : State) : Host.Outcome State Fault Refusal := .next (issue n (kSqrt d a sp) s)
/-- `FMADD` (R228). -/
def execFmadd (n : Fin 24) (d a b : Fin 32) (sp : Bool) (s : State) : Host.Outcome State Fault Refusal := .next (issue n (kFmadd d a b sp) s)
/-- `FMIN` (R228). -/
def execFmin (n : Fin 24) (d a b : Fin 32) (sp : Bool) (s : State) : Host.Outcome State Fault Refusal := .next (issue n (kPick false d a b sp) s)
/-- `FMAX` (R228). -/
def execFmax (n : Fin 24) (d a b : Fin 32) (sp : Bool) (s : State) : Host.Outcome State Fault Refusal := .next (issue n (kPick true d a b sp) s)
/-- `FNEG` (R228). -/
def execFneg (n : Fin 24) (d a : Fin 32) (sp : Bool) (s : State) : Host.Outcome State Fault Refusal := .next (issue n (kSign 8 d a sp) s)
/-- `FABS` (R228). -/
def execFabs (n : Fin 24) (d a : Fin 32) (sp : Bool) (s : State) : Host.Outcome State Fault Refusal := .next (issue n (kSign 9 d a sp) s)
/-- `FMOV` (R228). -/
def execFmov (n : Fin 24) (d a : Fin 32) (sp : Bool) (s : State) : Host.Outcome State Fault Refusal := .next (issue n (kSign 10 d a sp) s)
/-- `FCVT` (R228). -/
def execFcvt (n : Fin 24) (d a : Fin 32) (sp : Bool) (s : State) : Host.Outcome State Fault Refusal := .next (issue n (kFcvt d a sp) s)
/-- `FTOI` (R228). -/
def execFtoi (n : Fin 24) (d a : Fin 32) (sp : Bool) (s : State) : Host.Outcome State Fault Refusal := .next (issue n (kFtoi d a sp) s)
/-- `ITOF` (R228). -/
def execItof (n : Fin 24) (d a : Fin 32) (sp : Bool) (s : State) : Host.Outcome State Fault Refusal := .next (issue n (kItof d a sp) s)
/-- `FMVGF` (R228). -/
def execFmvgf (n : Fin 24) (d a : Fin 32) (sp : Bool) (s : State) : Host.Outcome State Fault Refusal := .next (issue n (kFmvgf d a sp) s)
/-- `FMVFG` (R228). -/
def execFmvfg (n : Fin 24) (d a : Fin 32) (sp : Bool) (s : State) : Host.Outcome State Fault Refusal := .next (issue n (kFmvfg d a sp) s)
/-- `FEQ` (R228). -/
def execFeq (n : Fin 24) (d a b : Fin 32) (sp : Bool) (s : State) : Host.Outcome State Fault Refusal := .next (issue n (kFcmp 0 d a b sp) s)
/-- `FLT` (R228). -/
def execFlt (n : Fin 24) (d a b : Fin 32) (sp : Bool) (s : State) : Host.Outcome State Fault Refusal := .next (issue n (kFcmp 1 d a b sp) s)
/-- `FLE` (R228). -/
def execFle (n : Fin 24) (d a b : Fin 32) (sp : Bool) (s : State) : Host.Outcome State Fault Refusal := .next (issue n (kFcmp 2 d a b sp) s)
/-- `MFCS` (R228). -/
def execMfcs (n : Fin 24) (d : Fin 32) (s : State) : Host.Outcome State Fault Refusal := .next (issue n (kMfcs d) s)
/-- `MTCS` (R229). -/
def execMtcs (n : Fin 24) (a : Fin 32) (s : State) : Host.Outcome State Fault Refusal := .next (issue n (kMtcs a) s)

end Sys2Proof.Machine
end

