-- ==== Sys2Proof/Machine/KretasSys.lean ====
section
/-!
DEFINITION. Machine/KretasSys.lean: special registers (R185, R235), the return from a trap (R236, R249, R262), system and monitor calls (R235, R256), interrupts and
machine checks (R247, R250, R256), and errors of posted stores (R215, R252).
-/
namespace Sys2Proof.Machine

/-! ### Special registers (R185) -/

/-- STATUS after an `MTS` (R186): its RW fields are written; a privilege field takes 2 or 3 at monitor level only. -/
def Seq.writeStatus (x : Seq) (v : Word) : Seq :=
  let keep (st : Word) (b : Nat) : Word := setBits st b b (getBits x.status b b)
  let st := [stSH, stTW, stRP, stLA].foldl keep (BitVec.ofNat 64 (v.toNat % 2 ^ 17))
  let st := setBits st 1 0 (plField x.pl (getBits x.status 1 0) (getBits v 1 0))
  { x with status := setBits st 3 2 (plField x.pl (getBits x.status 3 2) (getBits v 3 2)) }

/-- A write of a special register by `MTS` (R185, R246, R270, R271); `part` is `SEQ_STAT.PART`. -/
def Seq.writeSpecial (x : Seq) (part sp : Nat) (h : Bool) (v : Word) : Seq :=
  let n := v.toNat
  let acc (a : Nat) : Seq :=
    let old := (x.accAt (x.accIx a)).toNat
    x.putAcc (x.accIx a) (BitVec.ofNat 72 (if h then old % 2 ^ 64 + n % 2 ^ 8 * 2 ^ 64 else old / 2 ^ 64 * 2 ^ 64 + n))
  match sp with
  | 0 => x.writeStatus v
  | 2 => { x with epc := n % 2 ^ 48 }
  | 3 => { x with cause := n % 2 ^ 10 + n / 2 ^ 29 % 2 ^ 3 * 2 ^ 29 }
  | 4 => { x with tvec := n % 2 ^ 48 / 2 ^ 12 * 2 ^ 12 }
  | 5 => if n % 8 = 7 then x else { x with wcur := n % 8 }
  | 6 => if 6 ≤ n % 8 then x else { x with wres := n % 8 }
  | 7 => x.setWsp (n % 2 ^ 48 / 2 ^ 6 * 2 ^ 6)
  | 8 => { x with cxlink := n % 2 ^ 48 }
  | 9 => { x with fpowner := n % 2 ^ 48 }
  | 10 => { x with asid := n % 2 ^ 12 + part * 2 ^ 12 }
  | 11 => { x with ptbase := n % 2 ^ 52 / 2 ^ 12 * 2 ^ 12 }
  | 12 => { x with rptc := min (n % 2 ^ 11) 1024 }
  | 13 => x.setLpc (BitVec.ofNat 64 (n / 4 * 4))
  | 14 => { x with lcnt := n % 2 ^ 32 }
  | 15 => acc 0
  | _ => acc 1

/-- Whether user level may read a special register (R185). -/
def userReads (sp : Nat) : Bool := sp == 0 || sp == 1 || decide (5 ≤ sp ∧ sp ≤ 7) || decide (12 ≤ sp)

/-- `MFS` (R185, R235). -/
def kMfs (rd sp : Nat) (h : Bool) : KIns :=
  { word := wordSys 0 rd 0 sp h, rep := false, cycles := 1, srcs := [],
    body := fun n s =>
      let x := s.getSeq n
      if 17 ≤ sp ∨ (h ∧ sp < 15) then .trap tcILL 0 0 s
      else if x.pl = 0 ∧ userReads sp = false then .trap tcPRV 0 0 s
      else .ok (s.kput n rd (x.special ((s.seqPart n).getD 15) sp h)) }

/-- `MTS` (R185, R235). -/
def kMts (ra sp : Nat) (h : Bool) : KIns :=
  { word := wordSys 1 0 ra sp h, rep := false, cycles := 1, srcs := [ra],
    body := fun n s =>
      let x := s.getSeq n
      if 17 ≤ sp ∨ sp = 1 ∨ (h ∧ sp < 15) then .trap tcILL 0 0 s
      else if x.pl = 0 ∧ sp < 12 then .trap tcPRV 0 0 s
      else .ok (s.setSeq n (x.writeSpecial ((s.seqPart n).getD 15) sp h (s.kr n ra))) }

/-! ### Return from a trap (R236, R249, R262) -/

/-- STATUS and PC after the return (R236). -/
def Seq.leave (x : Seq) : Seq :=
  let c (st : Word) (hi lo phi plo : Nat) : Word := setBits st hi lo (getBits x.status phi plo)
  let st := c x.status 1 0 3 2
  let st := c st stIE stIE stPIE stPIE
  let st := c st stSH stSH stPSH stPSH
  let st := c st stTW stTW stPTW stPTW
  let st := c st stRP stRP stPRP stPRP
  { x with status := c st stLA stLA stPLA stPLA, pc := x.epc, fmask := none }

/-- Restore the FP registers of an HZ5 frame whose mask bits are set (R262); each costs a cycle. -/
def hz5Restore (n m : Nat) : List Nat → (State → KOut) → State → KOut
  | [], next, s => next s
  | k :: ks, next, s =>
    if !bitOf m (8 + k) then hz5Restore n m ks next s
    else
      let va := (s.getSeq n).wsp + 8 * k
      match kLoad n va 8 s with
      | (.trap c, s) => .dfault 4 c caLoad va s
      | (.stall, s) => .stay s
      | (.ok d _, s) => hz5Restore n m ks next (s.onSeq n (fun x => (x.putPlace (96 + k) (BitVec.ofNat 64 d)).pass 1))

/-- The first of some entries that is of a context, and the others. -/
def takeCtx (ctx : Nat) : List (Nat × List LoadOp) → List LoadOp × List (Nat × List LoadOp)
  | [] => ([], [])
  | e :: es => if e.1 = ctx then (e.2, es) else ((takeCtx ctx es).1, e :: (takeCtx ctx es).2)

/-- The loads that the trap of the context returned to had abandoned are to be executed again before its next instruction (R200); `SEQ_CTXID` names that context (log entry
65). -/
def rettAfter (n : Nat) (s : State) : State :=
  let (ls, rest) := takeCtx (s.f (SEQ_CTXID.CTXID n)) (s.getSeq n).lost
  s.onSeq n (fun x => { x with lost := rest, again := ls })

/-- `RETT` (R236, R249, R262). -/
def kRett : KIns :=
  { word := wordSys 2 0 0 0 false, rep := false, cycles := 4, srcs := [], after := rettAfter,
    body := fun n => needSup n (fun s =>
      let x := s.getSeq n
      let back (s : State) : KOut :=
        let y := (s.getSeq n).leave
        .jump y.pc (s.setSeq n y)
      if x.epc % 4 ≠ 0 then .trap tcALN caJump x.epc s
      else if x.sb stHZ5C ∧ bitOf x.cause 31 then
        match kLoad n (x.wsp + 0x100) 8 s with
        | (.trap c, s) => .dfault 4 c caLoad (x.wsp + 0x100) s
        | (.stall, s) => .stay s
        | (.ok m _, s) =>
          (hz5Restore n m (List.range 32) (fun s =>
            let s := if bitOf m 40 then s.onSeq n (fun x => { x.pass 1 with fcs := m % 256 }) else s
            back (s.onSeq n (fun x => (x.pass (fillWait (x.wsp + 0x100))).setWsp ((x.wsp + 320) % 2 ^ 48)))) s).keep n x
      else back s) }

/-! ### Posted stores (R215, R252) -/

/-- The oldest bus error response arrives (R215, R252): logged, and held, the first one only, until the sequencer's boundary takes it in its turn (R250). -/
def postedError (n : Nat) (s : State) : State :=
  let x := s.getSeq n
  match x.errs with
  | [] => s
  | e :: rest =>
    let s := s.setSeq n { x with errs := rest, held := some (x.held.getD e) }
    atBoundary n id (logErr 0x0402 ((s.seqPart n).getD 15) (srcSeq n) (BitVec.ofNat 64 e.va) 0 s)

/-- All responses on their way arrive, in order. -/
def allErrors (n : Nat) : Nat → State → State
  | 0, s => s
  | k + 1, s => allErrors n k (postedError n s)

/-- `POSTED_STORE_BUS_ERROR` (R215, R252): a held response is taken once the handler allows it, else the next response arrives. -/
def execPostedStoreBusError (n : Fin 24) (s : State) : Host.Outcome State Fault Refusal :=
  let x := s.getSeq n
  .next (if x.held.isSome ∧ (x.st = 2 ∨ x.st = 3) ∧ x.holds = false then atBoundary n id s else postedError n s)

/-- `FENCE` (R235): every posted store has completed and every outstanding load has returned; responses held stay held (R252). -/
def kFence : KIns :=
  { word := wordSys 7 0 0 0 false, rep := false, cycles := 1, srcs := [], body := fun n s => if s.storesWait n none then .stay s else .ok (landAll n s),
    after := fun n s => allErrors n (s.getSeq n).errs.length s }

/-- `DMARESUME` (R237): a channel of the sequencer's partition resumes when it is suspended; the ownership check counts as an access right. -/
def kDmaresume (rd ra : Nat) : KIns :=
  { word := wordSys 8 rd ra 0 false, rep := false, cycles := 1, srcs := [ra],
    body := fun n => needSup n (fun s =>
      let c := (s.kr n ra).toNat % 64
      if s.seqPart n ≠ some (s.chPart c) then .trap tcAV caLoad 0 s
      else if s.f (DMA_CH_CSR.STATE c) = 2 then .ok ((chResume c s).kput n rd 1)
      else .ok (s.kput n rd 0)) }

/-- `ISYNC` (R195, R235): the fetch buffer, the instruction cache and the repeat cache are discarded. -/
def kIsync : KIns :=
  { word := wordSys 6 0 0 0 false, rep := false, cycles := 8, srcs := [], body := fun n s => .ok (s.onSeq n (fun x => { x with blocks := [], body := [] })) }

/-- `SYSCALL` and `BREAK` (R235): EPC is the next instruction. -/
def kSyscall : KIns := { word := wordSys 3 0 0 0 false, rep := false, cycles := 1, srcs := [], body := fun _ s => .after tcSC s }
def kBreak : KIns := { word := wordSys 4 0 0 0 false, rep := false, cycles := 1, srcs := [], body := fun _ s => .after tcBK s }

/-! ### Monitor level (R256) -/

/-- `MACHINE_CHECK` (R256): the request that waits is taken, or first a new one is raised: 2 a state read, 3 a parity error that firmware corrects, 4 one that it cannot. -/
def execMachineCheck (n : Fin 24) (kind : Fin 5) (s : State) : Host.Outcome State Fault Refusal :=
  .next (takeCheck n (if 2 ≤ kind.val ∧ (s.getSeq n).mcheck = none ∧ s.firmOn = true then s.onSeq n (fun x => { x with mcheck := some kind.val }) else s))

/-- The firmware version, which the spec does not give (log entry 23). -/
def State.fwVersion : Nat := Config.firmwareVersion.toNat

/-- `MCALL` (R235, R256): EPC is the next instruction; the service that g1 selects runs at monitor level and returns to EPC, but for a pending stop. -/
def kMcall : KIns :=
  { word := wordSys 5 0 0 0 false, rep := false, cycles := 1, srcs := [1],
    body := fun n => needSup n (fun s =>
      let x := s.getSeq n
      let p := s.seqPart n
      let s := s.setSeq n { x with epc := (x.pc + 4) % 2 ^ 48 }
      match (s.kr n 1).toNat with
      | 0 =>
        let s := s.kput n 1 (BitVec.ofNat 64 State.fwVersion)
        let v := setBits (setBits (s.kr n 2) 3 0 (p.getD 15)) 4 4 (b2n (s.primaryOf n).isSome)
        .ok (s.kput n 2 v)
      | 1 =>
        if x.mcheck = some 1 then .jump ((x.pc + 4) % 2 ^ 48) (safePoint n 1 s)
        else
          match (s.primaryOf n).bind s.autoPending with
          | some i => .jump ((x.pc + 4) % 2 ^ 48) (safePoint n 1 (repairBegin i s))
          | none => .ok (s.kput n 1 0)
      | _ => .ok (s.kput n 1 (BitVec.allOnes 64))) }

/-! ### Interrupts (R247, R250, R251) -/

/-- `INTERRUPT_ENTRY` (R247, R250): what comes first at this boundary, at `IE` = 1 with RPTC 0 the lowest pending and enabled line. -/
def execInterruptEntry (n : Fin 24) (s : State) : Host.Outcome State Fault Refusal := .next (atBoundary n id s)

/-- `MFS` (R235). -/
def execMfs (n : Fin 24) (rd sp : Fin 32) (h : Bool) (s : State) : Host.Outcome State Fault Refusal := .next (issue n (kMfs rd sp h) s)
/-- `MTS` (R235). -/
def execMts (n : Fin 24) (ra sp : Fin 32) (h : Bool) (s : State) : Host.Outcome State Fault Refusal := .next (issue n (kMts ra sp h) s)
/-- `RETT` (R236). -/
def execRett (n : Fin 24) (s : State) : Host.Outcome State Fault Refusal := .next (issue n kRett s)
/-- `SYSCALL` (R235). -/
def execSyscall (n : Fin 24) (s : State) : Host.Outcome State Fault Refusal := .next (issue n (kSyscall) s)
/-- `BREAK` (R235). -/
def execBreakI (n : Fin 24) (s : State) : Host.Outcome State Fault Refusal := .next (issue n (kBreak) s)
/-- `MCALL` (R256). -/
def execMcall (n : Fin 24) (s : State) : Host.Outcome State Fault Refusal := .next (issue n (kMcall) s)
/-- `ISYNC` (R195). -/
def execIsync (n : Fin 24) (s : State) : Host.Outcome State Fault Refusal := .next (issue n (kIsync) s)
/-- `DMARESUME` (R237). -/
def execDmaresume (n : Fin 24) (rd ra : Fin 32) (s : State) : Host.Outcome State Fault Refusal := .next (issue n (kDmaresume rd ra) s)
/-- `FENCE` (R235). -/
def execFence (n : Fin 24) (s : State) : Host.Outcome State Fault Refusal := .next (issue n (kFence) s)

end Sys2Proof.Machine
end

