-- ==== Sys2Proof/Machine/KretasArray.lean ====
section
/-!
DEFINITION. Machine/KretasArray.lean: the array-control instructions of a sequencer (R204 to R208, R238 to R243), and the delivery of what they send.
-/
namespace Sys2Proof.Machine

/-! ### Ownership and order (R204, R206) -/

/-- Instructions of the primary only (R204): elsewhere they raise AOW. -/
def needPrimary (n : Nat) (next : Nat → State → KOut) (s : State) : KOut :=
  match s.primaryOf n with
  | some p => next p s
  | none => .trap tcAOW 0 0 s

/-- Instructions of any sequencer of an enabled partition (R204). -/
def needMember (n : Nat) (next : Nat → State → KOut) (s : State) : KOut :=
  match s.seqPart n with
  | some p => next p s
  | none => .trap tcAOW 0 0 s

/-- `MOULT`, `ACTX` and `FORK` wait until every earlier `APARM` of the sequencer has reached its islands (R206). -/
def afterParams (n : Nat) (next : State → KOut) (s : State) : KOut := if (s.getSeq n).params = [] then next s else .stay s

/-- Change every island of a partition. -/
def onIslands (p : Nat) (g : Isl → Isl) (s : State) : State := (s.islandsOf p).foldl (fun s i => s.onIsl i g) s

/-- `ACTX` (R102, R239): the broadcast sets out for every island of the partition. -/
def kActx (plane : BitVec 4) (fenced : Bool) : KIns :=
  { word := BitVec.ofNat 32 (0x30 * 2 ^ 26 + plane.toNat * 2 ^ 22 + b2n fenced * 2 ^ 21), rep := false, cycles := 1, srcs := [],
    body := fun n => needPrimary n (fun p => afterParams n (fun s =>
      .ok (onIslands p (fun x => { x with bcasts := x.bcasts ++ [{ fenced := fenced, plane := plane }] }) s))) }

/-- `FORK` (R241, R313): the arming sets out for every island of the partition. -/
def kFork (k fp pp : Nat) : KIns :=
  { word := BitVec.ofNat 32 (0x33 * 2 ^ 26 + k * 2 ^ 24 + fp * 2 ^ 20 + pp * 2 ^ 16), rep := false, cycles := 1, srcs := [],
    body := fun n => needPrimary n (fun p => afterParams n (fun s => .ok (onIslands p (fun x => { x with forkIn := x.forkIn ++ [(k, fp, pp)] }) s))) }

/-- `MOULT` (R204, R240): the token sets out for the selected streams of a row end. -/
def kMoult (ra rb plane row : Nat) (east : Bool) : KIns :=
  { word := BitVec.ofNat 32 (0x31 * 2 ^ 26 + ra * 2 ^ 21 + rb * 2 ^ 16 + plane * 2 ^ 12 + row * 2 ^ 8 + b2n east * 2 ^ 7), rep := false, cycles := 1, srcs := [ra, rb],
    body := fun n => needMember n (fun p s =>
      match (s.rowsOf p)[row]? with
      | none => .trap tcAOW 0 0 s
      | some r =>
        afterParams n (fun s =>
          let t : MoultTok := { row := r, east := east, mask := (s.kr n rb).toNat % 2 ^ 16, plane := plane, tag := (s.kr n ra).toNat % 2 ^ 24 }
          .ok (if t.mask = 0 then s else s.onSeq n (fun x => { x with moults := x.moults ++ [t] }))) s) }

/-- `MOULT_TOKEN_ENTRY` (R240, R468): the oldest `MOULT` of a sequencer on its way arrives: it enters its streams, or waits for the resume of a capture. -/
def execMoultTokenEntry (n : Fin 24) (s : State) : Host.Outcome State Fault Refusal := .next (moultArrive n s)

/-! ### Parameter words (R79, R205) -/

/-- The islands that an `APARM` names: 0 an island, 1 a row, 2 a column, 3 the partition; rows count from the partition's first. -/
def State.paramIsles (s : State) (p scope row col : Nat) : List Nat :=
  let rows := s.rowsOf p
  match scope with
  | 0 => [s.phys (rows.getD row 0) col]
  | 1 => (List.range 12).map (s.phys (rows.getD row 0))
  | 2 => rows.map (fun r => s.phys r col)
  | _ => s.islandsOf p

/-- `APARM` (R204, R205, R238): the write enters the sequencer's queue, or the sequencer stalls while it is full. -/
def kAparm (ra scope row col k : Nat) : KIns :=
  { word := BitVec.ofNat 32 (0x32 * 2 ^ 26 + ra * 2 ^ 21 + scope * 2 ^ 19 + row * 2 ^ 15 + col * 2 ^ 11 + k * 2 ^ 7), rep := false, cycles := 1, srcs := [ra],
    body := fun n s =>
      if (2 ≤ scope ∧ row ≠ 0) ∨ ((scope = 1 ∨ scope = 3) ∧ col ≠ 0) ∨ 12 ≤ col then .trap tcILL 0 0 s
      else
        needMember n (fun p s =>
          if scope < 2 ∧ (s.rowsOf p).length ≤ row then .trap tcAOW 0 0 s
          else if 8 ≤ (s.getSeq n).params.length then .stay s
          else
            let w : ParamWrite := { scope := scope, row := row, col := col, k := k, value := BitVec.ofNat 32 (s.kr n ra).toNat }
            .ok (s.onSeq n (fun x => { x with params := x.params ++ [w] }))) s }

/-- The sequencer that the parameter bus serves next: the first after the one served last, ascending and wrapping, whose queue holds a write (R205). -/
def State.busNext (s : State) (p : Nat) : Option Nat :=
  let qs := (s.seqsOf p).filter (fun q => !(s.getSeq q).params.isEmpty)
  let last := (s.getPart p).served
  match qs.find? (fun q => decide (last < q) && decide (last < 24)) with
  | some q => some q
  | none => qs.head?

/-- `PARAMETER_DELIVERY` (R79, R205): the partition's parameter bus takes its next write, and the islands of the partition that it names hold it; those that a capture
holds take it after the resume (R468).  While the clock of one of them is stopped the bus waits with its write (R32). -/
def execParameterDelivery (p : Fin 12) (s : State) : Host.Outcome State Fault Refusal :=
  match s.busNext p with
  | none => .next s
  | some q =>
    match (s.getSeq q).params with
    | [] => .next s
    | w :: rest =>
      let isles := s.paramIsles p w.scope w.row w.col
      if isles.all s.islClk then
        let s := s.onSeq q (fun x => { x with params := rest })
        let s := s.setPart p { s.getPart p with served := q }
        .next (isles.foldl (fun s i => arrive i (.param w.k w.value) s) s)
      else .next s

/-! ### Branch on fail, waiting and freezing -/

/-- `BRF` (R207, R242): the flag is tested, `FAILS` may be cleared, and a fork set may be resolved: fail when the tested flag is 1. -/
def kBrf (cond : Nat) (c v : Bool) (k off : Nat) : KIns :=
  { word := BitVec.ofNat 32 (0x2B * 2 ^ 26 + cond * 2 ^ 24 + b2n c * 2 ^ 23 + b2n v * 2 ^ 22 + k * 2 ^ 20 + off), rep := false, cycles := 1, srcs := [],
    body := fun n s =>
      if v = false ∧ k ≠ 0 then .trap tcILL 0 0 s
      else
        needPrimary n (fun p s =>
          let flag := s.on (if cond % 2 = 0 then SEQ_PFLAG.FAILS n else SEQ_PFLAG.FAILL n)
          let hold := if cond < 2 then flag else !flag
          let s := if c ∧ s.pf0 p = false then noteFails p (s.setF (SEQ_PFLAG.FAILS n) 0) else s
          let s := if v then onIslands p (fun x => { x with resIn := x.resIn ++ [(k, flag, x.forkIn.length)] }) s else s
          if hold then .jump (s.relPc n (sgn 16 off)) (s.onSeq n (fun x => x.pass 1)) else .ok s) s }

/-- What an `AWAIT` would return now: the pending bits its mask selects, with bit 19 while the partition is drained (R208, R243). -/
def State.awaitBits (s : State) (n p mask : Nat) : Nat :=
  (s.f (SEQ_AEV_PEND.PEND n) ||| (if s.drained p then 2 ^ 19 else 0)) &&& mask

/-- An `AWAIT` completes with a value. -/
def awaitDone (n rd : Nat) (v : Nat) (s : State) : State :=
  let s := s.onSeq n (fun x => { x with wait := none, st := if x.stepping then 1 else 2 })
  finish n 1 ((s.kput n rd (BitVec.ofNat 64 v)).onSeq n Seq.advance)

/-- A waiting sequencer returns from its `AWAIT` when an event it waits for stands (R243). -/
def awaitCheck (n : Nat) (s : State) : State :=
  match (s.getSeq n).wait, s.primaryOf n with
  | some w, some p =>
    let v := s.awaitBits n p w.mask
    if v = 0 then s else awaitDone n w.rd v s
  | _, _ => s

/-- `AWAIT` (R243): returns at once when a selected event stands, else the sequencer waits in state 3. -/
def kAwait (rd ra rb : Nat) : KIns :=
  { word := BitVec.ofNat 32 (0x34 * 2 ^ 26 + rd * 2 ^ 21 + ra * 2 ^ 16 + rb * 2 ^ 11), rep := false, cycles := 1, srcs := [ra, rb],
    body := fun n => needPrimary n (fun p s =>
      let mask := (s.kr n ra).toNat % 2 ^ 24
      let v := s.awaitBits n p mask
      if v ≠ 0 then .ok (s.kput n rd (BitVec.ofNat 64 v))
      else .stay (s.onSeq n (fun x => { x with st := 3, wait := some { mask := mask, rd := rd, limit := (x.reg rb).toNat % 2 ^ 32 } }))) }

/-- `AWAIT` (R243): issued, or, in a sequencer that waits already, its wait looked at again. -/
def runAwait (n rd ra rb : Nat) (s : State) : State := if (s.getSeq n).st = 3 then atBoundary n (awaitCheck n) s else issue n (kAwait rd ra rb) s

/-- `AWAIT_TIMEOUT` (R243): the timeout of a waiting `AWAIT` passes; rd is 0, but for an event that stands at the return. -/
def execAwaitTimeout (n : Fin 24) (s : State) : Host.Outcome State Fault Refusal :=
  match (s.getSeq n).wait with
  | some w =>
    let v := match s.primaryOf n with
      | some p => s.awaitBits n p w.mask
      | none => 0
    .next (if w.limit = 0 then s else awaitDone n w.rd v (s.onSeq n (fun x => x.pass w.limit)))
  | none => .next s

/-- `ARRAY_EVENT` (R208): the oldest event of a partition reaches its primary, no sooner than the fail flag raised with it (R318), and a waiting `AWAIT` may return;
without a primary it stays pending. -/
def execArrayEvent (p : Fin 12) (s : State) : Host.Outcome State Fault Refusal :=
  match s.primary p, s.aev.find? (fun e => e.part == p.val) with
  | some n, some e =>
    let s := if s.pf0 p || s.pf0Rose p then seeFlag p s else s
    .next (awaitCheck n (recordAev n e { s with aev := s.aev.erase e }))
  | _, _ => .next s

/-- `FREEZE` (R244, R467, R471): a capture of the partition starts, or a held one is released. -/
def kFreeze (v : Bool) : KIns :=
  { word := BitVec.ofNat 32 (0x35 * 2 ^ 26 + b2n v * 2 ^ 25), rep := false, cycles := 1, srcs := [],
    body := fun n => needPrimary n (fun p s => .ok (if v then captureResume p s else captureGo p s)) }

/-- `FREEZE` (R244). -/
def execFreeze (n : Fin 24) (v : Bool) (s : State) : Host.Outcome State Fault Refusal := .next (issue n (kFreeze v) s)
/-- `ACTX` (R239). -/
def execActx (n : Fin 24) (plane : BitVec 4) (fenced : Bool) (s : State) : Host.Outcome State Fault Refusal := .next (issue n (kActx plane fenced) s)
/-- `MOULT` (R240). -/
def execMoult (n : Fin 24) (ra rb : Fin 32) (plane row : BitVec 4) (east : Bool) (s : State) : Host.Outcome State Fault Refusal :=
  .next (issue n (kMoult ra rb plane.toNat row.toNat east) s)
/-- `APARM` (R205). -/
def execAparm (n : Fin 24) (ra : Fin 32) (scope : BitVec 2) (row col k : BitVec 4) (s : State) : Host.Outcome State Fault Refusal :=
  .next (issue n (kAparm ra scope.toNat row.toNat col.toNat k.toNat) s)
/-- `FORK` (R241). -/
def execFork (n : Fin 24) (k : Fin 4) (fp pp : BitVec 4) (s : State) : Host.Outcome State Fault Refusal := .next (issue n (kFork k fp.toNat pp.toNat) s)
/-- `BRF` (R242). -/
def execBrf (n : Fin 24) (cond : Fin 4) (c v : Bool) (k : Fin 4) (off : BitVec 16) (s : State) : Host.Outcome State Fault Refusal :=
  .next (issue n (kBrf cond c v k off.toNat) s)
/-- `AWAIT` (R243). -/
def execAwait (n : Fin 24) (rd ra rb : Fin 32) (s : State) : Host.Outcome State Fault Refusal := .next (runAwait n rd ra rb s)

end Sys2Proof.Machine
end

