-- ==== Sys2Proof/Machine/KretasStep.lean ====
section
/-!
DEFINITION. Machine/KretasStep.lean: the instruction that a word spells (R212 to R244), and a single step of a halted sequencer, whose instruction is the one in its memory
(R210).
-/
namespace Sys2Proof.Machine

/-- The integer functions that name no rb (R217). -/
def intNoRb (fn : Nat) : Bool := fn == 0x15 || fn == 0x16 || fn == 0x1B || fn == 0x1C

/-- The instruction of the integer and immediate opcodes, or of a load or store, whose used fields a word gives (R217 to R220). -/
def insPlain (op w : Nat) : Option KIns :=
  let d := bitsOf w 25 21
  let a := bitsOf w 20 16
  let b := bitsOf w 15 11
  let imm := w % 2 ^ 16
  match op with
  | 0x01 => if w % 64 ≤ 0x1C then some (kInt (w % 64) d a (if intNoRb (w % 64) then 0 else b)) else none
  | 0x06 => some (kImm op d 0 imm)
  | 0x0A => some (kImm op d a (imm % 256))
  | 0x10 => some (kLd op 8 false d a imm)
  | 0x11 => some (kLd op 4 true d a imm)
  | 0x12 => some (kLd op 4 false d a imm)
  | 0x13 => some (kLd op 2 true d a imm)
  | 0x14 => some (kLd op 2 false d a imm)
  | 0x15 => some (kLd op 1 true d a imm)
  | 0x16 => some (kLd op 1 false d a imm)
  | 0x18 => some (kSt op 8 d a imm)
  | 0x19 => some (kSt op 4 d a imm)
  | 0x1A => some (kSt op 2 d a imm)
  | 0x1B => some (kSt op 1 d a imm)
  | 0x1C => some (kFld d a imm)
  | 0x1D => some (kFst d a imm)
  | 0x1E => some (kDld d a (bitsOf w 15 13) (bitsOf w 12 10) (bitsOf w 9 7) (bitsOf w 6 4) (bitOf w 3))
  | _ => if 2 ≤ op ∧ op ≤ 9 then some (kImm op d a imm) else none

/-- The instruction of the MAC and DSP group (R225, R227). -/
def insMac (w : Nat) : Option KIns :=
  let d := bitsOf w 25 21
  let a := bitsOf w 20 16
  let b := bitsOf w 15 11
  let c := bitsOf w 10 10
  let fn := bitsOf w 9 6
  if fn ≤ 5 then some (kMac fn a b c)
  else
    match fn with
    | 6 => some (kMac 6 a 0 c)
    | 7 => some (kAclr c)
    | 12 => some (kExt 12 d c 0)
    | 13 => some (kBest false d a b)
    | 14 => some (kBest true d a b)
    | 15 => none
    | _ => some (kExt fn d c (w % 64))

/-- The instruction of the FP group (R228). -/
def insFp (w : Nat) : Option KIns :=
  let d := bitsOf w 25 21
  let a := bitsOf w 20 16
  let b := bitsOf w 15 11
  let sp := bitOf w 10
  match bitsOf w 9 5 with
  | 0 => some (kArith 0 d a b sp)
  | 1 => some (kArith 1 d a b sp)
  | 2 => some (kArith 2 d a b sp)
  | 3 => some (kArith 3 d a b sp)
  | 4 => some (kSqrt d a sp)
  | 5 => some (kFmadd d a b sp)
  | 6 => some (kPick false d a b sp)
  | 7 => some (kPick true d a b sp)
  | 8 => some (kSign 8 d a sp)
  | 9 => some (kSign 9 d a sp)
  | 10 => some (kSign 10 d a sp)
  | 11 => some (kFcvt d a sp)
  | 12 => some (kFtoi d a sp)
  | 13 => some (kItof d a sp)
  | 14 => some (kFmvgf d a sp)
  | 15 => some (kFmvfg d a sp)
  | 16 => some (kFcmp 0 d a b sp)
  | 17 => some (kFcmp 1 d a b sp)
  | 18 => some (kFcmp 2 d a b sp)
  | 19 => some (kMfcs d)
  | 20 => some (kMtcs a)
  | _ => none

/-- The instruction of the system group and of the half-context group (R233, R235). -/
def insSys (op w : Nat) : Option KIns :=
  let d := bitsOf w 25 21
  let a := bitsOf w 20 16
  let sp := bitsOf w 15 11
  let h := bitOf w 10
  match op, w % 64 with
  | 0x3A, 0x00 => some (kMfs d sp h)
  | 0x3A, 0x01 => some (kMts a sp h)
  | 0x3A, 0x02 => some kRett
  | 0x3A, 0x03 => some kSyscall
  | 0x3A, 0x04 => some kBreak
  | 0x3A, 0x05 => some kMcall
  | 0x3A, 0x06 => some kIsync
  | 0x3A, 0x07 => some kFence
  | 0x3A, 0x08 => some (kDmaresume d a)
  | 0x3A, 0x09 => some kFlushw
  | 0x3A, 0x0A => some kFillw
  | 0x3D, 0 => some (kCxs false d)
  | 0x3D, 1 => some (kCxs true d)
  | 0x3D, 2 => some (kCxr false)
  | 0x3D, 3 => some (kCxr true)
  | _, _ => none

/-- The instruction of the control-transfer, repeat, array-control and multiple-transfer opcodes (R221 to R224, R231, R238). -/
def insFlow (op w : Nat) : Option KIns :=
  let d := bitsOf w 25 21
  let a := bitsOf w 20 16
  let b := bitsOf w 15 11
  let imm := w % 2 ^ 16
  match op with
  | 0x26 => some (kJ (w % 2 ^ 26))
  | 0x27 => some (kJalr d a imm)
  | 0x28 => some (kCallw (w % 2 ^ 26))
  | 0x29 => some (kCallwr a imm)
  | 0x2A => some kRetw
  | 0x2B => some (kBrf (bitsOf w 25 24) (bitOf w 23) (bitOf w 22) (bitsOf w 21 20) imm)
  | 0x30 => some (kActx (BitVec.ofNat 4 (bitsOf w 25 22)) (bitOf w 21))
  | 0x31 => some (kMoult d a (bitsOf w 15 12) (bitsOf w 11 8) (bitOf w 7))
  | 0x32 => some (kAparm d (bitsOf w 20 19) (bitsOf w 18 15) (bitsOf w 14 11) (bitsOf w 10 7))
  | 0x33 => some (kFork (bitsOf w 25 24) (bitsOf w 23 20) (bitsOf w 19 16))
  | 0x34 => some (kAwait d a b)
  | 0x35 => some (kFreeze (bitOf w 25))
  | 0x36 => some (if bitOf w 25 then kRptR (bitsOf w 24 20) else kRptI (w % 2 ^ 10))
  | 0x37 => some (kLoop d imm)
  | 0x3B => some (kMm false d a (bitsOf w 15 15) (w % 2 ^ 15) 16)
  | 0x3C => some (kMm true d a (bitsOf w 15 15) (w % 2 ^ 15) 16)
  | _ => if 0x20 ≤ op ∧ op ≤ 0x25 then some (kBranch op d a imm) else none

/-- The instruction whose opcode and used fields a word gives. -/
def insNear (w : Nat) : Option KIns :=
  let op := bitsOf w 31 26
  if op < 0x20 then insPlain op w
  else if op = 0x38 then insMac w
  else if op = 0x39 then insFp w
  else if op = 0x3A ∨ op = 0x3D then insSys op w
  else insFlow op w

/-- The instruction that a word spells: none when a field that the instruction does not use is not zero, or the opcode or function is reserved (R213, R216). -/
def insOf (w : Nat) : Option KIns :=
  match insNear w with
  | some k => if k.word.toNat = w then some k else none
  | none => none

/-- One instruction of a sequencer, fetched from its memory; a word that spells none is illegal. -/
def stepOnce (n : Nat) (s : State) : State :=
  if !s.issues n then s
  else
    atBoundary n (relaunch n (fun s =>
      let pc := (s.getSeq n).pc
      match kFetch n pc s with
      | (.ok w _, s) =>
        match insOf w with
        | none => raiseAt n w tcILL 0 0 pc s
        | some k => issueFetched n k s
      | (.trap c, s) => raiseAt n 0 c caFetch pc pc s
      | (.stall, s) => s)) s

/-- A step of a halted sequencer: one instruction, or one whole repeat (R210). -/
def seqStep (n : Nat) (s : State) : State :=
  if (s.getSeq n).st = 1 then
    let s := stepOnce n (s.onSeq n (fun x => { x with stepping := true }))
    if (s.getSeq n).stepping ∧ (s.getSeq n).sb stRP then stepOnce n s else s
  else s

/-- `SEQ_STEP` (R210): a write of `SEQ_CTL` with `STEP` and `RUN` 0. -/
def execSeqStep (n : Fin 24) (s : State) : Host.Outcome State Fault Refusal := .next (seqWrite n (SEQ_CTL n) (fun s => seqStep n (seqRun n false s)) s)

end Sys2Proof.Machine
end

