-- ==== Sys2Proof/Machine/Dispatch.lean ====
section
/-!
DEFINITION. Machine/Dispatch.lean: one arm per constructor of Instr, one direct call of its meaning.
-/
namespace Sys2Proof.Machine

/-- EXEC: the effect of a command on everything but the queue. -/
def exec (i : Instr) (s : State) : Host.Outcome State Fault Refusal :=
  match i with
  | .registerWrite f bar4 off wide v => Sys2Proof.Machine.execRegisterWrite f bar4 off wide v s
  | .gatedAccess f off write => Sys2Proof.Machine.execGatedAccess f off write s
  | .gatedAccessClear => Sys2Proof.Machine.execGatedAccessClear s
  | .badCode f d => Sys2Proof.Machine.execBadCode f d s
  | .getInfo f d => Sys2Proof.Machine.execGetInfo f d s
  | .loadPartition f d memOk => Sys2Proof.Machine.execLoadPartition f d memOk s
  | .unloadPartition f d => Sys2Proof.Machine.execUnloadPartition f d s
  | .startPartition f d => Sys2Proof.Machine.execStartPartition f d s
  | .stopPartition f d => Sys2Proof.Machine.execStopPartition f d s
  | .setPower f d expired => Sys2Proof.Machine.execSetPower f d expired s
  | .readHealth f d memOk => Sys2Proof.Machine.execReadHealth f d memOk s
  | .repairIsland f d => Sys2Proof.Machine.execRepairIsland f d s
  | .capture f d memOk => Sys2Proof.Machine.execCapture f d memOk s
  | .readRepair f d memOk expired => Sys2Proof.Machine.execReadRepair f d memOk expired s
  | .setLanes f d expired => Sys2Proof.Machine.execSetLanes f d expired s
  | .ringJoin f d => Sys2Proof.Machine.execRingJoin f d s
  | .ringLeave f d => Sys2Proof.Machine.execRingLeave f d s
  | .cxlStatus f d memOk => Sys2Proof.Machine.execCxlStatus f d memOk s
  | .updateFlash f d memOk bad => Sys2Proof.Machine.execUpdateFlash f d memOk bad s
  | .readErrors f d memOk => Sys2Proof.Machine.execReadErrors f d memOk s
  | .warmReset f d => Sys2Proof.Machine.execWarmReset f d s
  | .mailboxSubmit f tail => Sys2Proof.Machine.execMailboxSubmit f tail s
  | .mailboxCompletionHead f head => Sys2Proof.Machine.execMailboxCompletionHead f head s
  | .mailboxReset f en vec => Sys2Proof.Machine.execMailboxReset f en vec s
  | .glbPartCfgWrite n v => Sys2Proof.Machine.execGlbPartCfgWrite n v s
  | .wordUnitFiring isl u edge => Sys2Proof.Machine.execWordUnitFiring isl u edge s
  | .firingResult isl u edge => Sys2Proof.Machine.execFiringResult isl u edge s
  | .pldComplete isl u => Sys2Proof.Machine.execPldComplete isl u s
  | .hincWrite isl u => Sys2Proof.Machine.execHincWrite isl u s
  | .tokenPass isl u => Sys2Proof.Machine.execTokenPass isl u s
  | .tokenJoin isl u => Sys2Proof.Machine.execTokenJoin isl u s
  | .abortToken isl u => Sys2Proof.Machine.execAbortToken isl u s
  | .blockEndEmission isl u => Sys2Proof.Machine.execBlockEndEmission isl u s
  | .moultRelay isl u => Sys2Proof.Machine.execMoultRelay isl u s
  | .planeChangeJoin isl u => Sys2Proof.Machine.execPlaneChangeJoin isl u s
  | .moultDrop isl u => Sys2Proof.Machine.execMoultDrop isl u s
  | .owedTokenDrop isl u => Sys2Proof.Machine.execOwedTokenDrop isl u s
  | .joinRelease isl mask => Sys2Proof.Machine.execJoinRelease isl mask s
  | .moultStall isl u => Sys2Proof.Machine.execMoultStall isl u s
  | .moultClrcnt isl => Sys2Proof.Machine.execMoultClrcnt isl s
  | .segmentSwitch d => Sys2Proof.Machine.execSegmentSwitch d s
  | .broadcastArrival isl => Sys2Proof.Machine.execBroadcastArrival isl s
  | .fencePassage isl e => Sys2Proof.Machine.execFencePassage isl e s
  | .arrayIdle n => Sys2Proof.Machine.execArrayIdle n s
  | .fifoPush d => Sys2Proof.Machine.execFifoPush d s
  | .spineDrive isl t => Sys2Proof.Machine.execSpineDrive isl t s
  | .rtClrcnt isl => Sys2Proof.Machine.execRtClrcnt isl s
  | .queuePush isl q => Sys2Proof.Machine.execQueuePush isl q s
  | .queueMark isl q => Sys2Proof.Machine.execQueueMark isl q s
  | .queueRewind isl q => Sys2Proof.Machine.execQueueRewind isl q s
  | .queueRelease isl q => Sys2Proof.Machine.execQueueRelease isl q s
  | .queueFlush isl q => Sys2Proof.Machine.execQueueFlush isl q s
  | .queueClrcnt isl q => Sys2Proof.Machine.execQueueClrcnt isl q s
  | .qregWrite isl q v => Sys2Proof.Machine.execQregWrite isl q v s
  | .islandMemoryAccess isl p clash => Sys2Proof.Machine.execIslandMemoryAccess isl p clash s
  | .patrolWindow isl st => Sys2Proof.Machine.execPatrolWindow isl st s
  | .clrecc isl => Sys2Proof.Machine.execClrecc isl s
  | .islClrcoll isl => Sys2Proof.Machine.execIslClrcoll isl s
  | .accLoRead isl n low => Sys2Proof.Machine.execAccLoRead isl n low s
  | .flaEvtClear isl bits => Sys2Proof.Machine.execFlaEvtClear isl bits s
  | .quadConfigWrite q v => Sys2Proof.Machine.execQuadConfigWrite q v s
  | .laneEnable l v => Sys2Proof.Machine.execLaneEnable l v s
  | .laneTrain l => Sys2Proof.Machine.execLaneTrain l s
  | .laneClrcnt l => Sys2Proof.Machine.execLaneClrcnt l s
  | .dataBlock l early late fixed => Sys2Proof.Machine.execDataBlock l early late fixed s
  | .tokenBlock l body half sb fixed => Sys2Proof.Machine.execTokenBlock l body half sb fixed s
  | .flightClose l fcrc fseq half sb fixed => Sys2Proof.Machine.execFlightClose l fcrc fseq half sb fixed s
  | .creditReturn l aseq nak cred half sb aligned fixed => Sys2Proof.Machine.execCreditReturn l aseq nak cred half sb aligned fixed s
  | .quietBlock l cause half sb fixed => Sys2Proof.Machine.execQuietBlock l cause half sb fixed s
  | .abortBlock l payload cause half sb fixed => Sys2Proof.Machine.execAbortBlock l payload cause half sb fixed s
  | .trainBlock l ts n icred fec nseq skew half sb fixed => Sys2Proof.Machine.execTrainBlock l ts n icred fec nseq skew half sb fixed s
  | .idleBlock l half sb fixed => Sys2Proof.Machine.execIdleBlock l half sb fixed s
  | .invalidBlock l hdr fixed => Sys2Proof.Machine.execInvalidBlock l hdr fixed s
  | .flightEnd l => Sys2Proof.Machine.execFlightEnd l s
  | .creditReturnTimer l => Sys2Proof.Machine.execCreditReturnTimer l s
  | .ackTimeout l => Sys2Proof.Machine.execAckTimeout l s
  | .timedBurstStart l => Sys2Proof.Machine.execTimedBurstStart l s
  | .burstUnderrun l => Sys2Proof.Machine.execBurstUnderrun l s
  | .txAbortToken l => Sys2Proof.Machine.execTxAbortToken l s
  | .seekTimeout l => Sys2Proof.Machine.execSeekTimeout l s
  | .seqRun n run => Sys2Proof.Machine.execSeqRun n run s
  | .seqReset n => Sys2Proof.Machine.execSeqReset n s
  | .seqStep n => Sys2Proof.Machine.execSeqStep n s
  | .seqClrerr n => Sys2Proof.Machine.execSeqClrerr n s
  | .seqClrcoll n => Sys2Proof.Machine.execSeqClrcoll n s
  | .aevPendClear n bits => Sys2Proof.Machine.execAevPendClear n bits s
  | .doorbellSet n bits => Sys2Proof.Machine.execDoorbellSet n bits s
  | .intakeHold n hold => Sys2Proof.Machine.execIntakeHold n hold s
  | .partitionFlagDrive n drv => Sys2Proof.Machine.execPartitionFlagDrive n drv s
  | .partitionFailFlag p => Sys2Proof.Machine.execPartitionFailFlag p s
  | .arrayEvent p => Sys2Proof.Machine.execArrayEvent p s
  | .sequencerBankAccess n p clash => Sys2Proof.Machine.execSequencerBankAccess n p clash s
  | .seqTimerExpiry n => Sys2Proof.Machine.execSeqTimerExpiry n s
  | .interruptEntry n => Sys2Proof.Machine.execInterruptEntry n s
  | .machineCheck n kind => Sys2Proof.Machine.execMachineCheck n kind s
  | .loadReturn n => Sys2Proof.Machine.execLoadReturn n s
  | .postedStoreBusError n => Sys2Proof.Machine.execPostedStoreBusError n s
  | .macProductAdd n => Sys2Proof.Machine.execMacProductAdd n s
  | .seqDmafqRead n => Sys2Proof.Machine.execSeqDmafqRead n s
  | .add n rd ra rb => Sys2Proof.Machine.execAdd n rd ra rb s
  | .sub n rd ra rb => Sys2Proof.Machine.execSub n rd ra rb s
  | .and n rd ra rb => Sys2Proof.Machine.execAnd n rd ra rb s
  | .or n rd ra rb => Sys2Proof.Machine.execOr n rd ra rb s
  | .xor n rd ra rb => Sys2Proof.Machine.execXor n rd ra rb s
  | .andn n rd ra rb => Sys2Proof.Machine.execAndn n rd ra rb s
  | .sll n rd ra rb => Sys2Proof.Machine.execSll n rd ra rb s
  | .srl n rd ra rb => Sys2Proof.Machine.execSrl n rd ra rb s
  | .sra n rd ra rb => Sys2Proof.Machine.execSra n rd ra rb s
  | .ror n rd ra rb => Sys2Proof.Machine.execRor n rd ra rb s
  | .slt n rd ra rb => Sys2Proof.Machine.execSlt n rd ra rb s
  | .sltu n rd ra rb => Sys2Proof.Machine.execSltu n rd ra rb s
  | .mul n rd ra rb => Sys2Proof.Machine.execMul n rd ra rb s
  | .mulh n rd ra rb => Sys2Proof.Machine.execMulh n rd ra rb s
  | .mulhu n rd ra rb => Sys2Proof.Machine.execMulhu n rd ra rb s
  | .div n rd ra rb => Sys2Proof.Machine.execDiv n rd ra rb s
  | .divu n rd ra rb => Sys2Proof.Machine.execDivu n rd ra rb s
  | .rem n rd ra rb => Sys2Proof.Machine.execRem n rd ra rb s
  | .remu n rd ra rb => Sys2Proof.Machine.execRemu n rd ra rb s
  | .addw n rd ra rb => Sys2Proof.Machine.execAddw n rd ra rb s
  | .subw n rd ra rb => Sys2Proof.Machine.execSubw n rd ra rb s
  | .popc n rd ra => Sys2Proof.Machine.execPopc n rd ra s
  | .clz n rd ra => Sys2Proof.Machine.execClz n rd ra s
  | .min n rd ra rb => Sys2Proof.Machine.execMin n rd ra rb s
  | .max n rd ra rb => Sys2Proof.Machine.execMax n rd ra rb s
  | .minu n rd ra rb => Sys2Proof.Machine.execMinu n rd ra rb s
  | .maxu n rd ra rb => Sys2Proof.Machine.execMaxu n rd ra rb s
  | .sextw n rd ra => Sys2Proof.Machine.execSextw n rd ra s
  | .zextw n rd ra => Sys2Proof.Machine.execZextw n rd ra s
  | .addi n rd ra imm => Sys2Proof.Machine.execAddi n rd ra imm s
  | .andi n rd ra imm => Sys2Proof.Machine.execAndi n rd ra imm s
  | .ori n rd ra imm => Sys2Proof.Machine.execOri n rd ra imm s
  | .xori n rd ra imm => Sys2Proof.Machine.execXori n rd ra imm s
  | .lui n rd imm => Sys2Proof.Machine.execLui n rd imm s
  | .orhi n rd ra imm => Sys2Proof.Machine.execOrhi n rd ra imm s
  | .slti n rd ra imm => Sys2Proof.Machine.execSlti n rd ra imm s
  | .sltiu n rd ra imm => Sys2Proof.Machine.execSltiu n rd ra imm s
  | .shi n rd ra kind k => Sys2Proof.Machine.execShi n rd ra kind k s
  | .ld n rd ra imm => Sys2Proof.Machine.execLd n rd ra imm s
  | .lw n rd ra imm => Sys2Proof.Machine.execLw n rd ra imm s
  | .lwu n rd ra imm => Sys2Proof.Machine.execLwu n rd ra imm s
  | .lh n rd ra imm => Sys2Proof.Machine.execLh n rd ra imm s
  | .lhu n rd ra imm => Sys2Proof.Machine.execLhu n rd ra imm s
  | .lb n rd ra imm => Sys2Proof.Machine.execLb n rd ra imm s
  | .lbu n rd ra imm => Sys2Proof.Machine.execLbu n rd ra imm s
  | .sd n rs ra imm => Sys2Proof.Machine.execSd n rs ra imm s
  | .sw n rs ra imm => Sys2Proof.Machine.execSw n rs ra imm s
  | .sh n rs ra imm => Sys2Proof.Machine.execSh n rs ra imm s
  | .sb n rs ra imm => Sys2Proof.Machine.execSb n rs ra imm s
  | .fld n fd ra imm => Sys2Proof.Machine.execFld n fd ra imm s
  | .fst n fs ra imm => Sys2Proof.Machine.execFst n fs ra imm s
  | .dld n rd re px ix py iy w => Sys2Proof.Machine.execDld n rd re px ix py iy w s
  | .beq n ra rb off => Sys2Proof.Machine.execBeq n ra rb off s
  | .bne n ra rb off => Sys2Proof.Machine.execBne n ra rb off s
  | .blt n ra rb off => Sys2Proof.Machine.execBlt n ra rb off s
  | .bge n ra rb off => Sys2Proof.Machine.execBge n ra rb off s
  | .bltu n ra rb off => Sys2Proof.Machine.execBltu n ra rb off s
  | .bgeu n ra rb off => Sys2Proof.Machine.execBgeu n ra rb off s
  | .j n off => Sys2Proof.Machine.execJ n off s
  | .jalr n rd ra imm => Sys2Proof.Machine.execJalr n rd ra imm s
  | .callw n off => Sys2Proof.Machine.execCallw n off s
  | .callwr n ra imm => Sys2Proof.Machine.execCallwr n ra imm s
  | .retw n => Sys2Proof.Machine.execRetw n s
  | .rpt n f imm ra => Sys2Proof.Machine.execRpt n f imm ra s
  | .loop n ra len => Sys2Proof.Machine.execLoop n ra len s
  | .mac n ra rb a => Sys2Proof.Machine.execMac n ra rb a s
  | .macu n ra rb a => Sys2Proof.Machine.execMacu n ra rb a s
  | .msu n ra rb a => Sys2Proof.Machine.execMsu n ra rb a s
  | .dmac n ra rb a => Sys2Proof.Machine.execDmac n ra rb a s
  | .dmacx n ra rb a => Sys2Proof.Machine.execDmacx n ra rb a s
  | .dmacs n ra rb a => Sys2Proof.Machine.execDmacs n ra rb a s
  | .acca n ra a => Sys2Proof.Machine.execAcca n ra a s
  | .aclr n a => Sys2Proof.Machine.execAclr n a s
  | .ext n rd a k => Sys2Proof.Machine.execExt n rd a k s
  | .exts n rd a k => Sys2Proof.Machine.execExts n rd a k s
  | .extd n rd a k => Sys2Proof.Machine.execExtd n rd a k s
  | .extds n rd a k => Sys2Proof.Machine.execExtds n rd a k s
  | .norm n rd a => Sys2Proof.Machine.execNorm n rd a s
  | .maxi n rd ra rb => Sys2Proof.Machine.execMaxi n rd ra rb s
  | .mini n rd ra rb => Sys2Proof.Machine.execMini n rd ra rb s
  | .fadd n d a b sp => Sys2Proof.Machine.execFadd n d a b sp s
  | .fsub n d a b sp => Sys2Proof.Machine.execFsub n d a b sp s
  | .fmul n d a b sp => Sys2Proof.Machine.execFmul n d a b sp s
  | .fdiv n d a b sp => Sys2Proof.Machine.execFdiv n d a b sp s
  | .fsqrt n d a sp => Sys2Proof.Machine.execFsqrt n d a sp s
  | .fmadd n d a b sp => Sys2Proof.Machine.execFmadd n d a b sp s
  | .fmin n d a b sp => Sys2Proof.Machine.execFmin n d a b sp s
  | .fmax n d a b sp => Sys2Proof.Machine.execFmax n d a b sp s
  | .fneg n d a sp => Sys2Proof.Machine.execFneg n d a sp s
  | .fabs n d a sp => Sys2Proof.Machine.execFabs n d a sp s
  | .fmov n d a sp => Sys2Proof.Machine.execFmov n d a sp s
  | .fcvt n d a sp => Sys2Proof.Machine.execFcvt n d a sp s
  | .ftoi n d a sp => Sys2Proof.Machine.execFtoi n d a sp s
  | .itof n d a sp => Sys2Proof.Machine.execItof n d a sp s
  | .fmvgf n d a sp => Sys2Proof.Machine.execFmvgf n d a sp s
  | .fmvfg n d a sp => Sys2Proof.Machine.execFmvfg n d a sp s
  | .feq n d a b sp => Sys2Proof.Machine.execFeq n d a b sp s
  | .flt n d a b sp => Sys2Proof.Machine.execFlt n d a b sp s
  | .fle n d a b sp => Sys2Proof.Machine.execFle n d a b sp s
  | .mfcs n d => Sys2Proof.Machine.execMfcs n d s
  | .mtcs n a => Sys2Proof.Machine.execMtcs n a s
  | .stmm n rm ra b off cut => Sys2Proof.Machine.execStmm n rm ra b off cut s
  | .ldmm n rm ra b off cut => Sys2Proof.Machine.execLdmm n rm ra b off cut s
  | .cxsl n ra => Sys2Proof.Machine.execCxsl n ra s
  | .cxsu n ra => Sys2Proof.Machine.execCxsu n ra s
  | .cxrl n => Sys2Proof.Machine.execCxrl n s
  | .cxru n => Sys2Proof.Machine.execCxru n s
  | .flushw n => Sys2Proof.Machine.execFlushw n s
  | .fillw n => Sys2Proof.Machine.execFillw n s
  | .mfs n rd sp h => Sys2Proof.Machine.execMfs n rd sp h s
  | .mts n ra sp h => Sys2Proof.Machine.execMts n ra sp h s
  | .rett n => Sys2Proof.Machine.execRett n s
  | .syscall n => Sys2Proof.Machine.execSyscall n s
  | .breakI n => Sys2Proof.Machine.execBreakI n s
  | .mcall n => Sys2Proof.Machine.execMcall n s
  | .isync n => Sys2Proof.Machine.execIsync n s
  | .fence n => Sys2Proof.Machine.execFence n s
  | .dmaresume n rd ra => Sys2Proof.Machine.execDmaresume n rd ra s
  | .actx n plane fenced => Sys2Proof.Machine.execActx n plane fenced s
  | .moult n ra rb plane row east => Sys2Proof.Machine.execMoult n ra rb plane row east s
  | .moultTokenEntry n => Sys2Proof.Machine.execMoultTokenEntry n s
  | .aparm n ra scope row col k => Sys2Proof.Machine.execAparm n ra scope row col k s
  | .parameterDelivery p => Sys2Proof.Machine.execParameterDelivery p s
  | .fork n k fp pp => Sys2Proof.Machine.execFork n k fp pp s
  | .brf n cond c v k off => Sys2Proof.Machine.execBrf n cond c v k off s
  | .await n rd ra rb => Sys2Proof.Machine.execAwait n rd ra rb s
  | .freeze n v => Sys2Proof.Machine.execFreeze n v s
  | .tlbInvalidate r v => Sys2Proof.Machine.execTlbInvalidate r v s
  | .invalidationComplete => Sys2Proof.Machine.execInvalidationComplete s
  | .pageTableWalk r va => Sys2Proof.Machine.execPageTableWalk r va s
  | .dmaGo c => Sys2Proof.Machine.execDmaGo c s
  | .dmaDescriptorFetch c => Sys2Proof.Machine.execDmaDescriptorFetch c s
  | .dmaUnitTransfer c clash => Sys2Proof.Machine.execDmaUnitTransfer c clash s
  | .dmaResume c => Sys2Proof.Machine.execDmaResume c s
  | .dmaAbort c => Sys2Proof.Machine.execDmaAbort c s
  | .mspGo p k => Sys2Proof.Machine.execMspGo p k s
  | .mspReadComplete p k => Sys2Proof.Machine.execMspReadComplete p k s
  | .mspWriteWord p k clash => Sys2Proof.Machine.execMspWriteWord p k clash s
  | .mspResume p k => Sys2Proof.Machine.execMspResume p k s
  | .mspAbort p k => Sys2Proof.Machine.execMspAbort p k s
  | .forkArming isl => Sys2Proof.Machine.execForkArming isl s
  | .forkResolution isl => Sys2Proof.Machine.execForkResolution isl s
  | .holdWord isl => Sys2Proof.Machine.execHoldWord isl s
  | .steeringWaitTimeout isl => Sys2Proof.Machine.execSteeringWaitTimeout isl s
  | .forkCfgWrite isl v => Sys2Proof.Machine.execForkCfgWrite isl v s
  | .force isl k out => Sys2Proof.Machine.execForce isl k out s
  | .forkClrcnt isl => Sys2Proof.Machine.execForkClrcnt isl s
  | .cycleRebase isl v => Sys2Proof.Machine.execCycleRebase isl v s
  | .failMarkIdleTimeout isl => Sys2Proof.Machine.execFailMarkIdleTimeout isl s
  | .failPortItem r => Sys2Proof.Machine.execFailPortItem r s
  | .homeSliceRecord h => Sys2Proof.Machine.execHomeSliceRecord h s
  | .commitTick p => Sys2Proof.Machine.execCommitTick p s
  | .mapWriteFailure p u => Sys2Proof.Machine.execMapWriteFailure p u s
  | .arm p u => Sys2Proof.Machine.execArm p u s
  | .armComplete p => Sys2Proof.Machine.execArmComplete p s
  | .disarm p u => Sys2Proof.Machine.execDisarm p u s
  | .solve p u => Sys2Proof.Machine.execSolve p u s
  | .solvesite p site => Sys2Proof.Machine.execSolvesite p site s
  | .flush p => Sys2Proof.Machine.execFlush p s
  | .query p u => Sys2Proof.Machine.execQuery p u s
  | .newrun p => Sys2Proof.Machine.execNewrun p s
  | .feClrcnt p => Sys2Proof.Machine.execFeClrcnt p s
  | .solverStart => Sys2Proof.Machine.execSolverStart s
  | .solveComplete k => Sys2Proof.Machine.execSolveComplete k s
  | .solveTimeBound k => Sys2Proof.Machine.execSolveTimeBound k s
  | .rrqHeadWrite p v => Sys2Proof.Machine.execRrqHeadWrite p v s
  | .loadGo src mode part => Sys2Proof.Machine.execLoadGo src mode part s
  | .loadAbort => Sys2Proof.Machine.execLoadAbort s
  | .windowWrite wide v => Sys2Proof.Machine.execWindowWrite wide v s
  | .cspSelect mode => Sys2Proof.Machine.execCspSelect mode s
  | .cspByte b => Sys2Proof.Machine.execCspByte b s
  | .cspDeselect => Sys2Proof.Machine.execCspDeselect s
  | .loadHeader => Sys2Proof.Machine.execLoadHeader s
  | .frameRecord => Sys2Proof.Machine.execFrameRecord s
  | .loadVerify stagingError => Sys2Proof.Machine.execLoadVerify stagingError s
  | .eclosion => Sys2Proof.Machine.execEclosion s
  | .loadTimeout => Sys2Proof.Machine.execLoadTimeout s
  | .scrubFrame upset crcUpset => Sys2Proof.Machine.execScrubFrame upset crcUpset s
  | .readback island frame => Sys2Proof.Machine.execReadback island frame s
  | .cfgPolicyLock fields => Sys2Proof.Machine.execCfgPolicyLock fields s
  | .apertureAccess f a => Sys2Proof.Machine.execApertureAccess f a s
  | .msixUnmask f vec masked => Sys2Proof.Machine.execMsixUnmask f vec masked s
  | .d3hotEntry f => Sys2Proof.Machine.execD3hotEntry f s
  | .d3hotExit f => Sys2Proof.Machine.execD3hotExit f s
  | .perstN low => Sys2Proof.Machine.execPerstN low s
  | .hotReset => Sys2Proof.Machine.execHotReset s
  | .hostLinkDown => Sys2Proof.Machine.execHostLinkDown s
  | .hdmCommit d v => Sys2Proof.Machine.execHdmCommit d v s
  | .cxpLock => Sys2Proof.Machine.execCxpLock s
  | .cxlRequestTimeout p pa read => Sys2Proof.Machine.execCxlRequestTimeout p pa read s
  | .cxlLinkLoss p => Sys2Proof.Machine.execCxlLinkLoss p s
  | .cxlRetrainWaitTimeout p => Sys2Proof.Machine.execCxlRetrainWaitTimeout p s
  | .cxlL1Entry p => Sys2Proof.Machine.execCxlL1Entry p s
  | .cxlDeviceEvent dev ev => Sys2Proof.Machine.execCxlDeviceEvent dev ev s
  | .timeFrame r f => Sys2Proof.Machine.execTimeFrame r f s
  | .syncFrame r f => Sys2Proof.Machine.execSyncFrame r f s
  | .startFrame r f => Sys2Proof.Machine.execStartFrame r f s
  | .stopFrame r f => Sys2Proof.Machine.execStopFrame r f s
  | .gfailFrame r f => Sys2Proof.Machine.execGfailFrame r f s
  | .decideFrame r f => Sys2Proof.Machine.execDecideFrame r f s
  | .fsumFrame r f => Sys2Proof.Machine.execFsumFrame r f s
  | .mboxFrame r f => Sys2Proof.Machine.execMboxFrame r f s
  | .joinFrame r f => Sys2Proof.Machine.execJoinFrame r f s
  | .claimFrame r f => Sys2Proof.Machine.execClaimFrame r f s
  | .leaveFrame r f => Sys2Proof.Machine.execLeaveFrame r f s
  | .probeFrame r f trip => Sys2Proof.Machine.execProbeFrame r f trip s
  | .cicadaBlock r id tm => Sys2Proof.Machine.execCicadaBlock r id tm s
  | .routeAction => Sys2Proof.Machine.execRouteAction s
  | .timeSend => Sys2Proof.Machine.execTimeSend s
  | .probeSend => Sys2Proof.Machine.execProbeSend s
  | .cicadaSend r => Sys2Proof.Machine.execCicadaSend r s
  | .ringCtlJoin => Sys2Proof.Machine.execRingCtlJoin s
  | .ringJoinTimer => Sys2Proof.Machine.execRingJoinTimer s
  | .ringCtlLeave => Sys2Proof.Machine.execRingCtlLeave s
  | .ringSilence r => Sys2Proof.Machine.execRingSilence r s
  | .mboxSend v => Sys2Proof.Machine.execMboxSend v s
  | .rxhdrRead => Sys2Proof.Machine.execRxhdrRead s
  | .rxdataRead => Sys2Proof.Machine.execRxdataRead s
  | .trigEdge k rise => Sys2Proof.Machine.execTrigEdge k rise s
  | .trigLevel k high => Sys2Proof.Machine.execTrigLevel k high s
  | .trigStuck k => Sys2Proof.Machine.execTrigStuck k s
  | .routeStuck r => Sys2Proof.Machine.execRouteStuck r s
  | .powerOn cool => Sys2Proof.Machine.execPowerOn cool s
  | .brownout cool => Sys2Proof.Machine.execBrownout cool s
  | .coldRstN low cool => Sys2Proof.Machine.execColdRstN low cool s
  | .warmRstN low => Sys2Proof.Machine.execWarmRstN low s
  | .rstCold => Sys2Proof.Machine.execRstCold s
  | .rstWarm => Sys2Proof.Machine.execRstWarm s
  | .partitionReset bits => Sys2Proof.Machine.execPartitionReset bits s
  | .resetRelease d => Sys2Proof.Machine.execResetRelease d s
  | .domainResetTimeout d => Sys2Proof.Machine.execDomainResetTimeout d s
  | .trimLoad ok cspMode modId => Sys2Proof.Machine.execTrimLoad ok cspMode modId s
  | .firmwareLoad => Sys2Proof.Machine.execFirmwareLoad s
  | .earlyService => Sys2Proof.Machine.execEarlyService s
  | .fullService devs => Sys2Proof.Machine.execFullService devs s
  | .islandClockLoss isl => Sys2Proof.Machine.execIslandClockLoss isl s
  | .islandClockRestore isl => Sys2Proof.Machine.execIslandClockRestore isl s
  | .islandHaltTimeout isl => Sys2Proof.Machine.execIslandHaltTimeout isl s
  | .clockRetune isl freq => Sys2Proof.Machine.execClockRetune isl freq s
  | .rungRequest n r => Sys2Proof.Machine.execRungRequest n r s
  | .rungEntryComplete n => Sys2Proof.Machine.execRungEntryComplete n s
  | .wake n src => Sys2Proof.Machine.execWake n src s
  | .wakeAdmission wait => Sys2Proof.Machine.execWakeAdmission wait s
  | .clrdef => Sys2Proof.Machine.execClrdef s
  | .stormWindowEnd => Sys2Proof.Machine.execStormWindowEnd s
  | .containedHandling => Sys2Proof.Machine.execContainedHandling s
  | .fatalHandling => Sys2Proof.Machine.execFatalHandling s
  | .safeHold expired => Sys2Proof.Machine.execSafeHold expired s
  | .captureGo n => Sys2Proof.Machine.execCaptureGo n s
  | .freezeArrival isl => Sys2Proof.Machine.execFreezeArrival isl s
  | .captureResume n => Sys2Proof.Machine.execCaptureResume n s
  | .captureReadback island record => Sys2Proof.Machine.execCaptureReadback island record s
  | .debugRegisterSelect reg q => Sys2Proof.Machine.execDebugRegisterSelect reg q s
  | .dbgacc op => Sys2Proof.Machine.execDbgacc op s
  | .dbgunlock sig slot => Sys2Proof.Machine.execDbgunlock sig slot s
  | .extest pins data => Sys2Proof.Machine.execExtest pins data s
  | .samplePreload pins data => Sys2Proof.Machine.execSamplePreload pins data s
  | .idcode => Sys2Proof.Machine.execIdcode s
  | .bypass => Sys2Proof.Machine.execBypass s
  | .healthSample m hours conf cause crossed elapsed => Sys2Proof.Machine.execHealthSample m hours conf cause crossed elapsed s
  | .autoRepair isl late => Sys2Proof.Machine.execAutoRepair isl late s
  | .smbusRead addr cmd sense => Sys2Proof.Machine.execSmbusRead addr cmd sense s
  | .railFault k mv => Sys2Proof.Machine.execRailFault k mv s
  | .junctionOvertemp temp => Sys2Proof.Machine.execJunctionOvertemp temp s
  | .thermalTrip => Sys2Proof.Machine.execThermalTrip s
  | .powerCapTick power lid => Sys2Proof.Machine.execPowerCapTick power lid s
  | .laneBlockTime l => Sys2Proof.Machine.execLaneBlockTime l s
  | .quadPllLock q => Sys2Proof.Machine.execQuadPllLock q s
  | .cspWaitTimeout => Sys2Proof.Machine.execCspWaitTimeout s
  | .awaitTimeout n => Sys2Proof.Machine.execAwaitTimeout n s
  | .hostLinkTrained flit width speed => Sys2Proof.Machine.execHostLinkTrained flit width speed s
  | .cxlLinkTrained p fast width switch => Sys2Proof.Machine.execCxlLinkTrained p fast width switch s
  | .ringInvalidBlock r hdr => Sys2Proof.Machine.execRingInvalidBlock r hdr s
  | .ringLeaveTimer => Sys2Proof.Machine.execRingLeaveTimer s
  | .lidAboveLimit => Sys2Proof.Machine.execLidAboveLimit s

end Sys2Proof.Machine
end

