-- ==== Sys2Proof/Machine/Tick.lean ====
section
/-!
DEFINITION. Machine/Tick.lean: what one tick of the block's clocks does when no command waits (log entry 2).
-/
namespace Sys2Proof.Machine

/-- An edge of every running island. -/
def tickIslands (s : State) : State := (List.range 156).foldl (fun s i => if s.islRuns i then islandEdge i s else s) s

/-- Two cycles of every sequencer whose clock runs; one that waits in `AWAIT` looks for its event. -/
def tickSeqs (s : State) : State :=
  (List.range 24).foldl (fun s n => if s.seqClk n ∧ (s.getSeq n).st ≠ 5 then awaitCheck n (s.onSeq n (fun x => x.pass 2)) else s) s

/-- TICK: one nanosecond: an edge of every running island, two cycles of every sequencer, one count of `RING_TIME` (R415) with the ring's own frames (R412), and a sample
of the trigger pins (R425). -/
def tick (s : State) : State :=
  trigClocks (ringSend (ringClock (tickSeqs (tickIslands s))))

end Sys2Proof.Machine
end

