-- ==== Sys2Proof/Safety.lean ====
section
/-!
DEFINITION. Safety.lean: what counts as a good state of the block, and the words the statements use: which parts of the state a command leaves alone, and when a sequencer
can issue an instruction.
-/
namespace Sys2Proof.Safety
open Sys2Proof.Machine

/-- The byte memory is in its canonical form: addresses strictly rising and no zero cell. -/
def MemOk (s : State) : Prop := Memory.wf s.mem = true

/-! ### Frames -/

/-- Two register fields share no bit. -/
def Apart (x y : RF) : Prop := y.key ≠ x.key ∨ x.hi < y.lo ∨ y.hi < x.lo

/-- A whole register as a field. -/
def whole (k : Nat) : RF := { key := k, hi := 63, lo := 0 }

/-- Every register field that shares no bit with the listed ones keeps its value. -/
def FieldsBut (xs : List RF) (s t : State) : Prop := ∀ y : RF, y.hi < 64 → (∀ x ∈ xs, Apart x y) → t.f y = s.f y

/-- Nothing but the listed register fields changes. -/
def OnlyFields (xs : List RF) (s t : State) : Prop := t = { s with regs := t.regs } ∧ FieldsBut xs s t

/-- The islands but those listed keep their state. -/
def IslesBut (is : List Nat) (s t : State) : Prop := ∀ j, j ∉ is → t.getIsl j = s.getIsl j

/-- The lanes but those listed keep their state. -/
def LanesBut (ls : List Nat) (s t : State) : Prop := ∀ j, j ∉ ls → t.getLane j = s.getLane j

/-- The sequencers but those listed keep their state. -/
def SeqsBut (ns : List Nat) (s t : State) : Prop := ∀ j, j ∉ ns → t.getSeq j = s.getSeq j

/-- The bytes of memory but those listed keep their value. -/
def BytesBut (p : Nat → Prop) (s t : State) : Prop := ∀ a, ¬ p a → t.byte a = s.byte a

/-! ### Sequencers -/

/-- Sequencer `n` runs, stands at a word of its local window that it may fetch and whose block it holds, and has no repeat, loop, product, load or result's wait in flight;
nothing comes before its instruction (R249, R250): no machine check request, no entry of a rung, no bus error response that can be taken, no interrupt, no abandoned load to
execute again.  Its partition, if it is a primary, is running. -/
structure Ready (n : Nat) (s : State) : Prop where
  running : (s.getSeq n).st = 2
  run : s.f (SEQ_CTL.RUN n) = 1
  noStep : (s.getSeq n).stepping = false
  noRepeat : (s.getSeq n).sb stRP = false
  noLoop : (s.getSeq n).sb stLA = false
  noProduct : (s.getSeq n).macs = []
  noLoad : (s.getSeq n).loads = []
  window : (s.getSeq n).pc < 0x10_0000
  allowed : s.lwAllows n (s.getSeq n).pc false = true
  held : (Map.find (s.getSeq n).blocks (fetchBlock false (s.getSeq n).pc)).isSome = true
  noWait : ∀ e ∈ (s.getSeq n).soon, e.2 ≤ (s.getSeq n).cycle
  noCheck : (s.getSeq n).mcheck = none
  noDoze : s.dozes n = false
  noError : (s.getSeq n).holds = true ∨ (s.getSeq n).held = none
  noIrq : s.irqTaken n = none
  noAgain : (s.getSeq n).again = []
  partRuns : ∀ p, s.primaryOf n = some p → s.f (GLB_PART_CFG.STATE p) = stRUNNING

/-- Sequencer `n` goes to `pc` after `c` cycles, with `g` done to what it keeps; nothing else changes. -/
def stepTo (n pc c : Nat) (g : Seq → Seq) (s : State) : State :=
  s.onSeq n (fun x => { g x with pc := pc, cycle := (x.cycle + c) % 2 ^ 64 })

/-- The address of the instruction after the one at PC. -/
def nextPc (n : Nat) (s : State) : Nat := ((s.getSeq n).pc + 4) % 2 ^ 48

/-- Sequencer `n` writes one register and goes to the next instruction after `c` cycles; nothing else changes. -/
def retire (n k : Nat) (v : Word) (c : Nat) (s : State) : State := stepTo n (nextPc n s) c (fun x => x.put k v) s

/-- Sequencer `n` writes one register, which can be used its latency of `lat` cycles after the issue (R192, R216), and goes to the next instruction after one cycle;
nothing else changes. -/
def retireLater (n k : Nat) (v : Word) (lat : Nat) (s : State) : State :=
  stepTo n (nextPc n s) 1 (fun x => (x.put k v).usedFrom (x.place k) lat) s

/-- Sequencer `n` loads register `k` from its local window, to be used from the second cycle on (R192), and goes to the next instruction after one cycle; nothing
else changes. -/
def loaded (n k : Nat) (v : Word) (s : State) : State := retireLater n k v 2 s

/-- Sequencer `n` holds no block and stands in its local window, where it may fetch, in a block of four sound ECC words. -/
structure NearBlock (n : Nat) (s : State) : Prop where
  empty : (s.getSeq n).blocks = []
  window : (s.getSeq n).pc < 0x10_0000
  allowed : s.lwAllows n (s.getSeq n).pc false = true
  sound : ∀ k, k < 4 → s.ecc (bankBase n + (s.getSeq n).pc / 32 * 32 + 8 * k) = 0

/-- Sequencer `n` holds the block of PC as it stands in memory, and no other. -/
def holdingBlock (n : Nat) (s : State) : State :=
  s.onSeq n (fun x => { x with blocks := [(fetchBlock false x.pc, Memory.num s.mem (bankBase n + x.pc / 32 * 32) 32)] })

/-- An access of sequencer `n` at `va` in its local window is allowed and finds a sound ECC word. -/
def LocalOk (n va : Nat) (store : Bool) (s : State) : Prop :=
  va < 0x10_0000 ∧ s.lwAllows n va store = true ∧ s.ecc (bankBase n + va) = 0

/-- From `a` on stand the low `size` bytes of `v`, in a sound ECC word; every other byte is as before. -/
def Stored (a size : Nat) (v : Word) (s t : State) : Prop :=
  (∀ k, k < size → t.byte (a + k) = BitVec.ofNat 8 (v.toNat / 256 ^ k)) ∧ t.ecc a = 0 ∧
    BytesBut (fun b => (a ≤ b ∧ b < a + size) ∨ b = eccKey a) s t

/-- The floating-point unit of sequencer `n` is enabled and no HZ5 frame is active. -/
def FpReady (n : Nat) (s : State) : Prop := (s.getSeq n).sb stFPEN = true ∧ (s.getSeq n).hz5Active = false

/-- The canonical quiet NaN of a format (R230). -/
def quietNan (sp : Bool) : Word := if sp then 0x7FC00000 else 0x7FF8000000000000

/-- A number on one scale: its value times 2^1100, an infinity beyond every finite number; none for a NaN. -/
def scaled : FpNum → Option Int
  | .nan _ => none
  | .inf neg => some (if neg then -(2 ^ 4000) else 2 ^ 4000)
  | .fin neg m e => some ((if neg then -1 else 1) * m * 2 ^ (e + 1100).toNat)

/-- Whether a number is finite. -/
def finite : FpNum → Bool
  | .fin _ _ _ => true
  | _ => false

/-- An FP instruction with an FP destination ends: its register, which can be used its latency of `lat` cycles after the issue (R228), its sticky flags, PC and cycles. -/
def fpRetire (n d : Nat) (v : Word) (fl c lat : Nat) (s : State) : State :=
  stepTo n (nextPc n s) c (fun x => (Seq.put { x with fcs := x.fcs ||| fl } (32 + d) v).usedFrom (96 + d) lat) s

/-- An FP instruction with a general destination ends. -/
def fpRetireG (n d : Nat) (v : Word) (fl lat : Nat) (s : State) : State :=
  stepTo n (nextPc n s) 1 (fun x => (Seq.put { x with fcs := x.fcs ||| fl } d v).usedFrom (x.place d) lat) s

/-! ### Islands -/

/-- Nothing takes the output of word unit `u` of island `i`: no consumer selects it, and the fail collector is off. -/
def Unread (i u : Nat) (s : State) : Prop := s.consumers i u = [] ∧ s.f (ISL_FCAP_CFG.FEN i) = 0

/-- The flags of word unit `u` as a nibble of `ISL_WU_FLAGS`: Z, N, C, V from bit 0 on. -/
def flagsOf (i u : Nat) (s : State) : Nat := s.f ((whole (ISL_WU_FLAGS i)).elem 4 u)

/-- Only the registers and islands change, and of the islands only `i`. -/
def IslandOnly (i : Nat) (s t : State) : Prop := t = { s with regs := t.regs, isl := t.isl } ∧ IslesBut [i] s t

/-! ### The error log -/

/-- With no storm limit and a vector in the table, exactly one record has joined the error log, at its tail, with this code, partition and source. -/
def Logged (code part src : Nat) (s t : State) : Prop :=
  s.f ERR_CTL.STORM = 0 → s.f ERR_CTL.VEC < 512 → t.f ERR_LOGP.TAIL = (s.f ERR_LOGP.TAIL + 1) % 4096 ∧
    ∃ r, Map.find t.log (s.f ERR_LOGP.TAIL) = some r ∧ bitsOf r.w1.toNat 23 8 = code ∧ bitsOf r.w1.toNat 7 4 = part ∧ bitsOf r.w1.toNat 39 24 = src

/-! ### Mailboxes -/

/-- Firmware can execute at once the command with this code that function `f` has submitted with descriptor `d`, the job at place `k`: nothing ends it early, and no
wake of its partition has to come first. -/
structure Executes (code f : Nat) (d : Desc) (k : Nat) (j : Job) (s : State) : Prop where
  job : s.jobOf f d = some (k, j)
  named : d.code.toNat = code
  fresh : j.started = false
  first : s.jobFree k j = true
  firmware : s.firmOn = true
  early : s.early j = none
  sets : j.sets = []
  awake : code = 0x06 ∨ s.jobKind j ≠ 1 ∨ s.f (PWR_PART.CUR d.part.toNat) = 0

/-- The completion ring of a function takes a completion at once: it is served and enabled, has room, nothing waits, and its vector is in the table; no submission ring holds a
descriptor that the end of a command could let firmware take. -/
structure CplReady (f : Nat) (s : State) : Prop where
  served : s.mbxReady f = true
  enabled : s.f (MBX_CTL.EN f) = 1
  room : s.cqRoom f = true
  first : (s.getMbx f).wait = []
  vector : s.f (MBX_CTL.VEC f) < if f = 0 then 512 else 128
  drained : ∀ g, g < 13 → s.f (MBX_SQT.PTR g) = s.f (MBX_SQH.PTR g)

/-- The completion of a command with descriptor `d`, without `PHASE` (R399). -/
def cplOf (status detail : Nat) (dist : Bool) (d : Desc) (r0 r1 : Word) : Cpl :=
  { w0 := status + d.code.toNat * 2 ^ 8 + detail * 2 ^ 16 + b2n dist * 2 ^ 32, tag := d.tag.toNat, r0 := r0, r1 := r1 }

/-- Where the next completion of a function stands. -/
def cplEntry (f : Nat) (s : State) : Nat := ringKey f (cqOffset f + s.f (MBX_CQT.PTR f) * 32)

/-- The completion stands at the tail of the ring with the phase of the pass, the tail has moved on, nothing waits, and the message has been sent or is pending. -/
def CplWritten (f : Nat) (c : Cpl) (s t : State) : Prop :=
  let e := cplEntry f s
  let tail := (s.f (MBX_CQT.PTR f) + 1) % ringSize f
  Memory.num t.mem e 8 = (c.w0 + b2n (s.getMbx f).phase * 2 ^ 63) % 2 ^ 64 ∧ Memory.num t.mem (e + 8) 8 = c.tag % 2 ^ 64 ∧
    Memory.num t.mem (e + 16) 8 = c.r0.toNat ∧ Memory.num t.mem (e + 24) 8 = c.r1.toNat ∧ t.f (MBX_CQT.PTR f) = tail ∧
    t.getMbx f = { s.getMbx f with phase := if tail = 0 then !(s.getMbx f).phase else (s.getMbx f).phase, wait := [] } ∧ t.f (MBX_STAT.CQWAIT f) = 0 ∧
    (if s.msixOpen f (s.f (MBX_CTL.VEC f)) then Out.msix f (s.f (MBX_CTL.VEC f)) ∈ t.out else msixIx f (s.f (MBX_CTL.VEC f)) ∈ t.msixPend)

/-- The registers that a completion changes. -/
def cplFields (f : Nat) : List RF := [MBX_CQT.PTR f, MBX_STAT.CQWAIT f]

/-- Only the mailbox changes, and of memory only the entry of the completion: the job at `k` has ended. -/
def CplOnly (f k : Nat) (s t : State) : Prop :=
  t.jobs = s.jobs.eraseIdx k ∧ FieldsBut (cplFields f) s t ∧
    t = { s with regs := t.regs, mem := t.mem, jobs := t.jobs, mbx := t.mbx, out := t.out, msixPend := t.msixPend } ∧
    ∀ g, g ≠ f → t.getMbx g = s.getMbx g

/-- The bytes of the next completion entry of a function. -/
def inEntry (f : Nat) (s : State) (a : Nat) : Prop := cplEntry f s ≤ a ∧ a < cplEntry f s + 32

/-- The job at place `k` of function `f` ends with a completion, and nothing else happens. -/
def Completed (f k : Nat) (c : Cpl) (s t : State) : Prop := CplWritten f c s t ∧ CplOnly f k s t ∧ BytesBut (inEntry f s) s t

end Sys2Proof.Safety
end

