-- ==== Sys2Proof/WellFormed.lean ====
section
/-!
DEFINITION. WellFormed.lean: the operands that a command can carry.  Most operand types admit only what the interface can carry; the checks here are the rest: the size
and alignment of accesses to memories, apertures and registers (R10, R13, R37, R391).
-/
namespace Sys2Proof

/-- An access of 1, 2, 4 or 8 bytes aligned to its size. -/
def accessOk (off size : Nat) : Bool := (size == 1 || size == 2 || size == 4 || size == 8) && off % size == 0

/-- Whether a command is well formed. -/
def Instr.wf : Instr → Bool
  | .islandMemoryAccess _ (.read off size) _ => accessOk off.toNat size
  | .islandMemoryAccess _ (.write off size _ _ _) _ => accessOk off.toNat size
  | .sequencerBankAccess _ (.read off size) _ => accessOk off.toNat size
  | .sequencerBankAccess _ (.write off size _) _ => accessOk off.toNat size
  | .apertureAccess _ (.read off size) => accessOk off.toNat size
  | .apertureAccess _ (.write off size _ _) => accessOk off.toNat size
  | .registerWrite _ _ off wide _ => accessOk off.toNat (if wide then 8 else 4)
  | _ => true

end Sys2Proof
end

