-- ==== Sys2Proof/Certificates/Slice0/Obligations.lean ====
section
/-!
DEFINITION. Certificates/Slice0/Obligations.lean: the statements for the provers.
-/
open Sys2Proof Sys2Proof.Machine Sys2Proof.Safety

/-- For every command c, waiting commands and state, a step with c at the front of the queue is exec of c on the state with the rest of the queue. With an empty
queue a step answers the state one tick later; that the empty queue ticks is the model's choice (log entry 2). -/
def Obligations.StepRunsTheFrontCommandAndAnEmptyQueueTicks : Prop :=
  (∀ (c : Instr) (rest : List Instr) (s : State), step { s with pending := c :: rest } = exec c { s with pending := rest }) ∧
  (∀ s : State, s.pending = [] → step s = .next (tick s))

/-- After cold reset no command waits and the memory lists no byte; GLB_DEVICE_ID reads 0x4C59_7120 and GLB_REVISION names family 0x07 and revision 0xB0; every
partition is not enabled and EMPTY, every row is unowned with its spare pointer at 12; every lane is disabled, every sequencer's RUN and every doorbell is 0, no
mailbox is ready, no HDM decoder is committed, and the error log is empty with a storm limit of 64. That unlisted memory reads zero is the model's choice (log
entry 4). -/
def Obligations.ResetHoldsTheSpecsValues : Prop :=
  State.reset.pending = [] ∧ State.reset.mem = [] ∧ State.reset.f GLB_DEVICE_ID.DEVICE_ID = 0x4C59_7120 ∧ State.reset.f GLB_REVISION.FAMILY = 7 ∧
  State.reset.f GLB_REVISION.REV = 0xB0 ∧
  (∀ n, n < 12 → State.reset.f (GLB_PART_CFG.EN n) = 0 ∧ State.reset.f (GLB_PART_CFG.STATE n) = 0 ∧ State.reset.f (GLB_PART_SEQ.MASK n) = 0) ∧
  (∀ r, r < 12 → State.reset.f (GLB_ROW_MAP.OWNER r) = 15 ∧ State.reset.f (GLB_ROW_MAP.SPARE_PTR r) = 12) ∧
  (∀ l, l < 192 → State.reset.f (LANE_CTL.EN l) = 0) ∧ (∀ n, n < 24 → State.reset.f (SEQ_CTL.RUN n) = 0 ∧ State.reset.f (SEQ_DBELL.PEND n) = 0) ∧
  (∀ f, f < 13 → State.reset.f (MBX_STAT.READY f) = 0) ∧ (∀ d, d < 16 → State.reset.f (CXP_HDM2.COMMITTED d) = 0) ∧
  State.reset.f ERR_LOGP.HEAD = 0 ∧ State.reset.f ERR_LOGP.TAIL = 0 ∧ State.reset.f ERR_CTL.STORM = 64

/-- The memory of the state after reset has its addresses strictly rising and no cell equal to what an unlisted address reads as. (The form is the model's; the spec
gives no contents after power-on.) That an address nothing has written reads as zero is the model's choice (log entry 4). -/
def Obligations.MemoryIsCanonicalAtReset : Prop :=
  MemOk State.reset

/-- For every state whose memory is in canonical form (addresses strictly rising, no cell equal to what an unlisted address reads as), whatever command stands at
the front of the queue and whatever else the state holds: if the step answers a next state, its memory is in canonical form too. So equal memories stay equal
data through writes of every port, copies, erasures and resets. (The form is the model's.) That an address nothing has written reads as zero is the model's
choice (log entry 4). -/
def Obligations.EveryStepKeepsTheMemoryCanonical : Prop :=
  ∀ s t : State, MemOk s → step s = .next t → MemOk t

/-- For every Kretas instruction and every value that its operand fields admit, the instruction that SEQ_STEP reads from that instruction's word is the instruction
with the same operands; and whatever word reads as an instruction is that instruction's own word, so a word with a non-zero unused field, or a reserved opcode
or function, reads as none. The multiple transfers stand with the number of registers after which a fault cuts them at 16, none. -/
def Obligations.InstructionWordsDecodeToThemselves : Prop :=
  (∀ (d a b : Fin 32) (fn : Fin 29), insOf (kInt fn d a (if intNoRb fn then 0 else b)).word.toNat = some (kInt fn d a (if intNoRb fn then 0 else b))) ∧
  (∀ (d a b : Fin 32) (imm : BitVec 16) (j : BitVec 26) (p : BitVec 10) (up : BitVec 8) (off : BitVec 15) (h : Bool),
    (∀ op ∈ [2, 3, 4, 5, 7, 8, 9], insOf (kImm op d a imm.toNat).word.toNat = some (kImm op d a imm.toNat)) ∧
    insOf (kImm 6 d 0 imm.toNat).word.toNat = some (kImm 6 d 0 imm.toNat) ∧
    insOf (kImm 0x0A d a up.toNat).word.toNat = some (kImm 0x0A d a up.toNat) ∧
    (∀ x ∈ [(0x10, 8, false), (0x11, 4, true), (0x12, 4, false), (0x13, 2, true), (0x14, 2, false), (0x15, 1, true), (0x16, 1, false)],
      insOf (kLd x.1 x.2.1 x.2.2 d a imm.toNat).word.toNat = some (kLd x.1 x.2.1 x.2.2 d a imm.toNat)) ∧
    (∀ x ∈ [(0x18, 8), (0x19, 4), (0x1A, 2), (0x1B, 1)], insOf (kSt x.1 x.2 d a imm.toNat).word.toNat = some (kSt x.1 x.2 d a imm.toNat)) ∧
    insOf (kFld d a imm.toNat).word.toNat = some (kFld d a imm.toNat) ∧ insOf (kFst d a imm.toNat).word.toNat = some (kFst d a imm.toNat) ∧
    (∀ op ∈ [0x20, 0x21, 0x22, 0x23, 0x24, 0x25], insOf (kBranch op d a imm.toNat).word.toNat = some (kBranch op d a imm.toNat)) ∧
    insOf (kJ j.toNat).word.toNat = some (kJ j.toNat) ∧ insOf (kJalr d a imm.toNat).word.toNat = some (kJalr d a imm.toNat) ∧
    insOf (kCallw j.toNat).word.toNat = some (kCallw j.toNat) ∧ insOf (kCallwr a imm.toNat).word.toNat = some (kCallwr a imm.toNat) ∧
    insOf kRetw.word.toNat = some kRetw ∧ insOf (kRptI p.toNat).word.toNat = some (kRptI p.toNat) ∧ insOf (kRptR a).word.toNat = some (kRptR a) ∧
    insOf (kLoop a imm.toNat).word.toNat = some (kLoop a imm.toNat) ∧
    (∀ load : Bool, insOf (kMm load d a (if h then 1 else 0) off.toNat 16).word.toNat = some (kMm load d a (if h then 1 else 0) off.toNat 16))) ∧
  (∀ (d a b : Fin 32) (c : Fin 2) (k : BitVec 6) (sp : Bool) (w : Bool) (px ix py iy : Fin 8),
    insOf (kDld d a px ix py iy w).word.toNat = some (kDld d a px ix py iy w) ∧
    (∀ fn ∈ [0, 1, 2, 3, 4, 5], insOf (kMac fn a b c).word.toNat = some (kMac fn a b c)) ∧ insOf (kMac 6 a 0 c).word.toNat = some (kMac 6 a 0 c) ∧
    insOf (kAclr c).word.toNat = some (kAclr c) ∧ (∀ fn ∈ [8, 9, 10, 11], insOf (kExt fn d c k.toNat).word.toNat = some (kExt fn d c k.toNat)) ∧
    insOf (kExt 12 d c 0).word.toNat = some (kExt 12 d c 0) ∧ insOf (kBest w d a b).word.toNat = some (kBest w d a b) ∧
    (∀ fn ∈ [0, 1, 2, 3], insOf (kArith fn d a b sp).word.toNat = some (kArith fn d a b sp)) ∧ insOf (kSqrt d a sp).word.toNat = some (kSqrt d a sp) ∧
    insOf (kFmadd d a b sp).word.toNat = some (kFmadd d a b sp) ∧ insOf (kPick w d a b sp).word.toNat = some (kPick w d a b sp) ∧
    (∀ fn ∈ [8, 9, 10], insOf (kSign fn d a sp).word.toNat = some (kSign fn d a sp)) ∧ insOf (kFcvt d a sp).word.toNat = some (kFcvt d a sp) ∧
    insOf (kFtoi d a sp).word.toNat = some (kFtoi d a sp) ∧ insOf (kItof d a sp).word.toNat = some (kItof d a sp) ∧
    insOf (kFmvgf d a sp).word.toNat = some (kFmvgf d a sp) ∧ insOf (kFmvfg d a sp).word.toNat = some (kFmvfg d a sp) ∧
    (∀ rel ∈ [0, 1, 2], insOf (kFcmp rel d a b sp).word.toNat = some (kFcmp rel d a b sp)) ∧ insOf (kMfcs d).word.toNat = some (kMfcs d) ∧
    insOf (kMtcs a).word.toNat = some (kMtcs a)) ∧
  (∀ (d a sp : Fin 32) (h : Bool), insOf (kMfs d sp h).word.toNat = some (kMfs d sp h) ∧ insOf (kMts a sp h).word.toNat = some (kMts a sp h) ∧
    (∀ k ∈ [kRett, kSyscall, kBreak, kMcall, kIsync, kFence, kFlushw, kFillw, kCxr false, kCxr true, kFreeze false, kFreeze true], insOf k.word.toNat = some k) ∧
    insOf (kDmaresume d a).word.toNat = some (kDmaresume d a) ∧ insOf (kCxs h d).word.toNat = some (kCxs h d)) ∧
  (∀ (d a b : Fin 32) (plane : BitVec 4) (x : Bool) (row col k : BitVec 4) (scope : BitVec 2) (c : Fin 4) (off : BitVec 16) (cl v : Bool),
    insOf (kActx plane x).word.toNat = some (kActx plane x) ∧ insOf (kMoult d a plane.toNat row.toNat x).word.toNat = some (kMoult d a plane.toNat row.toNat x) ∧
    insOf (kAparm d scope.toNat row.toNat col.toNat k.toNat).word.toNat = some (kAparm d scope.toNat row.toNat col.toNat k.toNat) ∧
    insOf (kFork c row.toNat col.toNat).word.toNat = some (kFork c row.toNat col.toNat) ∧ insOf (kAwait d a b).word.toNat = some (kAwait d a b) ∧
    insOf (kBrf c cl v scope.toNat off.toNat).word.toNat = some (kBrf c cl v scope.toNat off.toNat)) ∧
  (∀ (w : Nat) (k : KIns), insOf w = some k → k.word.toNat = w)

/-- For every partition n and written value, while the physical function answers memory requests: EN written 0 while STATE is LOADING, RUNNING or REPAIRING sets ERRCODE 7 and changes nothing else. EN written 1 while 0
runs the checks ROWS, OVERLAP, SEQ_COUNT, SEQ_CLASH, PRIMARY and VF_CLASH in order with the carried VF, NROWS and FIRST_ROW, and the first that fails sets
ERRCODE to its code and leaves everything else; when all pass, ERRCODE reads 0, the carried fields are stored, EN reads 1, every row of the band names n as its
owner and no other row changes. EN written 0 while 0 stores the carried fields with ERRCODE 0. EN written 1 while 1 only clears ERRCODE; written 0 while 1 it
clears EN and ERRCODE, keeps VF, NROWS and FIRST_ROW, and frees the rows of n. A write of GLB_PART_SEQn by the physical function is ignored while EN is 1; while
EN is 0 it sets MASK and PRIMARY. While the function does not answer, neither write does anything. That a GLB_PART_CFG_WRITE is such a write is the model's choice (log entry 8). -/
def Obligations.PartitionDefinitionWrites : Prop :=
  ∀ (n : Fin 12) (v : BitVec 32) (s : State),
    let vf := (v.extractLsb' 20 4).toNat
    let nrows := (v.extractLsb' 8 4).toNat
    let first := (v.extractLsb' 0 4).toNat
    let mask := s.f (GLB_PART_SEQ.MASK n)
    let prim := s.f (GLB_PART_SEQ.PRIMARY n)
    let other (m : Nat) : Prop := m < 12 ∧ m ≠ n.val ∧ s.f (GLB_PART_CFG.EN m) = 1
    let fails : Nat → Prop := fun e => match e with
      | 1 => nrows = 0 ∨ 12 < first + nrows
      | 2 => ∃ r m, first ≤ r ∧ r < first + nrows ∧ other m ∧ s.f (GLB_ROW_MAP.OWNER r) = m
      | 3 => mask = 0 ∨ 2 * nrows < popCount 24 mask
      | 4 => ∃ m, other m ∧ mask &&& s.f (GLB_PART_SEQ.MASK m) ≠ 0
      | 5 => 23 < prim ∨ mask.testBit prim = false
      | 6 => 12 < vf ∨ (vf ≠ 0 ∧ ∃ m, other m ∧ s.f (GLB_PART_CFG.VF m) = vf)
      | _ => False
    let st := s.f (GLB_PART_CFG.STATE n)
    let busy := st = 1 ∨ st = 3 ∨ st = 5
    let cfg := Instr.glbPartCfgWrite n v
    (s.fnOpen 0 = false → exec cfg s = .next s) ∧
    (s.fnOpen 0 = true → v.getLsbD 31 = false → busy → exec cfg s = .next (s.setF (GLB_PART_CFG.ERRCODE n) 7)) ∧
    (s.fnOpen 0 = true → s.f (GLB_PART_CFG.EN n) = 0 → v.getLsbD 31 = true →
      (∀ e, fails e → (∀ d, d < e → ¬ fails d) → exec cfg s = .next (s.setF (GLB_PART_CFG.ERRCODE n) e)) ∧
      ((∀ e, ¬ fails e) → ∃ t, exec cfg s = .next t ∧ t.f (GLB_PART_CFG.EN n) = 1 ∧ t.f (GLB_PART_CFG.ERRCODE n) = 0 ∧ t.f (GLB_PART_CFG.VF n) = vf ∧
        t.f (GLB_PART_CFG.NROWS n) = nrows ∧ t.f (GLB_PART_CFG.FIRST_ROW n) = first ∧ t.rd (GLB_PART_SEQ n) = s.rd (GLB_PART_SEQ n) ∧
        ∀ r, r < 12 → t.f (GLB_ROW_MAP.OWNER r) = if first ≤ r ∧ r < first + nrows then n.val else s.f (GLB_ROW_MAP.OWNER r))) ∧
    (s.fnOpen 0 = true → s.f (GLB_PART_CFG.EN n) = 0 → v.getLsbD 31 = false → ¬ busy → ∃ t, exec cfg s = .next t ∧ t.f (GLB_PART_CFG.ERRCODE n) = 0 ∧ t.f (GLB_PART_CFG.VF n) = vf ∧
      t.f (GLB_PART_CFG.NROWS n) = nrows ∧ t.f (GLB_PART_CFG.FIRST_ROW n) = first ∧
      OnlyFields [GLB_PART_CFG.ERRCODE n, GLB_PART_CFG.VF n, GLB_PART_CFG.NROWS n, GLB_PART_CFG.FIRST_ROW n] s t) ∧
    (s.fnOpen 0 = true → s.f (GLB_PART_CFG.EN n) = 1 → v.getLsbD 31 = true → exec cfg s = .next (s.setF (GLB_PART_CFG.ERRCODE n) 0)) ∧
    (s.fnOpen 0 = true → s.f (GLB_PART_CFG.EN n) = 1 → v.getLsbD 31 = false → ¬ busy → ∃ t, exec cfg s = .next t ∧ t.f (GLB_PART_CFG.EN n) = 0 ∧
      t.f (GLB_PART_CFG.ERRCODE n) = 0 ∧ t.f (GLB_PART_CFG.VF n) = s.f (GLB_PART_CFG.VF n) ∧ t.f (GLB_PART_CFG.NROWS n) = s.f (GLB_PART_CFG.NROWS n) ∧
      t.f (GLB_PART_CFG.FIRST_ROW n) = s.f (GLB_PART_CFG.FIRST_ROW n) ∧
      ∀ r, r < 12 → t.f (GLB_ROW_MAP.OWNER r) = if s.f (GLB_ROW_MAP.OWNER r) = n.val then 15 else s.f (GLB_ROW_MAP.OWNER r)) ∧
    (s.fnOpen 0 = true → ∀ x : BitVec 64,
      let seq := Instr.registerWrite 0 false (BitVec.ofNat 24 (GLB_PART_SEQ n)) false x
      (s.f (GLB_PART_CFG.EN n) = 1 → exec seq s = .next s) ∧
      (s.f (GLB_PART_CFG.EN n) = 0 → ∃ t, exec seq s = .next t ∧ t.f (GLB_PART_SEQ.MASK n) = (x.extractLsb' 0 24).toNat ∧
        t.f (GLB_PART_SEQ.PRIMARY n) = (x.extractLsb' 24 5).toNat ∧ OnlyFields [GLB_PART_SEQ.MASK n, GLB_PART_SEQ.PRIMARY n] s t))

/-- For a function that answers memory requests: a 32-bit write of ERR_CTL by the physical function sets its four fields and nothing else; a write of GLB_DEVICE_ID,
of an offset without a register, or of a 32-bit register by a 64-bit access changes nothing. A 64-bit write of MMU_PARTn sets PTBASE and ASID; made as two
halves it changes no register at the lower half and sets both at the upper half. A virtual function writes the MMU_PARTn of the partition it serves; one of
another partition keeps its value, and the attempt is logged. With CFG_POLICY.LOCK set, a write leaves the locked fields; with no storm limit it is logged, one record, exactly when it would
change one of them. A function that does not answer changes nothing, and neither does an access not aligned to its size (log entry 51). GATED_ACCESS at a register whose clock is stopped counts,
saturating at 127, records the offset, and returns zero for a read; GATED_ACCESS_CLEAR clears both, while the physical function answers. Where no rule says so, that a command whose condition does
not hold changes nothing is the model's choice (log entry 1). Access rights rest on log entries 8, 30 and 31. -/
def Obligations.RegisterWritesByAccessCodeAndWidth : Prop :=
  ∀ (n m : Fin 12) (f : Fin 13) (v : BitVec 64) (off : BitVec 24) (s : State),
    let wr (f : Fin 13) (o : Nat) (wide : Bool) (x : BitVec 64) := Instr.registerWrite f false (BitVec.ofNat 24 o) wide x
    let mmu : List RF := [MMU_PART.PTBASE n, MMU_PART.ASID n]
    let mmuHas (t : State) : Prop := t.f (MMU_PART.PTBASE n) = (v.extractLsb' 12 40).toNat ∧ t.f (MMU_PART.ASID n) = (v.extractLsb' 0 12).toNat
    (s.fnOpen 0 = true →
      (∃ t, exec (wr 0 ERR_CTL false v) s = .next t ∧ t.f ERR_CTL.XSTOP = (v.extractLsb' 31 1).toNat ∧ t.f ERR_CTL.DIRQ = (v.extractLsb' 30 1).toNat ∧
        t.f ERR_CTL.VEC = (v.extractLsb' 16 11).toNat ∧ t.f ERR_CTL.STORM = (v.extractLsb' 0 16).toNat ∧
        OnlyFields [ERR_CTL.XSTOP, ERR_CTL.DIRQ, ERR_CTL.VEC, ERR_CTL.STORM] s t) ∧
      exec (wr 0 GLB_DEVICE_ID false v) s = .next s ∧ exec (wr 0 0x28_0000 false v) s = .next s ∧ exec (wr 0 ERR_CTL true v) s = .next s ∧
      (s.dmaClk = true →
        (∃ t, exec (wr 0 (MMU_PART n) true v) s = .next t ∧ mmuHas t ∧ OnlyFields mmu s t) ∧
        (∃ h t, exec (wr 0 (MMU_PART n) false v) s = .next h ∧ h = { s with sys := h.sys } ∧ exec (wr 0 (MMU_PART n + 4) false (v >>> 32)) h = .next t ∧
          mmuHas t ∧ FieldsBut mmu s t ∧ t = { s with regs := t.regs, sys := t.sys })) ∧
      (s.cfgClk = true → s.f CFG_POLICY.LOCK = 1 → s.f ERR_CTL.STORM = 0 → ∃ t, exec (wr 0 CFG_POLICY false v) s = .next t ∧
        t.f CFG_POLICY.LIVEEN = s.f CFG_POLICY.LIVEEN ∧ t.f CFG_POLICY.REQENC = s.f CFG_POLICY.REQENC ∧ t.f CFG_POLICY.REQSIG = s.f CFG_POLICY.REQSIG ∧
        t.f ERR_LOGP.TAIL = if (v.extractLsb' 0 3).toNat = s.f ⟨CFG_POLICY, 2, 0⟩ then s.f ERR_LOGP.TAIL else (s.f ERR_LOGP.TAIL + 1) % 4096)) ∧
    (f.val ≠ 0 → s.fnOpen f = true → s.vfPart f = some n.val → s.dmaClk = true →
      (∃ t, exec (wr f (MMU_PART n) true v) s = .next t ∧ mmuHas t ∧ OnlyFields mmu s t) ∧ (m ≠ n → ∃ t, exec (wr f (MMU_PART m) true v) s = .next t ∧ t.rd (MMU_PART m) = s.rd (MMU_PART m) ∧
        Logged 0x0A02 m (srcOf 7 0xFC) s t ∧ t.mem = s.mem)) ∧
    (∀ wide : Bool, (s.fnOpen f = false → off.toNat % 8 = 0 → exec (.registerWrite f false off wide v) s = .next s) ∧
      (off.toNat % (if wide then 8 else 4) ≠ 0 → exec (.registerWrite f false off wide v) s = .next s)) ∧
    (let o := off.toNat / 4 * 4
     s.fnOpen f = true → s.reaches (.fn f) o = true → named (.fn f) o = true → s.regClk o = false → ∀ write : Bool,
      ∃ t, exec (.gatedAccess f off write) s = .next t ∧ t.f GLB_GATED_ACCESS.COUNT = min (s.f GLB_GATED_ACCESS.COUNT + 1) 127 ∧
        t.f GLB_GATED_ACCESS.OFFSET = o ∧ t.out = s.out ++ (if write then [] else [.read 0]) ∧
        FieldsBut [GLB_GATED_ACCESS.COUNT, GLB_GATED_ACCESS.OFFSET] s t ∧ t = { s with regs := t.regs, out := t.out }) ∧
    (s.fnOpen 0 = true → ∃ t, exec .gatedAccessClear s = .next t ∧ t.f GLB_GATED_ACCESS.COUNT = 0 ∧ t.f GLB_GATED_ACCESS.OFFSET = 0 ∧ OnlyFields [whole GLB_GATED_ACCESS] s t)

/-- At a ready sequencer (Safety.Ready) each of ADD, SUB, AND, OR, XOR, ANDN, SLL, SRL, SRA, ROR, SLT, SLTU, ADDW, SUBW, SEXTW, ZEXTW, MIN, MAX, MINU and MAXU
completes: rd takes the value of R217 (a write of g0 is discarded), PC goes to the next instruction, one cycle passes, and nothing else of the state changes. At
a ready sequencer ADDI, ANDI, ORI, XORI, LUI, ORHI, SLTI, SLTIU and SHI complete in one cycle: rd takes the value of R218, sign-extended or zero-extended
immediates as the table has them, and nothing else changes but PC and the cycle count. The instruction is the one the command names, and cycles leave out stalls
(log entries 9 and 10). -/
def Obligations.IntegerAndImmediateInstructions : Prop :=
  (∀ (n : Fin 24) (rd ra rb : Fin 32) (s : State), Ready n s →
     let a := s.kr n ra
     let b := s.kr n rb
     let k := b.toNat % 64
     exec (.add n rd ra rb) s = .next (retire n rd (a + b) 1 s) ∧
     exec (.sub n rd ra rb) s = .next (retire n rd (a - b) 1 s) ∧
     exec (.and n rd ra rb) s = .next (retire n rd (a &&& b) 1 s) ∧
     exec (.or n rd ra rb) s = .next (retire n rd (a ||| b) 1 s) ∧
     exec (.xor n rd ra rb) s = .next (retire n rd (a ^^^ b) 1 s) ∧
     exec (.andn n rd ra rb) s = .next (retire n rd (a &&& ~~~b) 1 s) ∧
     exec (.sll n rd ra rb) s = .next (retire n rd (a <<< k) 1 s) ∧
     exec (.srl n rd ra rb) s = .next (retire n rd (a >>> k) 1 s) ∧
     exec (.sra n rd ra rb) s = .next (retire n rd (a.sshiftRight k) 1 s) ∧
     exec (.ror n rd ra rb) s = .next (retire n rd (a.rotateRight k) 1 s) ∧
     exec (.slt n rd ra rb) s = .next (retire n rd (if a.toInt < b.toInt then 1 else 0) 1 s) ∧
     exec (.sltu n rd ra rb) s = .next (retire n rd (if a.toNat < b.toNat then 1 else 0) 1 s) ∧
     exec (.addw n rd ra rb) s = .next (retire n rd (((a + b).setWidth 32).signExtend 64) 1 s) ∧
     exec (.subw n rd ra rb) s = .next (retire n rd (((a - b).setWidth 32).signExtend 64) 1 s) ∧
     exec (.sextw n rd ra) s = .next (retire n rd ((a.setWidth 32).signExtend 64) 1 s) ∧
     exec (.zextw n rd ra) s = .next (retire n rd ((a.setWidth 32).setWidth 64) 1 s) ∧
     exec (.min n rd ra rb) s = .next (retire n rd (if a.toInt < b.toInt then a else b) 1 s) ∧
     exec (.max n rd ra rb) s = .next (retire n rd (if a.toInt < b.toInt then b else a) 1 s) ∧
     exec (.minu n rd ra rb) s = .next (retire n rd (if a.toNat < b.toNat then a else b) 1 s) ∧
     exec (.maxu n rd ra rb) s = .next (retire n rd (if a.toNat < b.toNat then b else a) 1 s)) ∧
  (∀ (n : Fin 24) (rd ra : Fin 32) (imm : BitVec 16) (kind : BitVec 2) (k : BitVec 6) (s : State), Ready n s →
     let a := s.kr n ra
     let sx : Word := imm.signExtend 64
     let zx : Word := imm.setWidth 64
     exec (.addi n rd ra imm) s = .next (retire n rd (a + sx) 1 s) ∧
     exec (.andi n rd ra imm) s = .next (retire n rd (a &&& zx) 1 s) ∧
     exec (.ori n rd ra imm) s = .next (retire n rd (a ||| zx) 1 s) ∧
     exec (.xori n rd ra imm) s = .next (retire n rd (a ^^^ zx) 1 s) ∧
     exec (.lui n rd imm) s = .next (retire n rd ((imm ++ (0 : BitVec 16)).signExtend 64) 1 s) ∧
     exec (.orhi n rd ra imm) s = .next (retire n rd (a ||| (zx <<< 32)) 1 s) ∧
     exec (.slti n rd ra imm) s = .next (retire n rd (if a.toInt < sx.toInt then 1 else 0) 1 s) ∧
     exec (.sltiu n rd ra imm) s = .next (retire n rd (if a.toNat < sx.toNat then 1 else 0) 1 s) ∧
     exec (.shi n rd ra kind k) s = .next (retire n rd
       (if kind = 0 then a <<< k.toNat else if kind = 1 then a >>> k.toNat else if kind = 2 then a.sshiftRight k.toNat else a.rotateRight k.toNat) 1 s))

/-- At a ready sequencer MUL, MULH and MULHU write the low or high 64 bits of the exact product; DIV, DIVU, REM and REMU write the quotient truncated toward zero or
its remainder in 34 cycles, with all ones and the dividend for a divisor of zero; the products take one cycle and can be used from the third one after the issue on; POPC counts the bits that are 1, and CLZ the leading zeros, 64 for zero.
Nothing else changes but PC and the cycle count. The instruction is the one the command names, and cycles leave out stalls (log entries 9 and 10). -/
def Obligations.ProductsQuotientsAndBitCounts : Prop :=
  ∀ (n : Fin 24) (rd ra rb : Fin 32) (s : State), Ready n s →
    let a := s.kr n ra
    let b := s.kr n rb
    exec (.mul n rd ra rb) s = .next (retireLater n rd (a * b) 3 s) ∧
    exec (.mulh n rd ra rb) s = .next (retireLater n rd (((a.signExtend 128 * b.signExtend 128) >>> 64).setWidth 64) 3 s) ∧
    exec (.mulhu n rd ra rb) s = .next (retireLater n rd (((a.setWidth 128 * b.setWidth 128) >>> 64).setWidth 64) 3 s) ∧
    exec (.div n rd ra rb) s = .next (retire n rd (if b = 0 then 0xFFFFFFFFFFFFFFFF else a.sdiv b) 34 s) ∧
    exec (.divu n rd ra rb) s = .next (retire n rd (if b = 0 then 0xFFFFFFFFFFFFFFFF else a.udiv b) 34 s) ∧
    exec (.rem n rd ra rb) s = .next (retire n rd (if b = 0 then a else a.srem b) 34 s) ∧
    exec (.remu n rd ra rb) s = .next (retire n rd (if b = 0 then a else a.umod b) 34 s) ∧
    exec (.popc n rd ra) s = .next (retire n rd (BitVec.ofNat 64 ((List.range 64).countP a.getLsbD)) 1 s) ∧
    (∃ z : Nat, exec (.clz n rd ra) s = .next (retire n rd (BitVec.ofNat 64 z) 1 s) ∧ z ≤ 64 ∧ (∀ i, i < z → a.getMsbD i = false) ∧
      (z = 64 ∨ a.getMsbD z = true))

/-- At a ready sequencer LD, LW, LWU, LH, LHU, LB and LBU, and FLD while the FP unit is enabled and no HZ5 frame is active, complete on an address of the local
window that is aligned, allowed and sound: the destination takes the little-endian data at the effective address (ra + sext(imm16))[47:0], extended as R219
says and usable from the second cycle on (R192), one cycle passes, and nothing else changes. LOAD_RETURN writes the oldest outstanding load of any sequencer that has one to the register it names,
discards data for g0, and changes nothing else. At a ready sequencer over a canonical memory SD, SW, SH and SB, and FST while the FP unit is enabled, complete
on an address of the local window that is aligned, allowed and sound: the bytes at the effective address take the low bytes of the register, the ECC word is
sound, every other byte of memory keeps its value, PC goes to the next instruction after one cycle, and nothing else changes. The instruction is the one the
command names, and cycles leave out stalls (log entries 9 and 10). When a load outside the window is performed rests on log entry 13. -/
def Obligations.LocalWindowLoadsAndStores : Prop :=
  ((∀ (n : Fin 24) (rd ra : Fin 32) (imm : BitVec 16) (s : State), Ready n s →
     let va := ((s.kr n ra + imm.signExtend 64).setWidth 48).toNat
     let m := Memory.num s.mem (bankBase n + va)
     LocalOk n va false s →
     (va % 8 = 0 → exec (.ld n rd ra imm) s = .next (loaded n rd (BitVec.ofNat 64 (m 8)) s)) ∧
     (va % 4 = 0 → exec (.lw n rd ra imm) s = .next (loaded n rd ((BitVec.ofNat 32 (m 4)).signExtend 64) s)) ∧
     (va % 4 = 0 → exec (.lwu n rd ra imm) s = .next (loaded n rd ((BitVec.ofNat 32 (m 4)).setWidth 64) s)) ∧
     (va % 2 = 0 → exec (.lh n rd ra imm) s = .next (loaded n rd ((BitVec.ofNat 16 (m 2)).signExtend 64) s)) ∧
     (va % 2 = 0 → exec (.lhu n rd ra imm) s = .next (loaded n rd ((BitVec.ofNat 16 (m 2)).setWidth 64) s)) ∧
     exec (.lb n rd ra imm) s = .next (loaded n rd ((BitVec.ofNat 8 (m 1)).signExtend 64) s) ∧
     exec (.lbu n rd ra imm) s = .next (loaded n rd ((BitVec.ofNat 8 (m 1)).setWidth 64) s) ∧
     (va % 8 = 0 → FpReady n s → exec (.fld n rd ra imm) s = .next (loaded n (32 + rd) (BitVec.ofNat 64 (m 8)) s))) ∧
   (∀ (n : Fin 24) (s : State) (l : LoadOp) (rest : List LoadOp), (s.getSeq n).loads = l :: rest →
     ∃ t, exec (.loadReturn n) s = .next t ∧ (t.getSeq n).loads = rest ∧
       (∀ p, (t.getSeq n).atPlace p = if p = l.reg ∧ p ≠ 0 then l.data else (s.getSeq n).atPlace p) ∧
       t = s.setSeq n { s.getSeq n with loads := rest, r := (t.getSeq n).r })) ∧
  (∀ (n : Fin 24) (rs ra : Fin 32) (imm : BitVec 16) (s : State), Ready n s → MemOk s →
     let va := ((s.kr n ra + imm.signExtend 64).setWidth 48).toNat
     let a := bankBase n + va
     let done (t : State) : Prop := t = { stepTo n (nextPc n s) 1 id s with mem := t.mem }
     LocalOk n va true s →
     (va % 8 = 0 → ∃ t, exec (.sd n rs ra imm) s = .next t ∧ done t ∧ Stored a 8 (s.kr n rs) s t) ∧
     (va % 4 = 0 → ∃ t, exec (.sw n rs ra imm) s = .next t ∧ done t ∧ Stored a 4 (s.kr n rs) s t) ∧
     (va % 2 = 0 → ∃ t, exec (.sh n rs ra imm) s = .next t ∧ done t ∧ Stored a 2 (s.kr n rs) s t) ∧
     (∃ t, exec (.sb n rs ra imm) s = .next t ∧ done t ∧ Stored a 1 (s.kr n rs) s t) ∧
     (va % 8 = 0 → (s.getSeq n).sb stFPEN = true →
       ∃ t, exec (.fst n rs ra imm) s = .next t ∧ done t ∧ Stored a 8 (s.kr n (32 + rs)) s t))

/-- At a ready sequencer DLD with two pointers g1 to g7, two destinations, all four different, and step codes 0 to 6, on aligned, allowed and sound addresses of the
local window, writes both destinations with the data at the pointers (sign-extended words with W = 1), adds the step times the access size to each pointer, and
takes 1 cycle when the addresses lie in different halves of the bank and 2 otherwise; the data can be used from the second cycle on. With equal pointers or a reserved step code it raises ILL. The instruction
is the one the command names, and cycles leave out stalls (log entries 9 and 10). -/
def Obligations.DualLoadReadsBothPointersAndStepsThem : Prop :=
  ∀ (n : Fin 24) (rd re : Fin 32) (px ix py iy : Fin 8) (w : Bool) (s : State), Ready n s →
    let size := if w then 4 else 8
    let step (c : Fin 8) : Word := ([0, 1, -1, 2, -2, 4, -4, 0] : List Word).getD c 0 * BitVec.ofNat 64 size
    let ax := ((s.kr n px).setWidth 48).toNat
    let ay := ((s.kr n py).setWidth 48).toNat
    let data (a : Nat) : Word := if w then (BitVec.ofNat 32 (Memory.num s.mem (bankBase n + a) 4)).signExtend 64 else BitVec.ofNat 64 (Memory.num s.mem (bankBase n + a) 8)
    (px ≠ 0 → py ≠ 0 → px ≠ py → rd ≠ re → rd.val ≠ px.val → rd.val ≠ py.val → re.val ≠ px.val → re.val ≠ py.val → ix ≠ 7 → iy ≠ 7 →
      ax % size = 0 → ay % size = 0 → LocalOk n ax false s → LocalOk n ay false s →
      exec (.dld n rd re px ix py iy w) s = .next (stepTo n (nextPc n s) (if ax / 0x8_0000 = ay / 0x8_0000 then 2 else 1)
        (fun x => (((((x.put rd (data ax)).put re (data ay)).put px (s.kr n px + step ix)).put py (s.kr n py + step iy)).usedFrom (x.place rd) 2).usedFrom (x.place re) 2) s)) ∧
    (px = py ∨ ix = 7 → exec (.dld n rd re px ix py iy w) s = .next (raiseAt n (kDld rd re px ix py iy w).word.toNat 0x05 0 0 (s.getSeq n).pc s))

/-- At a ready sequencer over a canonical memory, with interrupts off or no interrupt arriving, with a mask register that is neither the base register nor selected and an unselected
base register, and 16 slots of the local window that are aligned, allowed and sound: LDMM loads each selected register of the bank from its slot, STMM stores
each selected register in its slot and changes no other byte than those of the selected slots and their ECC conditions; both clear the low 16 bits of the mask
register, keep every other register, and go on after one cycle for each transfer, or one for an empty mask. With interrupts on, an interrupt that arrives after
fewer transfers than the mask names cuts LDMM: it stays at its PC, the registers loaded so far hold their data, and the mask names the rest. The instruction is the one the command names, and
cycles leave out stalls (log entries 9 and 10). An interruption is an operand of the command (log entry 15). -/
def Obligations.MaskedMultipleTransfers : Prop :=
  ∀ (n : Fin 24) (rm ra : Fin 32) (b : Fin 2) (off : BitVec 15) (cut : Fin 17) (s : State), Ready n s → MemOk s →
    let sel (k : Nat) : Bool := k / 16 == b.val && (s.kr n rm).getLsbD (k % 16)
    let slot (j : Nat) : Nat := ((s.kr n ra + off.signExtend 64 * 8).setWidth 48).toNat + 8 * j
    let cycles := if (s.kr n rm).setWidth 16 = 0 then 1 else (List.range 16).countP (fun j => (s.kr n rm).getLsbD j)
    rm ≠ ra → sel rm = false → sel ra = false → slot 0 % 8 = 0 → slot 16 ≤ 0x10_0000 →
    (∀ j, j < 16 → LocalOk n (slot j) false s ∧ LocalOk n (slot j) true s) →
    let due (j : Nat) : Bool := (s.kr n rm).getLsbD j && decide ((List.range j).countP (fun i => (s.kr n rm).getLsbD i) < cut.val)
    ((s.getSeq n).sb stIE = true → (s.getSeq n).rptc = 0 → cut.val < (List.range 16).countP (fun j => (s.kr n rm).getLsbD j) →
      ∃ t, exec (.ldmm n rm ra b off cut) s = .next t ∧ (t.getSeq n).pc = (s.getSeq n).pc ∧ (t.getSeq n).cycle = ((s.getSeq n).cycle + cut.val) % 2 ^ 64 ∧
        (∀ j, j < 16 → (t.kr n rm).getLsbD j = ((s.kr n rm).getLsbD j && !due j)) ∧
        (∀ k : Fin 32, k ≠ rm → t.kr n k = if k.val / 16 = b.val ∧ due (k % 16) ∧ k ≠ 0 then BitVec.ofNat 64 (Memory.num s.mem (bankBase n + slot (k % 16)) 8) else s.kr n k) ∧
        SeqsBut [n] s t ∧ t = { s with seqs := t.seqs }) ∧
    ((s.getSeq n).sb stIE = false ∨ cut.val = 16 → ∃ t, exec (.ldmm n rm ra b off cut) s = .next t ∧ (t.getSeq n).pc = nextPc n s ∧ (t.getSeq n).cycle = ((s.getSeq n).cycle + cycles) % 2 ^ 64 ∧
      (∀ k : Fin 32, t.kr n k = if k = rm then s.kr n rm &&& ~~~0xFFFF
        else if sel k ∧ k ≠ 0 then BitVec.ofNat 64 (Memory.num s.mem (bankBase n + slot (k % 16)) 8) else s.kr n k) ∧
      SeqsBut [n] s t ∧ t = { s with seqs := t.seqs }) ∧
    ((s.getSeq n).sb stIE = false ∨ cut.val = 16 → ∃ t, exec (.stmm n rm ra b off cut) s = .next t ∧ (t.getSeq n).pc = nextPc n s ∧ (t.getSeq n).cycle = ((s.getSeq n).cycle + cycles) % 2 ^ 64 ∧
      (∀ k : Fin 32, t.kr n k = if k = rm then s.kr n rm &&& ~~~0xFFFF else s.kr n k) ∧
      (∀ j, j < 16 → (s.kr n rm).getLsbD j = true → BitVec.ofNat 64 (Memory.num t.mem (bankBase n + slot j) 8) = s.kr n (16 * b + j)) ∧
      BytesBut (fun a => ∃ j, j < 16 ∧ (s.kr n rm).getLsbD j = true ∧
        ((bankBase n + slot j ≤ a ∧ a < bankBase n + slot j + 8) ∨ a = eccKey (bankBase n + slot j))) s t ∧
      SeqsBut [n] s t ∧ t = { s with seqs := t.seqs, mem := t.mem })

/-- At a ready sequencer whose PC is word-aligned, each conditional branch compares ra with rb as it is named and goes to pc + sext(off16) × 4 after 2 cycles, or to
the next instruction after 1; J goes to pc + sext(off26) × 4; JALR goes to (ra + sext(imm16) × 4)[47:0] when that is word-aligned and writes the address of the
next instruction to rd. Nothing else changes. The instruction is the one the command names, and cycles leave out stalls (log entries 9 and 10). -/
def Obligations.BranchesAndJumps : Prop :=
  ∀ (n : Fin 24) (rd ra rb : Fin 32) (off : BitVec 16) (far : BitVec 26) (s : State), Ready n s → (s.getSeq n).pc % 4 = 0 →
    let a := s.kr n ra
    let b := s.kr n rb
    let pc : BitVec 48 := BitVec.ofNat 48 (s.getSeq n).pc
    let goes (c : Prop) [Decidable c] : State :=
      if c then stepTo n (pc + off.signExtend 48 * 4).toNat 2 id s else stepTo n (nextPc n s) 1 id s
    exec (.beq n ra rb off) s = .next (goes (a = b)) ∧
    exec (.bne n ra rb off) s = .next (goes (a ≠ b)) ∧
    exec (.blt n ra rb off) s = .next (goes (a.toInt < b.toInt)) ∧
    exec (.bge n ra rb off) s = .next (goes (b.toInt ≤ a.toInt)) ∧
    exec (.bltu n ra rb off) s = .next (goes (a.toNat < b.toNat)) ∧
    exec (.bgeu n ra rb off) s = .next (goes (b.toNat ≤ a.toNat)) ∧
    exec (.j n far) s = .next (stepTo n (pc + far.signExtend 48 * 4).toNat 1 id s) ∧
    (let t := ((a + off.signExtend 64 * 4).setWidth 48).toNat
     t % 4 = 0 → exec (.jalr n rd ra off) s = .next (stepTo n t 1 (fun x => x.put rd ((pc + 4).setWidth 64)) s))

/-- At a ready sequencer outside the trap window whose PC is word-aligned: with WRES below 5, CALLW and CALLWR go to their target in one cycle, leave the return
address in the callee's w7, make the caller's w8 to w14 the callee's w0 to w6, and add 1 to WCUR (mod 7) and WRES; with WRES above 0, RETW goes to w7, and takes
6 from WCUR mod 7 up, 1 from WRES. Memory and WSP stay as they are. The instruction is the one the command names, and cycles leave out stalls (log entries 9 and
10). -/
def Obligations.WindowCallsAndReturns : Prop :=
  ∀ (n : Fin 24) (ra : Fin 32) (imm : BitVec 16) (far : BitVec 26) (s : State), Ready n s → (s.getSeq n).sb stTW = false → (s.getSeq n).pc % 4 = 0 → (s.getSeq n).wcur < 7 →
    let x := s.getSeq n
    let pc : BitVec 48 := BitVec.ofNat 48 x.pc
    let called (target : Nat) (t : State) : Prop :=
      t = stepTo n target 1 (fun x => { x.put 31 ((pc + 4).setWidth 64) with wcur := (x.wcur + 1) % 7, wres := x.wres + 1 }) s ∧
        t.kr n 23 = (pc + 4).setWidth 64 ∧ ∀ k, k < 7 → t.kr n (16 + k) = s.kr n (24 + k)
    let dest := ((s.kr n ra + imm.signExtend 64 * 4).setWidth 48).toNat
    (x.wres < 5 → ∃ t, exec (.callw n far) s = .next t ∧ called (pc + far.signExtend 48 * 4).toNat t) ∧
    (x.wres < 5 → dest % 4 = 0 → ∃ t, exec (.callwr n ra imm) s = .next t ∧ called dest t) ∧
    (0 < x.wres → (s.kr n 23).toNat % 4 = 0 →
      exec (.retw n) s = .next (stepTo n ((s.kr n 23).setWidth 48).toNat 1 (fun x => { x with wcur := (x.wcur + 6) % 7, wres := x.wres - 1 }) s))

/-- At a ready sequencer outside the trap window with an 8-byte aligned spill stack whose slots of the local window are allowed and sound, over a canonical memory:
CALLW with WRES = 5 stores the eight words of frame (WCUR + 2) mod 7 at WSP − 64, lowers WSP by 64, keeps WRES, turns WCUR and takes 10 cycles, and no other
byte changes but ECC conditions; RETW with WRES = 0 loads frame (WCUR + 6) mod 7 from WSP, raises WSP by 64, turns WCUR back and takes 10 cycles and the 2 of its loads. At a ready
sequencer above user level in the trap window with interrupts off, over a canonical memory, with an 8-byte aligned spill stack whose slots of the local window
are allowed and sound: FLUSHW stores, each 64 bytes below the last, the callers' frames from the oldest on, the frame of the current window and the next one,
lowers WSP by 64 for each, sets WRES to 0 and takes 2 + 8 × (WRES + 2) cycles; FILLW loads the frame after the current one from WSP and the current one from WSP
+ 64, raises WSP by 128, sets WRES to 0 and takes 18 cycles and the 2 of its loads. The instruction is the one the command names, and cycles leave out stalls (log entries 9 and 10). -/
def Obligations.WindowsSpillFillAndFlush : Prop :=
  (∀ (n : Fin 24) (far : BitVec 26) (s : State), Ready n s → MemOk s → (s.getSeq n).sb stTW = false → (s.getSeq n).pc % 4 = 0 → (s.getSeq n).wcur < 7 →
     let x := s.getSeq n
     let pc : BitVec 48 := BitVec.ofNat 48 x.pc
     x.wsp % 8 = 0 → 64 ≤ x.wsp → x.wsp + 64 ≤ 0x10_0000 →
     (∀ j, j < 8 → LocalOk n (x.wsp - 64 + 8 * j) true s ∧ LocalOk n (x.wsp + 8 * j) false s) →
     (x.wres = 5 → ∃ t, exec (.callw n far) s = .next t ∧
       (t.getSeq n).pc = (pc + far.signExtend 48 * 4).toNat ∧ (t.getSeq n).wcur = (x.wcur + 1) % 7 ∧ (t.getSeq n).wres = 5 ∧ (t.getSeq n).wsp = x.wsp - 64 ∧
       (t.getSeq n).cycle = (x.cycle + 10) % 2 ^ 64 ∧ t.kr n 23 = (pc + 4).setWidth 64 ∧
       (∀ j, j < 8 → BitVec.ofNat 64 (Memory.num t.mem (bankBase n + (x.wsp - 64) + 8 * j) 8) = x.atPlace (24 + 8 * ((x.wcur + 2) % 7) + j)) ∧
       BytesBut (fun a => (bankBase n + (x.wsp - 64) ≤ a ∧ a < bankBase n + x.wsp) ∨ ∃ j, j < 8 ∧ a = eccKey (bankBase n + (x.wsp - 64) + 8 * j)) s t ∧
       SeqsBut [n] s t ∧ t = { s with seqs := t.seqs, mem := t.mem }) ∧
     (x.wres = 0 → (s.kr n 23).toNat % 4 = 0 → ∃ t, exec (.retw n) s = .next t ∧
       (t.getSeq n).pc = ((s.kr n 23).setWidth 48).toNat ∧ (t.getSeq n).wcur = (x.wcur + 6) % 7 ∧ (t.getSeq n).wres = 0 ∧ (t.getSeq n).wsp = x.wsp + 64 ∧
       (t.getSeq n).cycle = (x.cycle + 12) % 2 ^ 64 ∧
       (∀ j, j < 8 → (t.getSeq n).atPlace (24 + 8 * ((x.wcur + 6) % 7) + j) = BitVec.ofNat 64 (Memory.num s.mem (bankBase n + x.wsp + 8 * j) 8)) ∧
       SeqsBut [n] s t ∧ t = { s with seqs := t.seqs })) ∧
  (∀ (n : Fin 24) (s : State), Ready n s → MemOk s → (s.getSeq n).sb stTW = true → (s.getSeq n).sb stIE = false → (s.getSeq n).pl ≠ 0 → (s.getSeq n).wcur < 7 → (s.getSeq n).wres ≤ 5 →
     let x := s.getSeq n
     let depth := x.wres + 2
     let frame (i : Nat) : Nat := if i < x.wres then (x.wcur + 7 - (x.wres - i)) % 7 else (x.wcur + (i - x.wres)) % 7
     x.wsp % 8 = 0 →
     (64 * depth ≤ x.wsp → x.wsp ≤ 0x10_0000 → (∀ j, j < 8 * depth → LocalOk n (x.wsp - 8 * (j + 1)) true s) →
       ∃ t, exec (.flushw n) s = .next t ∧ (t.getSeq n).pc = nextPc n s ∧ (t.getSeq n).wsp = x.wsp - 64 * depth ∧ (t.getSeq n).wres = 0 ∧ (t.getSeq n).wcur = x.wcur ∧
         (t.getSeq n).cycle = (x.cycle + 2 + 8 * depth) % 2 ^ 64 ∧ (t.getSeq n).r = x.r ∧
         (∀ i j, i < depth → j < 8 →
           BitVec.ofNat 64 (Memory.num t.mem (bankBase n + (x.wsp - 64 * (i + 1)) + 8 * j) 8) = x.atPlace (24 + 8 * frame i + j)) ∧
         BytesBut (fun a => (bankBase n + (x.wsp - 64 * depth) ≤ a ∧ a < bankBase n + x.wsp) ∨
           ∃ j, j < 8 * depth ∧ a = eccKey (bankBase n + (x.wsp - 8 * (j + 1)))) s t ∧
         SeqsBut [n] s t ∧ t = { s with seqs := t.seqs, mem := t.mem }) ∧
     (x.wsp + 128 ≤ 0x10_0000 → (∀ j, j < 16 → LocalOk n (x.wsp + 8 * j) false s) →
       ∃ t, exec (.fillw n) s = .next t ∧ (t.getSeq n).pc = nextPc n s ∧ (t.getSeq n).wsp = x.wsp + 128 ∧ (t.getSeq n).wres = 0 ∧ (t.getSeq n).wcur = x.wcur ∧
         (t.getSeq n).cycle = (x.cycle + 20) % 2 ^ 64 ∧
         (∀ j, j < 8 → (t.getSeq n).atPlace (24 + 8 * ((x.wcur + 1) % 7) + j) = BitVec.ofNat 64 (Memory.num s.mem (bankBase n + x.wsp + 8 * j) 8) ∧
           (t.getSeq n).atPlace (24 + 8 * x.wcur + j) = BitVec.ofNat 64 (Memory.num s.mem (bankBase n + x.wsp + 64 + 8 * j) 8)) ∧
         (∀ p, ¬ (24 ≤ p ∧ p < 80) → (t.getSeq n).atPlace p = x.atPlace p) ∧
         SeqsBut [n] s t ∧ t = { s with seqs := t.seqs }))

/-- At a ready sequencer, RPT before a repeatable instruction that it can fetch sets RPTC to the count of its form, at least 1 and at most 1,024, and marks a repeat
pending; LOOP with a length other than 0 sets LPC to the next instruction and the length, empties the repeat cache, LCNT to ra[31:0] and LA to whether that is not 0, and goes to the next
instruction, or behind the body for a count of 0. Both take one cycle, and nothing else changes. The instruction is the one the command names, and cycles leave
out stalls (log entries 9 and 10). A repeat runs whole (log entry 14). -/
def Obligations.RepeatAndLoopAreSetUp : Prop :=
  ∀ (n : Fin 24) (ra : Fin 32) (imm : BitVec 10) (len : BitVec 16) (s : State), Ready n s →
    let x := s.getSeq n
    let count := ((s.kr n ra).setWidth 32).toNat
    let start := nextPc n s
    ((∃ w, s.wordAt n start = some w ∧ repeatable w = true) →
      exec (.rpt n false imm ra) s = .next (stepTo n start 1 (fun x => { x.setSb stRP true with rptc := imm.toNat + 1 }) s) ∧
      exec (.rpt n true imm ra) s = .next (stepTo n start 1 (fun x => { x.setSb stRP true with rptc := min (max count 1) 1024 }) s)) ∧
    (len ≠ 0 → exec (.loop n ra len) s = .next (stepTo n (if count = 0 then (start + 4 * len.toNat) % 2 ^ 48 else start) 1
      (fun x => { x.setSb stLA (count != 0) with lpc := len ++ BitVec.ofNat 48 start, body := [], lcnt := count }) s))

/-- At a ready sequencer MAC, MACU, MSU, DMAC, DMACX, DMACS and ACCA complete in one cycle: what each adds, the exact signed or unsigned products of R225, is in
flight for accumulator A of the bank that SH selects, due at the end of cycle t + 2; ACLR clears that accumulator. Nothing else changes but PC and the cycle
count. With one product in flight that is not yet due, MAC_PRODUCT_ADD lets the cycle at whose end it is due pass: no product stays in flight, the accumulator
it names takes the exact sum or, beyond 72 bits, the nearer limit, and keeps its value when it holds a limit already; every other accumulator, register and part
of the state is as before. The instruction is the one the command names, and cycles leave out stalls (log entries 9 and 10). -/
def Obligations.MacInstructionsSetOutAndAddTheirProducts : Prop :=
  (∀ (n : Fin 24) (ra rb : Fin 32) (a : Fin 2) (s : State), Ready n s →
     let u := s.kr n ra
     let v := s.kr n rb
     let w (x : Word) : Int := (x.setWidth 32).toInt
     let hi (x : Word) : Int := ((x >>> 16).setWidth 16).toInt
     let lo (x : Word) : Int := (x.setWidth 16).toInt
     let bank := (if (s.getSeq n).sb stSH then 2 else 0) + a.val
     let adds (d : Int) : State := stepTo n (nextPc n s) 1 (fun x => { x with macs := [{ acc := bank, delta := d, due := x.cycle + 2 }] }) s
     exec (.mac n ra rb a) s = .next (adds (w u * w v)) ∧
     exec (.macu n ra rb a) s = .next (adds ((u.setWidth 32).toNat * (v.setWidth 32).toNat)) ∧
     exec (.msu n ra rb a) s = .next (adds (-(w u * w v))) ∧
     exec (.dmac n ra rb a) s = .next (adds (hi u * hi v + lo u * lo v)) ∧
     exec (.dmacx n ra rb a) s = .next (adds (hi u * lo v + lo u * hi v)) ∧
     exec (.dmacs n ra rb a) s = .next (adds (hi u * hi v - lo u * lo v)) ∧
     exec (.acca n ra a) s = .next (adds u.toInt) ∧
     exec (.aclr n a) s = .next (stepTo n (nextPc n s) 1 (fun x => { x with acc := Map.set x.acc bank 0 }) s)) ∧
  (∀ (n : Fin 24) (m : MacOp) (s : State), (s.getSeq n).macs = [m] → (s.getSeq n).cycle ≤ m.due → m.due + 1 < 2 ^ 64 →
     ∃ t, exec (.macProductAdd n) s = .next t ∧
       t = s.setSeq n { s.getSeq n with cycle := m.due + 1, macs := [], acc := (t.getSeq n).acc } ∧
       (∀ k, (t.getSeq n).accAt k =
         if k ≠ m.acc ∨ (s.getSeq n).accAt k = 0x800000000000000000 ∨ (s.getSeq n).accAt k = 0x7FFFFFFFFFFFFFFFFF then (s.getSeq n).accAt k
         else BitVec.ofInt 72 (max (-(2 ^ 71)) (min (2 ^ 71 - 1) (((s.getSeq n).accAt k).toInt + m.delta)))))

/-- At a ready sequencer EXT writes bits [31:0] of the accumulator shifted right by k, sign-extended; EXTD its bits [63:0]; EXTS and EXTDS saturate the shifted
value first to 32 or 64 bits; NORM writes how many bits below the sign are equal to it, 71 for 0 and all ones. One cycle passes and nothing else changes. The
instruction is the one the command names, and cycles leave out stalls (log entries 9 and 10). -/
def Obligations.AccumulatorExtractions : Prop :=
  ∀ (n : Fin 24) (rd : Fin 32) (a : Fin 2) (k : Fin 64) (s : State), Ready n s →
    let acc := (s.getSeq n).accAt ((if (s.getSeq n).sb stSH then 2 else 0) + a.val)
    let v := acc.sshiftRight k
    exec (.ext n rd a k) s = .next (retire n rd ((v.setWidth 32).signExtend 64) 1 s) ∧
    exec (.exts n rd a k) s = .next (retire n rd (BitVec.ofInt 64 (max (-(2 ^ 31)) (min (2 ^ 31 - 1) v.toInt))) 1 s) ∧
    exec (.extd n rd a k) s = .next (retire n rd (v.setWidth 64) 1 s) ∧
    exec (.extds n rd a k) s = .next (retire n rd (BitVec.ofInt 64 (max (-(2 ^ 63)) (min (2 ^ 63 - 1) v.toInt))) 1 s) ∧
    (∃ z : Nat, exec (.norm n rd a) s = .next (retire n rd (BitVec.ofNat 64 z) 1 s) ∧ z ≤ 71 ∧
      (∀ i, i < z → acc.getLsbD (70 - i) = acc.getLsbD 71) ∧ (z = 71 ∨ acc.getLsbD (70 - z) ≠ acc.getLsbD 71))

/-- At a ready sequencer MAXI with an even rd and a counter rb outside the pair replaces rd by ra and rd + 1 by rb when ra is greater as a signed number, MINI when
it is less, and both then add 1 to rb, in one cycle and with nothing else changed; an odd rd, or an rb of rd or rd + 1, raises ILL. The instruction is the one
the command names, and cycles leave out stalls (log entries 9 and 10). -/
def Obligations.RunningBestKeepsTheFirstBest : Prop :=
  ∀ (n : Fin 24) (rd ra rb : Fin 32) (s : State), Ready n s →
    let a := s.kr n ra
    let b := s.kr n rb
    let d := s.kr n rd
    let keeps (better : Prop) [Decidable better] : State :=
      stepTo n (nextPc n s) 1 (fun x => (if better then (x.put rd a).put (rd + 1) b else x).put rb (b + 1)) s
    (rd.val % 2 = 0 → rb ≠ rd → rb.val ≠ rd.val + 1 →
      exec (.maxi n rd ra rb) s = .next (keeps (d.toInt < a.toInt)) ∧ exec (.mini n rd ra rb) s = .next (keeps (a.toInt < d.toInt))) ∧
    (rd.val % 2 = 1 ∨ rb = rd ∨ rb.val = rd.val + 1 →
      exec (.maxi n rd ra rb) s = .next (raiseAt n (kBest false rd ra rb).word.toNat 0x05 0 0 (s.getSeq n).pc s) ∧
      exec (.mini n rd ra rb) s = .next (raiseAt n (kBest true rd ra rb).word.toNat 0x05 0 0 (s.getSeq n).pc s))

/-- At a ready sequencer with the FP unit enabled and no HZ5 frame active, each of FADD, FSUB, FMUL, FDIV, FSQRT, FMADD, FMIN, FMAX and FCVT completes: its
destination takes a value that leaves bits [63:32] zero in a binary32 result, sticky flags of fcs[4:0] are added and none is cleared, division and square root
take 30 or 16 cycles and the others one, with a latency of 4 for sums and products, 5 for FMADD, 2 for FCVT and 1 otherwise, and nothing else changes. A NaN operand of the arithmetic instructions gives the canonical quiet NaN. The instruction
is the one the command names, and cycles leave out stalls (log entries 9 and 10). Bit patterns and IEEE 754 options rest on log entries 11 and 22. -/
def Obligations.FloatingArithmeticCompletes : Prop :=
  ∀ (n : Fin 24) (d a b : Fin 32) (sp : Bool) (s : State), Ready n s → FpReady n s →
    let na := s.fpNum n a sp
    let nb := s.fpNum n b sp
    let nd := s.fpNum n d sp
    let slow := if sp then 16 else 30
    let ends (c lat : Nat) (single : Bool) (nan : Bool) (i : Instr) : Prop :=
      ∃ (v : Word) (fl : Nat), exec i s = .next (fpRetire n d v fl c lat s) ∧ fl < 32 ∧ (single = true → v.toNat < 2 ^ 32) ∧ (nan = true → v = quietNan single)
    ends 1 4 sp (na.isNan || nb.isNan) (.fadd n d a b sp) ∧ ends 1 4 sp (na.isNan || nb.isNan) (.fsub n d a b sp) ∧
    ends 1 4 sp (na.isNan || nb.isNan) (.fmul n d a b sp) ∧ ends slow 1 sp (na.isNan || nb.isNan) (.fdiv n d a b sp) ∧
    ends slow 1 sp na.isNan (.fsqrt n d a sp) ∧ ends 1 5 sp (na.isNan || nb.isNan || nd.isNan) (.fmadd n d a b sp) ∧
    ends 1 1 sp (na.isNan && nb.isNan) (.fmin n d a b sp) ∧ ends 1 1 sp (na.isNan && nb.isNan) (.fmax n d a b sp) ∧
    ends 1 2 (!sp) na.isNan (.fcvt n d a sp)

/-- At a ready sequencer with the FP unit enabled and no HZ5 frame active, for finite operands: when some finite number p of the format equals the exact sum,
difference, product or quotient (of a divisor other than zero), or the square of p, at least zero, equals the operand, or p equals fd + fa × fb, the instruction
delivers a finite number equal to p and raises no flag, in every rounding mode. The instruction is the one the command names, and cycles leave out stalls (log
entries 9 and 10). Bit patterns and IEEE 754 options rest on log entries 11 and 22. -/
def Obligations.ExactFloatingResultsAreReturned : Prop :=
  ∀ (n : Fin 24) (d a b : Fin 32) (sp : Bool) (s : State) (x y z w p : Int) (pat : Nat), Ready n s → FpReady n s →
    pat < 2 ^ (fmtOf sp).size → finite ((fmtOf sp).unpack pat) = true → scaled ((fmtOf sp).unpack pat) = some p →
    finite (s.fpNum n a sp) = true → scaled (s.fpNum n a sp) = some x → finite (s.fpNum n b sp) = true → scaled (s.fpNum n b sp) = some y →
    finite (s.fpNum n d sp) = true → scaled (s.fpNum n d sp) = some z → w = 2 ^ 1100 →
    let gives (c lat : Nat) (i : Instr) : Prop :=
      ∃ v : Word, exec i s = .next (fpRetire n d v 0 c lat s) ∧ finite ((fmtOf sp).unpack v.toNat) = true ∧ scaled ((fmtOf sp).unpack v.toNat) = some p
    let slow := if sp then 16 else 30
    (p = x + y → gives 1 4 (.fadd n d a b sp)) ∧
    (p = x - y → gives 1 4 (.fsub n d a b sp)) ∧
    (p * w = x * y → gives 1 4 (.fmul n d a b sp)) ∧
    (y ≠ 0 → p * y = x * w → gives slow 1 (.fdiv n d a b sp)) ∧
    (0 ≤ p → p * p = x * w → gives slow 1 (.fsqrt n d a sp)) ∧
    (p * w = z * w + x * y → gives 1 5 (.fmadd n d a b sp))

/-- At a ready sequencer with the FP unit enabled and no HZ5 frame active: FMIN and FMAX deliver the smaller or larger of two unequal numbers without a flag, and
the other operand beside a quiet NaN; FNEG inverts the sign bit of fa, FABS clears it, FMOV copies fa; FMVGF copies the pattern of fa to a general register and
FMVFG one of a general register to fd; with S = 1 bits [31:0] are taken and bits [63:32] are zero. The instruction is the one the command names, and cycles
leave out stalls (log entries 9 and 10). Bit patterns and IEEE 754 options rest on log entries 11 and 22. -/
def Obligations.FloatingMinimumMovesAndSigns : Prop :=
  ∀ (n : Fin 24) (d a b : Fin 32) (sp : Bool) (s : State), Ready n s → FpReady n s →
    let cut (v : Word) : Word := if sp then (v.setWidth 32).setWidth 64 else v
    let fa := cut (s.kr n (32 + a))
    let fb := cut (s.kr n (32 + b))
    let sign : Word := if sp then 0x80000000 else 0x8000000000000000
    (∀ x y, scaled (s.fpNum n a sp) = some x → scaled (s.fpNum n b sp) = some y → x ≠ y →
      exec (.fmin n d a b sp) s = .next (fpRetire n d (if x < y then fa else fb) 0 1 1 s) ∧
      exec (.fmax n d a b sp) s = .next (fpRetire n d (if x < y then fb else fa) 0 1 1 s)) ∧
    (s.fpNum n a sp = .nan true → scaled (s.fpNum n b sp) ≠ none →
      exec (.fmin n d a b sp) s = .next (fpRetire n d fb 0 1 1 s) ∧ exec (.fmax n d a b sp) s = .next (fpRetire n d fb 0 1 1 s)) ∧
    exec (.fneg n d a sp) s = .next (fpRetire n d (fa ^^^ sign) 0 1 1 s) ∧
    exec (.fabs n d a sp) s = .next (fpRetire n d (fa &&& ~~~sign) 0 1 1 s) ∧
    exec (.fmov n d a sp) s = .next (fpRetire n d fa 0 1 1 s) ∧
    exec (.fmvgf n d a sp) s = .next (fpRetireG n d fa 0 1 s) ∧
    exec (.fmvfg n d a sp) s = .next (fpRetire n d (cut (s.kr n a)) 0 1 1 s)

/-- At a ready sequencer with the FP unit enabled and no HZ5 frame active: FEQ, FLT and FLE write 1 when the relation holds between two numbers and 0 otherwise,
without a flag; beside a NaN they write 0, FLT and FLE with NV. FTOI of an integer in the int64 range delivers it without a flag, of a larger or smaller number
the nearer limit with NV, and of a NaN 0 with NV. ITOF of an integer of magnitude up to 2^53 (2^24 with S = 1) delivers a number equal to it without a flag.
Results of FTOI and ITOF can be used two cycles after the issue, those of the others after one.
MFCS reads fcs, and MTCS writes its bits [7:0], keeping RM for a value of 4 to 7. The instruction is the one the command names, and cycles leave out stalls (log
entries 9 and 10). Bit patterns and IEEE 754 options rest on log entries 11 and 22. -/
def Obligations.FloatingComparisonsAndConversions : Prop :=
  ∀ (n : Fin 24) (d a b : Fin 32) (sp : Bool) (s : State), Ready n s → FpReady n s →
    let na := s.fpNum n a sp
    let nb := s.fpNum n b sp
    (∀ x y, scaled na = some x → scaled nb = some y →
      exec (.feq n d a b sp) s = .next (fpRetireG n d (if x = y then 1 else 0) 0 1 s) ∧
      exec (.flt n d a b sp) s = .next (fpRetireG n d (if x < y then 1 else 0) 0 1 s) ∧
      exec (.fle n d a b sp) s = .next (fpRetireG n d (if x ≤ y then 1 else 0) 0 1 s)) ∧
    (scaled na = none ∨ scaled nb = none →
      exec (.feq n d a b sp) s = .next (fpRetireG n d 0 (if na = .nan false ∨ nb = .nan false then 16 else 0) 1 s) ∧
      exec (.flt n d a b sp) s = .next (fpRetireG n d 0 16 1 s) ∧ exec (.fle n d a b sp) s = .next (fpRetireG n d 0 16 1 s)) ∧
    (∀ v : Int, scaled na = some (v * 2 ^ 1100) → -(2 ^ 63) ≤ v → v < 2 ^ 63 → exec (.ftoi n d a sp) s = .next (fpRetireG n d (BitVec.ofInt 64 v) 0 2 s)) ∧
    (∀ x, scaled na = some x → 2 ^ 63 * 2 ^ 1100 ≤ x → exec (.ftoi n d a sp) s = .next (fpRetireG n d 0x7FFFFFFFFFFFFFFF 16 2 s)) ∧
    (∀ x, scaled na = some x → x < -(2 ^ 63) * 2 ^ 1100 → exec (.ftoi n d a sp) s = .next (fpRetireG n d 0x8000000000000000 16 2 s)) ∧
    (scaled na = none → exec (.ftoi n d a sp) s = .next (fpRetireG n d 0 16 2 s)) ∧
    ((s.kr n a).toInt.natAbs ≤ (if sp then 2 ^ 24 else 2 ^ 53) → ∃ v : Word, exec (.itof n d a sp) s = .next (fpRetire n d v 0 1 2 s) ∧
      scaled ((fmtOf sp).unpack v.toNat) = some ((s.kr n a).toInt * 2 ^ 1100)) ∧
    exec (.mfcs n d) s = .next (fpRetireG n d (BitVec.ofNat 64 (s.getSeq n).fcs) 0 1 s) ∧
    (let v := ((s.kr n a).setWidth 8).toNat
     exec (.mtcs n a) s = .next (stepTo n (nextPc n s) 1 (fun x => { x with fcs := if v / 32 < 4 then v else x.fcs / 32 % 8 * 32 + v % 32 }) s))

/-- At a ready sequencer above user level over a canonical memory, with areas of the local window that are 64-byte aligned, allowed and sound: CXSL stores g1 to g7,
EPC, STATUS, WCUR and WRES, WSP, the link and the tag 0x4C, CXSU stores g8 to g15 and the accumulators, LPC, LCNT, RPTC, link and tag of the bank that PSH
names, and CXLINK becomes the area's address; CXRL (of a STATUS with LA = 0) and CXRU load the half from the area at CXLINK and set CXLINK to its link. All take
16 cycles, the restores 2 more for their loads, and no other byte changes but ECC conditions. The instruction is the one the command names, and cycles leave out stalls (log entries 9 and 10). Log
entry 12 names the model's choices for CXRL. -/
def Obligations.HalfContextSavesAndRestores : Prop :=
  ∀ (n : Fin 24) (ra : Fin 32) (s : State), Ready n s → MemOk s → (s.getSeq n).pl ≠ 0 →
    let x := s.getSeq n
    let word (t : State) (va k : Nat) : Word := BitVec.ofNat 64 (Memory.num t.mem (bankBase n + va + 8 * k) 8)
    let area (va : Nat) (store : Bool) : Prop := va % 64 = 0 ∧ va + 128 ≤ 0x10_0000 ∧ ∀ k, k < 16 → LocalOk n (va + 8 * k) store s
    let bank := if x.sb stPSH then 1 else 0
    let saved (va : Nat) (t : State) : Prop := t = { stepTo n (nextPc n s) 16 (fun x => { x with cxlink := va }) s with mem := t.mem } ∧
      word t va 14 = BitVec.ofNat 64 x.cxlink ∧
      BytesBut (fun a => (bankBase n + va ≤ a ∧ a < bankBase n + va + 128) ∨ ∃ k, k < 16 ∧ a = eccKey (bankBase n + va + 8 * k)) s t
    (let va := ((s.kr n ra).setWidth 48).toNat
     area va true →
      (∃ t, exec (.cxsl n ra) s = .next t ∧ saved va t ∧ (∀ k, k < 7 → word t va k = x.atPlace (k + 1)) ∧ word t va 7 = BitVec.ofNat 64 x.epc ∧
        word t va 8 = x.status ∧ word t va 9 = BitVec.ofNat 64 (x.wcur + x.wres * 256) ∧ word t va 10 = BitVec.ofNat 64 x.wsp ∧ word t va 15 = 0x4C) ∧
      (∃ t, exec (.cxsu n ra) s = .next t ∧ saved va t ∧ (∀ k, k < 8 → word t va k = x.atPlace (8 + 8 * bank + k)) ∧
        word t va 8 = (x.accAt (2 * bank)).setWidth 64 ∧ word t va 9 = (x.accAt (2 * bank + 1)).setWidth 64 ∧
        word t va 10 = BitVec.ofNat 64 ((x.accAt (2 * bank)).toNat / 2 ^ 64 + (x.accAt (2 * bank + 1)).toNat / 2 ^ 64 * 256) ∧ word t va 11 = x.lpc ∧
        word t va 12 = BitVec.ofNat 64 (x.lcnt + x.rptc * 2 ^ 32) ∧ word t va 15 = BitVec.ofNat 64 (0x55 + bank * 256))) ∧
    (let va := x.cxlink
     va ≠ 0 → area va false →
      (word s va 15 = 0x4C → (word s va 8).getLsbD stLA = false → ∃ t, exec (.cxrl n) s = .next t ∧ (t.getSeq n).pc = nextPc n s ∧ (t.getSeq n).cycle = (x.cycle + 18) % 2 ^ 64 ∧
        (∀ k, k < 7 → (t.getSeq n).atPlace (k + 1) = word s va k) ∧ (∀ p, 8 ≤ p → (t.getSeq n).atPlace p = x.atPlace p) ∧
        (t.getSeq n).epc = ((word s va 7).setWidth 48).toNat ∧ (t.getSeq n).wsp = ((word s va 10).setWidth 48).toNat / 64 * 64 ∧
        (t.getSeq n).cxlink = ((word s va 14).setWidth 48).toNat ∧ SeqsBut [n] s t ∧ t = { s with seqs := t.seqs }) ∧
      (∀ b, b < 2 → word s va 15 = BitVec.ofNat 64 (0x55 + b * 256) → ∃ t, exec (.cxru n) s = .next t ∧
        (t.getSeq n).pc = nextPc n s ∧ (t.getSeq n).cycle = (x.cycle + 18) % 2 ^ 64 ∧
        (∀ k, k < 8 → (t.getSeq n).atPlace (8 + 8 * b + k) = word s va k) ∧ (∀ p, ¬ (8 + 8 * b ≤ p ∧ p < 16 + 8 * b) → (t.getSeq n).atPlace p = x.atPlace p) ∧
        ((t.getSeq n).accAt (2 * b)).setWidth 64 = word s va 8 ∧ ((t.getSeq n).accAt (2 * b + 1)).setWidth 64 = word s va 9 ∧
        (t.getSeq n).lpc = word s va 11 &&& ~~~3 ∧ (t.getSeq n).lcnt = ((word s va 12).setWidth 32).toNat ∧
        (t.getSeq n).cxlink = ((word s va 14).setWidth 48).toNat ∧ SeqsBut [n] s t ∧ t = { s with seqs := t.seqs }))

/-- At a ready sequencer, a permitted MFS writes rd with STATUS, PC, EPC, CAUSE, TVEC, WCUR, WRES, WSP, CXLINK, FPOWNER, ASID, PTBASE, RPTC, LPC, LCNT or the low or
sign-extended high part of an accumulator, and a permitted MTS above user level writes EPC, CAUSE, TVEC, WSP, CXLINK, FPOWNER, PTBASE, RPTC, LPC and LCNT within
their widths, leaves WCUR alone for 7 and WRES for 6 and 7, and sets the RW fields of STATUS, where SH, TW, RP and LA keep their value; ASID holds and takes the
partition in bits [15:12] and is written in bits [11:0]; a write of WSP drops the cached mask word, and one of LPC the repeat cache. A number of 17 or more,
PC as a target, and H with another register than an accumulator raise ILL; a register that user level may not read raises PRV there. The instruction is the one
the command names, and cycles leave out stalls (log entries 9 and 10). -/
def Obligations.SpecialRegisterReadsAndWrites : Prop :=
  ∀ (n : Fin 24) (r : Fin 32) (h : Bool) (s : State), Ready n s →
    let x := s.getSeq n
    let acc (a : Nat) := x.accAt ((if x.sb stSH then 2 else 0) + a)
    let v := s.kr n r
    let part := (s.seqPart n).getD 15
    let reads (sp : Fin 32) (w : Word) : Prop := exec (.mfs n r sp false) s = .next (retire n r w 1 s)
    let writes (sp : Fin 32) (g : Seq → Seq) : Prop := exec (.mts n r sp false) s = .next (stepTo n (nextPc n s) 1 g s)
    let traps (i : Instr) (w : W32) (c : Nat) : Prop := exec i s = .next (raiseAt n w.toNat c 0 0 x.pc s)
    (reads 0 x.status ∧ reads 1 (BitVec.ofNat 64 x.pc) ∧ reads 5 (BitVec.ofNat 64 x.wcur) ∧ reads 6 (BitVec.ofNat 64 x.wres) ∧ reads 7 (BitVec.ofNat 64 x.wsp) ∧
      reads 12 (BitVec.ofNat 64 x.rptc) ∧ reads 13 x.lpc ∧ reads 14 (BitVec.ofNat 64 x.lcnt) ∧ reads 15 ((acc 0).setWidth 64) ∧ reads 16 ((acc 1).setWidth 64) ∧
      exec (.mfs n r 15 true) s = .next (retire n r (((acc 0).extractLsb' 64 8).signExtend 64) 1 s)) ∧
    (x.pl ≠ 0 → reads 2 (BitVec.ofNat 64 x.epc) ∧ reads 3 (BitVec.ofNat 64 x.cause) ∧ reads 4 (BitVec.ofNat 64 x.tvec) ∧ reads 8 (BitVec.ofNat 64 x.cxlink) ∧
      reads 9 (BitVec.ofNat 64 x.fpowner) ∧ reads 10 (BitVec.ofNat 64 (x.asid % 2 ^ 12 + part * 2 ^ 12)) ∧ reads 11 (BitVec.ofNat 64 x.ptbase)) ∧
    (x.pl ≠ 0 → writes 2 (fun x => { x with epc := (v.setWidth 48).toNat }) ∧ writes 3 (fun x => { x with cause := (v &&& 0xE00003FF).toNat }) ∧
      writes 4 (fun x => { x with tvec := ((v &&& ~~~0xFFF).setWidth 48).toNat }) ∧ writes 5 (fun x => if v &&& 7 = 7 then x else { x with wcur := (v &&& 7).toNat }) ∧
      writes 6 (fun x => if 6 ≤ (v &&& 7).toNat then x else { x with wres := (v &&& 7).toNat }) ∧
      writes 7 (fun x => { x with wsp := ((v &&& ~~~0x3F).setWidth 48).toNat, fmask := none }) ∧ writes 8 (fun x => { x with cxlink := (v.setWidth 48).toNat }) ∧
      writes 9 (fun x => { x with fpowner := (v.setWidth 48).toNat }) ∧
      writes 10 (fun x => { x with asid := (v.setWidth 12).toNat + part * 2 ^ 12 }) ∧ writes 11 (fun x => { x with ptbase := ((v &&& ~~~0xFFF).setWidth 52).toNat })) ∧
    (writes 12 (fun x => { x with rptc := min (v.setWidth 11).toNat 1024 }) ∧ writes 13 (fun x => { x with lpc := v &&& ~~~3, body := [] }) ∧
      writes 14 (fun x => { x with lcnt := (v.setWidth 32).toNat })) ∧
    (x.pl ≠ 0 → ∃ st : Word, writes 0 (fun x => { x with status := st }) ∧
      (∀ b, b < 64 → st.getLsbD b = if b = stSH ∨ b = stTW ∨ b = stRP ∨ b = stLA then x.status.getLsbD b
        else if b < 2 then (if x.pl < 2 ∧ v.getLsbD 1 then x.status.getLsbD b else v.getLsbD b)
        else if b < 4 then (if x.pl < 2 ∧ v.getLsbD 3 then x.status.getLsbD b else v.getLsbD b)
        else (decide (b < 17) && v.getLsbD b))) ∧
    (∀ sp : Fin 32, 17 ≤ sp.val ∨ (h = true ∧ sp.val < 15) → traps (.mfs n r sp h) (kMfs r sp h).word 0x05) ∧
    (∀ sp : Fin 32, 17 ≤ sp.val ∨ sp = 1 ∨ (h = true ∧ sp.val < 15) → traps (.mts n r sp h) (kMts r sp h).word 0x05) ∧
    (∀ sp : Fin 32, x.pl = 0 → (2 ≤ sp.val ∧ sp.val ≤ 4) ∨ (8 ≤ sp.val ∧ sp.val ≤ 11) → traps (.mfs n r sp false) (kMfs r sp false).word 0x06)

/-- At a ready sequencer where a trap may be taken (TW = 0 or IE = 1), SYSCALL and BREAK set EPC to the next instruction and CAUSE to the code with NEST; at a
running core with IE = 1, RPTC 0, no request, no entry of a rung and no response before it, the enabled interrupt line of lowest code sets EPC to PC and CAUSE.INT, whatever
instruction is issued there. Each previous field of STATUS takes its current field; PL becomes supervisor, IE, RP and LA 0, TW 1, and SH 1 for an interrupt only;
w14 takes the instruction word or 0 and w15 0; outstanding loads are abandoned, noted for the context that SEQ_CTXID names; PC becomes TVEC + code × 0x80; 6 cycles pass. Nothing else changes while HZ5C = 0,
but that places 94 and 95 are free of waits and the cached mask word is gone. The instruction is the one the command names, and cycles leave out stalls (log
entries 9 and 10). -/
def Obligations.TrapEntrySavesAndSwitches : Prop :=
  ∀ (n : Fin 24) (s : State) (k : Nat) (i : KIns), (s.getSeq n).sb stHZ5C = false →
    let x := s.getSeq n
    let ctx := s.f (SEQ_CTXID.CTXID n)
    let entered (code epc word : Nat) (int : Bool) (t : State) : Prop :=
      let y := t.getSeq n
      t = s.setSeq n { x with epc := epc, cause := code + (if x.sb stTW then 2 ^ 29 else 0) + (if int then 2 ^ 31 else 0), status := y.status, r := y.r,
                              pc := (x.tvec + code * 0x80) % 2 ^ 48, cycle := (x.cycle + 6) % 2 ^ 64, wait := none, loads := [],
                              again := [],
                              lost := if x.loads ++ x.again = [] ∧ (∀ l ∈ x.lost, l.1 ≠ ctx) then x.lost else (ctx, x.loads ++ x.again) :: x.lost, fmask := none,
                              soon := x.soon.filter (fun e => e.1 != 94 && e.1 != 95) } ∧
      (∀ b, b < 64 → y.status.getLsbD b =
        if b = 0 ∨ b = stTW then true else if b = 1 ∨ b = stIE ∨ b = stRP ∨ b = stLA then false
        else if b = 2 ∨ b = 3 then x.status.getLsbD (b - 2) else if b = stPIE then x.sb stIE else if b = stPSH then x.sb stSH else if b = stPTW then x.sb stTW
        else if b = stPRP then x.sb stRP else if b = stPLA then x.sb stLA else if b = stSH then (int || x.sb stSH) else x.status.getLsbD b) ∧
      y.atPlace 94 = BitVec.ofNat 64 word ∧ y.atPlace 95 = 0 ∧ (∀ p, p ≠ 94 → p ≠ 95 → y.atPlace p = x.atPlace p)
    (Ready n s → x.sb stTW = false ∨ x.sb stIE = true →
      (∃ t, exec (.syscall n) s = .next t ∧ entered 0x0E (nextPc n s) kSyscall.word.toNat false t) ∧
      (∃ t, exec (.breakI n) s = .next t ∧ entered 0x0F (nextPc n s) kBreak.word.toNat false t)) ∧
    (x.st = 2 → x.stepping = false → x.macs = [] → x.sb stIE = true → x.rptc = 0 → x.mcheck = none → s.dozes n = false → x.held = none → s.irqLine n = some k →
      ∃ t, exec (.interruptEntry n) s = .next t ∧ issue n i s = t ∧ entered (0x10 + k) x.pc 0 true t)

/-- At a ready sequencer above user level with HZ5C = 0, RETT copies each previous field of STATUS back into its current field,
sets PC to EPC in 4 cycles and changes nothing else but that the cached mask word is gone and that the loads which the latest trap of the context that SEQ_CTXID names abandoned
are to be executed again before the next instruction (log entry 65); with EPC[1:0] ≠ 0 it raises ALN for the jump target instead, and at user level PRV. -/
def Obligations.ReturnFromTrapRestoresThePreviousFields : Prop :=
  ∀ (n : Fin 24) (s : State), Ready n s →
    let x := s.getSeq n
    let mine (e : Nat × List LoadOp) : Bool := e.1 == s.f (SEQ_CTXID.CTXID n)
    (x.pl ≠ 0 → x.sb stHZ5C = false → x.epc % 4 = 0 → x.epc < 2 ^ 48 →
      ∃ st : Word, exec (.rett n) s = .next (stepTo n x.epc 4
          (fun x => { x with status := st, fmask := none, lost := x.lost.eraseP mine, again := ((x.lost.find? mine).map (·.2)).getD [] }) s) ∧
        ∀ b, b < 64 → st.getLsbD b =
          if b = 0 ∨ b = 1 then x.status.getLsbD (b + 2) else if b = stIE then x.sb stPIE else if b = stSH then x.sb stPSH else if b = stTW then x.sb stPTW
          else if b = stRP then x.sb stPRP else if b = stLA then x.sb stPLA else x.status.getLsbD b) ∧
    (x.pl ≠ 0 → x.epc % 4 ≠ 0 → exec (.rett n) s = .next (raiseAt n kRett.word.toNat 0x09 3 x.epc x.pc s)) ∧
    (x.pl = 0 → exec (.rett n) s = .next (raiseAt n kRett.word.toNat 0x06 0 0 x.pc s))

/-- At a ready sequencer: above user level MCALL sets EPC to the next instruction and, for g1 of 2 or more, g1 to −1, for g1 = 1 with no stop or repair pending, g1
to 0, and for g1 = 0, g1 to the firmware version and g2[4:0] to the partition and whether it is primary, while g2[63:5] stay; ISYNC takes 8 cycles and
empties the fetch buffer, the instruction cache and the repeat cache; FENCE takes 1 with no posted store pending or waiting in an island's port; neither changes anything else. DMARESUME on a
suspended channel of its own partition writes 1, sets the channel running with its descriptor to be read again and takes its fault entry out of every queue, on
one that is not suspended writes 0, and changes nothing else either way; on another partition's channel it raises AV. At user level MCALL and DMARESUME raise PRV. The instruction is the one the command names, and cycles leave
out stalls (log entries 9 and 10). -/
def Obligations.MonitorCallsFencesAndChannelResumes : Prop :=
  ∀ (n : Fin 24) (rd ra : Fin 32) (s : State), Ready n s →
    let x := s.getSeq n
    let g1 := s.kr n 1
    let c := (s.kr n ra).toNat % 64
    let called (g : Seq → Seq) : Prop := exec (.mcall n) s = .next (stepTo n (nextPc n s) 1 (fun x => g { x with epc := nextPc n s }) s)
    (x.pl ≠ 0 → 2 ≤ g1.toNat → called (fun x => x.put 1 0xFFFFFFFFFFFFFFFF)) ∧
    (x.pl ≠ 0 → g1 = 1 → (s.primaryOf n).bind s.autoPending = none → called (fun x => x.put 1 0)) ∧
    (x.pl ≠ 0 → g1 = 0 → ∃ v w : Word, called (fun x => (x.put 1 v).put 2 w) ∧ v.toNat < 2 ^ 32 ∧ w.toNat % 16 = ((s.seqPart n).getD 15) % 16 ∧
      w.getLsbD 4 = (s.primaryOf n).isSome ∧ ∀ b, 5 ≤ b → w.getLsbD b = (s.kr n 2).getLsbD b) ∧
    exec (.isync n) s = .next (stepTo n (nextPc n s) 8 (fun x => { x with blocks := [], body := [] }) s) ∧
    (x.errs = [] → s.storesWait n none = false → exec (.fence n) s = .next (stepTo n (nextPc n s) 1 id s)) ∧
    (x.pl ≠ 0 → s.seqPart n = some (s.chPart c) → s.f (DMA_CH_CSR.STATE c) ≠ 2 → exec (.dmaresume n rd ra) s = .next (retire n rd 0 1 s)) ∧
    (x.pl ≠ 0 → s.seqPart n = some (s.chPart c) → s.f (DMA_CH_CSR.STATE c) = 2 → ∃ t, exec (.dmaresume n rd ra) s = .next t ∧
      t.f (DMA_CH_CSR.STATE c) = 1 ∧ t.getCh c = { s.getCh c with loaded := false } ∧ (∀ d, d ≠ c → t.getCh d = s.getCh d) ∧
      (∀ j, let y := (retire n rd 1 1 s).getSeq j
        t.getSeq j = { y with dmaq := y.dmaq.filter (fun e => e.stream || e.port != 0 || e.index != c) }) ∧
      FieldsBut [DMA_CH_CSR.STATE c] s t ∧ t = { s with regs := t.regs, seqs := t.seqs, dmas := t.dmas }) ∧
    (x.pl ≠ 0 → s.seqPart n ≠ some (s.chPart c) → exec (.dmaresume n rd ra) s = .next (raiseAt n (kDmaresume rd ra).word.toNat 0x0B 0 0 x.pc s)) ∧
    (x.pl = 0 → exec (.mcall n) s = .next (raiseAt n kMcall.word.toNat 0x06 0 0 x.pc s) ∧
      exec (.dmaresume n rd ra) s = .next (raiseAt n (kDmaresume rd ra).word.toNat 0x06 0 0 x.pc s))

/-- At a ready sequencer with TW = 1 and IE = 0, SYSCALL and BREAK and an FP instruction with the unit disabled do not take their exception: the core goes to state
4 (DFAULT), its EPC, CAUSE, STATUS, PC and registers stay as they are, and, unless a machine check record is valid already, SEQ_MCHK records KIND 5 with the
code, SEQ_MCHK_PC the address of the instruction and SEQ_MCHK_VA 0. The instruction is the one the command names, and cycles leave out stalls (log entries 9 and 10). -/
def Obligations.ExceptionsWhileTrapsAreOffStopTheCore : Prop :=
  ∀ (n : Fin 24) (d a b : Fin 32) (sp : Bool) (s : State), Ready n s → (s.getSeq n).sb stTW = true → (s.getSeq n).sb stIE = false →
    let x := s.getSeq n
    let stops (code : Nat) (i : Instr) : Prop := ∃ t, exec i s = .next t ∧ t.getSeq n = { x with st := 4 } ∧ SeqsBut [n] s t ∧ t.mem = s.mem ∧
      (s.f (SEQ_MCHK.VALID n) = 0 → t.f (SEQ_MCHK.VALID n) = 1 ∧ t.f (SEQ_MCHK.KIND n) = 5 ∧ t.f (SEQ_MCHK.CODE n) = code ∧
        t.rd (SEQ_MCHK_PC n) = BitVec.ofNat 64 x.pc ∧ t.rd (SEQ_MCHK_VA n) = 0)
    stops 0x0E (.syscall n) ∧ stops 0x0F (.breakI n) ∧ (x.sb stFPEN = false → stops 0x07 (.fadd n d a b sp))

/-- At a ready sequencer: on the primary of a partition and with no parameter write of its own still queued, ACTX adds its broadcast, with plane and mode, and FORK
its arming, with fork set and planes, to what is on its way to every island of the partition and to no other; on any sequencer of a partition, MOULT for a row
of the partition puts one token with the plane, ra[23:0] and the stream mask rb[15:0] on its way, none for an empty mask, and APARM with a permitted scope puts
the write of word k with ra[31:0] in its queue while that holds fewer than 8. Each takes one cycle and changes nothing else. On a sequencer of no partition
MOULT and APARM, and on one that is no primary ACTX and FORK, raise AOW. PARAMETER_DELIVERY takes the oldest write of the
sequencer that is served next once every island it names has a running clock; each of them that no capture holds and nothing waits at holds the value in the word it names, each
other one keeps the write with what waits there, and no other parameter word changes; while the clock of one is stopped nothing happens. On a sequencer of a partition
MOULT_TOKEN_ENTRY takes the oldest token off its way and changes nothing of any sequencer's state besides, or, while a capture holds the partition, notes that it has arrived. The instruction is the one the
command names, and cycles leave out stalls (log entries 9 and 10). -/
def Obligations.ArrayControlInstructionsAndTheirArrivals : Prop :=
  (∀ (n : Fin 24) (ra rb : Fin 32) (plane row col k : BitVec 4) (fenced east : Bool) (fs : Fin 4) (fp pp : BitVec 4) (scope : BitVec 2) (s : State), Ready n s →
     let x := s.getSeq n
     let go : State := stepTo n (nextPc n s) 1 id s
     let reaches (p : Nat) (g : Isl → Isl) (i : Instr) : Prop := ∃ t, exec i s = .next t ∧ t = { go with isl := t.isl } ∧
       ∀ j, t.getIsl j = if j ∈ s.islandsOf p then g (s.getIsl j) else s.getIsl j
     let owned (w : W32) (i : Instr) : Prop := exec i s = .next (raiseAt n w.toNat 0x08 0 0 x.pc s)
     (∀ p, s.primaryOf n = some p → x.params = [] →
       reaches p (fun y => { y with bcasts := y.bcasts ++ [{ fenced := fenced, plane := plane }] }) (.actx n plane fenced) ∧
       reaches p (fun y => { y with forkIn := y.forkIn ++ [(fs.val, fp.toNat, pp.toNat)] }) (.fork n fs fp pp)) ∧
     (∀ p r, s.seqPart n = some p → (s.rowsOf p)[row.toNat]? = some r → x.params = [] →
       exec (.moult n ra rb plane row east) s = .next (if (s.kr n rb).setWidth 16 = 0 then go else stepTo n (nextPc n s) 1 (fun x => { x with moults := x.moults ++
         [{ row := r, east := east, mask := ((s.kr n rb).setWidth 16).toNat, plane := plane.toNat, tag := ((s.kr n ra).setWidth 24).toNat }] }) s)) ∧
     (∀ p, s.seqPart n = some p → x.params.length < 8 → col.toNat < 12 →
       (scope = 3 → row = 0 → col = 0 → exec (.aparm n ra scope row col k) s = .next (stepTo n (nextPc n s) 1 (fun x => { x with params := x.params ++
         [{ scope := scope.toNat, row := 0, col := 0, k := k.toNat, value := (s.kr n ra).setWidth 32 }] }) s)) ∧
       (∀ r, scope = 0 → (s.rowsOf p)[row.toNat]? = some r → exec (.aparm n ra scope row col k) s = .next (stepTo n (nextPc n s) 1 (fun x => { x with params := x.params ++
         [{ scope := 0, row := row.toNat, col := col.toNat, k := k.toNat, value := (s.kr n ra).setWidth 32 }] }) s))) ∧
     (s.primaryOf n = none → owned (kActx plane fenced).word (.actx n plane fenced) ∧ owned (kFork fs fp.toNat pp.toNat).word (.fork n fs fp pp)) ∧
     (s.seqPart n = none → owned (kMoult ra rb plane.toNat row.toNat east).word (.moult n ra rb plane row east) ∧
       (scope = 3 → row = 0 → col = 0 → owned (kAparm ra scope.toNat 0 0 k.toNat).word (.aparm n ra scope row col k)))) ∧
  (∀ (p : Fin 12) (n q : Fin 24) (w : ParamWrite) (rest : List ParamWrite) (m : MoultTok) (more : List MoultTok) (s : State),
     (let isles := s.paramIsles p w.scope w.row w.col
      let now (i : Nat) : Prop := i ∈ isles ∧ s.islRuns i = true ∧ (s.getIsl i).arrived = []
      s.busNext p = some q.val → (s.getSeq q).params = w :: rest → w.k < 16 → (∀ i ∈ isles, i < 156) →
      ((∀ i ∈ isles, s.islClk i = true) →
        ∃ t, exec (.parameterDelivery p) s = .next t ∧ (t.getSeq q).params = rest ∧ (t.getPart p).served = q ∧
          (∀ i k, i < 156 → k < 16 → (now i ∧ k = w.k → t.f (ISL_PARAM.VALUE i k) = w.value.toNat) ∧
            (¬ (now i ∧ k = w.k) → t.f (ISL_PARAM.VALUE i k) = s.f (ISL_PARAM.VALUE i k))) ∧
          (∀ i, i ∈ isles → ¬ now i → t.getIsl i = { s.getIsl i with arrived := (s.getIsl i).arrived ++ [.param w.k w.value] }) ∧
          (∀ i, i ∉ isles ∨ now i → t.getIsl i = s.getIsl i) ∧
          SeqsBut [q.val] s t ∧ t = { s with regs := t.regs, isl := t.isl, seqs := t.seqs, parts := t.parts }) ∧
      ((∃ i ∈ isles, s.islClk i = false) → exec (.parameterDelivery p) s = .next s)) ∧
     ((s.getSeq n).moults = m :: more → s.seqPart n = some p.val →
       (s.partFrozen p = false → ∃ t, exec (.moultTokenEntry n) s = .next t ∧ t.getSeq n = { s.getSeq n with moults := more } ∧ SeqsBut [n.val] s t ∧
         t = { s with seqs := t.seqs, lanes := t.lanes, msps := t.msps }) ∧
       (s.partFrozen p = true → m.due = false →
         exec (.moultTokenEntry n) s = .next (s.setSeq n { s.getSeq n with moults := { m with due := true } :: more }))))

/-- At a ready sequencer that is the primary of a partition, with a word-aligned PC: BRF goes to pc + sext(off16) × 4 in 2 cycles when the flag it names stands as
its condition asks, else on in 1; with C it clears FAILS unless the flag is asserted, with V it sends the resolution of fork set k, fail when the tested flag
is 1, to every island of the partition, and without either it changes nothing else; a set without V raises ILL. AWAIT on a mask that selects a pending event, or bit 19 while the partition
is drained, writes the selected bits to rd and goes on, and else waits in state 3 with its mask and timeout; a waiting AWAIT with a timeout returns at its
timeout, with 0 unless an event of its mask stands then, and passes that many cycles; FREEZE with no capture held or under way sends the freeze command to every island of the partition and sets ERR_CAPn.STATE
to 1, with V and a held capture it releases every island, sets STATE to 0 and lets the MOULT tokens that arrived during the capture enter their streams, and it goes on. The instruction is the one the command names, and cycles leave out
stalls (log entries 9 and 10). -/
def Obligations.BranchesOnFailAwaitsAndFreezes : Prop :=
  (∀ (n : Fin 24) (rd ra rb : Fin 32) (cond : Fin 4) (off : BitVec 16) (p : Nat) (s : State), Ready n s → s.primaryOf n = some p → (s.getSeq n).pc % 4 = 0 →
    let x := s.getSeq n
    let pc : BitVec 48 := BitVec.ofNat 48 x.pc
    let flag := if cond.val % 2 = 0 then s.f (SEQ_PFLAG.FAILS n) = 1 else s.f (SEQ_PFLAG.FAILL n) = 1
    let mask := ((s.kr n ra).setWidth 24).toNat
    let due := (s.f (SEQ_AEV_PEND.PEND n) ||| (if s.drained p then 2 ^ 19 else 0)) &&& mask
    ((flag ↔ cond.val < 2) → exec (.brf n cond false false 0 off) s = .next (stepTo n (pc + off.signExtend 48 * 4).toNat 2 id s)) ∧
    (¬ (flag ↔ cond.val < 2) → exec (.brf n cond false false 0 off) s = .next (stepTo n (nextPc n s) 1 id s)) ∧
    (∀ (c v : Bool) (k : Fin 4),
      let tested := s.on (if cond.val % 2 = 0 then SEQ_PFLAG.FAILS n else SEQ_PFLAG.FAILL n)
      (v = true ∨ k = 0 → ∃ t, exec (.brf n cond c v k off) s = .next t ∧
        (t.getSeq n = { x with pc := if (flag ↔ cond.val < 2) then (pc + off.signExtend 48 * 4).toNat else nextPc n s,
                               cycle := (x.cycle + if (flag ↔ cond.val < 2) then 2 else 1) % 2 ^ 64 }) ∧ SeqsBut [n] s t ∧
        t.f (SEQ_PFLAG.FAILS n) = (if c = true ∧ s.pf0 p = false then 0 else s.f (SEQ_PFLAG.FAILS n)) ∧
        (∀ i, t.getIsl i = if v = true ∧ i ∈ s.islandsOf p then { s.getIsl i with resIn := (s.getIsl i).resIn ++ [(k.val, tested, (s.getIsl i).forkIn.length)] }
          else s.getIsl i) ∧ t = { s with seqs := t.seqs, regs := t.regs, isl := t.isl, ring := t.ring } ∧ (c = false → t.regs = s.regs ∧ t.ring = s.ring)) ∧
      (v = false → k ≠ 0 → exec (.brf n cond c v k off) s = .next (raiseAt n (kBrf cond c v k off.toNat).word.toNat 0x05 0 0 x.pc s))) ∧
    (due ≠ 0 → exec (.await n rd ra rb) s = .next (retire n rd (BitVec.ofNat 64 due) 1 s)) ∧
    (due = 0 → exec (.await n rd ra rb) s = .next (s.setSeq n { x with st := 3, wait := some { mask := mask, rd := rd, limit := ((s.kr n rb).setWidth 32).toNat } })) ∧
    (s.f (ERR_CAP.STATE p) = 0 → ∃ t, exec (.freeze n false) s = .next t ∧ t.f (ERR_CAP.STATE p) = 1 ∧
      (∀ i, t.getIsl i = if i ∈ s.islandsOf p then { s.getIsl i with freezeCmd := true } else s.getIsl i) ∧
      FieldsBut [ERR_CAP.STATE p] s t ∧ t = { stepTo n (nextPc n s) 1 id s with isl := t.isl, regs := t.regs }) ∧
    (s.f (ERR_CAP.STATE p) = 2 → ∃ t, exec (.freeze n true) s = .next t ∧ t.f (ERR_CAP.STATE p) = 0 ∧
      (∀ i, t.getIsl i = if i ∈ s.islandsOf p then { s.getIsl i with frozen := false, freezeCmd := false } else s.getIsl i) ∧
      (∀ q, let y := (stepTo n (nextPc n s) 1 id s).getSeq q
        t.getSeq q = { y with moults := if q ∈ s.seqsOf p then y.moults.dropWhile (·.due) else y.moults }) ∧
      ((∀ q ∈ s.seqsOf p, ∀ m ∈ (s.getSeq q).moults, m.due = false) → t = { stepTo n (nextPc n s) 1 id s with isl := t.isl, regs := t.regs }) ∧
      FieldsBut [ERR_CAP.STATE p] s t ∧ t = { s with isl := t.isl, regs := t.regs, seqs := t.seqs, lanes := t.lanes, msps := t.msps })) ∧
  (∀ (n : Fin 24) (w : AwaitOp) (v : Nat) (s : State), (s.getSeq n).st = 3 → (s.getSeq n).wait = some w → w.limit ≠ 0 → (s.getSeq n).stepping = false → (s.getSeq n).sb stLA = false →
    (s.getSeq n).macs = [] → (s.getSeq n).loads = [] → s.f (SEQ_CTL.RUN n) = 1 → (∀ p, s.primaryOf n = some p → s.f (GLB_PART_CFG.STATE p) = stRUNNING) →
    v = (if let some p := s.primaryOf n then (s.f (SEQ_AEV_PEND.PEND n) ||| (if s.drained p then 2 ^ 19 else 0)) &&& w.mask else 0) →
    exec (.awaitTimeout n) s = .next (stepTo n (nextPc n s) (w.limit + 1) (fun x => Seq.put { x with st := 2, wait := none } w.rd (BitVec.ofNat 64 v)) s))

/-- On a sequencer whose clock runs: SEQ_RUN with 1 sets RUN and takes a halted core of an enabled partition to state 2; with 0 it clears RUN and takes a running
core with RPTC 0, and a waiting one, to state 1; SEQ_RESET leaves the core halted at SEQ_BOOT.ADDR with STATUS 5, every register, accumulator and window pointer
0, the bank as it was and RUN 0. For a sequencer that is no primary nothing else changes; for the primary of a STOPPED partition the start sets the partition's
STATE to RUNNING, and for one of a RUNNING partition the halt and the reset set it to STOPPED. A running core with nothing before its instruction whose fetch
buffer is empty fetches the block of PC, in four sound words of its local window, and then issues as it does with that block held. SEQ_STEP on a halted core
that is no primary, outside a loop and a repeat, with nothing in flight or to be executed again and an empty fetch buffer, and PC in such a block at a word that spells ADDI rd, ra,
imm, clears RUN, writes ra + sext(imm16) to rd, goes on after one cycle and leaves the core halted with the block held. -/
def Obligations.SequencerRunHaltAndReset : Prop :=
  (∀ (n : Fin 24) (s : State), s.seqClk n = true →
    let x := s.getSeq n
    let put (x' : Seq) (run : Nat) : State := (s.setF (SEQ_CTL.RUN n) run).setSeq n x'
    (s.primaryOf n = none →
      ((s.seqPart n).isSome = true → x.st = 1 → exec (.seqRun n true) s = .next (put { x with st := 2 } 1)) ∧
      ((x.st = 2 ∧ x.rptc = 0) ∨ x.st = 3 → exec (.seqRun n false) s = .next (put { x with st := 1, wait := none } 0)) ∧
      (∃ y, exec (.seqReset n) s = .next ((s.setSeq n y).setF (SEQ_CTL.RUN n) 0) ∧ y.st = 1 ∧ y.pc = s.f (SEQ_BOOT.ADDR n) * 4 ∧ y.status = 5 ∧
        (∀ k, k < 32 → y.reg k = 0) ∧ (∀ p, y.atPlace p = 0) ∧ (∀ a, y.accAt a = 0) ∧ y.fcs = 0 ∧ y.wcur = 0 ∧ y.wres = 0 ∧ y.wsp = 0 ∧
        y.rptc = 0 ∧ y.lpc = 0 ∧ y.lcnt = 0)) ∧
    (∀ p, s.primaryOf n = some p →
      ((s.seqPart n).isSome = true → x.st = 1 → s.f (GLB_PART_CFG.STATE p) = 2 → ∃ t, exec (.seqRun n true) s = .next t ∧ t.getSeq n = { x with st := 2 } ∧ t.f (GLB_PART_CFG.STATE p) = 3 ∧ t.mem = s.mem) ∧
      (x.st = 2 → x.rptc = 0 → s.f (GLB_PART_CFG.STATE p) = 3 →
        ∃ t, exec (.seqRun n false) s = .next t ∧ t.getSeq n = { x with st := 1, wait := none } ∧ t.f (GLB_PART_CFG.STATE p) = 2 ∧ t.mem = s.mem) ∧
      (s.f (GLB_PART_CFG.STATE p) = 3 → ∃ t, exec (.seqReset n) s = .next t ∧ (t.getSeq n).st = 1 ∧ t.f (GLB_PART_CFG.STATE p) = 2 ∧ t.mem = s.mem))) ∧
  (∀ (n : Fin 24) (rd ra : Fin 32) (imm : BitVec 16) (s : State), (s.getSeq n).st = 1 → s.primaryOf n = none → (s.getSeq n).stepping = false →
    (s.getSeq n).sb stRP = false → (s.getSeq n).sb stLA = false → (s.getSeq n).macs = [] → (s.getSeq n).loads = [] → (s.getSeq n).again = [] → (s.getSeq n).rptc = 0 →
    s.seqClk n = true → (∀ e ∈ (s.getSeq n).soon, e.2 ≤ (s.getSeq n).cycle) → NearBlock n s → (s.getSeq n).pc % 4 = 0 →
    Memory.num s.mem (bankBase n + (s.getSeq n).pc) 4 = 0x02 * 2 ^ 26 + rd.val * 2 ^ 21 + ra.val * 2 ^ 16 + imm.toNat →
    exec (.seqStep n) s = .next (retire n rd (s.kr n ra + imm.signExtend 64) 1 (holdingBlock n (s.setF (SEQ_CTL.RUN n) 0)))) ∧
  (∀ (n : Fin 24) (k : KIns) (s : State), (s.getSeq n).st = 2 → (s.getSeq n).sb stLA = false → (s.getSeq n).mcheck = none → s.dozes n = false → (s.getSeq n).again = [] →
    ((s.getSeq n).holds = true ∨ (s.getSeq n).held = none) → s.irqTaken n = none → NearBlock n s → issue n k s = issue n k (holdingBlock n s))

/-- On a sequencer whose clock runs: SEQ_CLRERR clears SEQ_BANK_ERR and SEQ_CLRCOLL clears SEQ_BANK_COLL; AEV_PEND_CLEAR clears the pending bits written 1 and their
SEQ_AEV_SRC; DOORBELL_SET sets the doorbells written 1 and keeps the others; on the primary of a partition INTAKE_HOLD writes INHOLD, and PARTITION_FLAG_DRIVE
writes PFDRV and puts its lines PF1 to PF3 on every island of the partition; on another sequencer both change nothing. Each leaves everything else as it was; on
a sequencer whose clock is stopped each is one more gated access. With a primary n of partition p: PARTITION_FAIL_FLAG with the flag standing, or
driven since it was last seen, sets FAILS and FAILL, and otherwise clears FAILL and leaves FAILS; ARRAY_EVENT takes the oldest event of the partition off the control net, sets its pending bit,
counts one more occurrence, and records the source when none was recorded since the bit was last clear, while a primary that does not wait in AWAIT keeps its
core's state; a flag raised first is seen no later than the event. Where no rule says so, that a command whose condition does not hold changes nothing is the model's choice (log entry 1). -/
def Obligations.SequencerRegistersAndThePrimarysEvents : Prop :=
  (∀ (n : Fin 24) (bits : BitVec 24) (bells : BitVec 16) (hold : Bool) (drv : BitVec 3) (s : State),
     (s.seqClk n = true →
       (∃ t, exec (.seqClrerr n) s = .next t ∧ t.rd (SEQ_BANK_ERR n) = 0 ∧ OnlyFields [whole (SEQ_BANK_ERR n)] s t) ∧
       (∃ t, exec (.seqClrcoll n) s = .next t ∧ t.rd (SEQ_BANK_COLL n) = 0 ∧ OnlyFields [whole (SEQ_BANK_COLL n)] s t) ∧
       (∃ t, exec (.aevPendClear n bits) s = .next t ∧
         (∀ k, k < 24 → t.f ((SEQ_AEV_PEND.PEND n).bit k) = (if bits.getLsbD k then 0 else s.f ((SEQ_AEV_PEND.PEND n).bit k)) ∧
           t.rd (SEQ_AEV_SRC n k) = (if bits.getLsbD k then 0 else s.rd (SEQ_AEV_SRC n k))) ∧
         OnlyFields (SEQ_AEV_PEND.PEND n :: (List.range 24).map (fun k => whole (SEQ_AEV_SRC n k))) s t) ∧
       (∃ t, exec (.doorbellSet n bells) s = .next t ∧ (∀ k, k < 16 → t.f ((SEQ_DBELL.PEND n).bit k) = (if bells.getLsbD k then 1 else s.f ((SEQ_DBELL.PEND n).bit k))) ∧
         OnlyFields [SEQ_DBELL.PEND n] s t) ∧
       (∀ p, s.primaryOf n = some p →
         (∃ t, exec (.intakeHold n hold) s = .next t ∧ t.f (SEQ_PFLAG.INHOLD n) = (if hold then 1 else 0) ∧ OnlyFields [SEQ_PFLAG.INHOLD n] s t) ∧
         (∃ t, exec (.partitionFlagDrive n drv) s = .next t ∧ t.f (SEQ_PFLAG.PFDRV n) = drv.toNat ∧
           (∀ i, t.getIsl i = if i ∈ s.islandsOf p then { s.getIsl i with pf := drv ++ (0 : BitVec 1) } else s.getIsl i) ∧
           FieldsBut [SEQ_PFLAG.PFDRV n] s t ∧ t = { s with regs := t.regs, isl := t.isl })) ∧
       (s.primaryOf n = none → exec (.intakeHold n hold) s = .next s ∧ exec (.partitionFlagDrive n drv) s = .next s)) ∧
     (s.seqClk n = false → ∀ i ∈ [Instr.seqClrerr n, .seqClrcoll n, .aevPendClear n bits, .doorbellSet n bells, .intakeHold n hold, .partitionFlagDrive n drv],
       ∃ t, exec i s = .next t ∧ t.f GLB_GATED_ACCESS.COUNT = min (s.f GLB_GATED_ACCESS.COUNT + 1) GLB_GATED_ACCESS.COUNT.max ∧
         OnlyFields [GLB_GATED_ACCESS.COUNT, GLB_GATED_ACCESS.OFFSET] s t)) ∧
  (∀ (p : Fin 12) (n : Fin 24) (e : AEv) (s : State), s.primary p = some n.val →
     (s.pf0 p = true ∨ s.pf0Rose p = true → ∃ t, exec (.partitionFailFlag p) s = .next t ∧ t.f (SEQ_PFLAG.FAILS n) = 1 ∧ t.f (SEQ_PFLAG.FAILL n) = 1 ∧
       t.pf0Rose p = false) ∧
     (s.pf0 p = false → s.pf0Rose p = false → ∃ t, exec (.partitionFailFlag p) s = .next t ∧ t.f (SEQ_PFLAG.FAILS n) = s.f (SEQ_PFLAG.FAILS n) ∧ t.f (SEQ_PFLAG.FAILL n) = 0 ∧
       t = { s with regs := t.regs, parts := t.parts }) ∧
     (s.aev.find? (fun e => e.part == p.val) = some e → e.bit < 24 → (s.getSeq n).wait = none → s.pf0 p = true ∨ s.pf0Rose p = true →
       ∃ t, exec (.arrayEvent p) s = .next t ∧ t.f (SEQ_PFLAG.FAILS n) = 1 ∧ t.f ((SEQ_AEV_PEND.PEND n).bit e.bit) = 1) ∧
     (s.aev.find? (fun e => e.part == p.val) = some e → e.bit < 24 → (s.getSeq n).wait = none → s.pf0 p = false → s.pf0Rose p = false →
       let fresh := s.f ((SEQ_AEV_PEND.PEND n).bit e.bit) = 0 ∨ s.f (SEQ_AEV_SRC.VALID n e.bit) = 0
       ∃ t, exec (.arrayEvent p) s = .next t ∧ t = { s with regs := t.regs, aev := s.aev.erase e } ∧ t.f ((SEQ_AEV_PEND.PEND n).bit e.bit) = 1 ∧
         t.f (SEQ_AEV_SRC.VALID n e.bit) = 1 ∧
         (fresh → t.f (SEQ_AEV_SRC.SRC n e.bit) = e.src % 256 ∧ t.f (SEQ_AEV_SRC.KIND n e.bit) = e.kind % 2 ∧ t.f (SEQ_AEV_SRC.COUNT n e.bit) = 1) ∧
         (¬ fresh → t.f (SEQ_AEV_SRC.SRC n e.bit) = s.f (SEQ_AEV_SRC.SRC n e.bit) ∧ t.f (SEQ_AEV_SRC.COUNT n e.bit) = min (s.f (SEQ_AEV_SRC.COUNT n e.bit) + 1) 255)))

/-- On a bank whose sequencer's clock runs, over a canonical memory: a read within the bank from sound ECC words returns the little-endian data and changes
nothing; a write of sound words puts its low bytes there and changes no other byte but the ECC conditions; a write that meets the owner's write of the same ECC
word changes no memory, counts one drop and records the first address. On a bank whose sequencer's clock is stopped both end with a bus error and change
nothing. An access of a size other than 1, 2, 4 or 8 bytes, or not aligned to its size, is one of each of its bytes (log entry 51). -/
def Obligations.BankAccessesAtTheExternalPort : Prop :=
  ∀ (n : Fin 24) (off : BitVec 20) (size : Fin 9) (data : Word) (clash : Bool) (s : State), MemOk s →
    let a := bankBase n + off.toNat
    (s.seqClk n = true → off.toNat + size.val ≤ 0x10_0000 → (∀ k, k < size.val → s.ecc (a + k) = 0) →
      exec (.sequencerBankAccess n (.read off size) clash) s = .next (s.emit (.read (BitVec.ofNat 64 (Memory.num s.mem a size)))) ∧
      (∃ t, exec (.sequencerBankAccess n (.write off size data) false) s = .next t ∧ t = { s with mem := t.mem } ∧
        (∀ k, k < size.val → t.byte (a + k) = BitVec.ofNat 8 (data.toNat / 256 ^ k) ∧ t.ecc (a + k) = 0) ∧
        BytesBut (fun b => (a ≤ b ∧ b < a + size.val) ∨ ∃ k, k < size.val ∧ b = eccKey (a + k)) s t)) ∧
    (size.val ≠ 0 → s.seqClk n = true → ∃ t, exec (.sequencerBankAccess n (.write off size data) true) s = .next t ∧
      t.f (SEQ_BANK_COLL.COUNT n) = min (s.f (SEQ_BANK_COLL.COUNT n) + 1) 4095 ∧
      (s.f (SEQ_BANK_COLL.COUNT n) = 0 → t.f (SEQ_BANK_COLL.FADDR n) = off.toNat / 8 * 8) ∧
      FieldsBut [SEQ_BANK_COLL.COUNT n, SEQ_BANK_COLL.FADDR n] s t ∧ t = { s with regs := t.regs, out := s.out ++ [.collided] }) ∧
    (size.val ≠ 0 → s.seqClk n = false → exec (.sequencerBankAccess n (.read off size) clash) s = .next (s.emit .busError) ∧
      exec (.sequencerBankAccess n (.write off size data) clash) s = .next (s.emit .busError))

/-- SEQ_TIMER_EXPIRY with EN set lets the count reach CMP, after which the timer line is pending; a machine check for a state read at a running core with RPTC 0
leaves the core as it was, and one for a parity error that firmware cannot correct takes it to DFAULT with KIND 6; a bus error response at a running core that
may take a trap sets EPC to PC, CAUSE to 0x0C with IMP and ACC 1, w14 to the store's word and w15 to its address, and goes to TVEC + 0x600, and one that may not is held; SEQ_DMAFQ_READ returns the oldest
entry of the running context and removes it, or 0. -/
def Obligations.TimersMachineChecksAndLateErrors : Prop :=
  ∀ (n : Fin 24) (r : PostErr) (rest : List PostErr) (e : FaultEntry) (s : State),
    let x := s.getSeq n
    (s.seqClk n = true → x.st ≠ 5 → s.f (SEQ_TIMER.EN n) = 1 → x.cycle < s.f (SEQ_TIMER.CMP n) → x.macs = [] →
      ∃ t, exec (.seqTimerExpiry n) s = .next t ∧ t = s.setSeq n { x with cycle := s.f (SEQ_TIMER.CMP n) } ∧ bitOf (t.irqPend n) 3 = true) ∧
    (x.st = 2 → x.rptc = 0 → x.mcheck = none → s.firmOn = true →
      exec (.machineCheck n 2) s = .next (s.setSeq n x) ∧
      (∃ t, exec (.machineCheck n 4) s = .next t ∧ t.getSeq n = { x with st := 4, stepping := false } ∧ t.mem = s.mem ∧
        (s.f (SEQ_MCHK.VALID n) = 0 → t.f (SEQ_MCHK.KIND n) = 6 ∧ t.f (SEQ_MCHK.VALID n) = 1))) ∧
    (x.errs = r :: rest → x.held = none → x.st = 2 →
      (x.sb stTW = false ∨ x.sb stIE = true → x.macs = [] → ∃ t, exec (.postedStoreBusError n) s = .next t ∧ (t.getSeq n).errs = rest ∧ (t.getSeq n).epc = x.pc ∧
        (t.getSeq n).cause = 0x0C + 0x100 + (if x.sb stTW then 2 ^ 29 else 0) + 2 ^ 30 ∧ (t.getSeq n).pc = (x.tvec + 0x600) % 2 ^ 48 ∧
        (t.getSeq n).atPlace 94 = BitVec.ofNat 64 r.word ∧ (t.getSeq n).atPlace 95 = BitVec.ofNat 64 r.va) ∧
      (x.sb stTW = true → x.sb stIE = false → ∃ t, exec (.postedStoreBusError n) s = .next t ∧ t.getSeq n = { x with errs := rest, held := some r })) ∧
    (s.seqClk n = true →
      (x.dmaq.find? (fun e => e.ctx == s.f (SEQ_CTXID.CTXID n)) = some e → e.port < 32 → e.index < 64 →
        exec (.seqDmafqRead n) s = .next ((s.setSeq n { x with dmaq := x.dmaq.erase e }).emit
          (.read (BitVec.ofNat 64 (2 ^ 31 + (if e.stream then 2 ^ 30 else 0) + e.port * 2 ^ 24 + e.index))))) ∧
      ((∀ e ∈ x.dmaq, e.ctx ≠ s.f (SEQ_CTXID.CTXID n)) → exec (.seqDmafqRead n) s = .next (s.emit (.read 0))))

/-- A unit that can fire puts one firing with its operation and operands at the end of its pipeline, and one that cannot is left as it is; other islands keep their
state, and so does all memory while no queue has a word in its combining buffer. For a unit whose output nothing takes and is free, the oldest firing: skipped, passes A on, or nothing with DROP, without touching
flags or accumulator; ADD gives a + b with status the OR of its operands, tags by UT, and Z, N, C and V of the sum; MAC without emission adds the exact signed
product to the accumulator and its operands' status to the poison bit, or pins the accumulator at the nearer limit of 72 bits with AOV; ACLR clears it with
flags Z only. PLD loads the table that K[0] names from 32 bytes of island memory and passes A on. HINC adds 1 to the counter of its bin, stopping at
0xFFFF_FFFF, with C for a clamped bin and V for a full one, and changes no other byte of data. Where no rule says so, that a command whose condition does not
hold changes nothing is the model's choice (log entry 1). The moment at which a unit takes an entry rests on log entry 17. -/
def Obligations.WordUnitsFireAndDeliverTheirResults : Prop :=
  ∀ (i : Fin 156) (u : Fin 16) (s : State),
    let w := s.getWu i u
    let op := s.curOp i u
    (s.canFire i u = true → ∃ t e, exec (.wordUnitFiring i u false) s = .next t ∧ (t.getWu i u).pipe = w.pipe ++ [e] ∧ e.opw = BitVec.ofNat 32 op ∧
      (s.used i u 0 = true → e.a = (s.inHead i u 0).getD 0) ∧ (s.used i u 1 = true → e.b = (s.inHead i u 1).getD 0) ∧ (t.getWu i u).acc = w.acc ∧
      IslesBut [i.val] s t ∧ ((s.getIsl i).comb = [] → t.mem = s.mem) ∧ (s.used i u 2 = false → IslandOnly i s t)) ∧
    (s.canFire i u = false → exec (.wordUnitFiring i u false) s = .next s) ∧
    (s.islRuns i = true → exec (.wordUnitFiring i u true) s = exec (.wordUnitFiring i u false) (islandEdge i s)) ∧
    (∀ e rest, s.islRuns i = true → w.pipe = e :: rest → w.out = [] → e.tok = none → Unread i u s →
      let code := opc e.opw.toNat
      let a := AWord.data e.a
      let b := AWord.data e.b
      let done (out : List AWord) (t : State) : Prop :=
        exec (.firingResult i u false) s = .next t ∧ (t.getWu i u).pipe = rest ∧ (t.getWu i u).out = out ∧ IslandOnly i s t
      (e.skip = true → ∃ t, done (if opDROP e.opw.toNat then [] else [e.a]) t ∧ flagsOf i u t = flagsOf i u s ∧ (t.getWu i u).acc = w.acc) ∧
      (e.skip = false → code = 0x02 → ∃ t v, done [v] t ∧ AWord.tk v = false ∧ AWord.data v = a + b ∧
        AWord.st v = (AWord.st e.a || AWord.st e.b || AWord.st e.m) ∧
        (opUT e.opw.toNat = 0 → AWord.tags v = AWord.tags e.a) ∧ (opUT e.opw.toNat = 1 → AWord.tags v = AWord.tags e.b) ∧
        (opUT e.opw.toNat = 2 → AWord.tags v = AWord.tags e.a ||| AWord.tags e.b) ∧ (opUT e.opw.toNat = 3 → AWord.tags v = 0) ∧
        flagsOf i u t = b2n (a + b == 0) + 2 * b2n (a + b).msb + 4 * b2n (decide (2 ^ 32 ≤ a.toNat + b.toNat)) +
          8 * b2n (decide ((a + b).toInt ≠ a.toInt + b.toInt))) ∧
      (e.skip = false → code = 0x48 → opEMIT e.opw.toNat ≠ 0 → w.pinned = false →
        let sum := w.acc.toInt + a.toInt * b.toInt
        ∃ t, done [] t ∧ (t.getWu i u).poison = (w.poison || AWord.st e.a || AWord.st e.b) ∧
          (-(2 ^ 71) ≤ sum ∧ sum < 2 ^ 71 → (t.getWu i u).acc.toInt = sum ∧ (t.getWu i u).pinned = false) ∧
          (2 ^ 71 ≤ sum → (t.getWu i u).acc.toInt = 2 ^ 71 - 1 ∧ (t.getWu i u).pinned = true ∧ t.f ((ISL_WU_STAT.AOV i).bit u) = 1) ∧
          (sum < -(2 ^ 71) → (t.getWu i u).acc.toInt = -(2 ^ 71) ∧ (t.getWu i u).pinned = true ∧ t.f ((ISL_WU_STAT.AOV i).bit u) = 1)) ∧
      (e.skip = false → code = 0x50 → ∃ t, done [] t ∧ (t.getWu i u).acc = 0 ∧ (t.getWu i u).pinned = false ∧ (t.getWu i u).poison = false ∧ flagsOf i u t = 1) ∧
      (e.skip = false → code = 0x31 →
        let base := islMemBase i + e.mbase.toNat / 8 * 32
        let one := bitOf (opK e.opw.toNat) 0
        ∃ t, exec (.pldComplete i u) s = .next t ∧ (t.getWu i u).pipe = rest ∧ (t.getWu i u).out = [e.a] ∧ IslesBut [i.val] s t ∧ ((s.getIsl i).comb = [] → t.mem = s.mem) ∧
          (if one then (t.getWu i u).t0 = w.t0 else (t.getWu i u).t1 = w.t1) ∧
          ∀ k, k < 32 → ((if one then (t.getWu i u).t1 else (t.getWu i u).t0).extractLsb' (5 * k) 5).toNat = (s.byte (base + k)).toNat % 32)) ∧
    (∀ e rest, s.islRuns i = true → MemOk s → w.pipe = e :: rest → e.tok = none → e.skip = false → opc e.opw.toNat = 0x60 →
      let bin := (AWord.data e.a).toNat / 2 ^ opK e.opw.toNat
      let at' := e.mbase.toNat + min bin 4095
      let old := s.memWord i at'
      let adr := islMemBase i + at' % 65536 * 4
      ∃ t, exec (.hincWrite i u) s = .next t ∧ (t.getWu i u).pipe = rest ∧ t.memWord i at' = (if old = 0xFFFF_FFFF then old else old + 1) ∧
        BytesBut (fun x => (adr ≤ x ∧ x < adr + 4) ∨ x = tagKey adr ∨ x = eccKey adr) s t ∧ IslesBut [i.val] s t ∧
        flagsOf i u t = flagsOf i u s % 4 + 4 * b2n (decide (4095 < bin)) + 8 * b2n (decide (old = 0xFFFF_FFFF)))

/-- At a unit with nothing in its pipeline and its output free, whose output nothing takes: TOKEN_PASS emits the token of the earliest of A, B and M that presents
one and takes it from its input; TOKEN_JOIN, once every stream input presents a token, takes them all, emits that of the earliest and sets TKMIS when the types
differ; ABORT_TOKEN emits the ABORT token of the earliest input and, in join mode with nothing more offered, drops the data at the other inputs, which then
discard; at an input that discards it drops the data word, or the ABORT token that ends the discard, at its head. BLOCK_END_EMISSION in pass mode emits the block exponent, or the best value and its index, or the stored accumulator, and then the token, and starts
the next block: m at 31 or 15, V and X at their initial values, the accumulator cleared with EMIT 2 and kept with EMIT 3; in join mode the token stays.
Accumulator and block state are otherwise kept, as are other islands and, while no queue has a word in its combining buffer, memory. The moment at which a unit takes an entry rests on log entry 17. -/
def Obligations.TokensPassAndBlocksEndInOrder : Prop :=
  ∀ (i : Fin 156) (u : Fin 16) (x : Nat) (v : AWord) (s : State), s.emitFree i u = true → Unread i u s →
    let w := s.getWu i u
    let op := s.curOp i u
    let xs := s.streams i u
    let quiet (y : Nat) : Prop := y < 2 → s.srcWord i (s.inSrc i u y) = none
    let left (t : State) (y : Nat) : Prop := y < 2 → (t.getWu i u).entries y = (w.entries y).tail
    let rest (t : State) : Prop := IslesBut [i.val] s t ∧ ((s.getIsl i).comb = [] → t.mem = s.mem)
    let kept (t : State) : Prop := (t.getWu i u).acc = w.acc ∧ (t.getWu i u).bexp = w.bexp ∧ (t.getWu i u).best = w.best ∧ (t.getWu i u).index = w.index
    (opTJ op = false → xs.find? (s.plainToken i u) = some x → s.inHead i u x = some v →
      ∃ t, exec (.tokenPass i u) s = .next t ∧ (t.getWu i u).out = [v] ∧ (quiet x → left t x) ∧ rest t ∧ kept t) ∧
    (opTJ op = true → xs = x :: xs.tail → xs.all (s.plainToken i u) = true → s.inHead i u x = some v →
      ∃ t, exec (.tokenJoin i u) s = .next t ∧ (t.getWu i u).out = [v] ∧ (∀ y ∈ xs, (∀ z ∈ xs, quiet z) → left t y) ∧ rest t ∧ kept t ∧
        t.f ((ISL_WU_STAT2.TKMIS i).bit u) = if xs.all (fun y => s.headType i u y == s.headType i u x) then s.f ((ISL_WU_STAT2.TKMIS i).bit u) else 1) ∧
    (w.disc = [] → xs.find? (fun y => s.headType i u y == tokABORT) = some x → s.inHead i u x = some v →
      ∃ t, exec (.abortToken i u) s = .next t ∧ (t.getWu i u).out = [v] ∧ rest t ∧ kept t ∧
        ((∀ z ∈ xs, quiet z) → (t.getWu i u).disc = (if opTJ op then xs.filter (fun y => y != x) else []) ∧ left t x ∧
          ∀ y ∈ xs, y ≠ x → y < 2 → (t.getWu i u).entries y = if opTJ op then (w.entries y).dropWhile (fun d => !AWord.tk d) else w.entries y)) ∧
    (w.disc = [x] → x < 2 → s.inSrc i u x < 0x30 → quiet x → s.inHead i u x = some v → (AWord.tk v = false ∨ v.type = tokABORT) →
      ∃ t, exec (.abortToken i u) s = .next t ∧ left t x ∧ (t.getWu i u).out = [] ∧ (t.getWu i u).disc = (if AWord.tk v then [] else [x]) ∧ rest t ∧ kept t) ∧
    (s.owesBlock i u = true → s.inHead i u 0 = some v → ∃ t, exec (.blockEndEmission i u) s = .next t ∧ rest t ∧
      (let tail := if opTJ op then [] else [v]
       (opc op = 0x58 → ∃ m, (t.getWu i u).out = m :: tail ∧ AWord.data m = BitVec.ofNat 32 w.bexp ∧ AWord.tk m = false ∧ AWord.st m = w.blkSt ∧
          (t.getWu i u).bexp = if bitOf (opK op) 0 then 15 else 31) ∧
       (opc op = 0x5C ∨ opc op = 0x5D → ∃ b n, (t.getWu i u).out = b :: n :: tail ∧ AWord.data b = w.best ∧ AWord.data n = w.index ∧ AWord.st b = w.blkSt ∧
          AWord.st n = (w.blkSt || w.posStop) ∧ (t.getWu i u).index = 0xFFFF_FFFF ∧ (t.getWu i u).pos = 0 ∧
          (t.getWu i u).best = if opc op = 0x5C then (if bitOf (opK op) 0 then 0 else 0x8000_0000) else (if bitOf (opK op) 0 then 0xFFFF_FFFF else 0x7FFF_FFFF)) ∧
       (opc op = 0x48 → ∃ m, (t.getWu i u).out = m :: tail ∧
          (let q := w.acc.toInt / 2 ^ opK op
           if opSAT op = true ∧ 0x7FFF_FFFF < q then AWord.data m = 0x7FFF_FFFF ∧ AWord.st m = true
           else if opSAT op = true ∧ q < -0x8000_0000 then AWord.data m = 0x8000_0000 ∧ AWord.st m = true
           else AWord.data m = BitVec.ofInt 32 q ∧ AWord.st m = (w.pinned || w.poison)) ∧
          (opEMIT op = 2 → (t.getWu i u).acc = 0 ∧ (t.getWu i u).pinned = false ∧ (t.getWu i u).poison = false ∧ flagsOf i u t = 1) ∧
          (opEMIT op = 3 → (t.getWu i u).acc = w.acc))))

/-- On a running island: MOULT_RELAY at an unmarked unit with its output free emits the MOULT token of the earliest input and changes no plane. PLANE_CHANGE_JOIN,
once every marked input holds a MOULT token and the target of the earliest is not locked, puts the unit on that plane, counts the switch, sets MIS when the
targets differ, and lets that token follow the firings in the pipeline. MOULT_DROP and OWED_TOKEN_DROP take one token and count it without changing the unit's
plane; the latter clears the owed input. JOIN_RELEASE of one unit with a token at some but not all marked inputs, and a target that is not locked, notes it for the island's next edge, where the releases due put it on the plane of the earliest held token
and owe the others; of any other unit it does nothing. MOULT_STALL, once the unit's timer has reached the limit, records the first stalled unit with its target plane, counts, raises the event 16
for the partition and leaves the unit's plane and inputs. Other islands keep their state, and so does all memory while no queue has a word in its combining buffer. MOULT_CLRCNT clears the counters. A release or clear of an island whose clock is stopped is one gated access. -/
def Obligations.PlaneChangesAtMoultTokens : Prop :=
  ∀ (i : Fin 156) (u : Fin 16) (x : Nat) (v : AWord) (mask : BitVec 16) (s : State),
    let w := s.getWu i u
    let ms := s.marked i u
    let held := s.holding i u tokMOULT
    let cnt := ISL_MOULT_CNT.DROPS i
    let rest (t : State) : Prop := IslesBut [i.val] s t ∧ ((s.getIsl i).comb = [] → t.mem = s.mem)
    let gated (c : Instr) : Prop := ∃ t, exec c s = .next t ∧ t.f GLB_GATED_ACCESS.COUNT = min (s.f GLB_GATED_ACCESS.COUNT + 1) 127 ∧
      OnlyFields [GLB_GATED_ACCESS.COUNT, GLB_GATED_ACCESS.OFFSET] s t
    (s.emitFree i u = true → Unread i u s → ms = [] → (s.streams i u).find? (fun y => s.headType i u y == tokMOULT && !w.owed.contains y) = some x →
      s.inHead i u x = some v → ∃ t, exec (.moultRelay i u) s = .next t ∧ (t.getWu i u).out = [v] ∧ t.wuPlane i u = s.wuPlane i u ∧ rest t) ∧
    (s.islRuns i = true → w.out = [] → w.pipe.length < 5 → ms = x :: ms.tail → ms.all (fun y => s.headType i u y == tokMOULT && !w.owed.contains y) = true →
      s.inHead i u x = some v → s.locked i (AWord.plane v) = false →
      ∃ t, exec (.planeChangeJoin i u) s = .next t ∧ t.wuPlane i u = AWord.plane v ∧
        t.f (ISL_MOULT_CNT.SWITCHES i) = (s.f (ISL_MOULT_CNT.SWITCHES i) + 1) % 65536 ∧
        t.f (ISL_MOULT_STAT.MIS i) = (if ms.all (fun y => AWord.plane ((s.inHead i u y).getD 0) == AWord.plane v) then s.f (ISL_MOULT_STAT.MIS i) else 1) ∧
        (w.pipe = [] → Unread i u t → (t.getWu i u).out = [v]) ∧
        (w.pipe ≠ [] → ∃ e, (t.getWu i u).pipe = w.pipe ++ [e] ∧ e.a = v ∧ e.skip = true ∧ opDROP e.opw.toNat = false) ∧ rest t) ∧
    (s.islRuns i = true → ms ≠ [] → (s.streams i u).find? (fun y => !ms.contains y && s.headType i u y == tokMOULT && !w.owed.contains y) = some x →
      ∃ t, exec (.moultDrop i u) s = .next t ∧ t.f cnt = min (s.f cnt + 1) cnt.max ∧ t.wuPlane i u = s.wuPlane i u ∧
        (x < 2 → s.srcWord i (s.inSrc i u x) = none → (t.getWu i u).entries x = (w.entries x).tail) ∧ rest t) ∧
    (s.islRuns i = true → w.owed.find? (fun y => s.headType i u y == tokMOULT) = some x →
      ∃ t, exec (.owedTokenDrop i u) s = .next t ∧ t.f cnt = min (s.f cnt + 1) cnt.max ∧ (t.getWu i u).owed = w.owed.erase x ∧
        t.wuPlane i u = s.wuPlane i u ∧ rest t) ∧
    (let due := held = x :: held.tail ∧ ms.filter (fun y => !held.contains y) ≠ [] ∧ s.inHead i u x = some v ∧ s.locked i (AWord.plane v) = false
     (s.islClk i = true → due → exec (.joinRelease i (1 <<< u.val)) s = .next (s.onIsl i (fun y => { y with relPend := y.relPend ||| 2 ^ u.val }))) ∧
     (s.islClk i = true → held = [] ∨ ms.filter (fun y => !held.contains y) = [] ∨ (s.inHead i u x = some v ∧ held = x :: held.tail ∧ s.locked i (AWord.plane v) = true) →
       exec (.joinRelease i (1 <<< u.val)) s = .next s) ∧
     ((s.getIsl i).relPend = 2 ^ u.val → due → ∃ t, applyReleases i s = t ∧ t.wuPlane i u = AWord.plane v ∧ (t.getIsl i).relPend = 0 ∧
       (∀ y, y ∈ (t.getWu i u).owed ↔ y ∈ w.owed ∨ (y ∈ ms ∧ y ∉ held)) ∧ rest t)) ∧
    (s.islRuns i = true → s.f (ISL_MOULT_WDT.LIMIT i) ≠ 0 → s.f (ISL_MOULT_WDT.LIMIT i) ≤ w.timer → held = x :: held.tail → s.inHead i u x = some v → w.stalled = false →
      ∃ t, exec (.moultStall i u) s = .next t ∧ (t.getWu i u).stalled = true ∧
        t.f (ISL_MOULT_CNT.STALLS i) = min (s.f (ISL_MOULT_CNT.STALLS i) + 1) (ISL_MOULT_CNT.STALLS i).max ∧ t.f (ISL_MOULT_STAT.STALL i) = 1 ∧
        (s.f (ISL_MOULT_STAT.STALL i) = 0 → t.f (ISL_MOULT_STAT.UNIT i) = u.val ∧ t.f (ISL_MOULT_STAT.TPLANE i) = AWord.plane v) ∧
        (s.islPart i < 12 → AEv.mk (s.islPart i) 16 0 i 0 ∈ t.aev) ∧ t.wuPlane i u = s.wuPlane i u ∧ (t.getWu i u).a = w.a ∧ (t.getWu i u).b = w.b ∧
        IslesBut [i.val] s t ∧ t.mem = s.mem) ∧
    (s.islClk i = true → ∃ t, exec (.moultClrcnt i) s = .next t ∧ t.rd (ISL_MOULT_CNT i) = 0 ∧ OnlyFields [whole (ISL_MOULT_CNT i)] s t) ∧
    (s.islClk i = false → gated (.moultClrcnt i) ∧ gated (.joinRelease i mask))

/-- BROADCAST_ARRIVAL at a running island at which nothing waits and whose target plane is not locked: an immediate one puts all 137 elements on the target; a fenced one arms the island with
the target and leaves the planes of word units with other stream inputs; with a locked target every element keeps its plane, and an immediate one makes each wait
for it; at an island that a capture holds, or that has not yet taken what arrived then, it waits behind that; one whose clock does not run takes none. FENCE_PASSAGE at a waiting word unit whose marked
inputs all hold SYNC tokens puts it on the armed target and emits the token. FIFO_PUSH of a data word on an unfenced segment whose end island has one
termination selecting it appends it to that FIFO if fewer than 6 words stand there, and else keeps it and counts the cycle, once; a word that has stood on the segment since before it changed its
source goes to the termination it is kept for and no source gives a word; at a partition fence the word
is discarded and counted; a segment that ends at no island takes nothing. SEGMENT_SWITCH with a MOULT token puts the segment and the termination on its plane; with another word it does nothing. SPINE_DRIVE lets a joint drive
that nothing opposes any more. ARRAY_IDLE raises event 19 of a drained partition. RT_CLRCNT clears the routing counters, but for a refusal that the present cycle has counted. Where no rule says so, that a command
whose condition does not hold changes nothing is the model's choice (log entry 1). -/
def Obligations.BroadcastsFencesAndRouting : Prop :=
  ∀ (i : Fin 156) (u : Fin 16) (k : Fin 80) (tr : Fin 4) (n : Fin 12) (j tm : Nat) (b : Bcast) (x : Nat) (v : AWord) (rest : List Bcast) (s : State),
    let y := s.getIsl i
    let code := s.ssel i k (s.boxPlane i (16 + k.val))
    let lone := s.segWord i k = some v ∧ s.segFenced i k = false ∧ s.segEnd i k = .isl j ∧ s.termsOf j (segCode k) = [tm] ∧ s.fifoOpen j = true ∧
      Map.getD y.segTaken (16 + k.val) [] = [] ∧ Map.find y.boxHold (16 + k.val) = none
    let waits (t : State) : Prop := t = s.onIsl i (fun y => { y with bcasts := rest, arrived := y.arrived ++ [.bcast b] })
    (y.bcasts = b :: rest → s.islRuns i = true → y.arrived = [] → s.locked i b.plane.toNat = false → ∃ t, exec (.broadcastArrival i) s = .next t ∧ (t.getIsl i).bcasts = rest ∧
      IslesBut [i.val] s t ∧ t.mem = s.mem ∧
      (b.fenced = false → t.f (ISL_PLANE_AUX.ARMED i) = 0 ∧ ∀ e, e < 137 → t.elemPlane i e = b.plane.toNat) ∧
      (b.fenced = true → t.f (ISL_PLANE_AUX.ARMED i) = 1 ∧ t.f (ISL_PLANE_AUX.ATGT i) = b.plane.toNat ∧ (t.getIsl i).unsw = s.fenceWaiters i ∧
        ∀ a, a < 16 → s.fenceFree i a = false → t.wuPlane i a = s.wuPlane i a)) ∧
    (y.bcasts = b :: rest → s.islRuns i = true → y.arrived = [] → s.locked i b.plane.toNat = true → ∃ t, exec (.broadcastArrival i) s = .next t ∧ (t.getIsl i).bcasts = rest ∧
      IslesBut [i.val] s t ∧ t.mem = s.mem ∧ ∀ e, e < 137 → t.elemPlane i e = s.elemPlane i e ∧
        (b.fenced = false → Map.find (t.getIsl i).boxPend e = some b.plane.toNat)) ∧
    (y.bcasts = b :: rest → s.islClk i = true → s.islRuns i = false ∨ y.arrived ≠ [] → ∃ t, exec (.broadcastArrival i) s = .next t ∧ waits t) ∧
    (y.bcasts = b :: rest → s.islClk i = false → exec (.broadcastArrival i) s = .next s) ∧
    (s.islRuns i = true → s.f (ISL_PLANE_AUX.ARMED i) = 1 → y.unsw.contains u.val = true → s.locked i (s.f (ISL_PLANE_AUX.ATGT i)) = false →
      (s.getWu i u).out = [] → (s.getWu i u).pipe = [] → s.marked i u = x :: (s.marked i u).tail → (s.marked i u).all (fun z => s.headType i u z == tokSYNC) = true →
      s.inHead i u x = some v → ∃ t, exec (.fencePassage i ⟨u.val, by omega⟩) s = .next t ∧ t.wuPlane i u = s.f (ISL_PLANE_AUX.ATGT i) ∧
        (t.getIsl i).unsw = y.unsw.erase u.val ∧ (Unread i u t → (t.getWu i u).out = [v]) ∧ IslesBut [i.val] s t ∧ (y.comb = [] → t.mem = s.mem)) ∧
    (lone → AWord.tk v = false → s.consumers j (16 + tm) = [] → tm < 32 → ∃ t, exec (.fifoPush (.seg i k)) s = .next t ∧
      (s.fifoLen j tm < 6 → Map.getD (t.getIsl j).fifos tm [] = Map.getD (s.getIsl j).fifos tm [] ++ [v] ∧
        (code < 16 → s.consumers i code = [32 + k.val] → (t.getWu i code).out = (s.getWu i code).out.tail) ∧ IslesBut [i.val, j] s t ∧ t.mem = s.mem) ∧
      (6 ≤ s.fifoLen j tm → (t.getIsl i).xref = true ∧
        t.f (ISL_RT_CNT.XFULL i) = (if y.xref then s.f (ISL_RT_CNT.XFULL i) else min (s.f (ISL_RT_CNT.XFULL i) + 1) (ISL_RT_CNT.XFULL i).max) ∧
        Map.getD (t.getIsl j).fifos tm [] = Map.getD (s.getIsl j).fifos tm [] ∧ t.segWord i k = some v)) ∧
    (Map.find y.boxHold (16 + k.val) = some (v, [32 * j + tm]) → s.segWord i k = some v → s.segEnd i k = .isl j → s.segFenced i k = false → AWord.tk v = false → tm < 32 →
      s.tsel j tm (s.boxPlane j (96 + tm)) = segCode k → s.fifoOpen j = true → s.fifoLen j tm < 6 → s.consumers j (16 + tm) = [] → j ≠ i →
      ∃ t, exec (.fifoPush (.seg i k)) s = .next t ∧ Map.getD (t.getIsl j).fifos tm [] = Map.getD (s.getIsl j).fifos tm [] ++ [v] ∧
        Map.find (t.getIsl i).boxHold (16 + k.val) = none ∧ (∀ c, c < 16 → c ∉ (s.wanting i).map (fun z => s.inSrc i (z / 2) (z % 2)) → (t.getWu i c).out = (s.getWu i c).out) ∧ IslesBut [i.val, j] s t) ∧
    (s.segWord i k = some v → s.segEnd i k = .isl j → s.segFenced i k = true → AWord.tk v = false → ∃ t, exec (.fifoPush (.seg i k)) s = .next t ∧ t.f (ISL_RT_STAT.FENCED i) = 1 ∧
      t.f (ISL_RT_CNT.FDROP i) = min (s.f (ISL_RT_CNT.FDROP i) + 1) (ISL_RT_CNT.FDROP i).max ∧ IslandOnly i s t) ∧
    ((∀ z, s.segEnd i k ≠ .isl z) → exec (.fifoPush (.seg i k)) s = .next s) ∧
    (lone → v.type = tokMOULT → tm < 32 → s.fifoLen j tm < 6 → s.locked i (AWord.plane v) = false → s.locked j (AWord.plane v) = false →
      ∃ t, exec (.segmentSwitch (.seg i k)) s = .next t ∧ t.boxPlane i (16 + k.val) = AWord.plane v ∧ t.boxPlane j (96 + tm) = AWord.plane v ∧ IslesBut [i.val, j] s t) ∧
    (s.segWord i k = some v → v.type ≠ tokMOULT → exec (.segmentSwitch (.seg i k)) s = .next s) ∧
    (s.islRuns i = true → y.spWait = [tr.val] → s.spineOpposed i tr = false → ∃ t, exec (.spineDrive i tr) s = .next t ∧ (t.getIsl i).spWait = [] ∧
      t.f (ISL_RT_STAT.SPWAITL i) = 0 ∧ FieldsBut [ISL_RT_STAT.SPWAITL i] s t ∧ IslandOnly i s t) ∧
    (s.enabled n = true → s.drained n = true → ∃ t, exec (.arrayIdle n) s = .next t ∧ AEv.mk n 19 0 0 0 ∈ t.aev ∧ t = { s with aev := t.aev }) ∧
    (s.drained n = false → exec (.arrayIdle n) s = .next s) ∧
    (s.islClk i = true → ∃ t, exec (.rtClrcnt i) s = .next t ∧ t.rd (ISL_RT_CNT i) = (if y.xref then 1 else 0) ∧ OnlyFields [whole (ISL_RT_CNT i)] s t)

/-- On a running island, for a queue to which nothing else gives commands at its edge: QUEUE_PUSH of an offered data word into a queue that is not full and does not
pass it through writes the word with its tags at the tail and adds
1 to tail (modulo the capacity), depth and occupancy; one that passes puts it at the M input of every consumer and leaves the queue; a full queue refuses,
counts and changes nothing else. QUEUE_MARK sets the mark to the head and the occupancy to the depth; REWIND with a mark sets the head to the mark and the depth
to the occupancy; RELEASE with a mark drops it and sets the occupancy to the depth; without one both set NOMARK and leave pointers and counts; FLUSH and
QREG_WRITE set every pointer, depth and occupancy to 0 without a mark, the latter with the new region. After each the level bits follow the occupancy, and a
change sets its sticky bit, counts, and has its event on the control net, merged with one of its line still pending. A command that another source gives at the same edge acts once. QUEUE_CLRCNT clears the counters. No
other register field and, but for a stored push and the ECC word that the combining buffer kept, no memory changes. -/
def Obligations.QueueControllersPushAndCommand : Prop :=
  ∀ (i : Fin 156) (q : Fin 4) (w : AWord) (v : BitVec 32) (s : State),
    let y := s.getIsl i
    let code := qPSRC (s.qcField i q (s.qcPlane i q))
    let tail := s.f (ISL_QPTR.TAIL i q)
    let ev : List RF := [ISL_QSTAT.HL i q, ISL_QSTAT.LL i q, ISL_QSTAT.HX i q, ISL_QSTAT.LX i q, ISL_QCNT.HXCNT i q, ISL_QCNT.LXCNT i q]
    let levels (t : State) : Prop :=
      t.f (ISL_QSTAT.HL i q) = b2n (decide (t.f (ISL_QWM.HW i q) ≤ t.f (ISL_QSTAT.OCC i q))) ∧
      t.f (ISL_QSTAT.LL i q) = b2n (decide (t.f (ISL_QSTAT.OCC i q) ≤ t.f (ISL_QWM.LW i q))) ∧
      (t.f (ISL_QSTAT.HL i q) ≠ s.f (ISL_QSTAT.HL i q) → t.f (ISL_QSTAT.HX i q) = 1 ∧ (s.islPart i < 12 → ∃ e ∈ t.aev, e.part = s.islPart i ∧ e.bit = 8 + q ∧ e.src = i)) ∧
      (t.f (ISL_QSTAT.LL i q) ≠ s.f (ISL_QSTAT.LL i q) → t.f (ISL_QSTAT.LX i q) = 1 ∧ (s.islPart i < 12 → ∃ e ∈ t.aev, e.part = s.islPart i ∧ e.bit = 12 + q ∧ e.src = i))
    let only (xs : List RF) (t : State) : Prop := levels t ∧ FieldsBut (xs ++ ev) s t ∧ IslesBut [i.val] s t ∧ t = { s with regs := t.regs, isl := t.isl, aev := t.aev }
    let empty (t : State) : Prop := t.f (ISL_QPTR.HEAD i q) = 0 ∧ t.f (ISL_QPTR.TAIL i q) = 0 ∧ t.f (ISL_QPTR.MARK i q) = 0 ∧ t.f (ISL_QSTAT.MKV i q) = 0 ∧
      t.f (ISL_QSTAT.OCC i q) = 0 ∧ t.f (ISL_QDEP.DEPTH i q) = 0
    let flushed : List RF := [whole (ISL_QPTR i q), ISL_QSTAT.MKV i q, ISL_QSTAT.OCC i q, ISL_QDEP.DEPTH i q]
    let calm := s.qPending i q = 0
    let noPart := Map.find y.comb q.val = none
    let passes := (s.takeSrc i code (116 + q)).qPasses i q
    (s.offered i code (116 + q.val) = some w → s.qOcc i q < s.qLimit i q → AWord.tk w = false → MemOk s → calm →
      (passes = false → ∃ t, exec (.queuePush i q) s = .next t ∧ t.memWord i (s.qAddr i q tail) = AWord.data w ∧
        t.tagsAt (islMemBase i + s.qAddr i q tail * 4) = w.toNat / 2 ^ 32 ∧ t.f (ISL_QPTR.TAIL i q) = (tail + 1) % s.qCap i q ∧
        t.f (ISL_QDEP.DEPTH i q) = (s.qDepth i q + 1) % 2 ^ 17 ∧ t.f (ISL_QSTAT.OCC i q) = s.qOcc i q + 1 ∧ levels t ∧ IslesBut [i.val] s t ∧
        BytesBut (fun a => (islMemBase i + s.qAddr i q tail * 4 ≤ a ∧ a < islMemBase i + s.qAddr i q tail * 4 + 4) ∨
          a = tagKey (islMemBase i + s.qAddr i q tail * 4) ∨ a = eccKey (islMemBase i + s.qAddr i q tail * 4) ∨
          ∃ k, Map.find y.comb q.val = some k ∧ a = eccKey (islMemBase i + 8 * k)) s t) ∧
      (passes = true → ∃ t, exec (.queuePush i q) s = .next t ∧ (∀ u, u ∈ s.qConsumers i q → (t.getWu i u).m = [w]) ∧ only [] t)) ∧
    (s.offered i code (116 + q.val) = some w → s.qLimit i q ≤ s.qOcc i q → exec (.queuePush i q) s = .next (s.bump (ISL_QCNT.REFUSED i q))) ∧
    (s.islRuns i = true → calm →
      (∃ t, exec (.queueMark i q) s = .next t ∧ t.f (ISL_QPTR.MARK i q) = s.f (ISL_QPTR.HEAD i q) ∧ t.f (ISL_QSTAT.MKV i q) = 1 ∧
        t.f (ISL_QSTAT.OCC i q) = s.qDepth i q ∧ only [ISL_QPTR.MARK i q, ISL_QSTAT.MKV i q, ISL_QSTAT.OCC i q] t) ∧
      (s.f (ISL_QSTAT.MKV i q) = 1 →
        (∃ t, exec (.queueRewind i q) s = .next t ∧ t.f (ISL_QPTR.HEAD i q) = s.f (ISL_QPTR.MARK i q) ∧ t.f (ISL_QDEP.DEPTH i q) = s.qOcc i q ∧
          only [ISL_QPTR.HEAD i q, ISL_QDEP.DEPTH i q] t) ∧
        (∃ t, exec (.queueRelease i q) s = .next t ∧ t.f (ISL_QSTAT.MKV i q) = 0 ∧ t.f (ISL_QSTAT.OCC i q) = s.qDepth i q ∧
          only [ISL_QSTAT.MKV i q, ISL_QSTAT.OCC i q] t)) ∧
      (s.f (ISL_QSTAT.MKV i q) = 0 → ∀ c ∈ [Instr.queueRewind i q, .queueRelease i q], ∃ t, exec c s = .next t ∧ t.f (ISL_QSTAT.NOMARK i q) = 1 ∧
        only [ISL_QSTAT.NOMARK i q] t) ∧
      (noPart → ∃ t, exec (.queueFlush i q) s = .next t ∧ empty t ∧ only flushed t)) ∧
    (s.islRuns i = true → ∀ c ∈ [(Instr.queueMark i q, 1), (.queueRewind i q, 2), (.queueRelease i q, 4), (.queueFlush i q, 16)], s.qPending i q = c.2 →
      exec c.1 s = exec c.1 (s.onIsl i (fun x => { x with qcmd := Map.del x.qcmd q }))) ∧
    (s.islClk i = true →
      (∃ t, exec (.queueClrcnt i q) s = .next t ∧ t.rd (ISL_QCNT i q) = 0 ∧ OnlyFields [whole (ISL_QCNT i q)] s t) ∧
      (calm → noPart → ∃ t, exec (.qregWrite i q v) s = .next t ∧ empty t ∧ t.f (ISL_QREG.SIZE16 i q) = (v.extractLsb' 16 12).toNat ∧
        t.f (ISL_QREG.BASE i q) = (v.extractLsb' 4 12).toNat * 16 ∧ only (whole (ISL_QREG i q) :: flushed) t))

/-- At a running clock, with no request waiting in the port: a read within the memory of words that read as sound and that no combining buffer holds returns its
bytes, little-endian, and changes no memory, whatever its size and alignment (log entry 51); an aligned 8-byte write outside a push region stores its bytes and
tags in a sound ECC word and changes no other byte; one that meets the owner's write is dropped, counted, its first address kept, and changes no memory. Behind
a request that waits any other waits too. A stopped clock answers with a bus error. A patrol window is borrowed while enabled: the single-bit errors of its 32
ECC words are counted and corrected in the shadow, and every data byte is as before; it is marched, where each failing cell is counted, the first recorded and
the cell faulty from then on; it is written back, and returned: the next window stands. CLRECC and ISL_CLRCOLL clear their register. A read of a guard accumulator returns it and latches its guard byte and pin.
FLA_EVT_CLEAR clears the bits written 1 and their counters. Log entry 18 names the model's choices. -/
def Obligations.IslandMemoryPortAndPatrol : Prop :=
  ∀ (i : Fin 156) (n : Fin 16) (off : BitVec 18) (size : Fin 9) (data : Word) (tags bits : BitVec 8) (host clash : Bool) (k : Fin 32) (b : Fin 80) (s : State),
    let a := islMemBase i + off.toNat
    let read := Instr.islandMemoryAccess i (.read off size) clash
    let win := s.f (ISL_PATROL_STAT.WIN i)
    let ps : List RF := [ISL_PATROL_STAT.STEP i, ISL_PATROL_STAT.ABAND i]
    let cell (k : Fin 32) := islMemBase i + win * 256 + k.val * 8
    (s.islClk i = false → exec read s = .next (s.emit .busError) ∧
      exec (.islandMemoryAccess i (.write off size data tags host) clash) s = .next (s.emit .busError)) ∧
    (s.islClk i = true → (s.getIsl i).portQ ≠ [] → ∀ p, exec (.islandMemoryAccess i p clash) s = .next (s.onIsl i (fun x => { x with portQ := x.portQ ++ [{ req := p }] }))) ∧
    (s.islClk i = true → (s.getIsl i).portQ = [] → off.toNat + size.val ≤ 0x4_0000 →
      (∀ j, j < size.val → s.found i (off.toNat + j) = 0 ∧ ∀ e ∈ (s.getIsl i).comb, e.2 ≠ (off.toNat + j) / 8) → ∃ t, exec read s = .next t ∧ t = { s with regs := t.regs, out := t.out } ∧ FieldsBut ps s t ∧
      ∃ d : Word, t.out = s.out ++ [.read d] ∧ ∀ j, j < 8 → d.extractLsb' (8 * j) 8 = if j < size.val then s.byte (a + j) else 0) ∧
    (off.toNat % 8 = 0 → s.islClk i = true → (s.getIsl i).portQ = [] → s.pushQueues i (off.toNat / 4) = [] → s.f (ISL_MEM_CTL.INJ i) = 0 → MemOk s →
      (∀ e ∈ (s.getIsl i).comb, e.2 ≠ off.toNat / 8) →
      (∃ t, exec (.islandMemoryAccess i (.write off 8 data tags host) false) s = .next t ∧ (∀ j, j < 8 → t.byte (a + j) = data.extractLsb' (8 * j) 8) ∧
        t.tagsAt a = tags.toNat % 16 ∧ t.tagsAt (a + 4) = tags.toNat / 16 ∧ t.ecc a = 0 ∧
        BytesBut (fun x => (a ≤ x ∧ x < a + 8) ∨ x = tagKey a ∨ x = tagKey (a + 4) ∨ x = eccKey a) s t ∧ FieldsBut ps s t ∧
        t = { s with regs := t.regs, mem := t.mem }) ∧
      (∃ t, exec (.islandMemoryAccess i (.write off 8 data tags host) true) s = .next t ∧ t.out = s.out ++ [.collided] ∧ t.mem = s.mem ∧
        t.f (ISL_MEM_COLL.COUNT i) = min (s.f (ISL_MEM_COLL.COUNT i) + 1) 4095 ∧ (s.f (ISL_MEM_COLL.COUNT i) = 0 → t.f (ISL_MEM_COLL.FADDR i) = off.toNat) ∧
        FieldsBut [ISL_MEM_COLL.COUNT i, ISL_MEM_COLL.FADDR i] s t)) ∧
    (s.islRuns i = true →
      (s.f (ISL_PATROL_STAT.STEP i) = 0 → s.f (ISL_PATROL_CTL.EN i) = 1 → MemOk s → ∃ t, exec (.patrolWindow i .borrow) s = .next t ∧ t.f (ISL_PATROL_STAT.STEP i) = 1 ∧
        t.f (ISL_PATROL_STAT.ACTIVE i) = 1 ∧
        t.f (ISL_PATROL_CNT.CEFIX i) = min (s.f (ISL_PATROL_CNT.CEFIX i) + ((List.range 32).filter (fun j => s.found i (win * 256 + j * 8) == 1)).length)
          (ISL_PATROL_CNT.CEFIX i).max ∧
        (∀ j, j < 32 → t.ecc (islMemBase i + win * 256 + j * 8) = if 2 ≤ s.found i (win * 256 + j * 8) then 2 else 0) ∧
        BytesBut (fun x => ∃ j, j < 32 ∧ x = eccKey (islMemBase i + win * 256 + j * 8)) s t ∧
        FieldsBut [ISL_PATROL_STAT.STEP i, ISL_PATROL_STAT.ACTIVE i, ISL_PATROL_CNT.CEFIX i] s t ∧ t = { s with regs := t.regs, mem := t.mem }) ∧
      (s.f (ISL_PATROL_STAT.STEP i) = 1 →
        (∃ t, exec (.patrolWindow i (.march [])) s = .next t ∧ t.f (ISL_PATROL_STAT.STEP i) = 2 ∧ OnlyFields [ISL_PATROL_STAT.STEP i] s t) ∧
        (MemOk s → ∃ t, exec (.patrolWindow i (.march [(k, b)])) s = .next t ∧ t.f (ISL_PATROL_STAT.STEP i) = 2 ∧
          (s.badCells (cell k) = 0 → t.badCells (cell k) = b.val + 1) ∧ BytesBut (fun x => x = cellKey (cell k)) s t ∧
          t.f (ISL_PATROL_CNT.FAULTS i) = min (s.f (ISL_PATROL_CNT.FAULTS i) + 1) 65535 ∧
          (s.f (ISL_PATROL_CNT.FAULTS i) = 0 → t.f (ISL_PATROL_FAULT.VALID i) = 1 ∧ t.f (ISL_PATROL_FAULT.BIT i) = b.val ∧
            t.f (ISL_PATROL_FAULT.BADDR i) = win * 256 + k.val * 8))) ∧
      (s.f (ISL_PATROL_STAT.STEP i) = 2 → ∃ t, exec (.patrolWindow i .writeBack) s = .next t ∧ t.f (ISL_PATROL_STAT.STEP i) = 3 ∧
        OnlyFields [ISL_PATROL_STAT.STEP i] s t) ∧
      (s.f (ISL_PATROL_STAT.STEP i) = 3 → ∃ t, exec (.patrolWindow i .ret) s = .next t ∧ t.f (ISL_PATROL_STAT.STEP i) = 0 ∧
        t.f (ISL_PATROL_STAT.ACTIVE i) = 0 ∧ t.f (ISL_PATROL_STAT.WIN i) = (win + 1) % 1024 ∧
        t.f (ISL_PATROL_STAT.SWEEPS i) = (if win = 1023 then (s.f (ISL_PATROL_STAT.SWEEPS i) + 1) % 1024 else s.f (ISL_PATROL_STAT.SWEEPS i)) ∧
        OnlyFields [ISL_PATROL_STAT.STEP i, ISL_PATROL_STAT.ACTIVE i, ISL_PATROL_STAT.WIN i, ISL_PATROL_STAT.SWEEPS i] s t)) ∧
    (s.islClk i = true →
      (∃ t, exec (.clrecc i) s = .next t ∧ t.rd (ISL_MEM_ECC i) = 0 ∧ OnlyFields [whole (ISL_MEM_ECC i)] s t) ∧
      (∃ t, exec (.islClrcoll i) s = .next t ∧ t.rd (ISL_MEM_COLL i) = 0 ∧ OnlyFields [whole (ISL_MEM_COLL i)] s t) ∧
      (∃ t, exec (.accLoRead i n false) s = .next t ∧ t.out = s.out ++ [.read ((s.getWu i n).acc.setWidth 64)] ∧
        t.f (ISL_WU_ACC_HI.GUARD i n) = ((s.getWu i n).acc.extractLsb' 64 8).toNat ∧ t.f (ISL_WU_ACC_HI.PIN i n) = b2n (s.getWu i n).pinned ∧
        FieldsBut [ISL_WU_ACC_HI.GUARD i n, ISL_WU_ACC_HI.PIN i n] s t ∧ t = { s with regs := t.regs, out := t.out }) ∧
      (∃ t, exec (.flaEvtClear i bits) s = .next t ∧
        (∀ j, j < 8 → t.f ((ISL_FLA_EVT.EV i).bit j) = (if bits.getLsbD j then 0 else s.f ((ISL_FLA_EVT.EV i).bit j)) ∧
          t.f ((whole (ISL_FLA_EVCNT i)).elem 8 j) = (if bits.getLsbD j then 0 else s.f ((whole (ISL_FLA_EVCNT i)).elem 8 j))) ∧
        OnlyFields [ISL_FLA_EVT.EV i, whole (ISL_FLA_EVCNT i)] s t))

/-- At a function that answers memory requests, MAILBOX_SUBMIT below the ring size sets the tail; while firmware serves an enabled ring it takes exactly those
descriptors between head and tail whose command no command before it holds up, in ring order, and the head ends at the first that waits, or at the tail; otherwise
nothing else changes. A value at or above the ring size sets only OVF. A job with a reserved code completes with status BAD_CODE, in fatal hold NOT_READY: the four
words of the completion with PHASE stand at the old tail of the completion ring, the tail has advanced, the phase flips with the wrap, the message is sent or
pends, and no other byte or field changes; a descriptor that waited for it is taken. With a full ring the completion waits, CQWAIT reads 1 and no memory changes;
MAILBOX_COMPLETION_HEAD sets the head, and with room in an enabled ring writes the completion that waits. MAILBOX_RESET sets EN and VEC, and only while EN reads 0
zeroes the four pointers and starts a first pass. A function that does not answer changes nothing. Where no rule says so, that a command whose
condition does not hold changes nothing is the model's choice (log entry 1). Log entry 20 names the model's choices. -/
def Obligations.MailboxRingsTakeCommandsAndReturnCompletions : Prop :=
  ∀ (f : Fin 13) (v : BitVec 32) (en : Bool) (vec : BitVec 11) (d : Desc) (k : Nat) (j : Job) (s : State),
    let size := ringSize f
    let p := v.toNat % 4096
    let head := s.f (MBX_SQH.PTR f)
    let places := (List.range ((p + size - head % size) % size)).map (fun x => (head % size + x) % size)
    let job (h : Nat) : Job :=
      let d := s.descAt f h
      { fn := f, d := d, started := false, wake := decide (d.part.toNat < 12) && bitOf (s.f (PWR_PART.WAKEEN d.part.toNat)) 2, note := 0, sets := [] }
    let free (h : Nat) : Bool := (s.jobs ++ (places.takeWhile (fun x => x != h)).map job).all (fun a => !s.jobBlocks a (job h))
    let first := (places.find? (fun h => !free h)).getD p
    let taking := s.mbxReady f = true ∧ s.f (MBX_CTL.EN f) = 1
    let bad := cplOf (if s.f ERR_STAT.FATAL = 1 then csNOTREADY else csBADCODE) 0 false d 0 0
    let isBad := s.jobOf f d = some (k, j) ∧ j.sets = [] ∧ (d.code = 0 ∨ 0x12 ≤ d.code.toNat) ∧ s.jobFree k j = true ∧ s.firmOn = true
    (s.fnOpen f = false → ∀ c ∈ [Instr.mailboxSubmit f v, .mailboxCompletionHead f v, .mailboxReset f en vec], exec c s = .next s) ∧
    (s.fnOpen f = true → p < size →
      (¬ taking → exec (.mailboxSubmit f v) s = .next (s.setF (MBX_SQT.PTR f) p)) ∧
      (taking → (s.getMbx f).taken = [] → ∃ t, exec (.mailboxSubmit f v) s = .next t ∧ t.jobs = s.jobs ++ (places.filter free).map job ∧
        t.f (MBX_SQH.PTR f) % size = first ∧ t.f (MBX_SQT.PTR f) = p ∧ (t.getMbx f).taken = (places.dropWhile free).filter free ∧
        (t.getMbx f).wait = (s.getMbx f).wait ∧ (t.getMbx f).phase = (s.getMbx f).phase ∧ (∀ g, g ≠ f.val → t.getMbx g = s.getMbx g) ∧
        FieldsBut [MBX_SQT.PTR f, MBX_SQH.PTR f] s t ∧ t = { s with regs := t.regs, jobs := t.jobs, mbx := t.mbx })) ∧
    (s.fnOpen f = true → size ≤ p → head = s.f (MBX_SQT.PTR f) → exec (.mailboxSubmit f v) s = .next (s.setF (MBX_STAT.OVF f) 1)) ∧
    (isBad → MemOk s →
      (CplReady f s → ∃ t, exec (.badCode f d) s = .next t ∧ Completed f k bad s t) ∧
      (s.jobs = [j] → s.f (MBX_CTL.EN f) = 1 → (s.getMbx f).taken = [] → head < size → s.f (MBX_SQT.PTR f) = (head + 1) % size →
        (∀ g : Fin 13, g ≠ f → s.f (MBX_SQT.PTR g) = s.f (MBX_SQH.PTR g)) →
        ∃ t, exec (.badCode f d) s = .next t ∧ t.jobs = [job head] ∧ t.f (MBX_SQH.PTR f) = s.f (MBX_SQT.PTR f)) ∧
      ((s.getMbx f).wait = [] → s.mbxReady f = true → s.cqRoom f = false → (∀ g : Fin 13, s.f (MBX_SQT.PTR g) = s.f (MBX_SQH.PTR g)) → ∃ t, exec (.badCode f d) s = .next t ∧ (t.getMbx f).wait = [bad] ∧
        (t.getMbx f).phase = (s.getMbx f).phase ∧ t.f (MBX_STAT.CQWAIT f) = 1 ∧ t.jobs = s.jobs.eraseIdx k ∧ FieldsBut [MBX_STAT.CQWAIT f] s t ∧
        t = { s with regs := t.regs, jobs := t.jobs, mbx := t.mbx })) ∧
    (s.fnOpen f = true → p < size →
      ((s.getMbx f).wait = [] → ∃ t, exec (.mailboxCompletionHead f v) s = .next t ∧ t.f (MBX_CQH.PTR f) = p ∧ t.f (MBX_STAT.CQWAIT f) = 0 ∧
        OnlyFields [MBX_CQH.PTR f, MBX_STAT.CQWAIT f] s t) ∧
      (¬ taking → ∃ t, exec (.mailboxCompletionHead f v) s = .next t ∧ t.f (MBX_CQH.PTR f) = p ∧ OnlyFields [MBX_CQH.PTR f, MBX_STAT.CQWAIT f] s t) ∧
      (∀ c, (s.getMbx f).wait = [c] → taking → (s.f (MBX_CQT.PTR f) + 1) % size ≠ p → s.f (MBX_CTL.VEC f) < (if f.val = 0 then 512 else 128) → MemOk s →
        ∃ t, exec (.mailboxCompletionHead f v) s = .next t ∧ t.f (MBX_CQH.PTR f) = p ∧ CplWritten f c s t ∧ t.jobs = s.jobs ∧
          FieldsBut (MBX_CQH.PTR f :: cplFields f) s t ∧ BytesBut (inEntry f s) s t)) ∧
    (s.fnOpen f = true → (s.getMbx f).wait = [] →
      let has (t : State) : Prop := t.f (MBX_CTL.EN f) = b2n en ∧ t.f (MBX_CTL.VEC f) = vec.toNat ∧ t.jobs = s.jobs ∧ t.f (MBX_STAT.CQWAIT f) = 0
      (s.f (MBX_CTL.EN f) = 0 → ∃ t, exec (.mailboxReset f en vec) s = .next t ∧ has t ∧ t.f (MBX_SQT.PTR f) = 0 ∧ t.f (MBX_SQH.PTR f) = 0 ∧
        t.f (MBX_CQT.PTR f) = 0 ∧ t.f (MBX_CQH.PTR f) = 0 ∧ t.getMbx f = { phase := true, wait := [], taken := [] } ∧
        FieldsBut [MBX_CTL.EN f, MBX_CTL.VEC f, MBX_STAT.CQWAIT f, MBX_SQT.PTR f, MBX_SQH.PTR f, MBX_CQT.PTR f, MBX_CQH.PTR f] s t ∧
        t = { s with regs := t.regs, mbx := t.mbx }) ∧
      (s.f (MBX_CTL.EN f) = 1 → head = s.f (MBX_SQT.PTR f) → ∃ t, exec (.mailboxReset f en vec) s = .next t ∧ has t ∧
        OnlyFields [MBX_CTL.EN f, MBX_CTL.VEC f, MBX_STAT.CQWAIT f] s t))

/-- For a job that firmware can execute, of a function whose completion ring takes a completion, over a canonical memory: GET_INFO completes OK with device ID and
revision in R0 and the firmware version, the service level, the array slot and the report of the images' IMAGE_ID in R1, and changes nothing else. READ_HEALTH, READ_ERRORS and CXL_STATUS with a
buffer write exactly the bytes of their report to the buffer in host memory and return its length (CXL_STATUS: port states and active devices); CXL_STATUS
without a buffer writes none. A misplaced buffer ends with BAD_PARAM, host memory that does not answer with HOST_MEM, both without a write of the buffer.
UPDATE_FLASH of a sound image that fits the slot leaves the image in the flash, the rest of the slot erased and every other byte as before; a failing step ends
with FLASH and its number and an erased slot. READ_REPAIR of the oldest entry writes its 128 bytes to the buffer and moves HEAD past it; with no entry it ends
with NO_RESULT. The firmware version and the report's form are opaque constants (log entry 23), and buffers out of place end with BAD_PARAM by the model's choice (log entry 24). -/
def Obligations.InformationCommandsWriteTheirBuffers : Prop :=
  ∀ (f : Fin 13) (d : Desc) (k : Nat) (j : Job) (bad : Fin 5) (memOk late : Bool) (s : State), CplReady f s → MemOk s →
    let p0 := d.p0.toNat
    let p1 := d.p1.toNat
    let ends (c : Instr) (st detail : Nat) (r0 r1 : Word) : Prop := ∃ t, exec c s = .next t ∧ Completed f k (cplOf st detail false d r0 r1) s t
    let inBuf (a n x : Nat) : Prop := hostBase + a ≤ x ∧ x < hostBase + a + n
    let touched (a n x : Nat) : Prop := inBuf a n x ∨ ∃ y, inBuf a n y ∧ x = eccKey y
    let buffer (c : Instr) (a : Nat) (bs : List Byte) (r0 r1 : Word) : Prop := ∃ t, exec c s = .next t ∧ CplWritten f (cplOf csOK 0 false d r0 r1) s t ∧
      CplOnly f k s t ∧ (∀ i, i < bs.length → t.byte (hostBase + a + i) = bs.getD i 0) ∧ BytesBut (fun x => inEntry f s x ∨ touched a bs.length x) s t
    let report (c : Bool → Instr) (bs : List Byte) (r0 r1 : Word) : Prop :=
      (bufOk d.p0 bs.length = true → bs ≠ [] → buffer (c true) p0 bs r0 r1 ∧ ends (c false) csHOSTMEM 0 0 0) ∧
      (bufOk d.p0 bs.length = false → ends (c memOk) csBADPARAM 0 0 0)
    (Executes 0x01 f d k j s → ends (.getInfo f d) csOK 0 (BitVec.ofNat 64 ((s.rd GLB_DEVICE_ID).toNat ||| (s.rd GLB_REVISION).toNat * 2 ^ 32))
      (BitVec.ofNat 64 (Config.firmwareVersion.toNat + b2n (s.f RST_STAT.SVC == 2) * 2 ^ 32 + s.f CFG_BOOT.ARRAY * 2 ^ 33 +
        (Config.imageReport ((List.range 12).map s.imageId)).toNat * 2 ^ 36))) ∧
    (Executes 0x07 f d k j s → let bs := (s.healthBytes f).take p1; report (.readHealth f d) bs (BitVec.ofNat 64 bs.length) 0) ∧
    (Executes 0x10 f d k j s → let bs := ((s.errorBytes f).take (p1 / 32)).flatten; report (.readErrors f d) bs (BitVec.ofNat 64 bs.length) 0) ∧
    (Executes 0x0E f d k j s →
      let r0 := BitVec.ofNat 64 ((s.rd (CXP_PSTAT 0)).toNat + (s.rd (CXP_PSTAT 1)).toNat * 2 ^ 32)
      let r1 := BitVec.ofNat 64 (((List.range 8).filter (fun x => s.on (CXP_DEV.ACTIVE x))).foldl (fun a x => a + 2 ^ x) 0)
      (d.p0 = 0 → ends (.cxlStatus f d memOk) csOK 0 r0 r1) ∧ (d.p0 ≠ 0 → s.cxlBytes.length = 576 ∧ report (.cxlStatus f d) s.cxlBytes r0 r1)) ∧
    (Executes 0x0F f d k j s →
      let slot := flashSlot (d.p0.getLsbD 0)
      let n := d.p2.toNat
      let bs := s.hostGet p1 n
      let fits := p1 + n ≤ 2 ^ 51 ∧ n ≤ slot.2
      let sound := s.imageOk (!d.p0.getLsbD 0) bs = true
      let flashed (c : Instr) (st detail : Nat) (img : List Byte) : Prop := ∃ t, exec c s = .next t ∧ CplWritten f (cplOf st detail false d 0 0) s t ∧ CplOnly f k s t ∧
        (∀ i, i < slot.2 → t.flash (slot.1 + i) 1 = [img.getD i 0xFF]) ∧ BytesBut (fun x => inEntry f s x ∨ (flashKey slot.1 ≤ x ∧ x < flashKey (slot.1 + slot.2))) s t
      (¬ fits → ends (.updateFlash f d memOk bad) csBADPARAM 0 0 0) ∧ (fits → ends (.updateFlash f d false bad) csHOSTMEM 0 0 0) ∧
      (fits → sound → bad.val < 2 → flashed (.updateFlash f d true bad) csOK 0 bs) ∧ (fits → ¬ sound → flashed (.updateFlash f d true bad) csFLASH 1 []) ∧
      (fits → sound → 2 ≤ bad.val → flashed (.updateFlash f d true bad) csFLASH bad [])) ∧
    (Executes 0x0A f d k j s → d.p0.getLsbD 15 = false →
      let p := d.part.toNat
      (bufOk d.p1 128 = false → ends (.readRepair f d memOk late) csBADPARAM 0 0 0) ∧
      (bufOk d.p1 128 = true → s.ringPlaces p = [] → ends (.readRepair f d memOk late) csNORESULT 0 0 0) ∧
      (∀ ix rest e s1, bufOk d.p1 128 = true → s.ringPlaces p = ix :: rest → ringEntry p ix s = (some e, s1) → CplReady f s1 →
        let s2 := hostPut p1 e s1
        let s3 := rrqHead p ((ix + 1) % s1.ringLen p) s2
        (∀ i, i < 128 → s2.byte (hostBase + p1 + i) = e.getD i 0) ∧ BytesBut (touched p1 128) s1 s2 ∧ s2 = { s1 with mem := s2.mem } ∧
        (CplReady f s3 → ∃ t, exec (.readRepair f d true late) s = .next t ∧ Completed f k (cplOf csOK 0 (s3.jobDist k) d 0 0) s3 t)))

/-- A job that ends in any state with a ready completion ring leaves exactly its completion, marked as disturbed when a field it has set holds another value. For an
executable job: LOAD_PARTITION of an enabled partition with parameters in range and without fail-engine block, channels and leaves writes MMU_PARTn and starts
the load in its header phase with the image, up to a poisoned byte, as its feed, which ends when host memory stops answering, and once no load names the partition completes with the code of the last load. UNLOAD_PARTITION of an
EMPTY, STOPPED or INVALID partition completes with its band blank, its slot invalid, its rows unowned and EN 0; START_PARTITION of a STOPPED one with a halted
primary completes with the primary running and STATE RUNNING; STOP_PARTITION with no repeat and no request to stop pending completes with every sequencer halted and STATE STOPPED;
each ends with STATE and the partition's state as detail otherwise; a job that fatal hold finds executing ends with NOT_READY. SET_POWER completes OK at the rung it asks for, starts an entry to a deeper one from Active,
in which the sequencers stop at a boundary with no repeat pending, ends with STATE when refused, and completes when the entry has. The choices of log entry 21 are the model's. -/
def Obligations.PartitionCommandsLoadStartStopUnloadAndPower : Prop :=
  ∀ (f : Fin 13) (d : Desc) (k : Nat) (j : Job) (late : Bool) (s : State),
    let n := d.part.toNat
    let st := s.f (GLB_PART_CFG.STATE n)
    let p0 := d.p0.toNat
    let ends (c : Instr) (status detail : Nat) (r0 : Word) (X : State) : Prop := exec c s = .next (jobEnd k j status detail r0 0 X)
    let started (t : State) : Prop := ∃ j', t.jobs[k]? = some j' ∧ j'.started = true ∧ j'.d = d ∧ j'.fn = f.val
    let going (code : BitVec 8) : Prop := s.jobOf f d = some (k, j) ∧ d.code = code ∧ j.started = true ∧ s.firmOn = true
    let wakes (r : Nat) : Prop := s.enabled n = true ∧ s.f (PWR_PART.BUSY n) = 0 ∧ Map.find s.sys.entering n = none ∧ (r ≠ 0 → s.rungRefused n = 0)
    (∀ (X : State) (status detail : Nat) (r0 r1 : Word), X.jobs[k]? = some j → CplReady j.fn X → MemOk X → status < 256 → detail < 65536 →
      Completed j.fn k (cplOf status detail (X.jobDist k) j.d r0 r1) X (jobEnd k j status detail r0 r1 X)) ∧
    (∀ x ∈ [(2, Instr.loadPartition f d late), (3, .unloadPartition f d), (4, .startPartition f d), (5, .stopPartition f d), (6, .setPower f d late)],
      going x.1 → s.f ERR_STAT.FATAL = 1 → ends x.2 csNOTREADY 0 0 s) ∧
    (Executes 0x02 f d k j s → let mode := p0 / 2 ^ 32 % 4
      loadParamsOk mode d = true → d.p3 = 0 → d.p4 = 0 → d.p6 = 0 → s.f RST_STAT.SVC = 2 → s.f CFG_STAT.BUSY = 0 → s.enabled n = true →
      Map.find s.sys.entering n = none → ¬ (mode = 0 ∧ st = stRUNNING) →
      ∃ t, exec (.loadPartition f d true) s = .next t ∧ started t ∧ t.f CFG_STAT.BUSY = 1 ∧ t.f CFG_STAT.PHASE = 1 ∧ t.cfg.part = n ∧
        t.cfg.src = (if mode = 2 then 4 else 0) ∧ t.cfg.mode = (if mode = 2 then 0 else mode) ∧ t.cfg.feed = (if mode = 2 then [] else (s.hostSound d.p1.toNat d.p2.toNat).1) ∧
        t.cfg.feedBad = (decide (mode ≠ 2) && (s.hostSound d.p1.toNat d.p2.toNat).2) ∧
        t.f (MMU_PART.PTBASE n) = (d.p5.extractLsb' 12 40).toNat ∧ t.f (MMU_PART.ASID n) = (d.p5.extractLsb' 0 12).toNat ∧
        FieldsBut [CFG_STAT.BUSY, CFG_STAT.PHASE, whole CFG_PROG, MMU_PART.PTBASE n, MMU_PART.ASID n] s t ∧ t = { s with regs := t.regs, jobs := t.jobs, cfg := t.cfg }) ∧
    (going 2 → s.f ERR_STAT.FATAL = 0 → s.loadNames n = true → exec (.loadPartition f d true) s = .next s ∧
      (s.cfg.feed ≠ [] → ∃ t, exec (.loadPartition f d false) s = .next t ∧ t.cfg.feed = [] ∧ t.cfg.feedBad = true ∧ t.cfg.buf = s.cfg.buf ∧ t = { s with cfg := t.cfg })) ∧
    (going 2 → s.f ERR_STAT.FATAL = 0 → s.loadNames n = false →
      let code := Map.getD s.cfg.last n 0
      ends (.loadPartition f d late) (if code = 0 then csOK else csCONFIG) code (BitVec.ofNat 64 (code + s.f (GLB_PART_CFG.ERRCODE n) * 2 ^ 8)) s) ∧
    (Executes 0x03 f d k j s →
      let may := s.enabled n = true ∧ (st = stEMPTY ∨ st = stSTOPPED ∨ st = stINVALID)
      (may → ∃ X, ends (.unloadPartition f d) csOK 0 0 X ∧ X.f (GLB_PART_CFG.EN n) = 0 ∧ X.f (GLB_PART_CFG.STATE n) = 0 ∧ X.f (CFG_RESVAL.VALID.bit n) = 0 ∧
        (∀ r, r < 12 → s.owner r = n → X.owner r = 15) ∧
        ∀ i ∈ s.islandsOf n, ∀ b, b < 128 → X.frame i b = CfgFrame.of (s.faddr (s.firstRow n) i b) (blankFrame b)) ∧
      (¬ may → ends (.unloadPartition f d) csSTATE st 0 s)) ∧
    (Executes 0x04 f d k j s →
      (∀ q, s.enabled n = true → st = stSTOPPED → s.primary n = some q → s.primaryOf q = some n → (s.seqPart q).isSome → (s.getSeq q).st = 1 →
        ∃ X, ends (.startPartition f d) csOK 0 0 X ∧ X.f (SEQ_CTL.RUN q) = 1 ∧ (X.getSeq q).st = 2 ∧ X.f (GLB_PART_CFG.STATE n) = stRUNNING) ∧
      (¬ (s.enabled n = true ∧ st = stSTOPPED) → ends (.startPartition f d) csSTATE st 0 s)) ∧
    (Executes 0x05 f d k j s →
      let may := s.enabled n = true ∧ (st = stSTOPPED ∨ st = stRUNNING)
      (may → (∀ q ∈ s.seqsOf n, if (s.getSeq q).st = 2 then (s.getSeq q).rptc = 0 else (s.getSeq q).st = 3 ∨ (s.getSeq q).st = 5 ∨ (s.getSeq q).mcheck ≠ some 1) →
        ∃ X, ends (.stopPartition f d) csOK 0 0 X ∧ X.f (GLB_PART_CFG.STATE n) = stSTOPPED ∧
          ∀ q ∈ s.seqsOf n, X.f (SEQ_CTL.RUN q) = 0 ∧ (X.getSeq q).st = if (s.getSeq q).st ∈ [2, 3, 5] then 1 else (s.getSeq q).st) ∧
      (¬ may → ends (.stopPartition f d) csSTATE st 0 s)) ∧
    (Executes 0x06 f d k j s →
      let r := p0 % 4
      let rung (X : State) : Prop := X.f (PWR_PART.RUNG n) = r ∧ X.f (PWR_PART.CUR n) = s.f (PWR_PART.CUR n) ∧ X.f (PWR_PART.ERR n) = 0
      (wakes r → r = s.f (PWR_PART.CUR n) → ∃ X, ends (.setPower f d late) csOK 0 (BitVec.ofNat 64 r) X ∧ rung X ∧ X.f (PWR_PART.BUSY n) = 0) ∧
      (wakes r → r ≠ 0 → s.f (PWR_PART.CUR n) = 0 → ∃ t, exec (.setPower f d late) s = .next t ∧ started t ∧ rung t ∧ t.f (PWR_PART.BUSY n) = 1 ∧
        Map.find t.sys.entering n = some r ∧ t.mem = s.mem ∧
        ∀ q ∈ s.seqsOf n, (t.getSeq q).st = if ((s.getSeq q).st = 2 ∧ (s.getSeq q).rptc = 0) ∨ (s.getSeq q).st = 3 then 5 else (s.getSeq q).st) ∧
      (r ≠ 0 → s.enabled n = true → s.f (PWR_PART.BUSY n) = 0 → s.rungRefused n = 1 → ∃ X, ends (.setPower f d late) csSTATE st 0 X ∧ X.f (PWR_PART.ERR n) = 1 ∧
        FieldsBut [PWR_PART.ERR n] s X)) ∧
    (going 6 → s.f ERR_STAT.FATAL = 0 → s.enabled n = true → s.f (PWR_PART.BUSY n) = 0 → s.f (PWR_PART.ERR n) = 0 →
      s.f (PWR_PART.CUR n) = p0 % 4 → ends (.setPower f d late) csOK 0 (BitVec.ofNat 64 (p0 % 4 + min (Map.getD s.sys.lastDefer n 0) 65535 * 2 ^ 16)) s)

/-- For an executable job: REPAIR_ISLAND of a row outside the partition of a virtual function, or that fails a check of R463, completes with that status and detail;
one of an unowned or EMPTY row moves the spare pointer, stores it and completes OK with it (and a time, which is open); one of a STOPPED or RUNNING partition
makes it REPAIRING, and its step 5 copies the memory of one island to its neighbour. CAPTURE sends the freeze command to every island of the partition, with
RESUME releases a held capture, with the MOULT tokens that waited for it, and once held writes the captured state to its buffer. SET_LANES sets the bond, the quads' rate and FEC and the fields of every
named lane and completes with the map of the lanes that are UP, or waits. RING_JOIN starts a join with the given ID outside Diapause, and completes with ID and node count when
joined, or with BAD_PARAM and JERR; RING_LEAVE sends LEAVE and waits, or completes when not joined. WARM_RESET resets the module with source 2 and goes on as an
executing command, and completes when the mailbox is served, no reload is owed, no load and no repair goes on. The layout of captured words (log entry 44), and
the choices of log entries 21 and 24, are the model's. -/
def Obligations.ModuleCommandsRepairCaptureLanesRingAndReset : Prop :=
  ∀ (f : Fin 13) (d : Desc) (k : Nat) (j : Job) (memOk : Bool) (s : State),
    let n := d.part.toNat
    let p0 := d.p0.toNat
    let ends (c : Instr) (status detail : Nat) (r0 r1 : Word) (X : State) : Prop := exec c s = .next (jobEnd k j status detail r0 r1 X)
    let isRunning (t : State) : Prop := ∃ j', t.jobs[k]? = some j' ∧ j'.started = true ∧ j'.d = d ∧ j'.fn = f.val
    let going (code : BitVec 8) : Prop := s.jobOf f d = some (k, j) ∧ d.code = code ∧ j.started = true ∧ s.firmOn = true ∧ (code = 0x11 ∨ s.f ERR_STAT.FATAL = 0)
    (let row := p0 % 16
     let c := p0 / 2 ^ 8 % 16
     let p := s.owner row
     let st := s.f (GLB_PART_CFG.STATE p)
     let cmd := Instr.repairIsland f d
     (Executes 0x08 f d k j s →
      let sees := f.val = 0 ∨ 11 < row ∨ s.vfPart f = some p
      (¬ sees → ends cmd csNOTPERMITTED 0 0 0 s) ∧
      (∀ e, sees → s.repairCheck d = some e → ends cmd e.1 e.2 0 0 s) ∧
      (sees → s.repairCheck d = none → s.sys.repair = none →
        (s.enabled p = false ∨ st = stEMPTY → ∃ (X : State) (time : Word), ends cmd csOK 0 (BitVec.ofNat 64 c) time X ∧ X.f (GLB_ROW_MAP.SPARE_PTR row) = c ∧
          X.f (GLB_ROW_MAP.SPARE_USED row) = 1 ∧ Map.find X.sys.spares row = some c ∧ (X.getIsl (row * 13 + c)).inReset = true ∧ X.mem = s.mem) ∧
        (s.enabled p = true → st ≠ stEMPTY → ∃ t, exec cmd s = .next t ∧ isRunning t ∧ t.f (GLB_PART_CFG.STATE p) = stREPAIRING ∧
          (∃ r, t.sys.repair = some r ∧ r.part = p ∧ r.row = row ∧ r.col = c) ∧ t.mem = s.mem))) ∧
     (∀ r : Repair, going 8 → s.sys.repair = some r → r.step = 5 → r.row < 12 → r.p < 12 → MemOk s → ∃ t, exec cmd s = .next t ∧
        (∀ x, x < 0x4_0000 → t.byte (islMemBase (r.row * 13 + r.p + 1) + x) = s.byte (islMemBase (r.row * 13 + r.p) + x)) ∧ t.regs = s.regs)) ∧
    (let cmd := Instr.capture f d memOk
     let st := s.f (ERR_CAP.STATE n)
     Executes 0x09 f d k j s → s.f RST_STAT.SVC = 2 → s.enabled n = true →
      (p0 % 2 = 1 → st = 2 → ∃ X, ends cmd csOK 0 0 0 X ∧ X.f (ERR_CAP.STATE n) = 0 ∧ (∀ i ∈ s.islandsOf n, (X.getIsl i).frozen = false ∧ (X.getIsl i).freezeCmd = false) ∧
        (∀ q ∈ s.seqsOf n, s.seqPart q = some n → (X.getSeq q).moults = (s.getSeq q).moults.dropWhile (·.due)) ∧
        FieldsBut [ERR_CAP.STATE n] s X ∧ X = { s with regs := X.regs, isl := X.isl, seqs := X.seqs, lanes := X.lanes, msps := X.msps }) ∧
      (p0 % 2 = 0 → bufOk d.p1 (64 + (s.rowsOf n).length * 49152) = true →
        (st = 0 → ∃ t, exec cmd s = .next t ∧ isRunning t ∧ t.f (ERR_CAP.STATE n) = 1 ∧ (∀ i ∈ s.islandsOf n, (t.getIsl i).freezeCmd = true) ∧
          FieldsBut [ERR_CAP.STATE n] s t ∧ t = { s with regs := t.regs, isl := t.isl, jobs := t.jobs }) ∧
        (st = 2 → d.p1 = 0 → ∃ X, ends cmd csOK 0 0 0 X ∧ X = { s with jobs := X.jobs }) ∧
        (st = 2 → d.p1 ≠ 0 → memOk = true → (∀ r, r < 12 → s.spare r ≤ 12) → MemOk s → ∃ X Y : State, Y = { s with jobs := Y.jobs } ∧
          let bs := captureBytes n Y
          ends cmd csOK 0 (BitVec.ofNat 64 bs.length) 0 X ∧ (∀ x, x < bs.length → X.byte (hostBase + d.p1.toNat + x) = bs.getD x 0) ∧ X.regs = s.regs))) ∧
    (let ls := laneMask d
     let v := d.p3.toNat
     Executes 0x0B f d k j s → s.enabled n = true → s.f (GLB_PART_CFG.STATE n) ≠ stRUNNING → (∀ l ∈ ls, s.owner (laneRow l) = n) → v % 8 ≤ 4 →
      ∃ X : State, ends (.setLanes f d true) csOK 0 (BitVec.ofNat 64 (X.lanesUpMap ls)) (BitVec.ofNat 64 (X.lanesUpMap ls / 2 ^ 64)) X ∧
        (∀ l ∈ ls, X.f (LANE_BOND.G l) = v / 16 % 4 ∧ X.f (LANE_BOND.N l) = v / 64 % 4 ∧ X.f (LQ_CFG.FEC (laneQuad l)) = v / 8 % 2 ∧
          ((v % 8 < 4 ∧ laneQuad l < 8) ∨ s.f RST_STAT.SVC = 2 → X.f (LQ_CFG.RATE (laneQuad l)) = v % 8) ∧ X.f (LANE_CTL.EN l) = 1 ∧ X.f (LANE_CTL.TXT l) = v / 2 ^ 8 % 2 ∧
          X.f (LANE_CTL.RXT l) = v / 2 ^ 9 % 2 ∧ X.f (LANE_CTL.RPEN l) = v / 2 ^ 10 % 2 ∧ X.f (LANE_CTL.RPQ l) = v / 2 ^ 11 % 4 ∧
          X.f (LANE_CTL.RPU l) = v / 2 ^ 13 % 16 ∧ X.f (LANE_CTL.FLEN l) = v / 2 ^ 17 % 32) ∧ X.mem = s.mem ∧
        ((∃ l ∈ ls, X.f (LANE_STAT.UP l) = 0 ∧ X.laneNeeded l = true) → exec (.setLanes f d false) s = .next X ∧ isRunning X)) ∧
    (let cmd := Instr.ringJoin f d
     (Executes 0x0C f d k j s → s.modRung ≠ 3 → s.f RING_STAT.JOINED = 0 → s.ring.step = 0 → ∃ t, exec cmd s = .next t ∧ isRunning t ∧ t.f RING_CTL.ID = p0 % 64 ∧ t.ring.step = 1 ∧
        t.f RING_STAT.JSTATE = 1 ∧ t.f RING_STAT.JERR = 0 ∧ FieldsBut [RING_CTL.ID, RING_STAT.JSTATE, RING_STAT.JERR] s t ∧
        t = { s with regs := t.regs, jobs := t.jobs, ring := t.ring }) ∧
     (going 0x0C → s.f RING_STAT.JOINED = 1 → ends cmd csOK 0 (BitVec.ofNat 64 (s.f RING_CTL.ID + s.nodesSeen % 128 * 2 ^ 16)) 0 s) ∧
     (going 0x0C → s.f RING_STAT.JOINED = 0 → s.ring.step = 0 → s.f RING_STAT.JERR ≠ 0 → ends cmd csBADPARAM (s.f RING_STAT.JERR) 0 0 s)) ∧
    (let cmd := Instr.ringLeave f d
     (Executes 0x0D f d k j s → s.f RING_STAT.JOINED = 0 → ∃ X, ends cmd csOK 0 0 0 X ∧ X = { s with jobs := X.jobs }) ∧
     (Executes 0x0D f d k j s → s.f RING_STAT.JOINED = 1 → ∃ t, exec cmd s = .next t ∧ isRunning t ∧ t.ring.step = 6 ∧ t.ring.leaving = [0, 1].filter (fun r => s.ring.isOpen r) ∧
        (∀ r, r < 2 → s.ring.isOpen r = true → ∃ y : RingFrame, y.src.toNat = s.nodeId ∧ y.bc = true ∧ frameOk frLEAVE y = true ∧ Out.frame r frLEAVE y ∈ t.out) ∧
        t = { s with jobs := t.jobs, ring := t.ring, out := t.out }) ∧
     (going 0x0D → s.f RING_STAT.JOINED = 0 → ends cmd csOK 0 0 0 s)) ∧
    (let cmd := Instr.warmReset f d
     (Executes 0x11 f d k j s → s.sys.stage ≠ 0 → s.sys.trip = false → 1 ≤ s.f RST_STAT.SVC → s.f RST_STAT.SVC ≤ 2 → ∃ t, exec cmd s = .next t ∧
        (∃ j' ∈ t.jobs, j'.started = true ∧ j'.d = d ∧ j'.fn = f.val) ∧ t.f RST_CAUSE.WARMSRC = 2 ∧ t.f RST_CAUSE.WARMCNT = min (s.f RST_CAUSE.WARMCNT + 1) 65535 ∧
        t.sys.warmSvc = true ∧ t.isl = [] ∧ t.tlb = [] ∧ t.handling = []) ∧
     (going 0x11 → s.mbxReady f = true → s.sys.reloads = [] → s.f CFG_STAT.BUSY = 0 → s.sys.repair = none → ends cmd csOK 0 0 0 s))

/-- Outside reset (R3), QUAD_CONFIG_WRITE of a new rate or FEC stores it (200G, and a rate of the other ten rows, only from Full Service on), drops the PLL lock and puts the four
lanes off; an unchanged write changes nothing. LANE_ENABLE and LANE_TRAIN of a lane of a valid group with a running quad and no power rung set the fields and put
the lane, and the lanes of its group that are past seek, into seek with the modes of LANE_CTL, QUAD_PLL_LOCK a lane that waits for it; only a write of TRAIN ends a
reached replay limit; LANE_CLRCNT clears both
counters; SEEK_TIMEOUT once logs an error and clears UP. In lock, the eighth TRAIN block takes a group from seek on and from ready to normal operation with the
credits it names when every other lane of it may too, and is counted else; one of another N or FEC starts the count again, and a skew over 8 ns sends the group
to seek; other TRAIN blocks take a normal group to resync or seek; a lane without lock takes none, and one with TSTATE 0 no block. A lane in normal operation adds data and TOKEN blocks to the flight, or delivers them when timed, dropping and logging one
that finds the buffer full; FLIGHT_CLOSE delivers a good flight, refuses a bad one with one NAK and discards a duplicate; IDLE and QUIET deliver nothing, and
HALF of the next block takes a pad away; the first ABORT block delivers one ABORT token, or joins an open flight; an invalid block is counted, and spoils an open
flight or delivers two error words. A codeword that FEC corrected counts in FECCOR. Only the group changes. Where no rule says so, that a command whose condition
does not hold changes nothing is the model's choice (log entry 1). Log entries 34 and 54 name the model's choices. -/
def Obligations.LanesTrainAndReceive : Prop :=
  ∀ (q : Fin 48) (l : Fin 192) (v : BitVec 32) (early late : BitVec 32) (body : BitVec 51) (half fixed : Bool) (sb : BitVec 4) (fcrc : BitVec 32) (fseq : BitVec 8)
    (pay : BitVec 28) (cause : BitVec 4) (ts : BitVec 3) (icred : BitVec 16) (nseq skew : BitVec 8) (s : State),
    let x := s.getLane l
    let f := s.leader l
    let y := s.getLane f
    let ls := s.groupLanes l
    let fec := s.on (LQ_CFG.FEC (laneQuad l))
    let near (t : State) : Prop := t = { s with regs := t.regs, lanes := t.lanes } ∧ LanesBut [l.val, f] s t
    let logged (code : Nat) (t : State) : Prop := Logged code (s.owner (laneRow l)) (srcOf 3 l) s t
    let plus (r : RF) (k : Nat) (t : State) : Prop := t.f r = min (s.f r + k) r.max
    let noted (fs : List RF) (t : State) : Prop := plus (LANE_ERRCNT.FECCOR l) (b2n (fixed && fec)) t ∧ FieldsBut (LANE_ERRCNT.FECCOR l :: fs) s t ∧ near t
    (let rate := v.toNat % 8
     let fec := v.toNat / 16 % 2
     s.trimmed = true → rate ≤ 4 → (rate = 4 ∨ 8 ≤ q.val → s.f RST_STAT.SVC = 2) →
      (s.f (LQ_CFG.RATE q) = rate → s.f (LQ_CFG.FEC q) = fec → exec (.quadConfigWrite q v) s = .next s) ∧
      (s.f (LQ_CFG.RATE q) ≠ rate → ∃ t, exec (.quadConfigWrite q v) s = .next t ∧ t.f (LQ_CFG.RATE q) = rate ∧ t.f (LQ_CFG.FEC q) = fec ∧ t.f (LQ_STAT.PLL q) = 0 ∧
        (∀ k, k < 4 → t.f (LANE_STAT.TSTATE (4 * q.val + k)) = 0 ∧ t.f (LANE_STAT.UP (4 * q.val + k)) = 0) ∧
        LanesBut [4 * q.val, 4 * q.val + 1, 4 * q.val + 2, 4 * q.val + 3] s t ∧ t = { s with regs := t.regs, lanes := t.lanes })) ∧
    (s.trimmed = false → exec (.quadConfigWrite q v) s = .next s ∧ exec (.laneEnable l v) s = .next s ∧ exec (.laneTrain l) s = .next s) ∧
    (let p := s.owner (laneRow l)
     let ready := (s.groupOf l).2.2.2 = true ∧ l.val ∈ ls ∧ s.f (LQ_CFG.RATE (laneQuad l)) ≠ 0 ∧ (12 ≤ p ∨ s.f (PWR_PART.CUR p) = 0)
     let seeks (stop : Bool) (t : State) : Prop := t.f (LANE_STAT.TSTATE l) = 1 ∧ t.f (LANE_STAT.UP l) = 0 ∧ (t.getLane l).txt = t.on (LANE_CTL.TXT l) ∧
       (t.getLane l).rxt = t.on (LANE_CTL.RXT l) ∧ (t.getLane l).rpen = t.on (LANE_CTL.RPEN l) ∧ (t.getLane f).stopped = stop ∧
       (∀ k ∈ ls, k ≠ l.val → t.tstate k = if 2 ≤ s.tstate k then 1 else s.tstate k) ∧ LanesBut (l.val :: ls) s t
     ready →
      (s.trimmed = true → s.f (LANE_CTL.EN l) = 0 → s.f (LQ_STAT.PLL (laneQuad l)) = 1 → ∃ t, exec (.laneEnable l v) s = .next t ∧ seeks (y.stopped && !v.getLsbD 16) t ∧ t.f (LANE_CTL.EN l) = 1 ∧
        t.f (LANE_CTL.TXT l) = v.toNat / 2 ^ 30 % 2 ∧ t.f (LANE_CTL.RXT l) = v.toNat / 2 ^ 29 % 2 ∧ t.f (LANE_CTL.FLEN l) = v.toNat / 2 ^ 17 % 32) ∧
      (s.trimmed = true → s.f (LANE_CTL.EN l) = 1 → s.f (LANE_CTL.TRAIN l) = 0 → s.f (LQ_STAT.PLL (laneQuad l)) = 1 → ∃ t, exec (.laneTrain l) s = .next t ∧ seeks false t ∧
        t.f (LANE_CTL.EN l) = 1) ∧
      (x.pll = true → (8 ≤ laneQuad l → s.f RST_STAT.SVC = 2) → (∀ k : Fin 192, k ≠ l → laneQuad k = laneQuad l → (s.getLane k).pll = false) →
        ∃ t, exec (.quadPllLock (⟨laneQuad l, by unfold laneQuad; omega⟩ : Fin 48)) s = .next t ∧ seeks y.stopped t ∧ t.f (LQ_STAT.PLL (laneQuad l)) = 1)) ∧
    (∃ t, exec (.laneClrcnt l) s = .next t ∧ t.rd (LANE_ERRCNT l) = 0 ∧ t.rd (LANE_RPCNT l) = 0 ∧ OnlyFields [whole (LANE_ERRCNT l), whole (LANE_RPCNT l)] s t) ∧
    (s.tstate l = 1 → x.seekLogged = false → ∃ t, exec (.seekTimeout l) s = .next t ∧ (t.getLane l).seekLogged = true ∧ t.f (LANE_STAT.UP l) = 0 ∧ logged 0x0302 t ∧
      exec (.seekTimeout l) t = .next t) ∧
    (s.tstate l = 0 → ∀ cmd ∈ [Instr.dataBlock l early late fixed, .tokenBlock l body half sb fixed, .idleBlock l half sb fixed, .quietBlock l cause half sb fixed,
      .abortBlock l pay cause half sb fixed, .flightClose l fcrc fseq half sb fixed, .invalidBlock l half fixed, .trainBlock l ts 0 icred fixed nseq skew half sb fixed,
      .creditReturn l nseq fixed icred half sb true fixed], exec cmd s = .next s) ∧
    (x.lock = false → x.hdrs.length < 63 → s.tstate l ≠ 0 → ∃ t, exec (.trainBlock l ts 0 icred fec nseq skew half sb fixed) s = .next t ∧ t.tstate l = s.tstate l ∧
      (t.getLane l).rxTrain = 0 ∧ noted [] t) ∧
    (let locked := x.lock = true ∧ (((true :: x.hdrs).take 64).filter (fun b => !b)).length < 16
     locked →
      (let c (n : Nat) (c : Bool) := Instr.trainBlock l ts (BitVec.ofNat 2 n) icred c nseq skew half sb fixed
       let n := s.bondN f
       let around (t : State) : Prop := t = { s with regs := t.regs, lanes := t.lanes } ∧ LanesBut (l.val :: f :: ls) s t
       let others (st need sent : Nat) : Prop := ∀ k ∈ ls, k ≠ l.val → s.tstate k = st ∧ (s.getLane k).lock = true ∧ need ≤ (s.getLane k).rxTrain ∧ sent ≤ (s.getLane k).txTrain
       l.val ∈ ls →
       (s.tstate l = 1 →
         (7 ≤ x.rxTrain → others 1 8 0 → ∃ t, exec (c n fec) s = .next t ∧
           (∀ k ∈ ls, t.tstate k = if ls.all (fun k => (s.getLane k).keepState) then 4 else 2) ∧ around t) ∧
         (x.rxTrain < 7 ∨ ¬ others 1 8 0 → ∃ t, exec (c n fec) s = .next t ∧ t.tstate l = 1 ∧ (t.getLane l).rxTrain = x.rxTrain + 1 ∧ near t) ∧
         (∃ t, exec (c n (!fec)) s = .next t ∧ t.tstate l = 1 ∧ (t.getLane l).rxTrain = 0 ∧ near t) ∧
         (∃ t, exec (c (n + 1) fec) s = .next t ∧ t.tstate l = 1 ∧ (t.getLane l).rxTrain = 0 ∧ near t)) ∧
       (s.tstate l = 2 → ts = 2 →
         (ls.length < 2 ∨ skew.toNat ≤ 80 → 7 ≤ x.rxTrain → 16 ≤ x.txTrain → others 2 8 16 → ∃ t, exec (c n fec) s = .next t ∧
           (∀ k ∈ ls, t.tstate k = 3 ∧ t.f (LANE_STAT.UP k) = 1) ∧ t.f (LANE_SKEW.SKEW f) = skew.toNat ∧ (t.getLane f).credLimit = icred.toNat ∧ (t.getLane f).fseq = 0 ∧
           (t.getLane f).rxSeq = 0 ∧ (t.getLane f).flight = [] ∧ (t.getLane f).granted = 512 ∧ (t.getLane f).turn = 0 ∧ around t) ∧
         (2 ≤ ls.length → 80 < skew.toNat → ∃ t, exec (c n fec) s = .next t ∧ t.f (LANE_STAT.DESKEW f) = 1 ∧ ∀ k ∈ ls, 2 ≤ s.tstate k → t.tstate k = 1)) ∧
       (s.tstate l = 3 → (ts = 4 → ∃ t, exec (c n fec) s = .next t ∧ (∀ k ∈ ls, t.tstate k = 4) ∧ around t) ∧
         (ts = 1 ∨ ts = 2 → ∃ t, exec (c n fec) s = .next t ∧ (∀ k ∈ ls, 2 ≤ s.tstate k → t.tstate k = 1 ∧ (t.getLane k).keepState = true) ∧ around t))) ∧
      (s.rxTakes l = true →
        let cut (h : Bool) : List StreamItem := if y.late && h then (dropPad y.buf.items).1 else y.buf.items
        let base (h : Bool) : List StreamItem := if y.rxt then cut h else y.buf.items
        let item (w : AWord) (e : Bool) : StreamItem := { w := w, ends := e, mask := 0 }
        let has (t : State) (is : List StreamItem) (bs : List Blk) : Prop := (t.getLane f).buf.items = is ∧ (t.getLane f).flight = bs
        let token := AWord.mk true (cause != 0) 0 (BitVec.ofNat 32 (tokABORT * 2 ^ 28 + pay.toNat))
        (y.rxt = false →
          (∃ t, exec (.dataBlock l early late fixed) s = .next t ∧ has t y.buf.items (y.flight ++ [.data early late]) ∧ noted [] t) ∧
          (∃ t, exec (.tokenBlock l body half sb fixed) s = .next t ∧ has t y.buf.items (y.flight ++ [.ctl (BitVec.ofNat 8 tyTOKEN) sb half body]) ∧
            (t.getLane l).rxSb = sb ∧ noted [] t) ∧
          (let counted := y.flight.filter Blk.counts
           let close := Instr.flightClose l fcrc fseq half sb fixed
           let bad := y.flightBad = true ∨ flightCrc counted ≠ fcrc.toNat
           let dropped (t : State) : Prop := has t y.buf.items [] ∧ (t.getLane f).flightBad = false ∧ (t.getLane f).rxSeq = y.rxSeq ∧
             (t.getLane f).granted = (y.granted + counted.length) % 65536
           (¬ bad → fseq.toNat = y.rxSeq → ∃ t, exec close s = .next t ∧ has t (cut (flightHalf half y.flight) ++ flightItems half y.flight) [] ∧
             (t.getLane f).rxSeq = (y.rxSeq + 1) % 256 ∧ (t.getLane f).ackDue = true ∧ (t.getLane f).naked = false ∧ (t.getLane f).nakDue = false ∧ noted [] t) ∧
           (bad → y.naked = false → ∃ t, exec close s = .next t ∧ dropped t ∧ (t.getLane f).nakDue = true ∧ (t.getLane f).naked = true ∧ (t.getLane f).ls1 = true ∧
             plus (LANE_RPCNT.NAKS f) 1 t ∧ noted [LANE_RPCNT.NAKS f] t) ∧
           (¬ bad → fseq.toNat ≠ y.rxSeq → ∃ t, exec close s = .next t ∧ dropped t ∧
             ((y.rxSeq + 256 - fseq.toNat) % 256 ≤ 127 → (t.getLane f).ackDue = true) ∧ noted [] t)) ∧
          (∃ t, exec (.invalidBlock l true fixed) s = .next t ∧ has t y.buf.items y.flight ∧ (t.getLane f).flightBad = !y.flight.isEmpty ∧
            plus (LANE_ERRCNT.BADBLK l) 1 t ∧ noted [LANE_ERRCNT.BADBLK l] t) ∧
          (y.rxAbort = false → ∃ t, exec (.abortBlock l pay cause half sb fixed) s = .next t ∧ (t.getLane f).rxAbort = true ∧
            (if y.flight = [] then has t (cut half ++ [item token false]) []
              else has t y.buf.items (y.flight ++ [.ctl (BitVec.ofNat 8 tyABORT) sb half (BitVec.ofNat 51 (pay.toNat + cause.toNat * 2 ^ 28))])) ∧ noted [] t)) ∧
        (y.rxt = true →
          let room := ((cut half).filter (fun i => i.ends)).length + (y.flight.filter Blk.counts).length < 512
          let full (t : State) : Prop := t.f (LANE_STAT.RXOVF l) = 1 ∧ (t.getLane f).ls1 = true ∧ plus (LANE_ERRCNT.BADBLK l) 1 t ∧ logged 0x0303 t
          (y.rxHeld < 512 →
            (∃ t, exec (.dataBlock l early late fixed) s = .next t ∧ has t (y.buf.items ++ [item (rxWord false early) false, item (rxWord false late) true]) y.flight ∧
              (t.getLane f).late = true ∧ noted [] t) ∧
            (room → ∃ t, exec (.tokenBlock l body half sb fixed) s = .next t ∧ has t (cut half ++ [item (bodyToken body.toNat) true]) y.flight ∧ (t.getLane f).late = false ∧ noted [] t) ∧
            (∃ t, exec (.invalidBlock l true fixed) s = .next t ∧ has t (y.buf.items ++ [item (rxWord true 0) false, item (rxWord true 0) true]) y.flight ∧
              (t.getLane f).ls1 = true ∧ plus (LANE_ERRCNT.BADBLK l) 1 t ∧ logged 0x0303 t) ∧
            (room → y.rxAbort = false → ∃ t, exec (.abortBlock l pay cause half sb fixed) s = .next t ∧ (t.getLane f).rxAbort = true ∧ has t (cut half ++ [item token true]) y.flight ∧
              noted [] t)) ∧
          (512 ≤ y.rxHeld → ∃ t, exec (.dataBlock l early late fixed) s = .next t ∧ has t y.buf.items y.flight ∧ full t) ∧
          (512 ≤ y.rxHeld → y.rxAbort = false → ∃ t, exec (.abortBlock l pay cause false sb fixed) s = .next t ∧ has t y.buf.items y.flight ∧ (t.getLane f).rxAbort = false ∧
            full t)) ∧
        (∀ cmd ∈ [Instr.idleBlock l half sb fixed, .quietBlock l cause half sb fixed], ∃ t, exec cmd s = .next t ∧ has t (base half) y.flight ∧ (t.getLane l).rxSb = sb ∧
          (t.getLane f).rxAbort = false ∧ (y.rxt = true → (t.getLane f).late = false) ∧ noted [] t) ∧
        (y.rxAbort = true → ∃ t, exec (.abortBlock l pay cause half sb fixed) s = .next t ∧ has t (base half) y.flight ∧ noted [] t)))

/-- A block time sends one block, with the sideband bits of its moment: QUIET with its cause where the lane must, and in normal operation, on the lane of the group
whose turn it is and with nothing to collect from its tracks, the return block that is owed, the close block of a full flight, the next assembled block against a
credit, or IDLE, which is all a lane sends whose stream does not run; before normal operation the lane sends TRAIN, in ready all lanes of its group in the turn
of the first. The copies of a return block are
one block, a NAK goes before an acknowledgement owed beside it, and a closed flight counts the items of its blocks. A timed lane sends the inserted SYNC block and the blocks of its burst, between bursts ABORT blocks, return blocks and IDLE.
FLIGHT_END closes the flight with its CRC and sequence, which then waits for its acknowledgement. CREDIT_RETURN_TIMER sends the return block, or after a burst. CREDIT_RETURN
takes the credit limit and acknowledges the flights up to its sequence, and does neither where the receiver discards everything; copies out of line send the lanes of the group back to seek. ACK_TIMEOUT without replay
counts and logs the oldest flight as lost; with replay it starts over from the first unacknowledged flight, and after 16 replays sets RPFAIL and stops. TIMED_BURST_START
starts the burst of a lane that holds two blocks or the end; BURST_UNDERRUN ends it with eight ABORT blocks of cause 1 and IDLE, UNDR and a record; TX_ABORT_TOKEN queues
eight ABORT blocks with the token's payload and IDLE. Where no rule says so, that a command whose condition does not hold changes nothing is the model's choice (log
entry 1). Log entries 34 and 54 name the model's choices. -/
def Obligations.LanesTransmitFlightsAndReplay : Prop :=
  ∀ (l : Fin 192) (aseq : BitVec 8) (cred : BitVec 16) (nak half fixed : Bool) (sb : BitVec 4) (s : State),
    let f := s.leader l
    let x := s.getLane f
    let g := (s.groupOf l).2.1
    let n := (s.groupOf l).2.2.1
    let ls := s.groupLanes l
    let ts := s.tstate l
    let stamp (k : Nat) (b : Blk) : Blk := match b with
      | .data e a => .data e a
      | .ctl ty _ h body => .ctl ty (s.txSb k) h body
    let on := f + x.turn % n
    let turned (b : Blk) : State :=
      let t := { s with out := s.out ++ [Out.block on (stamp on b)] }
      if n ≤ 1 then t else t.onLane f (fun y => { y with turn := (y.turn + 1) % n })
    let sends (c : Instr) (b : Blk) (h : Lane → Lane) : Prop := exec c s = .next ((turned b).onLane f h)
    let just (c : Instr) (b : Blk) : Prop := exec c s = .next (turned b)
    let time := Instr.laneBlockTime l
    let idle := ctlBlk tyIDLE 0 false
    let aborts (body : Nat) : List Blk := List.replicate 8 (ctlBlk tyABORT body false) ++ [idle]
    let closeBlk := ctlBlk tyCREDIT (flightCrc x.inFlight + x.fseq * 2 ^ 32) false
    let close (y : Lane) : Lane := { y with unacked := y.unacked ++ [{ fseq := y.fseq, items := y.opened }], inFlight := [], opened := 0, fseq := (y.fseq + 1) % 256, idle := 0 }
    let returned (y : Lane) : Lane :=
      if 0 < y.copies then { y with copies := y.copies - 1 }
      else { y with copies := n - 1, copied := returnBlk y, returned := y.granted, ackDue := y.ackDue && y.nakDue, nakDue := false }
    let returnNext := if 0 < x.copies then x.copied else returnBlk x
    let items (b : Blk) (rest : List Blk) : Nat := match b, rest with
      | .data _ _, .ctl _ _ h _ :: _ => 2 - b2n h
      | .data _ _, _ => 2
      | .ctl _ _ _ _, _ => 1
    let owes := 0 < x.copies ∨ (x.rxt = false ∧ (x.ackDue = true ∨ x.nakDue = true ∨ 16 ≤ (x.granted + 65536 - x.returned) % 65536))
    let full := x.inFlight ≠ [] ∧ (s.flightLen f ≤ x.inFlight.length ∨ 8 * n ≤ x.idle)
    (s.laneDown l = true ∨ ts = 0 → exec time s = .next s) ∧
    (s.laneDown l = false → ts ≠ 0 →
      (∀ c, s.quietCause l = some c → if ts = 3 then just time (ctlBlk tyQUIET c false) else exec time s = .next { s with out := s.out ++ [.block l (stamp l (ctlBlk tyQUIET c false))] }) ∧
      (s.quietCause l = none →
        (ts ≠ 2 → ts ≠ 3 → exec time s = .next (State.onLane { s with out := s.out ++ [.block l (stamp l (s.trainBlk l ts))] } l (fun y => { y with txTrain := y.txTrain + 1 }))) ∧
        (ts = 2 → l.val ≠ f → exec time s = .next s) ∧
        (ts = 2 → l.val = f → ∃ t, exec time s = .next t ∧ LanesBut ls s t ∧
          t.out = s.out ++ (ls.filter (fun k => s.tstate k == 2)).map (fun k => Out.block k (stamp k (s.trainBlk k 2))) ∧
          ∀ k ∈ ls, s.tstate k = 2 → (t.getLane k).txTrain = (s.getLane k).txTrain + 1) ∧
        (ts = 3 → s.txRuns l = false → just time idle) ∧
        (ts = 3 → s.txRuns l = true → (∀ k, k < g → s.trackWord (laneRow f) (laneEnd f) (lanePos f + k) = none) → 0 < g →
          (x.txt = false →
            (owes → x.aborting = false ∨ 0 < x.copies → sends time returnNext returned) ∧
            (¬ owes → x.stopped = true → just time idle) ∧
            (¬ owes → x.stopped = false → full → sends time closeBlk close) ∧
            (¬ owes → x.stopped = false → ¬ full →
              (x.blocks = [] → sends time idle (fun y => { y with idle := y.idle + 1 })) ∧
              (∀ b rest, x.blocks = b :: rest →
                (b.counts = true → 1 ≤ x.credits ∧ x.credits ≤ 32768 →
                  sends time b (fun y => { y with blocks := rest, sent := (y.sent + 1) % 65536, inFlight := y.inFlight ++ [stamp on b], opened := y.opened + items b rest, idle := 0 })) ∧
                (b.counts = true → ¬ (1 ≤ x.credits ∧ x.credits ≤ 32768) → just time idle) ∧
                (b.counts = false → sends time b (fun y => { y with blocks := rest }))))) ∧
          (x.txt = true →
            (0 < x.copies → sends time x.copied returned) ∧
            (x.copies = 0 →
              (x.burst = true → x.opening = true → sends time (tokenBlk (mkTok tokSYNC 0) true true false) (fun y => { y with opening := false })) ∧
              (∀ b rest, x.blocks = b :: rest → (x.burst = true ∧ x.opening = false) ∨ (x.burst = false ∧ b.counts = false) →
                sends time b (fun y => { y with blocks := rest, burst := y.burst && !b.isEos && b.counts })) ∧
              (x.burst = false → x.aborting = false → (owes → sends time (returnBlk x) returned) ∧ (¬ owes → just time idle))))))) ∧
    (s.txRuns l = true →
      (x.txt = false → x.stopped = false → full → sends (.flightEnd l) closeBlk close) ∧
      (x.rxt = false → x.burst = false → x.aborting = false → sends (.creditReturnTimer l) returnNext returned) ∧
      (x.rxt = false → x.burst = true ∨ x.aborting = true → exec (.creditReturnTimer l) s = .next (s.onLane f (fun y => { y with ackDue := true })))) ∧
    (let y := s.getLane l
     let locked := y.lock = true ∧ (((true :: y.hdrs).take 64).filter (fun b => !b)).length < 16
     let takes (t : State) : Prop := (t.getLane f).credLimit = cred.toNat ∧ LanesBut [l.val, f] s t ∧ FieldsBut [LANE_ERRCNT.FECCOR l] s t ∧ t = { s with regs := t.regs, lanes := t.lanes }
     (locked → ts = 3 → s.rxDiscards l = true → ∃ t, exec (.creditReturn l aseq nak cred half sb true fixed) s = .next t ∧ (t.getLane f).credLimit = x.credLimit ∧
        (t.getLane f).unacked = x.unacked ∧ LanesBut [l.val, f] s t ∧ FieldsBut [LANE_ERRCNT.FECCOR l] s t ∧ t = { s with regs := t.regs, lanes := t.lanes }) ∧
     (locked → s.rxTakes l = true →
      (x.unacked.all (fun w => w.fseq != aseq.toNat) = true → ∃ t, exec (.creditReturn l aseq false cred half sb true fixed) s = .next t ∧ takes t ∧
        (t.getLane f).unacked = x.unacked) ∧
      (∀ w rest, x.unacked = w :: rest → w.fseq = aseq.toNat → ∃ t, exec (.creditReturn l aseq false cred half sb true fixed) s = .next t ∧ takes t ∧
        (t.getLane f).unacked = rest ∧ (t.getLane f).acked = x.acked + w.items ∧ (t.getLane f).replays = 0) ∧
      (∃ t, exec (.creditReturn l aseq nak cred half sb false fixed) s = .next t ∧ t.f (LANE_STAT.DESKEW f) = 1 ∧
        ∀ k ∈ s.groupLanes f, 2 ≤ s.tstate k → t.tstate k = 1 ∧ (t.getLane k).keepState = true))) ∧
    (ts = 3 → ∀ w rest, x.unacked = w :: rest →
      (x.rpen = false → ∃ t, exec (.ackTimeout l) s = .next t ∧ (t.getLane f).unacked = rest ∧ LanesBut [f] s t ∧
        t.f (LANE_RPCNT.LOST f) = min (s.f (LANE_RPCNT.LOST f) + 1) (LANE_RPCNT.LOST f).max ∧ Logged 0x0305 (s.owner (laneRow f)) (srcOf 3 f) s t) ∧
      (x.rpen = true → x.stopped = true → exec (.ackTimeout l) s = .next s) ∧
      (x.rpen = true → x.stopped = false → x.replays < 16 → x.rpq < 4 → ∃ t, exec (.ackTimeout l) s = .next t ∧ (t.getLane f).fseq = w.fseq ∧ (t.getLane f).unacked = [] ∧
        (t.getLane f).inFlight = [] ∧ (t.getLane f).blocks = [] ∧ (t.getLane f).replays = x.replays + 1 ∧
        t.f (LANE_RPCNT.REPLAYS f) = min (s.f (LANE_RPCNT.REPLAYS f) + 1) (LANE_RPCNT.REPLAYS f).max ∧ LanesBut [f] s t ∧
        (s.islRuns (s.laneIsl f) = true → s.qPending (s.laneIsl f) x.rpq = 0 → s.qMarked (s.laneIsl f) x.rpq = true →
          t.f (ISL_QPTR.HEAD (s.laneIsl f) x.rpq) = s.f (ISL_QPTR.MARK (s.laneIsl f) x.rpq))) ∧
      (x.rpen = true → x.stopped = false → 16 ≤ x.replays → ∃ t, exec (.ackTimeout l) s = .next t ∧ t.f (LANE_STAT.RPFAIL f) = 1 ∧
        t.getLane f = { x with stopped := true } ∧ LanesBut [f] s t ∧ Logged 0x0306 (s.owner (laneRow f)) (srcOf 3 f) s t)) ∧
    (s.txRuns l = true → x.txt = true → x.burst = false → (let bs := x.blocks.takeWhile Blk.counts; 2 ≤ bs.length ∨ bs.any Blk.isEos = true) →
      exec (.timedBurstStart l) s = .next (s.onLane f (fun y => { y with burst := true, opening := (x.blocks.head?.bind Blk.type).isNone }))) ∧
    (ts = 3 → x.burst = true → x.blocks = [] → ∃ t, exec (.burstUnderrun l) s = .next t ∧ t.f (LANE_STAT.UNDR f) = 1 ∧ t.f (LANE_STAT.UCAUSE f) = 1 ∧
      t.getLane f = { x with held := none, asm := false, burst := false, opening := false, discard := true, blocks := aborts (2 ^ 28) } ∧
      LanesBut [f] s t ∧ Logged 0x0304 (s.owner (laneRow f)) (srcOf 3 f) s t) ∧
    (∀ v : AWord, s.txRuns l = true → x.stopped = false → s.trackToken f g = some v → v.type = tokABORT →
      x.replayDrop = 0 → x.ackDrop = 0 → x.discard = false → x.held = none → ∃ t, exec (.txAbortToken l) s = .next t ∧
        (t.getLane f).blocks = x.blocks ++ aborts ((AWord.data v).toNat % 2 ^ 28) ∧ (t.getLane f).held = none)

/-- A write of MMU_INV while BUSY reads 0 is taken with BUSY set, by a virtual function or a sequencer within its partition's address spaces only; while BUSY it
sets INVLOST. Its completion removes exactly the matching translations, sets PINUSED and clears BUSY. A walk over three pointers and a valid leaf gives the 4
KiB page of the leaf, and PAGE_TABLE_WALK keeps what it finds. DMA_GO starts an idle channel of a partition; DMA_DESCRIPTOR_FETCH loads a sound, well-formed
descriptor, suspends the channel with code 6 on a poisoned and 5 on a reserved one, at side 2; DMA_UNIT_TRANSFER from a bank to host memory copies the 8 bytes, and
a fill stores the pattern, and adds 8 to DONE; from host memory, whose reads the host may end with an error, it copies or suspends with code 3 at side 0; at an
unmapped destination it suspends with code 3 at side 1; DMA_RESUME removes the fault entry and reads the descriptor again; DMA_ABORT reports DONE and END 3 in the
descriptor it holds or can read and goes idle. MSP_GO of an untimed stream starts it with the range and address space of its registers; a timed one that fails a
check of R296 keeps its code in ARMERR; MSP_READ_COMPLETE accepts the next word, and at the end of the range its end token, with which the stream is done;
MSP_WRITE_WORD stores a data word
of a track; MSP_RESUME and MSP_ABORT move STATE, the latter with an ABORT token. Log entries 19, 60 and 65 name the model's choices. -/
def Obligations.TranslationsChannelsAndStreams : Prop :=
  ∀ (r : Fin 13) (n : Fin 24) (c : Fin 64) (p : Fin 24) (k : Fin 16) (kr : Fin 8) (v : BitVec 64) (va : BitVec 48) (s : State),
    let inv (q : Option Nat) (cmd : Instr) : Prop :=
      (s.f MMU_INV.BUSY = 1 → exec cmd s = .next (s.setF MMU_STAT.INVLOST 1)) ∧
      (s.f MMU_INV.BUSY = 0 → ∃ t, exec cmd s = .next t ∧ t.f MMU_INV.BUSY = 1 ∧ t.f MMU_INV.PIN = getBits v 60 60 ∧ t.f MMU_INV.VPN = getBits v 35 0 ∧
        (match q with
          | none => t.f MMU_INV.TYPE = getBits v 62 61 ∧ t.f MMU_INV.ASID = getBits v 59 44
          | some x => t.f MMU_INV.TYPE = getBits v 62 61 % 3 ∧ t.f MMU_INV.ASID = x * 4096 + getBits v 55 44) ∧ OnlyFields [whole MMU_INV] s t)
    inv (if r.val = 0 then none else some ((s.vfPart r).getD 15)) (.tlbInvalidate (.fn r) v) ∧ inv (some ((s.seqPart n).getD 15)) (.tlbInvalidate (.seq n) v) ∧
    (s.f MMU_INV.BUSY = 1 → ∃ t, exec .invalidationComplete s = .next t ∧ t.tlb = s.tlb.filter (fun e => !invMatches (s.rd MMU_INV) e) ∧ t.f MMU_INV.BUSY = 0 ∧
      t.f MMU_STAT.PINUSED = (t.tlb.filter (fun e => e.pinned)).length % 1024 ∧ FieldsBut [MMU_INV.BUSY, MMU_STAT.PINUSED, MMU_STAT.PINHIT] s t ∧
      t = { s with regs := t.regs, tlb := t.tlb }) ∧
    (let root := (s.getSeq n).ptbase
     let part := (s.seqPart n).getD 15
     let entry (level base : Nat) : Nat := base + va.toNat / 2 ^ (12 + 9 * level) % 512 * 8
     let reads (a : Nat) (w : Word) : Prop := readPte a part (srcSeq n) s = (some w, s)
     let valid (w : Word) : Prop := pteV w = true ∧ getBits w 63 52 = 0 ∧ getBits w 11 7 = 0
     let pointer (w : Word) : Prop := valid w ∧ getBits w 6 1 = 0
     (∀ w3 w2 w1 w0 : Word, reads (entry 3 root) w3 → reads (entry 2 (ptePpn w3 * 4096)) w2 → reads (entry 1 (ptePpn w2 * 4096)) w1 →
        reads (entry 0 (ptePpn w1 * 4096)) w0 → pointer w3 → pointer w2 → pointer w1 → valid w0 → walk part (srcSeq n) va.toNat 3 root s = (some (12, w0), s)) ∧
     (∀ s1, walk part (srcSeq n) va.toNat 3 root s = (none, s1) → (∀ e ∈ s.tlb, e.hits (s.seqAsid n) va.toNat = false) →
        exec (.pageTableWalk (.seq n) va) s = .next s1) ∧
     (∀ b w s1, walk part (srcSeq n) va.toNat 3 root s = (some (b, w), s1) → (∀ e ∈ s.tlb, e.hits (s.seqAsid n) va.toNat = false) →
        ∃ t, exec (.pageTableWalk (.seq n) va) s = .next t ∧
          t.tlb = { asid := s.seqAsid n, bits := b, page := va.toNat / 2 ^ b, leaf := w, pinned := ptePin w && decide (s1.f MMU_STAT.PINUSED < 512) } :: s1.tlb ∧
          t.mem = s1.mem ∧ FieldsBut [MMU_STAT.PINUSED, MMU_STAT.PINFULL] s1 t)) ∧
    (let x := s.getCh c
     let st := s.f (DMA_CH_CSR.STATE c)
     let open_ := s.partDown (s.chPart c) = false ∧ s.f (DMA_CH_XLT.TE c) = 0
     let a := s.f (DMA_CH_DESC.ADDR c) * 64
     let failed (code side addr : Nat) (s0 t : State) : Prop := t.f (DMA_CH_CSR.STATE c) = 2 ∧ t.f (DMA_CH_CSR.FCODE c) = code ∧ t.f (DMA_CH_CSR.FSIDE c) = side ∧
       t.f (DMA_CH_FVA.ADDR c) = addr % 2 ^ 52 ∧ t.tlb = s0.tlb
     (s.dmaClk = true → st = 0 → s.chPart c ≠ 15 → ∃ t, exec (.dmaGo c) s = .next t ∧ t.f (DMA_CH_CSR.STATE c) = 1 ∧ t.getCh c = Chan.empty ∧
       FieldsBut [DMA_CH_CSR.STATE c] s t ∧ t = { s with regs := t.regs, dmas := t.dmas }) ∧
     (∀ ws bad s1, st = 1 → x.loaded = false → open_ → s.portHeld (a % 2 ^ 52) = false → busWords 8 (a % 2 ^ 52) s = (some (ws, bad), s1) →
       let w (i : Nat) : Nat := ws.getD i 0
       let reserved := w 0 / 2 ^ 12 ≠ 0 ∨ w 0 / 2 ^ 5 % 8 ≠ 0 ∨ w 3 / 2 ^ 40 ≠ 0 ∨ w 4 / 2 ^ 40 ≠ 0 ∨ w 5 / 2 ^ 52 % 2 ≠ 0 ∨ w 5 % 2 ^ 32 ≠ 0 ∨ w 6 / 2 ^ 52 ≠ 0
       let aligned := w 2 % 4 = 0 ∧ w 3 % 4 = 0 ∧ (w 0 % 2 = 0 → w 1 % 4 = 0)
       (bad = true → ∃ t, exec (.dmaDescriptorFetch c) s = .next t ∧ failed 6 2 a s1 t) ∧
       (bad = false → reserved → ∃ t, exec (.dmaDescriptorFetch c) s = .next t ∧ failed 5 2 a s1 t) ∧
       (bad = false → ¬ reserved → aligned → w 4 < w 3 → ∃ t, exec (.dmaDescriptorFetch c) s = .next t ∧
         t.getCh c = { s1.getCh c with loaded := true, pa := a % 2 ^ 52, ctl := w 0, src := w 1, dst := w 2, len := w 3, done := w 4, next := w 7 } ∧
         t = { s1 with dmas := t.dmas })) ∧
     (st = 1 → x.loaded = true → open_ →
       let from_ := x.src + x.done
       let dest := x.dst + x.done
       let inHost := hostBase ≤ dest ∧ dest < 2 ^ 52
       let nowhere := 0x4_0000_0000 ≤ dest ∧ dest < 0x5_0000_0000
       let unit := Instr.dmaUnitTransfer c false
       let moved (bs : Nat → Byte) (t : State) : Prop := (∀ i, i < 8 → t.byte (dest + i) = bs i) ∧ BytesBut (fun y => (dest ≤ y ∧ y < dest + 8) ∨ y = eccKey dest) s t ∧
         t.getCh c = { x with done := x.done + 8 } ∧ t = { s with mem := t.mem, dmas := t.dmas, free := t.free }
       dest % 8 = 0 → x.done + 16 ≤ x.len →
       (bitOf x.ctl 0 = true → (x.done % 8 = 0 → inHost → MemOk s → ∃ t, exec unit s = .next t ∧ moved (fun i => BitVec.ofNat 8 (x.src / 256 ^ i)) t) ∧
         (nowhere → ∃ t, exec unit s = .next t ∧ failed 3 1 dest s t)) ∧
       (bitOf x.ctl 0 = false → from_ % 8 = 0 →
         (bankBase 0 ≤ from_ → from_ < bankBase 24 → s.seqClk ((from_ - bankBase 0) / 0x10_0000) = true → s.ecc from_ = 0 →
           (inHost → MemOk s → ∃ t, exec unit s = .next t ∧ moved (fun i => s.byte (from_ + i)) t) ∧ (nowhere → ∃ t, exec unit s = .next t ∧ failed 3 1 dest s t)) ∧
         (hostBase ≤ from_ → from_ < 2 ^ 52 → s.ecc from_ ≠ 2 → inHost → MemOk s → ∃ t, exec unit s = .next t ∧
           (moved (fun i => s.byte (from_ + i)) t ∨ failed 3 0 from_ s t)))) ∧
     (s.dmaClk = true → st = 2 → ∃ t, exec (.dmaResume c) s = .next t ∧ t.f (DMA_CH_CSR.STATE c) = 1 ∧ t.getCh c = { x with loaded := false } ∧
       (∀ m, (t.getSeq m).dmaq = (s.getSeq m).dmaq.filter (fun e => !(e.stream == false && e.port == 0 && e.index == c.val))) ∧
       FieldsBut [DMA_CH_CSR.STATE c] s t ∧ t = { s with regs := t.regs, dmas := t.dmas, seqs := t.seqs }) ∧
     (s.dmaClk = true → st ≠ 0 →
       (∃ t, exec (.dmaAbort c) s = .next t ∧ t.f (DMA_CH_CSR.STATE c) = 0 ∧ t.getCh c = Chan.empty ∧
         ∀ e s1, x.loaded = false → chWords c true s = (.error e, s1) → t.mem = s1.mem) ∧
       (x.loaded = true → hostBase ≤ x.pa → x.pa + 64 ≤ 2 ^ 52 → x.pa % 64 = 0 → bitOf x.ctl 4 = false → MemOk s → ∃ t, exec (.dmaAbort c) s = .next t ∧
         t.f (DMA_CH_CSR.STATE c) = 0 ∧ t.getCh c = Chan.empty ∧ Memory.num t.mem (x.pa + 0x20) 8 = x.done % 2 ^ 64 ∧
         Memory.num t.mem (x.pa + 0x28) 8 = x.stat 3 0 0 % 2 ^ 64 ∧
         BytesBut (fun y => (x.pa + 0x20 ≤ y ∧ y < x.pa + 0x30) ∨ ∃ i, i < 2 ∧ y = eccKey (x.pa + 0x20 + 8 * i)) s t))) ∧
    (let m := s.getMsp p k
     let st := s.mspSt p k
     let first := (s.mspGroup p k).1 = k.val
     (s.dmaClk = true → first → s.mspPart p ≠ 15 → s.bandHeld (s.mspPart p) = false → (st = 0 ∨ 5 ≤ st) →
       let q := s.mspPart p
       let setUp (y : Msp) : Prop := y.base = s.f (MSP_BASE.VA p k) * 4 ∧ y.len = s.f (MSP_LEN.LEN p k) * 4 ∧ y.ptbase = s.f (MMU_PART.PTBASE q) * 4096 ∧
         y.asid = s.f (MMU_PART.ASID q) + q * 4096 ∧ y.txDeal = m.txDeal
       (s.mspTimed p k = false → s.f (MSP_LEN.LEN p k) ≠ 0 → ∃ t, exec (.mspGo p k) s = .next t ∧ t.f (MSP_CSR.STATE p k) = 3 ∧ t.f (MSP_LEN.DONE p k) = 0 ∧
         setUp (t.getMsp p k) ∧ (t.getMsp p k).filling = decide (k.val < 8) ∧ t = { s with regs := t.regs, msps := t.msps }) ∧
       (s.mspTimed p k = true → (s.f (MSP_LEN.LEN p k) = 0 ∨ s.f (MSP_CFG2.RATE p k) = 0 ∨ s.f (MSP_CFG.LANES p k) = 0) → ∃ t, exec (.mspGo p k) s = .next t ∧
         t.f (MSP_CSR.ARMERR p k) = 1 ∧ t.f (MSP_CSR.STATE p k) = 0 ∧ t = { s with regs := t.regs, msps := t.msps })) ∧
     (s.dmaClk = true → st = 4 → ∃ t, exec (.mspResume p k) s = .next t ∧ t.f (MSP_CSR.STATE p k) = 3 ∧ FieldsBut [MSP_CSR.STATE p k] s t ∧
       (∀ q, (t.getSeq q).dmaq = (s.getSeq q).dmaq.filter (fun e => !(e.stream == true && e.port == p.val && e.index == k.val)))) ∧
     (s.dmaClk = true → first → ∃ t, exec (.mspAbort p k) s = .next t ∧ t.f (MSP_CSR.STATE p k) = 6 ∧ (t.getMsp p k).filling = false ∧
       (t.getMsp p k).buf.items = m.buf.items ++ (if k.val < 8 then [tokenItem tokABORT] else []) ∧ FieldsBut [MSP_CSR.STATE p k] s t)) ∧
    (let m := s.getMsp p kr
     ∀ pa pin g s1 s2, s.mspSt p kr = 3 → s.mspTimed p kr = false → m.filling = true → s.mspServed p = true → 4 * m.buf.items.length < s.share p kr →
      mspXlt p kr (m.base + s.mspDone p kr) pteR s = (.ok (pa, pin), s1) → s1.portHeld pa = false → busRead pa 4 s1 = (some g, s2) → g.bad = false → s2.msps = s.msps →
      s2.f (MSP_CSR.STATE p kr) = 3 → ∃ t, exec (.mspReadComplete p kr) s = .next t ∧ t.mem = s2.mem ∧
        (t.getMsp p kr).buf.items = m.buf.items ++ readItem (s1.isIsl pa) pa g :: (if s.mspDone p kr + 4 < m.len then [] else
          if s2.f (MSP_CFG.ENDTOK p kr) = 1 then [tokenItem tokEOS] else if s2.f (MSP_CFG.ENDTOK p kr) = 2 then [tokenItem tokBLOCK] else []) ∧
        t.f (MSP_LEN.DONE p kr) = (s.mspDone p kr + 4) % 2 ^ 32 ∧ t.f (MSP_CSR.STATE p kr) = (if s.mspDone p kr + 4 < m.len then 3 else 5) ∧ (t.getMsp p kr).filling = decide (s.mspDone p kr + 4 < m.len)) ∧
    (let g := s.mspGroup p (8 + kr)
     let f := g.1
     let m := s.getMsp p f
     ∀ j w pa pin s1, s.mspSt p f = 3 → s.mspServed p = true → s.collect p f g.2 = .data j w → mspXlt p f (m.base + s.mspDone p f) pteW s = (.ok (pa, pin), s1) →
      hostBase ≤ pa → pa + 4 ≤ 2 ^ 52 → pa % 4 = 0 → MemOk s1 → ∃ t, exec (.mspWriteWord p kr false) s = .next t ∧
        (∀ i, i < 4 → t.byte (pa + i) = (AWord.data w).extractLsb' (8 * i) 8) ∧ (t.getMsp p f).txDeal = (s1.getMsp p f).txDeal + 1)

/-- On a running island at which nothing waits: FORK_ARMING of a consistent set arms it and drops a latched outcome with LOSTRES; a branch island of the set switches its elements to the
side's plane. FORK_RESOLUTION of a set that is not armed does nothing, one that the unit waits for makes the selected queue current, flushes the other unless it
is kept, restarts the count and ends the wait, and any other is latched; FORCE does the same armed or not; an island that a
capture holds, or that has not yet taken what arrived then, keeps both behind that; the next edge finds a selected queue empty. HOLD_WORD
puts the hold word at the output of the waiting steering unit and counts it; STEERING_WAIT_TIMEOUT sets WAITOV and logs once in a wait. A write of ISL_FORK_CFG
stores its fields and, with a change of STEN or SU, reloads CUR and restarts while STEN is 1 and turns steering off else, and leaves a unit that cannot steer off; FORK_CLRCNT clears HOLDS. CYCLE_REBASE sets the counter and sends a mark with the rebase flag; FAIL_MARK_IDLE_TIMEOUT sends the mark that is
due; a full FIFO keeps the mark in the holding register. FAIL_PORT_ITEM takes the oldest item of the collector next in turn; a record of a unit outside the
partition, not armed or out of range is counted in PERR, NOTARMED or OOR, and any other goes to the home slice of its unit. Where no rule says so, that a
command whose condition does not hold changes nothing is the model's choice (log entry 1). -/
def Obligations.ForkPointsAndFailCollectors : Prop :=
  ∀ (i : Fin 156) (k : Fin 4) (out : Bool) (v : BitVec 64) (cy : BitVec 40) (r : Fin 12) (s : State),
    let x := s.getIsl i
    let armed := s.f ((ISL_FORK_STAT.ARMED i).bit k)
    let latch := s.f ((ISL_FORK_STAT.LATCH i).bit k)
    let q := s.forkQueues i k
    let waits := s.f (ISL_FORK_STAT.STATE i) = 2 ∧ s.f (ISL_FORK_STAT.WSET i) = k.val
    let resolved (t : State) : Prop :=
      let sel := if out then q.2 else q.1
      let other := if out then q.1 else q.2
      let keep := s.f ((ISL_FORK_CFG.KEEP i).bit (if out then 2 * k.val else 2 * k.val + 1))
      t.f ((ISL_FORK_STAT.ARMED i).bit k) = 0 ∧ t.f (ISL_FORK_STAT.CUR i) = sel ∧ t.f (ISL_FORK_CNT.COUNT i) = 0 ∧ t.f (ISL_FORK_STAT.STATE i) = 1 ∧
        (t.getIsl i).switched = true ∧ t.f (ISL_QDEP.DEPTH i sel) = s.f (ISL_QDEP.DEPTH i sel) ∧
        t.f (ISL_QDEP.DEPTH i other) = (if keep = 1 then s.f (ISL_QDEP.DEPTH i other) else 0) ∧ (Map.find x.comb other = none → t.mem = s.mem)
    let latched (t : State) : Prop := t.f ((ISL_FORK_STAT.ARMED i).bit k) = 0 ∧ t.f ((ISL_FORK_STAT.LATCH i).bit k) = 1 ∧ t.f ((ISL_FORK_STAT.LOUT i).bit k) = b2n out ∧
      FieldsBut [(ISL_FORK_STAT.ARMED i).bit k, (ISL_FORK_STAT.LATCH i).bit k, (ISL_FORK_STAT.LOUT i).bit k] s t
    let waiting := s.islRuns i = false ∨ x.arrived ≠ []
    (∀ fp pp rest, s.islClk i = true → x.forkIn = (k.val, fp, pp) :: rest → (∀ y ∈ x.resIn, y.2.2 ≠ 0) →
      let branch := s.f (ISL_FORK_CFG.BREN i) = 1 ∧ s.f (ISL_FORK_CFG.BRSET i) = k.val
      let s1 := s.onIsl i (fun y => { y with forkIn := rest, resIn := y.resIn.map (fun z => (z.1, z.2.1, z.2.2 - 1)) })
      (waiting → exec (.forkArming i) s = .next (s1.onIsl i (fun y => { y with arrived := y.arrived ++ [.arming k fp pp] }))) ∧
      (¬ waiting → ¬ branch → s.forkOk i k = true → armed = 0 → ∃ t, exec (.forkArming i) s = .next t ∧ t.f ((ISL_FORK_STAT.ARMED i).bit k) = 1 ∧
        (latch = 1 → t.f ((ISL_FORK_STAT.LATCH i).bit k) = 0 ∧ t.f (ISL_FORK_STAT.LOSTRES i) = 1) ∧ (t.getIsl i).forkIn = rest) ∧
      (¬ waiting → branch →
        let p := if s.f (ISL_FORK_CFG.BRSIDE i) = 1 then fp else pp
        let s2 := forkCheck i ((List.range 137).foldl (fun s e => requestPlane i e p s) s1)
        s2.forkOk i k = false → exec (.forkArming i) s = .next (settle i s2))) ∧
    (∀ rest, s.islClk i = true → x.resIn = (k.val, out, 0) :: rest →
      (waiting → exec (.forkResolution i) s = .next (s.onIsl i (fun y => { y with resIn := rest, arrived := y.arrived ++ [.resolution k out] }))) ∧
      (¬ waiting → armed = 0 → exec (.forkResolution i) s = .next (s.onIsl i (fun y => { y with resIn := rest }))) ∧
      (¬ waiting → armed = 1 → s.forkOk i k = true → (waits → ∃ t, exec (.forkResolution i) s = .next t ∧ resolved t ∧ (t.getIsl i).resIn = rest) ∧
        (¬ waits → ∃ t, exec (.forkResolution i) s = .next t ∧ latched t ∧ t = { s with regs := t.regs, isl := t.isl }))) ∧
    (s.islClk i = true → s.forkOk i k = true → (waits → ∃ t, exec (.force i k out) s = .next t ∧ resolved t) ∧
      (¬ waits → ∃ t, exec (.force i k out) s = .next t ∧ latched t ∧ t = { s with regs := t.regs })) ∧
    (s.f (ISL_FORK_CFG.STEN i) = 1 → x.switched = true → s.qDepth i (s.f (ISL_FORK_STAT.CUR i)) = 0 → (forkEdge i s).f (ISL_FORK_STAT.FSTARVE i) = 1) ∧
    (let u := s.f (ISL_FORK_CFG.SU i)
     s.islRuns i = true → s.f (ISL_FORK_STAT.STATE i) = 2 →
      ((s.getWu i u).out = [] → (s.getWu i u).pipe = [] → Unread i u s → ∃ t, exec (.holdWord i) s = .next t ∧
        (t.getWu i u).out = [AWord.mk false false 0 (BitVec.ofNat 32 (s.f (ISL_PARAM.VALUE i (s.f (ISL_FORK_CFG.HOLDP i)))))] ∧
        t.f (ISL_FORK_CNT.HOLDS i) = min (s.f (ISL_FORK_CNT.HOLDS i) + 1) 65535) ∧
      (s.f (ISL_MOULT_WDT.LIMIT i) ≠ 0 → x.waitLogged = false → ∃ t, exec (.steeringWaitTimeout i) s = .next t ∧ t.f (ISL_FORK_STAT.WAITOV i) = 1 ∧ t.f (ISL_FORK_STAT.STATE i) = 2 ∧
        Logged 0x0205 (s.islPart i) (srcOf 0 i) s t ∧ exec (.steeringWaitTimeout i) t = .next t)) ∧
    (s.islClk i = true →
      exec (.forkClrcnt i) s = .next (s.setF (ISL_FORK_CNT.HOLDS i) 0) ∧
      ∃ t, exec (.forkCfgWrite i v) s = .next t ∧ t.rd (ISL_FORK_CFG i) = v &&& 0xFFFF8FFFFFFF0000 ∧
        FieldsBut [whole (ISL_FORK_CFG i), ISL_FORK_STAT.CUR i, ISL_FORK_STAT.STATE i, ISL_FORK_CNT.COUNT i, ISL_FORK_STAT.FBAD i] s t ∧ t = { s with regs := t.regs } ∧
        (getBits v 63 59 ≠ getBits (s.rd (ISL_FORK_CFG i)) 63 59 →
          (getBits v 63 63 = 1 → t.f (ISL_FORK_CNT.COUNT i) = 0 ∧ t.f (ISL_FORK_STAT.STATE i) = b2n (t.steers i)) ∧ (getBits v 63 63 = 0 → t.f (ISL_FORK_STAT.STATE i) = 0)) ∧
        (getBits v 63 59 = getBits (s.rd (ISL_FORK_CFG i)) 63 59 → t.f (ISL_FORK_CNT.COUNT i) = s.f (ISL_FORK_CNT.COUNT i) ∧
          t.f (ISL_FORK_STAT.STATE i) = if s.steers i = s.on (ISL_FORK_STAT.STATE i) then s.f (ISL_FORK_STAT.STATE i) else b2n (s.steers i))) ∧
    (let c := s.coll i
     let mark (rebase : Bool) (cyc : Nat) : FailItem :=
       { kind := .progress, lost := c.lost, susp := c.susp, rebase := rebase, site := s.f (ISL_FCAP_CFG.SITE i), unit := 0,
         row := 0, col := 0, mask := 0, cyc := cyc, bad := c.bad }
     let sentMark (m : FailItem) (t : State) : Prop := (t.coll i).covered = true ∧ (t.coll i).fired = c.fired ∧ (t.coll i).lost = false ∧ (t.coll i).susp = false ∧
       (c.fifo.length < 16 → (t.coll i).fifo = c.fifo ++ [m] ∧ (t.coll i).hold = none) ∧ (16 ≤ c.fifo.length → (t.coll i).fifo = c.fifo ∧ (t.coll i).hold = some m)
     c.hold = none →
      (s.islClk i = true → ∃ t, exec (.cycleRebase i cy) s = .next t ∧ t.f (ISL_FCAP_CYC.CYC i) = cy.toNat ∧ sentMark (mark true ((cy.toNat + 2 ^ 40 - 1) % 2 ^ 40)) t ∧
        FieldsBut [whole (ISL_FCAP_CYC i)] s t ∧ IslandOnly i s t) ∧
      (s.islRuns i = true → s.f (ISL_FCAP_CFG.FEN i) = 1 → c.covered = false → 256 ≤ c.idle → ∃ t, exec (.failMarkIdleTimeout i) s = .next t ∧ sentMark (mark false c.lastCyc) t ∧
        t = { s with isl := t.isl } ∧ IslesBut [i.val] s t)) ∧
    (let p := s.owner r
     (p = 15 → exec (.failPortItem r) s = .next s) ∧
     ∀ c it rest, p < 12 → s.feClk = true → s.portNext r = some c → (s.coll (s.phys r c)).fifo = it :: rest → (s.coll (s.phys r c)).hold = none → it.kind = .record →
      let z := s.getUnit it.unit
      let took (t : State) : Prop := (t.coll (s.phys r c)).fifo = rest ∧ Map.find t.fe.served r = some (c + 1)
      let dropped (f : RF) : Prop := ∃ t, exec (.failPortItem r) s = .next t ∧ took t ∧ t.f f = min (s.f f + 1) f.max ∧ t.fe.home = s.fe.home ∧
        (s.f f = 0 → s.f ERR_CTL.STORM = 0 → t.f ERR_LOGP.TAIL = (s.f ERR_LOGP.TAIL + 1) % 4096)
      (s.unitOf p it.unit = false → dropped (FE_PCNT.PERR p)) ∧
      (s.unitOf p it.unit = true → z.st < 2 → dropped (FE_PCNT.NOTARMED p)) ∧
      (s.unitOf p it.unit = true → 2 ≤ z.st → (z.nr ≤ it.row ∨ z.nc ≤ it.col) → dropped (FE_PCNT.OOR p)) ∧
      (s.unitOf p it.unit = true → 2 ≤ z.st → it.row < z.nr → it.col < z.nc → z.fmt ≠ 1 → ∃ t, exec (.failPortItem r) s = .next t ∧ took t ∧ t.regs = s.regs ∧
        Map.getD t.fe.home (it.unit % 4) [] = Map.getD s.fe.home (it.unit % 4) [] ++
          [{ part := p, site := it.site, unit := it.unit, row := it.row, col := it.col, mask := it.mask.toNat, cyc := it.cyc }]))

/-- With the fail engine clocked. While BUSY is 1, ARM, DISARM, SOLVE, SOLVESITE, FLUSH, QUERY and NEWRUN do nothing but set CMDLOST. With BUSY 0: a command naming
a unit outside the partition ends with code 1 and changes nothing else. ARM fails with 2, 3, 4 and 5 in the order of R334, changing nothing else, and otherwise
makes the unit ARMING with its staged descriptor (no record waits at a home slice, no tile or line of the unit in a cache), BUSY set; ARM_COMPLETE clears its trackers if AN, its FAT
entries, raises GEN, sets fr and fc to the spares and makes it ARMED. DISARM returns it to IDLE, abandons a solve and frees its FAT entries, memory unchanged.
SOLVE queues an ARMED unit and else ends with 2; SOLVESITE queues every ARMED unit of the site and ends with 2 if some unit considered is not ARMED. FLUSH
empties the home queues and leaves no tile or line of the partition in a cache; with the header enabled SEQNO rises by 2. QUERY loads the unit's state. NEWRUN
clears the partition's entries and flags and restarts SEQNO; with the header in the early buffer it stands there cleared, SEQNO 2. CLRCNT clears the counters.
That a DISARM or a repeated ARM takes waiting records and writes cached tiles first, and the order of writes, are the model's (log entry 25). -/
def Obligations.FailEngineCommandsActOnUnits : Prop :=
  ∀ (p : Fin 12) (u : BitVec 14) (site : BitVec 6) (s : State), s.feClk = true →
    let code (c : Nat) (t : State) : Prop := t.f (FE_PCST.ERRCODE p) = c ∧ OnlyFields [FE_PCST.ERRCODE p] s t
    let x := s.getUnit u.toNat
    let uncached := (∀ e ∈ s.fe.home, e.2 = []) ∧ (∀ e ∈ s.fe.tiles, ∀ y ∈ e.2, y.unit ≠ u.toNat) ∧ ∀ r ∈ s.fe.lines, r.unit ≠ u.toNat
    let others (t : State) : Prop := (∀ v, v ≠ u.toNat → t.getUnit v = s.getUnit v) ∧ ∀ q, q ≠ p.val → t.getFe q = s.getFe q
    (s.f (FE_PCST.BUSY p) = 1 →
      ∀ c ∈ [Instr.arm p u, Instr.disarm p u, Instr.solve p u, Instr.solvesite p site, Instr.flush p, Instr.query p u, Instr.newrun p],
        ∃ t, exec c s = .next t ∧ t.f (FE_PFLAGS.CMDLOST p) = 1 ∧ OnlyFields [FE_PFLAGS.CMDLOST p] s t) ∧
    (s.f (FE_PCST.BUSY p) = 0 →
      (s.unitOf p u.toNat = false → ∀ c ∈ [Instr.arm p u, Instr.disarm p u, Instr.solve p u, Instr.query p u], ∃ t, exec c s = .next t ∧ code 1 t) ∧
      (s.unitOf p u.toNat = true →
        (let y := s.staged p u.toNat
         let nlc := if y.iomode then y.nc * 32 else y.nc
         let geom := 16 < y.sr ∨ 16 < y.sc ∨ y.fmt = 3 ∨ (y.len = 0 ∧ y.fmt ≠ 0) ∨ (y.an = true ∧ 2097152 < y.tbase + y.nr + nlc)
         let lo := y.mapbase * 64
         let hi := lo + y.len * (if y.fmt = 1 then 64 else 16)
         let map := y.fmt ≠ 0 ∧ (lo < s.f (FE_PMAPLO.ADDR p) * 4096 ∨ (s.f (FE_PMAPHI.ADDR p) + 1) * 4096 < hi ∨
           (s.f FE_GSTAT.EARLYBUF = 1 ∧ (lo < cxlBase ∨ cxlBase + 0x40_0000 < hi)))
         let first := s.f (FE_PTRK.TFIRST p)
         let trk := y.an = true ∧ (y.tbase < first ∨ first + s.f (FE_PTRK.TCOUNT p) < y.tbase + y.nr + nlc ∨
           ∃ e ∈ s.units, e.1 ≠ u.toNat ∧ e.2.st ≠ 0 ∧ e.2.an = true ∧ e.2.tbase < y.tbase + y.nr + nlc ∧ y.tbase < e.2.tbase + e.2.nr + e.2.nlc)
         let idle := x.st = 0 ∨ x.st = 5
         (¬ idle → ∃ t, exec (.arm p u) s = .next t ∧ code 2 t) ∧ (idle → geom → ∃ t, exec (.arm p u) s = .next t ∧ code 3 t) ∧
         (idle → ¬ geom → map → ∃ t, exec (.arm p u) s = .next t ∧ code 4 t) ∧
         (idle → ¬ geom → ¬ map → trk → ∃ t, exec (.arm p u) s = .next t ∧ code 5 t) ∧
         (idle → ¬ geom → ¬ map → ¬ trk → uncached → ∃ t, exec (.arm p u) s = .next t ∧ t.getUnit u.toNat = y ∧ (t.getFe p).arming = some u.toNat ∧
           t.f (FE_PCST.BUSY p) = 1 ∧ others t ∧ FieldsBut [FE_PCST.BUSY p] s t ∧ t = { s with regs := t.regs, units := t.units, feParts := t.feParts })) ∧
        (uncached → ∃ t, exec (.disarm p u) s = .next t ∧ t.getUnit u.toNat = { x with st := 0 } ∧ t.fat = s.fat.filter (fun e => e.unit != u.toNat) ∧
          t.fe.solveQ = s.fe.solveQ.erase u.toNat ∧ (∀ e ∈ t.fe.engines, e.2 ≠ u.toNat) ∧ (∀ e ∈ t.fe.kept, e.2.unit ≠ u.toNat) ∧ t.f (FE_PCST.ERRCODE p) = 0 ∧
          (∀ k : Fin 4, Map.find s.fe.engines k = some u.toNat → t.f (FE_GSTAT.SOLVBUSY.bit k) = 0) ∧ others t ∧
          t = { s with regs := t.regs, units := t.units, fat := t.fat, fe := t.fe } ∧
          ((∀ e ∈ s.fe.engines, e.2 ≠ u.toNat) → FieldsBut [FE_PCST.ERRCODE p] s t)) ∧
        (x.st = 2 → ∃ t, exec (.solve p u) s = .next t ∧ t.getUnit u.toNat = { x with st := 3 } ∧ t.fe = { s.fe with solveQ := s.fe.solveQ ++ [u.toNat] } ∧
          t.f (FE_PCST.ERRCODE p) = 0 ∧ others t ∧ FieldsBut [FE_PCST.ERRCODE p] s t ∧ t = { s with regs := t.regs, units := t.units, fe := t.fe }) ∧
        (x.st ≠ 2 → ∃ t, exec (.solve p u) s = .next t ∧ code 2 t) ∧
        (x.gen < 128 → x.fr ≤ 16 → x.fc ≤ 16 → x.nwrite < 2 ^ 32 → x.st < 8 → ∃ t, exec (.query p u) s = .next t ∧ t.f (FE_PCST.USTATE p) = x.st ∧
          t.f (FE_PCST.ERRCODE p) = 0 ∧ t.f (FE_PQRY.GEN p) = x.gen ∧ (t.f (FE_PQRY.FR p) : Int) = max x.fr 0 ∧ (t.f (FE_PQRY.FC p) : Int) = max x.fc 0 ∧
          t.f (FE_PQRY.SPARSE p) = min (s.cells u.toNat).length 1023 ∧ t.f (FE_PQRY.NWRITE p) = x.nwrite ∧
          t.f (FE_PQRY.UFLAGS p) = b2n x.fatfull + 2 * b2n x.mapfull + 4 * b2n x.maperr + 8 * b2n x.warm ∧
          OnlyFields [whole (FE_PQRY p), FE_PCST.USTATE p, FE_PCST.ERRCODE p] s t)) ∧
      (let named (v : Nat) : Bool := decide (v ∈ s.units.map (fun e => e.1)) && s.unitOf p v && (s.getUnit v).site == site.toNat && (s.getUnit v).st != 0
       (s.units.map (fun e => e.1)).Nodup → ∃ t, exec (.solvesite p site) s = .next t ∧
        t.fe = { s.fe with solveQ := s.fe.solveQ ++ (s.units.map (fun e => e.1)).filter (fun v => named v && (s.getUnit v).st == 2) } ∧
        (∀ v, t.getUnit v = if named v ∧ (s.getUnit v).st = 2 then { s.getUnit v with st := 3 } else s.getUnit v) ∧
        ((∃ v, named v = true ∧ (s.getUnit v).st ≠ 2) → t.f (FE_PCST.ERRCODE p) = 2) ∧ ((∀ v, named v = true → (s.getUnit v).st = 2) → t.f (FE_PCST.ERRCODE p) = 0) ∧
        FieldsBut [FE_PCST.ERRCODE p] s t ∧ t = { s with regs := t.regs, units := t.units, fe := t.fe }) ∧
      (∃ t, exec (.flush p) s = .next t ∧ t.f (FE_PCST.ERRCODE p) = 0 ∧ (∀ e ∈ t.fe.tiles, e.1 < 4 → ∀ y ∈ e.2, s.unitOf p y.unit = false) ∧
        (∀ r ∈ t.fe.lines, s.unitOf p r.unit = false) ∧ (∀ h, h < 4 → Map.getD t.fe.home h [] = []) ∧
        (t.getFe p).seqno = (s.getFe p).seqno + (if s.f (FE_PHDR.EN p) = 1 then 2 else 0) ∧ (t.getFe p).marks = (s.getFe p).marks) ∧
      (let z : FePart := { FePart.fresh with arming := (s.getFe p).arming, phase := (s.getFe p).phase }
       let a := s.f (FE_PHDR.ADDR p) * 64
       (s.f (FE_PHDR.EN p) = 0 → ∃ t, exec (.newrun p) s = .next t ∧ t.getFe p = z ∧ (∀ q, q ≠ p.val → t.getFe q = s.getFe q) ∧
         t.f (FE_PCST.ERRCODE p) = 0 ∧ FieldsBut [FE_PCST.ERRCODE p] s t ∧ t = { s with regs := t.regs, feParts := t.feParts }) ∧
       (s.f (FE_PHDR.EN p) = 1 → s.f FE_GSTAT.EARLYBUF = 1 → MemOk s → cxlBase ≤ a → a + 1088 ≤ cxlBase + 0x40_0000 → ∃ t, exec (.newrun p) s = .next t ∧
         t.getFe p = { z with seqno := 2 } ∧ Memory.num t.mem a 8 = 2 ∧
         (∀ b, a + 8 ≤ b → b < a + 1088 → ¬ (a + 0x18 ≤ b ∧ b < a + 0x20) → t.byte b = 0) ∧ Memory.num t.mem (a + 0x18) 8 = (s.rd RING_TIME).toNat ∧
         t.units = s.units ∧ t.fat = s.fat ∧ t.fe = s.fe))) ∧
    (∀ v, (s.getFe p).arming = some v → MemOk s →
      let y := s.getUnit v
      let lo := trackerBase + 3 * y.tbase
      let hi := lo + 3 * (y.nr + y.nlc)
      let mine (b : Nat) : Prop := y.an = true ∧ lo ≤ b ∧ b < hi
      ∃ t, exec (.armComplete p) s = .next t ∧ t.getUnit v = { y with st := 2, gen := (y.gen + 1) % 128, fr := y.sr, fc := y.sc } ∧
        (t.getFe p).arming = none ∧ t.fat = s.fat.filter (fun e => e.unit != v) ∧ (∀ b, mine b → t.byte b = 0) ∧ BytesBut mine s t ∧ MemOk t ∧
        t.f (FE_PCST.ERRCODE p) = 0 ∧ t.f (FE_PCST.BUSY p) = 0 ∧ FieldsBut [FE_PCST.ERRCODE p, FE_PCST.BUSY p] s t ∧
        t = { s with regs := t.regs, mem := t.mem, fat := t.fat, units := t.units, feParts := t.feParts }) ∧
    (∃ t, exec (.feClrcnt p) s = .next t ∧ t.rd (FE_PCNT p) = 0 ∧ OnlyFields [whole (FE_PCNT p)] s t)

/-- HOME_SLICE_RECORD takes the oldest record: of a SOLVING or DONE unit it is counted LATE, and a result of a SOLVING one that an engine holds carries LATE; of an ARMED unit with analysis on, no line of it must-repair, a free
entry, and counts that stay within the free spares and the sparse bound, it adds its new cells to the FAT entry of its position and to the counts of its row and
column lines. COMMIT_TICK, when an entry or flag changed, leaves no tile, line or record of the partition waiting, raises event 22 and, with the header in the
early buffer, writes it there with SEQNO 2 up. MAP_WRITE_FAILURE flags and logs. SOLVER_START gives the oldest queued unit to the lowest free engine; without
analysis it is undecided with reason 3. SOLVE_COMPLETE ends as the search of R351 does: repaired with its lines marked SOL, or unrepairable with reason 6;
SOLVE_TIME_BOUND ends undecided with reason 1. A result goes into the ring at TAIL with its phase when it has room, else into the holding space with RRQFULL,
else the engine keeps it. RRQ_HEAD_WRITE moves HEAD and lets the oldest held result in. Where no rule says so, that a command whose condition does not hold
changes nothing is the model's choice (log entry 1). Which free FAT entry a new cell position takes is a free value (log entry 25). -/
def Obligations.FailEngineRecordsResultsAndHeaders : Prop :=
  (∀ (h : Fin 4) (s : State) (r : FeRec) (rest : List FeRec), s.feClk = true → Map.getD s.fe.home h [] = r :: rest → r.part < 12 →
    let x := s.getUnit r.unit
    (x.fmt ≠ 2 → (x.st = 4 ∨ x.st = 5) → ∃ t, exec (.homeSliceRecord h) s = .next t ∧ Map.getD t.fe.home h [] = rest ∧
      t.f (FE_PCNT.LATE r.part) = min (s.f (FE_PCNT.LATE r.part) + 1) 65535 ∧ t.getUnit r.unit = (if x.st = 4 then { x with late := true } else x) ∧
      t.fe.kept = s.fe.kept.map (fun e => (e.1, if x.st = 4 ∧ e.2.unit = r.unit then e.2.setLate else e.2)) ∧
      t.fat = s.fat ∧ t.mem = s.mem ∧ FieldsBut [FE_PCNT.LATE r.part] s t) ∧
    (let old := match s.fat.find? (fun e => e.unit == r.unit && e.row == r.row && e.col == r.col) with
       | some e => e.mask
       | none => 0
     let new := (onesOf 32 r.mask).filter (fun io => !bitOf old io)
     let more (l : Nat) : Nat := (new.filter (fun io => x.cline r.col io == l)).length
     let room := s.fat.any (fun e => e.unit == r.unit && e.row == r.row && e.col == r.col) = true ∨
       ((s.fat.filter (fun e => e.part == r.part)).length < s.fatQuota r.part ∧ s.fat.length < 65536)
     let fits := (∀ y, y < x.nr → (trkCnt (s.trk (x.rowTrk y)) + (if y = r.row then new.length else 0) : Int) ≤ x.fc) ∧
       (∀ l, l < x.nlc → (trkCnt (s.trk (x.colTrk l)) + more l : Int) ≤ x.fr) ∧ ((s.cells r.unit).length + new.length : Int) ≤ 2 * x.fr * x.fc
     MemOk s → x.fmt ≠ 2 → x.an = true → (x.st = 2 ∨ x.st = 3) → x.fatfull = false → r.row < x.nr → r.col < x.nc → 0 ≤ x.fr → x.fr ≤ 16 → 0 ≤ x.fc → x.fc ≤ 16 →
      trkMR (s.trk (x.rowTrk r.row)) = false → (∀ io ∈ new, trkMR (s.trk (x.colTrk (x.cline r.col io))) = false) → new ≠ [] →
      (∀ c ∈ s.cells r.unit, c.1 < x.nr ∧ c.2 < x.nlc) →
      (s.fat.filter (fun e => e.unit == r.unit && e.row == r.row && e.col == r.col)).length ≤ 1 → room → fits → ∃ t, exec (.homeSliceRecord h) s = .next t ∧ Map.getD t.fe.home h [] = rest ∧
        t.getUnit r.unit = { x with lastcyc := r.cyc } ∧ trkCnt (t.trk (x.rowTrk r.row)) = trkCnt (s.trk (x.rowTrk r.row)) + new.length ∧
        trkLIVE (t.trk (x.rowTrk r.row)) = true ∧ trkMR (t.trk (x.rowTrk r.row)) = false ∧
        (∀ l, l < x.nlc → trkCnt (t.trk (x.colTrk l)) = trkCnt (s.trk (x.colTrk l)) + more l ∧ (0 < more l → trkLIVE (t.trk (x.colTrk l)) = true)) ∧
        (∃ e ∈ t.fat, e.unit = r.unit ∧ e.row = r.row ∧ e.col = r.col ∧ ∀ io, io < 32 → bitOf e.mask io = (bitOf old io || bitOf r.mask io)) ∧
        t.regs = s.regs ∧ ∀ v, v ≠ r.unit → t.getUnit v = s.getUnit v)) ∧
  (∀ (p : Fin 12) (s : State) (u : BitVec 14), s.feClk = true →
    (let x := s.getFe p
     let a := s.f (FE_PHDR.ADDR p) * 64
     let early := s.f FE_GSTAT.EARLYBUF = 1 ∧ cxlBase ≤ a ∧ a + 1088 ≤ cxlBase + 0x40_0000
     (x.bodyWords = x.body → exec (.commitTick p) s = .next s) ∧
     (x.bodyWords ≠ x.body → ∃ t, exec (.commitTick p) s = .next t ∧ (⟨p, 22, 0, 0, 0⟩ : AEv) ∈ t.aev ∧
       (∀ e ∈ t.fe.tiles, e.1 < 4 → ∀ y ∈ e.2, s.unitOf p y.unit = false) ∧ (∀ r ∈ t.fe.lines, s.unitOf p r.unit = false) ∧
       (∀ h, h < 4 → Map.getD t.fe.home h [] = []) ∧ (t.getFe p).marks = x.marks ∧
       (s.f (FE_PHDR.EN p) = 0 → (t.getFe p).seqno = x.seqno ∧ (t.getFe p).body = (t.getFe p).bodyWords) ∧
       (s.f (FE_PHDR.EN p) = 1 → (t.getFe p).seqno = x.seqno + 2 ∧
         (MemOk s → early → Memory.num t.mem a 8 = (x.seqno + 2) % 2 ^ 64 ∧ Memory.num t.mem (a + 8) 8 = x.pcommit % 2 ^ 64 ∧
           (t.getFe p).body = (t.getFe p).bodyWords ∧ ∀ st, st < 64 →
             Memory.num t.mem (a + 0x40 + 16 * st) 8 = ((x.siteWords st).headD 0) % 2 ^ 64 ∧
             Memory.num t.mem (a + 0x48 + 16 * st) 8 = (((x.siteWords st).drop 1).headD 0) % 2 ^ 64)))) ∧
    (s.unitOf p u.toNat = true → (s.getUnit u.toNat).nwrite ≠ 0 → ∃ t, exec (.mapWriteFailure p u) s = .next t ∧
      t.getUnit u.toNat = { s.getUnit u.toNat with maperr := true } ∧ t.getFe p = { s.getFe p with maperr := true } ∧ t.f (FE_PFLAGS.MAPERR p) = 1 ∧
      Logged 0x0602 p (srcSlice (u.toNat % 4)) s t ∧ t.mem = s.mem ∧ t.fat = s.fat ∧ t.fe = s.fe)) ∧
  (∀ (k : Fin 4) (u : Nat) (s : State), s.feClk = true → u < 2 ^ 14 →
    let x := s.getUnit u
    let p := x.part
    let a := s.f (FE_PRRQ.BASE p) * 128 + s.f (FE_PRRQP.TAIL p) * 128
    let wellFormed := p < 12 ∧ x.site < 64 ∧ x.lastcyc < 2 ^ 40
    let open' := s.ringFull p = false ∧ ∀ r ∈ s.fe.held, r.part ≠ p
    let early := MemOk s ∧ s.f FE_GSTAT.EARLYBUF = 1 ∧ cxlBase ≤ a ∧ a + 128 ≤ cxlBase + 0x40_0000
    let placed (result reason : Nat) (rows cols : List Nat) (t : State) : Prop := (t.getUnit u).st = 5 ∧ Map.find t.fe.engines k = none ∧
      t.f (FE_GSTAT.SOLVBUSY.bit k) = 0 ∧ t.f (FE_PRRQP.TAIL p) = (s.f (FE_PRRQP.TAIL p) + 1) % s.ringLen p ∧ (⟨p, 23, 0, 0, 0⟩ : AEv) ∈ t.aev ∧
      (early → let w0 := Memory.num t.mem a 8
        bitsOf w0 63 63 = b2n (s.getFe p).phase ∧ bitsOf w0 42 42 = 0 ∧ bitsOf w0 41 37 = min cols.length 16 ∧ bitsOf w0 36 32 = min rows.length 16 ∧
        bitsOf w0 31 28 = reason ∧ bitsOf w0 27 26 = result ∧ bitsOf w0 25 20 = x.site ∧ bitsOf w0 19 16 = p ∧ bitsOf w0 13 0 = u ∧
        bitsOf (Memory.num t.mem (a + 8) 8) 39 0 = x.lastcyc ∧
        ((∀ l ∈ rows, l < 2 ^ 24) → ∀ j, j < 16 → j < rows.length → Memory.num t.mem (a + 0x10 + 3 * j) 3 = rows.getD j 0) ∧
        ((∀ l ∈ cols, l < 2 ^ 24) → ∀ j, j < 16 → j < cols.length → Memory.num t.mem (a + 0x40 + 3 * j) 3 = cols.getD j 0))
    wellFormed →
    (∀ q, (∀ j : Fin 4, j < k → Map.find s.fe.engines j ≠ none ∨ Map.find s.fe.kept j ≠ none) → Map.find s.fe.engines k = none → Map.find s.fe.kept k = none →
      s.fe.solveQ = u :: q → (s.ringFull p = false ∨ s.fe.held.length < 256) → s.f RST_STAT.SVC = 2 →
      (x.an = true → x.fatfull = false → ∃ t, exec .solverStart s = .next t ∧ t.getUnit u = { x with st := 4, late := false } ∧ t.fe.solveQ = q ∧
        Map.find t.fe.engines k = some u ∧ t.f (FE_GSTAT.SOLVBUSY.bit k) = 1 ∧ FieldsBut [FE_GSTAT.SOLVBUSY.bit k] s t ∧
        t = { s with regs := t.regs, units := t.units, fe := t.fe }) ∧
      (x.an = false → open' → ∃ t, exec .solverStart s = .next t ∧ placed 2 3 x.mrRows x.mrCols t ∧ t.fe.solveQ = q)) ∧
    (Map.find s.fe.engines k = some u → Map.find s.fe.kept k = none →
      let found := solveCells 32 { fr := x.fr, fc := x.fc, cells := s.cells u, rows := [], cols := [] }
      (open' → found = none → ∃ t, exec (.solveComplete k) s = .next t ∧ placed 1 6 x.mrRows x.mrCols t) ∧
      (open' → ∀ y, found = some y →
        let rows := y.rows.foldl (fun a l => insertLine l a) x.mrRows
        let cols := y.cols.foldl (fun a l => insertLine l a) x.mrCols
        (∀ r ∈ rows, x.rowTrk r < 2097152) → (∀ l ∈ cols, x.colTrk l < 2097152) → ∃ t, exec (.solveComplete k) s = .next t ∧ placed 0 0 rows cols t ∧
          (early → (∀ r ∈ rows, trkSOL (t.trk (x.rowTrk r)) = true) ∧ ∀ l ∈ cols, trkSOL (t.trk (x.colTrk l)) = true)) ∧
      (open' → ∃ t, exec (.solveTimeBound k) s = .next t ∧ placed 2 1 x.mrRows x.mrCols t ∧
        (early → bitsOf (Memory.num t.mem (a + 8) 8) 63 40 = 20000)) ∧
      (s.ringFull p = true → s.fe.held.length < 256 → ∃ t, exec (.solveTimeBound k) s = .next t ∧ t.getUnit u = { x with st := 5 } ∧ t.mem = s.mem ∧
        t.fe.held.length = s.fe.held.length + 1 ∧ t.f (FE_PFLAGS.RRQFULL p) = 1 ∧ t.f (FE_PRRQP.TAIL p) = s.f (FE_PRRQP.TAIL p)) ∧
      (s.ringFull p = true → 256 ≤ s.fe.held.length → ∃ t, exec (.solveTimeBound k) s = .next t ∧ t.units = s.units ∧ t.mem = s.mem ∧ t.fe.held = s.fe.held ∧
        (Map.find t.fe.kept k).isSome = true ∧ t.f (FE_PFLAGS.RRQFULL p) = 1))) ∧
  (∀ (p : Fin 12) (v : BitVec 16) (s : State), s.feClk = true → s.fe.early = [] → s.fe.kept = [] →
    (s.fe.held = [] → ∃ t, exec (.rrqHeadWrite p v) s = .next t ∧ t.f (FE_PRRQP.HEAD p) = v.toNat ∧ OnlyFields [FE_PRRQP.HEAD p] s t) ∧
    (∀ r, s.fe.held = [r] → r.part = p.val → (s.f (FE_PRRQP.TAIL p) + 1) % s.ringLen p ≠ v.toNat % s.ringLen p → ∃ t, exec (.rrqHeadWrite p v) s = .next t ∧
      t.f (FE_PRRQP.HEAD p) = v.toNat ∧ t.f (FE_PRRQP.TAIL p) = (s.f (FE_PRRQP.TAIL p) + 1) % s.ringLen p ∧ t.fe.held = [] ∧ (⟨p, 23, 0, 0, 0⟩ : AEv) ∈ t.aev))

/-- For distinct failing cells and at most 16 free spare rows and 16 free spare columns, the search of R351 (as SOLVE_COMPLETE runs it) answers found exactly when
some choice of at most that many rows and column lines covers every cell, and the lines it answers are such a choice. -/
def Obligations.RepairSearchIsExact : Prop :=
  ∀ (fr fc : Nat) (cells : List (Nat × Nat)), fr ≤ 16 → fc ≤ 16 → cells.Nodup →
    let covers (rows cols : List Nat) : Prop := rows.length ≤ fr ∧ cols.length ≤ fc ∧ ∀ c ∈ cells, c.1 ∈ rows ∨ c.2 ∈ cols
    let found := solveCells 32 { fr := fr, fc := fc, cells := cells, rows := [], cols := [] }
    (found.isSome = true ↔ ∃ rows cols, covers rows cols) ∧ ∀ y, found = some y → covers y.rows y.cols

/-- With the controller clocked, and for LOAD_GO, LOAD_ABORT and WINDOW_WRITE the physical function open (closed, they do nothing, log entry 8): LOAD_GO starts a load in its header phase, or finds one running (BUSY). LOAD_ABORT, LOAD_TIMEOUT and CSP_WAIT_TIMEOUT of a waiting
load, CSP_DESELECT before the header has come, an overrunning WINDOW_WRITE, and a LOAD_HEADER, FRAME_RECORD or LOAD_VERIFY whose check fails end it with the
code: a live load leaves its partition, past its header unlocking its planes (but for INTERNAL), a hold load past its header leaves it INVALID. WINDOW_WRITE and CSP_BYTE add to
the input buffer, or are stray. CSP_SELECT ends the wait for the port, or starts a load. LOAD_HEADER of a hold load puts the band in reset, LOADING, every frame
blank, and of a live load leaves frames; a slot that is not valid ends a reload unread. FRAME_RECORD writes the frame of a hold load and stages that of a live load. LOAD_VERIFY of a live load claims
its planes, or refuses planes in use; taken again, it replaces their frames, where their addresses lie now, with the staged ones or blank. ECLOSION sets the islands to
ICLK, requests their release (RESET_RELEASE carries it out) and makes the partition STOPPED. CSP_WAIT_TIMEOUT at start-up moves on to the update image, also from the
middle of an image at the port. Loads ended here are no start-up or fall-back loads, and no reload or repair waits. Where no rule
says so, that a command whose condition does not hold changes nothing is the model's choice (log entry 1). Log entry 28 names the model's choices. -/
def Obligations.ConfigurationLoads : Prop :=
  ∀ (s : State), s.cfgClk = true →
    let p := s.cfg.part
    let mode := s.cfg.mode
    let buf := s.cfg.buf
    let busy := s.f CFG_STAT.BUSY = 1
    let phase := s.f CFG_STAT.PHASE
    let calm := busy ∧ p < 12 ∧ mode ≠ 2 ∧ s.sys.reloads = [] ∧ s.sys.repair = none ∧ s.cfg.golden = false ∧ s.cfg.boot = 0
    let finished (t : State) : Prop := t.f CFG_STAT.BUSY = 0 ∧ t.f CFG_STAT.PHASE = 0 ∧ t.f CFG_STAT.DONE = 1 ∧ t.frames = s.frames ∧ t.mem = s.mem
    let ended (code : Nat) (t : State) : Prop := finished t ∧ t.f CFG_ERR.CODE = code ∧
      (mode = 1 → t.f (GLB_PART_CFG.STATE p) = s.f (GLB_PART_CFG.STATE p) ∧
        ∀ i ∈ s.islandsOf p, t.f (ISL_PLANE_USE.LOCK i) = if 1 < phase then 0 else s.f (ISL_PLANE_USE.LOCK i)) ∧
      (mode ≠ 1 → t.f (GLB_PART_CFG.STATE p) = if 1 < phase then stINVALID else s.f (GLB_PART_CFG.STATE p))
    let begun (src m q boot : Nat) (t : State) : Prop := t.f CFG_STAT.BUSY = 1 ∧ t.f CFG_STAT.PHASE = 1 ∧ t.rd CFG_PROG = 0 ∧ t.cfg.src = src ∧ t.cfg.mode = m ∧
      t.cfg.part = q ∧ t.cfg.boot = boot ∧ t.cfg.golden = false ∧ t.cfg.buf = [] ∧ t.cfg.hdr = [] ∧ t.cfg.body = [] ∧ t.cfg.seen = [] ∧ t.cfg.staged = [] ∧
      t.frames = s.frames ∧ t.mem = s.mem
    (s.fnOpen 0 = false → (∀ src m q, exec (.loadGo src m q) s = .next s) ∧ exec .loadAbort s = .next s ∧ ∀ wide v, exec (.windowWrite wide v) s = .next s) ∧
    (s.fnOpen 0 = true → ∀ (src : Fin 8) (m : Fin 4) (q : Fin 16), let src' := if 5 ≤ src.val then 0 else src.val
      let m' := if src' = 4 ∨ m.val = 3 then 0 else m.val
      (busy → ∃ t, exec (.loadGo src m q) s = .next t ∧ t.f CFG_ERR.CODE = 0x16 ∧ OnlyFields [CFG_LOAD.SRC, CFG_LOAD.MODE, CFG_LOAD.PART, CFG_ERR.CODE] s t) ∧
      (¬ busy → ∃ t, exec (.loadGo src m q) s = .next t ∧ begun src' m' q 0 t ∧ t.cfg.cspWait = (src' == 1) ∧
        (m' ≠ 2 → q.val < 12 → s.f (PWR_PART.CUR q) ≠ 0 → Map.find s.sys.entering q = none → ∃ w ∈ t.sys.wakes, w.part = q.val))) ∧
    (s.fnOpen 0 = true → (calm → ∃ t, exec .loadAbort s = .next t ∧ ended 0x14 t) ∧ (¬ busy → ∃ t, exec .loadAbort s = .next t ∧ OnlyFields [] s t)) ∧
    (s.fnOpen 0 = true → ∀ (wide : Bool) (v : BitVec 64), let bs := bytesLE (if wide then 8 else 4) v.toNat
      let takes := busy ∧ s.cfg.src = 0 ∧ s.cfg.cspWait = false ∧ s.cfg.boot ≠ 1
      (takes → buf.length + bs.length ≤ 65536 → exec (.windowWrite wide v) s = .next { s with cfg := { s.cfg with buf := buf ++ bs } }) ∧
      (calm → takes → 65536 < buf.length + bs.length → ∃ t, exec (.windowWrite wide v) s = .next t ∧ ended 0x0A t) ∧
      (¬ takes → ∃ t, exec (.windowWrite wide v) s = .next t ∧ Logged 0x0A04 15 (srcOf 0 241) s t ∧ t.cfg = s.cfg)) ∧
    (∀ m : BitVec 2, let good := m = 1 ∨ m = 2
      (s.cfg.cspWait = true → good → ∃ t, exec (.cspSelect m) s = .next t ∧ t.cfg = { s.cfg with csLow := true, cspMode := m.toNat, low := 0, noted := false, cspWait := false } ∧
        t = { s with cfg := t.cfg }) ∧
      (calm → s.cfg.cspWait = true → ¬ good → ∃ t, exec (.cspSelect m) s = .next t ∧ ended 0x09 t) ∧
      (s.cfg.cspWait = false → ¬ busy → s.f CFG_CSPTGT.EN = 1 → good → ∃ t, exec (.cspSelect m) s = .next t ∧ begun 1 3 (s.f CFG_CSPTGT.PART) 0 t)) ∧
    (∀ b : BitVec 8, s.cfg.csLow = true → (s.cfg.cspMode = 1 ∨ s.cfg.cspMode = 2) →
      (s.loadFrom 1 = true → buf.length + 64 ≤ 65536 → exec (.cspByte b) s = .next { s with cfg := { s.cfg with buf := buf ++ [b], low := 0 } }) ∧
      (s.loadFrom 1 = false → 16 ≤ s.cfg.low → s.cfg.noted = false → ∃ t, exec (.cspByte b) s = .next t ∧ Logged 0x0A04 15 (srcOf 0 241) s t ∧ t.cfg.buf = buf ∧ t.cfg.noted = true)) ∧
    ((s.loadFrom 1 = false → exec .cspDeselect s = .next { s with cfg := { s.cfg with csLow := false } }) ∧
      (calm → s.loadFrom 1 = true → phase = 1 → s.cfg.hdr = [] → buf.length < 256 → ∃ t, exec .cspDeselect s = .next t ∧ ended 0x08 t)) ∧
    ((calm → s.loadStarved = true → ∃ t, exec .loadTimeout s = .next t ∧ ended 0x09 t) ∧ (s.loadStarved = false → exec .loadTimeout s = .next s) ∧
      (calm → s.cfg.cspWait = true → ∃ t, exec .cspWaitTimeout s = .next t ∧ ended 0x09 t) ∧
      (busy → s.cfg.cspWait = false → s.cfg.boot = 1 → ∃ t, exec .cspWaitTimeout s = .next t ∧ begun 2 2 0 2 t) ∧
      (busy → s.cfg.cspWait = false → s.cfg.boot = 4 → phase ≤ 2 → mode ≠ 1 → ∃ t, exec .cspWaitTimeout s = .next t ∧ begun 2 2 0 2 t ∧ t.f CFG_BOOT.CSPERR = 9)) ∧
    (calm → s.cfg.src = 4 → s.cfg.cspWait = false → phase = 1 → mode = 0 → bitOf (s.f CFG_RESVAL.VALID) p = false → ∃ t, exec .loadHeader s = .next t ∧ ended 0x12 t) ∧
    (calm → s.cfg.src = 0 → s.cfg.cspWait = false → s.cfg.feed = [] → phase = 1 → mode < 2 → 256 ≤ buf.length →
      let h := buf.take 256
      let code := s.headerCode mode h
      (hnum h 0 4 ≠ 0x485A_4346 → code = 0x01) ∧ (hnum h 0 4 = 0x485A_4346 → hcrcOk h = false → code = 0x02) ∧
      (code ≠ 0 → ∃ t, exec .loadHeader s = .next t ∧ ended code t) ∧
      (code = 0 → s.f CFG_PROG.FDONE ≠ hFrames h → ∃ t, exec .loadHeader s = .next t ∧ t.f CFG_STAT.PHASE = 2 ∧ t.f CFG_STAT.BUSY = 1 ∧
        t.f CFG_PROG.NFRAMES = hFrames h ∧ t.cfg.hdr = h ∧ t.cfg.buf = buf.drop 256 ∧ t.f (CFG_RESVAL.VALID.bit p) = 0 ∧
        (mode = 1 → t.frames = s.frames ∧ ∀ i ∈ s.islandsOf p, t.f (ISL_PLANE_USE.LOCK i) = 0) ∧
        (mode = 0 → t.f (GLB_PART_CFG.STATE p) = (if s.f (GLB_PART_CFG.STATE p) = stREPAIRING then stREPAIRING else stLOADING) ∧
          ∀ i ∈ s.islandsOf p, (t.getIsl i).inReset = true ∧ t.f (CLK_ISL.STABLE i) = 0 ∧ ∀ k, k < 128 → (t.frame i k).data = blankFrame k))) ∧
    (calm → s.cfg.src = 0 → s.cfg.feed = [] → phase = 2 → hEnc s.cfg.hdr = false → s.f CFG_PROG.FDONE < hFrames s.cfg.hdr → hFrames s.cfg.hdr < 65536 → 136 ≤ buf.length →
      let r := buf.take 136
      let a := hnum r 0 4
      let i := s.phys (s.loadFirst + bitsOf a 15 12) (bitsOf a 11 8)
      let k := bitsOf a 6 0
      (hnum r 132 4 ≠ crc32 (r.take 132) → ∃ t, exec .frameRecord s = .next t ∧ ended 0x0C t) ∧
      (s.frameCode r ≠ 0 → ∃ t, exec .frameRecord s = .next t ∧ ended (s.frameCode r) t) ∧
      (s.frameCode r = 0 → ∃ t, exec .frameRecord s = .next t ∧ t.f CFG_PROG.FDONE = s.f CFG_PROG.FDONE + 1 ∧ t.cfg.seen = a :: s.cfg.seen ∧
        t.cfg.buf = buf.drop 136 ∧ (hMap s.cfg.hdr = false → t.f CFG_STAT.PHASE = if s.f CFG_PROG.FDONE + 1 = hFrames s.cfg.hdr then 3 else 2) ∧
        (mode = 1 → t.frames = s.frames ∧ Map.find t.cfg.staged a = some (CfgFrame.of a (BitVec.ofNat 1024 (hnum r 4 128)))) ∧
        (mode ≠ 1 → (t.frame i k).data = BitVec.ofNat 1024 (hnum r 4 128) ∧
          ∀ j n, n < 128 → (j ≠ i ∨ n ≠ k) → t.frame j n = s.frame j n))) ∧
    (calm → phase = 3 →
      (s.verifyCode ≠ 0 → ∀ e, ∃ t, exec (.loadVerify e) s = .next t ∧ ended s.verifyCode t) ∧
      (s.verifyCode = 0 → mode ≠ 1 → ∀ e, ∃ t, exec (.loadVerify e) s = .next t ∧ t.f CFG_STAT.PHASE = 5 ∧ FieldsBut [CFG_STAT.PHASE] s t ∧ t.frames = s.frames ∧ t.mem = s.mem) ∧
      (s.verifyCode = 0 → mode = 1 →
        let planes := hPlanes s.cfg.hdr
        let inUse := ∃ i ∈ s.islandsOf p, ∃ q, q < 16 ∧ bitOf planes q = true ∧ q ∈ s.planesUsed i
        let mine (k : Nat) : Prop := k < 96 ∧ bitOf planes (k / 6) = true
        (inUse → ∀ e, ∃ t, exec (.loadVerify e) s = .next t ∧ ended 0x0F t) ∧
        (¬ inUse → ∀ e, ∃ t, exec (.loadVerify e) s = .next t ∧ t.f CFG_STAT.PHASE = 4 ∧ t.f CFG_STAT.BUSY = 1 ∧
          (∀ i ∈ s.islandsOf p, t.f (ISL_PLANE_USE.LOCK i) = s.f (ISL_PLANE_USE.LOCK i) ||| (planes % 65536)) ∧
          FieldsBut (CFG_STAT.PHASE :: (s.islandsOf p).map ISL_PLANE_USE.LOCK) s t ∧ t = { s with regs := t.regs }))) ∧
    (calm → phase = 4 → mode = 1 →
      let mine (k : Nat) : Prop := k < 96 ∧ bitOf (hPlanes s.cfg.hdr) (k / 6) = true
      (∃ t, exec (.loadVerify true) s = .next t ∧ finished t ∧ t.f CFG_ERR.CODE = 0x15 ∧
        ∀ i ∈ s.islandsOf p, t.f (ISL_PLANE_USE.LOCK i) = s.f (ISL_PLANE_USE.LOCK i)) ∧
      (∃ t, exec (.loadVerify false) s = .next t ∧ t.f CFG_STAT.BUSY = 0 ∧ t.f CFG_STAT.DONE = 1 ∧ t.f CFG_ERR.CODE = 0 ∧
        (∀ i ∈ s.islandsOf p, t.f (ISL_PLANE_USE.LOCK i) = 0 ∧ ∀ k, mine k →
          (t.frame i k).data = match Map.find s.cfg.staged (s.recAddr i k) with
            | some f => f.data
            | none => blankFrame k) ∧
        ∀ i k, k < 128 → (i ∉ s.islandsOf p ∨ ¬ mine k) → t.frame i k = s.frame i k)) ∧
    (calm → phase = 5 → s.f (PWR_PART.CUR p) = 0 → ∃ t, exec .eclosion s = .next t ∧ t.f (GLB_PART_CFG.STATE p) = stSTOPPED ∧ t.f CFG_STAT.BUSY = 0 ∧
      t.f CFG_STAT.PHASE = 0 ∧ t.f CFG_STAT.DONE = 1 ∧ t.f CFG_ERR.CODE = 0 ∧ t.frames = s.frames ∧
      (∀ k, k < 24 → s.pinPart k = p → Map.find t.sys.pins k = none ∧ t.f (if k < 8 then TRIG_CFG.OUT k else TRIG_GPIO.OUT (k - 8)) = 0) ∧
      ∀ i ∈ s.islandsOf p, s.inService i = true → s.rowOpen (rowOf i) = true → (s.getIsl i).inReset = true →
        i ∈ t.sys.rel ∧ (t.getIsl i).inReset = true ∧ t.f (CLK_ISL.FREQ i) = s.fbits i 96 116 7)

/-- SCRUB_FRAME reads the next frame of the sweep: one that agrees with its CRC stays as it is and only the place moves on; one that does not is, with no resident
image kept, counted in NORES and logged once, its content kept, and with a record in the slot of its partition rewritten from it, counted in FIXED, and logged
by whether an essential bit differed and whether its plane is in use. READBACK shows the stored 1,024 bits and CRC of a frame of an in-service island, and zero
otherwise. CFG_POLICY_LOCK sets LOCK with the three RWL fields of the same write; once set, they keep their values, and a write that would change one is logged. Both are
writes by the physical function and do nothing while it is closed (log entry 8). Log entry 28 names the model's choices. -/
def Obligations.ScrubReadbackAndPolicyLock : Prop :=
  ∀ (s : State), s.cfgClk = true →
    (∀ (up : BitVec 1024) (crc : BitVec 32) (x : Nat), s.f CFG_SCRUB.EN = 1 → s.f CFG_STAT.BUSY = 0 → s.scrubNext s.cfg.scrubAt = some x → x < 156 * 128 →
      let i := x / 128
      let k := x % 128
      let n := s.islPart i
      let s1 := upsetFrame i k up crc { s with cfg := { s.cfg with scrubAt := (x + 1) % (156 * 128) } }
      (s.frame i k).data ^^^ up = (s1.frame i k).data ∧
      ((s1.frame i k).sound = true → ∃ t, exec (.scrubFrame up crc) s = .next t ∧ t.cfg.scrubAt = (x + 1) % (156 * 128) ∧ t.frames = s1.frames ∧
        t = { s with cfg := t.cfg, frames := t.frames }) ∧
      ((s1.frame i k).sound = false →
        (s.slotOn = false → ∃ t, exec (.scrubFrame up crc) s = .next t ∧ t.frames = s1.frames ∧
          t.f CFG_SCRUBSTAT.NORES = min (s.f CFG_SCRUBSTAT.NORES + 1) 255 ∧ t.f CFG_SCRUBSTAT.FIXED = s.f CFG_SCRUBSTAT.FIXED ∧
          (x ∉ s.cfg.scrubNoted → x ∈ t.cfg.scrubNoted ∧ (n < 16 → Logged 0x0704 n (srcOf 0 i) s t)) ∧ (x ∈ s.cfg.scrubNoted → t.log = s.log)) ∧
        (∀ f s2, s.slotOn = true → bitOf (s.f CFG_RESVAL.VALID) n = true → slotRead n i k s1 = (some f, s2) →
          let diff := (s1.frame i k).data ^^^ f.data
          let used := 96 ≤ k ∨ k / 6 ∈ s2.planesUsed i
          ∃ t, exec (.scrubFrame up crc) s = .next t ∧ t.frame i k = f ∧ (∀ j m, m < 128 → (j ≠ i ∨ m ≠ k) → t.frame j m = s.frame j m) ∧
            t.f CFG_SCRUBSTAT.FIXED = min (s2.f CFG_SCRUBSTAT.FIXED + 1) 65535 ∧ t.mem = s2.mem ∧
            (n < 16 → (diff &&& s2.essential i k = 0 → Logged 0x0701 n (srcOf 0 i) s2 t) ∧
              (diff &&& s2.essential i k ≠ 0 → ¬ used → Logged 0x0702 n (srcOf 0 i) s2 t) ∧
              (diff &&& s2.essential i k ≠ 0 → used → Logged 0x0703 n (srcOf 0 i) s2 t ∧
                t.f CFG_SCRUBSTAT.ESSIN = min (s2.f CFG_SCRUBSTAT.ESSIN + 1) 255)))) ) ∧
    (s.fnOpen 0 = false → (∀ isl k, exec (.readback isl k) s = .next s) ∧ ∀ v, exec (.cfgPolicyLock v) s = .next s) ∧
    (s.fnOpen 0 = true → ∀ (isl : BitVec 8) (k : BitVec 7), ∃ t, exec (.readback isl k) s = .next t ∧ t.f CFG_RBADDR.READY = 1 ∧ t.f CFG_RBADDR.ISLAND = isl.toNat ∧
      t.f CFG_RBADDR.FRAME = k.toNat ∧
      OnlyFields ([CFG_RBADDR.READY, CFG_RBADDR.ISLAND, CFG_RBADDR.FRAME, whole CFG_RBCRC] ++ (List.range 32).map (fun j => whole (CFG_RBDATA j))) s t ∧
      (let shown := isl.toNat < 156 ∧ s.inService isl.toNat = true
       let f := s.frame isl.toNat k.toNat
       (shown → t.f CFG_RBCRC.DATA = f.crc.toNat ∧ ∀ j, j < 32 → t.f (CFG_RBDATA.DATA j) = bitsOf f.data.toNat (32 * j + 31) (32 * j)) ∧
       (¬ shown → t.f CFG_RBCRC.DATA = 0 ∧ ∀ j, j < 32 → t.f (CFG_RBDATA.DATA j) = 0))) ∧
    (s.fnOpen 0 = true → ∀ v : BitVec 3,
      let same := v.toNat = s.f ⟨CFG_POLICY, 2, 0⟩
      (s.f CFG_POLICY.LOCK = 0 → ∃ t, exec (.cfgPolicyLock v) s = .next t ∧ t.f CFG_POLICY.LOCK = 1 ∧ t.f ⟨CFG_POLICY, 2, 0⟩ = v.toNat ∧
        OnlyFields [CFG_POLICY.LOCK, ⟨CFG_POLICY, 2, 0⟩] s t) ∧
      (s.f CFG_POLICY.LOCK = 1 → ∃ t, exec (.cfgPolicyLock v) s = .next t ∧ t.rd CFG_POLICY = s.rd CFG_POLICY ∧ (same → t.log = s.log) ∧
        (¬ same → Logged 0x0A01 15 (srcOf 7 3) s t)))

/-- APERTURE_ACCESS, of any size and alignment (one access of each byte, log entry 51): an unmapped one is counted and the first recorded, a read ends with an abort; one that the early buffer answers reads the bytes there, or
stores them and no others; one that no open function takes leaves the state. MSIX_UNMASK opens or masks a vector, and D3HOT_EXIT leaves D3: a pending message of
an open vector is sent; D3HOT_ENTRY sets D3. PERST_N falling, HOT_RESET and HOST_LINK_DOWN after training clear the MSI-X table, the jobs and the link registers
and cause a warm reset of source 4 or 5; before, nothing. HOST_LINK_TRAINED shows width, speed and FLIT in every function, and in LPBLK whether the host's settings,
which no command carries (log entry 34), prevent L0p or speed changes; CXL_LINK_TRAINED shows them in its port and ends what waited for it. HDM_COMMIT and CXP_LOCK need
the physical function open (log entry 8). HDM_COMMIT checks size, overlap and targets in this order; locked, it changes nothing. CXP_LOCK sets LOCK. A CXL link loss is counted and logged with CXP_PSTAT and keeps
the decoders; a request timeout is logged, and a retrain wait timeout ends the request waiting; L1 is entered from Torpor on; a device event is logged. Where no
rule says so, that a command whose condition does not hold changes nothing is the model's choice (log entry 1). The end of accesses at a port without a link
rests on log entry 49. -/
def Obligations.HostLinkAndCxlPorts : Prop :=
  (∀ (f : Fin 13) (off : BitVec 36) (size : Fin 9) (data : BitVec 64) (s : State),
    let a := cxlBase + (s.f (HL_AP.BASE f) * 2 ^ 30 + off.toNat)
    let ours := s.fnOpen f = true ∧ (f.val = 0 ∨ off.toNat < 2 ^ 34)
    let early := f.val = 0 ∧ s.f FE_GSTAT.EARLYBUF = 1 ∧ s.feClk = true ∧ a + size.val ≤ cxlBase + 0x40_0000
    let noted (w : Bool) (t : State) : Prop := t.f HL_APERR.COUNT = min (s.f HL_APERR.COUNT + 1) 0xFFFFFF ∧ t.f HL_APERR.VALID = 1 ∧ t.mem = s.mem ∧
      (s.f HL_APERR.VALID = 0 → t.f HL_APERR.FUNC = f.val ∧ t.f HL_APERR.WRITE = b2n w) ∧
      (s.f HL_APERR.VALID = 1 → t.f HL_APERR.FUNC = s.f HL_APERR.FUNC ∧ t.f HL_APERR.WRITE = s.f HL_APERR.WRITE) ∧ FieldsBut [whole HL_APERR] s t
    (¬ ours → ∀ p, exec (.apertureAccess f (.read off size)) s = .next s ∧ exec (.apertureAccess f (.write off size data p)) s = .next s) ∧
    (ours → (pieces off.toNat size).any (fun p => s.apUnmapped f p.1) = true → (∃ t, exec (.apertureAccess f (.read off size)) s = .next t ∧ noted false t ∧ t.out = s.out ++ [.aer f 1, .abort]) ∧
      ∀ p, ∃ t, exec (.apertureAccess f (.write off size data p)) s = .next t ∧ noted true t ∧ t.out = s.out ++ [.aer f 1]) ∧
    (ours → early → MemOk s → ((∀ k, k < size.val → s.ecc (a + k) ≠ 2) → exec (.apertureAccess f (.read off size)) s = .next (s.emit (.read (BitVec.ofNat 64 (Memory.num s.mem a size))))) ∧
      ∃ t, exec (.apertureAccess f (.write off size data false)) s = .next t ∧ (∀ k, k < size.val → t.byte (a + k) = BitVec.ofNat 8 (data.toNat / 256 ^ k)) ∧
        BytesBut (fun b => (a ≤ b ∧ b < a + size.val) ∨ ∃ k, k < size.val ∧ b = eccKey (a + k)) s t ∧ t = { s with mem := t.mem })) ∧
  (∀ (f : Fin 13) (vec : BitVec 11) (s : State),
    let k := msixIx f vec.toNat
    let sent (v : Nat) (t : State) : Prop := msixIx f v ∉ t.msixPend ∧ Out.msix f v ∈ t.out
    (vec.toNat < (if f.val = 0 then 512 else 128) →
      (∃ t, exec (.msixUnmask f vec true) s = .next t ∧ (∀ j, j ∈ t.msixOn ↔ j ∈ s.msixOn ∧ j ≠ k) ∧ t = { s with msixOn := t.msixOn }) ∧
      (∃ t, exec (.msixUnmask f vec false) s = .next t ∧ (∀ j, j ∈ t.msixOn ↔ j ∈ s.msixOn ∨ j = k) ∧
        (k ∈ s.msixPend → s.f (HL_STAT.D3 f) = 0 → sent vec.toNat t) ∧ (s.f (HL_STAT.D3 f) = 1 → t.msixPend = s.msixPend ∧ t.out = s.out) ∧
        t = { s with msixOn := t.msixOn, msixPend := t.msixPend, out := t.out })) ∧
    (∃ t, exec (.d3hotEntry f) s = .next t ∧ t.f (HL_STAT.D3 f) = 1 ∧ OnlyFields [HL_STAT.D3 f] s t) ∧
    (∃ t, exec (.d3hotExit f) s = .next t ∧ t.f (HL_STAT.D3 f) = 0 ∧ FieldsBut [HL_STAT.D3 f] s t ∧
      (∀ v, v < 2048 → msixIx f v ∈ s.msixPend → msixIx f v ∈ s.msixOn → sent v t) ∧ t = { s with regs := t.regs, msixPend := t.msixPend, out := t.out })) ∧
  (∀ s : State,
    let after (src : Nat) (t : State) : Prop := t.f RST_CAUSE.WARMSRC = src ∧ t.f RST_CAUSE.WARMCNT = min (s.f RST_CAUSE.WARMCNT + 1) 65535 ∧
      t.msixOn = [] ∧ t.jobs = [] ∧ t.isl = [] ∧ ∀ f, f < 13 → t.f (HL_STAT.WIDTH f) = 0
    let live := s.sys.stage ≠ 0 ∧ s.sys.trip = false ∧ (s.f RST_STAT.SVC = 1 ∨ s.f RST_STAT.SVC = 2)
    (s.sys.trained = false → exec .hotReset s = .next s ∧ exec .hostLinkDown s = .next s ∧ ∀ low, exec (.perstN low) s = .next { s with sys := { s.sys with perstLow := low } }) ∧
    (s.sys.trained = true → live → (∃ t, exec .hotReset s = .next t ∧ after 5 t) ∧ (∃ t, exec .hostLinkDown s = .next t ∧ after 5 t) ∧
      (s.sys.perstLow = false → ∃ t, exec (.perstN true) s = .next t ∧ after 4 t ∧ t.sys.perstLow = true)) ∧
    (∀ (flit : Bool) (w : BitVec 5) (v : BitVec 3), let good := s.f CLK_STAB1.HL = 1 ∧ s.sys.perstLow = false ∧ linkMode flit w.toNat v.toNat = true
      (¬ good → exec (.hostLinkTrained flit w v) s = .next s) ∧
      (good → ∃ t, exec (.hostLinkTrained flit w v) s = .next t ∧ t.sys = { s.sys with trained := true, l0p := t.sys.l0p, hasd := t.sys.hasd } ∧
        t = { s with regs := t.regs, sys := t.sys, free := t.free } ∧
        ∀ f, f < 13 → t.f (HL_STAT.LPBLK f) = b2n (!t.sys.l0p || t.sys.hasd) ∧ t.f (HL_STAT.FLIT f) = b2n flit ∧ t.f (HL_STAT.WIDTH f) = w.toNat ∧ t.f (HL_STAT.SPEED f) = v.toNat))) ∧
  (∀ (d : Fin 16) (v : BitVec 64) (s : State), s.f CLK_STAB1.CXL ≠ 0 →
    (s.fnOpen 0 = false → exec .cxpLock s = .next s ∧ exec (.hdmCommit d v) s = .next s) ∧
    (s.fnOpen 0 = true → ∃ t, exec .cxpLock s = .next t ∧ t.f CXP_LOCK.LOCK = 1 ∧ OnlyFields [CXP_LOCK.LOCK] s t) ∧
    (s.f CXP_LOCK.LOCK = 1 → s.fnOpen 0 = true → ∃ t, exec (.hdmCommit d v) s = .next t ∧ t.rd (CXP_HDM2 d) = s.rd (CXP_HDM2 d)) ∧
    (s.f CXP_LOCK.LOCK = 0 → s.fnOpen 0 = true →
      let base := s.f (CXP_HDM0.BASE d)
      let size := s.f (CXP_HDM1.SIZE d)
      let ways := 2 ^ getBits v 1 0
      let sized := size ≠ 0 ∧ size % ways = 0 ∧ base + size ≤ 2 ^ 16
      let apart := ∀ e, e < 16 → e ≠ d.val → s.f (CXP_HDM2.COMMITTED e) = 1 → base + size ≤ s.f (CXP_HDM0.BASE e) ∨ s.f (CXP_HDM0.BASE e) + s.f (CXP_HDM1.SIZE e) ≤ base
      let ready := ∀ p, p < ways → s.f (CXP_DEV.ACTIVE (s.hdmTarget d p)) = 1
      ∃ t, exec (.hdmCommit d v) s = .next t ∧ t.f (CXP_HDM2.IW d) = getBits v 1 0 ∧ t.f (CXP_HDM2.IG d) = getBits v 6 4 ∧
        t.f (CXP_HDM2.DPABASE d) = getBits v 43 28 ∧ t.f (CXP_HDM2.COMMIT d) = getBits v 63 63 ∧ OnlyFields [whole (CXP_HDM2 d)] s t ∧
        (v.getLsbD 63 = false → t.f (CXP_HDM2.COMMITTED d) = 0) ∧
        (v.getLsbD 63 = true → (¬ sized → t.f (CXP_HDM2.ERR d) = 1) ∧ (sized → 0 < size → ¬ apart → t.f (CXP_HDM2.ERR d) = 2) ∧
          (sized → apart → ¬ ready → t.f (CXP_HDM2.ERR d) = 3) ∧ (sized → apart → ready → t.f (CXP_HDM2.ERR d) = 0) ∧
          (t.f (CXP_HDM2.COMMITTED d) = 1 ↔ sized ∧ apart ∧ ready)))) ∧
  (∀ (p : Fin 2) (s : State),
    let dead (t : State) : Prop := bitOf t.sys.cxlDead p = true
    (∀ (fast sw : Bool) (w : BitVec 5), let good := s.f (CLK_STAB1.CXL.bit p) = 1 ∧ (w = 4 ∨ w = 8 ∨ w = 16)
      (¬ good → exec (.cxlLinkTrained p fast w sw) s = .next s) ∧
      (good → ∃ t, exec (.cxlLinkTrained p fast w sw) s = .next t ∧ t.f (CXP_PSTAT.UP p) = 1 ∧ t.f (CXP_PSTAT.SPEED p) = (if fast then 6 else 5) ∧
        t.f (CXP_PSTAT.F256 p) = b2n fast ∧ t.f (CXP_PSTAT.WIDTH p) = w.toNat ∧ t.f (CXP_PSTAT.SW p) = b2n sw ∧ t.f (CXP_PSTAT.L1 p) = 0 ∧
        t.f (CXP_PSTAT.DOWNS p) = s.f (CXP_PSTAT.DOWNS p) ∧ FieldsBut [whole (CXP_PSTAT p)] s t ∧
        ¬ dead t ∧ (∀ q, q ≠ p.val → bitOf t.sys.cxlDead q = bitOf s.sys.cxlDead q) ∧ t = { s with regs := t.regs, sys := { s.sys with cxlDead := t.sys.cxlDead } })) ∧
    (s.f (CXP_PSTAT.UP p) = 0 → exec (.cxlLinkLoss p) s = .next s) ∧
    (s.f (CXP_PSTAT.UP p) = 1 → ∃ t, exec (.cxlLinkLoss p) s = .next t ∧ t.f (CXP_PSTAT.UP p) = 0 ∧ t.f (CXP_PSTAT.DOWNS p) = min (s.f (CXP_PSTAT.DOWNS p) + 1) 65535 ∧
      Logged 0x0803 15 (srcOf 0 (237 + p)) s t ∧
      (s.f ERR_CTL.STORM = 0 → s.f ERR_CTL.VEC < 512 → ∃ r, Map.find t.log (s.f ERR_LOGP.TAIL) = some r ∧ r.w2 = t.rd (CXP_PSTAT p)) ∧ t.mem = s.mem ∧ ∀ d, d < 16 → t.rd (CXP_HDM2 d) = s.rd (CXP_HDM2 d)) ∧
    (∀ (pa : BitVec 52) (rd : Bool), ∃ t, exec (.cxlRequestTimeout p pa rd) s = .next t ∧ dead t ∧ Logged 0x0802 15 (srcOf 0 (237 + p)) s t ∧ t.mem = s.mem ∧
      (∀ d a, rd = true → s.region pa.toNat = .cxl d a → d < 8 → t.f (CXP_DEV.SLOW d) = min (s.f (CXP_DEV.SLOW d) + 1) 65535)) ∧
    (s.f (CXP_PSTAT.UP p) = 1 → exec (.cxlRetrainWaitTimeout p) s = .next s) ∧
    (s.f (CXP_PSTAT.UP p) = 0 → ∃ t, exec (.cxlRetrainWaitTimeout p) s = .next t ∧ dead t ∧ t = { s with sys := { s.sys with cxlDead := t.sys.cxlDead } }) ∧
    (2 ≤ s.modRung → s.f (CXP_PSTAT.UP p) = 1 → ∃ t, exec (.cxlL1Entry p) s = .next t ∧ t.f (CXP_PSTAT.L1 p) = 1 ∧ OnlyFields [CXP_PSTAT.L1 p] s t) ∧
    ((s.modRung < 2 ∨ s.f (CXP_PSTAT.UP p) = 0) → exec (.cxlL1Entry p) s = .next s) ∧
    ∀ (dev : Fin 8) (ev : BitVec 64), (s.f (CXP_DEV.PRESENT dev) = 0 → exec (.cxlDeviceEvent dev ev) s = .next s) ∧
      (s.f (CXP_DEV.PRESENT dev) = 1 → ∃ t, exec (.cxlDeviceEvent dev ev) s = .next t ∧ Logged 0x0801 15 (srcOf 4 dev) s t ∧ t.mem = s.mem))

/-- A closed bypass passes every frame and CICADA block straight on, and the node only listens; a node in reset receives nothing. A lane without block lock takes nothing,
and any blocks count towards its lock. With lock and an open bypass a frame whose FCRC is wrong is counted; one of the node itself or with 63 hops is removed; every
other leaves on the same ring with one hop more and a new FCRC. A broadcast or addressed frame not seen before is delivered: SYNC, START, STOP, GFAIL and DECIDE wait
for their TS, or act at once and count in LATE when it is past, FSUM and MBOX enter the receive FIFO or count in RXDROP and ring the doorbell. Acting: every
matching edge route rings its doorbell and pulses its trigger unless it matched within the last ns, which counts in OVR, a level route follows GFAIL, and DECIDE
records its outcome; ROUTE_ACTION does so for a frame that is due. TIME adds its delay as it passes and steps or slews RING_TIME unless the node outranks its
sender or a lower ID leads; a LEAVE of the master, or its CICADA block with TM 0, ends its lead. A JOIN with the node's own ID is answered with CLAIM; a CLAIM of its own
nonce, or its own ID while it listens, ends its join. PROBE is echoed on the other ring, and an echo sets the link delay. The 16th invalid header among 64 blocks
loses block lock, and 64 valid ones in a row gain it. Log entry 33 names the model's choices. -/
def Obligations.RingFramesAreForwardedAndDelivered : Prop :=
  ∀ (r : Fin 2) (f : RingFrame) (trip : BitVec 32) (s : State),
    let up := if r.val = 0 then RING_STAT.R0UP else RING_STAT.R1UP
    let id := s.nodeId
    let now := (s.rd RING_TIME).toNat
    let plain : List (Nat × Instr) := [(frSYNC, .syncFrame r f), (frSTART, .startFrame r f), (frSTOP, .stopFrame r f), (frGFAIL, .gfailFrame r f), (frDECIDE, .decideFrame r f),
      (frFSUM, .fsumFrame r f), (frMBOX, .mboxFrame r f), (frLEAVE, .leaveFrame r f)]
    let all := plain ++ [(frTIME, .timeFrame r f), (frJOIN, .joinFrame r f), (frCLAIM, .claimFrame r f), (frPROBE, .probeFrame r f trip)]
    let live := s.trimmed = true
    let isOpen := s.ring.isOpen r = true
    let line := s.ring.line r
    let heard (n : Nat) : State := s.onLine r (fun x => { x.pass (256 * n) with silent := false })
    let takes := live ∧ isOpen ∧ line.lock = true
    let foreign := f.src.toNat ≠ id ∧ f.hop.toNat < 63
    let seen := (Map.getD s.ring.got f.src.toNat []).contains f.seq.toNat = true
    let ours := f.bc = true ∨ f.dst.toNat = id
    let quiet (t : State) : Prop := t.ring.due = s.ring.due ∧ t.ring.rx = s.ring.rx ∧ t.ring.level = s.ring.level ∧ t.ring.hitAt = s.ring.hitAt ∧
      FieldsBut [up, RING_CNT.LOSTF] s t ∧ t.mem = s.mem
    let acted (ty : Nat) (g : RingFrame) (t : State) : Prop :=
      let ev := g.pay.toNat % 256
      (∀ q, q < 16 → s.routeHit q ty ev = true → s.f (RING_ROUTE.LVL q) = 0 →
        let near := ∃ u, Map.find s.ring.hitAt q = some u ∧ s.ring.up < u + 1
        Map.find t.ring.hitAt q = some (s.ring.up + 1) ∧ (near → t.f (RING_ROUTE.OVR q) = min (s.f (RING_ROUTE.OVR q) + 1) 65535) ∧
        (¬ near → (s.f (RING_ROUTE.DBEN q) = 1 → ∀ n, s.primary (s.f (RING_ROUTE.PART q)) = some n → bitOf (t.f (SEQ_DBELL.PEND n)) (s.f (RING_ROUTE.DB q)) = true) ∧
          (s.routeDrives q = true → Out.trigPulse (s.f (RING_ROUTE.TRIG q)) ∈ t.out ∧ Map.find t.ring.pulse (s.f (RING_ROUTE.TRIG q)) = some (s.ring.up + 8)))) ∧
      (ty = frGFAIL → g.pay.getLsbD 8 = true → ∀ q, q < 16 → s.routeHit q ty ev = true → s.f (RING_ROUTE.LVL q) = 1 →
        ∃ y ∈ t.ring.level, y.1 = q ∧ y.2 % 256 = ev) ∧
      (ty = frDECIDE → let k := bitsOf g.pay.toNat 9 8
        t.f (RING_DEC.NEW k) = 1 ∧ t.f (RING_DEC.FAIL k) = b2n (g.pay.getLsbD 10) ∧ t.f (RING_DEC.EVNO k) = ev)
    (¬ live → isOpen → (∀ x ∈ all, exec x.2 s = .next s) ∧ ∀ own tm, exec (.cicadaBlock r own tm) s = .next s) ∧
    (¬ live → ¬ isOpen → (∀ x ∈ all, exec x.2 s = .next (s.emit (.frame r x.1 f))) ∧
      ∀ (own : BitVec 6) (tm : Bool), exec (.cicadaBlock r own tm) s = .next (s.emit (.cicada r own.toNat tm))) ∧
    (live → ¬ isOpen → ∀ x ∈ all, (line.lock = false → exec x.2 s = .next ((heard 4).emit (.frame r x.1 f))) ∧
      (line.lock = true → ∃ t, exec x.2 s = .next t ∧ t.f up = 1 ∧ OnlyFields [up] ((heard 4).emit (.frame r x.1 f)) t)) ∧
    (live → isOpen → line.lock = false → ∀ x ∈ all, exec x.2 s = .next (heard 4)) ∧
    (takes → ∀ x ∈ all, frameOk x.1 f = false → ∃ t, exec x.2 s = .next t ∧ t.f up = 1 ∧ t.f RING_CNT.CRCERR = min (s.f RING_CNT.CRCERR + 1) 65535 ∧
      OnlyFields [up, RING_CNT.CRCERR] (heard 4) t) ∧
    (takes → (f.src.toNat = id ∨ 63 ≤ f.hop.toNat) → ∀ x ∈ (frTIME, Instr.timeFrame r f) :: plain, frameOk x.1 f = true → (x.1 = frLEAVE → f.src.toNat = id → s.ring.step ≠ 6) →
      ∃ t, exec x.2 s = .next t ∧ t.f up = 1 ∧ OnlyFields [up] (heard 4) t) ∧
    (takes → foreign →
      (∀ x ∈ plain, frameOk x.1 f = true → ∃ t, exec x.2 s = .next t ∧ Out.frame r x.1 (frameClosed x.1 { f with hop := f.hop + 1 }) ∈ t.out ∧ ((¬ ours ∨ seen) → quiet t) ∧
        (ours → ¬ seen →
          (x.1 ∈ [frSYNC, frSTART, frSTOP, frGFAIL, frDECIDE] → (now ≤ f.ts.toNat → t.ring.due = s.ring.due ++ [(x.1, f)] ∧ FieldsBut [up, RING_CNT.LOSTF] s t) ∧
            (f.ts.toNat < now → t.f RING_CNT.LATE = min (s.f RING_CNT.LATE + 1) 65535 ∧ t.ring.due = s.ring.due ∧ acted x.1 f t)) ∧
          (x.1 = frLEAVE → (s.ring.master ≠ some f.src.toNat → quiet t) ∧
            (s.ring.master = some f.src.toNat → t.f RING_STAT.TSYNC = 0 ∧ t.ring.master = none ∧ t.ring.slew = 0)) ∧
          (x.1 = frFSUM ∨ x.1 = frMBOX → (s.ring.rx.length < 16 → t.ring.rx = s.ring.rx ++ [{ fsum := x.1 == frFSUM, src := f.src.toNat, pay := f.pay }]) ∧
            (16 ≤ s.ring.rx.length → t.ring.rx = s.ring.rx ∧ t.f RING_RXHDR.RXDROP = min (s.f RING_RXHDR.RXDROP + 1) 255) ∧
            (s.f RING_CTL.RXEN = 1 → s.f RING_CTL.RXSEQ < 24 → bitOf (t.f (SEQ_DBELL.PEND (s.f RING_CTL.RXSEQ))) (s.f RING_CTL.RXDB) = true)))) ∧
      (frameOk frTIME f = true → ∃ t, exec (.timeFrame r f) s = .next t ∧
        Out.frame r frTIME (frameClosed frTIME { f with hop := f.hop + 1, pay := setBits f.pay 31 0 (f.pay.toNat + s.linkDelay r + 384) }) ∈ t.out ∧
        (((s.f RING_CTL.TMASTER = 1 ∧ id < f.src.toNat) ∨ ∃ m, s.ring.master = some m ∧ m < f.src.toNat) → t.rd RING_TIME = s.rd RING_TIME ∧ t.ring.master = s.ring.master) ∧
        (ours → ¬ seen → ¬ (s.f RING_CTL.TMASTER = 1 ∧ id < f.src.toNat) → (∀ m, s.ring.master = some m → f.src.toNat ≤ m) →
          let arr : Nat := f.ts.toNat + (f.pay.toNat % 2 ^ 32 + s.linkDelay r) / 16
          let far := 1000 ≤ ((arr : Int) - (now : Int)).natAbs
          t.ring.master = some f.src.toNat ∧ t.ring.masterAt = s.ring.up ∧ t.f RING_STAT.TSYNC = 1 ∧ t.f RING_STAT.TMACT = 0 ∧
          (s.f RING_STAT.TMACT = 1 → t.f RING_STAT.TMLOST = 1) ∧
          (far → t.rd RING_TIME = BitVec.ofNat 64 arr ∧ t.f RING_STAT.TSTEP = 1 ∧ t.ring.slew = 0) ∧
          (¬ far → t.rd RING_TIME = s.rd RING_TIME ∧ t.ring.slew = (arr : Int) - (now : Int))))) ∧
    (takes →
      (frameOk frJOIN f = true → s.f RING_STAT.JOINED = 1 → f.src.toNat = id → f.pay.toNat % 2 ^ 32 ≠ s.ring.nonce.toNat % 2 ^ 32 → ∃ t, exec (.joinFrame r f) s = .next t ∧
        ∀ q, q < 2 → s.ring.isOpen q = true → Out.frame q frCLAIM (frameClosed frCLAIM { s.ownFrame (s.rd RING_TIME) (BitVec.ofNat 64 (f.pay.toNat % 2 ^ 32)) f.src.toNat false with
          seq := BitVec.ofNat 8 s.ring.seq }) ∈ t.out) ∧
      (frameOk frJOIN f = true → foreign → ∃ t, exec (.joinFrame r f) s = .next t ∧ Out.frame r frJOIN (frameClosed frJOIN { f with hop := f.hop + 1 }) ∈ t.out ∧ quiet t) ∧
      (frameOk frCLAIM f = true → s.ring.step = 3 → f.dst.toNat = id → f.pay.toNat % 2 ^ 32 = s.ring.nonce.toNat % 2 ^ 32 → ∃ t, exec (.claimFrame r f) s = .next t ∧
        t.f RING_STAT.JERR = 1 ∧ t.f RING_STAT.JSTATE = 0 ∧ t.ring.step = 0 ∧ t.ring.open0 = false ∧ t.f up = 1) ∧
      (frameOk frCLAIM f = true → foreign → ¬ (s.ring.step = 3 ∧ f.dst.toNat = id ∧ f.pay.toNat % 2 ^ 32 = s.ring.nonce.toNat % 2 ^ 32) → ∃ t, exec (.claimFrame r f) s = .next t ∧
        Out.frame r frCLAIM (frameClosed frCLAIM { f with hop := f.hop + 1 }) ∈ t.out ∧ quiet t) ∧
      (frameOk frPROBE f = true → f.pay.getLsbD 0 = false → ∃ t, exec (.probeFrame r f trip) s = .next t ∧ OnlyFields [up] { heard 4 with out := t.out } t ∧
        (s.ring.isOpen (1 - r.val) = true → t.out = s.out ++ [.frame (1 - r.val) frPROBE (frameClosed frPROBE { s.ownFrame 0 1 0 false with seq := f.seq })])) ∧
      (frameOk frPROBE f = true → f.pay.getLsbD 0 = true → s.ring.echo.contains r.val = true → ∃ t, exec (.probeFrame r f trip) s = .next t ∧
        t.f (if r.val = 0 then RING_DLY.DW else RING_DLY.DE) = (trip.toNat - 20480) / 125 % 65536 ∧ t.ring.echo = s.ring.echo.erase r.val ∧ t.out = s.out ∧
        (s.ring.step = 5 → s.ring.echo = [r.val] → t.f RING_STAT.JOINED = 1 ∧ t.f RING_STAT.JSTATE = 4 ∧ t.ring.step = 0))) ∧
    (∀ (own : BitVec 6) (tm : Bool), live → ∃ t, exec (.cicadaBlock r own tm) s = .next t ∧ (¬ isOpen → t.out = s.out ++ [.cicada r own.toNat tm]) ∧ (isOpen → t.out = s.out) ∧
      (line.lock = false → t = { heard 1 with out := t.out }) ∧
      (line.lock = true → t.f up = 1 ∧ (own.toNat, s.ring.up) ∈ t.ring.nodes ∧ (∀ y ∈ t.ring.nodes, s.ring.up ≤ y.2 + 64000) ∧ t.f RING_STAT.NODES = t.ring.nodes.length % 128 ∧
        (s.ring.master ≠ some own.toNat → t.ring.master = s.ring.master ∧ t.f RING_STAT.TSYNC = s.f RING_STAT.TSYNC) ∧
        (s.ring.master = some own.toNat → (tm = true → t.ring.master = some own.toNat ∧ t.ring.masterAt = s.ring.up) ∧ (tm = false → t.ring.master = none ∧ t.f RING_STAT.TSYNC = 0)) ∧
        (s.ring.step = 1 → own.toNat = id → t.f RING_STAT.JERR = 1 ∧ t.ring.step = 0 ∧ t.ring.open0 = false))) ∧
    (∀ hdr : Bool, (¬ live → exec (.ringInvalidBlock r hdr) s = .next s) ∧
      (live → ∃ t, exec (.ringInvalidBlock r hdr) s = .next t ∧ t.f RING_CNT.CRCERR = min (s.f RING_CNT.CRCERR + 1) 65535 ∧ FieldsBut [RING_CNT.CRCERR] s t ∧
        (t.ring.line r).pos = line.pos + 256 ∧ t.ring.line (1 - r.val) = s.ring.line (1 - r.val) ∧
        (hdr = true → (t.ring.line r).lock = (line.lock || decide (line.since + 64 * 256 ≤ line.pos + 256)) ∧ (t.ring.line r).since = line.since) ∧
        (hdr = false → (t.ring.line r).lock = (line.lock && decide ((line.bad.filter (fun b => decide (line.pos < b + 64 * 256))).length < 15)) ∧
          (t.ring.line r).since = line.pos + 256))) ∧
    (∀ (a b : List (Nat × RingFrame)) (e : Nat × RingFrame), s.ring.due = a ++ e :: b → (∀ x ∈ a, now < x.2.ts.toNat) → e.2.ts.toNat ≤ now →
      ∃ t, exec .routeAction s = .next t ∧ t.ring.due = a ++ b ∧ acted e.1 e.2 t)

/-- TIME_SEND of a joined time master that no lower ID leads queues TIME before every other own frame, or counts it dropped when 32 wait, and follows no other node's time;
PROBE_SEND and CICADA_SEND send their frames on the open rings; a node that is not joined sends none of them. RING_CTL_JOIN listens, but in Diapause; RING_JOIN_TIMER opens
ring 0, sends JOIN with a nonce that is free, opens ring 1, sends PROBE, and ends the join without echoes with JERR 2; RING_CTL_LEAVE sends LEAVE; its return on
every open ring, or RING_LEAVE_TIMER, closes ring 1, and RING_LEAVE_TIMER then ring 0, clears JOINED, and joins again when Diapause was left in the meantime. RING_SILENCE
ends the lane's block lock, and of a ring that is up is logged. MBOX_SEND with GO queues its frame, or sets TXFULL when 32 wait. A read of RXHDR presents the oldest entry and clears RXDROP; a read of RXDATA
returns and removes what is presented, else zero. An active TRIG_EDGE 2 ns after the last, and a TRIG_LEVEL that becomes active and is not masked, raise the
event: time stamp, EVT, doorbell, SYNC and wake source; in a level mode an edge is the level behind it; a masked pin seen inactive for 1 µs is masked no more. TRIG_STUCK raises it once more, masks the pin and logs; ROUTE_STUCK rings the doorbell, drops the output
and logs. Where no rule says so, that a command whose condition does not hold changes nothing is the model's choice (log entry 1). Log entry 33 names the
model's choices. -/
def Obligations.RingSendsJoinsAndTriggers : Prop :=
  ∀ (s : State),
    let joined := s.f RING_STAT.JOINED = 1
    let now := s.rd RING_TIME
    let id := s.nodeId
    let sent (rings : List Nat) (ty : Nat) (g : RingFrame) (t : State) : Prop := ∀ q ∈ rings, s.ring.isOpen q = true → Out.frame q ty g ∈ t.out
    let own (ty : Nat) (pay : BitVec 64) (bc : Bool) : RingFrame := frameClosed ty { s.ownFrame now pay 0 bc with seq := BitVec.ofNat 8 s.ring.seq }
    let request := frameClosed frPROBE (s.ownFrame 0 0 0 false)
    let frees := s.trimmed = true ∧ s.modRung ≠ 3
    ((¬ joined → exec .timeSend s = .next s ∧ exec .probeSend s = .next s ∧ exec .ringCtlLeave s = .next s ∧ ∀ r, exec (.cicadaSend r) s = .next s) ∧
     (joined → s.f RING_CTL.TMASTER = 1 → (∀ m, s.ring.master = some m → id ≤ m) → ∃ t, exec .timeSend s = .next t ∧ t.out = s.out ∧
       t.f RING_STAT.TMACT = 1 ∧ t.f RING_STAT.TSYNC = 0 ∧ t.ring = { s.ring with txq := t.ring.txq, master := none, slew := 0 } ∧
       (s.ring.txq.length < 32 → (frTIME, s.ownFrame now 0 0 true) ∈ t.ring.txq ∧ t.ring.txq.length = s.ring.txq.length + 1 ∧
         ((∀ y ∈ s.ring.txq, y.1 ≠ frTIME) → t.ring.txq = (frTIME, s.ownFrame now 0 0 true) :: s.ring.txq) ∧ FieldsBut [RING_STAT.TMACT, RING_STAT.TSYNC] s t) ∧
       (32 ≤ s.ring.txq.length → t.ring.txq = s.ring.txq ∧ t.f RING_CNT.TXDROP = min (s.f RING_CNT.TXDROP + 1) 65535 ∧
         FieldsBut [RING_STAT.TMACT, RING_STAT.TSYNC, RING_CNT.TXDROP] s t)) ∧
     (joined → ∃ t, exec .probeSend s = .next t ∧ sent [0, 1] frPROBE request t ∧ t = { s with out := t.out, ring := { s.ring with echo := [0, 1] } }) ∧
     (∀ r : Fin 2, joined → s.ring.isOpen r = true → exec (.cicadaSend r) s = .next (s.emit (.cicada r id (s.f RING_STAT.TMACT == 1)))) ∧
     (joined → ∃ t, exec .ringCtlLeave s = .next t ∧ sent [0, 1] frLEAVE (own frLEAVE 0 true) t ∧
       t = { s with out := t.out, ring := { s.ring with seq := (s.ring.seq + 1) % 256, step := 6, leaving := [0, 1].filter s.ring.isOpen } })) ∧
    (∀ (r : Fin 2) (f : RingFrame), s.ringTakes r frLEAVE f = true → f.src.toNat = id → s.ring.step = 6 → ∃ t, exec (.leaveFrame r f) s = .next t ∧
      (s.ring.leaving.erase r.val = [] → t.ring.step = 7 ∧ t.ring.open1 = false ∧ t.ring.leaving = []) ∧
      (s.ring.leaving.erase r.val ≠ [] → t.ring.step = 6 ∧ t.ring.open1 = s.ring.open1 ∧ t.ring.leaving = s.ring.leaving.erase r.val)) ∧
    ((¬ joined → s.ring.step = 0 → frees → ∃ t, exec .ringCtlJoin s = .next t ∧ t.f RING_STAT.JERR = 0 ∧ t.f RING_STAT.JSTATE = 1 ∧
       t.ring = { s.ring with step := 1 } ∧ FieldsBut [RING_STAT.JERR, RING_STAT.JSTATE] s t) ∧ ((joined ∨ s.ring.step ≠ 0 ∨ ¬ frees) → exec .ringCtlJoin s = .next s) ∧
     (∃ t, exec .ringJoinTimer s = .next t ∧
       (s.ring.step = 1 → t.f RING_STAT.JSTATE = 2 ∧ t.ring = { s.ring with step := 2, open0 := true } ∧ t.out = s.out) ∧
       (s.ring.step = 2 → t.ring.step = 3 ∧ t.ring.nonce.toNat < 2 ^ 32 ∧ t.free = s.free + 1 ∧ (s.ring.isOpen 0 = true → Out.frame 0 frJOIN (own frJOIN t.ring.nonce true) ∈ t.out)) ∧
       (s.ring.step = 3 → t.f RING_STAT.JSTATE = 3 ∧ t.ring = { s.ring with step := 4, open1 := true } ∧ t.out = s.out) ∧
       (s.ring.step = 4 → sent [0, 1] frPROBE request t ∧ t.ring = { s.ring with step := 5, echo := [0, 1] }) ∧
       (s.ring.step = 5 → t.f RING_STAT.JOINED = 1 ∧ t.f RING_STAT.JSTATE = 4 ∧ t.f RING_STAT.JERR = 2 ∧ t.ring = { s.ring with step := 0 }) ∧
       ((s.ring.step = 0 ∨ 5 < s.ring.step) → t = s)) ∧
     (∃ t, exec .ringLeaveTimer s = .next t ∧ (s.ring.step = 6 → t = { s with ring := { s.ring with step := 7, open1 := false, leaving := [] } }) ∧
       (s.ring.step = 7 → t.f RING_STAT.JOINED = 0 ∧ t.f RING_STAT.TSYNC = 0 ∧ t.f RING_STAT.TMACT = 0 ∧ t.ring.open0 = false ∧ t.ring.master = none) ∧
       (s.ring.step = 7 → s.ring.rejoin = true → frees → t.f RING_STAT.JSTATE = 1 ∧ t.f RING_STAT.JERR = 0 ∧ t.ring.step = 1) ∧
       (s.ring.step = 7 → s.ring.rejoin = false → t.f RING_STAT.JSTATE = 0 ∧ t.ring.step = 0 ∧ FieldsBut [RING_STAT.JOINED, RING_STAT.JSTATE, RING_STAT.TSYNC, RING_STAT.TMACT] s t) ∧
       (s.ring.step < 6 → t = s)) ∧
     ∀ r : Fin 2, let up := if r.val = 0 then RING_STAT.R0UP else RING_STAT.R1UP
       let still (t : State) : Prop := t.ring.line (1 - r.val) = s.ring.line (1 - r.val) ∧ (s.trimmed = true → (t.ring.line r).lock = false) ∧ (s.trimmed = false → t.ring = s.ring)
       (s.f up = 0 → ∃ t, exec (.ringSilence r) s = .next t ∧ still t ∧ t = { s with ring := t.ring }) ∧
       (s.f up = 1 → ∃ t, exec (.ringSilence r) s = .next t ∧ still t ∧ t.f up = 0 ∧ Logged 0x0901 15 (srcOf 0 (239 + r)) s t)) ∧
    (∀ v : BitVec 32, let g := s.ownFrame now (s.rd RING_MBTX) (v.toNat % 64) (v.getLsbD 30)
      ∃ t, exec (.mboxSend v) s = .next t ∧ t.f RING_MBCTL.MBBC = b2n (v.getLsbD 30) ∧ t.f RING_MBCTL.DST = v.toNat % 64 ∧ t.out = s.out ∧
        (v.getLsbD 31 = false → OnlyFields [RING_MBCTL.MBBC, RING_MBCTL.DST] s t) ∧
        (v.getLsbD 31 = true → s.ring.txq.length < 32 → (frMBOX, g) ∈ t.ring.txq ∧ t.ring.txq.length = s.ring.txq.length + 1 ∧ FieldsBut [RING_MBCTL.MBBC, RING_MBCTL.DST] s t) ∧
        (v.getLsbD 31 = true → 32 ≤ s.ring.txq.length → t.ring = s.ring ∧ t.f RING_STAT.TXFULL = 1)) ∧
    (∃ t, exec .rxhdrRead s = .next t ∧ t.f RING_RXHDR.RXDROP = 0 ∧ FieldsBut [RING_RXHDR.RXDROP] s t ∧
      (s.ring.rx = [] → t.out = s.out ++ [.read (BitVec.ofNat 64 (s.f RING_RXHDR.RXDROP * 2 ^ 22))] ∧ t.ring = s.ring) ∧
      (∀ e rest, s.ring.rx = e :: rest → t.ring = { s.ring with shown := true } ∧
        t.out = s.out ++ [.read (BitVec.ofNat 64 (2 ^ 31 + b2n e.fsum * 2 ^ 30 + s.f RING_RXHDR.RXDROP * 2 ^ 22 + e.src * 2 ^ 16))])) ∧
    ((s.ring.shown = false → exec .rxdataRead s = .next (s.emit (.read 0))) ∧
     ∀ e rest, s.ring.shown = true → s.ring.rx = e :: rest →
       exec .rxdataRead s = .next ({ s with ring := { s.ring with rx := rest, shown := false } }.emit (.read e.pay))) ∧
    (∀ k : Fin 8,
      let mode := s.f (TRIG_CFG.IMODE k)
      let p := s.f (TRIG_CFG.PART k)
      let raised (t : State) : Prop := t.rd (TRIG_TS k) = now ∧ t.f (TRIG_STAT.EVT k) = 1 ∧
        (s.f (TRIG_CFG.DBEN k) = 1 → ∀ n, s.primary p = some n → bitOf (t.f (SEQ_DBELL.PEND n)) (s.f (TRIG_CFG.DB k)) = true) ∧
        (s.f (TRIG_CFG.SEND k) = 1 → s.ring.txq.length < 32 →
          (frSYNC, s.ownFrame (now + BitVec.ofNat 64 (s.f RING_CTL.LEAD)) (BitVec.ofNat 64 (s.f (TRIG_CFG.EVNO k))) 0 true) ∈ t.ring.txq) ∧
        (p < 12 → bitOf (s.f (PWR_PART.WAKEEN p)) 1 = true → bitOf t.sys.trigEv p = true)
      let leveled := mode = 4 ∨ mode = 5
      let live := s.trimmed = true
      (¬ live → ∀ b, exec (.trigEdge k b) s = .next s ∧ exec (.trigLevel k b) s = .next s) ∧
      (live → leveled → ∀ b, exec (.trigEdge k b) s = exec (.trigLevel k b) s) ∧
      (live → ¬ leveled → ∀ rise : Bool, let active := if rise then mode = 1 ∨ mode = 3 else mode = 2 ∨ mode = 3
        let near := ∃ u, Map.find s.ring.edge k = some u ∧ s.ring.up < u + 1
        ∃ t, exec (.trigEdge k rise) s = .next t ∧ t.f (TRIG_STAT.IN k) = b2n rise ∧ Map.find t.ring.edge k = some (s.ring.up + 1) ∧
          (¬ active → FieldsBut [TRIG_STAT.IN k] s t) ∧
          (active → near → t.f (TRIG_STAT.OVR k) = min (s.f (TRIG_STAT.OVR k) + 1) 65535 ∧ FieldsBut [TRIG_STAT.IN k, TRIG_STAT.OVR k] s t) ∧ (active → ¬ near → raised t)) ∧
      (live → ∀ high : Bool, let act (b : Bool) : Prop := (mode = 4 ∧ b = true) ∨ (mode = 5 ∧ b = false)
        let was := s.f (TRIG_STAT.IN k) == 1
        ∃ t, exec (.trigLevel k high) s = .next t ∧ t.f (TRIG_STAT.IN k) = b2n high ∧
          (¬ act high → FieldsBut [TRIG_STAT.IN k] s t ∧ (s.f (TRIG_STAT.MASKED k) = 0 → t = { s with regs := t.regs }) ∧
            (s.f (TRIG_STAT.MASKED k) = 1 → Map.find t.ring.calm k = some (Map.getD s.ring.calm k s.ring.up))) ∧
          (act high → (act was ∨ s.f (TRIG_STAT.MASKED k) = 1) → FieldsBut [TRIG_STAT.IN k] s t ∧ t = { s with regs := t.regs, ring := { s.ring with calm := Map.del s.ring.calm k } }) ∧
          (act high → ¬ act was → s.f (TRIG_STAT.MASKED k) = 0 → raised t)) ∧
      (∀ c, Map.find s.ring.calm k = some c → s.pinOut k = Map.getD s.ring.drove k 2 →
        (c + 1000 ≤ s.ring.up → (trigClock k s).f (TRIG_STAT.MASKED k) = 0) ∧ (s.ring.up < c + 1000 → trigClock k s = s)) ∧
      (let held := live ∧ ((mode = 4 ∧ s.f (TRIG_STAT.IN k) = 1) ∨ (mode = 5 ∧ s.f (TRIG_STAT.IN k) = 0)) ∧ s.f (TRIG_STAT.MASKED k) = 0
       (¬ held → exec (.trigStuck k) s = .next s) ∧
       (held → ∃ t, exec (.trigStuck k) s = .next t ∧ raised t ∧ t.f (TRIG_STAT.STUCK k) = 1 ∧ t.f (TRIG_STAT.MASKED k) = 1 ∧ Logged 0x0902 15 (srcOf 5 k) s t))) ∧
    (∀ (r : Fin 16), (s.ring.level.find? (fun y => y.1 == r.val && decide (y.2 < 256)) = none → exec (.routeStuck r) s = .next s) ∧
      ∀ ev, ev < 256 → s.ring.level.find? (fun y => y.1 == r.val && decide (y.2 < 256)) = some (r.val, ev) → ∃ t, exec (.routeStuck r) s = .next t ∧
        t.ring = { s.ring with level := s.ring.level.map (fun y => if y = (r.val, ev) then (r.val, ev + 256) else y) } ∧ t.f (RING_ROUTE.STUCKS r) = 1 ∧
        (s.f (RING_ROUTE.DBEN r) = 1 → ∀ n, s.primary (s.f (RING_ROUTE.PART r)) = some n → bitOf (t.f (SEQ_DBELL.PEND n)) (s.f (RING_ROUTE.DB r)) = true) ∧
        Logged 0x0902 15 (srcOf 5 (16 + r)) s t)

/-- POWER_ON, BROWNOUT, COLD_RST_N falling and RST_COLD are cold resets: every register at its reset value but COLDSRC, every unit, job, frame and record gone, the
module's memories zero, host and CXL memory, outputs and waiting commands kept; a recorded brownout survives POWER_ON. WARM_RST_N falling and RST_WARM, with the
module serving, are warm resets: source and count recorded, islands, sequencers, channels and streams in reset, memory, frames, FAT and log kept, releases
requested; before Early Service they are cold resets that record no source. PARTITION_RESET of an enabled partition without load or repair stops it, resets its
sequencers and islands and no other, and requests their release. RST_COLD, RST_WARM and PARTITION_RESET are writes by the physical function and do nothing while it is
closed (log entry 8). RESET_RELEASE takes a requested domain out of reset, and PGOOD is high from the first on, while no pin holds the reset and its partition is Active;
DOMAIN_RESET_TIMEOUT logs one that waits, once, and an island is FAILING from then on. TRIM_LOAD tries three copies; FIRMWARE_LOAD tries two images and defines partition 0; EARLY_SERVICE serves the
mailboxes; FULL_SERVICE locks the decoders and requests the release of the other sequencers. Where no rule says so, that a command whose condition does not hold
changes nothing is the model's choice (log entry 1). That a recorded brownout survives POWER_ON, and that a warm reset before Early Service keeps COLDSRC, are
the model's choice (log entry 36). Log entry 35 names the model's other choices. -/
def Obligations.ResetsAndStartUp : Prop :=
  ∀ (s : State),
    let gone (t : State) : Prop := t.isl = [] ∧ t.seqs = [] ∧ t.lanes = [] ∧ t.msps = [] ∧ t.dmas = [] ∧ t.units = [] ∧ t.fat = [] ∧ t.frames = [] ∧ t.jobs = [] ∧ t.log = [] ∧
      t.tlb = [] ∧ t.ring = Ring.out ∧ t.pending = s.pending ∧ t.out = s.out
    let cold (src : Nat) (vin : Bool) (t : State) : Prop := gone t ∧ t.f RST_CAUSE.COLDSRC = src ∧ (∀ k, k ≠ RST_CAUSE → t.rd k = regReset k) ∧ t.sys.vin = vin ∧
      t.sys.stage = (if vin then 1 else 0) ∧ t.sys.pgood = false ∧ t.sys.spares = s.sys.spares ∧ (∀ a, a < hostBase → t.byte a = 0) ∧ ∀ a, hostBase ≤ a → a < 2 ^ 52 → t.byte a = s.byte a
    let warm (src : Nat) (t : State) : Prop := t.f RST_CAUSE.WARMSRC = src ∧ t.f RST_CAUSE.WARMCNT = min (s.f RST_CAUSE.WARMCNT + 1) 65535 ∧
      t.f RST_CAUSE.COLDSRC = s.f RST_CAUSE.COLDSRC ∧ t.isl = [] ∧ t.dmas = [] ∧ t.msps = [] ∧ t.tlb = [] ∧ t.handling = [] ∧ (∀ n, n < 24 → (t.getSeq n).st = 0) ∧
      t.mem = s.mem ∧ t.frames = s.frames ∧ t.fat = s.fat ∧ t.log = s.log ∧ (∀ i, i < 156 → t.f (CLK_ISL.STABLE i) = 0) ∧ t.f CLK_STAB0.SEQ = 0 ∧
      t.f CLK_STAB1.FE = 0 ∧ t.f CLK_STAB1.CFG = 0 ∧ t.f CLK_STAB1.DMA = 0 ∧ (∀ d ∈ [180, 181, 182, 183, 184, 185, 186, 187, 241, 243], d ∈ t.sys.rel) ∧
      ∀ k, k < (if s.f RST_STAT.SVC = 2 then 24 else 4) → 156 + k ∈ t.sys.rel
    let live := s.sys.stage ≠ 0 ∧ s.sys.trip = false ∧ (s.f RST_STAT.SVC = 1 ∨ s.f RST_STAT.SVC = 2)
    let before := s.sys.stage ≠ 0 ∧ s.sys.trip = false ∧ s.f RST_STAT.SVC = 0
    let stuck := s.sys.stage = 0 ∨ s.sys.trip = true ∨ s.f RST_STAT.SVC = 3
    (∀ cool : Bool,
      (s.sys.vin = true → exec (.powerOn cool) s = .next s) ∧ (s.sys.vin = false → exec (.brownout cool) s = .next s) ∧
      (s.sys.vin = false → ∃ t, exec (.powerOn cool) s = .next t ∧ cold (if s.f RST_CAUSE.COLDSRC = 2 then 2 else 1) true t) ∧
      (s.sys.vin = true → ∃ t, exec (.brownout cool) s = .next t ∧ cold 2 false t) ∧
      (s.sys.vin = true → s.sys.coldLow = false → ∃ t, exec (.coldRstN true cool) s = .next t ∧ cold 3 true t ∧ t.sys.coldLow = true) ∧
      (∃ t, exec (.coldRstN false cool) s = .next t ∧ t = { s with sys := { s.sys with coldLow := false, trimFails := t.sys.trimFails } } ∧
        (s.sys.coldLow = true → s.sys.stage = 1 → s.f RST_STAT.SVC ≠ 3 → t.sys.trimFails = 0))) ∧
    (s.fnOpen 0 = false → exec .rstCold s = .next s ∧ exec .rstWarm s = .next s ∧ ∀ b, exec (.partitionReset b) s = .next s) ∧
    (s.fnOpen 0 = true → ∃ t, exec .rstCold s = .next t ∧ cold 4 s.sys.vin t) ∧
    (s.fnOpen 0 = true → live → ∃ t, exec .rstWarm s = .next t ∧ warm 3 t) ∧ (stuck → exec .rstWarm s = .next s) ∧
    (s.fnOpen 0 = true → before → ∃ t, exec .rstWarm s = .next t ∧ cold (s.f RST_CAUSE.COLDSRC) s.sys.vin t) ∧
    (s.sys.warmLow = false → s.sys.coldLow = false → (live → ∃ t, exec (.warmRstN true) s = .next t ∧ warm 1 t ∧ t.sys.warmLow = true) ∧
      (stuck → exec (.warmRstN true) s = .next { s with sys := { s.sys with warmLow := true } })) ∧
    (∀ n : Fin 12, s.fnOpen 0 = true → s.enabled n = true → s.sys.repair = none → s.loadNames n = false → ∃ t, exec (.partitionReset (BitVec.ofNat 12 (2 ^ n.val))) s = .next t ∧
      (let st := s.f (GLB_PART_CFG.STATE n)
       let still := (∀ c, c < 64 → s.chPart c = n.val → s.f (DMA_CH_CSR.STATE c) = 0) ∧ (∀ r ∈ s.rowsOf n, ∀ k, k < 32 → s.mspSt (2 * r + k / 16) (k % 16) = 0) ∧
         ∀ q, ∀ e ∈ (s.getSeq q).dmaq, e.stream = true → s.owner (e.port / 2) ≠ n
       t.f (GLB_PART_CFG.STATE n) = (if st = stRUNNING ∨ st = stREPAIRING then stSTOPPED else st) ∧ t.frames = s.frames ∧
       bitOf t.sys.prst n = true ∧
       (∀ q ∈ s.seqsOf n, (t.getSeq q).st = 0 ∧ t.f (SEQ_CTL.RUN q) = 0 ∧ (s.seqOpen q = true → 156 + q ∈ t.sys.rel)) ∧ (still → SeqsBut (s.seqsOf n) s t ∧ IslesBut (s.islandsOf n) s t ∧ t.mem = s.mem) ∧
       (∀ i ∈ s.islandsOf n, t.getIsl i = Isl.reset) ∧ (∀ e ∈ t.tlb, e.asid / 4096 ≠ n.val) ∧
       ((st = stSTOPPED ∨ st = stRUNNING) → ∀ i ∈ s.islandsOf n, s.rowOpen (rowOf i) = true → i ∈ t.sys.rel))) ∧
    (∀ n : Fin 12, s.enabled n = false → exec (.partitionReset (BitVec.ofNat 12 (2 ^ n.val))) s = .next s) ∧
    (∀ d : Fin 244,
      let held := s.sys.coldLow = true ∨ s.sys.warmLow = true ∨ (s.sys.perstLow = true ∧ s.sys.trained = true)
      let free := d.val ∈ s.sys.rel ∧ ¬ held ∧ s.partDown (s.domainPart d) = false
      (¬ free → exec (.resetRelease d) s = .next s) ∧
      (free → ∃ t, exec (.resetRelease d) s = .next t ∧ (d.val ≠ 180 → d.val ∉ t.sys.rel ∧ t.mem = s.mem ∧ t.sys.pgood = true) ∧
        (d.val < 156 → s.enabled (s.islPart d) = true → (s.f (GLB_PART_CFG.STATE (s.islPart d)) = stSTOPPED ∨ s.f (GLB_PART_CFG.STATE (s.islPart d)) = stRUNNING) →
          s.inService d = true → s.rowOpen (rowOf d) = true → (t.getIsl d).inReset = false) ∧
        (156 ≤ d.val → d.val < 180 → (t.getSeq (d - 156)).st = 1 ∧ t.f (CLK_STAB0.SEQ.bit (d - 156)) = 1) ∧
        (180 < d.val → d.val < 184 → t.f (CLK_STAB1.SVC.bit (d - 180)) = b2n (s.sys.stage < 3 ∨ s.modRung < 2)) ∧
        (184 ≤ d.val → d.val < 188 → t.f (CLK_STAB1.FE.bit (d - 184)) = b2n (s.sys.stage < 3 ∨ s.modRung < 3)) ∧
        (d.val = 236 → t.f CLK_STAB1.HL = 1) ∧ (d.val = 241 → t.f CLK_STAB1.CFG = 1) ∧ (d.val = 243 → t.f CLK_STAB1.DMA = 1) ∧
        (237 ≤ d.val → d.val < 239 → t.f (CLK_STAB1.CXL.bit (d - 237)) = 1) ∧ (239 ≤ d.val → d.val < 241 → t.f (CLK_STAB1.RING.bit (d - 239)) = 1)) ∧
      ((d.val ∉ s.sys.rel ∨ d.val ∈ s.sys.late ∨ held) → exec (.domainResetTimeout d) s = .next s) ∧
      (d.val ∈ s.sys.rel → d.val ∉ s.sys.late → ¬ held → ∃ t, exec (.domainResetTimeout d) s = .next t ∧ t.sys = { s.sys with late := d.val :: s.sys.late } ∧
        ((156 ≤ d.val ∨ s.f (HLTH_ISL.STATE d) = 3) → Logged 0x0204 (s.domainPart d) (srcOf 0 d) s t) ∧
        (d.val < 156 → t.f (HLTH_ISL.STATE d) = 3 ∧ t.f (HLTH_ISL.HOURS d) = 0 ∧ t.f (HLTH_ISL.CAUSE d) = 8))) ∧
    (∀ (ok : Bool) (csp mod : BitVec 2),
      let due := s.sys.stage = 1 ∧ s.sys.coldLow = false ∧ s.sys.warmLow = false ∧ s.sys.trip = false ∧ s.f RST_STAT.SVC ≠ 3
      (¬ due → exec (.trimLoad ok csp mod) s = .next s) ∧
      (due → ∃ t, exec (.trimLoad ok csp mod) s = .next t ∧ t.sys.modId = (if s.sys.trimFails = 0 then mod.toNat else s.sys.modId) ∧
        (ok = true → (∀ x ∈ s.sys.spares, x.1 < 12) → t.sys.stage = 2 ∧ t.f RST_STAT.TRIMCOPY = s.sys.trimFails % 4 ∧ t.f GLB_REVISION.VARIANT = (if Config.variantAE then 2 else 1) ∧
          t.cfg = { s.cfg with cspBoot := csp.toNat } ∧ (∀ d, 156 ≤ d → d < 160 → d ∈ t.sys.rel) ∧ (∀ d, 180 ≤ d → d < 242 → d ∈ t.sys.rel) ∧ 243 ∈ t.sys.rel) ∧
        (ok = false → s.sys.trimFails < 2 → t.sys.trimFails = s.sys.trimFails + 1 ∧ t.regs = s.regs ∧ t.sys.stage = 1) ∧
        (ok = false → 2 ≤ s.sys.trimFails → t.f RST_STAT.SVC = 3 ∧ t.sys.pgood = s.sys.pgood ∧ t.sys.fault = 0x31 ∧ t.sys.alert = true ∧ FieldsBut [RST_STAT.SVC] s t))) ∧
    (let due := s.sys.stage = 2 ∧ s.f (CLK_STAB1.SVC.bit 0) = 1 ∧ s.cfgClk = true
     let update := s.flashOk true 0x0400_0000
     let golden := s.flashOk true 0
     (¬ due → exec .firmwareLoad s = .next s) ∧
     (due → ∃ t, exec .firmwareLoad s = .next t ∧ ((update = true ∨ golden = true) → t.f RST_STAT.FWSRC = (if update then 0 else 1) ∧ t.sys.stage = 3 ∧
         t.f (GLB_PART_CFG.EN 0) = 1 ∧ t.f (GLB_PART_CFG.NROWS 0) = 2 ∧ t.f (GLB_PART_CFG.FIRST_ROW 0) = 0 ∧ t.f (GLB_PART_SEQ.PRIMARY 0) = 0 ∧
         t.f (GLB_PART_SEQ.MASK 0) = 15 ∧ t.f (GLB_ROW_MAP.OWNER 0) = 0 ∧ t.f (GLB_ROW_MAP.OWNER 1) = 0 ∧ t.f CFG_STAT.BUSY = 1 ∧ t.cfg.mode = 2 ∧
         t.cfg.boot = (if s.cfg.cspBoot = 0 then 2 else 1) ∧ t.mem = s.mem) ∧
       (update = false → golden = false → t.f RST_STAT.FWSRC = 3 ∧ t.sys.stage = 4 ∧ t.sys.fault = 0x32 ∧ t.sys.alert = true ∧ FieldsBut [RST_STAT.FWSRC] s t))) ∧
    ((s.sys.stage = 3 ∧ s.f RST_STAT.SVC = 0 → ∃ t, exec .earlyService s = .next t ∧ t.f RST_STAT.SVC = 1 ∧ ∀ f, f < 13 → t.f (MBX_STAT.READY f) = 1) ∧
     (¬ (s.sys.stage = 3 ∧ s.f RST_STAT.SVC = 0) → exec .earlyService s = .next s)) ∧
    (∀ devs : List CxlDev, (¬ (s.f RST_STAT.SVC = 1 ∧ s.mbxReady 0 = true) → exec (.fullService devs) s = .next s) ∧
      (s.f RST_STAT.SVC = 1 ∧ s.mbxReady 0 = true → ∃ t, exec (.fullService devs) s = .next t ∧ t.f RST_STAT.SVC = 2 ∧ t.f CXP_LOCK.LOCK = 1 ∧
        (∀ k, k < 20 → 160 + k ∈ t.sys.rel) ∧
        ∀ x, devs = [x] → s.f (CXP_PSTAT.UP x.port) = 1 → t.f (CXP_DEV.PRESENT x.dev) = 1 ∧ t.f (CXP_DEV.PORT x.dev) = x.port.val ∧
          t.f (CXP_DEV.ACTIVE x.dev) = b2n x.active ∧ t.f (CXP_DEV.CAP x.dev) = x.cap.toNat))

/-- RUNG_REQUEST of an enabled partition is refused with ERR alone while the partition is neither STOPPED nor RUNNING; with a change in progress it replaces the target;
otherwise it starts an entry to a deeper rung, with the sequencers of an Active partition stopped where no repeat is pending, or asks the wake controller for a shallower one.
RUNG_ENTRY_COMPLETE waits for the other sequencers and reaches the rung, an Active partition committing first; from Torpor on its clocks are off. WAKE of a pending source that was
enabled as it came asks for admission; WAKE_ADMISSION admits a row of the oldest request, and at its last the partition is Active and its clocks and sequencers go on; a deferral is
counted. CLRDEF clears the count. An island clock that is lost halts its island and is logged, and it goes on at its frequency when restored, where its generator is on; a halt of
100 microseconds is logged once, and the island is FAILING. CLOCK_RETUNE sets FREQ, and a stable clock follows it
within the ceiling and the cap before Full Service. POWER_CAP_TICK lowers the ceiling of a hot HZ7120-AE above 380 W and raises it again. Rail faults and
overtemperature are logged; a thermal trip is a cold reset that holds. SMBUS_READ answers its address only. Where no rule says so, that a command whose
condition does not hold changes nothing is the model's choice (log entry 1). That a thermal trip keeps COLDSRC is the model's choice (log entry 36). Log entries
41 and 48 name the model's other choices. -/
def Obligations.PowerLadderClocksAndProtections : Prop :=
  (∀ (n : Fin 12) (s : State),
    let cur := s.f (PWR_PART.CUR n)
    let entering := Map.find s.sys.entering n
    let calm := entering = none ∧ s.waking n = false
    let asks (t : State) : Prop := t.f (PWR_PART.BUSY n) = 1 ∧ t.sys.wakes = s.sys.wakes ++ [{ part := n, left := (s.rowsOf n).length, started := false }]
    (∀ r : BitVec 2,
      (s.enabled n = false → exec (.rungRequest n r) s = .next s) ∧
      (s.enabled n = true → r ≠ 0 → s.rungRefused n ≠ 0 → ∃ t, exec (.rungRequest n r) s = .next t ∧ t.f (PWR_PART.ERR n) = s.rungRefused n ∧ OnlyFields [PWR_PART.ERR n] s t) ∧
      (s.enabled n = true → s.f (PWR_PART.BUSY n) = 1 → (r = 0 ∨ s.rungRefused n = 0) → ∃ t, exec (.rungRequest n r) s = .next t ∧ t.f (PWR_PART.RUNG n) = r.toNat ∧
        t.f (PWR_PART.ERR n) = 0 ∧ FieldsBut [PWR_PART.RUNG n, PWR_PART.ERR n] s t ∧
        t = { s with regs := t.regs, sys := { s.sys with nextRung := Map.set s.sys.nextRung n r.toNat } }) ∧
      (s.enabled n = true → s.f (PWR_PART.BUSY n) = 0 →
        (r = 0 → cur = 0 → entering = none → ∃ t, exec (.rungRequest n r) s = .next t ∧ t.f (PWR_PART.RUNG n) = 0 ∧ t.f (PWR_PART.ERR n) = 0 ∧ OnlyFields [PWR_PART.RUNG n, PWR_PART.ERR n] s t) ∧
        (r = 0 → cur ≠ 0 → calm → ∃ t, exec (.rungRequest n r) s = .next t ∧ t.f (PWR_PART.RUNG n) = 0 ∧ t.f (PWR_PART.CUR n) = cur ∧ asks t) ∧
        (r ≠ 0 → s.f (GLB_PART_CFG.STATE n) ≠ stSTOPPED → s.f (GLB_PART_CFG.STATE n) ≠ stRUNNING → s.rungRefused n = 1) ∧
        (r ≠ 0 → s.rungRefused n = 0 → r.toNat = cur → ∃ t, exec (.rungRequest n r) s = .next t ∧ t.f (PWR_PART.RUNG n) = r.toNat ∧ OnlyFields [PWR_PART.RUNG n, PWR_PART.ERR n] s t) ∧
        (r ≠ 0 → s.rungRefused n = 0 → r.toNat < cur → calm → ∃ t, exec (.rungRequest n r) s = .next t ∧ t.f (PWR_PART.RUNG n) = r.toNat ∧ asks t ∧ Map.find t.sys.nextRung n = some r.toNat) ∧
        (s.rungRefused n = 0 → cur < r.toNat → ∃ t, exec (.rungRequest n r) s = .next t ∧ t.f (PWR_PART.RUNG n) = r.toNat ∧ t.f (PWR_PART.CUR n) = cur ∧
          t.f (PWR_PART.BUSY n) = 1 ∧ Map.find t.sys.entering n = some r.toNat ∧
          (cur = 0 → ∀ q ∈ s.seqsOf n, (((s.getSeq q).st = 2 ∧ (s.getSeq q).rptc = 0) ∨ (s.getSeq q).st = 3 → (t.getSeq q).st = 5 ∧ (t.getSeq q).before = (s.getSeq q).st) ∧
            ((s.getSeq q).st = 2 → (s.getSeq q).rptc ≠ 0 → t.getSeq q = s.getSeq q)) ∧ SeqsBut (s.seqsOf n) s t ∧
          FieldsBut [PWR_PART.RUNG n, PWR_PART.ERR n, PWR_PART.BUSY n] s t))) ∧
    (entering = none → exec (.rungEntryComplete n) s = .next s) ∧
    (∀ r, entering = some r → r < 4 → Map.find s.sys.nextRung n = none → s.f (PWR_PART.WAKEEN n) = 0 → Map.find s.sys.wakeOld n = none → bitOf s.sys.trigEv n = false → s.jobs = [] →
      ((∀ q ∈ s.seqsOf n, (s.getSeq q).st = 2 → (s.getSeq q).rptc = 0) → ∃ t, exec (.rungEntryComplete n) s = .next t ∧
        t.f (PWR_PART.CUR n) = r ∧ t.f (PWR_PART.BUSY n) = 0 ∧ Map.find t.sys.entering n = none ∧ (cur = 0 → (⟨n, 22, 0, 0, 0⟩ : AEv) ∈ t.aev) ∧
        (∀ q ∈ s.seqsOf n, (s.getSeq q).st = 2 ∨ (s.getSeq q).st = 3 → (t.getSeq q).st = 5 ∧ (t.getSeq q).before = (s.getSeq q).st) ∧
        (2 ≤ r → cur < 2 → (∀ l ∈ s.lanesOf n, t.f (LANE_STAT.TSTATE l) = 0) ∧ (∀ q ∈ s.seqsOf n, t.f (CLK_STAB0.SEQ.bit q) = 0) ∧
          ∀ i ∈ s.islandsOf n, (s.getIsl i).inReset = false → t.f (CLK_ISL.STABLE i) = 0)) ∧
      (∀ q ∈ s.seqsOf n, (s.getSeq q).st = 2 → (s.getSeq q).rptc ≠ 0 → ∃ t, exec (.rungEntryComplete n) s = .next t ∧ t.f (PWR_PART.CUR n) = cur ∧ t.sys = s.sys ∧ t.mem = s.mem)) ∧
    (∀ src : Fin 3, ((s.enabled n = false ∨ s.wakePending n src = false) → exec (.wake n src) s = .next s) ∧
      (s.enabled n = true → s.wakePending n src = true → cur ≠ 0 → calm → ∃ t, exec (.wake n src) s = .next t ∧ asks t ∧ FieldsBut [PWR_PART.BUSY n] s t) ∧
      (∀ q, s.primary n = some q → Map.find s.sys.wakeOld n = none →
        (s.wakePending n 0 = true ↔ s.f (SEQ_DBELL.PEND q) ≠ 0 ∧ bitOf (s.f (PWR_PART.WAKEEN n)) 0 = true)) ∧
      (∀ q v, s.primary n = some q → Map.find s.sys.wakeOld n = none → bitOf (s.f (PWR_PART.WAKEEN n)) 0 = false → (wakeenWrite n v s).wakePending n 0 = false)) ∧
    (∀ (w : BitVec 32) (x : WakeReq) (rest : List WakeReq), s.sys.wakes = x :: rest → x.part = n.val →
      let defer (t : State) : Prop := x.started = false → w ≠ 0 → t.f PWR_WAKE_DEFER.COUNT = min (s.f PWR_WAKE_DEFER.COUNT + 1) 65535 ∧
        t.f PWR_WAKE_DEFER.MAXNS = max (s.f PWR_WAKE_DEFER.MAXNS) (min w.toNat 65535)
      (1 < x.left → ∃ t, exec (.wakeAdmission w) s = .next t ∧ t.sys.wakes = { x with left := x.left - 1, started := true } :: rest ∧ t.f (PWR_PART.CUR n) = cur ∧ defer t) ∧
      (x.left ≤ 1 → Map.find s.sys.nextRung n = none → ∃ t, exec (.wakeAdmission w) s = .next t ∧ t.sys.wakes = rest ∧ t.f (PWR_PART.CUR n) = 0 ∧
        t.f (PWR_PART.BUSY n) = 0 ∧ t.f (PWR_PART.WAKES n) = min (s.f (PWR_PART.WAKES n) + 1) 255 ∧ defer t ∧
        (∀ q ∈ s.seqsOf n, (s.getSeq q).st = 5 → (s.getSeq q).before ≠ 5 → (t.getSeq q).st = (s.getSeq q).before) ∧
        (2 ≤ cur → ∀ i ∈ s.islandsOf n, i < 156 → (s.getIsl i).inReset = false → (s.getIsl i).clkHalt = false → t.f (CLK_ISL.STABLE i) = 1))) ∧
    (s.sys.wakes = [] → ∀ w, exec (.wakeAdmission w) s = .next s) ∧
    (∃ t, exec .clrdef s = .next t ∧ t.rd PWR_WAKE_DEFER = 0 ∧ OnlyFields [whole PWR_WAKE_DEFER] s t)) ∧
  (∀ (i : Fin 156) (freq : BitVec 7) (s : State),
    let lost := s.f (CLK_ISL.STABLE i) = 1 ∧ (s.getIsl i).inReset = false
    let halted := (s.getIsl i).clkHalt = true
    (¬ lost → exec (.islandClockLoss i) s = .next s) ∧
    (lost → ∃ t, exec (.islandClockLoss i) s = .next t ∧ t.f (CLK_ISL.STABLE i) = 0 ∧ t.f (CLK_ISL.CLKERR i) = 1 ∧ t.getIsl i = { s.getIsl i with clkHalt := true, haltLogged := false } ∧
      Logged 0x0202 (s.islPart i) (srcOf 0 i) s t ∧ IslesBut [i.val] s t ∧ t.mem = s.mem) ∧
    let off := s.islPart i < 12 ∧ 2 ≤ s.f (PWR_PART.CUR (s.islPart i))
    (¬ halted → exec (.islandClockRestore i) s = .next s ∧ exec (.islandHaltTimeout i) s = .next s) ∧ (off → exec (.islandClockRestore i) s = .next s) ∧
    (halted → (¬ off → ∃ t, exec (.islandClockRestore i) s = .next t ∧ t.f (CLK_ISL.STABLE i) = 1 ∧ t.getIsl i = { s.getIsl i with clkHalt := false } ∧
        t.f (CLK_ISL.CUR i) = s.islFreq i ∧ FieldsBut [CLK_ISL.STABLE i, CLK_ISL.CUR i, CLK_ISL.CAP i] s t ∧ IslandOnly i s t) ∧
      ((s.getIsl i).haltLogged = true → exec (.islandHaltTimeout i) s = .next s) ∧
      ((s.getIsl i).haltLogged = false → ∃ t, exec (.islandHaltTimeout i) s = .next t ∧ (s.f (HLTH_ISL.STATE i) = 3 → Logged 0x0203 (s.islPart i) (srcOf 0 i) s t) ∧
        t.f (HLTH_ISL.STATE i) = 3 ∧ t.f (HLTH_ISL.HOURS i) = 0 ∧ t.f (HLTH_ISL.CAUSE i) = 8 ∧ t.getIsl i = { s.getIsl i with haltLogged := true } ∧ IslesBut [i.val] s t)) ∧
    (let cap := min (min freq.toNat 112) (s.f PWR_THERM.CEIL)
     ∃ t, exec (.clockRetune i freq) s = .next t ∧ t.f (CLK_ISL.FREQ i) = freq.toNat ∧ OnlyFields [CLK_ISL.FREQ i, CLK_ISL.CUR i, CLK_ISL.CAP i] s t ∧
       (s.f (CLK_ISL.STABLE i) = 0 → t.f (CLK_ISL.CUR i) = s.f (CLK_ISL.CUR i)) ∧
       (s.f (CLK_ISL.STABLE i) = 1 → t.f (CLK_ISL.CUR i) = (if s.f RST_STAT.SVC = 2 then cap else min cap 16) ∧
         t.f (CLK_ISL.CAP i) = b2n (s.f RST_STAT.SVC != 2 && decide (16 < cap))))) ∧
  (∀ (power : BitVec 10) (lid : BitVec 16) (s : State),
    let ae := s.f GLB_REVISION.VARIANT = 2
    let ceil := s.f PWR_THERM.CEIL
    let hot := 150 < lid.toInt
    let above := hot ∧ 380 < power.toNat
    let follows (t : State) : Prop := ∀ i, i < 156 → s.f (CLK_ISL.STABLE i) = 1 → t.f (CLK_ISL.CUR i) = t.islFreq i
    (s.firmOn = false → exec (.powerCapTick power lid) s = .next s) ∧
    (s.firmOn = true → ∃ t, exec (.powerCapTick power lid) s = .next t ∧ t.f PWR_THERM.DIEP = power.toNat ∧ (t.sys.hot = true ↔ hot) ∧ (hot → s.sys.hot = false → t.f PWR_THERM.LIDHI = 1) ∧
      (¬ ae → t.f PWR_THERM.CEIL = ceil) ∧
      (ae → above → t.f PWR_THERM.CEIL = ceil - 1 ∧ t.f PWR_THERM.CAPHIT = 1 ∧ follows t) ∧
      (ae → ¬ above → (power.toNat ≤ 370 ∨ lid.toInt ≤ 146) → 9 ≤ s.sys.capMs → ceil < 112 → t.f PWR_THERM.CEIL = ceil + 1 ∧ follows t) ∧
      (ae → ¬ above → (s.sys.capMs < 9 ∨ 112 ≤ ceil ∨ (370 < power.toNat ∧ 146 < lid.toInt)) → t.f PWR_THERM.CEIL = ceil)) ∧
    (s.sys.stage = 0 → exec .lidAboveLimit s = .next s) ∧
    (s.sys.stage ≠ 0 → ∃ t, exec .lidAboveLimit s = .next t ∧ t.f PWR_THERM.LIDHI = 1 ∧ FieldsBut [PWR_THERM.LIDHI] s t ∧ t.sys = { s.sys with hot := true }) ∧
    (∀ (k : Fin 6) (mv temp : BitVec 16), (s.sys.pgood = false → exec (.railFault k mv) s = .next s) ∧
      (s.sys.pgood = true → ∃ t, exec (.railFault k mv) s = .next t ∧ Logged 0x0B03 15 (srcOf 9 k) s t ∧ t.f ERR_STAT.HACT = 1 ∧ t.sys = s.sys) ∧
      ((s.sys.stage = 0 ∨ temp.toInt ≤ 220) → exec (.junctionOvertemp temp) s = .next s) ∧
      (s.sys.stage ≠ 0 → 220 < temp.toInt → ∃ t, exec (.junctionOvertemp temp) s = .next t ∧ Logged 0x0B04 15 (srcOf 0 242) s t ∧ t.f ERR_STAT.HACT = 1 ∧ t.sys = s.sys)) ∧
    (s.sys.vin = false → exec .thermalTrip s = .next s) ∧
    (s.sys.vin = true → ∃ t, exec .thermalTrip s = .next t ∧ t.sys.trip = true ∧ t.sys.stage = 1 ∧ t.isl = [] ∧ t.jobs = [] ∧ (∀ k, k ≠ RST_CAUSE → t.rd k = regReset k) ∧
      t.f RST_CAUSE.COLDSRC = s.f RST_CAUSE.COLDSRC) ∧
    (∀ (addr : BitVec 7) (cmd : BitVec 8) (sense : BitVec 16), let ours := s.sys.stage ≠ 0 ∧ addr.toNat = 0x58 + s.sys.modId
      (¬ ours → exec (.smbusRead addr cmd sense) s = .next s) ∧
      (ours → (cmd = 0 → exec (.smbusRead addr cmd sense) s = .next (s.emit (.read (BitVec.ofNat 64
          (s.f RST_STAT.SVC + 4 * s.f ERR_STAT.FATAL + 8 * s.f ERR_STAT.SAFE + 16 * s.modRung))))) ∧
        (cmd = 1 → exec (.smbusRead addr cmd sense) s = .next (s.emit (.read (BitVec.ofNat 64 s.sys.fault)))) ∧
        (cmd ∈ [0x10, 0x11, 0x12, 0x20, 0x21, 0x30, 0x31, 0x32, 0x33, 0x34, 0x35] →
          exec (.smbusRead addr cmd sense) s = .next (s.emit (.read (BitVec.ofNat 64 (if s.sys.pgood then sense.toNat else 0))))))))

/-- CONTAINED_HANDLING of the oldest contained record and those of its partition stops the partition under XSTOP and waits for its safe point, then marks an island
FAILING for a clock record, and begins a reload for an upset in use, whose end the handling waits for; FATAL_HANDLING of the one fatal record stops every enabled partition, waits for the safe points, commits, raises the alert and sets FATAL; SAFE_HOLD, when due, halts every sequencer and serves no mailbox. A storm
window that suppressed records writes a summary with their number. HEALTH_SAMPLE stores the estimate and enters a worse state at once, logged when WORN or
FAILING, and a better one once the estimate has stood for it or a better one for 24 h. CAPTURE_GO commands the islands to freeze, FREEZE_ARRIVAL freezes one and with the last holds the capture with event 21, CAPTURE_RESUME releases it
and lets the MOULT tokens that arrived meanwhile enter, CAPTURE_READBACK shows its records and zero where none is held. DEBUG_REGISTER_SELECT latches a register of a halted sequencer. DBGACC captures the last result
and is locked unless open; DBGUNLOCK opens it on a good signature, at most three failures; EXTEST, SAMPLE_PRELOAD, IDCODE and BYPASS capture their registers.
AUTO_REPAIR begins the repair of a FAILING island and moves its row's spare pointer in step 6. Where no rule says so, that a command whose condition does not
hold changes nothing is the model's choice (log entry 1). That an estimate does not rise while it reads FAILING (log entry 45), that BYPASS captures 0 (log
entry 46), the closed DBGACC before the trim load (log entry 61), joined records (log entry 67) and the layout of captured words (log entry 44) are the model's. -/
def Obligations.ErrorHandlingCaptureAndDebug : Prop :=
  (∀ (s : State) (h : Handling) (rest : List Handling),
    let safe (asked : Bool) (q : Nat) : Prop :=
      if asked = false ∧ (s.getSeq q).st = 2 then (s.getSeq q).rptc = 0 else (asked = false ∧ (s.getSeq q).st = 3) ∨ (s.getSeq q).mcheck ≠ some 1
    let waits (q : Nat) : Prop := (s.getSeq q).st = 2 ∧ (s.getSeq q).rptc ≠ 0
    (s.handling = h :: rest → h.sev = 2 → s.firmOn = true →
      let mine (x : Handling) : Bool := x.sev == 2 && x.part == h.part
      let stop := s.enabled h.part = true ∧ (∃ x ∈ s.handling, mine x = true ∧ (s.f ERR_CTL.XSTOP = 1 ∨ x.code = 0x0401 ∨ x.code = 0x0203)) ∧
        ∀ x ∈ s.handling, mine x = true → x.followed = false
      let done := stop → ∀ q ∈ s.seqsOf h.part, safe h.asked q
      (done → s.reloading h.part = false → (∀ x ∈ s.handling, mine x = true → x.followed = true ∨ x.code ∉ [0x0203, 0x0204, 0x0703]) → ∃ t, exec .containedHandling s = .next t ∧
        let left := rest.filter (fun x => !mine x)
        t.handling = left ∧ t.f ERR_STAT.HACT = b2n (!left.isEmpty)) ∧
      (s.reloading h.part = true → (∀ x ∈ s.handling, mine x = true → x.followed = true) → exec .containedHandling s = .next s) ∧
      (done → rest = [] → h.followed = false → h.code = 0x0703 → h.part < 12 → s.enabled h.part = true → s.f CFG_STAT.BUSY = 0 → s.sys.reloads = [] →
        ∃ t, exec .containedHandling s = .next t ∧ t.handling = [{ h with followed := true }] ∧ t.f ERR_STAT.HACT = s.f ERR_STAT.HACT ∧
          t.f CFG_STAT.BUSY = 1 ∧ t.cfg.src = 4 ∧ t.cfg.mode = 0 ∧ t.cfg.part = h.part) ∧
      (stop → h.asked = false → h.part < 12 → ∃ t, exec .containedHandling s = .next t ∧ (∀ q ∈ s.seqsOf h.part, t.f (SEQ_CTL.RUN q) = 0) ∧
        ((∃ q ∈ s.seqsOf h.part, waits q) → t.handling = s.handling.map (fun x => if mine x then { x with asked := true } else x))) ∧
      (done → h.followed = false → (h.code = 0x0203 ∨ h.code = 0x0204) → h.src < 156 → ∃ t, exec .containedHandling s = .next t ∧ t.f (HLTH_ISL.STATE h.src) = 3 ∧
        t.f (HLTH_ISL.HOURS h.src) = 0 ∧ t.f (HLTH_ISL.CAUSE h.src) = 8)) ∧
    ((s.handling = [] ∨ s.firmOn = false) → exec .containedHandling s = .next s) ∧
    (let fatals := (s.handling.filter (fun x => x.sev == 3)).length
     (¬ (fatals = 1 ∧ s.firmOn = true) → exec .fatalHandling s = .next s) ∧
     (fatals = 1 → s.firmOn = true →
       let asked := s.handling.any (fun x => x.sev == 3 && x.asked)
       ((∀ p ∈ s.enabledParts, ∀ q ∈ s.seqsOf p, safe asked q) → ∃ t, exec .fatalHandling s = .next t ∧ t.sys.fault = 0x40 ∧ t.sys.alert = true ∧ t.handling = [] ∧
         t.f ERR_STAT.HACT = 0 ∧ t.f ERR_STAT.FATAL = 1 ∧
         ∀ p ∈ s.enabledParts, (⟨p, 22, 0, 0, 0⟩ : AEv) ∈ t.aev ∧ (asked = false → ∀ q ∈ s.seqsOf p, t.f (SEQ_CTL.RUN q) = 0)) ∧
       (asked = false → (∃ p ∈ s.enabledParts, ∃ q ∈ s.seqsOf p, waits q) → ∃ t, exec .fatalHandling s = .next t ∧ t.sys.alert = true ∧
         t.f ERR_STAT.FATAL = s.f ERR_STAT.FATAL ∧ t.handling = s.handling.map (fun x => if x.sev = 3 then { x with asked := true } else x))) ∧
     ∀ e : Bool, let due := s.f ERR_STAT.SAFE = 0 ∧ (2 ≤ fatals ∨ (fatals = 1 ∧ (e = true ∨ s.sys.stage ≠ 3)))
       (¬ due → exec (.safeHold e) s = .next s) ∧
       (due → ∃ t, exec (.safeHold e) s = .next t ∧ t.f ERR_STAT.SAFE = 1 ∧ t.sys.fault = 0x41 ∧ t.sys.alert = true ∧ (∀ f, f < 13 → t.f (MBX_STAT.READY f) = 0) ∧
         ∀ q, q < 24 → (t.getSeq q).st = (if (s.getSeq q).st = 0 then 0 else 1) ∧ t.f (SEQ_CTL.RUN q) = 0)) ∧
    (∀ key w, s.storm = [(key, w)] → key / 65536 < 65536 → w.part < 16 → ∃ t, exec .stormWindowEnd s = .next t ∧
      (s.f ERR_CTL.STORM ≠ 0 → s.f ERR_CTL.STORM < w.n + w.sup → t.storm = [(key, { w with n := 0, sup := 0, going := true })]) ∧
      ((s.f ERR_CTL.STORM = 0 ∨ w.n + w.sup ≤ s.f ERR_CTL.STORM) → t.storm = []) ∧ (w.sup = 0 → t.log = s.log ∧ t.regs = s.regs) ∧
      (w.sup ≠ 0 → t.f ERR_LOGP.TAIL = (s.f ERR_LOGP.TAIL + 1) % 4096 ∧ ∃ r, Map.find t.log (s.f ERR_LOGP.TAIL) = some r ∧ bitsOf r.w1.toNat 55 40 = min w.sup 65535 ∧
        bitsOf r.w1.toNat 39 24 = key % 65536 ∧ bitsOf r.w1.toNat 23 8 = key / 65536 ∧ bitsOf r.w1.toNat 7 4 = w.part ∧ bitsOf r.w1.toNat 3 3 = 1 ∧ r.w2 = w.i0 ∧ r.w3 = w.i1))) ∧
  (∀ (i : Fin 156) (hours : BitVec 24) (conf : BitVec 2) (cause : BitVec 4) (crossed late : Bool) (elapsed : BitVec 32) (s : State),
    let old := s.f (HLTH_ISL.STATE i)
    let h := if crossed then 0 else hours.toNat
    let new := if 10000 < h then 0 else if 1000 ≤ h then 1 else if 24 ≤ h then 2 else 3
    let on := s.firmOn = true ∧ s.f HLTH_CTL.EN = 1
    let stood (b : Nat) : Prop := ∃ x, Map.find s.sys.better (i.val * 4 + b) = some x ∧ 86400 ≤ x + elapsed.toNat
    let c := Instr.healthSample (.isl i) hours conf cause crossed elapsed
    (¬ on → exec c s = .next s) ∧
    (on → old ≠ 3 → ∃ t, exec c s = .next t ∧ t.f (HLTH_ISL.HOURS i) = h ∧ t.f (HLTH_ISL.CONF i) = conf.toNat ∧ t.f (HLTH_ISL.CAUSE i) = cause.toNat ∧ t.sys.healthAt = s.rd RING_TIME ∧
      (old ≤ new → t.f (HLTH_ISL.STATE i) = new) ∧ (old < new → new = 2 → Logged 0x0B01 (s.islPart i) (srcOf 0 i) s t) ∧
      (old < new → new = 3 → Logged 0x0B02 (s.islPart i) (srcOf 0 i) s t) ∧
      (new < old → (∀ b, new ≤ b → b < old → ¬ stood b) → t.f (HLTH_ISL.STATE i) = old ∧ t.log = s.log ∧
        ∀ b, new ≤ b → b < old → Map.find t.sys.better (i.val * 4 + b) = some (match Map.find s.sys.better (i.val * 4 + b) with
          | some x => x + elapsed.toNat
          | none => 0)) ∧
      (new < old → ∀ b, new ≤ b → b < old → stood b → (∀ a, new ≤ a → a < b → ¬ stood a) → t.f (HLTH_ISL.STATE i) = b)) ∧
    (on → old = 3 → ∃ t, exec c s = .next t ∧ t.f (HLTH_ISL.STATE i) = 3 ∧ t.f (HLTH_ISL.HOURS i) = min h (s.f (HLTH_ISL.HOURS i)) ∧ t.log = s.log) ∧
    (s.firmOn = true → s.sys.repair = none →
      let n := s.islPart i
      let st := s.f (GLB_PART_CFG.STATE n)
      let begins := s.autoOn = true ∧ s.repairable i = true ∧ (st = stSTOPPED ∨ (late = true ∧ s.f HLTH_CTL.AUTOREP = 2))
      (¬ begins → exec (.autoRepair i late) s = .next s) ∧
      (begins → n < 12 → ∃ t, exec (.autoRepair i late) s = .next t ∧ t.f (GLB_PART_CFG.STATE n) = stREPAIRING ∧ (∀ q ∈ s.seqsOf n, t.f (SEQ_CTL.RUN q) = 0) ∧
        ∃ r, t.sys.repair = some r ∧ r.part = n ∧ r.row = i.val / 13 ∧ r.col = i.val % 13 ∧ r.ran = (st == stRUNNING) ∧ (r.step = 1 ∨ r.step = 2))) ∧
    (∀ r, s.firmOn = true → s.sys.repair = some r → r.row < 12 → r.col < 12 → r.row * 13 + r.col = i.val → r.warm = false → r.reset = false → s.jobs = [] → r.step = 6 →
      ∃ t, exec (.autoRepair i late) s = .next t ∧ t.f (GLB_ROW_MAP.SPARE_PTR r.row) = r.col ∧ t.f (GLB_ROW_MAP.SPARE_USED r.row) = 1 ∧ (t.getIsl i).inReset = true ∧
        t.sys.repair = some { r with step := 7 } ∧ Map.find t.sys.spares r.row = some r.col ∧ t.mem = s.mem)) ∧
  (∀ (n : Fin 12) (i : Fin 156) (k : BitVec 5) (isl : BitVec 8) (s : State),
    let st := s.f (ERR_CAP.STATE n)
    let p := s.islPart i
    (¬ (s.enabled n = true ∧ st = 0) → exec (.captureGo n) s = .next s) ∧
    (s.enabled n = true → st = 0 → ∃ t, exec (.captureGo n) s = .next t ∧ t.f (ERR_CAP.STATE n) = 1 ∧ FieldsBut [ERR_CAP.STATE n] s t ∧
      (∀ j ∈ s.islandsOf n, t.getIsl j = { s.getIsl j with freezeCmd := true }) ∧ IslesBut (s.islandsOf n) s t) ∧
    (let comes := (s.getIsl i).freezeCmd = true ∧ s.islClk i = true
     let last := p < 12 ∧ s.f (ERR_CAP.STATE p) = 1 ∧ ∀ j ∈ s.islandsOf p, j ≠ i.val → (s.getIsl j).frozen = true
     (¬ comes → exec (.freezeArrival i) s = .next s) ∧
     (comes → ∃ t, exec (.freezeArrival i) s = .next t ∧ t.getIsl i = { s.getIsl i with frozen := true, freezeCmd := false } ∧ IslesBut [i.val] s t ∧
       (last → t.f (ERR_CAP.STATE p) = 2 ∧ (⟨p, 21, 0, 0, 0⟩ : AEv) ∈ t.aev) ∧ (¬ last → t.regs = s.regs ∧ t.aev = s.aev))) ∧
    (st ≠ 2 → exec (.captureResume n) s = .next s) ∧
    (st = 2 → ∃ t, exec (.captureResume n) s = .next t ∧ t.f (ERR_CAP.STATE n) = 0 ∧ FieldsBut [ERR_CAP.STATE n] s t ∧
      (∀ j ∈ s.islandsOf n, t.getIsl j = { s.getIsl j with frozen := false, freezeCmd := false }) ∧ IslesBut (s.islandsOf n) s t ∧
      ∀ q ∈ s.seqsOf n, s.seqPart q = some n.val → (t.getSeq q).moults = (s.getSeq q).moults.dropWhile (·.due)) ∧
    (∃ t, exec (.captureReadback isl k) s = .next t ∧ t.f CFG_RBADDR.READY = 1 ∧ t.f ERR_CAPRB.ISLAND = isl.toNat ∧ t.f ERR_CAPRB.RECORD = k.toNat ∧
      (s.captured isl.toNat = false → ∀ j, j < 32 → t.f (CFG_RBDATA.DATA j) = 0) ∧
      (s.captured isl.toNat = true → k = 0 → t.f (CFG_RBDATA.DATA 0) = (s.getIsl isl.toNat).cycle % 2 ^ 32 ∧
        t.f (CFG_RBDATA.DATA 2) = (s.rd (ISL_PLANE_CUR isl.toNat)).toNat % 2 ^ 32 ∧ t.f (CFG_RBDATA.DATA 3) = (s.rd (ISL_PLANE_CUR isl.toNat)).toNat / 2 ^ 32 ∧
        t.f (CFG_RBDATA.DATA 4) = (s.rd (ISL_PLANE_AUX isl.toNat)).toNat % 2 ^ 32)) ∧
    (∀ (reg : BitVec 8) (q : BitVec 5), let x := s.getSeq q.toNat
      let held := q.toNat < 24 ∧ (x.st = 0 ∨ x.st = 1 ∨ x.st = 4)
      ∃ t, exec (.debugRegisterSelect reg q) s = .next t ∧ t.f HLTH_DBGSEL.REG = reg.toNat ∧ t.f HLTH_DBGSEL.SEQ = q.toNat ∧
        OnlyFields [HLTH_DBGSEL.REG, HLTH_DBGSEL.SEQ, HLTH_DBGSEL.VALID, whole HLTH_DBGDATA] s t ∧
        ((¬ held ∨ 154 ≤ reg.toNat) → t.f HLTH_DBGSEL.VALID = 0 ∧ t.rd HLTH_DBGDATA = 0) ∧ (held → reg = 0 → t.f HLTH_DBGSEL.VALID = 1 ∧ t.rd HLTH_DBGDATA = 0) ∧
        (held → 0 < reg.toNat → reg.toNat < 128 → t.f HLTH_DBGSEL.VALID = 1 ∧ t.rd HLTH_DBGDATA = Map.getD x.r reg.toNat 0)) ∧
    (let scan (ir data : Nat) : State := { s with sys := { s.sys with ir := ir, extest := ir == 0 }, out := s.out ++ [.scan ir data] }
     let result := s.sys.dbgResult + s.sys.dbgData.toNat * 2 ^ 64
     let ended (st : Nat) (t : State) : Prop := t.sys.dbgResult = st ∧ t.sys.dbgData = 0 ∧ t.out = s.out ++ [.scan 0x10 result]
     (s.dbgOpen = false → ∀ op, exec (.dbgacc op) s = .next { scan 0x10 result with sys := { (scan 0x10 result).sys with dbgResult := 2, dbgData := 0 } }) ∧
     (s.dbgOpen = true → ∀ q : Fin 32,
       ((24 ≤ q.val ∨ s.seqClk q = false) → (∃ t, exec (.dbgacc (.halt q)) s = .next t ∧ ended 1 t ∧ t.regs = s.regs) ∧ ∃ t, exec (.dbgacc (.run q)) s = .next t ∧ ended 1 t ∧ t.regs = s.regs) ∧
       (q.val < 24 → s.seqClk q = true → (∃ t, exec (.dbgacc (.halt q)) s = .next t ∧ ended 0 t ∧ t.f (SEQ_CTL.RUN q) = 0) ∧
         ((s.getSeq q).st = 1 → s.seqPart q ≠ none → ∃ t, exec (.dbgacc (.run q)) s = .next t ∧ ended 0 t ∧ (t.getSeq q).st = 2 ∧ t.f (SEQ_CTL.RUN q) = 1))) ∧
     (∀ (sig : BitVec 768) (slot : BitVec 2),
       let good := bitOf (s.f CFG_POLICY.SIGPROG) slot.toNat = true ∧ bitOf (s.f CFG_POLICY.SIGREV) slot.toNat = false ∧ sigOk slot.toNat s.unlockMsg (bytesLE 96 sig.toNat) = true
       (3 ≤ s.sys.tries → exec (.dbgunlock sig slot) s = .next (scan 0x11 s.sys.challenge.toNat)) ∧
       (s.sys.tries < 3 → good → ∃ t, exec (.dbgunlock sig slot) s = .next t ∧ t.f HLTH_DBGSTAT.UNLOCKED = 1 ∧ OnlyFields [HLTH_DBGSTAT.UNLOCKED] (scan 0x11 s.sys.challenge.toNat) t) ∧
       (s.sys.tries < 3 → ¬ good → ∃ t, exec (.dbgunlock sig slot) s = .next t ∧ t.sys.tries = s.sys.tries + 1 ∧ t.regs = s.regs)) ∧
     (∀ pins data : BitVec 80,
       exec (.extest pins data) s = .next { scan 0 pins.toNat with sys := { (scan 0 pins.toNat).sys with bsr := data } } ∧
       exec (.samplePreload pins data) s = .next { scan 1 pins.toNat with sys := { (scan 1 pins.toNat).sys with bsr := data } }) ∧
     exec .idcode s = .next (scan 2 0xB712_0001) ∧ exec .bypass s = .next (scan 0xFF 0)))
end

