-- ==== Sys2Proof/Laws/Bits.lean ====
section
/-!
SUPPORT. Laws/Bits.lean: what the number helpers of Machine/Bits.lean mean as operations on bit vectors.
-/
namespace Sys2Proof.Machine

/-- The signed value of the low bits of a number. -/
theorem sgn_eq_toInt (w v : Nat) : sgn w v = (BitVec.ofNat w v).toInt := by
  simp only [sgn, BitVec.toInt, BitVec.toNat_ofNat]

/-- The sign extension of a 32-bit number. -/
theorem sext32_eq (v : Nat) : sext32 v = (BitVec.ofNat 32 v).signExtend 64 := by
  rw [sext32, sgn_eq_toInt]; rfl

theorem sext32_toNat (v : Word) : sext32 v.toNat = (v.setWidth 32).signExtend 64 := by
  rw [sext32_eq]; congr 1

theorem bw_slt (a b : Word) : bw (a.slt b) = if a.toInt < b.toInt then 1 else 0 := by
  simp only [bw, BitVec.slt_eq_decide]; simp

theorem bw_ult (a b : Word) : bw (a.ult b) = if a.toNat < b.toNat then 1 else 0 := by
  simp only [bw, BitVec.ult_eq_decide]; simp

end Sys2Proof.Machine
end

