-- ==== Sys2Proof/Laws/Map.lean ====
section
/-!
SUPPORT. Laws/Map.lean: what the sparse maps and the byte memory answer after a change, and that every operation of the memory keeps its canonical form.
-/
namespace Sys2Proof.Machine

/-! ### Sparse maps -/

theorem Map.find_set {α : Type} (m : Map α) (k k' : Nat) (v : α) : Map.find (Map.set m k v) k' = if k' = k then some v else Map.find m k' := by
  induction m with
  | nil =>
    by_cases h : k' = k
    · simp [Map.set, Map.find, h]
    · simp [Map.set, Map.find, h, show ¬ k = k' from fun e => h e.symm]
  | cons e m ih =>
    obtain ⟨a, b⟩ := e
    simp only [Map.set]
    split
    · rename_i h; subst h
      by_cases h : k' = a
      · simp [Map.find, h]
      · simp [Map.find, h, show ¬ a = k' from fun h' => h h'.symm]
    · split
      · by_cases h : k' = k
        · simp [Map.find, h]
        · simp [Map.find, h, show ¬ k = k' from fun h' => h h'.symm]
      · simp only [Map.find, ih]
        by_cases h : a = k'
        · subst h; simp [*]
        · simp [h]

@[simp] theorem Map.getD_set {α : Type} (m : Map α) (k k' : Nat) (v d : α) : Map.getD (Map.set m k v) k' d = if k' = k then v else Map.getD m k' d := by
  simp only [Map.getD, Map.find_set]; split <;> rfl

@[simp] theorem Map.getD_set_same {α : Type} (m : Map α) (k : Nat) (v d : α) : Map.getD (Map.set m k v) k d = v := by simp

/-! ### The byte memory -/

theorem Memory.above_mono {lo lo' : Nat} (m : Memory) (h : lo' ≤ lo) (hm : Memory.above lo m = true) : Memory.above lo' m = true := by
  cases m with
  | nil => rfl
  | cons e m =>
    obtain ⟨a, b⟩ := e
    simp only [Memory.above, Bool.and_eq_true, decide_eq_true_eq] at hm ⊢
    exact ⟨⟨by omega, hm.1.2⟩, hm.2⟩

theorem Memory.above_cons (lo a : Nat) (b : Byte) (m : Memory) :
    Memory.above lo ((a, b) :: m) = true ↔ lo ≤ a ∧ b ≠ 0 ∧ Memory.above (a + 1) m = true := by
  simp [Memory.above, and_assoc]

theorem Memory.put_above (m : Memory) (a : Nat) (b : Byte) (lo : Nat) (hlo : lo ≤ a) (hm : Memory.above lo m = true) : Memory.above lo (Memory.put m a b) = true := by
  induction m generalizing lo with
  | nil =>
    simp only [Memory.put]
    split
    · rfl
    · exact (Memory.above_cons ..).2 ⟨hlo, ‹_›, rfl⟩
  | cons e m ih =>
    obtain ⟨k, v⟩ := e
    obtain ⟨h1, h2, h3⟩ := (Memory.above_cons ..).1 hm
    simp only [Memory.put]
    split
    · rename_i h
      subst h
      split
      · exact Memory.above_mono _ (by omega) h3
      · exact (Memory.above_cons ..).2 ⟨h1, ‹_›, h3⟩
    · split
      · split
        · exact hm
        · exact (Memory.above_cons ..).2 ⟨hlo, ‹_›, (Memory.above_cons ..).2 ⟨by omega, h2, h3⟩⟩
      · exact (Memory.above_cons ..).2 ⟨h1, h2, ih _ (by omega) h3⟩

/-- Storing a byte keeps the canonical form. -/
theorem Memory.put_wf (m : Memory) (a : Nat) (b : Byte) (hm : Memory.wf m = true) : Memory.wf (Memory.put m a b) = true :=
  Memory.put_above m a b 0 (by omega) hm

/-- Storing bytes keeps the canonical form. -/
theorem Memory.puts_wf (m : Memory) (a : Nat) (bs : List Byte) (hm : Memory.wf m = true) : Memory.wf (Memory.puts m a bs) = true := by
  induction bs generalizing m a with
  | nil => exact hm
  | cons b bs ih => exact ih _ _ (Memory.put_wf m a b hm)

theorem Memory.filter_above (m : Memory) (p : Host.Cell → Bool) (lo : Nat) (hm : Memory.above lo m = true) : Memory.above lo (m.filter p) = true := by
  induction m generalizing lo with
  | nil => rfl
  | cons e m ih =>
    obtain ⟨k, v⟩ := e
    simp only [Memory.above, Bool.and_eq_true, decide_eq_true_eq] at hm
    obtain ⟨⟨h1, h2⟩, h3⟩ := hm
    simp only [List.filter_cons]
    split
    · simp only [Memory.above, Bool.and_eq_true, decide_eq_true_eq]
      exact ⟨⟨h1, h2⟩, ih _ h3⟩
    · exact ih _ (Memory.above_mono _ (by omega) h3)

/-- Leaving cells out keeps the canonical form. -/
theorem Memory.filter_wf (m : Memory) (p : Host.Cell → Bool) (hm : Memory.wf m = true) : Memory.wf (m.filter p) = true := Memory.filter_above m p 0 hm

/-- Wiping a range keeps the canonical form. -/
theorem Memory.wipe_wf (m : Memory) (lo hi : Nat) (hm : Memory.wf m = true) : Memory.wf (Memory.wipe m lo hi) = true := Memory.filter_wf m _ hm

/-- Copying a range keeps the canonical form. -/
theorem Memory.copy_wf (m : Memory) (lo n d : Nat) (hm : Memory.wf m = true) : Memory.wf (Memory.copy m lo n d) = true := by
  unfold Memory.copy
  generalize m.filter (fun c => decide (lo ≤ c.1) && decide (c.1 < lo + n)) = cs
  have h := Memory.wipe_wf m d (d + n) hm
  revert h
  generalize Memory.wipe m d (d + n) = m'
  intro h
  induction cs generalizing m' with
  | nil => exact h
  | cons c cs ih => exact ih _ (Memory.put_wf _ _ _ h)

theorem Memory.find_none_of_above (m : Memory) (lo a : Nat) (h : a < lo) (hm : Memory.above lo m = true) : Map.find m a = none := by
  induction m generalizing lo with
  | nil => rfl
  | cons e m ih =>
    obtain ⟨k, v⟩ := e
    simp only [Memory.above, Bool.and_eq_true, decide_eq_true_eq] at hm
    simp only [Map.find, show ¬ k = a by omega, if_false]
    exact ih (k + 1) (by omega) hm.2

/-- A read after a write to a canonical memory: the byte written at its address, every other byte as before. -/
theorem Memory.get_put (m : Memory) (a : Nat) (b : Byte) (a' : Nat) (hm : Memory.wf m = true) :
    Memory.get (Memory.put m a b) a' = if a' = a then b else Memory.get m a' := by
  suffices ∀ lo, Memory.above lo m = true → lo ≤ a → Memory.get (Memory.put m a b) a' = if a' = a then b else Memory.get m a' from
    this 0 hm (by omega)
  clear hm
  induction m with
  | nil =>
    intro lo _ _
    simp only [Memory.put]
    split
    · rename_i hb; subst hb; by_cases ha : a' = a <;> simp [Memory.get, Map.find, ha]
    · by_cases ha : a' = a
      · simp [Memory.get, Map.find, ha]
      · simp [Memory.get, Map.find, ha, show ¬ a = a' from fun h => ha h.symm]
  | cons e m ih =>
    obtain ⟨k, v⟩ := e
    intro lo hm hlo
    obtain ⟨h1, h2, h3⟩ := (Memory.above_cons ..).1 hm
    simp only [Memory.put]
    split
    · rename_i h
      subst h
      have hn := Memory.find_none_of_above m (k + 1) k (by omega) h3
      split
      · rename_i hb
        by_cases ha : a' = k
        · subst ha; simp [Memory.get, hn, hb]
        · simp [Memory.get, Map.find, ha, show ¬ k = a' by omega]
      · by_cases ha : a' = k
        · simp [Memory.get, Map.find, ha]
        · simp [Memory.get, Map.find, ha, show ¬ k = a' by omega]
    · rename_i hk
      split
      · have hn : Map.find ((k, v) :: m) a = none :=
          Memory.find_none_of_above _ k a (by omega) ((Memory.above_cons ..).2 ⟨by omega, h2, h3⟩)
        split
        · rename_i hb
          by_cases ha : a' = a
          · subst ha; simp [Memory.get, hn, hb]
          · simp [ha]
        · by_cases ha : a' = a
          · simp [Memory.get, Map.find, ha]
          · simp [Memory.get, Map.find, ha, show ¬ a = a' by omega]
      · have := ih (k + 1) h3 (by omega)
        simp only [Memory.get, Map.find] at this ⊢
        by_cases ha : k = a'
        · subst ha; simp [show ¬ k = a by omega]
        · simpa [ha] using this

end Sys2Proof.Machine
end

