-- ==== Sys2Proof/Laws/State.lean ====
section
/-!
SUPPORT. Laws/State.lean: for each named update of the state, the fields that it leaves as they are.
-/
namespace Sys2Proof.Machine

@[simp] theorem State.wr_pending (s : State) (k : Nat) (v : Word) : (s.wr k v).pending = s.pending := rfl
@[simp] theorem State.wr_mem (s : State) (k : Nat) (v : Word) : (s.wr k v).mem = s.mem := rfl
@[simp] theorem State.wr_frames (s : State) (k : Nat) (v : Word) : (s.wr k v).frames = s.frames := rfl
@[simp] theorem State.wr_isl (s : State) (k : Nat) (v : Word) : (s.wr k v).isl = s.isl := rfl
@[simp] theorem State.wr_lanes (s : State) (k : Nat) (v : Word) : (s.wr k v).lanes = s.lanes := rfl
@[simp] theorem State.wr_msps (s : State) (k : Nat) (v : Word) : (s.wr k v).msps = s.msps := rfl
@[simp] theorem State.wr_seqs (s : State) (k : Nat) (v : Word) : (s.wr k v).seqs = s.seqs := rfl
@[simp] theorem State.wr_parts (s : State) (k : Nat) (v : Word) : (s.wr k v).parts = s.parts := rfl
@[simp] theorem State.wr_dmas (s : State) (k : Nat) (v : Word) : (s.wr k v).dmas = s.dmas := rfl
@[simp] theorem State.wr_tlb (s : State) (k : Nat) (v : Word) : (s.wr k v).tlb = s.tlb := rfl
@[simp] theorem State.wr_units (s : State) (k : Nat) (v : Word) : (s.wr k v).units = s.units := rfl
@[simp] theorem State.wr_fat (s : State) (k : Nat) (v : Word) : (s.wr k v).fat = s.fat := rfl
@[simp] theorem State.wr_feParts (s : State) (k : Nat) (v : Word) : (s.wr k v).feParts = s.feParts := rfl
@[simp] theorem State.wr_fe (s : State) (k : Nat) (v : Word) : (s.wr k v).fe = s.fe := rfl
@[simp] theorem State.wr_aev (s : State) (k : Nat) (v : Word) : (s.wr k v).aev = s.aev := rfl
@[simp] theorem State.wr_log (s : State) (k : Nat) (v : Word) : (s.wr k v).log = s.log := rfl
@[simp] theorem State.wr_logSeq (s : State) (k : Nat) (v : Word) : (s.wr k v).logSeq = s.logSeq := rfl
@[simp] theorem State.wr_logFull (s : State) (k : Nat) (v : Word) : (s.wr k v).logFull = s.logFull := rfl
@[simp] theorem State.wr_storm (s : State) (k : Nat) (v : Word) : (s.wr k v).storm = s.storm := rfl
@[simp] theorem State.wr_handling (s : State) (k : Nat) (v : Word) : (s.wr k v).handling = s.handling := rfl
@[simp] theorem State.wr_msixOn (s : State) (k : Nat) (v : Word) : (s.wr k v).msixOn = s.msixOn := rfl
@[simp] theorem State.wr_msixPend (s : State) (k : Nat) (v : Word) : (s.wr k v).msixPend = s.msixPend := rfl
@[simp] theorem State.wr_cfg (s : State) (k : Nat) (v : Word) : (s.wr k v).cfg = s.cfg := rfl
@[simp] theorem State.wr_jobs (s : State) (k : Nat) (v : Word) : (s.wr k v).jobs = s.jobs := rfl
@[simp] theorem State.wr_mbx (s : State) (k : Nat) (v : Word) : (s.wr k v).mbx = s.mbx := rfl
@[simp] theorem State.wr_ring (s : State) (k : Nat) (v : Word) : (s.wr k v).ring = s.ring := rfl
@[simp] theorem State.wr_sys (s : State) (k : Nat) (v : Word) : (s.wr k v).sys = s.sys := rfl
@[simp] theorem State.wr_out (s : State) (k : Nat) (v : Word) : (s.wr k v).out = s.out := rfl
@[simp] theorem State.wr_free (s : State) (k : Nat) (v : Word) : (s.wr k v).free = s.free := rfl

@[simp] theorem State.setF_pending (s : State) (x : RF) (n : Nat) : (s.setF x n).pending = s.pending := rfl
@[simp] theorem State.setF_mem (s : State) (x : RF) (n : Nat) : (s.setF x n).mem = s.mem := rfl
@[simp] theorem State.setF_frames (s : State) (x : RF) (n : Nat) : (s.setF x n).frames = s.frames := rfl
@[simp] theorem State.setF_isl (s : State) (x : RF) (n : Nat) : (s.setF x n).isl = s.isl := rfl
@[simp] theorem State.setF_lanes (s : State) (x : RF) (n : Nat) : (s.setF x n).lanes = s.lanes := rfl
@[simp] theorem State.setF_msps (s : State) (x : RF) (n : Nat) : (s.setF x n).msps = s.msps := rfl
@[simp] theorem State.setF_seqs (s : State) (x : RF) (n : Nat) : (s.setF x n).seqs = s.seqs := rfl
@[simp] theorem State.setF_parts (s : State) (x : RF) (n : Nat) : (s.setF x n).parts = s.parts := rfl
@[simp] theorem State.setF_dmas (s : State) (x : RF) (n : Nat) : (s.setF x n).dmas = s.dmas := rfl
@[simp] theorem State.setF_tlb (s : State) (x : RF) (n : Nat) : (s.setF x n).tlb = s.tlb := rfl
@[simp] theorem State.setF_units (s : State) (x : RF) (n : Nat) : (s.setF x n).units = s.units := rfl
@[simp] theorem State.setF_fat (s : State) (x : RF) (n : Nat) : (s.setF x n).fat = s.fat := rfl
@[simp] theorem State.setF_feParts (s : State) (x : RF) (n : Nat) : (s.setF x n).feParts = s.feParts := rfl
@[simp] theorem State.setF_fe (s : State) (x : RF) (n : Nat) : (s.setF x n).fe = s.fe := rfl
@[simp] theorem State.setF_aev (s : State) (x : RF) (n : Nat) : (s.setF x n).aev = s.aev := rfl
@[simp] theorem State.setF_log (s : State) (x : RF) (n : Nat) : (s.setF x n).log = s.log := rfl
@[simp] theorem State.setF_logSeq (s : State) (x : RF) (n : Nat) : (s.setF x n).logSeq = s.logSeq := rfl
@[simp] theorem State.setF_logFull (s : State) (x : RF) (n : Nat) : (s.setF x n).logFull = s.logFull := rfl
@[simp] theorem State.setF_storm (s : State) (x : RF) (n : Nat) : (s.setF x n).storm = s.storm := rfl
@[simp] theorem State.setF_handling (s : State) (x : RF) (n : Nat) : (s.setF x n).handling = s.handling := rfl
@[simp] theorem State.setF_msixOn (s : State) (x : RF) (n : Nat) : (s.setF x n).msixOn = s.msixOn := rfl
@[simp] theorem State.setF_msixPend (s : State) (x : RF) (n : Nat) : (s.setF x n).msixPend = s.msixPend := rfl
@[simp] theorem State.setF_cfg (s : State) (x : RF) (n : Nat) : (s.setF x n).cfg = s.cfg := rfl
@[simp] theorem State.setF_jobs (s : State) (x : RF) (n : Nat) : (s.setF x n).jobs = s.jobs := rfl
@[simp] theorem State.setF_mbx (s : State) (x : RF) (n : Nat) : (s.setF x n).mbx = s.mbx := rfl
@[simp] theorem State.setF_ring (s : State) (x : RF) (n : Nat) : (s.setF x n).ring = s.ring := rfl
@[simp] theorem State.setF_sys (s : State) (x : RF) (n : Nat) : (s.setF x n).sys = s.sys := rfl
@[simp] theorem State.setF_out (s : State) (x : RF) (n : Nat) : (s.setF x n).out = s.out := rfl
@[simp] theorem State.setF_free (s : State) (x : RF) (n : Nat) : (s.setF x n).free = s.free := rfl

@[simp] theorem State.bump_pending (s : State) (x : RF) (n : Nat) : (s.bump x n).pending = s.pending := rfl
@[simp] theorem State.bump_mem (s : State) (x : RF) (n : Nat) : (s.bump x n).mem = s.mem := rfl
@[simp] theorem State.bump_frames (s : State) (x : RF) (n : Nat) : (s.bump x n).frames = s.frames := rfl
@[simp] theorem State.bump_isl (s : State) (x : RF) (n : Nat) : (s.bump x n).isl = s.isl := rfl
@[simp] theorem State.bump_lanes (s : State) (x : RF) (n : Nat) : (s.bump x n).lanes = s.lanes := rfl
@[simp] theorem State.bump_msps (s : State) (x : RF) (n : Nat) : (s.bump x n).msps = s.msps := rfl
@[simp] theorem State.bump_seqs (s : State) (x : RF) (n : Nat) : (s.bump x n).seqs = s.seqs := rfl
@[simp] theorem State.bump_parts (s : State) (x : RF) (n : Nat) : (s.bump x n).parts = s.parts := rfl
@[simp] theorem State.bump_dmas (s : State) (x : RF) (n : Nat) : (s.bump x n).dmas = s.dmas := rfl
@[simp] theorem State.bump_tlb (s : State) (x : RF) (n : Nat) : (s.bump x n).tlb = s.tlb := rfl
@[simp] theorem State.bump_units (s : State) (x : RF) (n : Nat) : (s.bump x n).units = s.units := rfl
@[simp] theorem State.bump_fat (s : State) (x : RF) (n : Nat) : (s.bump x n).fat = s.fat := rfl
@[simp] theorem State.bump_feParts (s : State) (x : RF) (n : Nat) : (s.bump x n).feParts = s.feParts := rfl
@[simp] theorem State.bump_fe (s : State) (x : RF) (n : Nat) : (s.bump x n).fe = s.fe := rfl
@[simp] theorem State.bump_aev (s : State) (x : RF) (n : Nat) : (s.bump x n).aev = s.aev := rfl
@[simp] theorem State.bump_log (s : State) (x : RF) (n : Nat) : (s.bump x n).log = s.log := rfl
@[simp] theorem State.bump_logSeq (s : State) (x : RF) (n : Nat) : (s.bump x n).logSeq = s.logSeq := rfl
@[simp] theorem State.bump_logFull (s : State) (x : RF) (n : Nat) : (s.bump x n).logFull = s.logFull := rfl
@[simp] theorem State.bump_storm (s : State) (x : RF) (n : Nat) : (s.bump x n).storm = s.storm := rfl
@[simp] theorem State.bump_handling (s : State) (x : RF) (n : Nat) : (s.bump x n).handling = s.handling := rfl
@[simp] theorem State.bump_msixOn (s : State) (x : RF) (n : Nat) : (s.bump x n).msixOn = s.msixOn := rfl
@[simp] theorem State.bump_msixPend (s : State) (x : RF) (n : Nat) : (s.bump x n).msixPend = s.msixPend := rfl
@[simp] theorem State.bump_cfg (s : State) (x : RF) (n : Nat) : (s.bump x n).cfg = s.cfg := rfl
@[simp] theorem State.bump_jobs (s : State) (x : RF) (n : Nat) : (s.bump x n).jobs = s.jobs := rfl
@[simp] theorem State.bump_mbx (s : State) (x : RF) (n : Nat) : (s.bump x n).mbx = s.mbx := rfl
@[simp] theorem State.bump_ring (s : State) (x : RF) (n : Nat) : (s.bump x n).ring = s.ring := rfl
@[simp] theorem State.bump_sys (s : State) (x : RF) (n : Nat) : (s.bump x n).sys = s.sys := rfl
@[simp] theorem State.bump_out (s : State) (x : RF) (n : Nat) : (s.bump x n).out = s.out := rfl
@[simp] theorem State.bump_free (s : State) (x : RF) (n : Nat) : (s.bump x n).free = s.free := rfl

@[simp] theorem State.orF_pending (s : State) (x : RF) (n : Nat) : (s.orF x n).pending = s.pending := rfl
@[simp] theorem State.orF_mem (s : State) (x : RF) (n : Nat) : (s.orF x n).mem = s.mem := rfl
@[simp] theorem State.orF_frames (s : State) (x : RF) (n : Nat) : (s.orF x n).frames = s.frames := rfl
@[simp] theorem State.orF_isl (s : State) (x : RF) (n : Nat) : (s.orF x n).isl = s.isl := rfl
@[simp] theorem State.orF_lanes (s : State) (x : RF) (n : Nat) : (s.orF x n).lanes = s.lanes := rfl
@[simp] theorem State.orF_msps (s : State) (x : RF) (n : Nat) : (s.orF x n).msps = s.msps := rfl
@[simp] theorem State.orF_seqs (s : State) (x : RF) (n : Nat) : (s.orF x n).seqs = s.seqs := rfl
@[simp] theorem State.orF_parts (s : State) (x : RF) (n : Nat) : (s.orF x n).parts = s.parts := rfl
@[simp] theorem State.orF_dmas (s : State) (x : RF) (n : Nat) : (s.orF x n).dmas = s.dmas := rfl
@[simp] theorem State.orF_tlb (s : State) (x : RF) (n : Nat) : (s.orF x n).tlb = s.tlb := rfl
@[simp] theorem State.orF_units (s : State) (x : RF) (n : Nat) : (s.orF x n).units = s.units := rfl
@[simp] theorem State.orF_fat (s : State) (x : RF) (n : Nat) : (s.orF x n).fat = s.fat := rfl
@[simp] theorem State.orF_feParts (s : State) (x : RF) (n : Nat) : (s.orF x n).feParts = s.feParts := rfl
@[simp] theorem State.orF_fe (s : State) (x : RF) (n : Nat) : (s.orF x n).fe = s.fe := rfl
@[simp] theorem State.orF_aev (s : State) (x : RF) (n : Nat) : (s.orF x n).aev = s.aev := rfl
@[simp] theorem State.orF_log (s : State) (x : RF) (n : Nat) : (s.orF x n).log = s.log := rfl
@[simp] theorem State.orF_logSeq (s : State) (x : RF) (n : Nat) : (s.orF x n).logSeq = s.logSeq := rfl
@[simp] theorem State.orF_logFull (s : State) (x : RF) (n : Nat) : (s.orF x n).logFull = s.logFull := rfl
@[simp] theorem State.orF_storm (s : State) (x : RF) (n : Nat) : (s.orF x n).storm = s.storm := rfl
@[simp] theorem State.orF_handling (s : State) (x : RF) (n : Nat) : (s.orF x n).handling = s.handling := rfl
@[simp] theorem State.orF_msixOn (s : State) (x : RF) (n : Nat) : (s.orF x n).msixOn = s.msixOn := rfl
@[simp] theorem State.orF_msixPend (s : State) (x : RF) (n : Nat) : (s.orF x n).msixPend = s.msixPend := rfl
@[simp] theorem State.orF_cfg (s : State) (x : RF) (n : Nat) : (s.orF x n).cfg = s.cfg := rfl
@[simp] theorem State.orF_jobs (s : State) (x : RF) (n : Nat) : (s.orF x n).jobs = s.jobs := rfl
@[simp] theorem State.orF_mbx (s : State) (x : RF) (n : Nat) : (s.orF x n).mbx = s.mbx := rfl
@[simp] theorem State.orF_ring (s : State) (x : RF) (n : Nat) : (s.orF x n).ring = s.ring := rfl
@[simp] theorem State.orF_sys (s : State) (x : RF) (n : Nat) : (s.orF x n).sys = s.sys := rfl
@[simp] theorem State.orF_out (s : State) (x : RF) (n : Nat) : (s.orF x n).out = s.out := rfl
@[simp] theorem State.orF_free (s : State) (x : RF) (n : Nat) : (s.orF x n).free = s.free := rfl

@[simp] theorem State.emit_pending (s : State) (o : Out) : (s.emit o).pending = s.pending := rfl
@[simp] theorem State.emit_regs (s : State) (o : Out) : (s.emit o).regs = s.regs := rfl
@[simp] theorem State.emit_mem (s : State) (o : Out) : (s.emit o).mem = s.mem := rfl
@[simp] theorem State.emit_frames (s : State) (o : Out) : (s.emit o).frames = s.frames := rfl
@[simp] theorem State.emit_isl (s : State) (o : Out) : (s.emit o).isl = s.isl := rfl
@[simp] theorem State.emit_lanes (s : State) (o : Out) : (s.emit o).lanes = s.lanes := rfl
@[simp] theorem State.emit_msps (s : State) (o : Out) : (s.emit o).msps = s.msps := rfl
@[simp] theorem State.emit_seqs (s : State) (o : Out) : (s.emit o).seqs = s.seqs := rfl
@[simp] theorem State.emit_parts (s : State) (o : Out) : (s.emit o).parts = s.parts := rfl
@[simp] theorem State.emit_dmas (s : State) (o : Out) : (s.emit o).dmas = s.dmas := rfl
@[simp] theorem State.emit_tlb (s : State) (o : Out) : (s.emit o).tlb = s.tlb := rfl
@[simp] theorem State.emit_units (s : State) (o : Out) : (s.emit o).units = s.units := rfl
@[simp] theorem State.emit_fat (s : State) (o : Out) : (s.emit o).fat = s.fat := rfl
@[simp] theorem State.emit_feParts (s : State) (o : Out) : (s.emit o).feParts = s.feParts := rfl
@[simp] theorem State.emit_fe (s : State) (o : Out) : (s.emit o).fe = s.fe := rfl
@[simp] theorem State.emit_aev (s : State) (o : Out) : (s.emit o).aev = s.aev := rfl
@[simp] theorem State.emit_log (s : State) (o : Out) : (s.emit o).log = s.log := rfl
@[simp] theorem State.emit_logSeq (s : State) (o : Out) : (s.emit o).logSeq = s.logSeq := rfl
@[simp] theorem State.emit_logFull (s : State) (o : Out) : (s.emit o).logFull = s.logFull := rfl
@[simp] theorem State.emit_storm (s : State) (o : Out) : (s.emit o).storm = s.storm := rfl
@[simp] theorem State.emit_handling (s : State) (o : Out) : (s.emit o).handling = s.handling := rfl
@[simp] theorem State.emit_msixOn (s : State) (o : Out) : (s.emit o).msixOn = s.msixOn := rfl
@[simp] theorem State.emit_msixPend (s : State) (o : Out) : (s.emit o).msixPend = s.msixPend := rfl
@[simp] theorem State.emit_cfg (s : State) (o : Out) : (s.emit o).cfg = s.cfg := rfl
@[simp] theorem State.emit_jobs (s : State) (o : Out) : (s.emit o).jobs = s.jobs := rfl
@[simp] theorem State.emit_mbx (s : State) (o : Out) : (s.emit o).mbx = s.mbx := rfl
@[simp] theorem State.emit_ring (s : State) (o : Out) : (s.emit o).ring = s.ring := rfl
@[simp] theorem State.emit_sys (s : State) (o : Out) : (s.emit o).sys = s.sys := rfl
@[simp] theorem State.emit_free (s : State) (o : Out) : (s.emit o).free = s.free := rfl

@[simp] theorem State.setIsl_pending (s : State) (i : Nat) (x : Isl) : (s.setIsl i x).pending = s.pending := rfl
@[simp] theorem State.setIsl_regs (s : State) (i : Nat) (x : Isl) : (s.setIsl i x).regs = s.regs := rfl
@[simp] theorem State.setIsl_mem (s : State) (i : Nat) (x : Isl) : (s.setIsl i x).mem = s.mem := rfl
@[simp] theorem State.setIsl_frames (s : State) (i : Nat) (x : Isl) : (s.setIsl i x).frames = s.frames := rfl
@[simp] theorem State.setIsl_lanes (s : State) (i : Nat) (x : Isl) : (s.setIsl i x).lanes = s.lanes := rfl
@[simp] theorem State.setIsl_msps (s : State) (i : Nat) (x : Isl) : (s.setIsl i x).msps = s.msps := rfl
@[simp] theorem State.setIsl_seqs (s : State) (i : Nat) (x : Isl) : (s.setIsl i x).seqs = s.seqs := rfl
@[simp] theorem State.setIsl_parts (s : State) (i : Nat) (x : Isl) : (s.setIsl i x).parts = s.parts := rfl
@[simp] theorem State.setIsl_dmas (s : State) (i : Nat) (x : Isl) : (s.setIsl i x).dmas = s.dmas := rfl
@[simp] theorem State.setIsl_tlb (s : State) (i : Nat) (x : Isl) : (s.setIsl i x).tlb = s.tlb := rfl
@[simp] theorem State.setIsl_units (s : State) (i : Nat) (x : Isl) : (s.setIsl i x).units = s.units := rfl
@[simp] theorem State.setIsl_fat (s : State) (i : Nat) (x : Isl) : (s.setIsl i x).fat = s.fat := rfl
@[simp] theorem State.setIsl_feParts (s : State) (i : Nat) (x : Isl) : (s.setIsl i x).feParts = s.feParts := rfl
@[simp] theorem State.setIsl_fe (s : State) (i : Nat) (x : Isl) : (s.setIsl i x).fe = s.fe := rfl
@[simp] theorem State.setIsl_aev (s : State) (i : Nat) (x : Isl) : (s.setIsl i x).aev = s.aev := rfl
@[simp] theorem State.setIsl_log (s : State) (i : Nat) (x : Isl) : (s.setIsl i x).log = s.log := rfl
@[simp] theorem State.setIsl_logSeq (s : State) (i : Nat) (x : Isl) : (s.setIsl i x).logSeq = s.logSeq := rfl
@[simp] theorem State.setIsl_logFull (s : State) (i : Nat) (x : Isl) : (s.setIsl i x).logFull = s.logFull := rfl
@[simp] theorem State.setIsl_storm (s : State) (i : Nat) (x : Isl) : (s.setIsl i x).storm = s.storm := rfl
@[simp] theorem State.setIsl_handling (s : State) (i : Nat) (x : Isl) : (s.setIsl i x).handling = s.handling := rfl
@[simp] theorem State.setIsl_msixOn (s : State) (i : Nat) (x : Isl) : (s.setIsl i x).msixOn = s.msixOn := rfl
@[simp] theorem State.setIsl_msixPend (s : State) (i : Nat) (x : Isl) : (s.setIsl i x).msixPend = s.msixPend := rfl
@[simp] theorem State.setIsl_cfg (s : State) (i : Nat) (x : Isl) : (s.setIsl i x).cfg = s.cfg := rfl
@[simp] theorem State.setIsl_jobs (s : State) (i : Nat) (x : Isl) : (s.setIsl i x).jobs = s.jobs := rfl
@[simp] theorem State.setIsl_mbx (s : State) (i : Nat) (x : Isl) : (s.setIsl i x).mbx = s.mbx := rfl
@[simp] theorem State.setIsl_ring (s : State) (i : Nat) (x : Isl) : (s.setIsl i x).ring = s.ring := rfl
@[simp] theorem State.setIsl_sys (s : State) (i : Nat) (x : Isl) : (s.setIsl i x).sys = s.sys := rfl
@[simp] theorem State.setIsl_out (s : State) (i : Nat) (x : Isl) : (s.setIsl i x).out = s.out := rfl
@[simp] theorem State.setIsl_free (s : State) (i : Nat) (x : Isl) : (s.setIsl i x).free = s.free := rfl

@[simp] theorem State.onIsl_pending (s : State) (i : Nat) (g : Isl → Isl) : (s.onIsl i g).pending = s.pending := rfl
@[simp] theorem State.onIsl_regs (s : State) (i : Nat) (g : Isl → Isl) : (s.onIsl i g).regs = s.regs := rfl
@[simp] theorem State.onIsl_mem (s : State) (i : Nat) (g : Isl → Isl) : (s.onIsl i g).mem = s.mem := rfl
@[simp] theorem State.onIsl_frames (s : State) (i : Nat) (g : Isl → Isl) : (s.onIsl i g).frames = s.frames := rfl
@[simp] theorem State.onIsl_lanes (s : State) (i : Nat) (g : Isl → Isl) : (s.onIsl i g).lanes = s.lanes := rfl
@[simp] theorem State.onIsl_msps (s : State) (i : Nat) (g : Isl → Isl) : (s.onIsl i g).msps = s.msps := rfl
@[simp] theorem State.onIsl_seqs (s : State) (i : Nat) (g : Isl → Isl) : (s.onIsl i g).seqs = s.seqs := rfl
@[simp] theorem State.onIsl_parts (s : State) (i : Nat) (g : Isl → Isl) : (s.onIsl i g).parts = s.parts := rfl
@[simp] theorem State.onIsl_dmas (s : State) (i : Nat) (g : Isl → Isl) : (s.onIsl i g).dmas = s.dmas := rfl
@[simp] theorem State.onIsl_tlb (s : State) (i : Nat) (g : Isl → Isl) : (s.onIsl i g).tlb = s.tlb := rfl
@[simp] theorem State.onIsl_units (s : State) (i : Nat) (g : Isl → Isl) : (s.onIsl i g).units = s.units := rfl
@[simp] theorem State.onIsl_fat (s : State) (i : Nat) (g : Isl → Isl) : (s.onIsl i g).fat = s.fat := rfl
@[simp] theorem State.onIsl_feParts (s : State) (i : Nat) (g : Isl → Isl) : (s.onIsl i g).feParts = s.feParts := rfl
@[simp] theorem State.onIsl_fe (s : State) (i : Nat) (g : Isl → Isl) : (s.onIsl i g).fe = s.fe := rfl
@[simp] theorem State.onIsl_aev (s : State) (i : Nat) (g : Isl → Isl) : (s.onIsl i g).aev = s.aev := rfl
@[simp] theorem State.onIsl_log (s : State) (i : Nat) (g : Isl → Isl) : (s.onIsl i g).log = s.log := rfl
@[simp] theorem State.onIsl_logSeq (s : State) (i : Nat) (g : Isl → Isl) : (s.onIsl i g).logSeq = s.logSeq := rfl
@[simp] theorem State.onIsl_logFull (s : State) (i : Nat) (g : Isl → Isl) : (s.onIsl i g).logFull = s.logFull := rfl
@[simp] theorem State.onIsl_storm (s : State) (i : Nat) (g : Isl → Isl) : (s.onIsl i g).storm = s.storm := rfl
@[simp] theorem State.onIsl_handling (s : State) (i : Nat) (g : Isl → Isl) : (s.onIsl i g).handling = s.handling := rfl
@[simp] theorem State.onIsl_msixOn (s : State) (i : Nat) (g : Isl → Isl) : (s.onIsl i g).msixOn = s.msixOn := rfl
@[simp] theorem State.onIsl_msixPend (s : State) (i : Nat) (g : Isl → Isl) : (s.onIsl i g).msixPend = s.msixPend := rfl
@[simp] theorem State.onIsl_cfg (s : State) (i : Nat) (g : Isl → Isl) : (s.onIsl i g).cfg = s.cfg := rfl
@[simp] theorem State.onIsl_jobs (s : State) (i : Nat) (g : Isl → Isl) : (s.onIsl i g).jobs = s.jobs := rfl
@[simp] theorem State.onIsl_mbx (s : State) (i : Nat) (g : Isl → Isl) : (s.onIsl i g).mbx = s.mbx := rfl
@[simp] theorem State.onIsl_ring (s : State) (i : Nat) (g : Isl → Isl) : (s.onIsl i g).ring = s.ring := rfl
@[simp] theorem State.onIsl_sys (s : State) (i : Nat) (g : Isl → Isl) : (s.onIsl i g).sys = s.sys := rfl
@[simp] theorem State.onIsl_out (s : State) (i : Nat) (g : Isl → Isl) : (s.onIsl i g).out = s.out := rfl
@[simp] theorem State.onIsl_free (s : State) (i : Nat) (g : Isl → Isl) : (s.onIsl i g).free = s.free := rfl

@[simp] theorem State.setWu_pending (s : State) (i u : Nat) (w : Wu) : (s.setWu i u w).pending = s.pending := rfl
@[simp] theorem State.setWu_regs (s : State) (i u : Nat) (w : Wu) : (s.setWu i u w).regs = s.regs := rfl
@[simp] theorem State.setWu_mem (s : State) (i u : Nat) (w : Wu) : (s.setWu i u w).mem = s.mem := rfl
@[simp] theorem State.setWu_frames (s : State) (i u : Nat) (w : Wu) : (s.setWu i u w).frames = s.frames := rfl
@[simp] theorem State.setWu_lanes (s : State) (i u : Nat) (w : Wu) : (s.setWu i u w).lanes = s.lanes := rfl
@[simp] theorem State.setWu_msps (s : State) (i u : Nat) (w : Wu) : (s.setWu i u w).msps = s.msps := rfl
@[simp] theorem State.setWu_seqs (s : State) (i u : Nat) (w : Wu) : (s.setWu i u w).seqs = s.seqs := rfl
@[simp] theorem State.setWu_parts (s : State) (i u : Nat) (w : Wu) : (s.setWu i u w).parts = s.parts := rfl
@[simp] theorem State.setWu_dmas (s : State) (i u : Nat) (w : Wu) : (s.setWu i u w).dmas = s.dmas := rfl
@[simp] theorem State.setWu_tlb (s : State) (i u : Nat) (w : Wu) : (s.setWu i u w).tlb = s.tlb := rfl
@[simp] theorem State.setWu_units (s : State) (i u : Nat) (w : Wu) : (s.setWu i u w).units = s.units := rfl
@[simp] theorem State.setWu_fat (s : State) (i u : Nat) (w : Wu) : (s.setWu i u w).fat = s.fat := rfl
@[simp] theorem State.setWu_feParts (s : State) (i u : Nat) (w : Wu) : (s.setWu i u w).feParts = s.feParts := rfl
@[simp] theorem State.setWu_fe (s : State) (i u : Nat) (w : Wu) : (s.setWu i u w).fe = s.fe := rfl
@[simp] theorem State.setWu_aev (s : State) (i u : Nat) (w : Wu) : (s.setWu i u w).aev = s.aev := rfl
@[simp] theorem State.setWu_log (s : State) (i u : Nat) (w : Wu) : (s.setWu i u w).log = s.log := rfl
@[simp] theorem State.setWu_logSeq (s : State) (i u : Nat) (w : Wu) : (s.setWu i u w).logSeq = s.logSeq := rfl
@[simp] theorem State.setWu_logFull (s : State) (i u : Nat) (w : Wu) : (s.setWu i u w).logFull = s.logFull := rfl
@[simp] theorem State.setWu_storm (s : State) (i u : Nat) (w : Wu) : (s.setWu i u w).storm = s.storm := rfl
@[simp] theorem State.setWu_handling (s : State) (i u : Nat) (w : Wu) : (s.setWu i u w).handling = s.handling := rfl
@[simp] theorem State.setWu_msixOn (s : State) (i u : Nat) (w : Wu) : (s.setWu i u w).msixOn = s.msixOn := rfl
@[simp] theorem State.setWu_msixPend (s : State) (i u : Nat) (w : Wu) : (s.setWu i u w).msixPend = s.msixPend := rfl
@[simp] theorem State.setWu_cfg (s : State) (i u : Nat) (w : Wu) : (s.setWu i u w).cfg = s.cfg := rfl
@[simp] theorem State.setWu_jobs (s : State) (i u : Nat) (w : Wu) : (s.setWu i u w).jobs = s.jobs := rfl
@[simp] theorem State.setWu_mbx (s : State) (i u : Nat) (w : Wu) : (s.setWu i u w).mbx = s.mbx := rfl
@[simp] theorem State.setWu_ring (s : State) (i u : Nat) (w : Wu) : (s.setWu i u w).ring = s.ring := rfl
@[simp] theorem State.setWu_sys (s : State) (i u : Nat) (w : Wu) : (s.setWu i u w).sys = s.sys := rfl
@[simp] theorem State.setWu_out (s : State) (i u : Nat) (w : Wu) : (s.setWu i u w).out = s.out := rfl
@[simp] theorem State.setWu_free (s : State) (i u : Nat) (w : Wu) : (s.setWu i u w).free = s.free := rfl

@[simp] theorem State.onWu_pending (s : State) (i u : Nat) (g : Wu → Wu) : (s.onWu i u g).pending = s.pending := rfl
@[simp] theorem State.onWu_regs (s : State) (i u : Nat) (g : Wu → Wu) : (s.onWu i u g).regs = s.regs := rfl
@[simp] theorem State.onWu_mem (s : State) (i u : Nat) (g : Wu → Wu) : (s.onWu i u g).mem = s.mem := rfl
@[simp] theorem State.onWu_frames (s : State) (i u : Nat) (g : Wu → Wu) : (s.onWu i u g).frames = s.frames := rfl
@[simp] theorem State.onWu_lanes (s : State) (i u : Nat) (g : Wu → Wu) : (s.onWu i u g).lanes = s.lanes := rfl
@[simp] theorem State.onWu_msps (s : State) (i u : Nat) (g : Wu → Wu) : (s.onWu i u g).msps = s.msps := rfl
@[simp] theorem State.onWu_seqs (s : State) (i u : Nat) (g : Wu → Wu) : (s.onWu i u g).seqs = s.seqs := rfl
@[simp] theorem State.onWu_parts (s : State) (i u : Nat) (g : Wu → Wu) : (s.onWu i u g).parts = s.parts := rfl
@[simp] theorem State.onWu_dmas (s : State) (i u : Nat) (g : Wu → Wu) : (s.onWu i u g).dmas = s.dmas := rfl
@[simp] theorem State.onWu_tlb (s : State) (i u : Nat) (g : Wu → Wu) : (s.onWu i u g).tlb = s.tlb := rfl
@[simp] theorem State.onWu_units (s : State) (i u : Nat) (g : Wu → Wu) : (s.onWu i u g).units = s.units := rfl
@[simp] theorem State.onWu_fat (s : State) (i u : Nat) (g : Wu → Wu) : (s.onWu i u g).fat = s.fat := rfl
@[simp] theorem State.onWu_feParts (s : State) (i u : Nat) (g : Wu → Wu) : (s.onWu i u g).feParts = s.feParts := rfl
@[simp] theorem State.onWu_fe (s : State) (i u : Nat) (g : Wu → Wu) : (s.onWu i u g).fe = s.fe := rfl
@[simp] theorem State.onWu_aev (s : State) (i u : Nat) (g : Wu → Wu) : (s.onWu i u g).aev = s.aev := rfl
@[simp] theorem State.onWu_log (s : State) (i u : Nat) (g : Wu → Wu) : (s.onWu i u g).log = s.log := rfl
@[simp] theorem State.onWu_logSeq (s : State) (i u : Nat) (g : Wu → Wu) : (s.onWu i u g).logSeq = s.logSeq := rfl
@[simp] theorem State.onWu_logFull (s : State) (i u : Nat) (g : Wu → Wu) : (s.onWu i u g).logFull = s.logFull := rfl
@[simp] theorem State.onWu_storm (s : State) (i u : Nat) (g : Wu → Wu) : (s.onWu i u g).storm = s.storm := rfl
@[simp] theorem State.onWu_handling (s : State) (i u : Nat) (g : Wu → Wu) : (s.onWu i u g).handling = s.handling := rfl
@[simp] theorem State.onWu_msixOn (s : State) (i u : Nat) (g : Wu → Wu) : (s.onWu i u g).msixOn = s.msixOn := rfl
@[simp] theorem State.onWu_msixPend (s : State) (i u : Nat) (g : Wu → Wu) : (s.onWu i u g).msixPend = s.msixPend := rfl
@[simp] theorem State.onWu_cfg (s : State) (i u : Nat) (g : Wu → Wu) : (s.onWu i u g).cfg = s.cfg := rfl
@[simp] theorem State.onWu_jobs (s : State) (i u : Nat) (g : Wu → Wu) : (s.onWu i u g).jobs = s.jobs := rfl
@[simp] theorem State.onWu_mbx (s : State) (i u : Nat) (g : Wu → Wu) : (s.onWu i u g).mbx = s.mbx := rfl
@[simp] theorem State.onWu_ring (s : State) (i u : Nat) (g : Wu → Wu) : (s.onWu i u g).ring = s.ring := rfl
@[simp] theorem State.onWu_sys (s : State) (i u : Nat) (g : Wu → Wu) : (s.onWu i u g).sys = s.sys := rfl
@[simp] theorem State.onWu_out (s : State) (i u : Nat) (g : Wu → Wu) : (s.onWu i u g).out = s.out := rfl
@[simp] theorem State.onWu_free (s : State) (i u : Nat) (g : Wu → Wu) : (s.onWu i u g).free = s.free := rfl

@[simp] theorem State.onColl_pending (s : State) (i : Nat) (g : Collector → Collector) : (s.onColl i g).pending = s.pending := rfl
@[simp] theorem State.onColl_regs (s : State) (i : Nat) (g : Collector → Collector) : (s.onColl i g).regs = s.regs := rfl
@[simp] theorem State.onColl_mem (s : State) (i : Nat) (g : Collector → Collector) : (s.onColl i g).mem = s.mem := rfl
@[simp] theorem State.onColl_frames (s : State) (i : Nat) (g : Collector → Collector) : (s.onColl i g).frames = s.frames := rfl
@[simp] theorem State.onColl_lanes (s : State) (i : Nat) (g : Collector → Collector) : (s.onColl i g).lanes = s.lanes := rfl
@[simp] theorem State.onColl_msps (s : State) (i : Nat) (g : Collector → Collector) : (s.onColl i g).msps = s.msps := rfl
@[simp] theorem State.onColl_seqs (s : State) (i : Nat) (g : Collector → Collector) : (s.onColl i g).seqs = s.seqs := rfl
@[simp] theorem State.onColl_parts (s : State) (i : Nat) (g : Collector → Collector) : (s.onColl i g).parts = s.parts := rfl
@[simp] theorem State.onColl_dmas (s : State) (i : Nat) (g : Collector → Collector) : (s.onColl i g).dmas = s.dmas := rfl
@[simp] theorem State.onColl_tlb (s : State) (i : Nat) (g : Collector → Collector) : (s.onColl i g).tlb = s.tlb := rfl
@[simp] theorem State.onColl_units (s : State) (i : Nat) (g : Collector → Collector) : (s.onColl i g).units = s.units := rfl
@[simp] theorem State.onColl_fat (s : State) (i : Nat) (g : Collector → Collector) : (s.onColl i g).fat = s.fat := rfl
@[simp] theorem State.onColl_feParts (s : State) (i : Nat) (g : Collector → Collector) : (s.onColl i g).feParts = s.feParts := rfl
@[simp] theorem State.onColl_fe (s : State) (i : Nat) (g : Collector → Collector) : (s.onColl i g).fe = s.fe := rfl
@[simp] theorem State.onColl_aev (s : State) (i : Nat) (g : Collector → Collector) : (s.onColl i g).aev = s.aev := rfl
@[simp] theorem State.onColl_log (s : State) (i : Nat) (g : Collector → Collector) : (s.onColl i g).log = s.log := rfl
@[simp] theorem State.onColl_logSeq (s : State) (i : Nat) (g : Collector → Collector) : (s.onColl i g).logSeq = s.logSeq := rfl
@[simp] theorem State.onColl_logFull (s : State) (i : Nat) (g : Collector → Collector) : (s.onColl i g).logFull = s.logFull := rfl
@[simp] theorem State.onColl_storm (s : State) (i : Nat) (g : Collector → Collector) : (s.onColl i g).storm = s.storm := rfl
@[simp] theorem State.onColl_handling (s : State) (i : Nat) (g : Collector → Collector) : (s.onColl i g).handling = s.handling := rfl
@[simp] theorem State.onColl_msixOn (s : State) (i : Nat) (g : Collector → Collector) : (s.onColl i g).msixOn = s.msixOn := rfl
@[simp] theorem State.onColl_msixPend (s : State) (i : Nat) (g : Collector → Collector) : (s.onColl i g).msixPend = s.msixPend := rfl
@[simp] theorem State.onColl_cfg (s : State) (i : Nat) (g : Collector → Collector) : (s.onColl i g).cfg = s.cfg := rfl
@[simp] theorem State.onColl_jobs (s : State) (i : Nat) (g : Collector → Collector) : (s.onColl i g).jobs = s.jobs := rfl
@[simp] theorem State.onColl_mbx (s : State) (i : Nat) (g : Collector → Collector) : (s.onColl i g).mbx = s.mbx := rfl
@[simp] theorem State.onColl_ring (s : State) (i : Nat) (g : Collector → Collector) : (s.onColl i g).ring = s.ring := rfl
@[simp] theorem State.onColl_sys (s : State) (i : Nat) (g : Collector → Collector) : (s.onColl i g).sys = s.sys := rfl
@[simp] theorem State.onColl_out (s : State) (i : Nat) (g : Collector → Collector) : (s.onColl i g).out = s.out := rfl
@[simp] theorem State.onColl_free (s : State) (i : Nat) (g : Collector → Collector) : (s.onColl i g).free = s.free := rfl

@[simp] theorem State.onMem_pending (s : State) (g : Memory → Memory) : (s.onMem g).pending = s.pending := rfl
@[simp] theorem State.onMem_regs (s : State) (g : Memory → Memory) : (s.onMem g).regs = s.regs := rfl
@[simp] theorem State.onMem_frames (s : State) (g : Memory → Memory) : (s.onMem g).frames = s.frames := rfl
@[simp] theorem State.onMem_isl (s : State) (g : Memory → Memory) : (s.onMem g).isl = s.isl := rfl
@[simp] theorem State.onMem_lanes (s : State) (g : Memory → Memory) : (s.onMem g).lanes = s.lanes := rfl
@[simp] theorem State.onMem_msps (s : State) (g : Memory → Memory) : (s.onMem g).msps = s.msps := rfl
@[simp] theorem State.onMem_seqs (s : State) (g : Memory → Memory) : (s.onMem g).seqs = s.seqs := rfl
@[simp] theorem State.onMem_parts (s : State) (g : Memory → Memory) : (s.onMem g).parts = s.parts := rfl
@[simp] theorem State.onMem_dmas (s : State) (g : Memory → Memory) : (s.onMem g).dmas = s.dmas := rfl
@[simp] theorem State.onMem_tlb (s : State) (g : Memory → Memory) : (s.onMem g).tlb = s.tlb := rfl
@[simp] theorem State.onMem_units (s : State) (g : Memory → Memory) : (s.onMem g).units = s.units := rfl
@[simp] theorem State.onMem_fat (s : State) (g : Memory → Memory) : (s.onMem g).fat = s.fat := rfl
@[simp] theorem State.onMem_feParts (s : State) (g : Memory → Memory) : (s.onMem g).feParts = s.feParts := rfl
@[simp] theorem State.onMem_fe (s : State) (g : Memory → Memory) : (s.onMem g).fe = s.fe := rfl
@[simp] theorem State.onMem_aev (s : State) (g : Memory → Memory) : (s.onMem g).aev = s.aev := rfl
@[simp] theorem State.onMem_log (s : State) (g : Memory → Memory) : (s.onMem g).log = s.log := rfl
@[simp] theorem State.onMem_logSeq (s : State) (g : Memory → Memory) : (s.onMem g).logSeq = s.logSeq := rfl
@[simp] theorem State.onMem_logFull (s : State) (g : Memory → Memory) : (s.onMem g).logFull = s.logFull := rfl
@[simp] theorem State.onMem_storm (s : State) (g : Memory → Memory) : (s.onMem g).storm = s.storm := rfl
@[simp] theorem State.onMem_handling (s : State) (g : Memory → Memory) : (s.onMem g).handling = s.handling := rfl
@[simp] theorem State.onMem_msixOn (s : State) (g : Memory → Memory) : (s.onMem g).msixOn = s.msixOn := rfl
@[simp] theorem State.onMem_msixPend (s : State) (g : Memory → Memory) : (s.onMem g).msixPend = s.msixPend := rfl
@[simp] theorem State.onMem_cfg (s : State) (g : Memory → Memory) : (s.onMem g).cfg = s.cfg := rfl
@[simp] theorem State.onMem_jobs (s : State) (g : Memory → Memory) : (s.onMem g).jobs = s.jobs := rfl
@[simp] theorem State.onMem_mbx (s : State) (g : Memory → Memory) : (s.onMem g).mbx = s.mbx := rfl
@[simp] theorem State.onMem_ring (s : State) (g : Memory → Memory) : (s.onMem g).ring = s.ring := rfl
@[simp] theorem State.onMem_sys (s : State) (g : Memory → Memory) : (s.onMem g).sys = s.sys := rfl
@[simp] theorem State.onMem_out (s : State) (g : Memory → Memory) : (s.onMem g).out = s.out := rfl
@[simp] theorem State.onMem_free (s : State) (g : Memory → Memory) : (s.onMem g).free = s.free := rfl

@[simp] theorem State.setEcc_pending (s : State) (a n : Nat) : (s.setEcc a n).pending = s.pending := rfl
@[simp] theorem State.setEcc_regs (s : State) (a n : Nat) : (s.setEcc a n).regs = s.regs := rfl
@[simp] theorem State.setEcc_frames (s : State) (a n : Nat) : (s.setEcc a n).frames = s.frames := rfl
@[simp] theorem State.setEcc_isl (s : State) (a n : Nat) : (s.setEcc a n).isl = s.isl := rfl
@[simp] theorem State.setEcc_lanes (s : State) (a n : Nat) : (s.setEcc a n).lanes = s.lanes := rfl
@[simp] theorem State.setEcc_msps (s : State) (a n : Nat) : (s.setEcc a n).msps = s.msps := rfl
@[simp] theorem State.setEcc_seqs (s : State) (a n : Nat) : (s.setEcc a n).seqs = s.seqs := rfl
@[simp] theorem State.setEcc_parts (s : State) (a n : Nat) : (s.setEcc a n).parts = s.parts := rfl
@[simp] theorem State.setEcc_dmas (s : State) (a n : Nat) : (s.setEcc a n).dmas = s.dmas := rfl
@[simp] theorem State.setEcc_tlb (s : State) (a n : Nat) : (s.setEcc a n).tlb = s.tlb := rfl
@[simp] theorem State.setEcc_units (s : State) (a n : Nat) : (s.setEcc a n).units = s.units := rfl
@[simp] theorem State.setEcc_fat (s : State) (a n : Nat) : (s.setEcc a n).fat = s.fat := rfl
@[simp] theorem State.setEcc_feParts (s : State) (a n : Nat) : (s.setEcc a n).feParts = s.feParts := rfl
@[simp] theorem State.setEcc_fe (s : State) (a n : Nat) : (s.setEcc a n).fe = s.fe := rfl
@[simp] theorem State.setEcc_aev (s : State) (a n : Nat) : (s.setEcc a n).aev = s.aev := rfl
@[simp] theorem State.setEcc_log (s : State) (a n : Nat) : (s.setEcc a n).log = s.log := rfl
@[simp] theorem State.setEcc_logSeq (s : State) (a n : Nat) : (s.setEcc a n).logSeq = s.logSeq := rfl
@[simp] theorem State.setEcc_logFull (s : State) (a n : Nat) : (s.setEcc a n).logFull = s.logFull := rfl
@[simp] theorem State.setEcc_storm (s : State) (a n : Nat) : (s.setEcc a n).storm = s.storm := rfl
@[simp] theorem State.setEcc_handling (s : State) (a n : Nat) : (s.setEcc a n).handling = s.handling := rfl
@[simp] theorem State.setEcc_msixOn (s : State) (a n : Nat) : (s.setEcc a n).msixOn = s.msixOn := rfl
@[simp] theorem State.setEcc_msixPend (s : State) (a n : Nat) : (s.setEcc a n).msixPend = s.msixPend := rfl
@[simp] theorem State.setEcc_cfg (s : State) (a n : Nat) : (s.setEcc a n).cfg = s.cfg := rfl
@[simp] theorem State.setEcc_jobs (s : State) (a n : Nat) : (s.setEcc a n).jobs = s.jobs := rfl
@[simp] theorem State.setEcc_mbx (s : State) (a n : Nat) : (s.setEcc a n).mbx = s.mbx := rfl
@[simp] theorem State.setEcc_ring (s : State) (a n : Nat) : (s.setEcc a n).ring = s.ring := rfl
@[simp] theorem State.setEcc_sys (s : State) (a n : Nat) : (s.setEcc a n).sys = s.sys := rfl
@[simp] theorem State.setEcc_out (s : State) (a n : Nat) : (s.setEcc a n).out = s.out := rfl
@[simp] theorem State.setEcc_free (s : State) (a n : Nat) : (s.setEcc a n).free = s.free := rfl

@[simp] theorem State.setTags_pending (s : State) (a t : Nat) : (s.setTags a t).pending = s.pending := rfl
@[simp] theorem State.setTags_regs (s : State) (a t : Nat) : (s.setTags a t).regs = s.regs := rfl
@[simp] theorem State.setTags_frames (s : State) (a t : Nat) : (s.setTags a t).frames = s.frames := rfl
@[simp] theorem State.setTags_isl (s : State) (a t : Nat) : (s.setTags a t).isl = s.isl := rfl
@[simp] theorem State.setTags_lanes (s : State) (a t : Nat) : (s.setTags a t).lanes = s.lanes := rfl
@[simp] theorem State.setTags_msps (s : State) (a t : Nat) : (s.setTags a t).msps = s.msps := rfl
@[simp] theorem State.setTags_seqs (s : State) (a t : Nat) : (s.setTags a t).seqs = s.seqs := rfl
@[simp] theorem State.setTags_parts (s : State) (a t : Nat) : (s.setTags a t).parts = s.parts := rfl
@[simp] theorem State.setTags_dmas (s : State) (a t : Nat) : (s.setTags a t).dmas = s.dmas := rfl
@[simp] theorem State.setTags_tlb (s : State) (a t : Nat) : (s.setTags a t).tlb = s.tlb := rfl
@[simp] theorem State.setTags_units (s : State) (a t : Nat) : (s.setTags a t).units = s.units := rfl
@[simp] theorem State.setTags_fat (s : State) (a t : Nat) : (s.setTags a t).fat = s.fat := rfl
@[simp] theorem State.setTags_feParts (s : State) (a t : Nat) : (s.setTags a t).feParts = s.feParts := rfl
@[simp] theorem State.setTags_fe (s : State) (a t : Nat) : (s.setTags a t).fe = s.fe := rfl
@[simp] theorem State.setTags_aev (s : State) (a t : Nat) : (s.setTags a t).aev = s.aev := rfl
@[simp] theorem State.setTags_log (s : State) (a t : Nat) : (s.setTags a t).log = s.log := rfl
@[simp] theorem State.setTags_logSeq (s : State) (a t : Nat) : (s.setTags a t).logSeq = s.logSeq := rfl
@[simp] theorem State.setTags_logFull (s : State) (a t : Nat) : (s.setTags a t).logFull = s.logFull := rfl
@[simp] theorem State.setTags_storm (s : State) (a t : Nat) : (s.setTags a t).storm = s.storm := rfl
@[simp] theorem State.setTags_handling (s : State) (a t : Nat) : (s.setTags a t).handling = s.handling := rfl
@[simp] theorem State.setTags_msixOn (s : State) (a t : Nat) : (s.setTags a t).msixOn = s.msixOn := rfl
@[simp] theorem State.setTags_msixPend (s : State) (a t : Nat) : (s.setTags a t).msixPend = s.msixPend := rfl
@[simp] theorem State.setTags_cfg (s : State) (a t : Nat) : (s.setTags a t).cfg = s.cfg := rfl
@[simp] theorem State.setTags_jobs (s : State) (a t : Nat) : (s.setTags a t).jobs = s.jobs := rfl
@[simp] theorem State.setTags_mbx (s : State) (a t : Nat) : (s.setTags a t).mbx = s.mbx := rfl
@[simp] theorem State.setTags_ring (s : State) (a t : Nat) : (s.setTags a t).ring = s.ring := rfl
@[simp] theorem State.setTags_sys (s : State) (a t : Nat) : (s.setTags a t).sys = s.sys := rfl
@[simp] theorem State.setTags_out (s : State) (a t : Nat) : (s.setTags a t).out = s.out := rfl
@[simp] theorem State.setTags_free (s : State) (a t : Nat) : (s.setTags a t).free = s.free := rfl

@[simp] theorem State.setFrame_pending (s : State) (i k : Nat) (x : CfgFrame) : (s.setFrame i k x).pending = s.pending := rfl
@[simp] theorem State.setFrame_regs (s : State) (i k : Nat) (x : CfgFrame) : (s.setFrame i k x).regs = s.regs := rfl
@[simp] theorem State.setFrame_mem (s : State) (i k : Nat) (x : CfgFrame) : (s.setFrame i k x).mem = s.mem := rfl
@[simp] theorem State.setFrame_isl (s : State) (i k : Nat) (x : CfgFrame) : (s.setFrame i k x).isl = s.isl := rfl
@[simp] theorem State.setFrame_lanes (s : State) (i k : Nat) (x : CfgFrame) : (s.setFrame i k x).lanes = s.lanes := rfl
@[simp] theorem State.setFrame_msps (s : State) (i k : Nat) (x : CfgFrame) : (s.setFrame i k x).msps = s.msps := rfl
@[simp] theorem State.setFrame_seqs (s : State) (i k : Nat) (x : CfgFrame) : (s.setFrame i k x).seqs = s.seqs := rfl
@[simp] theorem State.setFrame_parts (s : State) (i k : Nat) (x : CfgFrame) : (s.setFrame i k x).parts = s.parts := rfl
@[simp] theorem State.setFrame_dmas (s : State) (i k : Nat) (x : CfgFrame) : (s.setFrame i k x).dmas = s.dmas := rfl
@[simp] theorem State.setFrame_tlb (s : State) (i k : Nat) (x : CfgFrame) : (s.setFrame i k x).tlb = s.tlb := rfl
@[simp] theorem State.setFrame_units (s : State) (i k : Nat) (x : CfgFrame) : (s.setFrame i k x).units = s.units := rfl
@[simp] theorem State.setFrame_fat (s : State) (i k : Nat) (x : CfgFrame) : (s.setFrame i k x).fat = s.fat := rfl
@[simp] theorem State.setFrame_feParts (s : State) (i k : Nat) (x : CfgFrame) : (s.setFrame i k x).feParts = s.feParts := rfl
@[simp] theorem State.setFrame_fe (s : State) (i k : Nat) (x : CfgFrame) : (s.setFrame i k x).fe = s.fe := rfl
@[simp] theorem State.setFrame_aev (s : State) (i k : Nat) (x : CfgFrame) : (s.setFrame i k x).aev = s.aev := rfl
@[simp] theorem State.setFrame_log (s : State) (i k : Nat) (x : CfgFrame) : (s.setFrame i k x).log = s.log := rfl
@[simp] theorem State.setFrame_logSeq (s : State) (i k : Nat) (x : CfgFrame) : (s.setFrame i k x).logSeq = s.logSeq := rfl
@[simp] theorem State.setFrame_logFull (s : State) (i k : Nat) (x : CfgFrame) : (s.setFrame i k x).logFull = s.logFull := rfl
@[simp] theorem State.setFrame_storm (s : State) (i k : Nat) (x : CfgFrame) : (s.setFrame i k x).storm = s.storm := rfl
@[simp] theorem State.setFrame_handling (s : State) (i k : Nat) (x : CfgFrame) : (s.setFrame i k x).handling = s.handling := rfl
@[simp] theorem State.setFrame_msixOn (s : State) (i k : Nat) (x : CfgFrame) : (s.setFrame i k x).msixOn = s.msixOn := rfl
@[simp] theorem State.setFrame_msixPend (s : State) (i k : Nat) (x : CfgFrame) : (s.setFrame i k x).msixPend = s.msixPend := rfl
@[simp] theorem State.setFrame_cfg (s : State) (i k : Nat) (x : CfgFrame) : (s.setFrame i k x).cfg = s.cfg := rfl
@[simp] theorem State.setFrame_jobs (s : State) (i k : Nat) (x : CfgFrame) : (s.setFrame i k x).jobs = s.jobs := rfl
@[simp] theorem State.setFrame_mbx (s : State) (i k : Nat) (x : CfgFrame) : (s.setFrame i k x).mbx = s.mbx := rfl
@[simp] theorem State.setFrame_ring (s : State) (i k : Nat) (x : CfgFrame) : (s.setFrame i k x).ring = s.ring := rfl
@[simp] theorem State.setFrame_sys (s : State) (i k : Nat) (x : CfgFrame) : (s.setFrame i k x).sys = s.sys := rfl
@[simp] theorem State.setFrame_out (s : State) (i k : Nat) (x : CfgFrame) : (s.setFrame i k x).out = s.out := rfl
@[simp] theorem State.setFrame_free (s : State) (i k : Nat) (x : CfgFrame) : (s.setFrame i k x).free = s.free := rfl

@[simp] theorem State.setLane_pending (s : State) (l : Nat) (x : Lane) : (s.setLane l x).pending = s.pending := rfl
@[simp] theorem State.setLane_regs (s : State) (l : Nat) (x : Lane) : (s.setLane l x).regs = s.regs := rfl
@[simp] theorem State.setLane_mem (s : State) (l : Nat) (x : Lane) : (s.setLane l x).mem = s.mem := rfl
@[simp] theorem State.setLane_frames (s : State) (l : Nat) (x : Lane) : (s.setLane l x).frames = s.frames := rfl
@[simp] theorem State.setLane_isl (s : State) (l : Nat) (x : Lane) : (s.setLane l x).isl = s.isl := rfl
@[simp] theorem State.setLane_msps (s : State) (l : Nat) (x : Lane) : (s.setLane l x).msps = s.msps := rfl
@[simp] theorem State.setLane_seqs (s : State) (l : Nat) (x : Lane) : (s.setLane l x).seqs = s.seqs := rfl
@[simp] theorem State.setLane_parts (s : State) (l : Nat) (x : Lane) : (s.setLane l x).parts = s.parts := rfl
@[simp] theorem State.setLane_dmas (s : State) (l : Nat) (x : Lane) : (s.setLane l x).dmas = s.dmas := rfl
@[simp] theorem State.setLane_tlb (s : State) (l : Nat) (x : Lane) : (s.setLane l x).tlb = s.tlb := rfl
@[simp] theorem State.setLane_units (s : State) (l : Nat) (x : Lane) : (s.setLane l x).units = s.units := rfl
@[simp] theorem State.setLane_fat (s : State) (l : Nat) (x : Lane) : (s.setLane l x).fat = s.fat := rfl
@[simp] theorem State.setLane_feParts (s : State) (l : Nat) (x : Lane) : (s.setLane l x).feParts = s.feParts := rfl
@[simp] theorem State.setLane_fe (s : State) (l : Nat) (x : Lane) : (s.setLane l x).fe = s.fe := rfl
@[simp] theorem State.setLane_aev (s : State) (l : Nat) (x : Lane) : (s.setLane l x).aev = s.aev := rfl
@[simp] theorem State.setLane_log (s : State) (l : Nat) (x : Lane) : (s.setLane l x).log = s.log := rfl
@[simp] theorem State.setLane_logSeq (s : State) (l : Nat) (x : Lane) : (s.setLane l x).logSeq = s.logSeq := rfl
@[simp] theorem State.setLane_logFull (s : State) (l : Nat) (x : Lane) : (s.setLane l x).logFull = s.logFull := rfl
@[simp] theorem State.setLane_storm (s : State) (l : Nat) (x : Lane) : (s.setLane l x).storm = s.storm := rfl
@[simp] theorem State.setLane_handling (s : State) (l : Nat) (x : Lane) : (s.setLane l x).handling = s.handling := rfl
@[simp] theorem State.setLane_msixOn (s : State) (l : Nat) (x : Lane) : (s.setLane l x).msixOn = s.msixOn := rfl
@[simp] theorem State.setLane_msixPend (s : State) (l : Nat) (x : Lane) : (s.setLane l x).msixPend = s.msixPend := rfl
@[simp] theorem State.setLane_cfg (s : State) (l : Nat) (x : Lane) : (s.setLane l x).cfg = s.cfg := rfl
@[simp] theorem State.setLane_jobs (s : State) (l : Nat) (x : Lane) : (s.setLane l x).jobs = s.jobs := rfl
@[simp] theorem State.setLane_mbx (s : State) (l : Nat) (x : Lane) : (s.setLane l x).mbx = s.mbx := rfl
@[simp] theorem State.setLane_ring (s : State) (l : Nat) (x : Lane) : (s.setLane l x).ring = s.ring := rfl
@[simp] theorem State.setLane_sys (s : State) (l : Nat) (x : Lane) : (s.setLane l x).sys = s.sys := rfl
@[simp] theorem State.setLane_out (s : State) (l : Nat) (x : Lane) : (s.setLane l x).out = s.out := rfl
@[simp] theorem State.setLane_free (s : State) (l : Nat) (x : Lane) : (s.setLane l x).free = s.free := rfl

@[simp] theorem State.onLane_pending (s : State) (l : Nat) (g : Lane → Lane) : (s.onLane l g).pending = s.pending := rfl
@[simp] theorem State.onLane_regs (s : State) (l : Nat) (g : Lane → Lane) : (s.onLane l g).regs = s.regs := rfl
@[simp] theorem State.onLane_mem (s : State) (l : Nat) (g : Lane → Lane) : (s.onLane l g).mem = s.mem := rfl
@[simp] theorem State.onLane_frames (s : State) (l : Nat) (g : Lane → Lane) : (s.onLane l g).frames = s.frames := rfl
@[simp] theorem State.onLane_isl (s : State) (l : Nat) (g : Lane → Lane) : (s.onLane l g).isl = s.isl := rfl
@[simp] theorem State.onLane_msps (s : State) (l : Nat) (g : Lane → Lane) : (s.onLane l g).msps = s.msps := rfl
@[simp] theorem State.onLane_seqs (s : State) (l : Nat) (g : Lane → Lane) : (s.onLane l g).seqs = s.seqs := rfl
@[simp] theorem State.onLane_parts (s : State) (l : Nat) (g : Lane → Lane) : (s.onLane l g).parts = s.parts := rfl
@[simp] theorem State.onLane_dmas (s : State) (l : Nat) (g : Lane → Lane) : (s.onLane l g).dmas = s.dmas := rfl
@[simp] theorem State.onLane_tlb (s : State) (l : Nat) (g : Lane → Lane) : (s.onLane l g).tlb = s.tlb := rfl
@[simp] theorem State.onLane_units (s : State) (l : Nat) (g : Lane → Lane) : (s.onLane l g).units = s.units := rfl
@[simp] theorem State.onLane_fat (s : State) (l : Nat) (g : Lane → Lane) : (s.onLane l g).fat = s.fat := rfl
@[simp] theorem State.onLane_feParts (s : State) (l : Nat) (g : Lane → Lane) : (s.onLane l g).feParts = s.feParts := rfl
@[simp] theorem State.onLane_fe (s : State) (l : Nat) (g : Lane → Lane) : (s.onLane l g).fe = s.fe := rfl
@[simp] theorem State.onLane_aev (s : State) (l : Nat) (g : Lane → Lane) : (s.onLane l g).aev = s.aev := rfl
@[simp] theorem State.onLane_log (s : State) (l : Nat) (g : Lane → Lane) : (s.onLane l g).log = s.log := rfl
@[simp] theorem State.onLane_logSeq (s : State) (l : Nat) (g : Lane → Lane) : (s.onLane l g).logSeq = s.logSeq := rfl
@[simp] theorem State.onLane_logFull (s : State) (l : Nat) (g : Lane → Lane) : (s.onLane l g).logFull = s.logFull := rfl
@[simp] theorem State.onLane_storm (s : State) (l : Nat) (g : Lane → Lane) : (s.onLane l g).storm = s.storm := rfl
@[simp] theorem State.onLane_handling (s : State) (l : Nat) (g : Lane → Lane) : (s.onLane l g).handling = s.handling := rfl
@[simp] theorem State.onLane_msixOn (s : State) (l : Nat) (g : Lane → Lane) : (s.onLane l g).msixOn = s.msixOn := rfl
@[simp] theorem State.onLane_msixPend (s : State) (l : Nat) (g : Lane → Lane) : (s.onLane l g).msixPend = s.msixPend := rfl
@[simp] theorem State.onLane_cfg (s : State) (l : Nat) (g : Lane → Lane) : (s.onLane l g).cfg = s.cfg := rfl
@[simp] theorem State.onLane_jobs (s : State) (l : Nat) (g : Lane → Lane) : (s.onLane l g).jobs = s.jobs := rfl
@[simp] theorem State.onLane_mbx (s : State) (l : Nat) (g : Lane → Lane) : (s.onLane l g).mbx = s.mbx := rfl
@[simp] theorem State.onLane_ring (s : State) (l : Nat) (g : Lane → Lane) : (s.onLane l g).ring = s.ring := rfl
@[simp] theorem State.onLane_sys (s : State) (l : Nat) (g : Lane → Lane) : (s.onLane l g).sys = s.sys := rfl
@[simp] theorem State.onLane_out (s : State) (l : Nat) (g : Lane → Lane) : (s.onLane l g).out = s.out := rfl
@[simp] theorem State.onLane_free (s : State) (l : Nat) (g : Lane → Lane) : (s.onLane l g).free = s.free := rfl

@[simp] theorem State.setMsp_pending (s : State) (p k : Nat) (x : Msp) : (s.setMsp p k x).pending = s.pending := rfl
@[simp] theorem State.setMsp_regs (s : State) (p k : Nat) (x : Msp) : (s.setMsp p k x).regs = s.regs := rfl
@[simp] theorem State.setMsp_mem (s : State) (p k : Nat) (x : Msp) : (s.setMsp p k x).mem = s.mem := rfl
@[simp] theorem State.setMsp_frames (s : State) (p k : Nat) (x : Msp) : (s.setMsp p k x).frames = s.frames := rfl
@[simp] theorem State.setMsp_isl (s : State) (p k : Nat) (x : Msp) : (s.setMsp p k x).isl = s.isl := rfl
@[simp] theorem State.setMsp_lanes (s : State) (p k : Nat) (x : Msp) : (s.setMsp p k x).lanes = s.lanes := rfl
@[simp] theorem State.setMsp_seqs (s : State) (p k : Nat) (x : Msp) : (s.setMsp p k x).seqs = s.seqs := rfl
@[simp] theorem State.setMsp_parts (s : State) (p k : Nat) (x : Msp) : (s.setMsp p k x).parts = s.parts := rfl
@[simp] theorem State.setMsp_dmas (s : State) (p k : Nat) (x : Msp) : (s.setMsp p k x).dmas = s.dmas := rfl
@[simp] theorem State.setMsp_tlb (s : State) (p k : Nat) (x : Msp) : (s.setMsp p k x).tlb = s.tlb := rfl
@[simp] theorem State.setMsp_units (s : State) (p k : Nat) (x : Msp) : (s.setMsp p k x).units = s.units := rfl
@[simp] theorem State.setMsp_fat (s : State) (p k : Nat) (x : Msp) : (s.setMsp p k x).fat = s.fat := rfl
@[simp] theorem State.setMsp_feParts (s : State) (p k : Nat) (x : Msp) : (s.setMsp p k x).feParts = s.feParts := rfl
@[simp] theorem State.setMsp_fe (s : State) (p k : Nat) (x : Msp) : (s.setMsp p k x).fe = s.fe := rfl
@[simp] theorem State.setMsp_aev (s : State) (p k : Nat) (x : Msp) : (s.setMsp p k x).aev = s.aev := rfl
@[simp] theorem State.setMsp_log (s : State) (p k : Nat) (x : Msp) : (s.setMsp p k x).log = s.log := rfl
@[simp] theorem State.setMsp_logSeq (s : State) (p k : Nat) (x : Msp) : (s.setMsp p k x).logSeq = s.logSeq := rfl
@[simp] theorem State.setMsp_logFull (s : State) (p k : Nat) (x : Msp) : (s.setMsp p k x).logFull = s.logFull := rfl
@[simp] theorem State.setMsp_storm (s : State) (p k : Nat) (x : Msp) : (s.setMsp p k x).storm = s.storm := rfl
@[simp] theorem State.setMsp_handling (s : State) (p k : Nat) (x : Msp) : (s.setMsp p k x).handling = s.handling := rfl
@[simp] theorem State.setMsp_msixOn (s : State) (p k : Nat) (x : Msp) : (s.setMsp p k x).msixOn = s.msixOn := rfl
@[simp] theorem State.setMsp_msixPend (s : State) (p k : Nat) (x : Msp) : (s.setMsp p k x).msixPend = s.msixPend := rfl
@[simp] theorem State.setMsp_cfg (s : State) (p k : Nat) (x : Msp) : (s.setMsp p k x).cfg = s.cfg := rfl
@[simp] theorem State.setMsp_jobs (s : State) (p k : Nat) (x : Msp) : (s.setMsp p k x).jobs = s.jobs := rfl
@[simp] theorem State.setMsp_mbx (s : State) (p k : Nat) (x : Msp) : (s.setMsp p k x).mbx = s.mbx := rfl
@[simp] theorem State.setMsp_ring (s : State) (p k : Nat) (x : Msp) : (s.setMsp p k x).ring = s.ring := rfl
@[simp] theorem State.setMsp_sys (s : State) (p k : Nat) (x : Msp) : (s.setMsp p k x).sys = s.sys := rfl
@[simp] theorem State.setMsp_out (s : State) (p k : Nat) (x : Msp) : (s.setMsp p k x).out = s.out := rfl
@[simp] theorem State.setMsp_free (s : State) (p k : Nat) (x : Msp) : (s.setMsp p k x).free = s.free := rfl

@[simp] theorem State.onMsp_pending (s : State) (p k : Nat) (g : Msp → Msp) : (s.onMsp p k g).pending = s.pending := rfl
@[simp] theorem State.onMsp_regs (s : State) (p k : Nat) (g : Msp → Msp) : (s.onMsp p k g).regs = s.regs := rfl
@[simp] theorem State.onMsp_mem (s : State) (p k : Nat) (g : Msp → Msp) : (s.onMsp p k g).mem = s.mem := rfl
@[simp] theorem State.onMsp_frames (s : State) (p k : Nat) (g : Msp → Msp) : (s.onMsp p k g).frames = s.frames := rfl
@[simp] theorem State.onMsp_isl (s : State) (p k : Nat) (g : Msp → Msp) : (s.onMsp p k g).isl = s.isl := rfl
@[simp] theorem State.onMsp_lanes (s : State) (p k : Nat) (g : Msp → Msp) : (s.onMsp p k g).lanes = s.lanes := rfl
@[simp] theorem State.onMsp_seqs (s : State) (p k : Nat) (g : Msp → Msp) : (s.onMsp p k g).seqs = s.seqs := rfl
@[simp] theorem State.onMsp_parts (s : State) (p k : Nat) (g : Msp → Msp) : (s.onMsp p k g).parts = s.parts := rfl
@[simp] theorem State.onMsp_dmas (s : State) (p k : Nat) (g : Msp → Msp) : (s.onMsp p k g).dmas = s.dmas := rfl
@[simp] theorem State.onMsp_tlb (s : State) (p k : Nat) (g : Msp → Msp) : (s.onMsp p k g).tlb = s.tlb := rfl
@[simp] theorem State.onMsp_units (s : State) (p k : Nat) (g : Msp → Msp) : (s.onMsp p k g).units = s.units := rfl
@[simp] theorem State.onMsp_fat (s : State) (p k : Nat) (g : Msp → Msp) : (s.onMsp p k g).fat = s.fat := rfl
@[simp] theorem State.onMsp_feParts (s : State) (p k : Nat) (g : Msp → Msp) : (s.onMsp p k g).feParts = s.feParts := rfl
@[simp] theorem State.onMsp_fe (s : State) (p k : Nat) (g : Msp → Msp) : (s.onMsp p k g).fe = s.fe := rfl
@[simp] theorem State.onMsp_aev (s : State) (p k : Nat) (g : Msp → Msp) : (s.onMsp p k g).aev = s.aev := rfl
@[simp] theorem State.onMsp_log (s : State) (p k : Nat) (g : Msp → Msp) : (s.onMsp p k g).log = s.log := rfl
@[simp] theorem State.onMsp_logSeq (s : State) (p k : Nat) (g : Msp → Msp) : (s.onMsp p k g).logSeq = s.logSeq := rfl
@[simp] theorem State.onMsp_logFull (s : State) (p k : Nat) (g : Msp → Msp) : (s.onMsp p k g).logFull = s.logFull := rfl
@[simp] theorem State.onMsp_storm (s : State) (p k : Nat) (g : Msp → Msp) : (s.onMsp p k g).storm = s.storm := rfl
@[simp] theorem State.onMsp_handling (s : State) (p k : Nat) (g : Msp → Msp) : (s.onMsp p k g).handling = s.handling := rfl
@[simp] theorem State.onMsp_msixOn (s : State) (p k : Nat) (g : Msp → Msp) : (s.onMsp p k g).msixOn = s.msixOn := rfl
@[simp] theorem State.onMsp_msixPend (s : State) (p k : Nat) (g : Msp → Msp) : (s.onMsp p k g).msixPend = s.msixPend := rfl
@[simp] theorem State.onMsp_cfg (s : State) (p k : Nat) (g : Msp → Msp) : (s.onMsp p k g).cfg = s.cfg := rfl
@[simp] theorem State.onMsp_jobs (s : State) (p k : Nat) (g : Msp → Msp) : (s.onMsp p k g).jobs = s.jobs := rfl
@[simp] theorem State.onMsp_mbx (s : State) (p k : Nat) (g : Msp → Msp) : (s.onMsp p k g).mbx = s.mbx := rfl
@[simp] theorem State.onMsp_ring (s : State) (p k : Nat) (g : Msp → Msp) : (s.onMsp p k g).ring = s.ring := rfl
@[simp] theorem State.onMsp_sys (s : State) (p k : Nat) (g : Msp → Msp) : (s.onMsp p k g).sys = s.sys := rfl
@[simp] theorem State.onMsp_out (s : State) (p k : Nat) (g : Msp → Msp) : (s.onMsp p k g).out = s.out := rfl
@[simp] theorem State.onMsp_free (s : State) (p k : Nat) (g : Msp → Msp) : (s.onMsp p k g).free = s.free := rfl

@[simp] theorem State.setSeq_pending (s : State) (n : Nat) (x : Seq) : (s.setSeq n x).pending = s.pending := rfl
@[simp] theorem State.setSeq_regs (s : State) (n : Nat) (x : Seq) : (s.setSeq n x).regs = s.regs := rfl
@[simp] theorem State.setSeq_mem (s : State) (n : Nat) (x : Seq) : (s.setSeq n x).mem = s.mem := rfl
@[simp] theorem State.setSeq_frames (s : State) (n : Nat) (x : Seq) : (s.setSeq n x).frames = s.frames := rfl
@[simp] theorem State.setSeq_isl (s : State) (n : Nat) (x : Seq) : (s.setSeq n x).isl = s.isl := rfl
@[simp] theorem State.setSeq_lanes (s : State) (n : Nat) (x : Seq) : (s.setSeq n x).lanes = s.lanes := rfl
@[simp] theorem State.setSeq_msps (s : State) (n : Nat) (x : Seq) : (s.setSeq n x).msps = s.msps := rfl
@[simp] theorem State.setSeq_parts (s : State) (n : Nat) (x : Seq) : (s.setSeq n x).parts = s.parts := rfl
@[simp] theorem State.setSeq_dmas (s : State) (n : Nat) (x : Seq) : (s.setSeq n x).dmas = s.dmas := rfl
@[simp] theorem State.setSeq_tlb (s : State) (n : Nat) (x : Seq) : (s.setSeq n x).tlb = s.tlb := rfl
@[simp] theorem State.setSeq_units (s : State) (n : Nat) (x : Seq) : (s.setSeq n x).units = s.units := rfl
@[simp] theorem State.setSeq_fat (s : State) (n : Nat) (x : Seq) : (s.setSeq n x).fat = s.fat := rfl
@[simp] theorem State.setSeq_feParts (s : State) (n : Nat) (x : Seq) : (s.setSeq n x).feParts = s.feParts := rfl
@[simp] theorem State.setSeq_fe (s : State) (n : Nat) (x : Seq) : (s.setSeq n x).fe = s.fe := rfl
@[simp] theorem State.setSeq_aev (s : State) (n : Nat) (x : Seq) : (s.setSeq n x).aev = s.aev := rfl
@[simp] theorem State.setSeq_log (s : State) (n : Nat) (x : Seq) : (s.setSeq n x).log = s.log := rfl
@[simp] theorem State.setSeq_logSeq (s : State) (n : Nat) (x : Seq) : (s.setSeq n x).logSeq = s.logSeq := rfl
@[simp] theorem State.setSeq_logFull (s : State) (n : Nat) (x : Seq) : (s.setSeq n x).logFull = s.logFull := rfl
@[simp] theorem State.setSeq_storm (s : State) (n : Nat) (x : Seq) : (s.setSeq n x).storm = s.storm := rfl
@[simp] theorem State.setSeq_handling (s : State) (n : Nat) (x : Seq) : (s.setSeq n x).handling = s.handling := rfl
@[simp] theorem State.setSeq_msixOn (s : State) (n : Nat) (x : Seq) : (s.setSeq n x).msixOn = s.msixOn := rfl
@[simp] theorem State.setSeq_msixPend (s : State) (n : Nat) (x : Seq) : (s.setSeq n x).msixPend = s.msixPend := rfl
@[simp] theorem State.setSeq_cfg (s : State) (n : Nat) (x : Seq) : (s.setSeq n x).cfg = s.cfg := rfl
@[simp] theorem State.setSeq_jobs (s : State) (n : Nat) (x : Seq) : (s.setSeq n x).jobs = s.jobs := rfl
@[simp] theorem State.setSeq_mbx (s : State) (n : Nat) (x : Seq) : (s.setSeq n x).mbx = s.mbx := rfl
@[simp] theorem State.setSeq_ring (s : State) (n : Nat) (x : Seq) : (s.setSeq n x).ring = s.ring := rfl
@[simp] theorem State.setSeq_sys (s : State) (n : Nat) (x : Seq) : (s.setSeq n x).sys = s.sys := rfl
@[simp] theorem State.setSeq_out (s : State) (n : Nat) (x : Seq) : (s.setSeq n x).out = s.out := rfl
@[simp] theorem State.setSeq_free (s : State) (n : Nat) (x : Seq) : (s.setSeq n x).free = s.free := rfl

@[simp] theorem State.onSeq_pending (s : State) (n : Nat) (g : Seq → Seq) : (s.onSeq n g).pending = s.pending := rfl
@[simp] theorem State.onSeq_regs (s : State) (n : Nat) (g : Seq → Seq) : (s.onSeq n g).regs = s.regs := rfl
@[simp] theorem State.onSeq_mem (s : State) (n : Nat) (g : Seq → Seq) : (s.onSeq n g).mem = s.mem := rfl
@[simp] theorem State.onSeq_frames (s : State) (n : Nat) (g : Seq → Seq) : (s.onSeq n g).frames = s.frames := rfl
@[simp] theorem State.onSeq_isl (s : State) (n : Nat) (g : Seq → Seq) : (s.onSeq n g).isl = s.isl := rfl
@[simp] theorem State.onSeq_lanes (s : State) (n : Nat) (g : Seq → Seq) : (s.onSeq n g).lanes = s.lanes := rfl
@[simp] theorem State.onSeq_msps (s : State) (n : Nat) (g : Seq → Seq) : (s.onSeq n g).msps = s.msps := rfl
@[simp] theorem State.onSeq_parts (s : State) (n : Nat) (g : Seq → Seq) : (s.onSeq n g).parts = s.parts := rfl
@[simp] theorem State.onSeq_dmas (s : State) (n : Nat) (g : Seq → Seq) : (s.onSeq n g).dmas = s.dmas := rfl
@[simp] theorem State.onSeq_tlb (s : State) (n : Nat) (g : Seq → Seq) : (s.onSeq n g).tlb = s.tlb := rfl
@[simp] theorem State.onSeq_units (s : State) (n : Nat) (g : Seq → Seq) : (s.onSeq n g).units = s.units := rfl
@[simp] theorem State.onSeq_fat (s : State) (n : Nat) (g : Seq → Seq) : (s.onSeq n g).fat = s.fat := rfl
@[simp] theorem State.onSeq_feParts (s : State) (n : Nat) (g : Seq → Seq) : (s.onSeq n g).feParts = s.feParts := rfl
@[simp] theorem State.onSeq_fe (s : State) (n : Nat) (g : Seq → Seq) : (s.onSeq n g).fe = s.fe := rfl
@[simp] theorem State.onSeq_aev (s : State) (n : Nat) (g : Seq → Seq) : (s.onSeq n g).aev = s.aev := rfl
@[simp] theorem State.onSeq_log (s : State) (n : Nat) (g : Seq → Seq) : (s.onSeq n g).log = s.log := rfl
@[simp] theorem State.onSeq_logSeq (s : State) (n : Nat) (g : Seq → Seq) : (s.onSeq n g).logSeq = s.logSeq := rfl
@[simp] theorem State.onSeq_logFull (s : State) (n : Nat) (g : Seq → Seq) : (s.onSeq n g).logFull = s.logFull := rfl
@[simp] theorem State.onSeq_storm (s : State) (n : Nat) (g : Seq → Seq) : (s.onSeq n g).storm = s.storm := rfl
@[simp] theorem State.onSeq_handling (s : State) (n : Nat) (g : Seq → Seq) : (s.onSeq n g).handling = s.handling := rfl
@[simp] theorem State.onSeq_msixOn (s : State) (n : Nat) (g : Seq → Seq) : (s.onSeq n g).msixOn = s.msixOn := rfl
@[simp] theorem State.onSeq_msixPend (s : State) (n : Nat) (g : Seq → Seq) : (s.onSeq n g).msixPend = s.msixPend := rfl
@[simp] theorem State.onSeq_cfg (s : State) (n : Nat) (g : Seq → Seq) : (s.onSeq n g).cfg = s.cfg := rfl
@[simp] theorem State.onSeq_jobs (s : State) (n : Nat) (g : Seq → Seq) : (s.onSeq n g).jobs = s.jobs := rfl
@[simp] theorem State.onSeq_mbx (s : State) (n : Nat) (g : Seq → Seq) : (s.onSeq n g).mbx = s.mbx := rfl
@[simp] theorem State.onSeq_ring (s : State) (n : Nat) (g : Seq → Seq) : (s.onSeq n g).ring = s.ring := rfl
@[simp] theorem State.onSeq_sys (s : State) (n : Nat) (g : Seq → Seq) : (s.onSeq n g).sys = s.sys := rfl
@[simp] theorem State.onSeq_out (s : State) (n : Nat) (g : Seq → Seq) : (s.onSeq n g).out = s.out := rfl
@[simp] theorem State.onSeq_free (s : State) (n : Nat) (g : Seq → Seq) : (s.onSeq n g).free = s.free := rfl

@[simp] theorem State.setPart_pending (s : State) (p : Nat) (x : Part) : (s.setPart p x).pending = s.pending := rfl
@[simp] theorem State.setPart_regs (s : State) (p : Nat) (x : Part) : (s.setPart p x).regs = s.regs := rfl
@[simp] theorem State.setPart_mem (s : State) (p : Nat) (x : Part) : (s.setPart p x).mem = s.mem := rfl
@[simp] theorem State.setPart_frames (s : State) (p : Nat) (x : Part) : (s.setPart p x).frames = s.frames := rfl
@[simp] theorem State.setPart_isl (s : State) (p : Nat) (x : Part) : (s.setPart p x).isl = s.isl := rfl
@[simp] theorem State.setPart_lanes (s : State) (p : Nat) (x : Part) : (s.setPart p x).lanes = s.lanes := rfl
@[simp] theorem State.setPart_msps (s : State) (p : Nat) (x : Part) : (s.setPart p x).msps = s.msps := rfl
@[simp] theorem State.setPart_seqs (s : State) (p : Nat) (x : Part) : (s.setPart p x).seqs = s.seqs := rfl
@[simp] theorem State.setPart_dmas (s : State) (p : Nat) (x : Part) : (s.setPart p x).dmas = s.dmas := rfl
@[simp] theorem State.setPart_tlb (s : State) (p : Nat) (x : Part) : (s.setPart p x).tlb = s.tlb := rfl
@[simp] theorem State.setPart_units (s : State) (p : Nat) (x : Part) : (s.setPart p x).units = s.units := rfl
@[simp] theorem State.setPart_fat (s : State) (p : Nat) (x : Part) : (s.setPart p x).fat = s.fat := rfl
@[simp] theorem State.setPart_feParts (s : State) (p : Nat) (x : Part) : (s.setPart p x).feParts = s.feParts := rfl
@[simp] theorem State.setPart_fe (s : State) (p : Nat) (x : Part) : (s.setPart p x).fe = s.fe := rfl
@[simp] theorem State.setPart_aev (s : State) (p : Nat) (x : Part) : (s.setPart p x).aev = s.aev := rfl
@[simp] theorem State.setPart_log (s : State) (p : Nat) (x : Part) : (s.setPart p x).log = s.log := rfl
@[simp] theorem State.setPart_logSeq (s : State) (p : Nat) (x : Part) : (s.setPart p x).logSeq = s.logSeq := rfl
@[simp] theorem State.setPart_logFull (s : State) (p : Nat) (x : Part) : (s.setPart p x).logFull = s.logFull := rfl
@[simp] theorem State.setPart_storm (s : State) (p : Nat) (x : Part) : (s.setPart p x).storm = s.storm := rfl
@[simp] theorem State.setPart_handling (s : State) (p : Nat) (x : Part) : (s.setPart p x).handling = s.handling := rfl
@[simp] theorem State.setPart_msixOn (s : State) (p : Nat) (x : Part) : (s.setPart p x).msixOn = s.msixOn := rfl
@[simp] theorem State.setPart_msixPend (s : State) (p : Nat) (x : Part) : (s.setPart p x).msixPend = s.msixPend := rfl
@[simp] theorem State.setPart_cfg (s : State) (p : Nat) (x : Part) : (s.setPart p x).cfg = s.cfg := rfl
@[simp] theorem State.setPart_jobs (s : State) (p : Nat) (x : Part) : (s.setPart p x).jobs = s.jobs := rfl
@[simp] theorem State.setPart_mbx (s : State) (p : Nat) (x : Part) : (s.setPart p x).mbx = s.mbx := rfl
@[simp] theorem State.setPart_ring (s : State) (p : Nat) (x : Part) : (s.setPart p x).ring = s.ring := rfl
@[simp] theorem State.setPart_sys (s : State) (p : Nat) (x : Part) : (s.setPart p x).sys = s.sys := rfl
@[simp] theorem State.setPart_out (s : State) (p : Nat) (x : Part) : (s.setPart p x).out = s.out := rfl
@[simp] theorem State.setPart_free (s : State) (p : Nat) (x : Part) : (s.setPart p x).free = s.free := rfl

@[simp] theorem State.setCh_pending (s : State) (c : Nat) (x : Chan) : (s.setCh c x).pending = s.pending := rfl
@[simp] theorem State.setCh_regs (s : State) (c : Nat) (x : Chan) : (s.setCh c x).regs = s.regs := rfl
@[simp] theorem State.setCh_mem (s : State) (c : Nat) (x : Chan) : (s.setCh c x).mem = s.mem := rfl
@[simp] theorem State.setCh_frames (s : State) (c : Nat) (x : Chan) : (s.setCh c x).frames = s.frames := rfl
@[simp] theorem State.setCh_isl (s : State) (c : Nat) (x : Chan) : (s.setCh c x).isl = s.isl := rfl
@[simp] theorem State.setCh_lanes (s : State) (c : Nat) (x : Chan) : (s.setCh c x).lanes = s.lanes := rfl
@[simp] theorem State.setCh_msps (s : State) (c : Nat) (x : Chan) : (s.setCh c x).msps = s.msps := rfl
@[simp] theorem State.setCh_seqs (s : State) (c : Nat) (x : Chan) : (s.setCh c x).seqs = s.seqs := rfl
@[simp] theorem State.setCh_parts (s : State) (c : Nat) (x : Chan) : (s.setCh c x).parts = s.parts := rfl
@[simp] theorem State.setCh_tlb (s : State) (c : Nat) (x : Chan) : (s.setCh c x).tlb = s.tlb := rfl
@[simp] theorem State.setCh_units (s : State) (c : Nat) (x : Chan) : (s.setCh c x).units = s.units := rfl
@[simp] theorem State.setCh_fat (s : State) (c : Nat) (x : Chan) : (s.setCh c x).fat = s.fat := rfl
@[simp] theorem State.setCh_feParts (s : State) (c : Nat) (x : Chan) : (s.setCh c x).feParts = s.feParts := rfl
@[simp] theorem State.setCh_fe (s : State) (c : Nat) (x : Chan) : (s.setCh c x).fe = s.fe := rfl
@[simp] theorem State.setCh_aev (s : State) (c : Nat) (x : Chan) : (s.setCh c x).aev = s.aev := rfl
@[simp] theorem State.setCh_log (s : State) (c : Nat) (x : Chan) : (s.setCh c x).log = s.log := rfl
@[simp] theorem State.setCh_logSeq (s : State) (c : Nat) (x : Chan) : (s.setCh c x).logSeq = s.logSeq := rfl
@[simp] theorem State.setCh_logFull (s : State) (c : Nat) (x : Chan) : (s.setCh c x).logFull = s.logFull := rfl
@[simp] theorem State.setCh_storm (s : State) (c : Nat) (x : Chan) : (s.setCh c x).storm = s.storm := rfl
@[simp] theorem State.setCh_handling (s : State) (c : Nat) (x : Chan) : (s.setCh c x).handling = s.handling := rfl
@[simp] theorem State.setCh_msixOn (s : State) (c : Nat) (x : Chan) : (s.setCh c x).msixOn = s.msixOn := rfl
@[simp] theorem State.setCh_msixPend (s : State) (c : Nat) (x : Chan) : (s.setCh c x).msixPend = s.msixPend := rfl
@[simp] theorem State.setCh_cfg (s : State) (c : Nat) (x : Chan) : (s.setCh c x).cfg = s.cfg := rfl
@[simp] theorem State.setCh_jobs (s : State) (c : Nat) (x : Chan) : (s.setCh c x).jobs = s.jobs := rfl
@[simp] theorem State.setCh_mbx (s : State) (c : Nat) (x : Chan) : (s.setCh c x).mbx = s.mbx := rfl
@[simp] theorem State.setCh_ring (s : State) (c : Nat) (x : Chan) : (s.setCh c x).ring = s.ring := rfl
@[simp] theorem State.setCh_sys (s : State) (c : Nat) (x : Chan) : (s.setCh c x).sys = s.sys := rfl
@[simp] theorem State.setCh_out (s : State) (c : Nat) (x : Chan) : (s.setCh c x).out = s.out := rfl
@[simp] theorem State.setCh_free (s : State) (c : Nat) (x : Chan) : (s.setCh c x).free = s.free := rfl

@[simp] theorem State.setUnit_pending (s : State) (u : Nat) (x : FUnit) : (s.setUnit u x).pending = s.pending := rfl
@[simp] theorem State.setUnit_regs (s : State) (u : Nat) (x : FUnit) : (s.setUnit u x).regs = s.regs := rfl
@[simp] theorem State.setUnit_mem (s : State) (u : Nat) (x : FUnit) : (s.setUnit u x).mem = s.mem := rfl
@[simp] theorem State.setUnit_frames (s : State) (u : Nat) (x : FUnit) : (s.setUnit u x).frames = s.frames := rfl
@[simp] theorem State.setUnit_isl (s : State) (u : Nat) (x : FUnit) : (s.setUnit u x).isl = s.isl := rfl
@[simp] theorem State.setUnit_lanes (s : State) (u : Nat) (x : FUnit) : (s.setUnit u x).lanes = s.lanes := rfl
@[simp] theorem State.setUnit_msps (s : State) (u : Nat) (x : FUnit) : (s.setUnit u x).msps = s.msps := rfl
@[simp] theorem State.setUnit_seqs (s : State) (u : Nat) (x : FUnit) : (s.setUnit u x).seqs = s.seqs := rfl
@[simp] theorem State.setUnit_parts (s : State) (u : Nat) (x : FUnit) : (s.setUnit u x).parts = s.parts := rfl
@[simp] theorem State.setUnit_dmas (s : State) (u : Nat) (x : FUnit) : (s.setUnit u x).dmas = s.dmas := rfl
@[simp] theorem State.setUnit_tlb (s : State) (u : Nat) (x : FUnit) : (s.setUnit u x).tlb = s.tlb := rfl
@[simp] theorem State.setUnit_fat (s : State) (u : Nat) (x : FUnit) : (s.setUnit u x).fat = s.fat := rfl
@[simp] theorem State.setUnit_feParts (s : State) (u : Nat) (x : FUnit) : (s.setUnit u x).feParts = s.feParts := rfl
@[simp] theorem State.setUnit_fe (s : State) (u : Nat) (x : FUnit) : (s.setUnit u x).fe = s.fe := rfl
@[simp] theorem State.setUnit_aev (s : State) (u : Nat) (x : FUnit) : (s.setUnit u x).aev = s.aev := rfl
@[simp] theorem State.setUnit_log (s : State) (u : Nat) (x : FUnit) : (s.setUnit u x).log = s.log := rfl
@[simp] theorem State.setUnit_logSeq (s : State) (u : Nat) (x : FUnit) : (s.setUnit u x).logSeq = s.logSeq := rfl
@[simp] theorem State.setUnit_logFull (s : State) (u : Nat) (x : FUnit) : (s.setUnit u x).logFull = s.logFull := rfl
@[simp] theorem State.setUnit_storm (s : State) (u : Nat) (x : FUnit) : (s.setUnit u x).storm = s.storm := rfl
@[simp] theorem State.setUnit_handling (s : State) (u : Nat) (x : FUnit) : (s.setUnit u x).handling = s.handling := rfl
@[simp] theorem State.setUnit_msixOn (s : State) (u : Nat) (x : FUnit) : (s.setUnit u x).msixOn = s.msixOn := rfl
@[simp] theorem State.setUnit_msixPend (s : State) (u : Nat) (x : FUnit) : (s.setUnit u x).msixPend = s.msixPend := rfl
@[simp] theorem State.setUnit_cfg (s : State) (u : Nat) (x : FUnit) : (s.setUnit u x).cfg = s.cfg := rfl
@[simp] theorem State.setUnit_jobs (s : State) (u : Nat) (x : FUnit) : (s.setUnit u x).jobs = s.jobs := rfl
@[simp] theorem State.setUnit_mbx (s : State) (u : Nat) (x : FUnit) : (s.setUnit u x).mbx = s.mbx := rfl
@[simp] theorem State.setUnit_ring (s : State) (u : Nat) (x : FUnit) : (s.setUnit u x).ring = s.ring := rfl
@[simp] theorem State.setUnit_sys (s : State) (u : Nat) (x : FUnit) : (s.setUnit u x).sys = s.sys := rfl
@[simp] theorem State.setUnit_out (s : State) (u : Nat) (x : FUnit) : (s.setUnit u x).out = s.out := rfl
@[simp] theorem State.setUnit_free (s : State) (u : Nat) (x : FUnit) : (s.setUnit u x).free = s.free := rfl

@[simp] theorem State.onUnit_pending (s : State) (u : Nat) (g : FUnit → FUnit) : (s.onUnit u g).pending = s.pending := rfl
@[simp] theorem State.onUnit_regs (s : State) (u : Nat) (g : FUnit → FUnit) : (s.onUnit u g).regs = s.regs := rfl
@[simp] theorem State.onUnit_mem (s : State) (u : Nat) (g : FUnit → FUnit) : (s.onUnit u g).mem = s.mem := rfl
@[simp] theorem State.onUnit_frames (s : State) (u : Nat) (g : FUnit → FUnit) : (s.onUnit u g).frames = s.frames := rfl
@[simp] theorem State.onUnit_isl (s : State) (u : Nat) (g : FUnit → FUnit) : (s.onUnit u g).isl = s.isl := rfl
@[simp] theorem State.onUnit_lanes (s : State) (u : Nat) (g : FUnit → FUnit) : (s.onUnit u g).lanes = s.lanes := rfl
@[simp] theorem State.onUnit_msps (s : State) (u : Nat) (g : FUnit → FUnit) : (s.onUnit u g).msps = s.msps := rfl
@[simp] theorem State.onUnit_seqs (s : State) (u : Nat) (g : FUnit → FUnit) : (s.onUnit u g).seqs = s.seqs := rfl
@[simp] theorem State.onUnit_parts (s : State) (u : Nat) (g : FUnit → FUnit) : (s.onUnit u g).parts = s.parts := rfl
@[simp] theorem State.onUnit_dmas (s : State) (u : Nat) (g : FUnit → FUnit) : (s.onUnit u g).dmas = s.dmas := rfl
@[simp] theorem State.onUnit_tlb (s : State) (u : Nat) (g : FUnit → FUnit) : (s.onUnit u g).tlb = s.tlb := rfl
@[simp] theorem State.onUnit_fat (s : State) (u : Nat) (g : FUnit → FUnit) : (s.onUnit u g).fat = s.fat := rfl
@[simp] theorem State.onUnit_feParts (s : State) (u : Nat) (g : FUnit → FUnit) : (s.onUnit u g).feParts = s.feParts := rfl
@[simp] theorem State.onUnit_fe (s : State) (u : Nat) (g : FUnit → FUnit) : (s.onUnit u g).fe = s.fe := rfl
@[simp] theorem State.onUnit_aev (s : State) (u : Nat) (g : FUnit → FUnit) : (s.onUnit u g).aev = s.aev := rfl
@[simp] theorem State.onUnit_log (s : State) (u : Nat) (g : FUnit → FUnit) : (s.onUnit u g).log = s.log := rfl
@[simp] theorem State.onUnit_logSeq (s : State) (u : Nat) (g : FUnit → FUnit) : (s.onUnit u g).logSeq = s.logSeq := rfl
@[simp] theorem State.onUnit_logFull (s : State) (u : Nat) (g : FUnit → FUnit) : (s.onUnit u g).logFull = s.logFull := rfl
@[simp] theorem State.onUnit_storm (s : State) (u : Nat) (g : FUnit → FUnit) : (s.onUnit u g).storm = s.storm := rfl
@[simp] theorem State.onUnit_handling (s : State) (u : Nat) (g : FUnit → FUnit) : (s.onUnit u g).handling = s.handling := rfl
@[simp] theorem State.onUnit_msixOn (s : State) (u : Nat) (g : FUnit → FUnit) : (s.onUnit u g).msixOn = s.msixOn := rfl
@[simp] theorem State.onUnit_msixPend (s : State) (u : Nat) (g : FUnit → FUnit) : (s.onUnit u g).msixPend = s.msixPend := rfl
@[simp] theorem State.onUnit_cfg (s : State) (u : Nat) (g : FUnit → FUnit) : (s.onUnit u g).cfg = s.cfg := rfl
@[simp] theorem State.onUnit_jobs (s : State) (u : Nat) (g : FUnit → FUnit) : (s.onUnit u g).jobs = s.jobs := rfl
@[simp] theorem State.onUnit_mbx (s : State) (u : Nat) (g : FUnit → FUnit) : (s.onUnit u g).mbx = s.mbx := rfl
@[simp] theorem State.onUnit_ring (s : State) (u : Nat) (g : FUnit → FUnit) : (s.onUnit u g).ring = s.ring := rfl
@[simp] theorem State.onUnit_sys (s : State) (u : Nat) (g : FUnit → FUnit) : (s.onUnit u g).sys = s.sys := rfl
@[simp] theorem State.onUnit_out (s : State) (u : Nat) (g : FUnit → FUnit) : (s.onUnit u g).out = s.out := rfl
@[simp] theorem State.onUnit_free (s : State) (u : Nat) (g : FUnit → FUnit) : (s.onUnit u g).free = s.free := rfl

@[simp] theorem State.setFe_pending (s : State) (p : Nat) (x : FePart) : (s.setFe p x).pending = s.pending := rfl
@[simp] theorem State.setFe_regs (s : State) (p : Nat) (x : FePart) : (s.setFe p x).regs = s.regs := rfl
@[simp] theorem State.setFe_mem (s : State) (p : Nat) (x : FePart) : (s.setFe p x).mem = s.mem := rfl
@[simp] theorem State.setFe_frames (s : State) (p : Nat) (x : FePart) : (s.setFe p x).frames = s.frames := rfl
@[simp] theorem State.setFe_isl (s : State) (p : Nat) (x : FePart) : (s.setFe p x).isl = s.isl := rfl
@[simp] theorem State.setFe_lanes (s : State) (p : Nat) (x : FePart) : (s.setFe p x).lanes = s.lanes := rfl
@[simp] theorem State.setFe_msps (s : State) (p : Nat) (x : FePart) : (s.setFe p x).msps = s.msps := rfl
@[simp] theorem State.setFe_seqs (s : State) (p : Nat) (x : FePart) : (s.setFe p x).seqs = s.seqs := rfl
@[simp] theorem State.setFe_parts (s : State) (p : Nat) (x : FePart) : (s.setFe p x).parts = s.parts := rfl
@[simp] theorem State.setFe_dmas (s : State) (p : Nat) (x : FePart) : (s.setFe p x).dmas = s.dmas := rfl
@[simp] theorem State.setFe_tlb (s : State) (p : Nat) (x : FePart) : (s.setFe p x).tlb = s.tlb := rfl
@[simp] theorem State.setFe_units (s : State) (p : Nat) (x : FePart) : (s.setFe p x).units = s.units := rfl
@[simp] theorem State.setFe_fat (s : State) (p : Nat) (x : FePart) : (s.setFe p x).fat = s.fat := rfl
@[simp] theorem State.setFe_fe (s : State) (p : Nat) (x : FePart) : (s.setFe p x).fe = s.fe := rfl
@[simp] theorem State.setFe_aev (s : State) (p : Nat) (x : FePart) : (s.setFe p x).aev = s.aev := rfl
@[simp] theorem State.setFe_log (s : State) (p : Nat) (x : FePart) : (s.setFe p x).log = s.log := rfl
@[simp] theorem State.setFe_logSeq (s : State) (p : Nat) (x : FePart) : (s.setFe p x).logSeq = s.logSeq := rfl
@[simp] theorem State.setFe_logFull (s : State) (p : Nat) (x : FePart) : (s.setFe p x).logFull = s.logFull := rfl
@[simp] theorem State.setFe_storm (s : State) (p : Nat) (x : FePart) : (s.setFe p x).storm = s.storm := rfl
@[simp] theorem State.setFe_handling (s : State) (p : Nat) (x : FePart) : (s.setFe p x).handling = s.handling := rfl
@[simp] theorem State.setFe_msixOn (s : State) (p : Nat) (x : FePart) : (s.setFe p x).msixOn = s.msixOn := rfl
@[simp] theorem State.setFe_msixPend (s : State) (p : Nat) (x : FePart) : (s.setFe p x).msixPend = s.msixPend := rfl
@[simp] theorem State.setFe_cfg (s : State) (p : Nat) (x : FePart) : (s.setFe p x).cfg = s.cfg := rfl
@[simp] theorem State.setFe_jobs (s : State) (p : Nat) (x : FePart) : (s.setFe p x).jobs = s.jobs := rfl
@[simp] theorem State.setFe_mbx (s : State) (p : Nat) (x : FePart) : (s.setFe p x).mbx = s.mbx := rfl
@[simp] theorem State.setFe_ring (s : State) (p : Nat) (x : FePart) : (s.setFe p x).ring = s.ring := rfl
@[simp] theorem State.setFe_sys (s : State) (p : Nat) (x : FePart) : (s.setFe p x).sys = s.sys := rfl
@[simp] theorem State.setFe_out (s : State) (p : Nat) (x : FePart) : (s.setFe p x).out = s.out := rfl
@[simp] theorem State.setFe_free (s : State) (p : Nat) (x : FePart) : (s.setFe p x).free = s.free := rfl

@[simp] theorem State.onFe_pending (s : State) (p : Nat) (g : FePart → FePart) : (s.onFe p g).pending = s.pending := rfl
@[simp] theorem State.onFe_regs (s : State) (p : Nat) (g : FePart → FePart) : (s.onFe p g).regs = s.regs := rfl
@[simp] theorem State.onFe_mem (s : State) (p : Nat) (g : FePart → FePart) : (s.onFe p g).mem = s.mem := rfl
@[simp] theorem State.onFe_frames (s : State) (p : Nat) (g : FePart → FePart) : (s.onFe p g).frames = s.frames := rfl
@[simp] theorem State.onFe_isl (s : State) (p : Nat) (g : FePart → FePart) : (s.onFe p g).isl = s.isl := rfl
@[simp] theorem State.onFe_lanes (s : State) (p : Nat) (g : FePart → FePart) : (s.onFe p g).lanes = s.lanes := rfl
@[simp] theorem State.onFe_msps (s : State) (p : Nat) (g : FePart → FePart) : (s.onFe p g).msps = s.msps := rfl
@[simp] theorem State.onFe_seqs (s : State) (p : Nat) (g : FePart → FePart) : (s.onFe p g).seqs = s.seqs := rfl
@[simp] theorem State.onFe_parts (s : State) (p : Nat) (g : FePart → FePart) : (s.onFe p g).parts = s.parts := rfl
@[simp] theorem State.onFe_dmas (s : State) (p : Nat) (g : FePart → FePart) : (s.onFe p g).dmas = s.dmas := rfl
@[simp] theorem State.onFe_tlb (s : State) (p : Nat) (g : FePart → FePart) : (s.onFe p g).tlb = s.tlb := rfl
@[simp] theorem State.onFe_units (s : State) (p : Nat) (g : FePart → FePart) : (s.onFe p g).units = s.units := rfl
@[simp] theorem State.onFe_fat (s : State) (p : Nat) (g : FePart → FePart) : (s.onFe p g).fat = s.fat := rfl
@[simp] theorem State.onFe_fe (s : State) (p : Nat) (g : FePart → FePart) : (s.onFe p g).fe = s.fe := rfl
@[simp] theorem State.onFe_aev (s : State) (p : Nat) (g : FePart → FePart) : (s.onFe p g).aev = s.aev := rfl
@[simp] theorem State.onFe_log (s : State) (p : Nat) (g : FePart → FePart) : (s.onFe p g).log = s.log := rfl
@[simp] theorem State.onFe_logSeq (s : State) (p : Nat) (g : FePart → FePart) : (s.onFe p g).logSeq = s.logSeq := rfl
@[simp] theorem State.onFe_logFull (s : State) (p : Nat) (g : FePart → FePart) : (s.onFe p g).logFull = s.logFull := rfl
@[simp] theorem State.onFe_storm (s : State) (p : Nat) (g : FePart → FePart) : (s.onFe p g).storm = s.storm := rfl
@[simp] theorem State.onFe_handling (s : State) (p : Nat) (g : FePart → FePart) : (s.onFe p g).handling = s.handling := rfl
@[simp] theorem State.onFe_msixOn (s : State) (p : Nat) (g : FePart → FePart) : (s.onFe p g).msixOn = s.msixOn := rfl
@[simp] theorem State.onFe_msixPend (s : State) (p : Nat) (g : FePart → FePart) : (s.onFe p g).msixPend = s.msixPend := rfl
@[simp] theorem State.onFe_cfg (s : State) (p : Nat) (g : FePart → FePart) : (s.onFe p g).cfg = s.cfg := rfl
@[simp] theorem State.onFe_jobs (s : State) (p : Nat) (g : FePart → FePart) : (s.onFe p g).jobs = s.jobs := rfl
@[simp] theorem State.onFe_mbx (s : State) (p : Nat) (g : FePart → FePart) : (s.onFe p g).mbx = s.mbx := rfl
@[simp] theorem State.onFe_ring (s : State) (p : Nat) (g : FePart → FePart) : (s.onFe p g).ring = s.ring := rfl
@[simp] theorem State.onFe_sys (s : State) (p : Nat) (g : FePart → FePart) : (s.onFe p g).sys = s.sys := rfl
@[simp] theorem State.onFe_out (s : State) (p : Nat) (g : FePart → FePart) : (s.onFe p g).out = s.out := rfl
@[simp] theorem State.onFe_free (s : State) (p : Nat) (g : FePart → FePart) : (s.onFe p g).free = s.free := rfl

@[simp] theorem State.feOn_pending (s : State) (g : Fe → Fe) : (s.feOn g).pending = s.pending := rfl
@[simp] theorem State.feOn_regs (s : State) (g : Fe → Fe) : (s.feOn g).regs = s.regs := rfl
@[simp] theorem State.feOn_mem (s : State) (g : Fe → Fe) : (s.feOn g).mem = s.mem := rfl
@[simp] theorem State.feOn_frames (s : State) (g : Fe → Fe) : (s.feOn g).frames = s.frames := rfl
@[simp] theorem State.feOn_isl (s : State) (g : Fe → Fe) : (s.feOn g).isl = s.isl := rfl
@[simp] theorem State.feOn_lanes (s : State) (g : Fe → Fe) : (s.feOn g).lanes = s.lanes := rfl
@[simp] theorem State.feOn_msps (s : State) (g : Fe → Fe) : (s.feOn g).msps = s.msps := rfl
@[simp] theorem State.feOn_seqs (s : State) (g : Fe → Fe) : (s.feOn g).seqs = s.seqs := rfl
@[simp] theorem State.feOn_parts (s : State) (g : Fe → Fe) : (s.feOn g).parts = s.parts := rfl
@[simp] theorem State.feOn_dmas (s : State) (g : Fe → Fe) : (s.feOn g).dmas = s.dmas := rfl
@[simp] theorem State.feOn_tlb (s : State) (g : Fe → Fe) : (s.feOn g).tlb = s.tlb := rfl
@[simp] theorem State.feOn_units (s : State) (g : Fe → Fe) : (s.feOn g).units = s.units := rfl
@[simp] theorem State.feOn_fat (s : State) (g : Fe → Fe) : (s.feOn g).fat = s.fat := rfl
@[simp] theorem State.feOn_feParts (s : State) (g : Fe → Fe) : (s.feOn g).feParts = s.feParts := rfl
@[simp] theorem State.feOn_aev (s : State) (g : Fe → Fe) : (s.feOn g).aev = s.aev := rfl
@[simp] theorem State.feOn_log (s : State) (g : Fe → Fe) : (s.feOn g).log = s.log := rfl
@[simp] theorem State.feOn_logSeq (s : State) (g : Fe → Fe) : (s.feOn g).logSeq = s.logSeq := rfl
@[simp] theorem State.feOn_logFull (s : State) (g : Fe → Fe) : (s.feOn g).logFull = s.logFull := rfl
@[simp] theorem State.feOn_storm (s : State) (g : Fe → Fe) : (s.feOn g).storm = s.storm := rfl
@[simp] theorem State.feOn_handling (s : State) (g : Fe → Fe) : (s.feOn g).handling = s.handling := rfl
@[simp] theorem State.feOn_msixOn (s : State) (g : Fe → Fe) : (s.feOn g).msixOn = s.msixOn := rfl
@[simp] theorem State.feOn_msixPend (s : State) (g : Fe → Fe) : (s.feOn g).msixPend = s.msixPend := rfl
@[simp] theorem State.feOn_cfg (s : State) (g : Fe → Fe) : (s.feOn g).cfg = s.cfg := rfl
@[simp] theorem State.feOn_jobs (s : State) (g : Fe → Fe) : (s.feOn g).jobs = s.jobs := rfl
@[simp] theorem State.feOn_mbx (s : State) (g : Fe → Fe) : (s.feOn g).mbx = s.mbx := rfl
@[simp] theorem State.feOn_ring (s : State) (g : Fe → Fe) : (s.feOn g).ring = s.ring := rfl
@[simp] theorem State.feOn_sys (s : State) (g : Fe → Fe) : (s.feOn g).sys = s.sys := rfl
@[simp] theorem State.feOn_out (s : State) (g : Fe → Fe) : (s.feOn g).out = s.out := rfl
@[simp] theorem State.feOn_free (s : State) (g : Fe → Fe) : (s.feOn g).free = s.free := rfl

@[simp] theorem State.onCfg_pending (s : State) (g : Cfg → Cfg) : (s.onCfg g).pending = s.pending := rfl
@[simp] theorem State.onCfg_regs (s : State) (g : Cfg → Cfg) : (s.onCfg g).regs = s.regs := rfl
@[simp] theorem State.onCfg_mem (s : State) (g : Cfg → Cfg) : (s.onCfg g).mem = s.mem := rfl
@[simp] theorem State.onCfg_frames (s : State) (g : Cfg → Cfg) : (s.onCfg g).frames = s.frames := rfl
@[simp] theorem State.onCfg_isl (s : State) (g : Cfg → Cfg) : (s.onCfg g).isl = s.isl := rfl
@[simp] theorem State.onCfg_lanes (s : State) (g : Cfg → Cfg) : (s.onCfg g).lanes = s.lanes := rfl
@[simp] theorem State.onCfg_msps (s : State) (g : Cfg → Cfg) : (s.onCfg g).msps = s.msps := rfl
@[simp] theorem State.onCfg_seqs (s : State) (g : Cfg → Cfg) : (s.onCfg g).seqs = s.seqs := rfl
@[simp] theorem State.onCfg_parts (s : State) (g : Cfg → Cfg) : (s.onCfg g).parts = s.parts := rfl
@[simp] theorem State.onCfg_dmas (s : State) (g : Cfg → Cfg) : (s.onCfg g).dmas = s.dmas := rfl
@[simp] theorem State.onCfg_tlb (s : State) (g : Cfg → Cfg) : (s.onCfg g).tlb = s.tlb := rfl
@[simp] theorem State.onCfg_units (s : State) (g : Cfg → Cfg) : (s.onCfg g).units = s.units := rfl
@[simp] theorem State.onCfg_fat (s : State) (g : Cfg → Cfg) : (s.onCfg g).fat = s.fat := rfl
@[simp] theorem State.onCfg_feParts (s : State) (g : Cfg → Cfg) : (s.onCfg g).feParts = s.feParts := rfl
@[simp] theorem State.onCfg_fe (s : State) (g : Cfg → Cfg) : (s.onCfg g).fe = s.fe := rfl
@[simp] theorem State.onCfg_aev (s : State) (g : Cfg → Cfg) : (s.onCfg g).aev = s.aev := rfl
@[simp] theorem State.onCfg_log (s : State) (g : Cfg → Cfg) : (s.onCfg g).log = s.log := rfl
@[simp] theorem State.onCfg_logSeq (s : State) (g : Cfg → Cfg) : (s.onCfg g).logSeq = s.logSeq := rfl
@[simp] theorem State.onCfg_logFull (s : State) (g : Cfg → Cfg) : (s.onCfg g).logFull = s.logFull := rfl
@[simp] theorem State.onCfg_storm (s : State) (g : Cfg → Cfg) : (s.onCfg g).storm = s.storm := rfl
@[simp] theorem State.onCfg_handling (s : State) (g : Cfg → Cfg) : (s.onCfg g).handling = s.handling := rfl
@[simp] theorem State.onCfg_msixOn (s : State) (g : Cfg → Cfg) : (s.onCfg g).msixOn = s.msixOn := rfl
@[simp] theorem State.onCfg_msixPend (s : State) (g : Cfg → Cfg) : (s.onCfg g).msixPend = s.msixPend := rfl
@[simp] theorem State.onCfg_jobs (s : State) (g : Cfg → Cfg) : (s.onCfg g).jobs = s.jobs := rfl
@[simp] theorem State.onCfg_mbx (s : State) (g : Cfg → Cfg) : (s.onCfg g).mbx = s.mbx := rfl
@[simp] theorem State.onCfg_ring (s : State) (g : Cfg → Cfg) : (s.onCfg g).ring = s.ring := rfl
@[simp] theorem State.onCfg_sys (s : State) (g : Cfg → Cfg) : (s.onCfg g).sys = s.sys := rfl
@[simp] theorem State.onCfg_out (s : State) (g : Cfg → Cfg) : (s.onCfg g).out = s.out := rfl
@[simp] theorem State.onCfg_free (s : State) (g : Cfg → Cfg) : (s.onCfg g).free = s.free := rfl

@[simp] theorem State.onMbx_pending (s : State) (fn : Nat) (g : Mbx → Mbx) : (s.onMbx fn g).pending = s.pending := rfl
@[simp] theorem State.onMbx_regs (s : State) (fn : Nat) (g : Mbx → Mbx) : (s.onMbx fn g).regs = s.regs := rfl
@[simp] theorem State.onMbx_mem (s : State) (fn : Nat) (g : Mbx → Mbx) : (s.onMbx fn g).mem = s.mem := rfl
@[simp] theorem State.onMbx_frames (s : State) (fn : Nat) (g : Mbx → Mbx) : (s.onMbx fn g).frames = s.frames := rfl
@[simp] theorem State.onMbx_isl (s : State) (fn : Nat) (g : Mbx → Mbx) : (s.onMbx fn g).isl = s.isl := rfl
@[simp] theorem State.onMbx_lanes (s : State) (fn : Nat) (g : Mbx → Mbx) : (s.onMbx fn g).lanes = s.lanes := rfl
@[simp] theorem State.onMbx_msps (s : State) (fn : Nat) (g : Mbx → Mbx) : (s.onMbx fn g).msps = s.msps := rfl
@[simp] theorem State.onMbx_seqs (s : State) (fn : Nat) (g : Mbx → Mbx) : (s.onMbx fn g).seqs = s.seqs := rfl
@[simp] theorem State.onMbx_parts (s : State) (fn : Nat) (g : Mbx → Mbx) : (s.onMbx fn g).parts = s.parts := rfl
@[simp] theorem State.onMbx_dmas (s : State) (fn : Nat) (g : Mbx → Mbx) : (s.onMbx fn g).dmas = s.dmas := rfl
@[simp] theorem State.onMbx_tlb (s : State) (fn : Nat) (g : Mbx → Mbx) : (s.onMbx fn g).tlb = s.tlb := rfl
@[simp] theorem State.onMbx_units (s : State) (fn : Nat) (g : Mbx → Mbx) : (s.onMbx fn g).units = s.units := rfl
@[simp] theorem State.onMbx_fat (s : State) (fn : Nat) (g : Mbx → Mbx) : (s.onMbx fn g).fat = s.fat := rfl
@[simp] theorem State.onMbx_feParts (s : State) (fn : Nat) (g : Mbx → Mbx) : (s.onMbx fn g).feParts = s.feParts := rfl
@[simp] theorem State.onMbx_fe (s : State) (fn : Nat) (g : Mbx → Mbx) : (s.onMbx fn g).fe = s.fe := rfl
@[simp] theorem State.onMbx_aev (s : State) (fn : Nat) (g : Mbx → Mbx) : (s.onMbx fn g).aev = s.aev := rfl
@[simp] theorem State.onMbx_log (s : State) (fn : Nat) (g : Mbx → Mbx) : (s.onMbx fn g).log = s.log := rfl
@[simp] theorem State.onMbx_logSeq (s : State) (fn : Nat) (g : Mbx → Mbx) : (s.onMbx fn g).logSeq = s.logSeq := rfl
@[simp] theorem State.onMbx_logFull (s : State) (fn : Nat) (g : Mbx → Mbx) : (s.onMbx fn g).logFull = s.logFull := rfl
@[simp] theorem State.onMbx_storm (s : State) (fn : Nat) (g : Mbx → Mbx) : (s.onMbx fn g).storm = s.storm := rfl
@[simp] theorem State.onMbx_handling (s : State) (fn : Nat) (g : Mbx → Mbx) : (s.onMbx fn g).handling = s.handling := rfl
@[simp] theorem State.onMbx_msixOn (s : State) (fn : Nat) (g : Mbx → Mbx) : (s.onMbx fn g).msixOn = s.msixOn := rfl
@[simp] theorem State.onMbx_msixPend (s : State) (fn : Nat) (g : Mbx → Mbx) : (s.onMbx fn g).msixPend = s.msixPend := rfl
@[simp] theorem State.onMbx_cfg (s : State) (fn : Nat) (g : Mbx → Mbx) : (s.onMbx fn g).cfg = s.cfg := rfl
@[simp] theorem State.onMbx_jobs (s : State) (fn : Nat) (g : Mbx → Mbx) : (s.onMbx fn g).jobs = s.jobs := rfl
@[simp] theorem State.onMbx_ring (s : State) (fn : Nat) (g : Mbx → Mbx) : (s.onMbx fn g).ring = s.ring := rfl
@[simp] theorem State.onMbx_sys (s : State) (fn : Nat) (g : Mbx → Mbx) : (s.onMbx fn g).sys = s.sys := rfl
@[simp] theorem State.onMbx_out (s : State) (fn : Nat) (g : Mbx → Mbx) : (s.onMbx fn g).out = s.out := rfl
@[simp] theorem State.onMbx_free (s : State) (fn : Nat) (g : Mbx → Mbx) : (s.onMbx fn g).free = s.free := rfl

@[simp] theorem State.onRing_pending (s : State) (g : Ring → Ring) : (s.onRing g).pending = s.pending := rfl
@[simp] theorem State.onRing_regs (s : State) (g : Ring → Ring) : (s.onRing g).regs = s.regs := rfl
@[simp] theorem State.onRing_mem (s : State) (g : Ring → Ring) : (s.onRing g).mem = s.mem := rfl
@[simp] theorem State.onRing_frames (s : State) (g : Ring → Ring) : (s.onRing g).frames = s.frames := rfl
@[simp] theorem State.onRing_isl (s : State) (g : Ring → Ring) : (s.onRing g).isl = s.isl := rfl
@[simp] theorem State.onRing_lanes (s : State) (g : Ring → Ring) : (s.onRing g).lanes = s.lanes := rfl
@[simp] theorem State.onRing_msps (s : State) (g : Ring → Ring) : (s.onRing g).msps = s.msps := rfl
@[simp] theorem State.onRing_seqs (s : State) (g : Ring → Ring) : (s.onRing g).seqs = s.seqs := rfl
@[simp] theorem State.onRing_parts (s : State) (g : Ring → Ring) : (s.onRing g).parts = s.parts := rfl
@[simp] theorem State.onRing_dmas (s : State) (g : Ring → Ring) : (s.onRing g).dmas = s.dmas := rfl
@[simp] theorem State.onRing_tlb (s : State) (g : Ring → Ring) : (s.onRing g).tlb = s.tlb := rfl
@[simp] theorem State.onRing_units (s : State) (g : Ring → Ring) : (s.onRing g).units = s.units := rfl
@[simp] theorem State.onRing_fat (s : State) (g : Ring → Ring) : (s.onRing g).fat = s.fat := rfl
@[simp] theorem State.onRing_feParts (s : State) (g : Ring → Ring) : (s.onRing g).feParts = s.feParts := rfl
@[simp] theorem State.onRing_fe (s : State) (g : Ring → Ring) : (s.onRing g).fe = s.fe := rfl
@[simp] theorem State.onRing_aev (s : State) (g : Ring → Ring) : (s.onRing g).aev = s.aev := rfl
@[simp] theorem State.onRing_log (s : State) (g : Ring → Ring) : (s.onRing g).log = s.log := rfl
@[simp] theorem State.onRing_logSeq (s : State) (g : Ring → Ring) : (s.onRing g).logSeq = s.logSeq := rfl
@[simp] theorem State.onRing_logFull (s : State) (g : Ring → Ring) : (s.onRing g).logFull = s.logFull := rfl
@[simp] theorem State.onRing_storm (s : State) (g : Ring → Ring) : (s.onRing g).storm = s.storm := rfl
@[simp] theorem State.onRing_handling (s : State) (g : Ring → Ring) : (s.onRing g).handling = s.handling := rfl
@[simp] theorem State.onRing_msixOn (s : State) (g : Ring → Ring) : (s.onRing g).msixOn = s.msixOn := rfl
@[simp] theorem State.onRing_msixPend (s : State) (g : Ring → Ring) : (s.onRing g).msixPend = s.msixPend := rfl
@[simp] theorem State.onRing_cfg (s : State) (g : Ring → Ring) : (s.onRing g).cfg = s.cfg := rfl
@[simp] theorem State.onRing_jobs (s : State) (g : Ring → Ring) : (s.onRing g).jobs = s.jobs := rfl
@[simp] theorem State.onRing_mbx (s : State) (g : Ring → Ring) : (s.onRing g).mbx = s.mbx := rfl
@[simp] theorem State.onRing_sys (s : State) (g : Ring → Ring) : (s.onRing g).sys = s.sys := rfl
@[simp] theorem State.onRing_out (s : State) (g : Ring → Ring) : (s.onRing g).out = s.out := rfl
@[simp] theorem State.onRing_free (s : State) (g : Ring → Ring) : (s.onRing g).free = s.free := rfl

@[simp] theorem State.onRepair_pending (s : State) (g : Repair → Repair) : (s.onRepair g).pending = s.pending := rfl
@[simp] theorem State.onRepair_regs (s : State) (g : Repair → Repair) : (s.onRepair g).regs = s.regs := rfl
@[simp] theorem State.onRepair_mem (s : State) (g : Repair → Repair) : (s.onRepair g).mem = s.mem := rfl
@[simp] theorem State.onRepair_frames (s : State) (g : Repair → Repair) : (s.onRepair g).frames = s.frames := rfl
@[simp] theorem State.onRepair_isl (s : State) (g : Repair → Repair) : (s.onRepair g).isl = s.isl := rfl
@[simp] theorem State.onRepair_lanes (s : State) (g : Repair → Repair) : (s.onRepair g).lanes = s.lanes := rfl
@[simp] theorem State.onRepair_msps (s : State) (g : Repair → Repair) : (s.onRepair g).msps = s.msps := rfl
@[simp] theorem State.onRepair_seqs (s : State) (g : Repair → Repair) : (s.onRepair g).seqs = s.seqs := rfl
@[simp] theorem State.onRepair_parts (s : State) (g : Repair → Repair) : (s.onRepair g).parts = s.parts := rfl
@[simp] theorem State.onRepair_dmas (s : State) (g : Repair → Repair) : (s.onRepair g).dmas = s.dmas := rfl
@[simp] theorem State.onRepair_tlb (s : State) (g : Repair → Repair) : (s.onRepair g).tlb = s.tlb := rfl
@[simp] theorem State.onRepair_units (s : State) (g : Repair → Repair) : (s.onRepair g).units = s.units := rfl
@[simp] theorem State.onRepair_fat (s : State) (g : Repair → Repair) : (s.onRepair g).fat = s.fat := rfl
@[simp] theorem State.onRepair_feParts (s : State) (g : Repair → Repair) : (s.onRepair g).feParts = s.feParts := rfl
@[simp] theorem State.onRepair_fe (s : State) (g : Repair → Repair) : (s.onRepair g).fe = s.fe := rfl
@[simp] theorem State.onRepair_aev (s : State) (g : Repair → Repair) : (s.onRepair g).aev = s.aev := rfl
@[simp] theorem State.onRepair_log (s : State) (g : Repair → Repair) : (s.onRepair g).log = s.log := rfl
@[simp] theorem State.onRepair_logSeq (s : State) (g : Repair → Repair) : (s.onRepair g).logSeq = s.logSeq := rfl
@[simp] theorem State.onRepair_logFull (s : State) (g : Repair → Repair) : (s.onRepair g).logFull = s.logFull := rfl
@[simp] theorem State.onRepair_storm (s : State) (g : Repair → Repair) : (s.onRepair g).storm = s.storm := rfl
@[simp] theorem State.onRepair_handling (s : State) (g : Repair → Repair) : (s.onRepair g).handling = s.handling := rfl
@[simp] theorem State.onRepair_msixOn (s : State) (g : Repair → Repair) : (s.onRepair g).msixOn = s.msixOn := rfl
@[simp] theorem State.onRepair_msixPend (s : State) (g : Repair → Repair) : (s.onRepair g).msixPend = s.msixPend := rfl
@[simp] theorem State.onRepair_cfg (s : State) (g : Repair → Repair) : (s.onRepair g).cfg = s.cfg := rfl
@[simp] theorem State.onRepair_jobs (s : State) (g : Repair → Repair) : (s.onRepair g).jobs = s.jobs := rfl
@[simp] theorem State.onRepair_mbx (s : State) (g : Repair → Repair) : (s.onRepair g).mbx = s.mbx := rfl
@[simp] theorem State.onRepair_ring (s : State) (g : Repair → Repair) : (s.onRepair g).ring = s.ring := rfl
@[simp] theorem State.onRepair_out (s : State) (g : Repair → Repair) : (s.onRepair g).out = s.out := rfl
@[simp] theorem State.onRepair_free (s : State) (g : Repair → Repair) : (s.onRepair g).free = s.free := rfl

@[simp] theorem State.onLine_pending (s : State) (r : Nat) (g : RingLine → RingLine) : (s.onLine r g).pending = s.pending := rfl
@[simp] theorem State.onLine_regs (s : State) (r : Nat) (g : RingLine → RingLine) : (s.onLine r g).regs = s.regs := rfl
@[simp] theorem State.onLine_mem (s : State) (r : Nat) (g : RingLine → RingLine) : (s.onLine r g).mem = s.mem := rfl
@[simp] theorem State.onLine_frames (s : State) (r : Nat) (g : RingLine → RingLine) : (s.onLine r g).frames = s.frames := rfl
@[simp] theorem State.onLine_isl (s : State) (r : Nat) (g : RingLine → RingLine) : (s.onLine r g).isl = s.isl := rfl
@[simp] theorem State.onLine_lanes (s : State) (r : Nat) (g : RingLine → RingLine) : (s.onLine r g).lanes = s.lanes := rfl
@[simp] theorem State.onLine_msps (s : State) (r : Nat) (g : RingLine → RingLine) : (s.onLine r g).msps = s.msps := rfl
@[simp] theorem State.onLine_seqs (s : State) (r : Nat) (g : RingLine → RingLine) : (s.onLine r g).seqs = s.seqs := rfl
@[simp] theorem State.onLine_parts (s : State) (r : Nat) (g : RingLine → RingLine) : (s.onLine r g).parts = s.parts := rfl
@[simp] theorem State.onLine_dmas (s : State) (r : Nat) (g : RingLine → RingLine) : (s.onLine r g).dmas = s.dmas := rfl
@[simp] theorem State.onLine_tlb (s : State) (r : Nat) (g : RingLine → RingLine) : (s.onLine r g).tlb = s.tlb := rfl
@[simp] theorem State.onLine_units (s : State) (r : Nat) (g : RingLine → RingLine) : (s.onLine r g).units = s.units := rfl
@[simp] theorem State.onLine_fat (s : State) (r : Nat) (g : RingLine → RingLine) : (s.onLine r g).fat = s.fat := rfl
@[simp] theorem State.onLine_feParts (s : State) (r : Nat) (g : RingLine → RingLine) : (s.onLine r g).feParts = s.feParts := rfl
@[simp] theorem State.onLine_fe (s : State) (r : Nat) (g : RingLine → RingLine) : (s.onLine r g).fe = s.fe := rfl
@[simp] theorem State.onLine_aev (s : State) (r : Nat) (g : RingLine → RingLine) : (s.onLine r g).aev = s.aev := rfl
@[simp] theorem State.onLine_log (s : State) (r : Nat) (g : RingLine → RingLine) : (s.onLine r g).log = s.log := rfl
@[simp] theorem State.onLine_logSeq (s : State) (r : Nat) (g : RingLine → RingLine) : (s.onLine r g).logSeq = s.logSeq := rfl
@[simp] theorem State.onLine_logFull (s : State) (r : Nat) (g : RingLine → RingLine) : (s.onLine r g).logFull = s.logFull := rfl
@[simp] theorem State.onLine_storm (s : State) (r : Nat) (g : RingLine → RingLine) : (s.onLine r g).storm = s.storm := rfl
@[simp] theorem State.onLine_handling (s : State) (r : Nat) (g : RingLine → RingLine) : (s.onLine r g).handling = s.handling := rfl
@[simp] theorem State.onLine_msixOn (s : State) (r : Nat) (g : RingLine → RingLine) : (s.onLine r g).msixOn = s.msixOn := rfl
@[simp] theorem State.onLine_msixPend (s : State) (r : Nat) (g : RingLine → RingLine) : (s.onLine r g).msixPend = s.msixPend := rfl
@[simp] theorem State.onLine_cfg (s : State) (r : Nat) (g : RingLine → RingLine) : (s.onLine r g).cfg = s.cfg := rfl
@[simp] theorem State.onLine_jobs (s : State) (r : Nat) (g : RingLine → RingLine) : (s.onLine r g).jobs = s.jobs := rfl
@[simp] theorem State.onLine_mbx (s : State) (r : Nat) (g : RingLine → RingLine) : (s.onLine r g).mbx = s.mbx := rfl
@[simp] theorem State.onLine_sys (s : State) (r : Nat) (g : RingLine → RingLine) : (s.onLine r g).sys = s.sys := rfl
@[simp] theorem State.onLine_out (s : State) (r : Nat) (g : RingLine → RingLine) : (s.onLine r g).out = s.out := rfl
@[simp] theorem State.onLine_free (s : State) (r : Nat) (g : RingLine → RingLine) : (s.onLine r g).free = s.free := rfl

end Sys2Proof.Machine
end

