-- ==== Sys2Proof/Laws/Regs.lean ====
section
/-!
SUPPORT. Laws/Regs.lean: reads of registers and fields after writes of them, and of the parts of the state after updates of the others.
-/
namespace Sys2Proof.Machine

/-! ### Registers -/

@[simp] theorem State.rd_wr (s : State) (k k' : Nat) (v : Word) : (s.wr k v).rd k' = if k' = k then v else s.rd k' := by
  simp [State.rd, State.wr]

theorem State.rd_setF (s : State) (x : RF) (n k : Nat) : (s.setF x n).rd k = if k = x.key then setBits (s.rd x.key) x.hi x.lo n else s.rd k := by
  simp [State.setF]

/-- A register read depends on the registers alone. -/
theorem State.rd_congr {s t : State} (h : t.regs = s.regs) (k : Nat) : t.rd k = s.rd k := by simp [State.rd, h]

theorem State.f_congr {s t : State} (h : t.regs = s.regs) (x : RF) : t.f x = s.f x := by simp [State.f, State.rd_congr h]

theorem State.on_congr {s t : State} (h : t.regs = s.regs) (x : RF) : t.on x = s.on x := by simp [State.on, State.f_congr h]

/-- A field of another register keeps its value. -/
theorem State.f_setF_other (s : State) (x y : RF) (n : Nat) (h : y.key ≠ x.key) : (s.setF x n).f y = s.f y := by
  simp [State.f, State.rd_setF, h]

theorem setBits_bit (v : Word) (hi lo n i : Nat) (hl : lo ≤ hi) (hh : hi < 64) (hi' : i < 64) :
    (setBits v hi lo n).getLsbD i = if lo ≤ i ∧ i ≤ hi then n.testBit (i - lo) else v.getLsbD i := by
  have hm : (BitVec.ofNat 64 ((2 ^ (hi + 1 - lo) - 1) * 2 ^ lo)).getLsbD i = decide (lo ≤ i ∧ i ≤ hi) := by
    simp only [BitVec.getLsbD_ofNat, hi', decide_true, Bool.true_and]
    rw [Nat.testBit_mul_two_pow]
    simp only [Nat.testBit_two_pow_sub_one]
    by_cases h : lo ≤ i
    · have : (i - lo < hi + 1 - lo) ↔ i ≤ hi := by omega
      simp [h, this]
    · simp [h]
  have hn : (BitVec.ofNat 64 (n % 2 ^ (hi + 1 - lo) * 2 ^ lo)).getLsbD i = (decide (lo ≤ i ∧ i ≤ hi) && n.testBit (i - lo)) := by
    simp only [BitVec.getLsbD_ofNat, hi', decide_true, Bool.true_and]
    rw [Nat.testBit_mul_two_pow, Nat.testBit_mod_two_pow]
    by_cases h : lo ≤ i
    · have : (i - lo < hi + 1 - lo) ↔ i ≤ hi := by omega
      simp [h, this]
    · simp [h]
  simp only [setBits, BitVec.getLsbD_or, BitVec.getLsbD_and, BitVec.getLsbD_not, hm, hn, hi', decide_true, Bool.true_and]
  by_cases h : lo ≤ i ∧ i ≤ hi <;> simp [h]

theorem getBits_testBit (v : Word) (hi lo i : Nat) : (getBits v hi lo).testBit i = (decide (i < hi + 1 - lo) && v.getLsbD (lo + i)) := by
  simp only [getBits, bitsOf, Nat.testBit_mod_two_pow, Nat.testBit_div_two_pow, BitVec.getLsbD]
  rw [Nat.add_comm i lo]

/-- The written field reads the low bits of what was written. -/
theorem getBits_setBits_same (v : Word) (hi lo n : Nat) (hl : lo ≤ hi) (hh : hi < 64) : getBits (setBits v hi lo n) hi lo = n % 2 ^ (hi + 1 - lo) := by
  apply Nat.eq_of_testBit_eq
  intro i
  rw [getBits_testBit, Nat.testBit_mod_two_pow]
  by_cases h : i < hi + 1 - lo
  · rw [setBits_bit _ _ _ _ _ hl hh (by omega)]
    have h1 : lo ≤ lo + i ∧ lo + i ≤ hi := by omega
    simp [h, h1]
  · simp [h]

/-- Fields of one register that share no bit do not touch each other. -/
theorem getBits_setBits_apart (v : Word) (hi lo n hi' lo' : Nat) (hl : lo ≤ hi) (hh : hi < 64) (hh' : hi' < 64) (hd : hi < lo' ∨ hi' < lo) :
    getBits (setBits v hi lo n) hi' lo' = getBits v hi' lo' := by
  apply Nat.eq_of_testBit_eq
  intro i
  rw [getBits_testBit, getBits_testBit]
  by_cases h : i < hi' + 1 - lo'
  · rw [setBits_bit _ _ _ _ _ hl hh (by omega)]
    have h1 : ¬ (lo ≤ lo' + i ∧ lo' + i ≤ hi) := by omega
    simp [h1]
  · simp [h]

/-- A field reads the low bits of what was written to it. -/
theorem State.f_setF_same (s : State) (x : RF) (n : Nat) (hl : x.lo ≤ x.hi) (hh : x.hi < 64) : (s.setF x n).f x = n % 2 ^ (x.hi + 1 - x.lo) := by
  simp [State.f, State.rd_setF, getBits_setBits_same, hl, hh]

/-- A field that shares no bit with the one written keeps its value. -/
theorem State.f_setF_apart (s : State) (x y : RF) (n : Nat) (hl : x.lo ≤ x.hi) (hh : x.hi < 64) (hy : y.hi < 64)
    (hd : y.key ≠ x.key ∨ x.hi < y.lo ∨ y.hi < x.lo) : (s.setF x n).f y = s.f y := by
  by_cases hk : y.key = x.key
  · have hd' : x.hi < y.lo ∨ y.hi < x.lo := by
      rcases hd with h | h
      · exact absurd hk h
      · exact h
    simp [State.f, State.rd_setF, hk, getBits_setBits_apart, hl, hh, hy, hd']
  · exact State.f_setF_other s x y n hk

/-! ### The other parts -/

@[simp] theorem State.getIsl_setIsl (s : State) (i j : Nat) (x : Isl) : (s.setIsl i x).getIsl j = if j = i then x else s.getIsl j := by simp [State.getIsl, State.setIsl]
@[simp] theorem State.getIsl_onIsl (s : State) (i j : Nat) (g : Isl → Isl) : (s.onIsl i g).getIsl j = if j = i then g (s.getIsl i) else s.getIsl j := by simp [State.onIsl]
@[simp] theorem State.getLane_setLane (s : State) (i j : Nat) (x : Lane) : (s.setLane i x).getLane j = if j = i then x else s.getLane j := by simp [State.getLane, State.setLane]
@[simp] theorem State.getLane_onLane (s : State) (i j : Nat) (g : Lane → Lane) : (s.onLane i g).getLane j = if j = i then g (s.getLane i) else s.getLane j := by
  simp [State.onLane]
@[simp] theorem State.getSeq_setSeq (s : State) (i j : Nat) (x : Seq) : (s.setSeq i x).getSeq j = if j = i then x else s.getSeq j := by simp [State.getSeq, State.setSeq]
@[simp] theorem State.getSeq_onSeq (s : State) (i j : Nat) (g : Seq → Seq) : (s.onSeq i g).getSeq j = if j = i then g (s.getSeq i) else s.getSeq j := by simp [State.onSeq]
@[simp] theorem State.getCh_setCh (s : State) (i j : Nat) (x : Chan) : (s.setCh i x).getCh j = if j = i then x else s.getCh j := by simp [State.getCh, State.setCh]
@[simp] theorem State.getUnit_setUnit (s : State) (i j : Nat) (x : FUnit) : (s.setUnit i x).getUnit j = if j = i then x else s.getUnit j := by
  simp [State.getUnit, State.setUnit]
@[simp] theorem State.getFe_setFe (s : State) (i j : Nat) (x : FePart) : (s.setFe i x).getFe j = if j = i then x else s.getFe j := by simp [State.getFe, State.setFe]
@[simp] theorem State.getPart_setPart (s : State) (i j : Nat) (x : Part) : (s.setPart i x).getPart j = if j = i then x else s.getPart j := by
  simp [State.getPart, State.setPart]
@[simp] theorem State.getMsp_setMsp (s : State) (p k q j : Nat) (x : Msp) (hk : k < 16) (hj : j < 16) :
    (s.setMsp p k x).getMsp q j = if q = p ∧ j = k then x else s.getMsp q j := by
  simp only [State.getMsp, State.setMsp, Map.getD_set]
  congr 1
  apply propext
  constructor <;> intro h <;> omega

end Sys2Proof.Machine
end

