-- ==== Sys2Proof/Laws/Kretas.lean ====
section
/-!
SUPPORT. Laws/Kretas.lean: what the issue of an instruction does when its sequencer is ready (`Safety.Ready`).
-/
namespace Sys2Proof.Machine
open Sys2Proof.Safety

theorem Map.set_set {α : Type} (m : Map α) (k : Nat) (v w : α) : Map.set (Map.set m k v) k w = Map.set m k w := by
  induction m with
  | nil => simp [Map.set]
  | cons e m ih =>
    obtain ⟨a, b⟩ := e
    simp only [Map.set]
    split
    · simp [Map.set]
    · split
      · simp [Map.set]
      · simp [Map.set, *]

@[simp] theorem State.setSeq_setSeq (s : State) (n : Nat) (x y : Seq) : (s.setSeq n x).setSeq n y = s.setSeq n y := by
  simp [State.setSeq, Map.set_set]

/-- A change of a sequencer's core touches no register. -/
@[simp] theorem State.f_setSeq (s : State) (n : Nat) (x : Seq) (y : RF) : (s.setSeq n x).f y = s.f y := rfl

@[simp] theorem State.primary_setSeq (s : State) (n : Nat) (x : Seq) (p : Nat) : (s.setSeq n x).primary p = s.primary p := rfl

@[simp] theorem State.primaryOf_setSeq (s : State) (n m : Nat) (x : Seq) : (s.setSeq n x).primaryOf m = s.primaryOf m := rfl

@[simp] theorem Seq.reg_zero (x : Seq) : x.reg 0 = 0 := by simp [Seq.reg, Seq.place, Seq.atPlace]

/-- A write of g0 is discarded. -/
@[simp] theorem Seq.put_zero (x : Seq) (v : Word) : x.put 0 v = x := by simp [Seq.put, Seq.place, Seq.putPlace]

/-- Writing a register touches nothing but the register file, and the outstanding loads of that register and the waits for them. -/
theorem Seq.put_frame (x : Seq) (k : Nat) (v : Word) : x.put k v = { x with r := (x.put k v).r, loads := (x.put k v).loads, soon := (x.put k v).soon } := by
  unfold Seq.put Seq.putPlace; split <;> rfl

theorem Seq.put_loads (x : Seq) (k : Nat) (v : Word) (h : x.loads = []) : (x.put k v).loads = [] := by
  unfold Seq.put Seq.putPlace; split <;> simp [h]

theorem Seq.put_soon (x : Seq) (k : Nat) (v : Word) : ∀ e ∈ (x.put k v).soon, e ∈ x.soon := by
  unfold Seq.put Seq.putPlace; split
  · exact fun _ h => h
  · intro e h; exact (List.mem_filter.mp h).1

theorem Seq.put_st (x : Seq) (k : Nat) (v : Word) : (x.put k v).st = x.st := by unfold Seq.put Seq.putPlace; split <;> rfl
theorem Seq.put_status (x : Seq) (k : Nat) (v : Word) : (x.put k v).status = x.status := by unfold Seq.put Seq.putPlace; split <;> rfl
theorem Seq.put_macs (x : Seq) (k : Nat) (v : Word) : (x.put k v).macs = x.macs := by unfold Seq.put Seq.putPlace; split <;> rfl
theorem Seq.put_pc (x : Seq) (k : Nat) (v : Word) : (x.put k v).pc = x.pc := by unfold Seq.put Seq.putPlace; split <;> rfl
theorem Seq.put_cycle (x : Seq) (k : Nat) (v : Word) : (x.put k v).cycle = x.cycle := by unfold Seq.put Seq.putPlace; split <;> rfl
theorem Seq.put_stepping (x : Seq) (k : Nat) (v : Word) : (x.put k v).stepping = x.stepping := by unfold Seq.put Seq.putPlace; split <;> rfl

/-- Cycles pass without products in flight. -/
theorem Seq.pass_empty (x : Seq) (c : Nat) (h : x.macs = []) : x.pass c = { x with cycle := (x.cycle + c) % 2 ^ 64 } := by
  simp only [Seq.pass, Seq.drainMacs, h]
  obtain ⟨⟩ := x
  simp_all

/-- Cycles that end before the first product in flight is due. -/
theorem Seq.pass_before (x : Seq) (c : Nat) (h : ∀ m ∈ x.macs, x.cycle + c - 1 < m.due) : x.pass c = { x with cycle := (x.cycle + c) % 2 ^ 64 } := by
  have h1 : x.macs.filter (fun m => decide (m.due ≤ x.cycle + c - 1)) = [] := by
    rw [List.filter_eq_nil_iff]; intro m hm; have := h m hm; simp; omega
  have h2 : x.macs.filter (fun m => decide (x.cycle + c - 1 < m.due)) = x.macs := by
    rw [List.filter_eq_self]; intro m hm; simpa using h m hm
  simp only [Seq.pass, Seq.drainMacs, h1, h2, List.foldl_nil]

/-- The address after an instruction outside a loop. -/
theorem Seq.advance_plain (x : Seq) (h : x.sb stLA = false) : x.advance = { x with pc := (x.pc + 4) % 2 ^ 48 } := by
  simp [Seq.advance, h]

/-- The partition of a running sequencer stays as it is. -/
theorem partFollows_running (n : Nat) (s : State) (h : (s.getSeq n).st = 2)
    (hp : ∀ p, s.primaryOf n = some p → s.f (GLB_PART_CFG.STATE p) = stRUNNING) : partFollows n s = s := by
  unfold partFollows
  split
  · rfl
  · rename_i p hpp
    have := hp p hpp
    simp [this, h, stSTOPPED, stRUNNING]

/-- A pipeline whose loads can all be used does not interlock. -/
theorem Seq.interlock_none (x : Seq) (ps : List Nat) (h : ∀ e ∈ x.soon, e.2 ≤ x.cycle) : x.interlock ps = 0 := by
  have : ∀ l : List (Nat × Nat), (∀ e ∈ l, e.2 ≤ x.cycle) → l.foldl (fun a p => if ps.contains p.1 then max a (p.2 - x.cycle) else a) 0 = 0 := by
    intro l
    induction l with
    | nil => intro _; rfl
    | cons e l ih =>
      intro hl
      have he : e.2 - x.cycle = 0 := Nat.sub_eq_zero_of_le (hl e (List.mem_cons_self ..))
      simpa [List.foldl_cons, he] using ih (fun d hd => hl d (List.mem_cons_of_mem _ hd))
  exact this x.soon h

/-- At a ready sequencer no abandoned load is executed again. -/
theorem relaunch_ready {n : Nat} {s : State} (h : Ready n s) (g : State → State) : relaunch n g s = g s := by
  simp [relaunch, h.noAgain]

/-- At a ready sequencer nothing comes before the instruction. -/
theorem atBoundary_ready {n : Nat} {s : State} (h : Ready n s) (g : State → State) : atBoundary n g s = g s := by
  have hc : takeCheck n s = s := by simp [takeCheck, h.noCheck, h.noDoze]
  have he : (if (s.getSeq n).holds then none else (s.getSeq n).held) = none := by
    rcases h.noError with e | e <;> simp [e]
  simp [atBoundary, h.running, hc, he, h.noIrq]

/-- A ready sequencer fetches the word of the block it holds, and the fetch changes nothing. -/
theorem kFetch_ready {n : Nat} {s : State} (h : Ready n s) : ∃ w, kFetch n (s.getSeq n).pc s = (.ok w true, s) := by
  have hw : inWindow (s.getSeq n).pc = true := by simp [inWindow, h.window]
  have hr : route n (s.getSeq n).pc 3 s = (.local (s.getSeq n).pc, s) := by simp [route, hw, h.allowed]
  have hb : (s.getSeq n).inBody (s.getSeq n).pc = false := by simp [Seq.inBody, h.noLoop]
  obtain ⟨b, hh⟩ := Option.isSome_iff_exists.mp h.held
  exact ⟨_, by simp [kFetch, hb, hr, hh]; rfl⟩

/-- A ready sequencer issues the instruction of the command. -/
theorem issue_ready {n : Nat} {s : State} (h : Ready n s) (k : KIns) : issue n k s = runOnce n k s := by
  have h1 : s.issues n = true := by simp [State.issues, h.running]
  obtain ⟨w, h2⟩ := kFetch_ready h
  have h3 : landLoads n k.srcs s = s := by simp [landLoads, landRegs, Seq.interlock_none _ _ h.noWait, h.noLoad]
  simp [issue, h1, atBoundary_ready h, relaunch_ready h, h2, issueFetched, h3, h.noRepeat]

/-- An instruction completed by a running sequencer. -/
theorem finish_running (n c : Nat) (s : State) (x : Seq) (hst : x.st = 2) (hrun : s.f (SEQ_CTL.RUN n) = 1) (hstep : x.stepping = false)
    (hm : ∀ m ∈ x.macs, x.cycle + c - 1 < m.due)
    (hp : ∀ p, s.primaryOf n = some p → s.f (GLB_PART_CFG.STATE p) = stRUNNING) :
    finish n c (s.setSeq n x) = s.setSeq n { x with cycle := (x.cycle + c) % 2 ^ 64 } := by
  simp only [finish, State.getSeq_setSeq, if_true, Seq.pass_before x c hm, State.f_setSeq, hrun]
  simp only [hst, hstep, Bool.false_and, Nat.one_ne_zero, false_and, and_false, if_false, State.setSeq_setSeq]
  rw [partFollows_running]
  · simp [hst]
  · simpa using hp

/-- What an instruction does that completes at a ready sequencer, without loop or repeat: its effect on the core, the next address, and its cycles. -/
theorem issue_ok {n : Nat} {s : State} (h : Ready n s) (k : KIns) (x : Seq) (hb : k.body n s = .ok (s.setSeq n x)) (ha : k.after = fun _ s => s)
    (hst : x.st = 2) (hstep : x.stepping = false) (hla : x.sb stLA = false) (hm : ∀ m ∈ x.macs, x.cycle + k.cycles - 1 < m.due) :
    issue n k s = s.setSeq n { x with pc := (x.pc + 4) % 2 ^ 48, cycle := (x.cycle + k.cycles) % 2 ^ 64 } := by
  rw [issue_ready h]
  simp only [runOnce, hb, ha, State.onSeq, State.getSeq_setSeq, if_true, State.setSeq_setSeq, Seq.advance_plain x hla]
  exact finish_running n k.cycles s _ hst h.run hstep hm h.partRuns

/-- An instruction that writes one register. -/
theorem issue_put {n : Nat} {s : State} (h : Ready n s) (k : KIns) (d : Nat) (v : Word) (hb : k.body n s = .ok (s.kput n d v)) (ha : k.after = fun _ s => s) :
    issue n k s = retire n d v k.cycles s := by
  rw [issue_ok h k ((s.getSeq n).put d v) hb ha]
  · simp only [retire, stepTo, nextPc, State.onSeq, Seq.put_pc, Seq.put_cycle]
  · simp [Seq.put_st, h.running]
  · simp [Seq.put_stepping, h.noStep]
  · have := h.noLoop; simp only [Seq.sb] at this; simp [Seq.sb, Seq.put_status, this]
  · simp [Seq.put_macs, h.noProduct]

/-- What a wait for a later result touches. -/
theorem Seq.usedFrom_soon (x : Seq) (p lat : Nat) : x.usedFrom p lat = { x with soon := (x.usedFrom p lat).soon } := by
  unfold Seq.usedFrom; split <;> rfl

/-- An instruction that writes one register whose value arrives later. -/
theorem issue_later {n : Nat} {s : State} (h : Ready n s) (k : KIns) (d : Nat) (v : Word) (lat : Nat)
    (hb : k.body n s = .ok (s.setSeq n (((s.getSeq n).put d v).usedFrom ((s.getSeq n).place d) lat))) (ha : k.after = fun _ s => s) (hc : k.cycles = 1) :
    issue n k s = retireLater n d v lat s := by
  rw [issue_ok h k _ hb ha]
  · rw [Seq.usedFrom_soon]; simp only [retireLater, stepTo, nextPc, State.onSeq, hc, Seq.put_pc, Seq.put_cycle]; rw [Seq.usedFrom_soon]
  · rw [Seq.usedFrom_soon]; simp [Seq.put_st, h.running]
  · rw [Seq.usedFrom_soon]; simp [Seq.put_stepping, h.noStep]
  · rw [Seq.usedFrom_soon]; have := h.noLoop; simp only [Seq.sb] at this; simp [Seq.sb, Seq.put_status, this]
  · rw [Seq.usedFrom_soon]; simp [Seq.put_macs, h.noProduct]

/-- An instruction that transfers control. -/
theorem issue_jump {n : Nat} {s : State} (h : Ready n s) (k : KIns) (t : Nat) (x : Seq) (hb : k.body n s = .jump t (s.setSeq n x)) (ha : k.after = fun _ s => s)
    (hst : x.st = 2) (hstep : x.stepping = false) (hm : ∀ m ∈ x.macs, x.cycle + k.cycles - 1 < m.due) :
    issue n k s = s.setSeq n { x with pc := t % 2 ^ 48, cycle := (x.cycle + k.cycles) % 2 ^ 64 } := by
  rw [issue_ready h]
  simp only [runOnce, hb, ha, State.onSeq, State.getSeq_setSeq, if_true, State.setSeq_setSeq]
  exact finish_running n k.cycles s _ hst h.run hstep hm h.partRuns

/-- An exception of an instruction at a ready sequencer. -/
theorem issue_trap {n : Nat} {s : State} (h : Ready n s) (k : KIns) (c a va : Nat) (t : State) (hb : k.body n s = .trap c a va t) :
    issue n k s = raiseAt n k.word.toNat c a va (t.getSeq n).pc t := by
  rw [issue_ready h]; simp [runOnce, hb]

end Sys2Proof.Machine
end

