-- ==== Sys2Proof/Tests/Slice0.lean ====
section
/-!
SUPPORT. Tests/Slice0.lean: the tests of the model. First the checks of well-formedness, the words of the specification's own
examples and the first start-up step; then, for every statement of Certificates/Slice0/Obligations.lean that has hypotheses,
named theorems `meets_<statement>` that show states and operands which meet the hypotheses of its clauses.
-/
set_option maxRecDepth 100000
namespace Sys2Proof.Tests
open Sys2Proof.Machine Sys2Proof.Safety
set_option Elab.async false
set_option linter.unusedTactic false
set_option linter.unreachableTactic false


/-- Fields set one after another. -/
def put (xs : List (RF × Nat)) (s : State) : State := xs.foldl (fun s x => s.setF x.1 x.2) s
/-- The module's own state set. -/
def onSys (g : Sys → Sys) (s : State) : State := { s with sys := g s.sys }
/-- A partition 0 of two rows that runs, with sequencer 0 as its primary, running at word 0 of its bank. -/
def base : State :=
  put [(GLB_PART_CFG.EN 0, 1), (GLB_PART_CFG.STATE 0, 3), (GLB_PART_CFG.NROWS 0, 2), (GLB_PART_SEQ.MASK 0, 15), (GLB_ROW_MAP.OWNER 0, 0), (GLB_ROW_MAP.OWNER 1, 0),
    (SEQ_CTL.RUN 0, 1), (CLK_STAB0.SEQ, 15), (RST_STAT.SVC, 2), (HL_STAT.WIDTH 0, 16)] (onSys (fun y => { y with stage := 2 }) (State.reset.setSeq 0 { Seq.reset 2 0 with blocks := [(0, 0)] }))
theorem ready_of {n : Nat} {s : State} (h : ((s.getSeq n).st = 2 ∧ s.f (SEQ_CTL.RUN n) = 1 ∧ (s.getSeq n).stepping = false ∧ (s.getSeq n).sb stRP = false ∧ (s.getSeq n).sb stLA = false ∧
    (s.getSeq n).macs = [] ∧ (s.getSeq n).loads = [] ∧ (s.getSeq n).pc < 0x10_0000) ∧ s.lwAllows n (s.getSeq n).pc false = true ∧
    (Map.find (s.getSeq n).blocks (fetchBlock false (s.getSeq n).pc)).isSome = true ∧ (s.getSeq n).soon.all (fun e => decide (e.2 ≤ (s.getSeq n).cycle)) = true ∧
    (s.getSeq n).mcheck = none ∧ s.dozes n = false ∧ (s.getSeq n).again = [] ∧ ((s.getSeq n).holds = true ∨ (s.getSeq n).held = none) ∧ s.irqTaken n = none ∧
    (s.primaryOf n).all (fun p => s.f (GLB_PART_CFG.STATE p) == stRUNNING) = true) : Ready n s := by
  obtain ⟨⟨a, b, c, d, e, f, g, i⟩, j, k, w, x, v, u, y, z, l⟩ := h
  exact ⟨a, b, c, d, e, f, g, i, j, k, fun e he => by simpa using List.all_eq_true.mp w e he, x, v, y, z, u, fun p hp => by rw [hp] at l; simpa using l⟩
theorem nearBlock_of {n : Nat} {s : State} (h : (s.getSeq n).blocks = [] ∧ (s.getSeq n).pc < 0x10_0000 ∧ s.lwAllows n (s.getSeq n).pc false = true ∧
    ∀ k, k < 4 → s.ecc (bankBase n + (s.getSeq n).pc / 32 * 32 + 8 * k) = 0) : NearBlock n s :=
  ⟨h.1, h.2.1, h.2.2.1, h.2.2.2⟩
theorem executes_of {code f : Nat} {d : Desc} {k : Nat} {j : Job} {s : State} (h : s.jobOf f d = some (k, j) ∧ d.code.toNat = code ∧ j.started = false ∧ s.jobFree k j = true ∧
    s.firmOn = true ∧ s.early j = none ∧ j.sets = [] ∧ (code = 0x06 ∨ s.jobKind j ≠ 1 ∨ s.f (PWR_PART.CUR d.part.toNat) = 0)) : Executes code f d k j s := by
  obtain ⟨a, b, c, d, e, f, g, i⟩ := h
  exact ⟨a, b, c, d, e, f, g, i⟩
theorem cplReady_of {f : Nat} {s : State} (h : s.mbxReady f = true ∧ s.f (MBX_CTL.EN f) = 1 ∧ s.cqRoom f = true ∧ (s.getMbx f).wait = [] ∧
    (s.f (MBX_CTL.VEC f) < if f = 0 then 512 else 128) ∧ ∀ g, g < 13 → s.f (MBX_SQT.PTR g) = s.f (MBX_SQH.PTR g)) : CplReady f s :=
  ⟨h.1, h.2.1, h.2.2.1, h.2.2.2.1, h.2.2.2.2.1, h.2.2.2.2.2⟩
theorem memOk_of {s : State} (h : Memory.wf s.mem = true) : MemOk s := h
theorem any_some {α : Type} {o : Option α} {P : α → Prop} [DecidablePred P] (h : o.any (fun p => decide (P p)) = true) : ∃ p, o = some p ∧ P p := by
  cases o with
  | none => simp at h
  | some a => exact ⟨a, rfl, by simpa using h⟩
/-! WellFormed: an ill-formed command for each check. The size 3, the size 16, and an offset off the size's boundary are no accesses. -/

theorem test_islandRead_misaligned : (Instr.islandMemoryAccess 0 (.read 2 4) false).wf = false := by decide
theorem test_islandWrite_size : (Instr.islandMemoryAccess 0 (.write 0 3 0 0 false) false).wf = false := by decide
theorem test_bankRead_misaligned : (Instr.sequencerBankAccess 0 (.read 4 8) false).wf = false := by decide
theorem test_bankWrite_size : (Instr.sequencerBankAccess 0 (.write 0 0 0) false).wf = false := by decide
theorem test_apertureRead_misaligned : (Instr.apertureAccess 0 (.read 1 2)).wf = false := by decide
theorem test_apertureWrite_size : (Instr.apertureAccess 0 (.write 0 5 0 false)).wf = false := by decide
theorem test_registerWrite_misaligned : (Instr.registerWrite 0 false 2 false 0).wf = false := by decide
theorem test_wideRegisterWrite_misaligned : (Instr.registerWrite 0 false 4 true 0).wf = false := by decide
theorem test_registerWrite_aligned : (Instr.registerWrite 0 false 4 false 0).wf = true := by decide

/-! The words that the specification works out in its own examples of encodings (08_kretas_instructions.md, the table under "Examples"). -/

theorem test_word_dmac : insOf 0xE00428C0 = some (kMac 3 4 5 0) := rfl
theorem test_word_dld : insOf 0x78852518 = some (kDld 4 5 1 1 2 1 true) := rfl
theorem test_word_exts : insOf 0xE100024F = some (kExt 9 8 0 15) := rfl
theorem test_word_loop : insOf 0xDC600004 = some (kLoop 3 4) := rfl
theorem test_word_moult : insOf 0xC4644000 = some (kMoult 3 4 4 0 false) := rfl

/-! The first step of start-up (R437): with VIN valid the always-on domain starts and waits for its trim. -/

theorem test_powerOn : (match exec (.powerOn true) State.reset with
    | .next t => t.sys.vin && t.sys.stage == 1 && t.f RST_CAUSE.COLDSRC == 1
    | _ => false) = true := by decide +kernel
theorem test_powerOn_again : (match exec (.powerOn true) { State.reset with sys := { State.reset.sys with vin := true } } with
    | .next t => t.sys.stage == State.reset.sys.stage
    | _ => false) = true := by decide +kernel


/-! Parts of the algorithms of log entry 26, against the worked examples of their standards: the substitution box and one column of FIPS 197, the first constants
of FIPS 180-4, and the base point of curve P-384 on its curve. -/

theorem test_aes_box : [0x00, 0x53, 0xFF].map aesSub = [0x63, 0xED, 0x16] := by decide +kernel
theorem test_aes_columns : (aesMix ((List.range 4).flatMap (fun _ => [0xDB, 0x13, 0x53, 0x45]))).take 4 = [0x8E, 0x4D, 0xA1, 0xBC] := by decide +kernel
theorem test_sha_constants : rootBits 2 2 = 0x6A09E667F3BCC908 ∧ rootBits 3 2 = 0x428A2F98D728AE22 := by decide +kernel
theorem test_p384_base : p384Y * p384Y % p384P = (p384X * p384X * p384X + (p384P - 3) * p384X +
    0xB3312FA7E23EE7E4988E056BE3F82D19181D9C6EFE8141120314088F5013875AC656398D8A2ED19D2A85C8EDD3EC2AEF) % p384P := by decide +kernel

/-! The states that the witnesses use. -/

def open0 (s : State) : State := put [(MBX_STAT.READY 0, 1),(HL_STAT.WIDTH 0, 16),(CLK_STAB1.HL,1)] s
def PD : State := open0 (put [(GLB_PART_SEQ.MASK 2, 0x30),(GLB_PART_SEQ.PRIMARY 2, 4),(GLB_PART_SEQ.MASK 1, 0x38),(GLB_PART_SEQ.PRIMARY 1, 9)] base)
def PE (k : Nat) : State := put [(GLB_PART_CFG.STATE 0, k),(GLB_PART_SEQ.MASK 2, 0x31),(GLB_PART_SEQ.PRIMARY 2, 0)] PD
def PF : State := put [(GLB_PART_CFG.STATE 0, 2),(GLB_PART_CFG.VF 0, 2),(GLB_PART_CFG.STATE 1, 5)] PD
def open0_2 (s : State) : State := put [(MBX_STAT.READY 0, 1),(HL_STAT.WIDTH 0, 16),(CLK_STAB1.HL,1),(CLK_STAB1.DMA,1),(CLK_STAB1.CFG,1)] s
def RL : State := put [(CFG_POLICY.LOCK,1),(CFG_POLICY.LIVEEN,1),(ERR_CTL.STORM,0)] (open0_2 base)
def RV : State := put [(GLB_PART_CFG.VF 0,3),(HL_STAT.WIDTH 3, 16)] (open0_2 base)
def regs0 : Map Word := [(1, 0x8000000000000005), (2, 64), (3, 0xFFFFFFFFFFFFFFFF), (4, 0x100), (24, 0x1234), (25,7), (31, 0x44), (39, 0x48), (47, 0x50), (55,0x60), (63,0x70),(71,0x80),(79,0x90),(87,0xA0),(97, 0x3FF8000000000000), (98, 0xC000000000000000), (99,0x7FF8000000000000)]
def S1 : State := base.onSeq 0 (fun x => { x with r := regs0 })
def W0 : State := S1.onSeq 0 (fun x => { x with wcur := 0, wres := 0, wsp := 0x1000 })
def A2 : State := S1.onSeq 0 (fun x => { x with cycle := 2^70, lcnt := 3, lpc := 4, wcur := 9, wres := 9, wsp := 3, fpowner := 70 })
def A4 : State := S1.onSeq 0 (fun x => { x with status := BitVec.ofNat 64 (1 + 2^6 + 2^10), lost := [(0, [{ reg := 3, data := 7, va := 0, size := 8, sext := false, pc := 0, word := 0 }])], errs := [⟨5, 0⟩] })
def S2 : State := S1.onSeq 0 (fun x => { x with status := x.status ||| BitVec.ofNat 64 (2 ^ stFPEN), loads := [] })
def W3 : State := S1.onSeq 0 (fun x => { x with wcur := 3, wres := 3, wsp := 0x1000 })
def T1 : State := S1.onSeq 0 (fun x => { x with wcur := 3, wres := 2, wsp := 0x1000, status := 0x105 })
def W5 : State := S1.onSeq 0 (fun x => { x with wcur := 6, wres := 5, wsp := 0x1000 })
def R1 : State := { S1.onSeq 0 (fun x => { x with blocks := [(0, 0x04000000_08200001_00000000)] }) with mem := Memory.puts (Memory.puts S1.mem (bankBase 0 + 4) (bytesLE 4 0x08200001)) (bankBase 0 + 8) (bytesLE 4 0x04000000) }
def M1 : State := S1.onSeq 0 (fun x => { x with macs := [{ acc := 1, delta := 5, due := 2 }] })
def F4 : State := S2.onSeq 0 (fun x => { x with fcs := 0x20, r := [(1,0x1FFFFFFFFFFFFF),(96,0x3FE0000000000000),(97,0x7F800000),(98,0x7FC00000),(99,0x40490FDB)] })
def Z1 : State := base.onSeq 0 (fun x => { x with status := x.status ||| BitVec.ofNat 64 (2 ^ stFPEN), fcs := 0x60, r := [(97, 1082130432)] })
def F3 : State := S2.onSeq 0 (fun x => { x with fcs := 0x60 + 5, r := [(1,3),(2,0xFFFFFFFFFFFFFFF9),(96,0x7FF0000000000000),(97,0xC7F0000000000000),(98,0x43F0000000000000),(99,0x3F800000)] })
def CX (tag : Nat) (st : Nat) : State := let s := S1.onSeq 0 (fun x => { x with cxlink := 0x400, r := (2,0x800) :: (x.r.filter (·.1 != 2)), status := BitVec.ofNat 64 (0x85 + st) })
  { s with mem := Memory.puts (Memory.puts (Memory.puts (Memory.puts s.mem (bankBase 0 + 0x478) (bytesLE 8 tag)) (bankBase 0 + 0x400) (bytesLE 8 0xFFEEDDCCBBAA9988)) (bankBase 0 + 0x440) (bytesLE 8 0x1234567890)) (bankBase 0 + 0x460) (bytesLE 8 0x7FFFFFFFFFFFFFFF) }
def U1 : State := put [(SEQ_LWPROT.UWR 0, 0xFFFF), (SEQ_LWPROT.URD 0, 0xFFFF)] (S1.onSeq 0 (fun x => { x with status := 0 }))
def I1 : State := put [(SEQ_DBELL.PEND 0, 4), (SEQ_IRQ.EN 0, 15)] (S1.onSeq 0 (fun x => { x with status := 0x15, tvec := 0x4000 }))
def RT (epc pl : Nat) : State := S1.onSeq 0 (fun x => { x with status := BitVec.ofNat 64 (0x1F8 + 2^16 + 2^14 + 2^9 + pl), epc := epc })
def two : State := (put [(SEQ_CTL.RUN 1, 1), (SEQ_CTL.RUN 5, 1), (CLK_STAB0.SEQ, 0xFFFFFF)] S1).setSeq 1 ((S1.getSeq 0)) |>.setSeq 5 (S1.getSeq 0)
def G (v : Nat) : State := two.onSeq 0 (fun x => { x with r := (1, BitVec.ofNat 64 v) :: x.r.filter (·.1 != 1) })
def PQ : State := ((two.onSeq 1 (fun x => { x with params := [{ scope := 3, row := 0, col := 0, k := 3, value := 9 },{ scope := 3, row := 0, col := 0, k := 15, value := 9 }], moults := [{ row := 0, east := true, mask := 5, plane := 2, tag := 3 }] })).onSeq 0 (fun x => { x with moults := [{ row := 0, east := false, mask := 5, plane := 2, tag := 3 }] })).onIsl 0 (fun x => { x with inReset := false })
def DR : State := (S1.onIsl 0 (fun x => { x with frozen := true, q := 5 })).onSeq 0 (fun x => { x with r := [(1, 0xFFFFFF)] })
def AW : State := S1.onSeq 0 (fun x => { x with st := 3, wait := some { mask := 1, rd := 3, limit := 100 } })
def H1 (k : Nat) : State := two.onSeq 1 (fun x => { x with st := k, pc := 0x100 })
def H3 : State := let s := H1 1; { s with mem := Memory.puts s.mem (bankBase 1 + 0x100) (bytesLE 4 (0x02 * 2^26 + 3 * 2^21 + 1 * 2^16 + 5)) }
def H2 (k : Nat) : State := put [(GLB_PART_CFG.STATE 0, k + 1)] (two.onSeq 0 (fun x => { x with st := k, r := [(1,5)] }))
def E1 : State := put [(SEQ_AEV_PEND.PEND 0, 0xFFFFFF),(SEQ_AEV_SRC.VALID 0 3, 1),(SEQ_AEV_SRC.COUNT 0 3, 255),(SEQ_DBELL.PEND 0,2),(SEQ_BANK_ERR 1 |> whole,77),(SEQ_PFLAG.FAILS 0,1)] { two with aev := [⟨1,5,0,0,0⟩,⟨0,3,1,7,0⟩,⟨0,22,0,300,0⟩] }
def E2 : State := { (two.onIsl 13 (fun x => { x with ffDrive := true, inReset := false })) with aev := [⟨0,22,0,300,0⟩,⟨0,3,1,7,0⟩] }
def Q1 : State := { put [(SEQ_TIMER.EN 0, 1),(SEQ_TIMER.CMP 0, 1000),(SEQ_CTXID.CTXID 0, 5)] (two.onSeq 0 (fun x => { x with errs := [⟨5, 0x10000000⟩], dmaq := [{stream := true, port := 31, index := 63, ctx := 6},{stream := false, port := 0, index := 3, ctx := 5}] })) with sys := { two.sys with stage := 3 } }
def Q3 : State := put [(SEQ_CTXID.CTXID 0, 9)] (Q1.onSeq 0 (fun x => { x with errs := [⟨5, 0x10000000⟩, ⟨7, 0⟩], status := 0x115 }))
def Q2 : State := put [(SEQ_CTXID.CTXID 0, 6),(SEQ_MCHK.VALID 0,1)] (Q1.onSeq 0 (fun x => { x with errs := [⟨0x123456, 0x10000000⟩, ⟨7, 0⟩], status := 0x105 }))
def fr (i k lo w v : Nat) (s : State) : State := let n := s.fnum i k; s.setFrame i k { data := BitVec.ofNat 1024 (n - n / 2^lo % 2^w * 2^lo + v * 2^lo), crc := 0, faddr := 0 }
def isl0 : State := (base.onIsl 0 (fun x => { x with inReset := false })).onIsl 1 (fun x => { x with inReset := false })
def WU (op : Nat) (g : Wu → Wu) (od : Nat := 16 * 2^26 + 17 * 2^20) (marks : Nat := 0) : State :=
  (fr 0 1 3 3 marks (fr 0 0 (512 + 32) 32 op (fr 0 0 32 32 od isl0))).onWu 0 1 g
def dw (v : Nat) (st : Bool := false) (tg : Nat := 0) : AWord := AWord.mk false st (BitVec.ofNat 2 tg) (BitVec.ofNat 32 v)
def fire (op : Nat) (a b : AWord) (skip : Bool := false) (mb : Nat := 0) : Firing := { opw := BitVec.ofNat 32 op, mbase := BitVec.ofNat 16 mb, a := a, b := b, m := 0, s := false, skip := skip, tok := none }
def fs : List Firing := [fire 0x02000000 (dw 5 true 1) (dw 7 false 2), fire 0x02004000 (dw 0x80000000 false 1) (dw 0x80000000 false 2), fire 0x02008000 (dw 0x7FFFFFFF false 1) (dw 1 true 2), fire 0x0200C000 (dw 0xFFFFFFFF) (dw 1),
  fire 0x02000000 (dw 5 false 1) (dw 7) true, fire 0x02000080 (dw 5) (dw 7) true, fire 0x48000020 (dw 0xFFFFFFFF true) (dw 7), fire 0x48000020 (dw 0x80000000) (dw 0x80000000),fire 0x48000020 (dw 0x80000000) (dw 0x7FFFFFFF), fire 0x48000000 (dw 5) (dw 7), fire 0x50000000 (dw 5) (dw 7),
  fire 0x31000000 (dw 5) (dw 7) false 9, fire 0x31000100 (dw 5) (dw 7) false 65535, fire 0x60000100 (dw 6) 0 false 3, fire 0x60000000 (dw 0xFFFFFFFF) 0 false 65000]
def g0 : Firing := fire 0x02000000 (dw 1) (dw 2)
def pipes : List State := fs.flatMap (fun f => [WU 0x02000000 (fun w => { w with pipe := [f] }), WU 0x02000000 (fun w => { w with pipe := [f, g0], acc := BitVec.ofInt 72 (2^71-1), poison := true }),
  WU 0x02000000 (fun w => { w with pipe := [f], acc := BitVec.ofInt 72 (-2^71) })])
def memd (s : State) : State := { s with mem := Memory.puts (Memory.puts (Memory.puts s.mem (islMemBase 0 + 32) (bytesLE 32 0x112233445566778899AABBCCDDEEFF)) (islMemBase 0 + 24) (bytesLE 4 0xFFFFFFFF)) (islMemBase 0 + (65000+4095)%65536*4) (bytesLE 4 0xFFFFFFFF) }
def T (k : Nat) (p : Nat := 5) : AWord := mkTok k p
def ops : List Nat := [0x02000000, 0x02000001, 0x58000000, 0x58000101, 0x5C000000, 0x5C000100, 0x5D000001, 0x5D000100, 0x48000040, 0x48010060, 0x48010041, 0x48000460,0x20000000,0x20000001]
def gs : List (Wu → Wu) := [(fun w => { w with a := [T 2, dw 1], b := [dw 3] }), (fun w => { w with a := [dw 9], b := [T 4] }), (fun w => { w with a := [T 3], b := [T 3] }), (fun w => { w with a := [T 2], b := [T 4] }),
 (fun w => { w with a := [T 5, dw 4], b := [dw 3, dw 4, T 2, dw 6] }), (fun w => { w with a := [dw 4], b := [T 5] }), (fun w => { w with a := [T 5], b := [T 5], m := [T 5] }), (fun w => { w with a := [T 2], b := [T 2], m := [T 2] }),
 (fun w => { w with a := [T 4], b := [T 4], acc := BitVec.ofInt 72 (2^71-1), best := 77, index := 5, pos := 9, posStop := true, bexp := 7, blkSt := true, poison := true }), (fun w => { w with a := [T 2], b := [T 2], acc := BitVec.ofInt 72 (-2^40), best := 77, index := 5, bexp := 7, blkSt := false, pinned := true }),
 (fun w => { w with a := [T 2], b := [T 2], acc := 0x12345, best := 0xFFFFFFFF, index := 0xFFFFFFFF, bexp := 0 })]
def gm : List (Wu → Wu) := [(fun w => { w with a := [T 1 3], b := [T 1 4] }), (fun w => { w with a := [T 1 3, dw 3], b := [T 1 3], pipe := [fire 0x02000000 (dw 1) (dw 2)] }), (fun w => { w with a := [dw 3], b := [T 1 4, dw 4] }),
  (fun w => { w with a := [T 1 3], b := [dw 3] }), (fun w => { w with a := [T 1 3], b := [], owed := [0, 1] }), (fun w => { w with a := [T 1 3], b := [dw 1], owed := [1], stalled := true })]
def lim (s : State) : State := put [(ISL_MOULT_WDT.LIMIT 0, 100),(ISL_MOULT_CNT.SWITCHES 0,65535),(ISL_MOULT_CNT.DROPS 0, 255),(ISL_PLANE_USE.LOCK 0, 16)] s
def mst : List State := [0,1,2,3,7].flatMap (fun m => gm.map (fun g => WU 0x02000000 g (marks := m)))
def off0 (s : State) : State := s.onIsl 0 (fun x => { x with clkHalt := true })
def seg (i k src j tm : Nat) (w : AWord) (s : State) : State :=
  ((fr j 96 (80 + tm) 1 1 (fr j 1 (528 + 7 * tm) 7 (segCode k) (fr i 96 k 1 1 (fr i 1 (48 + 6 * k) 6 src s)))).onIsl i (fun x => { x with inReset := false })).onIsl j (fun x => { x with inReset := false }) |>.onWu i src (fun x => { x with out := [w] })
def fifo (j tm n : Nat) (s : State) : State := s.onIsl j (fun x => { x with fifos := [(tm, List.replicate n (dw 9))] })
def qc (q : Nat) (f : Nat) (s : State) : State := fr 0 1 (784 + 29 * q) 29 f s
def QS (pt : Nat) (w : AWord) (rs : List (RF × Nat)) : State :=
  put ([(ISL_QREG.SIZE16 0 1, 1), (ISL_QREG.BASE 0 1, 0x40)] ++ rs) ((qc 1 (2 + 2^6*pt + 17*2^8 + 31*2^13+31*2^18+31*2^23) (WU 0x20000000 id (od := 16*2^26+17*2^20+3*2^18+1*2^16))).onWu 0 2 (fun x => { x with out := [w] }))
def mm (s : State) : State := { s with mem := Memory.puts (Memory.puts (Memory.puts (Memory.puts s.mem (islMemBase 0 + 0x100) (bytesLE 32 0x112233445566778899AABBCCDDEEFF)) (eccKey (islMemBase 0 + 0x100)) [1]) (eccKey (islMemBase 0 + 0x108)) [2]) (tagKey (islMemBase 0 + 0x104)) [5] }
def mb (s : State) : State := onSys (fun x => { x with stage := 3, vin := true }) (put [(HL_STAT.WIDTH 0, 16), (HL_STAT.WIDTH 3, 16), (MBX_STAT.READY 0, 1), (MBX_CTL.EN 0, 1), (MBX_STAT.READY 3, 1), (MBX_CTL.EN 3, 1), (CFG_BOOT.ARRAY, 1), (GLB_PART_CFG.VF 0, 3)] s)
def D (c p : Nat) (ps : List Nat) : Desc := let w (k : Nat) : Word := BitVec.ofNat 64 (ps.getD k 0); { code := BitVec.ofNat 8 c, part := BitVec.ofNat 4 p, clean := true, tag := 0xABCD, p0 := w 0, p1 := w 1, p2 := w 2, p3 := w 3, p4 := w 4, p5 := w 5, p6 := w 6 }
def J (f : Nat) (d : Desc) (st : Bool := false) (note : Nat := 0) (sets : List (RF × Nat) := []) : Job := { fn := f, d := d, started := st, wake := false, note := note, sets := sets }
def wj (j : Job) (s : State) : State := { mb s with jobs := [j] }
def putc (s : State) : State := put [(MBX_CQT.PTR 0, 4095), (MBX_CQH.PTR 0, 7), (MBX_CQT.PTR 3, 254), (MBX_CQH.PTR 3, 7)] s
def b0 : Desc := D 0x33 0 [5]
def b1 : Desc := D 0 2 []
def js : List Job := [J 0 b0, J 3 b1]
def c1 : Cpl := cplOf 0 3 true b0 7 9
def sts : List State := js.map (fun j => wj j base) ++ js.map (fun j => putc (wj j base)) ++ js.map (fun j => put [(MBX_CQH.PTR 0, 1), (MBX_CQH.PTR 3, 1)] (wj j base)) ++
  [base, mb base, put [(MBX_CTL.EN 0, 0), (MBX_CTL.EN 3, 0), (MBX_SQT.PTR 0, 77), (MBX_SQH.PTR 0, 9), (MBX_CQT.PTR 0, 3), (MBX_CQH.PTR 0, 2)] (mb base), put [(MBX_SQT.PTR 0, 4090), (MBX_SQH.PTR 0, 4090),(MBX_SQT.PTR 3, 250), (MBX_SQH.PTR 3, 250)] (mb base),
   (put [(MBX_CQH.PTR 0, 1), (MBX_CQH.PTR 3, 1)] (mb base)).onMbx 0 (fun x => { x with wait := [c1] }), ((mb base).onMbx 0 (fun x => { x with wait := [c1], phase := false })).setF (MBX_CQT.PTR 0) 4095]
def ds : List Desc := [D 1 0 [], D 7 0 [0x1000, 2000], D 7 0 [0x1000, 40], D 7 0 [0x1010, 40], D 0x10 0 [0x2000, 100], D 0x10 0 [0x2000, 10], D 0x0E 0 [], D 0x0E 0 [0x3000], D 0x0E 0 [0x3001],
  D 0x0F 0 [0, 0x4000, 640], D 0x0F 0 [1, 0x4000, 64], D 0x0F 0 [1, 0x4001, 64], D 0x0A 0 [0, 0x5000], D 0x0A 0 [0, 0x5001]]
def js2 : List Job := ds.map (fun d => J 0 d) ++ ds.map (fun d => J 3 d)
def rec (w1 : Nat) : LogRec := { w0 := 1, w1 := BitVec.ofNat 64 w1, w2 := 3, w3 := 4 }
def rch (s : State) : State := put [(ERR_LOGP.HEAD, 4095), (ERR_LOGP.TAIL, 2), (HLTH_ISL.STATE 3, 2), (FE_PRRQ.BASE 0, (hostBase + 0x9000) / 128), (FE_PRRQP.TAIL 0, 1)] { putc s with log := [(0, rec 0x10), (1, rec 0), (4095, rec 0x20)] }
def ds2 : List Desc := [D 2 0 [0, 0x1000, 256], D 2 0 [2*2^32], D 2 1 [2^32, 0x1000, 64, 0,0,0x123456789ABCDEF], D 3 0 [], D 3 1 [], D 4 0 [], D 4 0 [1], D 5 0 [], D 6 0 [0], D 6 0 [1], D 6 0 [3], D 6 1 [2], D 4 1 []]
def rf (k : Nat) (s : State) : State := put [(GLB_PART_CFG.STATE 0, k)] s
def b1_2 (s : State) : State := put [(GLB_PART_CFG.EN 1, 1), (GLB_PART_CFG.STATE 1, 2), (GLB_PART_CFG.NROWS 1, 1), (GLB_PART_CFG.FIRST_ROW 1, 5), (GLB_PART_SEQ.MASK 1, 0x30), (GLB_PART_SEQ.PRIMARY 1, 4), (GLB_ROW_MAP.OWNER 5, 1)] (s.setSeq 4 { Seq.reset 2 4 with st := 1 })
def own (s : State) : State := (List.range 12).foldl (fun s r => s.setF (GLB_ROW_MAP.OWNER r) (if r < 2 then 0 else if r = 5 then 1 else 15)) s
def vs : List (State → State) := [id, fun s => rf 2 (s.onSeq 0 (fun x => { x with st := 1 })), rf 1, rf 0, fun s => rf 3 (put [(PWR_PART.CUR 0, 1),(PWR_PART.RUNG 0, 1)] s), fun s => put [(PWR_PART.CUR 0, 2), (PWR_PART.BUSY 0,1)] s, rf 4]
def mk (f : Nat) (d : Desc) (st : Bool) (v : State → State) : State := wj (J f d st 1 []) (own (b1_2 (v base)))
def sts2 : List State := (ds2.map (fun d => (vs.take (if d.code = 3 then 4 else 7)).map (fun v => mk 0 d false v))).flatten ++ (ds2.filter (fun d => d.code = 2 ∨ d.code = 6)).flatMap (fun d => [mk 0 d true id, put [(PWR_PART.CUR 0, 3), (PWR_PART.CUR 1, 2)] (mk 0 d true id), { mk 0 d true id with cfg := { Cfg.idle with last := [(0, 5)] } }]) ++
  [put [(PWR_PART.CUR 0, 1)] (wj { J 0 (D 4 0 []) with sets := [(PWR_PART.RUNG 0, 1)] } base)]
def ds3 : List Desc := [D 8 0 [1+256*4]]
def own2 (s : State) : State := (List.range 12).foldl (fun s r => s.setF (GLB_ROW_MAP.OWNER r) (if r < 2 then 0 else if r = 5 then 1 else 15)) ((List.range 12).foldl (fun s r => s.setF (GLB_ROW_MAP.SPARE_PTR r) 12) s)
def rf2 (k : Nat) (s : State) : State := put [(GLB_PART_CFG.STATE 0, k), (CFG_RESVAL.VALID, 1)] s
def vs2 : List (State → State) := [id, rf2 3, rf2 2, rf2 0, rf2 1, fun s => rf2 3 (put [(GLB_ROW_MAP.SPARE_PTR 1, 5)] s), fun s => rf2 2 (onSys (fun y => { y with repair := some { part := 0, row := 1, col := 4, step := 5, p := 3, ran := true, reset := false, warm := false } }) s),
  fun s => put [(ERR_CAP.STATE 0, 1)] s, fun s => put [(ERR_CAP.STATE 0, 2)] s, fun s => put [(RING_STAT.JOINED, 1), (RING_CTL.ID, 9), (RING_STAT.NODES, 3)] { s with ring := { s.ring with open0 := true, open1 := true } }, fun s => put [(RING_STAT.JERR, 2)] s,
  fun s => rf2 2 (put [(LQ_CFG.RATE 0, 2), (LQ_STAT.PLL 0, 1), (LANE_BOND.N 2, 1), (LANE_BOND.G 2, 1)] s), fun s => put [(RST_STAT.SVC, 1)] s, fun s => put [(RST_CAUSE.WARMCNT, 65535)] s]
def mk2 (f : Nat) (d : Desc) (st : Bool) (v : State → State) : State := v (wj (J f d st 1 []) (own2 base))
def sts3 : List State := ds3.flatMap (fun d => ([1,3,5,6].map (fun i => vs2.getD i id)).flatMap (fun v => [mk2 0 d false v, mk2 0 d true v])) ++ (ds3.take 1).flatMap (fun d => ([1,3,5,6].map (fun i => vs2.getD i id)).map (fun v => mk2 3 d false v))
def ds4 : List Desc := [D 8 0 [12+256*4]]
def sts4 : List State := ds4.flatMap (fun d => ([1,3,5,6].map (fun i => vs2.getD i id)).flatMap (fun v => [mk2 0 d false v, mk2 0 d true v])) ++ (ds4.take 1).flatMap (fun d => ([1,3,5,6].map (fun i => vs2.getD i id)).map (fun v => mk2 3 d false v))
def ds5 : List Desc := [D 8 0 [3+256*11]]
def sts5 : List State := ds5.flatMap (fun d => ([1,3,5,6].map (fun i => vs2.getD i id)).flatMap (fun v => [mk2 0 d false v, mk2 0 d true v])) ++ (ds5.take 1).flatMap (fun d => ([1,3,5,6].map (fun i => vs2.getD i id)).map (fun v => mk2 3 d false v))
def ds7 : List Desc := [D 9 0 [1]]
def sts7 : List State := ds7.flatMap (fun d => ([0,7,8].map (fun i => vs2.getD i id)).flatMap (fun v => [mk2 0 d false v, mk2 0 d true v])) ++ (ds7.take 1).flatMap (fun d => ([0,7,8].map (fun i => vs2.getD i id)).map (fun v => mk2 3 d false v))
def ds8 : List Desc := [D 9 0 [0]]
def sts8 : List State := ds8.flatMap (fun d => ([0,7,8].map (fun i => vs2.getD i id)).flatMap (fun v => [mk2 0 d false v, mk2 0 d true v])) ++ (ds8.take 1).flatMap (fun d => ([0,7,8].map (fun i => vs2.getD i id)).map (fun v => mk2 3 d false v))
def ds9 : List Desc := [D 9 0 [0,0x1000]]
def sts9 : List State := ds9.flatMap (fun d => ([0,7,8].map (fun i => vs2.getD i id)).flatMap (fun v => [mk2 0 d false v, mk2 0 d true v])) ++ (ds9.take 1).flatMap (fun d => ([0,7,8].map (fun i => vs2.getD i id)).map (fun v => mk2 3 d false v))
def ds10 : List Desc := [D 11 0 [7,0,0,2+8+16*2+64+2^8+2^11*2+2^17*5]]
def sts10 : List State := ds10.flatMap (fun d => ([0,11,2].map (fun i => vs2.getD i id)).flatMap (fun v => [mk2 0 d false v, mk2 0 d true v])) ++ (ds10.take 1).flatMap (fun d => ([0,11,2].map (fun i => vs2.getD i id)).map (fun v => mk2 3 d false v))
def ds12 : List Desc := [D 12 0 [9]]
def sts12 : List State := ds12.flatMap (fun d => ([0,9,10].map (fun i => vs2.getD i id)).flatMap (fun v => [mk2 0 d false v, mk2 0 d true v])) ++ (ds12.take 1).flatMap (fun d => ([0,9,10].map (fun i => vs2.getD i id)).map (fun v => mk2 3 d false v))
def ds13 : List Desc := [D 13 0 []]
def sts13 : List State := ds13.flatMap (fun d => ([0,9].map (fun i => vs2.getD i id)).flatMap (fun v => [mk2 0 d false v, mk2 0 d true v])) ++ (ds13.take 1).flatMap (fun d => ([0,9].map (fun i => vs2.getD i id)).map (fun v => mk2 3 d false v))
def ds14 : List Desc := [D 17 0 []]
def sts14 : List State := ds14.flatMap (fun d => ([0,13].map (fun i => vs2.getD i id)).flatMap (fun v => [mk2 0 d false v, mk2 0 d true v])) ++ (ds14.take 1).flatMap (fun d => ([0,13].map (fun i => vs2.getD i id)).map (fun v => mk2 3 d false v))
def ln (s : State) : State := put [(LQ_CFG.RATE 0, 2), (LQ_STAT.PLL 0, 1), (LANE_CTL.EN 0, 1), (LANE_CTL.EN 1, 1), (LANE_STAT.TSTATE 0, 3), (LANE_STAT.TSTATE 1, 3),(LANE_STAT.UP 0, 1)] s
def lv (g : Lane → Lane) (s : State) : State := (ln s).onLane 0 (fun x => g { x with lock := true })
def blk1 : Blk := .data 5 6
def blkE : Blk := ctlBlk tyTOKEN (2^28*2) false
def tst (k : Nat) (s : State) : State := put [(LANE_STAT.TSTATE 0, k)] s
def bond (s : State) : State := put [(LANE_BOND.N 0, 1), (LANE_BOND.N 1, 1), (LANE_BOND.N 2, 1), (LANE_BOND.N 3, 1),(LANE_BOND.G 0, 2), (LANE_BOND.G 1, 2), (LANE_BOND.G 2, 2), (LANE_BOND.G 3, 2)] s
def it (w : AWord) : StreamItem := { w := w, ends := true, mask := 0 }
def ab : AWord := AWord.mk true true 0 (BitVec.ofNat 32 (tokABORT * 2 ^ 28 + 77))
def cl (s : State) : State := put [(LANE_CTL.FLEN 0, 0)] s
def rt : Nat := bankBase 0 + 0x40000
def le (ppn fl : Nat) : Word := BitVec.ofNat 64 (ppn * 4096 + fl)
def w3 : Word := le (rt / 4096 + 1) 1
def w2 : Word := le (rt / 4096 + 2) 1
def w1 : Word := le (rt / 4096 + 3) 1
def w0 : Word := le ((hostBase + 0x7000) / 4096) 0x3F
def w8 (xs : List (Nat × Word)) (s : State) : State := { s with mem := xs.foldl (fun m x => Memory.puts m x.1 (bytesLE 8 x.2.toNat)) s.mem }
def pt (l : Word) (s : State) : State := (w8 [(rt, w3), (rt + 4096, w2), (rt + 8192, w1), (rt + 12288 + 5 * 8, l), (hostBase + 0x7008, 0x1122334455667788)] s).onSeq 0 (fun x => { x with ptbase := rt })
def b0_2 : State := put [(CLK_STAB1.DMA, 1), (DMA_CH_OWN.PART 0, 0), (DMA_CH_XLT.TE 0, 0), (GLB_PART_CFG.VF 0, 3)] base
def fk : State := put [(ISL_FORK_CFG.SEN 0, 3), (ISL_FORK_CFG.QSEL 0, 0xE4), (ISL_FORK_CFG.STEN 0, 1), (ISL_FORK_CFG.SU 0, 1), (ISL_QDEP.DEPTH 0 0, 5), (ISL_QDEP.DEPTH 0 1, 6), (ISL_FORK_STAT.STATE 0, 1), (ISL_FORK_CNT.COUNT 0, 44), (ISL_MOULT_WDT.LIMIT 0, 9), (CLK_STAB1.FE, 1)] isl0
def wt (k : Nat) (s : State) : State := put [(ISL_FORK_STAT.STATE 0, 2), (ISL_FORK_STAT.WSET 0, k), ((ISL_FORK_STAT.ARMED 0), 3)] s
def fi (s : State) : State := s.onIsl 0 (fun x => { x with forkIn := [(0, 3, 2), (1, 0, 1)], resIn := [(1, true, 1)] })
def ri (k : Nat) (o : Bool) (s : State) : State := s.onIsl 0 (fun x => { x with resIn := [(k, o, 0), (1, true, 1)] })
def itm (k : ItemKind) (u row col : Nat) : FailItem := { kind := k, lost := true, susp := false, rebase := false, site := 3, unit := u, row := row, col := col, mask := 0x5, cyc := 77, bad := none }
def fz (g : Collector → Collector) (s : State) : State := s.onIsl 0 (fun x => { x with coll := g x.coll })
def un (st : Nat) (s : State) : State := put [(FE_PUNITS.UFIRST 0, 8), (FE_PUNITS.UCOUNT 0, 4)] { s with units := [(8, { FUnit.idle with st := st, nr := 100, nc := 50 })] }
def sts15 : List State := [base, fk, fi fk, fi (put [(ISL_FORK_STAT.LATCH 0, 1)] fk), fi (wt 1 fk), fi (put [(ISL_FORK_CFG.BREN 0, 1), (ISL_FORK_CFG.SEN 0, 0)] fk), fi (put [(ISL_FORK_CFG.BREN 0, 1), (ISL_FORK_CFG.BRSIDE 0, 1)] fk),
  ri 0 true fk, ri 0 true (wt 0 fk), ri 0 false (wt 1 fk), ri 1 true (wt 1 (put [(ISL_FORK_CFG.KEEP 0, 0xF)] fk)), ri 0 false (put [(ISL_FORK_STAT.ARMED 0, 1), (ISL_FORK_CFG.QSEL 0, 0xE0)] fk), wt 0 fk, wt 0 (put [(ISL_FORK_CNT.HOLDS 0, 65535), (ISL_FORK_CFG.HOLDP 0, 3), (ISL_PARAM.VALUE 0 3, 0x12345678)] fk),
  put [(ISL_FCAP_CFG.FEN 0, 1), (ISL_FCAP_CFG.SITE 0, 5)] (fz (fun c => { c with lost := true, bad := some 6, fired := 3, covered := false }) fk), fz (fun c => { c with fifo := List.replicate 16 (itm .record 8 1 1) }) fk, fz (fun c => { c with hold := some (itm .progress 0 0 0) }) fk] ++
  [itm .record 8 3 4, itm .record 7 3 4, itm .record 9 3 4, itm .record 8 100 4, itm .record 8 99 49, itm .record 8 4 50].flatMap (fun x => [un 2 (fz (fun c => { c with fifo := [x, x] }) fk), un 1 (fz (fun c => { c with fifo := [x] }) fk)])
def fb : State := put [(CLK_STAB1.FE, 1), (FE_PUNITS.UFIRST 0, 8), (FE_PUNITS.UCOUNT 0, 4), (FE_PTRK.TFIRST 0, 100), (FE_PTRK.TCOUNT 0, 1000), (FE_PMAPLO.ADDR 0, 0x10), (FE_PMAPHI.ADDR 0, 0x1F), (FE_PFAT.QUOTA 0, 100)] base
def U (st : Nat) : FUnit := { FUnit.idle with st := st, part := 0, an := true, nr := 20, nc := 10, tbase := 100, sr := 2, sc := 2, fr := 2, fc := 2, site := 5, gen := 3, lastcyc := 55 }
def us (xs : List (Nat × FUnit)) (s : State) : State := { s with units := xs }
def fe (g : Fe → Fe) (s : State) : State := { s with fe := g s.fe }
def ud (d0 d1 d2 : Nat) (s : State) : State := ((s.wr (FE_PUD0 0) (BitVec.ofNat 64 d0)).wr (FE_PUD1 0) (BitVec.ofNat 64 d1)).wr (FE_PUD2 0) (BitVec.ofNat 64 d2)
def d2of (nr nc sr sc site : Nat) : Nat := (nr-1)*2^44+(nc-1)*2^28+sr*2^22+sc*2^17+site
def ee (s : State) : State := put [(FE_GSTAT.EARLYBUF, 1), (FE_PRRQ.BASE 0, cxlBase / 128 + 8), (FE_PRRQ.LOG2N 0, 4), (FE_PHDR.ADDR 0, cxlBase / 64 + 64)] s
def fatc (xs : List (Nat × Nat × Nat)) (s : State) : State := { s with fat := xs.zipIdx.map (fun x => { slot := x.2, part := 0, unit := 8, row := x.1.1, col := x.1.2.1, mask := x.1.2.2 }) }
def eng (u : FUnit) (s : State) : State := us [(8, u)] (fe (fun f => { f with engines := [(0, 8)] }) (put [(FE_GSTAT.SOLVBUSY, 1)] s))
def mk3 (s : State) : State := { s with feParts := [(0, { FePart.fresh with marks := [{ site := 5, isl := 0, cyc := 77, ended := false }], seqno := 4 })] }
def rec2 (u row col mask : Nat) : FeRec := { part := 0, site := 5, unit := u, row := row, col := col, mask := mask, cyc := 999 }
def hm (r : FeRec) (s : State) : State := fe (fun f => { f with home := [(0, [r])] }) s
def full (s : State) : State := put [(FE_PRRQP.TAIL 0, 15)] s
def res : FeResult := { part := 0, unit := 8, words := [1,2,3,4,5,6,7,8,9,10,11,12,13,14,15,16] }
def cb (g : Cfg → Cfg) (s : State) : State := { put [(CLK_STAB1.CFG, 1)] s with cfg := g s.cfg }
def bz (ph : Nat) (g : Cfg → Cfg) (s : State) : State := put [(CFG_STAT.BUSY, 1), (CFG_STAT.PHASE, ph), (CFG_POLICY.LIVEEN, 1)] (cb (fun c => g { c with part := 0, src := 0, mode := 0 }) s)
def e0 : State := put [(GLB_PART_CFG.STATE 0, 0)] isl0
def fixc (xs : List Byte) : List Byte := let h := xs.take 252; h ++ bytesLE 4 (crc32 h)
def hdr (flags rows planes frames : Nat) : List Byte := fixc (bytesLE 4 0x485A4346 ++ bytesLE 2 1 ++ bytesLE 2 flags ++ bytesLE 4 0x4C597120 ++ bytesLE 1 7 ++ bytesLE 1 0 ++ bytesLE 1 rows ++ bytesLE 1 0 ++ bytesLE 2 planes ++ bytesLE 2 0 ++ bytesLE 4 frames ++ bytesLE 4 (256 + frames * 136) ++ List.replicate 228 0)
def recb (a d : Nat) : List Byte := let r := bytesLE 4 a ++ frameBytes (BitVec.ofNat 1024 d); r ++ bytesLE 4 (crc32 r)
def s2 : State := put [(GLB_PART_CFG.STATE 0, 2)] isl0
def dmg (i k : Nat) (s : State) : State := s.setFrame i k { (s.frame i k) with crc := 1 }
def sc (g : Cfg → Cfg) : State := put [(CFG_SCRUB.EN, 1)] (cb (fun c => g c) (put [(GLB_PART_CFG.STATE 0, 2)] isl0))
def hb : State := (fun (g : Sys → Sys) (s : State) => { s with sys := g s.sys }) (fun y => { y with stage := 3, vin := true, trained := true }) (put ([(CLK_STAB1.HL, 1), (CLK_STAB1.CXL, 3), (CLK_STAB1.FE, 1), (FE_GSTAT.EARLYBUF, 1), (CXP_PSTAT.UP 0, 1)] ++ (List.range 13).map (fun f => (HL_STAT.WIDTH f, 16))) isl0)
def hd (s : State) : State := put [(CXP_HDM0.BASE 2, 4), (CXP_HDM1.SIZE 2, 4), (CXP_HDM2.COMMITTED 2, 1), (CXP_HDM0.BASE 0, 0), (CXP_HDM1.SIZE 0, 4), (CXP_DEV.ACTIVE 0, 1), (CXP_DEV.PRESENT 0, 1)] s
def rg (g : Ring → Ring) (s : State) : State := { s with ring := g s.ring }
def tm (n : Nat) (s : State) : State := s.wr RING_TIME (BitVec.ofNat 64 n)
def rb : State := put [(RING_CTL.ID, 5), (RING_STAT.JOINED, 1), (RING_STAT.JSTATE, 4)] (tm 1000000 (rg (fun r => { r with open0 := true, open1 := true, line0 := { RingLine.fresh with lock := true }, line1 := { RingLine.fresh with lock := true } }) base))
def rt2 (s : State) : State := put [(RING_ROUTE.DBEN 2, 1), (RING_ROUTE.TRIG 2, 3), (RING_ROUTE.DB 2, 9), (RING_ROUTE.TEN 2, 1), (RING_ROUTE.PART 2, 0), (RING_ROUTE.TMASK 2, 31), (RING_ROUTE.EN 2, 1), (RING_ROUTE.EN 3, 1), (RING_ROUTE.TMASK 3, 31), (RING_ROUTE.LVL 3, 1)] s
def rf3 (src dst : Nat) (pay ts : Nat) (bc : Bool) (hop : Nat := 3) (seq : Nat := 7) : RingFrame := { src := BitVec.ofNat 6 src, dst := BitVec.ofNat 6 dst, bc := bc, hop := BitVec.ofNat 7 hop, seq := BitVec.ofNat 8 seq, ts := BitVec.ofNat 64 ts, pay := BitVec.ofNat 64 pay, fcrc := 0 }
def sts16 : List State := [base, rb, put [(RING_CTL.TMASTER, 1)] rb, put [(RING_CTL.TMASTER, 1)] (rg (fun r => { r with master := some 7 }) rb), put [(RING_CTL.TMASTER, 1)] (rg (fun r => { r with master := some 3 }) rb), rg (fun r => { r with open1 := false, seq := 255 }) rb, put [(RING_STAT.R0UP, 1)] rb] ++
  [1,2,3,4,5].map (fun k => put [(RING_STAT.JOINED, 0)] (rg (fun r => { r with step := k, open1 := k > 3, open0 := k > 1 }) rb)) ++ [6,7].map (fun k => rg (fun r => { r with step := k }) rb) ++
  [put [(RING_STAT.TXFULL, 0)] (rg (fun r => { r with txq := List.replicate 32 (frMBOX, rf3 1 1 1 1 true) }) rb), put [(RING_RXHDR.RXDROP, 9)] (rg (fun r => { r with rx := [{ fsum := true, src := 1, pay := 5 }, { fsum := false, src := 2, pay := 6 }] }) rb), rg (fun r => { r with shown := true, rx := [{ fsum := true, src := 1, pay := 5 }, { fsum := false, src := 2, pay := 6 }] }) rb] ++
  [1,2,3,4,5].flatMap (fun m => [put [(TRIG_CFG.IMODE 0, m), (TRIG_CFG.DBEN 0, 1), (TRIG_CFG.PART 0, 0), (TRIG_CFG.DB 0, 7), (TRIG_CFG.SEND 0, 1), (PWR_PART.WAKEEN 0, 2)] rb, put [(TRIG_CFG.IMODE 0, m), (TRIG_STAT.IN 0, 1), (TRIG_STAT.OVR 0, 65535)] (rg (fun r => { r with edge := [(0, 1000000)] }) rb), put [(TRIG_CFG.IMODE 0, m), (TRIG_STAT.IN 0, 1), (TRIG_STAT.MASKED 0, 1)] rb, put [(TRIG_CFG.IMODE 0, m), (TRIG_STAT.IN 0, 1), (TRIG_CFG.DBEN 0, 1), (TRIG_CFG.PART 0, 0), (PWR_PART.WAKEEN 0, 2), (TRIG_CFG.SEND 0, 1)] rb]) ++
  [put [(RING_ROUTE.DBEN 0, 1)] (rg (fun r => { r with level := [(0, 5), (1, 300)] }) rb), rg (fun r => { r with level := [(1, 5), (0, 300)] }) rb]
def up (s : State) : State := put ((List.range 13).map (fun f => (MBX_STAT.READY f, 1))) (onSys (fun y => { y with stage := 3, vin := true, pgood := true }) s)
def p1 (s : State) : State := put [(GLB_PART_CFG.EN 1, 1), (GLB_PART_CFG.STATE 1, 2), (GLB_PART_CFG.NROWS 1, 1), (GLB_PART_CFG.FIRST_ROW 1, 5), (GLB_PART_SEQ.MASK 1, 0x30), (GLB_PART_SEQ.PRIMARY 1, 4), (GLB_ROW_MAP.OWNER 5, 1)] (s.setSeq 4 { Seq.reset 2 4 with st := 1 })
def rs (k : Nat) (s : State) : State := put [(GLB_PART_CFG.STATE 0, k)] s
def rp (st : Nat) : Repair := { part := 0, row := 0, col := 1, step := st, p := 0, ran := true, reset := false, warm := false }
def hd2 (sev code src : Nat) : Handling := { sev := sev, code := code, part := 0, src := src, asked := true, followed := false }
/-- A descriptor, and its channel, in the bank of sequencer 0. -/
def descB (w0 src dst len done nx : Nat) : List (Nat × Word) := [w0, src, dst, len, done, 0, 0, nx].zipIdx.map (fun x => (bankBase 0 + 0x1000 + 8 * x.2, BitVec.ofNat 64 x.1))
def dchB (xs : List (Nat × Word)) : State := w8 xs (put [(DMA_CH_CSR.STATE 0, 1), (DMA_CH_DESC.ADDR 0, (bankBase 0 + 0x1000) / 64)] b0_2)
/-- A leaf that maps a page onto the bank of sequencer 0. -/
def wB : Word := le ((bankBase 0 + 0x50000) / 4096) 0x3F
def ld (g : Chan → Chan) (st : Nat) : State := { put [(DMA_CH_CSR.STATE 0, st)] b0_2 with dmas := [(0, g { Chan.empty with loaded := true, pa := hostBase + 0x1000, src := hostBase + 0x100, dst := hostBase + 0x200, len := 64, done := 8 })], mem := Memory.puts b0_2.mem (hostBase + 0x108) (bytesLE 8 0x1234567811223344) }
def qe (s : State) : State := s.onSeq 0 (fun x => { x with dmaq := [{ stream := false, port := 0, index := 0, ctx := 0 }, { stream := true, port := 0, index := 0, ctx := 0 },{ stream := true, port := 0, index := 8, ctx := 0 }] })
def ms (k st : Nat) (g : Msp → Msp) (s : State) : State := (put [(MSP_CSR.STATE 0 k, st), (MSP_BASE.VA 0 k, 0x5000/4), (MSP_LEN.LEN 0 k, 2), (MMU_PART.PTBASE 0, rt / 4096)] s).setMsp 0 k (g { Msp.idle with base := 0x5000, len := 8, ptbase := rt, filling := true })


/-! One witness for the hypotheses of every clause of the statements. -/

/-- O1: an empty queue. -/
theorem meets_StepRunsTheFrontCommandAndAnEmptyQueueTicks : State.reset.pending = [] := rfl

/-- O4: states whose memory is in canonical form, and a step from each that answers next. -/
theorem meets_EveryStepKeepsTheMemoryCanonical :
    MemOk State.reset ∧ (∃ t, step State.reset = .next t) ∧ MemOk R1 ∧ (∃ t, step R1 = .next t) :=
  ⟨memOk_of rfl, ⟨_, rfl⟩, memOk_of (by decide +kernel), ⟨_, rfl⟩⟩

/-- O5: a word that decodes. -/
theorem meets_InstructionWordsDecodeToThemselves : ∃ k, insOf 0xE00428C0 = some k := ⟨_, rfl⟩

/-- O6: states and operands that meet the hypotheses of its clauses. -/
theorem meets_PartitionDefinitionWrites :
    (let n : Fin 12 := 1;
      let v : BitVec 32 := 0x00000000#32;
      let s : State := PE 5;
      let st : Nat := s.f (GLB_PART_CFG.STATE (↑n : Nat));
      let busy : Prop := st = 1 ∨ st = 3 ∨ st = 5;
      s.f (GLB_PART_CFG.EN (↑n : Nat)) = 0 ∧
      v.getLsbD 31 = false ∧
      ¬busy ∧
      s.fnOpen 0 = true) ∧
    (let n : Fin 12 := 0;
      let v : BitVec 32 := 0x00300702#32;
      let s : State := PF;
      let st : Nat := s.f (GLB_PART_CFG.STATE (↑n : Nat));
      let busy : Prop := st = 1 ∨ st = 3 ∨ st = 5;
      let r : Nat := 0;
      s.f (GLB_PART_CFG.EN (↑n : Nat)) = 1 ∧
      v.getLsbD 31 = false ∧
      ¬busy ∧
      r < 12) ∧
    (let n : Fin 12 := 0;
      let v : BitVec 32 := 0x80000200#32;
      let s : State := PD;
      s.f (GLB_PART_CFG.EN (↑n : Nat)) = 1 ∧
      v.getLsbD 31 = true ∧
      s.fnOpen 0 = true) ∧
    (let n : Fin 12 := 1;
      let v : BitVec 32 := 0x00000000#32;
      let s : State := PF;
      let st : Nat := s.f (GLB_PART_CFG.STATE (↑n : Nat));
      let busy : Prop := st = 1 ∨ st = 3 ∨ st = 5;
      v.getLsbD 31 = false ∧
      busy) := by
  decide +kernel

/-- The six checks of a partition's definition as O6 writes them. -/
def pdFails (n : Fin 12) (v : BitVec 32) (s : State) (e : Nat) : Prop :=
  let vf := (v.extractLsb' 20 4).toNat
  let nrows := (v.extractLsb' 8 4).toNat
  let first := (v.extractLsb' 0 4).toNat
  let mask := s.f (GLB_PART_SEQ.MASK n)
  let prim := s.f (GLB_PART_SEQ.PRIMARY n)
  let other (m : Nat) : Prop := m < 12 ∧ m ≠ n.val ∧ s.f (GLB_PART_CFG.EN m) = 1
  match e with
  | 1 => nrows = 0 ∨ 12 < first + nrows
  | 2 => ∃ r m, first ≤ r ∧ r < first + nrows ∧ other m ∧ s.f (GLB_ROW_MAP.OWNER r) = m
  | 3 => mask = 0 ∨ 2 * nrows < popCount 24 mask
  | 4 => ∃ m, other m ∧ mask &&& s.f (GLB_PART_SEQ.MASK m) ≠ 0
  | 5 => 23 < prim ∨ mask.testBit prim = false
  | 6 => 12 < vf ∨ (vf ≠ 0 ∧ ∃ m, other m ∧ s.f (GLB_PART_CFG.VF m) = vf)
  | _ => False
/-- The same checks over bounded ranges, as a Boolean. -/
def pdCheck (n : Fin 12) (v : BitVec 32) (s : State) (e : Nat) : Bool :=
  let vf := (v.extractLsb' 20 4).toNat
  let nrows := (v.extractLsb' 8 4).toNat
  let first := (v.extractLsb' 0 4).toNat
  let mask := s.f (GLB_PART_SEQ.MASK n)
  let prim := s.f (GLB_PART_SEQ.PRIMARY n)
  let others := (List.range 12).filter (fun m => m != n.val && s.f (GLB_PART_CFG.EN m) == 1)
  match e with
  | 1 => decide (nrows = 0 ∨ 12 < first + nrows)
  | 2 => (List.range (first + nrows)).any (fun r => decide (first ≤ r) && others.any (fun m => s.f (GLB_ROW_MAP.OWNER r) == m))
  | 3 => decide (mask = 0 ∨ 2 * nrows < popCount 24 mask)
  | 4 => others.any (fun m => mask &&& s.f (GLB_PART_SEQ.MASK m) != 0)
  | 5 => decide (23 < prim ∨ mask.testBit prim = false)
  | 6 => decide (12 < vf) || (vf != 0 && others.any (fun m => s.f (GLB_PART_CFG.VF m) == vf))
  | _ => false
theorem pdFails_iff (n : Fin 12) (v : BitVec 32) (s : State) (e : Nat) : pdFails n v s e ↔ pdCheck n v s e = true := by
  unfold pdFails pdCheck
  dsimp only
  split <;> simp [List.any_eq_true, and_assoc, and_left_comm]
theorem first_fail {n : Fin 12} {v : BitVec 32} {s : State} {e : Nat} (h : (pdCheck n v s e && (List.range e).all (fun d => !pdCheck n v s d)) = true) :
    pdFails n v s e ∧ ∀ d, d < e → ¬ pdFails n v s d := by
  simp only [Bool.and_eq_true, List.all_eq_true, List.mem_range, Bool.not_eq_true'] at h
  exact ⟨(pdFails_iff ..).2 h.1, fun d hd x => by have := h.2 d hd; rw [pdFails_iff] at x; simp [x] at this⟩

/-- O6: for each check a definition that fails it first, and one that passes all. -/
theorem meets_PartitionDefinitionWrites_checks :
    (let first (n : Fin 12) (v : BitVec 32) (s : State) (e : Nat) : Prop := s.fnOpen 0 = true ∧ s.f (GLB_PART_CFG.EN n) = 0 ∧ v.getLsbD 31 = true ∧ pdFails n v s e ∧
      ∀ d, d < e → ¬ pdFails n v s d
     first 2 0x80000000 PD 1 ∧ first 2 0x80000200 PD 2 ∧ first 3 0x80000204 PD 3 ∧ first 2 0x80000204 (PE 0) 4 ∧ first 3 0x80000204 (put [(GLB_PART_SEQ.MASK 3, 0x30), (GLB_PART_SEQ.PRIMARY 3, 9)] PD) 5 ∧ first 2 0x80200204 PF 6) ∧
    (PD.fnOpen 0 = true ∧ PD.f (GLB_PART_CFG.EN 2) = 0 ∧ (0x80000204 : BitVec 32).getLsbD 31 = true ∧ ∀ e, ¬ pdFails 2 0x80000204 PD e) := by
  refine ⟨⟨⟨?_, ?_, ?_, first_fail ?_⟩, ⟨?_, ?_, ?_, first_fail ?_⟩, ⟨?_, ?_, ?_, first_fail ?_⟩, ⟨?_, ?_, ?_, first_fail ?_⟩, ⟨?_, ?_, ?_, first_fail ?_⟩, ⟨?_, ?_, ?_, first_fail ?_⟩⟩, ?_, ?_, ?_, fun e h => ?_⟩
  rotate_right
  · rw [pdFails_iff] at h
    match e, h with
    | 0, h | 1, h | 2, h | 3, h | 4, h | 5, h | 6, h => exact absurd h (by decide +kernel)
    | _ + 7, h => exact absurd h (by simp [pdCheck])
  all_goals decide +kernel

/-- O7: states and operands that meet the hypotheses of its clauses. -/
theorem meets_RegisterWritesByAccessCodeAndWidth :
    (let s : State := RL;
      s.fnOpen 0 = true ∧
      s.cfgClk = true ∧
      s.f CFG_POLICY.LOCK = 1 ∧
      s.f ERR_CTL.STORM = 0) ∧
    (let f : Fin 13 := 4;
      let off : BitVec 24 := 0x100000#24;
      let s : State := RL;
      s.fnOpen (↑f : Nat) = false ∧
      off.toNat % 8 = 0) := by
  decide +kernel

/-- O7, part 2: states and operands that meet the hypotheses of its clauses. -/
theorem meets_RegisterWritesByAccessCodeAndWidth_2 :
    (let s : State := RV;
      s.fnOpen 0 = true) ∧
    (let s : State := RV;
      s.fnOpen 0 = true) ∧
    (let s : State := RV;
      s.fnOpen 0 = true) ∧
    (let s : State := RV;
      s.fnOpen 0 = true) ∧
    (let s : State := RV;
      s.fnOpen 0 = true ∧
      s.dmaClk = true) ∧
    (let n : Fin 12 := 0;
      let m : Fin 12 := 1;
      let f : Fin 13 := 3;
      let s : State := RV;
      s.fnOpen 0 = true ∧
      s.dmaClk = true ∧
      (↑f : Nat) ≠ 0 ∧
      s.fnOpen (↑f : Nat) = true ∧
      s.vfPart (↑f : Nat) = some (↑n : Nat) ∧
      m ≠ n) ∧
    (let n : Fin 12 := 0;
      let f : Fin 13 := 3;
      let s : State := RV;
      (↑f : Nat) ≠ 0 ∧
      s.fnOpen (↑f : Nat) = true ∧
      s.vfPart (↑f : Nat) = some (↑n : Nat) ∧
      s.dmaClk = true) ∧
    (let off : BitVec 24 := 0x000001#24;
      let wide : Bool := false;
      ((off.toNat % if wide = true then 8 else 4) ≠ 0)) ∧
    (let s : State := RV;
      s.fnOpen 0 = true) := by
  decide +kernel

/-- O7, part 3: states and operands that meet the hypotheses of its clauses. -/
theorem meets_RegisterWritesByAccessCodeAndWidth_3 :
    (let f : Fin 13 := 0;
      let off : BitVec 24 := BitVec.ofNat 24 (CXP_DEV 0);
      let s : State := PD;
      let o : Nat := off.toNat / 4 * 4;
      s.fnOpen (↑f : Nat) = true ∧
      s.reaches (Who.fn (↑f : Nat)) o = true ∧
      named (Who.fn (↑f : Nat)) o = true ∧
      s.regClk o = false) := by
  decide +kernel

/-- O8: states and operands that meet the hypotheses of its clauses. -/
theorem meets_IntegerAndImmediateInstructions :
    (let n : Fin 24 := 0;
      let s : State := W0;
      Ready (↑n : Nat) s) ∧
    (let n : Fin 24 := 0;
      let s : State := A2;
      Ready (↑n : Nat) s) := by
  repeat' first | decide +kernel | apply memOk_of | apply ready_of | apply executes_of | apply cplReady_of | apply nearBlock_of | constructor

/-- O9: states and operands that meet the hypotheses of its clauses. -/
theorem meets_ProductsQuotientsAndBitCounts :
    (let n : Fin 24 := 0;
      let s : State := W0;
      Ready (↑n : Nat) s) := by
  repeat' first | decide +kernel | apply memOk_of | apply ready_of | apply executes_of | apply cplReady_of | apply nearBlock_of | constructor

/-- O10: states and operands that meet the hypotheses of its clauses. -/
theorem meets_LocalWindowLoadsAndStores :
    (let n : Fin 24 := 0;
      let ra : Fin 32 := 0;
      let imm : BitVec 16 := 0x0008#16;
      let s : State := A4;
      let va : Nat := (BitVec.setWidth 48 (s.kr (↑n : Nat) (↑ra : Nat) + BitVec.signExtend 64 imm)).toNat;
      Ready (↑n : Nat) s ∧
      LocalOk (↑n : Nat) va false s ∧
      va % 8 = 0) ∧
    (let n : Fin 24 := 0;
      let ra : Fin 32 := 0;
      let imm : BitVec 16 := 0x0008#16;
      let s : State := A4;
      let va : Nat := (BitVec.setWidth 48 (s.kr (↑n : Nat) (↑ra : Nat) + BitVec.signExtend 64 imm)).toNat;
      Ready (↑n : Nat) s ∧
      LocalOk (↑n : Nat) va false s ∧
      va % 4 = 0 ∧
      va % 8 = 0 ∧
      FpReady (↑n : Nat) s) ∧
    (let n : Fin 24 := 0;
      let ra : Fin 32 := 0;
      let imm : BitVec 16 := 0x0008#16;
      let s : State := A4;
      let va : Nat := (BitVec.setWidth 48 (s.kr (↑n : Nat) (↑ra : Nat) + BitVec.signExtend 64 imm)).toNat;
      Ready (↑n : Nat) s ∧
      LocalOk (↑n : Nat) va false s ∧
      va % 4 = 0) ∧
    (let n : Fin 24 := 0;
      let ra : Fin 32 := 0;
      let imm : BitVec 16 := 0x0008#16;
      let s : State := A4;
      let va : Nat := (BitVec.setWidth 48 (s.kr (↑n : Nat) (↑ra : Nat) + BitVec.signExtend 64 imm)).toNat;
      Ready (↑n : Nat) s ∧
      LocalOk (↑n : Nat) va false s ∧
      va % 2 = 0) ∧
    (let n : Fin 24 := 0;
      let ra : Fin 32 := 0;
      let imm : BitVec 16 := 0x0008#16;
      let s : State := A4;
      let va : Nat := (BitVec.setWidth 48 (s.kr (↑n : Nat) (↑ra : Nat) + BitVec.signExtend 64 imm)).toNat;
      Ready (↑n : Nat) s ∧
      LocalOk (↑n : Nat) va false s ∧
      va % 2 = 0) ∧
    (let n : Fin 24 := 0;
      let ra : Fin 32 := 0;
      let imm : BitVec 16 := 0x0008#16;
      let s : State := A4;
      let va : Nat := (BitVec.setWidth 48 (s.kr (↑n : Nat) (↑ra : Nat) + BitVec.signExtend 64 imm)).toNat;
      Ready (↑n : Nat) s ∧
      LocalOk (↑n : Nat) va false s) ∧
    (let n : Fin 24 := 0;
      let ra : Fin 32 := 0;
      let imm : BitVec 16 := 0x0008#16;
      let s : State := A4;
      let va : Nat := (BitVec.setWidth 48 (s.kr (↑n : Nat) (↑ra : Nat) + BitVec.signExtend 64 imm)).toNat;
      Ready (↑n : Nat) s ∧
      LocalOk (↑n : Nat) va false s) ∧
    (let n : Fin 24 := 0;
      let ra : Fin 32 := 0;
      let imm : BitVec 16 := 0x0008#16;
      let s : State := A4;
      let va : Nat := (BitVec.setWidth 48 (s.kr (↑n : Nat) (↑ra : Nat) + BitVec.signExtend 64 imm)).toNat;
      Ready (↑n : Nat) s ∧
      MemOk s ∧
      LocalOk (↑n : Nat) va true s ∧
      va % 8 = 0) ∧
    (let n : Fin 24 := 0;
      let ra : Fin 32 := 0;
      let imm : BitVec 16 := 0x0008#16;
      let s : State := A4;
      let va : Nat := (BitVec.setWidth 48 (s.kr (↑n : Nat) (↑ra : Nat) + BitVec.signExtend 64 imm)).toNat;
      Ready (↑n : Nat) s ∧
      MemOk s ∧
      LocalOk (↑n : Nat) va true s ∧
      va % 4 = 0) ∧
    (let n : Fin 24 := 0;
      let ra : Fin 32 := 0;
      let imm : BitVec 16 := 0x0008#16;
      let s : State := A4;
      let va : Nat := (BitVec.setWidth 48 (s.kr (↑n : Nat) (↑ra : Nat) + BitVec.signExtend 64 imm)).toNat;
      Ready (↑n : Nat) s ∧
      MemOk s ∧
      LocalOk (↑n : Nat) va true s ∧
      va % 2 = 0) ∧
    (let n : Fin 24 := 0;
      let ra : Fin 32 := 0;
      let imm : BitVec 16 := 0x0008#16;
      let s : State := A4;
      let va : Nat := (BitVec.setWidth 48 (s.kr (↑n : Nat) (↑ra : Nat) + BitVec.signExtend 64 imm)).toNat;
      Ready (↑n : Nat) s ∧
      MemOk s ∧
      LocalOk (↑n : Nat) va true s) ∧
    (let n : Fin 24 := 0;
      let ra : Fin 32 := 0;
      let imm : BitVec 16 := 0x0008#16;
      let s : State := A4;
      let va : Nat := (BitVec.setWidth 48 (s.kr (↑n : Nat) (↑ra : Nat) + BitVec.signExtend 64 imm)).toNat;
      Ready (↑n : Nat) s ∧
      MemOk s ∧
      LocalOk (↑n : Nat) va true s ∧
      va % 8 = 0 ∧
      (s.getSeq (↑n : Nat)).sb stFPEN = true) := by
  repeat' first | decide +kernel | apply memOk_of | apply ready_of | apply executes_of | apply cplReady_of | apply nearBlock_of | constructor

/-- O10, part 2: states and operands that meet the hypotheses of its clauses. -/
theorem meets_LocalWindowLoadsAndStores_2 :
    (let n : Fin 24 := 0;
      let s : State := S1.onSeq 0 (fun x => { x with loads := [{ reg := 3, data := 7, va := 0, size := 8, sext := false, pc := 0, word := 0 }] });
      let l : LoadOp := { reg := 3, data := 0x0000000000000007#64, va := 0, size := 8, sext := false, pc := 0, word := 0 };
      let rest : List LoadOp := [];
      (s.getSeq (↑n : Nat)).loads = l :: rest) := by
  decide +kernel

/-- O11: states and operands that meet the hypotheses of its clauses. -/
theorem meets_DualLoadReadsBothPointersAndStepsThem :
    (let n : Fin 24 := 0;
      let rd : Fin 32 := 0;
      let re : Fin 32 := 1;
      let px : Fin 8 := 2;
      let ix : Fin 8 := 0;
      let py : Fin 8 := 3;
      let iy : Fin 8 := 1;
      let w : Bool := true;
      let s : State := base;
      let size : Nat := if w = true then 4 else 8;
      let ax : Nat := (BitVec.setWidth 48 (s.kr (↑n : Nat) (↑px : Nat))).toNat;
      let ay : Nat := (BitVec.setWidth 48 (s.kr (↑n : Nat) (↑py : Nat))).toNat;
      Ready (↑n : Nat) s ∧
      px ≠ 0 ∧
      py ≠ 0 ∧
      px ≠ py ∧
      rd ≠ re ∧
      (↑rd : Nat) ≠ (↑px : Nat) ∧
      (↑rd : Nat) ≠ (↑py : Nat) ∧
      (↑re : Nat) ≠ (↑px : Nat) ∧
      (↑re : Nat) ≠ (↑py : Nat) ∧
      ix ≠ 7 ∧
      iy ≠ 7 ∧
      ax % size = 0 ∧
      ay % size = 0 ∧
      LocalOk (↑n : Nat) ax false s ∧
      LocalOk (↑n : Nat) ay false s) := by
  repeat' first | decide +kernel | apply memOk_of | apply ready_of | apply executes_of | apply cplReady_of | apply nearBlock_of | constructor

/-- O11, part 2: states and operands that meet the hypotheses of its clauses. -/
theorem meets_DualLoadReadsBothPointersAndStepsThem_2 :
    (let n : Fin 24 := 0;
      let px : Fin 8 := 0;
      let ix : Fin 8 := 0;
      let py : Fin 8 := 0;
      let s : State := A2;
      Ready (↑n : Nat) s ∧
      (px = py ∨ ix = 7)) := by
  repeat' first | decide +kernel | apply memOk_of | apply ready_of | apply executes_of | apply cplReady_of | apply nearBlock_of | constructor

/-- O12: states and operands that meet the hypotheses of its clauses. -/
theorem meets_MaskedMultipleTransfers :
    (let n : Fin 24 := 0;
      let rm : Fin 32 := 0;
      let ra : Fin 32 := 1;
      let b : Fin 2 := 0;
      let off : BitVec 15 := 0x0008#15;
      let cut : Fin 17 := 3;
      let s : State := base;
      let sel : Nat → Bool := fun (k : Nat) => k / 16 == (↑b : Nat) && BitVec.getLsbD (s.kr (↑n : Nat) (↑rm : Nat)) (k % 16);
      let slot : Nat → Nat := fun (j : Nat) => (BitVec.setWidth 48 (s.kr (↑n : Nat) (↑ra : Nat) + BitVec.signExtend 64 off * 8)).toNat + 8 * j;
      Ready (↑n : Nat) s ∧
      MemOk s ∧
      rm ≠ ra ∧
      sel (↑rm : Nat) = false ∧
      sel (↑ra : Nat) = false ∧
      slot 0 % 8 = 0 ∧
      slot 16 ≤ 1048576 ∧
      (∀ j < 16, LocalOk (↑n : Nat) (slot j) false s ∧ LocalOk (↑n : Nat) (slot j) true s) ∧
      ((s.getSeq (↑n : Nat)).sb stIE = false ∨ (↑cut : Nat) = 16)) ∧
    (let n : Fin 24 := 0;
      let rm : Fin 32 := 0;
      let ra : Fin 32 := 1;
      let b : Fin 2 := 0;
      let off : BitVec 15 := 0x0008#15;
      let cut : Fin 17 := 2;
      let s : State := base;
      let sel : Nat → Bool := fun (k : Nat) => k / 16 == (↑b : Nat) && BitVec.getLsbD (s.kr (↑n : Nat) (↑rm : Nat)) (k % 16);
      let slot : Nat → Nat := fun (j : Nat) => (BitVec.setWidth 48 (s.kr (↑n : Nat) (↑ra : Nat) + BitVec.signExtend 64 off * 8)).toNat + 8 * j;
      Ready (↑n : Nat) s ∧
      MemOk s ∧
      rm ≠ ra ∧
      sel (↑rm : Nat) = false ∧
      sel (↑ra : Nat) = false ∧
      slot 0 % 8 = 0 ∧
      slot 16 ≤ 1048576 ∧
      (∀ j < 16, LocalOk (↑n : Nat) (slot j) false s ∧ LocalOk (↑n : Nat) (slot j) true s) ∧
      ((s.getSeq (↑n : Nat)).sb stIE = false ∨ (↑cut : Nat) = 16)) := by
  repeat' first | decide +kernel | apply memOk_of | apply ready_of | constructor | unfold LocalOk

/-- O12, part 2: states and operands that meet the hypotheses of its clauses. -/
theorem meets_MaskedMultipleTransfers_2 :
    (let n : Fin 24 := 0;
      let rm : Fin 32 := 1;
      let ra : Fin 32 := 0;
      let b : Fin 2 := 1;
      let off : BitVec 15 := 0;
      let cut : Fin 17 := 0;
      let s : State := S1.onSeq 0 (fun x => { x with r := [(1, 6)], status := x.status ||| BitVec.ofNat 64 (2 ^ stIE) });
      let sel : Nat → Bool := fun (k : Nat) => k / 16 == (↑b : Nat) && BitVec.getLsbD (s.kr (↑n : Nat) (↑rm : Nat)) (k % 16);
      let slot : Nat → Nat := fun (j : Nat) => (BitVec.setWidth 48 (s.kr (↑n : Nat) (↑ra : Nat) + BitVec.signExtend 64 off * 8)).toNat + 8 * j;
      Ready (↑n : Nat) s ∧
      MemOk s ∧
      rm ≠ ra ∧
      sel (↑rm : Nat) = false ∧
      sel (↑ra : Nat) = false ∧
      slot 0 % 8 = 0 ∧
      slot 16 ≤ 1048576 ∧
      (∀ j < 16, LocalOk (↑n : Nat) (slot j) false s ∧ LocalOk (↑n : Nat) (slot j) true s) ∧
      (s.getSeq (↑n : Nat)).sb stIE = true ∧
      (s.getSeq (↑n : Nat)).rptc = 0 ∧
      ((↑cut : Nat) < List.countP (fun (j : Nat) => BitVec.getLsbD (s.kr (↑n : Nat) (↑rm : Nat)) j) (List.range 16))) := by
  repeat' first | decide +kernel | apply memOk_of | apply ready_of | constructor | unfold LocalOk

/-- O13: states and operands that meet the hypotheses of its clauses. -/
theorem meets_BranchesAndJumps :
    (let n : Fin 24 := 0;
      let ra : Fin 32 := 0;
      let off : BitVec 16 := 0x0000#16;
      let s : State := A2;
      let a : Word := s.kr (↑n : Nat) (↑ra : Nat);
      let t : Nat := (BitVec.setWidth 48 (a + BitVec.signExtend 64 off * 4)).toNat;
      Ready (↑n : Nat) s ∧
      (s.getSeq (↑n : Nat)).pc % 4 = 0 ∧
      t % 4 = 0) := by
  repeat' first | decide +kernel | apply memOk_of | apply ready_of | apply executes_of | apply cplReady_of | apply nearBlock_of | constructor

/-- O14: states and operands that meet the hypotheses of its clauses. -/
theorem meets_WindowCallsAndReturns :
    (let n : Fin 24 := 0;
      let ra : Fin 32 := 0;
      let imm : BitVec 16 := 0x0000#16;
      let s : State := W3;
      let x : Machine.Seq := s.getSeq (↑n : Nat);
      let dest : Nat := (BitVec.setWidth 48 (s.kr (↑n : Nat) (↑ra : Nat) + BitVec.signExtend 64 imm * 4)).toNat;
      let k : Nat := 4;
      Ready (↑n : Nat) s ∧
      (s.getSeq (↑n : Nat)).sb stTW = false ∧
      (s.getSeq (↑n : Nat)).pc % 4 = 0 ∧
      (s.getSeq (↑n : Nat)).wcur < 7 ∧
      x.wres < 5 ∧
      k < 7 ∧
      dest % 4 = 0 ∧
      0 < x.wres ∧
      BitVec.toNat (s.kr (↑n : Nat) 23) % 4 = 0) := by
  repeat' first | decide +kernel | apply memOk_of | apply ready_of | apply executes_of | apply cplReady_of | apply nearBlock_of | constructor

/-- O15: states and operands that meet the hypotheses of its clauses. -/
theorem meets_WindowsSpillFillAndFlush :
    (let n : Fin 24 := 0;
      let s : State := T1;
      let x : Machine.Seq := s.getSeq (↑n : Nat);
      let depth : Nat := x.wres + 2;
      Ready (↑n : Nat) s ∧
      MemOk s ∧
      (s.getSeq (↑n : Nat)).sb stTW = true ∧
      (s.getSeq (↑n : Nat)).sb stIE = false ∧
      (s.getSeq (↑n : Nat)).pl ≠ 0 ∧
      (s.getSeq (↑n : Nat)).wcur < 7 ∧
      (s.getSeq (↑n : Nat)).wres ≤ 5 ∧
      x.wsp % 8 = 0 ∧
      64 * depth ≤ x.wsp ∧
      x.wsp ≤ 1048576 ∧
      (∀ j < 8 * depth, LocalOk (↑n : Nat) (x.wsp - 8 * (j + 1)) true s) ∧
      x.wsp + 128 ≤ 1048576 ∧
      (∀ j < 16, LocalOk (↑n : Nat) (x.wsp + 8 * j) false s)) := by
  repeat' first | decide +kernel | apply memOk_of | apply ready_of | constructor | unfold LocalOk

/-- O15, part 2: states and operands that meet the hypotheses of its clauses. -/
theorem meets_WindowsSpillFillAndFlush_2 :
    (let n : Fin 24 := 0;
      let s : State := W5;
      let x : Machine.Seq := s.getSeq (↑n : Nat);
      Ready (↑n : Nat) s ∧
      MemOk s ∧
      (s.getSeq (↑n : Nat)).sb stTW = false ∧
      (s.getSeq (↑n : Nat)).pc % 4 = 0 ∧
      (s.getSeq (↑n : Nat)).wcur < 7 ∧
      x.wsp % 8 = 0 ∧
      64 ≤ x.wsp ∧
      x.wsp + 64 ≤ 1048576 ∧
      (∀ j < 8, LocalOk (↑n : Nat) (x.wsp - 64 + 8 * j) true s ∧ LocalOk (↑n : Nat) (x.wsp + 8 * j) false s) ∧
      x.wres = 5) := by
  repeat' first | decide +kernel | apply memOk_of | apply ready_of | constructor | unfold LocalOk

/-- O15, part 3: states and operands that meet the hypotheses of its clauses. -/
theorem meets_WindowsSpillFillAndFlush_3 :
    (let n : Fin 24 := 0;
      let s : State := W0;
      let x : Machine.Seq := s.getSeq (↑n : Nat);
      Ready (↑n : Nat) s ∧
      MemOk s ∧
      (s.getSeq (↑n : Nat)).sb stTW = false ∧
      (s.getSeq (↑n : Nat)).pc % 4 = 0 ∧
      (s.getSeq (↑n : Nat)).wcur < 7 ∧
      x.wsp % 8 = 0 ∧
      64 ≤ x.wsp ∧
      x.wsp + 64 ≤ 1048576 ∧
      (∀ j < 8, LocalOk (↑n : Nat) (x.wsp - 64 + 8 * j) true s ∧ LocalOk (↑n : Nat) (x.wsp + 8 * j) false s) ∧
      x.wres = 0 ∧
      BitVec.toNat (s.kr (↑n : Nat) 23) % 4 = 0) := by
  repeat' first | decide +kernel | apply memOk_of | apply ready_of | constructor | unfold LocalOk

/-- O16: a repeatable word follows the instruction, and a count that is not zero. -/
theorem meets_RepeatAndLoopAreSetUp :
    Ready 0 R1 ∧ (∃ w : W32, R1.wordAt 0 (nextPc 0 R1) = some w ∧ repeatable w = true) ∧ (5 : BitVec 16) ≠ 0 :=
  ⟨ready_of (by decide +kernel), any_some (by decide +kernel), by decide⟩

/-- O17: states and operands that meet the hypotheses of its clauses. -/
theorem meets_MacInstructionsSetOutAndAddTheirProducts :
    (let n : Fin 24 := 0;
      let s : State := W0;
      Ready (↑n : Nat) s) ∧
    (let n : Fin 24 := 0;
      let m : MacOp := { acc := 1, delta := 5, due := 2 };
      let s : State := M1;
      (s.getSeq (↑n : Nat)).macs = [m] ∧
      (s.getSeq (↑n : Nat)).cycle ≤ m.due ∧
      m.due + 1 < 2 ^ 64) := by
  repeat' first | decide +kernel | apply memOk_of | apply ready_of | apply executes_of | apply cplReady_of | apply nearBlock_of | constructor

/-- O18: states and operands that meet the hypotheses of its clauses. -/
theorem meets_AccumulatorExtractions :
    (let n : Fin 24 := 0;
      let s : State := A2;
      Ready (↑n : Nat) s) := by
  repeat' first | decide +kernel | apply memOk_of | apply ready_of | apply executes_of | apply cplReady_of | apply nearBlock_of | constructor

/-- O19: states and operands that meet the hypotheses of its clauses. -/
theorem meets_RunningBestKeepsTheFirstBest :
    (let n : Fin 24 := 0;
      let rd : Fin 32 := 0;
      let rb : Fin 32 := 3;
      let s : State := S2;
      Ready (↑n : Nat) s ∧
      (↑rd : Nat) % 2 = 0 ∧
      rb ≠ rd ∧
      (↑rb : Nat) ≠ (↑rd : Nat) + 1) ∧
    (let n : Fin 24 := 0;
      let rd : Fin 32 := 0;
      let rb : Fin 32 := 1;
      let s : State := W0;
      Ready (↑n : Nat) s ∧
      ((↑rd : Nat) % 2 = 1 ∨ rb = rd ∨ (↑rb : Nat) = (↑rd : Nat) + 1)) := by
  repeat' first | decide +kernel | apply memOk_of | apply ready_of | apply executes_of | apply cplReady_of | apply nearBlock_of | constructor

/-- O20: states and operands that meet the hypotheses of its clauses. -/
theorem meets_FloatingArithmeticCompletes :
    (let n : Fin 24 := 0;
      let s : State := F4;
      Ready (↑n : Nat) s ∧
      FpReady (↑n : Nat) s) := by
  repeat' first | decide +kernel | apply memOk_of | apply ready_of | apply executes_of | apply cplReady_of | apply nearBlock_of | constructor

/-- O21, part 1: states and operands that meet the hypotheses of its clauses. -/
theorem meets_ExactFloatingResultsAreReturned_1 :
    (let n : Fin 24 := 0;
      let d : Fin 32 := 1;
      let a : Fin 32 := 1;
      let b : Fin 32 := 1;
      let sp : Bool := true;
      let s : State := Z1;
      let x : Int := 54331941161975433971094057134370671144139753877269781989940786789112523710169673948821568332830242369194313051815389533900154902172939719884622193371202514887543053997625561327131456576658722923067348642104892706051193743088519826213421144128812321523103038929280795940379536016276464492336591501748734633869860595795162210976661504;
      let y : Int := 54331941161975433971094057134370671144139753877269781989940786789112523710169673948821568332830242369194313051815389533900154902172939719884622193371202514887543053997625561327131456576658722923067348642104892706051193743088519826213421144128812321523103038929280795940379536016276464492336591501748734633869860595795162210976661504;
      let z : Int := 54331941161975433971094057134370671144139753877269781989940786789112523710169673948821568332830242369194313051815389533900154902172939719884622193371202514887543053997625561327131456576658722923067348642104892706051193743088519826213421144128812321523103038929280795940379536016276464492336591501748734633869860595795162210976661504;
      let w : Int := 13582985290493858492773514283592667786034938469317445497485196697278130927542418487205392083207560592298578262953847383475038725543234929971155548342800628721885763499406390331782864144164680730766837160526223176512798435772129956553355286032203080380775759732320198985094884004069116123084147875437183658467465148948790552744165376;
      let p : Int := 0;
      let pat : Nat := 0;
      Ready (↑n : Nat) s ∧
      FpReady (↑n : Nat) s ∧
      pat < 2 ^ (fmtOf sp).size ∧
      finite ((fmtOf sp).unpack pat) = true ∧
      scaled ((fmtOf sp).unpack pat) = some p ∧
      finite (s.fpNum (↑n : Nat) (↑a : Nat) sp) = true ∧
      scaled (s.fpNum (↑n : Nat) (↑a : Nat) sp) = some x ∧
      finite (s.fpNum (↑n : Nat) (↑b : Nat) sp) = true ∧
      scaled (s.fpNum (↑n : Nat) (↑b : Nat) sp) = some y ∧
      finite (s.fpNum (↑n : Nat) (↑d : Nat) sp) = true ∧
      scaled (s.fpNum (↑n : Nat) (↑d : Nat) sp) = some z ∧
      w = 2 ^ 1100 ∧
      p = x - y) ∧
    (let n : Fin 24 := 0;
      let d : Fin 32 := 1;
      let a : Fin 32 := 1;
      let b : Fin 32 := 1;
      let sp : Bool := true;
      let s : State := Z1;
      let x : Int := 54331941161975433971094057134370671144139753877269781989940786789112523710169673948821568332830242369194313051815389533900154902172939719884622193371202514887543053997625561327131456576658722923067348642104892706051193743088519826213421144128812321523103038929280795940379536016276464492336591501748734633869860595795162210976661504;
      let y : Int := 54331941161975433971094057134370671144139753877269781989940786789112523710169673948821568332830242369194313051815389533900154902172939719884622193371202514887543053997625561327131456576658722923067348642104892706051193743088519826213421144128812321523103038929280795940379536016276464492336591501748734633869860595795162210976661504;
      let z : Int := 54331941161975433971094057134370671144139753877269781989940786789112523710169673948821568332830242369194313051815389533900154902172939719884622193371202514887543053997625561327131456576658722923067348642104892706051193743088519826213421144128812321523103038929280795940379536016276464492336591501748734633869860595795162210976661504;
      let w : Int := 13582985290493858492773514283592667786034938469317445497485196697278130927542418487205392083207560592298578262953847383475038725543234929971155548342800628721885763499406390331782864144164680730766837160526223176512798435772129956553355286032203080380775759732320198985094884004069116123084147875437183658467465148948790552744165376;
      let p : Int := 27165970580987716985547028567185335572069876938634890994970393394556261855084836974410784166415121184597156525907694766950077451086469859942311096685601257443771526998812780663565728288329361461533674321052446353025596871544259913106710572064406160761551519464640397970189768008138232246168295750874367316934930297897581105488330752;
      let pat : Nat := 1073741824;
      Ready (↑n : Nat) s ∧
      FpReady (↑n : Nat) s ∧
      pat < 2 ^ (fmtOf sp).size ∧
      finite ((fmtOf sp).unpack pat) = true ∧
      scaled ((fmtOf sp).unpack pat) = some p ∧
      finite (s.fpNum (↑n : Nat) (↑a : Nat) sp) = true ∧
      scaled (s.fpNum (↑n : Nat) (↑a : Nat) sp) = some x ∧
      finite (s.fpNum (↑n : Nat) (↑b : Nat) sp) = true ∧
      scaled (s.fpNum (↑n : Nat) (↑b : Nat) sp) = some y ∧
      finite (s.fpNum (↑n : Nat) (↑d : Nat) sp) = true ∧
      scaled (s.fpNum (↑n : Nat) (↑d : Nat) sp) = some z ∧
      w = 2 ^ 1100 ∧
      0 ≤ p ∧
      p * p = x * w) := by
  repeat' first | decide +kernel | apply memOk_of | apply ready_of | apply executes_of | apply cplReady_of | apply nearBlock_of | constructor

/-- O21, part 2: states and operands that meet the hypotheses of its clauses. -/
theorem meets_ExactFloatingResultsAreReturned_2 :
    (let n : Fin 24 := 0;
      let d : Fin 32 := 1;
      let a : Fin 32 := 1;
      let b : Fin 32 := 1;
      let sp : Bool := true;
      let s : State := Z1;
      let x : Int := 54331941161975433971094057134370671144139753877269781989940786789112523710169673948821568332830242369194313051815389533900154902172939719884622193371202514887543053997625561327131456576658722923067348642104892706051193743088519826213421144128812321523103038929280795940379536016276464492336591501748734633869860595795162210976661504;
      let y : Int := 54331941161975433971094057134370671144139753877269781989940786789112523710169673948821568332830242369194313051815389533900154902172939719884622193371202514887543053997625561327131456576658722923067348642104892706051193743088519826213421144128812321523103038929280795940379536016276464492336591501748734633869860595795162210976661504;
      let z : Int := 54331941161975433971094057134370671144139753877269781989940786789112523710169673948821568332830242369194313051815389533900154902172939719884622193371202514887543053997625561327131456576658722923067348642104892706051193743088519826213421144128812321523103038929280795940379536016276464492336591501748734633869860595795162210976661504;
      let w : Int := 13582985290493858492773514283592667786034938469317445497485196697278130927542418487205392083207560592298578262953847383475038725543234929971155548342800628721885763499406390331782864144164680730766837160526223176512798435772129956553355286032203080380775759732320198985094884004069116123084147875437183658467465148948790552744165376;
      let p : Int := 13582985290493858492773514283592667786034938469317445497485196697278130927542418487205392083207560592298578262953847383475038725543234929971155548342800628721885763499406390331782864144164680730766837160526223176512798435772129956553355286032203080380775759732320198985094884004069116123084147875437183658467465148948790552744165376;
      let pat : Nat := 1065353216;
      Ready (↑n : Nat) s ∧
      FpReady (↑n : Nat) s ∧
      pat < 2 ^ (fmtOf sp).size ∧
      finite ((fmtOf sp).unpack pat) = true ∧
      scaled ((fmtOf sp).unpack pat) = some p ∧
      finite (s.fpNum (↑n : Nat) (↑a : Nat) sp) = true ∧
      scaled (s.fpNum (↑n : Nat) (↑a : Nat) sp) = some x ∧
      finite (s.fpNum (↑n : Nat) (↑b : Nat) sp) = true ∧
      scaled (s.fpNum (↑n : Nat) (↑b : Nat) sp) = some y ∧
      finite (s.fpNum (↑n : Nat) (↑d : Nat) sp) = true ∧
      scaled (s.fpNum (↑n : Nat) (↑d : Nat) sp) = some z ∧
      w = 2 ^ 1100 ∧
      y ≠ 0 ∧
      p * y = x * w) ∧
    (let n : Fin 24 := 0;
      let d : Fin 32 := 1;
      let a : Fin 32 := 1;
      let b : Fin 32 := 1;
      let sp : Bool := true;
      let s : State := Z1;
      let x : Int := 54331941161975433971094057134370671144139753877269781989940786789112523710169673948821568332830242369194313051815389533900154902172939719884622193371202514887543053997625561327131456576658722923067348642104892706051193743088519826213421144128812321523103038929280795940379536016276464492336591501748734633869860595795162210976661504;
      let y : Int := 54331941161975433971094057134370671144139753877269781989940786789112523710169673948821568332830242369194313051815389533900154902172939719884622193371202514887543053997625561327131456576658722923067348642104892706051193743088519826213421144128812321523103038929280795940379536016276464492336591501748734633869860595795162210976661504;
      let z : Int := 54331941161975433971094057134370671144139753877269781989940786789112523710169673948821568332830242369194313051815389533900154902172939719884622193371202514887543053997625561327131456576658722923067348642104892706051193743088519826213421144128812321523103038929280795940379536016276464492336591501748734633869860595795162210976661504;
      let w : Int := 13582985290493858492773514283592667786034938469317445497485196697278130927542418487205392083207560592298578262953847383475038725543234929971155548342800628721885763499406390331782864144164680730766837160526223176512798435772129956553355286032203080380775759732320198985094884004069116123084147875437183658467465148948790552744165376;
      let p : Int := 271659705809877169855470285671853355720698769386348909949703933945562618550848369744107841664151211845971565259076947669500774510864698599423110966856012574437715269988127806635657282883293614615336743210524463530255968715442599131067105720644061607615515194646403979701897680081382322461682957508743673169349302978975811054883307520;
      let pat : Nat := 1101004800;
      Ready (↑n : Nat) s ∧
      FpReady (↑n : Nat) s ∧
      pat < 2 ^ (fmtOf sp).size ∧
      finite ((fmtOf sp).unpack pat) = true ∧
      scaled ((fmtOf sp).unpack pat) = some p ∧
      finite (s.fpNum (↑n : Nat) (↑a : Nat) sp) = true ∧
      scaled (s.fpNum (↑n : Nat) (↑a : Nat) sp) = some x ∧
      finite (s.fpNum (↑n : Nat) (↑b : Nat) sp) = true ∧
      scaled (s.fpNum (↑n : Nat) (↑b : Nat) sp) = some y ∧
      finite (s.fpNum (↑n : Nat) (↑d : Nat) sp) = true ∧
      scaled (s.fpNum (↑n : Nat) (↑d : Nat) sp) = some z ∧
      w = 2 ^ 1100 ∧
      p * w = z * w + x * y) := by
  repeat' first | decide +kernel | apply memOk_of | apply ready_of | apply executes_of | apply cplReady_of | apply nearBlock_of | constructor

/-- O21, part 3: states and operands that meet the hypotheses of its clauses. -/
theorem meets_ExactFloatingResultsAreReturned_3 :
    (let n : Fin 24 := 0;
      let d : Fin 32 := 1;
      let a : Fin 32 := 1;
      let b : Fin 32 := 1;
      let sp : Bool := true;
      let s : State := Z1;
      let x : Int := 54331941161975433971094057134370671144139753877269781989940786789112523710169673948821568332830242369194313051815389533900154902172939719884622193371202514887543053997625561327131456576658722923067348642104892706051193743088519826213421144128812321523103038929280795940379536016276464492336591501748734633869860595795162210976661504;
      let y : Int := 54331941161975433971094057134370671144139753877269781989940786789112523710169673948821568332830242369194313051815389533900154902172939719884622193371202514887543053997625561327131456576658722923067348642104892706051193743088519826213421144128812321523103038929280795940379536016276464492336591501748734633869860595795162210976661504;
      let z : Int := 54331941161975433971094057134370671144139753877269781989940786789112523710169673948821568332830242369194313051815389533900154902172939719884622193371202514887543053997625561327131456576658722923067348642104892706051193743088519826213421144128812321523103038929280795940379536016276464492336591501748734633869860595795162210976661504;
      let w : Int := 13582985290493858492773514283592667786034938469317445497485196697278130927542418487205392083207560592298578262953847383475038725543234929971155548342800628721885763499406390331782864144164680730766837160526223176512798435772129956553355286032203080380775759732320198985094884004069116123084147875437183658467465148948790552744165376;
      let p : Int := 217327764647901735884376228537482684576559015509079127959763147156450094840678695795286273331320969476777252207261558135600619608691758879538488773484810059550172215990502245308525826306634891692269394568419570824204774972354079304853684576515249286092412155717123183761518144065105857969346366006994938535479442383180648843906646016;
      let pat : Nat := 1098907648;
      Ready (↑n : Nat) s ∧
      FpReady (↑n : Nat) s ∧
      pat < 2 ^ (fmtOf sp).size ∧
      finite ((fmtOf sp).unpack pat) = true ∧
      scaled ((fmtOf sp).unpack pat) = some p ∧
      finite (s.fpNum (↑n : Nat) (↑a : Nat) sp) = true ∧
      scaled (s.fpNum (↑n : Nat) (↑a : Nat) sp) = some x ∧
      finite (s.fpNum (↑n : Nat) (↑b : Nat) sp) = true ∧
      scaled (s.fpNum (↑n : Nat) (↑b : Nat) sp) = some y ∧
      finite (s.fpNum (↑n : Nat) (↑d : Nat) sp) = true ∧
      scaled (s.fpNum (↑n : Nat) (↑d : Nat) sp) = some z ∧
      w = 2 ^ 1100 ∧
      p * w = x * y) ∧
    (let n : Fin 24 := 0;
      let d : Fin 32 := 1;
      let a : Fin 32 := 1;
      let b : Fin 32 := 1;
      let sp : Bool := true;
      let s : State := Z1;
      let x : Int := 54331941161975433971094057134370671144139753877269781989940786789112523710169673948821568332830242369194313051815389533900154902172939719884622193371202514887543053997625561327131456576658722923067348642104892706051193743088519826213421144128812321523103038929280795940379536016276464492336591501748734633869860595795162210976661504;
      let y : Int := 54331941161975433971094057134370671144139753877269781989940786789112523710169673948821568332830242369194313051815389533900154902172939719884622193371202514887543053997625561327131456576658722923067348642104892706051193743088519826213421144128812321523103038929280795940379536016276464492336591501748734633869860595795162210976661504;
      let z : Int := 54331941161975433971094057134370671144139753877269781989940786789112523710169673948821568332830242369194313051815389533900154902172939719884622193371202514887543053997625561327131456576658722923067348642104892706051193743088519826213421144128812321523103038929280795940379536016276464492336591501748734633869860595795162210976661504;
      let w : Int := 13582985290493858492773514283592667786034938469317445497485196697278130927542418487205392083207560592298578262953847383475038725543234929971155548342800628721885763499406390331782864144164680730766837160526223176512798435772129956553355286032203080380775759732320198985094884004069116123084147875437183658467465148948790552744165376;
      let p : Int := 108663882323950867942188114268741342288279507754539563979881573578225047420339347897643136665660484738388626103630779067800309804345879439769244386742405029775086107995251122654262913153317445846134697284209785412102387486177039652426842288257624643046206077858561591880759072032552928984673183003497469267739721191590324421953323008;
      let pat : Nat := 1090519040;
      Ready (↑n : Nat) s ∧
      FpReady (↑n : Nat) s ∧
      pat < 2 ^ (fmtOf sp).size ∧
      finite ((fmtOf sp).unpack pat) = true ∧
      scaled ((fmtOf sp).unpack pat) = some p ∧
      finite (s.fpNum (↑n : Nat) (↑a : Nat) sp) = true ∧
      scaled (s.fpNum (↑n : Nat) (↑a : Nat) sp) = some x ∧
      finite (s.fpNum (↑n : Nat) (↑b : Nat) sp) = true ∧
      scaled (s.fpNum (↑n : Nat) (↑b : Nat) sp) = some y ∧
      finite (s.fpNum (↑n : Nat) (↑d : Nat) sp) = true ∧
      scaled (s.fpNum (↑n : Nat) (↑d : Nat) sp) = some z ∧
      w = 2 ^ 1100 ∧
      p = x + y) := by
  repeat' first | decide +kernel | apply memOk_of | apply ready_of | apply executes_of | apply cplReady_of | apply nearBlock_of | constructor

/-- O22: states and operands that meet the hypotheses of its clauses. -/
theorem meets_FloatingMinimumMovesAndSigns :
    (let n : Fin 24 := 0;
      let a : Fin 32 := 2;
      let b : Fin 32 := 1;
      let sp : Bool := true;
      let s : State := F4;
      Ready (↑n : Nat) s ∧
      FpReady (↑n : Nat) s ∧
      s.fpNum (↑n : Nat) (↑a : Nat) sp = FpNum.nan true ∧
      scaled (s.fpNum (↑n : Nat) (↑b : Nat) sp) ≠ none) := by
  repeat' first | decide +kernel | apply memOk_of | apply ready_of | apply executes_of | apply cplReady_of | apply nearBlock_of | constructor

/-- O23: states and operands that meet the hypotheses of its clauses. -/
theorem meets_FloatingComparisonsAndConversions :
    (let n : Fin 24 := 0;
      let a : Fin 32 := 2;
      let b : Fin 32 := 1;
      let sp : Bool := true;
      let s : State := F4;
      let na : FpNum := s.fpNum (↑n : Nat) (↑a : Nat) sp;
      let nb : FpNum := s.fpNum (↑n : Nat) (↑b : Nat) sp;
      Ready (↑n : Nat) s ∧
      FpReady (↑n : Nat) s ∧
      (scaled na = none ∨ scaled nb = none) ∧
      scaled na = none ∧
      ((BitVec.toInt (s.kr (↑n : Nat) (↑a : Nat))).natAbs ≤ if sp = true then 2 ^ 24 else 2 ^ 53)) ∧
    (let n : Fin 24 := 0;
      let a : Fin 32 := 0;
      let b : Fin 32 := 2;
      let sp : Bool := true;
      let s : State := F3;
      let na : FpNum := s.fpNum (↑n : Nat) (↑a : Nat) sp;
      let nb : FpNum := s.fpNum (↑n : Nat) (↑b : Nat) sp;
      let x : Int := 0;
      let y : Int := 0;
      Ready (↑n : Nat) s ∧
      FpReady (↑n : Nat) s ∧
      scaled na = some x ∧
      scaled nb = some y) ∧
    (let n : Fin 24 := 0;
      let a : Fin 32 := 2;
      let sp : Bool := true;
      let s : State := S2;
      let na : FpNum := s.fpNum (↑n : Nat) (↑a : Nat) sp;
      let v : Int := 0;
      Ready (↑n : Nat) s ∧
      FpReady (↑n : Nat) s ∧
      scaled na = some (v * 2 ^ 1100) ∧
      -2 ^ 63 ≤ v ∧
      v < 2 ^ 63) := by
  repeat' first | decide +kernel | apply memOk_of | apply ready_of | apply executes_of | apply cplReady_of | apply nearBlock_of | constructor

/-- O24: states and operands that meet the hypotheses of its clauses. -/
theorem meets_HalfContextSavesAndRestores :
    (let n : Fin 24 := 0;
      let ra : Fin 32 := 0;
      let s : State := CX 0x4C 0;
      let area : Nat → Bool → Prop := fun (va : Nat) (store : Bool) => va % 64 = 0 ∧ va + 128 ≤ 1048576 ∧ ∀ k < 16, LocalOk (↑n : Nat) (va + 8 * k) store s;
      let va : Nat := (BitVec.setWidth 48 (s.kr (↑n : Nat) (↑ra : Nat))).toNat;
      Ready (↑n : Nat) s ∧
      MemOk s ∧
      (s.getSeq (↑n : Nat)).pl ≠ 0 ∧
      area va true) ∧
    (let n : Fin 24 := 0;
      let s : State := CX 0x4C 0;
      let x : Machine.Seq := s.getSeq (↑n : Nat);
      let word : State → Nat → Nat → Word := fun (t : State) (va k : Nat) => BitVec.ofNat 64 (t.mem.num (bankBase (↑n : Nat) + va + 8 * k) 8);
      let area : Nat → Bool → Prop := fun (va : Nat) (store : Bool) => va % 64 = 0 ∧ va + 128 ≤ 1048576 ∧ ∀ k < 16, LocalOk (↑n : Nat) (va + 8 * k) store s;
      let va : Nat := x.cxlink;
      Ready (↑n : Nat) s ∧
      MemOk s ∧
      (s.getSeq (↑n : Nat)).pl ≠ 0 ∧
      va ≠ 0 ∧
      area va false ∧
      word s va 15 = 76 ∧
      BitVec.getLsbD (word s va 8) stLA = false) := by
  repeat' first | decide +kernel | apply memOk_of | apply ready_of | constructor | unfold LocalOk

/-- O25: states and operands that meet the hypotheses of its clauses. -/
theorem meets_SpecialRegisterReadsAndWrites :
    (let n : Fin 24 := 0;
      let s : State := base;
      Ready (↑n : Nat) s) ∧
    (let n : Fin 24 := 0;
      let s : State := base;
      Ready (↑n : Nat) s) ∧
    (let n : Fin 24 := 0;
      let s : State := base;
      let x : Machine.Seq := s.getSeq (↑n : Nat);
      Ready (↑n : Nat) s ∧
      x.pl ≠ 0) ∧
    (let n : Fin 24 := 0;
      let s : State := base;
      let x : Machine.Seq := s.getSeq (↑n : Nat);
      Ready (↑n : Nat) s ∧
      x.pl ≠ 0) ∧
    (let n : Fin 24 := 0;
      let s : State := base;
      Ready (↑n : Nat) s) ∧
    (let n : Fin 24 := 0;
      let s : State := base;
      Ready (↑n : Nat) s) ∧
    (let n : Fin 24 := 0;
      let s : State := base;
      Ready (↑n : Nat) s) ∧
    (let n : Fin 24 := 0;
      let s : State := base;
      let x : Machine.Seq := s.getSeq (↑n : Nat);
      Ready (↑n : Nat) s ∧
      x.pl ≠ 0) ∧
    (let n : Fin 24 := 0;
      let s : State := base;
      let x : Machine.Seq := s.getSeq (↑n : Nat);
      Ready (↑n : Nat) s ∧
      x.pl ≠ 0) ∧
    (let n : Fin 24 := 0;
      let h : Bool := true;
      let s : State := base;
      let x : Machine.Seq := s.getSeq (↑n : Nat);
      let sp : Fin 32 := 2;
      Ready (↑n : Nat) s ∧
      x.pl ≠ 0 ∧
      (17 ≤ (↑sp : Nat) ∨ h = true ∧ (↑sp : Nat) < 15)) ∧
    (let n : Fin 24 := 0;
      let s : State := base;
      let x : Machine.Seq := s.getSeq (↑n : Nat);
      Ready (↑n : Nat) s ∧
      x.pl ≠ 0) ∧
    (let n : Fin 24 := 0;
      let s : State := base;
      let x : Machine.Seq := s.getSeq (↑n : Nat);
      Ready (↑n : Nat) s ∧
      x.pl ≠ 0) ∧
    (let n : Fin 24 := 0;
      let s : State := base;
      let x : Machine.Seq := s.getSeq (↑n : Nat);
      Ready (↑n : Nat) s ∧
      x.pl ≠ 0) ∧
    (let n : Fin 24 := 0;
      let s : State := base;
      let x : Machine.Seq := s.getSeq (↑n : Nat);
      Ready (↑n : Nat) s ∧
      x.pl ≠ 0) ∧
    (let n : Fin 24 := 0;
      let s : State := base;
      let x : Machine.Seq := s.getSeq (↑n : Nat);
      Ready (↑n : Nat) s ∧
      x.pl ≠ 0) ∧
    (let n : Fin 24 := 0;
      let s : State := base;
      let x : Machine.Seq := s.getSeq (↑n : Nat);
      Ready (↑n : Nat) s ∧
      x.pl ≠ 0) ∧
    (let n : Fin 24 := 0;
      let s : State := base;
      let x : Machine.Seq := s.getSeq (↑n : Nat);
      Ready (↑n : Nat) s ∧
      x.pl ≠ 0) ∧
    (let n : Fin 24 := 0;
      let s : State := base;
      let x : Machine.Seq := s.getSeq (↑n : Nat);
      Ready (↑n : Nat) s ∧
      x.pl ≠ 0) ∧
    (let n : Fin 24 := 0;
      let s : State := base;
      let x : Machine.Seq := s.getSeq (↑n : Nat);
      Ready (↑n : Nat) s ∧
      x.pl ≠ 0) ∧
    (let n : Fin 24 := 0;
      let s : State := base;
      let x : Machine.Seq := s.getSeq (↑n : Nat);
      Ready (↑n : Nat) s ∧
      x.pl ≠ 0) ∧
    (let n : Fin 24 := 0;
      let h : Bool := true;
      let s : State := base;
      let sp : Fin 32 := 2;
      Ready (↑n : Nat) s ∧
      (17 ≤ (↑sp : Nat) ∨ sp = 1 ∨ h = true ∧ (↑sp : Nat) < 15)) := by
  repeat' first | decide +kernel | apply memOk_of | apply ready_of | apply executes_of | apply cplReady_of | apply nearBlock_of | constructor

/-- O25, part 2: states and operands that meet the hypotheses of its clauses. -/
theorem meets_SpecialRegisterReadsAndWrites_2 :
    (let n : Fin 24 := 0;
      let s : State := U1;
      let x : Machine.Seq := s.getSeq (↑n : Nat);
      let sp : Fin 32 := 3;
      Ready (↑n : Nat) s ∧
      x.pl = 0 ∧
      (2 ≤ (↑sp : Nat) ∧ (↑sp : Nat) ≤ 4 ∨ 8 ≤ (↑sp : Nat) ∧ (↑sp : Nat) ≤ 11)) := by
  repeat' first | decide +kernel | apply memOk_of | apply ready_of | apply executes_of | apply cplReady_of | apply nearBlock_of | constructor

/-- O26: states and operands that meet the hypotheses of its clauses. -/
theorem meets_TrapEntrySavesAndSwitches :
    (let n : Fin 24 := 0;
      let s : State := base;
      let x : Machine.Seq := s.getSeq (↑n : Nat);
      (s.getSeq (↑n : Nat)).sb stHZ5C = false ∧
      Ready (↑n : Nat) s ∧
      (x.sb stTW = false ∨ x.sb stIE = true)) := by
  repeat' first | decide +kernel | apply memOk_of | apply ready_of | apply executes_of | apply cplReady_of | apply nearBlock_of | constructor

/-- O26, part 2: states and operands that meet the hypotheses of its clauses. -/
theorem meets_TrapEntrySavesAndSwitches_2 :
    (let n : Fin 24 := 0;
      let s : State := I1;
      let k : Nat := 2;
      let x : Machine.Seq := s.getSeq (↑n : Nat);
      (s.getSeq (↑n : Nat)).sb stHZ5C = false ∧
      x.st = 2 ∧
      x.stepping = false ∧
      x.macs = [] ∧
      x.sb stIE = true ∧
      x.rptc = 0 ∧
      x.mcheck = none ∧
      s.dozes (↑n : Nat) = false ∧
      x.held = none ∧
      s.irqLine (↑n : Nat) = some k) := by
  decide +kernel

/-- O27: states and operands that meet the hypotheses of its clauses. -/
theorem meets_ReturnFromTrapRestoresThePreviousFields :
    (let n : Fin 24 := 0;
      let s : State := RT 0x42 1;
      let x : Machine.Seq := s.getSeq (↑n : Nat);
      Ready (↑n : Nat) s ∧
      x.pl ≠ 0 ∧
      x.epc % 4 ≠ 0) := by
  repeat' first | decide +kernel | apply memOk_of | apply ready_of | apply executes_of | apply cplReady_of | apply nearBlock_of | constructor

/-- O27, part 2: states and operands that meet the hypotheses of its clauses. -/
theorem meets_ReturnFromTrapRestoresThePreviousFields_2 :
    (let n : Fin 24 := 0;
      let s : State := RT 0x40 0;
      let x : Machine.Seq := s.getSeq (↑n : Nat);
      Ready (↑n : Nat) s ∧
      x.pl = 0) := by
  repeat' first | decide +kernel | apply memOk_of | apply ready_of | apply executes_of | apply cplReady_of | apply nearBlock_of | constructor

/-- O27, part 3: states and operands that meet the hypotheses of its clauses. -/
theorem meets_ReturnFromTrapRestoresThePreviousFields_3 :
    (let n : Fin 24 := 0;
      let s : State := RT 0x40 1;
      let x : Machine.Seq := s.getSeq (↑n : Nat);
      Ready (↑n : Nat) s ∧
      x.pl ≠ 0 ∧
      x.sb stHZ5C = false ∧
      x.epc % 4 = 0 ∧
      x.epc < 2 ^ 48) := by
  repeat' first | decide +kernel | apply memOk_of | apply ready_of | apply executes_of | apply cplReady_of | apply nearBlock_of | constructor

/-- O28: states and operands that meet the hypotheses of its clauses. -/
theorem meets_MonitorCallsFencesAndChannelResumes :
    (let n : Fin 24 := 0;
      let s : State := put [(DMA_CH_OWN.PART 2, 0),(DMA_CH_OWN.PART 1,3)] (G 2);
      let x : Machine.Seq := s.getSeq (↑n : Nat);
      let g1 : Word := s.kr (↑n : Nat) 1;
      Ready (↑n : Nat) s ∧
      x.pl ≠ 0 ∧
      2 ≤ BitVec.toNat g1 ∧
      x.errs = [] ∧
      s.storesWait (↑n : Nat) none = false) ∧
    (let n : Fin 24 := 0;
      let ra : Fin 32 := 1;
      let s : State := put [(DMA_CH_OWN.PART 2, 0),(DMA_CH_OWN.PART 1,3)] (G 2);
      let x : Machine.Seq := s.getSeq (↑n : Nat);
      let c : Nat := BitVec.toNat (s.kr (↑n : Nat) (↑ra : Nat)) % 64;
      Ready (↑n : Nat) s ∧
      x.pl ≠ 0 ∧
      s.seqPart (↑n : Nat) = some (s.chPart c) ∧
      s.f (DMA_CH_CSR.STATE c) ≠ 2) := by
  repeat' first | decide +kernel | apply memOk_of | apply ready_of | apply executes_of | apply cplReady_of | apply nearBlock_of | constructor

/-- O28, part 2: states and operands that meet the hypotheses of its clauses. -/
theorem meets_MonitorCallsFencesAndChannelResumes_2 :
    (let n : Fin 24 := 0;
      let s : State := G 1;
      let x : Machine.Seq := s.getSeq (↑n : Nat);
      let g1 : Word := s.kr (↑n : Nat) 1;
      Ready (↑n : Nat) s ∧
      x.pl ≠ 0 ∧
      g1 = 1 ∧
      (s.primaryOf (↑n : Nat)).bind s.autoPending = none) ∧
    (let n : Fin 24 := 0;
      let ra : Fin 32 := 1;
      let s : State := G 1;
      let x : Machine.Seq := s.getSeq (↑n : Nat);
      let c : Nat := BitVec.toNat (s.kr (↑n : Nat) (↑ra : Nat)) % 64;
      Ready (↑n : Nat) s ∧
      x.pl ≠ 0 ∧
      s.seqPart (↑n : Nat) ≠ some (s.chPart c)) := by
  repeat' first | decide +kernel | apply memOk_of | apply ready_of | apply executes_of | apply cplReady_of | apply nearBlock_of | constructor

/-- O28, part 3: states and operands that meet the hypotheses of its clauses. -/
theorem meets_MonitorCallsFencesAndChannelResumes_3 :
    (let n : Fin 24 := 0;
      let s : State := U1;
      let x : Machine.Seq := s.getSeq (↑n : Nat);
      Ready (↑n : Nat) s ∧
      x.pl = 0) ∧
    (let n : Fin 24 := 0;
      let s : State := U1;
      let x : Machine.Seq := s.getSeq (↑n : Nat);
      Ready (↑n : Nat) s ∧
      x.pl = 0) := by
  repeat' first | decide +kernel | apply memOk_of | apply ready_of | apply executes_of | apply cplReady_of | apply nearBlock_of | constructor

/-- O28, part 4: states and operands that meet the hypotheses of its clauses. -/
theorem meets_MonitorCallsFencesAndChannelResumes_4 :
    (let n : Fin 24 := 0;
      let s : State := G 0;
      let x : Machine.Seq := s.getSeq (↑n : Nat);
      let g1 : Word := s.kr (↑n : Nat) 1;
      Ready (↑n : Nat) s ∧
      x.pl ≠ 0 ∧
      g1 = 0) := by
  repeat' first | decide +kernel | apply memOk_of | apply ready_of | apply executes_of | apply cplReady_of | apply nearBlock_of | constructor

/-- O28, part 5: states and operands that meet the hypotheses of its clauses. -/
theorem meets_MonitorCallsFencesAndChannelResumes_5 :
    (let n : Fin 24 := 0;
      let ra : Fin 32 := 1;
      let s : State := put [(DMA_CH_OWN.PART 2, 0),(DMA_CH_CSR.STATE 2, 2)] (G 2);
      let x : Machine.Seq := s.getSeq (↑n : Nat);
      let c : Nat := BitVec.toNat (s.kr (↑n : Nat) (↑ra : Nat)) % 64;
      Ready (↑n : Nat) s ∧
      x.pl ≠ 0 ∧
      s.seqPart (↑n : Nat) = some (s.chPart c) ∧
      s.f (DMA_CH_CSR.STATE c) = 2) := by
  repeat' first | decide +kernel | apply memOk_of | apply ready_of | apply executes_of | apply cplReady_of | apply nearBlock_of | constructor

/-- O29: states and operands that meet the hypotheses of its clauses. -/
theorem meets_ExceptionsWhileTrapsAreOffStopTheCore :
    (let n : Fin 24 := 0;
      let s : State := T1;
      Ready (↑n : Nat) s ∧
      (s.getSeq (↑n : Nat)).sb stTW = true ∧
      (s.getSeq (↑n : Nat)).sb stIE = false) ∧
    (let n : Fin 24 := 0;
      let s : State := T1;
      let x : Machine.Seq := s.getSeq (↑n : Nat);
      Ready (↑n : Nat) s ∧
      (s.getSeq (↑n : Nat)).sb stTW = true ∧
      (s.getSeq (↑n : Nat)).sb stIE = false ∧
      x.sb stFPEN = false) := by
  repeat' first | decide +kernel | apply memOk_of | apply ready_of | apply executes_of | apply cplReady_of | apply nearBlock_of | constructor

/-- O30: states and operands that meet the hypotheses of its clauses. -/
theorem meets_ArrayControlInstructionsAndTheirArrivals :
    (let n : Fin 24 := 1;
      let s : State := PQ;
      Ready (↑n : Nat) s) ∧
    (let n : Fin 24 := 1;
      let row : BitVec 4 := 0x0#4;
      let col : BitVec 4 := 0x0#4;
      let scope : BitVec 2 := 0x3#2;
      let s : State := PQ;
      let x : Machine.Seq := s.getSeq (↑n : Nat);
      let p : Nat := 0;
      Ready (↑n : Nat) s ∧
      s.seqPart (↑n : Nat) = some p ∧
      x.params.length < 8 ∧
      col.toNat < 12 ∧
      scope = 3 ∧
      row = 0 ∧
      col = 0) ∧
    (let n : Fin 24 := 1;
      let col : BitVec 4 := 0x4#4;
      let s : State := PQ;
      let x : Machine.Seq := s.getSeq (↑n : Nat);
      let p : Nat := 0;
      Ready (↑n : Nat) s ∧
      s.seqPart (↑n : Nat) = some p ∧
      x.params.length < 8 ∧
      col.toNat < 12) ∧
    (let n : Fin 24 := 1;
      let s : State := PQ;
      Ready (↑n : Nat) s ∧
      s.primaryOf (↑n : Nat) = none) ∧
    (let n : Fin 24 := 1;
      let s : State := PQ;
      Ready (↑n : Nat) s ∧
      s.primaryOf (↑n : Nat) = none) ∧
    (let p : Fin 12 := 0;
      let q : Fin 24 := 1;
      let w : ParamWrite := { scope := 3, row := 0, col := 0, k := 3, value := 0x00000009#32 };
      let rest : List ParamWrite := [{ scope := 3, row := 0, col := 0, k := 15, value := 0x00000009#32 }];
      let s : State := PQ;
      let isles : List Nat := s.paramIsles (↑p : Nat) w.scope w.row w.col;
      s.busNext (↑p : Nat) = some (↑q : Nat) ∧
      (s.getSeq (↑q : Nat)).params = w :: rest ∧
      w.k < 16 ∧
      (∀ i ∈ isles, i < 156) ∧
      (∃ i ∈ isles, s.islClk i = false)) ∧
    (let p : Fin 12 := 0;
      let n : Fin 24 := 1;
      let m : MoultTok := { row := 0, east := true, mask := 5, plane := 2, tag := 3 };
      let more : List MoultTok := [];
      let s : State := PQ;
      (s.getSeq (↑n : Nat)).moults = m :: more ∧
      s.seqPart (↑n : Nat) = some (↑p : Nat) ∧
      s.partFrozen (↑p : Nat) = false) := by
  repeat' first | decide +kernel | apply memOk_of | apply ready_of | apply executes_of | apply cplReady_of | apply nearBlock_of | constructor

/-- O30, part 2: states and operands that meet the hypotheses of its clauses. -/
theorem meets_ArrayControlInstructionsAndTheirArrivals_2 :
    (let n : Fin 24 := 0;
      let s : State := PQ;
      let x : Machine.Seq := s.getSeq (↑n : Nat);
      let p : Nat := 0;
      Ready (↑n : Nat) s ∧
      s.primaryOf (↑n : Nat) = some p ∧
      x.params = []) ∧
    (let n : Fin 24 := 0;
      let s : State := PQ;
      let x : Machine.Seq := s.getSeq (↑n : Nat);
      let p : Nat := 0;
      Ready (↑n : Nat) s ∧
      s.primaryOf (↑n : Nat) = some p ∧
      x.params = []) := by
  repeat' first | decide +kernel | apply memOk_of | apply ready_of | apply executes_of | apply cplReady_of | apply nearBlock_of | constructor

/-- O30, part 3: states and operands that meet the hypotheses of its clauses. -/
theorem meets_ArrayControlInstructionsAndTheirArrivals_3 :
    (let n : Fin 24 := 5;
      let s : State := PQ;
      Ready (↑n : Nat) s ∧
      s.seqPart (↑n : Nat) = none) ∧
    (let n : Fin 24 := 5;
      let row : BitVec 4 := 0x0#4;
      let col : BitVec 4 := 0x0#4;
      let scope : BitVec 2 := 0x3#2;
      let s : State := PQ;
      Ready (↑n : Nat) s ∧
      s.seqPart (↑n : Nat) = none ∧
      scope = 3 ∧
      row = 0 ∧
      col = 0) := by
  repeat' first | decide +kernel | apply memOk_of | apply ready_of | apply executes_of | apply cplReady_of | apply nearBlock_of | constructor

/-- O30, part 4: states and operands that meet the hypotheses of its clauses. -/
theorem meets_ArrayControlInstructionsAndTheirArrivals_4 :
    (let p : Fin 12 := 0;
      let q : Fin 24 := 1;
      let w : ParamWrite := { scope := 0, row := 0, col := 0, k := 3, value := 0x00000009#32 };
      let rest : List ParamWrite := [];
      let s : State := ((two.onSeq 1 (fun x => { x with params := [{ scope := 0, row := 0, col := 0, k := 3, value := 9 }], moults := [{ row := 0, east := true, mask := 5, plane := 2, tag := 3, due := false }] })).onIsl 0 (fun x => { x with inReset := false, frozen := true }));
      let isles : List Nat := s.paramIsles (↑p : Nat) w.scope w.row w.col;
      s.busNext (↑p : Nat) = some (↑q : Nat) ∧
      (s.getSeq (↑q : Nat)).params = w :: rest ∧
      w.k < 16 ∧
      (∀ i ∈ isles, i < 156) ∧
      (∀ i ∈ isles, s.islClk i = true)) ∧
    (let p : Fin 12 := 0;
      let n : Fin 24 := 1;
      let m : MoultTok := { row := 0, east := true, mask := 5, plane := 2, tag := 3, due := false };
      let more : List MoultTok := [];
      let s : State := ((two.onSeq 1 (fun x => { x with params := [{ scope := 0, row := 0, col := 0, k := 3, value := 9 }], moults := [{ row := 0, east := true, mask := 5, plane := 2, tag := 3, due := false }] })).onIsl 0 (fun x => { x with inReset := false, frozen := true }));
      (s.getSeq (↑n : Nat)).moults = m :: more ∧
      s.seqPart (↑n : Nat) = some (↑p : Nat) ∧
      s.partFrozen (↑p : Nat) = true ∧
      m.due = false) := by
  decide +kernel

/-- O31: states and operands that meet the hypotheses of its clauses. -/
theorem meets_BranchesOnFailAwaitsAndFreezes :
    (let n : Fin 24 := 0;
      let cond : Fin 4 := 3;
      let p : Nat := 0;
      let s : State := DR;
      let flag : Prop := if (↑cond : Nat) % 2 = 0 then s.f (SEQ_PFLAG.FAILS (↑n : Nat)) = 1 else s.f (SEQ_PFLAG.FAILL (↑n : Nat)) = 1;
      Ready (↑n : Nat) s ∧
      s.primaryOf (↑n : Nat) = some p ∧
      (s.getSeq (↑n : Nat)).pc % 4 = 0 ∧
      (flag ↔ (↑cond : Nat) < 2)) ∧
    (let n : Fin 24 := 0;
      let ra : Fin 32 := 1;
      let p : Nat := 0;
      let s : State := DR;
      let mask : Nat := (BitVec.setWidth 24 (s.kr (↑n : Nat) (↑ra : Nat))).toNat;
      let due : Nat := (s.f (SEQ_AEV_PEND.PEND (↑n : Nat)) ||| if s.drained p = true then 2 ^ 19 else 0) &&& mask;
      Ready (↑n : Nat) s ∧
      s.primaryOf (↑n : Nat) = some p ∧
      (s.getSeq (↑n : Nat)).pc % 4 = 0 ∧
      due ≠ 0) ∧
    (let n : Fin 24 := 0;
      let p : Nat := 0;
      let s : State := DR;
      Ready (↑n : Nat) s ∧
      s.primaryOf (↑n : Nat) = some p ∧
      (s.getSeq (↑n : Nat)).pc % 4 = 0 ∧
      s.f (ERR_CAP.STATE p) = 0) := by
  repeat' first | decide +kernel | apply memOk_of | apply ready_of | apply executes_of | apply cplReady_of | apply nearBlock_of | constructor

/-- O31, part 2: states and operands that meet the hypotheses of its clauses. -/
theorem meets_BranchesOnFailAwaitsAndFreezes_2 :
    (let n : Fin 24 := 0;
      let w : AwaitOp := { mask := 1, rd := 3, limit := 100 };
      let v : Nat := 0;
      let s : State := AW;
      (s.getSeq (↑n : Nat)).st = 3 ∧
      (s.getSeq (↑n : Nat)).wait = some w ∧
      w.limit ≠ 0 ∧
      (s.getSeq (↑n : Nat)).stepping = false ∧
      (s.getSeq (↑n : Nat)).sb stLA = false ∧
      (s.getSeq (↑n : Nat)).macs = [] ∧
      (s.getSeq (↑n : Nat)).loads = [] ∧
      s.f (SEQ_CTL.RUN (↑n : Nat)) = 1 ∧
      (∀ (p : Nat), s.primaryOf (↑n : Nat) = some p → s.f (GLB_PART_CFG.STATE p) = stRUNNING) ∧
      (v = match s.primaryOf (↑n : Nat) with | some p => (s.f (SEQ_AEV_PEND.PEND (↑n : Nat)) ||| if s.drained p = true then 2 ^ 19 else 0) &&& w.mask | x => 0)) := by
  decide +kernel

/-- O31, part 3: states and operands that meet the hypotheses of its clauses. -/
theorem meets_BranchesOnFailAwaitsAndFreezes_3 :
    (let n : Fin 24 := 0;
      let ra : Fin 32 := 1;
      let cond : Fin 4 := 0;
      let p : Nat := 0;
      let s : State := put [(SEQ_PFLAG.FAILL 0,1),(ERR_CAP.STATE 0, 2)] S1;
      let flag : Prop := if (↑cond : Nat) % 2 = 0 then s.f (SEQ_PFLAG.FAILS (↑n : Nat)) = 1 else s.f (SEQ_PFLAG.FAILL (↑n : Nat)) = 1;
      let mask : Nat := (BitVec.setWidth 24 (s.kr (↑n : Nat) (↑ra : Nat))).toNat;
      let due : Nat := (s.f (SEQ_AEV_PEND.PEND (↑n : Nat)) ||| if s.drained p = true then 2 ^ 19 else 0) &&& mask;
      let v : Bool := true;
      let k : Fin 4 := 1;
      Ready (↑n : Nat) s ∧
      s.primaryOf (↑n : Nat) = some p ∧
      (s.getSeq (↑n : Nat)).pc % 4 = 0 ∧
      (¬(flag ↔ (↑cond : Nat) < 2)) ∧
      (v = true ∨ k = 0) ∧
      due = 0 ∧
      s.f (ERR_CAP.STATE p) = 2) := by
  repeat' first | decide +kernel | apply memOk_of | apply ready_of | apply executes_of | apply cplReady_of | apply nearBlock_of | constructor

/-- O31, part 4: states and operands that meet the hypotheses of its clauses. -/
theorem meets_BranchesOnFailAwaitsAndFreezes_4 :
    (let n : Fin 24 := 0;
      let p : Nat := 0;
      let s : State := put [(SEQ_PFLAG.FAILL 0,1),(ERR_CAP.STATE 0, 2)] S1;
      let v : Bool := false;
      let k : Fin 4 := 1;
      Ready (↑n : Nat) s ∧
      s.primaryOf (↑n : Nat) = some p ∧
      (s.getSeq (↑n : Nat)).pc % 4 = 0 ∧
      v = false ∧
      k ≠ 0) := by
  repeat' first | decide +kernel | apply memOk_of | apply ready_of | apply executes_of | apply cplReady_of | apply nearBlock_of | constructor

/-- O32: states and operands that meet the hypotheses of its clauses. -/
theorem meets_SequencerRunHaltAndReset :
    (let n : Fin 24 := 0;
      let s : State := H3;
      let x : Machine.Seq := s.getSeq (↑n : Nat);
      let p : Nat := 0;
      s.seqClk (↑n : Nat) = true ∧
      s.primaryOf (↑n : Nat) = some p ∧
      x.st = 2 ∧
      x.rptc = 0 ∧
      s.f (GLB_PART_CFG.STATE p) = 3) := by
  decide +kernel

/-- O32, part 2: states and operands that meet the hypotheses of its clauses. -/
theorem meets_SequencerRunHaltAndReset_2 :
    (let n : Fin 24 := 0;
      let s : State := H2 1;
      let x : Machine.Seq := s.getSeq (↑n : Nat);
      let p : Nat := 0;
      s.seqClk (↑n : Nat) = true ∧
      s.primaryOf (↑n : Nat) = some p ∧
      (s.seqPart (↑n : Nat)).isSome = true ∧
      x.st = 1 ∧
      s.f (GLB_PART_CFG.STATE p) = 2) := by
  decide +kernel

/-- O32, part 3: states and operands that meet the hypotheses of its clauses. -/
theorem meets_SequencerRunHaltAndReset_3 :
    (let n : Fin 24 := 1;
      let s : State := H1 3;
      let x : Machine.Seq := s.getSeq (↑n : Nat);
      s.seqClk (↑n : Nat) = true ∧
      s.primaryOf (↑n : Nat) = none ∧
      (x.st = 2 ∧ x.rptc = 0 ∨ x.st = 3)) := by
  decide +kernel

/-- O32, part 4: states and operands that meet the hypotheses of its clauses. -/
theorem meets_SequencerRunHaltAndReset_4 :
    (let n : Fin 24 := 1;
      let s : State := H3.onSeq 1 (fun x => { x with blocks := [] });
      let x : Machine.Seq := s.getSeq (↑n : Nat);
      s.seqClk (↑n : Nat) = true ∧
      s.primaryOf (↑n : Nat) = none ∧
      (s.seqPart (↑n : Nat)).isSome = true ∧
      x.st = 1) ∧
    (let n : Fin 24 := 1;
      let rd : Fin 32 := 3;
      let ra : Fin 32 := 1;
      let imm : BitVec 16 := 5;
      let s : State := H3.onSeq 1 (fun x => { x with blocks := [] });
      (s.getSeq (↑n : Nat)).st = 1 ∧
      s.primaryOf (↑n : Nat) = none ∧
      (s.getSeq (↑n : Nat)).stepping = false ∧
      (s.getSeq (↑n : Nat)).sb stRP = false ∧
      (s.getSeq (↑n : Nat)).sb stLA = false ∧
      (s.getSeq (↑n : Nat)).macs = [] ∧
      (s.getSeq (↑n : Nat)).loads = [] ∧
      (s.getSeq (↑n : Nat)).again = [] ∧
      (s.getSeq (↑n : Nat)).rptc = 0 ∧
      s.seqClk (↑n : Nat) = true ∧
      (∀ e ∈ (s.getSeq (↑n : Nat)).soon, e.2 ≤ (s.getSeq (↑n : Nat)).cycle) ∧
      NearBlock (↑n : Nat) s ∧
      (s.getSeq (↑n : Nat)).pc % 4 = 0 ∧
      s.mem.num (bankBase (↑n : Nat) + (s.getSeq (↑n : Nat)).pc) 4 = 2 * 2 ^ 26 + (↑rd : Nat) * 2 ^ 21 + (↑ra : Nat) * 2 ^ 16 + imm.toNat) := by
  repeat' first | decide +kernel | apply memOk_of | apply ready_of | apply executes_of | apply cplReady_of | apply nearBlock_of | constructor

/-- O32, part 5: states and operands that meet the hypotheses of its clauses. -/
theorem meets_SequencerRunHaltAndReset_5 :
    (let n : Fin 24 := 0;
      let s : State := S1.onSeq 0 (fun x => { x with blocks := [] });
      (s.getSeq (↑n : Nat)).st = 2 ∧
      (s.getSeq (↑n : Nat)).sb stLA = false ∧
      (s.getSeq (↑n : Nat)).mcheck = none ∧
      s.dozes (↑n : Nat) = false ∧
      (s.getSeq (↑n : Nat)).again = [] ∧
      ((s.getSeq (↑n : Nat)).holds = true ∨ (s.getSeq (↑n : Nat)).held = none) ∧
      s.irqTaken (↑n : Nat) = none ∧
      NearBlock (↑n : Nat) s) := by
  repeat' first | decide +kernel | apply memOk_of | apply ready_of | apply executes_of | apply cplReady_of | apply nearBlock_of | constructor

/-- O33: states and operands that meet the hypotheses of its clauses. -/
theorem meets_SequencerRegistersAndThePrimarysEvents :
    (let n : Fin 24 := 0;
      let s : State := E1;
      s.seqClk (↑n : Nat) = true) ∧
    (let n : Fin 24 := 0;
      let s : State := E1;
      s.seqClk (↑n : Nat) = true) ∧
    (let n : Fin 24 := 0;
      let s : State := E1;
      s.seqClk (↑n : Nat) = true) ∧
    (let n : Fin 24 := 0;
      let s : State := E1;
      let p : Nat := 0;
      s.seqClk (↑n : Nat) = true ∧
      s.primaryOf (↑n : Nat) = some p) ∧
    (let n : Fin 24 := 0;
      let s : State := E1;
      let p : Nat := 0;
      s.seqClk (↑n : Nat) = true ∧
      s.primaryOf (↑n : Nat) = some p) ∧
    (let p : Fin 12 := 0;
      let n : Fin 24 := 0;
      let s : State := E1;
      s.primary (↑p : Nat) = some (↑n : Nat) ∧
      s.pf0 (↑p : Nat) = false ∧
      s.pf0Rose (↑p : Nat) = false) ∧
    (let p : Fin 12 := 0;
      let n : Fin 24 := 0;
      let e : AEv := { part := 0, bit := 3, kind := 1, src := 7, cycle := 0 };
      let s : State := E1;
      s.primary (↑p : Nat) = some (↑n : Nat) ∧
      (List.find? (fun (e : AEv) => e.part == (↑p : Nat)) s.aev = some e) ∧
      e.bit < 24 ∧
      (s.getSeq (↑n : Nat)).wait = none ∧
      s.pf0 (↑p : Nat) = false ∧
      s.pf0Rose (↑p : Nat) = false) := by
  decide +kernel

/-- O33, part 2: states and operands that meet the hypotheses of its clauses. -/
theorem meets_SequencerRegistersAndThePrimarysEvents_2 :
    (let n : Fin 24 := 1;
      let s : State := E2;
      s.seqClk (↑n : Nat) = true ∧
      s.primaryOf (↑n : Nat) = none) ∧
    (let n : Fin 24 := 1;
      let s : State := E2;
      s.seqClk (↑n : Nat) = true ∧
      s.primaryOf (↑n : Nat) = none) := by
  decide +kernel

/-- O33, part 3: states and operands that meet the hypotheses of its clauses. -/
theorem meets_SequencerRegistersAndThePrimarysEvents_3 :
    (let p : Fin 12 := 0;
      let n : Fin 24 := 0;
      let s : State := E2;
      s.primary (↑p : Nat) = some (↑n : Nat) ∧
      (s.pf0 (↑p : Nat) = true ∨ s.pf0Rose (↑p : Nat) = true)) ∧
    (let p : Fin 12 := 0;
      let n : Fin 24 := 0;
      let e : AEv := { part := 0, bit := 22, kind := 0, src := 300, cycle := 0 };
      let s : State := E2;
      s.primary (↑p : Nat) = some (↑n : Nat) ∧
      (List.find? (fun (e : AEv) => e.part == (↑p : Nat)) s.aev = some e) ∧
      e.bit < 24 ∧
      (s.getSeq (↑n : Nat)).wait = none ∧
      (s.pf0 (↑p : Nat) = true ∨ s.pf0Rose (↑p : Nat) = true)) := by
  decide +kernel

/-- O33, part 4: states and operands that meet the hypotheses of its clauses. -/
theorem meets_SequencerRegistersAndThePrimarysEvents_4 :
    (let n : Fin 24 := 4;
      let bits : BitVec 24 := 1;
      let bells : BitVec 16 := 1;
      let hold : Bool := true;
      let drv : BitVec 3 := 1;
      let s : State := base;
      let i : Instr := Instr.seqClrerr 4;
      s.seqClk (↑n : Nat) = false ∧
      i ∈ [Instr.seqClrerr n, Instr.seqClrcoll n, Instr.aevPendClear n bits, Instr.doorbellSet n bells, Instr.intakeHold n hold, Instr.partitionFlagDrive n drv]) := by
  decide +kernel

/-- O34: states and operands that meet the hypotheses of its clauses. -/
theorem meets_BankAccessesAtTheExternalPort :
    (let n : Fin 24 := 0;
      let off : BitVec 20 := 0x00000#20;
      let size : Fin 9 := 2;
      let s : State := base;
      let a : Nat := bankBase (↑n : Nat) + off.toNat;
      MemOk s ∧
      s.seqClk (↑n : Nat) = true ∧
      off.toNat + (↑size : Nat) ≤ 1048576 ∧
      (∀ k < (↑size : Nat), s.ecc (a + k) = 0)) ∧
    (let n : Fin 24 := 0;
      let off : BitVec 20 := 0x00000#20;
      let size : Fin 9 := 2;
      let s : State := base;
      let a : Nat := bankBase (↑n : Nat) + off.toNat;
      MemOk s ∧
      s.seqClk (↑n : Nat) = true ∧
      off.toNat + (↑size : Nat) ≤ 1048576 ∧
      (∀ k < (↑size : Nat), s.ecc (a + k) = 0)) ∧
    (let n : Fin 24 := 0;
      let size : Fin 9 := 2;
      let s : State := base;
      MemOk s ∧
      (↑size : Nat) ≠ 0 ∧
      s.seqClk (↑n : Nat) = true) := by
  repeat' first | decide +kernel | apply memOk_of | apply ready_of | apply executes_of | apply cplReady_of | apply nearBlock_of | constructor

/-- O34, part 2: states and operands that meet the hypotheses of its clauses. -/
theorem meets_BankAccessesAtTheExternalPort_2 :
    (let n : Fin 24 := 3;
      let size : Fin 9 := 1;
      let s : State := put [(CLK_STAB0.SEQ,0)] base;
      MemOk s ∧
      (↑size : Nat) ≠ 0 ∧
      s.seqClk (↑n : Nat) = false) ∧
    (let n : Fin 24 := 3;
      let size : Fin 9 := 1;
      let s : State := put [(CLK_STAB0.SEQ,0)] base;
      MemOk s ∧
      (↑size : Nat) ≠ 0 ∧
      s.seqClk (↑n : Nat) = false) := by
  repeat' first | decide +kernel | apply memOk_of | apply ready_of | apply executes_of | apply cplReady_of | apply nearBlock_of | constructor

/-- O35: states and operands that meet the hypotheses of its clauses. -/
theorem meets_TimersMachineChecksAndLateErrors :
    (let n : Fin 24 := 0;
      let e : FaultEntry := { stream := false, port := 0, index := 3, ctx := 5 };
      let s : State := Q1;
      let x : Machine.Seq := s.getSeq (↑n : Nat);
      s.seqClk (↑n : Nat) = true ∧
      x.st ≠ 5 ∧
      s.f (SEQ_TIMER.EN (↑n : Nat)) = 1 ∧
      x.cycle < s.f (SEQ_TIMER.CMP (↑n : Nat)) ∧
      x.macs = [] ∧
      x.st = 2 ∧
      x.rptc = 0 ∧
      x.mcheck = none ∧
      s.firmOn = true ∧
      (List.find? (fun (e : FaultEntry) => e.ctx == s.f (SEQ_CTXID.CTXID (↑n : Nat))) x.dmaq = some e) ∧
      e.port < 32 ∧
      e.index < 64) ∧
    (let n : Fin 24 := 0;
      let r : PostErr := { va := 5, word := 268435456 };
      let rest : List PostErr := [];
      let s : State := Q1;
      let x : Machine.Seq := s.getSeq (↑n : Nat);
      x.errs = r :: rest ∧
      x.held = none ∧
      x.st = 2 ∧
      (x.sb stTW = false ∨ x.sb stIE = true) ∧
      x.macs = []) := by
  decide +kernel

/-- O35, part 2: states and operands that meet the hypotheses of its clauses. -/
theorem meets_TimersMachineChecksAndLateErrors_2 :
    (let n : Fin 24 := 0;
      let s : State := Q3;
      let x : Machine.Seq := s.getSeq (↑n : Nat);
      s.seqClk (↑n : Nat) = true ∧
      (∀ e ∈ x.dmaq, e.ctx ≠ s.f (SEQ_CTXID.CTXID (↑n : Nat)))) := by
  decide +kernel

/-- O35, part 3: states and operands that meet the hypotheses of its clauses. -/
theorem meets_TimersMachineChecksAndLateErrors_3 :
    (let n : Fin 24 := 0;
      let r : PostErr := { va := 1193046, word := 268435456 };
      let rest : List PostErr := [{ va := 7, word := 0 }];
      let s : State := Q2;
      let x : Machine.Seq := s.getSeq (↑n : Nat);
      x.errs = r :: rest ∧
      x.held = none ∧
      x.st = 2 ∧
      x.sb stTW = true ∧
      x.sb stIE = false) := by
  decide +kernel

/-- O36: states and operands that meet the hypotheses of its clauses. -/
theorem meets_WordUnitsFireAndDeliverTheirResults :
    (let i : Fin 156 := 0;
      let u : Fin 16 := 1;
      let s : State := ((pipes ++ pipes.map memd ++ [WU 0x02000000 (fun w => { w with a := [dw 5, dw 6], b := [dw 7], acc := 9 }), WU 0x02000000 id, WU 0x20000000 (fun w => { w with a := [dw 5, dw 6], b := [dw 7], acc := 9 }) (16*2^26+17*2^20+2^18)] : List State)).getD 33 base;
      let w : Wu := s.getWu (↑i : Nat) (↑u : Nat);
      let e : Firing := { opw := 0x31000000#32, mbase := 0x0009#16, a := 0x000000005#36, b := 0x000000007#36, m := 0x000000000#36, s := false, skip := false, tok := none };
      let rest : List Firing := [];
      let code : Nat := opc (BitVec.toNat e.opw);
      s.canFire (↑i : Nat) (↑u : Nat) = false ∧
      s.islRuns (↑i : Nat) = true ∧
      w.pipe = e :: rest ∧
      w.out = [] ∧
      e.tok = none ∧
      Unread (↑i : Nat) (↑u : Nat) s ∧
      e.skip = false ∧
      code = 49) := by
  repeat' first | decide +kernel | apply memOk_of | apply ready_of | apply executes_of | apply cplReady_of | apply nearBlock_of | constructor

/-- O36, part 2: states and operands that meet the hypotheses of its clauses. -/
theorem meets_WordUnitsFireAndDeliverTheirResults_2 :
    (let i : Fin 156 := 0;
      let u : Fin 16 := 1;
      let s : State := ((pipes ++ pipes.map memd ++ [WU 0x02000000 (fun w => { w with a := [dw 5, dw 6], b := [dw 7], acc := 9 }), WU 0x02000000 id, WU 0x20000000 (fun w => { w with a := [dw 5, dw 6], b := [dw 7], acc := 9 }) (16*2^26+17*2^20+2^18)] : List State)).getD 86 base;
      let w : Wu := s.getWu (↑i : Nat) (↑u : Nat);
      let e : Firing := { opw := 0x60000100#32, mbase := 0x0003#16, a := 0x000000006#36, b := 0x000000000#36, m := 0x000000000#36, s := false, skip := false, tok := none };
      let rest : List Firing := [];
      s.islRuns (↑i : Nat) = true ∧
      MemOk s ∧
      w.pipe = e :: rest ∧
      e.tok = none ∧
      e.skip = false ∧
      opc (BitVec.toNat e.opw) = 96) := by
  repeat' first | decide +kernel | apply memOk_of | apply ready_of | apply executes_of | apply cplReady_of | apply nearBlock_of | constructor

/-- O36, part 3: states and operands that meet the hypotheses of its clauses. -/
theorem meets_WordUnitsFireAndDeliverTheirResults_3 :
    (let i : Fin 156 := 0;
      let u : Fin 16 := 1;
      let s : State := ((pipes ++ pipes.map memd ++ [WU 0x02000000 (fun w => { w with a := [dw 5, dw 6], b := [dw 7], acc := 9 }), WU 0x02000000 id, WU 0x20000000 (fun w => { w with a := [dw 5, dw 6], b := [dw 7], acc := 9 }) (16*2^26+17*2^20+2^18)] : List State)).getD 90 base;
      s.canFire (↑i : Nat) (↑u : Nat) = true) := by
  decide +kernel

/-- O36, part 4: states and operands that meet the hypotheses of its clauses. -/
theorem meets_WordUnitsFireAndDeliverTheirResults_4 :
    (let i : Fin 156 := 0;
      let u : Fin 16 := 1;
      let s : State := ((pipes ++ pipes.map memd ++ [WU 0x02000000 (fun w => { w with a := [dw 5, dw 6], b := [dw 7], acc := 9 }), WU 0x02000000 id, WU 0x20000000 (fun w => { w with a := [dw 5, dw 6], b := [dw 7], acc := 9 }) (16*2^26+17*2^20+2^18)] : List State)).getD 8 base;
      let w : Wu := s.getWu (↑i : Nat) (↑u : Nat);
      let e : Firing := { opw := 0x02008000#32, mbase := 0x0000#16, a := 0x17fffffff#36, b := 0x600000001#36, m := 0x000000000#36, s := false, skip := false, tok := none };
      let rest : List Firing := [];
      let code : Nat := opc (BitVec.toNat e.opw);
      s.islRuns (↑i : Nat) = true ∧
      w.pipe = e :: rest ∧
      w.out = [] ∧
      e.tok = none ∧
      Unread (↑i : Nat) (↑u : Nat) s ∧
      e.skip = false ∧
      code = 2) := by
  repeat' first | decide +kernel | apply memOk_of | apply ready_of | apply executes_of | apply cplReady_of | apply nearBlock_of | constructor

/-- O36, part 5: states and operands that meet the hypotheses of its clauses. -/
theorem meets_WordUnitsFireAndDeliverTheirResults_5 :
    (let i : Fin 156 := 0;
      let u : Fin 16 := 1;
      let s : State := ((pipes ++ pipes.map memd ++ [WU 0x02000000 (fun w => { w with a := [dw 5, dw 6], b := [dw 7], acc := 9 }), WU 0x02000000 id, WU 0x20000000 (fun w => { w with a := [dw 5, dw 6], b := [dw 7], acc := 9 }) (16*2^26+17*2^20+2^18)] : List State)).getD 57 base;
      let w : Wu := s.getWu (↑i : Nat) (↑u : Nat);
      let e : Firing := { opw := 0x02000000#32, mbase := 0x0000#16, a := 0x100000005#36, b := 0x000000007#36, m := 0x000000000#36, s := false, skip := true, tok := none };
      let rest : List Firing := [];
      s.islRuns (↑i : Nat) = true ∧
      w.pipe = e :: rest ∧
      w.out = [] ∧
      e.tok = none ∧
      Unread (↑i : Nat) (↑u : Nat) s ∧
      e.skip = true) := by
  repeat' first | decide +kernel | apply memOk_of | apply ready_of | apply executes_of | apply cplReady_of | apply nearBlock_of | constructor

/-- O36, part 6: states and operands that meet the hypotheses of its clauses. -/
theorem meets_WordUnitsFireAndDeliverTheirResults_6 :
    (let i : Fin 156 := 0;
      let u : Fin 16 := 1;
      let s : State := ((pipes ++ pipes.map memd ++ [WU 0x02000000 (fun w => { w with a := [dw 5, dw 6], b := [dw 7], acc := 9 }), WU 0x02000000 id, WU 0x20000000 (fun w => { w with a := [dw 5, dw 6], b := [dw 7], acc := 9 }) (16*2^26+17*2^20+2^18)] : List State)).getD 71 base;
      let w : Wu := s.getWu (↑i : Nat) (↑u : Nat);
      let e : Firing := { opw := 0x48000020#32, mbase := 0x0000#16, a := 0x080000000#36, b := 0x07fffffff#36, m := 0x000000000#36, s := false, skip := false, tok := none };
      let rest : List Firing := [];
      let code : Nat := opc (BitVec.toNat e.opw);
      s.islRuns (↑i : Nat) = true ∧
      w.pipe = e :: rest ∧
      w.out = [] ∧
      e.tok = none ∧
      Unread (↑i : Nat) (↑u : Nat) s ∧
      e.skip = false ∧
      code = 72 ∧
      opEMIT (BitVec.toNat e.opw) ≠ 0 ∧
      w.pinned = false) := by
  repeat' first | decide +kernel | apply memOk_of | apply ready_of | apply executes_of | apply cplReady_of | apply nearBlock_of | constructor

/-- O36, part 7: states and operands that meet the hypotheses of its clauses. -/
theorem meets_WordUnitsFireAndDeliverTheirResults_7 :
    (let i : Fin 156 := 0;
      let u : Fin 16 := 1;
      let s : State := ((pipes ++ pipes.map memd ++ [WU 0x02000000 (fun w => { w with a := [dw 5, dw 6], b := [dw 7], acc := 9 }), WU 0x02000000 id, WU 0x20000000 (fun w => { w with a := [dw 5, dw 6], b := [dw 7], acc := 9 }) (16*2^26+17*2^20+2^18)] : List State)).getD 32 base;
      let w : Wu := s.getWu (↑i : Nat) (↑u : Nat);
      let e : Firing := { opw := 0x50000000#32, mbase := 0x0000#16, a := 0x000000005#36, b := 0x000000007#36, m := 0x000000000#36, s := false, skip := false, tok := none };
      let rest : List Firing := [];
      let code : Nat := opc (BitVec.toNat e.opw);
      s.islRuns (↑i : Nat) = true ∧
      w.pipe = e :: rest ∧
      w.out = [] ∧
      e.tok = none ∧
      Unread (↑i : Nat) (↑u : Nat) s ∧
      e.skip = false ∧
      code = 80) := by
  repeat' first | decide +kernel | apply memOk_of | apply ready_of | apply executes_of | apply cplReady_of | apply nearBlock_of | constructor

/-- O37: states and operands that meet the hypotheses of its clauses. -/
theorem meets_TokensPassAndBlocksEndInOrder :
    (let i : Fin 156 := 0;
      let u : Fin 16 := 1;
      let x : Nat := 0;
      let v : AWord := 0x850000005#36;
      let s : State := ((ops.flatMap (fun o => gs.map (fun g => WU o g)) ++ ops.flatMap (fun o => gs.map (fun g => WU o g (od := 16*2^26+17*2^20+3*2^18+2*2^16))) : List State)).getD 4 base;
      let w : Wu := s.getWu (↑i : Nat) (↑u : Nat);
      let xs : List Nat := s.streams (↑i : Nat) (↑u : Nat);
      s.emitFree (↑i : Nat) (↑u : Nat) = true ∧
      Unread (↑i : Nat) (↑u : Nat) s ∧
      w.disc = [] ∧
      (List.find? (fun (y : Nat) => s.headType (↑i : Nat) (↑u : Nat) y == tokABORT) xs = some x) ∧
      s.inHead (↑i : Nat) (↑u : Nat) x = some v) := by
  repeat' first | decide +kernel | apply memOk_of | apply ready_of | apply executes_of | apply cplReady_of | apply nearBlock_of | constructor

/-- O37, part 2: states and operands that meet the hypotheses of its clauses. -/
theorem meets_TokensPassAndBlocksEndInOrder_2 :
    (let i : Fin 156 := 0;
      let u : Fin 16 := 1;
      let v : AWord := 0x820000005#36;
      let s : State := ((ops.flatMap (fun o => gs.map (fun g => WU o g)) ++ ops.flatMap (fun o => gs.map (fun g => WU o g (od := 16*2^26+17*2^20+3*2^18+2*2^16))) : List State)).getD 97 base;
      s.emitFree (↑i : Nat) (↑u : Nat) = true ∧
      Unread (↑i : Nat) (↑u : Nat) s ∧
      s.owesBlock (↑i : Nat) (↑u : Nat) = true ∧
      s.inHead (↑i : Nat) (↑u : Nat) 0 = some v) := by
  repeat' first | decide +kernel | apply memOk_of | apply ready_of | apply executes_of | apply cplReady_of | apply nearBlock_of | constructor

/-- O37, part 3: states and operands that meet the hypotheses of its clauses. -/
theorem meets_TokensPassAndBlocksEndInOrder_3 :
    (let i : Fin 156 := 0;
      let u : Fin 16 := 1;
      let x : Nat := 0;
      let v : AWord := 0x820000005#36;
      let s : State := ((ops.flatMap (fun o => gs.map (fun g => WU o g)) ++ ops.flatMap (fun o => gs.map (fun g => WU o g (od := 16*2^26+17*2^20+3*2^18+2*2^16))) : List State)).getD 18 base;
      let op : Nat := s.curOp (↑i : Nat) (↑u : Nat);
      let xs : List Nat := s.streams (↑i : Nat) (↑u : Nat);
      s.emitFree (↑i : Nat) (↑u : Nat) = true ∧
      Unread (↑i : Nat) (↑u : Nat) s ∧
      opTJ op = true ∧
      xs = x :: xs.tail ∧
      xs.all (s.plainToken (↑i : Nat) (↑u : Nat)) = true ∧
      s.inHead (↑i : Nat) (↑u : Nat) x = some v) := by
  repeat' first | decide +kernel | apply memOk_of | apply ready_of | apply executes_of | apply cplReady_of | apply nearBlock_of | constructor

/-- O37, part 4: states and operands that meet the hypotheses of its clauses. -/
theorem meets_TokensPassAndBlocksEndInOrder_4 :
    (let i : Fin 156 := 0;
      let u : Fin 16 := 1;
      let x : Nat := 0;
      let v : AWord := T 2;
      let s : State := WU 0x20000000 (fun w => { w with a := [T 2, dw 1], b := [dw 3] });
      let op : Nat := s.curOp (↑i : Nat) (↑u : Nat);
      let xs : List Nat := s.streams (↑i : Nat) (↑u : Nat);
      s.emitFree (↑i : Nat) (↑u : Nat) = true ∧
      Unread (↑i : Nat) (↑u : Nat) s ∧
      opTJ op = false ∧
      List.find? (s.plainToken (↑i : Nat) (↑u : Nat)) xs = some x ∧
      s.inHead (↑i : Nat) (↑u : Nat) x = some v) := by
  repeat' first | decide +kernel | apply memOk_of | apply ready_of | apply executes_of | apply cplReady_of | apply nearBlock_of | constructor

/-- O37, part 5: states and operands that meet the hypotheses of its clauses. -/
theorem meets_TokensPassAndBlocksEndInOrder_5 :
    (let i : Fin 156 := 0;
      let u : Fin 16 := 1;
      let x : Nat := 0;
      let v : AWord := dw 4;
      let s : State := WU 0x02000000 (fun w => { w with a := [dw 4, T 5], disc := [0] });
      let w : Wu := s.getWu (↑i : Nat) (↑u : Nat);
      let quiet : Nat → Prop := fun (y : Nat) => y < 2 → s.srcWord (↑i : Nat) (s.inSrc (↑i : Nat) (↑u : Nat) y) = none;
      s.emitFree (↑i : Nat) (↑u : Nat) = true ∧
      Unread (↑i : Nat) (↑u : Nat) s ∧
      w.disc = [x] ∧
      x < 2 ∧
      s.inSrc (↑i : Nat) (↑u : Nat) x < 48 ∧
      quiet x ∧
      s.inHead (↑i : Nat) (↑u : Nat) x = some v ∧
      (v.tk = false ∨ v.type = tokABORT)) := by
  repeat' first | decide +kernel | apply memOk_of | apply ready_of | apply executes_of | apply cplReady_of | apply nearBlock_of | constructor

/-- O38: states and operands that meet the hypotheses of its clauses. -/
theorem meets_PlaneChangesAtMoultTokens :
    (let i : Fin 156 := 0;
      let u : Fin 16 := 1;
      let x : Nat := 0;
      let v : AWord := 0x810000003#36;
      let s : State := ((mst ++ mst.map lim ++ [off0 (WU 0x02000000 id)] ++ [0,1,2,3].map (fun m => (put [(ISL_MOULT_STAT.STALL 0,1)] (lim (WU 0x02000000 (fun w => { w with a := [T 1 3], b := [dw 3] }) (marks := m))))) : List State)).getD 22 base;
      let w : Wu := s.getWu (↑i : Nat) (↑u : Nat);
      let ms : List Nat := s.marked (↑i : Nat) (↑u : Nat);
      let held : List Nat := s.holding (↑i : Nat) (↑u : Nat) tokMOULT;
      s.islRuns (↑i : Nat) = true ∧
      (List.find? (fun (y : Nat) => s.headType (↑i : Nat) (↑u : Nat) y == tokMOULT) w.owed = some x) ∧
      s.islClk (↑i : Nat) = true ∧
      (held = [] ∨ List.filter (fun (y : Nat) => !held.contains y) ms = [] ∨ s.inHead (↑i : Nat) (↑u : Nat) x = some v ∧ held = x :: held.tail ∧ s.locked (↑i : Nat) v.plane = true)) := by
  decide +kernel

/-- O38, part 2: states and operands that meet the hypotheses of its clauses. -/
theorem meets_PlaneChangesAtMoultTokens_2 :
    (let i : Fin 156 := 0;
      let u : Fin 16 := 1;
      let x : Nat := 0;
      let v : AWord := 0x810000003#36;
      let s : State := ((mst ++ mst.map lim ++ [off0 (WU 0x02000000 id)] ++ [0,1,2,3].map (fun m => (put [(ISL_MOULT_STAT.STALL 0,1)] (lim (WU 0x02000000 (fun w => { w with a := [T 1 3], b := [dw 3] }) (marks := m))))) : List State)).getD 7 base;
      let w : Wu := s.getWu (↑i : Nat) (↑u : Nat);
      let ms : List Nat := s.marked (↑i : Nat) (↑u : Nat);
      s.islRuns (↑i : Nat) = true ∧
      w.out = [] ∧
      w.pipe.length < 5 ∧
      ms = x :: ms.tail ∧
      ((ms.all fun (y : Nat) => s.headType (↑i : Nat) (↑u : Nat) y == tokMOULT && !w.owed.contains y) = true) ∧
      s.inHead (↑i : Nat) (↑u : Nat) x = some v ∧
      s.locked (↑i : Nat) v.plane = false) := by
  decide +kernel

/-- O38, part 3: states and operands that meet the hypotheses of its clauses. -/
theorem meets_PlaneChangesAtMoultTokens_3 :
    (let i : Fin 156 := 0;
      let u : Fin 16 := 1;
      let x : Nat := 0;
      let s : State := ((mst ++ mst.map lim ++ [off0 (WU 0x02000000 id)] ++ [0,1,2,3].map (fun m => (put [(ISL_MOULT_STAT.STALL 0,1)] (lim (WU 0x02000000 (fun w => { w with a := [T 1 3], b := [dw 3] }) (marks := m))))) : List State)).getD 17 base;
      let w : Wu := s.getWu (↑i : Nat) (↑u : Nat);
      let ms : List Nat := s.marked (↑i : Nat) (↑u : Nat);
      s.islRuns (↑i : Nat) = true ∧
      ms ≠ [] ∧
      (List.find? (fun (y : Nat) => !ms.contains y && s.headType (↑i : Nat) (↑u : Nat) y == tokMOULT && !w.owed.contains y) (s.streams (↑i : Nat) (↑u : Nat)) = some x)) := by
  decide +kernel

/-- O38, part 4: states and operands that meet the hypotheses of its clauses. -/
theorem meets_PlaneChangesAtMoultTokens_4 :
    (let i : Fin 156 := 0;
      let u : Fin 16 := 1;
      let x : Nat := 1;
      let v : AWord := 0x810000004#36;
      let s : State := ((mst ++ mst.map lim ++ [off0 (WU 0x02000000 id)] ++ [0,1,2,3].map (fun m => (put [(ISL_MOULT_STAT.STALL 0,1)] (lim (WU 0x02000000 (fun w => { w with a := [T 1 3], b := [dw 3] }) (marks := m))))) : List State)).getD 2 base;
      let w : Wu := s.getWu (↑i : Nat) (↑u : Nat);
      let ms : List Nat := s.marked (↑i : Nat) (↑u : Nat);
      s.emitFree (↑i : Nat) (↑u : Nat) = true ∧
      Unread (↑i : Nat) (↑u : Nat) s ∧
      ms = [] ∧
      (List.find? (fun (y : Nat) => s.headType (↑i : Nat) (↑u : Nat) y == tokMOULT && !w.owed.contains y) (s.streams (↑i : Nat) (↑u : Nat)) = some x) ∧
      s.inHead (↑i : Nat) (↑u : Nat) x = some v) := by
  repeat' first | decide +kernel | apply memOk_of | apply ready_of | apply executes_of | apply cplReady_of | apply nearBlock_of | constructor

/-- O38, part 5: states and operands that meet the hypotheses of its clauses. -/
theorem meets_PlaneChangesAtMoultTokens_5 :
    (let i : Fin 156 := 0;
      let s : State := ((mst ++ mst.map lim ++ [off0 (WU 0x02000000 id)] ++ [0,1,2,3].map (fun m => (put [(ISL_MOULT_STAT.STALL 0,1)] (lim (WU 0x02000000 (fun w => { w with a := [T 1 3], b := [dw 3] }) (marks := m))))) : List State)).getD 60 base;
      s.islClk (↑i : Nat) = false) ∧
    (let i : Fin 156 := 0;
      let s : State := ((mst ++ mst.map lim ++ [off0 (WU 0x02000000 id)] ++ [0,1,2,3].map (fun m => (put [(ISL_MOULT_STAT.STALL 0,1)] (lim (WU 0x02000000 (fun w => { w with a := [T 1 3], b := [dw 3] }) (marks := m))))) : List State)).getD 60 base;
      s.islClk (↑i : Nat) = false) := by
  decide +kernel

/-- O38, part 6: states and operands that meet the hypotheses of its clauses. -/
theorem meets_PlaneChangesAtMoultTokens_6 :
    (let i : Fin 156 := 0;
      let u : Fin 16 := 1;
      let x : Nat := 0;
      let v : AWord := T 1 3;
      let s : State := lim (WU 0x02000000 (fun w => { w with a := [T 1 3], b := [dw 3], timer := 100 }) (marks := 3));
      let w : Wu := s.getWu (↑i : Nat) (↑u : Nat);
      let ms : List Nat := s.marked (↑i : Nat) (↑u : Nat);
      let held : List Nat := s.holding (↑i : Nat) (↑u : Nat) tokMOULT;
      let due : Prop := held = x :: held.tail ∧ List.filter (fun (y : Nat) => !held.contains y) ms ≠ [] ∧ s.inHead (↑i : Nat) (↑u : Nat) x = some v ∧ s.locked (↑i : Nat) v.plane = false;
      s.islClk (↑i : Nat) = true ∧
      due ∧
      s.islRuns (↑i : Nat) = true ∧
      s.f (ISL_MOULT_WDT.LIMIT (↑i : Nat)) ≠ 0 ∧
      s.f (ISL_MOULT_WDT.LIMIT (↑i : Nat)) ≤ w.timer ∧
      held = x :: held.tail ∧
      s.inHead (↑i : Nat) (↑u : Nat) x = some v ∧
      w.stalled = false) := by
  decide +kernel

/-- O38, part 7: states and operands that meet the hypotheses of its clauses. -/
theorem meets_PlaneChangesAtMoultTokens_7 :
    (let i : Fin 156 := 0;
      let u : Fin 16 := 1;
      let x : Nat := 0;
      let v : AWord := T 1 3;
      let s : State := (WU 0x02000000 (fun w => { w with a := [T 1 3], b := [dw 3] }) (marks := 3)).onIsl 0 (fun x => { x with relPend := 2 });
      let ms : List Nat := s.marked (↑i : Nat) (↑u : Nat);
      let held : List Nat := s.holding (↑i : Nat) (↑u : Nat) tokMOULT;
      let due : Prop := held = x :: held.tail ∧ List.filter (fun (y : Nat) => !held.contains y) ms ≠ [] ∧ s.inHead (↑i : Nat) (↑u : Nat) x = some v ∧ s.locked (↑i : Nat) v.plane = false;
      (s.getIsl (↑i : Nat)).relPend = 2 ^ (↑u : Nat) ∧
      due) := by
  decide +kernel

/-- O39: states and operands that meet the hypotheses of its clauses. -/
theorem meets_BroadcastsFencesAndRouting :
    (let i : Fin 156 := 12;
      let k : Fin 80 := 1;
      let s : State := isl0;
      (∀ (z : Nat), s.segEnd (↑i : Nat) (↑k : Nat) ≠ SegEnd.isl z)) ∧
    (let i : Fin 156 := 0;
      let tr : Fin 4 := 1;
      let n : Fin 12 := 0;
      let s : State := put [(ISL_RT_STAT.SPWAITL 0, 1)] (isl0.onIsl 0 (fun x => { x with spWait := [1] }));
      let y : Isl := s.getIsl (↑i : Nat);
      s.islRuns (↑i : Nat) = true ∧
      y.spWait = [(↑tr : Nat)] ∧
      s.spineOpposed (↑i : Nat) (↑tr : Nat) = false ∧
      s.enabled (↑n : Nat) = true ∧
      s.drained (↑n : Nat) = true ∧
      s.islClk (↑i : Nat) = true) := by
  refine ⟨fun z h => ?_, ?_⟩
  · exact absurd ((show isl0.segEnd 12 1 = SegEnd.port by decide +kernel).symm.trans h) (by simp)
  decide +kernel

/-- O39, part 2: states and operands that meet the hypotheses of its clauses. -/
theorem meets_BroadcastsFencesAndRouting_2 :
    (let i : Fin 156 := 0;
      let b : Bcast := { fenced := true, plane := 0x5#4 };
      let rest : List Bcast := [];
      let s : State := (WU 0x02000000 id (marks := 3)).onIsl 0 (fun x => { x with bcasts := [⟨true, 5⟩] });
      let y : Isl := s.getIsl (↑i : Nat);
      y.bcasts = b :: rest ∧
      s.islRuns (↑i : Nat) = true ∧
      y.arrived = [] ∧
      s.locked (↑i : Nat) b.plane.toNat = false) := by
  decide +kernel

/-- O39, part 3: states and operands that meet the hypotheses of its clauses. -/
theorem meets_BroadcastsFencesAndRouting_3 :
    (let i : Fin 156 := 0;
      let u : Fin 16 := 1;
      let n : Fin 12 := 0;
      let x : Nat := 0;
      let v : AWord := 0x860000005#36;
      let s : State := put [(ISL_PLANE_AUX.ARMED 0, 1),(ISL_PLANE_AUX.ATGT 0, 5)] ((WU 0x02000000 (fun w => { w with a := [T 6], b := [T 6, dw 3] }) (marks := 3)).onIsl 0 (fun x => { x with unsw := [1, 16] }));
      let y : Isl := s.getIsl (↑i : Nat);
      s.islRuns (↑i : Nat) = true ∧
      s.f (ISL_PLANE_AUX.ARMED (↑i : Nat)) = 1 ∧
      y.unsw.contains (↑u : Nat) = true ∧
      s.locked (↑i : Nat) (s.f (ISL_PLANE_AUX.ATGT (↑i : Nat))) = false ∧
      (s.getWu (↑i : Nat) (↑u : Nat)).out = [] ∧
      (s.getWu (↑i : Nat) (↑u : Nat)).pipe = [] ∧
      s.marked (↑i : Nat) (↑u : Nat) = x :: (s.marked (↑i : Nat) (↑u : Nat)).tail ∧
      (((s.marked (↑i : Nat) (↑u : Nat)).all fun (z : Nat) => s.headType (↑i : Nat) (↑u : Nat) z == tokSYNC) = true) ∧
      s.inHead (↑i : Nat) (↑u : Nat) x = some v ∧
      s.drained (↑n : Nat) = false) := by
  decide +kernel

/-- O39, part 4: states and operands that meet the hypotheses of its clauses. -/
theorem meets_BroadcastsFencesAndRouting_4 :
    (let i : Fin 156 := 0;
      let k : Fin 80 := 0;
      let j : Nat := 1;
      let tm : Nat := 4;
      let v : AWord := 0x000000007#36;
      let s : State := seg 0 0 1 1 4 (dw 7) isl0;
      let y : Isl := s.getIsl (↑i : Nat);
      let lone : Prop := s.segWord (↑i : Nat) (↑k : Nat) = some v ∧ s.segFenced (↑i : Nat) (↑k : Nat) = false ∧ s.segEnd (↑i : Nat) (↑k : Nat) = SegEnd.isl j ∧ s.termsOf j (segCode (↑k : Nat)) = [tm] ∧ s.fifoOpen j = true ∧ y.segTaken.getD (16 + (↑k : Nat)) [] = [] ∧ y.boxHold.find (16 + (↑k : Nat)) = none;
      lone ∧
      v.tk = false ∧
      s.consumers j (16 + tm) = [] ∧
      tm < 32 ∧
      s.segWord (↑i : Nat) (↑k : Nat) = some v ∧
      v.type ≠ tokMOULT) := by
  decide +kernel

/-- O39, part 5: states and operands that meet the hypotheses of its clauses. -/
theorem meets_BroadcastsFencesAndRouting_5 :
    (let i : Fin 156 := 0;
      let k : Fin 80 := 0;
      let j : Nat := 1;
      let tm : Nat := 4;
      let v : AWord := 0x810000003#36;
      let s : State := seg 0 0 1 1 4 (T 1 3) isl0;
      let y : Isl := s.getIsl (↑i : Nat);
      let lone : Prop := s.segWord (↑i : Nat) (↑k : Nat) = some v ∧ s.segFenced (↑i : Nat) (↑k : Nat) = false ∧ s.segEnd (↑i : Nat) (↑k : Nat) = SegEnd.isl j ∧ s.termsOf j (segCode (↑k : Nat)) = [tm] ∧ s.fifoOpen j = true ∧ y.segTaken.getD (16 + (↑k : Nat)) [] = [] ∧ y.boxHold.find (16 + (↑k : Nat)) = none;
      lone ∧
      v.type = tokMOULT ∧
      tm < 32 ∧
      s.fifoLen j tm < 6 ∧
      s.locked (↑i : Nat) v.plane = false ∧
      s.locked j v.plane = false) := by
  decide +kernel

/-- O39, part 6: states and operands that meet the hypotheses of its clauses. -/
theorem meets_BroadcastsFencesAndRouting_6 :
    (let i : Fin 156 := 0;
      let b : Bcast := { fenced := false, plane := 0x5#4 };
      let rest : List Bcast := [{ fenced := true, plane := 0x3#4 }];
      let s : State := put [(ISL_PLANE_USE.LOCK 0, 32)] (isl0.onIsl 0 (fun x => { x with bcasts := [⟨false, 5⟩, ⟨true, 3⟩] }));
      let y : Isl := s.getIsl (↑i : Nat);
      y.bcasts = b :: rest ∧
      s.islRuns (↑i : Nat) = true ∧
      y.arrived = [] ∧
      s.locked (↑i : Nat) b.plane.toNat = true) := by
  decide +kernel

/-- O39, part 7: states and operands that meet the hypotheses of its clauses. -/
theorem meets_BroadcastsFencesAndRouting_7 :
    (let i : Fin 156 := 0;
      let b : Bcast := { fenced := true, plane := 0x5#4 };
      let rest : List Bcast := [];
      let s : State := off0 (isl0.onIsl 0 (fun x => { x with bcasts := [⟨true, 5⟩] }));
      let y : Isl := s.getIsl (↑i : Nat);
      y.bcasts = b :: rest ∧
      s.islClk (↑i : Nat) = false) := by
  decide +kernel

/-- O39, part 8: states and operands that meet the hypotheses of its clauses. -/
theorem meets_BroadcastsFencesAndRouting_8 :
    (let i : Fin 156 := 13;
      let k : Fin 80 := 56;
      let j : Nat := 26;
      let v : AWord := dw 7;
      let s : State := seg 13 56 1 26 4 (dw 7) isl0;
      s.segWord (↑i : Nat) (↑k : Nat) = some v ∧
      s.segEnd (↑i : Nat) (↑k : Nat) = SegEnd.isl j ∧
      s.segFenced (↑i : Nat) (↑k : Nat) = true ∧
      v.tk = false) := by
  decide +kernel

/-- O39, part 9: states and operands that meet the hypotheses of its clauses. -/
theorem meets_BroadcastsFencesAndRouting_9 :
    (let i : Fin 156 := 0;
      let b : Bcast := { fenced := true, plane := 0x5#4 };
      let rest : List Bcast := [];
      let s : State := isl0.onIsl 0 (fun x => { x with bcasts := [⟨true, 5⟩], frozen := true });
      let y : Isl := s.getIsl (↑i : Nat);
      y.bcasts = b :: rest ∧
      s.islClk (↑i : Nat) = true ∧
      (s.islRuns (↑i : Nat) = false ∨ y.arrived ≠ [])) := by
  decide +kernel

/-- O39, part 10: states and operands that meet the hypotheses of its clauses. -/
theorem meets_BroadcastsFencesAndRouting_10 :
    (let i : Fin 156 := 0;
      let k : Fin 80 := 0;
      let j : Nat := 1;
      let tm : Nat := 4;
      let v : AWord := dw 7;
      let s : State := (seg 0 0 1 1 4 (dw 7) isl0).onIsl 0 (fun x => { x with boxHold := [(16, (dw 7, [36]))] });
      let y : Isl := s.getIsl (↑i : Nat);
      y.boxHold.find (16 + (↑k : Nat)) = some (v, [32 * j + tm]) ∧
      s.segWord (↑i : Nat) (↑k : Nat) = some v ∧
      s.segEnd (↑i : Nat) (↑k : Nat) = SegEnd.isl j ∧
      s.segFenced (↑i : Nat) (↑k : Nat) = false ∧
      v.tk = false ∧
      tm < 32 ∧
      s.tsel j tm (s.boxPlane j (96 + tm)) = segCode (↑k : Nat) ∧
      s.fifoOpen j = true ∧
      s.fifoLen j tm < 6 ∧
      s.consumers j (16 + tm) = [] ∧
      j ≠ (↑i : Nat)) := by
  decide +kernel

/-- O40: states and operands that meet the hypotheses of its clauses. -/
theorem meets_QueueControllersPushAndCommand :
    (let i : Fin 156 := 0;
      let q : Fin 4 := 1;
      let w : AWord := 0x000000007#36;
      let s : State := QS 0 (dw 7) [(ISL_QSTAT.HL 0 1,1),(ISL_QWM.HW 0 1, 100),(ISL_QSTAT.MKV 0 1,1)];
      let y : Isl := s.getIsl (↑i : Nat);
      let code : Nat := qPSRC (s.qcField (↑i : Nat) (↑q : Nat) (s.qcPlane (↑i : Nat) (↑q : Nat)));
      let calm : Prop := s.qPending (↑i : Nat) (↑q : Nat) = 0;
      let noPart : Prop := y.comb.find (↑q : Nat) = none;
      let passes : Bool := (s.takeSrc (↑i : Nat) code (116 + (↑q : Nat))).qPasses (↑i : Nat) (↑q : Nat);
      s.offered (↑i : Nat) code (116 + (↑q : Nat)) = some w ∧
      s.qOcc (↑i : Nat) (↑q : Nat) < s.qLimit (↑i : Nat) (↑q : Nat) ∧
      w.tk = false ∧
      MemOk s ∧
      calm ∧
      passes = false ∧
      s.islRuns (↑i : Nat) = true ∧
      s.f (ISL_QSTAT.MKV (↑i : Nat) (↑q : Nat)) = 1 ∧
      noPart ∧
      s.islClk (↑i : Nat) = true) ∧
    (let i : Fin 156 := 0;
      let q : Fin 4 := 1;
      let s : State := QS 0 (dw 7) [(ISL_QSTAT.HL 0 1,1),(ISL_QWM.HW 0 1, 100),(ISL_QSTAT.MKV 0 1,1)];
      let y : Isl := s.getIsl (↑i : Nat);
      let calm : Prop := s.qPending (↑i : Nat) (↑q : Nat) = 0;
      let noPart : Prop := y.comb.find (↑q : Nat) = none;
      s.islClk (↑i : Nat) = true ∧
      calm ∧
      noPart) := by
  repeat' first | decide +kernel | apply memOk_of | apply ready_of | apply executes_of | apply cplReady_of | apply nearBlock_of | constructor

/-- O40, part 2: states and operands that meet the hypotheses of its clauses. -/
theorem meets_QueueControllersPushAndCommand_2 :
    (let i : Fin 156 := 0;
      let q : Fin 4 := 1;
      let w : AWord := 0x000000007#36;
      let s : State := QS 0 (dw 7) [(ISL_QSTAT.OCC 0 1, 32),(ISL_QDEP.DEPTH 0 1, 32),(ISL_QCNT.REFUSED 0 1, 0xFFFF)];
      let code : Nat := qPSRC (s.qcField (↑i : Nat) (↑q : Nat) (s.qcPlane (↑i : Nat) (↑q : Nat)));
      s.offered (↑i : Nat) code (116 + (↑q : Nat)) = some w ∧
      s.qLimit (↑i : Nat) (↑q : Nat) ≤ s.qOcc (↑i : Nat) (↑q : Nat)) := by
  decide +kernel

/-- O40, part 3: states and operands that meet the hypotheses of its clauses. -/
theorem meets_QueueControllersPushAndCommand_3 :
    (let i : Fin 156 := 0;
      let q : Fin 4 := 1;
      let w : AWord := dw 7;
      let s : State := (QS 1 (dw 7) [(ISL_QWM.HW 0 1, 100),(ISL_QSTAT.HL 0 1,1)]).onWu 0 1 (fun w => { w with a := [dw 9], b := [dw 3] });
      let code : Nat := qPSRC (s.qcField (↑i : Nat) (↑q : Nat) (s.qcPlane (↑i : Nat) (↑q : Nat)));
      let calm : Prop := s.qPending (↑i : Nat) (↑q : Nat) = 0;
      let passes : Bool := (s.takeSrc (↑i : Nat) code (116 + (↑q : Nat))).qPasses (↑i : Nat) (↑q : Nat);
      s.offered (↑i : Nat) code (116 + (↑q : Nat)) = some w ∧
      s.qOcc (↑i : Nat) (↑q : Nat) < s.qLimit (↑i : Nat) (↑q : Nat) ∧
      w.tk = false ∧
      MemOk s ∧
      calm ∧
      passes = true) := by
  repeat' first | decide +kernel | apply memOk_of | apply ready_of | apply executes_of | apply cplReady_of | apply nearBlock_of | constructor

/-- O40, part 4: states and operands that meet the hypotheses of its clauses. -/
theorem meets_QueueControllersPushAndCommand_4 :
    (let i : Fin 156 := 0;
      let q : Fin 4 := 1;
      let s : State := QS 0 (dw 7) [];
      let calm : Prop := s.qPending (↑i : Nat) (↑q : Nat) = 0;
      let c : Instr := Instr.queueRewind 0 1;
      s.islRuns (↑i : Nat) = true ∧
      calm ∧
      s.f (ISL_QSTAT.MKV (↑i : Nat) (↑q : Nat)) = 0 ∧
      c ∈ [Instr.queueRewind i q, Instr.queueRelease i q]) := by
  decide +kernel

/-- O40, part 5: states and operands that meet the hypotheses of its clauses. -/
theorem meets_QueueControllersPushAndCommand_5 :
    (let i : Fin 156 := 0;
      let q : Fin 4 := 1;
      let s : State := (QS 0 (dw 7) []).onIsl 0 (fun x => { x with qcmd := [(1,1)] });
      let c : Instr × Nat := (Instr.queueMark 0 1, 1);
      s.islRuns (↑i : Nat) = true ∧
      c ∈ [(Instr.queueMark i q, 1), (Instr.queueRewind i q, 2), (Instr.queueRelease i q, 4), (Instr.queueFlush i q, 16)] ∧
      s.qPending (↑i : Nat) (↑q : Nat) = c.2) := by
  decide +kernel

/-- O41: states and operands that meet the hypotheses of its clauses. -/
theorem meets_IslandMemoryPortAndPatrol :
    (let i : Fin 156 := 0;
      let off : BitVec 18 := 0x00000#18;
      let size : Fin 9 := 0;
      let s : State := mm (put [(ISL_PATROL_CTL.EN 0, 1),(ISL_PATROL_STAT.STEP 0, 1),(ISL_PATROL_STAT.WIN 0, 1)] isl0);
      s.islClk (↑i : Nat) = true ∧
      (s.getIsl (↑i : Nat)).portQ = [] ∧
      off.toNat + (↑size : Nat) ≤ 262144 ∧
      (∀ j < (↑size : Nat), s.found (↑i : Nat) (off.toNat + j) = 0 ∧ ∀ e ∈ (s.getIsl (↑i : Nat)).comb, e.2 ≠ (off.toNat + j) / 8) ∧
      s.islRuns (↑i : Nat) = true ∧
      s.f (ISL_PATROL_STAT.STEP (↑i : Nat)) = 1) ∧
    (let i : Fin 156 := 0;
      let off : BitVec 18 := 0x00000#18;
      let s : State := mm (put [(ISL_PATROL_CTL.EN 0, 1),(ISL_PATROL_STAT.STEP 0, 1),(ISL_PATROL_STAT.WIN 0, 1)] isl0);
      off.toNat % 8 = 0 ∧
      s.islClk (↑i : Nat) = true ∧
      (s.getIsl (↑i : Nat)).portQ = [] ∧
      s.pushQueues (↑i : Nat) (off.toNat / 4) = [] ∧
      s.f (ISL_MEM_CTL.INJ (↑i : Nat)) = 0 ∧
      MemOk s ∧
      (∀ e ∈ (s.getIsl (↑i : Nat)).comb, e.2 ≠ off.toNat / 8)) ∧
    (let i : Fin 156 := 0;
      let off : BitVec 18 := 0x00000#18;
      let s : State := mm (put [(ISL_PATROL_CTL.EN 0, 1),(ISL_PATROL_STAT.STEP 0, 1),(ISL_PATROL_STAT.WIN 0, 1)] isl0);
      off.toNat % 8 = 0 ∧
      s.islClk (↑i : Nat) = true ∧
      (s.getIsl (↑i : Nat)).portQ = [] ∧
      s.pushQueues (↑i : Nat) (off.toNat / 4) = [] ∧
      s.f (ISL_MEM_CTL.INJ (↑i : Nat)) = 0 ∧
      MemOk s ∧
      (∀ e ∈ (s.getIsl (↑i : Nat)).comb, e.2 ≠ off.toNat / 8)) ∧
    (let i : Fin 156 := 0;
      let s : State := mm (put [(ISL_PATROL_CTL.EN 0, 1),(ISL_PATROL_STAT.STEP 0, 1),(ISL_PATROL_STAT.WIN 0, 1)] isl0);
      s.islRuns (↑i : Nat) = true ∧
      s.f (ISL_PATROL_STAT.STEP (↑i : Nat)) = 1 ∧
      MemOk s) ∧
    (let i : Fin 156 := 0;
      let s : State := mm (put [(ISL_PATROL_CTL.EN 0, 1),(ISL_PATROL_STAT.STEP 0, 1),(ISL_PATROL_STAT.WIN 0, 1)] isl0);
      s.islClk (↑i : Nat) = true) ∧
    (let i : Fin 156 := 0;
      let s : State := mm (put [(ISL_PATROL_CTL.EN 0, 1),(ISL_PATROL_STAT.STEP 0, 1),(ISL_PATROL_STAT.WIN 0, 1)] isl0);
      s.islClk (↑i : Nat) = true) := by
  repeat' first | decide +kernel | apply memOk_of | apply ready_of | apply executes_of | apply cplReady_of | apply nearBlock_of | constructor

/-- O41, part 2: states and operands that meet the hypotheses of its clauses. -/
theorem meets_IslandMemoryPortAndPatrol_2 :
    (let i : Fin 156 := 0;
      let s : State := mm (put [(ISL_PATROL_STAT.STEP 0, 2),(ISL_PATROL_STAT.WIN 0, 1),(ISL_PATROL_STAT.ACTIVE 0,1)] isl0);
      s.islRuns (↑i : Nat) = true ∧
      s.f (ISL_PATROL_STAT.STEP (↑i : Nat)) = 2) := by
  decide +kernel

/-- O41, part 3: states and operands that meet the hypotheses of its clauses. -/
theorem meets_IslandMemoryPortAndPatrol_3 :
    (let i : Fin 156 := 0;
      let s : State := base;
      s.islClk (↑i : Nat) = false) ∧
    (let i : Fin 156 := 0;
      let s : State := base;
      s.islClk (↑i : Nat) = false) := by
  decide +kernel

/-- O41, part 4: states and operands that meet the hypotheses of its clauses. -/
theorem meets_IslandMemoryPortAndPatrol_4 :
    (let i : Fin 156 := 0;
      let s : State := put [(ISL_PATROL_STAT.STEP 0, 3),(ISL_PATROL_STAT.WIN 0, 1023),(ISL_PATROL_STAT.ACTIVE 0,1)] isl0;
      s.islRuns (↑i : Nat) = true ∧
      s.f (ISL_PATROL_STAT.STEP (↑i : Nat)) = 3) := by
  decide +kernel

/-- O41, part 5: states and operands that meet the hypotheses of its clauses. -/
theorem meets_IslandMemoryPortAndPatrol_5 :
    (let i : Fin 156 := 0;
      let s : State := (mm isl0).onIsl 0 (fun x => { x with portQ := [{ src := 0, req := .read 0x100 4 }] });
      s.islClk (↑i : Nat) = true ∧
      (s.getIsl (↑i : Nat)).portQ ≠ [] ∧
      s.islRuns (↑i : Nat) = true ∧
      s.f (ISL_PATROL_STAT.STEP (↑i : Nat)) = 0 ∧
      s.f (ISL_PATROL_CTL.EN (↑i : Nat)) = 1 ∧
      MemOk s) := by
  repeat' first | decide +kernel | apply memOk_of | apply ready_of | apply executes_of | apply cplReady_of | apply nearBlock_of | constructor

/-- O42: states and operands that meet the hypotheses of its clauses. -/
theorem meets_MailboxRingsTakeCommandsAndReturnCompletions :
    (let f : Fin 13 := 0;
      let v : BitVec 32 := 0x00000000#32;
      let d : Desc := { code := 0x33#8, part := 0x0#4, clean := true, tag := 0x0000abcd#32, p0 := 0x0000000000000005#64, p1 := 0x0000000000000000#64, p2 := 0x0000000000000000#64, p3 := 0x0000000000000000#64, p4 := 0x0000000000000000#64, p5 := 0x0000000000000000#64, p6 := 0x0000000000000000#64 };
      let k : Nat := 0;
      let j : Job := { fn := 0, d := { code := 0x33#8, part := 0x0#4, clean := true, tag := 0x0000abcd#32, p0 := 0x0000000000000005#64, p1 := 0x0000000000000000#64, p2 := 0x0000000000000000#64, p3 := 0x0000000000000000#64, p4 := 0x0000000000000000#64, p5 := 0x0000000000000000#64, p6 := 0x0000000000000000#64 }, started := false, note := 0, sets := [], wake := false };
      let s : State := ((sts ++ sts.map (fun s => { s with msixOn := [msixIx 0 0] }) : List State)).getD 4 base;
      let size : Nat := ringSize (↑f : Nat);
      let p : Nat := v.toNat % 4096;
      let taking : Prop := s.mbxReady (↑f : Nat) = true ∧ s.f (MBX_CTL.EN (↑f : Nat)) = 1;
      let isBad : Prop := s.jobOf (↑f : Nat) d = some (k, j) ∧ j.sets = [] ∧ (d.code = 0 ∨ 18 ≤ d.code.toNat) ∧ s.jobFree k j = true ∧ s.firmOn = true;
      s.fnOpen (↑f : Nat) = true ∧
      p < size ∧
      taking ∧
      (s.getMbx (↑f : Nat)).taken = [] ∧
      isBad ∧
      MemOk s ∧
      (s.getMbx (↑f : Nat)).wait = [] ∧
      s.mbxReady (↑f : Nat) = true ∧
      s.cqRoom (↑f : Nat) = false ∧
      (∀ (g : Fin 13), s.f (MBX_SQT.PTR (↑g : Nat)) = s.f (MBX_SQH.PTR (↑g : Nat)))) ∧
    (let f : Fin 13 := 0;
      let s : State := ((sts ++ sts.map (fun s => { s with msixOn := [msixIx 0 0] }) : List State)).getD 4 base;
      let head : Nat := s.f (MBX_SQH.PTR (↑f : Nat));
      s.fnOpen (↑f : Nat) = true ∧
      (s.getMbx (↑f : Nat)).wait = [] ∧
      s.f (MBX_CTL.EN (↑f : Nat)) = 1 ∧
      head = s.f (MBX_SQT.PTR (↑f : Nat))) := by
  repeat' first | decide +kernel | apply memOk_of | apply ready_of | apply executes_of | apply cplReady_of | apply nearBlock_of | constructor

/-- O42, part 2: states and operands that meet the hypotheses of its clauses. -/
theorem meets_MailboxRingsTakeCommandsAndReturnCompletions_2 :
    (let f : Fin 13 := 0;
      let v : BitVec 32 := 0x00000000#32;
      let s : State := ((sts ++ sts.map (fun s => { s with msixOn := [msixIx 0 0] }) : List State)).getD 8 base;
      let size : Nat := ringSize (↑f : Nat);
      let p : Nat := v.toNat % 4096;
      let taking : Prop := s.mbxReady (↑f : Nat) = true ∧ s.f (MBX_CTL.EN (↑f : Nat)) = 1;
      s.fnOpen (↑f : Nat) = true ∧
      p < size ∧
      ¬taking) ∧
    (let f : Fin 13 := 0;
      let s : State := ((sts ++ sts.map (fun s => { s with msixOn := [msixIx 0 0] }) : List State)).getD 8 base;
      s.fnOpen (↑f : Nat) = true ∧
      (s.getMbx (↑f : Nat)).wait = [] ∧
      s.f (MBX_CTL.EN (↑f : Nat)) = 0) := by
  decide +kernel

/-- O42, part 3: states and operands that meet the hypotheses of its clauses. -/
theorem meets_MailboxRingsTakeCommandsAndReturnCompletions_3 :
    (let f : Fin 13 := 0;
      let v : BitVec 32 := 0x00000000#32;
      let s : State := ((sts ++ sts.map (fun s => { s with msixOn := [msixIx 0 0] }) : List State)).getD 10 base;
      let size : Nat := ringSize (↑f : Nat);
      let p : Nat := v.toNat % 4096;
      let taking : Prop := s.mbxReady (↑f : Nat) = true ∧ s.f (MBX_CTL.EN (↑f : Nat)) = 1;
      let c : Cpl := { w0 := 4295176960, tag := 43981, r0 := 0x0000000000000007#64, r1 := 0x0000000000000009#64 };
      s.fnOpen (↑f : Nat) = true ∧
      p < size ∧
      (s.getMbx (↑f : Nat)).wait = [c] ∧
      taking ∧
      (s.f (MBX_CQT.PTR (↑f : Nat)) + 1) % size ≠ p ∧
      (s.f (MBX_CTL.VEC (↑f : Nat)) < if (↑f : Nat) = 0 then 512 else 128) ∧
      MemOk s) := by
  repeat' first | decide +kernel | apply memOk_of | apply ready_of | apply executes_of | apply cplReady_of | apply nearBlock_of | constructor

/-- O42, part 4: states and operands that meet the hypotheses of its clauses. -/
theorem meets_MailboxRingsTakeCommandsAndReturnCompletions_4 :
    (let f : Fin 13 := 0;
      let d : Desc := { code := 0x33#8, part := 0x0#4, clean := true, tag := 0x0000abcd#32, p0 := 0x0000000000000005#64, p1 := 0x0000000000000000#64, p2 := 0x0000000000000000#64, p3 := 0x0000000000000000#64, p4 := 0x0000000000000000#64, p5 := 0x0000000000000000#64, p6 := 0x0000000000000000#64 };
      let k : Nat := 0;
      let j : Job := { fn := 0, d := { code := 0x33#8, part := 0x0#4, clean := true, tag := 0x0000abcd#32, p0 := 0x0000000000000005#64, p1 := 0x0000000000000000#64, p2 := 0x0000000000000000#64, p3 := 0x0000000000000000#64, p4 := 0x0000000000000000#64, p5 := 0x0000000000000000#64, p6 := 0x0000000000000000#64 }, started := false, note := 0, sets := [], wake := false };
      let s : State := ((sts ++ sts.map (fun s => { s with msixOn := [msixIx 0 0] }) : List State)).getD 2 base;
      let isBad : Prop := s.jobOf (↑f : Nat) d = some (k, j) ∧ j.sets = [] ∧ (d.code = 0 ∨ 18 ≤ d.code.toNat) ∧ s.jobFree k j = true ∧ s.firmOn = true;
      isBad ∧
      MemOk s ∧
      CplReady (↑f : Nat) s) := by
  repeat' first | decide +kernel | apply memOk_of | apply ready_of | apply executes_of | apply cplReady_of | apply nearBlock_of | constructor

/-- O42, part 5: states and operands that meet the hypotheses of its clauses. -/
theorem meets_MailboxRingsTakeCommandsAndReturnCompletions_5 :
    (let f : Fin 13 := 3;
      let v : BitVec 32 := 0x00000100#32;
      let s : State := ((sts ++ sts.map (fun s => { s with msixOn := [msixIx 0 0] }) : List State)).getD 3 base;
      let size : Nat := ringSize (↑f : Nat);
      let p : Nat := v.toNat % 4096;
      let head : Nat := s.f (MBX_SQH.PTR (↑f : Nat));
      s.fnOpen (↑f : Nat) = true ∧
      size ≤ p ∧
      head = s.f (MBX_SQT.PTR (↑f : Nat))) := by
  decide +kernel

/-- O42, part 6: states and operands that meet the hypotheses of its clauses. -/
theorem meets_MailboxRingsTakeCommandsAndReturnCompletions_6 :
    (let f : Fin 13 := 0;
      let v : BitVec 32 := 5;
      let en : Bool := true;
      let vec : BitVec 11 := 3;
      let s : State := State.reset;
      let c : Instr := Instr.mailboxSubmit 0 5;
      s.fnOpen (↑f : Nat) = false ∧
      c ∈ [Instr.mailboxSubmit f v, Instr.mailboxCompletionHead f v, Instr.mailboxReset f en vec]) := by
  decide +kernel

/-- O42, part 7: states and operands that meet the hypotheses of its clauses. -/
theorem meets_MailboxRingsTakeCommandsAndReturnCompletions_7 :
    (let f : Fin 13 := 0;
      let d : Desc := b0;
      let k : Nat := 0;
      let j : Job := J 0 b0;
      let s : State := put [(MBX_SQT.PTR 0, 1)] (wj (J 0 b0) base);
      let size : Nat := ringSize (↑f : Nat);
      let head : Nat := s.f (MBX_SQH.PTR (↑f : Nat));
      let isBad : Prop := s.jobOf (↑f : Nat) d = some (k, j) ∧ j.sets = [] ∧ (d.code = 0 ∨ 18 ≤ d.code.toNat) ∧ s.jobFree k j = true ∧ s.firmOn = true;
      isBad ∧
      MemOk s ∧
      s.jobs = [j] ∧
      s.f (MBX_CTL.EN (↑f : Nat)) = 1 ∧
      (s.getMbx (↑f : Nat)).taken = [] ∧
      head < size ∧
      s.f (MBX_SQT.PTR (↑f : Nat)) = (head + 1) % size ∧
      (∀ (g : Fin 13), g ≠ f → s.f (MBX_SQT.PTR (↑g : Nat)) = s.f (MBX_SQH.PTR (↑g : Nat)))) := by
  repeat' first | decide +kernel | apply memOk_of | apply ready_of | apply executes_of | apply cplReady_of | apply nearBlock_of | constructor

/-- O43: states and operands that meet the hypotheses of its clauses. -/
theorem meets_InformationCommandsWriteTheirBuffers :
    (let f : Fin 13 := 0;
      let d : Desc := { code := 0x0e#8, part := 0x0#4, clean := true, tag := 0x0000abcd#32, p0 := 0x0000000000003000#64, p1 := 0x0000000000000000#64, p2 := 0x0000000000000000#64, p3 := 0x0000000000000000#64, p4 := 0x0000000000000000#64, p5 := 0x0000000000000000#64, p6 := 0x0000000000000000#64 };
      let k : Nat := 0;
      let j : Job := { fn := 0, d := { code := 0x0e#8, part := 0x0#4, clean := true, tag := 0x0000abcd#32, p0 := 0x0000000000003000#64, p1 := 0x0000000000000000#64, p2 := 0x0000000000000000#64, p3 := 0x0000000000000000#64, p4 := 0x0000000000000000#64, p5 := 0x0000000000000000#64, p6 := 0x0000000000000000#64 }, started := false, note := 0, sets := [], wake := false };
      let s : State := ((js2.map (fun j => wj j base) ++ js2.map (fun j => rch (wj j base)) : List State)).getD 7 base;
      CplReady (↑f : Nat) s ∧
      MemOk s ∧
      Executes 14 (↑f : Nat) d k j s ∧
      d.p0 ≠ 0 ∧
      bufOk d.p0 s.cxlBytes.length = true ∧
      s.cxlBytes ≠ []) := by
  repeat' first | decide +kernel | apply memOk_of | apply ready_of | apply executes_of | apply cplReady_of | apply nearBlock_of | constructor

/-- O43, part 2: states and operands that meet the hypotheses of its clauses. -/
theorem meets_InformationCommandsWriteTheirBuffers_2 :
    (let f : Fin 13 := 0;
      let d : Desc := { code := 0x0f#8, part := 0x0#4, clean := true, tag := 0x0000abcd#32, p0 := 0x0000000000000000#64, p1 := 0x0000000000004000#64, p2 := 0x0000000000000280#64, p3 := 0x0000000000000000#64, p4 := 0x0000000000000000#64, p5 := 0x0000000000000000#64, p6 := 0x0000000000000000#64 };
      let k : Nat := 0;
      let j : Job := { fn := 0, d := { code := 0x0f#8, part := 0x0#4, clean := true, tag := 0x0000abcd#32, p0 := 0x0000000000000000#64, p1 := 0x0000000000004000#64, p2 := 0x0000000000000280#64, p3 := 0x0000000000000000#64, p4 := 0x0000000000000000#64, p5 := 0x0000000000000000#64, p6 := 0x0000000000000000#64 }, started := false, note := 0, sets := [], wake := false };
      let s : State := ((js2.map (fun j => wj j base) ++ js2.map (fun j => rch (wj j base)) : List State)).getD 9 base;
      let p1 : Nat := BitVec.toNat d.p1;
      let slot : Nat × Nat := flashSlot (BitVec.getLsbD d.p0 0);
      let n : Nat := BitVec.toNat d.p2;
      let fits : Prop := p1 + n ≤ 2 ^ 51 ∧ n ≤ slot.2;
      CplReady (↑f : Nat) s ∧
      MemOk s ∧
      Executes 15 (↑f : Nat) d k j s ∧
      fits) ∧
    (let f : Fin 13 := 0;
      let d : Desc := { code := 0x0f#8, part := 0x0#4, clean := true, tag := 0x0000abcd#32, p0 := 0x0000000000000000#64, p1 := 0x0000000000004000#64, p2 := 0x0000000000000280#64, p3 := 0x0000000000000000#64, p4 := 0x0000000000000000#64, p5 := 0x0000000000000000#64, p6 := 0x0000000000000000#64 };
      let k : Nat := 0;
      let j : Job := { fn := 0, d := { code := 0x0f#8, part := 0x0#4, clean := true, tag := 0x0000abcd#32, p0 := 0x0000000000000000#64, p1 := 0x0000000000004000#64, p2 := 0x0000000000000280#64, p3 := 0x0000000000000000#64, p4 := 0x0000000000000000#64, p5 := 0x0000000000000000#64, p6 := 0x0000000000000000#64 }, started := false, note := 0, sets := [], wake := false };
      let s : State := ((js2.map (fun j => wj j base) ++ js2.map (fun j => rch (wj j base)) : List State)).getD 9 base;
      let p1 : Nat := BitVec.toNat d.p1;
      let slot : Nat × Nat := flashSlot (BitVec.getLsbD d.p0 0);
      let n : Nat := BitVec.toNat d.p2;
      let bs : List Byte := s.hostGet p1 n;
      let fits : Prop := p1 + n ≤ 2 ^ 51 ∧ n ≤ slot.2;
      let sound : Prop := s.imageOk (!BitVec.getLsbD d.p0 0) bs = true;
      CplReady (↑f : Nat) s ∧
      MemOk s ∧
      Executes 15 (↑f : Nat) d k j s ∧
      fits ∧
      ¬sound) := by
  repeat' first | decide +kernel | apply memOk_of | apply ready_of | apply executes_of | apply cplReady_of | apply nearBlock_of | constructor

/-- O43, part 3: states and operands that meet the hypotheses of its clauses. -/
theorem meets_InformationCommandsWriteTheirBuffers_3 :
    (let f : Fin 13 := 0;
      let d : Desc := { code := 0x07#8, part := 0x0#4, clean := true, tag := 0x0000abcd#32, p0 := 0x0000000000001000#64, p1 := 0x0000000000000028#64, p2 := 0x0000000000000000#64, p3 := 0x0000000000000000#64, p4 := 0x0000000000000000#64, p5 := 0x0000000000000000#64, p6 := 0x0000000000000000#64 };
      let k : Nat := 0;
      let j : Job := { fn := 0, d := { code := 0x07#8, part := 0x0#4, clean := true, tag := 0x0000abcd#32, p0 := 0x0000000000001000#64, p1 := 0x0000000000000028#64, p2 := 0x0000000000000000#64, p3 := 0x0000000000000000#64, p4 := 0x0000000000000000#64, p5 := 0x0000000000000000#64, p6 := 0x0000000000000000#64 }, started := false, note := 0, sets := [], wake := false };
      let s : State := ((js2.map (fun j => wj j base) ++ js2.map (fun j => rch (wj j base)) : List State)).getD 2 base;
      let p1 : Nat := BitVec.toNat d.p1;
      let bs : List Byte := List.take p1 (s.healthBytes (↑f : Nat));
      CplReady (↑f : Nat) s ∧
      MemOk s ∧
      Executes 7 (↑f : Nat) d k j s ∧
      bufOk d.p0 bs.length = true ∧
      bs ≠ []) := by
  repeat' first | decide +kernel | apply memOk_of | apply ready_of | apply executes_of | apply cplReady_of | apply nearBlock_of | constructor

/-- O43, part 4: states and operands that meet the hypotheses of its clauses. -/
theorem meets_InformationCommandsWriteTheirBuffers_4 :
    (let f : Fin 13 := 0;
      let d : Desc := { code := 0x10#8, part := 0x0#4, clean := true, tag := 0x0000abcd#32, p0 := 0x0000000000002000#64, p1 := 0x0000000000000064#64, p2 := 0x0000000000000000#64, p3 := 0x0000000000000000#64, p4 := 0x0000000000000000#64, p5 := 0x0000000000000000#64, p6 := 0x0000000000000000#64 };
      let k : Nat := 0;
      let j : Job := { fn := 0, d := { code := 0x10#8, part := 0x0#4, clean := true, tag := 0x0000abcd#32, p0 := 0x0000000000002000#64, p1 := 0x0000000000000064#64, p2 := 0x0000000000000000#64, p3 := 0x0000000000000000#64, p4 := 0x0000000000000000#64, p5 := 0x0000000000000000#64, p6 := 0x0000000000000000#64 }, started := false, note := 0, sets := [], wake := false };
      let s : State := ((js2.map (fun j => wj j base) ++ js2.map (fun j => rch (wj j base)) : List State)).getD 32 base;
      let p1 : Nat := BitVec.toNat d.p1;
      let bs : List Byte := (List.take (p1 / 32) (s.errorBytes (↑f : Nat))).flatten;
      CplReady (↑f : Nat) s ∧
      MemOk s ∧
      Executes 16 (↑f : Nat) d k j s ∧
      bufOk d.p0 bs.length = true ∧
      bs ≠ []) := by
  repeat' first | decide +kernel | apply memOk_of | apply ready_of | apply executes_of | apply cplReady_of | apply nearBlock_of | constructor

/-- O43, part 5: states and operands that meet the hypotheses of its clauses. -/
theorem meets_InformationCommandsWriteTheirBuffers_5 :
    (let f : Fin 13 := 0;
      let d : Desc := { code := 0x0a#8, part := 0x0#4, clean := true, tag := 0x0000abcd#32, p0 := 0x0000000000000000#64, p1 := 0x0000000000005001#64, p2 := 0x0000000000000000#64, p3 := 0x0000000000000000#64, p4 := 0x0000000000000000#64, p5 := 0x0000000000000000#64, p6 := 0x0000000000000000#64 };
      let k : Nat := 0;
      let j : Job := { fn := 0, d := { code := 0x0a#8, part := 0x0#4, clean := true, tag := 0x0000abcd#32, p0 := 0x0000000000000000#64, p1 := 0x0000000000005001#64, p2 := 0x0000000000000000#64, p3 := 0x0000000000000000#64, p4 := 0x0000000000000000#64, p5 := 0x0000000000000000#64, p6 := 0x0000000000000000#64 }, started := false, note := 0, sets := [], wake := false };
      let s : State := ((js2.map (fun j => wj j base) ++ js2.map (fun j => rch (wj j base)) : List State)).getD 13 base;
      CplReady (↑f : Nat) s ∧
      MemOk s ∧
      Executes 10 (↑f : Nat) d k j s ∧
      BitVec.getLsbD d.p0 15 = false ∧
      bufOk d.p1 128 = false) := by
  repeat' first | decide +kernel | apply memOk_of | apply ready_of | apply executes_of | apply cplReady_of | apply nearBlock_of | constructor

/-- O43, part 6: states and operands that meet the hypotheses of its clauses. -/
theorem meets_InformationCommandsWriteTheirBuffers_6 :
    (let f : Fin 13 := 0;
      let d : Desc := { code := 0x07#8, part := 0x0#4, clean := true, tag := 0x0000abcd#32, p0 := 0x0000000000001010#64, p1 := 0x0000000000000028#64, p2 := 0x0000000000000000#64, p3 := 0x0000000000000000#64, p4 := 0x0000000000000000#64, p5 := 0x0000000000000000#64, p6 := 0x0000000000000000#64 };
      let k : Nat := 0;
      let j : Job := { fn := 0, d := { code := 0x07#8, part := 0x0#4, clean := true, tag := 0x0000abcd#32, p0 := 0x0000000000001010#64, p1 := 0x0000000000000028#64, p2 := 0x0000000000000000#64, p3 := 0x0000000000000000#64, p4 := 0x0000000000000000#64, p5 := 0x0000000000000000#64, p6 := 0x0000000000000000#64 }, started := false, note := 0, sets := [], wake := false };
      let s : State := ((js2.map (fun j => wj j base) ++ js2.map (fun j => rch (wj j base)) : List State)).getD 3 base;
      let p1 : Nat := BitVec.toNat d.p1;
      let bs : List Byte := List.take p1 (s.healthBytes (↑f : Nat));
      CplReady (↑f : Nat) s ∧
      MemOk s ∧
      Executes 7 (↑f : Nat) d k j s ∧
      bufOk d.p0 bs.length = false) := by
  repeat' first | decide +kernel | apply memOk_of | apply ready_of | apply executes_of | apply cplReady_of | apply nearBlock_of | constructor

/-- O43, part 7: states and operands that meet the hypotheses of its clauses. -/
theorem meets_InformationCommandsWriteTheirBuffers_7 :
    (let f : Fin 13 := 0;
      let d : Desc := { code := 0x0e#8, part := 0x0#4, clean := true, tag := 0x0000abcd#32, p0 := 0x0000000000003001#64, p1 := 0x0000000000000000#64, p2 := 0x0000000000000000#64, p3 := 0x0000000000000000#64, p4 := 0x0000000000000000#64, p5 := 0x0000000000000000#64, p6 := 0x0000000000000000#64 };
      let k : Nat := 0;
      let j : Job := { fn := 0, d := { code := 0x0e#8, part := 0x0#4, clean := true, tag := 0x0000abcd#32, p0 := 0x0000000000003001#64, p1 := 0x0000000000000000#64, p2 := 0x0000000000000000#64, p3 := 0x0000000000000000#64, p4 := 0x0000000000000000#64, p5 := 0x0000000000000000#64, p6 := 0x0000000000000000#64 }, started := false, note := 0, sets := [], wake := false };
      let s : State := ((js2.map (fun j => wj j base) ++ js2.map (fun j => rch (wj j base)) : List State)).getD 8 base;
      CplReady (↑f : Nat) s ∧
      MemOk s ∧
      Executes 14 (↑f : Nat) d k j s ∧
      d.p0 ≠ 0 ∧
      bufOk d.p0 s.cxlBytes.length = false) := by
  repeat' first | decide +kernel | apply memOk_of | apply ready_of | apply executes_of | apply cplReady_of | apply nearBlock_of | constructor

/-- O43, part 8: states and operands that meet the hypotheses of its clauses. -/
theorem meets_InformationCommandsWriteTheirBuffers_8 :
    (let f : Fin 13 := 0;
      let d : Desc := { code := 0x0e#8, part := 0x0#4, clean := true, tag := 0x0000abcd#32, p0 := 0x0000000000000000#64, p1 := 0x0000000000000000#64, p2 := 0x0000000000000000#64, p3 := 0x0000000000000000#64, p4 := 0x0000000000000000#64, p5 := 0x0000000000000000#64, p6 := 0x0000000000000000#64 };
      let k : Nat := 0;
      let j : Job := { fn := 0, d := { code := 0x0e#8, part := 0x0#4, clean := true, tag := 0x0000abcd#32, p0 := 0x0000000000000000#64, p1 := 0x0000000000000000#64, p2 := 0x0000000000000000#64, p3 := 0x0000000000000000#64, p4 := 0x0000000000000000#64, p5 := 0x0000000000000000#64, p6 := 0x0000000000000000#64 }, started := false, note := 0, sets := [], wake := false };
      let s : State := ((js2.map (fun j => wj j base) ++ js2.map (fun j => rch (wj j base)) : List State)).getD 6 base;
      CplReady (↑f : Nat) s ∧
      MemOk s ∧
      Executes 14 (↑f : Nat) d k j s ∧
      d.p0 = 0) := by
  repeat' first | decide +kernel | apply memOk_of | apply ready_of | apply executes_of | apply cplReady_of | apply nearBlock_of | constructor

/-- O43, part 9: states and operands that meet the hypotheses of its clauses. -/
theorem meets_InformationCommandsWriteTheirBuffers_9 :
    (let f : Fin 13 := 0;
      let d : Desc := { code := 0x01#8, part := 0x0#4, clean := true, tag := 0x0000abcd#32, p0 := 0x0000000000000000#64, p1 := 0x0000000000000000#64, p2 := 0x0000000000000000#64, p3 := 0x0000000000000000#64, p4 := 0x0000000000000000#64, p5 := 0x0000000000000000#64, p6 := 0x0000000000000000#64 };
      let k : Nat := 0;
      let j : Job := { fn := 0, d := { code := 0x01#8, part := 0x0#4, clean := true, tag := 0x0000abcd#32, p0 := 0x0000000000000000#64, p1 := 0x0000000000000000#64, p2 := 0x0000000000000000#64, p3 := 0x0000000000000000#64, p4 := 0x0000000000000000#64, p5 := 0x0000000000000000#64, p6 := 0x0000000000000000#64 }, started := false, note := 0, sets := [], wake := false };
      let s : State := ((js2.map (fun j => wj j base) ++ js2.map (fun j => rch (wj j base)) : List State)).getD 0 base;
      CplReady (↑f : Nat) s ∧
      MemOk s ∧
      Executes 1 (↑f : Nat) d k j s) := by
  repeat' first | decide +kernel | apply memOk_of | apply ready_of | apply executes_of | apply cplReady_of | apply nearBlock_of | constructor

/-- O43, part 10: states and operands that meet the hypotheses of its clauses. -/
theorem meets_InformationCommandsWriteTheirBuffers_10 :
    (let f : Fin 13 := 3;
      let d : Desc := { code := 0x0a#8, part := 0x0#4, clean := true, tag := 0x0000abcd#32, p0 := 0x0000000000000000#64, p1 := 0x0000000000005000#64, p2 := 0x0000000000000000#64, p3 := 0x0000000000000000#64, p4 := 0x0000000000000000#64, p5 := 0x0000000000000000#64, p6 := 0x0000000000000000#64 };
      let k : Nat := 0;
      let j : Job := { fn := 3, d := { code := 0x0a#8, part := 0x0#4, clean := true, tag := 0x0000abcd#32, p0 := 0x0000000000000000#64, p1 := 0x0000000000005000#64, p2 := 0x0000000000000000#64, p3 := 0x0000000000000000#64, p4 := 0x0000000000000000#64, p5 := 0x0000000000000000#64, p6 := 0x0000000000000000#64 }, started := false, note := 0, sets := [], wake := false };
      let s : State := ((js2.map (fun j => wj j base) ++ js2.map (fun j => rch (wj j base)) : List State)).getD 26 base;
      let p : Nat := d.part.toNat;
      CplReady (↑f : Nat) s ∧
      MemOk s ∧
      Executes 10 (↑f : Nat) d k j s ∧
      BitVec.getLsbD d.p0 15 = false ∧
      bufOk d.p1 128 = true ∧
      s.ringPlaces p = []) := by
  repeat' first | decide +kernel | apply memOk_of | apply ready_of | apply executes_of | apply cplReady_of | apply nearBlock_of | constructor

/-- O43, part 11: states and operands that meet the hypotheses of its clauses. -/
theorem meets_InformationCommandsWriteTheirBuffers_11 :
    (let f : Fin 13 := 0;
      let d : Desc := D 0x10 0 [0x2001, 100];
      let k : Nat := 0;
      let j : Job := J 0 (D 0x10 0 [0x2001, 100]);
      let s : State := rch (wj (J 0 (D 0x10 0 [0x2001, 100])) base);
      let p1 : Nat := BitVec.toNat d.p1;
      let bs : List Byte := (List.take (p1 / 32) (s.errorBytes (↑f : Nat))).flatten;
      CplReady (↑f : Nat) s ∧
      MemOk s ∧
      Executes 16 (↑f : Nat) d k j s ∧
      bufOk d.p0 bs.length = false) := by
  repeat' first | decide +kernel | apply memOk_of | apply ready_of | apply executes_of | apply cplReady_of | apply nearBlock_of | constructor

/-- O43, part 12: states and operands that meet the hypotheses of its clauses. -/
theorem meets_InformationCommandsWriteTheirBuffers_12 :
    (let f : Fin 13 := 0;
      let d : Desc := D 0x0F 0 [1, 0x4000, 256];
      let k : Nat := 0;
      let j : Job := J 0 (D 0x0F 0 [1, 0x4000, 256]);
      let bad : Fin 5 := 1;
      let s : State := (let s := wj (J 0 (D 0x0F 0 [1, 0x4000, 256])) base; { s with mem := Memory.puts s.mem (hostBase + 0x4000) (hdr 4 12 0 0) });
      let p1 : Nat := BitVec.toNat d.p1;
      let slot : Nat × Nat := flashSlot (BitVec.getLsbD d.p0 0);
      let n : Nat := BitVec.toNat d.p2;
      let bs : List Byte := s.hostGet p1 n;
      let fits : Prop := p1 + n ≤ 2 ^ 51 ∧ n ≤ slot.2;
      let sound : Prop := s.imageOk (!BitVec.getLsbD d.p0 0) bs = true;
      CplReady (↑f : Nat) s ∧
      MemOk s ∧
      Executes 15 (↑f : Nat) d k j s ∧
      fits ∧
      sound ∧
      (↑bad : Nat) < 2) := by
  repeat' first | decide +kernel | apply memOk_of | apply ready_of | apply executes_of | apply cplReady_of | apply nearBlock_of | constructor

/-- O43, part 13: states and operands that meet the hypotheses of its clauses. -/
theorem meets_InformationCommandsWriteTheirBuffers_13 :
    (let f : Fin 13 := 0;
      let d : Desc := D 0x0F 0 [1, 0x4000, 256];
      let k : Nat := 0;
      let j : Job := J 0 (D 0x0F 0 [1, 0x4000, 256]);
      let bad : Fin 5 := 2;
      let s : State := (let s := wj (J 0 (D 0x0F 0 [1, 0x4000, 256])) base; { s with mem := Memory.puts s.mem (hostBase + 0x4000) (hdr 4 12 0 0) });
      let p1 : Nat := BitVec.toNat d.p1;
      let slot : Nat × Nat := flashSlot (BitVec.getLsbD d.p0 0);
      let n : Nat := BitVec.toNat d.p2;
      let bs : List Byte := s.hostGet p1 n;
      let fits : Prop := p1 + n ≤ 2 ^ 51 ∧ n ≤ slot.2;
      let sound : Prop := s.imageOk (!BitVec.getLsbD d.p0 0) bs = true;
      CplReady (↑f : Nat) s ∧
      MemOk s ∧
      Executes 15 (↑f : Nat) d k j s ∧
      fits ∧
      sound ∧
      2 ≤ (↑bad : Nat)) := by
  repeat' first | decide +kernel | apply memOk_of | apply ready_of | apply executes_of | apply cplReady_of | apply nearBlock_of | constructor

/-- O43, part 14: states and operands that meet the hypotheses of its clauses. -/
theorem meets_InformationCommandsWriteTheirBuffers_14 :
    (let f : Fin 13 := 0;
      let d : Desc := D 0x0A 0 [0, 0x5000];
      let k : Nat := 0;
      let j : Job := J 0 (D 0x0A 0 [0, 0x5000]);
      let s : State := put [(FE_PRRQ.BASE 0, (bankBase 0 + 0x6000) / 128), (FE_PRRQP.TAIL 0, 1)] (wj (J 0 (D 0x0A 0 [0, 0x5000])) base);
      let p1 : Nat := BitVec.toNat d.p1;
      let p : Nat := d.part.toNat;
      let ix : Nat := 0;
      let rest : List Nat := [];
      let e : List Byte := [0x00#8, 0x00#8, 0x00#8, 0x00#8, 0x00#8, 0x00#8, 0x00#8, 0x00#8, 0x00#8, 0x00#8, 0x00#8, 0x00#8, 0x00#8, 0x00#8, 0x00#8, 0x00#8, 0x00#8, 0x00#8, 0x00#8, 0x00#8, 0x00#8, 0x00#8, 0x00#8, 0x00#8, 0x00#8, 0x00#8, 0x00#8, 0x00#8, 0x00#8, 0x00#8, 0x00#8, 0x00#8, 0x00#8, 0x00#8, 0x00#8, 0x00#8, 0x00#8, 0x00#8, 0x00#8, 0x00#8, 0x00#8, 0x00#8, 0x00#8, 0x00#8, 0x00#8, 0x00#8, 0x00#8, 0x00#8, 0x00#8, 0x00#8, 0x00#8, 0x00#8, 0x00#8, 0x00#8, 0x00#8, 0x00#8, 0x00#8, 0x00#8, 0x00#8, 0x00#8, 0x00#8, 0x00#8, 0x00#8, 0x00#8, 0x00#8, 0x00#8, 0x00#8, 0x00#8, 0x00#8, 0x00#8, 0x00#8, 0x00#8, 0x00#8, 0x00#8, 0x00#8, 0x00#8, 0x00#8, 0x00#8, 0x00#8, 0x00#8, 0x00#8, 0x00#8, 0x00#8, 0x00#8, 0x00#8, 0x00#8, 0x00#8, 0x00#8, 0x00#8, 0x00#8, 0x00#8, 0x00#8, 0x00#8, 0x00#8, 0x00#8, 0x00#8, 0x00#8, 0x00#8, 0x00#8, 0x00#8, 0x00#8, 0x00#8, 0x00#8, 0x00#8, 0x00#8, 0x00#8, 0x00#8, 0x00#8, 0x00#8, 0x00#8, 0x00#8, 0x00#8, 0x00#8, 0x00#8, 0x00#8, 0x00#8, 0x00#8, 0x00#8, 0x00#8, 0x00#8, 0x00#8, 0x00#8, 0x00#8, 0x00#8, 0x00#8, 0x00#8, 0x00#8, 0x00#8];
      let s1 : State := (ringEntry p ix s).2;
      let s2 : State := hostPut p1 e s1;
      let s3 : State := rrqHead p ((ix + 1) % s1.ringLen p) s2;
      let i : Nat := 5;
      CplReady (↑f : Nat) s ∧
      MemOk s ∧
      Executes 10 (↑f : Nat) d k j s ∧
      BitVec.getLsbD d.p0 15 = false ∧
      bufOk d.p1 128 = true ∧
      s.ringPlaces p = ix :: rest ∧
      ringEntry p ix s = (some e, s1) ∧
      CplReady (↑f : Nat) s1 ∧
      i < 128 ∧
      CplReady (↑f : Nat) s3) := by
  repeat' first | decide +kernel | apply memOk_of | apply ready_of | apply executes_of | apply cplReady_of | apply nearBlock_of | constructor

/-- O43, part 15: states and operands that meet the hypotheses of its clauses. -/
theorem meets_InformationCommandsWriteTheirBuffers_15 :
    (let f : Fin 13 := 0;
      let d : Desc := D 0x0F 0 [0, 0x4000, 2^40];
      let k : Nat := 0;
      let j : Job := J 0 (D 0x0F 0 [0, 0x4000, 2^40]);
      let s : State := wj (J 0 (D 0x0F 0 [0, 0x4000, 2^40])) base;
      let p1 : Nat := BitVec.toNat d.p1;
      let slot : Nat × Nat := flashSlot (BitVec.getLsbD d.p0 0);
      let n : Nat := BitVec.toNat d.p2;
      let fits : Prop := p1 + n ≤ 2 ^ 51 ∧ n ≤ slot.2;
      CplReady (↑f : Nat) s ∧
      MemOk s ∧
      Executes 15 (↑f : Nat) d k j s ∧
      ¬fits) := by
  repeat' first | decide +kernel | apply memOk_of | apply ready_of | apply executes_of | apply cplReady_of | apply nearBlock_of | constructor

/-- O44: states and operands that meet the hypotheses of its clauses. -/
theorem meets_PartitionCommandsLoadStartStopUnloadAndPower :
    (let f : Fin 13 := 0;
      let d : Desc := { code := 0x02#8, part := 0x0#4, clean := true, tag := 0x0000abcd#32, p0 := 0x0000000000000000#64, p1 := 0x0000000000001000#64, p2 := 0x0000000000000100#64, p3 := 0x0000000000000000#64, p4 := 0x0000000000000000#64, p5 := 0x0000000000000000#64, p6 := 0x0000000000000000#64 };
      let k : Nat := 0;
      let j : Job := { fn := 0, d := { code := 0x02#8, part := 0x0#4, clean := true, tag := 0x0000abcd#32, p0 := 0x0000000000000000#64, p1 := 0x0000000000001000#64, p2 := 0x0000000000000100#64, p3 := 0x0000000000000000#64, p4 := 0x0000000000000000#64, p5 := 0x0000000000000000#64, p6 := 0x0000000000000000#64 }, started := false, note := 1, sets := [], wake := false };
      let s : State := ((sts2 : List State)).getD 1 base;
      let n : Nat := d.part.toNat;
      let st : Nat := s.f (GLB_PART_CFG.STATE n);
      let p0 : Nat := BitVec.toNat d.p0;
      let X : State := ((sts2 : List State)).getD 0 base;
      let status : Nat := 0;
      let detail : Nat := 0;
      let mode : Nat := p0 / 2 ^ 32 % 4;
      X.jobs[k]? = some j ∧
      CplReady j.fn X ∧
      MemOk X ∧
      status < 256 ∧
      detail < 65536 ∧
      Executes 2 (↑f : Nat) d k j s ∧
      loadParamsOk mode d = true ∧
      d.p3 = 0 ∧
      d.p4 = 0 ∧
      d.p6 = 0 ∧
      s.f RST_STAT.SVC = 2 ∧
      s.f CFG_STAT.BUSY = 0 ∧
      s.enabled n = true ∧
      s.sys.entering.find n = none ∧
      (¬(mode = 0 ∧ st = stRUNNING))) := by
  repeat' first | decide +kernel | apply memOk_of | apply ready_of | apply executes_of | apply cplReady_of | apply nearBlock_of | constructor

/-- O44, part 2: states and operands that meet the hypotheses of its clauses. -/
theorem meets_PartitionCommandsLoadStartStopUnloadAndPower_2 :
    (let f : Fin 13 := 0;
      let d : Desc := { code := 0x06#8, part := 0x0#4, clean := true, tag := 0x0000abcd#32, p0 := 0x0000000000000001#64, p1 := 0x0000000000000000#64, p2 := 0x0000000000000000#64, p3 := 0x0000000000000000#64, p4 := 0x0000000000000000#64, p5 := 0x0000000000000000#64, p6 := 0x0000000000000000#64 };
      let k : Nat := 0;
      let j : Job := { fn := 0, d := { code := 0x06#8, part := 0x0#4, clean := true, tag := 0x0000abcd#32, p0 := 0x0000000000000001#64, p1 := 0x0000000000000000#64, p2 := 0x0000000000000000#64, p3 := 0x0000000000000000#64, p4 := 0x0000000000000000#64, p5 := 0x0000000000000000#64, p6 := 0x0000000000000000#64 }, started := false, note := 1, sets := [], wake := false };
      let s : State := ((sts2 : List State)).getD 57 base;
      let n : Nat := d.part.toNat;
      let p0 : Nat := BitVec.toNat d.p0;
      let wakes : Nat → Prop := fun (r : Nat) => s.enabled n = true ∧ s.f (PWR_PART.BUSY n) = 0 ∧ s.sys.entering.find n = none ∧ (r ≠ 0 → s.rungRefused n = 0);
      let r : Nat := p0 % 4;
      Executes 6 (↑f : Nat) d k j s ∧
      wakes r ∧
      r ≠ 0 ∧
      s.f (PWR_PART.CUR n) = 0) := by
  repeat' first | decide +kernel | apply memOk_of | apply ready_of | apply executes_of | apply cplReady_of | apply nearBlock_of | constructor

/-- O44, part 3: states and operands that meet the hypotheses of its clauses. -/
theorem meets_PartitionCommandsLoadStartStopUnloadAndPower_3 :
    (let f : Fin 13 := 0;
      let d : Desc := { code := 0x06#8, part := 0x0#4, clean := true, tag := 0x0000abcd#32, p0 := 0x0000000000000000#64, p1 := 0x0000000000000000#64, p2 := 0x0000000000000000#64, p3 := 0x0000000000000000#64, p4 := 0x0000000000000000#64, p5 := 0x0000000000000000#64, p6 := 0x0000000000000000#64 };
      let k : Nat := 0;
      let j : Job := { fn := 0, d := { code := 0x06#8, part := 0x0#4, clean := true, tag := 0x0000abcd#32, p0 := 0x0000000000000000#64, p1 := 0x0000000000000000#64, p2 := 0x0000000000000000#64, p3 := 0x0000000000000000#64, p4 := 0x0000000000000000#64, p5 := 0x0000000000000000#64, p6 := 0x0000000000000000#64 }, started := true, note := 1, sets := [], wake := false };
      let s : State := ((sts2 : List State)).getD 96 base;
      let n : Nat := d.part.toNat;
      let p0 : Nat := BitVec.toNat d.p0;
      let going : BitVec 8 → Prop := fun (code : BitVec 8) => s.jobOf (↑f : Nat) d = some (k, j) ∧ d.code = code ∧ j.started = true ∧ s.firmOn = true;
      going 6 ∧
      s.f ERR_STAT.FATAL = 0 ∧
      s.enabled n = true ∧
      s.f (PWR_PART.BUSY n) = 0 ∧
      s.f (PWR_PART.ERR n) = 0 ∧
      s.f (PWR_PART.CUR n) = p0 % 4) := by
  decide +kernel

/-- O44, part 4: states and operands that meet the hypotheses of its clauses. -/
theorem meets_PartitionCommandsLoadStartStopUnloadAndPower_4 :
    (let f : Fin 13 := 0;
      let d : Desc := { code := 0x02#8, part := 0x0#4, clean := true, tag := 0x0000abcd#32, p0 := 0x0000000000000000#64, p1 := 0x0000000000001000#64, p2 := 0x0000000000000100#64, p3 := 0x0000000000000000#64, p4 := 0x0000000000000000#64, p5 := 0x0000000000000000#64, p6 := 0x0000000000000000#64 };
      let k : Nat := 0;
      let j : Job := { fn := 0, d := { code := 0x02#8, part := 0x0#4, clean := true, tag := 0x0000abcd#32, p0 := 0x0000000000000000#64, p1 := 0x0000000000001000#64, p2 := 0x0000000000000100#64, p3 := 0x0000000000000000#64, p4 := 0x0000000000000000#64, p5 := 0x0000000000000000#64, p6 := 0x0000000000000000#64 }, started := true, note := 1, sets := [], wake := false };
      let s : State := ((sts2 : List State)).getD 85 base;
      let n : Nat := d.part.toNat;
      let going : BitVec 8 → Prop := fun (code : BitVec 8) => s.jobOf (↑f : Nat) d = some (k, j) ∧ d.code = code ∧ j.started = true ∧ s.firmOn = true;
      going 2 ∧
      s.f ERR_STAT.FATAL = 0 ∧
      s.loadNames n = false) := by
  decide +kernel

/-- O44, part 5: states and operands that meet the hypotheses of its clauses. -/
theorem meets_PartitionCommandsLoadStartStopUnloadAndPower_5 :
    (let f : Fin 13 := 0;
      let d : Desc := { code := 0x05#8, part := 0x0#4, clean := true, tag := 0x0000abcd#32, p0 := 0x0000000000000000#64, p1 := 0x0000000000000000#64, p2 := 0x0000000000000000#64, p3 := 0x0000000000000000#64, p4 := 0x0000000000000000#64, p5 := 0x0000000000000000#64, p6 := 0x0000000000000000#64 };
      let k : Nat := 0;
      let j : Job := { fn := 0, d := { code := 0x05#8, part := 0x0#4, clean := true, tag := 0x0000abcd#32, p0 := 0x0000000000000000#64, p1 := 0x0000000000000000#64, p2 := 0x0000000000000000#64, p3 := 0x0000000000000000#64, p4 := 0x0000000000000000#64, p5 := 0x0000000000000000#64, p6 := 0x0000000000000000#64 }, started := false, note := 1, sets := [], wake := false };
      let s : State := ((sts2 : List State)).getD 46 base;
      let n : Nat := d.part.toNat;
      let st : Nat := s.f (GLB_PART_CFG.STATE n);
      let may : Prop := s.enabled n = true ∧ (st = stSTOPPED ∨ st = stRUNNING);
      Executes 5 (↑f : Nat) d k j s ∧
      ¬may) := by
  repeat' first | decide +kernel | apply memOk_of | apply ready_of | apply executes_of | apply cplReady_of | apply nearBlock_of | constructor

/-- O44, part 6: states and operands that meet the hypotheses of its clauses. -/
theorem meets_PartitionCommandsLoadStartStopUnloadAndPower_6 :
    (let f : Fin 13 := 0;
      let d : Desc := { code := 0x03#8, part := 0x1#4, clean := true, tag := 0x0000abcd#32, p0 := 0x0000000000000000#64, p1 := 0x0000000000000000#64, p2 := 0x0000000000000000#64, p3 := 0x0000000000000000#64, p4 := 0x0000000000000000#64, p5 := 0x0000000000000000#64, p6 := 0x0000000000000000#64 };
      let k : Nat := 0;
      let j : Job := { fn := 0, d := { code := 0x03#8, part := 0x1#4, clean := true, tag := 0x0000abcd#32, p0 := 0x0000000000000000#64, p1 := 0x0000000000000000#64, p2 := 0x0000000000000000#64, p3 := 0x0000000000000000#64, p4 := 0x0000000000000000#64, p5 := 0x0000000000000000#64, p6 := 0x0000000000000000#64 }, started := false, note := 1, sets := [], wake := false };
      let s : State := ((sts2 : List State)).getD 25 base;
      let n : Nat := d.part.toNat;
      let st : Nat := s.f (GLB_PART_CFG.STATE n);
      let may : Prop := s.enabled n = true ∧ (st = stEMPTY ∨ st = stSTOPPED ∨ st = stINVALID);
      Executes 3 (↑f : Nat) d k j s ∧
      may) := by
  repeat' first | decide +kernel | apply memOk_of | apply ready_of | apply executes_of | apply cplReady_of | apply nearBlock_of | constructor

/-- O44, part 7: states and operands that meet the hypotheses of its clauses. -/
theorem meets_PartitionCommandsLoadStartStopUnloadAndPower_7 :
    (let f : Fin 13 := 0;
      let d : Desc := { code := 0x04#8, part := 0x0#4, clean := true, tag := 0x0000abcd#32, p0 := 0x0000000000000001#64, p1 := 0x0000000000000000#64, p2 := 0x0000000000000000#64, p3 := 0x0000000000000000#64, p4 := 0x0000000000000000#64, p5 := 0x0000000000000000#64, p6 := 0x0000000000000000#64 };
      let k : Nat := 0;
      let j : Job := { fn := 0, d := { code := 0x04#8, part := 0x0#4, clean := true, tag := 0x0000abcd#32, p0 := 0x0000000000000001#64, p1 := 0x0000000000000000#64, p2 := 0x0000000000000000#64, p3 := 0x0000000000000000#64, p4 := 0x0000000000000000#64, p5 := 0x0000000000000000#64, p6 := 0x0000000000000000#64 }, started := false, note := 1, sets := [], wake := false };
      let s : State := ((sts2 : List State)).getD 42 base;
      let n : Nat := d.part.toNat;
      let st : Nat := s.f (GLB_PART_CFG.STATE n);
      Executes 4 (↑f : Nat) d k j s ∧
      (¬(s.enabled n = true ∧ st = stSTOPPED))) := by
  repeat' first | decide +kernel | apply memOk_of | apply ready_of | apply executes_of | apply cplReady_of | apply nearBlock_of | constructor

/-- O44, part 8: states and operands that meet the hypotheses of its clauses. -/
theorem meets_PartitionCommandsLoadStartStopUnloadAndPower_8 :
    (let f : Fin 13 := 0;
      let d : Desc := { code := 0x06#8, part := 0x0#4, clean := true, tag := 0x0000abcd#32, p0 := 0x0000000000000001#64, p1 := 0x0000000000000000#64, p2 := 0x0000000000000000#64, p3 := 0x0000000000000000#64, p4 := 0x0000000000000000#64, p5 := 0x0000000000000000#64, p6 := 0x0000000000000000#64 };
      let k : Nat := 0;
      let j : Job := { fn := 0, d := { code := 0x06#8, part := 0x0#4, clean := true, tag := 0x0000abcd#32, p0 := 0x0000000000000001#64, p1 := 0x0000000000000000#64, p2 := 0x0000000000000000#64, p3 := 0x0000000000000000#64, p4 := 0x0000000000000000#64, p5 := 0x0000000000000000#64, p6 := 0x0000000000000000#64 }, started := false, note := 1, sets := [], wake := false };
      let s : State := ((sts2 : List State)).getD 59 base;
      let n : Nat := d.part.toNat;
      let p0 : Nat := BitVec.toNat d.p0;
      let r : Nat := p0 % 4;
      Executes 6 (↑f : Nat) d k j s ∧
      r ≠ 0 ∧
      s.enabled n = true ∧
      s.f (PWR_PART.BUSY n) = 0 ∧
      s.rungRefused n = 1) := by
  repeat' first | decide +kernel | apply memOk_of | apply ready_of | apply executes_of | apply cplReady_of | apply nearBlock_of | constructor

/-- O44, part 9: states and operands that meet the hypotheses of its clauses. -/
theorem meets_PartitionCommandsLoadStartStopUnloadAndPower_9 :
    (let f : Fin 13 := 0;
      let d : Desc := { code := 0x05#8, part := 0x0#4, clean := true, tag := 0x0000abcd#32, p0 := 0x0000000000000000#64, p1 := 0x0000000000000000#64, p2 := 0x0000000000000000#64, p3 := 0x0000000000000000#64, p4 := 0x0000000000000000#64, p5 := 0x0000000000000000#64, p6 := 0x0000000000000000#64 };
      let k : Nat := 0;
      let j : Job := { fn := 0, d := { code := 0x05#8, part := 0x0#4, clean := true, tag := 0x0000abcd#32, p0 := 0x0000000000000000#64, p1 := 0x0000000000000000#64, p2 := 0x0000000000000000#64, p3 := 0x0000000000000000#64, p4 := 0x0000000000000000#64, p5 := 0x0000000000000000#64, p6 := 0x0000000000000000#64 }, started := false, note := 1, sets := [], wake := false };
      let s : State := ((sts2 : List State)).getD 43 base;
      let n : Nat := d.part.toNat;
      let st : Nat := s.f (GLB_PART_CFG.STATE n);
      let may : Prop := s.enabled n = true ∧ (st = stSTOPPED ∨ st = stRUNNING);
      Executes 5 (↑f : Nat) d k j s ∧
      may ∧
      (∀ q ∈ s.seqsOf n, if (s.getSeq q).st = 2 then (s.getSeq q).rptc = 0 else (s.getSeq q).st = 3 ∨ (s.getSeq q).st = 5 ∨ (s.getSeq q).mcheck ≠ some 1)) := by
  repeat' first | decide +kernel | apply memOk_of | apply ready_of | apply executes_of | apply cplReady_of | apply nearBlock_of | constructor

/-- O44, part 10: states and operands that meet the hypotheses of its clauses. -/
theorem meets_PartitionCommandsLoadStartStopUnloadAndPower_10 :
    (let f : Fin 13 := 0;
      let d : Desc := { code := 0x03#8, part := 0x0#4, clean := true, tag := 0x0000abcd#32, p0 := 0x0000000000000000#64, p1 := 0x0000000000000000#64, p2 := 0x0000000000000000#64, p3 := 0x0000000000000000#64, p4 := 0x0000000000000000#64, p5 := 0x0000000000000000#64, p6 := 0x0000000000000000#64 };
      let k : Nat := 0;
      let j : Job := { fn := 0, d := { code := 0x03#8, part := 0x0#4, clean := true, tag := 0x0000abcd#32, p0 := 0x0000000000000000#64, p1 := 0x0000000000000000#64, p2 := 0x0000000000000000#64, p3 := 0x0000000000000000#64, p4 := 0x0000000000000000#64, p5 := 0x0000000000000000#64, p6 := 0x0000000000000000#64 }, started := false, note := 1, sets := [], wake := false };
      let s : State := ((sts2 : List State)).getD 23 base;
      let n : Nat := d.part.toNat;
      let st : Nat := s.f (GLB_PART_CFG.STATE n);
      let may : Prop := s.enabled n = true ∧ (st = stEMPTY ∨ st = stSTOPPED ∨ st = stINVALID);
      Executes 3 (↑f : Nat) d k j s ∧
      ¬may) := by
  repeat' first | decide +kernel | apply memOk_of | apply ready_of | apply executes_of | apply cplReady_of | apply nearBlock_of | constructor

/-- O44, part 11: states and operands that meet the hypotheses of its clauses. -/
theorem meets_PartitionCommandsLoadStartStopUnloadAndPower_11 :
    (let f : Fin 13 := 0;
      let d : Desc := { code := 0x06#8, part := 0x0#4, clean := true, tag := 0x0000abcd#32, p0 := 0x0000000000000000#64, p1 := 0x0000000000000000#64, p2 := 0x0000000000000000#64, p3 := 0x0000000000000000#64, p4 := 0x0000000000000000#64, p5 := 0x0000000000000000#64, p6 := 0x0000000000000000#64 };
      let k : Nat := 0;
      let j : Job := { fn := 0, d := { code := 0x06#8, part := 0x0#4, clean := true, tag := 0x0000abcd#32, p0 := 0x0000000000000000#64, p1 := 0x0000000000000000#64, p2 := 0x0000000000000000#64, p3 := 0x0000000000000000#64, p4 := 0x0000000000000000#64, p5 := 0x0000000000000000#64, p6 := 0x0000000000000000#64 }, started := false, note := 1, sets := [], wake := false };
      let s : State := ((sts2 : List State)).getD 51 base;
      let n : Nat := d.part.toNat;
      let p0 : Nat := BitVec.toNat d.p0;
      let wakes : Nat → Prop := fun (r : Nat) => s.enabled n = true ∧ s.f (PWR_PART.BUSY n) = 0 ∧ s.sys.entering.find n = none ∧ (r ≠ 0 → s.rungRefused n = 0);
      let r : Nat := p0 % 4;
      Executes 6 (↑f : Nat) d k j s ∧
      wakes r ∧
      r = s.f (PWR_PART.CUR n)) := by
  repeat' first | decide +kernel | apply memOk_of | apply ready_of | apply executes_of | apply cplReady_of | apply nearBlock_of | constructor

/-- O44, part 12: states and operands that meet the hypotheses of its clauses. -/
theorem meets_PartitionCommandsLoadStartStopUnloadAndPower_12 :
    (let f : Fin 13 := 0;
      let d : Desc := D 2 0 [0, 0x1000, 256];
      let k : Nat := 0;
      let j : Job := J 0 (D 2 0 [0, 0x1000, 256]) true 1;
      let late : Bool := false;
      let s : State := put [(ERR_STAT.FATAL, 1)] (mk 0 (D 2 0 [0, 0x1000, 256]) true id);
      let going : BitVec 8 → Prop := fun (code : BitVec 8) => s.jobOf (↑f : Nat) d = some (k, j) ∧ d.code = code ∧ j.started = true ∧ s.firmOn = true;
      let x : BitVec 8 × Instr := (2, Instr.loadPartition 0 (D 2 0 [0, 0x1000, 256]) false);
      x ∈ [(2, Instr.loadPartition f d late), (3, Instr.unloadPartition f d), (4, Instr.startPartition f d), (5, Instr.stopPartition f d), (6, Instr.setPower f d late)] ∧
      going x.1 ∧
      s.f ERR_STAT.FATAL = 1) := by
  decide +kernel

/-- O44, part 13: states and operands that meet the hypotheses of its clauses. -/
theorem meets_PartitionCommandsLoadStartStopUnloadAndPower_13 :
    (let f : Fin 13 := 0;
      let d : Desc := D 2 0 [0, 0x1000, 256];
      let k : Nat := 0;
      let j : Job := J 0 (D 2 0 [0, 0x1000, 256]) true 1;
      let s : State := { put [(CFG_STAT.BUSY, 1)] (mk 0 (D 2 0 [0, 0x1000, 256]) true id) with cfg := { Cfg.idle with feed := [1, 2] } };
      let n : Nat := d.part.toNat;
      let going : BitVec 8 → Prop := fun (code : BitVec 8) => s.jobOf (↑f : Nat) d = some (k, j) ∧ d.code = code ∧ j.started = true ∧ s.firmOn = true;
      going 2 ∧
      s.f ERR_STAT.FATAL = 0 ∧
      s.loadNames n = true ∧
      s.cfg.feed ≠ []) := by
  decide +kernel

/-- O45: states and operands that meet the hypotheses of its clauses. -/
theorem meets_ModuleCommandsRepairCaptureLanesRingAndReset :
    (let f : Fin 13 := 3;
      let d : Desc := { code := 0x08#8, part := 0x0#4, clean := true, tag := 0x0000abcd#32, p0 := 0x0000000000000401#64, p1 := 0x0000000000000000#64, p2 := 0x0000000000000000#64, p3 := 0x0000000000000000#64, p4 := 0x0000000000000000#64, p5 := 0x0000000000000000#64, p6 := 0x0000000000000000#64 };
      let k : Nat := 0;
      let j : Job := { fn := 3, d := { code := 0x08#8, part := 0x0#4, clean := true, tag := 0x0000abcd#32, p0 := 0x0000000000000401#64, p1 := 0x0000000000000000#64, p2 := 0x0000000000000000#64, p3 := 0x0000000000000000#64, p4 := 0x0000000000000000#64, p5 := 0x0000000000000000#64, p6 := 0x0000000000000000#64 }, started := false, note := 1, sets := [], wake := false };
      let s : State := ((sts3 : List State)).getD 8 base;
      let p0 : Nat := BitVec.toNat d.p0;
      let row : Nat := p0 % 16;
      let p : Nat := s.owner row;
      let st : Nat := s.f (GLB_PART_CFG.STATE p);
      let sees : Prop := (↑f : Nat) = 0 ∨ 11 < row ∨ s.vfPart (↑f : Nat) = some p;
      Executes 8 (↑f : Nat) d k j s ∧
      sees ∧
      s.repairCheck d = none ∧
      s.sys.repair = none ∧
      s.enabled p = true ∧
      st ≠ stEMPTY) := by
  repeat' first | decide +kernel | apply memOk_of | apply ready_of | apply executes_of | apply cplReady_of | apply nearBlock_of | constructor

/-- O45, part 2: states and operands that meet the hypotheses of its clauses. -/
theorem meets_ModuleCommandsRepairCaptureLanesRingAndReset_2 :
    (let f : Fin 13 := 0;
      let d : Desc := { code := 0x08#8, part := 0x0#4, clean := true, tag := 0x0000abcd#32, p0 := 0x0000000000000401#64, p1 := 0x0000000000000000#64, p2 := 0x0000000000000000#64, p3 := 0x0000000000000000#64, p4 := 0x0000000000000000#64, p5 := 0x0000000000000000#64, p6 := 0x0000000000000000#64 };
      let k : Nat := 0;
      let j : Job := { fn := 0, d := { code := 0x08#8, part := 0x0#4, clean := true, tag := 0x0000abcd#32, p0 := 0x0000000000000401#64, p1 := 0x0000000000000000#64, p2 := 0x0000000000000000#64, p3 := 0x0000000000000000#64, p4 := 0x0000000000000000#64, p5 := 0x0000000000000000#64, p6 := 0x0000000000000000#64 }, started := true, note := 1, sets := [], wake := false };
      let s : State := ((sts3 : List State)).getD 7 base;
      let going : BitVec 8 → Prop := fun (code : BitVec 8) => s.jobOf (↑f : Nat) d = some (k, j) ∧ d.code = code ∧ j.started = true ∧ s.firmOn = true ∧ (code = 17 ∨ s.f ERR_STAT.FATAL = 0);
      let r : Repair := { part := 0, row := 1, col := 4, step := 5, p := 3, ran := true, reset := false, warm := false };
      going 8 ∧
      s.sys.repair = some r ∧
      r.step = 5 ∧
      r.row < 12 ∧
      r.p < 12 ∧
      MemOk s) := by
  repeat' first | decide +kernel | apply memOk_of | apply ready_of | apply executes_of | apply cplReady_of | apply nearBlock_of | constructor

/-- O45, part 3: states and operands that meet the hypotheses of its clauses. -/
theorem meets_ModuleCommandsRepairCaptureLanesRingAndReset_3 :
    (let f : Fin 13 := 0;
      let d : Desc := { code := 0x08#8, part := 0x0#4, clean := true, tag := 0x0000abcd#32, p0 := 0x0000000000000401#64, p1 := 0x0000000000000000#64, p2 := 0x0000000000000000#64, p3 := 0x0000000000000000#64, p4 := 0x0000000000000000#64, p5 := 0x0000000000000000#64, p6 := 0x0000000000000000#64 };
      let k : Nat := 0;
      let j : Job := { fn := 0, d := { code := 0x08#8, part := 0x0#4, clean := true, tag := 0x0000abcd#32, p0 := 0x0000000000000401#64, p1 := 0x0000000000000000#64, p2 := 0x0000000000000000#64, p3 := 0x0000000000000000#64, p4 := 0x0000000000000000#64, p5 := 0x0000000000000000#64, p6 := 0x0000000000000000#64 }, started := false, note := 1, sets := [], wake := false };
      let s : State := ((sts3 : List State)).getD 2 base;
      let p0 : Nat := BitVec.toNat d.p0;
      let row : Nat := p0 % 16;
      let p : Nat := s.owner row;
      let st : Nat := s.f (GLB_PART_CFG.STATE p);
      let sees : Prop := (↑f : Nat) = 0 ∨ 11 < row ∨ s.vfPart (↑f : Nat) = some p;
      Executes 8 (↑f : Nat) d k j s ∧
      sees ∧
      s.repairCheck d = none ∧
      s.sys.repair = none ∧
      (s.enabled p = false ∨ st = stEMPTY)) := by
  repeat' first | decide +kernel | apply memOk_of | apply ready_of | apply executes_of | apply cplReady_of | apply nearBlock_of | constructor

/-- O45, part 4: states and operands that meet the hypotheses of its clauses. -/
theorem meets_ModuleCommandsRepairCaptureLanesRingAndReset_4 :
    (let f : Fin 13 := 0;
      let d : Desc := { code := 0x08#8, part := 0x0#4, clean := true, tag := 0x0000abcd#32, p0 := 0x000000000000040c#64, p1 := 0x0000000000000000#64, p2 := 0x0000000000000000#64, p3 := 0x0000000000000000#64, p4 := 0x0000000000000000#64, p5 := 0x0000000000000000#64, p6 := 0x0000000000000000#64 };
      let k : Nat := 0;
      let j : Job := { fn := 0, d := { code := 0x08#8, part := 0x0#4, clean := true, tag := 0x0000abcd#32, p0 := 0x000000000000040c#64, p1 := 0x0000000000000000#64, p2 := 0x0000000000000000#64, p3 := 0x0000000000000000#64, p4 := 0x0000000000000000#64, p5 := 0x0000000000000000#64, p6 := 0x0000000000000000#64 }, started := false, note := 1, sets := [], wake := false };
      let s : State := ((sts4 : List State)).getD 4 base;
      let p0 : Nat := BitVec.toNat d.p0;
      let row : Nat := p0 % 16;
      let p : Nat := s.owner row;
      let sees : Prop := (↑f : Nat) = 0 ∨ 11 < row ∨ s.vfPart (↑f : Nat) = some p;
      let e : Nat × Nat := (3, 1);
      Executes 8 (↑f : Nat) d k j s ∧
      sees ∧
      s.repairCheck d = some e) := by
  repeat' first | decide +kernel | apply memOk_of | apply ready_of | apply executes_of | apply cplReady_of | apply nearBlock_of | constructor

/-- O45, part 5: states and operands that meet the hypotheses of its clauses. -/
theorem meets_ModuleCommandsRepairCaptureLanesRingAndReset_5 :
    (let f : Fin 13 := 3;
      let d : Desc := { code := 0x08#8, part := 0x0#4, clean := true, tag := 0x0000abcd#32, p0 := 0x0000000000000b03#64, p1 := 0x0000000000000000#64, p2 := 0x0000000000000000#64, p3 := 0x0000000000000000#64, p4 := 0x0000000000000000#64, p5 := 0x0000000000000000#64, p6 := 0x0000000000000000#64 };
      let k : Nat := 0;
      let j : Job := { fn := 3, d := { code := 0x08#8, part := 0x0#4, clean := true, tag := 0x0000abcd#32, p0 := 0x0000000000000b03#64, p1 := 0x0000000000000000#64, p2 := 0x0000000000000000#64, p3 := 0x0000000000000000#64, p4 := 0x0000000000000000#64, p5 := 0x0000000000000000#64, p6 := 0x0000000000000000#64 }, started := false, note := 1, sets := [], wake := false };
      let s : State := ((sts5 : List State)).getD 8 base;
      let p0 : Nat := BitVec.toNat d.p0;
      let row : Nat := p0 % 16;
      let p : Nat := s.owner row;
      let sees : Prop := (↑f : Nat) = 0 ∨ 11 < row ∨ s.vfPart (↑f : Nat) = some p;
      Executes 8 (↑f : Nat) d k j s ∧
      ¬sees) := by
  repeat' first | decide +kernel | apply memOk_of | apply ready_of | apply executes_of | apply cplReady_of | apply nearBlock_of | constructor

/-- O45, part 6: states and operands that meet the hypotheses of its clauses. -/
theorem meets_ModuleCommandsRepairCaptureLanesRingAndReset_6 :
    (let f : Fin 13 := 3;
      let d : Desc := { code := 0x09#8, part := 0x0#4, clean := true, tag := 0x0000abcd#32, p0 := 0x0000000000000001#64, p1 := 0x0000000000000000#64, p2 := 0x0000000000000000#64, p3 := 0x0000000000000000#64, p4 := 0x0000000000000000#64, p5 := 0x0000000000000000#64, p6 := 0x0000000000000000#64 };
      let k : Nat := 0;
      let j : Job := { fn := 3, d := { code := 0x09#8, part := 0x0#4, clean := true, tag := 0x0000abcd#32, p0 := 0x0000000000000001#64, p1 := 0x0000000000000000#64, p2 := 0x0000000000000000#64, p3 := 0x0000000000000000#64, p4 := 0x0000000000000000#64, p5 := 0x0000000000000000#64, p6 := 0x0000000000000000#64 }, started := false, note := 1, sets := [], wake := false };
      let s : State := ((sts7 : List State)).getD 8 base;
      let n : Nat := d.part.toNat;
      let p0 : Nat := BitVec.toNat d.p0;
      let st : Nat := s.f (ERR_CAP.STATE n);
      Executes 9 (↑f : Nat) d k j s ∧
      s.f RST_STAT.SVC = 2 ∧
      s.enabled n = true ∧
      p0 % 2 = 1 ∧
      st = 2) := by
  repeat' first | decide +kernel | apply memOk_of | apply ready_of | apply executes_of | apply cplReady_of | apply nearBlock_of | constructor

/-- O45, part 7: states and operands that meet the hypotheses of its clauses. -/
theorem meets_ModuleCommandsRepairCaptureLanesRingAndReset_7 :
    (let f : Fin 13 := 0;
      let d : Desc := { code := 0x09#8, part := 0x0#4, clean := true, tag := 0x0000abcd#32, p0 := 0x0000000000000000#64, p1 := 0x0000000000000000#64, p2 := 0x0000000000000000#64, p3 := 0x0000000000000000#64, p4 := 0x0000000000000000#64, p5 := 0x0000000000000000#64, p6 := 0x0000000000000000#64 };
      let k : Nat := 0;
      let j : Job := { fn := 0, d := { code := 0x09#8, part := 0x0#4, clean := true, tag := 0x0000abcd#32, p0 := 0x0000000000000000#64, p1 := 0x0000000000000000#64, p2 := 0x0000000000000000#64, p3 := 0x0000000000000000#64, p4 := 0x0000000000000000#64, p5 := 0x0000000000000000#64, p6 := 0x0000000000000000#64 }, started := false, note := 1, sets := [], wake := false };
      let s : State := ((sts8 : List State)).getD 0 base;
      let n : Nat := d.part.toNat;
      let p0 : Nat := BitVec.toNat d.p0;
      let st : Nat := s.f (ERR_CAP.STATE n);
      Executes 9 (↑f : Nat) d k j s ∧
      s.f RST_STAT.SVC = 2 ∧
      s.enabled n = true ∧
      p0 % 2 = 0 ∧
      bufOk d.p1 (64 + (s.rowsOf n).length * 49152) = true ∧
      st = 0) := by
  repeat' first | decide +kernel | apply memOk_of | apply ready_of | apply executes_of | apply cplReady_of | apply nearBlock_of | constructor

/-- O45, part 8: states and operands that meet the hypotheses of its clauses. -/
theorem meets_ModuleCommandsRepairCaptureLanesRingAndReset_8 :
    (let f : Fin 13 := 0;
      let d : Desc := { code := 0x09#8, part := 0x0#4, clean := true, tag := 0x0000abcd#32, p0 := 0x0000000000000000#64, p1 := 0x0000000000000000#64, p2 := 0x0000000000000000#64, p3 := 0x0000000000000000#64, p4 := 0x0000000000000000#64, p5 := 0x0000000000000000#64, p6 := 0x0000000000000000#64 };
      let k : Nat := 0;
      let j : Job := { fn := 0, d := { code := 0x09#8, part := 0x0#4, clean := true, tag := 0x0000abcd#32, p0 := 0x0000000000000000#64, p1 := 0x0000000000000000#64, p2 := 0x0000000000000000#64, p3 := 0x0000000000000000#64, p4 := 0x0000000000000000#64, p5 := 0x0000000000000000#64, p6 := 0x0000000000000000#64 }, started := false, note := 1, sets := [], wake := false };
      let s : State := ((sts8 : List State)).getD 4 base;
      let n : Nat := d.part.toNat;
      let p0 : Nat := BitVec.toNat d.p0;
      let st : Nat := s.f (ERR_CAP.STATE n);
      Executes 9 (↑f : Nat) d k j s ∧
      s.f RST_STAT.SVC = 2 ∧
      s.enabled n = true ∧
      p0 % 2 = 0 ∧
      bufOk d.p1 (64 + (s.rowsOf n).length * 49152) = true ∧
      st = 2 ∧
      d.p1 = 0) := by
  repeat' first | decide +kernel | apply memOk_of | apply ready_of | apply executes_of | apply cplReady_of | apply nearBlock_of | constructor

/-- O45, part 9: states and operands that meet the hypotheses of its clauses. -/
theorem meets_ModuleCommandsRepairCaptureLanesRingAndReset_9 :
    (let f : Fin 13 := 0;
      let d : Desc := { code := 0x09#8, part := 0x0#4, clean := true, tag := 0x0000abcd#32, p0 := 0x0000000000000000#64, p1 := 0x0000000000001000#64, p2 := 0x0000000000000000#64, p3 := 0x0000000000000000#64, p4 := 0x0000000000000000#64, p5 := 0x0000000000000000#64, p6 := 0x0000000000000000#64 };
      let k : Nat := 0;
      let j : Job := { fn := 0, d := { code := 0x09#8, part := 0x0#4, clean := true, tag := 0x0000abcd#32, p0 := 0x0000000000000000#64, p1 := 0x0000000000001000#64, p2 := 0x0000000000000000#64, p3 := 0x0000000000000000#64, p4 := 0x0000000000000000#64, p5 := 0x0000000000000000#64, p6 := 0x0000000000000000#64 }, started := false, note := 1, sets := [], wake := false };
      let memOk : Bool := true;
      let s : State := ((sts9 : List State)).getD 4 base;
      let n : Nat := d.part.toNat;
      let p0 : Nat := BitVec.toNat d.p0;
      let st : Nat := s.f (ERR_CAP.STATE n);
      Executes 9 (↑f : Nat) d k j s ∧
      s.f RST_STAT.SVC = 2 ∧
      s.enabled n = true ∧
      p0 % 2 = 0 ∧
      bufOk d.p1 (64 + (s.rowsOf n).length * 49152) = true ∧
      st = 2 ∧
      d.p1 ≠ 0 ∧
      memOk = true ∧
      (∀ r < 12, s.spare r ≤ 12) ∧
      MemOk s) := by
  repeat' first | decide +kernel | apply memOk_of | apply ready_of | apply executes_of | apply cplReady_of | apply nearBlock_of | constructor

/-- O45, part 10: states and operands that meet the hypotheses of its clauses. -/
theorem meets_ModuleCommandsRepairCaptureLanesRingAndReset_10 :
    (let f : Fin 13 := 0;
      let d : Desc := { code := 0x0b#8, part := 0x0#4, clean := true, tag := 0x0000abcd#32, p0 := 0x0000000000000007#64, p1 := 0x0000000000000000#64, p2 := 0x0000000000000000#64, p3 := 0x00000000000a116a#64, p4 := 0x0000000000000000#64, p5 := 0x0000000000000000#64, p6 := 0x0000000000000000#64 };
      let k : Nat := 0;
      let j : Job := { fn := 0, d := { code := 0x0b#8, part := 0x0#4, clean := true, tag := 0x0000abcd#32, p0 := 0x0000000000000007#64, p1 := 0x0000000000000000#64, p2 := 0x0000000000000000#64, p3 := 0x00000000000a116a#64, p4 := 0x0000000000000000#64, p5 := 0x0000000000000000#64, p6 := 0x0000000000000000#64 }, started := false, note := 1, sets := [], wake := false };
      let s : State := ((sts10 : List State)).getD 2 base;
      let n : Nat := d.part.toNat;
      let ls : List Nat := laneMask d;
      let v : Nat := BitVec.toNat d.p3;
      Executes 11 (↑f : Nat) d k j s ∧
      s.enabled n = true ∧
      s.f (GLB_PART_CFG.STATE n) ≠ stRUNNING ∧
      (∀ l ∈ ls, s.owner (laneRow l) = n) ∧
      v % 8 ≤ 4) := by
  repeat' first | decide +kernel | apply memOk_of | apply ready_of | apply executes_of | apply cplReady_of | apply nearBlock_of | constructor

/-- O45, part 11: states and operands that meet the hypotheses of its clauses. -/
theorem meets_ModuleCommandsRepairCaptureLanesRingAndReset_11 :
    (let f : Fin 13 := 0;
      let d : Desc := { code := 0x0c#8, part := 0x0#4, clean := true, tag := 0x0000abcd#32, p0 := 0x0000000000000009#64, p1 := 0x0000000000000000#64, p2 := 0x0000000000000000#64, p3 := 0x0000000000000000#64, p4 := 0x0000000000000000#64, p5 := 0x0000000000000000#64, p6 := 0x0000000000000000#64 };
      let k : Nat := 0;
      let j : Job := { fn := 0, d := { code := 0x0c#8, part := 0x0#4, clean := true, tag := 0x0000abcd#32, p0 := 0x0000000000000009#64, p1 := 0x0000000000000000#64, p2 := 0x0000000000000000#64, p3 := 0x0000000000000000#64, p4 := 0x0000000000000000#64, p5 := 0x0000000000000000#64, p6 := 0x0000000000000000#64 }, started := false, note := 1, sets := [], wake := false };
      let s : State := ((sts12 : List State)).getD 4 base;
      Executes 12 (↑f : Nat) d k j s ∧
      s.modRung ≠ 3 ∧
      s.f RING_STAT.JOINED = 0 ∧
      s.ring.step = 0) := by
  repeat' first | decide +kernel | apply memOk_of | apply ready_of | apply executes_of | apply cplReady_of | apply nearBlock_of | constructor

/-- O45, part 12: states and operands that meet the hypotheses of its clauses. -/
theorem meets_ModuleCommandsRepairCaptureLanesRingAndReset_12 :
    (let f : Fin 13 := 0;
      let d : Desc := { code := 0x0c#8, part := 0x0#4, clean := true, tag := 0x0000abcd#32, p0 := 0x0000000000000009#64, p1 := 0x0000000000000000#64, p2 := 0x0000000000000000#64, p3 := 0x0000000000000000#64, p4 := 0x0000000000000000#64, p5 := 0x0000000000000000#64, p6 := 0x0000000000000000#64 };
      let k : Nat := 0;
      let j : Job := { fn := 0, d := { code := 0x0c#8, part := 0x0#4, clean := true, tag := 0x0000abcd#32, p0 := 0x0000000000000009#64, p1 := 0x0000000000000000#64, p2 := 0x0000000000000000#64, p3 := 0x0000000000000000#64, p4 := 0x0000000000000000#64, p5 := 0x0000000000000000#64, p6 := 0x0000000000000000#64 }, started := true, note := 1, sets := [], wake := false };
      let s : State := ((sts12 : List State)).getD 5 base;
      let going : BitVec 8 → Prop := fun (code : BitVec 8) => s.jobOf (↑f : Nat) d = some (k, j) ∧ d.code = code ∧ j.started = true ∧ s.firmOn = true ∧ (code = 17 ∨ s.f ERR_STAT.FATAL = 0);
      going 12 ∧
      s.f RING_STAT.JOINED = 0 ∧
      s.ring.step = 0 ∧
      s.f RING_STAT.JERR ≠ 0) := by
  decide +kernel

/-- O45, part 13: states and operands that meet the hypotheses of its clauses. -/
theorem meets_ModuleCommandsRepairCaptureLanesRingAndReset_13 :
    (let f : Fin 13 := 0;
      let d : Desc := { code := 0x0c#8, part := 0x0#4, clean := true, tag := 0x0000abcd#32, p0 := 0x0000000000000009#64, p1 := 0x0000000000000000#64, p2 := 0x0000000000000000#64, p3 := 0x0000000000000000#64, p4 := 0x0000000000000000#64, p5 := 0x0000000000000000#64, p6 := 0x0000000000000000#64 };
      let k : Nat := 0;
      let j : Job := { fn := 0, d := { code := 0x0c#8, part := 0x0#4, clean := true, tag := 0x0000abcd#32, p0 := 0x0000000000000009#64, p1 := 0x0000000000000000#64, p2 := 0x0000000000000000#64, p3 := 0x0000000000000000#64, p4 := 0x0000000000000000#64, p5 := 0x0000000000000000#64, p6 := 0x0000000000000000#64 }, started := true, note := 1, sets := [], wake := false };
      let s : State := ((sts12 : List State)).getD 3 base;
      let going : BitVec 8 → Prop := fun (code : BitVec 8) => s.jobOf (↑f : Nat) d = some (k, j) ∧ d.code = code ∧ j.started = true ∧ s.firmOn = true ∧ (code = 17 ∨ s.f ERR_STAT.FATAL = 0);
      going 12 ∧
      s.f RING_STAT.JOINED = 1) := by
  decide +kernel

/-- O45, part 14: states and operands that meet the hypotheses of its clauses. -/
theorem meets_ModuleCommandsRepairCaptureLanesRingAndReset_14 :
    (let f : Fin 13 := 0;
      let d : Desc := { code := 0x0d#8, part := 0x0#4, clean := true, tag := 0x0000abcd#32, p0 := 0x0000000000000000#64, p1 := 0x0000000000000000#64, p2 := 0x0000000000000000#64, p3 := 0x0000000000000000#64, p4 := 0x0000000000000000#64, p5 := 0x0000000000000000#64, p6 := 0x0000000000000000#64 };
      let k : Nat := 0;
      let j : Job := { fn := 0, d := { code := 0x0d#8, part := 0x0#4, clean := true, tag := 0x0000abcd#32, p0 := 0x0000000000000000#64, p1 := 0x0000000000000000#64, p2 := 0x0000000000000000#64, p3 := 0x0000000000000000#64, p4 := 0x0000000000000000#64, p5 := 0x0000000000000000#64, p6 := 0x0000000000000000#64 }, started := false, note := 1, sets := [], wake := false };
      let s : State := ((sts13 : List State)).getD 2 base;
      Executes 13 (↑f : Nat) d k j s ∧
      s.f RING_STAT.JOINED = 1) := by
  repeat' first | decide +kernel | apply memOk_of | apply ready_of | apply executes_of | apply cplReady_of | apply nearBlock_of | constructor

/-- O45, part 15: states and operands that meet the hypotheses of its clauses. -/
theorem meets_ModuleCommandsRepairCaptureLanesRingAndReset_15 :
    (let f : Fin 13 := 0;
      let d : Desc := { code := 0x0d#8, part := 0x0#4, clean := true, tag := 0x0000abcd#32, p0 := 0x0000000000000000#64, p1 := 0x0000000000000000#64, p2 := 0x0000000000000000#64, p3 := 0x0000000000000000#64, p4 := 0x0000000000000000#64, p5 := 0x0000000000000000#64, p6 := 0x0000000000000000#64 };
      let k : Nat := 0;
      let j : Job := { fn := 0, d := { code := 0x0d#8, part := 0x0#4, clean := true, tag := 0x0000abcd#32, p0 := 0x0000000000000000#64, p1 := 0x0000000000000000#64, p2 := 0x0000000000000000#64, p3 := 0x0000000000000000#64, p4 := 0x0000000000000000#64, p5 := 0x0000000000000000#64, p6 := 0x0000000000000000#64 }, started := true, note := 1, sets := [], wake := false };
      let s : State := ((sts13 : List State)).getD 1 base;
      let going : BitVec 8 → Prop := fun (code : BitVec 8) => s.jobOf (↑f : Nat) d = some (k, j) ∧ d.code = code ∧ j.started = true ∧ s.firmOn = true ∧ (code = 17 ∨ s.f ERR_STAT.FATAL = 0);
      going 13 ∧
      s.f RING_STAT.JOINED = 0) := by
  decide +kernel

/-- O45, part 16: states and operands that meet the hypotheses of its clauses. -/
theorem meets_ModuleCommandsRepairCaptureLanesRingAndReset_16 :
    (let f : Fin 13 := 0;
      let d : Desc := { code := 0x0d#8, part := 0x0#4, clean := true, tag := 0x0000abcd#32, p0 := 0x0000000000000000#64, p1 := 0x0000000000000000#64, p2 := 0x0000000000000000#64, p3 := 0x0000000000000000#64, p4 := 0x0000000000000000#64, p5 := 0x0000000000000000#64, p6 := 0x0000000000000000#64 };
      let k : Nat := 0;
      let j : Job := { fn := 0, d := { code := 0x0d#8, part := 0x0#4, clean := true, tag := 0x0000abcd#32, p0 := 0x0000000000000000#64, p1 := 0x0000000000000000#64, p2 := 0x0000000000000000#64, p3 := 0x0000000000000000#64, p4 := 0x0000000000000000#64, p5 := 0x0000000000000000#64, p6 := 0x0000000000000000#64 }, started := false, note := 1, sets := [], wake := false };
      let s : State := ((sts13 : List State)).getD 0 base;
      Executes 13 (↑f : Nat) d k j s ∧
      s.f RING_STAT.JOINED = 0) := by
  repeat' first | decide +kernel | apply memOk_of | apply ready_of | apply executes_of | apply cplReady_of | apply nearBlock_of | constructor

/-- O45, part 17: states and operands that meet the hypotheses of its clauses. -/
theorem meets_ModuleCommandsRepairCaptureLanesRingAndReset_17 :
    (let f : Fin 13 := 0;
      let d : Desc := { code := 0x11#8, part := 0x0#4, clean := true, tag := 0x0000abcd#32, p0 := 0x0000000000000000#64, p1 := 0x0000000000000000#64, p2 := 0x0000000000000000#64, p3 := 0x0000000000000000#64, p4 := 0x0000000000000000#64, p5 := 0x0000000000000000#64, p6 := 0x0000000000000000#64 };
      let k : Nat := 0;
      let j : Job := { fn := 0, d := { code := 0x11#8, part := 0x0#4, clean := true, tag := 0x0000abcd#32, p0 := 0x0000000000000000#64, p1 := 0x0000000000000000#64, p2 := 0x0000000000000000#64, p3 := 0x0000000000000000#64, p4 := 0x0000000000000000#64, p5 := 0x0000000000000000#64, p6 := 0x0000000000000000#64 }, started := false, note := 1, sets := [], wake := false };
      let s : State := ((sts14 : List State)).getD 0 base;
      Executes 17 (↑f : Nat) d k j s ∧
      s.sys.stage ≠ 0 ∧
      s.sys.trip = false ∧
      1 ≤ s.f RST_STAT.SVC ∧
      s.f RST_STAT.SVC ≤ 2) := by
  repeat' first | decide +kernel | apply memOk_of | apply ready_of | apply executes_of | apply cplReady_of | apply nearBlock_of | constructor

/-- O45, part 18: states and operands that meet the hypotheses of its clauses. -/
theorem meets_ModuleCommandsRepairCaptureLanesRingAndReset_18 :
    (let f : Fin 13 := 0;
      let d : Desc := { code := 0x11#8, part := 0x0#4, clean := true, tag := 0x0000abcd#32, p0 := 0x0000000000000000#64, p1 := 0x0000000000000000#64, p2 := 0x0000000000000000#64, p3 := 0x0000000000000000#64, p4 := 0x0000000000000000#64, p5 := 0x0000000000000000#64, p6 := 0x0000000000000000#64 };
      let k : Nat := 0;
      let j : Job := { fn := 0, d := { code := 0x11#8, part := 0x0#4, clean := true, tag := 0x0000abcd#32, p0 := 0x0000000000000000#64, p1 := 0x0000000000000000#64, p2 := 0x0000000000000000#64, p3 := 0x0000000000000000#64, p4 := 0x0000000000000000#64, p5 := 0x0000000000000000#64, p6 := 0x0000000000000000#64 }, started := true, note := 1, sets := [], wake := false };
      let s : State := ((sts14 : List State)).getD 3 base;
      let going : BitVec 8 → Prop := fun (code : BitVec 8) => s.jobOf (↑f : Nat) d = some (k, j) ∧ d.code = code ∧ j.started = true ∧ s.firmOn = true ∧ (code = 17 ∨ s.f ERR_STAT.FATAL = 0);
      going 17 ∧
      s.mbxReady (↑f : Nat) = true ∧
      s.sys.reloads = [] ∧
      s.f CFG_STAT.BUSY = 0 ∧
      s.sys.repair = none) := by
  decide +kernel

/-- O46: states and operands that meet the hypotheses of its clauses. -/
theorem meets_LanesTrainAndReceive :
    (let q : Fin 48 := 0;
      let v : BitVec 32 := 0x1ca5ecf8#32;
      let s : State := lv (fun x => { x with flight := [], rxSeq := 0 }) base;
      let rate : Nat := v.toNat % 8;
      s.trimmed = true ∧
      rate ≤ 4 ∧
      (rate = 4 ∨ 8 ≤ (↑q : Nat) → s.f RST_STAT.SVC = 2) ∧
      s.f (LQ_CFG.RATE (↑q : Nat)) ≠ rate) ∧
    (let l : Fin 192 := 0;
      let fcrc : BitVec 32 := 0x1ca5ecf8#32;
      let ts : BitVec 3 := 0x1#3;
      let s : State := lv (fun x => { x with flight := [], rxSeq := 0 }) base;
      let x : Lane := s.getLane (↑l : Nat);
      let f : Nat := s.leader (↑l : Nat);
      let y : Lane := s.getLane f;
      let ls : List Nat := s.groupLanes (↑l : Nat);
      let p : Nat := s.owner (laneRow (↑l : Nat));
      let ready : Prop := (s.groupOf (↑l : Nat)).2.2.2 = true ∧ (↑l : Nat) ∈ ls ∧ s.f (LQ_CFG.RATE (laneQuad (↑l : Nat))) ≠ 0 ∧ (12 ≤ p ∨ s.f (PWR_PART.CUR p) = 0);
      let locked : Prop := x.lock = true ∧ (List.filter (fun (b : Bool) => !b) (List.take 64 (true :: x.hdrs))).length < 16;
      let counted : List Blk := List.filter Blk.counts y.flight;
      let bad : Prop := y.flightBad = true ∨ flightCrc counted ≠ fcrc.toNat;
      ready ∧
      s.trimmed = true ∧
      s.f (LANE_CTL.EN (↑l : Nat)) = 1 ∧
      s.f (LANE_CTL.TRAIN (↑l : Nat)) = 0 ∧
      s.f (LQ_STAT.PLL (laneQuad (↑l : Nat))) = 1 ∧
      locked ∧
      (↑l : Nat) ∈ ls ∧
      s.tstate (↑l : Nat) = 3 ∧
      (ts = 1 ∨ ts = 2) ∧
      s.rxTakes (↑l : Nat) = true ∧
      y.rxt = false ∧
      bad ∧
      y.naked = false) ∧
    (let l : Fin 192 := 0;
      let s : State := lv (fun x => { x with flight := [], rxSeq := 0 }) base;
      let x : Lane := s.getLane (↑l : Nat);
      let f : Nat := s.leader (↑l : Nat);
      let y : Lane := s.getLane f;
      let locked : Prop := x.lock = true ∧ (List.filter (fun (b : Bool) => !b) (List.take 64 (true :: x.hdrs))).length < 16;
      locked ∧
      s.rxTakes (↑l : Nat) = true ∧
      y.rxt = false) ∧
    (let l : Fin 192 := 0;
      let s : State := lv (fun x => { x with flight := [], rxSeq := 0 }) base;
      let x : Lane := s.getLane (↑l : Nat);
      let f : Nat := s.leader (↑l : Nat);
      let y : Lane := s.getLane f;
      let locked : Prop := x.lock = true ∧ (List.filter (fun (b : Bool) => !b) (List.take 64 (true :: x.hdrs))).length < 16;
      locked ∧
      s.rxTakes (↑l : Nat) = true ∧
      y.rxt = false) ∧
    (let l : Fin 192 := 0;
      let s : State := lv (fun x => { x with flight := [], rxSeq := 0 }) base;
      let x : Lane := s.getLane (↑l : Nat);
      let f : Nat := s.leader (↑l : Nat);
      let y : Lane := s.getLane f;
      let locked : Prop := x.lock = true ∧ (List.filter (fun (b : Bool) => !b) (List.take 64 (true :: x.hdrs))).length < 16;
      locked ∧
      s.rxTakes (↑l : Nat) = true ∧
      y.rxt = false) ∧
    (let l : Fin 192 := 0;
      let s : State := lv (fun x => { x with flight := [], rxSeq := 0 }) base;
      let x : Lane := s.getLane (↑l : Nat);
      let f : Nat := s.leader (↑l : Nat);
      let y : Lane := s.getLane f;
      let locked : Prop := x.lock = true ∧ (List.filter (fun (b : Bool) => !b) (List.take 64 (true :: x.hdrs))).length < 16;
      locked ∧
      s.rxTakes (↑l : Nat) = true ∧
      y.rxt = false ∧
      y.rxAbort = false) := by
  decide +kernel

/-- O46, part 2: states and operands that meet the hypotheses of its clauses. -/
theorem meets_LanesTrainAndReceive_2 :
    (let l : Fin 192 := 0;
      let s : State := put [(LANE_CTL.EN 0, 0)] (ln base);
      let ls : List Nat := s.groupLanes (↑l : Nat);
      let p : Nat := s.owner (laneRow (↑l : Nat));
      let ready : Prop := (s.groupOf (↑l : Nat)).2.2.2 = true ∧ (↑l : Nat) ∈ ls ∧ s.f (LQ_CFG.RATE (laneQuad (↑l : Nat))) ≠ 0 ∧ (12 ≤ p ∨ s.f (PWR_PART.CUR p) = 0);
      ready ∧
      s.trimmed = true ∧
      s.f (LANE_CTL.EN (↑l : Nat)) = 0 ∧
      s.f (LQ_STAT.PLL (laneQuad (↑l : Nat))) = 1) ∧
    (let l : Fin 192 := 0;
      let s : State := put [(LANE_CTL.EN 0, 0)] (ln base);
      let x : Lane := s.getLane (↑l : Nat);
      x.lock = false ∧
      x.hdrs.length < 63 ∧
      s.tstate (↑l : Nat) ≠ 0) := by
  decide +kernel

/-- O46, part 3: states and operands that meet the hypotheses of its clauses. -/
theorem meets_LanesTrainAndReceive_3 :
    (let l : Fin 192 := 0;
      let fcrc : BitVec 32 := 0x1ca5ecf8#32;
      let fseq : BitVec 8 := 0x07#8;
      let s : State := lv (fun x => { x with flight := [blk1, blkE], rxSeq := 9 }) base;
      let x : Lane := s.getLane (↑l : Nat);
      let f : Nat := s.leader (↑l : Nat);
      let y : Lane := s.getLane f;
      let locked : Prop := x.lock = true ∧ (List.filter (fun (b : Bool) => !b) (List.take 64 (true :: x.hdrs))).length < 16;
      let counted : List Blk := List.filter Blk.counts y.flight;
      let bad : Prop := y.flightBad = true ∨ flightCrc counted ≠ fcrc.toNat;
      locked ∧
      s.rxTakes (↑l : Nat) = true ∧
      y.rxt = false ∧
      ¬bad ∧
      fseq.toNat ≠ y.rxSeq) := by
  decide +kernel

/-- O46, part 4: states and operands that meet the hypotheses of its clauses. -/
theorem meets_LanesTrainAndReceive_4 :
    (let l : Fin 192 := 0;
      let fcrc : BitVec 32 := 0x1ca5ecf8#32;
      let fseq : BitVec 8 := 0x07#8;
      let s : State := lv (fun x => { x with flight := [blk1, blkE], rxSeq := 7, granted := 65535 }) base;
      let x : Lane := s.getLane (↑l : Nat);
      let f : Nat := s.leader (↑l : Nat);
      let y : Lane := s.getLane f;
      let locked : Prop := x.lock = true ∧ (List.filter (fun (b : Bool) => !b) (List.take 64 (true :: x.hdrs))).length < 16;
      let counted : List Blk := List.filter Blk.counts y.flight;
      let bad : Prop := y.flightBad = true ∨ flightCrc counted ≠ fcrc.toNat;
      locked ∧
      s.rxTakes (↑l : Nat) = true ∧
      y.rxt = false ∧
      ¬bad ∧
      fseq.toNat = y.rxSeq) := by
  decide +kernel

/-- O46, part 5: states and operands that meet the hypotheses of its clauses. -/
theorem meets_LanesTrainAndReceive_5 :
    (let q : Fin 48 := 7;
      let v : BitVec 32 := 0x00000008#32;
      let s : State := tst 1 (lv (fun x => { x with rxTrain := 7 }) base);
      let rate : Nat := v.toNat % 8;
      let fec : Nat := v.toNat / 16 % 2;
      s.trimmed = true ∧
      rate ≤ 4 ∧
      (rate = 4 ∨ 8 ≤ (↑q : Nat) → s.f RST_STAT.SVC = 2) ∧
      s.f (LQ_CFG.RATE (↑q : Nat)) = rate ∧
      s.f (LQ_CFG.FEC (↑q : Nat)) = fec) ∧
    (let l : Fin 192 := 0;
      let s : State := tst 1 (lv (fun x => { x with rxTrain := 7 }) base);
      let x : Lane := s.getLane (↑l : Nat);
      let ls : List Nat := s.groupLanes (↑l : Nat);
      let locked : Prop := x.lock = true ∧ (List.filter (fun (b : Bool) => !b) (List.take 64 (true :: x.hdrs))).length < 16;
      let others : Nat → Nat → Nat → Prop := fun (st need sent : Nat) => ∀ k ∈ ls, k ≠ (↑l : Nat) → s.tstate k = st ∧ (s.getLane k).lock = true ∧ need ≤ (s.getLane k).rxTrain ∧ sent ≤ (s.getLane k).txTrain;
      s.tstate (↑l : Nat) = 1 ∧
      x.seekLogged = false ∧
      locked ∧
      (↑l : Nat) ∈ ls ∧
      7 ≤ x.rxTrain ∧
      others 1 8 0) := by
  decide +kernel

/-- O46, part 6: states and operands that meet the hypotheses of its clauses. -/
theorem meets_LanesTrainAndReceive_6 :
    (let l : Fin 192 := 0;
      let s : State := put [(LQ_STAT.PLL 0, 0)] ((ln base).onLane 0 (fun x => { x with pll := true }));
      let x : Lane := s.getLane (↑l : Nat);
      let ls : List Nat := s.groupLanes (↑l : Nat);
      let p : Nat := s.owner (laneRow (↑l : Nat));
      let ready : Prop := (s.groupOf (↑l : Nat)).2.2.2 = true ∧ (↑l : Nat) ∈ ls ∧ s.f (LQ_CFG.RATE (laneQuad (↑l : Nat))) ≠ 0 ∧ (12 ≤ p ∨ s.f (PWR_PART.CUR p) = 0);
      ready ∧
      x.pll = true ∧
      (8 ≤ laneQuad (↑l : Nat) → s.f RST_STAT.SVC = 2) ∧
      (∀ (k : Fin 192), k ≠ l → laneQuad (↑k : Nat) = laneQuad (↑l : Nat) → (s.getLane (↑k : Nat)).pll = false)) := by
  decide +kernel

/-- O46, part 7: states and operands that meet the hypotheses of its clauses. -/
theorem meets_LanesTrainAndReceive_7 :
    (let l : Fin 192 := 0;
      let ts : BitVec 3 := 0x4#3;
      let s : State := lv (fun x => { x with rxt := true, buf := { items := List.replicate 512 (it (dw 3)), deal := 1, took := [] } }) base;
      let x : Lane := s.getLane (↑l : Nat);
      let ls : List Nat := s.groupLanes (↑l : Nat);
      let locked : Prop := x.lock = true ∧ (List.filter (fun (b : Bool) => !b) (List.take 64 (true :: x.hdrs))).length < 16;
      locked ∧
      (↑l : Nat) ∈ ls ∧
      s.tstate (↑l : Nat) = 3 ∧
      ts = 4) ∧
    (let l : Fin 192 := 0;
      let s : State := lv (fun x => { x with rxt := true, buf := { items := List.replicate 512 (it (dw 3)), deal := 1, took := [] } }) base;
      let x : Lane := s.getLane (↑l : Nat);
      let f : Nat := s.leader (↑l : Nat);
      let y : Lane := s.getLane f;
      let locked : Prop := x.lock = true ∧ (List.filter (fun (b : Bool) => !b) (List.take 64 (true :: x.hdrs))).length < 16;
      locked ∧
      s.rxTakes (↑l : Nat) = true ∧
      y.rxt = true ∧
      512 ≤ y.rxHeld) ∧
    (let l : Fin 192 := 0;
      let s : State := lv (fun x => { x with rxt := true, buf := { items := List.replicate 512 (it (dw 3)), deal := 1, took := [] } }) base;
      let x : Lane := s.getLane (↑l : Nat);
      let f : Nat := s.leader (↑l : Nat);
      let y : Lane := s.getLane f;
      let locked : Prop := x.lock = true ∧ (List.filter (fun (b : Bool) => !b) (List.take 64 (true :: x.hdrs))).length < 16;
      locked ∧
      s.rxTakes (↑l : Nat) = true ∧
      y.rxt = true ∧
      512 ≤ y.rxHeld ∧
      y.rxAbort = false) := by
  decide +kernel

/-- O46, part 8: states and operands that meet the hypotheses of its clauses. -/
theorem meets_LanesTrainAndReceive_8 :
    (let s : State := State.reset;
      s.trimmed = false) := by
  decide +kernel

/-- O46, part 9: states and operands that meet the hypotheses of its clauses. -/
theorem meets_LanesTrainAndReceive_9 :
    (let l : Fin 192 := 0;
      let s : State := tst 1 (lv (fun x => { x with rxTrain := 6 }) base);
      let x : Lane := s.getLane (↑l : Nat);
      let ls : List Nat := s.groupLanes (↑l : Nat);
      let locked : Prop := x.lock = true ∧ (List.filter (fun (b : Bool) => !b) (List.take 64 (true :: x.hdrs))).length < 16;
      let others : Nat → Nat → Nat → Prop := fun (st need sent : Nat) => ∀ k ∈ ls, k ≠ (↑l : Nat) → s.tstate k = st ∧ (s.getLane k).lock = true ∧ need ≤ (s.getLane k).rxTrain ∧ sent ≤ (s.getLane k).txTrain;
      locked ∧
      (↑l : Nat) ∈ ls ∧
      s.tstate (↑l : Nat) = 1 ∧
      (x.rxTrain < 7 ∨ ¬others 1 8 0)) := by
  decide +kernel

/-- O46, part 10: states and operands that meet the hypotheses of its clauses. -/
theorem meets_LanesTrainAndReceive_10 :
    (let l : Fin 192 := 0;
      let ts : BitVec 3 := 2;
      let skew : BitVec 8 := 7;
      let s : State := (put [(LANE_STAT.TSTATE 0, 2), (LANE_STAT.TSTATE 1, 2)] (lv (fun x => { x with rxTrain := 7, txTrain := 16, fseq := 9, rxSeq := 3 }) (bond base))).onLane 1 (fun x => { x with lock := true, rxTrain := 8, txTrain := 16 });
      let x : Lane := s.getLane (↑l : Nat);
      let ls : List Nat := s.groupLanes (↑l : Nat);
      let locked : Prop := x.lock = true ∧ (List.filter (fun (b : Bool) => !b) (List.take 64 (true :: x.hdrs))).length < 16;
      let others : Nat → Nat → Nat → Prop := fun (st need sent : Nat) => ∀ k ∈ ls, k ≠ (↑l : Nat) → s.tstate k = st ∧ (s.getLane k).lock = true ∧ need ≤ (s.getLane k).rxTrain ∧ sent ≤ (s.getLane k).txTrain;
      locked ∧
      (↑l : Nat) ∈ ls ∧
      s.tstate (↑l : Nat) = 2 ∧
      ts = 2 ∧
      (ls.length < 2 ∨ skew.toNat ≤ 80) ∧
      7 ≤ x.rxTrain ∧
      16 ≤ x.txTrain ∧
      others 2 8 16) := by
  decide +kernel

/-- O46, part 11: states and operands that meet the hypotheses of its clauses. -/
theorem meets_LanesTrainAndReceive_11 :
    (let l : Fin 192 := 0;
      let ts : BitVec 3 := 2;
      let skew : BitVec 8 := 81;
      let s : State := (put [(LANE_STAT.TSTATE 0, 2), (LANE_STAT.TSTATE 1, 2)] (lv (fun x => { x with rxTrain := 7, txTrain := 16, fseq := 9, rxSeq := 3 }) (bond base))).onLane 1 (fun x => { x with lock := true, rxTrain := 8, txTrain := 16 });
      let x : Lane := s.getLane (↑l : Nat);
      let ls : List Nat := s.groupLanes (↑l : Nat);
      let locked : Prop := x.lock = true ∧ (List.filter (fun (b : Bool) => !b) (List.take 64 (true :: x.hdrs))).length < 16;
      locked ∧
      (↑l : Nat) ∈ ls ∧
      s.tstate (↑l : Nat) = 2 ∧
      ts = 2 ∧
      2 ≤ ls.length ∧
      80 < skew.toNat) := by
  decide +kernel

/-- O46, part 12: states and operands that meet the hypotheses of its clauses. -/
theorem meets_LanesTrainAndReceive_12 :
    (let l : Fin 192 := 0;
      let half : Bool := true;
      let s : State := lv (fun x => { x with rxt := true, late := true, buf := { items := [it (dw 8)], deal := 1, took := [] } }) base;
      let x : Lane := s.getLane (↑l : Nat);
      let f : Nat := s.leader (↑l : Nat);
      let y : Lane := s.getLane f;
      let locked : Prop := x.lock = true ∧ (List.filter (fun (b : Bool) => !b) (List.take 64 (true :: x.hdrs))).length < 16;
      let cut : Bool → List StreamItem := fun (h : Bool) => if (y.late && h) = true then (dropPad y.buf.items).1 else y.buf.items;
      let room : Prop := (List.filter (fun (i : StreamItem) => i.ends) (cut half)).length + (List.filter Blk.counts y.flight).length < 512;
      locked ∧
      s.rxTakes (↑l : Nat) = true ∧
      y.rxt = true ∧
      y.rxHeld < 512 ∧
      room ∧
      y.rxAbort = false) := by
  decide +kernel

/-- O46, part 13: states and operands that meet the hypotheses of its clauses. -/
theorem meets_LanesTrainAndReceive_13 :
    (let l : Fin 192 := 0;
      let half : Bool := true;
      let fixed : Bool := false;
      let sb : BitVec 4 := 3;
      let cause : BitVec 4 := 1;
      let s : State := lv (fun x => { x with rxt := true, rxAbort := true, late := true, buf := { items := [it (dw 8)], deal := 1, took := [] } }) base;
      let x : Lane := s.getLane (↑l : Nat);
      let f : Nat := s.leader (↑l : Nat);
      let y : Lane := s.getLane f;
      let locked : Prop := x.lock = true ∧ (List.filter (fun (b : Bool) => !b) (List.take 64 (true :: x.hdrs))).length < 16;
      let cut : Bool → List StreamItem := fun (h : Bool) => if (y.late && h) = true then (dropPad y.buf.items).1 else y.buf.items;
      let room : Prop := (List.filter (fun (i : StreamItem) => i.ends) (cut half)).length + (List.filter Blk.counts y.flight).length < 512;
      let cmd : Instr := Instr.idleBlock 0 true 3 false;
      locked ∧
      s.rxTakes (↑l : Nat) = true ∧
      y.rxt = true ∧
      y.rxHeld < 512 ∧
      room ∧
      cmd ∈ [Instr.idleBlock l half sb fixed, Instr.quietBlock l cause half sb fixed] ∧
      y.rxAbort = true) := by
  decide +kernel

/-- O46, part 14: states and operands that meet the hypotheses of its clauses. -/
theorem meets_LanesTrainAndReceive_14 :
    (let l : Fin 192 := 0;
      let early : BitVec 32 := 3;
      let late : BitVec 32 := 4;
      let body : BitVec 51 := 5;
      let half : Bool := true;
      let fixed : Bool := false;
      let sb : BitVec 4 := 3;
      let fcrc : BitVec 32 := 7;
      let fseq : BitVec 8 := 7;
      let pay : BitVec 28 := 77;
      let cause : BitVec 4 := 1;
      let ts : BitVec 3 := 1;
      let icred : BitVec 16 := 9;
      let nseq : BitVec 8 := 3;
      let skew : BitVec 8 := 7;
      let s : State := tst 0 (ln base);
      let cmd : Instr := Instr.idleBlock 0 true 3 false;
      s.tstate (↑l : Nat) = 0 ∧
      cmd ∈ [Instr.dataBlock l early late fixed, Instr.tokenBlock l body half sb fixed, Instr.idleBlock l half sb fixed, Instr.quietBlock l cause half sb fixed, Instr.abortBlock l pay cause half sb fixed, Instr.flightClose l fcrc fseq half sb fixed, Instr.invalidBlock l half fixed, Instr.trainBlock l ts 0 icred fixed nseq skew half sb fixed, Instr.creditReturn l nseq fixed icred half sb true fixed]) := by
  decide +kernel

/-- O47: states and operands that meet the hypotheses of its clauses. -/
theorem meets_LanesTransmitFlightsAndReplay :
    (let l : Fin 192 := 0;
      let s : State := bond (lv (fun x => { x with txt := true, burst := true, blocks := [] , held := some 7 }) base);
      let f : Nat := s.leader (↑l : Nat);
      let x : Lane := s.getLane f;
      let ts : Nat := s.tstate (↑l : Nat);
      s.txRuns (↑l : Nat) = true ∧
      x.rxt = false ∧
      (x.burst = true ∨ x.aborting = true) ∧
      ts = 3 ∧
      x.burst = true ∧
      x.blocks = []) := by
  decide +kernel

/-- O47, part 2: states and operands that meet the hypotheses of its clauses. -/
theorem meets_LanesTransmitFlightsAndReplay_2 :
    (let l : Fin 192 := 0;
      let s : State := lv (fun x => { x with txt := true, blocks := [blk1, blkE] }) base;
      let f : Nat := s.leader (↑l : Nat);
      let x : Lane := s.getLane f;
      let g : Nat := (s.groupOf (↑l : Nat)).2.1;
      let ts : Nat := s.tstate (↑l : Nat);
      let owes : Prop := 0 < x.copies ∨ x.rxt = false ∧ (x.ackDue = true ∨ x.nakDue = true ∨ 16 ≤ (x.granted + 65536 - x.returned) % 65536);
      s.laneDown (↑l : Nat) = false ∧
      ts ≠ 0 ∧
      s.quietCause (↑l : Nat) = none ∧
      ts = 3 ∧
      s.txRuns (↑l : Nat) = true ∧
      (∀ k < g, s.trackWord (laneRow f) (laneEnd f) (lanePos f + k) = none) ∧
      0 < g ∧
      x.txt = true ∧
      x.copies = 0 ∧
      x.burst = false ∧
      x.aborting = false ∧
      ¬owes ∧
      x.rxt = false ∧
      (have bs := List.takeWhile Blk.counts x.blocks; 2 ≤ bs.length ∨ bs.any Blk.isEos = true)) ∧
    (let l : Fin 192 := 0;
      let aseq : BitVec 8 := 0x0f#8;
      let s : State := lv (fun x => { x with txt := true, blocks := [blk1, blkE] }) base;
      let f : Nat := s.leader (↑l : Nat);
      let x : Lane := s.getLane f;
      let y : Lane := s.getLane (↑l : Nat);
      let locked : Prop := y.lock = true ∧ (List.filter (fun (b : Bool) => !b) (List.take 64 (true :: y.hdrs))).length < 16;
      locked ∧
      s.rxTakes (↑l : Nat) = true ∧
      ((x.unacked.all fun (w : Flight) => w.fseq != aseq.toNat) = true)) ∧
    (let l : Fin 192 := 0;
      let s : State := lv (fun x => { x with txt := true, blocks := [blk1, blkE] }) base;
      let y : Lane := s.getLane (↑l : Nat);
      let locked : Prop := y.lock = true ∧ (List.filter (fun (b : Bool) => !b) (List.take 64 (true :: y.hdrs))).length < 16;
      locked ∧
      s.rxTakes (↑l : Nat) = true) := by
  decide +kernel

/-- O47, part 3: states and operands that meet the hypotheses of its clauses. -/
theorem meets_LanesTransmitFlightsAndReplay_3 :
    (let l : Fin 192 := 0;
      let s : State := lv id (seg 0 (portSeg 0 0) 1 13 4 ab isl0);
      let f : Nat := s.leader (↑l : Nat);
      let x : Lane := s.getLane f;
      let g : Nat := (s.groupOf (↑l : Nat)).2.1;
      let v : AWord := 0xc5000004d#36;
      s.txRuns (↑l : Nat) = true ∧
      x.stopped = false ∧
      s.trackToken f g = some v ∧
      v.type = tokABORT ∧
      x.replayDrop = 0 ∧
      x.ackDrop = 0 ∧
      x.discard = false ∧
      x.held = none) := by
  decide +kernel

/-- O47, part 4: states and operands that meet the hypotheses of its clauses. -/
theorem meets_LanesTransmitFlightsAndReplay_4 :
    (let l : Fin 192 := 0;
      let s : State := tst 1 (ln base);
      let ts : Nat := s.tstate (↑l : Nat);
      s.laneDown (↑l : Nat) = false ∧
      ts ≠ 0 ∧
      s.quietCause (↑l : Nat) = none ∧
      ts ≠ 2 ∧
      ts ≠ 3) := by
  decide +kernel

/-- O47, part 5: states and operands that meet the hypotheses of its clauses. -/
theorem meets_LanesTransmitFlightsAndReplay_5 :
    (let l : Fin 192 := 0;
      let s : State := cl (lv (fun x => { x with inFlight := List.replicate 16 blk1, fseq := 255 }) base);
      let f : Nat := s.leader (↑l : Nat);
      let x : Lane := s.getLane f;
      let g : Nat := (s.groupOf (↑l : Nat)).2.1;
      let n : Nat := (s.groupOf (↑l : Nat)).2.2.1;
      let ts : Nat := s.tstate (↑l : Nat);
      let owes : Prop := 0 < x.copies ∨ x.rxt = false ∧ (x.ackDue = true ∨ x.nakDue = true ∨ 16 ≤ (x.granted + 65536 - x.returned) % 65536);
      let full : Prop := x.inFlight ≠ [] ∧ (s.flightLen f ≤ x.inFlight.length ∨ 8 * n ≤ x.idle);
      s.laneDown (↑l : Nat) = false ∧
      ts ≠ 0 ∧
      s.quietCause (↑l : Nat) = none ∧
      ts = 3 ∧
      s.txRuns (↑l : Nat) = true ∧
      (∀ k < g, s.trackWord (laneRow f) (laneEnd f) (lanePos f + k) = none) ∧
      0 < g ∧
      x.txt = false ∧
      ¬owes ∧
      x.stopped = false ∧
      full) := by
  decide +kernel

/-- O47, part 6: states and operands that meet the hypotheses of its clauses. -/
theorem meets_LanesTransmitFlightsAndReplay_6 :
    (let l : Fin 192 := 0;
      let s : State := tst 0 (ln base);
      let ts : Nat := s.tstate (↑l : Nat);
      (s.laneDown (↑l : Nat) = true ∨ ts = 0)) := by
  decide +kernel

/-- O47, part 7: states and operands that meet the hypotheses of its clauses. -/
theorem meets_LanesTransmitFlightsAndReplay_7 :
    (let l : Fin 192 := 0;
      let s : State := lv (fun x => { x with ackDue := true, granted := 5 }) base;
      let f : Nat := s.leader (↑l : Nat);
      let x : Lane := s.getLane f;
      let g : Nat := (s.groupOf (↑l : Nat)).2.1;
      let ts : Nat := s.tstate (↑l : Nat);
      let owes : Prop := 0 < x.copies ∨ x.rxt = false ∧ (x.ackDue = true ∨ x.nakDue = true ∨ 16 ≤ (x.granted + 65536 - x.returned) % 65536);
      s.laneDown (↑l : Nat) = false ∧
      ts ≠ 0 ∧
      s.quietCause (↑l : Nat) = none ∧
      ts = 3 ∧
      s.txRuns (↑l : Nat) = true ∧
      (∀ k < g, s.trackWord (laneRow f) (laneEnd f) (lanePos f + k) = none) ∧
      0 < g ∧
      x.txt = false ∧
      owes ∧
      (x.aborting = false ∨ 0 < x.copies)) := by
  decide +kernel

/-- O47, part 8: states and operands that meet the hypotheses of its clauses. -/
theorem meets_LanesTransmitFlightsAndReplay_8 :
    (let l : Fin 192 := 1;
      let s : State := put [(LANE_STAT.TSTATE 0, 2), (LANE_STAT.TSTATE 1, 2)] (lv (fun x => { x with txTrain := 3 }) (bond base));
      let f : Nat := s.leader (↑l : Nat);
      let ts : Nat := s.tstate (↑l : Nat);
      s.laneDown (↑l : Nat) = false ∧
      ts ≠ 0 ∧
      s.quietCause (↑l : Nat) = none ∧
      ts = 2 ∧
      (↑l : Nat) ≠ f) := by
  decide +kernel

/-- O47, part 9: states and operands that meet the hypotheses of its clauses. -/
theorem meets_LanesTransmitFlightsAndReplay_9 :
    (let l : Fin 192 := 0;
      let s : State := put [(LANE_STAT.TSTATE 0, 2), (LANE_STAT.TSTATE 1, 2)] (lv (fun x => { x with txTrain := 3 }) (bond base));
      let f : Nat := s.leader (↑l : Nat);
      let ts : Nat := s.tstate (↑l : Nat);
      s.laneDown (↑l : Nat) = false ∧
      ts ≠ 0 ∧
      s.quietCause (↑l : Nat) = none ∧
      ts = 2 ∧
      (↑l : Nat) = f) := by
  decide +kernel

/-- O47, part 10: states and operands that meet the hypotheses of its clauses. -/
theorem meets_LanesTransmitFlightsAndReplay_10 :
    (let l : Fin 192 := 0;
      let s : State := lv (fun x => { x with credLimit := 5, sent := 65534, blocks := [blk1, blkE] }) base;
      let f : Nat := s.leader (↑l : Nat);
      let x : Lane := s.getLane f;
      let g : Nat := (s.groupOf (↑l : Nat)).2.1;
      let n : Nat := (s.groupOf (↑l : Nat)).2.2.1;
      let ts : Nat := s.tstate (↑l : Nat);
      let owes : Prop := 0 < x.copies ∨ x.rxt = false ∧ (x.ackDue = true ∨ x.nakDue = true ∨ 16 ≤ (x.granted + 65536 - x.returned) % 65536);
      let full : Prop := x.inFlight ≠ [] ∧ (s.flightLen f ≤ x.inFlight.length ∨ 8 * n ≤ x.idle);
      let b : Blk := Sys2Proof.Machine.Blk.data 0x00000005#32 0x00000006#32;
      let rest : List Blk := [Sys2Proof.Machine.Blk.ctl 0x2d#8 0x0#4 false 0x0000020000000#51];
      s.laneDown (↑l : Nat) = false ∧
      ts ≠ 0 ∧
      s.quietCause (↑l : Nat) = none ∧
      ts = 3 ∧
      s.txRuns (↑l : Nat) = true ∧
      (∀ k < g, s.trackWord (laneRow f) (laneEnd f) (lanePos f + k) = none) ∧
      0 < g ∧
      x.txt = false ∧
      ¬owes ∧
      x.stopped = false ∧
      ¬full ∧
      x.blocks = b :: rest ∧
      b.counts = true ∧
      (1 ≤ x.credits ∧ x.credits ≤ 32768)) := by
  decide +kernel

/-- O47, part 11: states and operands that meet the hypotheses of its clauses. -/
theorem meets_LanesTransmitFlightsAndReplay_11 :
    (let l : Fin 192 := 0;
      let s : State := lv (fun x => { x with credLimit := 5, sent := 5, blocks := [blk1, blkE] }) base;
      let f : Nat := s.leader (↑l : Nat);
      let x : Lane := s.getLane f;
      let g : Nat := (s.groupOf (↑l : Nat)).2.1;
      let n : Nat := (s.groupOf (↑l : Nat)).2.2.1;
      let ts : Nat := s.tstate (↑l : Nat);
      let owes : Prop := 0 < x.copies ∨ x.rxt = false ∧ (x.ackDue = true ∨ x.nakDue = true ∨ 16 ≤ (x.granted + 65536 - x.returned) % 65536);
      let full : Prop := x.inFlight ≠ [] ∧ (s.flightLen f ≤ x.inFlight.length ∨ 8 * n ≤ x.idle);
      let b : Blk := Sys2Proof.Machine.Blk.data 0x00000005#32 0x00000006#32;
      let rest : List Blk := [Sys2Proof.Machine.Blk.ctl 0x2d#8 0x0#4 false 0x0000020000000#51];
      s.laneDown (↑l : Nat) = false ∧
      ts ≠ 0 ∧
      s.quietCause (↑l : Nat) = none ∧
      ts = 3 ∧
      s.txRuns (↑l : Nat) = true ∧
      (∀ k < g, s.trackWord (laneRow f) (laneEnd f) (lanePos f + k) = none) ∧
      0 < g ∧
      x.txt = false ∧
      ¬owes ∧
      x.stopped = false ∧
      ¬full ∧
      x.blocks = b :: rest ∧
      b.counts = true ∧
      (¬(1 ≤ x.credits ∧ x.credits ≤ 32768))) := by
  decide +kernel

/-- O47, part 12: states and operands that meet the hypotheses of its clauses. -/
theorem meets_LanesTransmitFlightsAndReplay_12 :
    (let l : Fin 192 := 0;
      let s : State := lv (fun x => { x with credLimit := 5, sent := 5, blocks := [ctlBlk tyIDLE 0 false, blk1] }) base;
      let f : Nat := s.leader (↑l : Nat);
      let x : Lane := s.getLane f;
      let g : Nat := (s.groupOf (↑l : Nat)).2.1;
      let n : Nat := (s.groupOf (↑l : Nat)).2.2.1;
      let ts : Nat := s.tstate (↑l : Nat);
      let owes : Prop := 0 < x.copies ∨ x.rxt = false ∧ (x.ackDue = true ∨ x.nakDue = true ∨ 16 ≤ (x.granted + 65536 - x.returned) % 65536);
      let full : Prop := x.inFlight ≠ [] ∧ (s.flightLen f ≤ x.inFlight.length ∨ 8 * n ≤ x.idle);
      let b : Blk := Sys2Proof.Machine.Blk.ctl 0x1e#8 0x0#4 false 0x0000000000000#51;
      let rest : List Blk := [Sys2Proof.Machine.Blk.data 0x00000005#32 0x00000006#32];
      s.laneDown (↑l : Nat) = false ∧
      ts ≠ 0 ∧
      s.quietCause (↑l : Nat) = none ∧
      ts = 3 ∧
      s.txRuns (↑l : Nat) = true ∧
      (∀ k < g, s.trackWord (laneRow f) (laneEnd f) (lanePos f + k) = none) ∧
      0 < g ∧
      x.txt = false ∧
      ¬owes ∧
      x.stopped = false ∧
      ¬full ∧
      x.blocks = b :: rest ∧
      b.counts = false) := by
  decide +kernel

/-- O47, part 13: states and operands that meet the hypotheses of its clauses. -/
theorem meets_LanesTransmitFlightsAndReplay_13 :
    (let l : Fin 192 := 0;
      let s : State := put [(LANE_STAT.TSTATE 0, 3), (LANE_STAT.TSTATE 1, 3)] (lv (fun x => { x with txt := true, copies := 1, turn := 1 }) (bond base));
      let f : Nat := s.leader (↑l : Nat);
      let x : Lane := s.getLane f;
      let g : Nat := (s.groupOf (↑l : Nat)).2.1;
      let ts : Nat := s.tstate (↑l : Nat);
      s.laneDown (↑l : Nat) = false ∧
      ts ≠ 0 ∧
      s.quietCause (↑l : Nat) = none ∧
      ts = 3 ∧
      s.txRuns (↑l : Nat) = true ∧
      (∀ k < g, s.trackWord (laneRow f) (laneEnd f) (lanePos f + k) = none) ∧
      0 < g ∧
      x.txt = true ∧
      0 < x.copies) := by
  decide +kernel

/-- O47, part 14: states and operands that meet the hypotheses of its clauses. -/
theorem meets_LanesTransmitFlightsAndReplay_14 :
    (let l : Fin 192 := 0;
      let s : State := lv (fun x => { x with txt := true, burst := true, opening := true, blocks := [blk1] }) base;
      let f : Nat := s.leader (↑l : Nat);
      let x : Lane := s.getLane f;
      let g : Nat := (s.groupOf (↑l : Nat)).2.1;
      let ts : Nat := s.tstate (↑l : Nat);
      s.laneDown (↑l : Nat) = false ∧
      ts ≠ 0 ∧
      s.quietCause (↑l : Nat) = none ∧
      ts = 3 ∧
      s.txRuns (↑l : Nat) = true ∧
      (∀ k < g, s.trackWord (laneRow f) (laneEnd f) (lanePos f + k) = none) ∧
      0 < g ∧
      x.txt = true ∧
      x.copies = 0 ∧
      x.burst = true ∧
      x.opening = true) := by
  decide +kernel

/-- O47, part 15: states and operands that meet the hypotheses of its clauses. -/
theorem meets_LanesTransmitFlightsAndReplay_15 :
    (let l : Fin 192 := 0;
      let s : State := lv (fun x => { x with txt := true, burst := true, opening := false, blocks := [blk1] }) base;
      let f : Nat := s.leader (↑l : Nat);
      let x : Lane := s.getLane f;
      let g : Nat := (s.groupOf (↑l : Nat)).2.1;
      let ts : Nat := s.tstate (↑l : Nat);
      let b : Blk := Sys2Proof.Machine.Blk.data 0x00000005#32 0x00000006#32;
      let rest : List Blk := [];
      s.laneDown (↑l : Nat) = false ∧
      ts ≠ 0 ∧
      s.quietCause (↑l : Nat) = none ∧
      ts = 3 ∧
      s.txRuns (↑l : Nat) = true ∧
      (∀ k < g, s.trackWord (laneRow f) (laneEnd f) (lanePos f + k) = none) ∧
      0 < g ∧
      x.txt = true ∧
      x.copies = 0 ∧
      x.blocks = b :: rest ∧
      (x.burst = true ∧ x.opening = false ∨ x.burst = false ∧ b.counts = false)) := by
  decide +kernel

/-- O47, part 16: states and operands that meet the hypotheses of its clauses. -/
theorem meets_LanesTransmitFlightsAndReplay_16 :
    (let l : Fin 192 := 0;
      let s : State := lv (fun x => { x with txt := true, burst := false, rxt := false, ackDue := true }) base;
      let f : Nat := s.leader (↑l : Nat);
      let x : Lane := s.getLane f;
      let g : Nat := (s.groupOf (↑l : Nat)).2.1;
      let ts : Nat := s.tstate (↑l : Nat);
      let owes : Prop := 0 < x.copies ∨ x.rxt = false ∧ (x.ackDue = true ∨ x.nakDue = true ∨ 16 ≤ (x.granted + 65536 - x.returned) % 65536);
      s.laneDown (↑l : Nat) = false ∧
      ts ≠ 0 ∧
      s.quietCause (↑l : Nat) = none ∧
      ts = 3 ∧
      s.txRuns (↑l : Nat) = true ∧
      (∀ k < g, s.trackWord (laneRow f) (laneEnd f) (lanePos f + k) = none) ∧
      0 < g ∧
      x.txt = true ∧
      x.copies = 0 ∧
      x.burst = false ∧
      x.aborting = false ∧
      owes) := by
  decide +kernel

/-- O47, part 17: states and operands that meet the hypotheses of its clauses. -/
theorem meets_LanesTransmitFlightsAndReplay_17 :
    (let l : Fin 192 := 0;
      let aseq : BitVec 8 := 9;
      let s : State := lv (fun x => { x with unacked := [{ fseq := 9, items := 3 }], acked := 4 }) base;
      let f : Nat := s.leader (↑l : Nat);
      let x : Lane := s.getLane f;
      let g : Nat := (s.groupOf (↑l : Nat)).2.1;
      let n : Nat := (s.groupOf (↑l : Nat)).2.2.1;
      let ts : Nat := s.tstate (↑l : Nat);
      let owes : Prop := 0 < x.copies ∨ x.rxt = false ∧ (x.ackDue = true ∨ x.nakDue = true ∨ 16 ≤ (x.granted + 65536 - x.returned) % 65536);
      let full : Prop := x.inFlight ≠ [] ∧ (s.flightLen f ≤ x.inFlight.length ∨ 8 * n ≤ x.idle);
      let y : Lane := s.getLane (↑l : Nat);
      let locked : Prop := y.lock = true ∧ (List.filter (fun (b : Bool) => !b) (List.take 64 (true :: y.hdrs))).length < 16;
      let w : Flight := { fseq := 9, items := 3 };
      let rest : List Flight := [];
      s.laneDown (↑l : Nat) = false ∧
      ts ≠ 0 ∧
      s.quietCause (↑l : Nat) = none ∧
      ts = 3 ∧
      s.txRuns (↑l : Nat) = true ∧
      (∀ k < g, s.trackWord (laneRow f) (laneEnd f) (lanePos f + k) = none) ∧
      0 < g ∧
      x.txt = false ∧
      ¬owes ∧
      x.stopped = false ∧
      ¬full ∧
      x.blocks = [] ∧
      locked ∧
      s.rxTakes (↑l : Nat) = true ∧
      x.unacked = w :: rest ∧
      w.fseq = aseq.toNat) ∧
    (let l : Fin 192 := 0;
      let s : State := lv (fun x => { x with unacked := [{ fseq := 9, items := 3 }], acked := 4 }) base;
      let f : Nat := s.leader (↑l : Nat);
      let x : Lane := s.getLane f;
      let ts : Nat := s.tstate (↑l : Nat);
      let w : Flight := { fseq := 9, items := 3 };
      let rest : List Flight := [];
      ts = 3 ∧
      x.unacked = w :: rest ∧
      x.rpen = false) := by
  decide +kernel

/-- O47, part 18: states and operands that meet the hypotheses of its clauses. -/
theorem meets_LanesTransmitFlightsAndReplay_18 :
    (let l : Fin 192 := 0;
      let s : State := lv (fun x => { x with unacked := [{ fseq := 9, items := 3 }], rpen := true, stopped := true }) base;
      let f : Nat := s.leader (↑l : Nat);
      let x : Lane := s.getLane f;
      let g : Nat := (s.groupOf (↑l : Nat)).2.1;
      let ts : Nat := s.tstate (↑l : Nat);
      let owes : Prop := 0 < x.copies ∨ x.rxt = false ∧ (x.ackDue = true ∨ x.nakDue = true ∨ 16 ≤ (x.granted + 65536 - x.returned) % 65536);
      let w : Flight := { fseq := 9, items := 3 };
      let rest : List Flight := [];
      s.laneDown (↑l : Nat) = false ∧
      ts ≠ 0 ∧
      s.quietCause (↑l : Nat) = none ∧
      ts = 3 ∧
      s.txRuns (↑l : Nat) = true ∧
      (∀ k < g, s.trackWord (laneRow f) (laneEnd f) (lanePos f + k) = none) ∧
      0 < g ∧
      x.txt = false ∧
      ¬owes ∧
      x.stopped = true ∧
      x.unacked = w :: rest ∧
      x.rpen = true) := by
  decide +kernel

/-- O47, part 19: states and operands that meet the hypotheses of its clauses. -/
theorem meets_LanesTransmitFlightsAndReplay_19 :
    (let l : Fin 192 := 0;
      let s : State := lv (fun x => { x with unacked := [{ fseq := 9, items := 3 }], rpen := true, rpq := 3, replays := 15 }) base;
      let f : Nat := s.leader (↑l : Nat);
      let x : Lane := s.getLane f;
      let ts : Nat := s.tstate (↑l : Nat);
      let w : Flight := { fseq := 9, items := 3 };
      let rest : List Flight := [];
      ts = 3 ∧
      x.unacked = w :: rest ∧
      x.rpen = true ∧
      x.stopped = false ∧
      x.replays < 16 ∧
      x.rpq < 4) := by
  decide +kernel

/-- O47, part 20: states and operands that meet the hypotheses of its clauses. -/
theorem meets_LanesTransmitFlightsAndReplay_20 :
    (let l : Fin 192 := 0;
      let s : State := lv (fun x => { x with unacked := [{ fseq := 9, items := 3 }], rpen := true, rpq := 3, replays := 16 }) base;
      let f : Nat := s.leader (↑l : Nat);
      let x : Lane := s.getLane f;
      let ts : Nat := s.tstate (↑l : Nat);
      let w : Flight := { fseq := 9, items := 3 };
      let rest : List Flight := [];
      ts = 3 ∧
      x.unacked = w :: rest ∧
      x.rpen = true ∧
      x.stopped = false ∧
      16 ≤ x.replays) := by
  decide +kernel

/-- O47, part 21: states and operands that meet the hypotheses of its clauses. -/
theorem meets_LanesTransmitFlightsAndReplay_21 :
    (let l : Fin 192 := 0;
      let s : State := lv (fun x => { x with rested := true }) base;
      let ts : Nat := s.tstate (↑l : Nat);
      let y : Lane := s.getLane (↑l : Nat);
      let locked : Prop := y.lock = true ∧ (List.filter (fun (b : Bool) => !b) (List.take 64 (true :: y.hdrs))).length < 16;
      s.laneDown (↑l : Nat) = false ∧
      ts ≠ 0 ∧
      s.quietCause (↑l : Nat) = none ∧
      ts = 3 ∧
      s.txRuns (↑l : Nat) = false ∧
      locked ∧
      s.rxDiscards (↑l : Nat) = true) := by
  decide +kernel

/-- O48: states and operands that meet the hypotheses of its clauses. -/
theorem meets_TranslationsChannelsAndStreams :
    (let c : Fin 64 := 0;
      let s : State := put [(MMU_INV.BUSY, 1)] b0_2;
      let st : Nat := s.f (DMA_CH_CSR.STATE (↑c : Nat));
      s.f MMU_INV.BUSY = 1 ∧
      s.dmaClk = true ∧
      st = 0 ∧
      s.chPart (↑c : Nat) ≠ 15) := by
  decide +kernel

/-- O48, part 2: states and operands that meet the hypotheses of its clauses. -/
theorem meets_TranslationsChannelsAndStreams_2 :
    (let c : Fin 64 := 0;
      let s : State := (let s := dchB (descB 0 0 4 64 8 0); { s with mem := Map.set s.mem (eccKey (bankBase 0 + 0x1008)) 2 });
      let x : Chan := s.getCh (↑c : Nat);
      let st : Nat := s.f (DMA_CH_CSR.STATE (↑c : Nat));
      let open_ : Prop := s.partDown (s.chPart (↑c : Nat)) = false ∧ s.f (DMA_CH_XLT.TE (↑c : Nat)) = 0;
      let a : Nat := s.f (DMA_CH_DESC.ADDR (↑c : Nat)) * 64;
      let ws : List Nat := [0, 0, 4, 64, 8, 0, 0, 0];
      let bad : Bool := true;
      let s1 : State := (busWords 8 (a % 2 ^ 52) s).2;
      st = 1 ∧
      x.loaded = false ∧
      open_ ∧
      s.portHeld (a % 2 ^ 52) = false ∧
      busWords 8 (a % 2 ^ 52) s = (some (ws, bad), s1) ∧
      bad = true) := by
  decide +kernel

/-- O48, part 3: states and operands that meet the hypotheses of its clauses. -/
theorem meets_TranslationsChannelsAndStreams_3 :
    (let c : Fin 64 := 0;
      let s : State := dchB (descB 0x1000 0 4 64 0 0);
      let x : Chan := s.getCh (↑c : Nat);
      let st : Nat := s.f (DMA_CH_CSR.STATE (↑c : Nat));
      let open_ : Prop := s.partDown (s.chPart (↑c : Nat)) = false ∧ s.f (DMA_CH_XLT.TE (↑c : Nat)) = 0;
      let a : Nat := s.f (DMA_CH_DESC.ADDR (↑c : Nat)) * 64;
      let ws : List Nat := [4096, 0, 4, 64, 0, 0, 0, 0];
      let bad : Bool := false;
      let s1 : State := (busWords 8 (a % 2 ^ 52) s).2;
      let w : Nat → Nat := fun (i : Nat) => ws.getD i 0;
      let reserved : Prop := w 0 / 2 ^ 12 ≠ 0 ∨ w 0 / 2 ^ 5 % 8 ≠ 0 ∨ w 3 / 2 ^ 40 ≠ 0 ∨ w 4 / 2 ^ 40 ≠ 0 ∨ w 5 / 2 ^ 52 % 2 ≠ 0 ∨ w 5 % 2 ^ 32 ≠ 0 ∨ w 6 / 2 ^ 52 ≠ 0;
      st = 1 ∧
      x.loaded = false ∧
      open_ ∧
      s.portHeld (a % 2 ^ 52) = false ∧
      busWords 8 (a % 2 ^ 52) s = (some (ws, bad), s1) ∧
      bad = false ∧
      reserved) := by
  decide +kernel

/-- O48, part 4: states and operands that meet the hypotheses of its clauses. -/
theorem meets_TranslationsChannelsAndStreams_4 :
    (let c : Fin 64 := 0;
      let s : State := dchB (descB 0 0 4 64 8 0);
      let x : Chan := s.getCh (↑c : Nat);
      let st : Nat := s.f (DMA_CH_CSR.STATE (↑c : Nat));
      let open_ : Prop := s.partDown (s.chPart (↑c : Nat)) = false ∧ s.f (DMA_CH_XLT.TE (↑c : Nat)) = 0;
      let a : Nat := s.f (DMA_CH_DESC.ADDR (↑c : Nat)) * 64;
      let ws : List Nat := [0, 0, 4, 64, 8, 0, 0, 0];
      let bad : Bool := false;
      let s1 : State := (busWords 8 (a % 2 ^ 52) s).2;
      let w : Nat → Nat := fun (i : Nat) => ws.getD i 0;
      let reserved : Prop := w 0 / 2 ^ 12 ≠ 0 ∨ w 0 / 2 ^ 5 % 8 ≠ 0 ∨ w 3 / 2 ^ 40 ≠ 0 ∨ w 4 / 2 ^ 40 ≠ 0 ∨ w 5 / 2 ^ 52 % 2 ≠ 0 ∨ w 5 % 2 ^ 32 ≠ 0 ∨ w 6 / 2 ^ 52 ≠ 0;
      let aligned : Prop := w 2 % 4 = 0 ∧ w 3 % 4 = 0 ∧ (w 0 % 2 = 0 → w 1 % 4 = 0);
      st = 1 ∧
      x.loaded = false ∧
      open_ ∧
      s.portHeld (a % 2 ^ 52) = false ∧
      busWords 8 (a % 2 ^ 52) s = (some (ws, bad), s1) ∧
      bad = false ∧
      ¬reserved ∧
      aligned ∧
      w 4 < w 3) := by
  decide +kernel

/-- O48, part 5: states and operands that meet the hypotheses of its clauses. -/
theorem meets_TranslationsChannelsAndStreams_5 :
    (let n : Fin 24 := 0;
      let c : Fin 64 := 0;
      let va : BitVec 48 := 0x5008;
      let s : State := ld (fun x => { x with ctl := 1, src := 0x1122334455667788 }) 1;
      let root : Nat := (s.getSeq (↑n : Nat)).ptbase;
      let part : Nat := (s.seqPart (↑n : Nat)).getD 15;
      let s1 : State := (walk part (srcSeq (↑n : Nat)) va.toNat 3 root s).2;
      let x : Chan := s.getCh (↑c : Nat);
      let st : Nat := s.f (DMA_CH_CSR.STATE (↑c : Nat));
      let open_ : Prop := s.partDown (s.chPart (↑c : Nat)) = false ∧ s.f (DMA_CH_XLT.TE (↑c : Nat)) = 0;
      let dest : Nat := x.dst + x.done;
      let inHost : Prop := hostBase ≤ dest ∧ dest < 2 ^ 52;
      s.f MMU_INV.BUSY = 0 ∧
      walk part (srcSeq (↑n : Nat)) va.toNat 3 root s = (none, s1) ∧
      (∀ e ∈ s.tlb, e.hits (s.seqAsid (↑n : Nat)) va.toNat = false) ∧
      st = 1 ∧
      x.loaded = true ∧
      open_ ∧
      dest % 8 = 0 ∧
      x.done + 16 ≤ x.len ∧
      bitOf x.ctl 0 = true ∧
      x.done % 8 = 0 ∧
      inHost ∧
      MemOk s ∧
      s.dmaClk = true ∧
      st ≠ 0 ∧
      hostBase ≤ x.pa ∧
      x.pa + 64 ≤ 2 ^ 52 ∧
      x.pa % 64 = 0 ∧
      bitOf x.ctl 4 = false) ∧
    (let p : Fin 24 := 0;
      let k : Fin 16 := 0;
      let s : State := ld (fun x => { x with ctl := 1, src := 0x1122334455667788 }) 1;
      let first : Prop := (s.mspGroup (↑p : Nat) (↑k : Nat)).1 = (↑k : Nat);
      s.dmaClk = true ∧
      first) := by
  repeat' first | decide +kernel | apply memOk_of | apply ready_of | apply executes_of | apply cplReady_of | apply nearBlock_of | constructor

/-- O48, part 6: states and operands that meet the hypotheses of its clauses. -/
theorem meets_TranslationsChannelsAndStreams_6 :
    (let c : Fin 64 := 0;
      let s : State := ld (fun x => { x with ctl := 1, dst := 0x4_0000_0000 }) 1;
      let x : Chan := s.getCh (↑c : Nat);
      let st : Nat := s.f (DMA_CH_CSR.STATE (↑c : Nat));
      let open_ : Prop := s.partDown (s.chPart (↑c : Nat)) = false ∧ s.f (DMA_CH_XLT.TE (↑c : Nat)) = 0;
      let dest : Nat := x.dst + x.done;
      let nowhere : Prop := 17179869184 ≤ dest ∧ dest < 21474836480;
      st = 1 ∧
      x.loaded = true ∧
      open_ ∧
      dest % 8 = 0 ∧
      x.done + 16 ≤ x.len ∧
      bitOf x.ctl 0 = true ∧
      nowhere) := by
  decide +kernel

/-- O48, part 7: states and operands that meet the hypotheses of its clauses. -/
theorem meets_TranslationsChannelsAndStreams_7 :
    (let c : Fin 64 := 0;
      let s : State := ld (fun x => { x with src := bankBase 0 + 0x100 }) 1;
      let x : Chan := s.getCh (↑c : Nat);
      let st : Nat := s.f (DMA_CH_CSR.STATE (↑c : Nat));
      let open_ : Prop := s.partDown (s.chPart (↑c : Nat)) = false ∧ s.f (DMA_CH_XLT.TE (↑c : Nat)) = 0;
      let from_ : Nat := x.src + x.done;
      let dest : Nat := x.dst + x.done;
      let inHost : Prop := hostBase ≤ dest ∧ dest < 2 ^ 52;
      st = 1 ∧
      x.loaded = true ∧
      open_ ∧
      dest % 8 = 0 ∧
      x.done + 16 ≤ x.len ∧
      bitOf x.ctl 0 = false ∧
      from_ % 8 = 0 ∧
      bankBase 0 ≤ from_ ∧
      from_ < bankBase 24 ∧
      s.seqClk ((from_ - bankBase 0) / 1048576) = true ∧
      s.ecc from_ = 0 ∧
      inHost ∧
      MemOk s) := by
  repeat' first | decide +kernel | apply memOk_of | apply ready_of | apply executes_of | apply cplReady_of | apply nearBlock_of | constructor

/-- O48, part 8: states and operands that meet the hypotheses of its clauses. -/
theorem meets_TranslationsChannelsAndStreams_8 :
    (let c : Fin 64 := 0;
      let s : State := ld (fun x => { x with src := bankBase 0 + 0x100, dst := 0x4_0000_0000 }) 1;
      let x : Chan := s.getCh (↑c : Nat);
      let st : Nat := s.f (DMA_CH_CSR.STATE (↑c : Nat));
      let open_ : Prop := s.partDown (s.chPart (↑c : Nat)) = false ∧ s.f (DMA_CH_XLT.TE (↑c : Nat)) = 0;
      let from_ : Nat := x.src + x.done;
      let dest : Nat := x.dst + x.done;
      let nowhere : Prop := 17179869184 ≤ dest ∧ dest < 21474836480;
      st = 1 ∧
      x.loaded = true ∧
      open_ ∧
      dest % 8 = 0 ∧
      x.done + 16 ≤ x.len ∧
      bitOf x.ctl 0 = false ∧
      from_ % 8 = 0 ∧
      bankBase 0 ≤ from_ ∧
      from_ < bankBase 24 ∧
      s.seqClk ((from_ - bankBase 0) / 1048576) = true ∧
      s.ecc from_ = 0 ∧
      nowhere) := by
  decide +kernel

/-- O48, part 9: states and operands that meet the hypotheses of its clauses. -/
theorem meets_TranslationsChannelsAndStreams_9 :
    (let c : Fin 64 := 0;
      let s : State := ld id 1;
      let x : Chan := s.getCh (↑c : Nat);
      let st : Nat := s.f (DMA_CH_CSR.STATE (↑c : Nat));
      let open_ : Prop := s.partDown (s.chPart (↑c : Nat)) = false ∧ s.f (DMA_CH_XLT.TE (↑c : Nat)) = 0;
      let from_ : Nat := x.src + x.done;
      let dest : Nat := x.dst + x.done;
      let inHost : Prop := hostBase ≤ dest ∧ dest < 2 ^ 52;
      st = 1 ∧
      x.loaded = true ∧
      open_ ∧
      dest % 8 = 0 ∧
      x.done + 16 ≤ x.len ∧
      bitOf x.ctl 0 = false ∧
      from_ % 8 = 0 ∧
      hostBase ≤ from_ ∧
      from_ < 2 ^ 52 ∧
      s.ecc from_ ≠ 2 ∧
      inHost ∧
      MemOk s) := by
  repeat' first | decide +kernel | apply memOk_of | apply ready_of | apply executes_of | apply cplReady_of | apply nearBlock_of | constructor

/-- O48, part 10: states and operands that meet the hypotheses of its clauses. -/
theorem meets_TranslationsChannelsAndStreams_10 :
    (let c : Fin 64 := 0;
      let s : State := qe (ld id 2);
      let st : Nat := s.f (DMA_CH_CSR.STATE (↑c : Nat));
      s.dmaClk = true ∧
      st = 2) := by
  decide +kernel

/-- O48, part 11: states and operands that meet the hypotheses of its clauses. -/
theorem meets_TranslationsChannelsAndStreams_11 :
    (let p : Fin 24 := 0;
      let k : Fin 16 := 0;
      let s : State := ms 0 0 id b0_2;
      let st : Nat := s.mspSt (↑p : Nat) (↑k : Nat);
      let first : Prop := (s.mspGroup (↑p : Nat) (↑k : Nat)).1 = (↑k : Nat);
      s.dmaClk = true ∧
      first ∧
      s.mspPart (↑p : Nat) ≠ 15 ∧
      s.bandHeld (s.mspPart (↑p : Nat)) = false ∧
      (st = 0 ∨ 5 ≤ st) ∧
      s.mspTimed (↑p : Nat) (↑k : Nat) = false ∧
      s.f (MSP_LEN.LEN (↑p : Nat) (↑k : Nat)) ≠ 0) := by
  decide +kernel

/-- O48, part 12: states and operands that meet the hypotheses of its clauses. -/
theorem meets_TranslationsChannelsAndStreams_12 :
    (let p : Fin 24 := 0;
      let k : Fin 16 := 0;
      let s : State := put [(MSP_CFG.TIMED 0 0, 1), (MSP_LEN.LEN 0 0, 0)] (ms 0 5 id b0_2);
      let st : Nat := s.mspSt (↑p : Nat) (↑k : Nat);
      let first : Prop := (s.mspGroup (↑p : Nat) (↑k : Nat)).1 = (↑k : Nat);
      s.dmaClk = true ∧
      first ∧
      s.mspPart (↑p : Nat) ≠ 15 ∧
      s.bandHeld (s.mspPart (↑p : Nat)) = false ∧
      (st = 0 ∨ 5 ≤ st) ∧
      s.mspTimed (↑p : Nat) (↑k : Nat) = true ∧
      (s.f (MSP_LEN.LEN (↑p : Nat) (↑k : Nat)) = 0 ∨ s.f (MSP_CFG2.RATE (↑p : Nat) (↑k : Nat)) = 0 ∨ s.f (MSP_CFG.LANES (↑p : Nat) (↑k : Nat)) = 0)) := by
  decide +kernel

/-- O48, part 13: states and operands that meet the hypotheses of its clauses. -/
theorem meets_TranslationsChannelsAndStreams_13 :
    (let p : Fin 24 := 0;
      let k : Fin 16 := 0;
      let s : State := qe (ms 0 4 id b0_2);
      let st : Nat := s.mspSt (↑p : Nat) (↑k : Nat);
      s.dmaClk = true ∧
      st = 4) := by
  decide +kernel

/-- O48, part 14: states and operands that meet the hypotheses of its clauses. -/
theorem meets_TranslationsChannelsAndStreams_14 :
    (let n : Fin 24 := 0;
      let va : BitVec 48 := 0x5008;
      let s : State := ms 0 3 id (pt wB b0_2);
      let root : Nat := (s.getSeq (↑n : Nat)).ptbase;
      let part : Nat := (s.seqPart (↑n : Nat)).getD 15;
      let b : Nat := 12;
      let w : Word := 0x000000020005003f#64;
      let s1 : State := (walk part (srcSeq (↑n : Nat)) va.toNat 3 root s).2;
      walk part (srcSeq (↑n : Nat)) va.toNat 3 root s = (some (b, w), s1) ∧
      (∀ e ∈ s.tlb, e.hits (s.seqAsid (↑n : Nat)) va.toNat = false)) ∧
    (let p : Fin 24 := 0;
      let kr : Fin 8 := 0;
      let s : State := ms 0 3 id (pt wB b0_2);
      let m : Msp := s.getMsp (↑p : Nat) (↑kr : Nat);
      let pa : Nat := bankBase 0 + 0x50000;
      let pin : Bool := true;
      let g : Got := { data := 0, tags := 0, bad := false };
      let s1 : State := (mspXlt (↑p : Nat) (↑kr : Nat) (m.base + s.mspDone (↑p : Nat) (↑kr : Nat)) pteR s).2;
      let s2 : State := (busRead pa 4 (mspXlt (↑p : Nat) (↑kr : Nat) (m.base + s.mspDone (↑p : Nat) (↑kr : Nat)) pteR s).2).2;
      s.mspSt (↑p : Nat) (↑kr : Nat) = 3 ∧
      s.mspTimed (↑p : Nat) (↑kr : Nat) = false ∧
      m.filling = true ∧
      s.mspServed (↑p : Nat) = true ∧
      4 * m.buf.items.length < s.share (↑p : Nat) (↑kr : Nat) ∧
      mspXlt (↑p : Nat) (↑kr : Nat) (m.base + s.mspDone (↑p : Nat) (↑kr : Nat)) pteR s = (Except.ok (pa, pin), s1) ∧
      s1.portHeld pa = false ∧
      busRead pa 4 s1 = (some g, s2) ∧
      g.bad = false ∧
      s2.msps = s.msps ∧
      s2.f (MSP_CSR.STATE (↑p : Nat) (↑kr : Nat)) = 3) := by
  decide +kernel

/-- O48, part 15: states and operands that meet the hypotheses of its clauses. -/
theorem meets_TranslationsChannelsAndStreams_15 :
    (let p : Fin 24 := 0;
      let kr : Fin 8 := 0;
      let s : State := seg 0 (portSeg 0 8) 1 13 4 (dw 0x99AABBCC) (ms 8 3 id (pt w0 (isl0.setF CLK_STAB1.DMA 1)));
      let g : Nat × Nat := s.mspGroup (↑p : Nat) (8 + (↑kr : Nat));
      let f : Nat := g.1;
      let m : Msp := s.getMsp (↑p : Nat) f;
      let j : Nat := 0;
      let w : AWord := dw 0x99AABBCC;
      let pa : Nat := hostBase + 0x7000;
      let pin : Bool := true;
      let s1 : State := (mspXlt (↑p : Nat) f (m.base + s.mspDone (↑p : Nat) f) pteW s).2;
      s.mspSt (↑p : Nat) f = 3 ∧
      s.mspServed (↑p : Nat) = true ∧
      s.collect (↑p : Nat) f g.2 = Collected.data j w ∧
      mspXlt (↑p : Nat) f (m.base + s.mspDone (↑p : Nat) f) pteW s = (Except.ok (pa, pin), s1) ∧
      hostBase ≤ pa ∧
      pa + 4 ≤ 2 ^ 52 ∧
      pa % 4 = 0 ∧
      MemOk s1) := by
  repeat' first | decide +kernel | apply memOk_of | apply ready_of | apply executes_of | apply cplReady_of | apply nearBlock_of | constructor

/-- O48, part 16: states and operands that meet the hypotheses of its clauses. -/
theorem meets_TranslationsChannelsAndStreams_16 :
    (let n : Fin 24 := 0;
      let va : BitVec 48 := 0x5008;
      let s : State := pt wB b0_2;
      let root : Nat := (s.getSeq (↑n : Nat)).ptbase;
      let part : Nat := (s.seqPart (↑n : Nat)).getD 15;
      let entry : Nat → Nat → Nat := fun (level base : Nat) => base + va.toNat / 2 ^ (12 + 9 * level) % 512 * 8;
      let reads : Nat → Word → Prop := fun (a : Nat) (w : Word) => readPte a part (srcSeq (↑n : Nat)) s = (some w, s);
      let valid : Word → Prop := fun (w : Word) => pteV w = true ∧ getBits w 63 52 = 0 ∧ getBits w 11 7 = 0;
      let pointer : Word → Prop := fun (w : Word) => valid w ∧ getBits w 6 1 = 0;
      let w3 : Word := w3;
      let w2 : Word := w2;
      let w1 : Word := w1;
      let w0 : Word := wB;
      reads (entry 3 root) w3 ∧
      reads (entry 2 (ptePpn w3 * 4096)) w2 ∧
      reads (entry 1 (ptePpn w2 * 4096)) w1 ∧
      reads (entry 0 (ptePpn w1 * 4096)) w0 ∧
      pointer w3 ∧
      pointer w2 ∧
      pointer w1 ∧
      valid w0) := by
  decide +kernel

/-- O49: states and operands that meet the hypotheses of its clauses. -/
theorem meets_ForkPointsAndFailCollectors :
    (let i : Fin 156 := 0;
      let k : Fin 4 := 0;
      let out : Bool := false;
      let s : State := ((sts15 : List State)).getD 9 base;
      let x : Isl := s.getIsl (↑i : Nat);
      let armed : Nat := s.f ((ISL_FORK_STAT.ARMED (↑i : Nat)).bit (↑k : Nat));
      let waits : Prop := s.f (ISL_FORK_STAT.STATE (↑i : Nat)) = 2 ∧ s.f (ISL_FORK_STAT.WSET (↑i : Nat)) = (↑k : Nat);
      let waiting : Prop := s.islRuns (↑i : Nat) = false ∨ x.arrived ≠ [];
      let rest : List (Nat × Bool × Nat) := [(1, true, 1)];
      let u : Nat := s.f (ISL_FORK_CFG.SU (↑i : Nat));
      s.islClk (↑i : Nat) = true ∧
      x.resIn = ((↑k : Nat), out, 0) :: rest ∧
      ¬waiting ∧
      armed = 1 ∧
      s.forkOk (↑i : Nat) (↑k : Nat) = true ∧
      ¬waits ∧
      s.islRuns (↑i : Nat) = true ∧
      s.f (ISL_FORK_STAT.STATE (↑i : Nat)) = 2 ∧
      (s.getWu (↑i : Nat) u).out = [] ∧
      (s.getWu (↑i : Nat) u).pipe = [] ∧
      Unread (↑i : Nat) u s ∧
      s.f (ISL_MOULT_WDT.LIMIT (↑i : Nat)) ≠ 0 ∧
      x.waitLogged = false) ∧
    (let i : Fin 156 := 0;
      let s : State := ((sts15 : List State)).getD 9 base;
      let c : Collector := s.coll (↑i : Nat);
      c.hold = none ∧
      s.islClk (↑i : Nat) = true) ∧
    (let r : Fin 12 := 7;
      let s : State := ((sts15 : List State)).getD 9 base;
      let p : Nat := s.owner (↑r : Nat);
      p = 15) := by
  repeat' first | decide +kernel | apply memOk_of | apply ready_of | apply executes_of | apply cplReady_of | apply nearBlock_of | constructor

/-- O49, part 2: states and operands that meet the hypotheses of its clauses. -/
theorem meets_ForkPointsAndFailCollectors_2 :
    (let i : Fin 156 := 0;
      let k : Fin 4 := 1;
      let out : Bool := true;
      let s : State := ((sts15 : List State)).getD 10 base;
      let x : Isl := s.getIsl (↑i : Nat);
      let armed : Nat := s.f ((ISL_FORK_STAT.ARMED (↑i : Nat)).bit (↑k : Nat));
      let waits : Prop := s.f (ISL_FORK_STAT.STATE (↑i : Nat)) = 2 ∧ s.f (ISL_FORK_STAT.WSET (↑i : Nat)) = (↑k : Nat);
      let waiting : Prop := s.islRuns (↑i : Nat) = false ∨ x.arrived ≠ [];
      let rest : List (Nat × Bool × Nat) := [(1, true, 1)];
      s.islClk (↑i : Nat) = true ∧
      x.resIn = ((↑k : Nat), out, 0) :: rest ∧
      ¬waiting ∧
      armed = 1 ∧
      s.forkOk (↑i : Nat) (↑k : Nat) = true ∧
      waits) := by
  decide +kernel

/-- O49, part 3: states and operands that meet the hypotheses of its clauses. -/
theorem meets_ForkPointsAndFailCollectors_3 :
    (let r : Fin 12 := 0;
      let s : State := ((sts15 : List State)).getD 15 base;
      let p : Nat := s.owner (↑r : Nat);
      let c : Nat := 0;
      let it : FailItem := { kind := Sys2Proof.Machine.ItemKind.record, lost := true, susp := false, rebase := false, site := 3, unit := 8, row := 1, col := 1, mask := 0x00000005#32, cyc := 77, bad := none };
      let rest : List FailItem := [{ kind := Sys2Proof.Machine.ItemKind.record, lost := true, susp := false, rebase := false, site := 3, unit := 8, row := 1, col := 1, mask := 0x00000005#32, cyc := 77, bad := none }, { kind := Sys2Proof.Machine.ItemKind.record, lost := true, susp := false, rebase := false, site := 3, unit := 8, row := 1, col := 1, mask := 0x00000005#32, cyc := 77, bad := none }, { kind := Sys2Proof.Machine.ItemKind.record, lost := true, susp := false, rebase := false, site := 3, unit := 8, row := 1, col := 1, mask := 0x00000005#32, cyc := 77, bad := none }, { kind := Sys2Proof.Machine.ItemKind.record, lost := true, susp := false, rebase := false, site := 3, unit := 8, row := 1, col := 1, mask := 0x00000005#32, cyc := 77, bad := none }, { kind := Sys2Proof.Machine.ItemKind.record, lost := true, susp := false, rebase := false, site := 3, unit := 8, row := 1, col := 1, mask := 0x00000005#32, cyc := 77, bad := none }, { kind := Sys2Proof.Machine.ItemKind.record, lost := true, susp := false, rebase := false, site := 3, unit := 8, row := 1, col := 1, mask := 0x00000005#32, cyc := 77, bad := none }, { kind := Sys2Proof.Machine.ItemKind.record, lost := true, susp := false, rebase := false, site := 3, unit := 8, row := 1, col := 1, mask := 0x00000005#32, cyc := 77, bad := none }, { kind := Sys2Proof.Machine.ItemKind.record, lost := true, susp := false, rebase := false, site := 3, unit := 8, row := 1, col := 1, mask := 0x00000005#32, cyc := 77, bad := none }, { kind := Sys2Proof.Machine.ItemKind.record, lost := true, susp := false, rebase := false, site := 3, unit := 8, row := 1, col := 1, mask := 0x00000005#32, cyc := 77, bad := none }, { kind := Sys2Proof.Machine.ItemKind.record, lost := true, susp := false, rebase := false, site := 3, unit := 8, row := 1, col := 1, mask := 0x00000005#32, cyc := 77, bad := none }, { kind := Sys2Proof.Machine.ItemKind.record, lost := true, susp := false, rebase := false, site := 3, unit := 8, row := 1, col := 1, mask := 0x00000005#32, cyc := 77, bad := none }, { kind := Sys2Proof.Machine.ItemKind.record, lost := true, susp := false, rebase := false, site := 3, unit := 8, row := 1, col := 1, mask := 0x00000005#32, cyc := 77, bad := none }, { kind := Sys2Proof.Machine.ItemKind.record, lost := true, susp := false, rebase := false, site := 3, unit := 8, row := 1, col := 1, mask := 0x00000005#32, cyc := 77, bad := none }, { kind := Sys2Proof.Machine.ItemKind.record, lost := true, susp := false, rebase := false, site := 3, unit := 8, row := 1, col := 1, mask := 0x00000005#32, cyc := 77, bad := none }, { kind := Sys2Proof.Machine.ItemKind.record, lost := true, susp := false, rebase := false, site := 3, unit := 8, row := 1, col := 1, mask := 0x00000005#32, cyc := 77, bad := none }];
      p < 12 ∧
      s.feClk = true ∧
      s.portNext (↑r : Nat) = some c ∧
      (s.coll (s.phys (↑r : Nat) c)).fifo = it :: rest ∧
      (s.coll (s.phys (↑r : Nat) c)).hold = none ∧
      it.kind = ItemKind.record ∧
      s.unitOf p it.unit = false) := by
  decide +kernel

/-- O49, part 4: states and operands that meet the hypotheses of its clauses. -/
theorem meets_ForkPointsAndFailCollectors_4 :
    (let i : Fin 156 := 0;
      let k : Fin 4 := 0;
      let s : State := ((sts15 : List State)).getD 3 base;
      let x : Isl := s.getIsl (↑i : Nat);
      let armed : Nat := s.f ((ISL_FORK_STAT.ARMED (↑i : Nat)).bit (↑k : Nat));
      let waiting : Prop := s.islRuns (↑i : Nat) = false ∨ x.arrived ≠ [];
      let fp : Nat := 3;
      let pp : Nat := 2;
      let rest : List (Nat × Nat × Nat) := [(1, 0, 1)];
      let branch : Prop := s.f (ISL_FORK_CFG.BREN (↑i : Nat)) = 1 ∧ s.f (ISL_FORK_CFG.BRSET (↑i : Nat)) = (↑k : Nat);
      s.islClk (↑i : Nat) = true ∧
      x.forkIn = ((↑k : Nat), fp, pp) :: rest ∧
      (∀ y ∈ x.resIn, y.2.2 ≠ 0) ∧
      ¬waiting ∧
      ¬branch ∧
      s.forkOk (↑i : Nat) (↑k : Nat) = true ∧
      armed = 0) := by
  decide +kernel

/-- O49, part 5: states and operands that meet the hypotheses of its clauses. -/
theorem meets_ForkPointsAndFailCollectors_5 :
    (let r : Fin 12 := 0;
      let s : State := ((sts15 : List State)).getD 18 base;
      let p : Nat := s.owner (↑r : Nat);
      let c : Nat := 0;
      let it : FailItem := { kind := Sys2Proof.Machine.ItemKind.record, lost := true, susp := false, rebase := false, site := 3, unit := 8, row := 3, col := 4, mask := 0x00000005#32, cyc := 77, bad := none };
      let rest : List FailItem := [];
      let z : FUnit := s.getUnit it.unit;
      p < 12 ∧
      s.feClk = true ∧
      s.portNext (↑r : Nat) = some c ∧
      (s.coll (s.phys (↑r : Nat) c)).fifo = it :: rest ∧
      (s.coll (s.phys (↑r : Nat) c)).hold = none ∧
      it.kind = ItemKind.record ∧
      s.unitOf p it.unit = true ∧
      z.st < 2) := by
  decide +kernel

/-- O49, part 6: states and operands that meet the hypotheses of its clauses. -/
theorem meets_ForkPointsAndFailCollectors_6 :
    (let r : Fin 12 := 0;
      let s : State := ((sts15 : List State)).getD 17 base;
      let p : Nat := s.owner (↑r : Nat);
      let c : Nat := 0;
      let it : FailItem := { kind := Sys2Proof.Machine.ItemKind.record, lost := true, susp := false, rebase := false, site := 3, unit := 8, row := 3, col := 4, mask := 0x00000005#32, cyc := 77, bad := none };
      let rest : List FailItem := [{ kind := Sys2Proof.Machine.ItemKind.record, lost := true, susp := false, rebase := false, site := 3, unit := 8, row := 3, col := 4, mask := 0x00000005#32, cyc := 77, bad := none }];
      let z : FUnit := s.getUnit it.unit;
      p < 12 ∧
      s.feClk = true ∧
      s.portNext (↑r : Nat) = some c ∧
      (s.coll (s.phys (↑r : Nat) c)).fifo = it :: rest ∧
      (s.coll (s.phys (↑r : Nat) c)).hold = none ∧
      it.kind = ItemKind.record ∧
      s.unitOf p it.unit = true ∧
      2 ≤ z.st ∧
      it.row < z.nr ∧
      it.col < z.nc ∧
      z.fmt ≠ 1) := by
  decide +kernel

/-- O49, part 7: states and operands that meet the hypotheses of its clauses. -/
theorem meets_ForkPointsAndFailCollectors_7 :
    (let r : Fin 12 := 0;
      let s : State := ((sts15 : List State)).getD 27 base;
      let p : Nat := s.owner (↑r : Nat);
      let c : Nat := 0;
      let it : FailItem := { kind := Sys2Proof.Machine.ItemKind.record, lost := true, susp := false, rebase := false, site := 3, unit := 8, row := 4, col := 50, mask := 0x00000005#32, cyc := 77, bad := none };
      let rest : List FailItem := [{ kind := Sys2Proof.Machine.ItemKind.record, lost := true, susp := false, rebase := false, site := 3, unit := 8, row := 4, col := 50, mask := 0x00000005#32, cyc := 77, bad := none }];
      let z : FUnit := s.getUnit it.unit;
      p < 12 ∧
      s.feClk = true ∧
      s.portNext (↑r : Nat) = some c ∧
      (s.coll (s.phys (↑r : Nat) c)).fifo = it :: rest ∧
      (s.coll (s.phys (↑r : Nat) c)).hold = none ∧
      it.kind = ItemKind.record ∧
      s.unitOf p it.unit = true ∧
      2 ≤ z.st ∧
      (z.nr ≤ it.row ∨ z.nc ≤ it.col)) := by
  decide +kernel

/-- O49, part 8: states and operands that meet the hypotheses of its clauses. -/
theorem meets_ForkPointsAndFailCollectors_8 :
    (let i : Fin 156 := 0;
      let k : Fin 4 := 0;
      let out : Bool := true;
      let s : State := ((sts15 : List State)).getD 7 base;
      let x : Isl := s.getIsl (↑i : Nat);
      let armed : Nat := s.f ((ISL_FORK_STAT.ARMED (↑i : Nat)).bit (↑k : Nat));
      let waiting : Prop := s.islRuns (↑i : Nat) = false ∨ x.arrived ≠ [];
      let rest : List (Nat × Bool × Nat) := [(1, true, 1)];
      s.islClk (↑i : Nat) = true ∧
      x.resIn = ((↑k : Nat), out, 0) :: rest ∧
      ¬waiting ∧
      armed = 0) := by
  decide +kernel

/-- O49, part 9: states and operands that meet the hypotheses of its clauses. -/
theorem meets_ForkPointsAndFailCollectors_9 :
    (let i : Fin 156 := 0;
      let k : Fin 4 := 0;
      let s : State := ((sts15 : List State)).getD 5 base;
      let x : Isl := s.getIsl (↑i : Nat);
      let waiting : Prop := s.islRuns (↑i : Nat) = false ∨ x.arrived ≠ [];
      let fp : Nat := 3;
      let pp : Nat := 2;
      let rest : List (Nat × Nat × Nat) := [(1, 0, 1)];
      let branch : Prop := s.f (ISL_FORK_CFG.BREN (↑i : Nat)) = 1 ∧ s.f (ISL_FORK_CFG.BRSET (↑i : Nat)) = (↑k : Nat);
      let s1 : State := s.onIsl (↑i : Nat) fun (y : Isl) => { y with forkIn := rest, resIn := List.map (fun (z : Nat × Bool × Nat) => (z.1, z.2.1, z.2.2 - 1)) y.resIn };
      let p : Nat := if s.f (ISL_FORK_CFG.BRSIDE (↑i : Nat)) = 1 then fp else pp;
      let s2 : State := forkCheck (↑i : Nat) (List.foldl (fun (s : State) (e : Nat) => requestPlane (↑i : Nat) e p s) s1 (List.range 137));
      s.islClk (↑i : Nat) = true ∧
      x.forkIn = ((↑k : Nat), fp, pp) :: rest ∧
      (∀ y ∈ x.resIn, y.2.2 ≠ 0) ∧
      ¬waiting ∧
      branch ∧
      s2.forkOk (↑i : Nat) (↑k : Nat) = false) := by
  decide +kernel

/-- O49, part 10: states and operands that meet the hypotheses of its clauses. -/
theorem meets_ForkPointsAndFailCollectors_10 :
    (let i : Fin 156 := 0;
      let s : State := put [(ISL_FORK_STAT.CUR 0, 2)] (fk.onIsl 0 (fun x => { x with switched := true }));
      let x : Isl := s.getIsl (↑i : Nat);
      s.f (ISL_FORK_CFG.STEN (↑i : Nat)) = 1 ∧
      x.switched = true ∧
      s.qDepth (↑i : Nat) (s.f (ISL_FORK_STAT.CUR (↑i : Nat))) = 0) := by
  decide +kernel

/-- O49, part 11: states and operands that meet the hypotheses of its clauses. -/
theorem meets_ForkPointsAndFailCollectors_11 :
    (let i : Fin 156 := 0;
      let s : State := put [(ISL_FCAP_CFG.FEN 0, 1), (ISL_FCAP_CFG.SITE 0, 5)] (fz (fun c => { c with covered := false, idle := 256, hold := none }) fk);
      let c : Collector := s.coll (↑i : Nat);
      c.hold = none ∧
      s.islRuns (↑i : Nat) = true ∧
      s.f (ISL_FCAP_CFG.FEN (↑i : Nat)) = 1 ∧
      c.covered = false ∧
      256 ≤ c.idle) := by
  decide +kernel

/-- O49, part 12: states and operands that meet the hypotheses of its clauses. -/
theorem meets_ForkPointsAndFailCollectors_12 :
    (let i : Fin 156 := 0;
      let k : Fin 4 := 0;
      let s : State := (fi fk).onIsl 0 (fun x => { x with frozen := true });
      let x : Isl := s.getIsl (↑i : Nat);
      let waiting : Prop := s.islRuns (↑i : Nat) = false ∨ x.arrived ≠ [];
      let fp : Nat := 3;
      let pp : Nat := 2;
      let rest : List (Nat × Nat × Nat) := [(1, 0, 1)];
      s.islClk (↑i : Nat) = true ∧
      x.forkIn = ((↑k : Nat), fp, pp) :: rest ∧
      (∀ y ∈ x.resIn, y.2.2 ≠ 0) ∧
      waiting) := by
  decide +kernel

/-- O49, part 13: states and operands that meet the hypotheses of its clauses. -/
theorem meets_ForkPointsAndFailCollectors_13 :
    (let i : Fin 156 := 0;
      let k : Fin 4 := 0;
      let out : Bool := true;
      let s : State := (ri 0 true fk).onIsl 0 (fun x => { x with frozen := true });
      let x : Isl := s.getIsl (↑i : Nat);
      let waiting : Prop := s.islRuns (↑i : Nat) = false ∨ x.arrived ≠ [];
      let rest : List (Nat × Bool × Nat) := [(1, true, 1)];
      s.islClk (↑i : Nat) = true ∧
      x.resIn = ((↑k : Nat), out, 0) :: rest ∧
      waiting) := by
  decide +kernel

/-- O50: states and operands that meet the hypotheses of its clauses. -/
theorem meets_FailEngineCommandsActOnUnits :
    (let p : Fin 12 := 0;
      let u : BitVec 14 := 0x0008#14;
      let s : State := { us [(8, U 1)] fb with feParts := [(0, { FePart.fresh with arming := some 8, seqno := 6 })], mem := Memory.put fb.mem (trackerBase + 300) 7 };
      let x : FUnit := s.getUnit u.toNat;
      let uncached : Prop := (∀ e ∈ s.fe.home, e.2 = []) ∧ (∀ e ∈ s.fe.tiles, ∀ y ∈ e.2, y.unit ≠ u.toNat) ∧ ∀ r ∈ s.fe.lines, r.unit ≠ u.toNat;
      let idle : Prop := x.st = 0 ∨ x.st = 5;
      s.feClk = true ∧
      s.f (FE_PCST.BUSY (↑p : Nat)) = 0 ∧
      s.unitOf (↑p : Nat) u.toNat = true ∧
      ¬idle ∧
      uncached ∧
      x.st ≠ 2 ∧
      x.gen < 128 ∧
      x.fr ≤ 16 ∧
      x.fc ≤ 16 ∧
      x.nwrite < 2 ^ 32 ∧
      x.st < 8 ∧
      ((List.map (fun (e : Nat × FUnit) => e.1) s.units).Nodup) ∧
      s.f (FE_PHDR.EN (↑p : Nat)) = 0) := by
  decide +kernel

/-- O50, part 2: states and operands that meet the hypotheses of its clauses. -/
theorem meets_FailEngineCommandsActOnUnits_2 :
    (let p : Fin 12 := 0;
      let u : BitVec 14 := 0x0008#14;
      let s : State := put [(FE_PHDR.EN 0, 1), (FE_GSTAT.EARLYBUF, 1), (FE_PHDR.ADDR 0, cxlBase / 64 + 64)] (us [(8, U 2)] (fe (fun f => { f with tiles := [(0, [{ unit := 8, row := 1, base := 0, words := [(3, 7)] }])] }) fb));
      let x : FUnit := s.getUnit u.toNat;
      let a : Nat := s.f (FE_PHDR.ADDR (↑p : Nat)) * 64;
      s.feClk = true ∧
      s.f (FE_PCST.BUSY (↑p : Nat)) = 0 ∧
      s.unitOf (↑p : Nat) u.toNat = true ∧
      x.st = 2 ∧
      s.f (FE_PHDR.EN (↑p : Nat)) = 1 ∧
      s.f FE_GSTAT.EARLYBUF = 1 ∧
      MemOk s ∧
      cxlBase ≤ a ∧
      a + 1088 ≤ cxlBase + 4194304) := by
  repeat' first | decide +kernel | apply memOk_of | apply ready_of | apply executes_of | apply cplReady_of | apply nearBlock_of | constructor

/-- O50, part 3: states and operands that meet the hypotheses of its clauses. -/
theorem meets_FailEngineCommandsActOnUnits_3 :
    (let p : Fin 12 := 0;
      let u : BitVec 14 := 0x0008#14;
      let s : State := fb;
      let x : FUnit := s.getUnit u.toNat;
      let uncached : Prop := (∀ e ∈ s.fe.home, e.2 = []) ∧ (∀ e ∈ s.fe.tiles, ∀ y ∈ e.2, y.unit ≠ u.toNat) ∧ ∀ r ∈ s.fe.lines, r.unit ≠ u.toNat;
      let y : FUnit := s.staged (↑p : Nat) u.toNat;
      let nlc : Nat := if y.iomode = true then y.nc * 32 else y.nc;
      let geom : Prop := 16 < y.sr ∨ 16 < y.sc ∨ y.fmt = 3 ∨ y.len = 0 ∧ y.fmt ≠ 0 ∨ y.an = true ∧ 2097152 < y.tbase + y.nr + nlc;
      let lo : Nat := y.mapbase * 64;
      let hi : Nat := lo + y.len * if y.fmt = 1 then 64 else 16;
      let map : Prop := y.fmt ≠ 0 ∧ (lo < s.f (FE_PMAPLO.ADDR (↑p : Nat)) * 4096 ∨ (s.f (FE_PMAPHI.ADDR (↑p : Nat)) + 1) * 4096 < hi ∨ s.f FE_GSTAT.EARLYBUF = 1 ∧ (lo < cxlBase ∨ cxlBase + 4194304 < hi));
      let first : Nat := s.f (FE_PTRK.TFIRST (↑p : Nat));
      let trk : Prop := y.an = true ∧ (y.tbase < first ∨ first + s.f (FE_PTRK.TCOUNT (↑p : Nat)) < y.tbase + y.nr + nlc ∨ ∃ e ∈ s.units, e.1 ≠ u.toNat ∧ e.2.st ≠ 0 ∧ e.2.an = true ∧ e.2.tbase < y.tbase + y.nr + nlc ∧ y.tbase < e.2.tbase + e.2.nr + e.2.nlc);
      let idle : Prop := x.st = 0 ∨ x.st = 5;
      s.feClk = true ∧
      s.f (FE_PCST.BUSY (↑p : Nat)) = 0 ∧
      s.unitOf (↑p : Nat) u.toNat = true ∧
      idle ∧
      ¬geom ∧
      ¬map ∧
      ¬trk ∧
      uncached) := by
  decide +kernel

/-- O50, part 4: states and operands that meet the hypotheses of its clauses. -/
theorem meets_FailEngineCommandsActOnUnits_4 :
    (let p : Fin 12 := 0;
      let u : BitVec 14 := 0x0008#14;
      let s : State := ud (4 + 0x10000) (2^32*64) (d2of 20 10 2 2 5) fb;
      let x : FUnit := s.getUnit u.toNat;
      let y : FUnit := s.staged (↑p : Nat) u.toNat;
      let nlc : Nat := if y.iomode = true then y.nc * 32 else y.nc;
      let geom : Prop := 16 < y.sr ∨ 16 < y.sc ∨ y.fmt = 3 ∨ y.len = 0 ∧ y.fmt ≠ 0 ∨ y.an = true ∧ 2097152 < y.tbase + y.nr + nlc;
      let lo : Nat := y.mapbase * 64;
      let hi : Nat := lo + y.len * if y.fmt = 1 then 64 else 16;
      let map : Prop := y.fmt ≠ 0 ∧ (lo < s.f (FE_PMAPLO.ADDR (↑p : Nat)) * 4096 ∨ (s.f (FE_PMAPHI.ADDR (↑p : Nat)) + 1) * 4096 < hi ∨ s.f FE_GSTAT.EARLYBUF = 1 ∧ (lo < cxlBase ∨ cxlBase + 4194304 < hi));
      let idle : Prop := x.st = 0 ∨ x.st = 5;
      s.feClk = true ∧
      s.f (FE_PCST.BUSY (↑p : Nat)) = 0 ∧
      s.unitOf (↑p : Nat) u.toNat = true ∧
      idle ∧
      ¬geom ∧
      map) := by
  decide +kernel

/-- O50, part 5: states and operands that meet the hypotheses of its clauses. -/
theorem meets_FailEngineCommandsActOnUnits_5 :
    (let p : Fin 12 := 0;
      let u : BitVec 14 := 0x0008#14;
      let s : State := us [(9, U 2)] (ud 2 100 (d2of 20 10 2 2 5) fb);
      let x : FUnit := s.getUnit u.toNat;
      let y : FUnit := s.staged (↑p : Nat) u.toNat;
      let nlc : Nat := if y.iomode = true then y.nc * 32 else y.nc;
      let geom : Prop := 16 < y.sr ∨ 16 < y.sc ∨ y.fmt = 3 ∨ y.len = 0 ∧ y.fmt ≠ 0 ∨ y.an = true ∧ 2097152 < y.tbase + y.nr + nlc;
      let lo : Nat := y.mapbase * 64;
      let hi : Nat := lo + y.len * if y.fmt = 1 then 64 else 16;
      let map : Prop := y.fmt ≠ 0 ∧ (lo < s.f (FE_PMAPLO.ADDR (↑p : Nat)) * 4096 ∨ (s.f (FE_PMAPHI.ADDR (↑p : Nat)) + 1) * 4096 < hi ∨ s.f FE_GSTAT.EARLYBUF = 1 ∧ (lo < cxlBase ∨ cxlBase + 4194304 < hi));
      let first : Nat := s.f (FE_PTRK.TFIRST (↑p : Nat));
      let trk : Prop := y.an = true ∧ (y.tbase < first ∨ first + s.f (FE_PTRK.TCOUNT (↑p : Nat)) < y.tbase + y.nr + nlc ∨ ∃ e ∈ s.units, e.1 ≠ u.toNat ∧ e.2.st ≠ 0 ∧ e.2.an = true ∧ e.2.tbase < y.tbase + y.nr + nlc ∧ y.tbase < e.2.tbase + e.2.nr + e.2.nlc);
      let idle : Prop := x.st = 0 ∨ x.st = 5;
      s.feClk = true ∧
      s.f (FE_PCST.BUSY (↑p : Nat)) = 0 ∧
      s.unitOf (↑p : Nat) u.toNat = true ∧
      idle ∧
      ¬geom ∧
      ¬map ∧
      trk) := by
  decide +kernel

/-- O50, part 6: states and operands that meet the hypotheses of its clauses. -/
theorem meets_FailEngineCommandsActOnUnits_6 :
    (let p : Fin 12 := 0;
      let u : BitVec 14 := 0x0008#14;
      let s : State := ud 2 100 (d2of 20 10 17 2 5) fb;
      let x : FUnit := s.getUnit u.toNat;
      let y : FUnit := s.staged (↑p : Nat) u.toNat;
      let nlc : Nat := if y.iomode = true then y.nc * 32 else y.nc;
      let geom : Prop := 16 < y.sr ∨ 16 < y.sc ∨ y.fmt = 3 ∨ y.len = 0 ∧ y.fmt ≠ 0 ∨ y.an = true ∧ 2097152 < y.tbase + y.nr + nlc;
      let idle : Prop := x.st = 0 ∨ x.st = 5;
      s.feClk = true ∧
      s.f (FE_PCST.BUSY (↑p : Nat)) = 0 ∧
      s.unitOf (↑p : Nat) u.toNat = true ∧
      idle ∧
      geom) := by
  decide +kernel

/-- O50, part 7: states and operands that meet the hypotheses of its clauses. -/
theorem meets_FailEngineCommandsActOnUnits_7 :
    (let p : Fin 12 := 0;
      let u : BitVec 14 := 8;
      let site : BitVec 6 := 5;
      let s : State := put [(FE_PCST.BUSY 0, 1)] fb;
      let c : Instr := Instr.flush 0;
      s.feClk = true ∧
      s.f (FE_PCST.BUSY (↑p : Nat)) = 1 ∧
      c ∈ [Instr.arm p u, Instr.disarm p u, Instr.solve p u, Instr.solvesite p site, Instr.flush p, Instr.query p u, Instr.newrun p]) := by
  decide +kernel

/-- O50, part 8: states and operands that meet the hypotheses of its clauses. -/
theorem meets_FailEngineCommandsActOnUnits_8 :
    (let p : Fin 12 := 0;
      let u : BitVec 14 := 12;
      let s : State := fb;
      let c : Instr := Instr.solve 0 12;
      s.feClk = true ∧
      s.f (FE_PCST.BUSY (↑p : Nat)) = 0 ∧
      s.unitOf (↑p : Nat) u.toNat = false ∧
      c ∈ [Instr.arm p u, Instr.disarm p u, Instr.solve p u, Instr.query p u]) := by
  decide +kernel

/-- O51: states and operands that meet the hypotheses of its clauses. -/
theorem meets_FailEngineRecordsResultsAndHeaders :
    (let p : Fin 12 := 3;
      let s : State := eng { U 4 with mrRows := [9], fr := 1 } (fatc [(3, 4, 1), (3, 5, 1), (4, 4, 1)] (ee fb));
      let x : FePart := s.getFe (↑p : Nat);
      s.feClk = true ∧
      x.bodyWords = x.body) ∧
    (let k : Fin 4 := 0;
      let u : Nat := 8;
      let s : State := eng { U 4 with mrRows := [9], fr := 1 } (fatc [(3, 4, 1), (3, 5, 1), (4, 4, 1)] (ee fb));
      let x : FUnit := s.getUnit u;
      let p : Nat := x.part;
      let wellFormed : Prop := p < 12 ∧ x.site < 64 ∧ x.lastcyc < 2 ^ 40;
      let open' : Prop := s.ringFull p = false ∧ ∀ r ∈ s.fe.held, r.part ≠ p;
      let found : Option Search := solveCells 32 { fr := x.fr, fc := x.fc, cells := s.cells u, rows := [], cols := [] };
      let y : Search := { fr := 0, fc := 1, cells := [], rows := [3], cols := [4] };
      let rows : List Nat := List.foldl (fun (a : List Nat) (l : Nat) => insertLine l a) x.mrRows y.rows;
      let cols : List Nat := List.foldl (fun (a : List Nat) (l : Nat) => insertLine l a) x.mrCols y.cols;
      s.feClk = true ∧
      u < 2 ^ 14 ∧
      wellFormed ∧
      s.fe.engines.find (↑k : Nat) = some u ∧
      s.fe.kept.find (↑k : Nat) = none ∧
      open' ∧
      found = some y ∧
      (∀ r ∈ rows, x.rowTrk r < 2097152) ∧
      (∀ l ∈ cols, x.colTrk l < 2097152)) ∧
    (let s : State := eng { U 4 with mrRows := [9], fr := 1 } (fatc [(3, 4, 1), (3, 5, 1), (4, 4, 1)] (ee fb));
      s.feClk = true ∧
      s.fe.early = [] ∧
      s.fe.kept = [] ∧
      s.fe.held = []) := by
  decide +kernel

/-- O51, part 2: states and operands that meet the hypotheses of its clauses. -/
theorem meets_FailEngineRecordsResultsAndHeaders_2 :
    (let k : Fin 4 := 0;
      let u : Nat := 8;
      let s : State := fe (fun f => { f with solveQ := [8, 9] }) (us [(8, { U 3 with an := false, mrRows := [1,2], mrCols := [7] })] (ee fb));
      let x : FUnit := s.getUnit u;
      let p : Nat := x.part;
      let wellFormed : Prop := p < 12 ∧ x.site < 64 ∧ x.lastcyc < 2 ^ 40;
      let open' : Prop := s.ringFull p = false ∧ ∀ r ∈ s.fe.held, r.part ≠ p;
      let q : List Nat := [9];
      s.feClk = true ∧
      u < 2 ^ 14 ∧
      wellFormed ∧
      (∀ j < k, s.fe.engines.find (↑j : Nat) ≠ none ∨ s.fe.kept.find (↑j : Nat) ≠ none) ∧
      s.fe.engines.find (↑k : Nat) = none ∧
      s.fe.kept.find (↑k : Nat) = none ∧
      s.fe.solveQ = u :: q ∧
      (s.ringFull p = false ∨ s.fe.held.length < 256) ∧
      s.f RST_STAT.SVC = 2 ∧
      x.an = false ∧
      open') := by
  decide +kernel

/-- O51, part 3: states and operands that meet the hypotheses of its clauses. -/
theorem meets_FailEngineRecordsResultsAndHeaders_3 :
    (let k : Fin 4 := 0;
      let u : Nat := 8;
      let s : State := eng (U 4) (fatc [(1, 1, 1), (2, 2, 1), (3, 3, 1), (4, 4, 1), (5,5,1)] (ee fb));
      let x : FUnit := s.getUnit u;
      let p : Nat := x.part;
      let wellFormed : Prop := p < 12 ∧ x.site < 64 ∧ x.lastcyc < 2 ^ 40;
      let open' : Prop := s.ringFull p = false ∧ ∀ r ∈ s.fe.held, r.part ≠ p;
      let found : Option Search := solveCells 32 { fr := x.fr, fc := x.fc, cells := s.cells u, rows := [], cols := [] };
      s.feClk = true ∧
      u < 2 ^ 14 ∧
      wellFormed ∧
      s.fe.engines.find (↑k : Nat) = some u ∧
      s.fe.kept.find (↑k : Nat) = none ∧
      open' ∧
      found = none) := by
  decide +kernel

/-- O51, part 4: states and operands that meet the hypotheses of its clauses. -/
theorem meets_FailEngineRecordsResultsAndHeaders_4 :
    (let p : Fin 12 := 0;
      let s : State := mk3 (put [(FE_PHDR.EN 0, 1)] (ee fb));
      let x : FePart := s.getFe (↑p : Nat);
      s.feClk = true ∧
      x.bodyWords ≠ x.body) := by
  decide +kernel

/-- O51, part 5: states and operands that meet the hypotheses of its clauses. -/
theorem meets_FailEngineRecordsResultsAndHeaders_5 :
    (let h : Fin 4 := 0;
      let s : State := hm (rec2 8 19 9 3) (us [(8, U 2)] fb);
      let r : FeRec := { part := 0, site := 5, unit := 8, row := 19, col := 9, mask := 3, cyc := 999 };
      let rest : List FeRec := [];
      let x : FUnit := s.getUnit r.unit;
      let old : Nat := match List.find? (fun (e : FatEntry) => e.unit == r.unit && e.row == r.row && e.col == r.col) s.fat with | some e => e.mask | none => 0;
      let new : List Nat := List.filter (fun (io : Nat) => !bitOf old io) (onesOf 32 r.mask);
      let more : Nat → Nat := fun (l : Nat) => (List.filter (fun (io : Nat) => x.cline r.col io == l) new).length;
      let room : Prop := (s.fat.any fun (e : FatEntry) => e.unit == r.unit && e.row == r.row && e.col == r.col) = true ∨ (List.filter (fun (e : FatEntry) => e.part == r.part) s.fat).length < s.fatQuota r.part ∧ s.fat.length < 65536;
      let fits : Prop := (∀ y < x.nr, (↑(trkCnt (s.trk (x.rowTrk y))) : Int) + (↑(if y = r.row then new.length else 0) : Int) ≤ x.fc) ∧ (∀ l < x.nlc, (↑(trkCnt (s.trk (x.colTrk l))) : Int) + (↑(more l) : Int) ≤ x.fr) ∧ (↑(s.cells r.unit).length : Int) + (↑new.length : Int) ≤ 2 * x.fr * x.fc;
      s.feClk = true ∧
      s.fe.home.getD (↑h : Nat) [] = r :: rest ∧
      r.part < 12 ∧
      MemOk s ∧
      x.fmt ≠ 2 ∧
      x.an = true ∧
      (x.st = 2 ∨ x.st = 3) ∧
      x.fatfull = false ∧
      r.row < x.nr ∧
      r.col < x.nc ∧
      0 ≤ x.fr ∧
      x.fr ≤ 16 ∧
      0 ≤ x.fc ∧
      x.fc ≤ 16 ∧
      trkMR (s.trk (x.rowTrk r.row)) = false ∧
      (∀ io ∈ new, trkMR (s.trk (x.colTrk (x.cline r.col io))) = false) ∧
      new ≠ [] ∧
      (∀ c ∈ s.cells r.unit, c.1 < x.nr ∧ c.2 < x.nlc) ∧
      ((List.filter (fun (e : FatEntry) => e.unit == r.unit && e.row == r.row && e.col == r.col) s.fat).length ≤ 1) ∧
      room ∧
      fits) := by
  repeat' first | decide +kernel | apply memOk_of | apply ready_of | apply executes_of | apply cplReady_of | apply nearBlock_of | constructor

/-- O51, part 6: states and operands that meet the hypotheses of its clauses. -/
theorem meets_FailEngineRecordsResultsAndHeaders_6 :
    (let p : Fin 12 := 0;
      let s : State := us [(8, { U 2 with nwrite := 3 })] fb;
      let u : BitVec 14 := 0x0008#14;
      s.feClk = true ∧
      s.unitOf (↑p : Nat) u.toNat = true ∧
      (s.getUnit u.toNat).nwrite ≠ 0) := by
  decide +kernel

/-- O51, part 7: states and operands that meet the hypotheses of its clauses. -/
theorem meets_FailEngineRecordsResultsAndHeaders_7 :
    (let k : Fin 4 := 0;
      let u : Nat := 8;
      let s : State := fe (fun f => { f with solveQ := [8, 9] }) (us [(8, U 3)] fb);
      let x : FUnit := s.getUnit u;
      let p : Nat := x.part;
      let wellFormed : Prop := p < 12 ∧ x.site < 64 ∧ x.lastcyc < 2 ^ 40;
      let q : List Nat := [9];
      s.feClk = true ∧
      u < 2 ^ 14 ∧
      wellFormed ∧
      (∀ j < k, s.fe.engines.find (↑j : Nat) ≠ none ∨ s.fe.kept.find (↑j : Nat) ≠ none) ∧
      s.fe.engines.find (↑k : Nat) = none ∧
      s.fe.kept.find (↑k : Nat) = none ∧
      s.fe.solveQ = u :: q ∧
      (s.ringFull p = false ∨ s.fe.held.length < 256) ∧
      s.f RST_STAT.SVC = 2 ∧
      x.an = true ∧
      x.fatfull = false) := by
  decide +kernel

/-- O51, part 8: states and operands that meet the hypotheses of its clauses. -/
theorem meets_FailEngineRecordsResultsAndHeaders_8 :
    (let h : Fin 4 := 0;
      let s : State := hm (rec2 8 3 4 1) (us [(8, U 4)] fb);
      let r : FeRec := { part := 0, site := 5, unit := 8, row := 3, col := 4, mask := 1, cyc := 999 };
      let rest : List FeRec := [];
      let x : FUnit := s.getUnit r.unit;
      s.feClk = true ∧
      s.fe.home.getD (↑h : Nat) [] = r :: rest ∧
      r.part < 12 ∧
      x.fmt ≠ 2 ∧
      (x.st = 4 ∨ x.st = 5)) := by
  decide +kernel

/-- O51, part 9: states and operands that meet the hypotheses of its clauses. -/
theorem meets_FailEngineRecordsResultsAndHeaders_9 :
    (let k : Fin 4 := 0;
      let u : Nat := 8;
      let s : State := full (eng (U 4) (ee fb));
      let x : FUnit := s.getUnit u;
      let p : Nat := x.part;
      let wellFormed : Prop := p < 12 ∧ x.site < 64 ∧ x.lastcyc < 2 ^ 40;
      s.feClk = true ∧
      u < 2 ^ 14 ∧
      wellFormed ∧
      s.fe.engines.find (↑k : Nat) = some u ∧
      s.fe.kept.find (↑k : Nat) = none ∧
      s.ringFull p = true ∧
      s.fe.held.length < 256) := by
  decide +kernel

/-- O51, part 10: states and operands that meet the hypotheses of its clauses. -/
theorem meets_FailEngineRecordsResultsAndHeaders_10 :
    (let k : Fin 4 := 0;
      let u : Nat := 8;
      let s : State := full (eng (U 4) (fe (fun f => { f with held := List.replicate 256 res }) (ee fb)));
      let x : FUnit := s.getUnit u;
      let p : Nat := x.part;
      let wellFormed : Prop := p < 12 ∧ x.site < 64 ∧ x.lastcyc < 2 ^ 40;
      s.feClk = true ∧
      u < 2 ^ 14 ∧
      wellFormed ∧
      s.fe.engines.find (↑k : Nat) = some u ∧
      s.fe.kept.find (↑k : Nat) = none ∧
      s.ringFull p = true ∧
      256 ≤ s.fe.held.length) := by
  decide +kernel

/-- O51, part 11: states and operands that meet the hypotheses of its clauses. -/
theorem meets_FailEngineRecordsResultsAndHeaders_11 :
    (let p : Fin 12 := 0;
      let v : BitVec 16 := 0x0005#16;
      let s : State := full (fe (fun f => { f with held := [res] }) (ee fb));
      let r : FeResult := { part := 0, unit := 8, words := [1, 2, 3, 4, 5, 6, 7, 8, 9, 10, 11, 12, 13, 14, 15, 16] };
      s.feClk = true ∧
      s.fe.early = [] ∧
      s.fe.kept = [] ∧
      s.fe.held = [r] ∧
      r.part = (↑p : Nat) ∧
      (s.f (FE_PRRQP.TAIL (↑p : Nat)) + 1) % s.ringLen (↑p : Nat) ≠ v.toNat % s.ringLen (↑p : Nat)) := by
  decide +kernel

/-- O52: three bad cells, at the most spare rows and columns and with none, and an answer that the search finds. -/
theorem meets_RepairSearchIsExact :
    ((16 : Nat) ≤ 16 ∧ ([(1, 2), (1, 3), (4, 5)] : List (Nat × Nat)).Nodup ∧
      ∃ y, solveCells 32 { fr := 16, fc := 16, cells := [(1, 2), (1, 3), (4, 5)], rows := [], cols := [] } = some y) ∧
    (0 : Nat) ≤ 16 ∧ solveCells 32 { fr := 0, fc := 0, cells := [(1, 2)], rows := [], cols := [] } = none :=
  ⟨⟨by decide, by decide, Option.isSome_iff_exists.mp (by decide +kernel)⟩, by decide, by decide +kernel⟩

/-- O53: states and operands that meet the hypotheses of its clauses. -/
theorem meets_ConfigurationLoads :
    (let s : State := bz 1 (fun c => { c with buf := List.replicate 65530 0 }) e0;
      let p : Nat := s.cfg.part;
      let mode : Nat := s.cfg.mode;
      let buf : List Byte := s.cfg.buf;
      let busy : Prop := s.f CFG_STAT.BUSY = 1;
      let phase : Nat := s.f CFG_STAT.PHASE;
      let calm : Prop := busy ∧ p < 12 ∧ mode ≠ 2 ∧ s.sys.reloads = [] ∧ s.sys.repair = none ∧ s.cfg.golden = false ∧ s.cfg.boot = 0;
      let wide : Bool := true;
      let v : BitVec 64 := 0x0000000000001122#64;
      let bs : List Byte := bytesLE (if wide = true then 8 else 4) v.toNat;
      let takes : Prop := busy ∧ s.cfg.src = 0 ∧ s.cfg.cspWait = false ∧ s.cfg.boot ≠ 1;
      let h : List Byte := List.take 256 buf;
      let code : Nat := s.headerCode mode h;
      s.cfgClk = true ∧
      s.fnOpen 0 = true ∧
      calm ∧
      takes ∧
      65536 < buf.length + bs.length ∧
      s.loadFrom 1 = false ∧
      s.loadStarved = false ∧
      s.cfg.src = 0 ∧
      s.cfg.cspWait = false ∧
      s.cfg.feed = [] ∧
      phase = 1 ∧
      mode < 2 ∧
      256 ≤ buf.length ∧
      hnum h 0 4 ≠ 1213875014 ∧
      code ≠ 0) := by
  decide +kernel

/-- O53, part 2: states and operands that meet the hypotheses of its clauses. -/
theorem meets_ConfigurationLoads_2 :
    (let s : State := bz 1 (fun c => { c with boot := 1, src := 1 , mode := 2}) e0;
      let busy : Prop := s.f CFG_STAT.BUSY = 1;
      s.cfgClk = true ∧
      busy ∧
      s.cfg.cspWait = false ∧
      s.cfg.boot = 1) := by
  decide +kernel

/-- O53, part 3: states and operands that meet the hypotheses of its clauses. -/
theorem meets_ConfigurationLoads_3 :
    (let s : State := put [(CFG_CSPTGT.EN, 1), (CFG_CSPTGT.PART, 4)] (cb id e0);
      let busy : Prop := s.f CFG_STAT.BUSY = 1;
      let m : BitVec 2 := 0x1#2;
      let good : Prop := m = 1 ∨ m = 2;
      s.cfgClk = true ∧
      s.cfg.cspWait = false ∧
      ¬busy ∧
      s.f CFG_CSPTGT.EN = 1 ∧
      good) := by
  decide +kernel

/-- O53, part 4: states and operands that meet the hypotheses of its clauses. -/
theorem meets_ConfigurationLoads_4 :
    (let s : State := bz 2 (fun c => { c with hdr := hdr 0 2 0 2, buf := (recb 5 0x123456789).take 130 ++ [1,2,3,4,5,6] }) e0;
      let p : Nat := s.cfg.part;
      let mode : Nat := s.cfg.mode;
      let buf : List Byte := s.cfg.buf;
      let busy : Prop := s.f CFG_STAT.BUSY = 1;
      let phase : Nat := s.f CFG_STAT.PHASE;
      let calm : Prop := busy ∧ p < 12 ∧ mode ≠ 2 ∧ s.sys.reloads = [] ∧ s.sys.repair = none ∧ s.cfg.golden = false ∧ s.cfg.boot = 0;
      let wide : Bool := true;
      let v : BitVec 64 := 0x0000000000001122#64;
      let bs : List Byte := bytesLE (if wide = true then 8 else 4) v.toNat;
      let takes : Prop := busy ∧ s.cfg.src = 0 ∧ s.cfg.cspWait = false ∧ s.cfg.boot ≠ 1;
      let r : List Byte := List.take 136 buf;
      s.cfgClk = true ∧
      s.fnOpen 0 = true ∧
      takes ∧
      buf.length + bs.length ≤ 65536 ∧
      calm ∧
      s.cfg.src = 0 ∧
      s.cfg.feed = [] ∧
      phase = 2 ∧
      hEnc s.cfg.hdr = false ∧
      s.f CFG_PROG.FDONE < hFrames s.cfg.hdr ∧
      hFrames s.cfg.hdr < 65536 ∧
      136 ≤ buf.length ∧
      hnum r 132 4 ≠ crc32 (List.take 132 r) ∧
      s.frameCode r ≠ 0) := by
  decide +kernel

/-- O53, part 5: states and operands that meet the hypotheses of its clauses. -/
theorem meets_ConfigurationLoads_5 :
    (let s : State := bz 1 (fun c => { c with src := 1, cspWait := true }) e0;
      let p : Nat := s.cfg.part;
      let mode : Nat := s.cfg.mode;
      let busy : Prop := s.f CFG_STAT.BUSY = 1;
      let calm : Prop := busy ∧ p < 12 ∧ mode ≠ 2 ∧ s.sys.reloads = [] ∧ s.sys.repair = none ∧ s.cfg.golden = false ∧ s.cfg.boot = 0;
      let m : BitVec 2 := 0x3#2;
      let good : Prop := m = 1 ∨ m = 2;
      s.cfgClk = true ∧
      calm ∧
      s.cfg.cspWait = true ∧
      ¬good) := by
  decide +kernel

/-- O53, part 6: states and operands that meet the hypotheses of its clauses. -/
theorem meets_ConfigurationLoads_6 :
    (let s : State := bz 3 (fun c => { c with mode := 1, hdr := hdr 0 2 4 1, staged := [(12, CfgFrame.of 12 77)] }) s2;
      let p : Nat := s.cfg.part;
      let mode : Nat := s.cfg.mode;
      let busy : Prop := s.f CFG_STAT.BUSY = 1;
      let phase : Nat := s.f CFG_STAT.PHASE;
      let calm : Prop := busy ∧ p < 12 ∧ mode ≠ 2 ∧ s.sys.reloads = [] ∧ s.sys.repair = none ∧ s.cfg.golden = false ∧ s.cfg.boot = 0;
      let planes : Nat := hPlanes s.cfg.hdr;
      let inUse : Prop := ∃ i ∈ s.islandsOf p, ∃ q < 16, bitOf planes q = true ∧ q ∈ s.planesUsed i;
      s.cfgClk = true ∧
      calm ∧
      phase = 3 ∧
      s.verifyCode = 0 ∧
      mode = 1 ∧
      ¬inUse) := by
  decide +kernel

/-- O53, part 7: states and operands that meet the hypotheses of its clauses. -/
theorem meets_ConfigurationLoads_7 :
    (let s : State := bz 1 (fun c => { c with buf := hdr 0 2 0 3 ++ [7] }) e0;
      let p : Nat := s.cfg.part;
      let mode : Nat := s.cfg.mode;
      let buf : List Byte := s.cfg.buf;
      let busy : Prop := s.f CFG_STAT.BUSY = 1;
      let phase : Nat := s.f CFG_STAT.PHASE;
      let calm : Prop := busy ∧ p < 12 ∧ mode ≠ 2 ∧ s.sys.reloads = [] ∧ s.sys.repair = none ∧ s.cfg.golden = false ∧ s.cfg.boot = 0;
      let h : List Byte := List.take 256 buf;
      let code : Nat := s.headerCode mode h;
      s.cfgClk = true ∧
      calm ∧
      s.cfg.src = 0 ∧
      s.cfg.cspWait = false ∧
      s.cfg.feed = [] ∧
      phase = 1 ∧
      mode < 2 ∧
      256 ≤ buf.length ∧
      code = 0 ∧
      s.f CFG_PROG.FDONE ≠ hFrames h) := by
  decide +kernel

/-- O53, part 8: states and operands that meet the hypotheses of its clauses. -/
theorem meets_ConfigurationLoads_8 :
    (let s : State := put [(TRIG_CFG.OUT 0, 1)] (bz 5 (fun c => { c with hdr := hdr 0 2 0 1 }) ((fun (g : Sys → Sys) (s : State) => { s with sys := g s.sys }) (fun y => { y with pins := [(0, 1), (9, 2)] }) (put [(GLB_PART_CFG.STATE 0, 1)] base)));
      let p : Nat := s.cfg.part;
      let mode : Nat := s.cfg.mode;
      let busy : Prop := s.f CFG_STAT.BUSY = 1;
      let phase : Nat := s.f CFG_STAT.PHASE;
      let calm : Prop := busy ∧ p < 12 ∧ mode ≠ 2 ∧ s.sys.reloads = [] ∧ s.sys.repair = none ∧ s.cfg.golden = false ∧ s.cfg.boot = 0;
      s.cfgClk = true ∧
      calm ∧
      phase = 5 ∧
      s.f (PWR_PART.CUR p) = 0) := by
  decide +kernel

/-- O53, part 9: states and operands that meet the hypotheses of its clauses. -/
theorem meets_ConfigurationLoads_9 :
    (let s : State := bz 3 (fun c => { c with mode := 1, hdr := hdr 0 2 1 1, staged := [] }) s2;
      let p : Nat := s.cfg.part;
      let mode : Nat := s.cfg.mode;
      let busy : Prop := s.f CFG_STAT.BUSY = 1;
      let phase : Nat := s.f CFG_STAT.PHASE;
      let calm : Prop := busy ∧ p < 12 ∧ mode ≠ 2 ∧ s.sys.reloads = [] ∧ s.sys.repair = none ∧ s.cfg.golden = false ∧ s.cfg.boot = 0;
      let planes : Nat := hPlanes s.cfg.hdr;
      let inUse : Prop := ∃ i ∈ s.islandsOf p, ∃ q < 16, bitOf planes q = true ∧ q ∈ s.planesUsed i;
      s.cfgClk = true ∧
      calm ∧
      phase = 3 ∧
      s.verifyCode = 0 ∧
      mode = 1 ∧
      inUse) := by
  decide +kernel

/-- O53, part 10: states and operands that meet the hypotheses of its clauses. -/
theorem meets_ConfigurationLoads_10 :
    (let s : State := bz 2 (fun c => { c with mode := 1, hdr := hdr 0 2 4 2, buf := recb 12 0x123456789 }) s2;
      let p : Nat := s.cfg.part;
      let mode : Nat := s.cfg.mode;
      let buf : List Byte := s.cfg.buf;
      let busy : Prop := s.f CFG_STAT.BUSY = 1;
      let phase : Nat := s.f CFG_STAT.PHASE;
      let calm : Prop := busy ∧ p < 12 ∧ mode ≠ 2 ∧ s.sys.reloads = [] ∧ s.sys.repair = none ∧ s.cfg.golden = false ∧ s.cfg.boot = 0;
      let r : List Byte := List.take 136 buf;
      s.cfgClk = true ∧
      calm ∧
      s.cfg.src = 0 ∧
      s.cfg.feed = [] ∧
      phase = 2 ∧
      hEnc s.cfg.hdr = false ∧
      s.f CFG_PROG.FDONE < hFrames s.cfg.hdr ∧
      hFrames s.cfg.hdr < 65536 ∧
      136 ≤ buf.length ∧
      s.frameCode r = 0) := by
  decide +kernel

/-- O53, part 11: states and operands that meet the hypotheses of its clauses. -/
theorem meets_ConfigurationLoads_11 :
    (let s : State := bz 3 (fun c => { c with hdr := hdr 0 2 0 1, body := [] }) e0;
      let p : Nat := s.cfg.part;
      let mode : Nat := s.cfg.mode;
      let busy : Prop := s.f CFG_STAT.BUSY = 1;
      let phase : Nat := s.f CFG_STAT.PHASE;
      let calm : Prop := busy ∧ p < 12 ∧ mode ≠ 2 ∧ s.sys.reloads = [] ∧ s.sys.repair = none ∧ s.cfg.golden = false ∧ s.cfg.boot = 0;
      s.cfgClk = true ∧
      calm ∧
      phase = 3 ∧
      s.verifyCode = 0 ∧
      mode ≠ 1) := by
  decide +kernel

/-- O53, part 12: states and operands that meet the hypotheses of its clauses. -/
theorem meets_ConfigurationLoads_12 :
    (let s : State := bz 1 (fun c => { c with src := 1, cspWait := true }) e0;
      let m : BitVec 2 := 0x2#2;
      let good : Prop := m = 1 ∨ m = 2;
      s.cfgClk = true ∧
      s.cfg.cspWait = true ∧
      good) := by
  decide +kernel

/-- O53, part 13: states and operands that meet the hypotheses of its clauses. -/
theorem meets_ConfigurationLoads_13 :
    (let s : State := bz 1 (fun c => { c with buf := (hdr 0 2 0 3).take 250 ++ [1,2,3,4,5,6] }) e0;
      let p : Nat := s.cfg.part;
      let mode : Nat := s.cfg.mode;
      let buf : List Byte := s.cfg.buf;
      let busy : Prop := s.f CFG_STAT.BUSY = 1;
      let phase : Nat := s.f CFG_STAT.PHASE;
      let calm : Prop := busy ∧ p < 12 ∧ mode ≠ 2 ∧ s.sys.reloads = [] ∧ s.sys.repair = none ∧ s.cfg.golden = false ∧ s.cfg.boot = 0;
      let h : List Byte := List.take 256 buf;
      s.cfgClk = true ∧
      calm ∧
      s.cfg.src = 0 ∧
      s.cfg.cspWait = false ∧
      s.cfg.feed = [] ∧
      phase = 1 ∧
      mode < 2 ∧
      256 ≤ buf.length ∧
      hnum h 0 4 = 1213875014 ∧
      hcrcOk h = false) := by
  decide +kernel

/-- O53, part 14: states and operands that meet the hypotheses of its clauses. -/
theorem meets_ConfigurationLoads_14 :
    (let s : State := bz 1 (fun c => { c with src := 1, csLow := true, cspMode := 1, buf := [1,2] }) e0;
      let p : Nat := s.cfg.part;
      let mode : Nat := s.cfg.mode;
      let buf : List Byte := s.cfg.buf;
      let busy : Prop := s.f CFG_STAT.BUSY = 1;
      let phase : Nat := s.f CFG_STAT.PHASE;
      let calm : Prop := busy ∧ p < 12 ∧ mode ≠ 2 ∧ s.sys.reloads = [] ∧ s.sys.repair = none ∧ s.cfg.golden = false ∧ s.cfg.boot = 0;
      let takes : Prop := busy ∧ s.cfg.src = 0 ∧ s.cfg.cspWait = false ∧ s.cfg.boot ≠ 1;
      s.cfgClk = true ∧
      s.fnOpen 0 = true ∧
      busy ∧
      ¬takes ∧
      s.cfg.csLow = true ∧
      (s.cfg.cspMode = 1 ∨ s.cfg.cspMode = 2) ∧
      s.loadFrom 1 = true ∧
      buf.length + 64 ≤ 65536 ∧
      calm ∧
      phase = 1 ∧
      s.cfg.hdr = [] ∧
      buf.length < 256 ∧
      s.loadStarved = true) := by
  decide +kernel

/-- O53, part 15: states and operands that meet the hypotheses of its clauses. -/
theorem meets_ConfigurationLoads_15 :
    (let s : State := cb (fun c => { c with csLow := true, cspMode := 1, low := 16, noted := false }) e0;
      let busy : Prop := s.f CFG_STAT.BUSY = 1;
      s.cfgClk = true ∧
      s.fnOpen 0 = true ∧
      ¬busy ∧
      s.cfg.csLow = true ∧
      (s.cfg.cspMode = 1 ∨ s.cfg.cspMode = 2) ∧
      s.loadFrom 1 = false ∧
      16 ≤ s.cfg.low ∧
      s.cfg.noted = false) := by
  decide +kernel

/-- O53, part 16: states and operands that meet the hypotheses of its clauses. -/
theorem meets_ConfigurationLoads_16 :
    (let s : State := put [(HL_STAT.WIDTH 0, 0)] (cb id e0);
      s.cfgClk = true ∧
      s.fnOpen 0 = false) := by
  decide +kernel

/-- O53, part 17: states and operands that meet the hypotheses of its clauses. -/
theorem meets_ConfigurationLoads_17 :
    (let s : State := bz 1 (fun c => { c with boot := 4, cspWait := false }) e0;
      let mode : Nat := s.cfg.mode;
      let busy : Prop := s.f CFG_STAT.BUSY = 1;
      let phase : Nat := s.f CFG_STAT.PHASE;
      s.cfgClk = true ∧
      busy ∧
      s.cfg.cspWait = false ∧
      s.cfg.boot = 4 ∧
      phase ≤ 2 ∧
      mode ≠ 1) := by
  decide +kernel

/-- O53, part 18: states and operands that meet the hypotheses of its clauses. -/
theorem meets_ConfigurationLoads_18 :
    (let s : State := bz 1 (fun c => { c with src := 4 }) e0;
      let p : Nat := s.cfg.part;
      let mode : Nat := s.cfg.mode;
      let busy : Prop := s.f CFG_STAT.BUSY = 1;
      let phase : Nat := s.f CFG_STAT.PHASE;
      let calm : Prop := busy ∧ p < 12 ∧ mode ≠ 2 ∧ s.sys.reloads = [] ∧ s.sys.repair = none ∧ s.cfg.golden = false ∧ s.cfg.boot = 0;
      s.cfgClk = true ∧
      calm ∧
      s.cfg.src = 4 ∧
      s.cfg.cspWait = false ∧
      phase = 1 ∧
      mode = 0 ∧
      bitOf (s.f CFG_RESVAL.VALID) p = false) := by
  decide +kernel

/-- O53, part 19: states and operands that meet the hypotheses of its clauses. -/
theorem meets_ConfigurationLoads_19 :
    (let s : State := bz 4 (fun c => { c with src := 1, mode := 1, hdr := hdr 4 12 1 0 }) e0;
      let p : Nat := s.cfg.part;
      let mode : Nat := s.cfg.mode;
      let busy : Prop := s.f CFG_STAT.BUSY = 1;
      let phase : Nat := s.f CFG_STAT.PHASE;
      let calm : Prop := busy ∧ p < 12 ∧ mode ≠ 2 ∧ s.sys.reloads = [] ∧ s.sys.repair = none ∧ s.cfg.golden = false ∧ s.cfg.boot = 0;
      s.cfgClk = true ∧
      calm ∧
      phase = 4 ∧
      mode = 1) := by
  decide +kernel

/-- O54: states and operands that meet the hypotheses of its clauses. -/
theorem meets_ScrubReadbackAndPolicyLock :
    (let s : State := dmg 0 5 (sc (fun c => { c with scrubAt := 5 }));
      let up : BitVec 1024 := 0x0000000000000000000000000000000000000000000000000000000000000000000000000000000000000000000000000000000000000000000000000000000000000000000000000000000000000000000000000000000000000000000000000000000000000000000000000000000000000000000000000000000000000000#1024;
      let crc : BitVec 32 := 0x00000000#32;
      let x : Nat := 5;
      let i : Nat := x / 128;
      let k : Nat := x % 128;
      let s1 : State := upsetFrame i k up crc { s with cfg := have __src := s.cfg; { __src with scrubAt := (x + 1) % (156 * 128) } };
      s.cfgClk = true ∧
      s.f CFG_SCRUB.EN = 1 ∧
      s.f CFG_STAT.BUSY = 0 ∧
      s.scrubNext s.cfg.scrubAt = some x ∧
      x < 156 * 128 ∧
      (s1.frame i k).sound = false ∧
      s.slotOn = false) := by
  decide +kernel

/-- O54, part 2: states and operands that meet the hypotheses of its clauses. -/
theorem meets_ScrubReadbackAndPolicyLock_2 :
    (let s : State := sc (fun c => { c with scrubAt := 5 });
      let up : BitVec 1024 := 0x0000000000000000000000000000000000000000000000000000000000000000000000000000000000000000000000000000000000000000000000000000000000000000000000000000000000000000000000000000000000000000000000000000000000000000000000000000000000000000000000000000000000000000#1024;
      let crc : BitVec 32 := 0x00000000#32;
      let x : Nat := 5;
      let i : Nat := x / 128;
      let k : Nat := x % 128;
      let s1 : State := upsetFrame i k up crc { s with cfg := have __src := s.cfg; { __src with scrubAt := (x + 1) % (156 * 128) } };
      s.cfgClk = true ∧
      s.f CFG_SCRUB.EN = 1 ∧
      s.f CFG_STAT.BUSY = 0 ∧
      s.scrubNext s.cfg.scrubAt = some x ∧
      x < 156 * 128 ∧
      (s1.frame i k).sound = true) := by
  decide +kernel

/-- O54, part 3: states and operands that meet the hypotheses of its clauses. -/
theorem meets_ScrubReadbackAndPolicyLock_3 :
    (let s : State := put [(CFG_POLICY.LOCK, 1), (⟨CFG_POLICY, 2, 0⟩, 5)] (sc id);
      s.cfgClk = true ∧
      s.fnOpen 0 = true ∧
      s.f CFG_POLICY.LOCK = 1) := by
  decide +kernel

/-- O54, part 4: states and operands that meet the hypotheses of its clauses. -/
theorem meets_ScrubReadbackAndPolicyLock_4 :
    (let s : State := (let s := put [(CFG_RES.EN, 1), (CFG_RES.BASE, bankBase 0 / 2^27), (CFG_RESVAL.VALID, 1), (RST_STAT.SVC, 2)] (dmg 0 5 (sc (fun c => { c with scrubAt := 5 }))); { s with mem := Memory.puts s.mem (s.slotBase 0 + 256 + s.slotIx 0 0 5 * 136) (frameRecord (CfgFrame.of 5 77)) });
      let up : BitVec 1024 := 5;
      let crc : BitVec 32 := 7;
      let x : Nat := 5;
      let i : Nat := x / 128;
      let k : Nat := x % 128;
      let n : Nat := s.islPart i;
      let s1 : State := upsetFrame i k up crc { s with cfg := have __src := s.cfg; { __src with scrubAt := (x + 1) % (156 * 128) } };
      let f : CfgFrame := CfgFrame.of 5 77;
      let s2 : State := (slotRead n i k s1).2;
      s.cfgClk = true ∧
      s.f CFG_SCRUB.EN = 1 ∧
      s.f CFG_STAT.BUSY = 0 ∧
      s.scrubNext s.cfg.scrubAt = some x ∧
      x < 156 * 128 ∧
      (s1.frame i k).sound = false ∧
      s.slotOn = true ∧
      bitOf (s.f CFG_RESVAL.VALID) n = true ∧
      slotRead n i k s1 = (some f, s2) ∧
      s.fnOpen 0 = true ∧
      s.f CFG_POLICY.LOCK = 0) := by
  decide +kernel

/-- O54, part 5: states and operands that meet the hypotheses of its clauses. -/
theorem meets_ScrubReadbackAndPolicyLock_5 :
    (let s : State := put [(HL_STAT.WIDTH 0, 0)] (sc id);
      s.cfgClk = true ∧
      s.fnOpen 0 = false) := by
  decide +kernel

/-- O55: states and operands that meet the hypotheses of its clauses. -/
theorem meets_HostLinkAndCxlPorts :
    (let s : State := onSys (fun y => { y with trained := false }) hb;
      let flit : Bool := true;
      let w : BitVec 5 := 0x04#5;
      let v : BitVec 3 := 0x6#3;
      let good : Prop := s.f CLK_STAB1.HL = 1 ∧ s.sys.perstLow = false ∧ linkMode flit w.toNat v.toNat = true;
      good) ∧
    (let p : Fin 2 := 0;
      let s : State := onSys (fun y => { y with trained := false }) hb;
      let w : BitVec 5 := 0x04#5;
      let good : Prop := s.f (CLK_STAB1.CXL.bit (↑p : Nat)) = 1 ∧ (w = 4 ∨ w = 8 ∨ w = 16);
      good) := by
  decide +kernel

/-- O55, part 2: states and operands that meet the hypotheses of its clauses. -/
theorem meets_HostLinkAndCxlPorts_2 :
    (let f : Fin 13 := 2;
      let off : BitVec 36 := 0x4c5a660ea#36;
      let s : State := base;
      let ours : Prop := s.fnOpen (↑f : Nat) = true ∧ ((↑f : Nat) = 0 ∨ off.toNat < 2 ^ 34);
      ¬ours) ∧
    (let f : Fin 13 := 6;
      let off : BitVec 36 := 0xec1fb5ef1#36;
      let s : State := base;
      let ours : Prop := s.fnOpen (↑f : Nat) = true ∧ ((↑f : Nat) = 0 ∨ off.toNat < 2 ^ 34);
      ¬ours) ∧
    (let s : State := base;
      s.sys.trained = false) ∧
    (let p : Fin 2 := 0;
      let s : State := base;
      s.f (CXP_PSTAT.UP (↑p : Nat)) = 0) := by
  decide +kernel

/-- O55, part 3: states and operands that meet the hypotheses of its clauses. -/
theorem meets_HostLinkAndCxlPorts_3 :
    (let s : State := put [(HL_STAT.D3 0, 1), (HL_AP.BASE 0, 3)] { hb with msixPend := [msixIx 0 5, msixIx 0 7], msixOn := [msixIx 0 5] };
      s.f CLK_STAB1.CXL ≠ 0 ∧
      s.fnOpen 0 = false) ∧
    (let s : State := put [(HL_STAT.D3 0, 1), (HL_AP.BASE 0, 3)] { hb with msixPend := [msixIx 0 5, msixIx 0 7], msixOn := [msixIx 0 5] };
      s.f CLK_STAB1.CXL ≠ 0 ∧
      s.fnOpen 0 = false) := by
  decide +kernel

/-- O55, part 4: states and operands that meet the hypotheses of its clauses. -/
theorem meets_HostLinkAndCxlPorts_4 :
    (let f : Fin 13 := 0;
      let off : BitVec 36 := 0x000000100#36;
      let size : Fin 9 := 1;
      let s : State := put [(FE_GSTAT.EARLYBUF, 0), (HL_APERR.VALID, 1), (HL_APERR.FUNC, 3), (HL_APERR.WRITE, 1)] hb;
      let ours : Prop := s.fnOpen (↑f : Nat) = true ∧ ((↑f : Nat) = 0 ∨ off.toNat < 2 ^ 34);
      ours ∧
      (((pieces off.toNat (↑size : Nat)).any fun (p : Nat × Nat × Nat) => s.apUnmapped (↑f : Nat) p.1) = true)) ∧
    (let f : Fin 13 := 0;
      let off : BitVec 36 := 0x000000100#36;
      let size : Fin 9 := 1;
      let s : State := put [(FE_GSTAT.EARLYBUF, 0), (HL_APERR.VALID, 1), (HL_APERR.FUNC, 3), (HL_APERR.WRITE, 1)] hb;
      let ours : Prop := s.fnOpen (↑f : Nat) = true ∧ ((↑f : Nat) = 0 ∨ off.toNat < 2 ^ 34);
      ours ∧
      (((pieces off.toNat (↑size : Nat)).any fun (p : Nat × Nat × Nat) => s.apUnmapped (↑f : Nat) p.1) = true)) ∧
    (let f : Fin 13 := 0;
      let vec : BitVec 11 := 0x003#11;
      (vec.toNat < if (↑f : Nat) = 0 then 512 else 128)) ∧
    (let f : Fin 13 := 0;
      let vec : BitVec 11 := 0x001#11;
      (vec.toNat < if (↑f : Nat) = 0 then 512 else 128)) ∧
    (True) ∧
    (let s : State := put [(FE_GSTAT.EARLYBUF, 0), (HL_APERR.VALID, 1), (HL_APERR.FUNC, 3), (HL_APERR.WRITE, 1)] hb;
      let live : Prop := s.sys.stage ≠ 0 ∧ s.sys.trip = false ∧ (s.f RST_STAT.SVC = 1 ∨ s.f RST_STAT.SVC = 2);
      let flit : Bool := false;
      let w : BitVec 5 := 0x1c#5;
      let v : BitVec 3 := 0x0#3;
      let good : Prop := s.f CLK_STAB1.HL = 1 ∧ s.sys.perstLow = false ∧ linkMode flit w.toNat v.toNat = true;
      s.sys.trained = true ∧
      live ∧
      s.sys.perstLow = false ∧
      ¬good) ∧
    (let s : State := put [(FE_GSTAT.EARLYBUF, 0), (HL_APERR.VALID, 1), (HL_APERR.FUNC, 3), (HL_APERR.WRITE, 1)] hb;
      s.f CLK_STAB1.CXL ≠ 0 ∧
      s.fnOpen 0 = true) ∧
    (let s : State := put [(FE_GSTAT.EARLYBUF, 0), (HL_APERR.VALID, 1), (HL_APERR.FUNC, 3), (HL_APERR.WRITE, 1)] hb;
      s.f CLK_STAB1.CXL ≠ 0 ∧
      s.f CXP_LOCK.LOCK = 0 ∧
      s.fnOpen 0 = true) ∧
    (let p : Fin 2 := 0;
      let s : State := put [(FE_GSTAT.EARLYBUF, 0), (HL_APERR.VALID, 1), (HL_APERR.FUNC, 3), (HL_APERR.WRITE, 1)] hb;
      let w : BitVec 5 := 0x09#5;
      let good : Prop := s.f (CLK_STAB1.CXL.bit (↑p : Nat)) = 1 ∧ (w = 4 ∨ w = 8 ∨ w = 16);
      ¬good ∧
      s.f (CXP_PSTAT.UP (↑p : Nat)) = 1 ∧
      (s.modRung < 2 ∨ s.f (CXP_PSTAT.UP (↑p : Nat)) = 0)) ∧
    (let p : Fin 2 := 1;
      let s : State := put [(FE_GSTAT.EARLYBUF, 0), (HL_APERR.VALID, 1), (HL_APERR.FUNC, 3), (HL_APERR.WRITE, 1)] hb;
      s.f (CXP_PSTAT.UP (↑p : Nat)) = 0) ∧
    (let s : State := put [(FE_GSTAT.EARLYBUF, 0), (HL_APERR.VALID, 1), (HL_APERR.FUNC, 3), (HL_APERR.WRITE, 1)] hb;
      let dev : Fin 8 := 3;
      s.f (CXP_DEV.PRESENT (↑dev : Nat)) = 0) := by
  decide +kernel

/-- O55, part 5: states and operands that meet the hypotheses of its clauses. -/
theorem meets_HostLinkAndCxlPorts_5 :
    (let f : Fin 13 := 0;
      let off : BitVec 36 := 0x000000100#36;
      let size : Fin 9 := 4;
      let s : State := onSys (fun y => { y with trained := false }) hb;
      let a : Nat := cxlBase + (s.f (HL_AP.BASE (↑f : Nat)) * 2 ^ 30 + off.toNat);
      let ours : Prop := s.fnOpen (↑f : Nat) = true ∧ ((↑f : Nat) = 0 ∨ off.toNat < 2 ^ 34);
      let early : Prop := (↑f : Nat) = 0 ∧ s.f FE_GSTAT.EARLYBUF = 1 ∧ s.feClk = true ∧ a + (↑size : Nat) ≤ cxlBase + 4194304;
      ours ∧
      early ∧
      MemOk s ∧
      (∀ k < (↑size : Nat), s.ecc (a + k) ≠ 2)) ∧
    (let f : Fin 13 := 0;
      let off : BitVec 36 := 0x000000100#36;
      let size : Fin 9 := 4;
      let s : State := onSys (fun y => { y with trained := false }) hb;
      let a : Nat := cxlBase + (s.f (HL_AP.BASE (↑f : Nat)) * 2 ^ 30 + off.toNat);
      let ours : Prop := s.fnOpen (↑f : Nat) = true ∧ ((↑f : Nat) = 0 ∨ off.toNat < 2 ^ 34);
      let early : Prop := (↑f : Nat) = 0 ∧ s.f FE_GSTAT.EARLYBUF = 1 ∧ s.feClk = true ∧ a + (↑size : Nat) ≤ cxlBase + 4194304;
      ours ∧
      early ∧
      MemOk s) := by
  repeat' first | decide +kernel | apply memOk_of | apply ready_of | apply executes_of | apply cplReady_of | apply nearBlock_of | constructor

/-- O55, part 6: states and operands that meet the hypotheses of its clauses. -/
theorem meets_HostLinkAndCxlPorts_6 :
    (let p : Fin 2 := 0;
      let s : State := put [(PWR_PART.CUR 0, 2)] hb;
      2 ≤ s.modRung ∧
      s.f (CXP_PSTAT.UP (↑p : Nat)) = 1) := by
  decide +kernel

/-- O55, part 7: states and operands that meet the hypotheses of its clauses. -/
theorem meets_HostLinkAndCxlPorts_7 :
    (let s : State := put [(CXP_HDM1.SIZE 0, 5)] (hd hb);
      let dev : Fin 8 := 0;
      s.f (CXP_DEV.PRESENT (↑dev : Nat)) = 1) := by
  decide +kernel

/-- O55, part 8: states and operands that meet the hypotheses of its clauses. -/
theorem meets_HostLinkAndCxlPorts_8 :
    (let s : State := put [(CXP_LOCK.LOCK, 1)] (hd hb);
      s.f CLK_STAB1.CXL ≠ 0 ∧
      s.f CXP_LOCK.LOCK = 1 ∧
      s.fnOpen 0 = true) := by
  decide +kernel

/-- O56: states and operands that meet the hypotheses of its clauses. -/
theorem meets_RingFramesAreForwardedAndDelivered :
    (let r : Fin 2 := 0;
      let f : RingFrame := frameClosed frSYNC (rf3 9 5 1 1000 false);
      let trip : BitVec 32 := 40;
      let s : State := State.reset;
      let plain : List (Nat × Instr) := [(frSYNC, Instr.syncFrame r f), (frSTART, Instr.startFrame r f), (frSTOP, Instr.stopFrame r f), (frGFAIL, Instr.gfailFrame r f), (frDECIDE, Instr.decideFrame r f), (frFSUM, Instr.fsumFrame r f), (frMBOX, Instr.mboxFrame r f), (frLEAVE, Instr.leaveFrame r f)];
      let all : List (Nat × Instr) := plain ++ [(frTIME, Instr.timeFrame r f), (frJOIN, Instr.joinFrame r f), (frCLAIM, Instr.claimFrame r f), (frPROBE, Instr.probeFrame r f trip)];
      let live : Prop := s.trimmed = true;
      let isOpen : Prop := s.ring.isOpen (↑r : Nat) = true;
      let x : Nat × Instr := (frSYNC, Instr.syncFrame 0 (frameClosed frSYNC (rf3 9 5 1 1000 false)));
      ¬live ∧
      ¬isOpen ∧
      x ∈ all) := by
  decide +kernel

/-- O56, part 2: states and operands that meet the hypotheses of its clauses. -/
theorem meets_RingFramesAreForwardedAndDelivered_2 :
    (let r : Fin 2 := 0;
      let f : RingFrame := frameClosed frSYNC (rf3 9 5 1 1000 false);
      let trip : BitVec 32 := 40;
      let s : State := rg (fun r => { r with open0 := true }) State.reset;
      let plain : List (Nat × Instr) := [(frSYNC, Instr.syncFrame r f), (frSTART, Instr.startFrame r f), (frSTOP, Instr.stopFrame r f), (frGFAIL, Instr.gfailFrame r f), (frDECIDE, Instr.decideFrame r f), (frFSUM, Instr.fsumFrame r f), (frMBOX, Instr.mboxFrame r f), (frLEAVE, Instr.leaveFrame r f)];
      let all : List (Nat × Instr) := plain ++ [(frTIME, Instr.timeFrame r f), (frJOIN, Instr.joinFrame r f), (frCLAIM, Instr.claimFrame r f), (frPROBE, Instr.probeFrame r f trip)];
      let live : Prop := s.trimmed = true;
      let isOpen : Prop := s.ring.isOpen (↑r : Nat) = true;
      let x : Nat × Instr := (frSYNC, Instr.syncFrame 0 (frameClosed frSYNC (rf3 9 5 1 1000 false)));
      ¬live ∧
      isOpen ∧
      x ∈ all) := by
  decide +kernel

/-- O56, part 3: states and operands that meet the hypotheses of its clauses. -/
theorem meets_RingFramesAreForwardedAndDelivered_3 :
    (let r : Fin 2 := 0;
      let f : RingFrame := frameClosed frSYNC (rf3 9 5 1 1000 false);
      let trip : BitVec 32 := 40;
      let s : State := rg (fun r => { r with open0 := false, line0 := RingLine.fresh }) rb;
      let plain : List (Nat × Instr) := [(frSYNC, Instr.syncFrame r f), (frSTART, Instr.startFrame r f), (frSTOP, Instr.stopFrame r f), (frGFAIL, Instr.gfailFrame r f), (frDECIDE, Instr.decideFrame r f), (frFSUM, Instr.fsumFrame r f), (frMBOX, Instr.mboxFrame r f), (frLEAVE, Instr.leaveFrame r f)];
      let all : List (Nat × Instr) := plain ++ [(frTIME, Instr.timeFrame r f), (frJOIN, Instr.joinFrame r f), (frCLAIM, Instr.claimFrame r f), (frPROBE, Instr.probeFrame r f trip)];
      let live : Prop := s.trimmed = true;
      let isOpen : Prop := s.ring.isOpen (↑r : Nat) = true;
      let line : RingLine := s.ring.line (↑r : Nat);
      let x : Nat × Instr := (frSYNC, Instr.syncFrame 0 (frameClosed frSYNC (rf3 9 5 1 1000 false)));
      live ∧
      ¬isOpen ∧
      x ∈ all ∧
      line.lock = false) := by
  decide +kernel

/-- O56, part 4: states and operands that meet the hypotheses of its clauses. -/
theorem meets_RingFramesAreForwardedAndDelivered_4 :
    (let r : Fin 2 := 0;
      let f : RingFrame := frameClosed frSYNC (rf3 9 5 1 1000 false);
      let trip : BitVec 32 := 40;
      let s : State := rg (fun r => { r with open0 := false }) rb;
      let plain : List (Nat × Instr) := [(frSYNC, Instr.syncFrame r f), (frSTART, Instr.startFrame r f), (frSTOP, Instr.stopFrame r f), (frGFAIL, Instr.gfailFrame r f), (frDECIDE, Instr.decideFrame r f), (frFSUM, Instr.fsumFrame r f), (frMBOX, Instr.mboxFrame r f), (frLEAVE, Instr.leaveFrame r f)];
      let all : List (Nat × Instr) := plain ++ [(frTIME, Instr.timeFrame r f), (frJOIN, Instr.joinFrame r f), (frCLAIM, Instr.claimFrame r f), (frPROBE, Instr.probeFrame r f trip)];
      let live : Prop := s.trimmed = true;
      let isOpen : Prop := s.ring.isOpen (↑r : Nat) = true;
      let line : RingLine := s.ring.line (↑r : Nat);
      let x : Nat × Instr := (frSYNC, Instr.syncFrame 0 (frameClosed frSYNC (rf3 9 5 1 1000 false)));
      live ∧
      ¬isOpen ∧
      x ∈ all ∧
      line.lock = true) := by
  decide +kernel

/-- O56, part 5: states and operands that meet the hypotheses of its clauses. -/
theorem meets_RingFramesAreForwardedAndDelivered_5 :
    (let r : Fin 2 := 0;
      let f : RingFrame := frameClosed frSYNC (rf3 9 5 1 1000 false);
      let trip : BitVec 32 := 40;
      let s : State := rg (fun r => { r with line0 := RingLine.fresh }) rb;
      let plain : List (Nat × Instr) := [(frSYNC, Instr.syncFrame r f), (frSTART, Instr.startFrame r f), (frSTOP, Instr.stopFrame r f), (frGFAIL, Instr.gfailFrame r f), (frDECIDE, Instr.decideFrame r f), (frFSUM, Instr.fsumFrame r f), (frMBOX, Instr.mboxFrame r f), (frLEAVE, Instr.leaveFrame r f)];
      let all : List (Nat × Instr) := plain ++ [(frTIME, Instr.timeFrame r f), (frJOIN, Instr.joinFrame r f), (frCLAIM, Instr.claimFrame r f), (frPROBE, Instr.probeFrame r f trip)];
      let live : Prop := s.trimmed = true;
      let isOpen : Prop := s.ring.isOpen (↑r : Nat) = true;
      let line : RingLine := s.ring.line (↑r : Nat);
      let x : Nat × Instr := (frSYNC, Instr.syncFrame 0 (frameClosed frSYNC (rf3 9 5 1 1000 false)));
      live ∧
      isOpen ∧
      line.lock = false ∧
      x ∈ all) := by
  decide +kernel

/-- O56, part 6: states and operands that meet the hypotheses of its clauses. -/
theorem meets_RingFramesAreForwardedAndDelivered_6 :
    (let r : Fin 2 := 0;
      let f : RingFrame := rf3 9 5 1 1000 false;
      let trip : BitVec 32 := 40;
      let s : State := put [(RING_CNT.CRCERR, 65535)] rb;
      let plain : List (Nat × Instr) := [(frSYNC, Instr.syncFrame r f), (frSTART, Instr.startFrame r f), (frSTOP, Instr.stopFrame r f), (frGFAIL, Instr.gfailFrame r f), (frDECIDE, Instr.decideFrame r f), (frFSUM, Instr.fsumFrame r f), (frMBOX, Instr.mboxFrame r f), (frLEAVE, Instr.leaveFrame r f)];
      let all : List (Nat × Instr) := plain ++ [(frTIME, Instr.timeFrame r f), (frJOIN, Instr.joinFrame r f), (frCLAIM, Instr.claimFrame r f), (frPROBE, Instr.probeFrame r f trip)];
      let live : Prop := s.trimmed = true;
      let isOpen : Prop := s.ring.isOpen (↑r : Nat) = true;
      let line : RingLine := s.ring.line (↑r : Nat);
      let takes : Prop := live ∧ isOpen ∧ line.lock = true;
      let x : Nat × Instr := (frMBOX, Instr.mboxFrame 0 (rf3 9 5 1 1000 false));
      takes ∧
      x ∈ all ∧
      frameOk x.1 f = false) := by
  decide +kernel

/-- O56, part 7: states and operands that meet the hypotheses of its clauses. -/
theorem meets_RingFramesAreForwardedAndDelivered_7 :
    (let r : Fin 2 := 0;
      let f : RingFrame := frameClosed frTIME (rf3 5 5 1 1000 false);
      let s : State := rb;
      let id : Nat := s.nodeId;
      let plain : List (Nat × Instr) := [(frSYNC, Instr.syncFrame r f), (frSTART, Instr.startFrame r f), (frSTOP, Instr.stopFrame r f), (frGFAIL, Instr.gfailFrame r f), (frDECIDE, Instr.decideFrame r f), (frFSUM, Instr.fsumFrame r f), (frMBOX, Instr.mboxFrame r f), (frLEAVE, Instr.leaveFrame r f)];
      let live : Prop := s.trimmed = true;
      let isOpen : Prop := s.ring.isOpen (↑r : Nat) = true;
      let line : RingLine := s.ring.line (↑r : Nat);
      let takes : Prop := live ∧ isOpen ∧ line.lock = true;
      let x : Nat × Instr := (frTIME, Instr.timeFrame 0 (frameClosed frTIME (rf3 5 5 1 1000 false)));
      takes ∧
      (f.src.toNat = id ∨ 63 ≤ f.hop.toNat) ∧
      x ∈ (frTIME, Instr.timeFrame r f) :: plain ∧
      frameOk x.1 f = true ∧
      (x.1 = frLEAVE → f.src.toNat = id → s.ring.step ≠ 6)) := by
  decide +kernel

/-- O56, part 8: states and operands that meet the hypotheses of its clauses. -/
theorem meets_RingFramesAreForwardedAndDelivered_8 :
    (let r : Fin 2 := 0;
      let f : RingFrame := frameClosed frTIME (rf3 9 0 100 1000 true);
      let s : State := rb;
      let id : Nat := s.nodeId;
      let live : Prop := s.trimmed = true;
      let isOpen : Prop := s.ring.isOpen (↑r : Nat) = true;
      let line : RingLine := s.ring.line (↑r : Nat);
      let takes : Prop := live ∧ isOpen ∧ line.lock = true;
      let foreign : Prop := f.src.toNat ≠ id ∧ f.hop.toNat < 63;
      takes ∧
      foreign ∧
      frameOk frTIME f = true) := by
  decide +kernel

/-- O56, part 9: states and operands that meet the hypotheses of its clauses. -/
theorem meets_RingFramesAreForwardedAndDelivered_9 :
    (let r : Fin 2 := 0;
      let f : RingFrame := frameClosed frJOIN (rf3 5 0 77 1000 true);
      let s : State := rb;
      let id : Nat := s.nodeId;
      let live : Prop := s.trimmed = true;
      let isOpen : Prop := s.ring.isOpen (↑r : Nat) = true;
      let line : RingLine := s.ring.line (↑r : Nat);
      let takes : Prop := live ∧ isOpen ∧ line.lock = true;
      takes ∧
      frameOk frJOIN f = true ∧
      s.f RING_STAT.JOINED = 1 ∧
      f.src.toNat = id ∧
      BitVec.toNat f.pay % 2 ^ 32 ≠ BitVec.toNat s.ring.nonce % 2 ^ 32) := by
  decide +kernel

/-- O56, part 10: states and operands that meet the hypotheses of its clauses. -/
theorem meets_RingFramesAreForwardedAndDelivered_10 :
    (let r : Fin 2 := 0;
      let f : RingFrame := frameClosed frJOIN (rf3 9 0 77 1000 true);
      let s : State := rb;
      let id : Nat := s.nodeId;
      let live : Prop := s.trimmed = true;
      let isOpen : Prop := s.ring.isOpen (↑r : Nat) = true;
      let line : RingLine := s.ring.line (↑r : Nat);
      let takes : Prop := live ∧ isOpen ∧ line.lock = true;
      let foreign : Prop := f.src.toNat ≠ id ∧ f.hop.toNat < 63;
      takes ∧
      frameOk frJOIN f = true ∧
      foreign) := by
  decide +kernel

/-- O56, part 11: states and operands that meet the hypotheses of its clauses. -/
theorem meets_RingFramesAreForwardedAndDelivered_11 :
    (let r : Fin 2 := 0;
      let f : RingFrame := frameClosed frCLAIM (rf3 9 5 77 1000 false);
      let s : State := put [(RING_STAT.JOINED, 0)] (rg (fun r => { r with step := 3, nonce := 77, open1 := false }) rb);
      let id : Nat := s.nodeId;
      let live : Prop := s.trimmed = true;
      let isOpen : Prop := s.ring.isOpen (↑r : Nat) = true;
      let line : RingLine := s.ring.line (↑r : Nat);
      let takes : Prop := live ∧ isOpen ∧ line.lock = true;
      takes ∧
      frameOk frCLAIM f = true ∧
      s.ring.step = 3 ∧
      f.dst.toNat = id ∧
      BitVec.toNat f.pay % 2 ^ 32 = BitVec.toNat s.ring.nonce % 2 ^ 32) := by
  decide +kernel

/-- O56, part 12: states and operands that meet the hypotheses of its clauses. -/
theorem meets_RingFramesAreForwardedAndDelivered_12 :
    (let r : Fin 2 := 0;
      let f : RingFrame := frameClosed frCLAIM (rf3 9 6 77 1000 false);
      let s : State := rb;
      let id : Nat := s.nodeId;
      let live : Prop := s.trimmed = true;
      let isOpen : Prop := s.ring.isOpen (↑r : Nat) = true;
      let line : RingLine := s.ring.line (↑r : Nat);
      let takes : Prop := live ∧ isOpen ∧ line.lock = true;
      let foreign : Prop := f.src.toNat ≠ id ∧ f.hop.toNat < 63;
      takes ∧
      frameOk frCLAIM f = true ∧
      foreign ∧
      (¬(s.ring.step = 3 ∧ f.dst.toNat = id ∧ BitVec.toNat f.pay % 2 ^ 32 = BitVec.toNat s.ring.nonce % 2 ^ 32))) := by
  decide +kernel

/-- O56, part 13: states and operands that meet the hypotheses of its clauses. -/
theorem meets_RingFramesAreForwardedAndDelivered_13 :
    (let r : Fin 2 := 0;
      let f : RingFrame := frameClosed frPROBE (rf3 9 0 0 1000 false);
      let s : State := rb;
      let live : Prop := s.trimmed = true;
      let isOpen : Prop := s.ring.isOpen (↑r : Nat) = true;
      let line : RingLine := s.ring.line (↑r : Nat);
      let takes : Prop := live ∧ isOpen ∧ line.lock = true;
      takes ∧
      frameOk frPROBE f = true ∧
      BitVec.getLsbD f.pay 0 = false) := by
  decide +kernel

/-- O56, part 14: states and operands that meet the hypotheses of its clauses. -/
theorem meets_RingFramesAreForwardedAndDelivered_14 :
    (let r : Fin 2 := 0;
      let f : RingFrame := frameClosed frPROBE (rf3 9 0 1 1000 false);
      let s : State := put [(RING_STAT.JOINED, 0)] (rg (fun r => { r with step := 5, nonce := 77, echo := [0] }) rb);
      let live : Prop := s.trimmed = true;
      let isOpen : Prop := s.ring.isOpen (↑r : Nat) = true;
      let line : RingLine := s.ring.line (↑r : Nat);
      let takes : Prop := live ∧ isOpen ∧ line.lock = true;
      takes ∧
      frameOk frPROBE f = true ∧
      BitVec.getLsbD f.pay 0 = true ∧
      s.ring.echo.contains (↑r : Nat) = true) := by
  decide +kernel

/-- O56, part 15: states and operands that meet the hypotheses of its clauses. -/
theorem meets_RingFramesAreForwardedAndDelivered_15 :
    (let r : Fin 2 := 0;
      let f : RingFrame := frameClosed frSYNC (rf3 9 5 1 1000 false);
      let s : State := rg (fun r => { r with due := [(frSYNC, rf3 9 0 1 2000000 true), (frSTART, rf3 9 0 0x201 900 true)] }) (rt2 rb);
      let id : Nat := s.nodeId;
      let now : Nat := BitVec.toNat (s.rd RING_TIME);
      let plain : List (Nat × Instr) := [(frSYNC, Instr.syncFrame r f), (frSTART, Instr.startFrame r f), (frSTOP, Instr.stopFrame r f), (frGFAIL, Instr.gfailFrame r f), (frDECIDE, Instr.decideFrame r f), (frFSUM, Instr.fsumFrame r f), (frMBOX, Instr.mboxFrame r f), (frLEAVE, Instr.leaveFrame r f)];
      let live : Prop := s.trimmed = true;
      let isOpen : Prop := s.ring.isOpen (↑r : Nat) = true;
      let line : RingLine := s.ring.line (↑r : Nat);
      let takes : Prop := live ∧ isOpen ∧ line.lock = true;
      let foreign : Prop := f.src.toNat ≠ id ∧ f.hop.toNat < 63;
      let x : Nat × Instr := (frSYNC, Instr.syncFrame 0 (frameClosed frSYNC (rf3 9 5 1 1000 false)));
      let a : List (Nat × RingFrame) := [(frSYNC, rf3 9 0 1 2000000 true)];
      let b : List (Nat × RingFrame) := [];
      let e : Nat × RingFrame := (frSTART, rf3 9 0 0x201 900 true);
      takes ∧
      foreign ∧
      x ∈ plain ∧
      frameOk x.1 f = true ∧
      live ∧
      s.ring.due = a ++ e :: b ∧
      (∀ x ∈ a, now < BitVec.toNat x.2.ts) ∧
      BitVec.toNat e.2.ts ≤ now) := by
  decide +kernel

/-- O57: states and operands that meet the hypotheses of its clauses. -/
theorem meets_RingSendsJoinsAndTriggers :
    (let s : State := ((sts16 : List State)).getD 0 base;
      let joined : Prop := s.f RING_STAT.JOINED = 1;
      let frees : Prop := s.trimmed = true ∧ s.modRung ≠ 3;
      let r : Fin 2 := 1;
      let up : RF := if (↑r : Nat) = 0 then RING_STAT.R0UP else RING_STAT.R1UP;
      let k : Fin 8 := 0;
      let mode : Nat := s.f (TRIG_CFG.IMODE (↑k : Nat));
      let leveled : Prop := mode = 4 ∨ mode = 5;
      let live : Prop := s.trimmed = true;
      let held : Prop := live ∧ (mode = 4 ∧ s.f (TRIG_STAT.IN (↑k : Nat)) = 1 ∨ mode = 5 ∧ s.f (TRIG_STAT.IN (↑k : Nat)) = 0) ∧ s.f (TRIG_STAT.MASKED (↑k : Nat)) = 0;
      ¬joined ∧
      s.ring.step = 0 ∧
      frees ∧
      s.f up = 0 ∧
      s.ring.shown = false ∧
      live ∧
      ¬leveled ∧
      ¬held) ∧
    (let s : State := ((sts16 : List State)).getD 0 base;
      let r : Fin 16 := 4;
      (List.find? (fun (y : Nat × Nat) => y.1 == (↑r : Nat) && decide (y.2 < 256)) s.ring.level = none)) := by
  decide +kernel

/-- O57, part 2: states and operands that meet the hypotheses of its clauses. -/
theorem meets_RingSendsJoinsAndTriggers_2 :
    (let s : State := ((sts16 : List State)).getD 32 base;
      let joined : Prop := s.f RING_STAT.JOINED = 1;
      let frees : Prop := s.trimmed = true ∧ s.modRung ≠ 3;
      let r : Fin 2 := 0;
      let k : Fin 8 := 0;
      let mode : Nat := s.f (TRIG_CFG.IMODE (↑k : Nat));
      let leveled : Prop := mode = 4 ∨ mode = 5;
      let live : Prop := s.trimmed = true;
      let held : Prop := live ∧ (mode = 4 ∧ s.f (TRIG_STAT.IN (↑k : Nat)) = 1 ∨ mode = 5 ∧ s.f (TRIG_STAT.IN (↑k : Nat)) = 0) ∧ s.f (TRIG_STAT.MASKED (↑k : Nat)) = 0;
      joined ∧
      s.ring.isOpen (↑r : Nat) = true ∧
      (joined ∨ s.ring.step ≠ 0 ∨ ¬frees) ∧
      live ∧
      leveled ∧
      held) := by
  decide +kernel

/-- O57, part 3: states and operands that meet the hypotheses of its clauses. -/
theorem meets_RingSendsJoinsAndTriggers_3 :
    (let s : State := ((sts16 : List State)).getD 2 base;
      let joined : Prop := s.f RING_STAT.JOINED = 1;
      let id : Nat := s.nodeId;
      joined ∧
      s.f RING_CTL.TMASTER = 1 ∧
      (∀ (m : Nat), s.ring.master = some m → id ≤ m)) := by
  decide +kernel

/-- O57, part 4: states and operands that meet the hypotheses of its clauses. -/
theorem meets_RingSendsJoinsAndTriggers_4 :
    (let s : State := ((sts16 : List State)).getD 6 base;
      let r : Fin 2 := 0;
      let up : RF := if (↑r : Nat) = 0 then RING_STAT.R0UP else RING_STAT.R1UP;
      s.f up = 1) := by
  decide +kernel

/-- O57, part 5: states and operands that meet the hypotheses of its clauses. -/
theorem meets_RingSendsJoinsAndTriggers_5 :
    (let s : State := ((sts16 : List State)).getD 37 base;
      let r : Fin 16 := 0;
      let ev : Nat := 5;
      ev < 256 ∧
      (List.find? (fun (y : Nat × Nat) => y.1 == (↑r : Nat) && decide (y.2 < 256)) s.ring.level = some ((↑r : Nat), ev))) := by
  decide +kernel

/-- O57, part 6: states and operands that meet the hypotheses of its clauses. -/
theorem meets_RingSendsJoinsAndTriggers_6 :
    (let s : State := ((sts16 : List State)).getD 16 base;
      let e : RxEntry := { fsum := true, src := 1, pay := 0x0000000000000005#64 };
      let rest : List RxEntry := [{ fsum := false, src := 2, pay := 0x0000000000000006#64 }];
      s.ring.shown = true ∧
      s.ring.rx = e :: rest) := by
  decide +kernel

/-- O57, part 7: states and operands that meet the hypotheses of its clauses. -/
theorem meets_RingSendsJoinsAndTriggers_7 :
    (let s : State := rg (fun r => { r with step := 6, leaving := [0, 1] }) rb;
      let id : Nat := s.nodeId;
      let r : Fin 2 := 0;
      let f : RingFrame := frameClosed frLEAVE (rf3 5 0 0 1000 true);
      s.ringTakes (↑r : Nat) frLEAVE f = true ∧
      f.src.toNat = id ∧
      s.ring.step = 6) := by
  decide +kernel

/-- O57, part 8: states and operands that meet the hypotheses of its clauses. -/
theorem meets_RingSendsJoinsAndTriggers_8 :
    (let s : State := State.reset;
      let live : Prop := s.trimmed = true;
      ¬live) := by
  decide +kernel

/-- O57, part 9: states and operands that meet the hypotheses of its clauses. -/
theorem meets_RingSendsJoinsAndTriggers_9 :
    (let s : State := rg (fun r => { r with calm := [(0, 5)], up := 5000 }) rb;
      let k : Fin 8 := 0;
      let c : Nat := 5;
      s.ring.calm.find (↑k : Nat) = some c ∧
      s.pinOut (↑k : Nat) = s.ring.drove.getD (↑k : Nat) 2 ∧
      c + 1000 ≤ s.ring.up) := by
  decide +kernel

/-- O57, part 10: states and operands that meet the hypotheses of its clauses. -/
theorem meets_RingSendsJoinsAndTriggers_10 :
    (let s : State := rg (fun r => { r with calm := [(0, 5)], up := 100 }) rb;
      let k : Fin 8 := 0;
      let c : Nat := 5;
      s.ring.calm.find (↑k : Nat) = some c ∧
      s.pinOut (↑k : Nat) = s.ring.drove.getD (↑k : Nat) 2 ∧
      s.ring.up < c + 1000) := by
  decide +kernel

/-- O58: states and operands that meet the hypotheses of its clauses. -/
theorem meets_ResetsAndStartUp :
    (let s : State := up (put [(RST_STAT.SVC, 0)] base);
      let before : Prop := s.sys.stage ≠ 0 ∧ s.sys.trip = false ∧ s.f RST_STAT.SVC = 0;
      let n : Fin 12 := 0;
      s.fnOpen 0 = true ∧
      before ∧
      s.enabled (↑n : Nat) = true ∧
      s.sys.repair = none ∧
      s.loadNames (↑n : Nat) = false ∧
      (s.sys.stage = 3 ∧ s.f RST_STAT.SVC = 0)) := by
  decide +kernel

/-- O58, part 2: states and operands that meet the hypotheses of its clauses. -/
theorem meets_ResetsAndStartUp_2 :
    (let s : State := put [(RST_CAUSE.COLDSRC, 2)] State.reset;
      let stuck : Prop := s.sys.stage = 0 ∨ s.sys.trip = true ∨ s.f RST_STAT.SVC = 3;
      let n : Fin 12 := 2;
      let d : Fin 244 := 19;
      let held : Prop := s.sys.coldLow = true ∨ s.sys.warmLow = true ∨ s.sys.perstLow = true ∧ s.sys.trained = true;
      let free : Prop := (↑d : Nat) ∈ s.sys.rel ∧ ¬held ∧ s.partDown (s.domainPart (↑d : Nat)) = false;
      let due : Prop := s.sys.stage = 1 ∧ s.sys.coldLow = false ∧ s.sys.warmLow = false ∧ s.sys.trip = false ∧ s.f RST_STAT.SVC ≠ 3;
      s.sys.vin = false ∧
      s.fnOpen 0 = false ∧
      stuck ∧
      s.sys.warmLow = false ∧
      s.sys.coldLow = false ∧
      s.enabled (↑n : Nat) = false ∧
      ¬free ∧
      ¬due ∧
      (¬(s.sys.stage = 3 ∧ s.f RST_STAT.SVC = 0))) ∧
    (let s : State := put [(RST_CAUSE.COLDSRC, 2)] State.reset;
      let d : Fin 244 := 127;
      let held : Prop := s.sys.coldLow = true ∨ s.sys.warmLow = true ∨ s.sys.perstLow = true ∧ s.sys.trained = true;
      let due : Prop := s.sys.stage = 2 ∧ s.f (CLK_STAB1.SVC.bit 0) = 1 ∧ s.cfgClk = true;
      s.sys.vin = false ∧
      ((↑d : Nat) ∉ s.sys.rel ∨ (↑d : Nat) ∈ s.sys.late ∨ held) ∧
      ¬due) := by
  decide +kernel

/-- O58, part 3: states and operands that meet the hypotheses of its clauses. -/
theorem meets_ResetsAndStartUp_3 :
    (let s : State := put [(CLK_STAB1.SVC, 1), (CLK_STAB1.CFG, 1)] (onSys (fun y => { y with stage := 2, vin := true }) State.reset);
      let due : Prop := s.sys.stage = 2 ∧ s.f (CLK_STAB1.SVC.bit 0) = 1 ∧ s.cfgClk = true;
      due) := by
  decide +kernel

/-- O58, part 4: states and operands that meet the hypotheses of its clauses. -/
theorem meets_ResetsAndStartUp_4 :
    (let s : State := onSys (fun y => { y with rel := [0, 13, 156, 160, 180, 181, 184, 236, 241, 243, 237, 239, 200] }) (up isl0);
      let live : Prop := s.sys.stage ≠ 0 ∧ s.sys.trip = false ∧ (s.f RST_STAT.SVC = 1 ∨ s.f RST_STAT.SVC = 2);
      let d : Fin 244 := 160;
      let held : Prop := s.sys.coldLow = true ∨ s.sys.warmLow = true ∨ s.sys.perstLow = true ∧ s.sys.trained = true;
      let free : Prop := (↑d : Nat) ∈ s.sys.rel ∧ ¬held ∧ s.partDown (s.domainPart (↑d : Nat)) = false;
      s.sys.vin = true ∧
      s.sys.coldLow = false ∧
      s.fnOpen 0 = true ∧
      live ∧
      s.sys.warmLow = false ∧
      free ∧
      (↑d : Nat) ∈ s.sys.rel ∧
      (↑d : Nat) ∉ s.sys.late ∧
      ¬held) ∧
    (let s : State := onSys (fun y => { y with rel := [0, 13, 156, 160, 180, 181, 184, 236, 241, 243, 237, 239, 200] }) (up isl0);
      s.sys.vin = true) := by
  decide +kernel

/-- O58, part 5: states and operands that meet the hypotheses of its clauses. -/
theorem meets_ResetsAndStartUp_5 :
    (let s : State := onSys (fun y => { y with stage := 1, vin := true, trimFails := 1, modId := 1 }) State.reset;
      let due : Prop := s.sys.stage = 1 ∧ s.sys.coldLow = false ∧ s.sys.warmLow = false ∧ s.sys.trip = false ∧ s.f RST_STAT.SVC ≠ 3;
      due) := by
  decide +kernel

/-- O58, part 6: states and operands that meet the hypotheses of its clauses. -/
theorem meets_ResetsAndStartUp_6 :
    (let s : State := up (put [(GLB_PART_CFG.STATE 0, 2), (CXP_PSTAT.UP 0, 1), (RST_STAT.SVC, 1)] base);
      (s.f RST_STAT.SVC = 1 ∧ s.mbxReady 0 = true)) := by
  decide +kernel

/-- O58, part 7: states and operands that meet the hypotheses of its clauses. -/
theorem meets_ResetsAndStartUp_7 :
    (let s : State := base;
      (¬(s.f RST_STAT.SVC = 1 ∧ s.mbxReady 0 = true))) := by
  decide +kernel

/-- O59: states and operands that meet the hypotheses of its clauses. -/
theorem meets_PowerLadderClocksAndProtections :
    (let i : Fin 156 := 0;
      let s : State := put [(CLK_ISL.STABLE 0, 1)] (up isl0);
      let lost : Prop := s.f (CLK_ISL.STABLE (↑i : Nat)) = 1 ∧ (s.getIsl (↑i : Nat)).inReset = false;
      lost) := by
  decide +kernel

/-- O59, part 2: states and operands that meet the hypotheses of its clauses. -/
theorem meets_PowerLadderClocksAndProtections_2 :
    (let n : Fin 12 := 0;
      let s : State := rs 2 (up isl0);
      let cur : Nat := s.f (PWR_PART.CUR (↑n : Nat));
      let r : BitVec 2 := 0x1#2;
      s.enabled (↑n : Nat) = true ∧
      s.f (PWR_PART.BUSY (↑n : Nat)) = 0 ∧
      s.rungRefused (↑n : Nat) = 0 ∧
      cur < r.toNat) := by
  decide +kernel

/-- O59, part 3: states and operands that meet the hypotheses of its clauses. -/
theorem meets_PowerLadderClocksAndProtections_3 :
    (let i : Fin 156 := 0;
      let s : State := (put [(CLK_ISL.STABLE 0, 0)] (up isl0)).onIsl 0 (fun x => { x with clkHalt := true });
      let halted : Prop := (s.getIsl (↑i : Nat)).clkHalt = true;
      let off : Prop := s.islPart (↑i : Nat) < 12 ∧ 2 ≤ s.f (PWR_PART.CUR (s.islPart (↑i : Nat)));
      halted ∧
      ¬off ∧
      (s.getIsl (↑i : Nat)).haltLogged = false) ∧
    (let s : State := (put [(CLK_ISL.STABLE 0, 0)] (up isl0)).onIsl 0 (fun x => { x with clkHalt := true });
      let temp : BitVec 16 := 0x64f7#16;
      s.sys.stage ≠ 0 ∧
      220 < temp.toInt) := by
  decide +kernel

/-- O59, part 4: states and operands that meet the hypotheses of its clauses. -/
theorem meets_PowerLadderClocksAndProtections_4 :
    (let n : Fin 12 := 0;
      let s : State := onSys (fun y => { y with wakes := [{ part := 0, left := 1, started := true }] }) (put [(PWR_PART.CUR 0, 2), (PWR_WAKE_DEFER.COUNT, 65535), (PWR_WAKE_DEFER.MAXNS, 70), (PWR_PART.BUSY 0, 1)] (up (base.onSeq 0 (fun x => { x with st := 5, before := 5 }))));
      let x : WakeReq := { part := 0, left := 1, started := true };
      let rest : List WakeReq := [];
      s.sys.wakes = x :: rest ∧
      x.part = (↑n : Nat) ∧
      x.left ≤ 1 ∧
      s.sys.nextRung.find (↑n : Nat) = none) ∧
    (let i : Fin 156 := 2;
      let s : State := onSys (fun y => { y with wakes := [{ part := 0, left := 1, started := true }] }) (put [(PWR_PART.CUR 0, 2), (PWR_WAKE_DEFER.COUNT, 65535), (PWR_WAKE_DEFER.MAXNS, 70), (PWR_PART.BUSY 0, 1)] (up (base.onSeq 0 (fun x => { x with st := 5, before := 5 }))));
      let off : Prop := s.islPart (↑i : Nat) < 12 ∧ 2 ≤ s.f (PWR_PART.CUR (s.islPart (↑i : Nat)));
      off) := by
  decide +kernel

/-- O59, part 5: states and operands that meet the hypotheses of its clauses. -/
theorem meets_PowerLadderClocksAndProtections_5 :
    (let n : Fin 12 := 7;
      let s : State := State.reset;
      s.enabled (↑n : Nat) = false) ∧
    (let n : Fin 12 := 9;
      let s : State := State.reset;
      let entering : Option Nat := s.sys.entering.find (↑n : Nat);
      entering = none) ∧
    (let s : State := State.reset;
      s.firmOn = false) ∧
    (let s : State := State.reset;
      s.sys.stage = 0 ∧
      s.sys.pgood = false ∧
      s.sys.vin = false) := by
  decide +kernel

/-- O59, part 6: states and operands that meet the hypotheses of its clauses. -/
theorem meets_PowerLadderClocksAndProtections_6 :
    (let n : Fin 12 := 0;
      let s : State := put [(PWR_PART.CUR 0, 3), (PWR_PART.RUNG 0, 3)] (up (base.onSeq 0 (fun x => { x with st := 5, before := 2 })));
      let cur : Nat := s.f (PWR_PART.CUR (↑n : Nat));
      let entering : Option Nat := s.sys.entering.find (↑n : Nat);
      let calm : Prop := entering = none ∧ s.waking (↑n : Nat) = false;
      let r : BitVec 2 := 0x2#2;
      s.enabled (↑n : Nat) = true ∧
      s.f (PWR_PART.BUSY (↑n : Nat)) = 0 ∧
      r ≠ 0 ∧
      s.rungRefused (↑n : Nat) = 0 ∧
      r.toNat < cur ∧
      calm) := by
  decide +kernel

/-- O59, part 7: states and operands that meet the hypotheses of its clauses. -/
theorem meets_PowerLadderClocksAndProtections_7 :
    (let n : Fin 12 := 0;
      let s : State := put [(PWR_PART.CUR 0, 1), (PWR_PART.RUNG 0, 1), (PWR_PART.WAKEEN 0, 1), (SEQ_DBELL.PEND 0, 4)] (up base);
      let cur : Nat := s.f (PWR_PART.CUR (↑n : Nat));
      let entering : Option Nat := s.sys.entering.find (↑n : Nat);
      let calm : Prop := entering = none ∧ s.waking (↑n : Nat) = false;
      let r : BitVec 2 := 0x0#2;
      let src : Fin 3 := 0;
      s.enabled (↑n : Nat) = true ∧
      s.f (PWR_PART.BUSY (↑n : Nat)) = 0 ∧
      r = 0 ∧
      cur ≠ 0 ∧
      calm ∧
      s.wakePending (↑n : Nat) (↑src : Nat) = true) := by
  decide +kernel

/-- O59, part 8: states and operands that meet the hypotheses of its clauses. -/
theorem meets_PowerLadderClocksAndProtections_8 :
    (let n : Fin 12 := 0;
      let s : State := rs 0 (up isl0);
      let r : BitVec 2 := 0x1#2;
      s.enabled (↑n : Nat) = true ∧
      r ≠ 0 ∧
      s.rungRefused (↑n : Nat) ≠ 0 ∧
      s.f (PWR_PART.BUSY (↑n : Nat)) = 0 ∧
      s.f (GLB_PART_CFG.STATE (↑n : Nat)) ≠ stSTOPPED ∧
      s.f (GLB_PART_CFG.STATE (↑n : Nat)) ≠ stRUNNING) := by
  decide +kernel

/-- O59, part 9: states and operands that meet the hypotheses of its clauses. -/
theorem meets_PowerLadderClocksAndProtections_9 :
    (let n : Fin 12 := 0;
      let s : State := rs 0 (up isl0);
      let cur : Nat := s.f (PWR_PART.CUR (↑n : Nat));
      let entering : Option Nat := s.sys.entering.find (↑n : Nat);
      let r : BitVec 2 := 0x0#2;
      s.enabled (↑n : Nat) = true ∧
      s.f (PWR_PART.BUSY (↑n : Nat)) = 0 ∧
      r = 0 ∧
      cur = 0 ∧
      entering = none) := by
  decide +kernel

/-- O59, part 10: states and operands that meet the hypotheses of its clauses. -/
theorem meets_PowerLadderClocksAndProtections_10 :
    (let n : Fin 12 := 0;
      let s : State := onSys (fun y => { y with entering := [(0, 2)] }) (put [(PWR_PART.WAKEEN 0, 0), (PWR_PART.RUNG 0, 2), (PWR_PART.BUSY 0, 1)] (up isl0));
      let r : BitVec 2 := 0x2#2;
      let src : Fin 3 := 2;
      s.enabled (↑n : Nat) = true ∧
      s.f (PWR_PART.BUSY (↑n : Nat)) = 1 ∧
      (r = 0 ∨ s.rungRefused (↑n : Nat) = 0) ∧
      (s.enabled (↑n : Nat) = false ∨ s.wakePending (↑n : Nat) (↑src : Nat) = false) ∧
      s.sys.wakes = []) ∧
    (let n : Fin 12 := 0;
      let s : State := onSys (fun y => { y with entering := [(0, 2)] }) (put [(PWR_PART.WAKEEN 0, 0), (PWR_PART.RUNG 0, 2), (PWR_PART.BUSY 0, 1)] (up isl0));
      let entering : Option Nat := s.sys.entering.find (↑n : Nat);
      let r : Nat := 2;
      let q : Nat := 0;
      entering = some r ∧
      r < 4 ∧
      s.sys.nextRung.find (↑n : Nat) = none ∧
      s.f (PWR_PART.WAKEEN (↑n : Nat)) = 0 ∧
      s.sys.wakeOld.find (↑n : Nat) = none ∧
      bitOf s.sys.trigEv (↑n : Nat) = false ∧
      s.jobs = [] ∧
      (∀ q ∈ s.seqsOf (↑n : Nat), (s.getSeq q).st = 2 → (s.getSeq q).rptc = 0) ∧
      s.primary (↑n : Nat) = some q) ∧
    (let n : Fin 12 := 0;
      let s : State := onSys (fun y => { y with entering := [(0, 2)] }) (put [(PWR_PART.WAKEEN 0, 0), (PWR_PART.RUNG 0, 2), (PWR_PART.BUSY 0, 1)] (up isl0));
      let q : Nat := 0;
      s.primary (↑n : Nat) = some q ∧
      s.sys.wakeOld.find (↑n : Nat) = none ∧
      bitOf (s.f (PWR_PART.WAKEEN (↑n : Nat))) 0 = false) ∧
    (let i : Fin 156 := 148;
      let s : State := onSys (fun y => { y with entering := [(0, 2)] }) (put [(PWR_PART.WAKEEN 0, 0), (PWR_PART.RUNG 0, 2), (PWR_PART.BUSY 0, 1)] (up isl0));
      let lost : Prop := s.f (CLK_ISL.STABLE (↑i : Nat)) = 1 ∧ (s.getIsl (↑i : Nat)).inReset = false;
      ¬lost) ∧
    (let i : Fin 156 := 22;
      let s : State := onSys (fun y => { y with entering := [(0, 2)] }) (put [(PWR_PART.WAKEEN 0, 0), (PWR_PART.RUNG 0, 2), (PWR_PART.BUSY 0, 1)] (up isl0));
      let halted : Prop := (s.getIsl (↑i : Nat)).clkHalt = true;
      ¬halted) ∧
    (let i : Fin 156 := 4;
      let s : State := onSys (fun y => { y with entering := [(0, 2)] }) (put [(PWR_PART.WAKEEN 0, 0), (PWR_PART.RUNG 0, 2), (PWR_PART.BUSY 0, 1)] (up isl0));
      let halted : Prop := (s.getIsl (↑i : Nat)).clkHalt = true;
      ¬halted) ∧
    (True) ∧
    (let s : State := onSys (fun y => { y with entering := [(0, 2)] }) (put [(PWR_PART.WAKEEN 0, 0), (PWR_PART.RUNG 0, 2), (PWR_PART.BUSY 0, 1)] (up isl0));
      s.firmOn = true) ∧
    (let s : State := onSys (fun y => { y with entering := [(0, 2)] }) (put [(PWR_PART.WAKEEN 0, 0), (PWR_PART.RUNG 0, 2), (PWR_PART.BUSY 0, 1)] (up isl0));
      let addr : BitVec 7 := 0x29#7;
      let ours : Prop := s.sys.stage ≠ 0 ∧ addr.toNat = 88 + s.sys.modId;
      s.sys.stage ≠ 0 ∧
      s.sys.pgood = true ∧
      s.sys.vin = true ∧
      ¬ours) ∧
    (let s : State := onSys (fun y => { y with entering := [(0, 2)] }) (put [(PWR_PART.WAKEEN 0, 0), (PWR_PART.RUNG 0, 2), (PWR_PART.BUSY 0, 1)] (up isl0));
      let temp : BitVec 16 := 0xfff2#16;
      let addr : BitVec 7 := 0x58#7;
      let cmd : BitVec 8 := 0x01#8;
      let ours : Prop := s.sys.stage ≠ 0 ∧ addr.toNat = 88 + s.sys.modId;
      (s.sys.stage = 0 ∨ temp.toInt ≤ 220) ∧
      ours ∧
      cmd = 1) := by
  decide +kernel

/-- O59, part 11: states and operands that meet the hypotheses of its clauses. -/
theorem meets_PowerLadderClocksAndProtections_11 :
    (let n : Fin 12 := 0;
      let s : State := onSys (fun y => { y with wakes := [{ part := 0, left := 2, started := false }] }) (put [(PWR_PART.CUR 0, 2), (PWR_PART.BUSY 0, 1)] (up isl0));
      let x : WakeReq := { part := 0, left := 2, started := false };
      let rest : List WakeReq := [];
      s.sys.wakes = x :: rest ∧
      x.part = (↑n : Nat) ∧
      1 < x.left) := by
  decide +kernel

/-- O59, part 12: states and operands that meet the hypotheses of its clauses. -/
theorem meets_PowerLadderClocksAndProtections_12 :
    (let s : State := rs 0 (up isl0);
      let addr : BitVec 7 := 0x58#7;
      let cmd : BitVec 8 := 0x10#8;
      let ours : Prop := s.sys.stage ≠ 0 ∧ addr.toNat = 88 + s.sys.modId;
      ours ∧
      cmd ∈ [16, 17, 18, 32, 33, 48, 49, 50, 51, 52, 53]) := by
  decide +kernel

/-- O59, part 13: states and operands that meet the hypotheses of its clauses. -/
theorem meets_PowerLadderClocksAndProtections_13 :
    (let s : State := put [(PWR_PART.CUR 0, 1), (PWR_PART.RUNG 0, 1), (PWR_PART.WAKEEN 0, 1), (SEQ_DBELL.PEND 0, 4)] (up base);
      let addr : BitVec 7 := 0x58#7;
      let cmd : BitVec 8 := 0x00#8;
      let ours : Prop := s.sys.stage ≠ 0 ∧ addr.toNat = 88 + s.sys.modId;
      ours ∧
      cmd = 0) := by
  decide +kernel

/-- O59, part 14: states and operands that meet the hypotheses of its clauses. -/
theorem meets_PowerLadderClocksAndProtections_14 :
    (let i : Fin 156 := 0;
      let s : State := (put [(CLK_ISL.STABLE 0, 0)] (up isl0)).onIsl 0 (fun x => { x with clkHalt := true, haltLogged := true });
      let halted : Prop := (s.getIsl (↑i : Nat)).clkHalt = true;
      halted ∧
      (s.getIsl (↑i : Nat)).haltLogged = true) := by
  decide +kernel

/-- O59, part 15: states and operands that meet the hypotheses of its clauses. -/
theorem meets_PowerLadderClocksAndProtections_15 :
    (let n : Fin 12 := 0;
      let s : State := put [(PWR_PART.CUR 0, 1)] (rs 2 (up isl0));
      let cur : Nat := s.f (PWR_PART.CUR (↑n : Nat));
      let r : BitVec 2 := 1;
      s.enabled (↑n : Nat) = true ∧
      s.f (PWR_PART.BUSY (↑n : Nat)) = 0 ∧
      r ≠ 0 ∧
      s.rungRefused (↑n : Nat) = 0 ∧
      r.toNat = cur) := by
  decide +kernel

/-- O60: states and operands that meet the hypotheses of its clauses. -/
theorem meets_ErrorHandlingCaptureAndDebug :
    (let s : State := put [(ERR_CAP.STATE 0, 2)] ((List.range 26).foldl (fun s i => s.onIsl i (fun x => { x with inReset := false, frozen := true, cycle := 2^33+5 })) (up isl0));
      let fatals : Nat := (List.filter (fun (x : Handling) => x.sev == 3) s.handling).length;
      let e : Bool := false;
      let due : Prop := s.f ERR_STAT.SAFE = 0 ∧ (2 ≤ fatals ∨ fatals = 1 ∧ (e = true ∨ s.sys.stage ≠ 3));
      (s.handling = [] ∨ s.firmOn = false) ∧
      (¬(fatals = 1 ∧ s.firmOn = true)) ∧
      ¬due) ∧
    (let i : Fin 156 := 1;
      let s : State := put [(ERR_CAP.STATE 0, 2)] ((List.range 26).foldl (fun s i => s.onIsl i (fun x => { x with inReset := false, frozen := true, cycle := 2^33+5 })) (up isl0));
      let old : Nat := s.f (HLTH_ISL.STATE (↑i : Nat));
      let on : Prop := s.firmOn = true ∧ s.f HLTH_CTL.EN = 1;
      on ∧
      old ≠ 3) ∧
    (let i : Fin 156 := 1;
      let late : Bool := false;
      let s : State := put [(ERR_CAP.STATE 0, 2)] ((List.range 26).foldl (fun s i => s.onIsl i (fun x => { x with inReset := false, frozen := true, cycle := 2^33+5 })) (up isl0));
      let n : Nat := s.islPart (↑i : Nat);
      let st : Nat := s.f (GLB_PART_CFG.STATE n);
      let begins : Prop := s.autoOn = true ∧ s.repairable (↑i : Nat) = true ∧ (st = stSTOPPED ∨ late = true ∧ s.f HLTH_CTL.AUTOREP = 2);
      s.firmOn = true ∧
      s.sys.repair = none ∧
      ¬begins) ∧
    (let n : Fin 12 := 0;
      let i : Fin 156 := 1;
      let s : State := put [(ERR_CAP.STATE 0, 2)] ((List.range 26).foldl (fun s i => s.onIsl i (fun x => { x with inReset := false, frozen := true, cycle := 2^33+5 })) (up isl0));
      let st : Nat := s.f (ERR_CAP.STATE (↑n : Nat));
      let comes : Prop := (s.getIsl (↑i : Nat)).freezeCmd = true ∧ s.islClk (↑i : Nat) = true;
      let sig : BitVec 768 := 0x000000000000000000000000000000000000000000000000000000000000000000000000000000000000000000000000000000000000000000000000000000000000000000000000000000000000000000000000000000000000000000000006#768;
      let slot : BitVec 2 := 0x0#2;
      let good : Prop := bitOf (s.f CFG_POLICY.SIGPROG) slot.toNat = true ∧ bitOf (s.f CFG_POLICY.SIGREV) slot.toNat = false ∧ sigOk slot.toNat s.unlockMsg (bytesLE 96 sig.toNat) = true;
      (¬(s.enabled (↑n : Nat) = true ∧ st = 0)) ∧
      ¬comes ∧
      st = 2 ∧
      s.sys.tries < 3 ∧
      ¬good) ∧
    (let s : State := put [(ERR_CAP.STATE 0, 2)] ((List.range 26).foldl (fun s i => s.onIsl i (fun x => { x with inReset := false, frozen := true, cycle := 2^33+5 })) (up isl0));
      let q : Fin 32 := 3;
      s.dbgOpen = true ∧
      (24 ≤ (↑q : Nat) ∨ s.seqClk (↑q : Nat) = false)) := by
  decide +kernel

/-- O60, part 2: states and operands that meet the hypotheses of its clauses. -/
theorem meets_ErrorHandlingCaptureAndDebug_2 :
    (let s : State := put [(HLTH_DBGSTAT.UNLOCKED, 1)] ((up isl0).onSeq 0 (fun x => { x with st := 1, r := [(3, 7)] }));
      let q : Fin 32 := 0;
      s.dbgOpen = true ∧
      (↑q : Nat) < 24 ∧
      s.seqClk (↑q : Nat) = true ∧
      (s.getSeq (↑q : Nat)).st = 1 ∧
      s.seqPart (↑q : Nat) ≠ none) := by
  decide +kernel

/-- O60, part 3: states and operands that meet the hypotheses of its clauses. -/
theorem meets_ErrorHandlingCaptureAndDebug_3 :
    (let i : Fin 156 := 1;
      let s : State := onSys (fun y => { y with repair := some (rp 6) }) (up isl0);
      let r : Repair := { part := 0, row := 0, col := 1, step := 6, p := 0, ran := true, reset := false, warm := false };
      s.firmOn = true ∧
      s.sys.repair = some r ∧
      r.row < 12 ∧
      r.col < 12 ∧
      r.row * 13 + r.col = (↑i : Nat) ∧
      r.warm = false ∧
      r.reset = false ∧
      s.jobs = [] ∧
      r.step = 6) := by
  decide +kernel

/-- O60, part 4: states and operands that meet the hypotheses of its clauses. -/
theorem meets_ErrorHandlingCaptureAndDebug_4 :
    (let i : Fin 156 := 1;
      let s : State := put [(ERR_CAP.STATE 0, 1)] ((up isl0).onIsl 1 (fun x => { x with freezeCmd := true }));
      let comes : Prop := (s.getIsl (↑i : Nat)).freezeCmd = true ∧ s.islClk (↑i : Nat) = true;
      comes) := by
  decide +kernel

/-- O60, part 5: states and operands that meet the hypotheses of its clauses. -/
theorem meets_ErrorHandlingCaptureAndDebug_5 :
    (let i : Fin 156 := 1;
      let late : Bool := true;
      let s : State := put [(HLTH_CTL.EN, 1), (HLTH_CTL.AUTOREP, 1), (HLTH_ISL.STATE 1, 3), (GLB_PART_CFG.STATE 0, 2), (CFG_RESVAL.VALID, 1), (CFG_RES.EN, 1), (GLB_ROW_MAP.SPARE_PTR 0, 12)] (up isl0);
      let old : Nat := s.f (HLTH_ISL.STATE (↑i : Nat));
      let on : Prop := s.firmOn = true ∧ s.f HLTH_CTL.EN = 1;
      let n : Nat := s.islPart (↑i : Nat);
      let st : Nat := s.f (GLB_PART_CFG.STATE n);
      let begins : Prop := s.autoOn = true ∧ s.repairable (↑i : Nat) = true ∧ (st = stSTOPPED ∨ late = true ∧ s.f HLTH_CTL.AUTOREP = 2);
      on ∧
      old = 3 ∧
      s.firmOn = true ∧
      s.sys.repair = none ∧
      begins ∧
      n < 12) := by
  decide +kernel

/-- O60, part 6: states and operands that meet the hypotheses of its clauses. -/
theorem meets_ErrorHandlingCaptureAndDebug_6 :
    (let s : State := { put [(ERR_CTL.STORM, 5)] (up isl0) with storm := [(0x0304 * 65536 + 5, { n := 3, sup := 9, going := false, part := 0, i0 := 7, i1 := 8 })] };
      let key : Nat := 50593797;
      let w : Storm := { n := 3, sup := 9, going := false, part := 0, i0 := 0x0000000000000007#64, i1 := 0x0000000000000008#64 };
      s.storm = [(key, w)] ∧
      key / 65536 < 65536 ∧
      w.part < 16) := by
  decide +kernel

/-- O60, part 7: states and operands that meet the hypotheses of its clauses. -/
theorem meets_ErrorHandlingCaptureAndDebug_7 :
    (let s : State := { up isl0 with handling := [hd2 2 0x0203 1] };
      let h : Handling := { sev := 2, code := 515, part := 0, src := 1, asked := true, followed := false };
      let rest : List Handling := [];
      let safe : Bool → Nat → Prop := fun (asked : Bool) (q : Nat) => if asked = false ∧ (s.getSeq q).st = 2 then (s.getSeq q).rptc = 0 else asked = false ∧ (s.getSeq q).st = 3 ∨ (s.getSeq q).mcheck ≠ some 1;
      let mine : Handling → Bool := fun (x : Handling) => x.sev == 2 && x.part == h.part;
      let stop : Prop := s.enabled h.part = true ∧ (∃ x ∈ s.handling, mine x = true ∧ (s.f ERR_CTL.XSTOP = 1 ∨ x.code = 1025 ∨ x.code = 515)) ∧ ∀ x ∈ s.handling, mine x = true → x.followed = false;
      let done : Prop := stop → ∀ q ∈ s.seqsOf h.part, safe h.asked q;
      s.handling = h :: rest ∧
      h.sev = 2 ∧
      s.firmOn = true ∧
      done ∧
      h.followed = false ∧
      (h.code = 515 ∨ h.code = 516) ∧
      h.src < 156) := by
  decide +kernel

/-- O60, part 8: states and operands that meet the hypotheses of its clauses. -/
theorem meets_ErrorHandlingCaptureAndDebug_8 :
    (let s : State := { up isl0 with handling := [hd2 2 0x0304 5, hd2 3 1 1] };
      let h : Handling := { sev := 2, code := 772, part := 0, src := 5, asked := true, followed := false };
      let rest : List Handling := [{ sev := 3, code := 1, part := 0, src := 1, asked := true, followed := false }];
      let safe : Bool → Nat → Prop := fun (asked : Bool) (q : Nat) => if asked = false ∧ (s.getSeq q).st = 2 then (s.getSeq q).rptc = 0 else asked = false ∧ (s.getSeq q).st = 3 ∨ (s.getSeq q).mcheck ≠ some 1;
      let mine : Handling → Bool := fun (x : Handling) => x.sev == 2 && x.part == h.part;
      let stop : Prop := s.enabled h.part = true ∧ (∃ x ∈ s.handling, mine x = true ∧ (s.f ERR_CTL.XSTOP = 1 ∨ x.code = 1025 ∨ x.code = 515)) ∧ ∀ x ∈ s.handling, mine x = true → x.followed = false;
      let done : Prop := stop → ∀ q ∈ s.seqsOf h.part, safe h.asked q;
      s.handling = h :: rest ∧
      h.sev = 2 ∧
      s.firmOn = true ∧
      done ∧
      s.reloading h.part = false ∧
      (∀ x ∈ s.handling, mine x = true → x.followed = true ∨ x.code ∉ [515, 516, 1795])) ∧
    (let s : State := { up isl0 with handling := [hd2 2 0x0304 5, hd2 3 1 1] };
      let safe : Bool → Nat → Prop := fun (asked : Bool) (q : Nat) => if asked = false ∧ (s.getSeq q).st = 2 then (s.getSeq q).rptc = 0 else asked = false ∧ (s.getSeq q).st = 3 ∨ (s.getSeq q).mcheck ≠ some 1;
      let fatals : Nat := (List.filter (fun (x : Handling) => x.sev == 3) s.handling).length;
      let asked : Bool := s.handling.any fun (x : Handling) => x.sev == 3 && x.asked;
      let e : Bool := true;
      let due : Prop := s.f ERR_STAT.SAFE = 0 ∧ (2 ≤ fatals ∨ fatals = 1 ∧ (e = true ∨ s.sys.stage ≠ 3));
      fatals = 1 ∧
      s.firmOn = true ∧
      (∀ p ∈ s.enabledParts, ∀ q ∈ s.seqsOf p, safe asked q) ∧
      due) ∧
    (let n : Fin 12 := 8;
      let s : State := { up isl0 with handling := [hd2 2 0x0304 5, hd2 3 1 1] };
      let st : Nat := s.f (ERR_CAP.STATE (↑n : Nat));
      st ≠ 2) ∧
    (let s : State := { up isl0 with handling := [hd2 2 0x0304 5, hd2 3 1 1] };
      let q : Fin 32 := 0;
      s.dbgOpen = true ∧
      (↑q : Nat) < 24 ∧
      s.seqClk (↑q : Nat) = true) := by
  decide +kernel

/-- O60, part 9: states and operands that meet the hypotheses of its clauses. -/
theorem meets_ErrorHandlingCaptureAndDebug_9 :
    (let s : State := put [(HLTH_DBGSTAT.UNLOCKED, 1)] (onSys (fun y => { y with tries := 3, dbgResult := 3, dbgData := 9 }) (up isl0));
      3 ≤ s.sys.tries) := by
  decide +kernel

/-- O60, part 10: states and operands that meet the hypotheses of its clauses. -/
theorem meets_ErrorHandlingCaptureAndDebug_10 :
    (let s : State := ({ put [(ERR_CTL.XSTOP,1)] (up isl0) with handling := [⟨2, 0x0304, 0, 5, false, false⟩, ⟨3, 1, 0, 5, false, false⟩] }).onSeq 0 (fun x => { x with rptc := 3 });
      let h : Handling := { sev := 2, code := 772, part := 0, src := 5, asked := false, followed := false };
      let rest : List Handling := [{ sev := 3, code := 1, part := 0, src := 5, asked := false, followed := false }];
      let mine : Handling → Bool := fun (x : Handling) => x.sev == 2 && x.part == h.part;
      let stop : Prop := s.enabled h.part = true ∧ (∃ x ∈ s.handling, mine x = true ∧ (s.f ERR_CTL.XSTOP = 1 ∨ x.code = 1025 ∨ x.code = 515)) ∧ ∀ x ∈ s.handling, mine x = true → x.followed = false;
      s.handling = h :: rest ∧
      h.sev = 2 ∧
      s.firmOn = true ∧
      stop ∧
      h.asked = false ∧
      h.part < 12) ∧
    (let s : State := ({ put [(ERR_CTL.XSTOP,1)] (up isl0) with handling := [⟨2, 0x0304, 0, 5, false, false⟩, ⟨3, 1, 0, 5, false, false⟩] }).onSeq 0 (fun x => { x with rptc := 3 });
      let waits : Nat → Prop := fun (q : Nat) => (s.getSeq q).st = 2 ∧ (s.getSeq q).rptc ≠ 0;
      let fatals : Nat := (List.filter (fun (x : Handling) => x.sev == 3) s.handling).length;
      let asked : Bool := s.handling.any fun (x : Handling) => x.sev == 3 && x.asked;
      fatals = 1 ∧
      s.firmOn = true ∧
      asked = false ∧
      (∃ p ∈ s.enabledParts, ∃ q ∈ s.seqsOf p, waits q)) ∧
    (let n : Fin 12 := 0;
      let s : State := ({ put [(ERR_CTL.XSTOP,1)] (up isl0) with handling := [⟨2, 0x0304, 0, 5, false, false⟩, ⟨3, 1, 0, 5, false, false⟩] }).onSeq 0 (fun x => { x with rptc := 3 });
      let st : Nat := s.f (ERR_CAP.STATE (↑n : Nat));
      s.enabled (↑n : Nat) = true ∧
      st = 0) := by
  decide +kernel

/-- O60, part 11: states and operands that meet the hypotheses of its clauses. -/
theorem meets_ErrorHandlingCaptureAndDebug_11 :
    (let s : State := State.reset;
      let on : Prop := s.firmOn = true ∧ s.f HLTH_CTL.EN = 1;
      ¬on) ∧
    (let s : State := State.reset;
      s.dbgOpen = false) := by
  decide +kernel

/-- O60, part 12: states and operands that meet the hypotheses of its clauses. -/
theorem meets_ErrorHandlingCaptureAndDebug_12 :
    (let s : State := { put [(CFG_STAT.BUSY, 1)] (up isl0) with handling := [⟨2, 0x0304, 0, 5, true, true⟩], cfg := { Cfg.idle with src := 4, part := 0, mode := 0 } };
      let h : Handling := { sev := 2, code := 772, part := 0, src := 5, asked := true, followed := true };
      let rest : List Handling := [];
      let mine : Handling → Bool := fun (x : Handling) => x.sev == 2 && x.part == h.part;
      s.handling = h :: rest ∧
      h.sev = 2 ∧
      s.firmOn = true ∧
      s.reloading h.part = true ∧
      (∀ x ∈ s.handling, mine x = true → x.followed = true)) := by
  decide +kernel

/-- O60, part 13: states and operands that meet the hypotheses of its clauses. -/
theorem meets_ErrorHandlingCaptureAndDebug_13 :
    (let s : State := { up isl0 with handling := [⟨2, 0x0703, 0, 5, true, false⟩] };
      let h : Handling := { sev := 2, code := 1795, part := 0, src := 5, asked := true, followed := false };
      let rest : List Handling := [];
      let safe : Bool → Nat → Prop := fun (asked : Bool) (q : Nat) => if asked = false ∧ (s.getSeq q).st = 2 then (s.getSeq q).rptc = 0 else asked = false ∧ (s.getSeq q).st = 3 ∨ (s.getSeq q).mcheck ≠ some 1;
      let mine : Handling → Bool := fun (x : Handling) => x.sev == 2 && x.part == h.part;
      let stop : Prop := s.enabled h.part = true ∧ (∃ x ∈ s.handling, mine x = true ∧ (s.f ERR_CTL.XSTOP = 1 ∨ x.code = 1025 ∨ x.code = 515)) ∧ ∀ x ∈ s.handling, mine x = true → x.followed = false;
      let done : Prop := stop → ∀ q ∈ s.seqsOf h.part, safe h.asked q;
      s.handling = h :: rest ∧
      h.sev = 2 ∧
      s.firmOn = true ∧
      done ∧
      rest = [] ∧
      h.followed = false ∧
      h.code = 1795 ∧
      h.part < 12 ∧
      s.enabled h.part = true ∧
      s.f CFG_STAT.BUSY = 0 ∧
      s.sys.reloads = []) := by
  decide +kernel

/-- A load in its verification whose encrypted image has the tag `t`. -/
def encLoad (t : Nat) : State := bz 3 (fun c => { c with src := 1, hdr := (hdr 2 2 0 1).set 0x40 (BitVec.ofNat 8 t), body := [] }) e0
theorem encLoad_code {s : State} (h4 : s.cfg.src ≠ 4) (he : hEnc s.cfg.hdr = true)
    (ht : hTag s.cfg.hdr ≠ imageTag (hKeys s.cfg.hdr / 16 % 4) (hIv s.cfg.hdr) (s.cfg.hdr.take 0x40) s.cfg.body.reverse) : s.verifyCode ≠ 0 := by
  unfold State.verifyCode; simp [h4, he, ht]

/-- O53: whatever tag the key gives, one of two images fails its verification. -/
theorem meets_ConfigurationLoads_encrypted :
    ∃ t, (encLoad t).cfgClk = true ∧ (encLoad t).f CFG_STAT.BUSY = 1 ∧ (encLoad t).cfg.part < 12 ∧ (encLoad t).cfg.mode ≠ 2 ∧ (encLoad t).sys.reloads = [] ∧
      (encLoad t).sys.repair = none ∧ (encLoad t).cfg.golden = false ∧ (encLoad t).cfg.boot = 0 ∧ (encLoad t).f CFG_STAT.PHASE = 3 ∧ (encLoad t).verifyCode ≠ 0 := by
  have tag (t : Nat) : t < 2 → hTag (encLoad t).cfg.hdr = t := by
    match t with
    | 0 | 1 => exact fun _ => by decide +kernel
    | _ + 2 => omega
  have args : hKeys (encLoad 1).cfg.hdr = hKeys (encLoad 0).cfg.hdr ∧ hIv (encLoad 1).cfg.hdr = hIv (encLoad 0).cfg.hdr ∧
      (encLoad 1).cfg.hdr.take 0x40 = (encLoad 0).cfg.hdr.take 0x40 ∧ (encLoad 1).cfg.body.reverse = (encLoad 0).cfg.body.reverse := by
    refine ⟨?_, ?_, ?_, ?_⟩ <;> decide +kernel
  by_cases h : imageTag (hKeys (encLoad 0).cfg.hdr / 16 % 4) (hIv (encLoad 0).cfg.hdr) ((encLoad 0).cfg.hdr.take 0x40) (encLoad 0).cfg.body.reverse = 0
  · refine ⟨1, ?_, ?_, ?_, ?_, ?_, ?_, ?_, ?_, ?_, encLoad_code ?_ ?_ ?_⟩
    rotate_right
    · rw [tag 1 (by omega), args.1, args.2.1, args.2.2.1, args.2.2.2, h]; omega
    all_goals decide +kernel
  · refine ⟨0, ?_, ?_, ?_, ?_, ?_, ?_, ?_, ?_, ?_, encLoad_code ?_ ?_ ?_⟩
    rotate_right
    · rw [tag 0 (by omega)]; exact fun e => h e.symm
    all_goals decide +kernel

/-- O60: a debug signature that the signature check, whose outcome nothing here fixes, takes for good. -/
theorem meets_ErrorHandlingCaptureAndDebug_unlock :
    let s : State := put [(CFG_POLICY.SIGPROG, 15)] (up isl0)
    let sig : BitVec 768 := 5
    let slot : BitVec 2 := 1
    sigOk slot.toNat s.unlockMsg (bytesLE 96 sig.toNat) = true →
      s.sys.tries < 3 ∧ bitOf (s.f CFG_POLICY.SIGPROG) slot.toNat = true ∧ bitOf (s.f CFG_POLICY.SIGREV) slot.toNat = false ∧
        sigOk slot.toNat s.unlockMsg (bytesLE 96 sig.toNat) = true := by
  intro s sig slot h
  exact ⟨by decide +kernel, by decide +kernel, by decide +kernel, h⟩

/-- O6: a physical function that does not answer memory requests. -/
theorem meets_PartitionDefinitionWrites_closed : (put [(HL_STAT.WIDTH 0, 0)] PD).fnOpen 0 = false := by
  decide +kernel

end Sys2Proof.Tests
end

