-- ==== Sys2Proof/Proofs/Fields.lean ====
section
/-!
SUPPORT. Proofs/Fields.lean: which register fields an update of the registers leaves alone, as the frames `FieldsBut` and `OnlyFields` of the statements.
-/
namespace Sys2Proof.Proofs
open Sys2Proof.Machine Sys2Proof.Safety

/-- A field as the register tables give them: its bits stand in order, inside a 64-bit register. -/
def RFok (x : RF) : Bool := Nat.ble x.lo x.hi && Nat.blt x.hi 64

theorem RFok_iff {x : RF} : RFok x = true ↔ x.lo ≤ x.hi ∧ x.hi < 64 := by
  simp [RFok, Nat.blt_eq]

/-- A field reads what was written to it, cut to its width. -/
theorem f_setF_self (s : State) {x : RF} (n : Nat) (hx : RFok x = true) : (s.setF x n).f x = n % 2 ^ (x.hi + 1 - x.lo) :=
  have ⟨hl, hh⟩ := RFok_iff.1 hx
  State.f_setF_same s x n hl hh

/-- A field reads what was written to it, when it fits. -/
theorem f_setF_fits (s : State) {x : RF} {n : Nat} (hx : RFok x = true) (hn : n < 2 ^ (x.hi + 1 - x.lo)) : (s.setF x n).f x = n := by
  rw [f_setF_self s n hx, Nat.mod_eq_of_lt hn]

theorem f_setF_ne (s : State) {x y : RF} (n : Nat) (hx : RFok x = true) (hy : y.hi < 64) (h : Apart x y) : (s.setF x n).f y = s.f y :=
  have ⟨hl, hh⟩ := RFok_iff.1 hx
  State.f_setF_apart s x y n hl hh hy h

theorem f_wr_ne (s : State) {k : Nat} {y : RF} (v : Word) (h : y.key ≠ k) : (s.wr k v).f y = s.f y := by
  simp [State.f, h]

/-- A field is less than its width allows. -/
theorem f_lt (s : State) (x : RF) : s.f x < 2 ^ (x.hi + 1 - x.lo) := Nat.mod_lt _ (by positivity)

end Sys2Proof.Proofs

namespace Sys2Proof.Safety
open Sys2Proof.Machine Sys2Proof.Proofs

theorem FieldsBut.refl (xs : List RF) (s : State) : FieldsBut xs s s := fun _ _ _ => rfl

theorem FieldsBut.trans {xs : List RF} {s t u : State} (h₁ : FieldsBut xs s t) (h₂ : FieldsBut xs t u) : FieldsBut xs s u :=
  fun y hy ha => (h₂ y hy ha).trans (h₁ y hy ha)

theorem FieldsBut.mono {xs ys : List RF} {s t : State} (h : FieldsBut xs s t) (hs : ∀ x ∈ xs, x ∈ ys) : FieldsBut ys s t :=
  fun y hy ha => h y hy fun x hx => ha x (hs x hx)

/-- Equal registers read equal fields. -/
theorem FieldsBut.of_regs {xs : List RF} {s t : State} (h : t.regs = s.regs) : FieldsBut xs s t := fun y _ _ => State.f_congr h y

theorem FieldsBut.setF {xs : List RF} {s t : State} (h : FieldsBut xs s t) {x : RF} (n : Nat) (hx : RFok x = true) (hm : x ∈ xs) : FieldsBut xs s (t.setF x n) :=
  fun y hy ha => (f_setF_ne t n hx hy (ha x hm)).trans (h y hy ha)

/-- A field without bits reads zero. -/
theorem f_of_no_bits (s : State) {x : RF} (h : x.hi < x.lo) : s.f x = 0 := by
  have hz : x.hi + 1 - x.lo = 0 := by omega
  simp [State.f, getBits, bitsOf, hz, Nat.mod_one]

/-- A field inside a listed one is written. -/
theorem FieldsBut.setF_within {xs : List RF} {s t : State} (h : FieldsBut xs s t) {x x' : RF} (n : Nat) (hx : RFok x = true) (hm : x' ∈ xs) (hk : x.key = x'.key)
    (hlo : x'.lo ≤ x.lo) (hhi : x.hi ≤ x'.hi) : FieldsBut xs s (t.setF x n) := by
  intro y hy ha
  have hap : Apart x y := by
    rcases ha x' hm with h | h | h
    · exact .inl (hk ▸ h)
    · exact .inr (.inl (by omega))
    · exact .inr (.inr (by omega))
  exact (f_setF_ne t n hx hy hap).trans (h y hy ha)

theorem FieldsBut.wr {xs : List RF} {s t : State} (h : FieldsBut xs s t) {k : Nat} (v : Word) (hm : whole k ∈ xs) : FieldsBut xs s (t.wr k v) := by
  intro y hy ha
  rcases ha _ hm with hk | hb | hb
  · exact (f_wr_ne t v hk).trans (h y hy ha)
  · have hlt : y.hi < y.lo := Nat.lt_of_lt_of_le hy (Nat.succ_le_of_lt hb)
    rw [f_of_no_bits _ hlt, f_of_no_bits _ hlt]
  · exact absurd hb (Nat.not_lt_zero _)

/-- Fields of different registers share no bit. -/
theorem Apart.of_key {x y : RF} (h : y.key ≠ x.key) : Apart x y := .inl h

end Sys2Proof.Safety

namespace Sys2Proof.Proofs
open Sys2Proof.Machine Sys2Proof.Safety

/-- A one-bit field is set exactly when it reads 1. -/
theorem on_iff_one {s : State} {x : RF} (hw : x.hi = x.lo) : s.on x = true ↔ s.f x = 1 := by
  have h := f_lt s x
  rw [hw, show x.lo + 1 - x.lo = 1 by omega] at h
  simp only [State.on, bne_iff_ne]
  omega

theorem on_eq_false_iff (s : State) (x : RF) : s.on x = false ↔ s.f x = 0 := by simp [State.on]

end Sys2Proof.Proofs
end

