-- ==== Sys2Proof/Proofs/Log.lean ====
section
/-!
SUPPORT. Proofs/Log.lean: what logging a condition does (R450, R455, R456): the record it leaves, and what it leaves alone.
-/
namespace Sys2Proof.Proofs
open Sys2Proof.Machine Sys2Proof.Safety

/-- Whether a register is outside those that logging writes: `ERR_STAT`, `ERR_LOGP`, `ERR_FIRSTF` and `ERR_PSTAT`. -/
def OffLog (k : Nat) : Prop := k < 0x4_0004 ∨ 0x4_0130 ≤ k

/-- What logging can change: the log and its windows, the handlings that wait, the messages to the host, and the registers of the log. -/
structure LogOnly (s t : State) : Prop where
  parts : t = { s with regs := t.regs, log := t.log, logSeq := t.logSeq, logFull := t.logFull, storm := t.storm, handling := t.handling, out := t.out, msixPend := t.msixPend }
  regs : ∀ k, OffLog k → t.rd k = s.rd k

theorem LogOnly.refl (s : State) : LogOnly s s := ⟨rfl, fun _ _ => rfl⟩

theorem LogOnly.trans {s t u : State} (h₁ : LogOnly s t) (h₂ : LogOnly t u) : LogOnly s u :=
  ⟨h₂.parts.trans (by rw [h₁.parts]), fun k hk => (h₂.regs k hk).trans (h₁.regs k hk)⟩

theorem LogOnly.f {s t : State} (h : LogOnly s t) {x : RF} (hk : OffLog x.key) : t.f x = s.f x := by simp only [State.f, h.regs _ hk]

theorem LogOnly.mem {s t : State} (h : LogOnly s t) : t.mem = s.mem := by rw [h.parts]

theorem LogOnly.frames {s t : State} (h : LogOnly s t) : t.frames = s.frames := by rw [h.parts]

theorem LogOnly.cfg {s t : State} (h : LogOnly s t) : t.cfg = s.cfg := by rw [h.parts]

theorem LogOnly.wr (s : State) {k : Nat} (v : Word) (hk : ¬ OffLog k) : LogOnly s (s.wr k v) :=
  ⟨rfl, fun k' h => by rw [State.rd_wr, if_neg (fun e : k' = k => hk (e ▸ h))]⟩

theorem LogOnly.setF (s : State) {x : RF} (n : Nat) (hk : ¬ OffLog x.key) : LogOnly s (s.setF x n) := LogOnly.wr s _ hk

theorem LogOnly.bump (s : State) {x : RF} (n : Nat) (hk : ¬ OffLog x.key) : LogOnly s (s.bump x n) := LogOnly.setF s _ hk

theorem LogOnly.log (s : State) (m : Map LogRec) (q : Nat) (full : Bool) : LogOnly s { s with log := m, logSeq := q, logFull := full } := ⟨rfl, fun _ _ => rfl⟩

theorem LogOnly.storm (s : State) (m : Map Storm) : LogOnly s { s with storm := m } := ⟨rfl, fun _ _ => rfl⟩

theorem LogOnly.handling (s : State) (hs : List Handling) : LogOnly s { s with handling := hs } := ⟨rfl, fun _ _ => rfl⟩

theorem LogOnly.emit (s : State) (o : Out) : LogOnly s (s.emit o) := ⟨rfl, fun _ _ => rfl⟩

theorem LogOnly.msixPend (s : State) (vs : List Nat) : LogOnly s { s with msixPend := vs } := ⟨rfl, fun _ _ => rfl⟩

theorem not_offLog_errStat : ¬ OffLog ERR_STAT := by simp only [OffLog, ERR_STAT]; omega

theorem not_offLog_errLogp : ¬ OffLog ERR_LOGP := by simp only [OffLog, ERR_LOGP]; omega

theorem countRecord_logOnly (sev part : Nat) (s : State) : LogOnly s (countRecord sev part s) := by
  unfold countRecord
  split
  · have hk : ¬ OffLog (ERR_PSTAT part) := by simp only [OffLog, ERR_PSTAT]; omega
    split
    · exact LogOnly.bump s 1 hk
    · exact LogOnly.bump s 1 hk
    · exact LogOnly.bump s 1 hk
    · exact LogOnly.refl s
  · exact LogOnly.refl s

theorem writeRecord_logOnly (storm : Bool) (count sev part code src : Nat) (nest : Bool) (i0 i1 : Word) (s : State) :
    LogOnly s (writeRecord storm count sev part code src nest i0 i1 s) := by
  have h4 := not_offLog_errStat
  have h8 := not_offLog_errLogp
  have hf (j : Nat) (hj : j < 4) : ¬ OffLog (ERR_FIRSTF j) := by simp only [OffLog, ERR_FIRSTF]; omega
  unfold writeRecord
  extract_lets tail head w1 r full s1 s2 s3
  have h1 : LogOnly s s1 := LogOnly.log s ..
  have h2 : LogOnly s s2 := h1.trans (LogOnly.setF s1 _ h8)
  have h3 : LogOnly s s3 := by
    unfold s3
    split
    · exact h2.trans ((LogOnly.setF s2 _ h8).trans (LogOnly.bump _ _ h4))
    · exact h2
  split
  · exact h3.trans ((LogOnly.wr s3 _ (hf 0 (by omega))).trans ((LogOnly.wr _ _ (hf 1 (by omega))).trans
      ((LogOnly.wr _ _ (hf 2 (by omega))).trans (LogOnly.wr _ _ (hf 3 (by omega))))))
  · exact h3

theorem logPlain_logOnly (code part src : Nat) (i0 i1 : Word) (s : State) : LogOnly s (logPlain code part src i0 i1 s) := by
  unfold logPlain
  extract_lets sev key w lim s1
  have h1 : LogOnly s s1 := countRecord_logOnly sev part s
  split
  · exact h1.trans (LogOnly.storm s1 _)
  · exact h1.trans ((LogOnly.storm s1 _).trans (writeRecord_logOnly ..))

theorem sendMsix_logOnly (fn vec : Nat) (s : State) : LogOnly s (sendMsix fn vec s) := by
  unfold sendMsix
  by_cases h : (if fn = 0 then 512 else 128) ≤ vec
  · rw [if_pos h]; exact logPlain_logOnly ..
  · rw [if_neg h]
    split
    · exact LogOnly.emit s _
    · split
      · exact LogOnly.refl s
      · exact LogOnly.msixPend s _

/-- What logging a contained condition adds to its record: the message, and the handling that waits (R450, R451). -/
theorem logErr_of_contained {code : Nat} (part src : Nat) (i0 i1 : Word) (s : State) (h : sevOf code = 2) :
    ∃ hs n, logErr code part src i0 i1 s =
      let t := (sendMsix 0 ((logPlain code part src i0 i1 s).f ERR_CTL.VEC) (logPlain code part src i0 i1 s)).emit (.aer ((logPlain code part src i0 i1 s).vfOf part) 1)
      if part < 12 then State.setF { t with handling := hs } ERR_STAT.HACT n else t := by
  unfold logErr
  rw [h]
  exact ⟨_, _, rfl⟩

theorem logErr_of_deferred {code : Nat} (part src : Nat) (i0 i1 : Word) (s : State) (h : sevOf code = 1) :
    logErr code part src i0 i1 s =
      let t := logPlain code part src i0 i1 s
      if t.on ERR_CTL.DIRQ then sendMsix 0 (t.f ERR_CTL.VEC) t else t := by
  unfold logErr
  rw [h]
  rfl

theorem logErr_of_corrected {code : Nat} (part src : Nat) (i0 i1 : Word) (s : State) (h : sevOf code = 0) : logErr code part src i0 i1 s = logPlain code part src i0 i1 s := by
  unfold logErr
  rw [h]
  rfl

theorem logErr_of_fatal {code : Nat} (part src : Nat) (i0 i1 : Word) (s : State) (h : sevOf code = 3) :
    ∃ hs n, logErr code part src i0 i1 s = State.setF { logPlain code part src i0 i1 s with handling := hs } ERR_STAT.HACT n := by
  unfold logErr
  rw [h]
  exact ⟨_, _, rfl⟩

theorem sevOf_lt (code : Nat) : sevOf code < 4 := by
  unfold sevOf
  split <;> decide

/-- The four severities of a condition. -/
theorem sevOf_cases (code : Nat) : sevOf code = 0 ∨ sevOf code = 1 ∨ sevOf code = 2 ∨ sevOf code = 3 := by
  have := sevOf_lt code
  omega

theorem logErr_logOnly (code part src : Nat) (i0 i1 : Word) (s : State) : LogOnly s (logErr code part src i0 i1 s) := by
  have h4 := not_offLog_errStat
  have h1 := logPlain_logOnly code part src i0 i1 s
  rcases sevOf_cases code with h | h | h | h
  · rw [logErr_of_corrected _ _ _ _ _ h]; exact h1
  · rw [logErr_of_deferred _ _ _ _ _ h]
    dsimp only
    split
    · exact h1.trans (sendMsix_logOnly ..)
    · exact h1
  · obtain ⟨hs, n, e⟩ := logErr_of_contained part src i0 i1 s h
    rw [e]
    have h2 := (h1.trans (sendMsix_logOnly 0 ((logPlain code part src i0 i1 s).f ERR_CTL.VEC) _)).trans (LogOnly.emit _ (.aer ((logPlain code part src i0 i1 s).vfOf part) 1))
    dsimp only
    split
    · exact h2.trans ((LogOnly.handling _ hs).trans (LogOnly.setF _ n h4))
    · exact h2
  · obtain ⟨hs, n, e⟩ := logErr_of_fatal part src i0 i1 s h
    rw [e]
    exact h1.trans ((LogOnly.handling _ hs).trans (LogOnly.setF _ n h4))

/-! ### The record -/

/-- A record that names its condition, its partition and its source. -/
def Names (code part src : Nat) (r : LogRec) : Prop := bitsOf r.w1.toNat 23 8 = code ∧ bitsOf r.w1.toNat 7 4 = part ∧ bitsOf r.w1.toNat 39 24 = src

/-- One record has joined the log at its tail. -/
def OneRecord (code part src : Nat) (s t : State) : Prop :=
  t.f ERR_LOGP.TAIL = (s.f ERR_LOGP.TAIL + 1) % 4096 ∧ ∃ r, Map.find t.log (s.f ERR_LOGP.TAIL) = some r ∧ Names code part src r

/-- Nothing that a reader of the newest record sees changes. -/
def SameLog (s t : State) : Prop := t.f ERR_LOGP.TAIL = s.f ERR_LOGP.TAIL ∧ t.log = s.log

theorem OneRecord.congr {code part src : Nat} {s s' t t' : State} (h : OneRecord code part src s t) (hs : s.f ERR_LOGP.TAIL = s'.f ERR_LOGP.TAIL) (ht : SameLog t t') :
    OneRecord code part src s' t' := by
  obtain ⟨htail, r, hr, hn⟩ := h
  exact ⟨by rw [ht.1, htail, hs], r, by rw [ht.2, ← hs, hr], hn⟩

theorem OneRecord.of_tail {code part src : Nat} {s s' t : State} (h : OneRecord code part src s t) (hs : s.f ERR_LOGP.TAIL = s'.f ERR_LOGP.TAIL) : OneRecord code part src s' t :=
  h.congr hs ⟨rfl, rfl⟩

/-- A field of another register than `ERR_LOGP` is written. -/
theorem SameLog.wr (s : State) {k : Nat} (v : Word) (hk : ERR_LOGP ≠ k) : SameLog s (s.wr k v) := ⟨f_wr_ne s v hk, rfl⟩

theorem writeRecord_one (storm : Bool) {count sev part code src : Nat} (nest : Bool) (i0 i1 : Word) (s : State) (hv : sev < 4) (hp : part < 16) (hc : code < 2 ^ 16)
    (hs : src < 2 ^ 16) : OneRecord code part src s (writeRecord storm count sev part code src nest i0 i1 s) := by
  have ht : RFok ERR_LOGP.TAIL = true := rfl
  have hb (b : Bool) : b2n b ≤ 1 := by cases b <;> decide
  have h1 := hb nest
  have h2 := hb storm
  unfold writeRecord
  extract_lets tail head w1 r full s1 s2 s3
  have hw : w1 < 2 ^ 64 := by simp only [w1]; omega
  have hr : Names code part src r := by
    have e : r.w1.toNat = w1 := by simp only [r, BitVec.toNat_ofNat]; omega
    simp only [Names, e, bitsOf, w1]
    omega
  have h12 : OneRecord code part src s s2 := by
    refine ⟨f_setF_fits _ ht (Nat.mod_lt _ (by decide)), r, ?_, hr⟩
    simp [s2, s1, Map.find_set, tail]
  have h3 : OneRecord code part src s s3 := by
    unfold s3
    split
    · refine h12.congr rfl ⟨?_, rfl⟩
      rw [State.bump, f_setF_ne _ _ rfl (by decide) (.inl (by decide)), f_setF_ne _ _ rfl (by decide) (.inr (by decide))]
    · exact h12
  split
  · refine h3.congr rfl ⟨?_, rfl⟩
    rw [f_wr_ne _ _ (by decide), f_wr_ne _ _ (by decide), f_wr_ne _ _ (by decide), f_wr_ne _ _ (by decide)]
  · exact h3

/-- Counting a record touches no pointer of the log. -/
theorem countRecord_sameLog (sev part : Nat) (s : State) : SameLog s (countRecord sev part s) := by
  have hn : ERR_LOGP ≠ ERR_PSTAT part := by simp only [ERR_LOGP, ERR_PSTAT]; omega
  unfold countRecord
  by_cases h : part < 12
  · rw [if_pos h]
    split
    · exact SameLog.wr s _ hn
    · exact SameLog.wr s _ hn
    · exact SameLog.wr s _ hn
    · exact ⟨rfl, rfl⟩
  · rw [if_neg h]; exact ⟨rfl, rfl⟩

theorem logPlain_one {code part src : Nat} (i0 i1 : Word) (s : State) (hp : part < 16) (hc : code < 2 ^ 16) (hs : src < 2 ^ 16) (h0 : s.f ERR_CTL.STORM = 0) :
    OneRecord code part src s (logPlain code part src i0 i1 s) := by
  unfold logPlain
  extract_lets sev key w lim s1
  have hl : lim = 0 := h0
  rw [if_neg (by simp [hl])]
  refine (writeRecord_one false _ i0 i1 _ (sevOf_lt code) hp hc hs).of_tail ?_
  exact (State.f_congr (s := s1) rfl _).trans (countRecord_sameLog sev part s).1

theorem sendMsix_sameLog {vec : Nat} (s : State) (hv : vec < 512) : SameLog s (sendMsix 0 vec s) := by
  unfold sendMsix
  rw [if_neg (by simpa using hv)]
  split
  · exact ⟨rfl, rfl⟩
  · split <;> exact ⟨rfl, rfl⟩

/-- With no storm limit, and a vector in the table where the condition sends one, logging leaves one record (R455, R456). -/
theorem logErr_one {code part src : Nat} (i0 i1 : Word) (s : State) (hp : part < 16) (hc : code < 2 ^ 16) (hs : src < 2 ^ 16) (h0 : s.f ERR_CTL.STORM = 0)
    (hv : sevOf code ≠ 0 → s.f ERR_CTL.VEC < 512) : OneRecord code part src s (logErr code part src i0 i1 s) := by
  have h1 := logPlain_one i0 i1 s hp hc hs h0
  have hvec : (logPlain code part src i0 i1 s).f ERR_CTL.VEC = s.f ERR_CTL.VEC := (logPlain_logOnly ..).f (.inl (by decide))
  have hact (t : State) (hs : List Handling) (n : Nat) : SameLog t (State.setF { t with handling := hs } ERR_STAT.HACT n) := ⟨f_wr_ne _ _ (by decide), rfl⟩
  rcases sevOf_cases code with h | h | h | h
  · rw [logErr_of_corrected _ _ _ _ _ h]; exact h1
  · rw [logErr_of_deferred _ _ _ _ _ h]
    dsimp only
    split
    · exact h1.congr rfl (sendMsix_sameLog _ (hvec ▸ hv (by simp [h])))
    · exact h1
  · obtain ⟨hs, n, e⟩ := logErr_of_contained part src i0 i1 s h
    have hm := sendMsix_sameLog (logPlain code part src i0 i1 s) (hvec ▸ hv (by simp [h]))
    have h2 : OneRecord code part src s ((sendMsix 0 _ _).emit (.aer ((logPlain code part src i0 i1 s).vfOf part) 1)) := h1.congr rfl ⟨hm.1, hm.2⟩
    rw [e]
    dsimp only
    split
    · exact h2.congr rfl (hact _ hs n)
    · exact h2
  · obtain ⟨hs, n, e⟩ := logErr_of_fatal part src i0 i1 s h
    rw [e]
    exact h1.congr rfl (hact _ hs n)

/-- What the statements say of a logged condition. -/
theorem logErr_logged {code part src : Nat} (i0 i1 : Word) (s : State) (hp : part < 16) (hc : code < 2 ^ 16) (hs : src < 2 ^ 16) :
    Logged code part src s (logErr code part src i0 i1 s) :=
  fun h0 hv => logErr_one i0 i1 s hp hc hs h0 fun _ => hv

theorem srcOf_lt {kind : Nat} (num : Nat) (h : kind < 16) : srcOf kind num < 2 ^ 16 := by simp only [srcOf]; omega

/-- What is logged from a state that reads the same tail, limit and vector. -/
theorem logged_congr {code part src : Nat} {s s' t t' : State} (h : Logged code part src s t) (hf : ∀ k, k = ERR_CTL ∨ k = ERR_LOGP → s'.rd k = s.rd k) (ht : SameLog t t') :
    Logged code part src s' t' := by
  intro h0 hv
  have hr (x : RF) (hx : x.key = ERR_CTL ∨ x.key = ERR_LOGP) : s'.f x = s.f x := by simp only [State.f, hf _ hx]
  rw [hr _ (.inl rfl)] at h0 hv
  exact OneRecord.congr (h h0 hv) (hr _ (.inr rfl)).symm ht

end Sys2Proof.Proofs
end

