-- ==== Sys2Proof/Proofs/Writes.lean ====
section
/-!
SUPPORT. Proofs/Writes.lean: what a write of a register does to its fields by access code (R12, R13).
-/
namespace Sys2Proof.Proofs
open Sys2Proof.Machine Sys2Proof.Safety

theorem wr_wr (s : State) (k : Nat) (v w : Word) : (s.wr k v).wr k w = s.wr k w := by
  simp [State.wr, Map.set_set]

/-- A number as a word of which a field is read: the bits of the field. -/
theorem getBits_ofNat {v hi lo : Nat} (h : hi < 64) : getBits (BitVec.ofNat 64 v) hi lo = bitsOf v hi lo := by
  apply Nat.eq_of_testBit_eq
  intro i
  rw [getBits_testBit, BitVec.getLsbD_ofNat, bitsOf, Nat.testBit_mod_two_pow, Nat.testBit_div_two_pow, Nat.add_comm i lo]
  by_cases hi' : i < hi + 1 - lo
  · have : lo + i < 64 := by omega
    simp [hi', this]
  · simp [hi']

/-- The bits of a field of a word that a narrower write carries. -/
theorem bitsOf_mod (v : Nat) {hi lo w : Nat} (hl : lo ≤ hi) (h : hi < w) : bitsOf (v % 2 ^ w) hi lo = bitsOf v hi lo := by
  apply Nat.eq_of_testBit_eq
  intro i
  simp only [bitsOf, Nat.testBit_mod_two_pow, Nat.testBit_div_two_pow]
  by_cases hi' : i < hi + 1 - lo
  · have : i + lo < w := by omega
    simp [hi', this]
  · simp [hi']

theorem bitsOf_eq_extract {w : Nat} (v : BitVec w) (hi lo : Nat) : bitsOf v.toNat hi lo = (v.extractLsb' lo (hi + 1 - lo)).toNat := by
  rw [bitsOf, BitVec.extractLsb'_toNat, Nat.shiftRight_eq_div_pow]

theorem mask_bit {f : Fld} (hl : f.lo ≤ f.hi) (hh : f.hi < 64) (i : Nat) : f.mask.getLsbD i = decide (f.lo ≤ i ∧ i ≤ f.hi) := by
  rw [Fld.mask, BitVec.getLsbD_ofNat, Nat.testBit_mul_two_pow, Nat.testBit_two_pow_sub_one, Bool.eq_iff_iff]
  simp only [Bool.and_eq_true, decide_eq_true_eq]
  omega

theorem getBits_bit_eq_one {v : Word} {b : Nat} : getBits v b b = 1 ↔ v.getLsbD b = true := by
  simp only [getBits, bitsOf, BitVec.getLsbD, Nat.testBit_eq_decide_div_mod_eq, decide_eq_true_eq]
  rw [show b + 1 - b = 1 by omega, Nat.pow_one]

/-- Writing the bits of a field of `v` is setting the field to its value in `v`. -/
theorem blend_mask {f : Fld} (hl : f.lo ≤ f.hi) (hh : f.hi < 64) (old v : Word) : blend f.mask old v = setBits old f.hi f.lo (getBits v f.hi f.lo) := by
  apply BitVec.eq_of_getLsbD_eq
  intro i hi
  have hm := mask_bit hl hh i
  rw [setBits_bit _ _ _ _ _ hl hh hi, getBits_testBit]
  simp only [blend, BitVec.getLsbD_or, BitVec.getLsbD_and, BitVec.getLsbD_not, hm, hi, decide_true, Bool.true_and]
  by_cases h : f.lo ≤ i ∧ i ≤ f.hi
  · have h1 : i - f.lo < f.hi + 1 - f.lo := by omega
    have h2 : f.lo + (i - f.lo) = i := by omega
    simp [h, h1, h2]
  · simp [h]

/-- A mask compares the bits of its field. -/
theorem and_mask_eq_iff {f : Fld} (hl : f.lo ≤ f.hi) (hh : f.hi < 64) (v w : Word) : v &&& f.mask = w &&& f.mask ↔ getBits v f.hi f.lo = getBits w f.hi f.lo := by
  have hm := mask_bit hl hh
  constructor
  · intro h
    apply Nat.eq_of_testBit_eq
    intro i
    rw [getBits_testBit, getBits_testBit]
    by_cases hi : i < f.hi + 1 - f.lo
    · have hb := congrArg (fun x : Word => x.getLsbD (f.lo + i)) h
      have hin : f.lo ≤ f.lo + i ∧ f.lo + i ≤ f.hi := by omega
      rw [BitVec.getLsbD_and, BitVec.getLsbD_and, hm, decide_eq_true hin, Bool.and_true, Bool.and_true] at hb
      rw [hb]
    · simp [hi]
  · intro h
    apply BitVec.eq_of_getLsbD_eq
    intro i _
    rw [BitVec.getLsbD_and, BitVec.getLsbD_and, hm]
    by_cases hi : f.lo ≤ i ∧ i ≤ f.hi
    · have hb := congrArg (fun x => x.testBit (i - f.lo)) h
      have h1 : i - f.lo < f.hi + 1 - f.lo := by omega
      have h2 : f.lo + (i - f.lo) = i := by omega
      simp only [getBits_testBit, h1, decide_true, Bool.true_and, h2] at hb
      rw [hb]
    · simp [hi]

/-- A write of 1 to a bit that is set by 1 sets it. -/
theorem or_mask_of_one {f : Fld} (hw : f.hi = f.lo) (hh : f.hi < 64) {old v : Word} (h : getBits v f.hi f.lo = 1) : old ||| (v &&& f.mask) = setBits old f.hi f.lo 1 := by
  apply BitVec.eq_of_getLsbD_eq
  intro i hi
  have hv : v.getLsbD f.lo = true := getBits_bit_eq_one.1 (hw ▸ h)
  rw [setBits_bit _ _ _ _ _ (by omega) hh hi, BitVec.getLsbD_or, BitVec.getLsbD_and, mask_bit (by omega) hh]
  by_cases he : f.lo ≤ i ∧ i ≤ f.hi
  · have e : i = f.lo := by omega
    simp [e, hv, hw]
  · simp [he]

/-- A bit that reads 1 already is set by no write. -/
theorem or_mask_of_set {f : Fld} (hw : f.hi = f.lo) (hh : f.hi < 64) {old : Word} (v : Word) (h : getBits old f.hi f.lo = 1) : old ||| (v &&& f.mask) = old := by
  apply BitVec.eq_of_getLsbD_eq
  intro i _
  have ho : old.getLsbD f.lo = true := getBits_bit_eq_one.1 (hw ▸ h)
  rw [BitVec.getLsbD_or, BitVec.getLsbD_and, mask_bit (by omega) hh]
  by_cases he : f.lo ≤ i ∧ i ≤ f.hi
  · have e : i = f.lo := by omega
    rw [e, ho, Bool.true_or]
  · simp [he]

/-- A write of a register whose lock bit is not set. -/
theorem fieldWrite_unlocked {k : Nat} {d : RegD} (v : Word) (s : State) (hd : regDesc k = some d) (hk : s.locks k = false) :
    fieldWrite k v s = s.wr k (d.flds.foldl (fun a f => f.write false v a) (s.rd k)) := by
  simp [fieldWrite, hd, hk]

end Sys2Proof.Proofs

namespace Sys2Proof.Safety
open Sys2Proof.Machine

/-- A register written with its own value reads as before. -/
theorem FieldsBut.wr_rd (xs : List RF) (s : State) (k : Nat) : FieldsBut xs s (s.wr k (s.rd k)) := by
  intro y _ _
  simp only [State.f, State.rd_wr]
  split
  next h => rw [h]
  next => rfl

end Sys2Proof.Safety

namespace Sys2Proof.Proofs
open Sys2Proof.Machine Sys2Proof.Safety

/-! ### The locked policy register (R13, R387) -/

/-- The three fields that the lock keeps. -/
def policyFields : RF := ⟨CFG_POLICY, 2, 0⟩

/-- The descriptor of `CFG_POLICY`. -/
def policyDesc : RegD :=
  ⟨0x2C, 0x0, 1, false, [⟨31, 31, .w1s, 0, true⟩, ⟨15, 12, .ro, 0, true⟩, ⟨11, 8, .ro, 0, true⟩, ⟨7, 6, .ro, 0, true⟩, ⟨5, 4, .ro, 0, true⟩, ⟨2, 2, .rwl, 0x1, true⟩,
    ⟨1, 1, .rwl, 0, true⟩, ⟨0, 0, .rwl, 0, true⟩]⟩

theorem regDesc_policy : regDesc CFG_POLICY = some policyDesc := rfl

theorem f_policyFields (s : State) :
    s.f policyFields = s.f CFG_POLICY.REQSIG + 2 * s.f CFG_POLICY.REQENC + 4 * s.f CFG_POLICY.LIVEEN := by
  simp only [State.f, getBits, bitsOf, policyFields, CFG_POLICY.REQSIG, CFG_POLICY.REQENC, CFG_POLICY.LIVEEN]
  omega

/-- A write of the locked policy register keeps it, and is logged exactly when it would change a locked field. -/
theorem fieldWrite_policy_locked (v : Word) {s : State} (h : s.f CFG_POLICY.LOCK = 1) : fieldWrite CFG_POLICY v s =
    let t := s.wr CFG_POLICY (s.rd CFG_POLICY)
    if getBits v 2 0 = s.f policyFields then t else logErr 0x0A01 15 (srcOf 7 3) (BitVec.ofNat 64 CFG_POLICY) 0 t := by
  have hl : s.locks CFG_POLICY = true := (on_iff_one rfl).2 h
  have hw : policyDesc.flds.foldl (fun a f => f.write true v a) (s.rd CFG_POLICY) = s.rd CFG_POLICY := by
    simp only [policyDesc, List.foldl_cons, List.foldl_nil, Fld.write, if_true]
    exact or_mask_of_set (f := ⟨31, 31, .w1s, 0, true⟩) rfl (by decide) v h
  have hr : policyDesc.flds.any (fun f => f.refused v (s.rd CFG_POLICY)) = true ↔ getBits v 2 0 ≠ s.f policyFields := by
    simp only [policyDesc, List.any_cons, List.any_nil, Fld.refused, Bool.false_or, Bool.or_false, Bool.or_eq_true, bne_iff_ne, ne_eq]
    rw [and_mask_eq_iff (by decide) (by decide), and_mask_eq_iff (by decide) (by decide), and_mask_eq_iff (by decide) (by decide)]
    simp only [State.f, getBits, bitsOf, policyFields]
    omega
  simp only [fieldWrite, regDesc_policy, hl, hw, Bool.true_and]
  by_cases he : getBits v 2 0 = s.f policyFields
  · rw [if_neg (fun hc => hr.1 hc he), if_pos he]
  · rw [if_pos (hr.2 he), if_neg he]
    rfl

/-- With the lock set, the policy register keeps its value. -/
theorem rd_policy_locked (v : Word) {s : State} (h : s.f CFG_POLICY.LOCK = 1) : (fieldWrite CFG_POLICY v s).rd CFG_POLICY = s.rd CFG_POLICY := by
  rw [fieldWrite_policy_locked v h]
  dsimp only
  split
  · simp
  · rw [(logErr_logOnly ..).regs _ (.inl (by decide))]; simp

/-- The write that locks the policy register sets its fields too. -/
theorem fieldWrite_policy_lock {v : Word} {s : State} (h : s.f CFG_POLICY.LOCK = 0) (hv : getBits v 31 31 = 1) : fieldWrite CFG_POLICY v s =
    ((((s.wr CFG_POLICY (s.rd CFG_POLICY)).setF CFG_POLICY.LOCK 1).setF CFG_POLICY.LIVEEN (getBits v 2 2)).setF CFG_POLICY.REQENC (getBits v 1 1)).setF CFG_POLICY.REQSIG
      (getBits v 0 0) := by
  have hl : s.locks CFG_POLICY = false := (on_eq_false_iff s _).2 h
  rw [fieldWrite_unlocked v s regDesc_policy hl]
  simp only [policyDesc, List.foldl_cons, List.foldl_nil, Fld.write, Bool.false_eq_true, if_false]
  rw [or_mask_of_one (f := ⟨31, 31, .w1s, 0, true⟩) rfl (by decide) hv, blend_mask (by decide) (by decide), blend_mask (by decide) (by decide),
    blend_mask (by decide) (by decide)]
  simp only [State.setF, State.rd_wr, wr_wr, if_true, CFG_POLICY.LOCK, CFG_POLICY.LIVEEN, CFG_POLICY.REQENC, CFG_POLICY.REQSIG]

end Sys2Proof.Proofs
end

