-- ==== Sys2Proof/Proofs/RegisterAccess.lean ====
section
/-!
PROOFS. Proofs/RegisterAccess.lean: host accesses to registers of BAR0 (R10 to R13, R33, R280, R390).
-/
namespace Sys2Proof.Proofs
open Sys2Proof.Machine Sys2Proof.Safety

/-! ### The access -/

/-- A write by a function that answers, aligned to its size. -/
theorem exec_registerWrite {f : Fin 13} {off : BitVec 24} {wide : Bool} (v : BitVec 64) {s : State} (hf : s.fnOpen f = true)
    (ha : off.toNat % (if wide then 8 else 4) = 0) :
    exec (.registerWrite f false off wide v) s = .next (barWrite (.fn f) off.toNat (if wide then 8 else 4) v.toNat s).2 := by
  show execRegisterWrite f false off wide v s = _
  simp [execRegisterWrite, hf, ha]

/-- A write of a register, behind a running clock, by a requester that reaches it. -/
theorem barWrite_register {w : Who} {off size v : Nat} {s : State} {p : Place} (hr : s.reaches w off = true) (ha : off / 4 * 4 = off) (hp : placeOf w off = some p)
    (hw : inCfgWindow off = false) (hc : s.regClk off = true) : (barWrite w off size v s).2 = placeWrite w p size (v % 2 ^ (8 * size)) s := by
  simp [barWrite, hr, named, ha, hp, hc, hw]

/-- A write of an offset without a register. -/
theorem barWrite_unnamed {w : Who} {off size v : Nat} {s : State} (hr : s.reaches w off = true) (hn : named w off = false) : (barWrite w off size v s).2 = s := by
  simp [barWrite, hr, hn]

theorem reaches_pf (s : State) (off : Nat) : s.reaches (.fn 0) off = true := rfl

/-- An access of the physical function to a register at a fixed offset. -/
theorem exec_registerWrite_pf {o : Nat} {wide : Bool} (v : BitVec 64) {s : State} {p : Place} (hf : s.fnOpen 0 = true) (ho : o < 2 ^ 24)
    (ha : o % (if wide then 8 else 4) = 0) (hp : placeOf (.fn 0) o = some p) (hw : inCfgWindow o = false) (hc : s.regClk o = true) :
    exec (.registerWrite 0 false (BitVec.ofNat 24 o) wide v) s =
      .next (placeWrite (.fn 0) p (if wide then 8 else 4) (v.toNat % 2 ^ (8 * if wide then 8 else 4)) s) := by
  have e : (BitVec.ofNat 24 o).toNat = o := by rw [BitVec.toNat_ofNat, Nat.mod_eq_of_lt ho]
  have h4 : o / 4 * 4 = o := by cases wide <;> simp at ha <;> omega
  rw [exec_registerWrite (f := 0) v hf (by rw [e]; exact ha), e]
  show Host.Outcome.next (barWrite (.fn 0) o (if wide then 8 else 4) v.toNat s).2 = _
  rw [barWrite_register (reaches_pf s o) h4 hp hw hc]

/-! ### `ERR_CTL` -/

theorem fieldWrite_errCtl (v : Word) (s : State) : fieldWrite ERR_CTL v s =
    ((((s.wr ERR_CTL (s.rd ERR_CTL)).setF ERR_CTL.XSTOP (getBits v 31 31)).setF ERR_CTL.DIRQ (getBits v 30 30)).setF ERR_CTL.VEC (getBits v 26 16)).setF ERR_CTL.STORM
      (getBits v 15 0) := by
  rw [fieldWrite_unlocked v s (d := ⟨0, 0, 1, false, [⟨31, 31, .rw, 1, true⟩, ⟨30, 30, .rw, 0, true⟩, ⟨26, 16, .rw, 0, true⟩, ⟨15, 0, .rw, 0x40, true⟩]⟩) rfl rfl]
  simp only [List.foldl_cons, List.foldl_nil, Fld.write]
  rw [blend_mask (by decide) (by decide), blend_mask (by decide) (by decide), blend_mask (by decide) (by decide), blend_mask (by decide) (by decide)]
  simp only [State.setF, State.rd_wr, wr_wr, if_true, ERR_CTL.XSTOP, ERR_CTL.DIRQ, ERR_CTL.VEC, ERR_CTL.STORM]

/-- A write of `ERR_CTL` sets its four fields, and no other. -/
theorem fieldWrite_errCtl_fields (v : Word) (s : State) :
    let t := fieldWrite ERR_CTL v s
    t.f ERR_CTL.XSTOP = getBits v 31 31 ∧ t.f ERR_CTL.DIRQ = getBits v 30 30 ∧ t.f ERR_CTL.VEC = getBits v 26 16 ∧ t.f ERR_CTL.STORM = getBits v 15 0 ∧
      OnlyFields [ERR_CTL.XSTOP, ERR_CTL.DIRQ, ERR_CTL.VEC, ERR_CTL.STORM] s t := by
  intro t
  have hlt (hi lo : Nat) : getBits v hi lo < 2 ^ (hi + 1 - lo) := Nat.mod_lt _ (by positivity)
  have e : t = _ := fieldWrite_errCtl v s
  refine ⟨?_, ?_, ?_, ?_, ?_, ?_⟩
  · rw [e, f_setF_ne _ _ rfl (by decide) (.inr (by decide)), f_setF_ne _ _ rfl (by decide) (.inr (by decide)), f_setF_ne _ _ rfl (by decide) (.inr (by decide)),
      f_setF_fits _ rfl (hlt 31 31)]
  · rw [e, f_setF_ne _ _ rfl (by decide) (.inr (by decide)), f_setF_ne _ _ rfl (by decide) (.inr (by decide)), f_setF_fits _ rfl (hlt 30 30)]
  · rw [e, f_setF_ne _ _ rfl (by decide) (.inr (by decide)), f_setF_fits _ rfl (hlt 26 16)]
  · rw [e, f_setF_fits _ rfl (hlt 15 0)]
  · rw [e]; rfl
  · rw [e]
    exact ((((FieldsBut.wr_rd _ s ERR_CTL).setF _ rfl (by simp)).setF _ rfl (by simp)).setF _ rfl (by simp)).setF _ rfl (by simp)

/-! ### `MMU_PARTn` -/

theorem mmuPart_lt (n : Fin 12) : 0xFC_0000 ≤ MMU_PART n ∧ MMU_PART n < 0xFC_00C0 ∧ MMU_PART n % 16 = 0 := by
  have := n.isLt
  simp only [MMU_PART]
  omega

theorem regDesc_mmuPart : ∀ n : Fin 12, regDesc (MMU_PART n) = some ⟨0, 0x10, 12, true, [⟨51, 12, .rw, 0, true⟩, ⟨11, 0, .rw, 0, true⟩]⟩ := by
  intro n
  fin_cases n <;> rfl

/-- A register that is not one of a function's own host link registers stands at the same place for every requester. -/
theorem placeOf_shared {off : Nat} (w : Who) (h : ownLink off = false) : placeOf w off = placeOf (.fn 0) off := by
  have e (w : Who) : linkKey w off = off := by
    unfold linkKey
    exact if_neg (by rw [h]; decide)
  unfold placeOf
  rw [e w, e (.fn 0)]

theorem ownLink_above {off : Nat} (h : 0x8_0014 < off) : ownLink off = false := by
  simp only [ownLink, Bool.or_eq_false_iff, beq_eq_false_iff_ne]
  omega

theorem placeOf_mmuPart (w : Who) (n : Fin 12) : placeOf w (MMU_PART n) = some ⟨MMU_PART n, true, false⟩ := by
  have h := mmuPart_lt n
  rw [placeOf_shared w (ownLink_above (by omega))]
  revert n
  decide +kernel

theorem placeOf_mmuPart_upper (w : Who) (n : Fin 12) : placeOf w (MMU_PART n + 4) = some ⟨MMU_PART n, true, true⟩ := by
  have h := mmuPart_lt n
  rw [placeOf_shared w (ownLink_above (by omega))]
  revert n
  decide +kernel

theorem regClk_mmu {off : Nat} (s : State) (h : 0xFC_0000 ≤ off) : s.regClk off = s.dmaClk := by
  unfold State.regClk
  iterate 12 rw [if_neg (by omega)]

theorem inCfgWindow_above {off : Nat} (h : 0x4_0000 ≤ off) : inCfgWindow off = false := by
  simp only [inCfgWindow, Bool.and_eq_false_iff, decide_eq_false_iff_not]
  omega

/-- A write of `MMU_PARTn` by a requester that may write it. -/
theorem regWrite_mmuPart {w : Who} {n : Fin 12} (v : Word) {s : State} (h : s.mayWrite w n = true) : regWrite w (MMU_PART n) v s = fieldWrite (MMU_PART n) v s := by
  obtain ⟨hlo, hhi, -⟩ := mmuPart_lt n
  have hix : (MMU_PART n - 0xFC_0000) / 0x10 = n := by simp only [MMU_PART]; omega
  have hlog : inLog (MMU_PART n) = false := by simp only [inLog, Bool.and_eq_false_iff, decide_eq_false_iff_not]; omega
  have hinv : MMU_INV = 0xFC_0100 := rfl
  unfold regWrite
  rw [if_neg (by omega), if_neg (by omega), if_neg (by omega), if_neg (by omega), if_neg (by simp [hlog])]
  iterate 9 rw [if_neg (by omega)]
  rw [if_pos (by omega), mmuWrite, if_neg (by omega), if_pos (by omega)]
  simp only [hix, h, if_true]

theorem fieldWrite_mmuPart (n : Fin 12) (v : Word) (s : State) : fieldWrite (MMU_PART n) v s =
    ((s.wr (MMU_PART n) (s.rd (MMU_PART n))).setF (MMU_PART.PTBASE n) (getBits v 51 12)).setF (MMU_PART.ASID n) (getBits v 11 0) := by
  obtain ⟨hlo, -, -⟩ := mmuPart_lt n
  have hl : s.locks (MMU_PART n) = false := by
    unfold State.locks
    rw [if_neg (by omega), if_neg (by omega)]
  rw [fieldWrite_unlocked v s (regDesc_mmuPart n) hl]
  simp only [List.foldl_cons, List.foldl_nil, Fld.write]
  rw [blend_mask (by decide) (by decide), blend_mask (by decide) (by decide)]
  simp only [State.setF, State.rd_wr, wr_wr, if_true, MMU_PART.PTBASE, MMU_PART.ASID]

/-- A write of `MMU_PARTn` sets `PTBASE` and `ASID`, and no other field. -/
theorem fieldWrite_mmuPart_fields (n : Fin 12) (v : Word) (s : State) :
    let t := fieldWrite (MMU_PART n) v s
    t.f (MMU_PART.PTBASE n) = (v.extractLsb' 12 40).toNat ∧ t.f (MMU_PART.ASID n) = (v.extractLsb' 0 12).toNat ∧
      OnlyFields [MMU_PART.PTBASE n, MMU_PART.ASID n] s t := by
  intro t
  have hlt (hi lo : Nat) : getBits v hi lo < 2 ^ (hi + 1 - lo) := Nat.mod_lt _ (by positivity)
  have e : t = _ := fieldWrite_mmuPart n v s
  refine ⟨?_, ?_, ?_, ?_⟩
  · rw [e, f_setF_ne _ _ rfl (Nat.le_of_ble_eq_true rfl) (.inr (.inl (Nat.le_of_ble_eq_true rfl))), f_setF_fits _ rfl (hlt 51 12)]
    exact bitsOf_eq_extract v 51 12
  · rw [e, f_setF_fits _ rfl (hlt 11 0)]
    exact bitsOf_eq_extract v 11 0
  · rw [e]; rfl
  · rw [e]
    exact ((FieldsBut.wr_rd _ s _).setF _ rfl (by simp)).setF _ rfl (by simp)

/-! ### What a virtual function reaches (R390) -/

theorem reaches_vf {f : Nat} (s : State) (off : Nat) (hf : f ≠ 0) : s.reaches (.fn f) off =
    (off == GLB_DEVICE_ID || off == GLB_REVISION || ownLink off ||
      (match s.vfPart f with
       | some n => s.partReach n off
       | none => false)) := by
  cases f with
  | zero => exact absurd rfl hf
  | succ f => rfl

/-- Of the partitions' translation registers a virtual function reaches its own. -/
theorem reaches_mmuPart {f n : Nat} {s : State} (m : Fin 12) (hf : f ≠ 0) (hp : s.vfPart f = some n) : s.reaches (.fn f) (MMU_PART m) = decide (m.val = n) := by
  obtain ⟨hlo, hhi, hal⟩ := mmuPart_lt m
  have hd : GLB_DEVICE_ID = 0 := rfl
  have hr : GLB_REVISION = 4 := rfl
  have hinv : MMU_INV = 0xFC_0100 := rfl
  have hst : MMU_STAT = 0xFC_0108 := rfl
  have hpart : s.partReach n (MMU_PART m) = decide (m.val = n) := by
    unfold State.partReach
    iterate 13 rw [if_neg (by omega)]
    rw [Bool.eq_iff_iff]
    simp only [Bool.or_eq_true, beq_iff_eq, decide_eq_true_eq]
    simp only [MMU_PART] at hlo hhi hal ⊢
    omega
  rw [reaches_vf s _ hf, hp, ownLink_above (by omega)]
  simp only [hpart]
  rw [beq_eq_false_iff_ne.2 (by omega), beq_eq_false_iff_ne.2 (by omega)]
  rfl

end Sys2Proof.Proofs
end

