-- ==== Sys2Proof/Proofs/Bytes.lean ====
section
/-!
SUPPORT. Proofs/Bytes.lean: what a memory reads after bytes were stored in it, and the numbers that its bytes spell (R136, R194).
-/
namespace Sys2Proof.Machine

theorem bytesLE_length (n v : Nat) : (bytesLE n v).length = n := by
  induction n generalizing v with
  | zero => rfl
  | succ n ih => simp [bytesLE, ih]

/-- Byte `k` of a number. -/
theorem bytesLE_getD {n k : Nat} (v : Nat) (h : k < n) : (bytesLE n v).getD k 0 = BitVec.ofNat 8 (v / 256 ^ k) := by
  induction n generalizing v k with
  | zero => omega
  | succ n ih =>
    cases k with
    | zero => simp [bytesLE]
    | succ k => rw [bytesLE, List.getD_cons_succ, ih _ (by omega), Nat.div_div_eq_div_mul, Nat.pow_succ']

/-- A read after bytes were stored in a canonical memory: the bytes stored, every other byte as before. -/
theorem Memory.get_puts (m : Memory) (a : Nat) (bs : List Byte) (b : Nat) (hm : Memory.wf m = true) :
    Memory.get (Memory.puts m a bs) b = if a ≤ b ∧ b < a + bs.length then bs.getD (b - a) 0 else Memory.get m b := by
  induction bs generalizing m a with
  | nil => rw [if_neg (by simp)]; rfl
  | cons x bs ih =>
    rw [Memory.puts, ih _ _ (Memory.put_wf m a x hm), Memory.get_put m a x b hm, List.length_cons]
    by_cases h : b = a
    · subst h; simp
    · by_cases h1 : a + 1 ≤ b ∧ b < a + 1 + bs.length
      · rw [if_pos h1, if_pos (by omega), show b - a = b - (a + 1) + 1 by omega, List.getD_cons_succ]
      · rw [if_neg h1, if_neg h, if_neg (by omega)]

theorem Memory.num_zero (m : Memory) (a : Nat) : Memory.num m a 0 = 0 := rfl

theorem Memory.num_one (m : Memory) (a : Nat) : Memory.num m a 1 = (Memory.get m a).toNat := by
  simp [Memory.num, Memory.gets, numLE]

theorem Memory.num_succ (m : Memory) (a n : Nat) : Memory.num m a (n + 1) = (Memory.get m a).toNat + 256 * Memory.num m (a + 1) n := rfl

/-- A number is spelled by its lower bytes and its highest one. -/
theorem Memory.num_snoc (m : Memory) (a n : Nat) : Memory.num m a (n + 1) = Memory.num m a n + (Memory.get m (a + n)).toNat * 256 ^ n := by
  induction n generalizing a with
  | zero => simp [Memory.num_one, Memory.num_zero]
  | succ n ih =>
    rw [Memory.num_succ, ih, Memory.num_succ m a n, Nat.add_assoc a 1 n, Nat.add_comm 1 n, Nat.pow_succ]
    ring

/-- The bytes of a number spell it. -/
theorem numLE_bytesLE (n v : Nat) : numLE (bytesLE n v) = v % 256 ^ n := by
  induction n generalizing v with
  | zero => simp [bytesLE, numLE, Nat.mod_one]
  | succ n ih =>
    have h : (BitVec.ofNat 8 v).toNat = v % 256 := BitVec.toNat_ofNat v 8
    rw [bytesLE, numLE, ih, h, Nat.pow_succ', Nat.mod_mul]

theorem Memory.gets_eq_map (m : Memory) (a n : Nat) : Memory.gets m a n = (List.range n).map (fun k => Memory.get m (a + k)) := by
  induction n generalizing a with
  | zero => rfl
  | succ n ih =>
    rw [Memory.gets, ih, List.range_succ_eq_map, List.map_cons, List.map_map]
    congr 1
    exact List.map_congr_left fun k _ => by rw [Function.comp_apply, Nat.add_assoc, Nat.add_comm 1 k]

theorem Memory.gets_length (m : Memory) (a n : Nat) : (Memory.gets m a n).length = n := by simp [Memory.gets_eq_map]

/-- Bytes that were stored, read together. -/
theorem Memory.gets_puts (m : Memory) (a : Nat) (bs : List Byte) {i n : Nat} (hm : Memory.wf m = true) (h : i + n ≤ bs.length) :
    Memory.gets (Memory.puts m a bs) (a + i) n = (bs.drop i).take n := by
  rw [Memory.gets_eq_map]
  apply List.ext_getElem
  · simp only [List.length_map, List.length_range, List.length_take, List.length_drop]
    omega
  · intro k h1 _
    have hk : k < n := by simpa using h1
    rw [List.getElem_map, List.getElem_range, Memory.get_puts _ _ _ _ hm, if_pos (by omega), List.getElem_take, List.getElem_drop,
      show a + i + k - a = i + k by omega, List.getD_eq_getElem _ _ (by omega)]

/-- A wiped range reads zero. -/
theorem Memory.get_wipe (m : Memory) (lo hi a : Nat) : Memory.get (Memory.wipe m lo hi) a = if lo ≤ a ∧ a < hi then 0 else Memory.get m a := by
  unfold Memory.get Memory.wipe
  induction m with
  | nil => simp [Map.find]
  | cons c m ih =>
    obtain ⟨k, v⟩ := c
    rw [List.filter_cons]
    by_cases hc : k < lo ∨ hi ≤ k
    · rw [if_pos (by simpa using hc)]
      simp only [Map.find]
      by_cases hk : k = a
      · rw [if_pos hk, if_pos hk, if_neg (by omega)]
      · rw [if_neg hk, if_neg hk, ih]
    · rw [if_neg (by simpa using hc), ih]
      by_cases hk : k = a
      · rw [if_pos (by omega), if_pos (by omega)]
      · simp only [Map.find, if_neg hk]

end Sys2Proof.Machine

namespace Sys2Proof.Proofs
open Sys2Proof.Machine Sys2Proof.Safety

/-- Bytes stored at an address, and the condition of its ECC word set. -/
def storeAt (a size data e : Nat) (s : State) : State := (s.onMem (fun m => Memory.puts m a (bytesLE size data))).setEcc a e

theorem storeAt_memOk {a size data e : Nat} {s : State} (h : MemOk s) : MemOk (storeAt a size data e s) := Memory.put_wf _ _ _ (Memory.puts_wf _ _ _ h)

theorem storeAt_parts (a size data e : Nat) (s : State) : storeAt a size data e s = { s with mem := (storeAt a size data e s).mem } := rfl

theorem byte_storeAt {a size data e : Nat} {s : State} (b : Nat) (h : MemOk s) : (storeAt a size data e s).byte b =
    if b = eccKey a then BitVec.ofNat 8 e else if a ≤ b ∧ b < a + size then BitVec.ofNat 8 (data / 256 ^ (b - a)) else s.byte b := by
  show Memory.get (Memory.put (Memory.puts s.mem a (bytesLE size data)) (eccKey a) (BitVec.ofNat 8 e)) b = _
  rw [Memory.get_put _ _ _ _ (Memory.puts_wf _ _ _ h), Memory.get_puts _ _ _ _ h, bytesLE_length]
  by_cases h1 : a ≤ b ∧ b < a + size
  · rw [if_pos h1, if_pos h1, bytesLE_getD _ (by omega)]
  · rw [if_neg h1, if_neg h1]; rfl

/-- The key of an ECC condition is no address of the 52-bit space. -/
theorem eccKey_ge (a : Nat) : 2 ^ 53 ≤ eccKey a := Nat.le_add_right _ _

theorem eccKey_eq_iff {a b : Nat} : eccKey a = eccKey b ↔ a / 8 = b / 8 := by simp [eccKey]

end Sys2Proof.Proofs
end

