-- ==== Sys2Proof/Proofs/Quiet.lean ====
section
/-!
SUPPORT. Proofs/Quiet.lean: what most of the block's work leaves alone: the configuration frames, the definitions of the partitions and of their rows, the valid bits of the
resident slots, and, unless said otherwise, the sequencers and the partitions' states; and it keeps the memory canonical.
-/
namespace Sys2Proof.Proofs
open Sys2Proof.Machine Sys2Proof.Safety

/-- A register that is neither one of the global registers nor `CFG_RESVAL`. -/
def Off (k : Nat) : Prop := 0x1_0000 ≤ k ∧ k ≠ CFG_RESVAL

theorem Off.of_le {k : Nat} (h : 0x3_0030 ≤ k) : Off k := ⟨by omega, by simp only [CFG_RESVAL]; omega⟩

theorem Off.of_lt {k : Nat} (h₁ : 0x1_0000 ≤ k) (h₂ : k < 0x3_0028) : Off k := ⟨h₁, by simp only [CFG_RESVAL]; omega⟩

theorem Off.elem {x : RF} (h : Off x.key) (w n : Nat) : Off (x.elem w n).key := h

/-- What is left alone between two states; `loose` lets the sequencers and the states of the partitions change. -/
structure Quiet (loose : Bool) (s t : State) : Prop where
  memOk : MemOk s → MemOk t
  frames : t.frames = s.frames
  fields : ∀ y : RF, y.hi < 64 → ¬ Off y.key → (loose = true → ∀ p, p < 12 → Apart (GLB_PART_CFG.STATE p) y) → t.f y = s.f y
  seqs : loose = false → t.seqs = s.seqs

namespace Quiet

variable {l : Bool} {s t u : State}

theorem refl (l : Bool) (s : State) : Quiet l s s := ⟨id, rfl, fun _ _ _ _ => rfl, fun _ => rfl⟩

theorem trans (h : Quiet l s t) (h' : Quiet l t u) : Quiet l s u :=
  ⟨fun hm => h'.memOk (h.memOk hm), h'.frames.trans h.frames, fun y hy ho ha => (h'.fields y hy ho ha).trans (h.fields y hy ho ha),
    fun hl => (h'.seqs hl).trans (h.seqs hl)⟩

/-- What is left alone strictly is left alone. -/
theorem loosen (h : Quiet false s t) : Quiet true s t :=
  ⟨h.memOk, h.frames, fun y hy ho _ => h.fields y hy ho (fun hl => absurd hl Bool.false_ne_true), fun hl => absurd hl.symm Bool.false_ne_true⟩

/-- A part of the state outside the memory, the frames, the registers and the sequencers changes. -/
theorem same (h : Quiet l s t) (hm : u.mem = t.mem) (hf : u.frames = t.frames) (hr : u.regs = t.regs) (hq : u.seqs = t.seqs) : Quiet l s u :=
  h.trans ⟨fun hok => by unfold MemOk; rw [hm]; exact hok, hf, fun y _ _ _ => State.f_congr hr y, fun _ => hq⟩

/-- As `same`, but that the sequencers change too. -/
theorem sameSeqs (h : Quiet true s t) (hm : u.mem = t.mem) (hf : u.frames = t.frames) (hr : u.regs = t.regs) : Quiet true s u :=
  h.trans ⟨fun hok => by unfold MemOk; rw [hm]; exact hok, hf, fun y _ _ _ => State.f_congr hr y, fun hl => absurd hl.symm Bool.false_ne_true⟩

theorem of_logOnly (h : Quiet l s t) (h' : LogOnly t u) : Quiet l s u := by
  refine h.trans ⟨fun hok => by unfold MemOk; rw [h'.mem]; exact hok, by rw [h'.parts], fun y _ ho _ => h'.f ?_, fun _ => by rw [h'.parts]⟩
  unfold OffLog
  unfold Off at ho
  by_cases hk : y.key = CFG_RESVAL
  · rw [hk]; exact .inl (by decide)
  · omega

theorem ite {c : Prop} [Decidable c] (h : Quiet l s t) (h' : Quiet l s u) : Quiet l s (if c then t else u) := by
  split
  · exact h
  · exact h'

theorem foldl {α : Type} {g : State → α → State} (hg : ∀ t x, Quiet l s t → Quiet l s (g t x)) (h : Quiet l s t) (xs : List α) : Quiet l s (xs.foldl g t) := by
  induction xs generalizing t with
  | nil => exact h
  | cons x xs ih => exact ih (hg t x h)

/-- As `foldl`, for a step that is only taken on members of the list. -/
theorem foldl_mem {α : Type} {g : State → α → State} {xs : List α} (hg : ∀ t, ∀ x ∈ xs, Quiet l s t → Quiet l s (g t x)) (h : Quiet l s t) : Quiet l s (xs.foldl g t) := by
  induction xs generalizing t with
  | nil => exact h
  | cons x xs ih => exact ih (fun t y hy => hg t y (List.mem_cons_of_mem _ hy)) (hg t x List.mem_cons_self h)

/-- A fold whose accumulator carries more than the state. -/
theorem foldl_snd {α β : Type} {g : β × State → α → β × State} (hg : ∀ p x, Quiet l s p.2 → Quiet l s (g p x).2) {p : β × State} (h : Quiet l s p.2) (xs : List α) :
    Quiet l s (xs.foldl g p).2 := by
  induction xs generalizing p with
  | nil => exact h
  | cons x xs ih => exact ih (hg p x h)

/-- The state of a result that is given as a pair. -/
theorem of_eq {α : Type} {p : α × State} {a : α} (h : Quiet l s p.2) (e : p = (a, u)) : Quiet l s u := by
  rw [e] at h
  exact h

/-! ### Updates of the state -/

theorem wr (h : Quiet l s t) {k : Nat} (v : Word) (hk : Off k) : Quiet l s (t.wr k v) :=
  h.trans ⟨id, rfl, fun y _ ho _ => f_wr_ne t v fun (e : y.key = k) => ho (e ▸ hk), fun _ => rfl⟩

theorem setF (h : Quiet l s t) {x : RF} (n : Nat) (hk : Off x.key) : Quiet l s (t.setF x n) := h.wr _ hk

theorem bump (h : Quiet l s t) {x : RF} (n : Nat) (hk : Off x.key) : Quiet l s (t.bump x n) := h.wr _ hk

theorem orF (h : Quiet l s t) {x : RF} (n : Nat) (hk : Off x.key) : Quiet l s (t.orF x n) := h.wr _ hk

/-- The state of a partition changes. -/
theorem setState (h : Quiet true s t) {p : Nat} (n : Nat) (hp : p < 12) : Quiet true s (t.setF (GLB_PART_CFG.STATE p) n) :=
  h.trans ⟨id, rfl, fun _ hy _ ha => f_setF_ne t n rfl hy (ha rfl p hp), fun hl => absurd hl.symm Bool.false_ne_true⟩

theorem setSeq (h : Quiet true s t) (q : Nat) (x : Seq) : Quiet true s (t.setSeq q x) :=
  h.trans ⟨id, rfl, fun _ _ _ _ => rfl, fun hl => absurd hl.symm Bool.false_ne_true⟩

theorem onMem (h : Quiet l s t) {g : Memory → Memory} (hg : ∀ m, Memory.wf m = true → Memory.wf (g m) = true) : Quiet l s (t.onMem g) :=
  h.trans ⟨hg t.mem, rfl, fun _ _ _ _ => rfl, fun _ => rfl⟩

theorem puts (h : Quiet l s t) (a : Nat) (bs : List Byte) : Quiet l s (t.onMem fun m => Memory.puts m a bs) := h.onMem fun m hm => Memory.puts_wf m a bs hm

theorem setEcc (h : Quiet l s t) (a n : Nat) : Quiet l s (t.setEcc a n) := h.onMem fun m hm => Memory.put_wf m _ _ hm

theorem setTags (h : Quiet l s t) (a n : Nat) : Quiet l s (t.setTags a n) := h.onMem fun m hm => Memory.put_wf m _ _ hm

theorem emit (h : Quiet l s t) (o : Out) : Quiet l s (t.emit o) := h.same rfl rfl rfl rfl

theorem fresh (h : Quiet l s t) : Quiet l s t.fresh.2 := h.same rfl rfl rfl rfl

theorem freshBit (h : Quiet l s t) : Quiet l s t.freshBit.2 := h.same rfl rfl rfl rfl

theorem setIsl (h : Quiet l s t) (i : Nat) (x : Isl) : Quiet l s (t.setIsl i x) := h.same rfl rfl rfl rfl

theorem onIsl (h : Quiet l s t) (i : Nat) (g : Isl → Isl) : Quiet l s (t.onIsl i g) := h.same rfl rfl rfl rfl

theorem onWu (h : Quiet l s t) (i u : Nat) (g : Wu → Wu) : Quiet l s (t.onWu i u g) := h.same rfl rfl rfl rfl

theorem onColl (h : Quiet l s t) (i : Nat) (g : Collector → Collector) : Quiet l s (t.onColl i g) := h.same rfl rfl rfl rfl

theorem logErr (h : Quiet l s t) (code part src : Nat) (i0 i1 : Word) : Quiet l s (logErr code part src i0 i1 t) := h.of_logOnly (logErr_logOnly ..)

theorem sendMsix (h : Quiet l s t) (fn vec : Nat) : Quiet l s (sendMsix fn vec t) := h.of_logOnly (sendMsix_logOnly ..)

end Quiet

end Sys2Proof.Proofs
end

