-- ==== Sys2Proof/Proofs/QuietBus.lean ====
section
/-!
SUPPORT. Proofs/QuietBus.lean: reads and writes of memory by requesters other than its owner, and what they set off in an island, leave the frames, the definitions and the
sequencers alone.
-/
namespace Sys2Proof.Proofs
open Sys2Proof.Machine Sys2Proof.Safety

theorem Off.islPatrolStat (i : Nat) : Off (ISL_PATROL_STAT i) := .of_le (by unfold ISL_PATROL_STAT; omega)

theorem Off.islMemEcc (i : Nat) : Off (ISL_MEM_ECC i) := .of_le (by unfold ISL_MEM_ECC; omega)

theorem Off.islMemCeaddr (i : Nat) : Off (ISL_MEM_CEADDR i) := .of_le (by unfold ISL_MEM_CEADDR; omega)

theorem Off.islMemUeaddr (i : Nat) : Off (ISL_MEM_UEADDR i) := .of_le (by unfold ISL_MEM_UEADDR; omega)

theorem Off.islMemCtl (i : Nat) : Off (ISL_MEM_CTL i) := .of_le (by unfold ISL_MEM_CTL; omega)

theorem Off.islMemColl (i : Nat) : Off (ISL_MEM_COLL i) := .of_le (by unfold ISL_MEM_COLL; omega)

theorem Off.islQptr (i q : Nat) : Off (ISL_QPTR i q) := .of_le (by unfold ISL_QPTR; omega)

theorem Off.islQdep (i q : Nat) : Off (ISL_QDEP i q) := .of_le (by unfold ISL_QDEP; omega)

theorem Off.islQstat (i q : Nat) : Off (ISL_QSTAT i q) := .of_le (by unfold ISL_QSTAT; omega)

theorem Off.islQcnt (i q : Nat) : Off (ISL_QCNT i q) := .of_le (by unfold ISL_QCNT; omega)

theorem Off.islWuStat2 (i : Nat) : Off (ISL_WU_STAT2 i) := .of_le (by unfold ISL_WU_STAT2; omega)

theorem Off.islRtStat (i : Nat) : Off (ISL_RT_STAT i) := .of_le (by unfold ISL_RT_STAT; omega)

theorem Off.islPlaneAux (i : Nat) : Off (ISL_PLANE_AUX i) := .of_le (by unfold ISL_PLANE_AUX; omega)

theorem Off.islPlaneCur (i : Nat) : Off (ISL_PLANE_CUR i) := .of_le (by unfold ISL_PLANE_CUR; omega)

theorem Off.seqBankErr (n : Nat) : Off (SEQ_BANK_ERR n) := .of_le (by unfold SEQ_BANK_ERR; omega)

theorem Off.seqBankColl (n : Nat) : Off (SEQ_BANK_COLL n) := .of_le (by unfold SEQ_BANK_COLL; omega)

theorem Off.cxpDev (d : Nat) : Off (CXP_DEV d) := .of_le (by unfold CXP_DEV; omega)

theorem Off.cxpPstat (p : Nat) : Off (CXP_PSTAT p) := .of_le (by unfold CXP_PSTAT; omega)

namespace Quiet

variable {l : Bool} {s t : State}

/-! ### ECC -/

theorem patrolTouch (h : Quiet l s t) (i off : Nat) : Quiet l s (patrolTouch i off t) := .ite ((h.setF _ (.islPatrolStat i)).bump _ (.islPatrolStat i)) h

theorem ownerWrote (h : Quiet l s t) (i off : Nat) : Quiet l s (ownerWrote i off t) := h.onIsl ..

theorem eccPort (h : Quiet l s t) (i off port : Nat) : Quiet l s (eccPort i off port t).2 := by
  unfold Machine.eccPort
  extract_lets u
  have hu : Quiet l s u := h.patrolTouch i off
  split
  · exact hu
  · have hf := (hu.bump (x := ISL_MEM_ECC.CECNT i) 1 (.islMemEcc i)).fresh
    dsimp only [State.fresh] at hf ⊢
    exact logErr (ite hf (hf.wr _ (.islMemCeaddr i))) ..
  · have hf := (hu.bump (x := ISL_MEM_ECC.UECNT i) 1 (.islMemEcc i)).fresh
    dsimp only [State.fresh] at hf ⊢
    exact logErr (ite hf (hf.wr _ (.islMemUeaddr i))) ..

theorem combWrite (h : Quiet l s t) (i q : Nat) : Quiet l s (combWrite i q t) := by
  unfold Machine.combWrite
  split
  · exact h
  · exact (((h.onIsl ..).eccPort ..).setEcc ..).ownerWrote ..

theorem combDrain (h : Quiet l s t) (i off : Nat) : Quiet l s (combDrain i off t) := h.foldl (fun _ _ h => h.combWrite ..) _

theorem eccRead (h : Quiet l s t) (i off port : Nat) : Quiet l s (eccRead i off port t).2 := (h.combDrain ..).eccPort ..

theorem portRead (h : Quiet l s t) (i off size : Nat) : Quiet l s (portRead i off size t).2.2.2 := h.eccRead i off 1

theorem bankEcc (h : Quiet l s t) (n off : Nat) : Quiet l s (bankEcc n off t).2 := by
  unfold Machine.bankEcc
  extract_lets a
  split
  · exact h
  · dsimp only
    exact logErr (h.bump _ (.seqBankErr n)) ..
  · dsimp only
    exact logErr (h.bump _ (.seqBankErr n)) ..

/-! ### Reads -/

theorem cxlNoted (h : Quiet l s t) (dev : Nat) : Quiet l s (t.cxlNoted dev) := .ite (h.same rfl rfl rfl rfl) h

theorem cxlRead (h : Quiet l s t) (dev : Nat) : Quiet l s (t.cxlRead dev) := h.freshBit.setF _ (.cxpDev dev)

theorem busRead (h : Quiet l s t) (pa size : Nat) : Quiet l s (busRead pa size t).2 := by
  unfold Machine.busRead
  split
  case h_1 => split; exacts [h.portRead _ _ size, h]
  case h_2 => split; exacts [h.bankEcc .., h]
  case h_6 dev dpa _ =>
    extract_lets u
    have hu : Quiet l s u := h.setF 0 (.cxpPstat _)
    split
    · exact hu.cxlNoted dev
    · split; exacts [hu.cxlRead dev, hu]
  case h_7 => exact h.freshBit
  case h_3 | h_4 | h_5 => split <;> exact h
  case h_8 | h_9 => exact h

theorem busWords (h : Quiet l s t) (n pa : Nat) : Quiet l s (busWords n pa t).2 := by
  induction n generalizing pa t with
  | zero => exact h
  | succ n ih =>
    unfold Machine.busWords
    have h1 := h.busRead pa 8
    split
    next e => exact h1.of_eq e
    next e =>
      have h2 := ih (h1.of_eq e) (pa + 8)
      split <;> next e' => exact h2.of_eq e'

/-! ### The queue controllers -/

theorem memWrite32 (h : Quiet l s t) (i w : Nat) (d : W32) (tags : Nat) : Quiet l s (memWrite32 i w d tags t) := ((((h.eccRead ..).puts ..).setTags ..).setEcc ..).ownerWrote ..

theorem qWrite (h : Quiet l s t) (i q w : Nat) (v : AWord) : Quiet l s (qWrite i q w v t) := by
  unfold Machine.qWrite
  extract_lets off a put
  have hput {u : State} (hu : Quiet l s u) : Quiet l s (put u) := (hu.puts ..).setTags ..
  split
  · exact ((hput ((h.onIsl ..).patrolTouch ..)).setEcc ..).ownerWrote ..
  · have hd := (h.combWrite i q).combDrain i off
    split
    · exact hput ((hd.onIsl ..).patrolTouch ..)
    · exact hd.memWrite32 ..

theorem qStore (h : Quiet l s t) (i q : Nat) (w : AWord) (written : Bool) : Quiet l s (qStore i q w written t) := by
  unfold Machine.qStore
  extract_lets tl u
  have hu : Quiet l s u := ite (h.qWrite ..) h
  exact ((hu.setF _ (.islQptr i q)).setF _ (.islQdep i q)).setF _ (.islQstat i q)

theorem qGive (h : Quiet l s t) (i q c : Nat) : Quiet l s (qGive i q c t) := ite h (h.onIsl ..)

theorem qToken (h : Quiet l s t) (i q : Nat) (w : AWord) : Quiet l s (qToken i q w t) := ite (h.qGive ..) h

theorem checkOp (h : Quiet l s t) (i u : Nat) : Quiet l s (checkOp i u t) := ite h (h.orF _ (.islWuStat2 i))

theorem noteToken (h : Quiet l s t) (i u : Nat) (w : AWord) : Quiet l s (noteToken i u w t) := ite (h.onIsl ..) h

theorem collMark (h : Quiet l s t) (i : Nat) (kind : ItemKind) (rebase : Bool) (cyc : Nat) : Quiet l s (collMark i kind rebase cyc t) := by
  unfold Machine.collMark
  exact h.onColl ..

theorem collLeaves (h : Quiet l s t) (i u : Nat) (w : AWord) : Quiet l s (collLeaves i u w t) := ite (ite (h.collMark ..) (ite (h.collMark ..) h)) h

/-! ### The switch box -/

theorem popSrc (h : Quiet l s t) (i code : Nat) : Quiet l s (t.popSrc i code) := by
  unfold State.popSrc
  split
  · extract_lets out u v
    have hu : Quiet l s u := h.onWu ..
    have hv : Quiet l s v := by
      unfold v
      split
      · exact hu.noteToken ..
      · exact hu
    clear_value v u out
    split
    · exact hv.collLeaves ..
    · exact hv
  · exact h.onIsl ..

theorem takeSrc (h : Quiet l s t) (i code cid : Nat) : Quiet l s (t.takeSrc i code cid) := ite (h.popSrc ..) (ite (h.onWu ..) (h.onIsl ..))

theorem endPassage (h : Quiet l s t) (i e : Nat) : Quiet l s (endPassage i e t) := by
  unfold Machine.endPassage
  split
  · extract_lets code held rest u
    have hu : Quiet l s u := h.onIsl ..
    clear_value u held
    split
    · exact (hu.takeSrc ..).onIsl ..
    · exact hu
  · exact h

theorem checkSel (h : Quiet l s t) (i e : Nat) : Quiet l s (checkSel i e t) := ite (h.setF _ (.islRtStat i)) h

theorem updateMix (h : Quiet l s t) (i : Nat) : Quiet l s (updateMix i t) := h.setF _ (.islPlaneAux i)

theorem updateJoint (h : Quiet l s t) (i k : Nat) : Quiet l s (updateJoint i k t) :=
  ite (((h.onIsl ..).setF _ (.islRtStat i)).setF _ (.islRtStat i)) ((h.onIsl ..).setF _ (.islRtStat i))

theorem setBox (h : Quiet l s t) (i e p : Nat) : Quiet l s (setBox i e p t) := by
  unfold Machine.setBox
  extract_lets old u same v w
  have hu : Quiet l s u := h.onIsl ..
  have hv : Quiet l s v := ite hu (hu.endPassage ..)
  have hw : Quiet l s w := (hv.onIsl ..).checkSel ..
  exact ite (hw.updateMix ..) (hw.updateJoint ..)

theorem setPlane (h : Quiet l s t) (i e p : Nat) : Quiet l s (setPlane i e p t) := by
  unfold Machine.setPlane
  split
  · have hu : Quiet l s (t.onIsl i _) := h.onIsl i (fun x => { x with boxPend := Map.del x.boxPend e, fencePend := x.fencePend.erase e })
    exact ite hu (checkOp ((hu.setF _ (.islPlaneCur i)).onWu ..) ..)
  · split
    · exact h.setBox ..
    · split
      · exact (h.setF _ (.islPlaneAux i)).onIsl ..
      · have hu {n : Nat} := (h.setF (x := (⟨ISL_PLANE_AUX i, 27, 12⟩ : RF).elem 4 (e - 133)) n (.islPlaneAux i)).onIsl i
          (fun x => { x with boxPend := Map.del x.boxPend e, fencePend := x.fencePend.erase e })
        exact ite hu (hu.setF _ (.islQstat i _))

theorem requestPlane (h : Quiet l s t) (i e p : Nat) (fence : Bool) : Quiet l s (requestPlane i e p t fence) := ite (h.onIsl ..) (h.setPlane ..)

theorem requestUnit (h : Quiet l s t) (i u p : Nat) : Quiet l s (requestUnit i u p t) := foldl (fun _ _ h => h.requestPlane ..) (h.requestPlane ..) _

theorem fenceDone (h : Quiet l s t) (i e : Nat) : Quiet l s (fenceDone i e t) :=
  ite (((h.onIsl ..).setF _ (.islPlaneAux i)).setF _ (.islPlaneAux i)) (h.onIsl ..)

theorem fenceSwitch (h : Quiet l s t) (i e : Nat) : Quiet l s (fenceSwitch i e t) := by
  unfold Machine.fenceSwitch
  extract_lets p u
  have hu : Quiet l s u := ite (h.requestUnit ..) (h.requestPlane ..)
  exact ite hu (hu.fenceDone ..)

/-! ### Pushes -/

theorem qPushSwitch (h : Quiet l s t) (i q : Nat) (w : AWord) : Quiet l s (qPushSwitch i q w t) := ite (ite (h.requestPlane ..) (ite (h.fenceSwitch ..) h)) h

theorem qAccept (h : Quiet l s t) (i q : Nat) (w : AWord) : Quiet l s (qAccept i q w t) := by
  unfold Machine.qAccept
  exact qPushSwitch (ite (qToken (foldl (fun _ _ h => h.onWu ..) h _) ..) (h.qStore ..)) ..

theorem qCommands (h : Quiet l s t) (i q : Nat) (mark rewind release : Bool) : Quiet l s (qCommands i q mark rewind release t) := by
  unfold Machine.qCommands
  extract_lets u v
  have hu : Quiet l s u := ite (ite (((h.setF _ (.islQptr i q)).setF _ (.islQdep i q)).onIsl ..) (h.setF _ (.islQstat i q))) h
  have hv : Quiet l s v := ite (ite ((hu.setF _ (.islQstat i q)).setF _ (.islQstat i q)) (hu.setF _ (.islQstat i q))) hu
  exact ite (((hv.setF _ (.islQptr i q)).setF _ (.islQstat i q)).setF _ (.islQstat i q)) hv

theorem raiseLine (h : Quiet l s t) (n i k : Nat) : Quiet l s (raiseLine n i k t) := ite (h.same rfl rfl rfl rfl) h

theorem qEval (h : Quiet l s t) (i q : Nat) : Quiet l s (qEval i q t) := by
  unfold Machine.qEval
  split
  next hi lo _ =>
  extract_lets u
  have hu : Quiet l s u := ite h (raiseLine (((h.setF _ (.islQstat i q)).setF _ (.islQstat i q)).bump _ (.islQcnt i q)) ..)
  exact ite hu (raiseLine (((hu.setF _ (.islQstat i q)).setF _ (.islQstat i q)).bump _ (.islQcnt i q)) ..)

theorem qEmpty (h : Quiet l s t) (i q : Nat) : Quiet l s (qEmpty i q t) := by
  unfold Machine.qEmpty
  exact onIsl (setF (setF (setF ((h.combWrite i q).wr _ (.islQptr i q)) _ (.islQstat i q)) _ (.islQstat i q)) _ (.islQdep i q)) ..

theorem qEnd (h : Quiet l s t) (i q : Nat) (mark rewind release flush : Bool) : Quiet l s (qEnd i q mark rewind release flush t) := by
  unfold Machine.qEnd
  extract_lets c u v
  have hu : Quiet l s u := ite h (h.onIsl ..)
  have hv : Quiet l s v := hu.qCommands ..
  exact qEval (ite (hv.qEmpty ..) hv) ..

theorem markEcc (h : Quiet l s t) (i off : Nat) (bad : Bool) : Quiet l s (markEcc i off bad t) := ite ((h.combDrain ..).setEcc ..) h

theorem pushWords (h : Quiet l s t) (i q : Nat) (ws : List AWord) (bad clash : Bool) : Quiet l s (pushWords i q ws bad clash t) := by
  unfold Machine.pushWords
  refine qEnd (foldl (fun _ _ h => h.markEcc ..) (foldl_snd (fun p w hp => ?_) h ws) _) ..
  dsimp only
  split
  · exact hp.qStore ..
  · split <;> exact hp.qAccept ..

/-! ### Writes -/

theorem recordCollision (h : Quiet l s t) (i off : Nat) : Quiet l s (recordCollision i off t) := by
  unfold Machine.recordCollision
  exact bump (ite (h.setF _ (.islMemColl i)) h) _ (.islMemColl i)

theorem endInject (h : Quiet l s t) (i : Nat) : Quiet l s (endInject i t) := ite h (h.setF _ (.islMemCtl i))

theorem portStore (h : Quiet l s t) (i off size data tags : Nat) (bad : Bool) : Quiet l s (portStore i off size data tags bad t) := by
  unfold Machine.portStore
  extract_lets a full
  split
  next e u hu =>
  have hu : Quiet l s u := by
    refine of_eq ?_ hu
    split
    · exact (h.combDrain ..).patrolTouch ..
    · exact h.eccRead ..
  exact endInject (markEcc (setEcc (ite (((hu.puts ..).setTags ..).setTags ..) ((hu.puts ..).setTags ..)) ..) ..) ..

theorem portWrite (h : Quiet l s t) (i off size data tags : Nat) (bad host clash : Bool) : Quiet l s (portWrite i off size data tags bad host clash t).2 := by
  unfold Machine.portWrite
  split
  · split
    · exact foldl (fun _ _ h => h.setF _ (.islQstat i _)) h _
    · split
      · exact h
      · extract_lets ws
        split
        · rename_i tl u _
          have hu : Quiet l s u := foldl (fun _ _ h => h.pushWords ..) h _
          split
          · exact hu.recordCollision ..
          · exact hu.endInject ..
        · split
          · exact foldl (fun _ _ h => h.bump _ (.islQcnt i _)) h _
          · exact h
  · split
    · exact h.recordCollision ..
    · exact h.portStore ..

theorem bankCollision (h : Quiet l s t) (n off : Nat) : Quiet l s (bankCollision n off t) := by
  unfold Machine.bankCollision
  exact bump (ite (h.setF _ (.seqBankColl n)) h) _ (.seqBankColl n)

theorem bankStore (h : Quiet l s t) (n off size data : Nat) (bad : Bool) : Quiet l s (bankStore n off size data bad t) := by
  unfold Machine.bankStore
  split
  next e u hu =>
  have hu : Quiet l s u := by
    refine of_eq ?_ hu
    split
    · exact h
    · exact h.bankEcc ..
  exact (hu.puts ..).setEcc ..

theorem busWrite (h : Quiet l s t) (pa size data tags : Nat) (bad host clash : Bool) : Quiet l s (busWrite pa size data tags bad host clash t).2 := by
  unfold Machine.busWrite
  split
  case h_1 i off _ =>
    have hp := h.portWrite i off size data tags bad host clash
    split
    · split
      · exact h
      · split <;> next e => exact hp.of_eq e
    · exact h
  case h_2 n off _ =>
    split
    · split
      · exact h.bankCollision ..
      · exact h.bankStore ..
    · exact h
  case h_5 =>
    split
    · exact (h.puts ..).setEcc ..
    · exact h
  case h_6 dev dpa _ =>
    extract_lets u
    have hu : Quiet l s u := h.setF 0 (.cxpPstat _)
    split
    · exact hu.cxlNoted dev
    · split
      · exact (hu.puts ..).setEcc ..
      · exact hu
  case h_7 => exact (h.puts ..).setEcc ..
  case h_3 | h_4 => split <;> exact h
  case h_8 | h_9 => exact h

end Quiet

end Sys2Proof.Proofs
end

