-- ==== Sys2Proof/Proofs/QuietFe.lean ====
section
/-!
SUPPORT. Proofs/QuietFe.lean: what the fail engine does with its results leaves the frames, the definitions and the sequencers alone.
-/
namespace Sys2Proof.Proofs
open Sys2Proof.Machine Sys2Proof.Safety

theorem Off.fePrrqp (p : Nat) : Off (FE_PRRQP p) := .of_le (by unfold FE_PRRQP; omega)

theorem Off.fePflags (p : Nat) : Off (FE_PFLAGS p) := .of_le (by unfold FE_PFLAGS; omega)

theorem Off.fePcnt (p : Nat) : Off (FE_PCNT p) := .of_le (by unfold FE_PCNT; omega)

theorem Off.fePcst (p : Nat) : Off (FE_PCST p) := .of_le (by unfold FE_PCST; omega)

theorem Off.feGstat : Off FE_GSTAT := .of_le (by decide)

namespace Quiet

variable {l : Bool} {s t : State}

theorem onFe (h : Quiet l s t) (p : Nat) (g : FePart → FePart) : Quiet l s (t.onFe p g) := h.same rfl rfl rfl rfl

theorem feOn (h : Quiet l s t) (g : Fe → Fe) : Quiet l s (t.feOn g) := h.same rfl rfl rfl rfl

theorem onUnit (h : Quiet l s t) (u : Nat) (g : FUnit → FUnit) : Quiet l s (t.onUnit u g) := h.same rfl rfl rfl rfl

theorem raiseAev (h : Quiet l s t) (n bit kind src : Nat) : Quiet l s (raiseAev n bit kind src t) := ite (h.same rfl rfl rfl rfl) h

theorem feStore (h : Quiet l s t) (pa : Nat) (ws : List Nat) : Quiet l s (feStore pa ws t).2 := by
  induction ws generalizing pa t with
  | nil => exact h
  | cons w ws ih =>
    unfold Machine.feStore
    have hw := h.busWrite pa 8 w 0 false false false
    split
    next e => exact ih (hw.of_eq e) _
    next e => exact ih (hw.of_eq e) _

theorem ringPut (h : Quiet l s t) (r : FeResult) : Quiet l s (ringPut r t) := by
  unfold Machine.ringPut
  extract_lets p tl ph ws u tl' v w
  have hu : Quiet l s u := h.feStore ..
  have hv : Quiet l s v := hu.setF _ (.fePrrqp p)
  have hw : Quiet l s w := ite (hv.onFe ..) hv
  exact (hw.sendMsix ..).raiseAev ..

theorem placeResult (h : Quiet l s t) (r : FeResult) : Quiet l s (placeResult r t).2 := by
  unfold Machine.placeResult
  split
  · exact h.ringPut r
  · extract_lets u
    have hu : Quiet l s u := h.setF 1 (.fePflags _)
    split
    · exact hu.feOn fun fe => { fe with held := fe.held ++ [r] }
    · exact hu

theorem freeEng (h : Quiet l s t) (k : Nat) : Quiet l s (freeEng k t) := (h.feOn _).setF 0 .feGstat

theorem engineResult (h : Quiet l s t) (k u : Nat) (r : FeResult) : Quiet l s (engineResult k u r t) := by
  unfold Machine.engineResult
  have hp := h.placeResult r
  split
  next e => exact ((hp.of_eq e).onUnit ..).freeEng k
  next e => exact (hp.of_eq e).feOn _

theorem drainHeld (h : Quiet l s t) (p fuel : Nat) : Quiet l s (drainHeld p fuel t) := by
  induction fuel generalizing t with
  | zero => exact h
  | succ fuel ih =>
    unfold Machine.drainHeld
    split
    · exact ite h (ih ((h.feOn _).ringPut _))
    · exact h

theorem passOn (h : Quiet l s t) : Quiet l s (passOn t) := by
  unfold Machine.passOn
  refine foldl (fun t e h => h.engineResult ..) (foldl (fun t r h => ?_) h _) _
  have hp := h.placeResult r
  split
  next e => exact (hp.of_eq e).feOn _
  next e => exact hp.of_eq e

theorem rrqHead (h : Quiet l s t) (p v : Nat) : Quiet l s (rrqHead p v t) := passOn (drainHeld (h.setF _ (.fePrrqp p)) ..)

theorem setUnit (h : Quiet l s t) (u : Nat) (x : FUnit) : Quiet l s (t.setUnit u x) := h.same rfl rfl rfl rfl

/-! ### Maps and trackers -/

theorem mapError (h : Quiet l s t) (k p u : Nat) : Quiet l s (mapError k p u t) := by
  unfold Machine.mapError
  exact logErr (onFe ((h.onUnit u _).setF 1 (.fePflags p)) ..) ..

theorem mapWrite (h : Quiet l s t) (k u bytes : Nat) (ws : List Nat) : Quiet l s (mapWrite k u bytes ws t) := by
  unfold Machine.mapWrite
  extract_lets x v
  split
  · exact (h.setUnit ..).setF 1 (.fePflags _)
  · have hw : Quiet l s (Machine.feStore (x.mapbase * 64 + x.nwrite * bytes) ws v).2 := (h.setUnit ..).feStore ..
    split
    next e => exact hw.of_eq e
    next e => exact (hw.of_eq e).mapError ..

theorem tileOut (h : Quiet l s t) (k : Nat) (x : Tile) : Quiet l s (tileOut k x t) := by
  unfold Machine.tileOut
  exact ite ((h.mapWrite ..).mapWrite ..) (h.mapWrite ..)

theorem flushMaps (h : Quiet l s t) (sel : Nat → Bool) : Quiet l s (flushMaps sel t) := by
  unfold Machine.flushMaps
  exact foldl (fun _ _ h => h.mapWrite ..) (foldl (fun _ _ h => h.tileOut ..) (h.feOn _) _) _

theorem markLate (h : Quiet l s t) (u : Nat) : Quiet l s (markLate u t) := (h.onUnit u _).feOn _

theorem fatOr (h : Quiet l s t) (p u row col mask : Nat) : Quiet l s (fatOr p u row col mask t).2 := by
  unfold Machine.fatOr
  split
  · exact h.same rfl rfl rfl rfl
  · split
    · exact h
    · exact h.same rfl rfl rfl rfl

theorem setTrk (h : Quiet l s t) (n v : Nat) : Quiet l s (setTrk n v t) := h.puts ..

theorem trkUpd (h : Quiet l s t) (n cnt : Nat) (live : Bool) : Quiet l s (trkUpd n cnt live t) := h.setTrk ..

theorem mrRow (h : Quiet l s t) (u r : Nat) : Quiet l s (mrRow u r t) := by
  unfold Machine.mrRow
  extract_lets x gone v w z
  have hv : Quiet l s v := h.same rfl rfl rfl rfl
  exact onUnit (foldl (fun _ _ h => h.trkUpd ..) (hv.setTrk ..) _) ..

theorem mrCol (h : Quiet l s t) (u n : Nat) : Quiet l s (mrCol u n t) := by
  unfold Machine.mrCol
  extract_lets x gone col keep v w z
  have hv : Quiet l s v := h.same rfl rfl rfl rfl
  exact onUnit (foldl (fun _ _ h => h.trkUpd ..) (hv.setTrk ..) _) ..

theorem settleUnit (h : Quiet l s t) (u fuel : Nat) : Quiet l s (settleUnit u fuel t) := by
  induction fuel generalizing t with
  | zero => exact h
  | succ fuel ih =>
    unfold Machine.settleUnit
    extract_lets x cs
    split
    · exact ih (h.mrRow ..)
    · split
      · exact ih (h.mrCol ..)
      · exact h

theorem earlyResult (h : Quiet l s t) (u reason : Nat) : Quiet l s (earlyResult u reason t) := by
  unfold Machine.earlyResult
  extract_lets x r v
  have hv : Quiet l s v := (h.setUnit ..).feOn _
  have hp := hv.placeResult r
  split
  next e => exact hp.of_eq e
  next e => exact (hp.of_eq e).feOn _

theorem analyse (h : Quiet l s t) (r : FeRec) : Quiet l s (analyse r t) := by
  unfold Machine.analyse
  extract_lets u x v old bits new
  have hv : Quiet l s v := h.setUnit ..
  refine ite h (ite hv (ite hv ?_))
  have hf := hv.fatOr r.part u r.row r.col new
  split
  next e => exact logErr (((hf.of_eq e).onUnit ..).setF 1 (.fePflags _)) ..
  next e =>
    extract_lets w1 w2 w3 y
    have hw : Quiet l s w3 := settleUnit (foldl (fun _ _ h => h.trkUpd ..) ((hf.of_eq e).trkUpd ..) _) ..
    exact ite (hw.earlyResult ..) (ite (hw.earlyResult ..) hw)

theorem homeRecord (h : Quiet l s t) (n : Nat) : Quiet l s (homeRecord n t) := by
  unfold Machine.homeRecord
  split
  · exact h
  · extract_lets v x w z
    have hv : Quiet l s v := h.feOn _
    have hw : Quiet l s w := ite (hv.feOn _) hv
    have hz : Quiet l s z := hw.bump _ (.fePcnt _)
    exact ite (ite (hz.markLate _) hz) (hw.analyse _)

theorem drainHome (h : Quiet l s t) : Quiet l s (drainHome t) := h.foldl (fun _ _ h => h.foldl (fun _ _ h => h.homeRecord _) _) _

theorem disarmUnit (h : Quiet l s t) (u : Nat) : Quiet l s (disarmUnit u t) := by
  unfold Machine.disarmUnit
  extract_lets v x eng w w' w''
  have hv : Quiet l s v := h.drainHome.flushMaps _
  have hw : Quiet l s w := hv.foldl (fun _ _ h => h.setF 0 .feGstat) _
  have hw' : Quiet l s w' := hw.feOn _
  clear_value w'
  have hw'' : Quiet l s w'' := hw'.same rfl rfl rfl rfl
  exact hw''.setUnit ..

theorem feEnd (h : Quiet l s t) (p code : Nat) : Quiet l s (feEnd p code t) := (h.setF _ (.fePcst p)).setF _ (.fePcst p)

theorem feDisable (h : Quiet l s t) (p : Nat) : Quiet l s (feDisable p t) := by
  unfold Machine.feDisable
  extract_lets v
  have hv : Quiet l s v := h.foldl (fun _ _ h => ite h (h.disarmUnit _)) _
  exact ite ((hv.onFe ..).feEnd ..) hv

/-! ### Headers -/

theorem writeHeader (h : Quiet l s t) (p : Nat) : Quiet l s (writeHeader p t) := by
  unfold Machine.writeHeader
  extract_lets x a b words
  split
  next ok0 u0 e0 =>
  have h0 : Quiet l s u0 := (h.feStore ..).of_eq e0
  split
  next ok1 u1 e1 =>
  have h1 : Quiet l s u1 := (h0.feStore ..).of_eq e1
  split
  next ok2 u2 e2 =>
  have h2 : Quiet l s u2 := (h1.feStore ..).of_eq e2
  exact ite (h2.onFe ..) (logErr (onFe (setF (h2.onFe ..) 1 (.fePflags p)) ..) ..)

theorem feNewRun (h : Quiet l s t) (p : Nat) : Quiet l s (feNewRun p t) := by
  unfold Machine.feNewRun
  exact ite ((h.onFe ..).writeHeader p) (h.onFe ..)

end Quiet

end Sys2Proof.Proofs
end

