-- ==== Sys2Proof/Proofs/QuietStream.lean ====
section
/-!
SUPPORT. Proofs/QuietStream.lean: the end of the channels and streams of a partition leaves the frames and the definitions alone.
-/
namespace Sys2Proof.Proofs
open Sys2Proof.Machine Sys2Proof.Safety

theorem Off.mmuStat : Off MMU_STAT := .of_le (by decide)

theorem Off.seqDbell (q : Nat) : Off (SEQ_DBELL q) := .of_le (by unfold SEQ_DBELL; omega)

theorem Off.dmaChCsr (c : Nat) : Off (DMA_CH_CSR c) := .of_le (by unfold DMA_CH_CSR; omega)

theorem Off.mspCsr (p k : Nat) : Off (MSP_CSR p k) := .of_le (by unfold MSP_CSR; omega)

namespace Quiet

variable {l : Bool} {s t : State}

/-! ### Translation -/

theorem stands (h : Quiet l s t) (e : TlbEntry) : Quiet l s (stands e t).2 := by
  unfold Machine.stands
  split
  · exact h
  · exact h.freshBit

theorem standing (h : Quiet l s t) (es : List TlbEntry) : Quiet l s (standing es t).2 := by
  induction es generalizing t with
  | nil => exact h
  | cons e es ih =>
    unfold Machine.standing
    have he := h.stands e
    split
    next e' => exact he.of_eq e'
    next e' => exact ih (he.of_eq e')

theorem readPte (h : Quiet l s t) (pa part src : Nat) : Quiet l s (readPte pa part src t).2 := by
  unfold Machine.readPte
  split
  next g u e =>
  have hu : Quiet l s u := by
    refine of_eq ?_ e
    split
    · exact h
    · exact h.busRead ..
  split
  · split
    · exact logErr hu 0x0501 part src (BitVec.ofNat 64 pa) 0
    · exact hu
  · exact logErr hu 0x0501 part src (BitVec.ofNat 64 pa) 0

theorem walk (h : Quiet l s t) (part src va level base : Nat) : Quiet l s (walk part src va level base t).2 := by
  induction level generalizing base t with
  | zero =>
    unfold Machine.walk
    extract_lets shift
    have hr := h.readPte (base + va / 2 ^ shift % 512 * 8) part src
    split
    next e => exact hr.of_eq e
    next e =>
      have hu := hr.of_eq e
      split <;> exact hu
  | succ level ih =>
    unfold Machine.walk
    extract_lets shift
    have hr := h.readPte (base + va / 2 ^ shift % 512 * 8) part src
    split
    next e => exact hr.of_eq e
    next e =>
      have hu := hr.of_eq e
      split
      · exact hu
      · dsimp only
        split
        · split <;> exact hu
        · split
          · exact hu
          · exact ih hu _

theorem tlbKeep (h : Quiet l s t) (asid va bits : Nat) (leaf : Word) : Quiet l s (tlbKeep asid va bits leaf t) := by
  unfold Machine.tlbKeep
  extract_lets used pin u put v e
  have hu : Quiet l s u := ite (h.setF 1 .mmuStat) h
  have hv : Quiet l s v := ite (hu.setF _ .mmuStat) hu
  exact ite hv (hv.same rfl rfl rfl rfl)

theorem leafOf (h : Quiet l s t) (asid ptbase part src va : Nat) : Quiet l s (leafOf asid ptbase part src va t).2 := by
  unfold Machine.leafOf
  have hs := h.standing (t.tlb.filter (fun e => e.hits asid va))
  split
  next e => exact hs.of_eq e
  next e =>
    have hw := (hs.of_eq e).walk part src va 3 ptbase
    split
    next e' => exact hw.of_eq e'
    next e' => exact (hw.of_eq e').tlbKeep ..

theorem translate (h : Quiet l s t) (asid ptbase part src va : Nat) (rights : Word → Bool) : Quiet l s (translate asid ptbase part src va rights t).2 := by
  unfold Machine.translate
  have hl := h.leafOf asid ptbase part src va
  split
  next e => exact hl.of_eq e
  next e =>
    have hu := hl.of_eq e
    split <;> exact hu

/-! ### Channels -/

theorem setCh (h : Quiet l s t) (c : Nat) (x : Chan) : Quiet l s (t.setCh c x) := h.same rfl rfl rfl rfl

theorem chXlt (h : Quiet l s t) (c va : Nat) (rights : Word → Bool) : Quiet l s (chXlt c va rights t).2 := by
  unfold Machine.chXlt
  split
  · exact h
  · extract_lets p
    have ht := h.translate (p * 4096 + t.f (DMA_CH_XLT.ASID c)) (t.f (DMA_CH_XLT.PTBASE c) * 4096) p (srcOf 1 c) (va % 2 ^ 48) rights
    split <;> next e => exact ht.of_eq e

theorem chWords (h : Quiet l s t) (c : Nat) (abort : Bool) : Quiet l s (chWords c abort t).2 := by
  unfold Machine.chWords
  have hx := h.chXlt c (t.f (DMA_CH_DESC.ADDR c) * 64) (fun w => pteR w && pteW w)
  split
  next e => exact hx.of_eq e
  next pa u e =>
    have hu := hx.of_eq e
    split
    · exact hu
    · have hw := hu.busWords 8 pa
      split <;> next e' => exact hw.of_eq e'

theorem setDoorbell (h : Quiet l s t) (q bits : Nat) : Quiet l s (setDoorbell q bits t) := by
  unfold Machine.setDoorbell
  extract_lets new old
  refine orF (x := SEQ_DBELL.PEND q) ?_ _ (.seqDbell q)
  exact h.same rfl rfl rfl rfl

theorem chNotify (h : Quiet l s t) (c : Nat) : Quiet l s (chNotify c t) := by
  unfold Machine.chNotify
  exact ite h (ite (h.setDoorbell ..) (h.sendMsix ..))

theorem busPost (h : Quiet l s t) (pa size data src : Nat) (clash : Bool) : Quiet l s (busPost pa size data src clash t).2 := by
  unfold Machine.busPost
  have hw := h.busWrite pa size data 0 false false clash
  split
  next u e =>
    have hu := hw.of_eq e
    dsimp only
    split
    · exact hu.onIsl ..
    · exact hu
  · exact hw

theorem chReport (h : Quiet l s t) (c ended fcode fside : Nat) : Quiet l s (chReport c ended fcode fside t) := (h.busPost ..).busPost ..

theorem unqueueFault (h : Quiet true s t) (stream : Bool) (port index : Nat) : Quiet true s (unqueueFault stream port index t) := h.sameSeqs rfl rfl rfl

theorem chAbort (h : Quiet true s t) (c : Nat) : Quiet true s (chAbort c t) := by
  unfold Machine.chAbort
  split
  · exact h
  · extract_lets u v
    have hu : Quiet true s u := by
      have hw := h.chWords c true
      unfold u
      split
      · exact h
      · split
        next e => exact (hw.of_eq e).setCh ..
        next e => exact hw.of_eq e
    clear_value u
    have hv : Quiet true s v := ite ((hu.chReport ..).chNotify c) hu
    exact ((hv.unqueueFault ..).setCh ..).setF _ (.dmaChCsr c)

/-! ### Streams -/

theorem onMsp (h : Quiet l s t) (p k : Nat) (g : Msp → Msp) : Quiet l s (t.onMsp p k g) := h.same rfl rfl rfl rfl

theorem mspAbort (h : Quiet true s t) (p k : Nat) : Quiet true s (mspAbort p k t) := by
  unfold Machine.mspAbort
  extract_lets u
  have hu : Quiet true s u := unqueueFault ((h.onMsp ..).setF 6 (.mspCsr p k)) ..
  exact ite h (ite (hu.onMsp ..) hu)

theorem abortStreams (h : Quiet true s t) (p : Nat) : Quiet true s (abortStreams p t) := by
  unfold Machine.abortStreams
  exact foldl (fun _ _ h => foldl (fun _ _ h => ite (h.mspAbort ..) (h.unqueueFault ..)) h _) (foldl (fun _ _ h => h.chAbort _) h _) _

end Quiet

end Sys2Proof.Proofs
end

