-- ==== Sys2Proof/Proofs/QuietRing.lean ====
section
/-!
SUPPORT. Proofs/QuietRing.lean: what a new rung of the module sets off in the ring and in the fail engine leaves the frames, the definitions and the sequencers alone.
-/
namespace Sys2Proof.Proofs
open Sys2Proof.Machine Sys2Proof.Safety

theorem Off.ringRoute (r : Nat) : Off (RING_ROUTE r) := .of_le (by unfold RING_ROUTE; omega)

theorem Off.ringDec (r : Nat) : Off (RING_DEC r) := .of_le (by unfold RING_DEC; omega)

theorem Off.ringCnt : Off RING_CNT := .of_le (by decide)

theorem Off.ringRxhdr : Off RING_RXHDR := .of_le (by decide)

theorem Off.ringStat : Off RING_STAT := .of_le (by decide)

theorem Off.clkStab1 : Off CLK_STAB1 := .of_lt (by decide) (by decide)

namespace Quiet

variable {l : Bool} {s t : State}

theorem onRing (h : Quiet l s t) (g : Ring → Ring) : Quiet l s (t.onRing g) := h.same rfl rfl rfl rfl

/-! ### Frames that arrive -/

theorem emitFrame (h : Quiet l s t) (rings : List Nat) (ty : Nat) (f : RingFrame) : Quiet l s (emitFrame rings ty f t) := h.foldl (fun _ _ h => ite (h.emit _) h) _

theorem ringPrimary (h : Quiet l s t) (n d : Nat) : Quiet l s (ringPrimary n d t) := by
  unfold Machine.ringPrimary
  split
  · exact h.setDoorbell ..
  · exact h

theorem routeBell (h : Quiet l s t) (r : Nat) : Quiet l s (routeBell r t) := ite (h.ringPrimary ..) h

theorem routeLevelAct (h : Quiet l s t) (r ev : Nat) (up : Bool) : Quiet l s (routeLevelAct r ev up t) := by
  unfold Machine.routeLevelAct
  extract_lets cur v
  have hv : Quiet l s v := (h.onRing _).routeBell r
  clear_value cur v
  split
  · exact ite h (ite (hv.emit _) hv)
  · split
    · exact h
    · exact ite (emit (h.onRing _) _) (h.onRing _)

theorem routeEdge (h : Quiet l s t) (r : Nat) : Quiet l s (routeEdge r t) := by
  unfold Machine.routeEdge
  extract_lets near v w k
  have hv : Quiet l s v := h.onRing _
  have hw : Quiet l s w := hv.routeBell r
  exact ite (hv.bump _ (.ringRoute r)) (ite (emit (hw.onRing _) _) hw)

theorem routeAct (h : Quiet l s t) (ty : Nat) (f : RingFrame) : Quiet l s (routeAct ty f t) := by
  unfold Machine.routeAct
  extract_lets ev v k
  have hv : Quiet l s v := h.foldl (fun _ _ h => ite (ite (ite (h.routeLevelAct ..) h) (h.routeEdge _)) h) _
  exact ite (((hv.setF _ (.ringDec k)).setF _ (.ringDec k)).setF _ (.ringDec k)) hv

theorem deliverTimed (h : Quiet l s t) (ty : Nat) (f : RingFrame) : Quiet l s (deliverTimed ty f t) :=
  ite ((h.bump _ .ringCnt).routeAct ..) (h.onRing _)

theorem rxEnter (h : Quiet l s t) (fsum : Bool) (f : RingFrame) : Quiet l s (rxEnter fsum f t) := by
  unfold Machine.rxEnter
  extract_lets v
  have hv : Quiet l s v := ite (h.bump _ .ringRxhdr) (h.onRing _)
  exact ite (hv.setDoorbell ..) hv

theorem masterLeft (h : Quiet l s t) (src : Nat) : Quiet l s (masterLeft src t) := ite ((h.setF _ .ringStat).onRing _) h

theorem deliver (h : Quiet l s t) (ty : Nat) (f : RingFrame) : Quiet l s (deliver ty f t) :=
  ite (h.deliverTimed ..) (ite (h.rxEnter ..) (ite (h.rxEnter ..) (ite (h.masterLeft _) h)))

/-! ### Frames that are sent -/

theorem sendFrame (h : Quiet l s t) (rings : List Nat) (ty : Nat) (f : RingFrame) : Quiet l s (sendFrame rings ty f t) := by
  unfold Machine.sendFrame
  extract_lets g v
  have hv : Quiet l s v := (h.onRing _).emitFrame ..
  exact ite (hv.deliver ..) hv

theorem ringLeave (h : Quiet l s t) : Quiet l s (ringLeave t) := ite ((h.sendFrame ..).onRing _) h

theorem ringDiapause (h : Quiet l s t) : Quiet l s (ringDiapause t) :=
  ite (ite h.ringLeave (h.onRing _)) (ite h ((h.setF _ .ringStat).onRing _))

theorem originate (h : Quiet l s t) (ty : Nat) (f : RingFrame) : Quiet l s (originate ty f t) :=
  ite (ite (h.setF _ .ringStat) (h.bump _ .ringCnt)) (h.onRing _)

theorem sendFsum (h : Quiet l s t) (p pcommit : Nat) (lost : Bool) : Quiet l s (sendFsum p pcommit lost t) := ite ((h.onRing _).originate ..) h

theorem ringJoin (h : Quiet l s t) : Quiet l s (ringJoin t) := ite h (((h.setF _ .ringStat).setF _ .ringStat).onRing _)

theorem ringReturns (h : Quiet l s t) : Quiet l s (ringReturns t) := ite h (ite (h.onRing _) h.ringJoin)

/-! ### The rung of the module -/

theorem commit (h : Quiet l s t) (p : Nat) : Quiet l s (commit p t) := by
  unfold Machine.commit
  extract_lets v w z
  have hw : Quiet l s w := h.drainHome.flushMaps _
  have hz : Quiet l s z := ite (hw.writeHeader p) (hw.onFe ..)
  exact (hz.raiseAev ..).sendFsum ..

theorem commitDue (h : Quiet l s t) (p : Nat) : Quiet l s (commitDue p t) := ite (h.commit p) h

theorem rungChanged (h : Quiet l s t) (old : Nat) : Quiet l s (rungChanged old t) := by
  unfold Machine.rungChanged
  extract_lets now v w
  have hv : Quiet l s v := ite h (h.setF _ .clkStab1)
  exact ite hv (ite (ringDiapause ((hv.foldl (fun _ _ h => h.commitDue _) _).setF 0 .clkStab1)) (ringReturns (hv.setF _ .clkStab1)))

end Quiet

end Sys2Proof.Proofs
end

