-- ==== Sys2Proof/Proofs/QuietLanes.lean ====
section
/-!
SUPPORT. Proofs/QuietLanes.lean: the training of lanes, the clocks and the reset of islands leave the frames, the definitions and the sequencers alone.
-/
namespace Sys2Proof.Proofs
open Sys2Proof.Machine Sys2Proof.Safety

theorem Off.laneStat (n : Nat) : Off (LANE_STAT n) := .of_le (by unfold LANE_STAT; omega)

theorem Off.lqStat (n : Nat) : Off (LQ_STAT n) := .of_le (by unfold LQ_STAT; omega)

theorem Off.clkIsl {i : Nat} (h : i < 156) : Off (CLK_ISL i) := .of_lt (by unfold CLK_ISL; omega) (by unfold CLK_ISL; omega)

theorem Off.clkStab0 : Off CLK_STAB0 := .of_lt (by decide) (by decide)

theorem Off.pwrPart {p : Nat} (h : p < 12) : Off (PWR_PART p) := .of_lt (by unfold PWR_PART; omega) (by unfold PWR_PART; omega)

theorem Off.errCap (p : Nat) : Off (ERR_CAP p) := .of_le (by unfold ERR_CAP; omega)

theorem Off.islPlaneUse (i : Nat) : Off (ISL_PLANE_USE i) := .of_le (by unfold ISL_PLANE_USE; omega)

namespace Quiet

variable {l : Bool} {s t : State}

/-! ### Lanes -/

theorem onLane (h : Quiet l s t) (n : Nat) (g : Lane → Lane) : Quiet l s (t.onLane n g) := h.same rfl rfl rfl rfl

theorem qOrder (h : Quiet l s t) (i q : Nat) (mark rewind release flush : Bool) : Quiet l s (qOrder i q mark rewind release flush t) := ite (h.qEnd ..) (h.qGive ..)

theorem replayOrder (h : Quiet l s t) (f : Nat) (mark rewind release : Bool) : Quiet l s (replayOrder f mark rewind release t) := h.qOrder ..

theorem replayRelease (h : Quiet l s t) (f : Nat) : Quiet l s (replayRelease f t) := ite (h.replayOrder ..) h

theorem takeModes (h : Quiet l s t) (n : Nat) : Quiet l s (takeModes n t) := by
  unfold Machine.takeModes
  extract_lets m old v
  have hv : Quiet l s v := h.onLane ..
  exact ite (hv.replayOrder ..) hv

theorem setUp (h : Quiet l s t) (n : Nat) (b : Bool) : Quiet l s (setUp n b t) := by
  unfold Machine.setUp
  exact (h.setF _ (.laneStat n)).setF _ (.lqStat (laneQuad n))

theorem toSeek (h : Quiet l s t) (n : Nat) (keep : Bool) : Quiet l s (toSeek n keep t) := by
  unfold Machine.toSeek
  extract_lets v w
  have hv : Quiet l s v := h.setF _ (.laneStat n)
  have hw : Quiet l s w := hv.replayRelease n
  exact ite (hv.onLane ..) (((hw.onLane ..).setUp ..).takeModes n)

theorem groupSeek (h : Quiet l s t) (n : Nat) (keep : Bool) : Quiet l s (groupSeek n keep t) := h.foldl (fun _ _ h => ite (h.toSeek ..) h) _

theorem startTraining (h : Quiet l s t) (n : Nat) : Quiet l s (startTraining n t) := by
  unfold Machine.startTraining
  split
  exact ite (h.setF _ (.laneStat _)) (ite h (ite ((h.toSeek ..).groupSeek ..) (h.onLane ..)))

theorem lanesUp (h : Quiet l s t) (n cur : Nat) : Quiet l s (lanesUp n cur t) := by
  unfold Machine.lanesUp
  extract_lets v
  have hv : Quiet l s v := ite h (h.foldl (fun _ _ h => h.foldl (fun _ _ h => h.setF _ (.lqStat _)) _) _)
  exact hv.foldl (fun _ _ h => ite h (ite ((h.onLane ..).startTraining _) (ite (ite ((h.setF _ (.laneStat _)).onLane ..) h) (ite (h.toSeek ..) (h.startTraining _))))) _

/-! ### Clocks and the reset of islands -/

theorem clkStart (h : Quiet l s t) {i : Nat} (hi : i < 156) : Quiet l s (clkStart i t) := by
  unfold Machine.clkStart Machine.retune
  exact setF (setF (h.setF _ (.clkIsl hi)) _ (.clkIsl hi)) _ (.clkIsl hi)

theorem islandsOf_lt {s : State} {n i : Nat} (h : i ∈ s.islandsOf n) : i < 156 := by
  simp only [State.islandsOf, State.rowsOf, List.mem_flatMap, List.mem_filter, List.mem_map, List.mem_range] at h
  obtain ⟨r, ⟨hr, -⟩, ⟨p, hp, rfl⟩, -⟩ := h
  omega

theorem clocksOn (h : Quiet l s t) (n : Nat) : Quiet l s (clocksOn n t) := by
  unfold Machine.clocksOn
  extract_lets v
  have hv : Quiet l s v := foldl_mem (fun _ i hi h => ite h (h.clkStart (islandsOf_lt hi))) h
  exact hv.foldl (fun _ _ h => ite h (h.setF 1 .clkStab0)) _

end Quiet

theorem find_map_values {α : Type} {m : Map α} (g : Nat → α → α) (k : Nat) : Map.find (m.map fun r => (r.1, g r.1 r.2)) k = (Map.find m k).map (g k) := by
  induction m with
  | nil => rfl
  | cons c m ih =>
    obtain ⟨k', v⟩ := c
    simp only [List.map_cons, Map.find]
    by_cases h : k' = k
    · rw [if_pos h, if_pos h, h]; rfl
    · rw [if_neg h, if_neg h, ih]

/-- Warm reset of a range of registers leaves the others. -/
theorem rd_warmRegs {lo hi k : Nat} (s : State) (h : k < lo ∨ hi ≤ k) : (warmRegs lo hi s).rd k = s.rd k := by
  have hg : (fun r : Nat × Word => if lo ≤ r.1 ∧ r.1 < hi then (r.1, warmWord r.1 r.2) else r) =
      fun r => (r.1, if lo ≤ r.1 ∧ r.1 < hi then warmWord r.1 r.2 else r.2) := by
    funext r
    split <;> rfl
  unfold State.rd warmRegs Map.getD
  dsimp only
  rw [hg, find_map_values fun k v => if lo ≤ k ∧ k < hi then warmWord k v else v]
  have hk : ¬ (lo ≤ k ∧ k < hi) := by omega
  simp only [hk, if_false, Option.map_id']

namespace Quiet

variable {l : Bool} {s t : State}

theorem warmRegs (h : Quiet l s t) {lo hi : Nat} (hl : 0x3_0030 ≤ lo) : Quiet l s (warmRegs lo hi t) := by
  refine h.trans ⟨id, rfl, fun y _ ho _ => ?_, fun _ => rfl⟩
  have hk : y.key < lo := by
    by_contra hc
    exact ho (.of_le (by omega))
  simp only [State.f, rd_warmRegs t (.inl hk)]

theorem islReset (h : Quiet l s t) (i : Nat) : Quiet l s (islReset i t) := (h.warmRegs (by omega)).setIsl ..

theorem clkStop (h : Quiet l s t) {i : Nat} (hi : i < 156) : Quiet l s (clkStop i t) := by
  unfold Machine.clkStop
  exact setF (setF (h.setF _ (.clkIsl hi)) _ (.clkIsl hi)) _ (.clkIsl hi)

theorem dropRelease (h : Quiet l s t) (d : Nat) : Quiet l s (dropRelease d t) := h.same rfl rfl rfl rfl

theorem islHold (h : Quiet l s t) {i : Nat} (hi : i < 156) : Quiet l s (islHold i t) := ((h.islReset i).clkStop hi).dropRelease i

theorem captureDrop (h : Quiet l s t) (p : Nat) : Quiet l s (captureDrop p t) := ite h (foldl (fun _ _ h => h.onIsl ..) (h.setF 0 (.errCap p)) _)

theorem holdPins (h : Quiet l s t) (sel : Nat → Bool) : Quiet l s (holdPins sel t) := h.same rfl rfl rfl rfl

end Quiet

end Sys2Proof.Proofs
end

