-- ==== Sys2Proof/Proofs/QuietSeq.lean ====
section
/-!
SUPPORT. Proofs/QuietSeq.lean: the reset of sequencers, and the end of a load, leave the frames and the definitions alone; they change the states of partitions.
-/
namespace Sys2Proof.Proofs
open Sys2Proof.Machine Sys2Proof.Safety

theorem Off.seqCtl (q : Nat) : Off (SEQ_CTL q) := .of_le (by unfold SEQ_CTL; omega)

theorem Off.cfgStat : Off CFG_STAT := .of_lt (by decide) (by decide)

theorem Off.cfgErr : Off CFG_ERR := .of_lt (by decide) (by decide)

theorem Off.cfgProg : Off CFG_PROG := .of_lt (by decide) (by decide)

theorem Off.cfgBoot : Off CFG_BOOT := .of_lt (by decide) (by decide)

theorem Off.errStat : Off ERR_STAT := .of_le (by decide)

/-- The partition that follows a sequencer is one of the twelve. -/
theorem primaryOf_lt {s : State} {q p : Nat} (h : s.primaryOf q = some p) : p < 12 := List.mem_range.1 (List.mem_of_find?_eq_some h)

namespace Quiet

variable {l : Bool} {s t : State}

/-! ### Sequencers -/

theorem laneResync (h : Quiet l s t) (n : Nat) : Quiet l s (laneResync n t) := by
  unfold Machine.laneResync
  extract_lets v
  have hv : Quiet l s v := h.onLane ..
  exact ite (ite (hv.setF 4 (.laneStat n)) hv) h

theorem partFollows (h : Quiet true s t) (q : Nat) : Quiet true s (partFollows q t) := by
  unfold Machine.partFollows
  split
  · exact h
  next p hp =>
    have hlt := primaryOf_lt hp
    exact ite ((h.setState _ hlt).foldl (fun _ _ h => h.laneResync _) _) (ite (h.setState _ hlt) h)

theorem resetCore (h : Quiet true s t) (q : Nat) : Quiet true s (resetCore q t) := by
  unfold Machine.resetCore
  exact partFollows (setF (h.setSeq ..) _ (.seqCtl q)) q

theorem seqHold (h : Quiet true s t) (q : Nat) : Quiet true s (seqHold q t) := by
  unfold Machine.seqHold
  exact partFollows (setF (h.setSeq ..) _ (.seqCtl q)) q

theorem seqReset (h : Quiet true s t) (q : Nat) : Quiet true s (seqReset q t) :=
  ite (h.resetCore q) (ite ((h.seqHold q).same rfl rfl rfl rfl) (h.seqHold q))

theorem seqHalt (h : Quiet true s t) (q : Nat) : Quiet true s (seqHalt q t) := by
  unfold Machine.seqHalt
  exact partFollows (setF (h.setSeq ..) _ (.seqCtl q)) q

theorem dropSends (h : Quiet true s t) (q : Nat) : Quiet true s (dropSends q t) := h.setSeq ..

/-! ### The end of a load -/

theorem onCfg (h : Quiet l s t) (g : Cfg → Cfg) : Quiet l s (t.onCfg g) := h.same rfl rfl rfl rfl

theorem handled (h : Quiet l s t) (p : Nat) : Quiet l s (handled p t) := by
  unfold Machine.handled
  extract_lets ended rest
  refine ite h (setF ?_ _ .errStat)
  exact h.same rfl rfl rfl rfl

theorem setCfgErr (h : Quiet l s t) (code faddr : Nat) : Quiet l s (setCfgErr code faddr t) := by
  unfold Machine.setCfgErr
  extract_lets v
  have hv : Quiet l s v := setF (setF (setF (h.setF _ .cfgErr) _ .cfgErr) _ .cfgErr) _ .cfgErr
  exact setF (setF (hv.setF _ .cfgErr) _ .cfgErr) _ .cfgErr

theorem requestWake (h : Quiet l s t) {p : Nat} (hp : p < 12) : Quiet l s (requestWake p t) := by
  unfold Machine.requestWake
  refine ite (h.same rfl rfl rfl rfl) (ite h (setF ?_ _ (.pwrPart hp)))
  exact h.same rfl rfl rfl rfl

theorem cfgBegin (h : Quiet l s t) (src mode part : Nat) (golden : Bool) (boot : Nat) : Quiet l s (cfgBegin src mode part golden boot t) := by
  unfold Machine.cfgBegin
  extract_lets v w
  have hv : Quiet l s v := ((h.setF _ .cfgStat).setF _ .cfgStat).wr _ .cfgProg
  have hw : Quiet l s w := by
    unfold w
    split
    next hc => exact hv.requestWake hc.2
    next => exact hv
  exact hw.onCfg _

theorem nextReload (h : Quiet l s t) : Quiet l s (nextReload t) := by
  unfold Machine.nextReload
  split
  · exact h
  · refine ite h (cfgBegin ?_ ..)
    exact h.same rfl rfl rfl rfl

theorem repairReloaded (h : Quiet true s t) (src : Nat) {p : Nat} (hp : p < 12) : Quiet true s (repairReloaded src p t) := by
  unfold Machine.repairReloaded
  split
  · exact h
  · split
    · extract_lets _ v
      have hv : Quiet true s v := h.same rfl rfl rfl rfl
      exact ite hv (logErr (hv.setState _ hp) ..)
    · exact h

theorem cfgEnd (h : Quiet true s t) (hp : t.cfg.part < 12) : Quiet true s (cfgEnd t) := by
  unfold Machine.cfgEnd
  extract_lets p v w x
  have hv : Quiet true s v := h.repairReloaded _ hp
  have hx : Quiet true s x := (((((hv.onCfg _).setF _ .cfgStat).setF _ .cfgStat).setF _ .cfgStat).onCfg _)
  exact nextReload (handled (ite (hx.sendMsix ..) hx) p)

theorem unlockBand (h : Quiet l s t) (p : Nat) : Quiet l s (unlockBand p t) := h.foldl (fun _ _ h => h.setF 0 (.islPlaneUse _)) _

theorem cfg_unlockBand (p : Nat) (s : State) : (Machine.unlockBand p s).cfg = s.cfg := by
  unfold Machine.unlockBand
  have hfold (is : List Nat) (t : State) : (is.foldl (fun s i => s.setF (ISL_PLANE_USE.LOCK i) 0) t).cfg = t.cfg := by
    induction is generalizing t with
    | nil => rfl
    | cons i is ih => exact ih _
  exact hfold _ _

/-- A load of one partition that fails. -/
theorem cfgFail (h : Quiet true s t) (code faddr : Nat) (hp : t.cfg.part < 12) (hm : t.cfg.mode ≠ 2) : Quiet true s (cfgFail code faddr t) := by
  unfold Machine.cfgFail
  extract_lets late v
  have hv : Quiet true s v := ite (h.setF 1 .cfgErr) (h.setCfgErr ..)
  have hcfg : v.cfg = t.cfg := by
    unfold v
    split <;> rfl
  rw [← hcfg] at hp hm
  clear_value v late
  split
  next e => exact absurd e hm
  next => exact cfgEnd (ite (hv.unlockBand _) hv) (by split; exacts [by rwa [cfg_unlockBand], hp])
  next =>
    split
    next e =>
      unfold fullFail
      rw [e]
      exact (hv.setF code .cfgBoot).cfgBegin ..
    next => exact cfgEnd (ite (hv.setState _ hp) hv) (by split <;> exact hp)

end Quiet

end Sys2Proof.Proofs
end

