-- ==== Sys2Proof/Proofs/Mailbox.lean ====
section
/-!
SUPPORT. Proofs/Mailbox.lean: how a firmware command begins and how it ends: the completion that its ring takes, and what the ring's turn leaves alone (R398, R399, R402).
-/
namespace Sys2Proof.Proofs
open Sys2Proof.Machine Sys2Proof.Safety

/-! ### Nothing waits in a submission ring -/

/-- An empty ring holds nothing to take. -/
theorem takeDescs_of_empty {fn : Nat} {s : State} (h : s.f (MBX_SQT.PTR fn) = s.f (MBX_SQH.PTR fn)) : takeDescs fn s = s := by
  have hcount (t n : Nat) (hn : 0 < n) : (t + n - t % n) % n = 0 := by
    have hle := Nat.mod_lt t hn
    rw [show t + n - t % n = n * (t / n) + n by have := Nat.div_add_mod t n; omega, Nat.add_mod_right, Nat.mul_mod_right]
  have hsize : 0 < ringSize fn := by unfold ringSize; split <;> decide
  unfold takeDescs
  split
  · simp only [h, hcount _ _ hsize]
    rfl
  · rfl

theorem takeAll_of_drained {s : State} (h : ∀ g, g < 13 → s.f (MBX_SQT.PTR g) = s.f (MBX_SQH.PTR g)) : takeAll s = s := by
  have hfold (fs : List Nat) (hfs : ∀ g ∈ fs, g < 13) : fs.foldl (fun s f => takeDescs f s) s = s := by
    induction fs with
    | nil => rfl
    | cons g fs ih => rw [List.foldl_cons, takeDescs_of_empty (h g (hfs g List.mem_cons_self)), ih fun x hx => hfs x (List.mem_cons_of_mem _ hx)]
  exact hfold _ fun g hg => List.mem_range.1 hg

/-! ### A completion that the ring takes -/

/-- The message of a vector in the table is sent, or pends. -/
theorem sendMsix_of_lt {fn vec : Nat} {s : State} (h : vec < if fn = 0 then 512 else 128) : ∃ out pend, sendMsix fn vec s = { s with out := out, msixPend := pend } ∧
    if s.msixOpen fn vec then Out.msix fn vec ∈ out else msixIx fn vec ∈ pend := by
  unfold sendMsix
  rw [if_neg (Nat.not_le.2 h)]
  by_cases ho : s.msixOpen fn vec = true
  · simp only [ho, if_true]
    exact ⟨_, _, rfl, List.mem_append_right _ List.mem_cons_self⟩
  · simp only [ho]
    by_cases hp : s.msixPend.contains (msixIx fn vec) = true
    · rw [if_pos hp]
      exact ⟨_, _, rfl, List.contains_iff_mem.1 hp⟩
    · rw [if_neg hp]
      exact ⟨_, _, rfl, List.mem_append_right _ List.mem_cons_self⟩

/-- The words of a completion. -/
def cplWord (ph : Bool) (c : Cpl) : Nat → Nat
  | 0 => c.w0 + b2n ph * 2 ^ 63
  | 1 => c.tag
  | 2 => c.r0.toNat
  | _ => c.r1.toNat

/-- The bytes of four words. -/
@[irreducible] def fourWords (w : Nat → Nat) : List Byte := bytesLE 8 (w 0) ++ bytesLE 8 (w 1) ++ bytesLE 8 (w 2) ++ bytesLE 8 (w 3)

theorem fourWords_length (w : Nat → Nat) : (fourWords w).length = 32 := by simp [fourWords, bytesLE_length]

/-- One of four words in a row of bytes. -/
theorem fourWords_drop_take (w : Nat → Nat) {i : Nat} (h : i < 4) : ((fourWords w).drop (8 * i)).take 8 = bytesLE 8 (w i) := by
  unfold fourWords
  generalize hb : bytesLE 8 = b
  have hl (v : Nat) : (b v).length = 8 := by rw [← hb, bytesLE_length]
  match i, h with
  | 0, _ => simp [hl]
  | 1, _ => simp [hl]
  | 2, _ => simp [List.drop_append, List.drop_of_length_le, hl]
  | 3, _ => simp [List.drop_append, List.take_of_length_le, List.drop_of_length_le, hl]

/-- A word of four stored in a canonical memory. -/
theorem num_puts_fourWords {m : Memory} (a : Nat) (w : Nat → Nat) {i : Nat} (hm : Memory.wf m = true) (h : i < 4) :
    Memory.num (Memory.puts m a (fourWords w)) (a + 8 * i) 8 = w i % 2 ^ 64 := by
  unfold Memory.num
  rw [Memory.gets_puts _ _ _ hm (by rw [fourWords_length]; omega), fourWords_drop_take _ h, numLE_bytesLE]
  norm_num

/-- The words of a completion that was written. -/
theorem num_puts_cpl {m : Memory} (a : Nat) (ph : Bool) (c : Cpl) (hm : Memory.wf m = true) :
    let t := Memory.puts m a (fourWords (cplWord ph c))
    Memory.num t a 8 = (c.w0 + b2n ph * 2 ^ 63) % 2 ^ 64 ∧ Memory.num t (a + 8) 8 = c.tag % 2 ^ 64 ∧ Memory.num t (a + 16) 8 = c.r0.toNat ∧
      Memory.num t (a + 24) 8 = c.r1.toNat := by
  have hw (i : Nat) (h : i < 4) := num_puts_fourWords a (cplWord ph c) hm h
  refine ⟨by simpa [cplWord] using hw 0 (by omega), by simpa [cplWord] using hw 1 (by omega), ?_, ?_⟩
  · have h2 := hw 2 (by omega)
    rwa [cplWord, Nat.mod_eq_of_lt c.r0.isLt] at h2
  · have h3 := hw 3 (by omega)
    rwa [cplWord, Nat.mod_eq_of_lt c.r1.isLt] at h3
    all_goals omega

/-- A completion stands at the tail of its ring, and the tail and the phase are behind it (R399). -/
def cplPlaced (fn : Nat) (c : Cpl) (s : State) : State :=
  let tail := (s.f (MBX_CQT.PTR fn) + 1) % ringSize fn
  let u := (s.onMem fun m => Memory.puts m (cplEntry fn s) (fourWords (cplWord (s.getMbx fn).phase c))).setF (MBX_CQT.PTR fn) tail
  if tail = 0 then u.onMbx fn (fun x => { x with phase := !(s.getMbx fn).phase }) else u

theorem cplWrite_eq (fn : Nat) (c : Cpl) (s : State) : cplWrite fn c s = sendMsix fn ((cplPlaced fn c s).f (MBX_CTL.VEC fn)) (cplPlaced fn c s) := by
  unfold cplWrite cplPlaced fourWords cplEntry
  simp only [cplWord]

section
variable (fn : Nat) (c : Cpl) (s : State)

theorem cplPlaced_parts : ∃ m, cplPlaced fn c s = { s with
    mem := Memory.puts s.mem (cplEntry fn s) (fourWords (cplWord (s.getMbx fn).phase c))
    regs := (s.setF (MBX_CQT.PTR fn) ((s.f (MBX_CQT.PTR fn) + 1) % ringSize fn)).regs
    mbx := m } := by
  unfold cplPlaced
  generalize (s.f (MBX_CQT.PTR fn) + 1) % ringSize fn = tail
  dsimp only
  split <;> exact ⟨_, rfl⟩

theorem getMbx_cplPlaced (g : Nat) : (cplPlaced fn c s).getMbx g = if g = fn ∧ (s.f (MBX_CQT.PTR fn) + 1) % ringSize fn = 0 then
    { s.getMbx fn with phase := !(s.getMbx fn).phase } else s.getMbx g := by
  unfold cplPlaced
  generalize (s.f (MBX_CQT.PTR fn) + 1) % ringSize fn = tail
  dsimp only
  by_cases ht : tail = 0
  · rw [if_pos ht, State.getMbx, State.onMbx, Map.getD_set]
    by_cases hg : g = fn
    · rw [if_pos hg, if_pos ⟨hg, ht⟩]; rfl
    · rw [if_neg hg, if_neg fun h => hg h.1]; rfl
  · rw [if_neg ht, if_neg fun h => ht h.2]; rfl

end

theorem getMbx_onMbx (fn g : Nat) (h : Mbx → Mbx) (s : State) : (s.onMbx fn h).getMbx g = if g = fn then h (s.getMbx fn) else s.getMbx g := by
  unfold State.getMbx State.onMbx
  rw [Map.getD_set]
  rfl

/-- What the completion ring of a function takes leaves only these parts of the state changed. -/
theorem cplWrite_parts {fn : Nat} (c : Cpl) {s : State} (h : s.f (MBX_CTL.VEC fn) < if fn = 0 then 512 else 128) : ∃ out pend,
    cplWrite fn c s = { cplPlaced fn c s with out := out, msixPend := pend } ∧
    if s.msixOpen fn (s.f (MBX_CTL.VEC fn)) then Out.msix fn (s.f (MBX_CTL.VEC fn)) ∈ out else msixIx fn (s.f (MBX_CTL.VEC fn)) ∈ pend := by
  obtain ⟨m, hm⟩ := cplPlaced_parts fn c s
  have hf {y : RF} (hy : y.key ≠ MBX_CQT fn) : (cplPlaced fn c s).f y = s.f y := by
    rw [hm]
    exact State.f_setF_other s (MBX_CQT.PTR fn) y _ hy
  have hvec : (cplPlaced fn c s).f (MBX_CTL.VEC fn) = s.f (MBX_CTL.VEC fn) := hf (by simp [MBX_CTL.VEC, MBX_CTL, MBX_CQT])
  have hopen (vec : Nat) : (cplPlaced fn c s).msixOpen fn vec = s.msixOpen fn vec := by
    unfold State.msixOpen State.on
    rw [hf (by simp only [HL_STAT.D3, HL_STAT, MBX_CQT]; omega), hm]
  rw [cplWrite_eq, hvec]
  obtain ⟨out, pend, e, hsent⟩ := sendMsix_of_lt (s := cplPlaced fn c s) (fn := fn) h
  rw [hopen] at hsent
  exact ⟨out, pend, e, hsent⟩

/-- The completion that a ready ring takes when a job ends with nothing else waiting in it. -/
theorem cplFlush_one {fn : Nat} {c : Cpl} {s : State} (hr : s.mbxReady fn = true) (he : s.f (MBX_CTL.EN fn) = 1) (hroom : s.cqRoom fn = true)
    (hw : (s.getMbx fn).wait = [c]) (hv : s.f (MBX_CTL.VEC fn) < if fn = 0 then 512 else 128) :
    cplFlush fn s = (cplWrite fn c (s.onMbx fn fun x => { x with wait := [] })).setF (MBX_STAT.CQWAIT fn) 0 := by
  have hon : s.on (MBX_CTL.EN fn) = true := (on_iff_one rfl).2 he
  have hnext : cplNext fn s = cplWrite fn c (s.onMbx fn fun x => { x with wait := [] }) := by
    unfold cplNext
    rw [hw]
    simp only [hr, hon, hroom, Bool.and_self, if_true]
  have hdone : ((cplWrite fn c (s.onMbx fn fun x => { x with wait := [] })).getMbx fn).wait = [] := by
    obtain ⟨out, pend, e, -⟩ := cplWrite_parts (fn := fn) c (s := s.onMbx fn fun x => { x with wait := [] }) hv
    rw [e]
    show ((cplPlaced fn c (s.onMbx fn fun x => { x with wait := [] })).getMbx fn).wait = []
    rw [getMbx_cplPlaced, getMbx_onMbx, if_pos rfl]
    split <;> rfl
  unfold cplFlush
  rw [hw]
  simp only [List.length_singleton, List.range_one, List.foldl_cons, List.foldl_nil, hnext, hdone, List.isEmpty_nil, Bool.not_true, Bool.and_false, Bool.false_and]
  rfl

/-- The registers that a completion leaves. -/
theorem f_cplFields {fn n : Nat} {s : State} {y : RF} (hq : y.key ≠ MBX_CQT fn) (hw : y.key ≠ MBX_STAT fn) :
    ((s.setF (MBX_CQT.PTR fn) n).setF (MBX_STAT.CQWAIT fn) 0).f y = s.f y :=
  (State.f_setF_other _ _ _ _ hw).trans (State.f_setF_other _ _ _ _ hq)

/-- The state before the ring takes the completion of the job at place `k`: the job has gone, and its completion is the one that the ring takes next. -/
def jobLeft (fn k : Nat) (s : State) : State := (jobDrop k s).onMbx fn fun x => { x with wait := [] }

/-- How a job of a function with a ready ring ends (R399). -/
theorem jobEnd_of_ready {k : Nat} {j : Job} {status detail : Nat} {r0 r1 : Word} {s : State} (h : CplReady j.fn s) (hs : status < 256) (hd : detail < 65536) :
    jobEnd k j status detail r0 r1 s =
      (cplWrite j.fn (cplOf status detail (s.jobDist k) j.d r0 r1) (jobLeft j.fn k s)).setF (MBX_STAT.CQWAIT j.fn) 0 := by
  obtain ⟨hserved, henabled, hroom, hfirst, hvec, hdrained⟩ := h
  have hput : cplPut j.fn status j.d.code.toNat detail (s.jobDist k) j.d.tag r0 r1 (jobDrop k s) =
      (cplWrite j.fn (cplOf status detail (s.jobDist k) j.d r0 r1) (jobLeft j.fn k s)).setF (MBX_STAT.CQWAIT j.fn) 0 := by
    have hc : j.d.code.toNat % 256 = j.d.code.toNat := Nat.mod_eq_of_lt j.d.code.isLt
    unfold cplPut
    rw [Nat.mod_eq_of_lt hs, Nat.mod_eq_of_lt hd, hc]
    have hw : (((jobDrop k s).onMbx j.fn fun x => { x with wait := x.wait ++ [cplOf status detail (s.jobDist k) j.d r0 r1] }).getMbx j.fn).wait =
        [cplOf status detail (s.jobDist k) j.d r0 r1] := by
      rw [getMbx_onMbx, if_pos rfl]
      show (s.getMbx j.fn).wait ++ _ = _
      rw [hfirst]
      rfl
    refine (cplFlush_one (by exact hserved) (by exact henabled) (by exact hroom) hw (by exact hvec)).trans ?_
    congr 2
    unfold jobLeft State.onMbx
    simp only [Map.set_set, State.getMbx, Map.getD_set_same]
  unfold jobEnd
  rw [hput]
  refine takeAll_of_drained fun g hg => ?_
  obtain ⟨out, pend, e, -⟩ := cplWrite_parts (fn := j.fn) (cplOf status detail (s.jobDist k) j.d r0 r1) (s := jobLeft j.fn k s) hvec
  obtain ⟨m, hm⟩ := cplPlaced_parts j.fn (cplOf status detail (s.jobDist k) j.d r0 r1) (jobLeft j.fn k s)
  have hf {y : RF} (hq : y.key ≠ MBX_CQT j.fn) (hw : y.key ≠ MBX_STAT j.fn) :
      ((cplWrite j.fn (cplOf status detail (s.jobDist k) j.d r0 r1) (jobLeft j.fn k s)).setF (MBX_STAT.CQWAIT j.fn) 0).f y = s.f y := by
    rw [e, hm]
    exact f_cplFields (s := jobLeft j.fn k s) hq hw
  rw [hf (by simp only [MBX_SQT.PTR, MBX_SQT, MBX_CQT]; omega) (by simp only [MBX_SQT.PTR, MBX_SQT, MBX_STAT]; omega),
    hf (by simp only [MBX_SQH.PTR, MBX_SQH, MBX_CQT]; omega) (by simp only [MBX_SQH.PTR, MBX_SQH, MBX_STAT]; omega)]
  exact hdrained g hg

/-- A job that ends leaves exactly its completion (R399). -/
theorem jobEnd_completed {k : Nat} {j : Job} {status detail : Nat} (r0 r1 : Word) {s : State} (h : CplReady j.fn s) (hm : MemOk s) (hs : status < 256)
    (hd : detail < 65536) : Completed j.fn k (cplOf status detail (s.jobDist k) j.d r0 r1) s (jobEnd k j status detail r0 r1 s) := by
  rw [jobEnd_of_ready h hs hd]
  generalize cplOf status detail (s.jobDist k) j.d r0 r1 = c
  generalize hfn : j.fn = fn at h ⊢
  have hsize : (s.f (MBX_CQT.PTR fn) + 1) % ringSize fn < 4096 := by
    unfold ringSize
    split <;> exact Nat.lt_of_lt_of_le (Nat.mod_lt _ (by decide)) (by decide)
  obtain ⟨out, pend, e, hsent⟩ := cplWrite_parts (fn := fn) c (s := jobLeft fn k s) h.vector
  obtain ⟨m, hp⟩ := cplPlaced_parts fn c (jobLeft fn k s)
  have hmbx (g : Nat) := getMbx_cplPlaced fn c (jobLeft fn k s) g
  have hleft (g : Nat) : (jobLeft fn k s).getMbx g = if g = fn then { s.getMbx fn with wait := [] } else s.getMbx g := getMbx_onMbx ..
  have hget (g : Nat) : ((cplWrite fn c (jobLeft fn k s)).setF (MBX_STAT.CQWAIT fn) 0).getMbx g = (cplPlaced fn c (jobLeft fn k s)).getMbx g := by
    rw [e]
    rfl
  have htail : (jobLeft fn k s).f (MBX_CQT.PTR fn) = s.f (MBX_CQT.PTR fn) := rfl
  rw [htail, hleft, if_pos rfl] at hmbx
  have hnum := num_puts_cpl (cplEntry fn s) (s.getMbx fn).phase c hm
  have hph : ((jobLeft fn k s).getMbx fn).phase = (s.getMbx fn).phase := by rw [hleft, if_pos rfl]
  rw [hph] at hp
  have hne : (MBX_CQT.PTR fn).key ≠ (MBX_STAT.CQWAIT fn).key := by simp [MBX_CQT.PTR, MBX_CQT, MBX_STAT.CQWAIT, MBX_STAT]
  have hregs : ((cplWrite fn c (jobLeft fn k s)).setF (MBX_STAT.CQWAIT fn) 0).regs =
      ((s.setF (MBX_CQT.PTR fn) ((s.f (MBX_CQT.PTR fn) + 1) % ringSize fn)).setF (MBX_STAT.CQWAIT fn) 0).regs := by
    rw [e, hp]
    rfl
  have hmem : ((cplWrite fn c (jobLeft fn k s)).setF (MBX_STAT.CQWAIT fn) 0).mem = Memory.puts s.mem (cplEntry fn s) (fourWords (cplWord (s.getMbx fn).phase c)) := by
    rw [e, hp]
    rfl
  refine ⟨⟨?_, ?_, ?_, ?_, ?_, ?_, ?_, ?_⟩, ⟨?_, ?_, ?_, ?_⟩, ?_⟩
  · rw [hmem]; exact hnum.1
  · rw [hmem]; exact hnum.2.1
  · rw [hmem]; exact hnum.2.2.1
  · rw [hmem]; exact hnum.2.2.2
  · rw [State.f_congr hregs, State.f_setF_other _ _ _ _ hne]
    exact f_setF_fits _ rfl hsize
  · rw [hget, hmbx]
    simp only [true_and, hleft, if_true]
    split <;> rfl
  · rw [State.f_congr hregs]
    exact f_setF_fits _ rfl (show 0 < 2 by decide)
  · rw [e]
    exact hsent
  · rw [e, hp]
    rfl
  · exact FieldsBut.trans (((FieldsBut.refl _ s).setF _ rfl List.mem_cons_self).setF _ rfl (List.mem_cons_of_mem _ List.mem_cons_self)) (FieldsBut.of_regs hregs)
  · rw [e, hp]
    rfl
  · intro g hg
    rw [hget, hmbx, if_neg fun h => hg h.1, hleft, if_neg hg]
  · intro a ha
    have hlen := fourWords_length (cplWord (s.getMbx fn).phase c)
    unfold inEntry at ha
    show Memory.get _ a = _
    rw [hmem, Memory.get_puts _ _ _ _ hm, if_neg (by rw [hlen]; exact ha)]
    rfl

/-! ### Firmware commands -/

/-- The job that a firmware command names. -/
theorem jobOf_eq_some {s : State} {fn k : Nat} {d : Desc} {j : Job} (h : s.jobOf fn d = some (k, j)) : s.jobs[k]? = some j ∧ j.fn = fn ∧ j.d = d := by
  obtain ⟨⟨a, n⟩, hmem, hx⟩ := List.exists_of_findSome?_eq_some h
  split at hx
  next hc =>
    cases hx
    exact ⟨List.mem_zipIdx_iff_getElem?.1 hmem, hc⟩
  · cases hx

theorem jobDist_of_sets {s t : State} {k : Nat} {j : Job} (hj : s.jobs[k]? = some j) (hs : j.sets = []) (ht : t.jobs = s.jobs) : t.jobDist k = false := by
  unfold State.jobDist
  rw [ht, hj]
  simp [hs]

section
variable {code f k : Nat} {d : Desc} {j : Job} {s : State} {run : Nat → Job → State → State}

/-- Firmware executes a command that nothing holds up. -/
theorem firmware_of_executes (h : Executes code f d k j s) : firmware code f d run s = run k j s := by
  unfold firmware
  rw [h.job]
  dsimp only
  rw [if_neg (by simp [h.named, h.first, h.firmware]), if_neg (by simp [h.fresh]), if_neg (by simp [h.fresh]), h.early]
  dsimp only
  refine if_neg fun hc => ?_
  obtain ⟨hkind, hcode, -, hcur, -⟩ := hc
  rcases h.awake with ha | ha | ha
  · exact hcode ha
  · exact ha hkind
  · exact hcur ha

/-- Firmware goes on with a command that it has begun. -/
theorem firmware_of_started (hj : s.jobOf f d = some (k, j)) (hc : d.code.toNat = code) (hs : j.started = true) (hf : s.firmOn = true) (h0 : s.f ERR_STAT.FATAL = 0) :
    firmware code f d run s = run k j s := by
  unfold firmware
  rw [hj]
  dsimp only
  rw [if_neg (by simp [hc, State.jobFree, hs, hf]), if_neg (by simp [(on_eq_false_iff s ERR_STAT.FATAL).2 h0]), if_pos hs]

/-- Fatal hold ends a command that firmware has begun (R452). -/
theorem firmware_of_hold (hj : s.jobOf f d = some (k, j)) (hc : d.code.toNat = code) (hs : j.started = true) (hf : s.firmOn = true) (h1 : s.f ERR_STAT.FATAL = 1)
    (hh : codeInHold code = false) : firmware code f d run s = jobEnd k j csNOTREADY 0 0 0 s := by
  unfold firmware
  rw [hj]
  dsimp only
  rw [if_neg (by simp [hc, State.jobFree, hs, hf]), if_pos ⟨(on_iff_one rfl).2 h1, hh, hs⟩]

end

end Sys2Proof.Proofs

namespace Sys2Proof.Safety
open Sys2Proof.Machine Sys2Proof.Proofs

section
variable {code k : Nat} {f : Fin 13} {d : Desc} {j : Job} {s : State}

/-- A command of a function with a ready ring that ends in a state whose jobs are those of the start leaves its completion, undisturbed. -/
theorem Executes.completed {t : State} (h : Executes code f d k j s) (hr : CplReady f t) (hm : MemOk t) (ht : t.jobs = s.jobs) {status detail : Nat} (r0 r1 : Word)
    (hs : status < 256) (hd : detail < 65536) : Completed f k (cplOf status detail false d r0 r1) t (jobEnd k j status detail r0 r1 t) := by
  obtain ⟨hj, hfn, hdesc⟩ := jobOf_eq_some h.job
  have hc := jobEnd_completed (k := k) (j := j) r0 r1 (hfn ▸ hr) hm hs hd
  rwa [hfn, hdesc, jobDist_of_sets hj h.sets ht] at hc

end

end Sys2Proof.Safety
end

