-- ==== Sys2Proof/Proofs/HostPut.lean ====
section
/-!
SUPPORT. Proofs/HostPut.lean: what a buffer in host memory holds after firmware wrote it (R401), and what stays as it was.
-/
namespace Sys2Proof.Proofs
open Sys2Proof.Machine Sys2Proof.Safety

/-- The bytes of a range, and the ECC conditions of their words. -/
def Touched (a n x : Nat) : Prop := (a ≤ x ∧ x < a + n) ∨ ∃ y, (a ≤ y ∧ y < a + n) ∧ x = eccKey y

theorem Touched.left {a n m x : Nat} (h : Touched a n x) : Touched a (n + m) x := by
  rcases h with h | ⟨y, h, rfl⟩
  · exact .inl (by omega)
  · exact .inr ⟨y, by omega, rfl⟩

theorem Touched.right {a n m x : Nat} (h : Touched (a + n) m x) : Touched a (n + m) x := by
  rcases h with h | ⟨y, h, rfl⟩
  · exact .inl (by omega)
  · exact .inr ⟨y, by omega, rfl⟩

/-- Bytes stand at an address, and nothing else but the ECC conditions of their words has changed. -/
structure PutAt (a : Nat) (bs : List Byte) (s t : State) : Prop where
  memOk : MemOk t
  only : t = { s with mem := t.mem }
  bytes : ∀ i, i < bs.length → t.byte (a + i) = bs.getD i 0
  others : BytesBut (Touched a bs.length) s t

namespace PutAt
variable {a : Nat} {bs cs : List Byte} {s t u : State}

theorem nil (a : Nat) (h : MemOk s) : PutAt a [] s s := ⟨h, rfl, fun _ hi => absurd hi (Nat.not_lt_zero _), fun _ _ => rfl⟩

/-- Bytes and those behind them, below the keys of the conditions. -/
theorem append (h : PutAt a bs s t) (h' : PutAt (a + bs.length) cs t u) (hk : a + bs.length + cs.length ≤ 2 ^ 53) : PutAt a (bs ++ cs) s u := by
  refine ⟨h'.memOk, ?_, fun i hi => ?_, fun x hx => ?_⟩
  · rw [h'.only, h.only]
  · rw [List.length_append] at hi
    by_cases hb : i < bs.length
    · have hout : ¬ Touched (a + bs.length) cs.length (a + i) := by
        rintro (h | ⟨y, -, h⟩)
        · omega
        · have := eccKey_ge y
          omega
      rw [h'.others _ hout, h.bytes i hb, List.getD_append _ _ _ _ hb]
    · have hc := h'.bytes (i - bs.length) (by omega)
      rw [show a + bs.length + (i - bs.length) = a + i by omega] at hc
      rw [hc, List.getD_append_right _ _ _ _ (by omega)]
  · rw [List.length_append] at hx
    rw [h'.others x fun h => hx h.right, h.others x fun h => hx h.left]

end PutAt

/-- A byte of the number that bytes spell. -/
theorem ofNat_numLE_div {bs : List Byte} {i : Nat} (h : i < bs.length) : BitVec.ofNat 8 (numLE bs / 256 ^ i) = bs.getD i 0 := by
  induction bs generalizing i with
  | nil => exact absurd h (Nat.not_lt_zero _)
  | cons b bs ih =>
    have hb : b.toNat < 256 := b.isLt
    rw [numLE]
    cases i with
    | zero =>
      apply BitVec.eq_of_toNat_eq
      rw [BitVec.toNat_ofNat, List.getD_cons_zero]
      omega
    | succ i =>
      rw [List.getD_cons_succ, ← ih (by simpa using h), Nat.pow_succ', ← Nat.div_div_eq_div_mul]
      congr 2
      omega

theorem region_host (s : State) {pa : Nat} (h : hostBase ≤ pa) (h' : pa < 2 ^ 52) : s.region pa = .host (pa - hostBase) := by
  unfold hostBase at h ⊢
  unfold State.region
  rw [if_neg (by omega), if_neg (by omega), if_neg (by omega), if_neg (by omega), if_neg (by omega), if_neg (by omega), if_neg (by omega), if_pos (by omega)]

theorem busWrite_host {pa size data : Nat} {s : State} (h : hostBase ≤ pa) (h' : pa < 2 ^ 52) :
    (busWrite pa size data 0 false false false s).2 = storeAt pa size data (if size = 8 then 0 else s.ecc pa) s := by
  have hr := region_host s h h'
  unfold busWrite
  rw [hr]
  dsimp only
  rw [show hostBase + (pa - hostBase) = pa by omega]
  rfl

/-- Bytes of one ECC word that a requester writes. -/
theorem busWrite_putAt {pa : Nat} {bs : List Byte} {s : State} (hm : MemOk s) (h : hostBase ≤ pa) (h' : pa + bs.length ≤ 2 ^ 52) (h0 : bs ≠ []) :
    PutAt pa bs s (busWrite pa bs.length (numLE bs) 0 false false false s).2 := by
  have hlen := List.length_pos_of_ne_nil h0
  rw [busWrite_host h (by omega)]
  refine ⟨storeAt_memOk hm, storeAt_parts .., fun i hi => ?_, fun x hx => ?_⟩
  · have hk := eccKey_ge pa
    rw [byte_storeAt _ hm, if_neg (by omega), if_pos (by omega), Nat.add_sub_cancel_left, ofNat_numLE_div hi]
  · rw [byte_storeAt _ hm, if_neg fun e => hx (.inr ⟨pa, by omega, e⟩), if_neg fun e => hx (.inl e)]

/-- Bytes written eight at a time. -/
theorem busPut_putAt {pa : Nat} {bs : List Byte} {s : State} (hm : MemOk s) (h : hostBase ≤ pa) (h' : pa + bs.length ≤ 2 ^ 52) (h8 : bs.length % 8 = 0) :
    PutAt pa bs s (busPut pa bs s) := by
  induction pa, bs, s using busPut.induct with
  | case1 pa b0 b1 b2 b3 b4 b5 b6 b7 bs s ih =>
    simp only [List.length_cons] at h' h8
    have hword := busWrite_putAt (bs := [b0, b1, b2, b3, b4, b5, b6, b7]) hm h (by simp only [List.length_cons, List.length_nil]; omega) (by simp)
    rw [busPut]
    exact hword.append (ih hword.memOk (by omega) (by omega) (by omega)) (by simp only [List.length_cons, List.length_nil]; omega)
  | case2 bs pa s hshort =>
    have hnil : bs = [] := by
      match bs, hshort, h8 with
      | [], _, _ => rfl
      | b0 :: b1 :: b2 :: b3 :: b4 :: b5 :: b6 :: b7 :: bs, hshort, _ => exact absurd rfl (hshort b0 b1 b2 b3 b4 b5 b6 b7 bs)
    subst hnil
    exact .nil pa hm

/-- Bytes written one at a time. -/
theorem putBytes_putAt {a : Nat} (k : Nat) {bs : List Byte} {s : State} (hm : MemOk s) (h : hostBase ≤ a) (h' : a + k + bs.length ≤ 2 ^ 52) :
    PutAt (a + k) bs s ((bs.zipIdx k).foldl (fun s x => (busWrite (a + x.2) 1 x.1.toNat 0 false false false s).2) s) := by
  induction bs generalizing k s with
  | nil => exact .nil _ hm
  | cons b bs ih =>
    rw [List.length_cons] at h'
    have hb := busWrite_putAt (pa := a + k) (bs := [b]) hm (by omega) (by simp only [List.length_singleton]; omega) (by simp)
    have hrest := ih (k + 1) hb.memOk (by omega)
    exact hb.append hrest (by simp only [List.length_singleton]; omega)

/-- A buffer that firmware writes (R401). -/
theorem hostPut_putAt {a : Nat} {bs : List Byte} {s : State} (hm : MemOk s) (h : a + bs.length ≤ 2 ^ 51) : PutAt (hostBase + a) bs s (hostPut a bs s) := by
  have hb : hostBase = 2 ^ 51 := rfl
  have hlen : (bs.take (bs.length / 8 * 8)).length = bs.length / 8 * 8 := by rw [List.length_take]; omega
  have hwords := busPut_putAt (pa := hostBase + a) (bs := bs.take (bs.length / 8 * 8)) hm (by omega) (by omega) (by omega)
  have htail := putBytes_putAt (a := hostBase + a + bs.length / 8 * 8) 0 (bs := bs.drop (bs.length / 8 * 8)) hwords.memOk (by omega) (by rw [List.length_drop]; omega)
  have hall := hwords.append (by rw [hlen]; exact htail) (by rw [hlen, List.length_drop]; omega)
  rwa [List.take_append_drop] at hall

end Sys2Proof.Proofs
end

