-- ==== Sys2Proof/Proofs/ResetValues.lean ====
section
/-!
PROOFS. Proofs/ResetValues.lean: obligation O2.
-/
namespace Sys2Proof.Proofs
open Sys2Proof.Machine Sys2Proof.Safety

/-- Settles O2: the reset state is closed, so that each register, row, lane and partition of it is evaluated. -/
theorem resetHoldsTheSpecsValues : Obligations.ResetHoldsTheSpecsValues := by
  unfold Obligations.ResetHoldsTheSpecsValues
  refine ⟨rfl, rfl, ?_, ?_, ?_, ?_, ?_, ?_, ?_, ?_, ?_, ?_, ?_, ?_⟩
  all_goals decide +kernel

end Sys2Proof.Proofs
end

