-- ==== Sys2Proof/Proofs/RegisterWrites.lean ====
section
/-!
PROOFS. Proofs/RegisterWrites.lean: obligation O7.
-/
namespace Sys2Proof.Proofs
open Sys2Proof.Machine Sys2Proof.Safety

theorem toNat_ofNat24 {o : Nat} (h : o < 2 ^ 24) : (BitVec.ofNat 24 o).toNat = o := by rw [BitVec.toNat_ofNat, Nat.mod_eq_of_lt h]

/-- The low half of a 64-bit value, as a narrow write carries it, reads the fields of the value. -/
theorem getBits_low (v : BitVec 64) {hi lo : Nat} (hl : lo ≤ hi) (hh : hi < 32) : getBits (BitVec.ofNat 64 (v.toNat % 2 ^ (8 * 4))) hi lo = (v.extractLsb' lo (hi + 1 - lo)).toNat := by
  rw [getBits_ofNat (by omega), bitsOf_mod _ hl hh, bitsOf_eq_extract]

/-- A 32-bit write of `ERR_CTL` by the physical function. -/
theorem exec_errCtl (v : BitVec 64) {s : State} (hf : s.fnOpen 0 = true) :
    exec (.registerWrite 0 false (BitVec.ofNat 24 ERR_CTL) false v) s = .next (fieldWrite ERR_CTL (BitVec.ofNat 64 (v.toNat % 2 ^ (8 * 4))) s) :=
  exec_registerWrite_pf (wide := false) (p := ⟨ERR_CTL, false, false⟩) v hf (by decide) (by decide) (by decide +kernel) (by decide) rfl

/-- Writes that reach no register, a read-only one, or one narrower than the access. -/
theorem exec_registerWrite_nothing (v : BitVec 64) {s : State} (hf : s.fnOpen 0 = true) :
    exec (.registerWrite 0 false (BitVec.ofNat 24 GLB_DEVICE_ID) false v) s = .next s ∧ exec (.registerWrite 0 false (BitVec.ofNat 24 0x28_0000) false v) s = .next s ∧
      exec (.registerWrite 0 false (BitVec.ofNat 24 ERR_CTL) true v) s = .next s := by
  refine ⟨?_, ?_, ?_⟩
  · exact exec_registerWrite_pf (wide := false) (p := ⟨GLB_DEVICE_ID, false, false⟩) v hf (by decide) (by decide) (by decide +kernel) (by decide) rfl
  · rw [exec_registerWrite (f := 0) v hf (by decide)]
    exact congrArg Host.Outcome.next (barWrite_unnamed (reaches_pf s _) (by decide +kernel))
  · exact exec_registerWrite_pf (wide := true) (p := ⟨ERR_CTL, false, false⟩) v hf (by decide) (by decide) (by decide +kernel) (by decide) rfl

/-! ### `MMU_PARTn` -/

theorem mayWrite_pf (s : State) (n : Nat) : s.mayWrite (.fn 0) n = true := rfl

theorem mayWrite_own {f n : Nat} {s : State} (h : s.vfPart f = some n) : s.mayWrite (.fn f) n = true := by
  simp [State.mayWrite, h]

/-- A 64-bit write of `MMU_PARTn` by a function that reaches it and may write it. -/
theorem exec_mmuPart {f : Fin 13} {n : Fin 12} (v : BitVec 64) {s : State} (hf : s.fnOpen f = true) (hr : s.reaches (.fn f) (MMU_PART n) = true)
    (hw : s.mayWrite (.fn f) n = true) (hc : s.dmaClk = true) :
    exec (.registerWrite f false (BitVec.ofNat 24 (MMU_PART n)) true v) s = .next (fieldWrite (MMU_PART n) v s) := by
  obtain ⟨hlo, hhi, hal⟩ := mmuPart_lt n
  have e : (BitVec.ofNat 24 (MMU_PART n)).toNat = MMU_PART n := toNat_ofNat24 (by omega)
  rw [exec_registerWrite v hf (by rw [e]; exact (by omega : MMU_PART n % 8 = 0)), e,
    barWrite_register hr (by omega) (placeOf_mmuPart _ n) (inCfgWindow_above (by omega)) (by rw [regClk_mmu s hlo, hc])]
  show Host.Outcome.next (regWrite _ (MMU_PART n) (BitVec.ofNat 64 (v.toNat % 2 ^ 64)) s) = _
  rw [regWrite_mmuPart _ hw, Nat.mod_eq_of_lt v.isLt, BitVec.ofNat_toNat, BitVec.setWidth_eq]

/-- The lower half of a register written in halves is held (R10). -/
theorem exec_mmuPart_lower {n : Fin 12} (v : BitVec 64) {s : State} (hf : s.fnOpen 0 = true) (hc : s.dmaClk = true) :
    exec (.registerWrite 0 false (BitVec.ofNat 24 (MMU_PART n)) false v) s = .next (setHold 0 (some (MMU_PART n, v.toNat % 2 ^ 32)) s) := by
  obtain ⟨hlo, hhi, hal⟩ := mmuPart_lt n
  exact exec_registerWrite_pf (wide := false) (p := ⟨MMU_PART n, true, false⟩) v hf (by omega) (by rw [if_neg (by decide)]; omega) (placeOf_mmuPart _ n)
    (inCfgWindow_above (by omega)) (by rw [regClk_mmu s hlo, hc])

/-- The upper half writes the whole register with the half that was held. -/
theorem exec_mmuPart_upper {n : Fin 12} (v lo : BitVec 64) {s : State} (hf : s.fnOpen 0 = true) (hc : s.dmaClk = true) :
    exec (.registerWrite 0 false (BitVec.ofNat 24 (MMU_PART n + 4)) false v) (setHold 0 (some (MMU_PART n, lo.toNat % 2 ^ 32)) s) =
      .next (fieldWrite (MMU_PART n) (BitVec.ofNat 64 (v.toNat % 2 ^ 32 * 2 ^ 32 + lo.toNat % 2 ^ 32))
        (setHold 0 none (setHold 0 (some (MMU_PART n, lo.toNat % 2 ^ 32)) s))) := by
  obtain ⟨hlo, hhi, hal⟩ := mmuPart_lt n
  have hfind : Map.find (setHold 0 (some (MMU_PART n, lo.toNat % 2 ^ 32)) s).sys.holds 0 = some (MMU_PART n, lo.toNat % 2 ^ 32) := by
    simp [setHold, Map.find_set]
  have hclk : (setHold 0 (some (MMU_PART n, lo.toNat % 2 ^ 32)) s).regClk (MMU_PART n + 4) = true := by
    rw [regClk_mmu _ (by omega)]; exact hc
  have hf' : (setHold 0 (some (MMU_PART n, lo.toNat % 2 ^ 32)) s).fnOpen 0 = true := hf
  rw [exec_registerWrite_pf (wide := false) (p := ⟨MMU_PART n, true, true⟩) v hf' (by omega) (by rw [if_neg (by decide)]; omega) (placeOf_mmuPart_upper _ n)
    (inCfgWindow_above (by omega)) hclk]
  simp only [placeWrite, Who.id, hfind, Bool.false_eq_true, if_false, if_true, Bool.not_true]
  rw [← regWrite_mmuPart _ (mayWrite_pf _ n)]
  rfl

/-- The two halves of a value. -/
theorem halves_eq (v : BitVec 64) : BitVec.ofNat 64 ((v >>> 32).toNat % 2 ^ 32 * 2 ^ 32 + v.toNat % 2 ^ 32) = v := by
  apply BitVec.eq_of_toNat_eq
  have hv := v.isLt
  simp only [BitVec.toNat_ofNat, BitVec.toNat_ushiftRight, Nat.shiftRight_eq_div_pow]
  omega

/-- A 64-bit register written as two halves changes at the upper half alone (R10). -/
theorem exec_mmuPart_halves {n : Fin 12} (v : BitVec 64) {s : State} (hf : s.fnOpen 0 = true) (hc : s.dmaClk = true) :
    ∃ h t, exec (.registerWrite 0 false (BitVec.ofNat 24 (MMU_PART n)) false v) s = .next h ∧ h = { s with sys := h.sys } ∧
      exec (.registerWrite 0 false (BitVec.ofNat 24 (MMU_PART n + 4)) false (v >>> 32)) h = .next t ∧
      (t.f (MMU_PART.PTBASE n) = (v.extractLsb' 12 40).toNat ∧ t.f (MMU_PART.ASID n) = (v.extractLsb' 0 12).toNat) ∧
      FieldsBut [MMU_PART.PTBASE n, MMU_PART.ASID n] s t ∧ t = { s with regs := t.regs, sys := t.sys } := by
  refine ⟨_, _, exec_mmuPart_lower v hf hc, rfl, exec_mmuPart_upper (v >>> 32) v hf hc, ?_⟩
  rw [halves_eq]
  obtain ⟨hp, ha, ho, hb⟩ := fieldWrite_mmuPart_fields n v (setHold 0 none (setHold 0 (some (MMU_PART n, v.toNat % 2 ^ 32)) s))
  refine ⟨⟨hp, ha⟩, fun y hy hx => (hb y hy hx).trans (State.f_congr rfl y), ?_⟩
  rw [ho]
  rfl

/-- A write of another partition's `MMU_PARTm` is discarded and logged (R280). -/
theorem exec_mmuPart_denied {f : Fin 13} {n m : Fin 12} (v : BitVec 64) {s : State} (h0 : f.val ≠ 0) (hf : s.fnOpen f = true) (hp : s.vfPart f = some n.val) (hm : m ≠ n)
    (hc : s.dmaClk = true) :
    exec (.registerWrite f false (BitVec.ofNat 24 (MMU_PART m)) true v) s = .next (logErr 0x0A02 m (srcOf 7 0xFC) (BitVec.ofNat 64 (MMU_PART m)) 0 s) := by
  obtain ⟨hlo, hhi, hal⟩ := mmuPart_lt m
  have hne : m.val ≠ n.val := fun e => hm (Fin.ext e)
  have e : (BitVec.ofNat 24 (MMU_PART m)).toNat = MMU_PART m := toNat_ofNat24 (by omega)
  have hr : s.reaches (.fn f) (MMU_PART m) = false := by rw [reaches_mmuPart m h0 hp, decide_eq_false hne]
  have ho : s.ownerOf (MMU_PART m) = some m.val := by
    unfold State.ownerOf
    rw [if_neg (by omega), if_neg (by omega), if_neg (by omega), if_pos (by omega)]
    simp only [MMU_PART, Option.some.injEq]
    omega
  have h4 : MMU_PART m / 4 * 4 = MMU_PART m := by omega
  have hnamed : named (.fn f) (MMU_PART m) = true := by simp [named, h4, placeOf_mmuPart]
  have hclk : s.regClk (MMU_PART m) = true := by rw [regClk_mmu s hlo, hc]
  have hsrc : MMU_PART m / 0x1_0000 = 0xFC := by omega
  rw [exec_registerWrite v hf (by rw [e]; exact (by omega : MMU_PART m % 8 = 0)), e]
  simp only [barWrite, hr, Bool.not_false, if_true, outOfReach, ho, hp, hnamed, hclk, h4, deniedWrite, hsrc]
  rw [if_neg (by simpa using fun e => hne e.symm)]

/-! ### The locked policy register -/

/-- A 32-bit write of `CFG_POLICY` by the physical function. -/
theorem exec_cfgPolicy (v : BitVec 64) {s : State} (hf : s.fnOpen 0 = true) (hc : s.cfgClk = true) :
    exec (.registerWrite 0 false (BitVec.ofNat 24 CFG_POLICY) false v) s = .next (fieldWrite CFG_POLICY (BitVec.ofNat 64 (v.toNat % 2 ^ (8 * 4))) s) :=
  exec_registerWrite_pf (wide := false) (p := ⟨CFG_POLICY, false, false⟩) v hf (by decide) (by decide) (by decide +kernel) (by decide) hc

/-- With no storm limit a refused write of the policy register leaves one record. -/
theorem tail_policy_locked (v : Word) {s : State} (h : s.f CFG_POLICY.LOCK = 1) (h0 : s.f ERR_CTL.STORM = 0) :
    (fieldWrite CFG_POLICY v s).f ERR_LOGP.TAIL = if getBits v 2 0 = s.f policyFields then s.f ERR_LOGP.TAIL else (s.f ERR_LOGP.TAIL + 1) % 4096 := by
  have hw (x : RF) (hx : x.key ≠ CFG_POLICY) : (s.wr CFG_POLICY (s.rd CFG_POLICY)).f x = s.f x := f_wr_ne s _ hx
  rw [fieldWrite_policy_locked v h]
  dsimp only
  split
  · exact hw _ (by decide)
  · have := (logErr_one (BitVec.ofNat 64 CFG_POLICY) 0 (s.wr CFG_POLICY (s.rd CFG_POLICY)) (code := 0x0A01) (part := 15) (src := srcOf 7 3) (by decide) (by decide) (srcOf_lt 3 (by decide))
      ((hw _ (by decide)).trans h0) (fun hs => absurd rfl hs)).1
    rw [this, hw _ (by decide)]

/-! ### Stopped clocks -/

theorem gatedAccess_fields {o : Nat} (s : State) (ho : o < 2 ^ 24) :
    let t := gatedAccess o s
    t.f GLB_GATED_ACCESS.COUNT = min (s.f GLB_GATED_ACCESS.COUNT + 1) 127 ∧ t.f GLB_GATED_ACCESS.OFFSET = o ∧
      FieldsBut [GLB_GATED_ACCESS.COUNT, GLB_GATED_ACCESS.OFFSET] s t := by
  refine ⟨?_, f_setF_fits _ rfl ho, ?_⟩
  · rw [gatedAccess, f_setF_ne _ _ rfl (by decide) (.inr (by decide)), State.bump]
    exact f_setF_fits _ rfl (Nat.lt_of_le_of_lt (Nat.min_le_right _ _) (by decide))
  · exact ((FieldsBut.refl _ s).setF _ rfl (by simp)).setF _ rfl (by simp)

theorem exec_gatedAccess {f : Fin 13} {off : BitVec 24} (write : Bool) {s : State} (hf : s.fnOpen f = true) (hr : s.reaches (.fn f) (off.toNat / 4 * 4) = true)
    (hn : named (.fn f) (off.toNat / 4 * 4) = true) (hc : s.regClk (off.toNat / 4 * 4) = false) :
    exec (.gatedAccess f off write) s = .next (if write then gatedAccess (off.toNat / 4 * 4) s else (gatedAccess (off.toNat / 4 * 4) s).emit (.read 0)) := by
  show execGatedAccess f off write s = _
  simp [execGatedAccess, hf, hr, hn, hc]

theorem exec_gatedAccessClear {s : State} (hf : s.fnOpen 0 = true) : exec .gatedAccessClear s = .next (s.wr GLB_GATED_ACCESS 0) := by
  show execGatedAccessClear s = _
  rw [execGatedAccessClear, pfWrite, hf]
  rfl

/-- Settles O7: each clause is the write's path through `barWrite`, and the fields that the write of its register leaves. -/
theorem registerWritesByAccessCodeAndWidth : Obligations.RegisterWritesByAccessCodeAndWidth := by
  unfold Obligations.RegisterWritesByAccessCodeAndWidth
  intro n m f v off s wr mmu mmuHas
  refine ⟨fun hf => ⟨?_, ?_⟩, ?_, ?_, ?_, ?_⟩
  · obtain ⟨hx, hd, hv, hs, ho⟩ := fieldWrite_errCtl_fields (BitVec.ofNat 64 (v.toNat % 2 ^ (8 * 4))) s
    exact ⟨_, exec_errCtl v hf, hx.trans (getBits_low v (by decide) (by decide)), hd.trans (getBits_low v (by decide) (by decide)),
      hv.trans (getBits_low v (by decide) (by decide)), hs.trans (getBits_low v (by decide) (by decide)), ho⟩
  · obtain ⟨hid, hnone, hwide⟩ := exec_registerWrite_nothing v hf
    refine ⟨hid, hnone, hwide, fun hc => ⟨?_, exec_mmuPart_halves v hf hc⟩, fun hc hl h0 => ?_⟩
    · obtain ⟨hp, ha, ho⟩ := fieldWrite_mmuPart_fields n v s
      exact ⟨_, exec_mmuPart v hf (reaches_pf s _) (mayWrite_pf s n) hc, ⟨hp, ha⟩, ho⟩
    · have hrd := rd_policy_locked (BitVec.ofNat 64 (v.toNat % 2 ^ (8 * 4))) hl
      have hfld (x : RF) (hx : x.key = CFG_POLICY) : (fieldWrite CFG_POLICY (BitVec.ofNat 64 (v.toNat % 2 ^ (8 * 4))) s).f x = s.f x := by
        simp only [State.f, hx, hrd]
      refine ⟨_, exec_cfgPolicy v hf hc, hfld _ rfl, hfld _ rfl, hfld _ rfl, ?_⟩
      rw [tail_policy_locked _ hl h0, getBits_low v (by decide) (by decide)]
      rfl
  · intro h0 hf hp hc
    have hr : s.reaches (.fn f) (MMU_PART n) = true := by rw [reaches_mmuPart n h0 hp, decide_eq_true rfl]
    obtain ⟨hpt, ha, ho⟩ := fieldWrite_mmuPart_fields n v s
    refine ⟨⟨_, exec_mmuPart v hf hr (mayWrite_own hp) hc, ⟨hpt, ha⟩, ho⟩, fun hm => ⟨_, exec_mmuPart_denied v h0 hf hp hm hc, ?_, ?_, ?_⟩⟩
    · exact (logErr_logOnly ..).regs _ (.inr (by have := mmuPart_lt m; omega))
    · exact logErr_logged _ _ s (by omega) (by decide) (srcOf_lt _ (by decide))
    · exact (logErr_logOnly ..).mem
  · refine fun wide => ⟨fun hf _ => ?_, fun ha => ?_⟩
    · show execRegisterWrite f false off wide v s = _
      simp [execRegisterWrite, hf]
    · show execRegisterWrite f false off wide v s = _
      simp [execRegisterWrite, ha]
  · intro o hf hr hn hc write
    have ho : o < 2 ^ 24 := by have := off.isLt; omega
    obtain ⟨hcount, hoff, hbut⟩ := gatedAccess_fields s ho
    rw [exec_gatedAccess write hf hr hn hc]
    cases write
    · have hregs : ((gatedAccess o s).emit (.read 0)).regs = (gatedAccess o s).regs := rfl
      exact ⟨_, rfl, (State.f_congr hregs _).trans hcount, (State.f_congr hregs _).trans hoff, rfl, hbut.trans (FieldsBut.of_regs hregs), rfl⟩
    · exact ⟨_, rfl, hcount, hoff, (List.append_nil s.out).symm, hbut, rfl⟩
  · intro hf
    refine ⟨_, exec_gatedAccessClear hf, ?_, ?_, rfl, (FieldsBut.refl _ s).wr 0 (by simp)⟩ <;> simp [State.f, getBits, bitsOf, GLB_GATED_ACCESS.COUNT, GLB_GATED_ACCESS.OFFSET]

end Sys2Proof.Proofs
end

