-- ==== Sys2Proof/Proofs/BankPort.lean ====
section
/-!
PROOFS. Proofs/BankPort.lean: obligation O34, the external port of a sequencer bank (R10, R194).
-/
namespace Sys2Proof.Proofs
open Sys2Proof.Machine Sys2Proof.Safety

/-! ### The accesses of a request -/

/-- A request of no byte needs no access; any other begins with one at its own offset. -/
theorem pieces_head (off : Nat) {size : Nat} (h : size ≠ 0) : ∃ z b rest, pieces off size = (off, z, b) :: rest := by
  unfold pieces
  split
  · exact ⟨_, _, _, rfl⟩
  · obtain ⟨n, rfl⟩ := Nat.exists_eq_succ_of_ne_zero h
    exact ⟨1, 0, _, by rw [List.range_succ_eq_map]; rfl⟩

/-- A request is one access inside an ECC word, or one of each of its bytes. -/
theorem pieces_cases (off size : Nat) :
    (pieces off size = [(off, size, 0)] ∧ size ≠ 0 ∧ ∀ k, k < size → (off + k) / 8 = off / 8) ∨ pieces off size = (List.range size).map (fun k => (off + k, 1, 8 * k)) := by
  unfold pieces
  split
  next h =>
    left
    simp only [sizeOk, List.contains_cons, List.contains_nil, Bool.or_false, Bool.and_eq_true, Bool.or_eq_true, beq_iff_eq] at h
    obtain ⟨hsize, hal⟩ := h
    exact ⟨rfl, by omega, fun k hk => by rcases hsize with rfl | rfl | rfl | rfl <;> omega⟩
  next => exact .inr rfl

theorem region_bank (s : State) {n off : Nat} (hn : n < 24) (ho : off < 0x10_0000) : s.region (bankBase n + off) = .bank n off := by
  unfold State.region bankBase
  rw [if_neg (by omega), if_neg (by omega), if_pos (by omega), show (0x2_0000_0000 + n * 0x10_0000 + off - 0x2_0000_0000) / 0x10_0000 = n by omega,
    show (0x2_0000_0000 + n * 0x10_0000 + off) % 0x10_0000 = off by omega]

/-! ### Reads -/

/-- A read of a sound ECC word of a bank. -/
theorem busRead_bank {pa n off : Nat} (size : Nat) {s : State} (h : s.region pa = .bank n off) (hc : s.seqClk n = true) (he : s.ecc (bankBase n + off) = 0) :
    busRead pa size s = (some { data := Memory.num s.mem (bankBase n + off) size, tags := 0, bad := false }, s) := by
  unfold busRead
  rw [h]
  simp only [hc, if_true, bankEcc, he, Nat.reduceBEq]

theorem busRead_bank_stopped {pa n off : Nat} (size : Nat) {s : State} (h : s.region pa = .bank n off) (hc : s.seqClk n = false) :
    busRead pa size s = (none, s) := by
  unfold busRead
  rw [h]
  simp only [hc, Bool.false_eq_true, if_false]

/-- A fold that has ended with nothing keeps it. -/
theorem foldl_ended {α β : Type} {g : β → α → β} {r : β} (h : ∀ x, g r x = r) (xs : List α) : xs.foldl g r = r := by
  induction xs with
  | nil => rfl
  | cons x xs ih => rw [List.foldl_cons, h, ih]

/-- One access of a request that reads. -/
def readStep (base : Nat) (acc : Option (Nat × Bool) × State) (p : Nat × Nat × Nat) : Option (Nat × Bool) × State :=
  match acc with
  | (none, s) => (none, s)
  | (some (d, bad), s) =>
    match busRead (base + p.1) p.2.1 s with
    | (some g, s) => (some (d + g.data * 2 ^ p.2.2, bad || g.bad), s)
    | (none, s) => (none, s)

theorem busReads_eq (base off size : Nat) (s : State) : busReads base off size s = (pieces off size).foldl (readStep base) (some (0, false), s) := rfl

theorem readStep_some {base d : Nat} {bad : Bool} {p : Nat × Nat × Nat} {g : Got} {s t : State} (h : busRead (base + p.1) p.2.1 s = (some g, t)) :
    readStep base (some (d, bad), s) p = (some (d + g.data * 2 ^ p.2.2, bad || g.bad), t) := by
  simp only [readStep, h]

theorem readStep_none {base d : Nat} {bad : Bool} {p : Nat × Nat × Nat} {s t : State} (h : busRead (base + p.1) p.2.1 s = (none, t)) :
    readStep base (some (d, bad), s) p = (none, t) := by
  simp only [readStep, h]

theorem readStep_ended (base : Nat) (s : State) (p : Nat × Nat × Nat) : readStep base (none, s) p = (none, s) := rfl

/-- A read of sound words of a bank, in whatever accesses it is made. -/
theorem busReads_bank {n off size : Nat} {s : State} (hn : n < 24) (ho : off + size ≤ 0x10_0000) (hc : s.seqClk n = true)
    (he : ∀ k, k < size → s.ecc (bankBase n + off + k) = 0) : busReads (bankBase n) off size s = (some (Memory.num s.mem (bankBase n + off) size, false), s) := by
  rw [busReads_eq]
  rcases pieces_cases off size with ⟨h, h0, -⟩ | h
  · rw [h, List.foldl_cons, List.foldl_nil, readStep_some (p := (off, size, 0)) (busRead_bank size (region_bank s hn (by omega)) hc (he 0 (by omega)))]
    simp
  · rw [h]
    clear h
    induction size with
    | zero => rfl
    | succ z ih =>
      have hz : s.ecc (bankBase n + (off + z)) = 0 := by rw [← Nat.add_assoc]; exact he z (by omega)
      rw [List.range_succ, List.map_append, List.foldl_append, ih (by omega) fun k hk => he k (by omega), List.map_cons, List.map_nil, List.foldl_cons, List.foldl_nil,
        readStep_some (p := (off + z, 1, 8 * z)) (busRead_bank 1 (region_bank s hn (by omega)) hc hz), Memory.num_one, Memory.num_snoc _ _ z, Nat.pow_mul, Nat.add_assoc]
      rfl

theorem busReads_bank_stopped {n off size : Nat} {s : State} (hn : n < 24) (ho : off < 0x10_0000) (h0 : size ≠ 0) (hc : s.seqClk n = false) :
    busReads (bankBase n) off size s = (none, s) := by
  obtain ⟨z, b, rest, h⟩ := pieces_head off h0
  rw [busReads_eq, h, List.foldl_cons, readStep_none (p := (off, z, b)) (busRead_bank_stopped z (region_bank s hn ho) hc)]
  exact foldl_ended (readStep_ended _ s) rest

/-! ### Writes -/

/-- A write of sound words that has put its bytes there: nothing changes but the memory, there and in the conditions of its ECC words. -/
structure Stored (a size data : Nat) (s t : State) : Prop where
  parts : t = { s with mem := t.mem }
  memOk : MemOk t
  bytes : ∀ k, k < size → t.byte (a + k) = BitVec.ofNat 8 (data / 256 ^ k) ∧ t.ecc (a + k) = 0
  others : BytesBut (fun b => (a ≤ b ∧ b < a + size) ∨ ∃ k, k < size ∧ b = eccKey (a + k)) s t

theorem Stored.none (a data : Nat) {s : State} (h : MemOk s) : Stored a 0 data s s :=
  ⟨rfl, h, fun _ hk => absurd hk (Nat.not_lt_zero _), fun _ _ => rfl⟩

theorem bankStore_sound (n off size data : Nat) {s : State} (he : s.ecc (bankBase n + off) = 0) : bankStore n off size data false s = storeAt (bankBase n + off) size data 0 s := by
  simp only [bankStore, bankEcc, he, ite_self, Bool.false_eq_true, false_or, OfNat.zero_ne_ofNat, if_false]
  rfl

/-- One access inside an ECC word. -/
theorem storeAt_stored {a size : Nat} (data : Nat) {s : State} (hm : MemOk s) (hw : ∀ k, k < size → (a + k) / 8 = a / 8) (h0 : size ≠ 0) (ha : a + size ≤ 2 ^ 53) :
    Stored a size data s (storeAt a size data 0 s) := by
  have hkey := eccKey_ge a
  refine ⟨rfl, storeAt_memOk hm, fun k hk => ⟨?_, ?_⟩, fun b hb => ?_⟩
  · rw [byte_storeAt _ hm, if_neg (by omega), if_pos (by omega), Nat.add_sub_cancel_left]
  · rw [State.ecc, eccKey_eq_iff.2 (hw k hk), byte_storeAt _ hm, if_pos rfl]
    rfl
  · have h1 : b ≠ eccKey a := fun e => hb (.inr ⟨0, by omega, e⟩)
    rw [byte_storeAt _ hm, if_neg h1, if_neg fun h => hb (.inl h)]

/-- A store of one more byte. -/
theorem Stored.snoc {a z data : Nat} {s t : State} (h : Stored a z data s t) (hz : a + z < 2 ^ 53) :
    Stored a (z + 1) data s (storeAt (a + z) 1 (data / 256 ^ z) 0 t) := by
  have hkey := eccKey_ge (a + z)
  have hb (b : Nat) := byte_storeAt (a := a + z) (size := 1) (data := data / 256 ^ z) (e := 0) b h.memOk
  refine ⟨?_, storeAt_memOk h.memOk, fun k hk => ⟨?_, ?_⟩, fun b hn => ?_⟩
  · have e : (storeAt (a + z) 1 (data / 256 ^ z) 0 t) = { t with mem := (storeAt (a + z) 1 (data / 256 ^ z) 0 t).mem } := rfl
    generalize storeAt (a + z) 1 (data / 256 ^ z) 0 t = u at e ⊢
    rw [e, h.parts]
  · rw [hb, if_neg (by omega)]
    by_cases he : k = z
    · subst he
      rw [if_pos (by omega), Nat.sub_self, Nat.pow_zero, Nat.div_one]
    · rw [if_neg (by omega)]
      exact (h.bytes k (by omega)).1
  · rw [State.ecc, hb]
    by_cases he : eccKey (a + k) = eccKey (a + z)
    · rw [if_pos he]; rfl
    · have hk' : k ≠ z := fun e => he (by rw [e])
      have hge := eccKey_ge (a + k)
      rw [if_neg he, if_neg (by omega)]
      exact (h.bytes k (by omega)).2
  · have h1 : b ≠ eccKey (a + z) := fun e => hn (.inr ⟨z, by omega, e⟩)
    have h2 : ¬ (a ≤ b ∧ b < a + (z + 1)) := fun e => hn (.inl e)
    rw [hb, if_neg h1, if_neg (by omega)]
    refine h.others b ?_
    rintro (he | ⟨k, hk, he⟩)
    · omega
    · exact hn (.inr ⟨k, by omega, he⟩)

theorem busWrite_bank {pa n off : Nat} (size data : Nat) {s : State} (h : s.region pa = .bank n off) (hc : s.seqClk n = true) (he : s.ecc (bankBase n + off) = 0) :
    busWrite pa size data 0 false false false s = (.done, storeAt (bankBase n + off) size data 0 s) := by
  unfold busWrite
  rw [h]
  simp only [hc, if_true, bankStore_sound n off size data he, Bool.false_eq_true, if_false]

theorem busWrite_bank_clash {pa n off : Nat} (size data : Nat) {s : State} (h : s.region pa = .bank n off) (hc : s.seqClk n = true) :
    busWrite pa size data 0 false false true s = (.collided, bankCollision n off s) := by
  unfold busWrite
  rw [h]
  simp only [hc, if_true]

theorem busWrite_bank_stopped {pa n off : Nat} (size data : Nat) (clash : Bool) {s : State} (h : s.region pa = .bank n off) (hc : s.seqClk n = false) :
    busWrite pa size data 0 false false clash s = (.error, s) := by
  unfold busWrite
  rw [h]
  simp only [hc, Bool.false_eq_true, if_false]

/-- A number cut to the size of an access stores the same bytes. -/
theorem bytesLE_mod (n v : Nat) : bytesLE n (v % 2 ^ (8 * n)) = bytesLE n v := by
  induction n generalizing v with
  | zero => rfl
  | succ n ih =>
    have h : v % 2 ^ (8 * (n + 1)) / 256 = v / 256 % 2 ^ (8 * n) := by
      rw [show 8 * (n + 1) = 8 + 8 * n by ring, Nat.pow_add, Nat.mod_mul_right_div_self]
    rw [bytesLE, bytesLE, h, ih]
    congr 1
    apply BitVec.eq_of_toNat_eq
    rw [BitVec.toNat_ofNat, BitVec.toNat_ofNat, show 8 * (n + 1) = 8 + 8 * n by ring, Nat.pow_add, Nat.mod_mul_right_mod]

theorem storeAt_mod (a size data e : Nat) (s : State) : storeAt a size (data % 2 ^ (8 * size)) e s = storeAt a size data e s := by
  rw [storeAt, bytesLE_mod, storeAt]

/-- A write of sound words of a bank, in whatever accesses it is made. -/
theorem busWrites_bank {n off size : Nat} (data : Nat) {s : State} (hm : MemOk s) (hn : n < 24) (ho : off + size ≤ 0x10_0000) (hc : s.seqClk n = true)
    (he : ∀ k, k < size → s.ecc (bankBase n + off + k) = 0) :
    ∃ t, busWrites (bankBase n) off size data false false false s = (.done, t) ∧ Stored (bankBase n + off) size data s t := by
  have hb : bankBase n + 0x10_0000 ≤ 2 ^ 53 := by simp only [bankBase]; omega
  have hb8 : bankBase n % 8 = 0 := by simp only [bankBase]; omega
  unfold busWrites
  rcases pieces_cases off size with ⟨h, h0, hw⟩ | h
  · refine ⟨_, ?_, storeAt_stored data hm (fun k hk => ?_) h0 (by omega)⟩
    · rw [h]
      simp only [List.foldl_cons, List.foldl_nil, busWrite_bank size _ (region_bank s hn (show off < 0x10_0000 by omega)) hc (he 0 (by omega)), storeAt_mod, Nat.pow_zero, Nat.div_one]
    · have := hw k hk
      omega
  · rw [h]
    clear h
    induction size with
    | zero => exact ⟨s, rfl, Stored.none _ _ hm⟩
    | succ z ih =>
      obtain ⟨t, ht, hs⟩ := ih (by omega) fun k hk => he k (by omega)
      have hct : t.seqClk n = true := by rw [hs.parts]; exact hc
      have hz : t.ecc (bankBase n + (off + z)) = 0 := by
        rw [State.ecc, ← Nat.add_assoc]
        by_cases hx : ∃ k, k < z ∧ eccKey (bankBase n + off + z) = eccKey (bankBase n + off + k)
        · obtain ⟨k, hk, hx⟩ := hx
          rw [hx]
          exact (hs.bytes k hk).2
        · have hge := eccKey_ge (bankBase n + off + z)
          rw [hs.others _ fun h => h.elim (fun h => by omega) hx]
          exact he z (by omega)
      refine ⟨storeAt (bankBase n + off + z) 1 (data / 256 ^ z) 0 t, ?_, hs.snoc (by omega)⟩
      rw [List.range_succ, List.map_append, List.foldl_append, ht]
      simp only [List.map_cons, List.map_nil, List.foldl_cons, List.foldl_nil, busWrite_bank 1 _ (region_bank t hn (show off + z < 0x10_0000 by omega)) hct hz, storeAt_mod]
      rw [Nat.pow_mul, Nat.add_assoc]

theorem busWrites_bank_clash {n off size : Nat} (data : Nat) {s : State} (hn : n < 24) (ho : off < 0x10_0000) (h0 : size ≠ 0) (hc : s.seqClk n = true) :
    busWrites (bankBase n) off size data false false true s = (.collided, bankCollision n off s) := by
  obtain ⟨z, b, rest, h⟩ := pieces_head off h0
  unfold busWrites
  rw [h]
  simp only [List.foldl_cons, busWrite_bank_clash z _ (region_bank s hn ho) hc]
  exact foldl_ended (fun _ => rfl) rest

theorem busWrites_bank_stopped {n off size : Nat} (data : Nat) (clash : Bool) {s : State} (hn : n < 24) (ho : off < 0x10_0000) (h0 : size ≠ 0) (hc : s.seqClk n = false) :
    busWrites (bankBase n) off size data false false clash s = (.error, s) := by
  obtain ⟨z, b, rest, h⟩ := pieces_head off h0
  unfold busWrites
  rw [h]
  simp only [List.foldl_cons, busWrite_bank_stopped z _ clash (region_bank s hn ho) hc]
  exact foldl_ended (fun _ => rfl) rest

/-- A drop counts, and the first records its address. -/
theorem bankCollision_fields (n : Fin 24) {off : Nat} (s : State) (ho : off < 0x10_0000) :
    let t := bankCollision n off s
    t.f (SEQ_BANK_COLL.COUNT n) = min (s.f (SEQ_BANK_COLL.COUNT n) + 1) 4095 ∧ (s.f (SEQ_BANK_COLL.COUNT n) = 0 → t.f (SEQ_BANK_COLL.FADDR n) = off / 8 * 8) ∧
      FieldsBut [SEQ_BANK_COLL.COUNT n, SEQ_BANK_COLL.FADDR n] s t ∧ t = { s with regs := t.regs } := by
  have hcnt : RFok (SEQ_BANK_COLL.COUNT n) = true := rfl
  have hadr : RFok (SEQ_BANK_COLL.FADDR n) = true := rfl
  have hap : Apart (SEQ_BANK_COLL.FADDR n) (SEQ_BANK_COLL.COUNT n) := .inr (.inl (Nat.le_of_ble_eq_true rfl))
  have hpa : Apart (SEQ_BANK_COLL.COUNT n) (SEQ_BANK_COLL.FADDR n) := .inr (.inr (Nat.le_of_ble_eq_true rfl))
  have hlt (m : Nat) : min (m + 1) 4095 < 2 ^ 12 := Nat.lt_of_le_of_lt (Nat.min_le_right _ _) (by decide)
  have hbump (u : State) : (u.bump (SEQ_BANK_COLL.COUNT n)).f (SEQ_BANK_COLL.COUNT n) = min (u.f (SEQ_BANK_COLL.COUNT n) + 1) 4095 := f_setF_fits u hcnt (hlt _)
  intro t
  by_cases h : s.f (SEQ_BANK_COLL.COUNT n) = 0
  · have e : t = (s.setF (SEQ_BANK_COLL.FADDR n) (off / 8 * 8)).bump (SEQ_BANK_COLL.COUNT n) := by simp only [t, bankCollision, h, if_true]
    rw [e]
    refine ⟨?_, fun _ => ?_, ((FieldsBut.refl _ s).setF _ hadr (by simp)).setF _ hcnt (by simp), rfl⟩
    · rw [hbump, f_setF_ne s _ hadr (Nat.le_of_ble_eq_true rfl) hap]
    · rw [State.bump, f_setF_ne _ _ hcnt (Nat.le_of_ble_eq_true rfl) hpa]
      exact f_setF_fits s hadr (Nat.lt_of_le_of_lt (Nat.div_mul_le_self _ _) ho)
  · have e : t = s.bump (SEQ_BANK_COLL.COUNT n) := by simp only [t, bankCollision, h, if_false]
    rw [e]
    exact ⟨hbump s, fun h' => absurd h' h, (FieldsBut.refl _ s).setF _ hcnt (by simp), rfl⟩

/-! ### The command -/

theorem exec_bankRead {n : Fin 24} {off : BitVec 20} {size : Fin 9} {clash : Bool} {s : State} {d : Nat} (h : busReads (bankBase n) off.toNat size s = (some (d, false), s)) :
    exec (.sequencerBankAccess n (.read off size) clash) s = .next (s.emit (.read (BitVec.ofNat 64 d))) := by
  show execSequencerBankAccess n (.read off size) clash s = _
  simp [execSequencerBankAccess, h]

theorem exec_bankRead_error {n : Fin 24} {off : BitVec 20} {size : Fin 9} {clash : Bool} {s : State} (h : busReads (bankBase n) off.toNat size s = (none, s)) :
    exec (.sequencerBankAccess n (.read off size) clash) s = .next (s.emit .busError) := by
  show execSequencerBankAccess n (.read off size) clash s = _
  simp [execSequencerBankAccess, h]

/-- What a write at the port answers, by how it ended. -/
theorem exec_bankWrite {n : Fin 24} {off : BitVec 20} {size : Fin 9} {data : Word} {clash : Bool} {s : State} {e : WrEnd} {t : State}
    (h : busWrites (bankBase n) off.toNat size data.toNat false false clash s = (e, t)) :
    exec (.sequencerBankAccess n (.write off size data) clash) s =
      .next (match e with | .error => t.emit .busError | .collided => t.emit .collided | _ => t) := by
  show execSequencerBankAccess n (.write off size data) clash s = _
  simp only [execSequencerBankAccess, h]
  cases e <;> rfl

/-- Settles O34: a request is one access, or one of each of its bytes, each of which the bank answers by its clock and its ECC word. -/
theorem bankAccessesAtTheExternalPort : Obligations.BankAccessesAtTheExternalPort := by
  unfold Obligations.BankAccessesAtTheExternalPort
  intro n off size data clash s hm a
  have hn := n.isLt
  have ho : off.toNat < 0x10_0000 := off.isLt
  refine ⟨fun hc hin he => ⟨?_, ?_⟩, fun h0 hc => ?_, fun h0 hc => ⟨?_, ?_⟩⟩
  · exact exec_bankRead (busReads_bank hn hin hc he)
  · obtain ⟨t, ht, hs⟩ := busWrites_bank data.toNat hm hn hin hc he
    exact ⟨t, exec_bankWrite ht, hs.parts, hs.bytes, hs.others⟩
  · obtain ⟨hcnt, hadr, hbut, hparts⟩ := bankCollision_fields n s ho
    have hregs : ((bankCollision n off.toNat s).emit .collided).regs = (bankCollision n off.toNat s).regs := rfl
    refine ⟨_, exec_bankWrite (busWrites_bank_clash data.toNat hn ho h0 hc), (State.f_congr hregs _).trans hcnt, fun h => (State.f_congr hregs _).trans (hadr h),
      hbut.trans (FieldsBut.of_regs hregs), ?_⟩
    dsimp only
    rw [State.emit]
    conv => lhs; rw [hparts]
  · exact exec_bankRead_error (busReads_bank_stopped hn ho h0 hc)
  · exact exec_bankWrite (busWrites_bank_stopped data.toNat clash hn ho h0 hc)

end Sys2Proof.Proofs
end

