-- ==== Sys2Proof/Proofs/MailboxRings.lean ====
section
/-!
PROOFS. Proofs/MailboxRings.lean: obligation O42. The statement does not ask the mailbox to be ready where it says that a waiting descriptor is taken when the job
that held it up completes: a started job completes while its mailbox is not ready, and a mailbox that is not ready takes nothing (R396).
-/
namespace Sys2Proof.Proofs
open Sys2Proof.Machine Sys2Proof.Safety

/-- A descriptor with a reserved command code. -/
def reservedDesc : Desc := ⟨0, 0, false, 0, 0, 0, 0, 0, 0, 0, 0⟩

/-- A job that firmware has begun. -/
def startedJob : Job := { fn := 0, d := reservedDesc, started := true, wake := false, note := 0, sets := [] }

/-- Firmware runs a started job of the physical function; one descriptor waits in the enabled ring of its mailbox, which is not ready. -/
def notReadyRing : State :=
  let s := (State.reset.setF (MBX_CTL.EN 0) 1).setF (MBX_SQT.PTR 0) 1
  { s with jobs := [startedJob], sys := { s.sys with stage := 3, warmSvc := false } }

theorem notReadyRing_bad : notReadyRing.jobOf 0 reservedDesc = some (0, startedJob) ∧ startedJob.sets = [] ∧ (reservedDesc.code = 0 ∨ 0x12 ≤ reservedDesc.code.toNat) ∧
    notReadyRing.jobFree 0 startedJob = true ∧ notReadyRing.firmOn = true := by
  refine ⟨rfl, rfl, .inl rfl, rfl, ?_⟩
  decide +kernel

theorem notReadyRing_memOk : MemOk notReadyRing := by
  unfold MemOk
  decide +kernel

theorem notReadyRing_drained : ∀ g : Fin 13, g ≠ 0 → notReadyRing.f (MBX_SQT.PTR g) = notReadyRing.f (MBX_SQH.PTR g) := by decide +kernel

theorem exec_badCode_notReadyRing {t : State} (h : exec (.badCode 0 reservedDesc) notReadyRing = .next t) : t.jobs = [] := by
  have e : exec (.badCode 0 reservedDesc) notReadyRing = .next (jobEnd 0 startedJob csBADCODE 0 0 0 notReadyRing) := by
    show execBadCode 0 reservedDesc notReadyRing = _
    obtain ⟨hj, -, hc, hf, hw⟩ := notReadyRing_bad
    unfold execBadCode
    have hfatal : notReadyRing.on ERR_STAT.FATAL = false := by decide +kernel
    rw [show ((0 : Fin 13) : Nat) = 0 from rfl, hj]
    simp only [hf, hw, hfatal, and_true, hc, if_true, Bool.false_eq_true, if_false]
  rw [← Host.Outcome.next.inj (e.symm.trans h)]
  decide +kernel

/-- Refutes O42: a started job of a mailbox that is not ready completes, and the descriptor behind it stays in the ring. -/
theorem not_mailboxRingsTakeCommandsAndReturnCompletions : ¬ Obligations.MailboxRingsTakeCommandsAndReturnCompletions := by
  unfold Obligations.MailboxRingsTakeCommandsAndReturnCompletions
  intro h
  have hbad := (h 0 0 false 0 reservedDesc 0 startedJob notReadyRing).2.2.2.1 notReadyRing_bad notReadyRing_memOk
  obtain ⟨t, ht, hjobs, -⟩ := hbad.2.1 rfl (by decide +kernel) rfl (by decide +kernel) (by decide +kernel) notReadyRing_drained
  rw [exec_badCode_notReadyRing ht] at hjobs
  exact List.cons_ne_nil _ _ hjobs.symm

end Sys2Proof.Proofs
end

