-- ==== Sys2Proof/Proofs/Scrub.lean ====
section
/-!
PROOFS. Proofs/Scrub.lean: obligation O54, the sweep of the configuration memory, readback and the policy lock (R13, R385 to R387).
-/
namespace Sys2Proof.Proofs
open Sys2Proof.Machine Sys2Proof.Safety

/-! ### Frames -/

theorem frame_setFrame (s : State) (i k j m : Nat) (f : CfgFrame) : (s.setFrame i k f).frame j m = if j * 128 + m = i * 128 + k then f else s.frame j m := by
  simp only [State.frame, State.setFrame, Map.find_set]
  by_cases h : j * 128 + m = i * 128 + k
  · rw [if_pos h, if_pos h]
  · rw [if_neg h, if_neg h]

theorem frame_setFrame_same (s : State) (i k : Nat) (f : CfgFrame) : (s.setFrame i k f).frame i k = f := by rw [frame_setFrame, if_pos rfl]

/-- Two frames of islands have two numbers. -/
theorem frame_setFrame_ne (s : State) {i k j m : Nat} (f : CfgFrame) (hk : k < 128) (hm : m < 128) (h : j ≠ i ∨ m ≠ k) : (s.setFrame i k f).frame j m = s.frame j m := by
  rw [frame_setFrame, if_neg (by omega)]

theorem frame_congr {s t : State} (h : t.frames = s.frames) (i k : Nat) : t.frame i k = s.frame i k := by simp only [State.frame, h]

theorem upsetFrame_parts (i k : Nat) (d : BitVec 1024) (c : BitVec 32) (s : State) : upsetFrame i k d c s = { s with frames := (upsetFrame i k d c s).frames } := by
  unfold upsetFrame
  split <;> rfl

theorem upsetFrame_data (i k : Nat) (d : BitVec 1024) (c : BitVec 32) (s : State) : ((upsetFrame i k d c s).frame i k).data = (s.frame i k).data ^^^ d := by
  unfold upsetFrame
  split
  next h => rw [h.1]; exact BitVec.xor_zero.symm
  next => rw [frame_setFrame_same]

theorem upsetFrame_ne {i k j m : Nat} (d : BitVec 1024) (c : BitVec 32) (s : State) (hk : k < 128) (hm : m < 128) (h : j ≠ i ∨ m ≠ k) :
    (upsetFrame i k d c s).frame j m = s.frame j m := by
  unfold upsetFrame
  split
  · rfl
  · exact frame_setFrame_ne s _ hk hm h

/-- The record that the words of a slot spell, when they could be read. -/
def slotTake (n ix : Nat) (r : Option (List Nat × Bool) × State) : Option CfgFrame × State :=
  match r with
  | (some (ws, false), s) =>
    let bs := s.slotCrypt n ix (ws.flatMap (bytesLE 8))
    let f : CfgFrame := { data := BitVec.ofNat 1024 (hnum bs 4 128), crc := BitVec.ofNat 32 (hnum bs 132 4), faddr := BitVec.ofNat 32 (hnum bs 0 4) }
    (if f.sound then some f else none, s)
  | (_, s) => (none, s)

theorem slotTake_snd (n ix : Nat) (r : Option (List Nat × Bool) × State) : (slotTake n ix r).2 = r.2 := by
  unfold slotTake
  split <;> rfl

/-- The definition is taken as a whole and the 17 reads as one result, so that nothing evaluates them. -/
theorem slotRead_eq (n i k : Nat) (s : State) : slotRead n i k s = slotTake n (s.slotIx n i k) (busWords 17 (s.slotBase n + 256 + s.slotIx n i k * 136) s) := by
  obtain ⟨sr, hsr⟩ : ∃ sr, sr = slotRead := ⟨_, rfl⟩
  rw [← hsr]
  delta slotRead at hsr
  subst hsr
  generalize busWords 17 = words
  beta_reduce
  extract_lets ix
  change _ = slotTake n ix (words (s.slotBase n + 256 + ix * 136) s)
  generalize words (s.slotBase n + 256 + ix * 136) s = r
  obtain ⟨_ | ⟨ws, _ | _⟩, t⟩ := r <;> rfl

/-- The slot of a partition is read without a change of the frames. -/
theorem slotRead_quiet {l : Bool} {s t : State} (h : Quiet l s t) (n i k : Nat) : Quiet l s (slotRead n i k t).2 := by
  rw [slotRead_eq, slotTake_snd]
  exact h.busWords ..

/-! ### The sweep -/

/-- The frame that the sweep comes to, with the bits that were upset since it was last read. -/
def sweptTo (x : Nat) (up : BitVec 1024) (crc : BitVec 32) (s : State) : State :=
  upsetFrame (x / 128) (x % 128) up crc { s with cfg := { s.cfg with scrubAt := (x + 1) % (156 * 128) } }

theorem sweptTo_parts (x : Nat) (up : BitVec 1024) (crc : BitVec 32) (s : State) :
    ∃ fs, sweptTo x up crc s = { s with frames := fs, cfg := { s.cfg with scrubAt := (x + 1) % (156 * 128) } } := ⟨_, upsetFrame_parts ..⟩

theorem sweptTo_data (x : Nat) (up : BitVec 1024) (crc : BitVec 32) (s : State) :
    (s.frame (x / 128) (x % 128)).data ^^^ up = ((sweptTo x up crc s).frame (x / 128) (x % 128)).data := by
  rw [sweptTo, upsetFrame_data]
  rfl

theorem exec_scrubFrame {x : Nat} (up : BitVec 1024) (crc : BitVec 32) {s : State} (hc : s.cfgClk = true) (hen : s.f CFG_SCRUB.EN = 1) (hb : s.f CFG_STAT.BUSY = 0)
    (hx : s.scrubNext s.cfg.scrubAt = some x) : exec (.scrubFrame up crc) s = .next
      (let u := sweptTo x up crc s
       if (u.frame (x / 128) (x % 128)).sound then u.onCfg (fun c => { c with scrubNoted := c.scrubNoted.filter (fun y => y != x) })
       else scrubMismatch (x / 128) (x % 128) u) := by
  show execScrubFrame up crc s = _
  have h1 : s.on CFG_SCRUB.EN = true := (on_iff_one rfl).2 hen
  have h2 : s.on CFG_STAT.BUSY = false := (on_eq_false_iff s _).2 hb
  unfold execScrubFrame
  rw [if_pos ⟨hc, h1, h2⟩, hx]
  rfl

/-- A frame that disagrees with its CRC, with no resident image kept. -/
theorem scrubMismatch_unkept {i k : Nat} {s : State} (h : s.slotOn = false) : scrubMismatch i k s =
    let t := s.bump CFG_SCRUBSTAT.NORES
    if s.cfg.scrubNoted.contains (i * 128 + k) then t
    else logErr 0x0704 (s.islPart i) (srcOf 0 i) (BitVec.ofNat 64 k) 0 (t.onCfg (fun c => { c with scrubNoted := (i * 128 + k) :: c.scrubNoted })) := by
  unfold scrubMismatch
  rw [h]
  rfl

/-- A frame that disagrees with its CRC, and the record that the slot holds of it. -/
theorem scrubMismatch_kept {i k : Nat} {s t : State} {f : CfgFrame} (hon : s.slotOn = true) (hv : bitOf (s.f CFG_RESVAL.VALID) (s.islPart i) = true)
    (h : slotRead (s.islPart i) i k s = (some f, t)) : scrubMismatch i k s =
    let n := s.islPart i
    let u := scrubRewrite i k f t
    if ((t.frame i k).data ^^^ f.data) &&& t.essential i k = 0 then logErr 0x0701 n (srcOf 0 i) (BitVec.ofNat 64 k) 0 u
    else if decide (96 ≤ k) || (t.planesUsed i).contains (k / 6) then
      logErr 0x0703 n (srcOf 0 i) (BitVec.ofNat 64 k) 0 ((scrubLast i k u).bump CFG_SCRUBSTAT.ESSIN)
    else logErr 0x0702 n (srcOf 0 i) (BitVec.ofNat 64 k) 0 (scrubLast i k u) := by
  unfold scrubMismatch
  dsimp only
  rw [hon, hv, Bool.and_self, if_pos rfl, h]
  rfl

/-! ### What a rewritten frame leaves -/

/-- The registers but those of the sweep keep their value, and nothing but registers and frames changes. -/
structure Swept (s t : State) : Prop where
  parts : t = { s with regs := t.regs, frames := t.frames }
  regs : ∀ k, k ≠ CFG_SCRUBSTAT → k ≠ CFG_SCRUBLAST → t.rd k = s.rd k

theorem scrubRewrite_swept (i k : Nat) (f : CfgFrame) (s : State) : Swept s (scrubRewrite i k f s) :=
  ⟨rfl, fun _ h _ => (State.rd_wr ..).trans (if_neg h)⟩

theorem scrubLast_parts (i k : Nat) (s : State) : scrubLast i k s = { s with regs := (scrubLast i k s).regs } := by
  unfold scrubLast
  split <;> rfl

theorem scrubLast_rd (i k : Nat) (s : State) {q : Nat} (h : q ≠ CFG_SCRUBLAST) : (scrubLast i k s).rd q = s.rd q := by
  unfold scrubLast
  split
  · rfl
  · simp only [State.setF, State.rd_wr, CFG_SCRUBLAST.VALID, CFG_SCRUBLAST.ISLAND, CFG_SCRUBLAST.FRAME, if_neg h]

theorem scrubLast_f (i k : Nat) (s : State) {x : RF} (h : x.key ≠ CFG_SCRUBLAST) : (scrubLast i k s).f x = s.f x := by simp only [State.f, scrubLast_rd i k s h]

theorem scrubLast_swept {s t : State} (h : Swept s t) (i k : Nat) : Swept s (scrubLast i k t) :=
  ⟨by rw [scrubLast_parts, h.parts], fun q h1 h2 => (scrubLast_rd i k t h2).trans (h.regs q h1 h2)⟩

theorem essIn_swept {s t : State} (h : Swept s t) : Swept s (t.bump CFG_SCRUBSTAT.ESSIN) :=
  ⟨by rw [h.parts]; rfl, fun q h1 h2 => ((State.rd_wr ..).trans (if_neg h1)).trans (h.regs q h1 h2)⟩

theorem fixed_scrubRewrite (i k : Nat) (f : CfgFrame) (s : State) : (scrubRewrite i k f s).f CFG_SCRUBSTAT.FIXED = min (s.f CFG_SCRUBSTAT.FIXED + 1) 65535 :=
  f_setF_fits (s.setFrame i k f) rfl (Nat.lt_of_le_of_lt (Nat.min_le_right _ _) (by decide))

/-- A rewritten frame, and the record of what was found: `code` from the state `u`, which the sweep left. -/
theorem logged_swept {i k n code : Nat} {f : CfgFrame} {s u : State} (hu : Swept s u) (hf : u.frames = (s.setFrame i k f).frames) (hn : n < 16) (hc : code < 2 ^ 16) :
    let t := logErr code n (srcOf 0 i) (BitVec.ofNat 64 k) 0 u
    Logged code n (srcOf 0 i) s t ∧ t.frames = (s.setFrame i k f).frames ∧ t.mem = s.mem := by
  have hl := logErr_logOnly code n (srcOf 0 i) (BitVec.ofNat 64 k) 0 u
  refine ⟨logged_congr (logErr_logged _ _ u hn hc (srcOf_lt _ (by decide))) ?_ ⟨rfl, rfl⟩, ?_, ?_⟩
  · rintro q (rfl | rfl) <;> exact (hu.regs _ (by decide) (by decide)).symm
  · rw [hl.parts]; exact hf
  · rw [hl.mem, hu.parts]

/-! ### Readback -/

/-- The registers of `n` words of data. -/
def readbackWords (d : BitVec 1024) (n : Nat) (s : State) : State :=
  (List.range n).foldl (fun s k => s.wr (CFG_RBDATA k) (BitVec.ofNat 64 (d.toNat / 2 ^ (32 * k) % 2 ^ 32))) s

/-- Zero has no bits. -/
theorem bitsOf_zero (w hi lo : Nat) : bitsOf (0 : BitVec w).toNat hi lo = 0 := by simp [bitsOf]

theorem readbackWords_succ (d : BitVec 1024) (n : Nat) (s : State) :
    readbackWords d (n + 1) s = (readbackWords d n s).wr (CFG_RBDATA n) (BitVec.ofNat 64 (d.toNat / 2 ^ (32 * n) % 2 ^ 32)) := by
  simp [readbackWords, List.range_succ]

theorem readbackWords_parts (d : BitVec 1024) (n : Nat) (s : State) : readbackWords d n s = { s with regs := (readbackWords d n s).regs } := by
  induction n with
  | zero => rfl
  | succ n ih =>
    rw [readbackWords_succ]
    generalize readbackWords d n s = t at ih ⊢
    rw [ih]
    rfl

theorem readbackWords_rd {d : BitVec 1024} {n j : Nat} (s : State) (h : j < n) :
    (readbackWords d n s).rd (CFG_RBDATA j) = BitVec.ofNat 64 (d.toNat / 2 ^ (32 * j) % 2 ^ 32) := by
  induction n with
  | zero => omega
  | succ n ih =>
    rw [readbackWords_succ, State.rd_wr]
    by_cases hj : j = n
    · rw [hj, if_pos rfl]
    · rw [if_neg (by simp only [CFG_RBDATA]; omega), ih (by omega)]

/-- The registers of the data words, whole. -/
def readbackFields : List RF := [CFG_RBADDR.READY, CFG_RBADDR.ISLAND, CFG_RBADDR.FRAME, whole CFG_RBCRC] ++ (List.range 32).map (fun j => whole (CFG_RBDATA j))

theorem readbackWords_but (d : BitVec 1024) {n : Nat} (s : State) (h : n ≤ 32) : FieldsBut readbackFields s (readbackWords d n s) := by
  induction n with
  | zero => exact FieldsBut.refl _ s
  | succ n ih =>
    rw [readbackWords_succ]
    exact (ih (by omega)).wr _ (List.mem_append_right _ (List.mem_map.2 ⟨n, List.mem_range.2 (by omega), rfl⟩))

/-- The state with the address of a readback, and what it shows. -/
def readbackShow (i k : Nat) (d : BitVec 1024) (crc : Nat) (s : State) : State :=
  readbackPut d crc (((s.setF CFG_RBADDR.READY 0).setF CFG_RBADDR.ISLAND i).setF CFG_RBADDR.FRAME k)

theorem readbackShow_eq (i k : Nat) (d : BitVec 1024) (crc : Nat) (s : State) : readbackShow i k d crc s =
    ((readbackWords d 32 (((s.setF CFG_RBADDR.READY 0).setF CFG_RBADDR.ISLAND i).setF CFG_RBADDR.FRAME k)).wr CFG_RBCRC (BitVec.ofNat 64 crc)).setF CFG_RBADDR.READY 1 := rfl

theorem readbackWords_f_ne {d : BitVec 1024} {n : Nat} (s : State) {x : RF} (h : x.key < 0x3_0100 ∨ 0x3_0100 + n * 4 ≤ x.key) : (readbackWords d n s).f x = s.f x := by
  induction n with
  | zero => rfl
  | succ n ih =>
    rw [readbackWords_succ, f_wr_ne _ _ (by simp only [CFG_RBDATA]; omega), ih (by omega)]

/-- The registers of a readback: its address and `READY`, the data and the CRC. -/
theorem readbackShow_fields {i k : Nat} (d : BitVec 1024) {crc : Nat} (s : State) (hi : i < 256) (hk : k < 128) (hc : crc < 2 ^ 32) :
    let t := readbackShow i k d crc s
    t.f CFG_RBADDR.READY = 1 ∧ t.f CFG_RBADDR.ISLAND = i ∧ t.f CFG_RBADDR.FRAME = k ∧ OnlyFields readbackFields s t ∧ t.f CFG_RBCRC.DATA = crc ∧
      ∀ j, j < 32 → t.f (CFG_RBDATA.DATA j) = bitsOf d.toNat (32 * j + 31) (32 * j) := by
  intro t
  let a := ((s.setF CFG_RBADDR.READY 0).setF CFG_RBADDR.ISLAND i).setF CFG_RBADDR.FRAME k
  have ha : FieldsBut readbackFields s a :=
    (((FieldsBut.refl _ s).setF _ rfl (by simp [readbackFields])).setF _ rfl (by simp [readbackFields])).setF _ rfl (by simp [readbackFields])
  have hisl : a.f CFG_RBADDR.ISLAND = i := (f_setF_ne _ _ rfl (by decide) (.inr (by decide))).trans (f_setF_fits _ rfl hi)
  have hfrm : a.f CFG_RBADDR.FRAME = k := f_setF_fits _ rfl hk
  have hap : a = { s with regs := a.regs } := rfl
  have ht : t = ((readbackWords d 32 a).wr CFG_RBCRC (BitVec.ofNat 64 crc)).setF CFG_RBADDR.READY 1 := readbackShow_eq i k d crc s
  clear_value t a
  have hwords := readbackWords_but d a (Nat.le_refl 32)
  have hparts := readbackWords_parts d 32 a
  have hw (x : RF) (hx : x.key = CFG_RBADDR) : (readbackWords d 32 a).f x = a.f x := readbackWords_f_ne a (.inl (by rw [hx]; decide))
  have hd (j : Nat) (hj : j < 32) := readbackWords_rd (d := d) a hj
  generalize readbackWords d 32 a = w at ht hwords hparts hw hd
  subst t
  refine ⟨f_setF_fits _ rfl (by decide), ?_, ?_, ⟨?_, ?_⟩, ?_, fun j hj => ?_⟩
  · rw [f_setF_ne _ _ rfl (by decide) (.inr (by decide)), f_wr_ne _ _ (by decide), hw _ rfl, hisl]
  · rw [f_setF_ne _ _ rfl (by decide) (.inr (by decide)), f_wr_ne _ _ (by decide), hw _ rfl, hfrm]
  · rw [hparts, hap]
    rfl
  · exact ((ha.trans hwords).wr _ (by simp [readbackFields])).setF _ rfl (by simp [readbackFields])
  · rw [f_setF_ne _ _ rfl (by decide) (.inl (by decide)), State.f, CFG_RBCRC.DATA, State.rd_wr, if_pos rfl, getBits_ofNat (show 31 < 64 by decide), bitsOf, Nat.pow_zero, Nat.div_one]
    exact Nat.mod_eq_of_lt hc
  · have h1 : CFG_RBDATA j ≠ CFG_RBADDR := by simp only [CFG_RBDATA, CFG_RBADDR]; omega
    have h2 : CFG_RBDATA j ≠ CFG_RBCRC := by simp only [CFG_RBDATA, CFG_RBCRC]; omega
    rw [f_setF_ne _ _ rfl (show 31 < 64 by decide) (.inl h1), f_wr_ne _ _ h2, State.f, CFG_RBDATA.DATA, hd j hj, getBits_ofNat (show 31 < 64 by decide)]
    simp only [bitsOf, show 32 * j + 31 + 1 - 32 * j = 32 by omega]
    omega

theorem exec_readback (isl : BitVec 8) (k : BitVec 7) {s : State} (hf : s.fnOpen 0 = true) (hc : s.cfgClk = true) : exec (.readback isl k) s = .next
    (let shown := decide (isl.toNat < 156) && s.inService isl.toNat
     readbackShow isl.toNat k.toNat (if shown then (s.frame isl.toNat k.toNat).data else 0) (if shown then (s.frame isl.toNat k.toNat).crc.toNat else 0) s) := by
  show execReadback isl k s = _
  rw [execReadback, pfWrite, hf, if_pos rfl, cfgWrite, hc, if_pos rfl, readback]
  have hs : (((s.setF CFG_RBADDR.READY 0).setF CFG_RBADDR.ISLAND isl.toNat).setF CFG_RBADDR.FRAME k.toNat).inService isl.toNat = s.inService isl.toNat := by
    have h : CFG_RBADDR ≠ GLB_ROW_MAP (rowOf isl.toNat) := by simp only [CFG_RBADDR, GLB_ROW_MAP, rowOf]; have := isl.isLt; omega
    simp only [State.inService, State.spare, State.f, State.setF, State.rd_wr, GLB_ROW_MAP.SPARE_PTR, CFG_RBADDR.READY, CFG_RBADDR.ISLAND, CFG_RBADDR.FRAME, if_neg h.symm]
  dsimp only
  rw [hs]
  split <;> rfl

/-! ### The policy lock -/

theorem exec_cfgPolicyLock (v : BitVec 3) {s : State} (hf : s.fnOpen 0 = true) (hc : s.cfgClk = true) :
    exec (.cfgPolicyLock v) s = .next (fieldWrite CFG_POLICY (BitVec.ofNat 64 (2 ^ 31 + v.toNat)) s) := by
  show execCfgPolicyLock v s = _
  rw [execCfgPolicyLock, pfWrite, hf, if_pos rfl, cfgWrite, hc, if_pos rfl]

/-- The three fields and the lock that a locking write carries. -/
theorem policyWord_bits (v : BitVec 3) : let w : Word := BitVec.ofNat 64 (2 ^ 31 + v.toNat)
    getBits w 31 31 = 1 ∧ getBits w 2 0 = v.toNat ∧ getBits w 2 2 = v.toNat / 4 ∧ getBits w 1 1 = v.toNat / 2 % 2 ∧ getBits w 0 0 = v.toNat % 2 := by
  have := v.isLt
  simp only [getBits_ofNat (show 31 < 64 by decide), getBits_ofNat (show 2 < 64 by decide), getBits_ofNat (show 1 < 64 by decide), getBits_ofNat (show 0 < 64 by decide), bitsOf]
  omega

/-! ### The clauses -/

/-- A sound frame stays, and the place of the sweep moves on. -/
theorem exec_scrubFrame_sound {x : Nat} {up : BitVec 1024} {crc : BitVec 32} {s : State} (hc : s.cfgClk = true) (hen : s.f CFG_SCRUB.EN = 1) (hb : s.f CFG_STAT.BUSY = 0)
    (hx : s.scrubNext s.cfg.scrubAt = some x) (hs : ((sweptTo x up crc s).frame (x / 128) (x % 128)).sound = true) :
    ∃ t, exec (.scrubFrame up crc) s = .next t ∧ t.cfg.scrubAt = (x + 1) % (156 * 128) ∧ t.frames = (sweptTo x up crc s).frames ∧
      t = { s with cfg := t.cfg, frames := t.frames } := by
  refine ⟨_, exec_scrubFrame up crc hc hen hb hx, ?_⟩
  obtain ⟨fs, hp⟩ := sweptTo_parts x up crc s
  dsimp only
  rw [if_pos hs, hp]
  exact ⟨rfl, rfl, rfl⟩

/-- A frame that disagrees with its CRC, with no resident image kept: counted, noted and logged once. -/
theorem exec_scrubFrame_unkept {x : Nat} {up : BitVec 1024} {crc : BitVec 32} {s : State} (hc : s.cfgClk = true) (hen : s.f CFG_SCRUB.EN = 1) (hb : s.f CFG_STAT.BUSY = 0)
    (hx : s.scrubNext s.cfg.scrubAt = some x) (hs : ((sweptTo x up crc s).frame (x / 128) (x % 128)).sound = false) (hon : s.slotOn = false) :
    ∃ t, exec (.scrubFrame up crc) s = .next t ∧ t.frames = (sweptTo x up crc s).frames ∧ t.f CFG_SCRUBSTAT.NORES = min (s.f CFG_SCRUBSTAT.NORES + 1) 255 ∧
      t.f CFG_SCRUBSTAT.FIXED = s.f CFG_SCRUBSTAT.FIXED ∧
      (x ∉ s.cfg.scrubNoted → x ∈ t.cfg.scrubNoted ∧ (s.islPart (x / 128) < 16 → Logged 0x0704 (s.islPart (x / 128)) (srcOf 0 (x / 128)) s t)) ∧
      (x ∈ s.cfg.scrubNoted → t.log = s.log) := by
  obtain ⟨fs, hp⟩ := sweptTo_parts x up crc s
  have hno : (sweptTo x up crc s).slotOn = false := by rw [hp]; exact hon
  have hix : x / 128 * 128 + x % 128 = x := by omega
  refine ⟨_, exec_scrubFrame up crc hc hen hb hx, ?_⟩
  dsimp only
  rw [if_neg (by rw [hs]; decide), scrubMismatch_unkept hno, hix]
  generalize sweptTo x up crc s = u at hp ⊢
  have hnores : (u.bump CFG_SCRUBSTAT.NORES).f CFG_SCRUBSTAT.NORES = min (s.f CFG_SCRUBSTAT.NORES + 1) 255 := by
    rw [hp]
    exact f_setF_fits _ rfl (Nat.lt_of_le_of_lt (Nat.min_le_right _ _) (by decide))
  have hfixed : (u.bump CFG_SCRUBSTAT.NORES).f CFG_SCRUBSTAT.FIXED = s.f CFG_SCRUBSTAT.FIXED := by
    rw [hp, State.bump, f_setF_ne _ _ rfl (by decide) (.inr (by decide))]
    rfl
  have hnoted : u.cfg.scrubNoted = s.cfg.scrubNoted := by rw [hp]
  have hpart : u.islPart (x / 128) = s.islPart (x / 128) := by rw [hp]; rfl
  have hlog : u.log = s.log := by rw [hp]
  have hrd (q : Nat) (h : q ≠ CFG_SCRUBSTAT) : (u.bump CFG_SCRUBSTAT.NORES).rd q = s.rd q := by
    rw [hp]
    exact (State.rd_wr ..).trans (if_neg h)
  dsimp only
  rw [hpart, hnoted]
  by_cases hm : x ∈ s.cfg.scrubNoted
  · rw [if_pos (List.contains_iff_mem.2 hm)]
    exact ⟨rfl, hnores, hfixed, fun h => absurd hm h, fun _ => hlog⟩
  · rw [if_neg (fun h => hm (List.contains_iff_mem.1 h))]
    let v := (u.bump CFG_SCRUBSTAT.NORES).onCfg (fun c => { c with scrubNoted := x :: c.scrubNoted })
    have hv : v.regs = (u.bump CFG_SCRUBSTAT.NORES).regs := rfl
    have hl := logErr_logOnly 0x0704 (s.islPart (x / 128)) (srcOf 0 (x / 128)) (BitVec.ofNat 64 (x % 128)) 0 v
    refine ⟨?_, (hl.f (.inl (by decide))).trans ((State.f_congr hv _).trans hnores), (hl.f (.inl (by decide))).trans ((State.f_congr hv _).trans hfixed), fun _ => ⟨?_, fun hn => ?_⟩,
      fun h => absurd h hm⟩
    · exact hl.frames
    · rw [hl.cfg]
      exact List.mem_cons_self
    · refine logged_congr (logErr_logged _ _ v hn (by decide) (srcOf_lt _ (by decide))) ?_ ⟨rfl, rfl⟩
      rintro q (rfl | rfl) <;> exact (hrd _ (by decide)).symm

/-- What a rewritten frame leaves of the frames, and the count of the rewritten ones. -/
theorem rewritten_fields {i k n code : Nat} {f : CfgFrame} {s v : State} (hv : Swept s v) (hf : v.frames = (s.setFrame i k f).frames)
    (hfix : v.f CFG_SCRUBSTAT.FIXED = min (s.f CFG_SCRUBSTAT.FIXED + 1) 65535) :
    let t := logErr code n (srcOf 0 i) (BitVec.ofNat 64 k) 0 v
    t.frame i k = f ∧ (∀ j m, k < 128 → m < 128 → (j ≠ i ∨ m ≠ k) → t.frame j m = s.frame j m) ∧
      t.f CFG_SCRUBSTAT.FIXED = min (s.f CFG_SCRUBSTAT.FIXED + 1) 65535 ∧ t.mem = s.mem := by
  intro t
  have hl : LogOnly v t := logErr_logOnly ..
  have hfr := hl.frames.trans hf
  refine ⟨(frame_congr hfr i k).trans (frame_setFrame_same ..), fun j m hk hm h => (frame_congr hfr j m).trans (frame_setFrame_ne s f hk hm h), (hl.f (.inl (by decide))).trans hfix, ?_⟩
  rw [hl.mem, hv.parts]

/-- A frame that disagrees with its CRC is rewritten from the record of its slot, and logged by what differed. -/
theorem exec_scrubFrame_kept {x : Nat} {up : BitVec 1024} {crc : BitVec 32} {s s2 : State} {f : CfgFrame} (hc : s.cfgClk = true) (hen : s.f CFG_SCRUB.EN = 1)
    (hb : s.f CFG_STAT.BUSY = 0) (hx : s.scrubNext s.cfg.scrubAt = some x) (hs : ((sweptTo x up crc s).frame (x / 128) (x % 128)).sound = false) (hon : s.slotOn = true)
    (hv : bitOf (s.f CFG_RESVAL.VALID) (s.islPart (x / 128)) = true)
    (hr : slotRead (s.islPart (x / 128)) (x / 128) (x % 128) (sweptTo x up crc s) = (some f, s2)) :
    let i := x / 128
    let k := x % 128
    let n := s.islPart i
    let diff := ((sweptTo x up crc s).frame i k).data ^^^ f.data
    let used := 96 ≤ k ∨ k / 6 ∈ s2.planesUsed i
    ∃ t, exec (.scrubFrame up crc) s = .next t ∧ t.frame i k = f ∧ (∀ j m, m < 128 → (j ≠ i ∨ m ≠ k) → t.frame j m = s.frame j m) ∧
      t.f CFG_SCRUBSTAT.FIXED = min (s2.f CFG_SCRUBSTAT.FIXED + 1) 65535 ∧ t.mem = s2.mem ∧
      (n < 16 → (diff &&& s2.essential i k = 0 → Logged 0x0701 n (srcOf 0 i) s2 t) ∧
        (diff &&& s2.essential i k ≠ 0 → ¬ used → Logged 0x0702 n (srcOf 0 i) s2 t) ∧
        (diff &&& s2.essential i k ≠ 0 → used → Logged 0x0703 n (srcOf 0 i) s2 t ∧
          t.f CFG_SCRUBSTAT.ESSIN = min (s2.f CFG_SCRUBSTAT.ESSIN + 1) 255)) := by
  intro i k n diff used
  have hk : k < 128 := Nat.mod_lt _ (by decide)
  have hfr : s2.frames = (sweptTo x up crc s).frames := by
    have h := (slotRead_quiet (Quiet.refl true (sweptTo x up crc s)) n i k).frames
    rwa [hr] at h
  have hold (j m : Nat) (hm : m < 128) (h : j ≠ i ∨ m ≠ k) : s2.frame j m = s.frame j m := (frame_congr hfr j m).trans (upsetFrame_ne up crc _ hk hm h)
  have hdiff : (s2.frame i k).data ^^^ f.data = diff := by rw [frame_congr hfr]
  have hpart : (sweptTo x up crc s).islPart i = n := by
    obtain ⟨fs, hp⟩ := sweptTo_parts x up crc s
    rw [hp]; rfl
  have hon' : (sweptTo x up crc s).slotOn = true ∧ (sweptTo x up crc s).f CFG_RESVAL.VALID = s.f CFG_RESVAL.VALID := by
    obtain ⟨fs, hp⟩ := sweptTo_parts x up crc s
    rw [hp]; exact ⟨hon, rfl⟩
  have hmis : scrubMismatch i k (sweptTo x up crc s) = _ := scrubMismatch_kept hon'.1 (by rw [hpart, hon'.2]; exact hv) (by rw [hpart]; exact hr)
  have hused : (decide (96 ≤ k) || (s2.planesUsed i).contains (k / 6)) = true ↔ used := by simp [used]
  have hexec : exec (.scrubFrame up crc) s = .next (scrubMismatch i k (sweptTo x up crc s)) := by
    rw [exec_scrubFrame up crc hc hen hb hx]
    dsimp only
    rw [if_neg (by rw [hs]; decide)]
  rw [hpart] at hmis
  dsimp only at hmis
  rw [hdiff] at hmis
  have hu := scrubRewrite_swept i k f s2
  have hufix := fixed_scrubRewrite i k f s2
  by_cases hd : diff &&& s2.essential i k = 0
  · rw [if_pos hd] at hmis
    obtain ⟨h1, h2, h3, h4⟩ := rewritten_fields (code := 0x0701) (n := n) hu rfl hufix
    refine ⟨_, hexec.trans (congrArg _ hmis), h1, fun j m hm h => (h2 j m hk hm h).trans (hold j m hm h), h3, h4, fun hn => ⟨fun _ => ?_, fun h => absurd hd h, fun h => absurd hd h⟩⟩
    exact (logged_swept hu rfl hn (by decide)).1
  · have hl := scrubLast_swept hu i k
    have hlf : (scrubLast i k (scrubRewrite i k f s2)).frames = (s2.setFrame i k f).frames := by rw [scrubLast_parts]; rfl
    have hlfix := (scrubLast_f i k (scrubRewrite i k f s2) (x := CFG_SCRUBSTAT.FIXED) (by decide)).trans hufix
    rw [if_neg hd] at hmis
    by_cases hus : used
    · rw [if_pos (hused.2 hus)] at hmis
      have hess : (scrubLast i k (scrubRewrite i k f s2)).f CFG_SCRUBSTAT.ESSIN = s2.f CFG_SCRUBSTAT.ESSIN :=
        (scrubLast_f i k _ (by decide)).trans (f_setF_ne (s2.setFrame i k f) _ rfl (by decide) (.inr (by decide)))
      generalize scrubLast i k (scrubRewrite i k f s2) = w at hmis hl hlf hlfix hess
      have hwfix : (w.bump CFG_SCRUBSTAT.ESSIN).f CFG_SCRUBSTAT.FIXED = min (s2.f CFG_SCRUBSTAT.FIXED + 1) 65535 :=
        (f_setF_ne w _ rfl (by decide) (.inr (by decide))).trans hlfix
      obtain ⟨h1, h2, h3, h4⟩ := rewritten_fields (code := 0x0703) (n := n) (essIn_swept hl) hlf hwfix
      refine ⟨_, hexec.trans (congrArg _ hmis), h1, fun j m hm h => (h2 j m hk hm h).trans (hold j m hm h), h3, h4,
        fun hn => ⟨fun h => absurd h hd, fun _ h => absurd hus h, fun _ _ => ⟨(logged_swept (essIn_swept hl) hlf hn (by decide)).1, ?_⟩⟩⟩
      rw [(logErr_logOnly ..).f (.inl (by decide)), ← hess]
      exact f_setF_fits w rfl (Nat.lt_of_le_of_lt (Nat.min_le_right _ _) (by decide))
    · rw [if_neg (fun h => hus (hused.1 h))] at hmis
      obtain ⟨h1, h2, h3, h4⟩ := rewritten_fields (code := 0x0702) (n := n) hl hlf hlfix
      refine ⟨_, hexec.trans (congrArg _ hmis), h1, fun j m hm h => (h2 j m hk hm h).trans (hold j m hm h), h3, h4,
        fun hn => ⟨fun h => absurd h hd, fun _ _ => ?_, fun _ h => absurd h hus⟩⟩
      exact (logged_swept hl hlf hn (by decide)).1

/-- The write that locks the policy register takes its three fields. -/
theorem policyLock_unlocked (v : BitVec 3) {s : State} (h : s.f CFG_POLICY.LOCK = 0) :
    let t := fieldWrite CFG_POLICY (BitVec.ofNat 64 (2 ^ 31 + v.toNat)) s
    t.f CFG_POLICY.LOCK = 1 ∧ t.f policyFields = v.toNat ∧ OnlyFields [CFG_POLICY.LOCK, policyFields] s t := by
  intro t
  obtain ⟨hlock, -, hlive, henc, hsig⟩ := policyWord_bits v
  have ht : t = _ := fieldWrite_policy_lock h hlock
  rw [hlive, henc, hsig] at ht
  have hv := v.isLt
  have hp : CFG_POLICY.LOCK ∈ [CFG_POLICY.LOCK, policyFields] := by simp
  have hm : policyFields ∈ [CFG_POLICY.LOCK, policyFields] := by simp
  clear_value t
  subst ht
  refine ⟨?_, ?_, rfl, ?_⟩
  · rw [f_setF_ne _ _ rfl (by decide) (.inr (by decide)), f_setF_ne _ _ rfl (by decide) (.inr (by decide)), f_setF_ne _ _ rfl (by decide) (.inr (by decide)),
      f_setF_fits _ rfl (by decide)]
  · rw [f_policyFields, f_setF_fits _ rfl (show v.toNat % 2 < 2 by omega), f_setF_ne _ _ rfl (by decide) (.inr (by decide)),
      f_setF_fits _ rfl (show v.toNat / 2 % 2 < 2 by omega), f_setF_ne _ _ rfl (by decide) (.inr (by decide)), f_setF_ne _ _ rfl (by decide) (.inr (by decide)),
      f_setF_fits _ rfl (show v.toNat / 4 < 2 by omega)]
    omega
  · have h0 := (FieldsBut.wr_rd [CFG_POLICY.LOCK, policyFields] s CFG_POLICY).setF (x := CFG_POLICY.LOCK) 1 rfl hp
    have h1 := h0.setF_within (x := CFG_POLICY.LIVEEN) (x' := policyFields) (v.toNat / 4) rfl hm rfl (by decide) (by decide)
    have h2 := h1.setF_within (x := CFG_POLICY.REQENC) (x' := policyFields) (v.toNat / 2 % 2) rfl hm rfl (by decide) (by decide)
    exact h2.setF_within (x := CFG_POLICY.REQSIG) (x' := policyFields) (v.toNat % 2) rfl hm rfl (by decide) (by decide)

/-- Settles O54: the sweep by what it finds in the frame, readback and the lock by the registers they write. -/
theorem scrubReadbackAndPolicyLock : Obligations.ScrubReadbackAndPolicyLock := by
  unfold Obligations.ScrubReadbackAndPolicyLock
  intro s hc
  refine ⟨fun up crc x hen hb hx _ => ?_, fun hf => ⟨fun isl k => ?_, fun v => ?_⟩, fun hf isl k => ?_, fun hf v => ⟨fun h => ?_, fun h => ?_⟩⟩
  · exact ⟨sweptTo_data x up crc s, exec_scrubFrame_sound hc hen hb hx,
      fun hs => ⟨exec_scrubFrame_unkept hc hen hb hx hs, fun f s2 hon hv hr => exec_scrubFrame_kept hc hen hb hx hs hon hv hr⟩⟩
  · show execReadback isl k s = _
    rw [execReadback, pfWrite, hf]
    rfl
  · show execCfgPolicyLock v s = _
    rw [execCfgPolicyLock, pfWrite, hf]
    rfl
  · refine ⟨_, exec_readback isl k hf hc, ?_⟩
    by_cases hshown : isl.toNat < 156 ∧ s.inService isl.toNat = true
    · have hb : (decide (isl.toNat < 156) && s.inService isl.toNat) = true := by simp [hshown]
      obtain ⟨h1, h2, h3, h4, h5, h6⟩ := readbackShow_fields (s.frame isl.toNat k.toNat).data s isl.isLt k.isLt (s.frame isl.toNat k.toNat).crc.isLt
      simp only [hb, if_true]
      exact ⟨h1, h2, h3, h4, fun _ => ⟨h5, h6⟩, fun h => absurd hshown h⟩
    · have hb : (decide (isl.toNat < 156) && s.inService isl.toNat) = false := by simpa using hshown
      obtain ⟨h1, h2, h3, h4, h5, h6⟩ := readbackShow_fields 0 s isl.isLt k.isLt (show 0 < 2 ^ 32 by decide)
      simp only [hb, Bool.false_eq_true, if_false]
      exact ⟨h1, h2, h3, h4, fun h => absurd h hshown, fun _ => ⟨h5, fun j hj => (h6 j hj).trans (bitsOf_zero ..)⟩⟩
  · obtain ⟨h1, h2, h3⟩ := policyLock_unlocked v h
    exact ⟨_, exec_cfgPolicyLock v hf hc, h1, h2, h3⟩
  · refine ⟨_, exec_cfgPolicyLock v hf hc, rd_policy_locked _ h, fun hsame => ?_, fun hne => ?_⟩
    · rw [fieldWrite_policy_locked _ h, (policyWord_bits v).2.1]
      dsimp only
      rw [if_pos (show v.toNat = s.f policyFields from hsame)]
      rfl
    · rw [fieldWrite_policy_locked _ h, (policyWord_bits v).2.1]
      dsimp only
      rw [if_neg (show ¬ v.toNat = s.f policyFields from hne)]
      refine logged_congr (logErr_logged _ _ _ (by decide) (by decide) (srcOf_lt _ (by decide))) ?_ ⟨rfl, rfl⟩
      rintro q (rfl | rfl) <;> exact ((State.rd_wr ..).trans (if_neg (by decide))).symm

end Sys2Proof.Proofs
end

