-- ==== Sys2Proof/Proofs/Buffers.lean ====
section
/-!
PROOFS. Proofs/Buffers.lean: obligation O43, the information commands and the buffers that they fill (R401).
-/
namespace Sys2Proof.Proofs
open Sys2Proof.Machine Sys2Proof.Safety

/-! ### Commands that have changed memory before they end -/

theorem cplReady_of_mem {f : Nat} {s t : State} (h : CplReady f s) (ht : t = { s with mem := t.mem }) : CplReady f t := by
  rw [ht]
  exact ⟨h.served, h.enabled, h.room, h.first, h.vector, h.drained⟩

/-- The completion of a job that changed nothing but memory before it ended, as seen from its start. -/
theorem completed_of_mem {f k : Nat} {c : Cpl} {s t u : State} (ht : t = { s with mem := t.mem }) (h : Completed f k c t u) :
    CplWritten f c s u ∧ CplOnly f k s u ∧ BytesBut (inEntry f s) t u := by
  generalize t.mem = m at ht
  subst ht
  obtain ⟨hw, ⟨hjobs, hfields, honly, hmbx⟩, hb⟩ := h
  exact ⟨hw, ⟨hjobs, hfields, honly, hmbx⟩, hb⟩

/-- The entry of a completion lies above every byte of host memory and of the flash. -/
theorem inEntry_ge {f x : Nat} {s : State} (h : inEntry f s x) : 2 ^ 56 ≤ x := by
  obtain ⟨h, -⟩ := h
  unfold cplEntry ringKey at h
  omega

end Sys2Proof.Proofs

namespace Sys2Proof.Safety
open Sys2Proof.Machine Sys2Proof.Proofs

section
variable {code k : Nat} {f : Fin 13} {d : Desc} {j : Job} {s : State}

/-- A command that ends where it began leaves exactly its completion. -/
theorem Executes.ends (h : Executes code f d k j s) (hr : CplReady f s) (hm : MemOk s) {status detail : Nat} (r0 r1 : Word) (hs : status < 256) (hd : detail < 65536) :
    Completed f k (cplOf status detail false d r0 r1) s (jobEnd k j status detail r0 r1 s) := h.completed hr hm rfl r0 r1 hs hd

/-- A command that ends after it changed memory below the rings. -/
theorem Executes.ends_of_mem {t : State} (h : Executes code f d k j s) (hr : CplReady f s) (hm : MemOk t) (ht : t = { s with mem := t.mem }) {status detail : Nat}
    (r0 r1 : Word) (hs : status < 256) (hd : detail < 65536) : CplWritten f (cplOf status detail false d r0 r1) s (jobEnd k j status detail r0 r1 t) ∧
      CplOnly f k s (jobEnd k j status detail r0 r1 t) ∧ BytesBut (inEntry f s) t (jobEnd k j status detail r0 r1 t) :=
  completed_of_mem ht (h.completed (cplReady_of_mem hr ht) hm (by rw [ht]) r0 r1 hs hd)

/-- A command that ends with a buffer written leaves its completion and the bytes of the buffer. -/
theorem Executes.ends_hostPut (h : Executes code f d k j s) (hr : CplReady f s) (hm : MemOk s) {a : Nat} {bs : List Byte} (ha : a + bs.length ≤ 2 ^ 51) (r0 r1 : Word) :
    let t := jobEnd k j csOK 0 r0 r1 (hostPut a bs s)
    CplWritten f (cplOf csOK 0 false d r0 r1) s t ∧ CplOnly f k s t ∧ (∀ i, i < bs.length → t.byte (hostBase + a + i) = bs.getD i 0) ∧
      BytesBut (fun x => inEntry f s x ∨ Touched (hostBase + a) bs.length x) s t := by
  have hp := hostPut_putAt hm ha
  obtain ⟨hw, ho, hb⟩ := h.ends_of_mem hr hp.memOk hp.only r0 r1 (status := csOK) (detail := 0) (by decide) (by decide)
  refine ⟨hw, ho, fun i hi => ?_, fun x hx => ?_⟩
  · have hbase : hostBase = 2 ^ 51 := rfl
    rw [hb _ fun he => by have := inEntry_ge he; omega, hp.bytes i hi]
  · rw [hb x fun he => hx (.inl he), hp.others x fun ht => hx (.inr ht)]

end

end Sys2Proof.Safety

namespace Sys2Proof.Proofs
open Sys2Proof.Machine Sys2Proof.Safety

/-! ### Reports -/

theorem bufOk_addr {a : Word} {n : Nat} (h : bufOk a n = true) : a.toNat + n ≤ 2 ^ 51 := by
  simp only [bufOk, addrOk, Bool.and_eq_true, decide_eq_true_eq] at h
  exact h.2

/-- What a command that writes a report does, by whether its buffer is in place and host memory answers. -/
def reportEnd (memOk : Bool) (bs : List Byte) (r0 r1 : Word) (k : Nat) (j : Job) (s : State) : State :=
  if bufOk j.d.p0 bs.length then bufferEnd k j j.d.p0 bs memOk r0 r1 s else jobEnd k j csBADPARAM 0 0 0 s

section
variable {code k : Nat} {f : Fin 13} {d : Desc} {j : Job} {s : State}

/-- The three endings of a report (R401). -/
theorem report_ends (h : Executes code f d k j s) (hr : CplReady f s) (hm : MemOk s) (bs : List Byte) (r0 r1 : Word) (memOk : Bool) :
    (bufOk d.p0 bs.length = true → bs ≠ [] →
      (let t := reportEnd true bs r0 r1 k j s
       CplWritten f (cplOf csOK 0 false d r0 r1) s t ∧ CplOnly f k s t ∧ (∀ i, i < bs.length → t.byte (hostBase + d.p0.toNat + i) = bs.getD i 0) ∧
        BytesBut (fun x => inEntry f s x ∨ Touched (hostBase + d.p0.toNat) bs.length x) s t) ∧
      Completed f k (cplOf csHOSTMEM 0 false d 0 0) s (reportEnd false bs r0 r1 k j s)) ∧
    (bufOk d.p0 bs.length = false → Completed f k (cplOf csBADPARAM 0 false d 0 0) s (reportEnd memOk bs r0 r1 k j s)) := by
  obtain ⟨-, -, hd⟩ := jobOf_eq_some h.job
  unfold reportEnd bufferEnd
  rw [hd]
  refine ⟨fun hbuf hne => ?_, fun hbuf => ?_⟩
  · simp only [hbuf, hne, if_true, if_false, Bool.false_eq_true]
    exact ⟨h.ends_hostPut hr hm (bufOk_addr hbuf) r0 r1, h.ends hr hm 0 0 (by decide) (by decide)⟩
  · rw [hbuf, if_neg Bool.false_ne_true]
    exact h.ends hr hm 0 0 (by decide) (by decide)

theorem exec_getInfo (h : Executes 0x01 f d k j s) : exec (.getInfo f d) s = .next (getInfo k j s) := congrArg Host.Outcome.next (firmware_of_executes h)

theorem exec_readHealth (h : Executes 0x07 f d k j s) (memOk : Bool) : exec (.readHealth f d memOk) s =
    .next (reportEnd memOk ((s.healthBytes f).take d.p1.toNat) (BitVec.ofNat 64 ((s.healthBytes f).take d.p1.toNat).length) 0 k j s) := by
  obtain ⟨-, hfn, hd⟩ := jobOf_eq_some h.job
  refine congrArg Host.Outcome.next ((firmware_of_executes h).trans ?_)
  unfold readHealth reportEnd
  rw [hfn, hd]

theorem exec_readErrors (h : Executes 0x10 f d k j s) (memOk : Bool) : exec (.readErrors f d memOk) s =
    .next (reportEnd memOk ((s.errorBytes f).take (d.p1.toNat / 32)).flatten (BitVec.ofNat 64 ((s.errorBytes f).take (d.p1.toNat / 32)).flatten.length) 0 k j s) := by
  obtain ⟨-, hfn, hd⟩ := jobOf_eq_some h.job
  refine congrArg Host.Outcome.next ((firmware_of_executes h).trans ?_)
  unfold readErrors reportEnd
  rw [hfn, hd]

/-- The report of `CXL_STATUS`: 72 registers. -/
theorem cxlBytes_length (s : State) : s.cxlBytes.length = 576 := by
  unfold State.cxlBytes
  simp only [List.length_flatMap, bytesLE_length, List.map_const', List.sum_replicate]
  simp [List.length_flatMap]

theorem exec_cxlStatus (h : Executes 0x0E f d k j s) (memOk : Bool) :
    let r0 := BitVec.ofNat 64 ((s.rd (CXP_PSTAT 0)).toNat + (s.rd (CXP_PSTAT 1)).toNat * 2 ^ 32)
    let r1 := BitVec.ofNat 64 (((List.range 8).filter (fun x => s.on (CXP_DEV.ACTIVE x))).foldl (fun a x => a + 2 ^ x) 0)
    exec (.cxlStatus f d memOk) s = .next (if d.p0 = 0 then jobEnd k j csOK 0 r0 r1 s else reportEnd memOk s.cxlBytes r0 r1 k j s) := by
  obtain ⟨-, -, hd⟩ := jobOf_eq_some h.job
  refine congrArg Host.Outcome.next ((firmware_of_executes h).trans ?_)
  unfold cxlStatus reportEnd
  rw [hd, cxlBytes_length]

/-! ### The flash (R377) -/

theorem bitOf_toNat {w : Nat} (v : BitVec w) (n : Nat) : bitOf v.toNat n = v.getLsbD n := by
  unfold bitOf
  rw [← BitVec.testBit_toNat, Nat.testBit_eq_decide_div_mod_eq]
  rfl

/-- The slot of the flash with every byte erased. -/
def slotErased (slot : Nat × Nat) (s : State) : State := s.onMem (fun m => Memory.wipe m (flashKey slot.1) (flashKey (slot.1 + slot.2)))

theorem exec_updateFlash (h : Executes 0x0F f d k j s) (memOk : Bool) (bad : Fin 5) :
    let slot := flashSlot (d.p0.getLsbD 0)
    let bs := s.hostGet d.p1.toNat d.p2.toNat
    exec (.updateFlash f d memOk bad) s = .next
      (if ¬ (d.p1.toNat + d.p2.toNat ≤ 2 ^ 51 ∧ d.p2.toNat ≤ slot.2) then jobEnd k j csBADPARAM 0 0 0 s
       else if memOk = false then jobEnd k j csHOSTMEM 0 0 0 s
       else if s.imageOk (!d.p0.getLsbD 0) bs = false then jobEnd k j csFLASH 1 0 0 (slotErased slot s)
       else if 2 ≤ bad.val then jobEnd k j csFLASH bad 0 0 (slotErased slot s)
       else jobEnd k j csOK 0 0 0 (flashPut slot.1 bs (slotErased slot s))) := by
  obtain ⟨-, -, hd⟩ := jobOf_eq_some h.job
  refine congrArg Host.Outcome.next ((firmware_of_executes h).trans ?_)
  unfold updateFlash
  rw [hd, bitOf_toNat]
  have hb : bad.val ≤ 4 := by omega
  dsimp only
  generalize flashSlot (d.p0.getLsbD 0) = slot
  have hfit : (!addrOk d.p1 d.p2.toNat || decide (slot.2 < d.p2.toNat)) = true ↔ ¬ (d.p1.toNat + d.p2.toNat ≤ 2 ^ 51 ∧ d.p2.toNat ≤ slot.2) := by
    simp only [addrOk, Bool.or_eq_true, Bool.not_eq_true', decide_eq_false_iff_not, decide_eq_true_eq]
    omega
  simp only [hfit, Bool.not_eq_true', hb, and_true]
  rfl

theorem flash_one (s : State) (a : Nat) : s.flash a 1 = [~~~ s.byte (flashKey a)] := rfl

/-- A slot that was erased, and an image that was then written to its start: what the slot holds, and what stays. -/
theorem flashPut_slotErased {slot : Nat × Nat} {img : List Byte} {s : State} (hm : MemOk s) (hl : img.length ≤ slot.2) :
    let t := flashPut slot.1 img (slotErased slot s)
    MemOk t ∧ (∀ i, i < slot.2 → t.flash (slot.1 + i) 1 = [img.getD i 0xFF]) ∧
      BytesBut (fun x => flashKey slot.1 ≤ x ∧ x < flashKey (slot.1 + slot.2)) s t := by
  have hw : Memory.wf (Memory.wipe s.mem (flashKey slot.1) (flashKey (slot.1 + slot.2))) = true := Memory.wipe_wf _ _ _ hm
  have hlen : (img.map fun b => ~~~ b).length = img.length := List.length_map _
  have hbyte (x : Nat) : (flashPut slot.1 img (slotErased slot s)).byte x =
      if flashKey slot.1 ≤ x ∧ x < flashKey slot.1 + img.length then (img.map fun b => ~~~ b).getD (x - flashKey slot.1) 0
      else if flashKey slot.1 ≤ x ∧ x < flashKey (slot.1 + slot.2) then 0 else s.byte x := by
    show Memory.get (Memory.puts (Memory.wipe s.mem _ _) _ _) x = _
    rw [Memory.get_puts _ _ _ _ hw, Memory.get_wipe, hlen]
    rfl
  refine ⟨Memory.puts_wf _ _ _ hw, fun i hi => ?_, fun x hx => ?_⟩
  · have hk : flashKey (slot.1 + i) = flashKey slot.1 + i := (Nat.add_assoc _ _ _).symm
    have hk' : flashKey (slot.1 + slot.2) = flashKey slot.1 + slot.2 := (Nat.add_assoc _ _ _).symm
    rw [flash_one, hbyte, hk, hk']
    congr 1
    by_cases h : i < img.length
    · rw [if_pos (by omega), Nat.add_sub_cancel_left, List.getD_eq_getElem _ _ (by omega), List.getElem_map, BitVec.not_not, List.getD_eq_getElem _ _ h]
    · rw [if_neg (by omega), if_pos (by omega), List.getD_eq_default _ _ (by omega)]
      rfl
  · have hk' : flashKey (slot.1 + slot.2) = flashKey slot.1 + slot.2 := (Nat.add_assoc _ _ _).symm
    rw [hk'] at hx
    rw [hbyte, hk', if_neg (by omega), if_neg (by omega)]

theorem updateFlash_flashed (h : Executes 0x0F f d k j s) (hr : CplReady f s) (hm : MemOk s) {slot : Nat × Nat} {img : List Byte} (hl : img.length ≤ slot.2)
    (hs : slot.1 + slot.2 ≤ 2 ^ 54) {status detail : Nat} (hst : status < 256) (hd : detail < 65536) :
    let t := jobEnd k j status detail 0 0 (flashPut slot.1 img (slotErased slot s))
    CplWritten f (cplOf status detail false d 0 0) s t ∧ CplOnly f k s t ∧ (∀ i, i < slot.2 → t.flash (slot.1 + i) 1 = [img.getD i 0xFF]) ∧
      BytesBut (fun x => inEntry f s x ∨ (flashKey slot.1 ≤ x ∧ x < flashKey (slot.1 + slot.2))) s t := by
  obtain ⟨hmem, hbytes, hothers⟩ := flashPut_slotErased hm hl
  obtain ⟨hw, ho, hb⟩ := h.ends_of_mem hr hmem (by rfl) 0 0 hst hd
  refine ⟨hw, ho, fun i hi => ?_, fun x hx => ?_⟩
  · rw [flash_one, hb _ fun he => by have := inEntry_ge he; unfold flashKey at this; omega, ← flash_one, hbytes i hi]
  · rw [hb x fun he => hx (.inl he), hothers x fun he => hx (.inr he)]

/-! ### `READ_REPAIR` -/

/-- The definition is taken as a whole and the 16 reads as one result, so that nothing evaluates them. -/
theorem ringEntry_eq_some {p ix : Nat} {e : List Byte} {s t : State} (h : ringEntry p ix s = (some e, t)) :
    ∃ ws, busWords 16 (s.f (FE_PRRQ.BASE p) * 128 + ix * 128) s = (some (ws, false), t) ∧ e = ws.flatMap (bytesLE 8) := by
  generalize hp : s.f (FE_PRRQ.BASE p) * 128 + ix * 128 = pa
  unfold ringEntry at h
  rw [hp] at h
  generalize busWords 16 pa s = r at h ⊢
  split at h
  next ws u => cases h; exact ⟨ws, rfl, rfl⟩
  next => cases h

theorem busWords_length {n pa : Nat} {ws : List Nat} {bad : Bool} {s t : State} (h : busWords n pa s = (some (ws, bad), t)) : ws.length = n := by
  induction n generalizing pa ws bad s with
  | zero => cases h; rfl
  | succ n ih =>
    unfold busWords at h
    split at h
    · cases h
    next g u _ =>
      split at h
      · cases h
      next ds b v e => cases h; rw [List.length_cons, ih e]

/-- An entry of a ring: its 128 bytes, read without harm to the memory. -/
theorem ringEntry_some {p ix : Nat} {e : List Byte} {s t : State} (h : ringEntry p ix s = (some e, t)) (hm : MemOk s) : e.length = 128 ∧ MemOk t := by
  obtain ⟨ws, hw, rfl⟩ := ringEntry_eq_some h
  refine ⟨?_, ((Quiet.refl false s).busWords 16 _).of_eq hw |>.memOk hm⟩
  have hl := busWords_length hw
  simp [List.length_flatMap, bytesLE_length, hl]

/-- `READ_REPAIR` of the oldest entry. -/
theorem exec_readRepair (h : Executes 0x0A f d k j s) (memOk late : Bool) : exec (.readRepair f d memOk late) s = .next (readRepair memOk late k j s) :=
  congrArg Host.Outcome.next (firmware_of_executes h)

section
variable (h : Executes 0x0A f d k j s) (hbit : d.p0.getLsbD 15 = false) (memOk late : Bool)
include h

theorem readRepair_misplaced (hb : bufOk d.p1 128 = false) : readRepair memOk late k j s = jobEnd k j csBADPARAM 0 0 0 s := by
  obtain ⟨-, -, hd⟩ := jobOf_eq_some h.job
  unfold readRepair
  rw [hd, hb]
  rfl

include hbit

theorem readRepair_empty (hb : bufOk d.p1 128 = true) (hn : s.ringPlaces d.part.toNat = []) : readRepair memOk late k j s = jobEnd k j csNORESULT 0 0 0 s := by
  obtain ⟨-, -, hd⟩ := jobOf_eq_some h.job
  have hr : repairEntry d.part.toNat d s = (none, s) := by
    unfold repairEntry
    rw [bitOf_toNat, hbit, hn]
    rfl
  unfold readRepair
  rw [hd, hb]
  dsimp only
  rw [hr, h.fresh, bitOf_toNat, hbit]
  simp

theorem readRepair_oldest (hb : bufOk d.p1 128 = true) {ix : Nat} {rest : List Nat} {e : List Byte} {t : State} (hn : s.ringPlaces d.part.toNat = ix :: rest)
    (he : ringEntry d.part.toNat ix s = (some e, t)) :
    readRepair true late k j s = jobEnd k j csOK 0 0 0 (rrqHead d.part.toNat ((ix + 1) % t.ringLen d.part.toNat) (hostPut d.p1.toNat e t)) := by
  obtain ⟨-, -, hd⟩ := jobOf_eq_some h.job
  have hr : repairEntry d.part.toNat d s = (some (ix, e), t) := by
    unfold repairEntry
    rw [bitOf_toNat, hbit, hn]
    dsimp only
    rw [he]
    rfl
  unfold readRepair
  rw [hd, hb]
  dsimp only
  rw [hr]
  rfl

end

end

/-- Settles O43, command by command: what each ends with, from how it begins and what its buffer or the flash then holds. -/
theorem informationCommandsWriteTheirBuffers : Obligations.InformationCommandsWriteTheirBuffers := by
  unfold Obligations.InformationCommandsWriteTheirBuffers
  intro f d k j bad memOk late s hr hm p0 p1 ends inBuf touched buffer report
  have hreport {code : Nat} (h : Executes code f d k j s) {c : Bool → Instr} {bs : List Byte} {r0 r1 : Word}
      (hc : ∀ b, exec (c b) s = .next (reportEnd b bs r0 r1 k j s)) : report c bs r0 r1 := by
    obtain ⟨hgood, hbad⟩ := report_ends h hr hm bs r0 r1 memOk
    exact ⟨fun hb hne => ⟨⟨_, hc true, (hgood hb hne).1⟩, _, hc false, (hgood hb hne).2⟩, fun hb => ⟨_, hc memOk, hbad hb⟩⟩
  refine ⟨fun h => ?_, fun h => hreport h (exec_readHealth h), fun h => hreport h (exec_readErrors h), fun h => ?_, fun h => ?_, fun h hbit => ?_⟩
  · refine ⟨_, exec_getInfo h, ?_⟩
    have hid (a b : Nat) : BitVec.ofNat 64 (a ||| b) = BitVec.ofNat 64 a ||| BitVec.ofNat 64 b := BitVec.ofNat_or
    rw [hid]
    exact h.ends hr hm _ _ (by decide) (by decide)
  · refine ⟨fun h0 => ⟨_, exec_cxlStatus h memOk, ?_⟩, fun h0 => ⟨cxlBytes_length s, hreport h fun b => ?_⟩⟩
    · rw [if_pos h0]
      exact h.ends hr hm _ _ (by decide) (by decide)
    · rw [exec_cxlStatus h b, if_neg h0]
  · intro slot n bs fits sound flashed
    have hslot : slot.1 + slot.2 ≤ 2 ^ 54 := by
      simp only [slot, flashSlot, flashUpdate]
      split <;> decide
    have hend (b : Bool) (x : Fin 5) := exec_updateFlash h b x
    refine ⟨fun hf => ⟨_, hend memOk bad, ?_⟩, fun hf => ⟨_, hend false bad, ?_⟩, fun hf hs hb => ⟨_, hend true bad, ?_⟩, fun hf hs => ⟨_, hend true bad, ?_⟩,
      fun hf hs hb => ⟨_, hend true bad, ?_⟩⟩
    · rw [if_pos hf]
      exact h.ends hr hm _ _ (by decide) (by decide)
    · rw [if_neg (not_not.2 hf), if_pos rfl]
      exact h.ends hr hm _ _ (by decide) (by decide)
    · rw [if_neg (not_not.2 hf), if_neg (by decide), if_neg fun he => Bool.false_ne_true (he.symm.trans hs), if_neg (by omega)]
      exact updateFlash_flashed h hr hm (by simpa [bs, State.hostGet, Memory.gets_length] using hf.2) hslot (by decide) (by decide)
    · rw [if_neg (not_not.2 hf), if_neg (by decide), if_pos (Bool.eq_false_iff.2 hs)]
      exact updateFlash_flashed (img := []) h hr hm (Nat.zero_le _) hslot (by decide) (by decide)
    · rw [if_neg (not_not.2 hf), if_neg (by decide), if_neg fun he => Bool.false_ne_true (he.symm.trans hs), if_pos hb]
      exact updateFlash_flashed (img := []) h hr hm (Nat.zero_le _) hslot (by decide) (by have := bad.isLt; omega)
  · refine ⟨fun hb => ⟨_, exec_readRepair h memOk late, ?_⟩, fun hb hn => ⟨_, exec_readRepair h memOk late, ?_⟩, fun ix rest e s1 hb hn he hr1 => ?_⟩
    · rw [readRepair_misplaced h _ _ hb]
      exact h.ends hr hm _ _ (by decide) (by decide)
    · rw [readRepair_empty h hbit _ _ hb hn]
      exact h.ends hr hm _ _ (by decide) (by decide)
    · obtain ⟨hlen, hm1⟩ := ringEntry_some he hm
      have hp := hostPut_putAt (a := p1) (bs := e) hm1 (by rw [hlen]; exact bufOk_addr hb)
      obtain ⟨hm2, honly, hbytes, hothers⟩ := hp
      rw [hlen] at hbytes hothers
      refine ⟨hbytes, hothers, honly, fun hr3 => ⟨_, exec_readRepair h true late, ?_⟩⟩
      rw [readRepair_oldest h hbit late hb hn he]
      obtain ⟨-, hfn, hd⟩ := jobOf_eq_some h.job
      have hc := jobEnd_completed (k := k) (j := j) 0 0 (hfn ▸ hr3) (((Quiet.refl false _).rrqHead _ _).memOk hm2) (status := csOK) (detail := 0) (by decide) (by decide)
      rwa [hfn, hd] at hc

end Sys2Proof.Proofs
end

