-- ==== Sys2Proof/Proofs/Unload.lean ====
section
/-!
PROOFS. Proofs/Unload.lean: how UNLOAD_PARTITION leaves a partition: its band blank, its slot invalid, its rows unowned, and itself not enabled and EMPTY (R24, R381).
-/
namespace Sys2Proof.Proofs
open Sys2Proof.Machine Sys2Proof.Safety

/-! ### What quiet work leaves -/

theorem not_off_of_lt {k : Nat} (h : k < 0x1_0000) : ¬ Off k := fun ho => by
  obtain ⟨hle, -⟩ := ho
  omega

theorem Quiet.owner {s t : State} (h : Quiet true s t) {r : Nat} (hr : r < 12) : t.owner r = s.owner r := by
  refine h.fields _ (show 7 < 64 by decide) (not_off_of_lt ?_) fun _ p hp => .of_key ?_
  · simp only [GLB_ROW_MAP.OWNER, GLB_ROW_MAP]; omega
  · simp only [GLB_ROW_MAP.OWNER, GLB_ROW_MAP, GLB_PART_CFG.STATE, GLB_PART_CFG]; omega

theorem Quiet.spare {s t : State} (h : Quiet true s t) {r : Nat} (hr : r < 12) : t.spare r = s.spare r := by
  refine h.fields _ (show 3 < 64 by decide) (not_off_of_lt ?_) fun _ p hp => .of_key ?_
  · simp only [GLB_ROW_MAP.SPARE_PTR, GLB_ROW_MAP]; omega
  · simp only [GLB_ROW_MAP.SPARE_PTR, GLB_ROW_MAP, GLB_PART_CFG.STATE, GLB_PART_CFG]; omega

theorem Quiet.firstRow {s t : State} (h : Quiet true s t) {n : Nat} (hn : n < 12) : t.firstRow n = s.firstRow n := by
  refine h.fields _ (show 3 < 64 by decide) (not_off_of_lt ?_) fun _ p _ => .inr (.inr (show 3 < 28 by decide))
  simp only [GLB_PART_CFG.FIRST_ROW, GLB_PART_CFG]; omega

theorem Quiet.rowsOf {s t : State} (h : Quiet true s t) (n : Nat) : t.rowsOf n = s.rowsOf n := by
  unfold State.rowsOf
  exact List.filter_congr fun r hr => by rw [h.owner (List.mem_range.1 hr)]

theorem Quiet.islandsOf {s t : State} (h : Quiet true s t) (n : Nat) : t.islandsOf n = s.islandsOf n := by
  unfold State.islandsOf
  rw [h.rowsOf n]
  refine List.flatMap_congr fun r hr => List.filter_congr fun i hi => ?_
  simp only [State.rowsOf, List.mem_filter, List.mem_range] at hr
  obtain ⟨p, hp, rfl⟩ := List.mem_map.1 hi
  have hrow : rowOf (r * 13 + p) = r := by
    have := List.mem_range.1 hp
    unfold rowOf
    omega
  unfold State.inService
  rw [hrow, h.spare hr.1]

/-! ### Blank frames -/

/-- The blank content of a frame, at its address in the band of a partition. -/
def blankAt (n i k : Nat) (s : State) : CfgFrame := CfgFrame.of (s.faddr (s.firstRow n) i k) (blankFrame k)

theorem blankAt_congr {n i : Nat} {s t : State} (k : Nat) (hf : t.firstRow n = s.firstRow n) (hs : t.spare (rowOf i) = s.spare (rowOf i)) :
    blankAt n i k t = blankAt n i k s := by
  unfold blankAt State.faddr State.lcol
  rw [hf, hs]

/-- The frames of an island become blank. -/
def blankIsland (n i m : Nat) (s : State) : State := (List.range m).foldl (fun s k => s.setFrame i k (blankAt n i k s)) s

theorem blankIsland_succ (n i m : Nat) (s : State) :
    blankIsland n i (m + 1) s = (blankIsland n i m s).setFrame i m (blankAt n i m (blankIsland n i m s)) := by
  unfold blankIsland
  rw [List.range_succ, List.foldl_append]
  rfl

theorem blankIsland_parts (n i m : Nat) (s : State) : ∃ fs, blankIsland n i m s = { s with frames := fs } := by
  induction m with
  | zero => exact ⟨_, rfl⟩
  | succ m ih =>
    obtain ⟨fs, h⟩ := ih
    rw [blankIsland_succ, h]
    exact ⟨_, rfl⟩

theorem blankAt_blankIsland (n i m j k : Nat) (s : State) : blankAt n j k (blankIsland n i m s) = blankAt n j k s := by
  obtain ⟨fs, h⟩ := blankIsland_parts n i m s
  rw [h]
  exact blankAt_congr k rfl rfl

theorem frame_blankIsland {n i m j b : Nat} (s : State) (hm : m ≤ 128) (hb : b < 128) :
    (blankIsland n i m s).frame j b = if j = i ∧ b < m then blankAt n i b s else s.frame j b := by
  induction m with
  | zero => rw [if_neg (by omega)]; rfl
  | succ m ih =>
    rw [blankIsland_succ]
    by_cases h : j = i ∧ b = m
    · obtain ⟨rfl, rfl⟩ := h
      rw [frame_setFrame_same, if_pos (by omega), blankAt_blankIsland]
    · rw [frame_setFrame_ne _ _ (by omega) hb (by omega), ih (by omega)]
      by_cases hc : j = i ∧ b < m
      · rw [if_pos hc, if_pos (by omega)]
      · rw [if_neg hc, if_neg (by omega)]

/-- The frames of a list of islands become blank. -/
def blankIslands (n : Nat) (is : List Nat) (s : State) : State := is.foldl (fun s i => blankIsland n i 128 s) s

theorem blankIslands_cons (n i : Nat) (is : List Nat) (s : State) : blankIslands n (i :: is) s = blankIslands n is (blankIsland n i 128 s) := by
  unfold blankIslands
  rw [List.foldl_cons]

theorem blankIslands_parts (n : Nat) (is : List Nat) (s : State) : ∃ fs, blankIslands n is s = { s with frames := fs } := by
  induction is generalizing s with
  | nil => exact ⟨_, rfl⟩
  | cons i is ih =>
    obtain ⟨fs, h⟩ := blankIsland_parts n i 128 s
    obtain ⟨fs', h'⟩ := ih (blankIsland n i 128 s)
    rw [h] at h'
    refine ⟨fs', ?_⟩
    rw [blankIslands_cons, h, h']

theorem frame_blankIslands {n j b : Nat} (is : List Nat) (s : State) (hb : b < 128) :
    (blankIslands n is s).frame j b = if j ∈ is then blankAt n j b s else s.frame j b := by
  induction is generalizing s with
  | nil => rw [if_neg List.not_mem_nil]; rfl
  | cons i is ih =>
    rw [blankIslands_cons, ih, blankAt_blankIsland, frame_blankIsland s (le_refl _) hb]
    by_cases hj : j ∈ is
    · rw [if_pos hj, if_pos (List.mem_cons_of_mem _ hj)]
    · rw [if_neg hj]
      by_cases hi : j = i
      · rw [if_pos ⟨hi, hb⟩, if_pos (hi ▸ List.mem_cons_self), hi]
      · rw [if_neg fun h => hi h.1, if_neg fun h => (List.mem_cons.1 h).elim hi hj]

/-! ### The band of a partition that is unloaded -/

/-- The band of a partition in reset, with its clocks stopped (R379). -/
def bandHeld (n : Nat) (s : State) : State :=
  let s := captureDrop n (holdPins (fun p => s.pinPart p == n) s)
  (s.islandsOf n).foldl (fun s i => islHold i s) ((s.seqsOf n).foldl (fun s q => seqReset q s) s)

theorem unloadBand_eq (n : Nat) (s : State) : unloadBand n s = blankIslands n ((bandHeld n s).islandsOf n) (bandHeld n s) := by
  unfold unloadBand blankIslands blankIsland blankAt bandHeld
  rfl

theorem bandHeld_quiet (n : Nat) (s : State) : Quiet true s (bandHeld n s) := by
  unfold bandHeld
  exact Quiet.foldl_mem (fun _ i hi h => h.islHold (Quiet.islandsOf_lt hi)) (Quiet.foldl (fun _ q h => h.seqReset q) (((Quiet.refl true s).holdPins _).captureDrop n) _)

/-- Every frame of the band is blank. -/
theorem frame_unloadBand {n i b : Nat} {s : State} (hn : n < 12) (hi : i ∈ s.islandsOf n) (hb : b < 128) : (unloadBand n s).frame i b = blankAt n i b s := by
  have hq := bandHeld_quiet n s
  have hrow : rowOf i < 12 := by
    have := Quiet.islandsOf_lt hi
    unfold rowOf
    omega
  rw [unloadBand_eq, frame_blankIslands _ _ hb, hq.islandsOf, if_pos hi, blankAt_congr b (hq.firstRow hn) (hq.spare hrow)]

/-- But for the frames, the unloaded band is left as quiet work leaves it. -/
theorem unloadBand_parts (n : Nat) (s : State) : ∃ t fs, Quiet true s t ∧ unloadBand n s = { t with frames := fs } := by
  obtain ⟨fs, h⟩ := blankIslands_parts n ((bandHeld n s).islandsOf n) (bandHeld n s)
  exact ⟨_, fs, bandHeld_quiet n s, by rw [unloadBand_eq, h]⟩

/-! ### A partition that is disabled -/

/-- The rows of a partition belong to none. -/
def rowsFreed (n : Nat) (s : State) : State := (s.rowsOf n).foldl (fun s r => s.setF (GLB_ROW_MAP.OWNER r) 15) s

theorem partDisable_eq {n : Nat} (s : State) (hn : n < 12) : ∃ t, Quiet true s t ∧
    partDisable n s = rungChanged s.modRung (handled n (((rowsFreed n t).setF (GLB_PART_CFG.STATE n) stEMPTY).setF (GLB_PART_CFG.EN n) 0)) := by
  unfold partDisable rowsFreed
  extract_lets old s1 s2 cur s3 s4 s5 _ s6 s7
  have h1 : Quiet true s s1 := by
    unfold s1
    split
    next hl =>
      simp only [State.loadNames, Bool.and_eq_true, bne_iff_ne, beq_iff_eq] at hl
      obtain ⟨⟨-, hmode⟩, hpart⟩ := hl
      exact (Quiet.refl true s).cfgFail _ _ (hpart ▸ hn) hmode
    next => exact Quiet.refl true s
  have h2 : Quiet true s s2 := ((h1.abortStreams n).captureDrop n).feDisable n
  have h3 : Quiet true s s3 := .ite ((h2.setF 0 (.pwrPart hn)).lanesUp n cur) h2
  have h4 : Quiet true s s4 := .ite (h3.clocksOn n) h3
  have h5 : Quiet true s s5 := Quiet.foldl (fun _ q h => (h.seqHalt q).dropSends q) (Quiet.foldl_mem (fun _ i hi h => h.islHold (Quiet.islandsOf_lt hi)) h4) _
  have h6 : Quiet true s s6 := h5.same rfl rfl rfl rfl
  have h7 : Quiet true s s7 := ((h6.setF 0 (.pwrPart hn)).setF 0 (.pwrPart hn)).setF 0 (.pwrPart hn)
  exact ⟨s7, h7, rfl⟩

theorem f_rowsFreed {n : Nat} {s : State} {y : RF} (h : ∀ r, r < 12 → y.key ≠ GLB_ROW_MAP r) : (rowsFreed n s).f y = s.f y := by
  unfold rowsFreed
  have hfold (rs : List Nat) (hrs : ∀ r ∈ rs, r < 12) (t : State) : (rs.foldl (fun s r => s.setF (GLB_ROW_MAP.OWNER r) 15) t).f y = t.f y := by
    induction rs generalizing t with
    | nil => rfl
    | cons r rs ih =>
      rw [List.foldl_cons, ih fun x hx => hrs x (List.mem_cons_of_mem _ hx)]
      exact State.f_setF_other _ _ _ _ (h r (hrs r List.mem_cons_self))
  exact hfold _ (fun r hr => List.mem_range.1 (List.mem_filter.1 hr).1) s

theorem owner_rowsFreed {n r : Nat} {s : State} (h : r ∈ s.rowsOf n) : (rowsFreed n s).owner r = 15 := by
  unfold rowsFreed
  have hset (t : State) (x : Nat) (ht : t.owner r = 15) : (t.setF (GLB_ROW_MAP.OWNER x) 15).owner r = 15 := by
    by_cases hx : r = x
    · rw [hx]
      exact f_setF_fits t rfl (show 15 < 16 by decide)
    · unfold State.owner
      rw [State.f_setF_other _ _ _ _ (by simp only [GLB_ROW_MAP.OWNER, GLB_ROW_MAP]; omega)]
      exact ht
  have hkeep (rs : List Nat) (t : State) (ht : t.owner r = 15) : (rs.foldl (fun s r => s.setF (GLB_ROW_MAP.OWNER r) 15) t).owner r = 15 := by
    induction rs generalizing t with
    | nil => exact ht
    | cons x rs ih => exact ih _ (hset t x ht)
  have hfold (rs : List Nat) (hr : r ∈ rs) (t : State) : (rs.foldl (fun s r => s.setF (GLB_ROW_MAP.OWNER r) 15) t).owner r = 15 := by
    induction rs generalizing t with
    | nil => exact absurd hr List.not_mem_nil
    | cons x rs ih =>
      rw [List.foldl_cons]
      rcases List.mem_cons.1 hr with hx | hx
      · refine hkeep rs _ ?_
        rw [hx]
        exact f_setF_fits t rfl (show 15 < 16 by decide)
      · exact ih hx _
  exact hfold _ h s

theorem frames_rowsFreed (n : Nat) (s : State) : (rowsFreed n s).frames = s.frames := by
  unfold rowsFreed
  have hfold (rs : List Nat) (t : State) : (rs.foldl (fun s r => s.setF (GLB_ROW_MAP.OWNER r) 15) t).frames = t.frames := by
    induction rs generalizing t with
    | nil => rfl
    | cons r rs ih => exact ih _
  exact hfold _ s

/-- A disabled partition is EMPTY and not enabled, its rows belong to none, and frames and valid bits are as before. -/
theorem partDisable_leaves {n : Nat} (s : State) (hn : n < 12) : (partDisable n s).f (GLB_PART_CFG.EN n) = 0 ∧ (partDisable n s).f (GLB_PART_CFG.STATE n) = 0 ∧
    (∀ m, m < 12 → (partDisable n s).f (CFG_RESVAL.VALID.bit m) = s.f (CFG_RESVAL.VALID.bit m)) ∧
    (∀ r, r < 12 → s.owner r = n → (partDisable n s).owner r = 15) ∧ (partDisable n s).frames = s.frames := by
  obtain ⟨t, ht, e⟩ := partDisable_eq s hn
  rw [e]
  generalize hu : ((rowsFreed n t).setF (GLB_PART_CFG.STATE n) stEMPTY).setF (GLB_PART_CFG.EN n) 0 = u
  have hq : Quiet false u (rungChanged s.modRung (handled n u)) := ((Quiet.refl false u).handled n).rungChanged _
  have hkeep {y : RF} (hy : y.hi < 64) (ho : ¬ Off y.key) := hq.fields y hy ho fun h => absurd h Bool.false_ne_true
  have hcfg : ¬ Off (GLB_PART_CFG n) := not_off_of_lt (by unfold GLB_PART_CFG; omega)
  have hother {y : RF} (hy : y.key ≠ GLB_PART_CFG n) : u.f y = (rowsFreed n t).f y := by
    rw [← hu, State.f_setF_other _ _ _ _ hy, State.f_setF_other _ _ _ _ hy]
  refine ⟨?_, ?_, fun m hm => ?_, fun r hr ho => ?_, ?_⟩
  · rw [hkeep (show 31 < 64 by decide) hcfg, ← hu]
    exact f_setF_fits _ rfl (show 0 < 2 by decide)
  · rw [hkeep (show 30 < 64 by decide) hcfg, ← hu, f_setF_ne _ _ rfl (show 30 < 64 by decide) (.inr (.inr (show 30 < 31 by decide)))]
    exact f_setF_fits _ rfl (show 0 < 8 by decide)
  · have hoff : ¬ Off CFG_RESVAL := fun ⟨_, h⟩ => h rfl
    have hhi : (CFG_RESVAL.VALID.bit m).hi < 64 := by simp only [RF.bit, CFG_RESVAL.VALID]; omega
    rw [hkeep hhi hoff, hother (by simp only [RF.bit, CFG_RESVAL.VALID, CFG_RESVAL, GLB_PART_CFG]; omega),
      f_rowsFreed fun r hr => by simp only [RF.bit, CFG_RESVAL.VALID, CFG_RESVAL, GLB_ROW_MAP]; omega]
    exact ht.fields _ hhi hoff fun _ p hp => .of_key (by simp only [RF.bit, CFG_RESVAL.VALID, CFG_RESVAL, GLB_PART_CFG.STATE, GLB_PART_CFG]; omega)
  · unfold State.owner
    rw [hkeep (show 7 < 64 by decide) (not_off_of_lt (by simp only [GLB_ROW_MAP.OWNER, GLB_ROW_MAP]; omega)),
      hother (by simp only [GLB_ROW_MAP.OWNER, GLB_ROW_MAP, GLB_PART_CFG]; omega)]
    refine owner_rowsFreed (List.mem_filter.2 ⟨List.mem_range.2 hr, ?_⟩)
    rw [ht.owner hr, ho]
    exact beq_self_eq_true n
  · rw [hq.frames, ← hu]
    exact (frames_rowsFreed n t).trans ht.frames

/-- A partition that is unloaded (R381). -/
def unloaded (n : Nat) (s : State) : State := partDisable n ((unloadBand n s).setF (CFG_RESVAL.VALID.bit n) 0)

theorem unloaded_leaves {n : Nat} (s : State) (hn : n < 12) : (unloaded n s).f (GLB_PART_CFG.EN n) = 0 ∧ (unloaded n s).f (GLB_PART_CFG.STATE n) = 0 ∧
    (unloaded n s).f (CFG_RESVAL.VALID.bit n) = 0 ∧ (∀ r, r < 12 → s.owner r = n → (unloaded n s).owner r = 15) ∧
    ∀ i ∈ s.islandsOf n, ∀ b, b < 128 → (unloaded n s).frame i b = CfgFrame.of (s.faddr (s.firstRow n) i b) (blankFrame b) := by
  obtain ⟨hen, hstate, hvalid, howner, hframes⟩ := partDisable_leaves ((unloadBand n s).setF (CFG_RESVAL.VALID.bit n) 0) hn
  refine ⟨hen, hstate, ?_, fun r hr ho => howner r hr ?_, fun i hi b hb => ?_⟩
  · refine (hvalid n hn).trans (f_setF_fits _ ?_ ?_)
    · simp only [RFok, RF.bit, CFG_RESVAL.VALID, Nat.ble_eq, Nat.blt_eq, Bool.and_eq_true]
      omega
    · positivity
  · obtain ⟨t, fs, hq, h⟩ := unloadBand_parts n s
    unfold State.owner
    rw [State.f_setF_other _ _ _ _ (by simp only [GLB_ROW_MAP.OWNER, GLB_ROW_MAP, RF.bit, CFG_RESVAL.VALID, CFG_RESVAL]; omega), h]
    exact (hq.owner hr).trans ho
  · exact (frame_congr hframes i b).trans (frame_unloadBand hn hi hb)

end Sys2Proof.Proofs
end

