-- ==== Sys2Proof/Proofs/StartStop.lean ====
section
/-!
PROOFS. Proofs/StartStop.lean: how START_PARTITION and STOP_PARTITION leave the sequencers of a partition and its state (R26, R255, R256).
-/
namespace Sys2Proof.Proofs
open Sys2Proof.Machine Sys2Proof.Safety

/-! ### The definitions of the partitions -/

section
variable {s t : State}

theorem Quiet.enabled (h : Quiet true s t) {n : Nat} : t.enabled n = s.enabled n := by
  unfold State.enabled
  by_cases hn : n < 12
  · have hf : t.f (GLB_PART_CFG.EN n) = s.f (GLB_PART_CFG.EN n) := by
      refine h.fields _ (show 31 < 64 by decide) (not_off_of_lt ?_) fun _ p _ => .inr (.inl (show 30 < 31 by decide))
      simp only [GLB_PART_CFG.EN, GLB_PART_CFG]; omega
    unfold State.on
    rw [hf]
  · simp [hn]

theorem Quiet.primary (h : Quiet true s t) (n : Nat) : t.primary n = s.primary n := by
  unfold State.primary
  rw [h.enabled]
  split
  next he =>
    have hn : n < 12 := by
      simp only [State.enabled, Bool.and_eq_true, decide_eq_true_eq] at he
      exact he.1
    congr 1
    refine h.fields _ (show 28 < 64 by decide) (not_off_of_lt ?_) fun _ p hp => .of_key ?_
    · simp only [GLB_PART_SEQ.PRIMARY, GLB_PART_SEQ]; omega
    · simp only [GLB_PART_SEQ.PRIMARY, GLB_PART_SEQ, GLB_PART_CFG.STATE, GLB_PART_CFG]; omega
  next => rfl

theorem Quiet.mask (h : Quiet true s t) {n : Nat} (hn : n < 12) : t.f (GLB_PART_SEQ.MASK n) = s.f (GLB_PART_SEQ.MASK n) := by
  refine h.fields _ (show 23 < 64 by decide) (not_off_of_lt ?_) fun _ p hp => .of_key ?_
  · simp only [GLB_PART_SEQ.MASK, GLB_PART_SEQ]; omega
  · simp only [GLB_PART_SEQ.MASK, GLB_PART_SEQ, GLB_PART_CFG.STATE, GLB_PART_CFG]; omega

theorem Quiet.primaryOf (h : Quiet true s t) (q : Nat) : t.primaryOf q = s.primaryOf q := by
  unfold State.primaryOf
  simp only [h.primary]

theorem Quiet.seqPart (h : Quiet true s t) (q : Nat) : t.seqPart q = s.seqPart q := by
  unfold State.seqPart
  have hc : (List.range 12).find? (fun n => t.enabled n && bitOf (t.f (GLB_PART_SEQ.MASK n)) q) = (List.range 12).find? (fun n => s.enabled n && bitOf (s.f (GLB_PART_SEQ.MASK n)) q) :=
    List.find?_congr fun n hn => by rw [h.enabled, h.mask (List.mem_range.1 hn)]
  exact hc

end

theorem primary_of_primaryOf {s : State} {q n : Nat} (h : s.primaryOf q = some n) : s.primary n = some q := by
  have := List.find?_some h
  exact eq_of_beq this

/-! ### A partition that follows its primary -/

/-- The lanes of a partition that starts resynchronise; no register below the lanes' own changes. -/
theorem laneResyncs_keep (ls : List Nat) (s : State) : (ls.foldl (fun s l => laneResync l s) s).seqs = s.seqs ∧
    ∀ y : RF, y.key < 0xE0_0000 → (ls.foldl (fun s l => laneResync l s) s).f y = s.f y := by
  have hone (l : Nat) (t : State) : (laneResync l t).seqs = t.seqs ∧ ∀ y : RF, y.key < 0xE0_0000 → (laneResync l t).f y = t.f y := by
    have hset (t : State) (v : Nat) (y : RF) (hy : y.key < 0xE0_0000) : (t.setF (LANE_STAT.TSTATE l) v).f y = t.f y :=
      State.f_setF_other _ _ _ _ (by simp only [LANE_STAT.TSTATE, LANE_STAT]; omega)
    unfold laneResync
    extract_lets u
    split
    · split
      · exact ⟨rfl, fun y hy => hset u 4 y hy⟩
      · exact ⟨rfl, fun _ _ => rfl⟩
    · exact ⟨rfl, fun _ _ => rfl⟩
  induction ls generalizing s with
  | nil => exact ⟨rfl, fun _ _ => rfl⟩
  | cons l ls ih =>
    obtain ⟨hseqs, hf⟩ := ih (laneResync l s)
    obtain ⟨hseqs', hf'⟩ := hone l s
    exact ⟨hseqs.trans hseqs', fun y hy => (hf y hy).trans (hf' y hy)⟩

/-- What follows a sequencer: no sequencer changes, and no field below the lanes but the state of the partition whose primary it is. -/
theorem partFollows_keeps (q : Nat) (s : State) : (partFollows q s).seqs = s.seqs ∧
    ∀ y : RF, y.hi < 64 → y.key < 0xE0_0000 → (∀ p, s.primaryOf q = some p → Apart (GLB_PART_CFG.STATE p) y) → (partFollows q s).f y = s.f y := by
  unfold partFollows
  split
  · exact ⟨rfl, fun _ _ _ _ => rfl⟩
  next p hp =>
    have hset (v : Nat) (y : RF) (hy : y.hi < 64) (ha : ∀ p, s.primaryOf q = some p → Apart (GLB_PART_CFG.STATE p) y) : (s.setF (GLB_PART_CFG.STATE p) v).f y = s.f y :=
      f_setF_ne s v rfl hy (ha p hp)
    dsimp only
    split
    · obtain ⟨hseqs, hf⟩ := laneResyncs_keep (s.lanesOf p) (s.setF (GLB_PART_CFG.STATE p) stRUNNING)
      exact ⟨hseqs, fun y hy hk ha => (hf y hk).trans (hset _ y hy ha)⟩
    · split
      · exact ⟨rfl, fun y hy _ ha => hset _ y hy ha⟩
      · exact ⟨rfl, fun _ _ _ _ => rfl⟩

/-- A partition that is STOPPED becomes RUNNING with its primary. -/
theorem partFollows_starts {q n : Nat} {s : State} (hp : s.primaryOf q = some n) (hs : s.f (GLB_PART_CFG.STATE n) = stSTOPPED) (hq : (s.getSeq q).st = 2) :
    (partFollows q s).f (GLB_PART_CFG.STATE n) = stRUNNING := by
  have hn := primaryOf_lt hp
  unfold partFollows
  rw [hp]
  dsimp only
  rw [if_pos ⟨hs, hq⟩, (laneResyncs_keep _ _).2 _ (by simp only [GLB_PART_CFG.STATE, GLB_PART_CFG]; omega)]
  exact f_setF_fits _ rfl (show 3 < 8 by decide)

/-! ### START_PARTITION -/

/-- What the reset of other sequencers leaves of a partition and its primary. -/
structure StartKeeps (n q : Nat) (s t : State) : Prop where
  quiet : Quiet true s t
  seq : t.getSeq q = s.getSeq q
  state : t.f (GLB_PART_CFG.STATE n) = s.f (GLB_PART_CFG.STATE n)

theorem StartKeeps.refl (n q : Nat) (s : State) : StartKeeps n q s s := ⟨.refl true s, rfl, rfl⟩

/-- Another sequencer is put in reset. -/
theorem StartKeeps.seqReset {n q q' : Nat} {s t : State} (h : StartKeeps n q s t) (hn : n < 12) (hp : s.primary n = some q) (hq : q' ≠ q) :
    StartKeeps n q s (seqReset q' t) := by
  obtain ⟨hquiet, hseq, hstate⟩ := h
  have hfollow (x : Seq) : ((partFollows q' ((t.setSeq q' x).setF (SEQ_CTL.RUN q') 0)).getSeq q = s.getSeq q) ∧
      (partFollows q' ((t.setSeq q' x).setF (SEQ_CTL.RUN q') 0)).f (GLB_PART_CFG.STATE n) = s.f (GLB_PART_CFG.STATE n) := by
    have hu : Quiet true s ((t.setSeq q' x).setF (SEQ_CTL.RUN q') 0) := (hquiet.setSeq q' x).setF 0 (.seqCtl q')
    obtain ⟨hseqs, hf⟩ := partFollows_keeps q' ((t.setSeq q' x).setF (SEQ_CTL.RUN q') 0)
    constructor
    · unfold State.getSeq
      rw [hseqs]
      show (t.setSeq q' x).getSeq q = _
      rw [State.getSeq_setSeq, if_neg (Ne.symm hq), hseq]
      rfl
    · rw [hf _ (show 30 < 64 by decide) (by simp only [GLB_PART_CFG.STATE, GLB_PART_CFG]; omega) fun p hpo => ?_]
      · refine (State.f_setF_other _ _ _ _ ?_).trans hstate
        simp only [GLB_PART_CFG.STATE, GLB_PART_CFG, SEQ_CTL.RUN, SEQ_CTL]; omega
      · have hpq := primary_of_primaryOf hpo
        rw [hu.primary] at hpq
        refine .of_key ?_
        have hne : n ≠ p := by
          rintro rfl
          exact hq (Option.some.inj (hpq.symm.trans hp))
        simp only [GLB_PART_CFG.STATE, GLB_PART_CFG]; omega
  refine ⟨hquiet.seqReset q', ?_, ?_⟩
  all_goals
    unfold Machine.seqReset resetCore seqHold requestRelease
    split
  · exact (hfollow _).1
  · split <;> exact (hfollow _).1
  · exact (hfollow _).2
  · split <;> exact (hfollow _).2

/-- A new run of the fail engine keeps the sequencers, and the state of the partition. -/
theorem StartKeeps.feNewRun {n q : Nat} {s t : State} (h : StartKeeps n q s t) (hn : n < 12) : StartKeeps n q s (feNewRun n t) := by
  have hf := (Quiet.refl false t).feNewRun n
  refine ⟨h.quiet.trans hf.loosen, ?_, ?_⟩
  · unfold State.getSeq
    rw [hf.seqs rfl]
    exact h.seq
  · refine (hf.fields _ (show 30 < 64 by decide) (not_off_of_lt ?_) fun h => absurd h Bool.false_ne_true).trans h.state
    simp only [GLB_PART_CFG.STATE, GLB_PART_CFG]; omega

theorem primary_lt {n q : Nat} {s : State} (h : s.primary n = some q) : q < 32 := by
  unfold State.primary at h
  split at h
  · rw [← Option.some.inj h]
    exact f_lt s (GLB_PART_SEQ.PRIMARY n)
  · cases h

/-- The primary of a STOPPED partition runs, and the partition with it (R26). -/
theorem seqRun_starts {n q : Nat} {s t : State} (h : StartKeeps n q s t) (hn : n < 12) (hs : s.f (GLB_PART_CFG.STATE n) = stSTOPPED) (hp : s.primary n = some q)
    (hpo : s.primaryOf q = some n) (hpart : (s.seqPart q).isSome) (hst : (s.getSeq q).st = 1) :
    (seqRun q true t).f (SEQ_CTL.RUN q) = 1 ∧ ((seqRun q true t).getSeq q).st = 2 ∧ (seqRun q true t).f (GLB_PART_CFG.STATE n) = stRUNNING := by
  obtain ⟨hquiet, hseq, hstate⟩ := h
  have hq := primary_lt hp
  generalize hu : (t.setF (SEQ_CTL.RUN q) 1).setSeq q { t.getSeq q with st := 2 } = u
  have hrun : seqRun q true t = partFollows q u := by
    have hnone : (t.seqPart q).isNone = false := by
      rw [hquiet.seqPart]
      simpa using hpart
    unfold seqRun
    simp only [hnone, hseq, hst, Bool.false_eq_true, Nat.reduceEqDiff, or_self, if_false, if_true]
    rw [← hu, hseq]
  have hqu : Quiet true s u := by
    rw [← hu]
    exact (hquiet.setF 1 (.seqCtl q)).setSeq ..
  have hust : (u.getSeq q).st = 2 := by
    rw [← hu, State.getSeq_setSeq, if_pos rfl]
  have hurun : u.f (SEQ_CTL.RUN q) = 1 := by
    rw [← hu, State.f_setSeq]
    exact f_setF_fits _ rfl (show 1 < 2 by decide)
  have hustate : u.f (GLB_PART_CFG.STATE n) = stSTOPPED := by
    rw [← hu, State.f_setSeq, State.f_setF_other _ _ _ _ (by simp only [GLB_PART_CFG.STATE, GLB_PART_CFG, SEQ_CTL.RUN, SEQ_CTL]; omega), hstate, hs]
  obtain ⟨hseqs, hf⟩ := partFollows_keeps q u
  rw [hrun]
  refine ⟨?_, ?_, partFollows_starts (by rw [hqu.primaryOf, hpo]) hustate hust⟩
  · rw [hf _ (show 31 < 64 by decide) (by simp only [SEQ_CTL.RUN, SEQ_CTL]; omega) fun p hp' => .of_key ?_, hurun]
    have := primaryOf_lt hp'
    simp only [SEQ_CTL.RUN, SEQ_CTL, GLB_PART_CFG.STATE, GLB_PART_CFG]; omega
  · unfold State.getSeq
    rw [hseqs]
    exact hust

/-- A partition that is started (R26, R255): its primary runs, and it is RUNNING. -/
theorem startPart_runs {n q : Nat} {s : State} (newrun : Bool) (hn : n < 12) (hs : s.f (GLB_PART_CFG.STATE n) = stSTOPPED) (hp : s.primary n = some q)
    (hpo : s.primaryOf q = some n) (hpart : (s.seqPart q).isSome) (hst : (s.getSeq q).st = 1) :
    (startPart n newrun s).f (SEQ_CTL.RUN q) = 1 ∧ ((startPart n newrun s).getSeq q).st = 2 ∧ (startPart n newrun s).f (GLB_PART_CFG.STATE n) = stRUNNING := by
  unfold startPart
  extract_lets s1 s2
  have h1 : StartKeeps n q s s1 := by
    refine List.foldlRecOn _ _ (StartKeeps.refl n q s) fun t ht q' _ => ?_
    split
    next hc => exact ht.seqReset hn hp fun e => by rw [e, ht.seq, hst] at hc; exact absurd hc (by decide)
    next => exact ht
  have h2 : StartKeeps n q s s2 := by
    unfold s2
    split
    · exact h1.feNewRun hn
    · exact h1
  clear_value s2
  rw [h2.quiet.primary, hp]
  exact seqRun_starts h2 hn hs hp hpo hpart hst

/-! ### STOP_PARTITION -/

/-- A sequencer after a request to stop (R256). -/
def seqStopped (x : Seq) : Seq :=
  if x.st = 3 ∨ x.st = 5 ∨ (x.st = 2 ∧ x.rptc = 0) then { x with st := 1, wait := none, mcheck := none }
  else if x.st = 2 then { x with mcheck := some 1 }
  else x

/-- A sequencer that a request to stop finds at a safe point, or that runs no program. -/
def stopsAtOnce (x : Seq) : Prop := if x.st = 2 then x.rptc = 0 else x.st = 3 ∨ x.st = 5 ∨ x.mcheck ≠ some 1

theorem seqStopped_of_stopsAtOnce {x : Seq} (h : stopsAtOnce x) : (seqStopped x).st = (if x.st ∈ [2, 3, 5] then 1 else x.st) ∧ (seqStopped x).mcheck ≠ some 1 := by
  unfold stopsAtOnce at h
  unfold seqStopped
  by_cases h2 : x.st = 2
  · rw [if_pos h2] at h
    simp [h2, h]
  · rw [if_neg h2] at h
    by_cases h35 : x.st = 3 ∨ x.st = 5
    · rcases h35 with h3 | h5
      · simp [h3]
      · simp [h5]
    · have h3 : x.st ≠ 3 := fun e => h35 (.inl e)
      have h5 : x.st ≠ 5 := fun e => h35 (.inr e)
      simp [h2, h3, h5] at h ⊢
      exact h

/-- The states between which STOP_PARTITION moves a partition. -/
def StopState (n : Nat) (s : State) : Prop := s.f (GLB_PART_CFG.STATE n) = stSTOPPED ∨ s.f (GLB_PART_CFG.STATE n) = stRUNNING

theorem partFollows_stopState {n q : Nat} {s : State} (hn : n < 12) (h : StopState n s) : StopState n (partFollows q s) := by
  unfold partFollows
  split
  · exact h
  next p hp =>
    have hset (v : Nat) (hv : v = stSTOPPED ∨ v = stRUNNING) : StopState n (s.setF (GLB_PART_CFG.STATE p) v) := by
      unfold StopState
      by_cases hpn : n = p
      · rw [← hpn]
        rcases hv with rfl | rfl
        · exact .inl (f_setF_fits _ rfl (show 2 < 8 by decide))
        · exact .inr (f_setF_fits _ rfl (show 3 < 8 by decide))
      · rw [State.f_setF_other _ _ _ _ (by simp only [GLB_PART_CFG.STATE, GLB_PART_CFG]; omega)]
        exact h
    dsimp only
    split
    · unfold StopState
      rw [(laneResyncs_keep _ _).2 _ (by simp only [GLB_PART_CFG.STATE, GLB_PART_CFG]; omega)]
      exact hset _ (.inr rfl)
    · split
      · exact hset _ (.inl rfl)
      · exact h

/-- A request to stop: what it does to each sequencer, and what it leaves. -/
theorem seqStop_does {q : Nat} (s : State) (hq : q < 24) : (∀ q', (seqStop q s).getSeq q' = if q' = q then seqStopped (s.getSeq q) else s.getSeq q') ∧
    (seqStop q s).f (SEQ_CTL.RUN q) = 0 ∧
    (∀ y : RF, y.hi < 64 → y.key < 0xE0_0000 → y.key ≠ SEQ_CTL q → (∀ p, p < 12 → Apart (GLB_PART_CFG.STATE p) y) → (seqStop q s).f y = s.f y) ∧
    ∀ n, n < 12 → StopState n s → StopState n (seqStop q s) := by
  unfold seqStop
  extract_lets u x
  have hrun : u.f (SEQ_CTL.RUN q) = 0 := f_setF_fits _ rfl (show 0 < 2 by decide)
  have hother {y : RF} (hk : y.key ≠ SEQ_CTL q) : u.f y = s.f y := State.f_setF_other _ _ _ _ hk
  have hstate {n : Nat} (hn : n < 12) (h : StopState n s) : StopState n u := by
    unfold StopState
    rw [hother (by simp only [GLB_PART_CFG.STATE, GLB_PART_CFG, SEQ_CTL]; omega)]
    exact h
  have hget (x : Seq) (q' : Nat) : (u.setSeq q x).getSeq q' = if q' = q then x else s.getSeq q' := State.getSeq_setSeq ..
  have hsame (q' : Nat) : u.getSeq q' = s.getSeq q' := rfl
  have hx : x = s.getSeq q := rfl
  clear_value u x
  subst hx
  unfold seqStopped
  split
  · generalize { s.getSeq q with st := 1, wait := none, mcheck := none } = x
    obtain ⟨hseqs, hf⟩ := partFollows_keeps q (u.setSeq q x)
    refine ⟨fun q' => ?_, ?_, fun y hy hk hne ha => ?_, fun n hn h => partFollows_stopState hn (hstate hn h)⟩
    · rw [← hget]
      unfold State.getSeq
      rw [hseqs]
    · refine (hf _ (show 31 < 64 by decide) (by simp only [SEQ_CTL.RUN, SEQ_CTL]; omega) fun p hp => .of_key ?_).trans hrun
      have := primaryOf_lt hp
      simp only [SEQ_CTL.RUN, SEQ_CTL, GLB_PART_CFG.STATE, GLB_PART_CFG]; omega
    · exact (hf y hy hk fun p hp => ha p (primaryOf_lt hp)).trans (hother hne)
  · split
    · exact ⟨fun q' => hget _ q', hrun, fun y _ _ hne _ => hother hne, fun n hn h => hstate hn h⟩
    · refine ⟨fun q' => ?_, hrun, fun y _ _ hne _ => hother hne, fun n hn h => hstate hn h⟩
      rw [hsame]
      split
      next e => rw [e]
      next => rfl

/-- Requests to stop, to different sequencers. -/
theorem seqStops_do {qs : List Nat} (s : State) (hqs : ∀ q ∈ qs, q < 24) (hnd : qs.Nodup) :
    (∀ q, (qs.foldl (fun s q => seqStop q s) s).getSeq q = if q ∈ qs then seqStopped (s.getSeq q) else s.getSeq q) ∧
    (∀ q ∈ qs, (qs.foldl (fun s q => seqStop q s) s).f (SEQ_CTL.RUN q) = 0) ∧
    (∀ y : RF, y.hi < 64 → y.key < 0xE0_0000 → (∀ q ∈ qs, y.key ≠ SEQ_CTL q) → (∀ p, p < 12 → Apart (GLB_PART_CFG.STATE p) y) →
      (qs.foldl (fun s q => seqStop q s) s).f y = s.f y) ∧
    ∀ n, n < 12 → StopState n s → StopState n (qs.foldl (fun s q => seqStop q s) s) := by
  induction qs generalizing s with
  | nil => exact ⟨fun q => by rw [if_neg List.not_mem_nil]; rfl, fun q h => absurd h List.not_mem_nil, fun _ _ _ _ _ => rfl, fun _ _ h => h⟩
  | cons q qs ih =>
    obtain ⟨hq, hnd⟩ := List.nodup_cons.1 hnd
    have hlt := hqs q List.mem_cons_self
    obtain ⟨hseq1, hrun1, hf1, hst1⟩ := seqStop_does s hlt
    obtain ⟨hseq, hrun, hf, hst⟩ := ih (seqStop q s) (fun x hx => hqs x (List.mem_cons_of_mem _ hx)) hnd
    rw [List.foldl_cons]
    refine ⟨fun q' => ?_, fun q' hq' => ?_, fun y hy hk hne ha => ?_, fun n hn h => hst n hn (hst1 n hn h)⟩
    · rw [hseq, hseq1]
      by_cases he : q' = q
      · rw [he, if_neg hq, if_pos rfl, if_pos List.mem_cons_self]
      · simp [he]
    · rcases List.mem_cons.1 hq' with rfl | hmem
      · refine (hf _ (show 31 < 64 by decide) (by simp only [SEQ_CTL.RUN, SEQ_CTL]; omega) (fun x hx => ?_) fun p hp => .of_key ?_).trans hrun1
        · have hne : x ≠ q' := fun e => hq (e ▸ hx)
          simp only [SEQ_CTL.RUN, SEQ_CTL]; omega
        · simp only [SEQ_CTL.RUN, SEQ_CTL, GLB_PART_CFG.STATE, GLB_PART_CFG]; omega
      · exact hrun q' hmem
    · exact (hf y hy hk (fun x hx => hne x (List.mem_cons_of_mem _ hx)) ha).trans (hf1 y hy hk (hne q List.mem_cons_self) ha)

theorem stopBursts_keeps (n : Nat) (s : State) : (stopBursts n s).seqs = s.seqs ∧ (stopBursts n s).regs = s.regs := by
  unfold stopBursts
  refine List.foldlRecOn (motive := fun t : State => t.seqs = s.seqs ∧ t.regs = s.regs) _ _ ⟨rfl, rfl⟩ fun t ht l _ => ?_
  unfold burstStop
  split <;> exact ht

/-- The requests to stop of a partition whose sequencers all stop at once: what becomes of each, and that all then stand at a safe point. -/
theorem stopRequest_stops {n : Nat} {s : State} (hn : n < 12) (hs : StopState n s) (hq : ∀ q ∈ s.seqsOf n, stopsAtOnce (s.getSeq q)) :
    (∀ q ∈ s.seqsOf n, (stopRequest n s).f (SEQ_CTL.RUN q) = 0 ∧ (stopRequest n s).getSeq q = seqStopped (s.getSeq q)) ∧
    (stopRequest n s).seqsOf n = s.seqsOf n ∧ StopState n (stopRequest n s) ∧ (stopRequest n s).allSafe n = true := by
  have hlt : ∀ q ∈ s.seqsOf n, q < 24 := fun q h => List.mem_range.1 (List.mem_filter.1 h).1
  obtain ⟨hseq, hrun, hf, hst⟩ := seqStops_do s hlt (List.nodup_range.filter _)
  obtain ⟨hseqs, hregs⟩ := stopBursts_keeps n ((s.seqsOf n).foldl (fun s q => seqStop q s) s)
  generalize hv : stopRequest n s = v
  replace hv : stopBursts n ((s.seqsOf n).foldl (fun s q => seqStop q s) s) = v := hv
  rw [hv] at hseqs hregs
  have hvf (y : RF) : v.f y = ((s.seqsOf n).foldl (fun s q => seqStop q s) s).f y := State.f_congr hregs y
  have hvget : ∀ q ∈ s.seqsOf n, v.getSeq q = seqStopped (s.getSeq q) := fun q hqs => by
    have h := hseq q
    rw [if_pos hqs] at h
    rw [← h]
    unfold State.getSeq
    rw [hseqs]
  have hmask : v.seqsOf n = s.seqsOf n := by
    unfold State.seqsOf
    rw [hvf, hf _ (show 23 < 64 by decide) (by simp only [GLB_PART_SEQ.MASK, GLB_PART_SEQ]; omega)
      (fun q _ => by simp only [GLB_PART_SEQ.MASK, GLB_PART_SEQ, SEQ_CTL]; omega)
      fun p hp => .of_key (by simp only [GLB_PART_SEQ.MASK, GLB_PART_SEQ, GLB_PART_CFG.STATE, GLB_PART_CFG]; omega)]
  have hstate : StopState n v := by
    have h := hst n hn hs
    unfold StopState at h ⊢
    rwa [hvf]
  refine ⟨fun q hqs => ⟨(hvf _).trans (hrun q hqs), hvget q hqs⟩, hmask, hstate, ?_⟩
  unfold State.allSafe
  rw [hmask, List.all_eq_true]
  intro q hqs
  rw [hvget q hqs, (seqStopped_of_stopsAtOnce (hq q hqs)).1]
  by_cases hm : (s.getSeq q).st ∈ [2, 3, 5]
  · rw [if_pos hm]; rfl
  · rw [if_neg hm]
    simp at hm
    simp [hm]

/-- A partition whose sequencers all stand at a safe point is seen to be STOPPED; nothing else changes. -/
theorem stopSeen_stops {n : Nat} {s : State} (hs : StopState n s) (hsafe : s.allSafe n = true) :
    (stopSeen n s).f (GLB_PART_CFG.STATE n) = stSTOPPED ∧ (stopSeen n s).seqs = s.seqs ∧ ∀ y : RF, y.key ≠ GLB_PART_CFG n → (stopSeen n s).f y = s.f y := by
  unfold stopSeen
  simp only [hsafe, and_true]
  rcases hs with h | h
  · rw [if_neg (by rw [h]; decide)]
    exact ⟨h, rfl, fun _ _ => rfl⟩
  · rw [if_pos h]
    exact ⟨f_setF_fits _ rfl (show 2 < 8 by decide), rfl, fun y hy => State.f_setF_other _ _ _ _ hy⟩

/-- A partition all of whose sequencers stop at once is STOPPED (R256). -/
theorem stopPart_stops {n : Nat} {s : State} (hn : n < 12) (hs : StopState n s) (hq : ∀ q ∈ s.seqsOf n, stopsAtOnce (s.getSeq q)) :
    (stopPart n s).f (GLB_PART_CFG.STATE n) = stSTOPPED ∧ (stopPart n s).seqsOf n = s.seqsOf n ∧
    ∀ q ∈ s.seqsOf n, (stopPart n s).f (SEQ_CTL.RUN q) = 0 ∧ (stopPart n s).getSeq q = seqStopped (s.getSeq q) := by
  obtain ⟨hstop, hmask, hstate, hsafe⟩ := stopRequest_stops hn hs hq
  obtain ⟨hseen, hseqs, hf⟩ := stopSeen_stops hstate hsafe
  refine ⟨hseen, ?_, fun q hqs => ⟨?_, ?_⟩⟩
  · rw [← hmask]
    exact congrArg (onesOf 24) (hf (GLB_PART_SEQ.MASK n) (by simp only [GLB_PART_SEQ.MASK, GLB_PART_SEQ, GLB_PART_CFG]; omega))
  · exact (hf _ (by simp only [SEQ_CTL.RUN, SEQ_CTL, GLB_PART_CFG]; omega)).trans (hstop q hqs).1
  · rw [← (hstop q hqs).2]
    exact congrArg (Map.getD · q _) hseqs

end Sys2Proof.Proofs
end

