-- ==== Sys2Proof/Proofs/Load.lean ====
section
/-!
PROOFS. Proofs/Load.lean: how LOAD_PARTITION starts a load (R25, R280, R401).
-/
namespace Sys2Proof.Proofs
open Sys2Proof.Machine Sys2Proof.Safety

/-! ### Jobs that firmware marks -/

theorem jobNote_job {k n : Nat} {j : Job} {s : State} (h : s.jobs[k]? = some j) : (jobNote k n s).jobs[k]? = some { j with started := true, note := n } := by
  show (s.jobs.zipIdx.map _)[k]? = _
  simp [h]

theorem jobSets_job {k : Nat} {j : Job} {s : State} (fs : List RF) (h : s.jobs[k]? = some j) : ∃ sets, (jobSets k fs s).jobs[k]? = some { j with sets := sets } := by
  unfold jobSets
  simp only [List.getElem?_map, List.getElem?_zipIdx, h, Option.map_some, Nat.zero_add, if_true]
  exact ⟨_, rfl⟩

/-- A job that firmware has begun, as the statements ask for it. -/
theorem started_of_jobNote {k n : Nat} {j : Job} {fs : List RF} {s t : State} (h : s.jobs[k]? = some j) (ht : t.jobs = (jobSets k fs s).jobs) :
    ∃ j', (jobNote k n t).jobs[k]? = some j' ∧ j'.started = true ∧ j'.d = j.d ∧ j'.fn = j.fn := by
  obtain ⟨sets, hs⟩ := jobSets_job fs h
  rw [← ht] at hs
  exact ⟨_, jobNote_job hs, rfl, rfl, rfl⟩

/-! ### The configuration controller -/

theorem requestWake_of_active {p : Nat} {s : State} (he : Map.find s.sys.entering p = none) (hc : s.f (PWR_PART.CUR p) = 0) : requestWake p s = s := by
  unfold requestWake
  rw [if_neg (by simp [he]), if_pos (.inl hc)]

/-- The registers of a load that begins: busy, in its header phase, with no progress. -/
def loadBegun (s : State) : State := ((s.setF CFG_STAT.BUSY 1).setF CFG_STAT.PHASE 1).wr CFG_PROG 0

theorem f_loadBegun {s : State} {y : RF} (h1 : y.key ≠ CFG_STAT) (h2 : y.key ≠ CFG_PROG) : (loadBegun s).f y = s.f y := by
  unfold loadBegun
  rw [f_wr_ne _ _ h2, State.f_setF_other _ _ _ _ h1, State.f_setF_other _ _ _ _ h1]

/-- A load that begins keeps every other field. -/
theorem fieldsBut_loadBegun {fs : List RF} {s t : State} (h : FieldsBut (CFG_STAT.BUSY :: CFG_STAT.PHASE :: whole CFG_PROG :: fs) s t) :
    FieldsBut (CFG_STAT.BUSY :: CFG_STAT.PHASE :: whole CFG_PROG :: fs) s (loadBegun t) := by
  have hstat := (h.setF (x := CFG_STAT.BUSY) 1 rfl (by simp)).setF (x := CFG_STAT.PHASE) 1 rfl (by simp)
  exact hstat.wr (k := CFG_PROG) 0 (by simp)

/-- A load of a partition at its active rung begins (R378). -/
theorem loadGo_of_active {src mode n : Nat} {s : State} (hb : s.f CFG_STAT.BUSY = 0) (hsrc : src = 0 ∨ src = 4) (hmode : mode < 3) (he : Map.find s.sys.entering n = none)
    (hc : s.f (PWR_PART.CUR n) = 0) : loadGo src mode n s =
      (loadBegun s).onCfg (fun c => { c.clear with src := src, mode := if src = 4 then 0 else mode, part := n, golden := false, boot := 0 }) := by
  have hbusy : s.on CFG_STAT.BUSY = false := (on_eq_false_iff s _).2 hb
  have hwake (m : Nat) : (if m < 2 ∧ n < 12 then requestWake n (loadBegun s) else loadBegun s) = loadBegun s := by
    split
    next hn =>
      refine requestWake_of_active he ((f_loadBegun ?_ ?_).trans hc)
      · simp only [PWR_PART.CUR, PWR_PART, CFG_STAT]; omega
      · simp only [PWR_PART.CUR, PWR_PART, CFG_PROG]; omega
    next => rfl
  have h3 : mode ≠ 3 := by omega
  unfold loadGo cfgBegin
  rw [hbusy, if_neg Bool.false_ne_true]
  rcases hsrc with rfl | rfl
  · simp only [h3, or_self, if_false, Nat.reduceLeDiff, OfNat.zero_ne_ofNat, zero_ne_one]
    exact congrArg (State.onCfg · _) (hwake mode)
  · simp only [true_or, if_true, if_false, Nat.reduceLeDiff, Nat.reduceEqDiff]
    exact congrArg (State.onCfg · _) (hwake 0)

/-! ### LOAD_PARTITION -/

/-- The translation of a partition, as the command writes it. -/
def loadTranslated (k : Nat) (d : Desc) (s : State) : State :=
  jobSets k [MMU_PART.PTBASE d.part.toNat, MMU_PART.ASID d.part.toNat] (fieldWrite (MMU_PART d.part.toNat) d.p5 s)

section
variable {k : Nat} {f : Fin 13} {d : Desc} {j : Job} {s : State}

/-- A command of one partition that firmware executes finds the partition at its active rung, or does not wake it. -/
theorem active_of_executes {code : Nat} (h : Executes code f d k j s) (h0 : code ≠ 0) (h12 : code < 0x12) (h6 : code ≠ 0x06) (hn : codeNoPart code = false)
    (hm : codeModule code = false) : s.f (PWR_PART.CUR d.part.toNat) = 0 := by
  obtain ⟨-, -, hd⟩ := jobOf_eq_some h.job
  have hperm : s.notPermitted j.fn j.d = false := by
    by_contra hc
    have he := h.early
    unfold State.early at he
    rw [Bool.not_eq_false] at hc
    simp [hc] at he
  have hkind : s.jobKind j = 1 := by
    unfold State.jobKind
    simp only [hd, h.named, hn, hm, Bool.false_eq_true, if_false]
    rw [hd] at hperm
    simp only [hperm, Bool.false_eq_true, or_false]
    rw [if_neg (by omega)]
  rcases h.awake with ha | ha | ha
  · exact absurd ha h6
  · exact absurd hkind ha
  · exact ha

/-- LOAD_PARTITION of an enabled partition without fail-engine block, channels and leaves. -/
theorem exec_loadPartition (h : Executes 0x02 f d k j s) (hp : loadParamsOk (d.p0.toNat / 2 ^ 32 % 4) d = true) (h3 : d.p3 = 0) (h4 : d.p4 = 0) (h6 : d.p6 = 0)
    (hsvc : s.f RST_STAT.SVC = 2) (hb : s.f CFG_STAT.BUSY = 0) (hen : s.enabled d.part.toNat = true)
    (hst : ¬ (d.p0.toNat / 2 ^ 32 % 4 = 0 ∧ s.f (GLB_PART_CFG.STATE d.part.toNat) = stRUNNING)) :
    exec (.loadPartition f d true) s = .next (jobNote k 1 (loadStream (d.p0.toNat / 2 ^ 32 % 4) d.part.toNat d (loadTranslated k d s))) := by
  obtain ⟨-, -, hd⟩ := jobOf_eq_some h.job
  refine congrArg Host.Outcome.next ((firmware_of_executes h).trans ?_)
  have hmode : bitsOf d.p0.toNat 33 32 = d.p0.toNat / 2 ^ 32 % 4 := rfl
  have hbusy : s.on CFG_STAT.BUSY = false := (on_eq_false_iff s _).2 hb
  have hones : onesOf 64 (0 : Word).toNat = [] := by decide
  unfold loadPartition loadFirst
  simp only [h.fresh, hd, hmode, hp, hsvc, hbusy, hen, hst, Bool.not_false, Bool.not_true, Bool.false_eq_true, Bool.false_and, ne_eq, not_true_eq_false, false_and, if_true, if_false]
  unfold loadSetup loadChannels loadLeaves
  simp only [hd, h3, h4, h6, hones, if_true, List.filter_nil, List.flatMap_nil, List.foldl_nil, List.nil_append]
  rfl

end

/-- The controller as LOAD_PARTITION starts it, with the image as its feed. -/
def Streams (mode n : Nat) (d : Desc) (s : State) (c : Cfg) : Prop :=
  c.part = n ∧ c.src = (if mode = 2 then 4 else 0) ∧ c.mode = (if mode = 2 then 0 else mode) ∧ c.feed = (if mode = 2 then [] else (s.hostSound d.p1.toNat d.p2.toNat).1) ∧
    c.feedBad = (decide (mode ≠ 2) && (s.hostSound d.p1.toNat d.p2.toNat).2)

theorem loadStream_of_active {mode n : Nat} {d : Desc} {s : State} (hb : s.f CFG_STAT.BUSY = 0) (hmode : mode < 3) (he : Map.find s.sys.entering n = none)
    (hc : s.f (PWR_PART.CUR n) = 0) : ∃ c, loadStream mode n d s = { loadBegun s with cfg := c } ∧ Streams mode n d s c := by
  unfold loadStream Streams
  by_cases h2 : mode = 2
  · subst h2
    rw [if_pos rfl, loadGo_of_active hb (.inr rfl) (by decide) he hc]
    exact ⟨_, rfl, rfl, rfl, rfl, rfl, rfl⟩
  · simp only [h2, if_false]
    rw [loadGo_of_active hb (.inl rfl) hmode he hc]
    exact ⟨_, rfl, rfl, rfl, rfl, rfl, by simp [h2]⟩

/-- The translation, as fields: `PTBASE` and `ASID`, and nothing else but the job. -/
theorem loadTranslated_parts {n : Fin 12} {d : Desc} (k : Nat) (s : State) (hn : d.part.toNat = n.val) : ∃ u : State,
    loadTranslated k d s = jobSets k [MMU_PART.PTBASE n, MMU_PART.ASID n] u ∧ u.f (MMU_PART.PTBASE n) = (d.p5.extractLsb' 12 40).toNat ∧
      u.f (MMU_PART.ASID n) = (d.p5.extractLsb' 0 12).toNat ∧ OnlyFields [MMU_PART.PTBASE n, MMU_PART.ASID n] s u := by
  refine ⟨fieldWrite (MMU_PART n) d.p5 s, ?_, fieldWrite_mmuPart_fields n d.p5 s⟩
  unfold loadTranslated
  rw [hn]

theorem loadBegun_busy (s : State) : (loadBegun s).f CFG_STAT.BUSY = 1 ∧ (loadBegun s).f CFG_STAT.PHASE = 1 := by
  unfold loadBegun
  constructor
  · rw [f_wr_ne _ _ (by decide), f_setF_ne _ _ rfl (by decide) (.inr (by decide)), f_setF_fits _ rfl (by decide)]
  · rw [f_wr_ne _ _ (by decide), f_setF_fits _ rfl (by decide)]

/-- LOAD_PARTITION starts the load: the job goes on, the controller streams the image, and only the translation and the controller's registers change. -/
theorem exec_loadPartition_begins {k : Nat} {f : Fin 13} {n : Fin 12} {d : Desc} {j : Job} {s : State} (h : Executes 0x02 f d k j s) (hn : d.part.toNat = n.val)
    (hp : loadParamsOk (d.p0.toNat / 2 ^ 32 % 4) d = true) (h3 : d.p3 = 0) (h4 : d.p4 = 0) (h6 : d.p6 = 0) (hsvc : s.f RST_STAT.SVC = 2) (hb : s.f CFG_STAT.BUSY = 0)
    (hen : s.enabled n = true) (he : Map.find s.sys.entering n = none) (hst : ¬ (d.p0.toNat / 2 ^ 32 % 4 = 0 ∧ s.f (GLB_PART_CFG.STATE n) = stRUNNING)) :
    ∃ t, exec (.loadPartition f d true) s = .next t ∧ (∃ j', t.jobs[k]? = some j' ∧ j'.started = true ∧ j'.d = d ∧ j'.fn = f.val) ∧
      t.f CFG_STAT.BUSY = 1 ∧ t.f CFG_STAT.PHASE = 1 ∧ Streams (d.p0.toNat / 2 ^ 32 % 4) n d s t.cfg ∧
      t.f (MMU_PART.PTBASE n) = (d.p5.extractLsb' 12 40).toNat ∧ t.f (MMU_PART.ASID n) = (d.p5.extractLsb' 0 12).toNat ∧
      FieldsBut [CFG_STAT.BUSY, CFG_STAT.PHASE, whole CFG_PROG, MMU_PART.PTBASE n, MMU_PART.ASID n] s t ∧ t = { s with regs := t.regs, jobs := t.jobs, cfg := t.cfg } := by
  obtain ⟨hj, hfn, hd⟩ := jobOf_eq_some h.job
  have hcur := active_of_executes h (by decide) (by decide) (by decide) rfl rfl
  have hmode : d.p0.toNat / 2 ^ 32 % 4 < 3 := by
    simp only [loadParamsOk, Bool.and_eq_true, decide_eq_true_eq] at hp
    exact hp.1.1.1
  rw [exec_loadPartition h hp h3 h4 h6 hsvc hb (by rwa [hn]) (by rwa [hn])]
  rw [hn] at hcur ⊢
  generalize d.p0.toNat / 2 ^ 32 % 4 = mode at hmode ⊢
  obtain ⟨u, hu, hptbase, hasid, honly, hbut⟩ := loadTranslated_parts k s hn
  have huf {y : RF} (hy : y.hi < 64) (hk : y.key ≠ MMU_PART n) : u.f y = s.f y := hbut y hy fun x hx => .of_key (by
    rcases List.mem_pair.1 hx with rfl | rfl <;> exact hk)
  obtain ⟨regs, rfl⟩ : ∃ regs, u = { s with regs := regs } := ⟨_, honly⟩
  rw [hu]
  generalize hfs : [MMU_PART.PTBASE n, MMU_PART.ASID n] = fs
  have hvf (y : RF) : (jobSets k fs { s with regs := regs }).f y = State.f { s with regs := regs } y := State.f_congr rfl y
  have hmmu {y : RF} (hy : y.key = MMU_PART n) : (loadBegun (jobSets k fs { s with regs := regs })).f y = State.f { s with regs := regs } y := by
    refine (f_loadBegun ?_ ?_).trans (hvf y)
    · rw [hy]; simp only [MMU_PART, CFG_STAT]; omega
    · rw [hy]; simp only [MMU_PART, CFG_PROG]; omega
  have hvb : (jobSets k fs { s with regs := regs }).f CFG_STAT.BUSY = 0 :=
    (hvf _).trans ((huf (by decide) (by simp only [CFG_STAT.BUSY, CFG_STAT, MMU_PART]; omega)).trans hb)
  have hvc : (jobSets k fs { s with regs := regs }).f (PWR_PART.CUR n) = 0 :=
    (hvf _).trans ((huf (show 29 < 64 by decide) (by simp only [PWR_PART.CUR, PWR_PART, MMU_PART]; omega)).trans hcur)
  obtain ⟨c, hc, hstreams⟩ := loadStream_of_active (d := d) hvb hmode he hvc
  obtain ⟨j', hj', hs', hd', hf'⟩ := started_of_jobNote (s := { s with regs := regs }) (n := 1) (fs := fs) hj
    (t := { loadBegun (jobSets k fs { s with regs := regs }) with cfg := c }) rfl
  obtain ⟨hbusy, hphase⟩ := loadBegun_busy (jobSets k fs { s with regs := regs })
  rw [hc]
  refine ⟨_, rfl, ⟨j', hj', hs', hd'.trans hd, hf'.trans hfn⟩, hbusy, hphase, hstreams, (hmmu rfl).trans hptbase, (hmmu rfl).trans hasid, ?_, rfl⟩
  have hjobs : FieldsBut (CFG_STAT.BUSY :: CFG_STAT.PHASE :: whole CFG_PROG :: fs) s (jobSets k fs { s with regs := regs }) :=
    FieldsBut.trans ((hfs ▸ hbut).mono fun x hx => by simp [hx]) (.of_regs rfl)
  exact (fieldsBut_loadBegun hjobs).trans (.of_regs rfl)

end Sys2Proof.Proofs
end

