-- ==== Sys2Proof/Proofs/Power.lean ====
section
/-!
PROOFS. Proofs/Power.lean: how SET_POWER asks for a rung (R443 to R447).
-/
namespace Sys2Proof.Proofs
open Sys2Proof.Machine Sys2Proof.Safety

/-- The request of a rung, noted before anything follows from it. -/
def rungAsked (n r : Nat) (s : State) : State := (s.setF (PWR_PART.RUNG n) r).setF (PWR_PART.ERR n) 0

theorem f_rungAsked {n r : Nat} (s : State) (hr : r < 4) : (rungAsked n r s).f (PWR_PART.RUNG n) = r ∧ (rungAsked n r s).f (PWR_PART.CUR n) = s.f (PWR_PART.CUR n) ∧
    (rungAsked n r s).f (PWR_PART.BUSY n) = s.f (PWR_PART.BUSY n) ∧ (rungAsked n r s).f (PWR_PART.ERR n) = 0 := by
  unfold rungAsked
  refine ⟨?_, ?_, ?_, f_setF_fits _ rfl (show 0 < 8 by decide)⟩
  · rw [f_setF_ne _ _ rfl (show 31 < 64 by decide) (.inr (.inl (show 26 < 30 by decide)))]
    exact f_setF_fits _ rfl hr
  · rw [f_setF_ne _ _ rfl (show 29 < 64 by decide) (.inr (.inl (show 26 < 28 by decide))), f_setF_ne _ _ rfl (show 29 < 64 by decide) (.inr (.inr (show 29 < 30 by decide)))]
  · rw [f_setF_ne _ _ rfl (show 27 < 64 by decide) (.inr (.inl (show 26 < 27 by decide))), f_setF_ne _ _ rfl (show 27 < 64 by decide) (.inr (.inr (show 27 < 30 by decide)))]

theorem rungRequest_accepted {n r : Nat} {s : State} (he : s.enabled n = true) (hr : r ≠ 0 → s.rungRefused n = 0) (hb : s.f (PWR_PART.BUSY n) = 0) (h4 : r < 4) :
    rungRequest n r s = rungGo n r (rungAsked n r s) := by
  have hask : (if r = 0 then 0 else s.rungRefused n) = 0 := by
    split
    · rfl
    next h => exact hr h
  have hbusy : (rungAsked n r s).on (PWR_PART.BUSY n) = false := (on_eq_false_iff _ _).2 ((f_rungAsked s h4).2.2.1.trans hb)
  unfold rungRequest
  rw [he, hask, if_neg (by decide)]
  dsimp only
  exact if_neg (ne_true_of_eq_false hbusy)

theorem rungRequest_refused {n r : Nat} {s : State} (he : s.enabled n = true) (hr : r ≠ 0) (h1 : s.rungRefused n = 1) :
    rungRequest n r s = s.setF (PWR_PART.ERR n) 1 := by
  unfold rungRequest
  rw [he, if_neg hr, h1]
  rfl

/-! ### Sequencers that stop at a boundary -/

/-- A sequencer of a partition whose power is to go. -/
def seqDozed (x : Seq) : Seq := if (x.st = 2 ∧ x.rptc = 0) ∨ x.st = 3 then { x with before := x.st, st := 5 } else x

theorem seqDozed_st (x : Seq) : (seqDozed x).st = if (x.st = 2 ∧ x.rptc = 0) ∨ x.st = 3 then 5 else x.st := by
  unfold seqDozed
  split <;> rfl

theorem getSeq_seqDoze (q q' : Nat) (s : State) : (seqDoze q s).getSeq q' = if q' = q then seqDozed (s.getSeq q) else s.getSeq q' := by
  unfold seqDoze seqDozed
  dsimp only
  split
  · rw [State.getSeq_setSeq]
  · split
    next e => rw [e]
    next => rfl

theorem seqDozes_parts (qs : List Nat) (s : State) : ∃ xs, qs.foldl (fun s q => seqDoze q s) s = { s with seqs := xs } := by
  refine List.foldlRecOn (motive := fun t : State => ∃ xs, t = { s with seqs := xs }) _ _ ⟨_, rfl⟩ fun t ht q _ => ?_
  obtain ⟨xs, rfl⟩ := ht
  unfold seqDoze
  dsimp only
  split <;> exact ⟨_, rfl⟩

theorem getSeq_seqDozes {qs : List Nat} (s : State) (hnd : qs.Nodup) (q : Nat) :
    (qs.foldl (fun s q => seqDoze q s) s).getSeq q = if q ∈ qs then seqDozed (s.getSeq q) else s.getSeq q := by
  induction qs generalizing s with
  | nil => rw [if_neg List.not_mem_nil]; rfl
  | cons x qs ih =>
    obtain ⟨hx, hnd⟩ := List.nodup_cons.1 hnd
    rw [List.foldl_cons, ih _ hnd, getSeq_seqDoze]
    by_cases he : q = x
    · rw [he, if_neg hx, if_pos rfl, if_pos List.mem_cons_self]
    · simp [he]

/-- The partition as an entry to a deeper rung begins (R443). -/
def rungEntering (n r : Nat) (s : State) : State :=
  State.setF { s with sys := { s.sys with trigEv := s.sys.trigEv &&& (2 ^ 12 - 1 - 2 ^ n), entering := Map.set s.sys.entering n r } } (PWR_PART.BUSY n) 1

theorem rungGo_of_active {n r : Nat} {s : State} (hr : r ≠ 0) (hc : s.f (PWR_PART.CUR n) = 0) :
    rungGo n r s = ((rungEntering n r s).seqsOf n).foldl (fun s q => seqDoze q s) (rungEntering n r s) := by
  unfold rungGo
  rw [hc, if_neg hr, if_neg hr, if_neg (Nat.not_lt_zero r), if_pos rfl, if_pos rfl]
  rfl

/-- From the active rung every sequencer at a boundary stops, and the entry is pending. -/
theorem rungGo_enters {n r : Nat} {s : State} (hn : n < 12) (hr : r ≠ 0) (hc : s.f (PWR_PART.CUR n) = 0) :
    (rungGo n r s).regs = (s.setF (PWR_PART.BUSY n) 1).regs ∧ Map.find (rungGo n r s).sys.entering n = some r ∧ (rungGo n r s).mem = s.mem ∧
    (rungGo n r s).jobs = s.jobs ∧ ∀ q ∈ s.seqsOf n, (rungGo n r s).getSeq q = seqDozed (s.getSeq q) := by
  have hmask : (rungEntering n r s).seqsOf n = s.seqsOf n := by
    unfold State.seqsOf
    congr 1
    exact State.f_setF_other _ _ _ _ (by simp only [GLB_PART_SEQ.MASK, GLB_PART_SEQ, PWR_PART.BUSY, PWR_PART]; omega)
  have hget := getSeq_seqDozes (rungEntering n r s) (qs := s.seqsOf n) (List.nodup_range.filter _)
  obtain ⟨xs, hxs⟩ := seqDozes_parts (s.seqsOf n) (rungEntering n r s)
  rw [rungGo_of_active hr hc, hmask]
  refine ⟨?_, ?_, ?_, ?_, fun q hq => (hget q).trans (if_pos hq)⟩
  · rw [hxs]; rfl
  · rw [hxs]
    show Map.find (Map.set s.sys.entering n r) n = _
    rw [Map.find_set, if_pos rfl]
  · rw [hxs]; rfl
  · rw [hxs]; rfl

/-! ### SET_POWER -/

/-- The request forgets the deferral of an earlier one. -/
def deferCleared (n : Nat) (s : State) : State := { s with sys := { s.sys with lastDefer := Map.del s.sys.lastDefer n } }

theorem find_del_same {α : Type} (m : Map α) (k : Nat) : Map.find (Map.del m k) k = none := by
  unfold Map.del
  induction m with
  | nil => rfl
  | cons c m ih =>
    obtain ⟨k', v⟩ := c
    rw [List.filter_cons]
    by_cases h : k' = k
    · simp only [h, bne_self_eq_false, Bool.false_eq_true, if_false, ih]
    · simp only [bne_iff_ne, ne_eq, h, not_false_eq_true, if_true, Map.find, if_false, ih]

section
variable {k : Nat} {f : Fin 13} {d : Desc} {j : Job} {s : State}

/-- The first part of SET_POWER: the request. -/
theorem powerRequest_fresh (hd : j.d = d) (hs : j.started = false) :
    powerRequest k j s = jobSets k [PWR_PART.RUNG d.part.toNat] (rungRequest d.part.toNat (d.p0.toNat % 4) (deferCleared d.part.toNat s)) := by
  have hmode : bitsOf d.p0.toNat 1 0 = d.p0.toNat % 4 := by simp [bitsOf]
  unfold powerRequest
  rw [hs, hd, hmode]
  rfl

/-- A request that was accepted is not made again. -/
theorem powerRequest_resumed (hd : j.d = d) (hs : j.started = true) (h0 : s.f (PWR_PART.ERR d.part.toNat) = 0) :
    powerRequest k j s = s := by
  unfold powerRequest
  simp [hs, hd, h0]

section
variable {u : State} {late : Bool}

/-- SET_POWER is complete at the rung that it asked for. -/
theorem setPower_done (hd : j.d = d) (hu : powerRequest k j s = u) (he : u.enabled d.part.toNat = true) (hb : u.f (PWR_PART.BUSY d.part.toNat) = 0)
    (h0 : u.f (PWR_PART.ERR d.part.toNat) = 0) (hc : u.f (PWR_PART.CUR d.part.toNat) = d.p0.toNat % 4) : setPower late k j s =
      jobEnd k j csOK 0 (BitVec.ofNat 64 (d.p0.toNat % 4 + min (Map.getD u.sys.lastDefer d.part.toNat 0) 65535 * 2 ^ 16)) 0 u := by
  have hmode : bitsOf d.p0.toNat 1 0 = d.p0.toNat % 4 := by simp [bitsOf]
  have hbusy := (on_eq_false_iff _ _).2 hb
  unfold setPower
  rw [hu]
  simp [hd, hmode, he, hbusy, h0, hc]

/-- SET_POWER waits for the entry that its request began. -/
theorem setPower_waits (hd : j.d = d) (hu : powerRequest k j s = u) (he : u.enabled d.part.toNat = true) (hb : u.f (PWR_PART.BUSY d.part.toNat) = 1)
    (hc : u.f (PWR_PART.CUR d.part.toNat) ≠ d.p0.toNat % 4) : setPower late k j s = jobNote k 1 u := by
  have hmode : bitsOf d.p0.toNat 1 0 = d.p0.toNat % 4 := by simp [bitsOf]
  have hbusy : u.on (PWR_PART.BUSY d.part.toNat) = true := (on_iff_one rfl).2 hb
  unfold setPower
  rw [hu]
  simp [hd, hmode, he, hbusy, hc]

/-- SET_POWER ends with the state of a partition whose request was refused. -/
theorem setPower_refused (hd : j.d = d) (hu : powerRequest k j s = u) (hb : u.f (PWR_PART.BUSY d.part.toNat) = 0) (h1 : u.f (PWR_PART.ERR d.part.toNat) = 1) :
    setPower late k j s = jobEnd k j csSTATE (u.f (GLB_PART_CFG.STATE d.part.toNat)) 0 0 u := by
  have hbusy := (on_eq_false_iff _ _).2 hb
  unfold setPower
  rw [hu]
  simp [hd, hbusy, h1, stateEnd]

end

/-- Firmware's request when it is taken: the rung asked for, and what follows from it. -/
theorem powerRequest_accepted (hd : j.d = d) (hs : j.started = false) (he : s.enabled d.part.toNat = true) (hb : s.f (PWR_PART.BUSY d.part.toNat) = 0)
    (hr : d.p0.toNat % 4 ≠ 0 → s.rungRefused d.part.toNat = 0) : powerRequest k j s =
      jobSets k [PWR_PART.RUNG d.part.toNat] (rungGo d.part.toNat (d.p0.toNat % 4) (rungAsked d.part.toNat (d.p0.toNat % 4) (deferCleared d.part.toNat s))) := by
  rw [powerRequest_fresh hd hs, rungRequest_accepted (by exact he) (by exact hr) (by exact hb) (Nat.mod_lt _ (by decide))]

theorem enabled_lt {n : Nat} (h : s.enabled n = true) : n < 12 := by
  simp only [State.enabled, Bool.and_eq_true, decide_eq_true_eq] at h
  exact h.1

theorem enabled_congr {t : State} {n : Nat} (h : t.f (GLB_PART_CFG.EN n) = s.f (GLB_PART_CFG.EN n)) : t.enabled n = s.enabled n := by
  unfold State.enabled State.on
  rw [h]

theorem f_rungAsked_other {n r : Nat} {y : RF} (h : y.key ≠ PWR_PART n) : (rungAsked n r s).f y = s.f y :=
  (State.f_setF_other _ _ _ _ h).trans (State.f_setF_other _ _ _ _ h)

theorem rungGo_same {n r : Nat} (h : r = s.f (PWR_PART.CUR n)) : rungGo n r s = s := by
  unfold rungGo
  exact if_pos h

theorem lastDefer_rungAsked (s : State) (n r : Nat) : Map.getD (rungAsked n r (deferCleared n s)).sys.lastDefer n 0 = 0 := by
  show Map.getD (Map.del s.sys.lastDefer n) n 0 = 0
  unfold Map.getD
  rw [find_del_same]
  rfl

/-- SET_POWER at the rung that it asks for. -/
theorem setPower_same {late : Bool} (hd : j.d = d) (hs : j.started = false) (he : s.enabled d.part.toNat = true) (hb : s.f (PWR_PART.BUSY d.part.toNat) = 0)
    (hr : d.p0.toNat % 4 ≠ 0 → s.rungRefused d.part.toNat = 0) (hc : d.p0.toNat % 4 = s.f (PWR_PART.CUR d.part.toNat)) :
    ∃ u, setPower late k j s = jobEnd k j csOK 0 (BitVec.ofNat 64 (d.p0.toNat % 4)) 0 u ∧ u.f (PWR_PART.RUNG d.part.toNat) = d.p0.toNat % 4 ∧
      u.f (PWR_PART.CUR d.part.toNat) = s.f (PWR_PART.CUR d.part.toNat) ∧ u.f (PWR_PART.ERR d.part.toNat) = 0 ∧ u.f (PWR_PART.BUSY d.part.toNat) = 0 := by
  have hreq := powerRequest_accepted (k := k) hd hs he hb hr
  obtain ⟨hrung, hcur, hbusy, herr⟩ := f_rungAsked (n := d.part.toNat) (deferCleared d.part.toNat s) (Nat.mod_lt d.p0.toNat (show 0 < 4 by decide))
  have hen : (rungAsked d.part.toNat (d.p0.toNat % 4) (deferCleared d.part.toNat s)).enabled d.part.toNat = true := by
    have hn := enabled_lt he
    refine (enabled_congr (f_rungAsked_other (s := deferCleared d.part.toNat s) ?_)).trans he
    simp only [GLB_PART_CFG.EN, GLB_PART_CFG, PWR_PART]; omega
  have hdefer := lastDefer_rungAsked s d.part.toNat (d.p0.toNat % 4)
  rw [rungGo_same (hc.trans hcur.symm)] at hreq
  obtain ⟨v, hv⟩ : ∃ v, rungAsked d.part.toNat (d.p0.toNat % 4) (deferCleared d.part.toNat s) = v := ⟨_, rfl⟩
  rw [hv] at hreq hrung hcur hbusy herr hen hdefer
  have hf (y : RF) : (jobSets k [PWR_PART.RUNG d.part.toNat] v).f y = v.f y := State.f_congr rfl y
  have hubusy : (jobSets k [PWR_PART.RUNG d.part.toNat] v).f (PWR_PART.BUSY d.part.toNat) = 0 := (hf _).trans (hbusy.trans hb)
  have hucur := (hf (PWR_PART.CUR d.part.toNat)).trans hcur
  have hsys : (jobSets k [PWR_PART.RUNG d.part.toNat] v).sys = v.sys := rfl
  refine ⟨jobSets k [PWR_PART.RUNG d.part.toNat] v, ?_, (hf _).trans hrung, hucur, (hf _).trans herr, hubusy⟩
  rw [setPower_done (late := late) hd hreq ((enabled_congr (hf _)).trans hen) hubusy ((hf _).trans herr) (hucur.trans hc.symm), hsys, hdefer, Nat.zero_min, Nat.zero_mul, Nat.add_zero]

/-- SET_POWER from the active rung to a deeper one: the entry is pending, and the sequencers at a boundary have stopped. -/
theorem setPower_enters {late : Bool} (hj : s.jobs[k]? = some j) (hd : j.d = d) (hs : j.started = false) (he : s.enabled d.part.toNat = true)
    (hb : s.f (PWR_PART.BUSY d.part.toNat) = 0) (hr : s.rungRefused d.part.toNat = 0) (h0 : d.p0.toNat % 4 ≠ 0) (hc : s.f (PWR_PART.CUR d.part.toNat) = 0) :
    let t := setPower late k j s
    (∃ j', t.jobs[k]? = some j' ∧ j'.started = true ∧ j'.d = d ∧ j'.fn = j.fn) ∧ t.f (PWR_PART.RUNG d.part.toNat) = d.p0.toNat % 4 ∧
      t.f (PWR_PART.CUR d.part.toNat) = s.f (PWR_PART.CUR d.part.toNat) ∧ t.f (PWR_PART.ERR d.part.toNat) = 0 ∧ t.f (PWR_PART.BUSY d.part.toNat) = 1 ∧
      Map.find t.sys.entering d.part.toNat = some (d.p0.toNat % 4) ∧ t.mem = s.mem ∧ ∀ q ∈ s.seqsOf d.part.toNat, t.getSeq q = seqDozed (s.getSeq q) := by
  have hn := enabled_lt he
  have hreq := powerRequest_accepted (k := k) hd hs he hb fun _ => hr
  obtain ⟨hrung, hcur, -, herr⟩ := f_rungAsked (n := d.part.toNat) (deferCleared d.part.toNat s) (Nat.mod_lt d.p0.toNat (show 0 < 4 by decide))
  have hv : rungAsked d.part.toNat (d.p0.toNat % 4) (deferCleared d.part.toNat s) = { deferCleared d.part.toNat s with
    regs := (rungAsked d.part.toNat (d.p0.toNat % 4) (deferCleared d.part.toNat s)).regs } := rfl
  have hvf {y : RF} (hy : y.key ≠ PWR_PART d.part.toNat) : (rungAsked d.part.toNat (d.p0.toNat % 4) (deferCleared d.part.toNat s)).f y = s.f y :=
    f_rungAsked_other (s := deferCleared d.part.toNat s) hy
  generalize rungAsked d.part.toNat (d.p0.toNat % 4) (deferCleared d.part.toNat s) = v at *
  obtain ⟨hregs, hentering, hmem, hjobs, hseq⟩ := rungGo_enters hn h0 (hcur.trans hc)
  generalize rungGo d.part.toNat (d.p0.toNat % 4) v = u at *
  have huf (y : RF) : u.f y = (v.setF (PWR_PART.BUSY d.part.toNat) 1).f y := State.f_congr hregs y
  have hubusy : u.f (PWR_PART.BUSY d.part.toNat) = 1 := (huf _).trans (f_setF_fits _ rfl (show 1 < 2 by decide))
  have hucur : u.f (PWR_PART.CUR d.part.toNat) = s.f (PWR_PART.CUR d.part.toNat) :=
    (huf _).trans ((f_setF_ne _ _ rfl (show 29 < 64 by decide) (.inr (.inl (show 27 < 28 by decide)))).trans hcur)
  have hurung : u.f (PWR_PART.RUNG d.part.toNat) = d.p0.toNat % 4 :=
    (huf _).trans ((f_setF_ne _ _ rfl (show 31 < 64 by decide) (.inr (.inl (show 27 < 30 by decide)))).trans hrung)
  have huerr : u.f (PWR_PART.ERR d.part.toNat) = 0 :=
    (huf _).trans ((f_setF_ne _ _ rfl (show 26 < 64 by decide) (.inr (.inr (show 26 < 27 by decide)))).trans herr)
  have hen : u.enabled d.part.toNat = true := by
    have hk : (GLB_PART_CFG.EN d.part.toNat).key ≠ PWR_PART d.part.toNat := by simp only [GLB_PART_CFG.EN, GLB_PART_CFG, PWR_PART]; omega
    exact (enabled_congr ((huf _).trans ((State.f_setF_other _ _ _ _ hk).trans (hvf hk)))).trans he
  have hwait := setPower_waits (late := late) hd hreq hen hubusy (by
    show u.f _ ≠ _
    rw [hucur, hc]
    exact Ne.symm h0)
  have hvseqs : v.seqsOf d.part.toNat = s.seqsOf d.part.toNat := by
    unfold State.seqsOf
    rw [hvf (by simp only [GLB_PART_SEQ.MASK, GLB_PART_SEQ, PWR_PART]; omega)]
  have hvget (q : Nat) : v.getSeq q = s.getSeq q := by rw [hv]; rfl
  intro t
  have ht : t = jobNote k 1 (jobSets k [PWR_PART.RUNG d.part.toNat] u) := hwait
  have hujobs : u.jobs[k]? = some j := by rw [hjobs, hv]; exact hj
  obtain ⟨j', hj', hst, hdd, hfn⟩ := started_of_jobNote (n := 1) (fs := [PWR_PART.RUNG d.part.toNat]) hujobs rfl
  rw [ht]
  refine ⟨⟨j', hj', hst, hdd.trans hd, hfn⟩, hurung, hucur, huerr, hubusy, hentering, ?_, fun q hq => ?_⟩
  · exact hmem.trans (by rw [hv]; rfl)
  · rw [← hvget q]
    exact hseq q (hvseqs ▸ hq)

/-- SET_POWER of a partition whose state refuses the request. -/
theorem setPower_refuses {late : Bool} (hd : j.d = d) (hs : j.started = false) (he : s.enabled d.part.toNat = true) (hb : s.f (PWR_PART.BUSY d.part.toNat) = 0)
    (hr : s.rungRefused d.part.toNat = 1) (h0 : d.p0.toNat % 4 ≠ 0) :
    ∃ u, setPower late k j s = jobEnd k j csSTATE (s.f (GLB_PART_CFG.STATE d.part.toNat)) 0 0 u ∧ u.f (PWR_PART.ERR d.part.toNat) = 1 ∧
      FieldsBut [PWR_PART.ERR d.part.toNat] s u := by
  have hn := enabled_lt he
  have hreq : powerRequest k j s = jobSets k [PWR_PART.RUNG d.part.toNat] ((deferCleared d.part.toNat s).setF (PWR_PART.ERR d.part.toNat) 1) := by
    rw [powerRequest_fresh hd hs, rungRequest_refused (by exact he) h0 (by exact hr)]
  have herr : ((deferCleared d.part.toNat s).setF (PWR_PART.ERR d.part.toNat) 1).f (PWR_PART.ERR d.part.toNat) = 1 := f_setF_fits _ rfl (show 1 < 8 by decide)
  have hbut : FieldsBut [PWR_PART.ERR d.part.toNat] s ((deferCleared d.part.toNat s).setF (PWR_PART.ERR d.part.toNat) 1) :=
    FieldsBut.setF (.of_regs rfl) 1 rfl List.mem_cons_self
  generalize (deferCleared d.part.toNat s).setF (PWR_PART.ERR d.part.toNat) 1 = u at *
  have hone (y : RF) (hy : y.hi < 64) (ha : Apart (PWR_PART.ERR d.part.toNat) y) : u.f y = s.f y := hbut y hy fun x hx => by rwa [List.mem_singleton.1 hx]
  have hbusy : u.f (PWR_PART.BUSY d.part.toNat) = 0 := (hone (PWR_PART.BUSY _) (show 27 < 64 by decide) (.inr (.inl (show 26 < 27 by decide)))).trans hb
  refine ⟨jobSets k [PWR_PART.RUNG d.part.toNat] u, ?_, herr, hbut⟩
  rw [setPower_refused (late := late) hd hreq hbusy herr]
  congr 1
  refine hone _ (show 30 < 64 by decide) (.of_key ?_)
  simp only [GLB_PART_CFG.STATE, GLB_PART_CFG, PWR_PART.ERR, PWR_PART]; omega

end

end Sys2Proof.Proofs
end

