-- ==== Sys2Proof/Proofs/PartitionCommands.lean ====
section
/-!
PROOFS. Proofs/PartitionCommands.lean: obligation O44, the commands of partitions and of their power (R24, R26, R401, R447).
-/
namespace Sys2Proof.Proofs
open Sys2Proof.Machine Sys2Proof.Safety

section
variable {k : Nat} {f : Fin 13} {d : Desc} {j : Job} {s : State}

theorem stateEnd_eq (hd : j.d = d) : stateEnd k j s = jobEnd k j csSTATE (s.f (GLB_PART_CFG.STATE d.part.toNat)) 0 0 s := by
  unfold stateEnd
  rw [hd]

/-! ### LOAD_PARTITION that goes on -/

theorem loadPartition_waits (hd : j.d = d) (hs : j.started = true) (hn : s.loadNames d.part.toNat = true) (memOk : Bool) :
    loadPartition memOk k j s = if memOk then s else loadUnread s := by
  unfold loadPartition
  simp [hs, hd, hn]

theorem loadUnread_of_feed (h : s.cfg.feed ≠ []) : ∃ c, loadUnread s = { s with cfg := c } ∧ c.feed = [] ∧ c.feedBad = true ∧ c.buf = s.cfg.buf := by
  unfold loadUnread
  rw [if_neg h]
  exact ⟨_, rfl, rfl, rfl, rfl⟩

theorem loadPartition_done (hd : j.d = d) (hs : j.started = true) (hn : s.loadNames d.part.toNat = false) (memOk : Bool) :
    loadPartition memOk k j s = jobEnd k j (if Map.getD s.cfg.last d.part.toNat 0 = 0 then csOK else csCONFIG) (Map.getD s.cfg.last d.part.toNat 0)
      (BitVec.ofNat 64 (Map.getD s.cfg.last d.part.toNat 0 + s.f (GLB_PART_CFG.ERRCODE d.part.toNat) * 2 ^ 8)) 0 s := by
  unfold loadPartition
  simp [hs, hd, hn]

/-! ### UNLOAD_PARTITION, START_PARTITION and STOP_PARTITION -/

theorem unloadPartition_may (hd : j.d = d) (he : s.enabled d.part.toNat = true) (hst : s.f (GLB_PART_CFG.STATE d.part.toNat) = stEMPTY ∨
    s.f (GLB_PART_CFG.STATE d.part.toNat) = stSTOPPED ∨ s.f (GLB_PART_CFG.STATE d.part.toNat) = stINVALID) :
    unloadPartition k j s = jobEnd k j csOK 0 0 0 (unloaded d.part.toNat s) := by
  unfold unloadPartition unloaded
  rw [hd]
  rw [if_pos]
  simp only [he, Bool.true_and, Bool.or_eq_true, beq_iff_eq, or_assoc]
  exact hst

theorem unloadPartition_not (hd : j.d = d) (h : ¬ (s.enabled d.part.toNat = true ∧ (s.f (GLB_PART_CFG.STATE d.part.toNat) = stEMPTY ∨
    s.f (GLB_PART_CFG.STATE d.part.toNat) = stSTOPPED ∨ s.f (GLB_PART_CFG.STATE d.part.toNat) = stINVALID))) :
    unloadPartition k j s = jobEnd k j csSTATE (s.f (GLB_PART_CFG.STATE d.part.toNat)) 0 0 s := by
  unfold unloadPartition
  rw [hd, if_neg]
  · exact stateEnd_eq hd
  · simpa only [Bool.and_eq_true, Bool.or_eq_true, beq_iff_eq, or_assoc] using h

theorem startPartition_may (hd : j.d = d) (he : s.enabled d.part.toNat = true) (hst : s.f (GLB_PART_CFG.STATE d.part.toNat) = stSTOPPED) :
    startPartition k j s = jobEnd k j csOK 0 0 0 (startPart d.part.toNat (!bitOf d.p0.toNat 0) s) := by
  unfold startPartition
  rw [hd, if_pos (by simp [he, hst])]

theorem startPartition_not (hd : j.d = d) (h : ¬ (s.enabled d.part.toNat = true ∧ s.f (GLB_PART_CFG.STATE d.part.toNat) = stSTOPPED)) :
    startPartition k j s = jobEnd k j csSTATE (s.f (GLB_PART_CFG.STATE d.part.toNat)) 0 0 s := by
  unfold startPartition
  rw [hd, if_neg]
  · exact stateEnd_eq hd
  · simpa using h

theorem stopPartition_may (hd : j.d = d) (hs : j.started = false) (he : s.enabled d.part.toNat = true) (hst : StopState d.part.toNat s)
    (hq : ∀ q ∈ s.seqsOf d.part.toNat, stopsAtOnce (s.getSeq q)) :
    stopPartition k j s = jobEnd k j csOK 0 0 0 (jobSets k (s.runFields d.part.toNat) (stopPart d.part.toNat s)) := by
  obtain ⟨-, hseqs, hstop⟩ := stopPart_stops (enabled_lt he) hst hq
  have hdue : (jobSets k (s.runFields d.part.toNat) (stopPart d.part.toNat s)).stopsDue d.part.toNat = false := by
    show (stopPart d.part.toNat s).stopsDue d.part.toNat = false
    unfold State.stopsDue
    rw [hseqs, List.any_eq_false]
    intro q hmem
    rw [(hstop q hmem).2, beq_iff_eq]
    exact (seqStopped_of_stopsAtOnce (hq q hmem)).2
  unfold stopPartition
  rw [hd, hs, if_pos]
  · dsimp only
    rw [if_neg Bool.false_ne_true, hdue, if_neg Bool.false_ne_true]
  · simp only [he, Bool.true_and, Bool.or_eq_true, beq_iff_eq]
    exact hst

theorem stopPartition_not (hd : j.d = d) (h : ¬ (s.enabled d.part.toNat = true ∧ (s.f (GLB_PART_CFG.STATE d.part.toNat) = stSTOPPED ∨
    s.f (GLB_PART_CFG.STATE d.part.toNat) = stRUNNING))) : stopPartition k j s = jobEnd k j csSTATE (s.f (GLB_PART_CFG.STATE d.part.toNat)) 0 0 s := by
  unfold stopPartition
  rw [hd, if_neg]
  · exact stateEnd_eq hd
  · simpa only [Bool.and_eq_true, Bool.or_eq_true, beq_iff_eq] using h

end

/-- Settles O44, command by command: what a command that goes on, that may act, and that is refused each end with. -/
theorem partitionCommandsLoadStartStopUnloadAndPower : Obligations.PartitionCommandsLoadStartStopUnloadAndPower := by
  unfold Obligations.PartitionCommandsLoadStartStopUnloadAndPower
  intro f d k j late s n st p0 ends started going wakes
  have hexec {code : Nat} {c : Instr} {run : Nat → Job → State → State} (h : Executes code f d k j s) (hc : exec c s = .next (firmware code f d run s))
      {t : State} (ht : run k j s = t) : exec c s = .next t := by rw [hc, firmware_of_executes h, ht]
  have hgo {code : Nat} {c : Instr} {run : Nat → Job → State → State} (hc : exec c s = .next (firmware code f d run s)) (hj : s.jobOf f d = some (k, j))
      (hd : d.code.toNat = code) (hs : j.started = true) (hf : s.firmOn = true) (h0 : s.f ERR_STAT.FATAL = 0) {t : State} (ht : run k j s = t) : exec c s = .next t := by
    rw [hc, firmware_of_started hj hd hs hf h0, ht]
  have hcode {x y : BitVec 8} (h : x = y) : x.toNat = y.toNat := by rw [h]
  refine ⟨fun X status detail r0 r1 _ hr hm hs hd => jobEnd_completed r0 r1 hr hm hs hd, ?_, fun h => ?_, fun hg h0 hn => ?_,
    fun hg h0 hn => ?_, fun h => ?_, fun h => ?_, fun h => ?_, fun h => ?_, fun hg h0 he hb herr hc => ?_⟩
  · intro x hx hg hfatal
    obtain ⟨hj, hd, hs, hf⟩ := hg
    simp only [List.mem_cons, List.not_mem_nil, or_false] at hx
    rcases hx with rfl | rfl | rfl | rfl | rfl
    all_goals exact congrArg Host.Outcome.next (firmware_of_hold hj (hcode hd) hs hf hfatal rfl)
  · intro mode hp h3 h4 h6 hsvc hb he hent hrun
    obtain ⟨t, hstep, hstarted, hbusy, hphase, ⟨hpart, hsrc, hmode, hfeed, hbad⟩, hptbase, hasid, hbut, honly⟩ :=
      exec_loadPartition_begins (n := ⟨n, enabled_lt he⟩) h rfl hp h3 h4 h6 hsvc hb he hent hrun
    exact ⟨t, hstep, hstarted, hbusy, hphase, hpart, hsrc, hmode, hfeed, hbad, hptbase, hasid, hbut, honly⟩
  · obtain ⟨hj, hdc, hs, hf⟩ := hg
    obtain ⟨-, -, hd⟩ := jobOf_eq_some hj
    refine ⟨hgo rfl hj (hcode hdc) hs hf h0 (loadPartition_waits hd hs hn true), fun hfeed => ?_⟩
    obtain ⟨c, hu, hfd, hbad, hbuf⟩ := loadUnread_of_feed hfeed
    exact ⟨_, hgo rfl hj (hcode hdc) hs hf h0 ((loadPartition_waits hd hs hn false).trans hu), hfd, hbad, hbuf, rfl⟩
  · obtain ⟨hj, hdc, hs, hf⟩ := hg
    obtain ⟨-, -, hd⟩ := jobOf_eq_some hj
    exact hgo rfl hj (hcode hdc) hs hf h0 (loadPartition_done hd hs hn late)
  · obtain ⟨-, -, hd⟩ := jobOf_eq_some h.job
    refine ⟨fun hmay => ⟨_, hexec h rfl (unloadPartition_may hd hmay.1 hmay.2), unloaded_leaves s (enabled_lt hmay.1)⟩, fun hnot => hexec h rfl (unloadPartition_not hd hnot)⟩
  · obtain ⟨-, -, hd⟩ := jobOf_eq_some h.job
    refine ⟨fun q he hst hp hpo hpart hq => ⟨_, hexec h rfl (startPartition_may hd he hst), startPart_runs _ (enabled_lt he) hst hp hpo hpart hq⟩,
      fun hnot => hexec h rfl (startPartition_not hd hnot)⟩
  · obtain ⟨-, -, hd⟩ := jobOf_eq_some h.job
    refine ⟨fun hmay hq => ?_, fun hnot => hexec h rfl (stopPartition_not hd hnot)⟩
    obtain ⟨he, hst⟩ := hmay
    obtain ⟨hstate, -, hstop⟩ := stopPart_stops (enabled_lt he) hst hq
    refine ⟨_, hexec h rfl (stopPartition_may hd h.fresh he hst hq), hstate, fun q hmem => ⟨(hstop q hmem).1, ?_⟩⟩
    show ((stopPart n s).getSeq q).st = _
    rw [(hstop q hmem).2]
    exact (seqStopped_of_stopsAtOnce (hq q hmem)).1
  · obtain ⟨hj, hfn, hd⟩ := jobOf_eq_some h.job
    intro r rung
    refine ⟨fun hw hr => ?_, fun hw hr hc => ?_, fun hr he hb hrefused => ?_⟩
    · obtain ⟨he, hb, -, hacc⟩ := hw
      obtain ⟨X, hX, hrung, hcur, herr, hbusy⟩ := setPower_same (late := late) (k := k) hd h.fresh he hb hacc hr
      exact ⟨X, hexec h rfl hX, ⟨hrung, hcur, herr⟩, hbusy⟩
    · obtain ⟨he, hb, -, hacc⟩ := hw
      obtain ⟨⟨j', hj', hs', hd', hf'⟩, hrung, hcur, herr, hbusy, hent, hmem, hseq⟩ := setPower_enters (late := late) hj hd h.fresh he hb (hacc hr) hr hc
      exact ⟨_, hexec h rfl rfl, ⟨j', hj', hs', hd', hf'.trans hfn⟩, ⟨hrung, hcur, herr⟩, hbusy, hent, hmem, fun q hq => by rw [hseq q hq, seqDozed_st]⟩
    · obtain ⟨X, hX, herr, hbut⟩ := setPower_refuses (late := late) (k := k) hd h.fresh he hb hrefused hr
      exact ⟨X, hexec h rfl hX, herr, hbut⟩
  · obtain ⟨hj, hdc, hs, hf⟩ := hg
    obtain ⟨-, -, hd⟩ := jobOf_eq_some hj
    exact hgo rfl hj (hcode hdc) hs hf h0 (setPower_done hd (powerRequest_resumed hd hs herr) he hb herr hc)

end Sys2Proof.Proofs
end

