-- ==== Sys2Proof/Proofs/MemOk.lean ====
section
/-!
SUPPORT.  Proofs/MemOk.lean: the memory stays canonical: what keeps it so, whatever the model's function (`Memory.put` and its like, folds, branches and results in a
pair).  The files that follow give one lemma for each function of the model that can change the memory, in the model's order.
-/
namespace Sys2Proof.Safety.MemOk
open Sys2Proof.Machine Sys2Proof.Proofs
variable {s t : State}

/-- A change outside the memory. -/
theorem same (h : MemOk s) (e : t.mem = s.mem) : MemOk t := by
  unfold MemOk
  rw [e]
  exact h

theorem ite {c : Prop} [Decidable c] (h : MemOk s) (h' : MemOk t) : MemOk (if c then s else t) := by
  split
  · exact h
  · exact h'

/-- The state of a result that is given as a pair. -/
theorem of_eq {α : Type} {p : α × State} {a : α} (e : p = (a, t)) (h : MemOk p.2) : MemOk t := by
  rw [e] at h
  exact h

/-- The state of a result that is given with two others. -/
theorem of_eq2 {α β : Type} {p : α × β × State} {a : α} {b : β} (e : p = (a, b, t)) (h : MemOk p.2.2) : MemOk t := by
  rw [e] at h
  exact h

/-- The state of a result that is given with three others. -/
theorem of_eq3 {α β γ : Type} {p : α × β × γ × State} {a : α} {b : β} {c : γ} (e : p = (a, b, c, t)) (h : MemOk p.2.2.2) : MemOk t := by
  rw [e] at h
  exact h

theorem foldl {α : Type} {g : State → α → State} {xs : List α} (h : MemOk s) (hg : ∀ {t x}, MemOk t → MemOk (g t x)) : MemOk (xs.foldl g s) := by
  induction xs generalizing s with
  | nil => exact h
  | cons x xs ih => exact ih (hg h)

/-- A fold whose accumulator carries more than the state. -/
theorem foldl_snd {α β : Type} {g : β × State → α → β × State} {p : β × State} {xs : List α} (h : MemOk p.2) (hg : ∀ {p x}, MemOk p.2 → MemOk (g p x).2) :
    MemOk (xs.foldl g p).2 := by
  induction xs generalizing p with
  | nil => exact h
  | cons x xs ih => exact ih (hg h)

/-- As `foldl_snd`, with two more parts. -/
theorem foldl_snd2 {α β γ : Type} {g : β × γ × State → α → β × γ × State} {p : β × γ × State} {xs : List α} (h : MemOk p.2.2)
    (hg : ∀ {p x}, MemOk p.2.2 → MemOk (g p x).2.2) : MemOk (xs.foldl g p).2.2 := by
  induction xs generalizing p with
  | nil => exact h
  | cons x xs ih => exact ih (hg h)

theorem of_quiet {l : Bool} (h : MemOk s) (q : Quiet l s t) : MemOk t := q.memOk h

theorem of_logOnly (h : MemOk s) (q : LogOnly s t) : MemOk t := h.same q.mem

/-! ### Changes of the memory -/

theorem onMem {g : Memory → Memory} (h : MemOk s) (hg : ∀ m, Memory.wf m = true → Memory.wf (g m) = true) : MemOk (s.onMem g) := hg s.mem h

theorem puts {a : Nat} {bs : List Byte} (h : MemOk s) : MemOk (s.onMem fun m => Memory.puts m a bs) := Memory.puts_wf s.mem a bs h

theorem wipe {lo hi : Nat} (h : MemOk s) : MemOk (s.onMem fun m => Memory.wipe m lo hi) := Memory.wipe_wf s.mem lo hi h

theorem setEcc {a n : Nat} (h : MemOk s) : MemOk (s.setEcc a n) := Memory.put_wf _ _ _ h

theorem setTags {a n : Nat} (h : MemOk s) : MemOk (s.setTags a n) := Memory.put_wf _ _ _ h

theorem sendMsix {fn vec : Nat} (h : MemOk s) : MemOk (sendMsix fn vec s) := h.of_logOnly (sendMsix_logOnly ..)

theorem logErr {code part src : Nat} {i0 i1 : Word} (h : MemOk s) : MemOk (logErr code part src i0 i1 s) := h.of_logOnly (logErr_logOnly ..)

end Sys2Proof.Safety.MemOk
end

