-- ==== Sys2Proof/Proofs/MemOkIsland.lean ====
section
/-!
SUPPORT.  Proofs/MemOkIsland.lean: the memory stays canonical: what the islands, their queues, forks and word units do.
-/
namespace Sys2Proof.Safety.MemOk
open Sys2Proof.Machine Sys2Proof.Proofs
variable {s t : State}

/-! ### Ops -/

theorem wr {k : Nat} {v : Word} (h : MemOk s) : MemOk (s.wr k v) := h

theorem setF {x : RF} {n : Nat} (h : MemOk s) : MemOk (s.setF x n) := h

theorem bump {x : RF} {n : Nat} (h : MemOk s) : MemOk (s.bump x n) := h

theorem orF {x : RF} {n : Nat} (h : MemOk s) : MemOk (s.orF x n) := h

theorem freshBit (h : MemOk s) : MemOk s.freshBit.2 := h

theorem emit {o : Out} (h : MemOk s) : MemOk (s.emit o) := h

theorem onIsl {i : Nat} {g : Isl → Isl} (h : MemOk s) : MemOk (s.onIsl i g) := h

theorem onWu {i u : Nat} {g : Wu → Wu} (h : MemOk s) : MemOk (s.onWu i u g) := h

theorem gatedAccess {off : Nat} (h : MemOk s) : MemOk (gatedAccess off s) := h

theorem islWrite {i key : Nat} {g : State → State} (h : MemOk s) (hg : ∀ {s}, MemOk s → MemOk (g s)) : MemOk (islWrite i key g s) := ite (hg h) h

theorem raiseAev {n bit kind src : Nat} (h : MemOk s) : MemOk (raiseAev n bit kind src s) := h.of_quiet ((Quiet.refl false s).raiseAev ..)

theorem raiseLine {n i k : Nat} (h : MemOk s) : MemOk (raiseLine n i k s) := h.of_quiet ((Quiet.refl false s).raiseLine ..)

theorem ringPrimary {n d : Nat} (h : MemOk s) : MemOk (ringPrimary n d s) := h.of_quiet ((Quiet.refl false s).ringPrimary ..)

/-! ### Collector -/

theorem collLeaves {i u : Nat} {w : AWord} (h : MemOk s) : MemOk (collLeaves i u w s) := h.of_quiet ((Quiet.refl false s).collLeaves ..)

theorem collBad {i kind cyc : Nat} (h : MemOk s) : MemOk (collBad i kind cyc s) := ite h h

theorem collFire {i : Nat} {val : W32} {st : Bool} {fa fx : Option AWord} (h : MemOk s) : MemOk (collFire i val st fa fx s).2 := by
  unfold Machine.collFire
  extract_lets _ s1 s2
  split
  next e =>
    have h1 := of_eq e <| by
      split
      · exact collBad h
      · split
        · exact h
        · split
          · exact collBad h
          · split
            · exact h
    exact ite h1 h1

theorem cycleRebase {i v : Nat} (h : MemOk s) : MemOk (cycleRebase i v s) := h

/-! ### Array -/

theorem noteToken {i u : Nat} {w : AWord} (h : MemOk s) : MemOk (noteToken i u w s) := h.of_quiet ((Quiet.refl false s).noteToken ..)

theorem popSrc {i code : Nat} (h : MemOk s) : MemOk (s.popSrc i code) := h.of_quiet ((Quiet.refl false s).popSrc ..)

theorem takeSrc {i code cid : Nat} (h : MemOk s) : MemOk (s.takeSrc i code cid) := h.of_quiet ((Quiet.refl false s).takeSrc ..)

theorem intakeOne {i u x : Nat} (h : MemOk s) : MemOk (intakeOne i u x s) := by
  unfold Machine.intakeOne
  extract_lets _ _ s1
  have hs1 : MemOk s1 := takeSrc h
  split
  · split
    · exact h
    · exact ite (ite (onWu hs1) (ite (onWu hs1) hs1)) (onWu hs1)
  · exact h

theorem collDiscard {i cid src : Nat} (h : MemOk s) : MemOk (collDiscard i cid src s) := by
  unfold Machine.collDiscard
  split
  · split
    · exact ite (takeSrc h) h
    · exact h
  · exact h

theorem collTakes {i : Nat} (h : MemOk s) : MemOk (collTakes i s) := ite (foldl h fun h => popSrc h) h

theorem retireWords {i : Nat} (h : MemOk s) : MemOk (retireWords i s) := ite (foldl h fun h => ite (popSrc h) h) h

theorem settle {i : Nat} (h : MemOk s) : MemOk (settle i s) := by
  unfold Machine.settle
  extract_lets s1 _ s2 s3 s4
  have hs1 : MemOk s1 := retireWords h
  have hs2 : MemOk s2 := foldl hs1 fun h => intakeOne h
  have hs3 : MemOk s3 := collDiscard hs2
  have hs4 : MemOk s4 := ite hs3 (collDiscard hs3)
  exact collTakes hs4

theorem checkOp {i u : Nat} (h : MemOk s) : MemOk (checkOp i u s) := h.of_quiet ((Quiet.refl false s).checkOp ..)

theorem checkSel {i e : Nat} (h : MemOk s) : MemOk (checkSel i e s) := h.of_quiet ((Quiet.refl false s).checkSel ..)

theorem updateJoint {i t' : Nat} (h : MemOk s) : MemOk (updateJoint i t' s) := h.of_quiet ((Quiet.refl false s).updateJoint ..)

theorem waitFacing {i : Nat} (h : MemOk s) : MemOk (waitFacing i s) := foldl h fun h => ite (updateJoint h) h

theorem endPassage {i e : Nat} (h : MemOk s) : MemOk (endPassage i e s) := h.of_quiet ((Quiet.refl false s).endPassage ..)

theorem setBox {i e p : Nat} (h : MemOk s) : MemOk (setBox i e p s) := h.of_quiet ((Quiet.refl false s).setBox ..)

theorem setPlane {i e p : Nat} (h : MemOk s) : MemOk (setPlane i e p s) := h.of_quiet ((Quiet.refl false s).setPlane ..)

theorem requestPlane {i e p : Nat} {fence : optParam Bool false} (h : MemOk s) : MemOk (requestPlane i e p s fence) :=
  h.of_quiet ((Quiet.refl false s).requestPlane ..)

theorem switchUnit {i u p : Nat} (h : MemOk s) : MemOk (switchUnit i u p s) := foldl (setPlane h) fun h => requestPlane h

theorem requestUnit {i u p : Nat} (h : MemOk s) : MemOk (requestUnit i u p s) := h.of_quiet ((Quiet.refl false s).requestUnit ..)

theorem fenceDone {i e : Nat} (h : MemOk s) : MemOk (fenceDone i e s) := h.of_quiet ((Quiet.refl false s).fenceDone ..)

theorem fenceSwitch {i e : Nat} (h : MemOk s) : MemOk (fenceSwitch i e s) := h.of_quiet ((Quiet.refl false s).fenceSwitch ..)

theorem passBox {i e : Nat} {w : AWord} (h : MemOk s) : MemOk (passBox i e w s) := ite (onIsl (setF (requestPlane h))) (ite (onIsl (fenceSwitch h)) h)

theorem followIdle {i : Nat} (h : MemOk s) : MemOk (followIdle i s) := by
  unfold Machine.followIdle
  refine foldl h fun h => ?_
  refine foldl h fun h => ?_
  extract_lets s1
  have hs1 : MemOk s1 := requestPlane h
  exact ite (fenceDone hs1) hs1

theorem countRefusal {i : Nat} (h : MemOk s) : MemOk (countRefusal i s) := ite h h

theorem recountRefusal {i : Nat} (h : MemOk s) : MemOk (recountRefusal i s) := by
  unfold Machine.recountRefusal
  extract_lets s1
  have hs1 : MemOk s1 := ite h h
  exact ite (countRefusal hs1) hs1

theorem clearRouteCounts {i : Nat} (h : MemOk s) : MemOk (clearRouteCounts i s) := h

theorem onLane {l : Nat} {g : Lane → Lane} (h : MemOk s) : MemOk (s.onLane l g) := h

theorem takeTrack {r e k : Nat} (h : MemOk s) : MemOk (takeTrack r e k s) := by
  unfold Machine.takeTrack
  extract_lets
  split
  · exact h
  · exact settle (passBox (takeSrc h))

theorem islandEvent {i k : Nat} (h : MemOk s) : MemOk (islandEvent i k s) := raiseLine h

/-! ### IslandMemory -/

theorem markCell {a b : Nat} (h : MemOk s) : MemOk (markCell a b s) := onMem h fun _ hm => Memory.put_wf _ _ _ hm

theorem patrolTouch {i off : Nat} (h : MemOk s) : MemOk (patrolTouch i off s) := h.of_quiet ((Quiet.refl false s).patrolTouch ..)

theorem eccPort {i off port : Nat} (h : MemOk s) : MemOk (eccPort i off port s).2 := h.of_quiet ((Quiet.refl false s).eccPort ..)

theorem combWrite {i q : Nat} (h : MemOk s) : MemOk (combWrite i q s) := h.of_quiet ((Quiet.refl false s).combWrite ..)

theorem combDrain {i off : Nat} (h : MemOk s) : MemOk (combDrain i off s) := h.of_quiet ((Quiet.refl false s).combDrain ..)

theorem eccRead {i off port : Nat} (h : MemOk s) : MemOk (eccRead i off port s).2 := h.of_quiet ((Quiet.refl false s).eccRead ..)

theorem islReadM {i w : Nat} (h : MemOk s) : MemOk (islReadM i w s).2 := by
  unfold Machine.islReadM
  extract_lets s1
  have hs1 : MemOk s1 := eccRead h
  exact hs1

theorem islReadSeq {i u w : Nat} (h : MemOk s) : MemOk (islReadSeq i u w s).2 := by
  unfold Machine.islReadSeq
  extract_lets
  split
  · split
    · exact h
    · split
      next e =>
        have h1 := of_eq e (islReadM h)
        exact h1
  · split
    next e =>
      have h1 := of_eq e (islReadM h)
      exact ite h1 h1

theorem memWrite32 {i w : Nat} {d : W32} {tags : Nat} (h : MemOk s) : MemOk (memWrite32 i w d tags s) := h.of_quiet ((Quiet.refl false s).memWrite32 ..)

theorem qEval {i q : Nat} (h : MemOk s) : MemOk (qEval i q s) := h.of_quiet ((Quiet.refl false s).qEval ..)

theorem qCommands {i q : Nat} {mark rewind release : Bool} (h : MemOk s) : MemOk (qCommands i q mark rewind release s) :=
  h.of_quiet ((Quiet.refl false s).qCommands ..)

theorem qEmpty {i q : Nat} (h : MemOk s) : MemOk (qEmpty i q s) := h.of_quiet ((Quiet.refl false s).qEmpty ..)

theorem qEnd {i q : Nat} {mark rewind release flush : Bool} (h : MemOk s) : MemOk (qEnd i q mark rewind release flush s) := h.of_quiet ((Quiet.refl false s).qEnd ..)

theorem qFlush {i q : Nat} (h : MemOk s) : MemOk (qFlush i q s) := qEnd h

theorem qGive {i q c : Nat} (h : MemOk s) : MemOk (qGive i q c s) := h.of_quiet ((Quiet.refl false s).qGive ..)

theorem qOrder {i q : Nat} {mark rewind release flush : Bool} (h : MemOk s) : MemOk (qOrder i q mark rewind release flush s) :=
  h.of_quiet ((Quiet.refl false s).qOrder ..)

theorem qToken {i q : Nat} {w : AWord} (h : MemOk s) : MemOk (qToken i q w s) := h.of_quiet ((Quiet.refl false s).qToken ..)

theorem qFetch {i q : Nat} (h : MemOk s) : MemOk (qFetch i q s) := by
  unfold Machine.qFetch
  extract_lets _ _ s1
  have hs1 : MemOk s1 := eccRead h
  exact ite h (ite (onIsl hs1) hs1)

theorem qPop {i q : Nat} (h : MemOk s) : MemOk (qPop i q s) := by
  unfold Machine.qPop
  extract_lets s1 s2 s3 s4 s5
  have hs1 : MemOk s1 := ite (qEnd h) h
  have hs2 : MemOk s2 := qGive (qFetch hs1)
  have hs3 : MemOk s3 := setF hs2
  have hs4 : MemOk s4 := setF hs3
  have hs5 : MemOk s5 := ite hs4 (setF hs4)
  split
  · exact hs1
  · exact qToken (onIsl hs5)

theorem takeQueue {i q u : Nat} (h : MemOk s) : MemOk (takeQueue i q u s) := ite (qPop h) h

theorem retireQueues {i : Nat} (h : MemOk s) : MemOk (retireQueues i s) := foldl h fun h => ite (qPop h) h

theorem qWrite {i q w : Nat} {v : AWord} (h : MemOk s) : MemOk (qWrite i q w v s) := h.of_quiet ((Quiet.refl false s).qWrite ..)

theorem qStore {i q : Nat} {w : AWord} {written : Bool} (h : MemOk s) : MemOk (qStore i q w written s) := h.of_quiet ((Quiet.refl false s).qStore ..)

theorem qPushSwitch {i q : Nat} {w : AWord} (h : MemOk s) : MemOk (qPushSwitch i q w s) := h.of_quiet ((Quiet.refl false s).qPushSwitch ..)

/-! ### Fork -/

theorem forkCheck {i : Nat} (h : MemOk s) : MemOk (forkCheck i s) := by
  unfold Machine.forkCheck
  extract_lets _ s1
  have hs1 : MemOk s1 := ite h h
  exact ite hs1 (setF hs1)

theorem forkSwitch {i k : Nat} {fail : Bool} (h : MemOk s) : MemOk (forkSwitch i k fail s) := by
  unfold Machine.forkSwitch
  split
  · exact onIsl (setF (setF (ite h (qFlush h))))

theorem forkPoint {i : Nat} (h : MemOk s) : MemOk (forkPoint i s) := by
  unfold Machine.forkPoint
  split
  · split
    · exact h
    · exact ite (ite (forkSwitch h) h) h
  · exact h

theorem forkEdge {i : Nat} (h : MemOk s) : MemOk (forkEdge i s) := ite h (forkPoint (ite (ite h h) h))

theorem forkResolve {i k : Nat} {fail : Bool} (h : MemOk s) : MemOk (forkResolve i k fail s) := ite (ite (forkSwitch h) h) (forkCheck h)

theorem steerSwitched {i e : Nat} (h : MemOk s) : MemOk (steerSwitched i e s) := ite (forkCheck h) h

theorem switchAll {i p : Nat} (h : MemOk s) : MemOk (switchAll i p s) := by
  unfold Machine.switchAll
  extract_lets s1
  have hs1 : MemOk s1 := foldl h fun h => requestPlane h
  exact ite hs1 (steerSwitched hs1)

theorem applyPending {i : Nat} (h : MemOk s) : MemOk (applyPending i s) := by
  unfold Machine.applyPending
  refine foldl h fun h => ?_
  split
  · exact h
  · extract_lets _ s1
    have hs1 : MemOk s1 := steerSwitched (setPlane h)
    exact ite (fenceDone hs1) hs1

theorem forkArm {i k fp pp : Nat} (h : MemOk s) : MemOk (forkArm i k fp pp s) := by
  unfold Machine.forkArm
  extract_lets _ s1 s2
  have hs1 : MemOk s1 := ite (foldl h fun h => requestPlane h) h
  have hs2 : MemOk s2 := forkCheck hs1
  split
  · split
    · extract_lets s3 s4 s5
      have hs3 : MemOk s3 := ite hs2 (qFlush hs2)
      have hs4 : MemOk s4 := ite (ite hs3 (qFlush hs3)) hs2
      have hs5 : MemOk s5 := setF hs4
      exact ite (setF (setF hs5)) hs5
  · exact hs2

theorem forkCfgWrite {i : Nat} {v : Word} (h : MemOk s) : MemOk (forkCfgWrite i v s) := forkCheck (ite h (ite h h))

theorem forkForce {i k : Nat} {fail : Bool} (h : MemOk s) : MemOk (forkForce i k fail s) := forkResolve h

/-! ### Operands -/

theorem consumeIn {i u x : Nat} (h : MemOk s) : MemOk (consumeIn i u x s) := by
  unfold Machine.consumeIn
  extract_lets
  split
  · split
    · split
      · exact takeQueue h
      · exact h
    · exact h
  · exact ite h (settle h)

/-! ### QueuePort -/

theorem qAccept {i q : Nat} {w : AWord} (h : MemOk s) : MemOk (qAccept i q w s) := h.of_quiet ((Quiet.refl false s).qAccept ..)

theorem recordCollision {i off : Nat} (h : MemOk s) : MemOk (recordCollision i off s) := h.of_quiet ((Quiet.refl false s).recordCollision ..)

theorem markEcc {i off : Nat} {bad : Bool} (h : MemOk s) : MemOk (markEcc i off bad s) := h.of_quiet ((Quiet.refl false s).markEcc ..)

theorem endInject {i : Nat} (h : MemOk s) : MemOk (endInject i s) := h.of_quiet ((Quiet.refl false s).endInject ..)

theorem portStore {i off size data tags : Nat} {bad : Bool} (h : MemOk s) : MemOk (portStore i off size data tags bad s) :=
  h.of_quiet ((Quiet.refl false s).portStore ..)

theorem pushWords {i q : Nat} {ws : List AWord} {bad clash : Bool} (h : MemOk s) : MemOk (pushWords i q ws bad clash s) :=
  h.of_quiet ((Quiet.refl false s).pushWords ..)

theorem portWrite {i off size data tags : Nat} {bad host clash : Bool} (h : MemOk s) : MemOk (portWrite i off size data tags bad host clash s).2 :=
  h.of_quiet ((Quiet.refl false s).portWrite ..)

theorem portRead {i off size : Nat} (h : MemOk s) : MemOk (portRead i off size s).2.2.2 := h.of_quiet ((Quiet.refl false s).portRead ..)

theorem portAnswer {i off size : Nat} (h : MemOk s) : MemOk (portAnswer i off size s) := by
  unfold Machine.portAnswer
  split
  next e =>
    have h1 := of_eq2 e (foldl_snd2 (p := (0, false, s)) h fun {_ x} h => portRead (size := x.2.1) h)
    exact h1

theorem portServe {i : Nat} {p : PortReq} {clash : Bool} (h : MemOk s) : MemOk (portServe i p clash s).2 := by
  unfold Machine.portServe
  split
  · exact portAnswer h
  · refine foldl_snd h fun h => ?_
    split
    · exact h
    · split
      next e => exact of_eq e (portWrite h)
      next e =>
        have h1 := of_eq e (portWrite h)
        exact h1
      next e => exact of_eq e (portWrite h)

theorem portRetry {i : Nat} (h : MemOk s) : MemOk (portRetry i s) := by
  unfold Machine.portRetry
  split
  · exact h
  · split
    · exact h
    next e =>
      have h1 := of_eq e (portServe h)
      exact h1

theorem laneMark {i l : Nat} (h : MemOk s) : MemOk (laneMark i l s) := ite (onLane (qGive h)) h

theorem laneMarks {i : Nat} (h : MemOk s) : MemOk (laneMarks i s) := ite (foldl h fun h => laneMark h) h

theorem qregWrite {i q v : Nat} (h : MemOk s) : MemOk (qregWrite i q v s) := qFlush (wr (combWrite h))

theorem patrolBorrow {i : Nat} (h : MemOk s) : MemOk (patrolBorrow i s) := by
  unfold Machine.patrolBorrow
  extract_lets s1
  have hs1 : MemOk s1 := by
    unfold s1
    refine foldl h fun h => ?_
    split
    · exact h
    · exact bump (setEcc h)
    · exact setEcc h
  exact setF (setF hs1)

theorem patrolFault {i : Nat} {cell : Fin 32 × Fin 80} (h : MemOk s) : MemOk (patrolFault i cell s) := by
  unfold Machine.patrolFault
  split
  · exact logErr (markCell (bump (ite h h)))

theorem patrolMarch {i : Nat} {faults : List (Fin 32 × Fin 80)} (h : MemOk s) : MemOk (patrolMarch i faults s) := foldl h fun h => patrolFault h

theorem patrolReturn {i : Nat} (h : MemOk s) : MemOk (patrolReturn i s) := ite h h

/-! ### WordUnits -/

theorem edgeQueue {i q : Nat} {up : BitVec 24} (h : MemOk s) : MemOk (edgeQueue i q up s) := qGive h

theorem endPulses {i : Nat} (h : MemOk s) : MemOk (endPulses i s) := ite (foldl h fun h => ite h h) h

theorem setWuFlags {i u : Nat} {f : Flags} (h : MemOk s) : MemOk (s.setWuFlags i u f) := h

theorem readM {i u opw od : Nat} {a : AWord} (h : MemOk s) : MemOk (readM i u opw od a s).2 := by
  unfold Machine.readM
  split
  · split
    · exact islReadM h
    · exact islReadSeq h
    · exact h
    · exact h
  · exact h

theorem place {i u : Nat} {ws : List AWord} (h : MemOk s) : MemOk (place i u ws s) := by
  unfold Machine.place
  refine settle (onWu ?_)
  split
  · exact noteToken (onWu h)
  · exact h

theorem storeAcc {i u opw : Nat} {tags : BitVec 2} (h : MemOk s) : MemOk (storeAcc i u opw tags s).2 := by
  unfold Machine.storeAcc
  extract_lets
  split
  · exact h
  · split
    · exact ite h h

theorem clearAcc {i u : Nat} (h : MemOk s) : MemOk (clearAcc i u s) := h

theorem accumulate {i u : Nat} {e : Firing} (h : MemOk s) : MemOk (accumulate i u e s) := by
  unfold Machine.accumulate
  extract_lets
  split
  · exact h
  · split
    · exact setWuFlags (ite h h)

theorem complete {i u : Nat} {e : Firing} (h : MemOk s) : MemOk (complete i u e s).2 := by
  unfold Machine.complete
  extract_lets _ _ _ _ s1 s2
  have hs1 : MemOk s1 := ite h h
  have hs2 : MemOk s2 := accumulate hs1
  split
  · exact h
  · split
    · split
      · split
        next e1 => exact of_eq e1 (storeAcc hs2)
      · exact hs2
    · split
      · split
        next e1 => exact of_eq e1 (storeAcc hs1)
      · split
        · exact clearAcc hs1
        · split
          · exact onWu hs1
          · split
            · exact hs1
            · extract_lets s3 s4
              have hs3 : MemOk s3 := setWuFlags hs1
              have hs4 : MemOk s4 := ite (orF hs3) hs3
              exact hs4

theorem readTable {i mbase : Nat} (h : MemOk s) : MemOk (readTable i mbase s).2 := by
  unfold Machine.readTable
  extract_lets _ s1
  have hs1 : MemOk s1 := foldl h fun h => eccRead h
  exact hs1

theorem completePld {i u : Nat} {e : Firing} (h : MemOk s) : MemOk (completePld i u e s).2 := by
  unfold Machine.completePld
  split
  next e1 =>
    have h1 := of_eq e1 (readTable h)
    exact h1

theorem completeHinc {i u : Nat} {e : Firing} (h : MemOk s) : MemOk (completeHinc i u e s).2 := by
  unfold Machine.completeHinc
  extract_lets _ _ _ _ s1
  have hs1 : MemOk s1 := memWrite32 h
  exact onWu (setWuFlags hs1)

theorem completeAny {i u : Nat} {e : Firing} (h : MemOk s) : MemOk (completeAny i u e s).2 := by
  unfold Machine.completeAny
  extract_lets
  split
  · exact complete h
  · split
    · exact completePld h
    · split
      · exact completeHinc h
      · exact complete h

theorem collAtFiring {i u : Nat} {r : W32 × Bool} (h : MemOk s) : MemOk (collAtFiring i u r s).2 := by
  unfold Machine.collAtFiring
  split
  · extract_lets _ _ _ _ s1 s2
    have hs1 : MemOk s1 := ite (takeSrc h) h
    have hs2 : MemOk s2 := ite (takeSrc hs1) hs1
    exact collFire hs2
  · exact h

theorem fire {i u : Nat} (h : MemOk s) : MemOk (fire i u s) := by
  unfold Machine.fire
  extract_lets
  split
  next e =>
    have h1 := of_eq e <| by
      split
      · exact h
      · exact readM h
    extract_lets
    split
    next e1 =>
      have h11 := of_eq e1 (collAtFiring h1)
      extract_lets _ s1 s2
      have hs2 : MemOk s2 := foldl h11 fun h => ite (consumeIn h) h
      exact ite (forkPoint (bump hs2)) hs2

theorem finishOldest {i u : Nat} {g : Firing → State → List AWord × State} (h : MemOk s) (hg : ∀ {e s}, MemOk s → MemOk (g e s).2) :
    MemOk (finishOldest i u g s) := by
  unfold Machine.finishOldest
  split
  · exact h
  · dsimp only
    exact ite h (place (onWu (hg h)))

theorem passesA {i u t' : Nat} (h : MemOk s) : MemOk (passesA i u t' s) := ite h h

theorem forward {i u x : Nat} (h : MemOk s) : MemOk (forward i u x s) := by
  unfold Machine.forward
  split
  · exact h
  · exact place (ite (passesA (consumeIn h)) (consumeIn h))

theorem moultStall {i u : Nat} (h : MemOk s) : MemOk (moultStall i u s) := by
  unfold Machine.moultStall
  extract_lets _ _ _ s1 s2
  have hs1 : MemOk s1 := raiseAev h
  have hs2 : MemOk s2 := ite hs1 (setF (setF (setF (setF (setF hs1)))))
  exact logErr hs2

theorem raiseStall {i u : Nat} (h : MemOk s) : MemOk (raiseStall i u s) := ite (moultStall h) h

theorem tickTimers {i : Nat} (h : MemOk s) : MemOk (tickTimers i s) := foldl h fun h => ite (raiseStall h) (ite h h)

theorem placeOrdered {i u : Nat} {v : AWord} (h : MemOk s) : MemOk (placeOrdered i u v s) := ite (place h) h

theorem joinSwitch {i u : Nat} {xs : List Nat} (h : MemOk s) : MemOk (joinSwitch i u xs s) := by
  unfold Machine.joinSwitch
  split
  · exact h
  · exact placeOrdered (forkCheck (switchUnit (foldl (ite h h) fun h => consumeIn h)))

theorem releaseUnit {i u : Nat} (h : MemOk s) : MemOk (releaseUnit i u s) := ite h (onWu (joinSwitch h))

theorem moultRelease {i mask : Nat} (h : MemOk s) : MemOk (moultRelease i mask s) := ite h h

theorem applyReleases {i : Nat} (h : MemOk s) : MemOk (applyReleases i s) := ite h (foldl h fun h => releaseUnit h)

theorem armFence {i p : Nat} (h : MemOk s) : MemOk (armFence i p s) := by
  unfold Machine.armFence
  extract_lets _ _ s1 s2
  refine foldl h fun h => ?_
  split
  · extract_lets s3
    have hs3 : MemOk s3 := requestUnit h
    exact ite hs3 (steerSwitched hs3)
  · exact requestPlane h

theorem broadcast {i : Nat} {b : Bcast} (h : MemOk s) : MemOk (broadcast i b s) := ite (armFence h) (switchAll h)

theorem applyArrival {i : Nat} {a : Arrival} (h : MemOk s) : MemOk (applyArrival i a s) := by
  unfold Machine.applyArrival
  split
  · exact settle (broadcast h)
  · exact settle (forkArm h)
  · exact ite (forkResolve h) h
  · exact h

theorem applyArrivals {i : Nat} (h : MemOk s) : MemOk (applyArrivals i s) := ite h (foldl h fun h => applyArrival h)

theorem arrive {i : Nat} {a : Arrival} (h : MemOk s) : MemOk (arrive i a s) := ite (applyArrival h) h

theorem tickPipes {i : Nat} (h : MemOk s) : MemOk (tickPipes i s) := foldl h fun h => ite h h

theorem collEdge {i : Nat} (h : MemOk s) : MemOk (collEdge i s) := ite h h

theorem endEdge {i : Nat} (h : MemOk s) : MemOk (endEdge i s) := by
  unfold Machine.endEdge
  extract_lets s1 s2
  have hs1 : MemOk s1 := portRetry (laneMarks h)
  have hs2 : MemOk s2 := retireQueues (foldl hs1 fun h => qEnd h)
  exact ite hs2 (onIsl hs2)

theorem islandEdge {i : Nat} (h : MemOk s) : MemOk (islandEdge i s) :=
  settle (endPulses (tickTimers (tickPipes (collEdge (forkEdge (recountRefusal (waitFacing (applyReleases (applyPending (followIdle (foldl (foldl (onIsl (onIsl
    (applyArrivals (endEdge h)))) fun h => ite (islandEvent h) h) fun h => edgeQueue h)))))))))))

theorem joinTokens {i u : Nat} {xs : List Nat} (h : MemOk s) : MemOk (joinTokens i u xs s) := by
  unfold Machine.joinTokens
  split
  · exact h
  · split
    · exact h
    · exact place (ite (passesA (foldl h fun h => consumeIn h)) (foldl h fun h => consumeIn h))

theorem discardData {i u x : Nat} (h : MemOk s) : MemOk (discardData i u x s) := ite h (settle h)

theorem discardStep {i u x : Nat} (h : MemOk s) : MemOk (discardStep i u x s) := by
  unfold Machine.discardStep
  split
  · exact ite (ite (onWu (consumeIn h)) h) (consumeIn h)
  · exact h

theorem blockResult {i u : Nat} (h : MemOk s) : MemOk (blockResult i u s).2 := by
  unfold Machine.blockResult
  extract_lets
  split
  · split
    next e =>
      have h1 := of_eq e (storeAcc h)
      exact ite h1 h1
  · split
    · exact h
    · exact h

/-! ### Planes -/

theorem fenceUnit {i u : Nat} (h : MemOk s) : MemOk (fenceUnit i u s) := by
  unfold Machine.fenceUnit
  extract_lets p ms xs
  clear_value xs
  split
  · exact h
  · exact placeOrdered (steerSwitched (fenceDone (switchUnit (foldl h fun h => consumeIn h))))

/-! ### Routing -/

theorem fifoEnter {i t' : Nat} {w : AWord} (h : MemOk s) : MemOk (fifoEnter i t' w s) := settle (passBox h)

theorem offerTo {w : AWord} {targets taken : List Nat} (h : MemOk s) : MemOk (offerTo w targets taken s).2.2 := by
  unfold Machine.offerTo
  refine foldl_snd2 h fun h => ?_
  dsimp only
  split
  · exact h
  · split
    · exact h
    · exact fifoEnter h

theorem present {i e : Nat} {w : AWord} (h : MemOk s) : MemOk (present i e w s) := by
  unfold Machine.present
  split
  · extract_lets
    split
    next e1 =>
      have h1 := of_eq2 e1 (offerTo h)
      extract_lets s1
      have hs1 : MemOk s1 := ite (countRefusal h1) h1
      exact ite (settle (passBox (onIsl hs1))) (onIsl hs1)
  · split
    next e1 =>
      have h1 := of_eq2 e1 (offerTo h)
      extract_lets s1
      have hs1 : MemOk s1 := ite (countRefusal h1) h1
      exact ite (settle (passBox (takeSrc (onIsl hs1)))) (onIsl hs1)

theorem pushSegment {i k : Nat} (h : MemOk s) : MemOk (pushSegment i k s) := by
  unfold Machine.pushSegment
  split
  · exact h
  · split
    · exact ite (settle (passBox (ite h (takeSrc h)))) (present h)
    · exact h

theorem pushJoint {i t' : Nat} (h : MemOk s) : MemOk (pushJoint i t' s) := by
  unfold Machine.pushJoint
  split
  · exact h
  · split
    · exact updateJoint h
    · split
      · exact h
      · exact present h

theorem laneWordLeft {f : Nat} {blockEnds : Bool} (h : MemOk s) : MemOk (laneWordLeft f blockEnds s) := ite h h

theorem pushLane {l : Nat} (h : MemOk s) : MemOk (pushLane l s) := by
  unfold Machine.pushLane
  extract_lets
  split
  · split
    · exact h
    · split
      · exact h
      · split
        next e =>
          have h1 := of_eq2 e (offerTo h)
          split
          · exact h1
          · extract_lets s1
            split
            · exact laneWordLeft h1

theorem mspNotify {p k : Nat} (h : MemOk s) : MemOk (mspNotify p k s) := ite h h

theorem readDone {p k : Nat} (h : MemOk s) : MemOk (readDone p k s) := ite (mspNotify h) h

theorem pushRead {p k : Nat} (h : MemOk s) : MemOk (pushRead p k s) := by
  unfold Machine.pushRead
  extract_lets
  split
  · split
    · exact h
    · extract_lets
      split
      · exact h
      · split
        · exact ite h h
        · split
          next e =>
            have h1 := of_eq2 e (offerTo h)
            exact ite h1 (readDone (ite h1 h1))

theorem pushDriver {d : Driver} (h : MemOk s) : MemOk (pushDriver d s) := by
  unfold Machine.pushDriver
  split
  · exact pushSegment h
  · exact pushJoint h
  · exact pushLane h
  · exact pushRead h

/-! ### IslandRegs -/

theorem flaEvtClear {i bits : Nat} (h : MemOk s) : MemOk (flaEvtClear i bits s) := foldl h fun h => h

end Sys2Proof.Safety.MemOk
end

