-- ==== Sys2Proof/Proofs/MemOkPorts.lean ====
section
/-!
SUPPORT.  Proofs/MemOkPorts.lean: the memory stays canonical: lanes, ring, sequencer registers, the bus, transfers and the fail engine.
-/
namespace Sys2Proof.Safety.MemOk
open Sys2Proof.Machine Sys2Proof.Proofs
variable {s t : State}

/-! ### Lanes -/

theorem laneErr {code l : Nat} {info : Word} (h : MemOk s) : MemOk (laneErr code l info s) := logErr h

theorem replayOrder {f : Nat} {mark rewind release : Bool} (h : MemOk s) : MemOk (replayOrder f mark rewind release s) :=
  h.of_quiet ((Quiet.refl false s).replayOrder ..)

theorem loseFlights {f : Nat} {fs : List Flight} (h : MemOk s) : MemOk (loseFlights f fs s) := foldl h fun h => laneErr h

theorem replay {f : Nat} (h : MemOk s) : MemOk (replay f s) := by
  unfold Machine.replay
  extract_lets
  split
  · exact ite h (ite (laneErr (raiseAev h)) (onLane (replayOrder h)))
  · split
    · exact h
    · exact loseFlights h

theorem ackFlights {f aseq : Nat} (h : MemOk s) : MemOk (ackFlights f aseq s) := ite h h

theorem replayRelease {f : Nat} (h : MemOk s) : MemOk (replayRelease f s) := h.of_quiet ((Quiet.refl false s).replayRelease ..)

theorem setUp {l : Nat} {b : Bool} (h : MemOk s) : MemOk (setUp l b s) := h

theorem takeModes {l : Nat} (h : MemOk s) : MemOk (takeModes l s) := h.of_quiet ((Quiet.refl false s).takeModes ..)

theorem toSeek {l : Nat} {keep : Bool} (h : MemOk s) : MemOk (toSeek l keep s) := h.of_quiet ((Quiet.refl false s).toSeek ..)

theorem groupSeek {l : Nat} {keep : Bool} (h : MemOk s) : MemOk (groupSeek l keep s) := h.of_quiet ((Quiet.refl false s).groupSeek ..)

theorem laneResync {l : Nat} (h : MemOk s) : MemOk (laneResync l s) := h.of_quiet ((Quiet.refl false s).laneResync ..)

theorem startTraining {l : Nat} (h : MemOk s) : MemOk (startTraining l s) := h.of_quiet ((Quiet.refl false s).startTraining ..)

theorem enterNormal {f icred : Nat} {ls : List Nat} (h : MemOk s) : MemOk (enterNormal f icred ls s) := onLane (foldl h fun h => h)

theorem dropStream {f : Nat} {ls : List Nat} (h : MemOk s) : MemOk (dropStream f ls s) := foldl (loseFlights (replayRelease h)) fun h => takeModes h

theorem trainBlock {l : Nat} {b : TrainBody} (h : MemOk s) : MemOk (trainBlock l b s) := by
  unfold Machine.trainBlock
  extract_lets _ _ go _ seen _ s1 s2
  have hgo {x0} {u : State} (h : MemOk u) : MemOk (go x0 u) := foldl h fun h => h
  have hs2 : MemOk s2 := enterNormal (ackFlights h)
  split
  · exact h
  · split
    · exact ite (ite (ite (hgo h) (hgo h)) h) h
    · exact ite (ite (groupSeek h) (ite (enterNormal h) h)) h
    · exact ite (hgo h) (ite (groupSeek h) h)
    · exact ite (hgo (dropStream h)) (ite (ite h (ite (ite hs2 (ite (replay hs2) (loseFlights (onLane hs2)))) h)) h)
    · exact h

theorem seeHeader {l : Nat} {valid : Bool} (h : MemOk s) : MemOk (seeHeader l valid s) := ite (ite (groupSeek (laneErr h)) h) h

theorem rxItems {f : Nat} {xs : List StreamItem} (h : MemOk s) : MemOk (rxItems f xs s) := h

theorem settleLate {f : Nat} {half : Bool} (h : MemOk s) : MemOk (settleLate f half s) := by
  unfold Machine.settleLate
  split
  · extract_lets s1
    split
    · split
      · exact laneWordLeft h
    · exact h
  · exact h

theorem badTimed {l f : Nat} (h : MemOk s) : MemOk (badTimed l f s) := laneErr h

theorem rxTimed {l f : Nat} {g : State → State} (h : MemOk s) (hg : ∀ {s}, MemOk s → MemOk (g s)) : MemOk (rxTimed l f g s) := ite (badTimed h) (hg h)

theorem settleTimed {f : Nat} {half : Bool} (h : MemOk s) : MemOk (settleTimed f half s) := ite (settleLate h) h

theorem blockSeen {l : Nat} {hdr fixed train : Bool} (h : MemOk s) : MemOk (blockSeen l hdr fixed train s) := by
  unfold Machine.blockSeen
  extract_lets s1 s2
  have hs1 : MemOk s1 := ite h h
  have hs2 : MemOk s2 := seeHeader hs1
  exact ite (onLane hs2) hs2

theorem ctlSeen {l : Nat} {sb : BitVec 4} {half fixed train : Bool} (h : MemOk s) : MemOk (ctlSeen l sb half fixed train s) := settleTimed (onLane (blockSeen h))

theorem endAbortRun {f : Nat} (h : MemOk s) : MemOk (endAbortRun f s) := ite h h

theorem deliverFlight {f : Nat} {half : Bool} {bs : List Blk} (h : MemOk s) : MemOk (deliverFlight f half bs s) := onLane (rxItems (ite h (settleLate h)))

theorem flightClose {l fcrc fseq : Nat} {half : Bool} (h : MemOk s) : MemOk (flightClose l fcrc fseq half s) := ite (ite h h) (ite (deliverFlight h) (ite h h))

theorem sendTurn {f n : Nat} {b : Blk} (h : MemOk s) : MemOk (sendTurn f n b s) := ite h h

theorem txItem {f : Nat} {w : AWord} (h : MemOk s) : MemOk (txItem f w s) := by
  unfold Machine.txItem
  extract_lets _ s1 _ _ _ _ _ _ s2
  have hs2 : MemOk s2 := ite h h
  split
  · exact h
  · split
    · exact h
    · split
      · exact ite h h
      · split
        · exact h
        · split
          · exact onLane hs2
          · exact onLane hs2

theorem takeTokens {f g : Nat} {w : AWord} (h : MemOk s) : MemOk (takeTokens f g w s) := by
  unfold Machine.takeTokens
  extract_lets _ _ _ _ s1 s2
  have hs1 : MemOk s1 := foldl h fun h => takeTrack h
  have hs2 : MemOk s2 := ite hs1 (setF hs1)
  exact onLane hs2

theorem dropAhead {f g : Nat} (h : MemOk s) : MemOk (dropAhead f g s) := by
  unfold Machine.dropAhead
  refine foldl h fun h => ?_
  split
  · exact ite h (takeTrack h)
  · exact h

theorem txCollect {f g fuel : Nat} (h : MemOk s) : MemOk (txCollect f g fuel s) := by
  induction fuel generalizing s with
  | zero => exact h
  | succ fuel ih =>
    unfold Machine.txCollect
    extract_lets
    split
    · exact h
    · split
      · exact h
      · split
        · split
          · exact ite h (ih (txItem (takeTokens h)))
          · exact dropAhead h
        · exact ih (txItem (onLane (takeTrack h)))

theorem burstAbort {f cause : Nat} (h : MemOk s) : MemOk (burstAbort f cause s) := laneErr (raiseAev h)

theorem burstFault {f : Nat} (h : MemOk s) : MemOk (burstFault f s) := ite (burstAbort h) h

theorem sendReturn {f n : Nat} (h : MemOk s) : MemOk (sendReturn f n s) := ite (onLane (sendTurn h)) (onLane (sendTurn h))

theorem closeFlight {f n : Nat} (h : MemOk s) : MemOk (closeFlight f n s) := onLane (sendTurn h)

theorem txNext {f n : Nat} (h : MemOk s) : MemOk (txNext f n s) := by
  unfold Machine.txNext
  extract_lets
  split
  · exact onLane (sendTurn h)
  · exact ite (ite (onLane (sendTurn h)) (sendTurn h)) (onLane (sendTurn h))

theorem txUntimed {f n : Nat} (h : MemOk s) : MemOk (txUntimed f n s) := ite (sendReturn h) (ite (sendTurn h) (ite (closeFlight h) (txNext h)))

theorem txTimed {f n : Nat} (h : MemOk s) : MemOk (txTimed f n s) := by
  unfold Machine.txTimed
  extract_lets x front
  have hfront {u : State} (h : MemOk u) : MemOk (front u) := by
    unfold front
    split
    · exact sendTurn h
    · exact onLane (sendTurn h)
  exact ite (sendReturn h) (ite (ite (onLane (sendTurn h)) (hfront (ite (burstAbort h) h))) (ite (hfront h) (ite (sendReturn h) (sendTurn h))))

theorem quadConfig {q v : Nat} (h : MemOk s) : MemOk (quadConfig q v s) := ite h (ite h (foldl (ite h h) fun h => ite (startTraining h) h))

theorem laneCtl {l v : Nat} (h : MemOk s) : MemOk (laneCtl l v s) := by
  unfold Machine.laneCtl
  split
  · exact h
  · extract_lets _ s1 _ s2
    have hs2 : MemOk s2 := ite h h
    exact ite (ite h h) (ite (startTraining (setF hs2)) (ite (takeModes hs2) hs2))

theorem laneClrcnt {l : Nat} (h : MemOk s) : MemOk (laneClrcnt l s) := h

/-! ### Ring -/

theorem onRing {g : Machine.Ring → Machine.Ring} (h : MemOk s) : MemOk (s.onRing g) := h

theorem ringIn {r n : Nat} {g : State → State} (h : MemOk s) (hg : ∀ {s}, MemOk s → MemOk (g s)) : MemOk (ringIn r n g s) := ite h (ite (hg h) h)

theorem emitFrame {rings : List Nat} {ty : Nat} {f : RingFrame} (h : MemOk s) : MemOk (emitFrame rings ty f s) := h.of_quiet ((Quiet.refl false s).emitFrame ..)

theorem originate {ty : Nat} {f : RingFrame} (h : MemOk s) : MemOk (originate ty f s) := h.of_quiet ((Quiet.refl false s).originate ..)

theorem holdPins {sel : Nat → Bool} (h : MemOk s) : MemOk (holdPins sel s) := h

theorem routeBell {r : Nat} (h : MemOk s) : MemOk (routeBell r s) := h.of_quiet ((Quiet.refl false s).routeBell ..)

theorem routeEdge {r : Nat} (h : MemOk s) : MemOk (routeEdge r s) := h.of_quiet ((Quiet.refl false s).routeEdge ..)

theorem routeLevelAct {r ev : Nat} {up : Bool} (h : MemOk s) : MemOk (routeLevelAct r ev up s) := h.of_quiet ((Quiet.refl false s).routeLevelAct ..)

theorem routeAct {ty : Nat} {f : RingFrame} (h : MemOk s) : MemOk (routeAct ty f s) := h.of_quiet ((Quiet.refl false s).routeAct ..)

theorem rxEnter {fsum : Bool} {f : RingFrame} (h : MemOk s) : MemOk (rxEnter fsum f s) := h.of_quiet ((Quiet.refl false s).rxEnter ..)

theorem deliverTimed {ty : Nat} {f : RingFrame} (h : MemOk s) : MemOk (deliverTimed ty f s) := h.of_quiet ((Quiet.refl false s).deliverTimed ..)

theorem masterLeft {src : Nat} (h : MemOk s) : MemOk (masterLeft src s) := h.of_quiet ((Quiet.refl false s).masterLeft ..)

theorem deliver {ty : Nat} {f : RingFrame} (h : MemOk s) : MemOk (deliver ty f s) := h.of_quiet ((Quiet.refl false s).deliver ..)

theorem sendFrame {rings : List Nat} {ty : Nat} {f : RingFrame} (h : MemOk s) : MemOk (sendFrame rings ty f s) := h.of_quiet ((Quiet.refl false s).sendFrame ..)

theorem ringSend (h : MemOk s) : MemOk (ringSend s) := by
  unfold Machine.ringSend
  split
  · exact h
  · split
    · exact h
    · exact sendFrame h

theorem seqGap {r : Nat} {f : RingFrame} (h : MemOk s) : MemOk (seqGap r f s) := by
  unfold Machine.seqGap
  extract_lets src q key old heard s1
  have hs1 : MemOk s1 := h
  clear_value s1 old
  split
  · exact hs1
  · exact ite hs1 (foldl hs1 fun h => ite h (ite h h))

theorem recvFrame {r ty : Nat} {f : RingFrame} {fwd : RingFrame → RingFrame} {take : Bool → State → State} (h : MemOk s) (htake : ∀ {x0 s}, MemOk s → MemOk (take x0 s)) :
    MemOk (recvFrame r ty f fwd take s) := by
  unfold Machine.recvFrame
  split
  · exact ringIn h id
  · refine ringIn h fun h => ?_
    split
    · exact h
    · split
      · exact h
      · extract_lets s1
        have hs1 : MemOk s1 := seqGap (emitFrame h)
        exact ite (ite (htake hs1) (htake (onRing hs1))) hs1

theorem recvPlain {r ty : Nat} {f : RingFrame} (h : MemOk s) : MemOk (recvPlain r ty f s) := recvFrame h (fun h => ite (deliver h) h)

theorem correctTime {t' : Nat} (h : MemOk s) : MemOk (correctTime t' s) := ite h h

theorem takeTime {r : Nat} {f : RingFrame} {first : Bool} (h : MemOk s) : MemOk (takeTime r f first s) := by
  unfold Machine.takeTime
  extract_lets _ _ s1
  have hs1 : MemOk s1 := ite h h
  split
  · exact h
  · split
    · split
      · exact hs1
      · extract_lets s2
        have hs2 : MemOk s2 := ite (onRing hs1) hs1
        exact ite (correctTime (onRing hs2)) hs2
    · exact correctTime (onRing hs1)

theorem timeCount (h : MemOk s) : MemOk (timeCount s) := ite h (ite h (ite h h))

theorem masterGone (h : MemOk s) : MemOk (masterGone s) := by
  unfold Machine.masterGone
  split
  · exact ite (masterLeft h) h
  · exact h

theorem ringClock (h : MemOk s) : MemOk (ringClock s) := ite h (masterGone (onRing (timeCount h)))

theorem probe (h : MemOk s) : MemOk (probe s) := onRing (emitFrame h)

theorem dupId (h : MemOk s) : MemOk (dupId s) := h

theorem leaveStep (h : MemOk s) : MemOk (leaveStep s) := h

theorem ringJoin (h : MemOk s) : MemOk (ringJoin s) := h.of_quiet ((Quiet.refl false s).ringJoin)

theorem ringLeave (h : MemOk s) : MemOk (ringLeave s) := h.of_quiet ((Quiet.refl false s).ringLeave)

theorem ringDiapause (h : MemOk s) : MemOk (ringDiapause s) := h.of_quiet ((Quiet.refl false s).ringDiapause)

theorem ringReturns (h : MemOk s) : MemOk (ringReturns s) := h.of_quiet ((Quiet.refl false s).ringReturns)

theorem mbSend {v : Nat} (h : MemOk s) : MemOk (mbSend v s) := ite (originate h) h

theorem rxHeader (h : MemOk s) : MemOk (rxHeader s).2 := by
  unfold Machine.rxHeader
  extract_lets _ s1
  split
  · exact h
  · exact h

theorem rxPayload (h : MemOk s) : MemOk (rxPayload s).2 := by
  unfold Machine.rxPayload
  split
  · exact h
  · exact h

theorem noteFails {p : Nat} (h : MemOk s) : MemOk (noteFails p s) := by
  unfold Machine.noteFails
  split
  · exact h
  · exact ite h (ite (originate h) h)

theorem failsFollow {p : Nat} (h : MemOk s) : MemOk (failsFollow p s) := by
  unfold Machine.failsFollow
  split
  · exact h
  · exact h

theorem sendFsum {p pcommit : Nat} {lost : Bool} (h : MemOk s) : MemOk (sendFsum p pcommit lost s) := h.of_quiet ((Quiet.refl false s).sendFsum ..)

theorem trigEvent {k : Nat} (h : MemOk s) : MemOk (trigEvent k s) := by
  unfold Machine.trigEvent
  extract_lets _ s1 s2 s3
  have hs2 : MemOk s2 := ite (ringPrimary h) h
  have hs3 : MemOk s3 := ite (originate hs2) hs2
  exact ite (same hs3 rfl) hs3

theorem trigLevel {k : Nat} {high : Bool} (h : MemOk s) : MemOk (trigLevel k high s) := ite (ite h (trigEvent h)) (ite h h)

theorem trigEdge {k : Nat} {rise : Bool} (h : MemOk s) : MemOk (trigEdge k rise s) := ite (trigLevel h) (ite (ite h (trigEvent h)) h)

theorem trigClock {k : Nat} (h : MemOk s) : MemOk (trigClock k s) := by
  unfold Machine.trigClock
  extract_lets _ s1 s2
  have hs2 : MemOk s2 := ite h (ite h (trigEdge h))
  split
  · exact ite (onRing (setF hs2)) hs2
  · exact hs2

theorem trigClocks (h : MemOk s) : MemOk (trigClocks s) := ite h (foldl h fun h => trigClock h)

/-! ### SeqOps -/

theorem setSeq {n : Nat} {x : Machine.Seq} (h : MemOk s) : MemOk (s.setSeq n x) := h

theorem onSeq {n : Nat} {g : Machine.Seq → Machine.Seq} (h : MemOk s) : MemOk (s.onSeq n g) := h

theorem seqWrite {n key : Nat} {g : State → State} (h : MemOk s) (hg : ∀ {s}, MemOk s → MemOk (g s)) : MemOk (seqWrite n key g s) := ite (hg h) h

theorem partFollows {n : Nat} (h : MemOk s) : MemOk (partFollows n s) := h.of_quiet ((Quiet.refl true s).partFollows ..)

theorem resetCore {n : Nat} (h : MemOk s) : MemOk (resetCore n s) := h.of_quiet ((Quiet.refl true s).resetCore ..)

theorem seqDoze {q : Nat} (h : MemOk s) : MemOk (seqDoze q s) := ite h h

theorem seqRun {n : Nat} {run : Bool} (h : MemOk s) : MemOk (seqRun n run s) := ite (ite h (ite (partFollows h) h)) (ite (partFollows h) h)

theorem aevClear {n bits : Nat} (h : MemOk s) : MemOk (aevClear n bits s) := foldl h fun h => h

theorem pflagDrive {n drv : Nat} (h : MemOk s) : MemOk (pflagDrive n drv s) := by
  unfold Machine.pflagDrive
  split
  · exact h
  · exact foldl h fun h => h

theorem intakeHold {n : Nat} {hold : Bool} (h : MemOk s) : MemOk (intakeHold n hold s) := ite h h

theorem setPart {p : Nat} {x : Machine.Part} (h : MemOk s) : MemOk (s.setPart p x) := h

theorem seeFlag {p : Nat} (h : MemOk s) : MemOk (seeFlag p s) := by
  unfold Machine.seeFlag
  split
  · exact h
  · extract_lets _ _ _ s1 _ s2 s3
    have hs1 : MemOk s1 := foldl h fun h => ite h h
    have hs2 : MemOk s2 := setPart hs1
    have hs3 : MemOk s3 := setF (setF hs2)
    exact ite (noteFails (ite hs3 (raiseAev hs3))) (setF hs2)

theorem recordAev {n : Nat} {e : AEv} (h : MemOk s) : MemOk (recordAev n e s) := bump (setF (ite h h))

theorem dmafqRead {n : Nat} (h : MemOk s) : MemOk (dmafqRead n s).2 := by
  unfold Machine.dmafqRead
  split
  · exact h
  · exact h

/-! ### Bus -/

theorem cxlNoted {dev : Nat} (h : MemOk s) : MemOk (s.cxlNoted dev) := h.of_quiet ((Quiet.refl false s).cxlNoted ..)

theorem bankEcc {n off : Nat} (h : MemOk s) : MemOk (bankEcc n off s).2 := h.of_quiet ((Quiet.refl false s).bankEcc ..)

theorem bankStore {n off size data : Nat} {bad : Bool} (h : MemOk s) : MemOk (bankStore n off size data bad s) := h.of_quiet ((Quiet.refl false s).bankStore ..)

theorem bankCollision {n off : Nat} (h : MemOk s) : MemOk (bankCollision n off s) := h.of_quiet ((Quiet.refl false s).bankCollision ..)

theorem busRead {pa size : Nat} (h : MemOk s) : MemOk (busRead pa size s).2 := h.of_quiet ((Quiet.refl false s).busRead ..)

theorem busWrite {pa size data tags : Nat} {bad host clash : Bool} (h : MemOk s) : MemOk (busWrite pa size data tags bad host clash s).2 :=
  h.of_quiet ((Quiet.refl false s).busWrite ..)

theorem busPost {pa size data src : Nat} {clash : Bool} (h : MemOk s) : MemOk (busPost pa size data src clash s).2 := h.of_quiet ((Quiet.refl false s).busPost ..)

theorem ownerMeets {pa : Nat} (h : MemOk s) : MemOk (ownerMeets pa s).2 := by
  unfold Machine.ownerMeets
  split
  · split
    · exact h
    · exact h
  · exact h

theorem busReads {base off size : Nat} (h : MemOk s) : MemOk (busReads base off size s).2 := by
  refine foldl_snd h ?_
  intro p x h
  split
  · exact h
  · split
    next e => exact of_eq e (busRead h)
    next e => exact of_eq e (busRead h)

theorem busWrites {base off size data : Nat} {bad host clash : Bool} (h : MemOk s) : MemOk (busWrites base off size data bad host clash s).2 := by
  refine foldl_snd h ?_
  intro p x h
  split
  · exact busWrite h
  · exact h

theorem readPte {pa part src : Nat} (h : MemOk s) : MemOk (readPte pa part src s).2 := h.of_quiet ((Quiet.refl false s).readPte ..)

theorem walk {part src va level base : Nat} (h : MemOk s) : MemOk (walk part src va level base s).2 := h.of_quiet ((Quiet.refl false s).walk ..)

theorem tlbKeep {asid va bits : Nat} {leaf : Word} (h : MemOk s) : MemOk (tlbKeep asid va bits leaf s) := h.of_quiet ((Quiet.refl false s).tlbKeep ..)

theorem stands {e : TlbEntry} (h : MemOk s) : MemOk (stands e s).2 := h.of_quiet ((Quiet.refl false s).stands ..)

theorem standing {a : List TlbEntry} (h : MemOk s) : MemOk (standing a s).2 := h.of_quiet ((Quiet.refl false s).standing ..)

theorem leafOf {asid ptbase part src va : Nat} (h : MemOk s) : MemOk (leafOf asid ptbase part src va s).2 := h.of_quiet ((Quiet.refl false s).leafOf ..)

theorem translate {asid ptbase part src va : Nat} {rights : Word → Bool} (h : MemOk s) : MemOk (translate asid ptbase part src va rights s).2 :=
  h.of_quiet ((Quiet.refl false s).translate ..)

theorem tlbInvalidate {part : Option Nat} {v : Word} (h : MemOk s) : MemOk (tlbInvalidate part v s) := ite h h

/-! ### Dma -/

theorem queueFault {n : Nat} {e : FaultEntry} (h : MemOk s) : MemOk (queueFault n e s) := ite h h

theorem setCh {c : Nat} {x : Chan} (h : MemOk s) : MemOk (s.setCh c x) := h

theorem chXlt {c va : Nat} {rights : Word → Bool} (h : MemOk s) : MemOk (chXlt c va rights s).2 := h.of_quiet ((Quiet.refl false s).chXlt ..)

theorem chReport {c ended fcode fside : Nat} (h : MemOk s) : MemOk (chReport c ended fcode fside s) := h.of_quiet ((Quiet.refl false s).chReport ..)

theorem chSuspend {c fcode fside va : Nat} (h : MemOk s) : MemOk (chSuspend c fcode fside va s) := by
  unfold Machine.chSuspend
  extract_lets s1 s2 s3
  have hs1 : MemOk s1 := ite h (chReport h)
  have hs2 : MemOk s2 := setF (setF (setF hs1))
  have hs3 : MemOk s3 := setF hs2
  exact ite (queueFault hs3) (sendMsix hs3)

theorem chNotify {c : Nat} (h : MemOk s) : MemOk (chNotify c s) := h.of_quiet ((Quiet.refl false s).chNotify ..)

theorem chEnd {c : Nat} (h : MemOk s) : MemOk (chEnd c s) := by
  unfold Machine.chEnd
  extract_lets _ s1
  have hs1 : MemOk s1 := chNotify (busPost (chReport h))
  exact ite (setF (setCh hs1)) (setF (setCh hs1))

theorem chMaybeEnd {c : Nat} (h : MemOk s) : MemOk (chMaybeEnd c s) := ite (chEnd h) h

theorem chGo {c : Nat} (h : MemOk s) : MemOk (chGo c s) := ite h h

theorem chResume {c : Nat} (h : MemOk s) : MemOk (chResume c s) := ite h h

theorem busWords {n pa : Nat} (h : MemOk s) : MemOk (busWords n pa s).2 := h.of_quiet ((Quiet.refl false s).busWords ..)

theorem chWords {c : Nat} {abort : Bool} (h : MemOk s) : MemOk (chWords c abort s).2 := h.of_quiet ((Quiet.refl false s).chWords ..)

theorem chFetch {c : Nat} (h : MemOk s) : MemOk (chFetch c s) := by
  unfold Machine.chFetch
  extract_lets
  split
  next e =>
    have h1 := of_eq e (chWords h)
    exact ite h1 (chSuspend h1)
  next e =>
    have h1 := of_eq e (chWords h)
    exact ite (chSuspend h1) (ite (chSuspend h1) (chMaybeEnd h1))

theorem chAbort {c : Nat} (h : MemOk s) : MemOk (chAbort c s) := h.of_quiet ((Quiet.refl true s).chAbort ..)

theorem chSource {c size : Nat} (h : MemOk s) : MemOk (chSource c size s).2 := by
  unfold Machine.chSource
  extract_lets
  split
  · exact h
  · split
    next e => exact of_eq e (chXlt h)
    next e =>
      have h1 := of_eq e (chXlt h)
      split
      · exact h1
      · split
        next e1 =>
          have h11 := of_eq e1 (busRead h1)
          exact h11
        next e1 =>
          have h11 := of_eq e1 (busRead h1)
          exact h11

theorem chUnit {c : Nat} {clash : Bool} (h : MemOk s) : MemOk (chUnit c clash s) := by
  unfold Machine.chUnit
  extract_lets
  split
  next e =>
    have h1 := of_eq e (chSource h)
    exact ite h1 (chSuspend h1)
  next e =>
    have h1 := of_eq e (chSource h)
    split
    · exact chSuspend h1
    · split
      next e1 =>
        have h11 := of_eq e1 (chXlt h1)
        exact chSuspend h11
      next e1 =>
        have h11 := of_eq e1 (chXlt h1)
        extract_lets
        split
        next e2 =>
          have h12 := of_eq e2 (busWrite h11)
          exact chSuspend h12
        next e2 => exact of_eq e2 (busWrite h11)
        next e2 =>
          have h12 := of_eq e2 (busWrite h11)
          exact chMaybeEnd (setCh (ite (logErr h12) h12))

theorem dmaWrite {key : Nat} {g : State → State} (h : MemOk s) (hg : ∀ {s}, MemOk s → MemOk (g s)) : MemOk (dmaWrite key g s) := ite (hg h) h

/-! ### Msp -/

theorem onMsp {p k : Nat} {g : Msp → Msp} (h : MemOk s) : MemOk (s.onMsp p k g) := h

theorem mspXlt {p k va : Nat} {rights : Word → Bool} (h : MemOk s) : MemOk (mspXlt p k va rights s).2 := by
  unfold Machine.mspXlt
  extract_lets
  split
  next e => exact of_eq e (leafOf h)
  next e =>
    have h1 := of_eq e (leafOf h)
    split
    · exact h1
    · exact h1

theorem mspFaultEntry {p k : Nat} (h : MemOk s) : MemOk (mspFaultEntry p k s) := queueFault h

theorem timedFault {p k code : Nat} (h : MemOk s) : MemOk (timedFault p k code s) := mspFaultEntry (setF (setF (foldl h fun h => burstFault h)))

theorem mspSuspend {p k code : Nat} (h : MemOk s) : MemOk (mspSuspend p k code s) := mspFaultEntry h

theorem readEnd {p k : Nat} (h : MemOk s) : MemOk (readEnd p k s) := by
  unfold Machine.readEnd
  extract_lets s1 s2
  have hs2 : MemOk s2 := by
    unfold s2
    split
    · exact h
    · exact h
    · exact h
  exact ite (mspNotify (setF hs2)) (readDone hs2)

theorem pagesOf {part src ptbase stop fuel va : Nat} (h : MemOk s) : MemOk (pagesOf part src ptbase stop fuel va s).2 := by
  induction fuel generalizing va s with
  | zero => exact h
  | succ fuel ih =>
    unfold Machine.pagesOf
    split
    · exact h
    · split
      next e => exact of_eq e (walk h)
      next e =>
        have h1 := of_eq e (walk h)
        split
        · exact h1
        · split
          next e' => exact of_eq e' (ih h1)
          next e' => exact of_eq e' (ih h1)

theorem armChecks {p k : Nat} (h : MemOk s) : MemOk (armChecks p k s).2 := by
  unfold Machine.armChecks
  extract_lets
  split
  · exact h
  · split
    next e => exact of_eq e (pagesOf h)
    next e => exact of_eq e (pagesOf h)

theorem arm {p k : Nat} (h : MemOk s) : MemOk (arm p k s) := by
  unfold Machine.arm
  split
  next e =>
    have h1 := of_eq e (armChecks h)
    exact h1
  next e =>
    have h1 := of_eq e (armChecks h)
    exact setF (onMsp (foldl h1 fun h => ite h (tlbKeep h)))

theorem mspGo {p k : Nat} (h : MemOk s) : MemOk (mspGo p k s) := ite h (ite (arm h) (ite (ite (readEnd h) h) h))

theorem mspResume {p k : Nat} (h : MemOk s) : MemOk (mspResume p k s) := ite h h

theorem mspAbort {p k : Nat} (h : MemOk s) : MemOk (mspAbort p k s) := h.of_quiet ((Quiet.refl true s).mspAbort ..)

theorem readFault {p k code : Nat} (h : MemOk s) : MemOk (readFault p k code s) := ite (timedFault h) (mspSuspend h)

theorem readWord {p k : Nat} (h : MemOk s) : MemOk (readWord p k s) := by
  unfold Machine.readWord
  extract_lets
  split
  next e =>
    have h1 := of_eq e (mspXlt h)
    exact readFault h1
  next e =>
    have h1 := of_eq e (mspXlt h)
    split
    · exact readFault h1
    · split
      · exact h1
      · split
        next e1 =>
          have h11 := of_eq e1 (busRead h1)
          exact readFault h11
        next e1 =>
          have h11 := of_eq e1 (busRead h1)
          extract_lets s1 s2 s3 s4
          have hs3 : MemOk s3 := ite (ite (logErr h11) h11) h11
          have hs4 : MemOk s4 := setF hs3
          exact ite (readEnd hs4) (ite (mspNotify (setF hs4)) hs4)

theorem writeItem {p f : Nat} {w : AWord} {clash : Bool} {next : State → State} (h : MemOk s) (hnext : ∀ {s}, MemOk s → MemOk (next s)) :
    MemOk (writeItem p f w clash next s) := by
  unfold Machine.writeItem
  extract_lets
  split
  next e =>
    have h1 := of_eq e (mspXlt h)
    exact mspSuspend h1
  next e =>
    have h1 := of_eq e (mspXlt h)
    extract_lets
    split
    · exact hnext (ite h1 h1)
    · split
      next e1 =>
        have h11 := of_eq e1 (busWrite h1)
        exact mspSuspend h11
      next e1 => exact of_eq e1 (busWrite h1)
      next e1 =>
        have h11 := of_eq e1 (busWrite h1)
        extract_lets s1 s2
        have hs1 : MemOk s1 := ite (bump (ite h11 h11)) h11
        have hs2 : MemOk s2 := setF hs1
        exact hnext (ite (setF hs2) hs2)

/-! ### FailEngine -/

theorem setUnit {u : Nat} {x : FUnit} (h : MemOk s) : MemOk (s.setUnit u x) := h

theorem onFe {p : Nat} {g : FePart → FePart} (h : MemOk s) : MemOk (s.onFe p g) := h

theorem feOn {g : Fe → Fe} (h : MemOk s) : MemOk (s.feOn g) := h

theorem feWrite {key : Nat} {g : State → State} (h : MemOk s) (hg : ∀ {s}, MemOk s → MemOk (g s)) : MemOk (feWrite key g s) := ite (hg h) h

theorem mapError {k p u : Nat} (h : MemOk s) : MemOk (mapError k p u s) := h.of_quiet ((Quiet.refl false s).mapError ..)

theorem feStore {pa : Nat} {a : List Nat} (h : MemOk s) : MemOk (feStore pa a s).2 := h.of_quiet ((Quiet.refl false s).feStore ..)

theorem mapWrite {k u bytes : Nat} {ws : List Nat} (h : MemOk s) : MemOk (mapWrite k u bytes ws s) := h.of_quiet ((Quiet.refl false s).mapWrite ..)

theorem tileOut {k : Nat} {t' : Tile} (h : MemOk s) : MemOk (tileOut k t' s) := h.of_quiet ((Quiet.refl false s).tileOut ..)

theorem flushMaps {sel : Nat → Bool} (h : MemOk s) : MemOk (flushMaps sel s) := h.of_quiet ((Quiet.refl false s).flushMaps ..)

theorem tileMerge {k : Nat} {r : FeRec} (h : MemOk s) : MemOk (tileMerge k r s) := by
  unfold Machine.tileMerge
  extract_lets
  split
  · exact h
  · split
    next e =>
      have h1 := of_eq e <| by
        split
        · exact h
        · exact h
      extract_lets s1
      have hs1 : MemOk s1 := by
        unfold s1
        split
        · exact h1
        · split
          · exact tileOut h1
          · exact h1
      exact feOn hs1

theorem ringPut {r : FeResult} (h : MemOk s) : MemOk (ringPut r s) := h.of_quiet ((Quiet.refl false s).ringPut ..)

theorem placeResult {r : FeResult} (h : MemOk s) : MemOk (placeResult r s).2 := h.of_quiet ((Quiet.refl false s).placeResult ..)

theorem setTrk {t' v : Nat} (h : MemOk s) : MemOk (setTrk t' v s) := h.of_quiet ((Quiet.refl false s).setTrk ..)

theorem trkUpd {t' cnt : Nat} {live : Bool} (h : MemOk s) : MemOk (trkUpd t' cnt live s) := h.of_quiet ((Quiet.refl false s).trkUpd ..)

theorem mrRow {u r : Nat} (h : MemOk s) : MemOk (mrRow u r s) := h.of_quiet ((Quiet.refl false s).mrRow ..)

theorem mrCol {u l : Nat} (h : MemOk s) : MemOk (mrCol u l s) := h.of_quiet ((Quiet.refl false s).mrCol ..)

theorem settleUnit {u a : Nat} (h : MemOk s) : MemOk (settleUnit u a s) := h.of_quiet ((Quiet.refl false s).settleUnit ..)

theorem fatOr {p u row col mask : Nat} (h : MemOk s) : MemOk (fatOr p u row col mask s).2 := h.of_quiet ((Quiet.refl false s).fatOr ..)

theorem earlyResult {u reason : Nat} (h : MemOk s) : MemOk (earlyResult u reason s) := h.of_quiet ((Quiet.refl false s).earlyResult ..)

theorem analyse {r : FeRec} (h : MemOk s) : MemOk (analyse r s) := h.of_quiet ((Quiet.refl false s).analyse ..)

theorem discardRec {p kind : Nat} (h : MemOk s) : MemOk (discardRec p kind s) := bump (ite (logErr h) h)

theorem sliceRecord {k p : Nat} {it : FailItem} (h : MemOk s) : MemOk (sliceRecord k p it s) :=
  ite (discardRec h) (ite (discardRec h) (ite (discardRec h) (feOn (ite (tileMerge h) h))))

theorem homeRecord {h' : Nat} (h : MemOk s) : MemOk (homeRecord h' s) := h.of_quiet ((Quiet.refl false s).homeRecord ..)

theorem drainHome (h : MemOk s) : MemOk (drainHome s) := h.of_quiet ((Quiet.refl false s).drainHome)

theorem queueSolve {u : Nat} (h : MemOk s) : MemOk (queueSolve u s) := ite h h

theorem sliceMark {p i : Nat} {it : FailItem} (h : MemOk s) : MemOk (sliceMark p i it s) := by
  unfold Machine.sliceMark
  extract_lets _ _ _ s1 s2 s3
  have hs2 : MemOk s2 := ite h h
  have hs3 : MemOk s3 := flushMaps (drainHome hs2)
  exact ite (ite (foldl hs3 fun h => ite (queueSolve h) h) hs3) hs2

theorem writeHeader {p : Nat} (h : MemOk s) : MemOk (writeHeader p s) := h.of_quiet ((Quiet.refl false s).writeHeader ..)

theorem commit {p : Nat} (h : MemOk s) : MemOk (commit p s) := h.of_quiet ((Quiet.refl false s).commit ..)

theorem commitDue {p : Nat} (h : MemOk s) : MemOk (commitDue p s) := h.of_quiet ((Quiet.refl false s).commitDue ..)

theorem feEnd {p code : Nat} (h : MemOk s) : MemOk (feEnd p code s) := h

theorem feCmd {p : Nat} {g : State → State} (h : MemOk s) (hg : ∀ {s}, MemOk s → MemOk (g s)) : MemOk (feCmd p g s) := ite h (hg h)

theorem feArm {p u : Nat} (h : MemOk s) : MemOk (feArm p u s) := ite h (setF (onFe (setUnit (flushMaps (drainHome h)))))

theorem armDone {p u : Nat} (h : MemOk s) : MemOk (armDone p u s) := (ite (onMem h fun _ hm => Memory.wipe_wf _ _ _ hm) h)

theorem disarmUnit {u : Nat} (h : MemOk s) : MemOk (disarmUnit u s) := h.of_quiet ((Quiet.refl false s).disarmUnit ..)

theorem feDisarm {p u : Nat} (h : MemOk s) : MemOk (feDisarm p u s) := ite h (feEnd (disarmUnit h))

theorem feSolve {p u : Nat} (h : MemOk s) : MemOk (feSolve p u s) := ite h (ite h (feEnd (queueSolve h)))

theorem feSolveSite {p site : Nat} (h : MemOk s) : MemOk (feSolveSite p site s) := feEnd (foldl h fun h => queueSolve h)

theorem feFlush {p : Nat} (h : MemOk s) : MemOk (feFlush p s) := by
  unfold Machine.feFlush
  extract_lets s1 s2
  have hs1 : MemOk s1 := drainHome h
  have hs2 : MemOk s2 := flushMaps hs1
  exact feEnd (ite (writeHeader hs2) (onFe hs2))

theorem feQuery {p u : Nat} (h : MemOk s) : MemOk (feQuery p u s) := ite h h

theorem feNewRun {p : Nat} (h : MemOk s) : MemOk (feNewRun p s) := h.of_quiet ((Quiet.refl false s).feNewRun ..)

theorem markSol {x : FUnit} {rows cols : List Nat} (h : MemOk s) : MemOk (markSol x rows cols s) := foldl (foldl h fun h => setTrk h) fun h => setTrk h

theorem engineResult {k u : Nat} {r : FeResult} (h : MemOk s) : MemOk (engineResult k u r s) := h.of_quiet ((Quiet.refl false s).engineResult ..)

theorem undecided {k u reason : Nat} (h : MemOk s) : MemOk (undecided k u reason s) := engineResult h

theorem solveEnd {k u : Nat} (h : MemOk s) : MemOk (solveEnd k u s) := by
  unfold Machine.solveEnd
  extract_lets
  split
  next e =>
    have h1 := of_eq e h
    extract_lets
    split
    · exact engineResult (markSol h1)
    · exact engineResult h1

theorem drainHeld {p a : Nat} (h : MemOk s) : MemOk (drainHeld p a s) := h.of_quiet ((Quiet.refl false s).drainHeld ..)

theorem passOn (h : MemOk s) : MemOk (passOn s) := h.of_quiet ((Quiet.refl false s).passOn)

theorem rrqHead {p v : Nat} (h : MemOk s) : MemOk (rrqHead p v s) := h.of_quiet ((Quiet.refl false s).rrqHead ..)

theorem feDisable {p : Nat} (h : MemOk s) : MemOk (feDisable p s) := h.of_quiet ((Quiet.refl false s).feDisable ..)

theorem feWarm (h : MemOk s) : MemOk (feWarm s) := h

end Sys2Proof.Safety.MemOk
end

