-- ==== Sys2Proof/Proofs/MemOkFirmware.lean ====
section
/-!
SUPPORT.  Proofs/MemOkFirmware.lean: the memory stays canonical: loads, scrubbing, mailboxes, repairs, resets and what firmware does.
-/
namespace Sys2Proof.Safety.MemOk
open Sys2Proof.Machine Sys2Proof.Proofs
variable {s t : State}

/-! ### Hold -/

theorem fieldWrite {k : Nat} {v : Word} (h : MemOk s) : MemOk (fieldWrite k v s) := by
  unfold Machine.fieldWrite
  split
  · exact h
  · exact ite (logErr h) h

theorem clkStart {i : Nat} (h : MemOk s) : MemOk (clkStart i s) := h

theorem clkStop {i : Nat} (h : MemOk s) : MemOk (clkStop i s) := h

theorem islReset {i : Nat} (h : MemOk s) : MemOk (islReset i s) := h

theorem requestRelease {ds : List Nat} (h : MemOk s) : MemOk (requestRelease ds s) := h

theorem islHold {i : Nat} (h : MemOk s) : MemOk (islHold i s) := h

theorem islWake {i : Nat} (h : MemOk s) : MemOk (islWake i s) := foldl (foldl (foldl h fun h => checkOp h) fun h => checkSel h) fun h => ite h h

theorem islRelease {i : Nat} (h : MemOk s) : MemOk (islRelease i s) := ite (islWake h) h

theorem seqHold {n : Nat} (h : MemOk s) : MemOk (seqHold n s) := h.of_quiet ((Quiet.refl true s).seqHold ..)

theorem seqReset {n : Nat} (h : MemOk s) : MemOk (seqReset n s) := h.of_quiet ((Quiet.refl true s).seqReset ..)

theorem seqHalt {n : Nat} (h : MemOk s) : MemOk (seqHalt n s) := h.of_quiet ((Quiet.refl true s).seqHalt ..)

theorem seqStop {n : Nat} (h : MemOk s) : MemOk (seqStop n s) := ite (partFollows h) (ite h h)

theorem abortStreams {p : Nat} (h : MemOk s) : MemOk (abortStreams p s) := h.of_quiet ((Quiet.refl true s).abortStreams ..)

theorem burstStop {f : Nat} (h : MemOk s) : MemOk (burstStop f s) := by
  unfold Machine.burstStop
  split
  · split
    next e =>
      have h1 := of_eq e h
      exact h1
  · exact h

theorem stopBursts {p : Nat} (h : MemOk s) : MemOk (stopBursts p s) := foldl h fun h => burstStop h

theorem captureDrop {p : Nat} (h : MemOk s) : MemOk (captureDrop p s) := h.of_quiet ((Quiet.refl false s).captureDrop ..)

theorem laneRest {l : Nat} (h : MemOk s) : MemOk (laneRest l s) := h

theorem requestWake {p : Nat} (h : MemOk s) : MemOk (requestWake p s) := ite h (ite h h)

theorem rungChanged {old : Nat} (h : MemOk s) : MemOk (rungChanged old s) := h.of_quiet ((Quiet.refl false s).rungChanged ..)

/-! ### Load -/

theorem cfgWrite {key : Nat} {g : State → State} (h : MemOk s) (hg : ∀ {s}, MemOk s → MemOk (g s)) : MemOk (cfgWrite key g s) := ite (hg h) h

theorem onCfg {g : Cfg → Cfg} (h : MemOk s) : MemOk (s.onCfg g) := h

theorem flashPut {a : Nat} {bs : List Byte} (h : MemOk s) : MemOk (flashPut a bs s) := onMem h fun _ hm => Memory.puts_wf _ _ _ hm

theorem busPut {pa : Nat} {bs : List Byte} (h : MemOk s) : MemOk (busPut pa bs s) := by
  fun_induction Machine.busPut pa bs s with
  | case1 pa b0 b1 b2 b3 b4 b5 b6 b7 bs s ih => exact ih (busWrite h)
  | case2 => exact h

theorem slotFrame {n i k : Nat} (h : MemOk s) : MemOk (slotFrame n i k s) := ite (busPut h) h

theorem slotFinish {n : Nat} (h : MemOk s) : MemOk (slotFinish n s) := ite (setF (foldl (busPut h) fun h => foldl h fun h => busPut h)) h

theorem cfgBegin {src mode part : Nat} {golden : Bool} {boot : Nat} (h : MemOk s) : MemOk (cfgBegin src mode part golden boot s) :=
  h.of_quiet ((Quiet.refl false s).cfgBegin ..)

theorem setCfgErr {code faddr : Nat} (h : MemOk s) : MemOk (setCfgErr code faddr s) := h

theorem nextReload (h : MemOk s) : MemOk (nextReload s) := h.of_quiet ((Quiet.refl false s).nextReload)

theorem repairReloaded {src p : Nat} (h : MemOk s) : MemOk (repairReloaded src p s) := by
  unfold Machine.repairReloaded
  split
  · exact h
  · exact ite (ite h (logErr h)) h

theorem handled {p : Nat} (h : MemOk s) : MemOk (handled p s) := h.of_quiet ((Quiet.refl false s).handled ..)

theorem cfgEnd (h : MemOk s) : MemOk (cfgEnd s) := by
  unfold Machine.cfgEnd
  extract_lets _ s1 s2 s3
  have hs1 : MemOk s1 := repairReloaded h
  have hs2 : MemOk s2 := onCfg hs1
  have hs3 : MemOk s3 := onCfg (setF (setF (setF hs2)))
  exact nextReload (handled (ite (sendMsix hs3) hs3))

theorem unlockBand {p : Nat} (h : MemOk s) : MemOk (unlockBand p s) := h.of_quiet ((Quiet.refl false s).unlockBand ..)

theorem fullInvalid (h : MemOk s) : MemOk (fullInvalid s) := foldl h fun h => ite h h

theorem fullFail {code : Nat} {late : Bool} (h : MemOk s) : MemOk (fullFail code late s) := by
  unfold Machine.fullFail
  split
  · exact cfgBegin h
  · exact cfgBegin (ite h h)
  · exact cfgEnd (fullInvalid h)
  · exact ite (cfgEnd (fullInvalid h)) (ite (cfgBegin h) (cfgEnd h))

theorem cfgFail {code faddr : Nat} (h : MemOk s) : MemOk (cfgFail code faddr s) := by
  unfold Machine.cfgFail
  extract_lets _ s1
  have hs1 : MemOk s1 := ite h h
  split
  · exact fullFail hs1
  · exact cfgEnd (ite (unlockBand hs1) hs1)
  · exact ite (fullFail hs1) (cfgEnd (ite (setF hs1) hs1))

theorem takeBytes {n : Nat} (h : MemOk s) : MemOk (takeBytes n s).2 := by
  unfold Machine.takeBytes
  split
  · exact h
  · exact h
  · split
    next e => exact of_eq e (busWords h)
    next e => exact of_eq e (busWords h)
  · extract_lets s1
    split
    · exact h
    · exact h

theorem holdBand (h : MemOk s) : MemOk (holdBand s) := by
  unfold Machine.holdBand
  extract_lets _ _ _ s1 s2
  have hs1 : MemOk s1 := ite h h
  have hs2 : MemOk s2 := by
    unfold s2
    refine foldl hs1 fun h => ?_
    extract_lets s3 s4
    have hs3 : MemOk s3 := captureDrop h
    have hs4 : MemOk s4 := ite hs3 (setF hs3)
    exact requestWake (foldl hs4 fun h => seqReset h)
  exact foldl hs2 fun h => h

theorem putFrame {i k : Nat} {d : BitVec 1024} (h : MemOk s) : MemOk (putFrame i k d s) := ite (slotFrame h) h

theorem blankBand (h : MemOk s) : MemOk (blankBand s) := foldl h fun h => foldl h fun h => putFrame h

theorem cfgAdvance (h : MemOk s) : MemOk (cfgAdvance s) := ite h h

theorem headerPass {mode : Nat} {h' : List Byte} (h : MemOk s) : MemOk (headerPass mode h' s) := by
  unfold Machine.headerPass
  extract_lets s1 s2 s3 s4 s5
  have hs2 : MemOk s2 := ite h h
  have hs3 : MemOk s3 := setF (setF hs2)
  have hs4 : MemOk s4 := onCfg hs3
  have hs5 : MemOk s5 := ite (unlockBand hs3) (blankBand (holdBand hs4))
  exact cfgAdvance hs5

theorem acceptRecord {r : List Byte} (h : MemOk s) : MemOk (acceptRecord r s) := (ite h (putFrame h))

theorem claimLive (h : MemOk s) : MemOk (claimLive s) := ite (cfgFail h) (foldl h fun h => h)

theorem commitLive {stagingError : Bool} (h : MemOk s) : MemOk (commitLive stagingError s) := by
  unfold Machine.commitLive
  extract_lets _ s1 s2
  have hs2 : MemOk s2 := by
    unfold s2
    refine foldl h fun h => ?_
    refine foldl h fun h => ?_
    split
    · exact putFrame h
    · exact putFrame h
  exact ite (cfgFail h) (cfgEnd (setCfgErr (slotFinish (unlockBand hs2))))

theorem startLevels {i q : Nat} (h : MemOk s) : MemOk (startLevels i q s) := h

theorem eclodeRegs {i : Nat} (h : MemOk s) : MemOk (eclodeRegs i s) := by
  unfold Machine.eclodeRegs
  exact fieldWrite (fieldWrite (fieldWrite (forkCfgWrite (foldl h fun h => startLevels (fieldWrite (qregWrite h))))))

theorem eclodeIsl {i : Nat} (h : MemOk s) : MemOk (eclodeIsl i s) := ite (requestRelease (eclodeRegs h)) h

theorem eclodePins {p : Nat} (h : MemOk s) : MemOk (eclodePins p s) := foldl h fun h => ite h h

theorem eclode {p : Nat} (h : MemOk s) : MemOk (eclode p s) := setF (slotFinish (foldl (eclodePins h) fun h => eclodeIsl h))

theorem cfgDone (h : MemOk s) : MemOk (cfgDone s) := by
  unfold Machine.cfgDone
  extract_lets s1 s2 _ s3
  have hs1 : MemOk s1 := ite h h
  have hs2 : MemOk s2 := by
    unfold s2
    split
    · exact setF hs1
    · exact setF hs1
    · exact setF hs1
    · exact hs1
  have hs3 : MemOk s3 := ite (same hs2 rfl) hs2
  exact cfgEnd hs3

theorem loadGo {src mode part : Nat} (h : MemOk s) : MemOk (loadGo src mode part s) := by
  unfold Machine.loadGo
  split
  · exact h
  · extract_lets _ _ s1
    have hs1 : MemOk s1 := cfgBegin h
    exact ite (onCfg hs1) hs1

theorem cfgLoadWrite {v : Nat} (h : MemOk s) : MemOk (cfgLoadWrite v s) := by
  unfold Machine.cfgLoadWrite
  extract_lets s1 s2
  have hs2 : MemOk s2 := ite (cfgFail h) h
  exact ite (loadGo hs2) hs2

theorem strayBytes {via : Nat} (h : MemOk s) : MemOk (strayBytes via s) := logErr h

theorem windowPut {bs : List Byte} (h : MemOk s) : MemOk (windowPut bs s) := ite (ite h (cfgFail h)) (strayBytes h)

/-! ### Scrub -/

theorem slotRead {n i k : Nat} (h : MemOk s) : MemOk (slotRead n i k s).2 := h.of_quiet (slotRead_quiet (.refl false s) ..)

theorem scrubLast {i k : Nat} (h : MemOk s) : MemOk (scrubLast i k s) := ite h h

theorem scrubMismatch {i k : Nat} (h : MemOk s) : MemOk (scrubMismatch i k s) := by
  unfold Machine.scrubMismatch
  extract_lets _ log
  have hlog {x0} {u : State} (h : MemOk u) : MemOk (log x0 u) := logErr h
  split
  next e =>
    have h1 := of_eq e <| by
      split
      · exact slotRead h
      · exact h
    split
    next e1 =>
      have h11 := of_eq e <| by
        split
        · exact slotRead h
        · exact h
      exact ite h1 (hlog h1)
    next e1 =>
      have h11 := of_eq e <| by
        split
        · exact slotRead h
        · exact h
      exact ite (hlog h1) (ite (hlog (bump (scrubLast h1))) (hlog (scrubLast h1)))

theorem upsetFrame {i k : Nat} {data : BitVec 1024} {crc : BitVec 32} (h : MemOk s) : MemOk (upsetFrame i k data crc s) := ite h h

theorem readbackPut {d : BitVec 1024} {crc : Nat} (h : MemOk s) : MemOk (readbackPut d crc s) := setF (wr (foldl h fun h => h))

theorem readback {i k : Nat} (h : MemOk s) : MemOk (readback i k s) := ite (readbackPut h) (readbackPut h)

/-! ### Mailbox -/

theorem onMbx {fn : Nat} {g : Mbx → Mbx} (h : MemOk s) : MemOk (s.onMbx fn g) := h

theorem cplWrite {fn : Nat} {c : Cpl} (h : MemOk s) : MemOk (cplWrite fn c s) := by
  unfold Machine.cplWrite
  extract_lets _ _ s1 _ s2 s3
  have hs1 : MemOk s1 := onMem h fun _ hm => Memory.puts_wf _ _ _ hm
  have hs2 : MemOk s2 := setF hs1
  have hs3 : MemOk s3 := ite (onMbx hs2) hs2
  exact sendMsix hs3

theorem cplNext {fn : Nat} (h : MemOk s) : MemOk (cplNext fn s) := by
  unfold Machine.cplNext
  split
  · exact h
  · exact ite (cplWrite h) h

theorem cplFlush {fn : Nat} (h : MemOk s) : MemOk (cplFlush fn s) := (foldl h fun h => cplNext h)

theorem cplPut {fn status code detail : Nat} {dist : Bool} {tag : BitVec 32} {r0 r1 : Word} (h : MemOk s) : MemOk (cplPut fn status code detail dist tag r0 r1 s) :=
  cplFlush h

theorem passTaken {fn fuel : Nat} (h : MemOk s) : MemOk (passTaken fn fuel s) := by
  induction fuel generalizing s with
  | zero => exact h
  | succ fuel ih =>
    unfold Machine.passTaken
    exact ite (ih h) h

theorem takeSlot {fn slot : Nat} {ahead : List Job} (h : MemOk s) : MemOk (takeSlot fn slot ahead s).2 := by
  unfold Machine.takeSlot
  split
  · exact h
  · extract_lets
    split
    · exact h
    · exact h

theorem takeDescs {fn : Nat} (h : MemOk s) : MemOk (takeDescs fn s) := ite (passTaken (foldl_snd h fun h => takeSlot h)) h

theorem takeAll (h : MemOk s) : MemOk (takeAll s) := foldl h fun h => takeDescs h

theorem ringPtrWrite {x : RF} {fn v : Nat} (h : MemOk s) : MemOk (ringPtrWrite x fn v s) := ite h h

theorem sqtWrite {fn v : Nat} (h : MemOk s) : MemOk (sqtWrite fn v s) := takeDescs (ringPtrWrite h)

theorem cqhWrite {fn v : Nat} (h : MemOk s) : MemOk (cqhWrite fn v s) := cplFlush (ringPtrWrite h)

theorem mbxCtlWrite {fn v : Nat} (h : MemOk s) : MemOk (mbxCtlWrite fn v s) := takeDescs (cplFlush (setF (setF (ite h h))))

theorem jobNote {k n : Nat} (h : MemOk s) : MemOk (jobNote k n s) := h

theorem jobSets {k : Nat} {fs : List RF} (h : MemOk s) : MemOk (jobSets k fs s) := h

theorem jobEnd {k : Nat} {j : Job} {status detail : Nat} {r0 r1 : Word} (h : MemOk s) : MemOk (jobEnd k j status detail r0 r1 s) := takeAll (cplPut h)

theorem firmware {code f : Nat} {d : Desc} {run : Nat → Job → State → State} (h : MemOk s) (hrun : ∀ {x0 x1 s}, MemOk s → MemOk (run x0 x1 s)) :
    MemOk (firmware code f d run s) := by
  unfold Machine.firmware
  split
  · exact h
  · split
    · exact h
    · split
      · exact jobEnd h
      · split
        · exact hrun h
        · split
          · exact jobEnd h
          · exact ite (requestWake h) (hrun h)

theorem mbxWarm (h : MemOk s) : MemOk (mbxWarm s) := foldl (foldl h fun h => h) fun h => cplPut h

theorem mbxClear (h : MemOk s) : MemOk (mbxClear s) := (onMem h fun _ hm => Memory.wipe_wf _ _ _ hm)

theorem mbxServe (h : MemOk s) : MemOk (mbxServe s) := foldl h fun h => takeDescs (cplFlush h)

/-! ### Repair -/

theorem hlthEnter {m : Monitor} {st : Nat} (h : MemOk s) : MemOk (hlthEnter m st s) := ite h (ite (logErr h) (ite (logErr h) h))

theorem hlthEstimate {m : Monitor} {hours conf cause elapsed : Nat} (h : MemOk s) : MemOk (hlthEstimate m hours conf cause elapsed s) := by
  unfold Machine.hlthEstimate
  extract_lets _ _ _ s1 _ s2 _ s3
  split
  · exact h
  · split
    · exact hlthEnter h
    · split
      · exact hlthEnter h
      · exact h

theorem hlthClock {d : Nat} (h : MemOk s) : MemOk (hlthClock d s) := by
  unfold Machine.hlthClock
  split
  · exact hlthEnter h
  · exact h

theorem tlbDrop {n : Nat} (h : MemOk s) : MemOk (tlbDrop n s) := h

theorem prstSettle {n : Nat} (h : MemOk s) : MemOk (prstSettle n s) := ite h h

theorem abandonRung {n : Nat} (h : MemOk s) : MemOk (abandonRung n s) := requestWake h

theorem partResetNow {n : Nat} (h : MemOk s) : MemOk (partResetNow n s) := by
  unfold Machine.partResetNow
  extract_lets s1 st repairing st' s2 s3 s4 s5 _ s6 _ s7
  have hs1 : MemOk s1 := ite (cfgFail h) h
  have hs2 : MemOk s2 := captureDrop (holdPins (abortStreams hs1))
  have hs4 : MemOk s4 := foldl (foldl (setF hs2) fun h => islReset h) fun h => seqHold h
  have hs5 : MemOk s5 := foldl (tlbDrop hs4) fun h => laneRest h
  have hs6 : MemOk s6 := abandonRung (same hs5 rfl)
  exact requestRelease (same hs6 rfl)

theorem partReset {n : Nat} (h : MemOk s) : MemOk (partReset n s) := by
  unfold Machine.partReset
  split
  · exact h
  · split
    · exact ite h (ite (partResetNow h) (partResetNow h))
    · exact partResetNow h

theorem startPart {p : Nat} {newrun : Bool} (h : MemOk s) : MemOk (startPart p newrun s) := by
  unfold Machine.startPart
  extract_lets s1 s2
  have hs1 : MemOk s1 := foldl h fun h => ite (seqReset h) h
  have hs2 : MemOk s2 := ite (feNewRun hs1) hs1
  split
  · exact seqRun hs2
  · exact hs2

theorem stopSeen {p : Nat} (h : MemOk s) : MemOk (stopSeen p s) := ite h h

theorem stopRequest {p : Nat} (h : MemOk s) : MemOk (stopRequest p s) := stopBursts (foldl h fun h => seqStop h)

theorem stopPart {p : Nat} (h : MemOk s) : MemOk (stopPart p s) := stopSeen (stopRequest h)

theorem leafSlot {va level base : Nat} (h : MemOk s) : MemOk (leafSlot va level base s).2 := by
  induction level generalizing base s with
  | zero => exact h
  | succ level ih =>
    unfold Machine.leafSlot
    split
    next e => exact of_eq e (readPte h)
    next e =>
      have h1 := of_eq e (readPte h)
      split
      · exact ih h1
      · exact h1

theorem writeLeaf {ptbase va pa : Nat} (h : MemOk s) : MemOk (writeLeaf ptbase va pa s).2 := by
  unfold Machine.writeLeaf
  split
  next e => exact of_eq e (leafSlot h)
  next e =>
    have h1 := of_eq e (leafSlot h)
    exact busWrite h1

theorem writeLeaves {n ptbase va : Nat} (h : MemOk s) : MemOk (writeLeaves n ptbase va s).2 := by
  unfold Machine.writeLeaves
  refine foldl_snd h fun h => ?_
  extract_lets
  split
  next e => exact of_eq e (writeLeaf h)

theorem onRepair {g : Repair → Repair} (h : MemOk s) : MemOk (s.onRepair g) := h

theorem islCopy {a b : Nat} (h : MemOk s) : MemOk (islCopy a b s) :=
  onMem h fun _ hm => Memory.filter_wf _ _ (Memory.copy_wf _ _ _ _ (Memory.copy_wf _ _ _ _ (Memory.copy_wf _ _ _ _ hm)))

theorem movePointer {row c : Nat} (h : MemOk s) : MemOk (movePointer row c s) := h

theorem repairLeaves {n : Nat} (h : MemOk s) : MemOk (repairLeaves n s) := by
  unfold Machine.repairLeaves
  refine tlbDrop ?_
  split
  · exact writeLeaves h
  · exact h

theorem repairStep (h : MemOk s) : MemOk (repairStep s) := by
  unfold Machine.repairStep
  split
  · exact h
  · extract_lets n go s1 s2 s3
    have hgo {g : State → State} (hg : MemOk (g s)) : MemOk (go g) := hg
    have hs1 : MemOk s1 := ite h (stopRequest (setF h))
    have hs2 : MemOk s2 := islCopy h
    have hs3 : MemOk s3 := hgo (movePointer h)
    split
    · exact ite hs1 (onRepair hs1)
    · exact hgo (commit h)
    · exact hgo (abortStreams h)
    · unfold go
      exact onRepair (clkStart (foldl (foldl (captureDrop (holdPins h)) fun h => seqReset h) fun h => islHold h))
    · exact onRepair hs2
    · exact ite (partResetNow (onRepair hs3)) hs3
    · exact hgo (repairLeaves h)
    · exact ite h (hgo (cfgBegin h))
    · exact h

theorem repairResume (h : MemOk s) : MemOk (repairResume s) := foldl h fun h => ite (repairStep h) h

/-! ### Reset -/

/-- A cold reset keeps the memories that hold their contents, and clears the others. -/
theorem coldReset {src : Option Nat} {cool : Bool} (h : MemOk s) : MemOk (coldReset src cool s) :=
  Memory.wipe_wf _ _ _ (Memory.wipe_wf _ _ _ (Memory.wipe_wf _ _ _ h))

theorem trimAgain (h : MemOk s) : MemOk (trimAgain s) := ite h h

theorem loadWarm (h : MemOk s) : MemOk (loadWarm s) := by
  unfold Machine.loadWarm
  split
  · extract_lets _ _ s1 s2
    have hs1 : MemOk s1 := ite h h
    have hs2 : MemOk s2 := ite (setF hs1) hs1
    exact onCfg (same hs2 rfl)
  · exact h

theorem repairWarm (h : MemOk s) : MemOk (repairWarm s) := by
  unfold Machine.repairWarm
  split
  · exact h
  · exact ite h h

theorem warmState {src : Nat} (h : MemOk s) : MemOk (warmState src s) := by
  unfold Machine.warmState
  extract_lets held rp s1 s2 s3 s4 s5 s6 _ s8 s9 s10 s11
  have hs3 : MemOk s3 := foldl (feWarm (repairWarm (loadWarm (holdPins (mbxWarm h))))) fun h => laneRest h
  clear_value s3
  have hs5 : MemOk s5 := foldl (same hs3 rfl) fun h => clkStop h
  clear_value s5
  have hs6 : MemOk s6 := ite (setF hs5) hs5
  have hs9 : MemOk s9 := foldl (same hs6 rfl) fun h => abandonRung h
  have hs11 : MemOk s11 := requestRelease (setF (setF (setF (setF (setF hs9)))))
  exact foldl (bump (setF hs11)) fun h => noteFails h

theorem warmReset {src : Nat} (h : MemOk s) : MemOk (warmReset src s) := ite h (ite (coldReset h) (warmState h))

theorem rstCtlWrite {v : Nat} (h : MemOk s) : MemOk (rstCtlWrite v s) := by
  unfold Machine.rstCtlWrite
  split
  · exact warmReset h
  · exact coldReset h
  · exact h
  · exact logErr h

theorem firmwareBack (h : MemOk s) : MemOk (firmwareBack s) := by
  unfold Machine.firmwareBack
  extract_lets _ s1 s2 _ _ _ s3
  have hs1 : MemOk s1 := mbxServe h
  have hs2 : MemOk s2 := repairResume hs1
  have hs3 : MemOk s3 := same hs2 rfl
  exact ite (cfgBegin (same hs3 rfl)) (nextReload hs3)

theorem releaseDomain {d : Nat} (h : MemOk s) : MemOk (releaseDomain d s) := by
  unfold Machine.releaseDomain
  extract_lets _ s1 _ s2
  split
  · exact ite (islRelease h) h
  · split
    · exact resetCore h
    · split
      · exact ite (firmwareBack h) h
      · split
        · exact h
        · split
          · exact h
          · split
            · exact h
            · exact h
            · exact h
            · exact h
            · exact h
            · exact h
            · exact h
            · exact h

theorem pinsAfter {n : Nat} (h : MemOk s) : MemOk (pinsAfter n s) := ite h h

theorem trimValues (h : MemOk s) : MemOk (trimValues s) := foldl (foldl h fun h => h) fun h => h

/-! ### Startup -/

theorem firstPartition (h : MemOk s) : MemOk (firstPartition s) := h

theorem firmwareRuns {src : Nat} (h : MemOk s) : MemOk (firmwareRuns src s) := by
  unfold Machine.firmwareRuns
  exact ite (cfgBegin (firstPartition (setF h))) (cfgBegin (firstPartition (setF h)))

theorem hdmCommit {d : Nat} {on : Bool} (h : MemOk s) : MemOk (hdmCommit d on s) := ite h h

theorem hdm2Write {d : Nat} {v : Word} (h : MemOk s) : MemOk (hdm2Write d v s) := by
  unfold Machine.hdm2Write
  extract_lets _ s1
  have hs1 : MemOk s1 := fieldWrite h
  exact ite hs1 (hdmCommit hs1)

theorem findDevice {x : CxlDev} (h : MemOk s) : MemOk (findDevice x s) := ite h h

theorem firmwareDecoder (h : MemOk s) : MemOk (firmwareDecoder s) := ite h (hdmCommit (foldl h fun h => h))

theorem bufferMove (h : MemOk s) : MemOk (bufferMove s) := by
  unfold Machine.bufferMove
  split
  · refine foldl h fun h => ?_
    split
    · exact h
    · exact onMem h fun _ hm => Memory.copy_wf _ _ _ _ (Memory.copy_wf _ _ _ _ hm)
  · exact h

theorem buildSlot {n : Nat} (h : MemOk s) : MemOk (buildSlot n s) := ite (slotFinish (foldl h fun h => foldl h fun h => slotFrame h)) h

theorem openRows (h : MemOk s) : MemOk (openRows s) := foldl (foldl h fun h => ite h h) fun h => ite (foldl h fun h => eclodeIsl h) h

/-! ### Power -/

theorem drainIsl {p i : Nat} (h : MemOk s) : MemOk (drainIsl p i s) := foldl (ite h h) fun h => ite (sliceRecord h) (sliceMark h)

theorem drainPart {p : Nat} (h : MemOk s) : MemOk (drainPart p s) := commit (foldl h fun h => drainIsl h)

theorem seqResume {q : Nat} (h : MemOk s) : MemOk (seqResume q s) := ite h h

theorem rungGo {n r : Nat} (h : MemOk s) : MemOk (rungGo n r s) := by
  unfold Machine.rungGo
  extract_lets _ _ s1 _ s2
  have hs1 : MemOk s1 := ite h h
  have hs2 : MemOk s2 := setF (same hs1 rfl)
  exact ite h (ite (requestWake h) (ite (requestWake h) (ite (foldl hs2 fun h => seqDoze h) hs2)))

theorem rungRequest {n r : Nat} (h : MemOk s) : MemOk (rungRequest n r s) := by
  unfold Machine.rungRequest
  split
  · exact h
  · split
    · exact ite h (rungGo h)
    · exact h

theorem rungNext {n : Nat} (h : MemOk s) : MemOk (rungNext n s) := by
  unfold Machine.rungNext
  split
  · exact h
  · exact rungGo h

theorem lanesDown {n : Nat} (h : MemOk s) : MemOk (lanesDown n s) :=
  foldl (foldl h fun h => ite h (onLane (setF (setUp (foldl h fun h => h))))) fun h => foldl h fun h => h

theorem lanesUp {n cur : Nat} (h : MemOk s) : MemOk (lanesUp n cur s) := h.of_quiet ((Quiet.refl false s).lanesUp ..)

theorem clocksOff {n : Nat} (h : MemOk s) : MemOk (clocksOff n s) := foldl (foldl h fun h => ite h h) fun h => h

theorem clocksOn {n : Nat} (h : MemOk s) : MemOk (clocksOn n s) := h.of_quiet ((Quiet.refl false s).clocksOn ..)

theorem rungReached {n t' : Nat} (h : MemOk s) : MemOk (rungReached n t' s) := by
  unfold Machine.rungReached
  extract_lets _ _ s1 s2 s3 _ s4
  have hs1 : MemOk s1 := ite (drainPart h) h
  have hs2 : MemOk s2 := ite (clocksOff (lanesDown hs1)) hs1
  have hs3 : MemOk s3 := setF (setF hs2)
  have hs4 : MemOk s4 := rungChanged (same hs3 rfl)
  exact ite (rungNext hs4) (ite (requestWake hs4) hs4)

theorem admitWake {n : Nat} (h : MemOk s) : MemOk (admitWake n s) := by
  unfold Machine.admitWake
  extract_lets _ _ s1 s2 s3 s4
  have hs2 : MemOk s2 := foldl h fun h => seqResume h
  have hs3 : MemOk s3 := ite (clocksOn hs2) hs2
  have hs4 : MemOk s4 := ite (lanesUp hs3) hs3
  exact rungNext (rungChanged (same hs4 rfl))

theorem clkErr {code i : Nat} (h : MemOk s) : MemOk (clkErr code i s) := logErr h

theorem clkFreq {i v : Nat} (h : MemOk s) : MemOk (clkFreq i v s) := ite h h

theorem clkIslWrite {i v : Nat} (h : MemOk s) : MemOk (clkIslWrite i v s) := clkFreq (ite h h)

theorem stormEnd {key : Nat} {w : Storm} (h : MemOk s) : MemOk (stormEnd key w s) := by
  unfold Machine.stormEnd
  extract_lets code s1
  have hs1 : MemOk s1 := ite h (h.of_logOnly (writeRecord_logOnly ..))
  split
  · exact hs1
  · exact hs1

/-! ### Capture -/

theorem captureGo {n : Nat} (h : MemOk s) : MemOk (captureGo n s) := ite (foldl h fun h => h) h

theorem moultEnter {t' : MoultTok} (h : MemOk s) : MemOk (moultEnter t' s) := by
  unfold Machine.moultEnter
  extract_lets _ _ s1
  have hs1 : MemOk s1 := by
    unfold s1
    refine foldl h fun h => ?_
    split
    · exact ite h h
  refine foldl hs1 fun h => ?_
  split
  · exact ite h h

theorem moultArrive {n : Nat} (h : MemOk s) : MemOk (moultArrive n s) := by
  unfold Machine.moultArrive
  extract_lets
  split
  · exact h
  · split
    · split
      · exact h
      · exact h
    · split
      · exact h
      · exact ite (moultEnter h) h

theorem moultsDue {n : Nat} (h : MemOk s) : MemOk (moultsDue n s) := foldl h fun h => moultArrive h

theorem captureResume {n : Nat} (h : MemOk s) : MemOk (captureResume n s) := ite (foldl (captureDrop h) fun h => moultsDue h) h

theorem freezeArrival {i : Nat} (h : MemOk s) : MemOk (freezeArrival i s) := ite (ite (raiseAev h) h) h

theorem captureFetch {i k : Nat} (h : MemOk s) : MemOk (captureFetch i k s) := readbackPut h

/-! ### Errors -/

theorem repairBegin {i : Nat} (h : MemOk s) : MemOk (repairBegin i s) := h

theorem repairFinish {r : Repair} (h : MemOk s) : MemOk (repairFinish r s).2 := by
  unfold Machine.repairFinish
  extract_lets _ s1
  split
  · exact ite (startPart h) h
  · exact logErr h

theorem containedFollow {h' : Handling} (h : MemOk s) : MemOk (containedFollow h' s) := by
  unfold Machine.containedFollow
  extract_lets _ s1
  have hs1 : MemOk s1 := ite (nextReload h) h
  exact ite (hlthClock hs1) hs1

theorem stopFor {asked : Bool} {n : Nat} (h : MemOk s) : MemOk (stopFor asked n s) := ite (stopSeen h) (stopPart h)

theorem fatalEnd (h : MemOk s) : MemOk (fatalEnd s) := (sendMsix (foldl h fun h => commit h))

theorem safeStop (h : MemOk s) : MemOk (safeStop s) := foldl (foldl h fun h => seqHalt h) fun h => commit h

theorem safeAlert (h : MemOk s) : MemOk (safeAlert s) := foldl (ite h h) fun h => h

theorem lidSeen {above : Bool} (h : MemOk s) : MemOk (lidSeen above s) := by
  unfold Machine.lidSeen
  split
  · exact h
  · exact h
  · exact h

theorem setCeil {c : Nat} (h : MemOk s) : MemOk (setCeil c s) := foldl h fun h => ite h h

/-! ### Debug -/

theorem debugSelect {reg q : Nat} (h : MemOk s) : MemOk (debugSelect reg q s) := by
  unfold Machine.debugSelect
  extract_lets s1
  split
  · exact h
  · exact h

theorem jtagSelect {ir : Nat} (h : MemOk s) : MemOk (jtagSelect ir s) := h

/-! ### Link -/

theorem apError {fn : Nat} {write : Bool} (h : MemOk s) : MemOk (apError fn write s) := emit (bump (ite h h))

theorem aperture {fn : Nat} {a : ApReq} (h : MemOk s) : MemOk (aperture fn a s) := by
  unfold Machine.aperture
  split
  · split
    · exact emit (apError h)
    · split
      next e =>
        have h1 := of_eq e (busReads h)
        exact h1
      next e =>
        have h1 := of_eq e (busReads h)
        exact h1
  · exact ite (apError h) (busWrites h)

theorem msixFlush {fn : Nat} (h : MemOk s) : MemOk (msixFlush fn s) := foldl h fun h => ite h h

theorem linkReset (h : MemOk s) : MemOk (linkReset s) := mbxClear h

theorem linkEvent {src : Nat} (h : MemOk s) : MemOk (linkEvent src s) := ite (warmReset (linkReset h)) h

theorem cxlEnds {p : Nat} (h : MemOk s) : MemOk (cxlEnds p s) := h

theorem cxlSlow {pa : Nat} (h : MemOk s) : MemOk (cxlSlow pa s) := by
  unfold Machine.cxlSlow
  split
  · exact h
  · exact h

/-! ### PartCfg -/

theorem partEnable {n : Nat} {d : PartDef} (h : MemOk s) : MemOk (partEnable n d s) := rungChanged (failsFollow (foldl h fun h => h))

theorem dropSends {q : Nat} (h : MemOk s) : MemOk (dropSends q s) := h

theorem partDisable {n : Nat} (h : MemOk s) : MemOk (partDisable n s) := by
  unfold Machine.partDisable
  extract_lets _ s1 s2 _ s3 s4 s5 _ s6 s7 s8
  have hs1 : MemOk s1 := ite (cfgFail h) h
  have hs2 : MemOk s2 := feDisable (captureDrop (abortStreams hs1))
  have hs3 : MemOk s3 := ite (lanesUp (setF hs2)) hs2
  have hs4 : MemOk s4 := ite (clocksOn hs3) hs3
  have hs5 : MemOk s5 := foldl (foldl hs4 fun h => h) fun h => dropSends (seqHalt h)
  have hs6 : MemOk s6 := same hs5 rfl
  have hs7 : MemOk s7 := setF (setF (setF hs6))
  have hs8 : MemOk s8 := foldl hs7 fun h => h
  exact rungChanged (handled (setF (setF hs8)))

theorem partCfgWrite {n v : Nat} (h : MemOk s) : MemOk (partCfgWrite n v s) := by
  unfold Machine.partCfgWrite
  extract_lets
  split
  · split
    · exact h
    · split
      · exact partEnable h
      · exact h
  · exact ite h (ite (partDisable h) h)

theorem partSeqWrite {n : Nat} {v : Word} (h : MemOk s) : MemOk (partSeqWrite n v s) := ite h (fieldWrite h)

/-! ### RegBus -/

theorem deniedWrite {off part : Nat} (h : MemOk s) : MemOk (deniedWrite off part s) := logErr h

theorem regRead {k : Nat} {upper half : Bool} (h : MemOk s) : MemOk (regRead k upper half s).2 := by
  unfold Machine.regRead
  extract_lets
  split
  · exact ite h h
  · split
    · exact dmafqRead h
    · split
      · exact rxHeader h
      · split
        · split
          next e =>
            have h1 := of_eq e (rxPayload h)
            exact ite h h1
        · split
          · split
            next e => exact of_eq e h
          · exact h

theorem glbWrite {k : Nat} {v : Word} (h : MemOk s) : MemOk (glbWrite k v s) := ite (ite h h) (ite (ite (partCfgWrite h) (partSeqWrite h)) h)

theorem rstWrite {w : Who} {k : Nat} {v : Word} (h : MemOk s) : MemOk (rstWrite w k v s) :=
  ite (deniedWrite h) (ite (rstCtlWrite h) (ite (foldl h fun h => partReset h) (ite (rungRequest h) (ite (ite h h) (fieldWrite h)))))

theorem cfgBlockWrite {k : Nat} {v : Word} (h : MemOk s) : MemOk (cfgBlockWrite k v s) := ite (cfgLoadWrite h) (ite (readback h) (fieldWrite h))

theorem fieldsClear {fs : List RF} {v : Word} (h : MemOk s) : MemOk (fieldsClear fs v s) := foldl h fun h => ite h h

theorem errWrite {w : Who} {k : Nat} {v : Word} (h : MemOk s) : MemOk (errWrite w k v s) := by
  unfold Machine.errWrite
  split
  · exact ite (fieldsClear h) (deniedWrite h)
  · split
    · extract_lets _ s1
      have hs1 : MemOk s1 := ite (captureGo h) h
      exact ite (ite (captureResume hs1) hs1) (deniedWrite h)
    · exact ite (deniedWrite h) (ite ((fieldWrite h)) (ite (captureFetch h) (ite (debugSelect h) (fieldWrite h))))

theorem linkWrite {k : Nat} {v : Word} (h : MemOk s) : MemOk (linkWrite k v s) := ite (ite h h) (ite (hdm2Write h) (fieldWrite h))

theorem ringCtlWrite {v : Word} (h : MemOk s) : MemOk (ringCtlWrite v s) := by
  unfold Machine.ringCtlWrite
  extract_lets _ s1 s2 s3
  have hs1 : MemOk s1 := setF (fieldWrite h)
  have hs2 : MemOk s2 := ite hs1 (setF hs1)
  have hs3 : MemOk s3 := ite (ringJoin hs2) hs2
  exact ite (ringLeave hs3) hs3

theorem ringWrite {w : Who} {k : Nat} {v : Word} (h : MemOk s) : MemOk (ringWrite w k v s) := by
  unfold Machine.ringWrite
  extract_lets pin _ s1
  have hpin {x : RF} : MemOk (pin x) := ite (fieldWrite h) (ite (setF (fieldWrite h)) (deniedWrite h))
  have hs1 : MemOk s1 := fieldWrite h
  refine ite (ringCtlWrite h) (ite (mbSend h) (ite (ite hpin (ite (ite (setF hs1) hs1) (deniedWrite h))) (ite hpin (fieldWrite h))))

theorem seqCtlWrite {q : Nat} {v : Word} (h : MemOk s) : MemOk (seqCtlWrite q v s) := by
  unfold Machine.seqCtlWrite
  split
  · exact resetCore h
  · extract_lets s1
    have hs1 : MemOk s1 := seqRun h
    exact ite (onSeq hs1) hs1

theorem pflagWrite {q : Nat} {v : Word} (h : MemOk s) : MemOk (pflagWrite q v s) := by
  unfold Machine.pflagWrite
  extract_lets s1 s2
  have hs2 : MemOk s2 := by
    unfold s2
    split
    · split
      · exact noteFails h
      · exact h
    · exact h
  exact pflagDrive (intakeHold hs2)

theorem seqRegWrite {k : Nat} {v : Word} (h : MemOk s) : MemOk (seqRegWrite k v s) := by
  unfold Machine.seqRegWrite
  extract_lets _ s1
  have hs1 : MemOk s1 := ite h h
  exact ite (seqCtlWrite h) (ite (ite (wr hs1) hs1) (ite (aevClear h) (ite (pflagWrite h) (ite h (fieldWrite h)))))

theorem queueRegWrite {i o : Nat} {v : Word} (h : MemOk s) : MemOk (queueRegWrite i o v s) := by
  unfold Machine.queueRegWrite
  extract_lets _ s1
  have hs1 : MemOk s1 := ite h h
  split
  · exact qregWrite h
  · exact fieldWrite h
  · exact ite hs1 (qOrder hs1)
  · exact fieldWrite h

theorem islRegWrite {k : Nat} {v : Word} (h : MemOk s) : MemOk (islRegWrite k v s) := by
  unfold Machine.islRegWrite
  extract_lets i o s1 s2 s3 s4 s5
  have hs2 : MemOk s2 := ite (wr (ite (wr h) h)) (ite (wr h) h)
  have hs3 : MemOk s3 := ite (setF h) h
  have hs5 : MemOk s5 := ite (setF (ite (setF h) h)) (ite (setF h) h)
  clear_value o
  split
  · exact queueRegWrite h
  · split
    · exact flaEvtClear h
    · exact moultRelease (ite (wr h) h)
    · exact ite (clearRouteCounts h) h
    · exact setF hs2
    · exact fieldsClear h
    · exact forkCfgWrite h
    · exact ite (forkForce hs3) hs3
    · exact cycleRebase h
    · exact fieldWrite hs5
    · exact fieldWrite h

theorem quadWrite {k : Nat} {v : Word} (h : MemOk s) : MemOk (quadWrite k v s) := by
  unfold Machine.quadWrite
  extract_lets
  split
  · exact quadConfig h
  · split
    · exact ite (fieldWrite h) h
    · split
      · exact h
      · split
        · exact laneCtl h
        · exact ite h h
        · exact fieldWrite h

theorem feCommand {p : Nat} {v : Word} (h : MemOk s) : MemOk (feCommand p v s) := by
  unfold Machine.feCommand
  extract_lets
  split
  · exact feCmd h (fun h => feArm h)
  · exact feCmd h (fun h => feDisarm h)
  · exact feCmd h (fun h => feSolve h)
  · exact feCmd h (fun h => feSolveSite h)
  · exact feCmd h (fun h => feFlush h)
  · exact feCmd h (fun h => feQuery h)
  · exact feCmd h (fun h => feEnd (feNewRun h))
  · exact h

theorem feHdrWrite {p : Nat} {v : Word} (h : MemOk s) : MemOk (feHdrWrite p v s) := by
  unfold Machine.feHdrWrite
  extract_lets s1
  have hs1 : MemOk s1 := fieldWrite h
  exact ite (onFe hs1) hs1

theorem fePfWrite {p k : Nat} {v : Word} (h : MemOk s) : MemOk (fePfWrite p k v s) := ite (ite h (fieldWrite h)) (ite (feHdrWrite h) (fieldWrite h))

theorem feRegWrite {w : Who} {k : Nat} {v : Word} (h : MemOk s) : MemOk (feRegWrite w k v s) := by
  unfold Machine.feRegWrite
  extract_lets _ s1
  have hs1 : MemOk s1 := fieldWrite h
  exact ite h (ite (ite (fePfWrite h) (ite h (deniedWrite h))) (ite (deniedWrite h) (ite (rrqHead h) (ite (feCommand h) (ite (ite (wr hs1) hs1) (fieldWrite h))))))

theorem chRegWrite {w : Who} {k : Nat} {v : Word} (h : MemOk s) : MemOk (chRegWrite w k v s) := by
  unfold Machine.chRegWrite
  extract_lets _ _ s1 s2
  have hs1 : MemOk s1 := ite (chGo h) h
  have hs2 : MemOk s2 := ite (chResume hs1) hs1
  exact ite (deniedWrite h) (ite (ite h (ite (fieldWrite h) h)) (ite (setF (fieldWrite h)) (ite (ite (chAbort hs2) hs2) (fieldWrite h))))

theorem mspRegWrite {w : Who} {k : Nat} {v : Word} (h : MemOk s) : MemOk (mspRegWrite w k v s) := by
  unfold Machine.mspRegWrite
  extract_lets _ _ s1 s2 s3
  have hs1 : MemOk s1 := fieldWrite h
  have hs2 : MemOk s2 := ite (mspGo hs1) hs1
  have hs3 : MemOk s3 := ite (mspResume hs2) hs2
  exact ite (deniedWrite h) (ite (ite (mspAbort hs3) hs3) (fieldWrite h))

theorem mmuWrite {w : Who} {k : Nat} {v : Word} (h : MemOk s) : MemOk (mmuWrite w k v s) :=
  ite (tlbInvalidate h) (ite (ite (fieldWrite h) (deniedWrite h)) (fieldWrite h))

theorem regWrite {w : Who} {k : Nat} {v : Word} (h : MemOk s) : MemOk (regWrite w k v s) :=
  ite (glbWrite h) (ite (rstWrite h) (ite (ite (clkIslWrite h) h) (ite (ite (fieldsClear h) (cfgBlockWrite h)) (ite h (ite (errWrite h) (ite (linkWrite h) (ite
    (ringWrite h) (ite (seqRegWrite h) (ite (islRegWrite h) (ite (quadWrite h) (ite (feRegWrite h) (ite (chRegWrite h) (ite (mspRegWrite h) (ite (mmuWrite h)
    (fieldWrite h)))))))))))))))

theorem placeWrite {w : Who} {p : Place} {size v : Nat} (h : MemOk s) : MemOk (placeWrite w p size v s) :=
  ite (ite (regWrite h) h) (ite h (ite (regWrite h) (ite h (regWrite h))))

theorem placeRead {p : Place} {size : Nat} (h : MemOk s) : MemOk (placeRead p size s).2 := by
  unfold Machine.placeRead
  split
  · split
    · exact regRead h
    · exact h
  · split
    · exact h
    · split
      · exact regRead h
      · split
        next e => exact of_eq e (regRead h)

theorem outOfReach {w : Who} {off : Nat} (h : MemOk s) : MemOk (outOfReach w off s) := by
  unfold Machine.outOfReach
  split
  · exact ite h (deniedWrite h)
  · exact h

theorem barWrite {w : Who} {off size data : Nat} (h : MemOk s) : MemOk (barWrite w off size data s).2 := by
  unfold Machine.barWrite
  extract_lets
  split
  · exact outOfReach h
  · split
    · exact h
    · split
      · split
        · exact h
        · exact h
      · split
        · exact ite (windowPut h) h
        · split
          · exact placeWrite h
          · exact h

theorem barRead {w : Who} {off size : Nat} (h : MemOk s) : MemOk (barRead w off size s).2 := by
  unfold Machine.barRead
  split
  · exact h
  · split
    · split
      · exact h
      · exact h
    · split
      · split
        next e => exact of_eq e (placeRead h)
      · exact h

/-! ### Transfer -/

theorem debugRead {pa size : Nat} (h : MemOk s) : MemOk (debugRead pa size s).2 := by
  unfold Machine.debugRead
  split
  · split
    next e => exact of_eq e (barRead h)
    next e => exact of_eq e (barRead h)
  · exact busRead h

theorem debugWrite {pa size data : Nat} (h : MemOk s) : MemOk (debugWrite pa size data s).2 := by
  unfold Machine.debugWrite
  split
  · split
    next e => exact of_eq e (barWrite h)
    next e => exact of_eq e (barWrite h)
  · exact busWrite h

theorem bar4Write {f off size v : Nat} (h : MemOk s) : MemOk (bar4Write f off size v s) :=
  ite (onMem h fun _ hm => Memory.puts_wf _ _ _ hm) (ite (sqtWrite h) (ite (cqhWrite h) (ite (mbxCtlWrite h) (ite (fieldWrite h) h))))

theorem dbgEnd {status : Nat} {data : Word} (h : MemOk s) : MemOk (dbgEnd status data s) := h

theorem dbgRun {op : DbgOp} (h : MemOk s) : MemOk (dbgRun op s) := by
  unfold Machine.dbgRun
  split
  · split
    next e =>
      have h1 := of_eq e (debugRead h)
      exact h1
    next e =>
      have h1 := of_eq e (debugRead h)
      exact h1
  · split
    next e =>
      have h1 := of_eq e (debugWrite h)
      exact h1
    next e =>
      have h1 := of_eq e (debugWrite h)
      exact h1
    next e =>
      have h1 := of_eq e (debugWrite h)
      exact h1
  · exact ite h (dbgEnd (seqRun h))
  · exact ite h (dbgEnd (seqRun h))

/-! ### Firmware -/

theorem hostPut {a : Nat} {bs : List Byte} (h : MemOk s) : MemOk (hostPut a bs s) := foldl (busPut h) fun h => busWrite h

theorem bufferEnd {k : Nat} {j : Job} {a : Word} {bs : List Byte} {memOk : Bool} {r0 r1 : Word} (h : MemOk s) : MemOk (bufferEnd k j a bs memOk r0 r1 s) :=
  ite (jobEnd h) (ite (jobEnd (hostPut h)) (jobEnd h))

theorem stateEnd {k : Nat} {j : Job} (h : MemOk s) : MemOk (stateEnd k j s) := jobEnd h

theorem getInfo {k : Nat} {j : Job} (h : MemOk s) : MemOk (getInfo k j s) := jobEnd h

theorem readHealth {memOk : Bool} {k : Nat} {j : Job} (h : MemOk s) : MemOk (readHealth memOk k j s) := ite (bufferEnd h) (jobEnd h)

theorem readErrors {memOk : Bool} {k : Nat} {j : Job} (h : MemOk s) : MemOk (readErrors memOk k j s) := ite (bufferEnd h) (jobEnd h)

theorem cxlStatus {memOk : Bool} {k : Nat} {j : Job} (h : MemOk s) : MemOk (cxlStatus memOk k j s) := ite (jobEnd h) (ite (bufferEnd h) (jobEnd h))

theorem loadDefine {d : Desc} (h : MemOk s) : MemOk (loadDefine d s) := partCfgWrite (partSeqWrite h)

theorem loadFe {n a : Nat} (h : MemOk s) : MemOk (loadFe n a s) := rrqHead (foldl h fun h => fePfWrite h)

theorem loadChannels {n mask : Nat} (h : MemOk s) : MemOk (loadChannels n mask s).2 := foldl h fun h => h

theorem loadLeaves {n : Nat} {d : Desc} (h : MemOk s) : MemOk (loadLeaves n d s).2 := by
  unfold Machine.loadLeaves
  split
  · exact h
  · extract_lets
    split
    next e =>
      have h1 := of_eq e (writeLeaves h)
      exact h1

theorem loadStream {mode n : Nat} {d : Desc} (h : MemOk s) : MemOk (loadStream mode n d s) := by
  unfold Machine.loadStream
  split
  · exact loadGo h
  · split
    · exact onCfg (loadGo h)

theorem loadUnread (h : MemOk s) : MemOk (loadUnread s) := ite h h

theorem loadSetup {mode k : Nat} {j : Job} (h : MemOk s) : MemOk (loadSetup mode k j s) := by
  unfold Machine.loadSetup
  extract_lets _ s1
  have hs1 : MemOk s1 := ite h (jobSets (loadFe h))
  split
  next e =>
    have h1 := of_eq e (loadChannels hs1)
    extract_lets s2
    have hs2 : MemOk s2 := jobSets (fieldWrite h1)
    split
    next e1 =>
      have h11 := of_eq e1 (loadLeaves hs2)
      exact jobEnd h11
    next e1 =>
      have h11 := of_eq e1 (loadLeaves hs2)
      exact jobNote (loadStream h11)

theorem loadFirst {memOk : Bool} {k : Nat} {j : Job} (h : MemOk s) : MemOk (loadFirst memOk k j s) := by
  unfold Machine.loadFirst
  extract_lets _ _ s1
  have hs1 : MemOk s1 := ite h (jobSets (loadDefine h))
  exact ite (jobEnd h) (ite (jobEnd h) (ite h (ite (jobEnd hs1) (ite (stateEnd hs1) (ite (jobEnd hs1) (loadSetup hs1))))))

theorem loadPartition {memOk : Bool} {k : Nat} {j : Job} (h : MemOk s) : MemOk (loadPartition memOk k j s) :=
  ite (loadFirst h) (ite (ite h (loadUnread h)) (jobEnd h))

theorem unloadBand {n : Nat} (h : MemOk s) : MemOk (unloadBand n s) :=
  foldl (foldl (foldl (captureDrop h) fun h => seqReset h) fun h => h) fun h => foldl h fun h => h

theorem unloadPartition {k : Nat} {j : Job} (h : MemOk s) : MemOk (unloadPartition k j s) := ite (jobEnd (partDisable (setF (unloadBand h)))) (stateEnd h)

theorem startPartition {k : Nat} {j : Job} (h : MemOk s) : MemOk (startPartition k j s) := ite (jobEnd (startPart h)) (stateEnd h)

theorem stopPartition {k : Nat} {j : Job} (h : MemOk s) : MemOk (stopPartition k j s) := by
  unfold Machine.stopPartition
  extract_lets _ _ s1
  have hs1 : MemOk s1 := ite (stopSeen h) (jobSets (stopPart h))
  exact ite (ite (jobNote hs1) (jobEnd hs1)) (stateEnd h)

theorem powerRequest {k : Nat} {j : Job} (h : MemOk s) : MemOk (powerRequest k j s) := by
  unfold Machine.powerRequest
  extract_lets _ _ _ s1
  have hs1 : MemOk s1 := rungRequest h
  exact ite (jobSets (rungRequest h)) (ite (ite (jobSets hs1) hs1) h)

theorem setPower {expired : Bool} {k : Nat} {j : Job} (h : MemOk s) : MemOk (setPower expired k j s) := by
  unfold Machine.setPower
  extract_lets _ _ s1
  have hs1 : MemOk s1 := powerRequest h
  exact ite (stateEnd hs1) (ite (ite (jobEnd hs1) (jobNote hs1)) (ite (jobEnd hs1) (jobNote hs1)))

theorem repairOk {k : Nat} {j : Job} {row : Nat} (h : MemOk s) : MemOk (repairOk k j row s) := by
  unfold Machine.repairOk
  split
  next e =>
    have h1 := of_eq e h
    exact jobEnd h1

theorem repairFirst {k : Nat} {j : Job} (h : MemOk s) : MemOk (repairFirst k j s) := by
  unfold Machine.repairFirst
  extract_lets
  split
  · exact jobEnd h
  · split
    · exact jobEnd h
    · exact ite h (ite (jobNote (jobSets (repairStep h))) (repairOk h))

theorem repairIsland {k : Nat} {j : Job} (h : MemOk s) : MemOk (repairIsland k j s) := by
  unfold Machine.repairIsland
  split
  · exact repairFirst h
  · split
    · exact jobEnd h
    · split
      · exact repairStep h
      · split
        · exact h
        · split
          next e =>
            have h1 := of_eq e (repairFinish h)
            exact repairOk (ite h1 h1)
          next e =>
            have h1 := of_eq e (repairFinish h)
            exact jobEnd h1

theorem capture {memOk : Bool} {k : Nat} {j : Job} (h : MemOk s) : MemOk (capture memOk k j s) := by
  unfold Machine.capture
  extract_lets _ _ s1
  have hs1 : MemOk s1 := ite h (jobNote (captureGo h))
  exact ite (jobEnd h) (ite (stateEnd h) (ite (jobEnd (captureResume h)) (ite (jobEnd h) (ite (stateEnd hs1) (ite hs1 (ite (jobEnd hs1) (bufferEnd hs1)))))))

theorem ringEntry {p ix : Nat} (h : MemOk s) : MemOk (ringEntry p ix s).2 := by
  unfold Machine.ringEntry
  split
  next e => exact of_eq e (busWords h)
  next e => exact of_eq e (busWords h)

theorem newestOf {p u : Nat} {places : List Nat} (h : MemOk s) : MemOk (newestOf p u places s).2 := by
  unfold Machine.newestOf
  refine foldl_snd h fun h => ?_
  split
  next e => exact of_eq e (ringEntry h)
  next e => exact of_eq e (ringEntry h)

theorem repairEntry {p : Nat} {d : Desc} (h : MemOk s) : MemOk (repairEntry p d s).2 := by
  unfold Machine.repairEntry
  split
  · exact newestOf h
  · split
    · exact h
    · split
      next e => exact of_eq e (ringEntry h)
      next e => exact of_eq e (ringEntry h)

theorem readRepair {memOk expired : Bool} {k : Nat} {j : Job} (h : MemOk s) : MemOk (readRepair memOk expired k j s) := by
  unfold Machine.readRepair
  extract_lets
  split
  · exact jobEnd h
  · split
    next e =>
      have h1 := of_eq e (repairEntry h)
      exact ite (jobEnd (rrqHead (hostPut h1))) (jobEnd h1)
    next e =>
      have h1 := of_eq e (repairEntry h)
      exact ite (ite (jobEnd h1) h1) (ite (jobNote (queueSolve h1)) (jobEnd h1))

theorem lssels {ls : List Nat} (h : MemOk s) : MemOk (lssels ls s) := by
  unfold Machine.lssels
  refine foldl h fun h => ?_
  split
  next e =>
    have h1 := of_eq e h
    exact h1

theorem laneSetup {ls : List Nat} {c : Nat} (h : MemOk s) : MemOk (laneSetup ls c s) :=
  lssels (foldl (foldl (foldl h fun h => h) fun h => quadConfig h) fun h => laneCtl h)

theorem setLanes {expired : Bool} {k : Nat} {j : Job} (h : MemOk s) : MemOk (setLanes expired k j s) := by
  unfold Machine.setLanes
  extract_lets _ _ _ s1
  have hs1 : MemOk s1 := ite h (jobNote (jobSets (laneSetup h)))
  exact ite (stateEnd h) (ite (jobEnd h) (ite (jobEnd hs1) hs1))

theorem ringJoinCmd {k : Nat} {j : Job} (h : MemOk s) : MemOk (ringJoinCmd k j s) := by
  unfold Machine.ringJoinCmd
  extract_lets s1 s2
  have hs1 : MemOk s1 := ite h h
  have hs2 : MemOk s2 := ite h (jobNote (jobSets (ringJoin hs1)))
  exact ite (jobEnd hs2) (ite (jobEnd hs2) hs2)

theorem ringLeaveCmd {k : Nat} {j : Job} (h : MemOk s) : MemOk (ringLeaveCmd k j s) := by
  unfold Machine.ringLeaveCmd
  extract_lets s1
  have hs1 : MemOk s1 := ite h (jobNote (ringLeave h))
  exact ite hs1 (jobEnd hs1)

theorem updateFlash {memOk : Bool} {bad k : Nat} {j : Job} (h : MemOk s) : MemOk (updateFlash memOk bad k j s) := by
  unfold Machine.updateFlash
  extract_lets
  split
  · split
    · exact jobEnd h
    · split
      · exact jobEnd h
      · extract_lets erased
        have herased : MemOk erased := onMem h fun _ hm => Memory.wipe_wf _ _ _ hm
        exact ite (jobEnd herased) (ite (jobEnd herased) (jobEnd (flashPut herased)))

theorem warmResetCmd {k : Nat} {j : Job} (h : MemOk s) : MemOk (warmResetCmd k j s) := ite (warmReset h) (ite (jobEnd h) h)

end Sys2Proof.Safety.MemOk
end

