-- ==== Sys2Proof/Proofs/MemOkKretas.lean ====
section
/-!
SUPPORT.  Proofs/MemOkKretas.lean: the memory stays canonical: how a sequencer fetches, loads, stores and traps.
-/
namespace Sys2Proof.Safety.MemOk
open Sys2Proof.Machine Sys2Proof.Proofs
variable {s t : State}

/-! ### Kretas -/

theorem route {n va bit : Nat} (h : MemOk s) : MemOk (route n va bit s).2 := by
  unfold Machine.route
  extract_lets
  split
  · exact h
  · split
    · exact h
    · split
      next e => exact of_eq e (translate h)
      next e => exact of_eq e (translate h)

theorem kLoad {n va size : Nat} (h : MemOk s) : MemOk (kLoad n va size s).2 := by
  unfold Machine.kLoad
  split
  · exact h
  · split
    next e => exact of_eq e (route h)
    next e =>
      have h1 := of_eq e (route h)
      split
      next e1 =>
        have h11 := of_eq e1 (bankEcc h1)
        split
        · exact h11
        · exact h11
    next e =>
      have h1 := of_eq e (route h)
      split
      · exact h1
      · split
        · split
          next e1 =>
            have h11 := of_eq e1 (barRead h1)
            exact h11
          next e1 =>
            have h11 := of_eq e1 (barRead h1)
            exact h11
        · split
          next e1 =>
            have h11 := of_eq e1 (busRead h1)
            split
            · exact h11
            · exact h11
          next e1 =>
            have h11 := of_eq e1 (busRead h1)
            exact h11

theorem kStore {n w va size data : Nat} (h : MemOk s) : MemOk (kStore n w va size data s).2 := by
  unfold Machine.kStore
  split
  · exact h
  · split
    next e => exact of_eq e (route h)
    next e =>
      have h1 := of_eq e (route h)
      exact bankStore h1
    next e =>
      have h1 := of_eq e (route h)
      extract_lets late
      have hlate {u : State} (h : MemOk u) : MemOk (late u) := h
      split
      · exact h1
      · split
        · split
          next e1 =>
            have h11 := of_eq e1 (barWrite h1)
            exact h11
          next e1 =>
            have h11 := of_eq e1 (barWrite h1)
            exact hlate h11
        · split
          next e1 =>
            have h11 := of_eq e1 (ownerMeets h1)
            split
            next e2 =>
              have h12 := of_eq e2 (busPost h11)
              exact hlate h12
            next e2 =>
              have h12 := of_eq e2 (busPost h11)
              exact h12

theorem holdBlock {n key b : Nat} (h : MemOk s) : MemOk (holdBlock n key b s) := by
  unfold Machine.holdBlock
  split
  next e =>
    have h1 := of_eq e <| by
      refine foldl_snd h fun h => ?_
      split
      next e1 => exact of_eq e1 h
    exact h1

theorem fetchNear {n off : Nat} (h : MemOk s) : MemOk (fetchNear n off s).2 := by
  unfold Machine.fetchNear
  extract_lets
  split
  next e =>
    have h1 := of_eq e <| by
      refine foldl_snd h fun h => ?_
      split
      next e1 => exact of_eq e1 (bankEcc h)
    split
    · exact h1
    · exact ite h1 (holdBlock h1)

theorem fetchFar {n pa : Nat} (h : MemOk s) : MemOk (fetchFar n pa s).2 := by
  unfold Machine.fetchFar
  split
  next e => exact of_eq e (busRead h)
  next e =>
    have h1 := of_eq e (busRead h)
    split
    · exact h1
    · extract_lets
      split
      next e1 =>
        have h11 := of_eq e1 <| by
          refine foldl_snd h1 fun h => ?_
          split
          · exact h
          · split
            next e2 =>
              have h11 := of_eq e2 (busRead h)
              exact h11
            next e2 _ =>
              have h11 := of_eq e2 (busRead h)
              exact h11
        split
        next e2 =>
          have h12 := of_eq e1 <| by
            refine foldl_snd h1 fun h => ?_
            split
            · exact h
            · split
              next e3 =>
                have h12 := of_eq e3 (busRead h)
                exact h12
              next e3 _ =>
                have h12 := of_eq e3 (busRead h)
                exact h12
          exact holdBlock h11
        next e2 =>
          have h12 := of_eq e1 <| by
            refine foldl_snd h1 fun h => ?_
            split
            · exact h
            · split
              next e3 =>
                have h12 := of_eq e3 (busRead h)
                exact h12
              next e3 _ =>
                have h12 := of_eq e3 (busRead h)
                exact h12
          exact h11

theorem kFetch {n va : Nat} (h : MemOk s) : MemOk (kFetch n va s).2 := by
  unfold Machine.kFetch
  extract_lets body held r
  have held_ok {key a : Nat} {t : State} {fetch : State → Acs × State} (h : MemOk t) (hf : ∀ {s}, MemOk s → MemOk (fetch s).2) : MemOk (held key a t fetch).2 := by
    unfold held
    split
    · exact h
    · exact hf h
  split
  · exact h
  · have hr : MemOk r.2 := by
      unfold r
      split
      next e => exact of_eq e (route h)
      next e => exact held_ok (of_eq e (route h)) fun h => fetchNear h
      next e => exact held_ok (of_eq e (route h)) fun h => fetchFar h
    clear_value r
    split
    · exact ite (onSeq hr) hr
    · exact hr

theorem recordMchk {n kind code acc pc va : Nat} (h : MemOk s) : MemOk (recordMchk n kind code acc pc va s) := ite h h

theorem dfault {n kind code acc pc va : Nat} (h : MemOk s) : MemOk (dfault n kind code acc pc va s) := logErr (partFollows (onSeq (recordMchk h)))

theorem takeTrap {n : Nat} {t' : Trap} (h : MemOk s) : MemOk (takeTrap n t' s) := ite (kStore h) h

theorem raise {n pc va : Nat} {t' : Trap} (h : MemOk s) : MemOk (raise n pc va t' s) := ite (dfault h) (takeTrap h)

theorem safePoint {n kind : Nat} (h : MemOk s) : MemOk (safePoint n kind s) := by
  unfold Machine.safePoint
  extract_lets s1
  split
  · exact partFollows h
  · exact logErr h
  · exact dfault h
  · exact h

theorem takeCheck {n : Nat} (h : MemOk s) : MemOk (takeCheck n s) := by
  unfold Machine.takeCheck
  extract_lets s1 _ s2
  have hs1 : MemOk s1 := ite (seqDoze h) h
  have hs2 : MemOk s2 := setSeq hs1
  split
  · exact hs1
  · exact ite (ite (safePoint hs1) hs1) (ite (logErr hs2) hs2)

theorem imprecise {n : Nat} {e : PostErr} (h : MemOk s) : MemOk (imprecise n e s) := h

theorem takeIrq {n k : Nat} (h : MemOk s) : MemOk (takeIrq n k s) := takeTrap h

theorem atBoundary {n : Nat} {next : State → State} (h : MemOk s) (hnext : ∀ {s}, MemOk s → MemOk (next s)) : MemOk (atBoundary n next s) := by
  unfold Machine.atBoundary
  extract_lets _ s1
  have hs1 : MemOk s1 := takeCheck h
  split
  · exact hnext h
  · split
    · exact hs1
    · split
      · exact imprecise (setSeq hs1)
      · split
        · exact takeIrq hs1
        · exact hnext hs1

theorem loadRoom {n : Nat} (h : MemOk s) : MemOk (loadRoom n s) := by
  unfold Machine.loadRoom
  extract_lets
  split
  · exact ite h h
  · exact h

theorem loadInto {n : Nat} {near : Bool} {l : LoadOp} (h : MemOk s) : MemOk (loadInto n near l s) := ite h (onSeq (loadRoom h))

theorem reload {n : Nat} {a : List LoadOp} (h : MemOk s) : MemOk (reload n a s).2 := by
  induction a generalizing s with
  | nil => exact h
  | cons l ls ih =>
    unfold Machine.reload
    split
    next e => exact ih (loadInto (of_eq e (kLoad h)))
    next e => exact raise (onSeq (of_eq e (kLoad h)))
    next e => exact onSeq (of_eq e (kLoad h))

theorem relaunch {n : Nat} {next : State → State} (h : MemOk s) (hnext : ∀ {s}, MemOk s → MemOk (next s)) : MemOk (relaunch n next s) := by
  unfold Machine.relaunch
  split
  · exact hnext h
  · split
    next e =>
      have h1 := of_eq e (reload h)
      exact hnext h1
    next e => exact of_eq e (reload h)

theorem landRegs {n : Nat} {srcs : List Nat} (h : MemOk s) : MemOk (landRegs n srcs s) := ite h h

theorem landLoads {n : Nat} {srcs : List Nat} (h : MemOk s) : MemOk (landLoads n srcs s) := landRegs (ite h h)

theorem finish {n cycles : Nat} (h : MemOk s) : MemOk (finish n cycles s) := partFollows h

theorem raiseAt {n w code acc va epc : Nat} (h : MemOk s) : MemOk (raiseAt n w code acc va epc s) := raise h

theorem kput {n k : Nat} {v : Word} (h : MemOk s) : MemOk (s.kput n k v) := h

/-! ### KretasMem -/

theorem landAll {n : Nat} (h : MemOk s) : MemOk (landAll n s) := h

theorem hwStore {n va data : Nat} (h : MemOk s) : MemOk (hwStore n va data s).2 := by
  unfold Machine.hwStore
  extract_lets
  split
  next e =>
    have h1 := of_eq e (kStore h)
    split
    · exact h1
    · exact h1
  · exact kStore h

theorem hz5Mask {n : Nat} (h : MemOk s) : MemOk (hz5Mask n s).2 := by
  unfold Machine.hz5Mask
  extract_lets
  split
  · exact h
  · exact kLoad h

theorem dldLoad {n va size : Nat} (h : MemOk s) : MemOk (dldLoad n va size s).2 := by
  unfold Machine.dldLoad
  split
  · exact h
  · split
    · exact h
    · split
      next e => exact of_eq e (kLoad h)
      next e => exact of_eq e (kLoad h)
      next e => exact of_eq e (kLoad h)

/-! ### KretasSys -/

theorem postedError {n : Nat} (h : MemOk s) : MemOk (postedError n s) := by
  unfold Machine.postedError
  extract_lets
  split
  · exact h
  · exact atBoundary (logErr h) id

theorem allErrors {n a : Nat} (h : MemOk s) : MemOk (allErrors n a s) := by
  induction a generalizing s with
  | zero => exact h
  | succ k ih => exact ih (postedError h)

/-! ### KretasArray -/

theorem onIslands {p : Nat} {g : Isl → Isl} (h : MemOk s) : MemOk (onIslands p g s) := foldl h fun h => h

theorem awaitDone {n rd v : Nat} (h : MemOk s) : MemOk (awaitDone n rd v s) := finish h

theorem awaitCheck {n : Nat} (h : MemOk s) : MemOk (awaitCheck n s) := by
  unfold Machine.awaitCheck
  split
  · exact ite h (awaitDone h)
  · exact h

end Sys2Proof.Safety.MemOk
end

