-- ==== Sys2Proof/Proofs/MemOkInstructions.lean ====
section
/-!
SUPPORT.  Proofs/MemOkInstructions.lean: the memory stays canonical: every instruction of a sequencer, and its issue.
-/
namespace Sys2Proof.Proofs
open Sys2Proof.Machine Sys2Proof.Safety

/-- The state that the execution of an instruction leaves, however it ends. -/
abbrev outState : KOut → State
  | .ok s | .jump _ s | .trap _ _ _ s | .after _ s | .dfault _ _ _ _ s | .stay s => s

/-- The execution of an instruction ends with a canonical memory, however it ends. -/
structure KOutOk (o : KOut) : Prop where
  mem : MemOk (outState o)

/-- An instruction keeps the memory canonical. -/
structure KeepsMem (k : KIns) : Prop where
  body : ∀ {n s}, MemOk s → KOutOk (k.body n s)
  after : ∀ {n s}, MemOk s → MemOk (k.after n s)

namespace KOutOk
variable {n : Nat} {o o' : KOut} {s : State} {next : State → KOut}

theorem ite {c : Prop} [Decidable c] (h : KOutOk o) (h' : KOutOk o') : KOutOk (if c then o else o') := by
  split
  · exact h
  · exact h'

theorem landed {rm b m : Nat} (h : KOutOk o) : KOutOk (o.landed n rm b m) := by
  cases o with
  | trap c a va s => exact ⟨MemOk.landRegs h.mem⟩
  | stay s => exact ⟨MemOk.landRegs h.mem⟩
  | _ => exact h

theorem keep {x : Seq} (h : KOutOk o) : KOutOk (o.keep n x) := by
  cases o with
  | dfault k c a va s => exact ⟨h.mem⟩
  | stay s => exact ⟨h.mem⟩
  | _ => exact h

/-! ### Loads and stores -/

theorem loadTo {w place va size : Nat} {sext : Bool} (h : MemOk s) : KOutOk (loadTo n w place va size sext s) := by
  unfold Machine.loadTo
  split
  · exact ⟨h⟩
  · split
    next e => exact ⟨.loadInto (.of_eq e (.kLoad h))⟩
    next e => exact ⟨.of_eq e (.kLoad h)⟩
    next e => exact ⟨.of_eq e (.kLoad h)⟩

theorem storeFrom {w va size : Nat} {v : Word} (h : MemOk s) : KOutOk (storeFrom n w va size v s) := by
  unfold Machine.storeFrom
  split
  · exact ⟨h⟩
  · split
    all_goals next e => exact ⟨.of_eq e (.kStore h)⟩

theorem needFp (h : MemOk s) (hn : ∀ {s}, MemOk s → KOutOk (next s)) : KOutOk (needFp n next s) := ite (hn h) ⟨h⟩

theorem nearRepeat {ra imm : Nat} (h : MemOk s) (hn : ∀ {s}, MemOk s → KOutOk (next s)) : KOutOk (nearRepeat n ra imm next s) := ite ⟨h⟩ (hn h)

theorem needSup (h : MemOk s) (hn : ∀ {s}, MemOk s → KOutOk (next s)) : KOutOk (needSup n next s) := ite ⟨h⟩ (hn h)

theorem needTrapWindow (h : MemOk s) (hn : ∀ {s}, MemOk s → KOutOk (next s)) : KOutOk (needTrapWindow n next s) := ite ⟨h⟩ (hn h)

theorem afterParams (h : MemOk s) (hn : ∀ {s}, MemOk s → KOutOk (next s)) : KOutOk (afterParams n next s) := ite (hn h) ⟨h⟩

theorem needPrimary {next : Nat → State → KOut} (h : MemOk s) (hn : ∀ {p s}, MemOk s → KOutOk (next p s)) : KOutOk (needPrimary n next s) := by
  unfold Machine.needPrimary
  split
  · exact hn h
  · exact ⟨h⟩

theorem needMember {next : Nat → State → KOut} (h : MemOk s) (hn : ∀ {p s}, MemOk s → KOutOk (next p s)) : KOutOk (needMember n next s) := by
  unfold Machine.needMember
  split
  · exact hn h
  · exact ⟨h⟩

theorem hwStoreIf {c : Prop} [Decidable c] {va d : Nat} (h : MemOk s) : MemOk (if c then hwStore n va d s else (.ok 0 true, s)).2 := by
  split
  · exact MemOk.hwStore h
  · exact h

theorem hz5Fill {k : Nat} (h : MemOk s) (hn : ∀ {s}, MemOk s → KOutOk (next s)) : KOutOk (hz5Fill n k next s) := by
  unfold Machine.hz5Fill
  dsimp only
  split
  · exact hn h
  · split
    next e => exact ⟨.of_eq e (.hz5Mask h)⟩
    next e => exact ⟨.of_eq e (.hz5Mask h)⟩
    next t e =>
      have ht : MemOk t := .of_eq e (.hz5Mask h)
      refine ite (hn ht) ?_
      split
      next e' => exact ⟨.of_eq e' (hwStoreIf (.onSeq ht))⟩
      next e' => exact ⟨.of_eq e' (hwStoreIf (.onSeq ht))⟩
      next e' =>
        have hw := MemOk.of_eq e' (hwStoreIf (.onSeq ht))
        split
        next e => exact ⟨.of_eq e (.hwStore hw)⟩
        next e => exact ⟨.of_eq e (.hwStore hw)⟩
        next e => exact hn (.onSeq (.of_eq e (.hwStore hw)))

theorem mmStep {load : Bool} {w rm ra b todo j left : Nat} {off : Int} (h : MemOk s) : KOutOk (mmStep load n w rm ra b off todo j left s) := by
  induction todo generalizing j left s with
  | zero => exact ⟨h⟩
  | succ todo ih =>
    unfold Machine.mmStep
    refine ite (ih h) (ite ⟨h⟩ ?_)
    extract_lets va k o
    have ho : KOutOk o := by
      refine ite ?_ ?_
      · split
        next e => exact ⟨.loadInto (.of_eq e (.kLoad h))⟩
        next e => exact ⟨.of_eq e (.kLoad h)⟩
        next e => exact ⟨.of_eq e (.kLoad h)⟩
      · split
        all_goals next e => exact ⟨.of_eq e (.kStore h)⟩
    clear_value o
    split
    · exact ih (.onSeq ho.mem)
    · exact ho

theorem storeWords {wd va : Nat} {ws : List Nat} (h : MemOk s) (hn : ∀ {s}, MemOk s → KOutOk (next s)) : KOutOk (storeWords n wd va ws next s) := by
  induction ws generalizing va s with
  | nil => exact hn h
  | cons w ws ih =>
    unfold Machine.storeWords
    split
    next e => exact ih (.of_eq e (.kStore h))
    next e => exact ⟨.of_eq e (.kStore h)⟩
    next e => exact ⟨.of_eq e (.kStore h)⟩

theorem loadWords {k va : Nat} {next : List Nat → State → KOut} (h : MemOk s) (hn : ∀ {ds s}, MemOk s → KOutOk (next ds s)) : KOutOk (loadWords n k va next s) := by
  induction k generalizing va next s with
  | zero => exact hn h
  | succ k ih =>
    unfold Machine.loadWords
    split
    next e => exact ih (.of_eq e (.kLoad h)) fun h => hn h
    next e => exact ⟨.of_eq e (.kLoad h)⟩
    next e => exact ⟨.of_eq e (.kLoad h)⟩

theorem spillFrame {kind frame todo j va : Nat} (h : MemOk s) (hn : ∀ {s}, MemOk s → KOutOk (next s)) : KOutOk (spillFrame n kind frame todo j va next s) := by
  induction todo generalizing j va s with
  | zero => exact hn h
  | succ todo ih =>
    unfold Machine.spillFrame
    split
    next e => exact ⟨.of_eq e (.hwStore h)⟩
    next e => exact ⟨.of_eq e (.hwStore h)⟩
    next e => exact ih (.of_eq e (.hwStore h))

theorem fillFrame {kind frame todo j va : Nat} (h : MemOk s) (hn : ∀ {s}, MemOk s → KOutOk (next s)) : KOutOk (fillFrame n kind frame todo j va next s) := by
  induction todo generalizing j va s with
  | zero => exact hn h
  | succ todo ih =>
    unfold Machine.fillFrame
    split
    next e => exact ⟨.of_eq e (.kLoad h)⟩
    next e => exact ⟨.of_eq e (.kLoad h)⟩
    next e => exact ih (.onSeq (.of_eq e (.kLoad h)))

theorem spillMany {fs : List Nat} (h : MemOk s) (hn : ∀ {s}, MemOk s → KOutOk (next s)) : KOutOk (spillMany n fs next s) := by
  induction fs generalizing s with
  | nil => exact hn h
  | cons f fs ih => exact spillFrame h fun h => ih (.onSeq h)

theorem hz5Restore {m : Nat} {ks : List Nat} (h : MemOk s) (hn : ∀ {s}, MemOk s → KOutOk (next s)) : KOutOk (hz5Restore n m ks next s) := by
  induction ks generalizing s with
  | nil => exact hn h
  | cons k ks ih =>
    unfold Machine.hz5Restore
    refine ite (ih h) ?_
    dsimp only
    split
    next e => exact ⟨.of_eq e (.kLoad h)⟩
    next e => exact ⟨.of_eq e (.kLoad h)⟩
    next e => exact ih (.onSeq (.of_eq e (.kLoad h)))

theorem jumpTo {t : Nat} (h : MemOk s) : KOutOk (jumpTo t s) := ite ⟨h⟩ ⟨h⟩

theorem windowCall {t : Nat} (h : MemOk s) : KOutOk (windowCall n t s) := by
  unfold Machine.windowCall
  extract_lets x turn sp
  have hturn {s : State} (h : MemOk s) : KOutOk (turn s) := ⟨h⟩
  exact ite ⟨h⟩ (ite ⟨h⟩ (ite (spillFrame (.landAll h) fun h => hturn h) (hturn h)))

theorem fillFlags {flags : Nat} (h : MemOk s) (hn : ∀ {s}, MemOk s → KOutOk (next s)) : KOutOk (fillFlags n flags next s) := ite (hn h) (hz5Fill h hn)

theorem fpDone {d fn : Nat} {r : Nat × Nat} (h : MemOk s) : KOutOk (fpDone n d fn r s) := fillFlags h fun h => hz5Fill h fun h => ⟨h⟩

end KOutOk

namespace KeepsMem

theorem of_parts {word : W32} {rep : Bool} {cycles : Nat} {srcs : List Nat} {body : Nat → State → KOut} {after : Nat → State → State}
    (hb : ∀ {n s}, MemOk s → KOutOk (body n s)) (ha : ∀ {n s}, MemOk s → MemOk (after n s)) :
    KeepsMem { word := word, rep := rep, cycles := cycles, srcs := srcs, body := body, after := after } := ⟨hb, ha⟩

/-- An instruction with nothing after it. -/
theorem of_body {word : W32} {rep : Bool} {cycles : Nat} {srcs : List Nat} {body : Nat → State → KOut} (hb : ∀ {n s}, MemOk s → KOutOk (body n s)) :
    KeepsMem { word := word, rep := rep, cycles := cycles, srcs := srcs, body := body } := of_parts hb id

theorem kInt {fn rd ra rb : Nat} : KeepsMem (kInt fn rd ra rb) := of_body fun h => ⟨h⟩

theorem kImm {op rd ra imm : Nat} : KeepsMem (kImm op rd ra imm) := of_body fun h => ⟨h⟩

theorem kLd {op size rd ra imm : Nat} {sext : Bool} : KeepsMem (kLd op size sext rd ra imm) := of_body fun h => .loadTo h

theorem kSt {op size rs ra imm : Nat} : KeepsMem (kSt op size rs ra imm) := of_body fun h => .storeFrom h

theorem kFld {fd ra imm : Nat} : KeepsMem (kFld fd ra imm) := of_body fun h => .nearRepeat h fun h => .needFp h fun h => by
  dsimp only
  split
  next e => exact .hz5Fill (.of_eq e (.kLoad h)) fun h => ⟨.loadInto h⟩
  next e => exact ⟨.of_eq e (.kLoad h)⟩
  next e => exact ⟨.of_eq e (.kLoad h)⟩

theorem kFst {fs ra imm : Nat} : KeepsMem (kFst fs ra imm) := of_body fun h => .nearRepeat h fun h => .needFp h fun h => .storeFrom h

theorem kDld {rd re px ix py iy : Nat} {w : Bool} : KeepsMem (kDld rd re px ix py iy w) := of_body fun {n s} h => by
  extract_lets size ax ay
  refine .ite ⟨h⟩ ?_
  split
  next e => exact ⟨.of_eq e (.dldLoad h)⟩
  next e =>
    have h1 := MemOk.of_eq e (.dldLoad h)
    split
    next e => exact ⟨.of_eq e (.dldLoad h1)⟩
    next e =>
      extract_lets vx vy s1 s2
      have hs2 : MemOk s2 := .onSeq (.kput (.kput (.kput (.kput (.of_eq e (.dldLoad h1))))))
      exact ⟨.ite (.onSeq hs2) hs2⟩

theorem kMm {load : Bool} {rm ra b off cut : Nat} : KeepsMem (kMm load rm ra b off cut) := of_body fun {n s} h => by
  dsimp only
  exact .ite ⟨h⟩ (.ite ⟨h⟩ (.landed (.mmStep (.ite h h))))

theorem kCxs {upper : Bool} {ra : Nat} : KeepsMem (kCxs upper ra) := of_body fun h => .needSup h fun h => .ite ⟨h⟩ (.storeWords h fun h => ⟨h⟩)

theorem kCxr {upper : Bool} : KeepsMem (kCxr upper) :=
  of_body fun h => .ite ⟨h⟩ (.needSup h fun h => .ite ⟨h⟩ (.loadWords h fun h => .ite ⟨h⟩ ⟨h⟩))

theorem kBranch {op ra rb off : Nat} : KeepsMem (kBranch op ra rb off) := of_body fun h => .ite (.jumpTo (.onSeq h)) ⟨h⟩

theorem kJ {off : Nat} : KeepsMem (kJ off) := of_body fun h => .jumpTo h

theorem kJalr {rd ra imm : Nat} : KeepsMem (kJalr rd ra imm) := of_body fun h => .ite ⟨h⟩ ⟨h⟩

theorem kCallw {off : Nat} : KeepsMem (kCallw off) := of_body fun h => .windowCall h

theorem kCallwr {ra imm : Nat} : KeepsMem (kCallwr ra imm) := of_body fun h => .windowCall h

theorem kRetw : KeepsMem kRetw := of_body fun {n s} h => by
  extract_lets x t turn
  have hturn {s : State} (h : MemOk s) : KOutOk (turn s) := ⟨h⟩
  exact .ite ⟨h⟩ (.ite ⟨h⟩ (.ite (.keep (.fillFrame h fun h => hturn h)) (hturn h)))

theorem kFlushw : KeepsMem kFlushw := of_body fun h => .needTrapWindow h fun h => .keep (.spillMany (.landAll h) fun h => ⟨h⟩)

theorem kFillw : KeepsMem kFillw := of_body fun h => .needTrapWindow h fun h => .keep (.fillFrame h fun h => .fillFrame h fun h => ⟨h⟩)

theorem kRpt {word : W32} {srcs : List Nat} {count : Nat → State → Nat} : KeepsMem (kRpt word srcs count) := of_body fun h => .ite ⟨h⟩ ⟨h⟩

theorem kRptI {imm : Nat} : KeepsMem (kRptI imm) := kRpt

theorem kRptR {ra : Nat} : KeepsMem (kRptR ra) := kRpt

theorem kLoop {ra len : Nat} : KeepsMem (kLoop ra len) := of_body fun h => .ite ⟨h⟩ ⟨h⟩

theorem kMac {fn ra rb a : Nat} : KeepsMem (kMac fn ra rb a) := of_body fun h => ⟨h⟩

theorem kAclr {a : Nat} : KeepsMem (kAclr a) := of_body fun h => ⟨h⟩

theorem kExt {fn rd a k : Nat} : KeepsMem (kExt fn rd a k) := of_body fun h => ⟨h⟩

theorem kBest {mini : Bool} {rd ra rb : Nat} : KeepsMem (kBest mini rd ra rb) := of_body fun h => .ite ⟨h⟩ ⟨.kput (.ite h h)⟩

theorem kFpF {fn d a b : Nat} {sp : Bool} {srcs : List Nat} {op : Nat → State → Nat × Nat} : KeepsMem (kFpF fn d a b sp srcs op) :=
  of_body fun h => .needFp h fun h => .fpDone h

theorem kFpG {fn d a b : Nat} {sp : Bool} {srcs : List Nat} {op : Nat → State → Word × Nat} : KeepsMem (kFpG fn d a b sp srcs op) :=
  of_body fun h => .needFp h fun h => .fillFlags h fun h => ⟨h⟩

/-- The issue cycles say nothing of the memory. -/
theorem cycles {k : KIns} {c : Nat} (h : KeepsMem k) : KeepsMem { k with cycles := c } := ⟨h.body, h.after⟩

theorem kArith {fn d a b : Nat} {sp : Bool} : KeepsMem (kArith fn d a b sp) := cycles kFpF

theorem kSqrt {d a : Nat} {sp : Bool} : KeepsMem (kSqrt d a sp) := cycles kFpF

theorem kFmadd {d a b : Nat} {sp : Bool} : KeepsMem (kFmadd d a b sp) := kFpF

theorem kPick {mx : Bool} {d a b : Nat} {sp : Bool} : KeepsMem (kPick mx d a b sp) := kFpF

theorem kSign {fn d a : Nat} {sp : Bool} : KeepsMem (kSign fn d a sp) := kFpF

theorem kFcvt {d a : Nat} {sp : Bool} : KeepsMem (kFcvt d a sp) := kFpF

theorem kFtoi {d a : Nat} {sp : Bool} : KeepsMem (kFtoi d a sp) := kFpG

theorem kItof {d a : Nat} {sp : Bool} : KeepsMem (kItof d a sp) := kFpF

theorem kFmvgf {d a : Nat} {sp : Bool} : KeepsMem (kFmvgf d a sp) := kFpG

theorem kFmvfg {d a : Nat} {sp : Bool} : KeepsMem (kFmvfg d a sp) := kFpF

theorem kFcmp {rel d a b : Nat} {sp : Bool} : KeepsMem (kFcmp rel d a b sp) := kFpG

theorem kMfcs {d : Nat} : KeepsMem (kMfcs d) := kFpG

theorem kMtcs {a : Nat} : KeepsMem (kMtcs a) := of_body fun h => .needFp h fun h => .hz5Fill h fun h => ⟨h⟩

theorem kMfs {rd sp : Nat} {h : Bool} : KeepsMem (kMfs rd sp h) := of_body fun h => .ite ⟨h⟩ (.ite ⟨h⟩ ⟨h⟩)

theorem kMts {ra sp : Nat} {h : Bool} : KeepsMem (kMts ra sp h) := of_body fun h => .ite ⟨h⟩ (.ite ⟨h⟩ ⟨h⟩)

theorem kRett : KeepsMem kRett := of_parts (fun h => .needSup h fun {s} h => by
  extract_lets x back
  have hback {s : State} (h : MemOk s) : KOutOk (back s) := ⟨h⟩
  refine .ite ⟨h⟩ (.ite ?_ (hback h))
  split
  next e => exact ⟨.of_eq e (.kLoad h)⟩
  next e => exact ⟨.of_eq e (.kLoad h)⟩
  next e => exact .keep (.hz5Restore (.of_eq e (.kLoad h)) fun h => hback (.onSeq (.ite (.onSeq h) h)))) id

theorem kFence : KeepsMem kFence := of_parts (fun h => .ite ⟨h⟩ ⟨h⟩) fun h => .allErrors h

theorem kDmaresume {rd ra : Nat} : KeepsMem (kDmaresume rd ra) := of_body fun h => .needSup h fun h => .ite ⟨h⟩ (.ite ⟨.kput (.chResume h)⟩ ⟨h⟩)

theorem kIsync : KeepsMem kIsync := of_body fun h => ⟨h⟩

theorem kSyscall : KeepsMem kSyscall := of_body fun h => ⟨h⟩

theorem kBreak : KeepsMem kBreak := of_body fun h => ⟨h⟩

theorem kMcall : KeepsMem kMcall := of_body fun h => .needSup h fun {s} h => by
  extract_lets x p s1 s2 v
  have hs1 : MemOk s1 := h
  clear_value s1
  split
  · exact ⟨hs1⟩
  · refine .ite ⟨.safePoint hs1⟩ ?_
    split
    · exact ⟨.safePoint (.repairBegin hs1)⟩
    · exact ⟨hs1⟩
  · exact ⟨hs1⟩

theorem kActx {plane : BitVec 4} {fenced : Bool} : KeepsMem (kActx plane fenced) := of_body fun h => .needPrimary h fun h => .afterParams h fun h => ⟨.onIslands h⟩

theorem kFork {k fp pp : Nat} : KeepsMem (kFork k fp pp) := of_body fun h => .needPrimary h fun h => .afterParams h fun h => ⟨.onIslands h⟩

theorem kMoult {ra rb plane row : Nat} {east : Bool} : KeepsMem (kMoult ra rb plane row east) := of_body fun h => .needMember h fun {p s} h => by
  dsimp only
  split
  · exact ⟨h⟩
  · exact .afterParams h fun h => ⟨.ite h h⟩

theorem kAparm {ra scope row col k : Nat} : KeepsMem (kAparm ra scope row col k) :=
  of_body fun h => .ite ⟨h⟩ (.needMember h fun h => .ite ⟨h⟩ (.ite ⟨h⟩ ⟨h⟩))

theorem kBrf {cond k off : Nat} {c v : Bool} : KeepsMem (kBrf cond c v k off) := of_body fun h => .ite ⟨h⟩ (.needPrimary h fun {p s} h => by
  extract_lets flag hold s1 s2
  have hs1 : MemOk s1 := .ite (.noteFails (.setF h)) h
  have hs2 : MemOk s2 := .ite (.onIslands hs1) hs1
  exact .ite ⟨hs2⟩ ⟨hs2⟩)

theorem kAwait {rd ra rb : Nat} : KeepsMem (kAwait rd ra rb) := of_body fun h => .needPrimary h fun h => .ite ⟨h⟩ ⟨h⟩

theorem kFreeze {v : Bool} : KeepsMem (kFreeze v) := of_body fun h => .needPrimary h fun h => ⟨.ite (.captureResume h) (.captureGo h)⟩

end KeepsMem

/-- The instruction that a word spells, if any, keeps the memory canonical. -/
def SpellsKeeping (o : Option KIns) : Prop := ∀ k, o = some k → KeepsMem k

namespace SpellsKeeping
variable {op w : Nat}

theorem some {k : KIns} (h : KeepsMem k) : SpellsKeeping (some k) := by
  intro k' e
  rwa [← Option.some.inj e]

theorem none : SpellsKeeping none := nofun

theorem ite {c : Prop} [Decidable c] {o o' : Option KIns} (h : SpellsKeeping o) (h' : SpellsKeeping o') : SpellsKeeping (if c then o else o') := by
  split
  · exact h
  · exact h'

theorem insPlain : SpellsKeeping (insPlain op w) := by
  unfold Machine.insPlain
  dsimp only
  split
  · exact .ite (.some .kInt) .none
  · exact .some .kImm
  · exact .some .kImm
  · exact .some .kLd
  · exact .some .kLd
  · exact .some .kLd
  · exact .some .kLd
  · exact .some .kLd
  · exact .some .kLd
  · exact .some .kLd
  · exact .some .kSt
  · exact .some .kSt
  · exact .some .kSt
  · exact .some .kSt
  · exact .some .kFld
  · exact .some .kFst
  · exact .some .kDld
  · exact .ite (.some .kImm) .none

theorem insMac : SpellsKeeping (insMac w) := by
  unfold Machine.insMac
  refine .ite (.some .kMac) ?_
  split
  · exact .some .kMac
  · exact .some .kAclr
  · exact .some .kExt
  · exact .some .kBest
  · exact .some .kBest
  · exact .none
  · exact .some .kExt

theorem insFp : SpellsKeeping (insFp w) := by
  unfold Machine.insFp
  dsimp only
  split
  · exact .some .kArith
  · exact .some .kArith
  · exact .some .kArith
  · exact .some .kArith
  · exact .some .kSqrt
  · exact .some .kFmadd
  · exact .some .kPick
  · exact .some .kPick
  · exact .some .kSign
  · exact .some .kSign
  · exact .some .kSign
  · exact .some .kFcvt
  · exact .some .kFtoi
  · exact .some .kItof
  · exact .some .kFmvgf
  · exact .some .kFmvfg
  · exact .some .kFcmp
  · exact .some .kFcmp
  · exact .some .kFcmp
  · exact .some .kMfcs
  · exact .some .kMtcs
  · exact .none

theorem insSys : SpellsKeeping (insSys op w) := by
  unfold Machine.insSys
  dsimp only
  split
  · exact .some .kMfs
  · exact .some .kMts
  · exact .some .kRett
  · exact .some .kSyscall
  · exact .some .kBreak
  · exact .some .kMcall
  · exact .some .kIsync
  · exact .some .kFence
  · exact .some .kDmaresume
  · exact .some .kFlushw
  · exact .some .kFillw
  · exact .some .kCxs
  · exact .some .kCxs
  · exact .some .kCxr
  · exact .some .kCxr
  · exact .none

theorem insFlow : SpellsKeeping (insFlow op w) := by
  unfold Machine.insFlow
  dsimp only
  split
  · exact .some .kJ
  · exact .some .kJalr
  · exact .some .kCallw
  · exact .some .kCallwr
  · exact .some .kRetw
  · exact .some .kBrf
  · exact .some .kActx
  · exact .some .kMoult
  · exact .some .kAparm
  · exact .some .kFork
  · exact .some .kAwait
  · exact .some .kFreeze
  · split
    · exact .some .kRptR
    · exact .some .kRptI
  · exact .some .kLoop
  · exact .some .kMm
  · exact .some .kMm
  · exact .ite (.some .kBranch) .none

theorem insNear : SpellsKeeping (insNear w) := .ite insPlain (.ite insMac (.ite insFp (.ite insSys insFlow)))

theorem insOf : SpellsKeeping (insOf w) := by
  unfold Machine.insOf
  split
  next k e => exact .ite (.some (insNear k e)) .none
  · exact .none

end SpellsKeeping

end Sys2Proof.Proofs

namespace Sys2Proof.Safety.MemOk
open Sys2Proof.Machine Sys2Proof.Proofs
variable {s : State} {n : Nat} {k : KIns}

theorem runOnce (hk : KeepsMem k) (h : MemOk s) : MemOk (runOnce n k s) := by
  have hb : KOutOk (k.body n s) := hk.body h
  unfold Machine.runOnce
  generalize k.body n s = o at hb
  cases o with
  | ok s => exact hk.after (.finish (.onSeq hb.mem))
  | jump pc s => exact hk.after (.finish (.onSeq hb.mem))
  | trap c a va s => exact .raiseAt hb.mem
  | after c s => exact .raiseAt hb.mem
  | dfault d c a va s => exact .dfault hb.mem
  | stay s => exact hb.mem

theorem runRepeat {m : Nat} (hk : KeepsMem k) (h : MemOk s) : MemOk (runRepeat n k m s) := by
  induction m generalizing s with
  | zero => exact h
  | succ m ih =>
    have hb : KOutOk (k.body n (Machine.landLoads n k.srcs s)) := hk.body (.landLoads h)
    unfold Machine.runRepeat
    refine .ite (.finish (.setSeq h)) ?_
    generalize k.body n (Machine.landLoads n k.srcs s) = o at hb
    cases o with
    | ok s => exact ih (.onSeq hb.mem)
    | trap c a va s => exact .raiseAt hb.mem
    | dfault d c a va s => exact .dfault hb.mem
    | jump pc s => exact hb.mem
    | after c s => exact hb.mem
    | stay s => exact hb.mem

theorem issueFetched (hk : KeepsMem k) (h : MemOk s) : MemOk (issueFetched n k s) := by
  unfold Machine.issueFetched
  extract_lets s1
  have hs1 : MemOk s1 := .landLoads h
  exact .ite (.ite (.runRepeat hk hs1) (.raiseAt hs1)) (.runOnce hk hs1)

theorem issue (hk : KeepsMem k) (h : MemOk s) : MemOk (issue n k s) := by
  unfold Machine.issue
  refine .ite h (.atBoundary h fun h => .relaunch h fun h => ?_)
  dsimp only
  split
  next e => exact .raiseAt (.of_eq e (.kFetch h))
  next e => exact .issueFetched hk (.of_eq e (.kFetch h))

theorem runAwait {rd ra rb : Nat} (h : MemOk s) : MemOk (runAwait n rd ra rb s) := .ite (.atBoundary h fun h => .awaitCheck h) (.issue .kAwait h)

theorem stepOnce (h : MemOk s) : MemOk (stepOnce n s) := by
  unfold Machine.stepOnce
  refine .ite h (.atBoundary h fun h => .relaunch h fun h => ?_)
  dsimp only
  split
  next w _ _ e =>
    split
    · exact .raiseAt (.of_eq e (.kFetch h))
    next k hk => exact .issueFetched (SpellsKeeping.insOf k hk) (.of_eq e (.kFetch h))
  next e => exact .raiseAt (.of_eq e (.kFetch h))
  next e => exact .of_eq e (.kFetch h)

theorem seqStep (h : MemOk s) : MemOk (seqStep n s) := by
  unfold Machine.seqStep
  extract_lets s1
  have hs1 : MemOk s1 := .stepOnce (.onSeq h)
  exact .ite (.ite (.stepOnce hs1) hs1) h

end Sys2Proof.Safety.MemOk
end

