-- ==== Sys2Proof/Proofs/MemOkStep.lean ====
section
/-!
SUPPORT.  Proofs/MemOkStep.lean: O4: every command and every tick keeps the memory canonical.
-/
namespace Sys2Proof.Safety.MemOk
open Sys2Proof.Machine Sys2Proof.Proofs
variable {s t : State}

/-! ### Tick -/

theorem tickIslands (h : MemOk s) : MemOk (tickIslands s) := foldl h fun h => ite (islandEdge h) h

theorem tickSeqs (h : MemOk s) : MemOk (tickSeqs s) := foldl h fun h => ite (awaitCheck h) h

theorem tick (h : MemOk s) : MemOk (tick s) := trigClocks (ringSend (ringClock (tickSeqs (tickIslands h))))

end Sys2Proof.Safety.MemOk

namespace Sys2Proof.Proofs
open Sys2Proof.Machine Sys2Proof.Safety

/-- A command that answers a next state leaves a canonical memory. -/
inductive NextOk : Host.Outcome State Fault Refusal → Prop
  | next {t : State} (h : MemOk t) : NextOk (.next t)
  | fault {f : Fault} : NextOk (.fault f)
  | refused {r : Refusal} : NextOk (.refused r)

namespace NextOk
variable {s : State}

theorem ite {c : Prop} [Decidable c] {o o' : Host.Outcome State Fault Refusal} (h : NextOk o) (h' : NextOk o') : NextOk (if c then o else o') := by
  split
  · exact h
  · exact h'

theorem pfWrite {g : State → State} (h : MemOk s) (hg : ∀ {s}, MemOk s → MemOk (g s)) : NextOk (pfWrite g s) := .next (.ite (hg h) h)

theorem received {l : Nat} {g : State → State} (h : MemOk s) (hg : ∀ {s}, MemOk s → MemOk (g s)) : NextOk (received l g s) := .next (.ite h (hg h))

theorem execIslandMemoryAccess {i : Fin 156} {p : PortReq} {clash : Bool} (h : MemOk s) : NextOk (execIslandMemoryAccess i p clash s) := by
  unfold Machine.execIslandMemoryAccess
  split
  · exact .next h
  · extract_lets wait
    split
    · exact .next h
    · split
      · exact .next h
      next e => exact .next (.of_eq e (.portServe h))

theorem execQueuePush {i : Fin 156} {q : Fin 4} (h : MemOk s) : NextOk (execQueuePush i q s) := by
  unfold Machine.execQueuePush
  extract_lets
  split
  · exact .next h
  · exact .ite (.next (.settle (.qEnd (.qAccept (.takeSrc h))))) (.next h)

theorem execPatrolWindow {i : Fin 156} {st : PatrolStep} (h : MemOk s) : NextOk (execPatrolWindow i st s) := by
  unfold Machine.execPatrolWindow
  split
  · exact .next h
  · split
    · exact .next (.ite (.patrolBorrow h) h)
    · exact .next (.patrolMarch h)
    · exact .next h
    · exact .next (.patrolReturn h)
    · exact .next h

theorem execWordUnitFiring {i : Fin 156} {u : Fin 16} {edge : Bool} (h : MemOk s) : NextOk (execWordUnitFiring i u edge s) := by
  unfold Machine.execWordUnitFiring
  extract_lets s1
  have hs1 : MemOk s1 := .ite (.islandEdge h) h
  exact .next (.ite (.fire hs1) hs1)

theorem execFiringResult {i : Fin 156} {u : Fin 16} {edge : Bool} (h : MemOk s) : NextOk (execFiringResult i u edge s) := by
  unfold Machine.execFiringResult
  extract_lets s1
  have hs1 : MemOk s1 := .ite (.islandEdge h) h
  exact .ite (.next (.finishOldest hs1 (fun h => .complete h))) (.next hs1)

theorem execTokenPass {i : Fin 156} {u : Fin 16} (h : MemOk s) : NextOk (execTokenPass i u s) := by
  unfold Machine.execTokenPass
  split
  · split
    · exact .next h
    · exact .next (.forward h)
  · exact .next h

theorem execTokenJoin {i : Fin 156} {u : Fin 16} (h : MemOk s) : NextOk (execTokenJoin i u s) := by
  unfold Machine.execTokenJoin
  extract_lets _ _ _ s1
  have hs1 : MemOk s1 := .joinTokens h
  exact .ite (.next (.ite (.orF hs1) hs1)) (.next h)

theorem execAbortToken {i : Fin 156} {u : Fin 16} (h : MemOk s) : NextOk (execAbortToken i u s) := by
  unfold Machine.execAbortToken
  extract_lets
  split
  · exact .next h
  · split
    · exact .next (.foldl h fun h => .discardStep h)
    · split
      · split
        · exact .next h
        · extract_lets _ s1
          have hs1 : MemOk s1 := .forward h
          exact .next (.ite (.foldl (.onWu hs1) fun h => .discardData h) hs1)
      · exact .next h

theorem execBlockEndEmission {i : Fin 156} {u : Fin 16} (h : MemOk s) : NextOk (execBlockEndEmission i u s) := by
  unfold Machine.execBlockEndEmission
  split
  · extract_lets
    split
    next e =>
      have h1 := MemOk.of_eq e (.blockResult h)
      exact .ite (.next (.place h1)) (.next (.place (.passesA (.consumeIn h1))))
  · exact .next h

theorem execMoultRelay {i : Fin 156} {u : Fin 16} (h : MemOk s) : NextOk (execMoultRelay i u s) := by
  unfold Machine.execMoultRelay
  split
  · split
    · exact .next h
    · exact .next (.forward h)
  · exact .next h

theorem execMoultDrop {i : Fin 156} {u : Fin 16} (h : MemOk s) : NextOk (execMoultDrop i u s) := by
  unfold Machine.execMoultDrop
  extract_lets
  split
  · split
    · exact .next h
    · exact .next (.consumeIn h)
  · exact .next h

theorem execOwedTokenDrop {i : Fin 156} {u : Fin 16} (h : MemOk s) : NextOk (execOwedTokenDrop i u s) := by
  unfold Machine.execOwedTokenDrop
  split
  · split
    · exact .next h
    · exact .next (.onWu (.consumeIn h))
  · exact .next h

theorem execBroadcastArrival {i : Fin 156} (h : MemOk s) : NextOk (execBroadcastArrival i s) := by
  unfold Machine.execBroadcastArrival
  split
  · exact .next h
  · exact .next (.ite (.arrive h) h)

theorem execForkArming {i : Fin 156} (h : MemOk s) : NextOk (execForkArming i s) := by
  unfold Machine.execForkArming
  split
  · exact .next h
  · exact .next (.ite (.arrive h) h)

theorem execForkResolution {i : Fin 156} (h : MemOk s) : NextOk (execForkResolution i s) := by
  unfold Machine.execForkResolution
  split
  · exact .next h
  · exact .next (.ite (.arrive h) h)

theorem execSegmentSwitch {d : Driver} (h : MemOk s) : NextOk (execSegmentSwitch d s) := by
  unfold Machine.execSegmentSwitch
  split
  · exact .next (.ite (.pushDriver h) h)
  · exact .next h

theorem execFencePassage {i : Fin 156} {e : Fin 137} (h : MemOk s) : NextOk (execFencePassage i e s) := by
  unfold Machine.execFencePassage
  split
  · split
    · exact .next (.ite (.fenceUnit h) h)
    · split
      · split
        · exact .next (.ite (.pushSegment h) h)
        · exact .next h
      · split
        · split
          · exact .next (.ite (.pushJoint h) h)
          · exact .next h
        · exact .next h
  · exact .next h

theorem execDataBlock {l : Fin 192} {early late : BitVec 32} {fixed : Bool} (h : MemOk s) : NextOk (execDataBlock l early late fixed s) := by
  unfold Machine.execDataBlock
  refine .received h fun h => ?_
  extract_lets s1 _ s2
  have hs1 : MemOk s1 := .blockSeen h
  have hs2 : MemOk s2 := .endAbortRun (.settleTimed hs1)
  exact .ite (.ite (.rxTimed hs2 id) (.onLane hs2)) hs2

theorem execTokenBlock {l : Fin 192} {body : BitVec 51} {half : Bool} {sb : BitVec 4} {fixed : Bool} (h : MemOk s) :
    NextOk (execTokenBlock l body half sb fixed s) := by
  unfold Machine.execTokenBlock
  refine .received h fun h => ?_
  extract_lets s1 _ s2
  have hs1 : MemOk s1 := .ctlSeen h
  have hs2 : MemOk s2 := .endAbortRun hs1
  exact .ite (.ite (.rxTimed hs2 id) (.onLane hs2)) hs2

theorem execFlightClose {l : Fin 192} {fcrc : BitVec 32} {fseq : BitVec 8} {half : Bool} {sb : BitVec 4} {fixed : Bool} (h : MemOk s) :
    NextOk (execFlightClose l fcrc fseq half sb fixed s) := by
  unfold Machine.execFlightClose
  refine .received h fun h => ?_
  extract_lets s1 _ s2
  have hs1 : MemOk s1 := .ctlSeen h
  have hs2 : MemOk s2 := .endAbortRun hs1
  exact .ite (.ite (.onLane hs2) (.flightClose hs2)) hs2

theorem execCreditReturn {l : Fin 192} {aseq : BitVec 8} {nak : Bool} {cred : BitVec 16} {half : Bool} {sb : BitVec 4} {aligned fixed : Bool} (h : MemOk s) :
    NextOk (execCreditReturn l aseq nak cred half sb aligned fixed s) := by
  unfold Machine.execCreditReturn
  refine .received h fun h => ?_
  extract_lets s1 _ s2 s3
  have hs1 : MemOk s1 := .ctlSeen h
  have hs2 : MemOk s2 := .endAbortRun hs1
  have hs3 : MemOk s3 := .ackFlights (.onLane hs2)
  exact .ite (.ite (.ite (.replay hs3) hs3) (.groupSeek (.setF hs2))) hs2

theorem execAbortBlock {l : Fin 192} {payload : BitVec 28} {cause : BitVec 4} {half : Bool} {sb : BitVec 4} {fixed : Bool} (h : MemOk s) :
    NextOk (execAbortBlock l payload cause half sb fixed s) := by
  unfold Machine.execAbortBlock
  refine .received h fun h => ?_
  extract_lets s1 _ _ _ begun
  have hs1 : MemOk s1 := .ctlSeen h
  have hbegun {u : State} (h : MemOk u) : MemOk (begun u) := h
  exact .ite (.ite (.rxTimed hs1 (fun h => .rxItems (hbegun h))) (.ite (.rxItems (hbegun (.settleLate hs1))) (.onLane (hbegun hs1)))) hs1

theorem execInvalidBlock {l : Fin 192} {hdr fixed : Bool} (h : MemOk s) : NextOk (execInvalidBlock l hdr fixed s) := by
  unfold Machine.execInvalidBlock
  refine .received h fun h => ?_
  extract_lets _ _ s1 _ s2
  have hs1 : MemOk s1 := .settleTimed h
  have hs2 : MemOk s2 := .ite (.ite (.ite (.badTimed (.setF hs1)) (.badTimed (.rxItems hs1))) (.onLane (.bump hs1))) (.bump hs1)
  exact .blockSeen hs2

theorem execTxAbortToken {l : Fin 192} (h : MemOk s) : NextOk (execTxAbortToken l s) := by
  unfold Machine.execTxAbortToken
  split
  · split
    · split
      · exact .next (.ite (.txItem (.takeTokens h)) h)
      · exact .next h
    · exact .next h

theorem execLaneBlockTime {l : Fin 192} (h : MemOk s) : NextOk (execLaneBlockTime l s) := by
  unfold Machine.execLaneBlockTime
  extract_lets
  split
  · exact .next h
  · split
    · split
      · exact .next (.ite (.sendTurn h) h)
      · split
        · exact .next (.ite (.foldl h fun h => .ite h h) h)
        · split
          · exact .next h
          · split
            · extract_lets s1
              have hs1 : MemOk s1 := .txCollect h
              exact .next (.ite (.txTimed hs1) (.txUntimed hs1))
            · exact .next (.sendTurn h)

theorem execFlightEnd {l : Fin 192} (h : MemOk s) : NextOk (execFlightEnd l s) := by
  unfold Machine.execFlightEnd
  split
  · exact .ite (.next (.closeFlight h)) (.next h)

theorem execCreditReturnTimer {l : Fin 192} (h : MemOk s) : NextOk (execCreditReturnTimer l s) := by
  unfold Machine.execCreditReturnTimer
  split
  · exact .ite (.next (.ite h (.sendReturn h))) (.next h)

theorem execRouteAction (h : MemOk s) : NextOk (execRouteAction s) := by
  unfold Machine.execRouteAction
  split
  · exact .next h
  · exact .next (.routeAct h)

theorem execRouteStuck {r : Fin 16} (h : MemOk s) : NextOk (execRouteStuck r s) := by
  unfold Machine.execRouteStuck
  split
  · exact .next h
  · extract_lets s1 s2 s3
    have hs2 : MemOk s2 := .routeBell h
    have hs3 : MemOk s3 := .ite (.emit hs2) hs2
    exact .next (.logErr hs3)

theorem execJoinFrame {r : Fin 2} {f : RingFrame} (h : MemOk s) : NextOk (execJoinFrame r f s) := by
  unfold Machine.execJoinFrame
  extract_lets _ s1
  have hs1 : MemOk s1 := .recvPlain h
  exact .next (.ite (.sendFrame hs1) hs1)

theorem execLeaveFrame {r : Fin 2} {f : RingFrame} (h : MemOk s) : NextOk (execLeaveFrame r f s) := by
  unfold Machine.execLeaveFrame
  extract_lets _ s1 s2
  have hs1 : MemOk s1 := .recvPlain h
  have hs2 : MemOk s2 := .onRing hs1
  exact .ite (.next (.ite (.leaveStep hs2) hs2)) (.next hs1)

theorem execCicadaBlock {r : Fin 2} {id : BitVec 6} {tm : Bool} (h : MemOk s) : NextOk (execCicadaBlock r id tm s) := by
  unfold Machine.execCicadaBlock
  extract_lets s1
  have hs1 : MemOk s1 := .ite h h
  refine .next ?_
  refine .ringIn hs1 fun h => ?_
  extract_lets _ s2 s3 s4
  have hs4 : MemOk s4 := .ite (.ite h (.masterLeft h)) h
  exact .ite (.dupId hs4) hs4

theorem execRingJoinTimer (h : MemOk s) : NextOk (execRingJoinTimer s) := by
  unfold Machine.execRingJoinTimer
  split
  · exact .next h
  · split
    next e =>
      have h1 := MemOk.of_eq e h
      exact .next (.sendFrame h1)
  · exact .next h
  · exact .next (.onRing (.probe h))
  · exact .next h
  · exact .next h

theorem execRingLeaveTimer (h : MemOk s) : NextOk (execRingLeaveTimer s) := by
  unfold Machine.execRingLeaveTimer
  split
  · exact .next h
  · exact .next (.ite (.ringJoin h) h)
  · exact .next h

theorem execRingSilence {r : Fin 2} (h : MemOk s) : NextOk (execRingSilence r s) := by
  unfold Machine.execRingSilence
  extract_lets _ s1
  have hs1 : MemOk s1 := .ite h h
  exact .next (.ite (.logErr (.setF hs1)) hs1)

theorem execRxhdrRead (h : MemOk s) : NextOk (execRxhdrRead s) := by
  unfold Machine.execRxhdrRead
  split
  next e =>
    have h1 := MemOk.of_eq e (.rxHeader h)
    exact .next h1

theorem execRxdataRead (h : MemOk s) : NextOk (execRxdataRead s) := by
  unfold Machine.execRxdataRead
  split
  next e =>
    have h1 := MemOk.of_eq e (.rxPayload h)
    exact .next h1

theorem execMacProductAdd {n : Fin 24} (h : MemOk s) : NextOk (execMacProductAdd n s) := by
  unfold Machine.execMacProductAdd
  extract_lets
  split
  · exact .next h
  · exact .next h

theorem execLoadReturn {n : Fin 24} (h : MemOk s) : NextOk (execLoadReturn n s) := by
  unfold Machine.execLoadReturn
  split
  · exact .next h
  · exact .next h

theorem execSeqDmafqRead {n : Fin 24} (h : MemOk s) : NextOk (execSeqDmafqRead n s) := by
  unfold Machine.execSeqDmafqRead
  split
  · split
    next e =>
      have h1 := MemOk.of_eq e (.dmafqRead h)
      exact .next h1
  · exact .next h

theorem execSequencerBankAccess {n : Fin 24} {p : PortReq20} {clash : Bool} (h : MemOk s) : NextOk (execSequencerBankAccess n p clash s) := by
  unfold Machine.execSequencerBankAccess
  split
  · split
    next e =>
      have h1 := MemOk.of_eq e (.busReads h)
      exact .next h1
    next e =>
      have h1 := MemOk.of_eq e (.busReads h)
      exact .next h1
  · split
    next e =>
      have h1 := MemOk.of_eq e (.busWrites h)
      exact .next h1
    next e =>
      have h1 := MemOk.of_eq e (.busWrites h)
      exact .next h1
    next e => exact .next (.of_eq e (.busWrites h))

theorem execPageTableWalk {r : Req} {va : BitVec 48} (h : MemOk s) : NextOk (execPageTableWalk r va s) := by
  unfold Machine.execPageTableWalk
  split
  · exact .next h
  · exact .next (.leafOf h)
  · exact .next (.leafOf h)

theorem execTlbInvalidate {r : Req} {v : BitVec 64} (h : MemOk s) : NextOk (execTlbInvalidate r v s) := by
  unfold Machine.execTlbInvalidate
  split
  · exact .next (.tlbInvalidate h)
  · exact .next (.tlbInvalidate h)
  · exact .next h

theorem execFailPortItem {r : Fin 12} (h : MemOk s) : NextOk (execFailPortItem r s) := by
  unfold Machine.execFailPortItem
  extract_lets
  split
  · exact .next h
  · split
    · exact .next h
    · extract_lets
      split
      · exact .next h
      · exact .next (.ite (.sliceRecord h) (.sliceMark h))

theorem execArmComplete {p : Fin 12} (h : MemOk s) : NextOk (execArmComplete p s) := by
  unfold Machine.execArmComplete
  split
  · exact .next (.ite (.armDone h) h)
  · exact .next h

theorem execSolverStart (h : MemOk s) : NextOk (execSolverStart s) := by
  unfold Machine.execSolverStart
  split
  · exact .ite (.next h) (.next (.ite (.undecided h) (.ite (.undecided h) h)))
  · exact .next h

theorem execSolveComplete {k : Fin 4} (h : MemOk s) : NextOk (execSolveComplete k s) := by
  unfold Machine.execSolveComplete
  split
  · exact .next (.engineResult h)
  · exact .next (.solveEnd h)
  · exact .next h

theorem execSolveTimeBound {k : Fin 4} (h : MemOk s) : NextOk (execSolveTimeBound k s) := by
  unfold Machine.execSolveTimeBound
  split
  · exact .next (.engineResult h)
  · exact .next h

theorem execLoadHeader (h : MemOk s) : NextOk (execLoadHeader s) := by
  unfold Machine.execLoadHeader
  split
  · split
    · exact .next (.cfgFail h)
    · split
      next e => exact .next (.of_eq e (.takeBytes h))
      next e =>
        have h1 := MemOk.of_eq e (.takeBytes h)
        exact .next (.cfgFail h1)
      next e =>
        have h1 := MemOk.of_eq e (.takeBytes h)
        extract_lets
        split
        · exact .next (.headerPass h1)
        · exact .next (.cfgFail h1)
  · exact .next h

theorem execFrameRecord (h : MemOk s) : NextOk (execFrameRecord s) := by
  unfold Machine.execFrameRecord
  split
  · extract_lets
    split
    next e => exact .next (.of_eq e (.takeBytes h))
    next e =>
      have h1 := MemOk.of_eq e (.takeBytes h)
      exact .next (.cfgFail h1)
    next e =>
      have h1 := MemOk.of_eq e (.takeBytes h)
      extract_lets _ s1
      split
      · split
        · exact .next (.cfgAdvance (.acceptRecord h1))
        · exact .next (.cfgFail h1)
      · exact .next (.cfgAdvance h1)
  · exact .next h

theorem execLoadVerify {stagingError : Bool} (h : MemOk s) : NextOk (execLoadVerify stagingError s) := by
  unfold Machine.execLoadVerify
  split
  · split
    · exact .next (.ite (.claimLive h) h)
    · exact .next (.cfgFail h)
  · exact .ite (.next (.commitLive h)) (.next h)

theorem execScrubFrame {upset : BitVec 1024} {crcUpset : BitVec 32} (h : MemOk s) : NextOk (execScrubFrame upset crcUpset s) := by
  unfold Machine.execScrubFrame
  split
  · split
    · exact .next h
    · extract_lets s1
      have hs1 : MemOk s1 := .upsetFrame h
      exact .next (.ite (.onCfg hs1) (.scrubMismatch hs1))
  · exact .next h

theorem execBadCode {f : Fin 13} {d : Desc} (h : MemOk s) : NextOk (execBadCode f d s) := by
  unfold Machine.execBadCode
  split
  · exact .next h
  · exact .ite (.next (.jobEnd h)) (.next h)

theorem execTrimLoad {ok : Bool} {cspMode modId : BitVec 2} (h : MemOk s) : NextOk (execTrimLoad ok cspMode modId s) := by
  unfold Machine.execTrimLoad
  split
  · exact .next h
  · extract_lets _ s1 s2
    have hs1 : MemOk s1 := .ite h h
    have hs2 : MemOk s2 := .trimValues (.setF (.setF hs1))
    exact .ite (.next (.requestRelease (.same hs2 rfl))) (.ite (.next (.same hs1 rfl)) (.next (.setF (.same hs1 rfl))))

theorem execRungEntryComplete {n : Fin 12} (h : MemOk s) : NextOk (execRungEntryComplete n s) := by
  unfold Machine.execRungEntryComplete
  split
  · exact .next h
  · extract_lets s1
    have hs1 : MemOk s1 := .foldl h fun h => .seqDoze h
    exact .next (.ite (.rungReached hs1) hs1)

theorem execWakeAdmission {wait : BitVec 32} (h : MemOk s) : NextOk (execWakeAdmission wait s) := by
  unfold Machine.execWakeAdmission
  split
  · exact .next h
  · extract_lets _ s1 s2
    have hs2 : MemOk s2 := .ite h (.ite h h)
    exact .ite (.next (.admitWake (.same hs2 rfl))) (.next (.same hs2 rfl))

theorem execAutoRepair {i : Fin 156} {late : Bool} (h : MemOk s) : NextOk (execAutoRepair i late s) := by
  unfold Machine.execAutoRepair
  split
  · exact .next h
  · split
    · exact .ite (.next h) (.ite (.next (.ite h (.repairFinish h))) (.next (.repairStep h)))
    · exact .next (.ite (.repairStep h) h)

theorem execContainedHandling (h : MemOk s) : NextOk (execContainedHandling s) := by
  unfold Machine.execContainedHandling
  split
  · exact .next h
  · split
    · extract_lets _ _ s1 s2
      have hs1 : MemOk s1 := .ite (.stopFor h) h
      have hs2 : MemOk s2 := .same hs1 rfl
      exact .ite (.next (.same hs1 rfl)) (.next (.handled (.foldl hs2 fun h => .containedFollow h)))
    · exact .next h

theorem execFatalHandling (h : MemOk s) : NextOk (execFatalHandling s) := by
  unfold Machine.execFatalHandling
  split
  · extract_lets _ _ s1 s2
    have hs2 : MemOk s2 := .foldl h fun h => .stopFor h
    exact .ite (.next (.same hs2 rfl)) (.next (.fatalEnd hs2))
  · exact .next h

theorem execSmbusRead {addr : BitVec 7} {cmd : BitVec 8} {sense : BitVec 16} (h : MemOk s) : NextOk (execSmbusRead addr cmd sense s) := by
  unfold Machine.execSmbusRead
  split
  · split
    · exact .next h
    · exact .next h
  · exact .next h

theorem execPowerCapTick {power : BitVec 10} {lid : BitVec 16} (h : MemOk s) : NextOk (execPowerCapTick power lid s) := by
  unfold Machine.execPowerCapTick
  split
  · exact .next h
  · extract_lets s1 _ _ s2
    have hs1 : MemOk s1 := .lidSeen h
    have hs2 : MemOk s2 := .same hs1 rfl
    exact .ite (.next hs2) (.ite (.next (.setCeil (.setF hs2))) (.ite (.next (.setCeil hs2)) (.next hs2)))

theorem execDbgunlock {sig : BitVec 768} {slot : BitVec 2} (h : MemOk s) : NextOk (execDbgunlock sig slot s) := by
  unfold Machine.execDbgunlock
  extract_lets s1
  split
  · exact .next h
  · split
    · exact .next h
    · split
      next e =>
        have h1 := MemOk.of_eq e h
        exact .next h1

theorem execHostLinkTrained {flit : Bool} {width : BitVec 5} {speed : BitVec 3} (h : MemOk s) : NextOk (execHostLinkTrained flit width speed s) := by
  unfold Machine.execHostLinkTrained
  split
  · extract_lets s1
    have hs1 : MemOk s1 := .foldl h fun h => .setF (.setF (.setF h))
    clear_value s1
    split
    next e1 =>
      split
      next e2 =>
        have h2 := MemOk.of_eq e2 (.freshBit (.of_eq e1 (.freshBit hs1)))
        exact .next (.same (.foldl h2 fun h => .setF h) rfl)
  · exact .next h

theorem execMspWriteWord {p : Fin 24} {k : Fin 8} {clash : Bool} (h : MemOk s) : NextOk (execMspWriteWord p k clash s) := by
  unfold Machine.execMspWriteWord
  split
  extract_lets take
  have htake {s : State} {j : Nat} (h : MemOk s) : MemOk (take s j) := .takeTrack h
  refine .ite (.next h) ?_
  split
  · exact .next h
  · exact .next (.writeItem h fun h => .onMsp (htake h))
  · refine .next (.writeItem h fun {s} h => ?_)
    extract_lets s1 s2
    have hs1 : MemOk s1 := .foldl h fun h => htake h
    have hs2 : MemOk s2 := .onMsp (.ite hs1 (.setF hs1))
    exact .ite (.mspNotify (.setF hs2)) hs2
  · refine .next (.foldl h fun {t j} h => ?_)
    split
    · exact .ite h (htake (.setF h))
    · exact h

theorem execDbgacc {op : DbgOp} (h : MemOk s) : NextOk (execDbgacc op s) := by
  unfold Machine.execDbgacc
  extract_lets s1
  have hs1 : MemOk s1 := .emit (.jtagSelect h)
  exact .next (.ite (.dbgRun hs1) (.dbgEnd hs1))

theorem execParameterDelivery {p : Fin 12} (h : MemOk s) : NextOk (execParameterDelivery p s) := by
  unfold Machine.execParameterDelivery
  split
  · exact .next h
  · split
    · exact .next h
    · exact .ite (.next (.foldl h fun h => .arrive h)) (.next h)

theorem execAwaitTimeout {n : Fin 24} (h : MemOk s) : NextOk (execAwaitTimeout n s) := by
  unfold Machine.execAwaitTimeout
  split
  · exact .next (.ite h (.awaitDone h))
  · exact .next h

theorem execArrayEvent {p : Fin 12} (h : MemOk s) : NextOk (execArrayEvent p s) := by
  unfold Machine.execArrayEvent
  split
  · exact .next (.awaitCheck (.recordAev (.ite (.seeFlag h) h)))
  · exact .next h

theorem execHdmCommit {d : Fin 16} {v : BitVec 64} (h : MemOk s) : NextOk (execHdmCommit d v s) := .pfWrite h fun h => .ite (.hdm2Write h) h

theorem execCxpLock (h : MemOk s) : NextOk (execCxpLock s) := .pfWrite h fun h => .ite (.fieldWrite h) h

theorem execPartitionReset {bits : BitVec 12} (h : MemOk s) : NextOk (execPartitionReset bits s) := .pfWrite h fun h => .foldl h fun h => .partReset h

theorem execRpt {n : Fin 24} {f : Bool} {imm : BitVec 10} {ra : Fin 32} (h : MemOk s) : NextOk (execRpt n f imm ra s) := by
  unfold Machine.execRpt
  split
  · exact .next (.issue .kRptR h)
  · exact .next (.issue .kRptI h)

/-- Every command that answers a next state leaves a canonical memory. -/
theorem exec {c : Instr} (h : MemOk s) : NextOk (exec c s) := by
  cases c with
  | registerWrite => exact .ite (.next h) (.ite (.next (.bar4Write h)) (.ite (.next h) (.next (.barWrite h))))
  | gatedAccess => exact .ite (.next (.ite h h)) (.next h)
  | gatedAccessClear => exact .pfWrite h (fun h => .glbWrite h)
  | badCode => exact .execBadCode h
  | getInfo => exact .next (.firmware h fun h => .getInfo h)
  | loadPartition => exact .next (.firmware h fun h => .loadPartition h)
  | unloadPartition => exact .next (.firmware h fun h => .unloadPartition h)
  | startPartition => exact .next (.firmware h fun h => .startPartition h)
  | stopPartition => exact .next (.firmware h fun h => .stopPartition h)
  | setPower => exact .next (.firmware h fun h => .setPower h)
  | readHealth => exact .next (.firmware h fun h => .readHealth h)
  | repairIsland => exact .next (.firmware h fun h => .repairIsland h)
  | capture => exact .next (.firmware h fun h => .capture h)
  | readRepair => exact .next (.firmware h fun h => .readRepair h)
  | setLanes => exact .next (.firmware h fun h => .setLanes h)
  | ringJoin => exact .next (.firmware h fun h => .ringJoinCmd h)
  | ringLeave => exact .next (.firmware h fun h => .ringLeaveCmd h)
  | cxlStatus => exact .next (.firmware h fun h => .cxlStatus h)
  | updateFlash => exact .next (.firmware h fun h => .updateFlash h)
  | readErrors => exact .next (.firmware h fun h => .readErrors h)
  | warmReset => exact .next (.firmware h fun h => .warmResetCmd h)
  | mailboxSubmit => exact .next (.ite (.sqtWrite h) h)
  | mailboxCompletionHead => exact .next (.ite (.cqhWrite h) h)
  | mailboxReset => exact .next (.ite (.mbxCtlWrite h) h)
  | glbPartCfgWrite => exact .pfWrite h (fun h => .partCfgWrite h)
  | wordUnitFiring => exact .execWordUnitFiring h
  | firingResult => exact .execFiringResult h
  | pldComplete => exact .next (.ite (.finishOldest h (fun h => .completePld h)) h)
  | hincWrite => exact .next (.ite (.finishOldest h (fun h => .completeHinc h)) h)
  | tokenPass => exact .execTokenPass h
  | tokenJoin => exact .execTokenJoin h
  | abortToken => exact .execAbortToken h
  | blockEndEmission => exact .execBlockEndEmission h
  | moultRelay => exact .execMoultRelay h
  | planeChangeJoin => exact .ite (.next (.joinSwitch h)) (.next h)
  | moultDrop => exact .execMoultDrop h
  | owedTokenDrop => exact .execOwedTokenDrop h
  | joinRelease => exact .next (.islWrite h fun h => .moultRelease h)
  | moultStall => exact .next (.ite (.raiseStall h) h)
  | moultClrcnt => exact .next (.islWrite h id)
  | segmentSwitch => exact .execSegmentSwitch h
  | broadcastArrival => exact .execBroadcastArrival h
  | fencePassage => exact .execFencePassage h
  | arrayIdle => exact .next (.ite (.raiseAev h) h)
  | fifoPush => exact .next (.pushDriver h)
  | spineDrive => exact .ite (.next (.updateJoint h)) (.next h)
  | rtClrcnt => exact .next (.islWrite h id)
  | queuePush => exact .execQueuePush h
  | queueMark => exact .next (.ite (.qEnd h) h)
  | queueRewind => exact .next (.ite (.qEnd h) h)
  | queueRelease => exact .next (.ite (.qEnd h) h)
  | queueFlush => exact .next (.ite (.qFlush h) h)
  | queueClrcnt => exact .next (.islWrite h id)
  | qregWrite => exact .next (.islWrite h fun h => .qregWrite h)
  | islandMemoryAccess => exact .execIslandMemoryAccess h
  | patrolWindow => exact .execPatrolWindow h
  | clrecc => exact .next (.islWrite h id)
  | islClrcoll => exact .next (.islWrite h id)
  | accLoRead => exact .ite (.next h) (.next h)
  | flaEvtClear => exact .next (.islWrite h fun h => .flaEvtClear h)
  | quadConfigWrite => exact .next (.quadConfig h)
  | laneEnable => exact .next (.laneCtl h)
  | laneTrain => exact .next (.laneCtl h)
  | laneClrcnt => exact .next h
  | dataBlock => exact .execDataBlock h
  | tokenBlock => exact .execTokenBlock h
  | flightClose => exact .execFlightClose h
  | creditReturn => exact .execCreditReturn h
  | quietBlock => exact .received h (fun h => .endAbortRun (.ctlSeen h))
  | abortBlock => exact .execAbortBlock h
  | trainBlock => exact .received h (fun h => .trainBlock (.ctlSeen h))
  | idleBlock => exact .received h (fun h => .endAbortRun (.ctlSeen h))
  | invalidBlock => exact .execInvalidBlock h
  | flightEnd => exact .execFlightEnd h
  | creditReturnTimer => exact .execCreditReturnTimer h
  | ackTimeout => exact .ite (.next (.replay h)) (.next h)
  | timedBurstStart => exact .ite (.next h) (.next h)
  | burstUnderrun => exact .ite (.next (.burstAbort h)) (.next h)
  | txAbortToken => exact .execTxAbortToken h
  | seekTimeout => exact .ite (.next (.laneErr h)) (.next h)
  | seqRun => exact .next (.seqWrite h fun h => .seqRun h)
  | seqReset => exact .next (.seqWrite h fun h => .resetCore h)
  | seqStep => exact .next (.seqWrite h fun h => .seqStep (.seqRun h))
  | seqClrerr => exact .next (.seqWrite h id)
  | seqClrcoll => exact .next (.seqWrite h id)
  | aevPendClear => exact .next (.seqWrite h fun h => .aevClear h)
  | doorbellSet => exact .next (.seqWrite h id)
  | intakeHold => exact .next (.seqWrite h fun h => .intakeHold h)
  | partitionFlagDrive => exact .next (.seqWrite h fun h => .pflagDrive h)
  | partitionFailFlag => exact .next (.seeFlag h)
  | arrayEvent => exact .execArrayEvent h
  | sequencerBankAccess => exact .execSequencerBankAccess h
  | seqTimerExpiry => exact .ite (.next h) (.next h)
  | interruptEntry => exact .next (.atBoundary h id)
  | machineCheck => exact .next (.takeCheck (.ite h h))
  | loadReturn => exact .execLoadReturn h
  | postedStoreBusError => exact .next (.ite (.atBoundary h id) (.postedError h))
  | macProductAdd => exact .execMacProductAdd h
  | seqDmafqRead => exact .execSeqDmafqRead h
  | add => exact .next (.issue .kInt h)
  | sub => exact .next (.issue .kInt h)
  | and => exact .next (.issue .kInt h)
  | or => exact .next (.issue .kInt h)
  | xor => exact .next (.issue .kInt h)
  | andn => exact .next (.issue .kInt h)
  | sll => exact .next (.issue .kInt h)
  | srl => exact .next (.issue .kInt h)
  | sra => exact .next (.issue .kInt h)
  | ror => exact .next (.issue .kInt h)
  | slt => exact .next (.issue .kInt h)
  | sltu => exact .next (.issue .kInt h)
  | mul => exact .next (.issue .kInt h)
  | mulh => exact .next (.issue .kInt h)
  | mulhu => exact .next (.issue .kInt h)
  | div => exact .next (.issue .kInt h)
  | divu => exact .next (.issue .kInt h)
  | rem => exact .next (.issue .kInt h)
  | remu => exact .next (.issue .kInt h)
  | addw => exact .next (.issue .kInt h)
  | subw => exact .next (.issue .kInt h)
  | popc => exact .next (.issue .kInt h)
  | clz => exact .next (.issue .kInt h)
  | min => exact .next (.issue .kInt h)
  | max => exact .next (.issue .kInt h)
  | minu => exact .next (.issue .kInt h)
  | maxu => exact .next (.issue .kInt h)
  | sextw => exact .next (.issue .kInt h)
  | zextw => exact .next (.issue .kInt h)
  | addi => exact .next (.issue .kImm h)
  | andi => exact .next (.issue .kImm h)
  | ori => exact .next (.issue .kImm h)
  | xori => exact .next (.issue .kImm h)
  | lui => exact .next (.issue .kImm h)
  | orhi => exact .next (.issue .kImm h)
  | slti => exact .next (.issue .kImm h)
  | sltiu => exact .next (.issue .kImm h)
  | shi => exact .next (.issue .kImm h)
  | ld => exact .next (.issue .kLd h)
  | lw => exact .next (.issue .kLd h)
  | lwu => exact .next (.issue .kLd h)
  | lh => exact .next (.issue .kLd h)
  | lhu => exact .next (.issue .kLd h)
  | lb => exact .next (.issue .kLd h)
  | lbu => exact .next (.issue .kLd h)
  | sd => exact .next (.issue .kSt h)
  | sw => exact .next (.issue .kSt h)
  | sh => exact .next (.issue .kSt h)
  | sb => exact .next (.issue .kSt h)
  | fld => exact .next (.issue .kFld h)
  | fst => exact .next (.issue .kFst h)
  | dld => exact .next (.issue .kDld h)
  | beq => exact .next (.issue .kBranch h)
  | bne => exact .next (.issue .kBranch h)
  | blt => exact .next (.issue .kBranch h)
  | bge => exact .next (.issue .kBranch h)
  | bltu => exact .next (.issue .kBranch h)
  | bgeu => exact .next (.issue .kBranch h)
  | j => exact .next (.issue .kJ h)
  | jalr => exact .next (.issue .kJalr h)
  | callw => exact .next (.issue .kCallw h)
  | callwr => exact .next (.issue .kCallwr h)
  | retw => exact .next (.issue .kRetw h)
  | rpt => exact .execRpt h
  | loop => exact .next (.issue .kLoop h)
  | mac => exact .next (.issue .kMac h)
  | macu => exact .next (.issue .kMac h)
  | msu => exact .next (.issue .kMac h)
  | dmac => exact .next (.issue .kMac h)
  | dmacx => exact .next (.issue .kMac h)
  | dmacs => exact .next (.issue .kMac h)
  | acca => exact .next (.issue .kMac h)
  | aclr => exact .next (.issue .kAclr h)
  | ext => exact .next (.issue .kExt h)
  | exts => exact .next (.issue .kExt h)
  | extd => exact .next (.issue .kExt h)
  | extds => exact .next (.issue .kExt h)
  | norm => exact .next (.issue .kExt h)
  | maxi => exact .next (.issue .kBest h)
  | mini => exact .next (.issue .kBest h)
  | fadd => exact .next (.issue .kArith h)
  | fsub => exact .next (.issue .kArith h)
  | fmul => exact .next (.issue .kArith h)
  | fdiv => exact .next (.issue .kArith h)
  | fsqrt => exact .next (.issue .kSqrt h)
  | fmadd => exact .next (.issue .kFmadd h)
  | fmin => exact .next (.issue .kPick h)
  | fmax => exact .next (.issue .kPick h)
  | fneg => exact .next (.issue .kSign h)
  | fabs => exact .next (.issue .kSign h)
  | fmov => exact .next (.issue .kSign h)
  | fcvt => exact .next (.issue .kFcvt h)
  | ftoi => exact .next (.issue .kFtoi h)
  | itof => exact .next (.issue .kItof h)
  | fmvgf => exact .next (.issue .kFmvgf h)
  | fmvfg => exact .next (.issue .kFmvfg h)
  | feq => exact .next (.issue .kFcmp h)
  | flt => exact .next (.issue .kFcmp h)
  | fle => exact .next (.issue .kFcmp h)
  | mfcs => exact .next (.issue .kMfcs h)
  | mtcs => exact .next (.issue .kMtcs h)
  | stmm => exact .next (.issue .kMm h)
  | ldmm => exact .next (.issue .kMm h)
  | cxsl => exact .next (.issue .kCxs h)
  | cxsu => exact .next (.issue .kCxs h)
  | cxrl => exact .next (.issue .kCxr h)
  | cxru => exact .next (.issue .kCxr h)
  | flushw => exact .next (.issue .kFlushw h)
  | fillw => exact .next (.issue .kFillw h)
  | mfs => exact .next (.issue .kMfs h)
  | mts => exact .next (.issue .kMts h)
  | rett => exact .next (.issue .kRett h)
  | syscall => exact .next (.issue .kSyscall h)
  | breakI => exact .next (.issue .kBreak h)
  | mcall => exact .next (.issue .kMcall h)
  | isync => exact .next (.issue .kIsync h)
  | fence => exact .next (.issue .kFence h)
  | dmaresume => exact .next (.issue .kDmaresume h)
  | actx => exact .next (.issue .kActx h)
  | moult => exact .next (.issue .kMoult h)
  | moultTokenEntry => exact .next (.moultArrive h)
  | aparm => exact .next (.issue .kAparm h)
  | parameterDelivery => exact .execParameterDelivery h
  | fork => exact .next (.issue .kFork h)
  | brf => exact .next (.issue .kBrf h)
  | await => exact .next (.runAwait h)
  | freeze => exact .next (.issue .kFreeze h)
  | tlbInvalidate => exact .execTlbInvalidate h
  | invalidationComplete => exact .ite (.next (.ite h h)) (.next h)
  | pageTableWalk => exact .execPageTableWalk h
  | dmaGo => exact .next (.dmaWrite h fun h => .chGo h)
  | dmaDescriptorFetch => exact .ite (.next (.chFetch h)) (.next h)
  | dmaUnitTransfer => exact .ite (.next (.chUnit h)) (.next h)
  | dmaResume => exact .next (.dmaWrite h fun h => .chResume h)
  | dmaAbort => exact .next (.dmaWrite h fun h => .chAbort h)
  | mspGo => exact .next (.dmaWrite h fun h => .mspGo h)
  | mspReadComplete => exact .ite (.next (.readWord h)) (.next h)
  | mspWriteWord => exact .execMspWriteWord h
  | mspResume => exact .next (.dmaWrite h fun h => .mspResume h)
  | mspAbort => exact .next (.dmaWrite h fun h => .mspAbort h)
  | forkArming => exact .execForkArming h
  | forkResolution => exact .execForkResolution h
  | holdWord => exact .ite (.next (.settle h)) (.next h)
  | steeringWaitTimeout => exact .ite (.next (.logErr h)) (.next h)
  | forkCfgWrite => exact .next (.islWrite h fun h => .forkCfgWrite h)
  | force => exact .next (.islWrite h fun h => .forkForce h)
  | forkClrcnt => exact .next (.islWrite h id)
  | cycleRebase => exact .next (.islWrite h id)
  | failMarkIdleTimeout => exact .ite (.next h) (.next h)
  | failPortItem => exact .execFailPortItem h
  | homeSliceRecord => exact .next (.ite (.homeRecord h) h)
  | commitTick => exact .next (.commitDue h)
  | mapWriteFailure => exact .next (.ite (.mapError h) h)
  | arm => exact .next (.feWrite h fun h => .feCmd h (fun h => .feArm h))
  | armComplete => exact .execArmComplete h
  | disarm => exact .next (.feWrite h fun h => .feCmd h (fun h => .feDisarm h))
  | solve => exact .next (.feWrite h fun h => .feCmd h (fun h => .feSolve h))
  | solvesite => exact .next (.feWrite h fun h => .feCmd h (fun h => .feSolveSite h))
  | flush => exact .next (.feWrite h fun h => .feCmd h (fun h => .feFlush h))
  | query => exact .next (.feWrite h fun h => .feCmd h (fun h => .feQuery h))
  | newrun => exact .next (.feWrite h fun h => .feCmd h (fun h => .feEnd (.feNewRun h)))
  | feClrcnt => exact .next (.feWrite h id)
  | solverStart => exact .execSolverStart h
  | solveComplete => exact .execSolveComplete h
  | solveTimeBound => exact .execSolveTimeBound h
  | rrqHeadWrite => exact .next (.feWrite h fun h => .rrqHead h)
  | loadGo => exact .pfWrite h (fun h => .cfgWrite h fun h => .cfgLoadWrite h)
  | loadAbort => exact .pfWrite h (fun h => .cfgWrite h fun h => .cfgLoadWrite h)
  | windowWrite => exact .pfWrite h (fun h => .cfgWrite h fun h => .windowPut h)
  | cspSelect => exact .ite (.next h) (.ite (.next (.ite h (.cfgFail h))) (.ite (.next (.ite h h)) (.ite (.next (.cfgBegin h)) (.next h))))
  | cspByte => exact .ite (.next h) (.ite (.next (.ite h h)) (.ite (.next (.cfgFail h)) (.ite (.next h) (.next (.strayBytes h)))))
  | cspDeselect => exact .ite (.next (.cfgFail h)) (.next (.ite h h))
  | loadHeader => exact .execLoadHeader h
  | frameRecord => exact .execFrameRecord h
  | loadVerify => exact .execLoadVerify h
  | eclosion => exact .ite (.next (.cfgDone (.foldl h fun h => .eclode h))) (.next h)
  | loadTimeout => exact .next (.ite (.cfgFail h) h)
  | scrubFrame => exact .execScrubFrame h
  | readback => exact .pfWrite h (fun h => .cfgWrite h fun h => .readback h)
  | cfgPolicyLock => exact .pfWrite h (fun h => .cfgWrite h fun h => .fieldWrite h)
  | apertureAccess => exact .ite (.next (.aperture h)) (.next h)
  | msixUnmask => exact .ite (.next h) (.ite (.next h) (.next (.msixFlush h)))
  | d3hotEntry => exact .next h
  | d3hotExit => exact .next (.msixFlush h)
  | perstN => exact .next (.ite (.linkEvent h) h)
  | hotReset => exact .next (.linkEvent h)
  | hostLinkDown => exact .next (.linkEvent h)
  | hdmCommit => exact .execHdmCommit h
  | cxpLock => exact .execCxpLock h
  | cxlRequestTimeout => exact .next (.logErr (.cxlEnds (.ite (.cxlSlow h) h)))
  | cxlLinkLoss => exact .ite (.next (.logErr h)) (.next h)
  | cxlRetrainWaitTimeout => exact .next (.ite h h)
  | cxlL1Entry => exact .next (.ite h h)
  | cxlDeviceEvent => exact .next (.ite (.logErr h) h)
  | timeFrame => exact .next (.recvFrame h fun h => .takeTime h)
  | syncFrame => exact .next (.recvPlain h)
  | startFrame => exact .next (.recvPlain h)
  | stopFrame => exact .next (.recvPlain h)
  | gfailFrame => exact .next (.recvPlain h)
  | decideFrame => exact .next (.recvPlain h)
  | fsumFrame => exact .next (.recvPlain h)
  | mboxFrame => exact .next (.recvPlain h)
  | joinFrame => exact .execJoinFrame h
  | claimFrame => exact .ite (.next (.ringIn h id)) (.next (.recvPlain h))
  | leaveFrame => exact .execLeaveFrame h
  | probeFrame => exact .ite (.next (.ringIn h id)) (.next (.ringIn h (fun h => .ite h (.ite (.emitFrame h) (.ite (.ite h h) h)))))
  | cicadaBlock => exact .execCicadaBlock h
  | routeAction => exact .execRouteAction h
  | timeSend => exact .ite (.next (.originate h)) (.next h)
  | probeSend => exact .next (.ite (.probe h) h)
  | cicadaSend => exact .next (.ite h h)
  | ringCtlJoin => exact .next (.ringJoin h)
  | ringJoinTimer => exact .execRingJoinTimer h
  | ringCtlLeave => exact .next (.ringLeave h)
  | ringSilence => exact .execRingSilence h
  | mboxSend => exact .next (.mbSend h)
  | rxhdrRead => exact .execRxhdrRead h
  | rxdataRead => exact .execRxdataRead h
  | trigEdge => exact .next (.ite (.trigEdge h) h)
  | trigLevel => exact .next (.ite (.trigLevel h) h)
  | trigStuck => exact .ite (.next (.logErr (.setF (.trigEvent h)))) (.next h)
  | routeStuck => exact .execRouteStuck h
  | powerOn => exact .ite (.next h) (.next (.coldReset h))
  | brownout => exact .ite (.next (.coldReset h)) (.next h)
  | coldRstN => exact .ite (.next (.coldReset h)) (.ite (.next (.trimAgain h)) (.next h))
  | warmRstN => exact .ite (.next (.warmReset h)) (.ite (.next (.trimAgain h)) (.next h))
  | rstCold => exact .pfWrite h (fun h => .rstCtlWrite h)
  | rstWarm => exact .pfWrite h (fun h => .rstCtlWrite h)
  | partitionReset => exact .execPartitionReset h
  | resetRelease => exact .ite (.next (.pinsAfter (.prstSettle (.releaseDomain h)))) (.next h)
  | domainResetTimeout => exact .next (.ite (.hlthClock (.logErr h)) h)
  | trimLoad => exact .execTrimLoad h
  | firmwareLoad => exact .ite (.ite (.next (.firmwareRuns h)) (.ite (.next (.firmwareRuns h)) (.next h))) (.next h)
  | earlyService => exact .ite (.next (.mbxServe h)) (.next h)
  | fullService =>
    exact .ite (.next (.cplPut (.foldl (.openRows (.setF (.bufferMove (.setF (.firmwareDecoder (.foldl h fun h => .findDevice h)))))) fun h => .buildSlot h)))
      (.next h)
  | islandClockLoss => exact .ite (.next (.clkErr h)) (.next h)
  | islandClockRestore => exact .ite (.next h) (.next h)
  | islandHaltTimeout => exact .next (.ite (.hlthClock (.clkErr h)) h)
  | clockRetune => exact .next (.clkFreq h)
  | rungRequest => exact .next (.rungRequest h)
  | rungEntryComplete => exact .execRungEntryComplete h
  | wake => exact .next (.ite (.requestWake h) h)
  | wakeAdmission => exact .execWakeAdmission h
  | clrdef => exact .next h
  | stormWindowEnd => exact .next (.foldl h fun h => .stormEnd h)
  | containedHandling => exact .execContainedHandling h
  | fatalHandling => exact .execFatalHandling h
  | safeHold => exact .next (.ite (.safeAlert (.safeStop h)) h)
  | captureGo => exact .next (.captureGo h)
  | freezeArrival => exact .next (.freezeArrival h)
  | captureResume => exact .next (.captureResume h)
  | captureReadback => exact .next (.captureFetch h)
  | debugRegisterSelect => exact .next (.debugSelect h)
  | dbgacc => exact .execDbgacc h
  | dbgunlock => exact .execDbgunlock h
  | extest => exact .next h
  | samplePreload => exact .next h
  | idcode => exact .next h
  | bypass => exact .next h
  | healthSample => exact .next (.ite (.hlthEstimate h) h)
  | autoRepair => exact .execAutoRepair h
  | smbusRead => exact .execSmbusRead h
  | railFault => exact .next (.ite (.logErr h) h)
  | junctionOvertemp => exact .next (.ite (.logErr h) h)
  | thermalTrip => exact .ite (.next (.coldReset h)) (.next h)
  | powerCapTick => exact .execPowerCapTick h
  | laneBlockTime => exact .execLaneBlockTime h
  | quadPllLock => exact .ite (.next (.foldl h fun h => .ite (.startTraining h) h)) (.next h)
  | cspWaitTimeout => exact .ite (.next h) (.ite (.next (.cfgFail h)) (.ite (.next (.cfgBegin h)) (.ite (.next (.cfgFail h)) (.next h))))
  | awaitTimeout => exact .execAwaitTimeout h
  | hostLinkTrained => exact .execHostLinkTrained h
  | cxlLinkTrained => exact .ite (.next h) (.next h)
  | ringInvalidBlock => exact .next (.ite h h)
  | ringLeaveTimer => exact .execRingLeaveTimer h
  | lidAboveLimit => exact .next (.ite h h)

end NextOk

end Sys2Proof.Proofs

namespace Sys2Proof.Proofs
open Sys2Proof.Machine Sys2Proof.Safety

/-- Settles O4: a command that answers a next state, and a tick of the clocks, change the memory by `Memory.put` and its like alone. -/
theorem everyStepKeepsTheMemoryCanonical : Obligations.EveryStepKeepsTheMemoryCanonical := by
  unfold Obligations.EveryStepKeepsTheMemoryCanonical
  intro s t h e
  have hs : NextOk (step s) := by
    unfold step
    split
    · exact .next (.tick h)
    · exact .exec (.same h rfl)
  rw [e] at hs
  cases hs with
  | next ht => exact ht

end Sys2Proof.Proofs
end

