-- ==== Sys2Proof/Proofs/PartDef.lean ====
section
/-!
PROOFS. Proofs/PartDef.lean: a write of `GLB_PART_CFGn` or `GLB_PART_SEQn` (R22, R23).
-/
namespace Sys2Proof.Proofs
open Sys2Proof.Machine Sys2Proof.Safety

/-! ### The checks -/

/-- Another enabled partition. -/
def OtherPart (s : State) (n m : Nat) : Prop := m < 12 ∧ m ≠ n ∧ s.f (GLB_PART_CFG.EN m) = 1

/-- The condition under which the check of an error code fails (R23). -/
def PartFault (s : State) (n : Nat) (d : PartDef) (e : Nat) : Prop :=
  match e with
  | 1 => d.nrows = 0 ∨ 12 < d.first + d.nrows
  | 2 => ∃ r m, d.first ≤ r ∧ r < d.first + d.nrows ∧ OtherPart s n m ∧ s.f (GLB_ROW_MAP.OWNER r) = m
  | 3 => s.f (GLB_PART_SEQ.MASK n) = 0 ∨ 2 * d.nrows < popCount 24 (s.f (GLB_PART_SEQ.MASK n))
  | 4 => ∃ m, OtherPart s n m ∧ s.f (GLB_PART_SEQ.MASK n) &&& s.f (GLB_PART_SEQ.MASK m) ≠ 0
  | 5 => 23 < s.f (GLB_PART_SEQ.PRIMARY n) ∨ (s.f (GLB_PART_SEQ.MASK n)).testBit (s.f (GLB_PART_SEQ.PRIMARY n)) = false
  | 6 => 12 < d.vf ∨ (d.vf ≠ 0 ∧ ∃ m, OtherPart s n m ∧ s.f (GLB_PART_CFG.VF m) = d.vf)
  | _ => False

section
variable {s : State} {n : Nat} {d : PartDef}

theorem mem_others {m : Nat} : m ∈ s.others n ↔ OtherPart s n m := by
  unfold State.others State.enabledParts State.enabled OtherPart
  rw [List.mem_filter, List.mem_filter, List.mem_range, Bool.and_eq_true, on_iff_one rfl, bne_iff_ne, decide_eq_true_eq]
  tauto

theorem any_others {p : Nat → Bool} : (s.others n).any p = true ↔ ∃ m, OtherPart s n m ∧ p m = true := by
  simp only [List.any_eq_true, mem_others]

theorem overlap_iff : (List.range d.nrows).any (fun k => (s.others n).contains (s.owner (d.first + k))) = true ↔ PartFault s n d 2 := by
  simp only [List.any_eq_true, List.mem_range, List.contains_iff_mem, mem_others, State.owner]
  constructor
  · rintro ⟨k, hk, ho⟩
    exact ⟨d.first + k, _, Nat.le_add_right .., Nat.add_lt_add_left hk _, ho, rfl⟩
  · rintro ⟨r, m, hle, hlt, ho, rfl⟩
    refine ⟨r - d.first, by omega, ?_⟩
    rwa [Nat.add_sub_cancel' hle]

theorem seqClash_iff : (s.others n).any (fun m => s.f (GLB_PART_SEQ.MASK m) &&& s.f (GLB_PART_SEQ.MASK n) != 0) = true ↔ PartFault s n d 4 := by
  rw [any_others]
  exact exists_congr fun m => and_congr Iff.rfl (by rw [bne_iff_ne, Nat.land_comm])

theorem bitOf_eq_testBit (v k : Nat) : bitOf v k = v.testBit k := by rw [bitOf, Nat.testBit_eq_decide_div_mod_eq, beq_eq_decide]

theorem primary_iff : (23 < s.f (GLB_PART_SEQ.PRIMARY n) ∨ bitOf (s.f (GLB_PART_SEQ.MASK n)) (s.f (GLB_PART_SEQ.PRIMARY n)) = false) ↔ PartFault s n d 5 := by
  rw [bitOf_eq_testBit]
  exact Iff.rfl

theorem vfClash_iff : (12 < d.vf ∨ (d.vf ≠ 0 ∧ (s.others n).any (fun m => s.f (GLB_PART_CFG.VF m) == d.vf) = true)) ↔ PartFault s n d 6 := by
  simp only [any_others, beq_iff_eq]
  exact Iff.rfl

open Classical in
theorem enableCheck_eq : s.enableCheck n d = if PartFault s n d 1 then 1 else if PartFault s n d 2 then 2 else if PartFault s n d 3 then 3 else if PartFault s n d 4 then 4
    else if PartFault s n d 5 then 5 else if PartFault s n d 6 then 6 else 0 :=
  if_congr Iff.rfl rfl (if_congr overlap_iff rfl (if_congr Iff.rfl rfl (if_congr seqClash_iff rfl (if_congr primary_iff rfl (if_congr vfClash_iff rfl rfl)))))

/-- The first check that fails gives the code. -/
theorem enableCheck_first {e : Nat} (h : PartFault s n d e) (hmin : ∀ k, k < e → ¬ PartFault s n d k) : s.enableCheck n d = e := by
  rw [enableCheck_eq]
  match e, h, hmin with
  | 1, h, _ => rw [if_pos h]
  | 2, h, hmin => rw [if_neg (hmin 1 (by decide)), if_pos h]
  | 3, h, hmin => rw [if_neg (hmin 1 (by decide)), if_neg (hmin 2 (by decide)), if_pos h]
  | 4, h, hmin => rw [if_neg (hmin 1 (by decide)), if_neg (hmin 2 (by decide)), if_neg (hmin 3 (by decide)), if_pos h]
  | 5, h, hmin => rw [if_neg (hmin 1 (by decide)), if_neg (hmin 2 (by decide)), if_neg (hmin 3 (by decide)), if_neg (hmin 4 (by decide)), if_pos h]
  | 6, h, hmin =>
    rw [if_neg (hmin 1 (by decide)), if_neg (hmin 2 (by decide)), if_neg (hmin 3 (by decide)), if_neg (hmin 4 (by decide)), if_neg (hmin 5 (by decide)), if_pos h]

theorem enableCheck_passes (h : ∀ e, ¬ PartFault s n d e) : s.enableCheck n d = 0 := by
  rw [enableCheck_eq, if_neg (h 1), if_neg (h 2), if_neg (h 3), if_neg (h 4), if_neg (h 5), if_neg (h 6)]

theorem partFault_pos {e : Nat} (h : PartFault s n d e) : e ≠ 0 := by
  rintro rfl
  exact h

end

/-! ### What is stored -/

/-- The fields of a partition's definition that a write carries. -/
def defFields (n : Nat) : List RF := [GLB_PART_CFG.VF n, GLB_PART_CFG.NROWS n, GLB_PART_CFG.FIRST_ROW n]

/-- The state names a definition for a partition. -/
structure Defines (n : Nat) (d : PartDef) (t : State) : Prop where
  vf : t.f (GLB_PART_CFG.VF n) = d.vf
  nrows : t.f (GLB_PART_CFG.NROWS n) = d.nrows
  first : t.f (GLB_PART_CFG.FIRST_ROW n) = d.first

theorem bitsOf_lt (v hi lo : Nat) : bitsOf v hi lo < 2 ^ (hi + 1 - lo) := Nat.mod_lt _ (by positivity)

theorem partStore_defines (n v : Nat) (s : State) : Defines n (PartDef.of v) (partStore n (PartDef.of v) s) where
  vf := by
    unfold partStore
    rw [f_setF_ne _ _ rfl (by simp [GLB_PART_CFG.VF]) (.inr (.inl (by simp [GLB_PART_CFG.FIRST_ROW, GLB_PART_CFG.VF]))),
      f_setF_ne _ _ rfl (by simp [GLB_PART_CFG.VF]) (.inr (.inl (by simp [GLB_PART_CFG.NROWS, GLB_PART_CFG.VF]))), f_setF_fits _ rfl (bitsOf_lt v 23 20)]
  nrows := by
    unfold partStore
    rw [f_setF_ne _ _ rfl (by simp [GLB_PART_CFG.NROWS]) (.inr (.inl (by simp [GLB_PART_CFG.FIRST_ROW, GLB_PART_CFG.NROWS]))), f_setF_fits _ rfl (bitsOf_lt v 11 8)]
  first := f_setF_fits _ rfl (bitsOf_lt v 3 0)

theorem partStore_only (n : Nat) (d : PartDef) (s : State) : OnlyFields (defFields n) s (partStore n d s) :=
  ⟨rfl, (((FieldsBut.refl _ s).setF _ rfl (by simp [defFields])).setF _ rfl (by simp [defFields])).setF _ rfl (by simp [defFields])⟩

theorem partStore_errcode (n : Nat) (d : PartDef) (s : State) : (partStore n d s).f (GLB_PART_CFG.ERRCODE n) = s.f (GLB_PART_CFG.ERRCODE n) := by
  have hhi : 27 < 64 := by decide
  unfold partStore
  rw [f_setF_ne _ _ rfl hhi (.inr (.inl (show 3 < 24 by decide))), f_setF_ne _ _ rfl hhi (.inr (.inl (show 11 < 24 by decide))),
    f_setF_ne _ _ rfl hhi (.inr (.inl (show 23 < 24 by decide)))]

/-- The rows of a band are given to a partition. -/
def rowsTaken (n : Nat) (d : PartDef) (s : State) : State := (List.range d.nrows).foldl (fun s k => s.setF (GLB_ROW_MAP.OWNER (d.first + k)) n) s

theorem f_rowsTaken {n : Nat} {d : PartDef} {s : State} {y : RF} (h : ∀ r, r < d.first + d.nrows → y.key ≠ GLB_ROW_MAP r) : (rowsTaken n d s).f y = s.f y := by
  unfold rowsTaken
  generalize d.nrows = k at h
  induction k with
  | zero => rfl
  | succ k ih =>
    rw [List.range_succ, List.foldl_append, List.foldl_cons, List.foldl_nil, State.f_setF_other _ _ _ _ (h _ (by omega))]
    exact ih fun r hr => h r (by omega)

theorem owner_rowsTaken {n : Nat} (hn : n < 16) (d : PartDef) (s : State) (r : Nat) :
    (rowsTaken n d s).f (GLB_ROW_MAP.OWNER r) = if d.first ≤ r ∧ r < d.first + d.nrows then n else s.f (GLB_ROW_MAP.OWNER r) := by
  unfold rowsTaken
  generalize d.nrows = k
  induction k with
  | zero => rw [if_neg (by omega)]; rfl
  | succ k ih =>
    rw [List.range_succ, List.foldl_append, List.foldl_cons, List.foldl_nil]
    by_cases hr : r = d.first + k
    · rw [if_pos (by omega), hr]
      exact f_setF_fits _ rfl hn
    · rw [State.f_setF_other _ _ _ _ (by simp only [GLB_ROW_MAP.OWNER, GLB_ROW_MAP]; omega), ih]
      exact if_congr (by omega) rfl rfl

theorem rd_of_whole {s t : State} {k : Nat} (h : t.f (whole k) = s.f (whole k)) : t.rd k = s.rd k := by
  have e (u : State) : u.f (whole k) = (u.rd k).toNat := by
    show (u.rd k).toNat / 2 ^ 0 % 2 ^ 64 = _
    rw [Nat.pow_zero, Nat.div_one, Nat.mod_eq_of_lt (u.rd k).isLt]
  exact BitVec.eq_of_toNat_eq (by rw [← e, ← e, h])

theorem failsFollow_regs (p : Nat) (s : State) : (failsFollow p s).regs = s.regs := by
  unfold failsFollow
  split <;> rfl

/-! ### A partition is enabled -/

/-- The state in which the enabling of a partition leaves its registers. -/
def enabledRegs (n : Nat) (d : PartDef) (s : State) : State :=
  rowsTaken n d (((partStore n d s).setF (GLB_PART_CFG.EN n) 1).setF (GLB_PART_CFG.STATE n) stEMPTY)

theorem f_partEnable {n : Nat} {d : PartDef} {s : State} {y : RF} (hy : y.hi < 64) (hk : y.key < 0x1_0000) : (partEnable n d s).f y = (enabledRegs n d s).f y := by
  have hq := (Quiet.refl false (failsFollow n (enabledRegs n d s))).rungChanged s.modRung
  exact (hq.fields y hy (not_off_of_lt hk) nofun).trans (State.f_congr (failsFollow_regs _ _) y)

/-- A field of a partition's own registers, as the enabling leaves it. -/
theorem f_partEnable_part {n : Nat} {d : PartDef} {s : State} {y : RF} (hy : y.hi < 64) (hk : y.key < 0x200) :
    (partEnable n d s).f y = (((partStore n d s).setF (GLB_PART_CFG.EN n) 1).setF (GLB_PART_CFG.STATE n) stEMPTY).f y := by
  rw [f_partEnable hy (by omega)]
  exact f_rowsTaken fun r _ => by simp only [GLB_ROW_MAP]; omega

/-- The register of a partition's definition is below those of the rows. -/
theorem partCfg_lt {n : Nat} (hn : n < 12) : GLB_PART_CFG n < 0x200 := by unfold GLB_PART_CFG; omega

theorem partEnable_en {n : Nat} (hn : n < 12) (d : PartDef) (s : State) : (partEnable n d s).f (GLB_PART_CFG.EN n) = 1 := by
  rw [f_partEnable_part (show 31 < 64 by decide) (partCfg_lt hn), f_setF_ne _ _ rfl (show 31 < 64 by decide) (.inr (.inl (show 30 < 31 by decide)))]
  exact f_setF_fits _ rfl (show 1 < 2 by decide)

/-- A field below the state in a partition's register, as the definition stored leaves it. -/
theorem f_partEnable_low {n : Nat} (hn : n < 12) (d : PartDef) (s : State) {hi lo : Nat} (h : hi < 28) :
    (partEnable n d s).f ⟨GLB_PART_CFG n, hi, lo⟩ = (partStore n d s).f ⟨GLB_PART_CFG n, hi, lo⟩ := by
  rw [f_partEnable_part (show hi < 64 by omega) (partCfg_lt hn), f_setF_ne _ _ rfl (show hi < 64 by omega) (.inr (.inr h)),
    f_setF_ne _ _ rfl (show hi < 64 by omega) (.inr (.inr (show hi < 31 by omega)))]

theorem partEnable_defines {n : Nat} (hn : n < 12) (v : Nat) (s : State) : Defines n (PartDef.of v) (partEnable n (PartDef.of v) s) :=
  have h := partStore_defines n v s
  ⟨(f_partEnable_low hn _ s (by decide)).trans h.vf, (f_partEnable_low hn _ s (by decide)).trans h.nrows, (f_partEnable_low hn _ s (by decide)).trans h.first⟩

theorem partEnable_errcode {n : Nat} (hn : n < 12) (d : PartDef) (s : State) : (partEnable n d s).f (GLB_PART_CFG.ERRCODE n) = s.f (GLB_PART_CFG.ERRCODE n) :=
  (f_partEnable_low hn d s (by decide)).trans (partStore_errcode n d s)

/-- A register of the sequencers' masks and primaries keeps its value. -/
theorem partEnable_seq {n : Nat} (hn : n < 12) (d : PartDef) (s : State) : (partEnable n d s).rd (GLB_PART_SEQ n) = s.rd (GLB_PART_SEQ n) := by
  have hk : GLB_PART_SEQ n < 0x200 := by unfold GLB_PART_SEQ; omega
  have hne : (whole (GLB_PART_SEQ n)).key ≠ GLB_PART_CFG n := by simp only [whole, GLB_PART_SEQ, GLB_PART_CFG]; omega
  have h : (partEnable n d s).f (whole (GLB_PART_SEQ n)) = s.f (whole (GLB_PART_SEQ n)) := by
    rw [f_partEnable_part (show 63 < 64 by decide) hk, State.f_setF_other _ _ _ _ hne, State.f_setF_other _ _ _ _ hne]
    refine (partStore_only n d s).2 _ (show 63 < 64 by decide) fun x hx => .of_key ?_
    simp only [defFields, List.mem_cons, List.not_mem_nil, or_false] at hx
    rcases hx with rfl | rfl | rfl <;> exact hne
  exact rd_of_whole h

theorem partEnable_owner {n : Nat} (hn : n < 12) (d : PartDef) (s : State) {r : Nat} (hr : r < 12) :
    (partEnable n d s).f (GLB_ROW_MAP.OWNER r) = if d.first ≤ r ∧ r < d.first + d.nrows then n else s.f (GLB_ROW_MAP.OWNER r) := by
  have hne : (GLB_ROW_MAP.OWNER r).key ≠ GLB_PART_CFG n := by simp only [GLB_ROW_MAP.OWNER, GLB_ROW_MAP, GLB_PART_CFG]; omega
  rw [f_partEnable (show 7 < 64 by decide) (by simp only [GLB_ROW_MAP.OWNER, GLB_ROW_MAP]; omega)]
  refine (owner_rowsTaken (by omega) d _ r).trans (if_congr Iff.rfl rfl ?_)
  rw [State.f_setF_other _ _ _ _ hne, State.f_setF_other _ _ _ _ hne]
  refine (partStore_only n d s).2 _ (show 7 < 64 by decide) fun x hx => .of_key ?_
  simp only [defFields, List.mem_cons, List.not_mem_nil, or_false] at hx
  rcases hx with rfl | rfl | rfl <;> exact hne

/-! ### A partition is disabled -/

theorem owner_rowsFreed_other {n r : Nat} {s : State} (h : s.owner r ≠ n) : (rowsFreed n s).owner r = s.owner r := by
  unfold rowsFreed
  have hfold (rs : List Nat) (hrs : r ∉ rs) (t : State) : (rs.foldl (fun s r => s.setF (GLB_ROW_MAP.OWNER r) 15) t).owner r = t.owner r := by
    induction rs generalizing t with
    | nil => rfl
    | cons x rs ih =>
      rw [List.foldl_cons, ih fun hx => hrs (List.mem_cons_of_mem _ hx)]
      refine State.f_setF_other _ _ _ _ ?_
      have : r ≠ x := fun e => hrs (e ▸ List.mem_cons_self)
      simp only [GLB_ROW_MAP.OWNER, GLB_ROW_MAP]
      omega
  exact hfold _ (fun hm => h (eq_of_beq (List.mem_filter.1 hm).2)) s

/-- What the disabling of a partition leaves in a register of the partitions' definitions and rows. -/
theorem f_partDisable {n : Nat} (s : State) (hn : n < 12) : ∃ t, Quiet true s t ∧ ∀ y : RF, y.hi < 64 → y.key < 0x1_0000 →
    (partDisable n s).f y = (((rowsFreed n t).setF (GLB_PART_CFG.STATE n) stEMPTY).setF (GLB_PART_CFG.EN n) 0).f y := by
  obtain ⟨t, ht, e⟩ := partDisable_eq s hn
  refine ⟨t, ht, fun y hy hk => ?_⟩
  rw [e]
  exact (((Quiet.refl false _).handled n).rungChanged s.modRung).fields y hy (not_off_of_lt hk) nofun

/-- A field below the state in a partition's register is kept. -/
theorem f_partDisable_low {n : Nat} (s : State) (hn : n < 12) {hi lo : Nat} (h : hi < 28) :
    (partDisable n s).f ⟨GLB_PART_CFG n, hi, lo⟩ = s.f ⟨GLB_PART_CFG n, hi, lo⟩ := by
  obtain ⟨t, ht, e⟩ := f_partDisable s hn
  have hk := partCfg_lt hn
  rw [e _ (show hi < 64 by omega) (show GLB_PART_CFG n < 0x1_0000 by omega), f_setF_ne _ _ rfl (show hi < 64 by omega) (.inr (.inr (show hi < 31 by omega))),
    f_setF_ne _ _ rfl (show hi < 64 by omega) (.inr (.inr h)), f_rowsFreed fun r _ => by show GLB_PART_CFG n ≠ _; simp only [GLB_ROW_MAP]; omega]
  refine ht.fields _ (show hi < 64 by omega) (not_off_of_lt (show GLB_PART_CFG n < 0x1_0000 by omega)) fun _ p hp => ?_
  exact .inr (.inr h)

theorem partDisable_owner {n r : Nat} (s : State) (hn : n < 12) (hr : r < 12) :
    (partDisable n s).owner r = if s.owner r = n then 15 else s.owner r := by
  split
  next h => exact (partDisable_leaves s hn).2.2.2.1 r hr h
  next h =>
    obtain ⟨t, ht, e⟩ := f_partDisable s hn
    have hne : (GLB_ROW_MAP.OWNER r).key ≠ GLB_PART_CFG n := by simp only [GLB_ROW_MAP.OWNER, GLB_ROW_MAP, GLB_PART_CFG]; omega
    have ho := ht.owner hr
    unfold State.owner
    rw [e _ (show 7 < 64 by decide) (by simp only [GLB_ROW_MAP.OWNER, GLB_ROW_MAP]; omega), State.f_setF_other _ _ _ _ hne, State.f_setF_other _ _ _ _ hne]
    exact (owner_rowsFreed_other (ho ▸ h)).trans ho

/-! ### A write of `GLB_PART_SEQn` -/

theorem regDesc_partSeq : ∀ n : Fin 12, regDesc (GLB_PART_SEQ n) = some ⟨0x104, 0x10, 12, false, [⟨28, 24, .rw, 0, true⟩, ⟨23, 0, .rw, 0, true⟩]⟩ := by
  intro n
  fin_cases n <;> rfl

theorem placeOf_partSeq (n : Fin 12) : placeOf (.fn 0) (GLB_PART_SEQ n) = some ⟨GLB_PART_SEQ n, false, false⟩ := by
  revert n
  decide +kernel

theorem exec_partSeq (n : Fin 12) (x : BitVec 64) {s : State} (hf : s.fnOpen 0 = true) :
    exec (.registerWrite 0 false (BitVec.ofNat 24 (GLB_PART_SEQ n)) false x) s = .next (partSeqWrite n (BitVec.ofNat 64 (x.toNat % 2 ^ (8 * 4))) s) := by
  have hn := n.isLt
  have hk : GLB_PART_SEQ n = 0x104 + n * 0x10 := rfl
  have hcfg : inCfgWindow (GLB_PART_SEQ n) = false := by
    simp only [inCfgWindow, Bool.and_eq_false_iff, decide_eq_false_iff_not]
    omega
  have hclk : s.regClk (GLB_PART_SEQ n) = true := by
    unfold State.regClk
    rw [if_pos (by omega)]
  have hix : (GLB_PART_SEQ n - 0x100) / 0x10 = n := by omega
  have hga : GLB_GATED_ACCESS < 0x100 := by decide
  rw [exec_registerWrite_pf (wide := false) x hf (by omega) (show GLB_PART_SEQ n % 4 = 0 by omega) (placeOf_partSeq n) hcfg hclk]
  show Host.Outcome.next (regWrite (.fn 0) (GLB_PART_SEQ n) _ s) = _
  unfold regWrite
  rw [if_pos (by omega), glbWrite, if_neg (by omega), if_pos (by omega), if_neg (by omega), hix]
  rfl

theorem fieldWrite_partSeq (n : Fin 12) (v : Word) (s : State) : fieldWrite (GLB_PART_SEQ n) v s =
    ((s.wr (GLB_PART_SEQ n) (s.rd (GLB_PART_SEQ n))).setF (GLB_PART_SEQ.PRIMARY n) (getBits v 28 24)).setF (GLB_PART_SEQ.MASK n) (getBits v 23 0) := by
  have hk : GLB_PART_SEQ n < 0x1_0000 := by have := n.isLt; unfold GLB_PART_SEQ; omega
  have hl : s.locks (GLB_PART_SEQ n) = false := by
    unfold State.locks
    rw [if_neg (by omega), if_neg (by omega)]
  rw [fieldWrite_unlocked v s (regDesc_partSeq n) hl]
  simp only [List.foldl_cons, List.foldl_nil, Fld.write]
  rw [blend_mask (by decide) (by decide), blend_mask (by decide) (by decide)]
  simp only [State.setF, State.rd_wr, wr_wr, if_true, GLB_PART_SEQ.PRIMARY, GLB_PART_SEQ.MASK]

/-- The write sets the mask and the primary, and no other field. -/
theorem fieldWrite_partSeq_fields (n : Fin 12) (x : BitVec 64) (s : State) :
    let t := fieldWrite (GLB_PART_SEQ n) (BitVec.ofNat 64 (x.toNat % 2 ^ (8 * 4))) s
    t.f (GLB_PART_SEQ.MASK n) = (x.extractLsb' 0 24).toNat ∧ t.f (GLB_PART_SEQ.PRIMARY n) = (x.extractLsb' 24 5).toNat ∧
      OnlyFields [GLB_PART_SEQ.MASK n, GLB_PART_SEQ.PRIMARY n] s t := by
  intro t
  have e : t = _ := fieldWrite_partSeq n _ s
  refine ⟨?_, ?_, ?_, ?_⟩
  · rw [e, f_setF_fits _ rfl (bitsOf_lt _ 23 0)]
    exact getBits_low x (by decide) (by decide)
  · rw [e, f_setF_ne _ _ rfl (show 28 < 64 by decide) (.inr (.inl (show 23 < 24 by decide))), f_setF_fits _ rfl (bitsOf_lt _ 28 24)]
    exact getBits_low x (by decide) (by decide)
  · rw [e]; rfl
  · rw [e]
    exact ((FieldsBut.wr_rd _ s _).setF _ rfl (by simp)).setF _ rfl (by simp)

/-! ### The write of `GLB_PART_CFGn` -/

theorem exec_partCfg_closed {s : State} (h : s.fnOpen 0 = false) (n : Fin 12) (v : BitVec 32) : exec (.glbPartCfgWrite n v) s = .next s := by
  show Host.Outcome.next (if s.fnOpen 0 then partCfgWrite n v.toNat s else s) = _
  rw [h]
  rfl

theorem exec_partCfg {s : State} (h : s.fnOpen 0 = true) (n : Fin 12) (v : BitVec 32) : exec (.glbPartCfgWrite n v) s = .next (partCfgWrite n v.toNat s) := by
  show Host.Outcome.next (if s.fnOpen 0 then partCfgWrite n v.toNat s else s) = _
  rw [h]
  rfl

section
variable {s : State} {n : Nat} {v : BitVec 32}

theorem partCfgWrite_busy (hv : v.getLsbD 31 = false)
    (h : s.f (GLB_PART_CFG.STATE n) = stLOADING ∨ s.f (GLB_PART_CFG.STATE n) = stRUNNING ∨ s.f (GLB_PART_CFG.STATE n) = stREPAIRING) :
    partCfgWrite n v.toNat s = s.setF (GLB_PART_CFG.ERRCODE n) 7 := by
  unfold partCfgWrite
  rw [bitOf_toNat, hv]
  exact if_pos h

theorem partCfgWrite_again (hv : v.getLsbD 31 = true) (he : s.f (GLB_PART_CFG.EN n) = 1) : partCfgWrite n v.toNat s = s.setF (GLB_PART_CFG.ERRCODE n) 0 := by
  unfold partCfgWrite
  rw [bitOf_toNat, hv, (on_iff_one rfl).2 he]
  rfl

theorem partCfgWrite_refused (hv : v.getLsbD 31 = true) (he : s.f (GLB_PART_CFG.EN n) = 0) (hc : s.enableCheck n (PartDef.of v.toNat) ≠ 0) :
    partCfgWrite n v.toNat s = s.setF (GLB_PART_CFG.ERRCODE n) (s.enableCheck n (PartDef.of v.toNat)) := by
  unfold partCfgWrite
  rw [bitOf_toNat, hv, (on_eq_false_iff s _).2 he]
  dsimp only
  generalize s.enableCheck n (PartDef.of v.toNat) = e at hc
  cases e with
  | zero => exact absurd rfl hc
  | succ e => rfl

theorem partCfgWrite_enables (hv : v.getLsbD 31 = true) (he : s.f (GLB_PART_CFG.EN n) = 0) (hc : s.enableCheck n (PartDef.of v.toNat) = 0) :
    partCfgWrite n v.toNat s = partEnable n (PartDef.of v.toNat) (s.setF (GLB_PART_CFG.ERRCODE n) 0) := by
  unfold partCfgWrite
  rw [bitOf_toNat, hv, (on_eq_false_iff s _).2 he]
  dsimp only
  rw [hc]
  rfl

theorem partCfgWrite_stores (hv : v.getLsbD 31 = false) (he : s.f (GLB_PART_CFG.EN n) = 0)
    (h : ¬ (s.f (GLB_PART_CFG.STATE n) = stLOADING ∨ s.f (GLB_PART_CFG.STATE n) = stRUNNING ∨ s.f (GLB_PART_CFG.STATE n) = stREPAIRING)) :
    partCfgWrite n v.toNat s = partStore n (PartDef.of v.toNat) (s.setF (GLB_PART_CFG.ERRCODE n) 0) := by
  unfold partCfgWrite
  rw [bitOf_toNat, hv, (on_eq_false_iff s _).2 he]
  exact if_neg h

theorem partCfgWrite_disables (hv : v.getLsbD 31 = false) (he : s.f (GLB_PART_CFG.EN n) = 1)
    (h : ¬ (s.f (GLB_PART_CFG.STATE n) = stLOADING ∨ s.f (GLB_PART_CFG.STATE n) = stRUNNING ∨ s.f (GLB_PART_CFG.STATE n) = stREPAIRING)) :
    partCfgWrite n v.toNat s = partDisable n (s.setF (GLB_PART_CFG.ERRCODE n) 0) := by
  unfold partCfgWrite
  rw [bitOf_toNat, hv, (on_iff_one rfl).2 he]
  exact if_neg h

end

/-- The carried fields are those of the value. -/
theorem partDef_of (v : BitVec 32) : PartDef.of v.toNat = ⟨(v.extractLsb' 20 4).toNat, (v.extractLsb' 8 4).toNat, (v.extractLsb' 0 4).toNat⟩ := by
  unfold PartDef.of
  rw [bitsOf_eq_extract v 23 20, bitsOf_eq_extract v 11 8, bitsOf_eq_extract v 3 0]

/-- The error code of a partition with one cleared: it reads 0, and the rest as before. -/
theorem errCleared (n : Nat) (s : State) : (s.setF (GLB_PART_CFG.ERRCODE n) 0).f (GLB_PART_CFG.ERRCODE n) = 0 := f_setF_fits s rfl (show 0 < 16 by decide)

theorem errCleared_low {n : Nat} (s : State) {hi lo : Nat} (h : hi < 24) : (s.setF (GLB_PART_CFG.ERRCODE n) 0).f ⟨GLB_PART_CFG n, hi, lo⟩ = s.f ⟨GLB_PART_CFG n, hi, lo⟩ :=
  f_setF_ne s _ rfl (show hi < 64 by omega) (.inr (.inr h))

theorem errCleared_owner {n : Nat} (hn : n < 12) (s : State) (r : Nat) : (s.setF (GLB_PART_CFG.ERRCODE n) 0).f (GLB_ROW_MAP.OWNER r) = s.f (GLB_ROW_MAP.OWNER r) :=
  State.f_setF_other _ _ _ _ (by simp only [GLB_ROW_MAP.OWNER, GLB_ROW_MAP, GLB_PART_CFG.ERRCODE, GLB_PART_CFG]; omega)

/-- Settles O6: a write of `EN` by the cases of R22 and R23, with the checks in order as one chain of conditions. -/
theorem partitionDefinitionWrites : Obligations.PartitionDefinitionWrites := by
  unfold Obligations.PartitionDefinitionWrites
  intro n v s vf nrows first mask prim other fails st busy cfg
  have hn := n.isLt
  have hd : PartDef.of v.toNat = ⟨vf, nrows, first⟩ := partDef_of v
  have hfault (e : Nat) : fails e ↔ PartFault s n (PartDef.of v.toNat) e := by rw [hd]; rfl
  refine ⟨fun h => exec_partCfg_closed h n v, fun h hv hb => ?_, fun h he hv => ⟨fun e hf hmin => ?_, fun hp => ?_⟩, fun h he hv hb => ?_, fun h he hv => ?_,
    fun h he hv hb => ?_, fun h x => ⟨fun he => ?_, fun he => ?_⟩⟩
  · rw [exec_partCfg h, partCfgWrite_busy hv hb]
  · have hc : s.enableCheck n (PartDef.of v.toNat) = e := enableCheck_first ((hfault e).1 hf) fun k hk hk' => hmin k hk ((hfault k).2 hk')
    rw [exec_partCfg h, partCfgWrite_refused hv he (hc ▸ partFault_pos ((hfault e).1 hf)), hc]
  · rw [exec_partCfg h, partCfgWrite_enables hv he (enableCheck_passes fun e hf => hp e ((hfault e).2 hf))]
    obtain ⟨hvf, hnr, hfr⟩ := partEnable_defines hn v.toNat (s.setF (GLB_PART_CFG.ERRCODE n) 0)
    rw [hd] at hvf hnr hfr ⊢
    refine ⟨_, rfl, partEnable_en hn _ _, (partEnable_errcode hn _ _).trans (errCleared n s), hvf, hnr, hfr, (partEnable_seq hn _ _).trans ?_, fun r hr => ?_⟩
    · exact (State.rd_wr ..).trans (if_neg (by simp only [GLB_PART_SEQ, GLB_PART_CFG.ERRCODE, GLB_PART_CFG]; omega))
    · rw [partEnable_owner hn _ _ hr, errCleared_owner hn]
  · rw [exec_partCfg h, partCfgWrite_stores hv he hb]
    have hs := partStore_only n (PartDef.of v.toNat) (s.setF (GLB_PART_CFG.ERRCODE n) 0)
    obtain ⟨hvf, hnr, hfr⟩ := partStore_defines n v.toNat (s.setF (GLB_PART_CFG.ERRCODE n) 0)
    rw [hd] at hs hvf hnr hfr ⊢
    refine ⟨_, rfl, (partStore_errcode ..).trans (errCleared n s), hvf, hnr, hfr, rfl, ?_⟩
    exact ((FieldsBut.refl _ s).setF _ rfl (by simp)).trans (hs.2.mono fun x hx => List.mem_cons_of_mem _ hx)
  · rw [exec_partCfg h, partCfgWrite_again hv he]
  · rw [exec_partCfg h, partCfgWrite_disables hv he hb]
    refine ⟨_, rfl, (partDisable_leaves _ hn).1, (f_partDisable_low _ hn (by decide)).trans (errCleared n s), ?_, ?_, ?_, fun r hr => ?_⟩
    · exact (f_partDisable_low _ hn (by decide)).trans (errCleared_low s (by decide))
    · exact (f_partDisable_low _ hn (by decide)).trans (errCleared_low s (by decide))
    · exact (f_partDisable_low _ hn (by decide)).trans (errCleared_low s (by decide))
    · have ho := errCleared_owner hn s r
      rw [← ho]
      exact partDisable_owner _ hn hr
  · rw [exec_partSeq n x h, partSeqWrite, if_pos ((on_iff_one rfl).2 he)]
  · rw [exec_partSeq n x h, partSeqWrite, if_neg (by rw [(on_eq_false_iff s _).2 he]; decide)]
    exact ⟨_, rfl, fieldWrite_partSeq_fields n x s⟩

end Sys2Proof.Proofs
end

