-- ==== Sys2Proof/Proofs/IslandPort.lean ====
section
/-!
PROOFS. Proofs/IslandPort.lean: reads and writes of an island memory by the stream/DMA port (R37, R134, R137 to R142, R152).
-/
namespace Sys2Proof.Machine

/-- Byte `j` of the number that `n` bytes of memory spell. -/
theorem Memory.num_digit (m : Memory) (a n j : Nat) : Memory.num m a n / 256 ^ j % 256 = if j < n then (Memory.get m (a + j)).toNat else 0 := by
  induction n generalizing a j with
  | zero => simp [Memory.num_zero]
  | succ n ih =>
    have hb := (Memory.get m a).isLt
    rw [Memory.num_succ]
    cases j with
    | zero =>
      rw [if_pos (Nat.succ_pos n)]
      simp only [pow_zero, Nat.div_one, Nat.add_zero]
      omega
    | succ j =>
      rw [Nat.pow_succ', ← Nat.div_div_eq_div_mul, show ((Memory.get m a).toNat + 256 * Memory.num m (a + 1) n) / 256 = Memory.num m (a + 1) n by omega, ih,
        show a + 1 + j = a + (j + 1) by omega]
      simp only [Nat.add_lt_add_iff_right]

end Sys2Proof.Machine

namespace Sys2Proof.Safety
open Sys2Proof.Machine

theorem OnlyFields.trans {xs : List RF} {s t u : State} (h₁ : OnlyFields xs s t) (h₂ : OnlyFields xs t u) : OnlyFields xs s u := by
  obtain ⟨p₁, f₁⟩ := h₁
  obtain ⟨p₂, f₂⟩ := h₂
  exact ⟨by rw [p₂, p₁], f₁.trans f₂⟩

/-- Nothing but registers has changed. -/
theorem OnlyFields.regs {xs : List RF} {s t : State} (h : OnlyFields xs s t) : ∃ r, t = { s with regs := r } := ⟨_, h.1⟩

end Sys2Proof.Safety

namespace Sys2Proof.Proofs
open Sys2Proof.Machine Sys2Proof.Safety

/-- The bytes of a read's answer. -/
theorem extract_num (m : Memory) (a n : Nat) {j : Nat} (hj : j < 8) :
    (BitVec.ofNat 64 (Memory.num m a n)).extractLsb' (8 * j) 8 = if j < n then Memory.get m (a + j) else 0 := by
  apply BitVec.eq_of_toNat_eq
  have hd := Memory.num_digit m a n j
  rw [show 256 ^ j = 2 ^ (8 * j) by rw [Nat.pow_mul]] at hd
  have hm : (Memory.num m a n % 2 ^ 64) >>> (8 * j) % 2 ^ 8 = Memory.num m a n / 2 ^ (8 * j) % 256 := by
    apply Nat.eq_of_testBit_eq
    intro b
    rw [show 256 = 2 ^ 8 by rfl, ← Nat.shiftRight_eq_div_pow]
    simp only [Nat.testBit_mod_two_pow, Nat.testBit_shiftRight]
    by_cases hb : b < 8
    · simp [show 8 * j + b < 64 by omega]
    · simp [hb]
  rw [BitVec.extractLsb'_toNat, BitVec.toNat_ofNat, hm, hd]
  split <;> rfl

/-! ### What an access leaves of the patrol engine -/

/-- The fields in which an access can make the patrol abandon its window. -/
def patrolFields (i : Nat) : List RF := [ISL_PATROL_STAT.STEP i, ISL_PATROL_STAT.ABAND i]

/-- Accesses have done nothing but make the patrol abandon its window, whose shadow still stands. -/
structure PortTouched (i : Nat) (s t : State) : Prop where
  only : OnlyFields (patrolFields i) s t
  found : ∀ o, t.found i o = s.found i o

theorem PortTouched.refl (i : Nat) (s : State) : PortTouched i s s := ⟨⟨rfl, .refl _ s⟩, fun _ => rfl⟩

theorem PortTouched.trans {i : Nat} {s t u : State} (h₁ : PortTouched i s t) (h₂ : PortTouched i t u) : PortTouched i s u :=
  ⟨OnlyFields.trans h₁.only h₂.only, fun o => (h₂.found o).trans (h₁.found o)⟩

theorem PortTouched.mem {i : Nat} {s t : State} (h : PortTouched i s t) : t.mem = s.mem := by rw [h.only.1]

theorem PortTouched.getIsl {i : Nat} {s t : State} (h : PortTouched i s t) (j : Nat) : t.getIsl j = s.getIsl j := by
  obtain ⟨r, rfl⟩ := OnlyFields.regs h.only
  rfl

/-- The shadow of a window stands through every change of `STEP` between steps that hold one. -/
theorem found_congr {i : Nat} {s t : State} (hm : t.mem = s.mem) (hw : t.f (ISL_PATROL_STAT.WIN i) = s.f (ISL_PATROL_STAT.WIN i))
    (hs : (t.f (ISL_PATROL_STAT.STEP i) != 0) = (s.f (ISL_PATROL_STAT.STEP i) != 0)) (o : Nat) : t.found i o = s.found i o := by
  have he : t.ecc (islMemBase i + o) = s.ecc (islMemBase i + o) := by rw [State.ecc, State.byte, hm, State.ecc, State.byte]
  have hc : t.badCells (islMemBase i + o) = s.badCells (islMemBase i + o) := by rw [State.badCells, State.byte, hm, State.badCells, State.byte]
  have hsh : t.shadowed i o = s.shadowed i o := by rw [State.shadowed, hw, hs, State.shadowed]
  simp only [State.found]
  rw [he, hc, hsh]

/-- An access to a borrowed window ends its borrow or march. -/
theorem PortTouched.patrolTouch (i off : Nat) (s : State) : PortTouched i s (patrolTouch i off s) := by
  simp only [Machine.patrolTouch]
  split
  next h =>
    have hstep : RFok (ISL_PATROL_STAT.STEP i) = true := rfl
    have hab : RFok (ISL_PATROL_STAT.ABAND i) = true := rfl
    refine ⟨⟨rfl, ((FieldsBut.refl _ s).setF _ hstep (by simp [patrolFields])).setF _ hab (by simp [patrolFields])⟩, found_congr rfl ?_ ?_⟩
    · rw [State.bump, f_setF_ne _ _ hab (Nat.le_of_ble_eq_true rfl) (.inr (.inr (Nat.le_of_ble_eq_true rfl))),
        f_setF_ne _ _ hstep (Nat.le_of_ble_eq_true rfl) (.inr (.inr (Nat.le_of_ble_eq_true rfl)))]
    · rw [State.bump, f_setF_ne _ _ hab (Nat.le_of_ble_eq_true rfl) (.inr (.inl (Nat.le_of_ble_eq_true rfl))), f_setF_fits _ hstep (show 3 < 8 by decide)]
      obtain ⟨h | h, -⟩ := h <;> rw [h] <;> rfl
  next => exact .refl i s

/-! ### Reads -/

/-- No combining buffer keeps a word of the ECC word at a byte offset. -/
def NoComb (i off : Nat) (s : State) : Prop := ∀ e ∈ (s.getIsl i).comb, e.2 ≠ off / 8

theorem combDrain_none {i off : Nat} {s : State} (h : NoComb i off s) : combDrain i off s = s := by
  have hf : (s.getIsl i).comb.filter (fun e => e.2 == off / 8) = [] := List.filter_eq_nil_iff.2 fun e he => by simpa using h e he
  rw [combDrain, hf, List.foldl_nil]

/-- A read of a sound ECC word that no combining buffer holds. -/
theorem eccRead_sound {i off : Nat} {s : State} (port : Nat) (hc : NoComb i off s) (h : s.found i off = 0) : eccRead i off port s = (0, patrolTouch i off s) := by
  simp only [eccRead, combDrain_none hc, eccPort, (PortTouched.patrolTouch i off s).found off, h]

/-- One access of a request that reads. -/
def portReadStep (i : Nat) (acc : Nat × Bool × State) (p : Nat × Nat × Nat) : Nat × Bool × State :=
  let (d, bad, s) := acc
  let (v, _, b, s) := portRead i (p.1 % 0x4_0000) p.2.1 s
  (d + v * 2 ^ p.2.2, bad || b, s)

theorem portAnswer_eq {i off size d : Nat} {s t : State} (h : (pieces off size).foldl (portReadStep i) (0, false, s) = (d, false, t)) :
    portAnswer i off size s = t.emit (.read (BitVec.ofNat 64 d)) := by
  have e : portAnswer i off size s = let r := (pieces off size).foldl (portReadStep i) (0, false, s)
      r.2.2.emit (if r.2.1 then .poisoned (BitVec.ofNat 64 r.1) else .read (BitVec.ofNat 64 r.1)) := rfl
  rw [e, h]
  rfl

theorem portReadStep_sound {i d o z b : Nat} {s : State} (ho : o < 0x4_0000) (hc : NoComb i o s) (h : s.found i o = 0) :
    portReadStep i (d, false, s) (o, z, b) = (d + Memory.num s.mem (islMemBase i + o) z * 2 ^ b, false, patrolTouch i o s) := by
  simp only [portReadStep, portRead, Nat.mod_eq_of_lt ho, eccRead_sound 1 hc h, (PortTouched.patrolTouch i o s).mem]
  rfl

/-- A read of sound words within the memory, in whatever accesses it is made. -/
theorem portReads_sound {i off size : Nat} {s : State} (ho : off + size ≤ 0x4_0000) (h : ∀ j, j < size → s.found i (off + j) = 0 ∧ NoComb i (off + j) s) :
    ∃ t, (pieces off size).foldl (portReadStep i) (0, false, s) = (Memory.num s.mem (islMemBase i + off) size, false, t) ∧ PortTouched i s t := by
  rcases pieces_cases off size with ⟨hp, h0, -⟩ | hp
  · obtain ⟨hf, hc⟩ := h 0 (by omega)
    rw [Nat.add_zero] at hf hc
    exact ⟨_, by rw [hp, List.foldl_cons, List.foldl_nil, portReadStep_sound (by omega) hc hf]; simp, .patrolTouch i off s⟩
  · rw [hp]
    clear hp
    induction size with
    | zero => exact ⟨s, rfl, .refl i s⟩
    | succ z ih =>
      obtain ⟨t, ht, hs⟩ := ih (by omega) fun j hj => h j (by omega)
      obtain ⟨hf, hc⟩ := h z (by omega)
      have hct : NoComb i (off + z) t := by unfold NoComb; rw [hs.getIsl]; exact hc
      refine ⟨_, ?_, hs.trans (.patrolTouch i (off + z) t)⟩
      rw [List.range_succ, List.map_append, List.foldl_append, ht, List.map_cons, List.map_nil, List.foldl_cons, List.foldl_nil,
        portReadStep_sound (by omega) hct ((hs.found _).trans hf), Memory.num_one, Memory.num_snoc _ _ z, Nat.pow_mul, hs.mem, Nat.add_assoc]

/-! ### Writes -/

/-- Eight bytes stored in an ECC word with the tags of its two words, and the word sound. -/
def taggedMem (a data tags : Nat) (m : Memory) : Memory :=
  Memory.put (Memory.put (Memory.put (Memory.puts m a (bytesLE 8 data)) (tagKey a) (BitVec.ofNat 8 (tags % 16))) (tagKey (a + 4)) (BitVec.ofNat 8 (tags / 16 % 16)))
    (eccKey a) (BitVec.ofNat 8 0)

theorem get_taggedMem {a data tags : Nat} {m : Memory} (b : Nat) (h : Memory.wf m = true) : Memory.get (taggedMem a data tags m) b =
    if b = eccKey a then BitVec.ofNat 8 0 else if b = tagKey (a + 4) then BitVec.ofNat 8 (tags / 16 % 16) else if b = tagKey a then BitVec.ofNat 8 (tags % 16)
    else if a ≤ b ∧ b < a + 8 then BitVec.ofNat 8 (data / 256 ^ (b - a)) else Memory.get m b := by
  have h₁ := Memory.puts_wf m a (bytesLE 8 data) h
  have h₂ := Memory.put_wf _ (tagKey a) (BitVec.ofNat 8 (tags % 16)) h₁
  have h₃ := Memory.put_wf _ (tagKey (a + 4)) (BitVec.ofNat 8 (tags / 16 % 16)) h₂
  rw [taggedMem, Memory.get_put _ _ _ _ h₃, Memory.get_put _ _ _ _ h₂, Memory.get_put _ _ _ _ h₁, Memory.get_puts _ _ _ _ h, bytesLE_length]
  by_cases hb : a ≤ b ∧ b < a + 8
  · rw [if_pos hb, if_pos hb, bytesLE_getD _ (by omega)]
  · rw [if_neg hb, if_neg hb]

theorem portStore_full {i off : Nat} (data tags : Nat) {s : State} (hc : NoComb i off s) (hi : s.f (ISL_MEM_CTL.INJ i) = 0) :
    portStore i off 8 data tags false s = (patrolTouch i off s).onMem (taggedMem (islMemBase i + off) data tags) := by
  have hk : ∀ x ∈ patrolFields i, Apart x (ISL_MEM_CTL.INJ i) := by
    have hne : ISL_MEM_CTL i ≠ ISL_PATROL_STAT i := by simp only [ISL_MEM_CTL, ISL_PATROL_STAT]; omega
    intro x hx
    simp only [patrolFields, List.mem_cons, List.not_mem_nil, or_false] at hx
    rcases hx with rfl | rfl <;> exact .of_key hne
  have hi' : ((patrolTouch i off s).onMem (taggedMem (islMemBase i + off) data tags)).f (ISL_MEM_CTL.INJ i) = 0 :=
    ((PortTouched.patrolTouch i off s).only.2 _ (Nat.le_of_ble_eq_true rfl) hk).trans hi
  have e : portStore i off 8 data tags false s = endInject i (markEcc i off false ((patrolTouch i off s).onMem (taggedMem (islMemBase i + off) data tags))) := by
    simp only [portStore, combDrain_none hc, decide_true, if_true, OfNat.zero_ne_ofNat, if_false, State.setTags, State.setEcc, State.onMem]
    rfl
  rw [e, markEcc]
  simp only [hi', Bool.false_eq_true, false_or, OfNat.zero_ne_ofNat, zero_ne_one, or_self, if_false, endInject, if_true]

theorem pieces_word {off : Nat} (h : off % 8 = 0) : pieces off 8 = [(off, 8, 0)] := if_pos (by simp [sizeOk, h])

/-! ### The command -/

variable {i : Fin 156} {off : BitVec 18} {s : State}

/-- The island's clock runs and no request waits in the port. -/
def PortFree (i : Nat) (s : State) : Prop := s.islClk i = true ∧ (s.getIsl i).portQ = []

theorem exec_port_stopped (p : PortReq) (clash : Bool) (h : s.islClk i = false) : exec (.islandMemoryAccess i p clash) s = .next (s.emit .busError) := by
  show execIslandMemoryAccess i p clash s = _
  rw [execIslandMemoryAccess, h]
  rfl

theorem exec_port_behind (p : PortReq) (clash : Bool) (h : s.islClk i = true) (hq : (s.getIsl i).portQ ≠ []) :
    exec (.islandMemoryAccess i p clash) s = .next (s.onIsl i (fun x => { x with portQ := x.portQ ++ [{ req := p }] })) := by
  show execIslandMemoryAccess i p clash s = _
  rw [execIslandMemoryAccess, h]
  simp only [Bool.not_true, Bool.false_eq_true, if_false, if_pos hq]

theorem exec_port_served {p : PortReq} {clash : Bool} {t : State} (h : PortFree i s) (hs : portServe i p clash s = (false, t)) :
    exec (.islandMemoryAccess i p clash) s = .next t := by
  obtain ⟨hc, hq⟩ := h
  show execIslandMemoryAccess i p clash s = _
  rw [execIslandMemoryAccess, hc]
  simp only [Bool.not_true, Bool.false_eq_true, if_false, hq, ne_eq, not_true_eq_false, hs]

/-- A read returns the bytes and changes no memory. -/
theorem exec_port_read {size : Fin 9} (clash : Bool) (h : PortFree i s) (ho : off.toNat + size.val ≤ 0x4_0000)
    (hs : ∀ j, j < size.val → s.found i (off.toNat + j) = 0 ∧ NoComb i (off.toNat + j) s) :
    ∃ t, exec (.islandMemoryAccess i (.read off size) clash) s = .next t ∧ t = { s with regs := t.regs, out := t.out } ∧ FieldsBut (patrolFields i) s t ∧
      ∃ d : Word, t.out = s.out ++ [.read d] ∧ ∀ j, j < 8 → d.extractLsb' (8 * j) 8 = if j < size.val then s.byte (islMemBase i + off.toNat + j) else 0 := by
  obtain ⟨t, ht, hp, -⟩ := portReads_sound ho hs
  have e : portServe i (.read off size) clash s = (false, portAnswer i off.toNat size s) := rfl
  refine ⟨_, exec_port_served h (e.trans (congrArg _ (portAnswer_eq ht))), ?_, hp.2, _, ?_, fun j hj => extract_num _ _ _ hj⟩
  · obtain ⟨r, rfl⟩ := OnlyFields.regs hp
    rfl
  · obtain ⟨r, rfl⟩ := OnlyFields.regs hp
    rfl

/-- One access of a request that writes. -/
def portWriteStep (i : Nat) (data tags : Nat) (host clash : Bool) (acc : Bool × State) (x : Nat × Nat × Nat) : Bool × State :=
  if acc.1 then acc
  else
    match portWrite i (x.1 % 0x4_0000) x.2.1 (data / 2 ^ x.2.2 % 2 ^ (8 * x.2.1)) tags false host clash acc.2 with
    | (.done, s) => (false, s)
    | (.collided, s) => (false, s.emit .collided)
    | (.waits, s) => (true, s)

theorem portServe_write (i : Nat) (off : BitVec 18) (size : Fin 9) (data : Word) (tags : BitVec 8) (host clash : Bool) (s : State) :
    portServe i (.write off size data tags host) clash s = (pieces off.toNat size).foldl (portWriteStep i data.toNat tags.toNat host clash) (false, s) := rfl

/-- An aligned 8-byte write is one access with the whole of the data. -/
theorem portServe_write_word (hal : off.toNat % 8 = 0) (data : Word) (tags : BitVec 8) (host clash : Bool) {r : PortEnd} {t : State}
    (h : portWrite i off.toNat 8 data.toNat tags.toNat false host clash s = (r, t)) : portServe i (.write off 8 data tags host) clash s =
      match r with
      | .done => (false, t)
      | .collided => (false, t.emit .collided)
      | .waits => (true, t) := by
  have hd : data.toNat / 2 ^ 0 % 2 ^ (8 * 8) = data.toNat := by rw [pow_zero, Nat.div_one]; exact Nat.mod_eq_of_lt data.isLt
  rw [portServe_write, show ((8 : Fin 9) : Nat) = 8 from rfl, pieces_word hal, List.foldl_cons, List.foldl_nil, portWriteStep]
  simp only [hd, Nat.mod_eq_of_lt off.isLt, h, Bool.false_eq_true, if_false]
  cases r <;> rfl

/-- A drop at the port counts, and the first records its address. -/
theorem recordCollision_fields (i : Fin 156) {off : Nat} (s : State) (ho : off < 0x4_0000) :
    let t := recordCollision i off s
    t.f (ISL_MEM_COLL.COUNT i) = min (s.f (ISL_MEM_COLL.COUNT i) + 1) 4095 ∧ (s.f (ISL_MEM_COLL.COUNT i) = 0 → t.f (ISL_MEM_COLL.FADDR i) = off / 8 * 8) ∧
      OnlyFields [ISL_MEM_COLL.COUNT i, ISL_MEM_COLL.FADDR i] s t := by
  have hcnt : RFok (ISL_MEM_COLL.COUNT i) = true := rfl
  have hadr : RFok (ISL_MEM_COLL.FADDR i) = true := rfl
  have hlt (m : Nat) : min (m + 1) 4095 < 2 ^ 12 := Nat.lt_of_le_of_lt (Nat.min_le_right _ _) (by decide)
  have hbump (u : State) : (u.bump (ISL_MEM_COLL.COUNT i)).f (ISL_MEM_COLL.COUNT i) = min (u.f (ISL_MEM_COLL.COUNT i) + 1) 4095 := f_setF_fits u hcnt (hlt _)
  intro t
  by_cases h : s.f (ISL_MEM_COLL.COUNT i) = 0
  · have e : t = (s.setF (ISL_MEM_COLL.FADDR i) (off / 8 * 8)).bump (ISL_MEM_COLL.COUNT i) := by simp only [t, recordCollision, h, if_true]
    rw [e]
    refine ⟨?_, fun _ => ?_, rfl, ((FieldsBut.refl _ s).setF _ hadr (by simp)).setF _ hcnt (by simp)⟩
    · rw [hbump, f_setF_ne s _ hadr (Nat.le_of_ble_eq_true rfl) (.inr (.inl (Nat.le_of_ble_eq_true rfl)))]
    · rw [State.bump, f_setF_ne _ _ hcnt (Nat.le_of_ble_eq_true rfl) (.inr (.inr (Nat.le_of_ble_eq_true rfl)))]
      exact f_setF_fits s hadr (Nat.lt_of_le_of_lt (Nat.div_mul_le_self _ _) ho)
  · have e : t = s.bump (ISL_MEM_COLL.COUNT i) := by simp only [t, recordCollision, h, if_false]
    rw [e]
    exact ⟨hbump s, fun h' => absurd h' h, rfl, (FieldsBut.refl _ s).setF _ hcnt (by simp)⟩

section
variable (data : Word) (tags : BitVec 8) (host : Bool) (h : PortFree i s) (hal : off.toNat % 8 = 0) (hq : s.pushQueues i (off.toNat / 4) = [])
include h hal hq

/-- An aligned 8-byte write stores bytes and tags in a sound ECC word. -/
theorem exec_port_write (hi : s.f (ISL_MEM_CTL.INJ i) = 0) (hm : MemOk s) (hc : NoComb i off.toNat s) :
    let a := islMemBase i + off.toNat
    ∃ t, exec (.islandMemoryAccess i (.write off 8 data tags host) false) s = .next t ∧ (∀ j, j < 8 → t.byte (a + j) = data.extractLsb' (8 * j) 8) ∧
      t.tagsAt a = tags.toNat % 16 ∧ t.tagsAt (a + 4) = tags.toNat / 16 ∧ t.ecc a = 0 ∧
      BytesBut (fun x => (a ≤ x ∧ x < a + 8) ∨ x = tagKey a ∨ x = tagKey (a + 4) ∨ x = eccKey a) s t ∧ FieldsBut (patrolFields i) s t ∧
      t = { s with regs := t.regs, mem := t.mem } := by
  intro a
  have hw : portWrite i off.toNat 8 data.toNat tags.toNat false host false s =
      (.done, (patrolTouch i off.toNat s).onMem (taggedMem a data.toNat tags.toNat)) := by
    simp only [portWrite, hq, Bool.false_eq_true, if_false, portStore_full data.toNat tags.toNat hc hi]
    rfl
  obtain ⟨r, hr⟩ := OnlyFields.regs (PortTouched.patrolTouch i off.toNat s).only
  have hbut := (PortTouched.patrolTouch i off.toNat s).only.2
  have ha : a + 8 ≤ 2 ^ 52 := by have := off.isLt; have := i.isLt; simp only [a, islMemBase]; omega
  have ht := tags.isLt
  have hb (b : Nat) : ((patrolTouch i off.toNat s).onMem (taggedMem a data.toNat tags.toNat)).byte b = Memory.get (taggedMem a data.toNat tags.toNat s.mem) b := by
    rw [hr]
    rfl
  have hg := fun b => get_taggedMem (a := a) (data := data.toNat) (tags := tags.toNat) b hm
  refine ⟨_, exec_port_served h (portServe_write_word hal data tags host false hw), fun j hj => ?_, ?_, ?_, ?_, fun x hx => ?_, hbut, ?_⟩
  · rw [hb, hg, if_neg (by simp only [eccKey]; omega), if_neg (by simp only [tagKey]; omega), if_neg (by simp only [tagKey]; omega), if_pos (by omega),
      Nat.add_sub_cancel_left]
    apply BitVec.eq_of_toNat_eq
    rw [BitVec.extractLsb'_toNat, BitVec.toNat_ofNat, Nat.shiftRight_eq_div_pow, Nat.pow_mul]
  · rw [State.tagsAt, hb, hg, if_neg (by simp only [tagKey, eccKey]; omega), if_neg (by simp only [tagKey]; omega), if_pos rfl, BitVec.toNat_ofNat]
    omega
  · rw [State.tagsAt, hb, hg, if_neg (by simp only [tagKey, eccKey]; omega), if_pos rfl, BitVec.toNat_ofNat]
    omega
  · rw [State.ecc, hb, hg, if_pos rfl]
    rfl
  · simp only [not_or] at hx
    obtain ⟨h1, h2, h3, h4⟩ := hx
    rw [hb, hg, if_neg h4, if_neg h3, if_neg h2, if_neg h1]
    rfl
  · rw [hr]
    rfl

/-- A write that meets the owner's is dropped and counted. -/
theorem exec_port_collided : ∃ t, exec (.islandMemoryAccess i (.write off 8 data tags host) true) s = .next t ∧ t.out = s.out ++ [.collided] ∧ t.mem = s.mem ∧
    t.f (ISL_MEM_COLL.COUNT i) = min (s.f (ISL_MEM_COLL.COUNT i) + 1) 4095 ∧ (s.f (ISL_MEM_COLL.COUNT i) = 0 → t.f (ISL_MEM_COLL.FADDR i) = off.toNat) ∧
    FieldsBut [ISL_MEM_COLL.COUNT i, ISL_MEM_COLL.FADDR i] s t := by
  have hw : portWrite i off.toNat 8 data.toNat tags.toNat false host true s = (.collided, recordCollision i off.toNat s) := by
    simp only [portWrite, hq, if_true]
  obtain ⟨hcnt, hadr, honly⟩ := recordCollision_fields i s off.isLt
  obtain ⟨r, hr⟩ := OnlyFields.regs honly
  rw [show off.toNat / 8 * 8 = off.toNat by omega] at hadr
  refine ⟨_, exec_port_served h (portServe_write_word hal data tags host true hw), ?_, ?_, hcnt, hadr, honly.2⟩
  · rw [hr]
    rfl
  · rw [hr]
    rfl

end

end Sys2Proof.Proofs
end

