-- ==== Sys2Proof/Proofs/Patrol.lean ====
section
/-!
PROOFS. Proofs/Patrol.lean: the windows of an island memory that the patrol engine borrows, marches and gives back (R151 to R153).
-/
namespace Sys2Proof.Proofs
open Sys2Proof.Machine Sys2Proof.Safety

theorem cellKey_ne_eccKey {a b : Nat} (h : b < 2 ^ 56) : cellKey a ≠ eccKey b := by simp only [cellKey, eccKey]; omega

theorem offLog_island {i o : Nat} : OffLog (0x40_0000 + i * 0x1_0000 + o) := .inr (by omega)

/-- A counter that saturates, counted up. -/
theorem f_bump (s : State) {x : RF} (hx : RFok x = true) : (s.bump x).f x = min (s.f x + 1) x.max := by
  have hp : 0 < 2 ^ (x.hi + 1 - x.lo) := by positivity
  exact f_setF_fits s hx (Nat.lt_of_le_of_lt (Nat.min_le_right _ _) (by rw [RF.max]; omega))

theorem f_le_max (s : State) (x : RF) : s.f x ≤ x.max := Nat.le_sub_one_of_lt (f_lt s x)

/-! ### The borrow -/

/-- Nothing changes but registers and memory. -/
def RegsMem (s t : State) : Prop := ∃ r m, t = { s with regs := r, mem := m }

theorem RegsMem.of_eq {s t : State} (h : t = { s with regs := t.regs, mem := t.mem }) : RegsMem s t := ⟨_, _, h⟩

theorem RegsMem.eq {s t : State} (h : RegsMem s t) : t = { s with regs := t.regs, mem := t.mem } := by
  obtain ⟨r, m, rfl⟩ := h
  rfl

theorem RegsMem.setF {s t : State} (h : RegsMem s t) (x : RF) (n : Nat) : RegsMem s (t.setF x n) := by
  obtain ⟨r, m, rfl⟩ := h
  exact ⟨_, m, rfl⟩

/-- The borrow of one ECC word: a single-bit error is corrected and counted, an uncorrectable word stays marked. -/
def borrowWord (i : Nat) (s : State) (off : Nat) : State :=
  match s.found i off with
  | 0 => s
  | 1 => (s.setEcc (islMemBase i + off) 0).bump (ISL_PATROL_CNT.CEFIX i)
  | _ => s.setEcc (islMemBase i + off) 2

theorem patrolBorrow_eq (i : Nat) (s : State) : patrolBorrow i s =
    (((windowWords (s.f (ISL_PATROL_STAT.WIN i))).foldl (borrowWord i) s).setF (ISL_PATROL_STAT.ACTIVE i) 1).setF (ISL_PATROL_STAT.STEP i) 1 := rfl

/-- How many of the first `m` ECC words of a window have a single-bit error. -/
def windowErrors (i n m : Nat) (s : State) : Nat := ((List.range m).filter (fun j => s.found i (n * 256 + j * 8) == 1)).length

theorem windowErrors_succ (i n m : Nat) (s : State) : windowErrors i n (m + 1) s = windowErrors i n m s + if s.found i (n * 256 + m * 8) = 1 then 1 else 0 := by
  rw [windowErrors, List.range_succ, List.filter_append, List.length_append, windowErrors]
  by_cases h : s.found i (n * 256 + m * 8) = 1 <;> simp [h]

/-- The first `m` ECC words of window `n` are borrowed. -/
structure Borrowed (i n m : Nat) (s t : State) : Prop where
  parts : t = { s with regs := t.regs, mem := t.mem }
  memOk : MemOk t
  fixed : t.f (ISL_PATROL_CNT.CEFIX i) = min (s.f (ISL_PATROL_CNT.CEFIX i) + windowErrors i n m s) (ISL_PATROL_CNT.CEFIX i).max
  fields : FieldsBut [ISL_PATROL_CNT.CEFIX i] s t
  ecc : ∀ j, j < m → t.ecc (islMemBase i + (n * 256 + j * 8)) = if 2 ≤ s.found i (n * 256 + j * 8) then 2 else 0
  bytes : BytesBut (fun x => ∃ j, j < m ∧ x = eccKey (islMemBase i + (n * 256 + j * 8))) s t

theorem Borrowed.none {i n : Nat} {s : State} (h : MemOk s) : Borrowed i n 0 s s where
  parts := rfl
  memOk := h
  fixed := (Nat.min_eq_left (f_le_max s _)).symm
  fields := .refl _ s
  ecc := fun _ hj => absurd hj (Nat.not_lt_zero _)
  bytes := fun _ _ => rfl

theorem byte_setEcc {a n : Nat} {s : State} (b : Nat) (h : MemOk s) : (s.setEcc a n).byte b = if b = eccKey a then BitVec.ofNat 8 n else s.byte b :=
  Memory.get_put _ _ _ _ h

/-- A word found sound is sound in memory. -/
theorem ecc_of_found_zero {i o : Nat} {s : State} (h : s.found i o = 0) : s.ecc (islMemBase i + o) = 0 := by
  simp only [State.found] at h
  split at h
  · exact h
  · split at h <;> omega

variable {i n m : Nat} {s t : State}

theorem eccKey_word_inj {a j k : Nat} : eccKey (a + (n * 256 + j * 8)) = eccKey (a + (n * 256 + k * 8)) ↔ j = k := by
  rw [eccKey_eq_iff]
  omega

/-- The window's next word is found as before. -/
theorem Borrowed.found (h : Borrowed i n m s t) (hi : islMemBase i + (n * 256 + m * 8) < 2 ^ 53) : t.found i (n * 256 + m * 8) = s.found i (n * 256 + m * 8) := by
  have hk : ISL_PATROL_STAT i ≠ ISL_PATROL_CNT i := by simp only [ISL_PATROL_STAT, ISL_PATROL_CNT]; omega
  have hf (y : RF) (hy : y.hi < 64) (hy' : y.key = ISL_PATROL_STAT i) : t.f y = s.f y :=
    h.fields y hy fun x hx => .of_key (by rw [List.mem_singleton.1 hx, hy']; exact hk)
  have he : t.ecc (islMemBase i + (n * 256 + m * 8)) = s.ecc (islMemBase i + (n * 256 + m * 8)) :=
    congrArg BitVec.toNat (h.bytes _ fun ⟨j, hj, e⟩ => Nat.ne_of_gt hj (eccKey_word_inj.1 e))
  have hc : t.badCells (islMemBase i + (n * 256 + m * 8)) = s.badCells (islMemBase i + (n * 256 + m * 8)) :=
    congrArg BitVec.toNat (h.bytes _ fun ⟨j, hj, e⟩ => cellKey_ne_eccKey (by omega) e)
  have hsh : t.shadowed i (n * 256 + m * 8) = s.shadowed i (n * 256 + m * 8) := by
    rw [State.shadowed, hf (ISL_PATROL_STAT.STEP i) (Nat.le_of_ble_eq_true rfl) rfl, hf (ISL_PATROL_STAT.WIN i) (Nat.le_of_ble_eq_true rfl) rfl, State.shadowed]
  simp only [State.found]
  rw [he, hc, hsh]

/-- What the borrow of a word does to its own ECC condition and to the count. -/
theorem Borrowed.step (h : Borrowed i n m s t) {u : State} {e c : Nat} (hm : MemOk u) (hp : u = { t with regs := u.regs, mem := u.mem })
    (hf : FieldsBut [ISL_PATROL_CNT.CEFIX i] t u) (hcnt : u.f (ISL_PATROL_CNT.CEFIX i) = min (t.f (ISL_PATROL_CNT.CEFIX i) + c) (ISL_PATROL_CNT.CEFIX i).max)
    (hb : ∀ b, u.byte b = if b = eccKey (islMemBase i + (n * 256 + m * 8)) then BitVec.ofNat 8 e else t.byte b) (he : e < 256)
    (hc : (if s.found i (n * 256 + m * 8) = 1 then 1 else 0) = c) (hs : (if 2 ≤ s.found i (n * 256 + m * 8) then 2 else 0) = e) : Borrowed i n (m + 1) s u where
  parts := by
    generalize u.regs = r, u.mem = q at hp
    rw [hp, h.parts]
  memOk := hm
  fixed := by rw [hcnt, h.fixed, windowErrors_succ, hc]; omega
  fields := h.fields.trans hf
  ecc j hj := by
    rw [State.ecc, hb]
    by_cases hjm : j = m
    · rw [if_pos (by rw [hjm]), hjm, hs, BitVec.toNat_ofNat, Nat.mod_eq_of_lt he]
    · rw [if_neg fun e => hjm (eccKey_word_inj.1 e)]
      exact h.ecc j (by omega)
  bytes x hx := by
    rw [hb, if_neg fun e => hx ⟨m, Nat.lt_succ_self m, e⟩]
    exact h.bytes x fun ⟨j, hj, e⟩ => hx ⟨j, by omega, e⟩

theorem Borrowed.succ (h : Borrowed i n m s t) (hi : islMemBase i + (n * 256 + m * 8) < 2 ^ 53) : Borrowed i n (m + 1) s (borrowWord i t (n * 256 + m * 8)) := by
  have hcf : RFok (ISL_PATROL_CNT.CEFIX i) = true := rfl
  have hfound := h.found hi
  have hput (e : Nat) : MemOk (t.setEcc (islMemBase i + (n * 256 + m * 8)) e) := Memory.put_wf _ _ _ h.memOk
  unfold borrowWord
  split
  next h0 =>
    have hs := hfound.symm.trans h0
    refine h.step h.memOk rfl (.refl _ t) (c := 0) (Nat.min_eq_left (f_le_max t _)).symm (e := 0) (fun b => ?_) (by decide) (by rw [hs]; rfl) (by rw [hs]; rfl)
    split
    next hb => rw [hb]; exact BitVec.eq_of_toNat_eq (ecc_of_found_zero h0)
    next => rfl
  next h1 =>
    have hs := hfound.symm.trans h1
    exact h.step (hput 0) rfl ((FieldsBut.of_regs rfl).setF _ hcf (by simp)) (f_bump (t.setEcc (islMemBase i + (n * 256 + m * 8)) 0) hcf) (fun b => byte_setEcc b h.memOk)
      (by decide) (by rw [hs]; rfl) (by rw [hs]; rfl)
  next h0 h1 =>
    have hs : 2 ≤ s.found i (n * 256 + m * 8) := by
      rw [← hfound]
      have h0' : t.found i (n * 256 + m * 8) ≠ 0 := h0
      have h1' : t.found i (n * 256 + m * 8) ≠ 1 := h1
      omega
    exact h.step (hput 2) rfl (.of_regs rfl) (c := 0) (Nat.min_eq_left (f_le_max t (ISL_PATROL_CNT.CEFIX i))).symm (fun b => byte_setEcc b h.memOk) (by decide) (if_neg (by omega)) (if_pos hs)

theorem borrowed_words (hm : MemOk s) (hi : islMemBase i + (n * 256 + m * 8) < 2 ^ 53) :
    Borrowed i n m s (((List.range m).map (fun k => n * 256 + k * 8)).foldl (borrowWord i) s) := by
  induction m with
  | zero => exact .none hm
  | succ m ih =>
    rw [List.range_succ, List.map_append, List.foldl_append]
    exact (ih (by omega)).succ (by omega)

theorem islMemBase_window {win : Nat} (i : Fin 156) (h : win < 1024) : islMemBase i + (win * 256 + 32 * 8) ≤ 2 ^ 33 := by
  have := i.isLt
  simp only [islMemBase]
  omega

theorem window_lt (i : Nat) (s : State) : s.f (ISL_PATROL_STAT.WIN i) < 1024 := f_lt s (ISL_PATROL_STAT.WIN i)

theorem borrowed_window (i : Fin 156) {s : State} (hm : MemOk s) :
    Borrowed i (s.f (ISL_PATROL_STAT.WIN i)) 32 s ((windowWords (s.f (ISL_PATROL_STAT.WIN i))).foldl (borrowWord i) s) := by
  have hwin := islMemBase_window i (window_lt i s)
  rw [windowWords]
  exact borrowed_words hm (by omega)

/-- What the engine's step adds to the borrow of the words. -/
theorem Borrowed.engine {win : Nat} (hb : Borrowed i win 32 s t) :
    let u := (t.setF (ISL_PATROL_STAT.ACTIVE i) 1).setF (ISL_PATROL_STAT.STEP i) 1
    u.f (ISL_PATROL_STAT.STEP i) = 1 ∧ u.f (ISL_PATROL_STAT.ACTIVE i) = 1 ∧
      u.f (ISL_PATROL_CNT.CEFIX i) = min (s.f (ISL_PATROL_CNT.CEFIX i) + windowErrors i win 32 s) (ISL_PATROL_CNT.CEFIX i).max ∧
      (∀ j, j < 32 → u.ecc (islMemBase i + win * 256 + j * 8) = if 2 ≤ s.found i (win * 256 + j * 8) then 2 else 0) ∧
      BytesBut (fun x => ∃ j, j < 32 ∧ x = eccKey (islMemBase i + win * 256 + j * 8)) s u ∧
      FieldsBut [ISL_PATROL_STAT.STEP i, ISL_PATROL_STAT.ACTIVE i, ISL_PATROL_CNT.CEFIX i] s u ∧ u = { s with regs := u.regs, mem := u.mem } := by
  intro u
  have hact : RFok (ISL_PATROL_STAT.ACTIVE i) = true := rfl
  have hstep : RFok (ISL_PATROL_STAT.STEP i) = true := rfl
  have hk : ISL_PATROL_CNT i ≠ ISL_PATROL_STAT i := by simp only [ISL_PATROL_STAT, ISL_PATROL_CNT]; omega
  have hmem : u.mem = t.mem := rfl
  have hbyte (x : Nat) : u.byte x = t.byte x := by rw [State.byte, hmem, State.byte]
  refine ⟨f_setF_fits _ hstep (show 1 < 8 by decide), ?_, ?_, fun j hj => ?_, fun x hx => ?_, ?_, ?_⟩
  · rw [f_setF_ne _ _ hstep (Nat.le_of_ble_eq_true rfl) (.inr (.inl (Nat.le_of_ble_eq_true rfl)))]
    exact f_setF_fits _ hact (show 1 < 2 by decide)
  · rw [f_setF_ne _ _ hstep (Nat.le_of_ble_eq_true rfl) (.of_key hk), f_setF_ne _ _ hact (Nat.le_of_ble_eq_true rfl) (.of_key hk)]
    exact hb.fixed
  · rw [Nat.add_assoc, State.ecc, hbyte]
    exact hb.ecc j hj
  · rw [hbyte]
    exact hb.bytes x fun ⟨j, hj, e⟩ => hx ⟨j, hj, by rw [Nat.add_assoc]; exact e⟩
  · exact ((hb.fields.mono (by simp)).setF _ hact (by simp)).setF _ hstep (by simp)
  · exact (((RegsMem.of_eq hb.parts).setF _ 1).setF _ 1).eq

/-! ### The march -/

/-- A cell that fails the march is counted, recorded when it is the first, and faulty from then on. -/
theorem patrolMarch_one (i : Fin 156) (k : Fin 32) (b : Fin 80) {s : State} (hm : MemOk s) :
    let win := s.f (ISL_PATROL_STAT.WIN i)
    let a := islMemBase i + win * 256 + k.val * 8
    let t := patrolMarch i [(k, b)] s
    t.f (ISL_PATROL_STAT.STEP i) = 2 ∧ (s.badCells a = 0 → t.badCells a = b.val + 1) ∧ BytesBut (fun x => x = cellKey a) s t ∧
      t.f (ISL_PATROL_CNT.FAULTS i) = min (s.f (ISL_PATROL_CNT.FAULTS i) + 1) 65535 ∧
      (s.f (ISL_PATROL_CNT.FAULTS i) = 0 → t.f (ISL_PATROL_FAULT.VALID i) = 1 ∧ t.f (ISL_PATROL_FAULT.BIT i) = b.val ∧
        t.f (ISL_PATROL_FAULT.BADDR i) = win * 256 + k.val * 8) := by
  intro win a t
  have hwin := window_lt i s
  have hstep : RFok (ISL_PATROL_STAT.STEP i) = true := rfl
  have hfau : RFok (ISL_PATROL_CNT.FAULTS i) = true := rfl
  have hcs : ISL_PATROL_CNT i ≠ ISL_PATROL_STAT i := by simp only [ISL_PATROL_STAT, ISL_PATROL_CNT]; omega
  have hcf : ISL_PATROL_CNT i ≠ ISL_PATROL_FAULT i := by simp only [ISL_PATROL_FAULT, ISL_PATROL_CNT]; omega
  have hsf : ISL_PATROL_STAT i ≠ ISL_PATROL_FAULT i := by simp only [ISL_PATROL_FAULT, ISL_PATROL_STAT]; omega
  let s₁ := s.setF (ISL_PATROL_STAT.STEP i) 2
  let v := BitVec.ofNat 64 (2 ^ 31 + b.val * 2 ^ 18 + (win * 256 + k.val * 8))
  let s₂ := if s₁.f (ISL_PATROL_CNT.FAULTS i) = 0 then s₁.wr (ISL_PATROL_FAULT i) v else s₁
  let s₃ := s₂.bump (ISL_PATROL_CNT.FAULTS i)
  have h₃ : s₃ = s₂.setF (ISL_PATROL_CNT.FAULTS i) (min (s₂.f (ISL_PATROL_CNT.FAULTS i) + 1) (ISL_PATROL_CNT.FAULTS i).max) := rfl
  have hw : s₁.f (ISL_PATROL_STAT.WIN i) = win := f_setF_ne s 2 hstep (Nat.le_of_ble_eq_true rfl) (.inr (.inr (Nat.le_of_ble_eq_true rfl)))
  let u := markCell (islMemBase i + (win * 256 + k.val * 8)) b s₃
  have ha : a = islMemBase i + (win * 256 + k.val * 8) := Nat.add_assoc ..
  have e : t = logErr 0x0103 (u.islPart i) (srcOf 0 i) (u.rd (ISL_PATROL_FAULT i)) 0 u := by
    show patrolFault i (k, b) s₁ = _
    simp only [patrolFault, hw]
    rfl
  have hl := logErr_logOnly 0x0103 (u.islPart i) (srcOf 0 i) (u.rd (ISL_PATROL_FAULT i)) 0 u
  have h₂mem : s₂.mem = s.mem := by simp only [s₂]; split <;> rfl
  have hf (y : RF) (hy : OffLog y.key) : t.f y = s₃.f y := by rw [e]; exact hl.f hy
  have hc₁ : s₁.f (ISL_PATROL_CNT.FAULTS i) = s.f (ISL_PATROL_CNT.FAULTS i) := f_setF_ne s 2 hstep (Nat.le_of_ble_eq_true rfl) (.of_key hcs)
  have hc₂ : s₂.f (ISL_PATROL_CNT.FAULTS i) = s.f (ISL_PATROL_CNT.FAULTS i) := by
    simp only [s₂]
    split
    · exact (f_wr_ne _ _ hcf).trans hc₁
    · exact hc₁
  have hbyte (x : Nat) : t.byte x = if x = cellKey a then BitVec.ofNat 8 (if s.badCells a = 0 ∨ s.badCells a = b.val + 1 then b.val + 1 else 255) else s.byte x := by
    have hbad : s₃.badCells a = s.badCells a := by
      show (Memory.get s₂.mem (cellKey a)).toNat = _
      rw [h₂mem]
      rfl
    have hu : u.mem = Memory.put s₂.mem (cellKey a) (BitVec.ofNat 8 (if s₃.badCells a = 0 ∨ s₃.badCells a = b.val + 1 then b.val + 1 else 255)) := by
      rw [ha]
      rfl
    rw [e, State.byte, hl.mem, hu, hbad]
    rw [h₂mem, Memory.get_put _ _ _ _ hm]
    rfl
  refine ⟨?_, fun h0 => ?_, fun x hx => ?_, ?_, fun h0 => ?_⟩
  · rw [hf _ offLog_island, h₃, f_setF_ne _ _ hfau (Nat.le_of_ble_eq_true rfl) (.of_key hcs.symm)]
    simp only [s₂]
    split
    · rw [f_wr_ne _ _ hsf]
      exact f_setF_fits s hstep (show 2 < 8 by decide)
    · exact f_setF_fits s hstep (show 2 < 8 by decide)
  · have := b.isLt
    rw [State.badCells, hbyte, if_pos rfl, if_pos (.inl h0), BitVec.toNat_ofNat]
    omega
  · rw [hbyte, if_neg hx]
  · rw [hf _ offLog_island, f_bump _ hfau, hc₂]
    rfl
  · have hr : s₂ = s₁.wr (ISL_PATROL_FAULT i) v := if_pos (hc₁.trans h0)
    have hrec (y : RF) (hy : y.hi < 64) (hyk : y.key = ISL_PATROL_FAULT i) :
        t.f y = bitsOf (2 ^ 31 + b.val * 2 ^ 18 + (win * 256 + k.val * 8)) y.hi y.lo := by
      rw [hf _ (by rw [hyk]; exact offLog_island), h₃, f_setF_ne _ _ hfau hy (.of_key (by rw [hyk]; exact hcf.symm)), hr, State.f, hyk, State.rd_wr, if_pos rfl,
        getBits_ofNat hy]
    have hb := b.isLt
    have hk := k.isLt
    refine ⟨?_, ?_, ?_⟩
    · rw [hrec (ISL_PATROL_FAULT.VALID i) (Nat.le_of_ble_eq_true rfl) rfl]
      simp only [ISL_PATROL_FAULT.VALID, bitsOf]
      omega
    · rw [hrec (ISL_PATROL_FAULT.BIT i) (Nat.le_of_ble_eq_true rfl) rfl]
      simp only [ISL_PATROL_FAULT.BIT, bitsOf]
      omega
    · rw [hrec (ISL_PATROL_FAULT.BADDR i) (Nat.le_of_ble_eq_true rfl) rfl]
      simp only [ISL_PATROL_FAULT.BADDR, bitsOf]
      omega

/-! ### The return -/

/-- The engine moves to the next window, and counts the sweep that ends. -/
theorem patrolReturn_fields (i : Nat) (s : State) :
    let win := s.f (ISL_PATROL_STAT.WIN i)
    let t := patrolReturn i s
    t.f (ISL_PATROL_STAT.STEP i) = 0 ∧ t.f (ISL_PATROL_STAT.ACTIVE i) = 0 ∧ t.f (ISL_PATROL_STAT.WIN i) = (win + 1) % 1024 ∧
      t.f (ISL_PATROL_STAT.SWEEPS i) = (if win = 1023 then (s.f (ISL_PATROL_STAT.SWEEPS i) + 1) % 1024 else s.f (ISL_PATROL_STAT.SWEEPS i)) ∧
      OnlyFields [ISL_PATROL_STAT.STEP i, ISL_PATROL_STAT.ACTIVE i, ISL_PATROL_STAT.WIN i, ISL_PATROL_STAT.SWEEPS i] s t := by
  intro win
  have hact : RFok (ISL_PATROL_STAT.ACTIVE i) = true := rfl
  have hstep : RFok (ISL_PATROL_STAT.STEP i) = true := rfl
  have hwin : RFok (ISL_PATROL_STAT.WIN i) = true := rfl
  have hsw : RFok (ISL_PATROL_STAT.SWEEPS i) = true := rfl
  let s₁ := (((s.setF (ISL_PATROL_STAT.ACTIVE i) 0).setF (ISL_PATROL_STAT.STEP i) 0).setF (ISL_PATROL_STAT.WIN i) ((win + 1) % 1024))
  have h₁ : OnlyFields [ISL_PATROL_STAT.STEP i, ISL_PATROL_STAT.ACTIVE i, ISL_PATROL_STAT.WIN i, ISL_PATROL_STAT.SWEEPS i] s s₁ :=
    ⟨rfl, (((FieldsBut.refl _ s).setF _ hact (by simp)).setF _ hstep (by simp)).setF _ hwin (by simp)⟩
  have hmod : (win + 1) % 1024 < 2 ^ 10 := Nat.mod_lt _ (by decide)
  have s1step : s₁.f (ISL_PATROL_STAT.STEP i) = 0 := by
    rw [f_setF_ne _ _ hwin (Nat.le_of_ble_eq_true rfl) (.inr (.inl (Nat.le_of_ble_eq_true rfl)))]
    exact f_setF_fits _ hstep (show 0 < 8 by decide)
  have s1act : s₁.f (ISL_PATROL_STAT.ACTIVE i) = 0 := by
    rw [f_setF_ne _ _ hwin (Nat.le_of_ble_eq_true rfl) (.inr (.inl (Nat.le_of_ble_eq_true rfl))),
      f_setF_ne _ _ hstep (Nat.le_of_ble_eq_true rfl) (.inr (.inl (Nat.le_of_ble_eq_true rfl)))]
    exact f_setF_fits _ hact (show 0 < 2 by decide)
  have s1win : s₁.f (ISL_PATROL_STAT.WIN i) = (win + 1) % 1024 := f_setF_fits _ hwin hmod
  have s1sw : s₁.f (ISL_PATROL_STAT.SWEEPS i) = s.f (ISL_PATROL_STAT.SWEEPS i) := by
    rw [f_setF_ne _ _ hwin (Nat.le_of_ble_eq_true rfl) (.inr (.inl (Nat.le_of_ble_eq_true rfl))),
      f_setF_ne _ _ hstep (Nat.le_of_ble_eq_true rfl) (.inr (.inr (Nat.le_of_ble_eq_true rfl))),
      f_setF_ne _ _ hact (Nat.le_of_ble_eq_true rfl) (.inr (.inr (Nat.le_of_ble_eq_true rfl)))]
  by_cases h : win = 1023
  · have e : patrolReturn i s = s₁.setF (ISL_PATROL_STAT.SWEEPS i) ((s₁.f (ISL_PATROL_STAT.SWEEPS i) + 1) % 1024) := if_pos h
    rw [e, s1sw, if_pos h]
    refine ⟨?_, ?_, ?_, ?_, rfl, h₁.2.setF _ hsw (by simp)⟩
    · rw [f_setF_ne _ _ hsw (Nat.le_of_ble_eq_true rfl) (.inr (.inl (Nat.le_of_ble_eq_true rfl))), s1step]
    · rw [f_setF_ne _ _ hsw (Nat.le_of_ble_eq_true rfl) (.inr (.inl (Nat.le_of_ble_eq_true rfl))), s1act]
    · rw [f_setF_ne _ _ hsw (Nat.le_of_ble_eq_true rfl) (.inr (.inr (Nat.le_of_ble_eq_true rfl))), s1win]
    · exact f_setF_fits _ hsw (Nat.mod_lt _ (by decide))
  · have e : patrolReturn i s = s₁ := if_neg h
    rw [e, if_neg h]
    exact ⟨s1step, s1act, s1win, s1sw, h₁⟩

/-! ### The commands -/

section
variable {i : Fin 156} {s : State} (h : s.islRuns i = true)
include h

theorem exec_patrolBorrow (h0 : s.f (ISL_PATROL_STAT.STEP i) = 0) (he : s.f (ISL_PATROL_CTL.EN i) = 1) : exec (.patrolWindow i .borrow) s = .next (patrolBorrow i s) := by
  show execPatrolWindow i .borrow s = _
  simp only [execPatrolWindow, h, h0, (on_iff_one (x := ISL_PATROL_CTL.EN i) rfl).2 he, Bool.not_true, Bool.false_eq_true, if_false, if_true]

theorem exec_patrolMarch (faults : List (Fin 32 × Fin 80)) (h1 : s.f (ISL_PATROL_STAT.STEP i) = 1) :
    exec (.patrolWindow i (.march faults)) s = .next (patrolMarch i faults s) := by
  show execPatrolWindow i (.march faults) s = _
  simp only [execPatrolWindow, h, h1, Bool.not_true, Bool.false_eq_true, if_false]

theorem exec_patrolWriteBack (h2 : s.f (ISL_PATROL_STAT.STEP i) = 2) : exec (.patrolWindow i .writeBack) s = .next (s.setF (ISL_PATROL_STAT.STEP i) 3) := by
  show execPatrolWindow i .writeBack s = _
  simp only [execPatrolWindow, h, h2, Bool.not_true, Bool.false_eq_true, if_false]

theorem exec_patrolReturn (h3 : s.f (ISL_PATROL_STAT.STEP i) = 3) : exec (.patrolWindow i .ret) s = .next (patrolReturn i s) := by
  show execPatrolWindow i .ret s = _
  simp only [execPatrolWindow, h, h3, Bool.not_true, Bool.false_eq_true, if_false]

end

theorem setStep_only (i n : Nat) (s : State) : OnlyFields [ISL_PATROL_STAT.STEP i] s (s.setF (ISL_PATROL_STAT.STEP i) n) :=
  ⟨rfl, (FieldsBut.refl _ s).setF _ rfl (by simp)⟩

end Sys2Proof.Proofs
end

