-- ==== Sys2Proof/Proofs/IslandMemory.lean ====
section
/-!
PROOFS. Proofs/IslandMemory.lean: the registers of an island that a command clears or latches, and the port and patrol of its memory (R80, R154).
-/
namespace Sys2Proof.Proofs
open Sys2Proof.Machine Sys2Proof.Safety

/-! ### Registers -/

/-- An island's register, written 0 whole. -/
theorem wr_zero_only (s : State) (k : Nat) : (s.wr k 0).rd k = 0 ∧ OnlyFields [whole k] s (s.wr k 0) :=
  ⟨by simp, rfl, (FieldsBut.refl _ s).wr 0 (by simp)⟩

theorem islWrite_clocked {i key : Nat} {g : State → State} {s : State} (h : s.islClk i = true) : islWrite i key g s = g s := if_pos h

theorem latchGuard_fields (i : Nat) (n : Fin 16) (s : State) :
    let t := latchGuard i n s
    t.f (ISL_WU_ACC_HI.GUARD i n) = ((s.getWu i n).acc.extractLsb' 64 8).toNat ∧ t.f (ISL_WU_ACC_HI.PIN i n) = b2n (s.getWu i n).pinned ∧
      OnlyFields [ISL_WU_ACC_HI.GUARD i n, ISL_WU_ACC_HI.PIN i n] s t := by
  have hg : RFok (ISL_WU_ACC_HI.GUARD i n) = true := rfl
  have hp : RFok (ISL_WU_ACC_HI.PIN i n) = true := rfl
  refine ⟨?_, ?_, rfl, ((FieldsBut.refl _ s).setF _ hg (by simp)).setF _ hp (by simp)⟩
  · rw [latchGuard, f_setF_ne _ _ hp (Nat.le_of_ble_eq_true rfl) (.inr (.inr (Nat.le_of_ble_eq_true rfl))), BitVec.extractLsb'_toNat, Nat.shiftRight_eq_div_pow]
    exact f_setF_self _ _ hg
  · exact f_setF_fits _ hp (show b2n (s.getWu i n).pinned < 2 by cases (s.getWu i n).pinned <;> decide)

/-- A read of the lower part of an accumulator latches the rest. -/
theorem exec_accLoRead {i : Fin 156} (n : Fin 16) {s : State} (h : s.islClk i = true) :
    ∃ t, exec (.accLoRead i n false) s = .next t ∧ t.out = s.out ++ [.read ((s.getWu i n).acc.setWidth 64)] ∧
      t.f (ISL_WU_ACC_HI.GUARD i n) = ((s.getWu i n).acc.extractLsb' 64 8).toNat ∧ t.f (ISL_WU_ACC_HI.PIN i n) = b2n (s.getWu i n).pinned ∧
      FieldsBut [ISL_WU_ACC_HI.GUARD i n, ISL_WU_ACC_HI.PIN i n] s t ∧ t = { s with regs := t.regs, out := t.out } := by
  obtain ⟨hguard, hpin, honly⟩ := latchGuard_fields i n s
  have e : exec (.accLoRead i n false) s = .next ((latchGuard i n s).emit (.read ((s.getWu i n).acc.setWidth 64))) := by
    show execAccLoRead i n false s = _
    simp only [execAccLoRead, h, if_true, Bool.false_eq_true, if_false, BitVec.ofNat_toNat]
  generalize latchGuard i n s = u at hguard hpin honly e
  obtain ⟨r, rfl⟩ := OnlyFields.regs honly
  exact ⟨_, e, rfl, hguard, hpin, honly.2, rfl⟩

/-- One event of the field logic array and its counter cleared. -/
def clearEvent (i : Nat) (s : State) (k : Nat) : State := (s.setF ((ISL_FLA_EVT.EV i).bit k) 0).setF ((whole (ISL_FLA_EVCNT i)).elem 8 k) 0

/-- The fields that a write of `ISL_FLA_EVT` can clear. -/
def eventFields (i : Nat) : List RF := [ISL_FLA_EVT.EV i, whole (ISL_FLA_EVCNT i)]

theorem flaEvtClear_eq (i bits : Nat) (s : State) : flaEvtClear i bits s = (onesOf 8 bits).foldl (clearEvent i) s := rfl

theorem clearEvent_spec {i j k : Nat} (s : State) (hj : j < 8) (hk : k < 8) :
    (clearEvent i s k).f ((ISL_FLA_EVT.EV i).bit j) = (if j = k then 0 else s.f ((ISL_FLA_EVT.EV i).bit j)) ∧
      (clearEvent i s k).f ((whole (ISL_FLA_EVCNT i)).elem 8 j) = (if j = k then 0 else s.f ((whole (ISL_FLA_EVCNT i)).elem 8 j)) := by
  have hne : ISL_FLA_EVT i ≠ ISL_FLA_EVCNT i := by simp only [ISL_FLA_EVT, ISL_FLA_EVCNT]; omega
  have hb : RFok ((ISL_FLA_EVT.EV i).bit k) = true := RFok_iff.2 ⟨Nat.le_refl _, by simp only [RF.bit, ISL_FLA_EVT.EV]; omega⟩
  have hc : RFok ((whole (ISL_FLA_EVCNT i)).elem 8 k) = true := RFok_iff.2 ⟨by simp only [RF.elem]; omega, by simp only [RF.elem, whole]; omega⟩
  have hb64 : ((ISL_FLA_EVT.EV i).bit j).hi < 64 := by simp only [RF.bit, ISL_FLA_EVT.EV]; omega
  have hc64 : ((whole (ISL_FLA_EVCNT i)).elem 8 j).hi < 64 := by simp only [RF.elem, whole]; omega
  rw [clearEvent, f_setF_ne _ _ hc hb64 (.of_key hne)]
  by_cases h : j = k
  · subst h
    rw [if_pos rfl, if_pos rfl, f_setF_self _ _ hb, f_setF_self _ _ hc]
    exact ⟨Nat.zero_mod _, Nat.zero_mod _⟩
  · rw [if_neg h, if_neg h, f_setF_ne _ _ hb hb64 (by simp only [Apart, RF.bit, ISL_FLA_EVT.EV]; omega),
      f_setF_ne _ _ hc hc64 (by simp only [Apart, RF.elem, whole]; omega), f_setF_ne _ _ hb hc64 (.of_key hne.symm)]
    exact ⟨rfl, rfl⟩

theorem clearEvent_only {i k : Nat} (s : State) (hk : k < 8) : OnlyFields (eventFields i) s (clearEvent i s k) := by
  have hb : RFok ((ISL_FLA_EVT.EV i).bit k) = true := RFok_iff.2 ⟨Nat.le_refl _, by simp only [RF.bit, ISL_FLA_EVT.EV]; omega⟩
  have hc : RFok ((whole (ISL_FLA_EVCNT i)).elem 8 k) = true := RFok_iff.2 ⟨by simp only [RF.elem]; omega, by simp only [RF.elem, whole]; omega⟩
  refine ⟨rfl, ((FieldsBut.refl _ s).setF_within 0 hb (x' := ISL_FLA_EVT.EV i) (by simp [eventFields]) rfl ?_ ?_).setF_within 0 hc (x' := whole (ISL_FLA_EVCNT i))
    (by simp [eventFields]) rfl ?_ ?_⟩
  all_goals simp only [RF.bit, RF.elem, whole, ISL_FLA_EVT.EV]; omega

/-- Events cleared one after the other. -/
theorem clearEvents_spec {i j : Nat} (hj : j < 8) (ks : List Nat) (hk : ∀ k ∈ ks, k < 8) (s : State) :
    (ks.foldl (clearEvent i) s).f ((ISL_FLA_EVT.EV i).bit j) = (if j ∈ ks then 0 else s.f ((ISL_FLA_EVT.EV i).bit j)) ∧
      (ks.foldl (clearEvent i) s).f ((whole (ISL_FLA_EVCNT i)).elem 8 j) = (if j ∈ ks then 0 else s.f ((whole (ISL_FLA_EVCNT i)).elem 8 j)) := by
  induction ks generalizing s with
  | nil => simp
  | cons k ks ih =>
    obtain ⟨h₁, h₂⟩ := ih (fun x hx => hk x (List.mem_cons_of_mem _ hx)) (clearEvent i s k)
    obtain ⟨c₁, c₂⟩ := clearEvent_spec (i := i) s hj (hk k List.mem_cons_self)
    rw [List.foldl_cons, h₁, h₂, c₁, c₂]
    by_cases hm : j ∈ ks <;> by_cases he : j = k <;> simp [hm, he]

theorem clearEvents_only {i : Nat} (ks : List Nat) (hk : ∀ k ∈ ks, k < 8) (s : State) : OnlyFields (eventFields i) s (ks.foldl (clearEvent i) s) := by
  induction ks generalizing s with
  | nil => exact ⟨rfl, .refl _ s⟩
  | cons k ks ih => exact (clearEvent_only s (hk k List.mem_cons_self)).trans (ih (fun x hx => hk x (List.mem_cons_of_mem _ hx)) _)

theorem mem_onesOf {w v j : Nat} : j ∈ onesOf w v ↔ j < w ∧ v.testBit j = true := by
  rw [onesOf, List.mem_filter, List.mem_range, bitOf_eq_testBit]

/-- Settles O41: the port by what one access does to a sound word, the patrol word by word, the registers by the fields that each command writes. -/
theorem islandMemoryPortAndPatrol : Obligations.IslandMemoryPortAndPatrol := by
  unfold Obligations.IslandMemoryPortAndPatrol
  intro i n off size data tags bits host clash k b s a read win ps cell
  refine ⟨fun h => ⟨exec_port_stopped _ _ h, exec_port_stopped _ _ h⟩, fun h hq p => exec_port_behind p clash h hq, fun h hq ho hs => ?_, fun hal h hq hp hi hm hc => ⟨?_, ?_⟩,
    fun h => ⟨fun h0 he hm => ?_, fun h1 => ⟨?_, fun hm => ?_⟩, fun h2 => ?_, fun h3 => ?_⟩, fun h => ⟨?_, ?_, exec_accLoRead n h, ?_⟩⟩
  · exact exec_port_read clash ⟨h, hq⟩ ho hs
  · exact exec_port_write data tags host ⟨h, hq⟩ hal hp hi hm hc
  · exact exec_port_collided data tags host ⟨h, hq⟩ hal hp
  · exact ⟨_, (exec_patrolBorrow h h0 he).trans (congrArg _ (patrolBorrow_eq i s)), (borrowed_window i hm).engine⟩
  · exact ⟨_, exec_patrolMarch h [] h1, f_setF_fits s rfl (show 2 < 8 by decide), setStep_only i 2 s⟩
  · exact ⟨_, exec_patrolMarch h [(k, b)] h1, patrolMarch_one i k b hm⟩
  · exact ⟨_, exec_patrolWriteBack h h2, f_setF_fits s rfl (show 3 < 8 by decide), setStep_only i 3 s⟩
  · exact ⟨_, exec_patrolReturn h h3, patrolReturn_fields i s⟩
  · exact ⟨_, congrArg Host.Outcome.next (islWrite_clocked h), wr_zero_only s _⟩
  · exact ⟨_, congrArg Host.Outcome.next (islWrite_clocked h), wr_zero_only s _⟩
  · have hk : ∀ k ∈ onesOf 8 bits.toNat, k < 8 := fun k hk => (mem_onesOf.1 hk).1
    refine ⟨flaEvtClear i bits.toNat s, congrArg Host.Outcome.next (islWrite_clocked h), fun j hj => ?_, clearEvents_only _ hk s⟩
    have hm : (j ∈ onesOf 8 bits.toNat) ↔ bits.getLsbD j = true := by
      rw [mem_onesOf, ← BitVec.testBit_toNat]
      exact and_iff_right hj
    obtain ⟨h₁, h₂⟩ := clearEvents_spec (i := i) hj _ hk s
    rw [flaEvtClear_eq, h₁, h₂]
    simp only [hm, and_self]

end Sys2Proof.Proofs
end

