-- ==== Sys2Proof/Proofs/SeqControl.lean ====
section
/-!
PROOFS. Proofs/SeqControl.lean: a write of RUN and the reset of a sequencer, the fetch of a block from its bank, and a single step (R26, R194, R195, R210, R211).
-/
namespace Sys2Proof.Machine

/-- The low bytes of a number. -/
theorem Memory.num_mod (m : Memory) (a : Nat) {n j : Nat} (h : j ≤ n) : Memory.num m a n % 256 ^ j = Memory.num m a j := by
  induction j generalizing a n with
  | zero => rw [Nat.pow_zero, Nat.mod_one, Memory.num_zero]
  | succ j ih =>
    obtain ⟨n, rfl⟩ := Nat.exists_eq_succ_of_ne_zero (show n ≠ 0 by omega)
    have hb := (Memory.get m a).isLt
    rw [Memory.num_succ, Memory.num_succ, Nat.pow_succ', Nat.mod_mul, ← ih (a + 1) (n := n) (by omega),
      show ((Memory.get m a).toNat + 256 * Memory.num m (a + 1) n) / 256 = Memory.num m (a + 1) n by omega,
      show ((Memory.get m a).toNat + 256 * Memory.num m (a + 1) n) % 256 = (Memory.get m a).toNat by omega]

/-- The bytes from the `k`-th on of a number. -/
theorem Memory.num_div (m : Memory) (a : Nat) {n k : Nat} (h : k ≤ n) : Memory.num m a n / 256 ^ k = Memory.num m (a + k) (n - k) := by
  induction k generalizing a n with
  | zero => simp
  | succ k ih =>
    obtain ⟨n, rfl⟩ := Nat.exists_eq_succ_of_ne_zero (show n ≠ 0 by omega)
    have hb := (Memory.get m a).isLt
    rw [Memory.num_succ, Nat.pow_succ', ← Nat.div_div_eq_div_mul, show ((Memory.get m a).toNat + 256 * Memory.num m (a + 1) n) / 256 = Memory.num m (a + 1) n by omega,
      ih (a + 1) (by omega), Nat.add_right_comm, Nat.add_assoc, Nat.succ_sub_succ]

end Sys2Proof.Machine

namespace Sys2Proof.Proofs
open Sys2Proof.Machine Sys2Proof.Safety

/-! ### What follows the core -/

theorem partFollows_none {n : Nat} {s : State} (h : s.primaryOf n = none) : partFollows n s = s := by simp [partFollows, h]

/-- A RUNNING partition stops with its primary. -/
theorem partFollows_stops {n p : Nat} {s : State} (hp : s.primaryOf n = some p) (hs : s.f (GLB_PART_CFG.STATE p) = stRUNNING) (hq : (s.getSeq n).st = 1) :
    partFollows n s = s.setF (GLB_PART_CFG.STATE p) stSTOPPED := by
  have hne : ¬ (stRUNNING = stSTOPPED ∧ (1 : Nat) = 2) := by decide
  simp only [partFollows, hp, hs, hq, hne, if_false, true_or, or_true, and_self, if_true]

theorem laneResync_mem (l : Nat) (s : State) : (laneResync l s).mem = s.mem := by
  simp only [laneResync]
  split
  · split <;> rfl
  · rfl

theorem laneResyncs_mem (ls : List Nat) (s : State) : (ls.foldl (fun s l => laneResync l s) s).mem = s.mem := by
  induction ls generalizing s with
  | nil => rfl
  | cons l ls ih => rw [List.foldl_cons, ih, laneResync_mem]

theorem partFollows_mem (n : Nat) (s : State) : (partFollows n s).mem = s.mem := by
  unfold partFollows
  split
  · rfl
  · dsimp only
    split
    · exact laneResyncs_mem ..
    · split <;> rfl

/-! ### RUN and RESET (R210, R211) -/

/-- The core of sequencer `n` and its bit `RUN` are set. -/
def coreSet (n : Nat) (x : Seq) (run : Nat) (s : State) : State := (s.setF (SEQ_CTL.RUN n) run).setSeq n x

theorem getSeq_coreSet (n : Nat) (x : Seq) (run : Nat) (s : State) : (coreSet n x run s).getSeq n = x := by
  rw [coreSet, State.getSeq_setSeq, if_pos rfl]

theorem primaryOf_coreSet (n : Nat) (x : Seq) (run q : Nat) (s : State) : (coreSet n x run s).primaryOf q = s.primaryOf q :=
  (((Quiet.refl true s).setF run (.seqCtl n)).setSeq n x).primaryOf q

theorem f_coreSet {n : Nat} {x : Seq} {run : Nat} {y : RF} (s : State) (h : y.key < 0x200) : (coreSet n x run s).f y = s.f y := by
  rw [coreSet, State.f_setSeq, State.f_setF_other _ _ _ _ (by simp only [SEQ_CTL.RUN, SEQ_CTL]; omega)]

theorem state_key {p : Nat} (h : p < 12) : (GLB_PART_CFG.STATE p).key < 0x200 := by simp only [GLB_PART_CFG.STATE, GLB_PART_CFG]; omega

/-- A core that no partition follows is set, and nothing else. -/
theorem partFollows_coreSet_none {n run : Nat} {x : Seq} {s : State} (h : s.primaryOf n = none) : partFollows n (coreSet n x run s) = coreSet n x run s :=
  partFollows_none ((primaryOf_coreSet ..).trans h)

theorem getSeq_partFollows (n m : Nat) (s : State) : (partFollows n s).getSeq m = s.getSeq m := by
  unfold State.getSeq
  rw [(partFollows_keeps n s).1]

/-- The primary of a STOPPED partition is set running. -/
theorem partFollows_coreSet_starts {n p run : Nat} {x : Seq} {s : State} (hp : s.primaryOf n = some p) (hs : s.f (GLB_PART_CFG.STATE p) = stSTOPPED) (hx : x.st = 2) :
    let t := partFollows n (coreSet n x run s)
    t.getSeq n = x ∧ t.f (GLB_PART_CFG.STATE p) = stRUNNING ∧ t.mem = s.mem :=
  ⟨(getSeq_partFollows ..).trans (getSeq_coreSet ..),
    partFollows_starts ((primaryOf_coreSet ..).trans hp) ((f_coreSet s (state_key (primaryOf_lt hp))).trans hs) (by rw [getSeq_coreSet]; exact hx), partFollows_mem ..⟩

/-- The primary of a RUNNING partition is halted. -/
theorem partFollows_coreSet_stops {n p run : Nat} {x : Seq} {s : State} (hp : s.primaryOf n = some p) (hs : s.f (GLB_PART_CFG.STATE p) = stRUNNING) (hx : x.st = 1) :
    let t := partFollows n (coreSet n x run s)
    t.getSeq n = x ∧ t.f (GLB_PART_CFG.STATE p) = stSTOPPED ∧ t.mem = s.mem := by
  have hstop := partFollows_stops ((primaryOf_coreSet n x run n s).trans hp) ((f_coreSet s (state_key (primaryOf_lt hp))).trans hs) (by rw [getSeq_coreSet]; exact hx)
  refine ⟨(getSeq_partFollows ..).trans (getSeq_coreSet ..), ?_, partFollows_mem ..⟩
  rw [hstop]
  exact f_setF_fits _ rfl (show 2 < 8 by decide)

theorem seqRun_start {n : Nat} {s : State} (hpart : (s.seqPart n).isSome = true) (hst : (s.getSeq n).st = 1) :
    seqRun n true s = partFollows n (coreSet n { s.getSeq n with st := 2 } 1 s) := by
  have hnone : (s.seqPart n).isNone = false := by simpa using hpart
  simp only [seqRun, hnone, hst, Bool.false_eq_true, Nat.reduceEqDiff, or_self, if_false, if_true]
  rfl

theorem seqRun_halt {n : Nat} {s : State} (h : ((s.getSeq n).st = 2 ∧ (s.getSeq n).rptc = 0) ∨ (s.getSeq n).st = 3) :
    seqRun n false s = partFollows n (coreSet n { s.getSeq n with st := 1, wait := none } 0 s) := by
  simp only [seqRun, Bool.false_eq_true, if_false, h, if_true]
  rfl

/-- The core after its reset. -/
def seqAfterReset (n : Nat) (s : State) : Seq := { Seq.reset 1 (s.f (SEQ_BOOT.ADDR n) * 4) with dmaq := (s.getSeq n).dmaq }

theorem resetCore_eq (n : Nat) (s : State) : resetCore n s = partFollows n (coreSet n (seqAfterReset n s) 0 s) := rfl

theorem seqWrite_clocked {n key : Nat} {g : State → State} {s : State} (h : s.seqClk n = true) : seqWrite n key g s = g s := if_pos h

section
variable {n : Fin 24} {s : State} (h : s.seqClk n = true)
include h

theorem exec_seqRun (run : Bool) : exec (.seqRun n run) s = .next (seqRun n run s) := congrArg Host.Outcome.next (seqWrite_clocked h)
theorem exec_seqReset : exec (.seqReset n) s = .next (resetCore n s) := congrArg Host.Outcome.next (seqWrite_clocked h)
theorem exec_seqStep : exec (.seqStep n) s = .next (seqStep n (seqRun n false s)) := congrArg Host.Outcome.next (seqWrite_clocked h)

end

/-! ### The fetch (R194, R195) -/

section
variable {n : Nat} {s : State}

theorem bankEcc_sound {off : Nat} (h : s.ecc (bankBase n + off) = 0) : bankEcc n off s = (0, s) := by simp only [bankEcc, h]

/-- A sequencer that holds no block holds the one it fetches. -/
theorem holdBlock_empty (key b : Nat) (h : (s.getSeq n).blocks = []) : holdBlock n key b s = s.onSeq n (fun x => { x with blocks := [(key, b)] }) := by
  simp only [holdBlock, h, List.foldl_nil]
  rfl

/-- The word at PC, as it stands in the bank. -/
def bankWord (n : Nat) (s : State) : Nat := blockWord (Memory.num s.mem (bankBase n + (s.getSeq n).pc / 32 * 32) 32) (s.getSeq n).pc

theorem fetchNear_sound (h : NearBlock n s) : fetchNear n (s.getSeq n).pc s = (.ok (bankWord n s) true, holdingBlock n s) := by
  have he (k : Nat) (hk : k < 4) : bankEcc n ((s.getSeq n).pc / 32 * 32 + 8 * k) s = (0, s) := bankEcc_sound (by rw [← Nat.add_assoc]; exact h.sound k hk)
  have hr : (List.range 4).foldl (fun (acc : List Nat × State) k =>
      let (e, s) := bankEcc n ((s.getSeq n).pc / 32 * 32 + 8 * k) acc.2
      (acc.1 ++ [e], s)) ([], s) = ([0, 0, 0, 0], s) := by
    rw [show List.range 4 = [0, 1, 2, 3] from rfl]
    simp only [List.foldl_cons, List.foldl_nil, he 0 (by decide), he 1 (by decide), he 2 (by decide), he 3 (by decide), List.nil_append, List.cons_append]
  have hz : [0, 0, 0, 0].getD ((s.getSeq n).pc % 32 / 8) 0 ≠ 2 := by
    have : (s.getSeq n).pc % 32 / 8 < 4 := by omega
    generalize (s.getSeq n).pc % 32 / 8 = j at this
    interval_cases j <;> decide
  have hn : ([0, 0, 0, 0] : List Nat).contains 2 = false := rfl
  unfold fetchNear
  dsimp only
  rw [hr]
  simp only [hz, hn, if_false, Bool.false_eq_true, holdBlock_empty _ _ h.empty]
  rfl

theorem route_near (hw : (s.getSeq n).pc < 0x10_0000) (ha : s.lwAllows n (s.getSeq n).pc false = true) :
    route n (s.getSeq n).pc 3 s = (.local (s.getSeq n).pc, s) := by
  simp [route, inWindow, hw, ha]

/-- Outside a loop a fetch that finds its block in memory leaves it held. -/
theorem kFetch_nearBlock (h : NearBlock n s) (hl : (s.getSeq n).sb stLA = false) : kFetch n (s.getSeq n).pc s = (.ok (bankWord n s) true, holdingBlock n s) := by
  have hb : (s.getSeq n).inBody (s.getSeq n).pc = false := by simp [Seq.inBody, hl]
  simp only [kFetch, hb, Bool.false_eq_true, if_false, route_near h.window h.allowed, h.empty, Map.find, fetchNear_sound h]

/-- The core with the block of PC held. -/
theorem getSeq_holdingBlock : (holdingBlock n s).getSeq n =
    { s.getSeq n with blocks := [(fetchBlock false (s.getSeq n).pc, Memory.num s.mem (bankBase n + (s.getSeq n).pc / 32 * 32) 32)] } := by
  rw [holdingBlock, State.getSeq_onSeq, if_pos rfl]

/-- A block held raises no interrupt. -/
theorem irqPend_holdingBlock : (holdingBlock n s).irqPend n = s.irqPend n := by
  have hd : (holdingBlock n s).dmaPending n = s.dmaPending n := by
    simp only [State.dmaPending, getSeq_holdingBlock]
    rfl
  rw [State.irqPend, hd, getSeq_holdingBlock, State.irqPend]
  rfl

/-- Outside a loop a fetch from the held block of PC changes nothing. -/
theorem kFetch_holdingBlock (h : NearBlock n s) (hl : (s.getSeq n).sb stLA = false) :
    kFetch n (s.getSeq n).pc (holdingBlock n s) = (.ok (bankWord n s) true, holdingBlock n s) := by
  have hb : ((holdingBlock n s).getSeq n).inBody (s.getSeq n).pc = false := by
    rw [getSeq_holdingBlock]
    simp only [Seq.sb] at hl
    simp [Seq.inBody, Seq.sb, hl]
  have ha : (holdingBlock n s).lwAllows n (s.getSeq n).pc false = true := by
    have e : (holdingBlock n s).lwAllows n (s.getSeq n).pc false = s.lwAllows n (s.getSeq n).pc false := by
      rw [State.lwAllows, getSeq_holdingBlock]
      rfl
    rw [e, h.allowed]
  have hr : route n (s.getSeq n).pc 3 (holdingBlock n s) = (.local (s.getSeq n).pc, holdingBlock n s) := by
    simp [route, inWindow, h.window, ha]
  have hf : Map.find ((holdingBlock n s).getSeq n).blocks (fetchBlock false (s.getSeq n).pc) =
      some (Memory.num s.mem (bankBase n + (s.getSeq n).pc / 32 * 32) 32) := by
    rw [getSeq_holdingBlock]
    simp [Map.find]
  simp only [kFetch, hb, Bool.false_eq_true, if_false, hr, hf]
  rfl

/-! ### The issue -/

/-- Nothing comes before the instruction of a running core (R249, R250). -/
structure Undisturbed (n : Nat) (s : State) : Prop where
  running : (s.getSeq n).st = 2
  noCheck : (s.getSeq n).mcheck = none
  noDoze : s.dozes n = false
  noError : (s.getSeq n).holds = true ∨ (s.getSeq n).held = none
  noIrq : s.irqTaken n = none
  noAgain : (s.getSeq n).again = []

theorem atBoundary_undisturbed (h : Undisturbed n s) (g : State → State) : atBoundary n g s = g s := by
  have hc : takeCheck n s = s := by simp [takeCheck, h.noCheck, h.noDoze]
  have he : (if (s.getSeq n).holds then none else (s.getSeq n).held) = none := by
    rcases h.noError with e | e <;> simp [e]
  simp [atBoundary, h.running, hc, he, h.noIrq]

theorem Undisturbed.holdingBlock (h : Undisturbed n s) : Undisturbed n (holdingBlock n s) where
  running := by rw [getSeq_holdingBlock]; exact h.running
  noCheck := by rw [getSeq_holdingBlock]; exact h.noCheck
  noDoze := h.noDoze
  noError := by rw [getSeq_holdingBlock]; exact h.noError
  noIrq := by
    have e : (Safety.holdingBlock n s).irqTaken n = s.irqTaken n := by
      simp only [State.irqTaken, State.irqLine, irqPend_holdingBlock, getSeq_holdingBlock]
      rfl
    rw [e, h.noIrq]
  noAgain := by rw [getSeq_holdingBlock]; exact h.noAgain

/-- An undisturbed core issues what its fetch brings. -/
theorem issue_fetched {w : Nat} {t : State} (h : Undisturbed n s) (k : KIns) (hf : kFetch n (s.getSeq n).pc s = (.ok w true, t)) : issue n k s = issueFetched n k t := by
  have hi : s.issues n = true := by simp [State.issues, h.running]
  simp only [issue, hi, Bool.not_true, Bool.false_eq_true, if_false, atBoundary_undisturbed h, relaunch, h.noAgain, hf]

/-- A core that fetches a block issues as it does with the block held. -/
theorem issue_nearBlock (h : Undisturbed n s) (k : KIns) (hl : (s.getSeq n).sb stLA = false) (hb : NearBlock n s) : issue n k s = issue n k (holdingBlock n s) := by
  have hpc : ((holdingBlock n s).getSeq n).pc = (s.getSeq n).pc := by rw [getSeq_holdingBlock]
  rw [issue_fetched h k (kFetch_nearBlock hb hl), issue_fetched h.holdingBlock k (w := bankWord n s) (t := holdingBlock n s) (by rw [hpc]; exact kFetch_holdingBlock hb hl)]

/-- The word at PC, where PC is a multiple of 4. -/
theorem bankWord_eq (h : (s.getSeq n).pc % 4 = 0) : bankWord n s = Memory.num s.mem (bankBase n + (s.getSeq n).pc) 4 := by
  have hj : (s.getSeq n).pc % 32 ≤ 28 := by omega
  rw [bankWord, blockWord, Nat.pow_mul, show 2 ^ 32 = 256 ^ 4 by rfl, Memory.num_div _ _ (by omega), Memory.num_mod _ _ (by omega), Nat.add_assoc, Nat.div_add_mod']

end

/-! ### A step (R210) -/

/-- The word of `ADDI`. -/
def addiWord (rd ra : Fin 32) (imm : BitVec 16) : Nat := 0x02 * 2 ^ 26 + rd.val * 2 ^ 21 + ra.val * 2 ^ 16 + imm.toNat

theorem toNat_wordI {op d a imm : Nat} (ho : op < 2 ^ 6) (hd : d < 2 ^ 5) (ha : a < 2 ^ 5) (hi : imm < 2 ^ 16) :
    (wordI op d a imm).toNat = op * 2 ^ 26 + d * 2 ^ 21 + a * 2 ^ 16 + imm := by
  rw [wordI, BitVec.toNat_ofNat, Nat.mod_eq_of_lt hi, Nat.mod_eq_of_lt (by omega)]

theorem insPlain_addi (w : Nat) : insPlain 0x02 w = some (kImm 0x02 (bitsOf w 25 21) (bitsOf w 20 16) (w % 2 ^ 16)) := rfl

theorem addiWord_fields (rd ra : Fin 32) (imm : BitVec 16) : bitsOf (addiWord rd ra imm) 31 26 = 0x02 ∧ bitsOf (addiWord rd ra imm) 25 21 = rd ∧
    bitsOf (addiWord rd ra imm) 20 16 = ra ∧ addiWord rd ra imm % 2 ^ 16 = imm.toNat := by
  have hd := rd.isLt
  have ha := ra.isLt
  have hi := imm.isLt
  simp only [bitsOf, addiWord]
  omega

theorem insOf_addi (rd ra : Fin 32) (imm : BitVec 16) : insOf (addiWord rd ra imm) = some (kImm 0x02 rd ra imm.toNat) := by
  obtain ⟨hop, hrd, hra, himm⟩ := addiWord_fields rd ra imm
  have hw : (kImm 0x02 rd ra imm.toNat).word.toNat = addiWord rd ra imm := toNat_wordI (by decide) rd.isLt ra.isLt imm.isLt
  have hnear : insNear (addiWord rd ra imm) = some (kImm 0x02 rd ra imm.toNat) := by
    rw [insNear, hop, if_pos (by decide), insPlain_addi, hrd, hra, himm]
  rw [insOf, hnear]
  exact if_pos hw

/-- The immediate of `ADDI`, sign-extended. -/
theorem immFn_addi (a : Word) (imm : BitVec 16) : immFn 0x02 a imm.toNat = a + imm.signExtend 64 := by
  have h : sgn 16 imm.toNat = imm.toInt := by
    have hi := imm.isLt
    rw [BitVec.toInt_eq_toNat_cond, sgn, Nat.mod_eq_of_lt hi]
  show a + BitVec.ofInt 64 (sgn 16 imm.toNat) = _
  rw [h, BitVec.signExtend]

/-- A register write does not read whether a step goes on. -/
theorem Seq.put_setStepping (x : Seq) (k : Nat) (v : Word) (b : Bool) : Seq.put { x with stepping := b } k v = { x.put k v with stepping := b } := by
  have hp : Seq.place { x with stepping := b } k = x.place k := rfl
  rw [Seq.put, Seq.put, hp, Seq.putPlace, Seq.putPlace]
  by_cases h : x.place k = 0
  · rw [if_pos h, if_pos h]
  · rw [if_neg h, if_neg h]

section
variable {n : Nat} {s : State}

theorem onSeq_onSeq (g g' : Seq → Seq) (s : State) : (s.onSeq n g).onSeq n g' = s.onSeq n (g' ∘ g) := by
  simp only [State.onSeq, State.getSeq_setSeq, if_true, State.setSeq_setSeq, Function.comp_apply]

/-- A sequencer that no partition follows and that steps, outside a loop and a repeat, is over with its step when its instruction completes. -/
theorem finish_step (c : Nat) {x : Seq} (hst : x.st = 1) (hrp : x.sb stRP = false) (hm : x.macs = []) (hp : s.primaryOf n = none) :
    finish n c (s.setSeq n x) = s.setSeq n { x with cycle := (x.cycle + c) % 2 ^ 64, stepping := false } := by
  have hp' (y : Seq) : (s.setSeq n y).primaryOf n = none := hp
  simp only [finish, State.getSeq_setSeq, if_true, Seq.pass_empty x c hm, hst]
  simp only [Seq.sb] at hrp
  simp only [Seq.sb, hrp, Bool.and_false, Nat.reduceEqDiff, false_and, if_false, State.setSeq_setSeq]
  rw [partFollows_none (hp' _), ← hst]

/-- A step issues the instruction that its fetch brings. -/
theorem stepOnce_fetched {w : Nat} {k : KIns} {t : State} (hst : (s.getSeq n).st = 1) (hstep : (s.getSeq n).stepping = true) (ha : (s.getSeq n).again = [])
    (hf : kFetch n (s.getSeq n).pc s = (.ok w true, t)) (hk : insOf w = some k) : stepOnce n s = issueFetched n k t := by
  have hi : s.issues n = true := by simp [State.issues, hst, hstep]
  simp only [stepOnce, hi, Bool.not_true, Bool.false_eq_true, if_false, atBoundary, hst, ne_eq, Nat.reduceEqDiff, not_false_eq_true, and_self, if_true, relaunch, ha, hf, hk]

/-- An instruction outside a repeat, with nothing outstanding, runs once. -/
theorem issueFetched_once (k : KIns) (hw : ∀ e ∈ (s.getSeq n).soon, e.2 ≤ (s.getSeq n).cycle) (hl : (s.getSeq n).loads = []) (hrp : (s.getSeq n).sb stRP = false) :
    issueFetched n k s = runOnce n k s := by
  have h : landLoads n k.srcs s = s := by simp [landLoads, landRegs, Seq.interlock_none _ _ hw, hl]
  simp only [issueFetched, h, hrp, Bool.false_eq_true, if_false]

/-- `ADDI` in a step: the register is written, the next address follows, and the step is over. -/
theorem runOnce_addi (rd ra : Fin 32) (imm : BitVec 16) {x : Seq} (hst : x.st = 1) (hrp : x.sb stRP = false) (hla : x.sb stLA = false) (hm : x.macs = [])
    (hp : s.primaryOf n = none) : runOnce n (kImm 0x02 rd ra imm.toNat) (s.setSeq n x) =
      s.setSeq n { x.put rd (x.reg ra + imm.signExtend 64) with pc := (x.pc + 4) % 2 ^ 48, cycle := (x.cycle + 1) % 2 ^ 64, stepping := false } := by
  have hkr : (s.setSeq n x).kr n ra = x.reg ra := by rw [State.kr, State.getSeq_setSeq, if_pos rfl]
  have hla' : (x.put rd (x.reg ra + imm.signExtend 64)).sb stLA = false := by rw [Seq.sb, Seq.put_status]; exact hla
  have hrp' : (x.put rd (x.reg ra + imm.signExtend 64)).sb stRP = false := by rw [Seq.sb, Seq.put_status]; exact hrp
  have hbody : runOnce n (kImm 0x02 rd ra imm.toNat) (s.setSeq n x) =
      finish n 1 (((s.setSeq n x).kput n rd (immFn 0x02 ((s.setSeq n x).kr n ra) imm.toNat)).onSeq n Seq.advance) := rfl
  rw [hbody, hkr, immFn_addi]
  simp only [State.kput, State.onSeq, State.getSeq_setSeq, if_true, State.setSeq_setSeq, Seq.advance_plain _ hla']
  rw [finish_step 1 (x := { x.put rd (x.reg ra + imm.signExtend 64) with pc := ((x.put rd (x.reg ra + imm.signExtend 64)).pc + 4) % 2 ^ 48 })
    ((Seq.put_st ..).trans hst) hrp' ((Seq.put_macs ..).trans hm) hp, Seq.put_pc, Seq.put_cycle]

/-- A write of another register leaves the block near. -/
theorem nearBlock_setRun (h : NearBlock n s) (v : Nat) : NearBlock n (s.setF (SEQ_CTL.RUN n) v) where
  empty := h.empty
  window := h.window
  allowed := by
    have e : (s.setF (SEQ_CTL.RUN n) v).f (SEQ_LWPROT.URD n) = s.f (SEQ_LWPROT.URD n) :=
      State.f_setF_other _ _ _ _ (by simp only [SEQ_CTL.RUN, SEQ_CTL, SEQ_LWPROT.URD, SEQ_LWPROT]; omega)
    have ha := h.allowed
    simp only [State.lwAllows, Bool.false_eq_true, if_false] at ha ⊢
    rw [e]
    exact ha
  sound := h.sound

/-- A step asked for leaves the block near. -/
theorem nearBlock_stepping (h : NearBlock n s) : NearBlock n (s.onSeq n (fun x => { x with stepping := true })) where
  empty := by rw [State.getSeq_onSeq, if_pos rfl]; exact h.empty
  window := by rw [State.getSeq_onSeq, if_pos rfl]; exact h.window
  allowed := by
    have ha := h.allowed
    simp only [State.lwAllows, State.getSeq_onSeq, if_true] at ha ⊢
    exact ha
  sound k hk := by rw [State.getSeq_onSeq, if_pos rfl]; exact h.sound k hk

/-- A halted core outside a loop and a repeat with nothing in flight, at an `ADDI` in a block that is near, makes one step. -/
theorem seqStep_addi (rd ra : Fin 32) (imm : BitVec 16) (hst : (s.getSeq n).st = 1) (hp : s.primaryOf n = none) (hstep : (s.getSeq n).stepping = false)
    (hrp : (s.getSeq n).sb stRP = false) (hla : (s.getSeq n).sb stLA = false) (hm : (s.getSeq n).macs = []) (hl : (s.getSeq n).loads = []) (ha : (s.getSeq n).again = [])
    (hw : ∀ e ∈ (s.getSeq n).soon, e.2 ≤ (s.getSeq n).cycle) (hb : NearBlock n s) (hpc : (s.getSeq n).pc % 4 = 0)
    (hword : Memory.num s.mem (bankBase n + (s.getSeq n).pc) 4 = addiWord rd ra imm) :
    seqStep n s = retire n rd (s.kr n ra + imm.signExtend 64) 1 (holdingBlock n s) := by
  let x := s.getSeq n
  let x₁ := { x with stepping := true }
  let s₁ := s.setSeq n x₁
  have hs₁ : s.onSeq n (fun x => { x with stepping := true }) = s₁ := rfl
  have hx₁ : s₁.getSeq n = x₁ := by rw [State.getSeq_setSeq, if_pos rfl]
  have hb₁ : NearBlock n s₁ := nearBlock_stepping hb
  have hword₁ : bankWord n s₁ = addiWord rd ra imm := by
    rw [bankWord_eq (by rw [hx₁]; exact hpc), hx₁]
    exact hword
  have hfetch := kFetch_nearBlock hb₁ (by rw [hx₁]; exact hla)
  let x₂ := { x with blocks := [(fetchBlock false x.pc, Memory.num s.mem (bankBase n + x.pc / 32 * 32) 32)] }
  have hhold : holdingBlock n s₁ = s.setSeq n { x₂ with stepping := true } := by
    simp only [holdingBlock, State.onSeq, hx₁]
    exact State.setSeq_setSeq ..
  have hhold₂ : holdingBlock n s = s.setSeq n x₂ := rfl
  have hx₂ : (holdingBlock n s₁).getSeq n = { x₂ with stepping := true } := by rw [hhold, State.getSeq_setSeq, if_pos rfl]
  have hkr : Seq.reg { x₂ with stepping := true } ra = s.kr n ra := rfl
  have hone : stepOnce n s₁ = retire n rd (s.kr n ra + imm.signExtend 64) 1 (holdingBlock n s) := by
    rw [stepOnce_fetched (by rw [hx₁]; exact hst) (by rw [hx₁]) (by rw [hx₁]; exact ha) hfetch (by rw [hword₁]; exact insOf_addi rd ra imm),
      issueFetched_once _ (by rw [hx₂]; exact hw) (by rw [hx₂]; exact hl) (by rw [hx₂]; exact hrp), hhold,
      runOnce_addi rd ra imm (x := { x₂ with stepping := true }) hst hrp hla hm hp, hkr, Seq.put_setStepping, retire, stepTo, nextPc, hhold₂, State.onSeq]
    simp only [State.getSeq_setSeq, if_true, State.setSeq_setSeq]
    congr 1
    have hns : (x₂.put rd (s.kr n ra + imm.signExtend 64)).stepping = false := (Seq.put_stepping ..).trans hstep
    rw [← hns]
  have hover : ((stepOnce n s₁).getSeq n).stepping = false := by
    rw [hone, retire, stepTo, State.getSeq_onSeq, if_pos rfl]
    show (Seq.put _ _ _).stepping = false
    rw [Seq.put_stepping, hhold₂, State.getSeq_setSeq, if_pos rfl]
    exact hstep
  unfold seqStep
  rw [if_pos hst]
  dsimp only
  rw [hs₁, hover, if_neg (by simp), hone]

end

/-- Settles O32: RUN and RESET by what follows the core that they set, the issue and the step by the fetch that leaves the block of PC held. -/
theorem sequencerRunHaltAndReset : Obligations.SequencerRunHaltAndReset := by
  unfold Obligations.SequencerRunHaltAndReset
  refine ⟨fun n s hc => ⟨fun hp => ⟨fun hpart hst => ?_, fun h => ?_, ?_⟩, fun p hp => ⟨fun hpart hst hs => ?_, fun hst hr hs => ?_, fun hs => ?_⟩⟩,
    fun n rd ra imm s hst hp hstep hrp hla hm hl ha hr hc hw hb hpc hword => ?_, fun n k s hst hla hck hd ha he hi hb => ?_⟩
  · rw [exec_seqRun hc, seqRun_start hpart hst, partFollows_coreSet_none hp]
    rfl
  · rw [exec_seqRun hc, seqRun_halt h, partFollows_coreSet_none hp]
    rfl
  · refine ⟨seqAfterReset n s, ?_, rfl, rfl, rfl, fun k _ => ?_, fun p => ?_, fun _ => rfl, rfl, rfl, rfl, rfl, rfl, rfl, rfl⟩
    · rw [exec_seqReset hc, resetCore_eq, partFollows_coreSet_none hp]
      rfl
    · exact ite_self _
    · exact ite_self _
  · obtain ⟨hx, hrun, hmem⟩ := partFollows_coreSet_starts (run := 1) (x := { s.getSeq n with st := 2 }) hp hs rfl
    exact ⟨_, (exec_seqRun hc true).trans (congrArg _ (seqRun_start hpart hst)), hx, hrun, hmem⟩
  · obtain ⟨hx, hrun, hmem⟩ := partFollows_coreSet_stops (run := 0) (x := { s.getSeq n with st := 1, wait := none }) hp hs rfl
    exact ⟨_, (exec_seqRun hc false).trans (congrArg _ (seqRun_halt (.inl ⟨hst, hr⟩))), hx, hrun, hmem⟩
  · obtain ⟨hx, hrun, hmem⟩ := partFollows_coreSet_stops (run := 0) (x := seqAfterReset n s) hp hs rfl
    exact ⟨_, (exec_seqReset hc).trans (congrArg _ (resetCore_eq n s)), by rw [hx]; rfl, hrun, hmem⟩
  · have hne : ¬ (((s.getSeq n).st = 2 ∧ (s.getSeq n).rptc = 0) ∨ (s.getSeq n).st = 3) := by omega
    have hrun : seqRun n false s = s.setF (SEQ_CTL.RUN n) 0 := by
      simp only [seqRun, Bool.false_eq_true, if_false, hne]
    have hp' : (s.setF (SEQ_CTL.RUN n) 0).primaryOf n = none := (((Quiet.refl true s).setF 0 (.seqCtl n)).primaryOf n).trans hp
    rw [exec_seqStep hc, hrun, seqStep_addi (s := s.setF (SEQ_CTL.RUN n) 0) rd ra imm hst hp' hstep hrp hla hm hl ha hw (nearBlock_setRun hb 0) hpc hword]
    rfl
  · exact issue_nearBlock ⟨hst, hck, hd, he, hi, ha⟩ k hla hb

end Sys2Proof.Proofs
end

