-- ==== Sys2Proof/Proofs/QueuePush.lean ====
section
/-!
PROOFS. Proofs/QueuePush.lean: a stored push whose ECC word another combining buffer keeps (R138, R139, R146).
-/
namespace Sys2Proof.Proofs
open Sys2Proof.Machine Sys2Proof.Safety

/-- Island 0 runs, unit 0 presents a data word to the queues, and the list of combining buffers names queue 0 twice: with ECC word 5, which has a single-bit
error, and with ECC word 0, where queue 1 has its tail. -/
def keptTwice : State :=
  { State.reset.setFrame 0 1 { data := 0, crc := 0, faddr := 0 } with
    mem := [(eccKey (islMemBase 0 + 8 * 5), 1)]
    isl := [(0, { Isl.reset with inReset := false, comb := [(0, 5), (0, 0)], wus := [(0, { Wu.reset with out := [7] })] })] }

/-- The byte at an address after a command that leaves a next state. -/
def byteAfter (a : Nat) : Host.Outcome State Fault Refusal → Option Byte
  | .next t => some (t.byte a)
  | _ => none

/-- A push into queue 1 drains the buffer of queue 0, which finds ECC word 5 first and corrects it: a word that neither the push nor a buffer of queue 1 names. -/
theorem keptTwice_push : byteAfter (eccKey (islMemBase 0 + 8 * 5)) (exec (.queuePush 0 1) keptTwice) = some 0 := by decide +kernel

/-- Refutes O40: a list of combining buffers that names a queue twice makes a stored push write the ECC word of the first entry. Such a list is no state of a run
from reset (each change of `comb` keeps its keys apart), but the statement speaks of every state. -/
theorem not_queueControllersPushAndCommand : ¬ Obligations.QueueControllersPushAndCommand := by
  unfold Obligations.QueueControllersPushAndCommand
  intro h
  obtain ⟨hpush, -⟩ := h 0 1 7 0 keptTwice
  obtain ⟨hstore, -⟩ := hpush (by decide +kernel) (by decide +kernel) (by decide) (show Memory.wf keptTwice.mem = true by decide +kernel) (by decide +kernel)
  obtain ⟨t, ht, -, -, -, -, -, -, -, hbytes⟩ := hstore (by decide +kernel)
  have hkept : t.byte (eccKey (islMemBase 0 + 8 * 5)) = 1 := by
    refine hbytes _ ?_
    rintro (hdata | htag | hecc | ⟨k, hk, -⟩)
    · exact absurd hdata (by decide +kernel)
    · exact absurd htag (by decide +kernel)
    · exact absurd hecc (by decide +kernel)
    · cases hk
  have hpushed := keptTwice_push
  rw [ht] at hpushed
  exact absurd (hkept.symm.trans (Option.some.inj hpushed)) (by decide)

end Sys2Proof.Proofs
end

