-- ==== Sys2Proof/Proofs/HincWrite.lean ====
section
/-!
PROOFS. Proofs/HincWrite.lean: a HINC whose ECC word another combining buffer keeps (R69, R138, R139).
-/
namespace Sys2Proof.Proofs
open Sys2Proof.Machine Sys2Proof.Safety

/-- Island 0 runs, and a HINC of bin 0 is the oldest firing of unit 0. The list of combining buffers names queue 0 twice: with ECC word 5, which has a single-bit error, and
with ECC word 0, where the bin stands. -/
def hincKeptTwice : State :=
  { State.reset with
    mem := [(eccKey (islMemBase 0 + 8 * 5), 1)]
    isl := [(0, { Isl.reset with
      inReset := false, comb := [(0, 5), (0, 0)],
      wus := [(0, { Wu.reset with pipe := [{ opw := 0x60000000, mbase := 0, a := 0, b := 0, m := 0, s := false, skip := false, tok := none }] })] })] }

/-- The HINC drains the buffer of queue 0, which finds ECC word 5 first and corrects it: a word in which the bin does not stand. -/
theorem hincKeptTwice_write : byteAfter (eccKey (islMemBase 0 + 8 * 5)) (exec (.hincWrite 0 0) hincKeptTwice) = some 0 := by decide +kernel

/-- Refutes O36: a list of combining buffers that names a queue twice makes the write of a HINC change the ECC condition of a word other than its bin's. Such a list is no state
of a run from reset (each change of `comb` keeps its keys apart), but the statement speaks of every state. -/
theorem not_wordUnitsFireAndDeliverTheirResults : ¬ Obligations.WordUnitsFireAndDeliverTheirResults := by
  unfold Obligations.WordUnitsFireAndDeliverTheirResults
  intro h
  obtain ⟨-, -, -, -, hhinc⟩ := h 0 0 hincKeptTwice
  obtain ⟨t, ht, -, -, hbytes, -, -⟩ := hhinc _ _ (by decide +kernel) (show Memory.wf hincKeptTwice.mem = true by decide +kernel) rfl rfl rfl (by decide)
  have hkept : t.byte (eccKey (islMemBase 0 + 8 * 5)) = 1 := by
    refine hbytes _ ?_
    rintro (hdata | htag | hecc)
    · exact absurd hdata (by decide +kernel)
    · exact absurd htag (by decide +kernel)
    · exact absurd hecc (by decide +kernel)
  have hwritten := hincKeptTwice_write
  rw [ht] at hwritten
  exact absurd (hkept.symm.trans (Option.some.inj hwritten)) (by decide)

end Sys2Proof.Proofs
end

