-- ==== Sys2Proof/Proofs/Passage.lean ====
section
/-!
SUPPORT. Proofs/Passage.lean: what the passage of words through an island leaves alone: its word units' selections, the other islands, the memory while no combining buffer
keeps a word, and every word unit but the one that a command names (R46 to R48, R116, R145).
-/
namespace Sys2Proof.Machine

theorem State.getWu_onWu (s : State) (i u v : Nat) (g : Wu → Wu) : (s.onWu i u g).getWu i v = if v = u then g (s.getWu i u) else s.getWu i v := by
  simp only [State.onWu, State.setWu, State.getWu, State.getIsl_onIsl, if_true, Isl.wu, Map.getD_set]

@[simp] theorem State.getWu_onWu_same (s : State) (i u : Nat) (g : Wu → Wu) : (s.onWu i u g).getWu i u = g (s.getWu i u) := by
  rw [State.getWu_onWu, if_pos rfl]

/-- A source presents what the output registers and the FIFOs of its island hold. -/
theorem State.srcWord_congr {s t : State} {i : Nat} (hw : (t.getIsl i).wus = (s.getIsl i).wus) (hf : (t.getIsl i).fifos = (s.getIsl i).fifos) (c : Nat) :
    t.srcWord i c = s.srcWord i c := by
  simp only [State.srcWord, State.getWu, Isl.wu, hw, hf]

theorem State.getWu_congr {s t : State} {i : Nat} (hw : (t.getIsl i).wus = (s.getIsl i).wus) (u : Nat) : t.getWu i u = s.getWu i u := by
  simp only [State.getWu, Isl.wu, hw]

end Sys2Proof.Machine

namespace Sys2Proof.Proofs
open Sys2Proof.Machine Sys2Proof.Safety

/-- The registers by which the consumers of an island's sources are selected. -/
def Selects (i k : Nat) : Prop := k < 0x1_0000 ∨ k = ISL_PLANE_CUR i ∨ k = ISL_PLANE_AUX i ∨ k = ISL_FCAP_CFG i

/-- The registers in which the word units of an island report. -/
def Reports (i k : Nat) : Prop := k = ISL_WU_FLAGS i ∨ k = ISL_WU_STAT i ∨ k = ISL_WU_STAT2 i

/-- What a command of word unit `u` in island `i` leaves alone whatever it does: the other islands, the memory while no combining buffer keeps a word, and who consumes
what; a source other than the unit that presents nothing presents nothing. -/
structure Around (i u : Nat) (s t : State) : Prop where
  isles : IslesBut [i] s t
  mem : (s.getIsl i).comb = [] → t.mem = s.mem ∧ (t.getIsl i).comb = []
  frames : t.frames = s.frames
  box : (t.getIsl i).box = (s.getIsl i).box
  selects : ∀ k, Selects i k → t.rd k = s.rd k
  dry : ∀ c, c ≠ u → s.srcWord i c = none → t.srcWord i c = none

/-- What else the passage of words beside the unit leaves alone: the unit and its reports. -/
structure Beside (i u : Nat) (s t : State) : Prop extends Around i u s t where
  unit : t.getWu i u = s.getWu i u
  reports : ∀ k, Reports i k → t.rd k = s.rd k

variable {i u : Nat} {s t t' : State}

namespace Around

theorem refl (i u : Nat) (s : State) : Around i u s s := ⟨fun _ _ => rfl, fun h => ⟨rfl, h⟩, rfl, rfl, fun _ _ => rfl, fun _ _ h => h⟩

theorem trans (h : Around i u s t) (h' : Around i u t t') : Around i u s t' where
  isles j hj := (h'.isles j hj).trans (h.isles j hj)
  mem hc :=
    have ⟨hm, hc'⟩ := h.mem hc
    have ⟨hm', hc''⟩ := h'.mem hc'
    ⟨hm'.trans hm, hc''⟩
  frames := h'.frames.trans h.frames
  box := h'.box.trans h.box
  selects k hk := (h'.selects k hk).trans (h.selects k hk)
  dry c hc hd := h'.dry c hc (h.dry c hc hd)

/-- A register that selects nothing is written. -/
theorem wr (h : Around i u s t) {k : Nat} (v : Word) (hk : ¬ Selects i k) : Around i u s (t.wr k v) :=
  h.trans ⟨fun _ _ => rfl, fun hc => ⟨rfl, hc⟩, rfl, rfl, fun k' hk' => by rw [State.rd_wr, if_neg fun e : k' = k => hk (e ▸ hk')], fun _ _ hd => hd⟩

/-- The unit itself changes. -/
theorem onWu (h : Around i u s t) (g : Wu → Wu) : Around i u s (t.onWu i u g) :=
  h.trans {
    isles := fun j hj => by rw [State.onWu, State.setWu, State.getIsl_onIsl, if_neg (by simpa using hj)]
    mem := fun hc => ⟨rfl, by simpa [State.onWu, State.setWu] using hc⟩
    frames := rfl
    box := by simp [State.onWu, State.setWu]
    selects := fun _ _ => rfl
    dry := fun c hc hd => by
      rw [← hd]
      simp only [State.srcWord, State.getWu_onWu, if_neg hc]
      simp [State.onWu, State.setWu] }

/-- A field by which consumers are selected reads as before. -/
theorem f_eq (h : Around i u s t) {x : RF} (hx : Selects i x.key) : t.f x = s.f x := by rw [State.f, h.selects _ hx, State.f]

theorem fbits_eq (h : Around i u s t) (j k lo w : Nat) : t.fbits j k lo w = s.fbits j k lo w := by rw [State.fbits, State.fnum, h.frames, State.fbits, State.fnum]

theorem wuPlane_eq (h : Around i u s t) (v : Nat) : t.wuPlane i v = s.wuPlane i v := h.f_eq (.inr (.inl rfl))

theorem operandWord_eq (h : Around i u s t) (j v p : Nat) : t.operandWord j v p = s.operandWord j v p := h.fbits_eq ..

theorem inSrc_eq (h : Around i u s t) (v x : Nat) : t.inSrc i v x = s.inSrc i v x := by
  simp only [State.inSrc, State.passQueue, State.queueM, h.wuPlane_eq, h.operandWord_eq, State.opWord, h.fbits_eq] <;> rfl

theorem boxPlane_eq (h : Around i u s t) (e : Nat) : t.boxPlane i e = s.boxPlane i e := by rw [State.boxPlane, h.box, State.boxPlane]

theorem ssel_eq (h : Around i u s t) (k p : Nat) : t.ssel i k p = s.ssel i k p := by simp only [State.ssel, State.boxEnabled, h.fbits_eq] <;> rfl

theorem joint_eq (h : Around i u s t) (k p : Nat) : t.joint i k p = s.joint i k p := by simp only [State.joint, State.boxEnabled, h.fbits_eq] <;> rfl

theorem spare_eq (h : Around i u s t) {r : Nat} (hr : r ≤ 11) : t.spare r = s.spare r :=
  h.f_eq (.inl (by simp only [GLB_ROW_MAP.SPARE_PTR, GLB_ROW_MAP]; omega))

theorem segEnd_eq (h : Around i u s t) (hi : i < 156) (k : Nat) : t.segEnd i k = s.segEnd i k := by
  have hr : rowOf i ≤ 11 := by simp only [rowOf]; omega
  have hc : t.lcol i = s.lcol i := by simp only [State.lcol, h.spare_eq hr]
  have hp {r : Nat} (c : Nat) (hr : r ≤ 11) : t.phys r c = s.phys r c := by simp only [State.phys, h.spare_eq hr]
  simp only [State.segEnd, hc, hp _ hr]
  split
  · rfl
  · rfl
  · split
    next hr' => rw [hp _ hr']
    next => rfl
  · rw [hp _ (by omega)]

theorem qcField_eq (h : Around i u s t) (q : Nat) : t.qcField i q (t.qcPlane i q) = s.qcField i q (s.qcPlane i q) := by
  rw [State.qcPlane, h.f_eq (.inr (.inr (.inl rfl))), State.qcField, h.fbits_eq, State.qcPlane, State.qcField]

theorem collOn_eq (h : Around i u s t) : t.f (ISL_FCAP_CFG.FEN i) = s.f (ISL_FCAP_CFG.FEN i) := h.f_eq (.inr (.inr (.inr rfl)))

theorem consumers_eq (h : Around i u s t) (hi : i < 156) (c : Nat) : t.consumers i c = s.consumers i c := by
  have ha : t.f (ISL_FCAP_CFG.FASRC i) = s.f (ISL_FCAP_CFG.FASRC i) := h.f_eq (.inr (.inr (.inr rfl)))
  have hx : t.f (ISL_FCAP_CFG.FXSRC i) = s.f (ISL_FCAP_CFG.FXSRC i) := h.f_eq (.inr (.inr (.inr rfl)))
  simp only [State.consumers, h.inSrc_eq, h.boxPlane_eq, h.ssel_eq, h.joint_eq, h.segEnd_eq hi, h.qcField_eq, State.on, h.collOn_eq, ha, hx] <;> rfl

/-- Nothing comes to take the unit's output. -/
theorem unread (h : Around i u s t) (hi : i < 156) (hu : Unread i u s) : Unread i u t := ⟨(h.consumers_eq hi u).trans hu.1, h.collOn_eq.trans hu.2⟩

end Around

namespace Beside

theorem refl (i u : Nat) (s : State) : Beside i u s s := ⟨.refl i u s, rfl, fun _ _ => rfl⟩

theorem trans (h : Beside i u s t) (h' : Beside i u t t') : Beside i u s t' :=
  ⟨h.toAround.trans h'.toAround, h'.unit.trans h.unit, fun k hk => (h'.reports k hk).trans (h.reports k hk)⟩

theorem ite {c : Prop} [Decidable c] (h : Beside i u s t) (h' : Beside i u s t') : Beside i u s (if c then t else t') := by
  split
  · exact h
  · exact h'

theorem foldl {α : Type} {g : State → α → State} (hg : ∀ t x, Beside i u s t → Beside i u s (g t x)) (h : Beside i u s t) (xs : List α) : Beside i u s (xs.foldl g t) := by
  induction xs generalizing t with
  | nil => exact h
  | cons x xs ih => exact ih (hg t x h)

/-! ### Updates of the state -/

/-- A part of the state outside the registers, the memory, the frames and the islands changes. -/
theorem same (h : Beside i u s t) (hr : t'.regs = t.regs) (hm : t'.mem = t.mem) (hf : t'.frames = t.frames) (hi : t'.isl = t.isl) : Beside i u s t' := by
  have hg (j : Nat) : t'.getIsl j = t.getIsl j := by rw [State.getIsl, hi, State.getIsl]
  exact h.trans {
    isles := fun j _ => hg j
    mem := fun hc => ⟨hm, (congrArg Isl.comb (hg i)).trans hc⟩
    frames := hf
    box := congrArg Isl.box (hg i)
    selects := fun k _ => State.rd_congr hr k
    dry := fun c _ hd => (State.srcWord_congr (congrArg Isl.wus (hg i)) (congrArg Isl.fifos (hg i)) c).trans hd
    unit := State.getWu_congr (congrArg Isl.wus (hg i)) u
    reports := fun k _ => State.rd_congr hr k }

/-- A register that neither selects nor reports is written. -/
theorem wr (h : Beside i u s t) {k : Nat} (v : Word) (hk : ¬ Selects i k ∧ ¬ Reports i k) : Beside i u s (t.wr k v) :=
  ⟨h.toAround.wr v hk.1, h.unit, fun k' hk' => by rw [State.rd_wr, if_neg fun e : k' = k => hk.2 (e ▸ hk'), h.reports k' hk']⟩

theorem setF (h : Beside i u s t) {x : RF} (n : Nat) (hk : ¬ Selects i x.key ∧ ¬ Reports i x.key) : Beside i u s (t.setF x n) := h.wr _ hk

theorem bump (h : Beside i u s t) {x : RF} (n : Nat) (hk : ¬ Selects i x.key ∧ ¬ Reports i x.key) : Beside i u s (t.bump x n) := h.wr _ hk

/-- The island changes in a part that holds no word unit, FIFO, selection or combining buffer. -/
theorem onIsl (h : Beside i u s t) {g : Isl → Isl} (hc : (t.getIsl i).comb = [] → (g (t.getIsl i)).comb = []) (hb : (g (t.getIsl i)).box = (t.getIsl i).box)
    (hw : (g (t.getIsl i)).wus = (t.getIsl i).wus) (hf : (g (t.getIsl i)).fifos = (t.getIsl i).fifos) : Beside i u s (t.onIsl i g) := by
  have hg : (t.onIsl i g).getIsl i = g (t.getIsl i) := by rw [State.getIsl_onIsl, if_pos rfl]
  exact h.trans {
    isles := fun j hj => by rw [State.getIsl_onIsl, if_neg (by simpa using hj)]
    mem := fun h0 => ⟨rfl, by rw [hg]; exact hc h0⟩
    frames := rfl
    box := by rw [hg, hb]
    selects := fun _ _ => rfl
    dry := fun c _ hd => (State.srcWord_congr (by rw [hg, hw]) (by rw [hg, hf]) c).trans hd
    unit := State.getWu_congr (by rw [hg, hw]) u
    reports := fun _ _ => rfl }

/-- Another unit changes, and presents nothing new. -/
theorem onWu (h : Beside i u s t) {v : Nat} {g : Wu → Wu} (hv : v ≠ u) (hg : (t.getWu i v).out = [] → (g (t.getWu i v)).out = []) : Beside i u s (t.onWu i v g) :=
  h.trans {
    isles := fun j hj => by rw [State.onWu, State.setWu, State.getIsl_onIsl, if_neg (by simpa using hj)]
    mem := fun hc => ⟨rfl, by simpa [State.onWu, State.setWu] using hc⟩
    frames := rfl
    box := by simp [State.onWu, State.setWu]
    selects := fun _ _ => rfl
    dry := fun c _ hd => by
      simp only [State.srcWord, State.getWu_onWu] at hd ⊢
      by_cases hc : c < 16
      · rw [if_pos hc] at hd ⊢
        by_cases he : c = v
        · rw [if_pos he, hg (he ▸ List.head?_eq_none_iff.1 hd), List.head?_nil]
        · rw [if_neg he, hd]
      · rw [if_neg hc] at hd ⊢
        simpa [State.onWu, State.setWu] using hd
    unit := by rw [State.getWu_onWu, if_neg hv.symm]
    reports := fun _ _ => rfl }

/-- The memory changes on behalf of a combining buffer. -/
theorem onMem (h : Beside i u s t) (g : Memory → Memory) (hc : (s.getIsl i).comb ≠ []) : Beside i u s (t.onMem g) :=
  ⟨⟨h.isles, fun h0 => absurd h0 hc, h.frames, h.box, h.selects, h.dry⟩, h.unit, h.reports⟩

theorem of_logOnly (h : Beside i u s t) (h' : LogOnly t t') : Beside i u s t' := by
  have hg (j : Nat) : t'.getIsl j = t.getIsl j := by rw [h'.parts]; rfl
  have hoff {k : Nat} (hk : Selects i k ∨ Reports i k) : t'.rd k = t.rd k := h'.regs k <| by
    simp only [Selects, Reports, ISL_PLANE_CUR, ISL_PLANE_AUX, ISL_FCAP_CFG, ISL_WU_FLAGS, ISL_WU_STAT, ISL_WU_STAT2] at hk
    unfold OffLog
    omega
  exact h.trans {
    isles := fun j _ => hg j
    mem := fun hc => ⟨h'.mem, (congrArg Isl.comb (hg i)).trans hc⟩
    frames := h'.frames
    box := congrArg Isl.box (hg i)
    selects := fun k hk => hoff (.inl hk)
    dry := fun c _ hd => (State.srcWord_congr (congrArg Isl.wus (hg i)) (congrArg Isl.fifos (hg i)) c).trans hd
    unit := State.getWu_congr (congrArg Isl.wus (hg i)) u
    reports := fun k hk => hoff (.inr hk) }

end Beside

end Sys2Proof.Proofs
end

