-- ==== Sys2Proof/Proofs/QueueTakes.lean ====
section
/-!
SUPPORT. Proofs/QueueTakes.lean: a unit's take of a queue's head happens beside every unit (R138, R141, R145, R148, R149).
-/
namespace Sys2Proof.Proofs
open Sys2Proof.Machine Sys2Proof.Safety

/-- The register keys of an island's memory and queues are none of those that select or report. -/
theorem idle_of_memory {i k : Nat} (h : ISL_MEM_ECC i ≤ k) (h' : k < ISL_FCAP_CFG i) : ¬ Selects i k ∧ ¬ Reports i k := by
  simp only [Selects, Reports, ISL_MEM_ECC, ISL_PLANE_CUR, ISL_PLANE_AUX, ISL_FCAP_CFG, ISL_WU_FLAGS, ISL_WU_STAT, ISL_WU_STAT2] at *
  omega

theorem idle_patrolStat (i : Nat) : ¬ Selects i (ISL_PATROL_STAT i) ∧ ¬ Reports i (ISL_PATROL_STAT i) :=
  idle_of_memory (by simp only [ISL_MEM_ECC, ISL_PATROL_STAT]; omega) (by simp only [ISL_FCAP_CFG, ISL_PATROL_STAT]; omega)

theorem idle_memEcc (i : Nat) : ¬ Selects i (ISL_MEM_ECC i) ∧ ¬ Reports i (ISL_MEM_ECC i) :=
  idle_of_memory (Nat.le_refl _) (by simp only [ISL_FCAP_CFG, ISL_MEM_ECC]; omega)

theorem idle_memCeaddr (i : Nat) : ¬ Selects i (ISL_MEM_CEADDR i) ∧ ¬ Reports i (ISL_MEM_CEADDR i) :=
  idle_of_memory (by simp only [ISL_MEM_ECC, ISL_MEM_CEADDR]; omega) (by simp only [ISL_FCAP_CFG, ISL_MEM_CEADDR]; omega)

theorem idle_memUeaddr (i : Nat) : ¬ Selects i (ISL_MEM_UEADDR i) ∧ ¬ Reports i (ISL_MEM_UEADDR i) :=
  idle_of_memory (by simp only [ISL_MEM_ECC, ISL_MEM_UEADDR]; omega) (by simp only [ISL_FCAP_CFG, ISL_MEM_UEADDR]; omega)

section queues
variable {q : Nat} (hq : q < 4)
include hq

theorem idle_qptr (i : Nat) : ¬ Selects i (ISL_QPTR i q) ∧ ¬ Reports i (ISL_QPTR i q) :=
  idle_of_memory (by simp only [ISL_MEM_ECC, ISL_QPTR]; omega) (by simp only [ISL_FCAP_CFG, ISL_QPTR]; omega)

theorem idle_qdep (i : Nat) : ¬ Selects i (ISL_QDEP i q) ∧ ¬ Reports i (ISL_QDEP i q) :=
  idle_of_memory (by simp only [ISL_MEM_ECC, ISL_QDEP]; omega) (by simp only [ISL_FCAP_CFG, ISL_QDEP]; omega)

theorem idle_qstat (i : Nat) : ¬ Selects i (ISL_QSTAT i q) ∧ ¬ Reports i (ISL_QSTAT i q) :=
  idle_of_memory (by simp only [ISL_MEM_ECC, ISL_QSTAT]; omega) (by simp only [ISL_FCAP_CFG, ISL_QSTAT]; omega)

theorem idle_qcnt (i : Nat) : ¬ Selects i (ISL_QCNT i q) ∧ ¬ Reports i (ISL_QCNT i q) :=
  idle_of_memory (by simp only [ISL_MEM_ECC, ISL_QCNT]; omega) (by simp only [ISL_FCAP_CFG, ISL_QCNT]; omega)

end queues

/-- The queue that an M input takes from is one of the island's four. -/
theorem mQueue_lt {s : State} {i u q : Nat} (h : s.mQueue i u = some q) : q < 4 := by
  unfold State.mQueue at h
  split at h
  · split at h
    · rw [← Option.some.inj h]
      exact f_lt s (ISL_FORK_STAT.CUR i)
    · rw [← Option.some.inj h]
      exact Nat.mod_lt _ (by decide)
  · cases h

namespace Beside

variable {i u : Nat} {s t : State}

/-! ### ECC -/

theorem patrolTouch (h : Beside i u s t) (off : Nat) : Beside i u s (patrolTouch i off t) :=
  .ite ((h.setF _ (idle_patrolStat i)).bump _ (idle_patrolStat i)) h

theorem ownerWrote (h : Beside i u s t) (off : Nat) : Beside i u s (ownerWrote i off t) := h.onIsl id rfl rfl rfl

theorem eccPort (h : Beside i u s t) (off port : Nat) : Beside i u s (eccPort i off port t).2 := by
  unfold Machine.eccPort
  extract_lets t'
  have ht' : Beside i u s t' := h.patrolTouch off
  have hfresh {r : State} (hr : Beside i u s r) : Beside i u s r.fresh.2 := hr.same rfl rfl rfl rfl
  split
  · exact ht'
  · have hf := hfresh (ht'.bump (x := ISL_MEM_ECC.CECNT i) 1 (idle_memEcc i))
    dsimp only [State.fresh] at hf ⊢
    exact of_logOnly (ite hf (hf.wr _ (idle_memCeaddr i))) (logErr_logOnly ..)
  · have hf := hfresh (ht'.bump (x := ISL_MEM_ECC.UECNT i) 1 (idle_memEcc i))
    dsimp only [State.fresh] at hf ⊢
    exact of_logOnly (ite hf (hf.wr _ (idle_memUeaddr i))) (logErr_logOnly ..)

/-- A buffer that keeps a word is written: the memory was not free of kept words. -/
theorem combWrite (h : Beside i u s t) (q : Nat) : Beside i u s (combWrite i q t) := by
  unfold Machine.combWrite
  split
  next => exact h
  next k hk =>
    have hc : (s.getIsl i).comb ≠ [] := fun h0 => by rw [(h.mem h0).2] at hk; cases hk
    exact (((h.onIsl (fun h0 => by simp [h0, Map.del]) rfl rfl rfl).eccPort ..).onMem _ hc).ownerWrote _

theorem combDrain (h : Beside i u s t) (off : Nat) : Beside i u s (combDrain i off t) := h.foldl (fun _ _ h => h.combWrite _) _

theorem eccRead (h : Beside i u s t) (off port : Nat) : Beside i u s (eccRead i off port t).2 := (h.combDrain off).eccPort ..

/-! ### The queue controllers -/

section queues
variable {q : Nat} (hq : q < 4)
include hq

theorem qCommands (h : Beside i u s t) (mark rewind release : Bool) : Beside i u s (qCommands i q mark rewind release t) := by
  unfold Machine.qCommands
  extract_lets v w
  have hv : Beside i u s v :=
    ite (ite (((h.setF _ (idle_qptr hq i)).setF _ (idle_qdep hq i)).onIsl id rfl rfl rfl) (h.setF _ (idle_qstat hq i))) h
  have hw : Beside i u s w := ite (ite ((hv.setF _ (idle_qstat hq i)).setF _ (idle_qstat hq i)) (hv.setF _ (idle_qstat hq i))) hv
  exact ite (((hw.setF _ (idle_qptr hq i)).setF _ (idle_qstat hq i)).setF _ (idle_qstat hq i)) hw

theorem qEmpty (h : Beside i u s t) : Beside i u s (qEmpty i q t) := by
  unfold Machine.qEmpty
  extract_lets v w
  have hv : Beside i u s v := (h.combWrite q).wr _ (idle_qptr hq i)
  have hw : Beside i u s w := ((hv.setF _ (idle_qstat hq i)).setF _ (idle_qstat hq i)).setF _ (idle_qdep hq i)
  exact hw.onIsl id rfl rfl rfl

omit hq in
theorem raiseLine (h : Beside i u s t) (n k : Nat) : Beside i u s (raiseLine n i k t) := by
  unfold Machine.raiseLine
  extract_lets x c
  have haev (l : List AEv) : Beside i u s { t with aev := l } := h.same rfl rfl rfl rfl
  exact ite ((haev _).onIsl id rfl rfl rfl) h

theorem qEval (h : Beside i u s t) : Beside i u s (qEval i q t) := by
  unfold Machine.qEval
  split
  next hi lo _ =>
  extract_lets v
  have hv : Beside i u s v := ite h (raiseLine (((h.setF _ (idle_qstat hq i)).setF _ (idle_qstat hq i)).bump _ (idle_qcnt hq i)) ..)
  exact ite hv (raiseLine (((hv.setF _ (idle_qstat hq i)).setF _ (idle_qstat hq i)).bump _ (idle_qcnt hq i)) ..)

theorem qEnd (h : Beside i u s t) (mark rewind release flush : Bool) : Beside i u s (qEnd i q mark rewind release flush t) := by
  unfold Machine.qEnd
  extract_lets c v w
  have hv : Beside i u s v := ite h (h.onIsl id rfl rfl rfl)
  have hw : Beside i u s w := hv.qCommands hq ..
  exact qEval hq (ite (hw.qEmpty hq) hw)

omit hq in
theorem qGive (h : Beside i u s t) (q c : Nat) : Beside i u s (qGive i q c t) := .ite h (h.onIsl id rfl rfl rfl)

omit hq in
theorem qFetch (h : Beside i u s t) (q : Nat) : Beside i u s (qFetch i q t) := by
  unfold Machine.qFetch
  extract_lets hd a v
  have hv : Beside i u s v := h.eccRead ..
  exact ite (h.onIsl id rfl rfl rfl) (ite (hv.onIsl id rfl rfl rfl) hv)

theorem qPop (h : Beside i u s t) : Beside i u s (qPop i q t) := by
  unfold Machine.qPop
  extract_lets t1 t2 t3 t4 t5
  have h1 : Beside i u s t1 := ite (h.qEnd hq ..) h
  have h2 : Beside i u s t2 := (h1.qFetch q).qGive ..
  have h3 : Beside i u s t3 := h2.setF _ (idle_qptr hq i)
  have h4 : Beside i u s t4 := h3.setF _ (idle_qdep hq i)
  have h5 : Beside i u s t5 := ite h4 (h4.setF _ (idle_qstat hq i))
  split
  · exact h1
  · have h6 := h5.onIsl (g := fun x => { x with queueTaken := Map.set x.queueTaken q [] }) id rfl rfl rfl
    exact ite (h6.qGive ..) h6

/-- A take of a queue's head. -/
theorem takeQueue (h : Beside i u s t) (v : Nat) : Beside i u s (takeQueue i q v t) := ite (h.qPop hq) (h.onIsl id rfl rfl rfl)

end queues

/-! ### The sources of the crossbar -/

theorem noteToken (h : Beside i u s t) (v : Nat) (w : AWord) : Beside i u s (noteToken i v w t) := .ite (h.onIsl id rfl rfl rfl) h

theorem collMark (h : Beside i u s t) (kind : ItemKind) (rebase : Bool) (cyc : Nat) : Beside i u s (collMark i kind rebase cyc t) := by
  unfold Machine.collMark
  exact h.onIsl id rfl rfl rfl

theorem collLeaves (h : Beside i u s t) (v : Nat) (w : AWord) : Beside i u s (collLeaves i v w t) := .ite (.ite (h.collMark ..) (.ite (h.collMark ..) h)) h

/-- A termination's FIFO changes, and presents nothing new. -/
theorem onFifos (h : Beside i u s t) {k : Nat} {l : List AWord} (hl : Map.getD (t.getIsl i).fifos k [] = [] → l = []) :
    Beside i u s (t.onIsl i fun x => { x with fifos := Map.set x.fifos k l, fifoTaken := Map.set x.fifoTaken k [] }) :=
  h.trans {
    isles := fun j hj => by rw [State.getIsl_onIsl, if_neg (by simpa using hj)]
    mem := fun hc => ⟨rfl, by simpa using hc⟩
    frames := rfl
    box := by simp
    selects := fun _ _ => rfl
    dry := fun c _ hd => by
      simp only [State.srcWord, State.getWu, State.getIsl_onIsl, if_true, Isl.wu, Map.getD_set] at hd ⊢
      by_cases hc : c < 16
      · simpa only [if_pos hc] using hd
      · by_cases hc' : c < 48
        · simp only [if_neg hc, if_pos hc'] at hd ⊢
          by_cases hk : c - 16 = k
          · rw [if_pos hk, hl (hk ▸ List.head?_eq_none_iff.1 hd), List.head?_nil]
          · rw [if_neg hk, hd]
        · simp only [if_neg hc, if_neg hc']
    unit := State.getWu_congr (by simp) u
    reports := fun _ _ => rfl }

/-- The word of a source other than the unit leaves. -/
theorem popSrc (h : Beside i u s t) {c : Nat} (hc : c ≠ u) : Beside i u s (t.popSrc i c) := by
  unfold State.popSrc
  split
  · extract_lets out t1 t2
    have h1 : Beside i u s t1 := h.onWu hc fun h0 => by simp only [out, h0, List.tail_nil]
    have h2 : Beside i u s t2 := by
      unfold t2
      split
      · exact h1.noteToken ..
      · exact h1
    clear_value t2 t1 out
    split
    · exact h2.collLeaves ..
    · exact h2
  · exact h.onFifos fun h0 => by rw [h0, List.tail_nil]

/-- A consumer takes the word of a source other than the unit. -/
theorem takeSrc (h : Beside i u s t) {c : Nat} (hc : c ≠ u) (cid : Nat) : Beside i u s (t.takeSrc i c cid) :=
  ite (h.popSrc hc) (ite (h.onWu hc id) (h.onIsl id rfl rfl rfl))

end Beside

end Sys2Proof.Proofs
end

