-- ==== Sys2Proof/Proofs/UnitFlow.lean ====
section
/-!
SUPPORT. Proofs/UnitFlow.lean: what a word unit whose output nothing takes holds after its inputs were consumed or discarded and its words placed, while words pass through
its island (R47, R48, R52, R53).
-/
namespace Sys2Proof.Machine

/-- What a word unit keeps while its inputs are consumed and its words placed. -/
def Wu.core (w : Wu) : Wu := { w with a := [], b := [], m := [], disc := [], out := [], taken := [], seqM := 0, seqPre := none, blkDone := false }

/-- Units with equal cores agree in each part that the core holds. -/
theorem Wu.field_of_core {α : Type} (p : Wu → α) (hp : ∀ w : Wu, p w.core = p w) {w w' : Wu} (h : w'.core = w.core) : p w' = p w := by rw [← hp, h, hp]

theorem Wu.entries_setEntries (w : Wu) {x y : Nat} (hx : x < 2) (hy : y < 2) (l : List AWord) : (w.setEntries x l).entries y = if y = x then l else w.entries y := by
  obtain rfl | rfl : x = 0 ∨ x = 1 := by omega
  · obtain rfl | rfl : y = 0 ∨ y = 1 := by omega
    · rfl
    · rfl
  · obtain rfl | rfl : y = 0 ∨ y = 1 := by omega
    · rfl
    · rfl

theorem Wu.core_setEntries (w : Wu) (x : Nat) (l : List AWord) : (w.setEntries x l).core = w.core := by
  unfold Wu.setEntries
  split <;> rfl

theorem Wu.out_setEntries (w : Wu) (x : Nat) (l : List AWord) : (w.setEntries x l).out = w.out := by
  unfold Wu.setEntries
  split <;> rfl

theorem Wu.disc_setEntries (w : Wu) (x : Nat) (l : List AWord) : (w.setEntries x l).disc = w.disc := by
  unfold Wu.setEntries
  split <;> rfl

end Sys2Proof.Machine

namespace Sys2Proof.Proofs
open Sys2Proof.Machine Sys2Proof.Safety

/-- The source of input `y` of a unit presents nothing. -/
def Dry (i u y : Nat) (s : State) : Prop := s.srcWord i (s.inSrc i u y) = none

/-- How the entries of input `y` have changed: by `f`, and then those of input `x` by `e`. -/
def editAt (e : List AWord → List AWord) (x : Nat) (f : Nat → List AWord → List AWord) (y : Nat) (l : List AWord) : List AWord := if y = x then e (f y l) else f y l

/-- How the entries of input `y` have changed: by `f`, and then those of each of the inputs `xs` by `e`. -/
def editAll (e : List AWord → List AWord) (xs : List Nat) (f : Nat → List AWord → List AWord) : Nat → List AWord → List AWord := xs.foldl (fun f x => editAt e x f) f

theorem editAll_of_not_mem {e : List AWord → List AWord} {xs : List Nat} {y : Nat} (f : Nat → List AWord → List AWord) (h : y ∉ xs) : editAll e xs f y = f y := by
  induction xs generalizing f with
  | nil => rfl
  | cons x xs ih =>
    rw [editAll, List.foldl_cons, ← editAll, ih _ fun hy => h (List.mem_cons_of_mem _ hy)]
    funext l
    exact if_neg fun hx : y = x => h (hx ▸ List.mem_cons_self)

theorem editAll_of_mem {e : List AWord → List AWord} {xs : List Nat} {y : Nat} (f : Nat → List AWord → List AWord) (h : y ∈ xs) (hn : xs.Nodup) (l : List AWord) :
    editAll e xs f y l = e (f y l) := by
  induction xs generalizing f with
  | nil => cases h
  | cons x xs ih =>
    obtain ⟨hx, hn'⟩ := List.nodup_cons.1 hn
    rw [editAll, List.foldl_cons, ← editAll]
    by_cases hy : y = x
    · rw [editAll_of_not_mem _ (hy ▸ hx)]
      exact if_pos hy
    · rw [ih _ ((List.mem_cons.1 h).resolve_left hy) hn']
      exact congrArg e (if_neg hy)

/-- Between two states unit `u` has placed the words `ws`, and the entries of each of its inputs that nothing more was offered to have changed by `f`; it has kept its core
and, with nothing more offered to the inputs that discard, which inputs do. -/
structure Flow (i u : Nat) (f : Nat → List AWord → List AWord) (ws : List AWord) (s t : State) : Prop extends Around i u s t where
  core : (t.getWu i u).core = (s.getWu i u).core
  out : (t.getWu i u).out = (s.getWu i u).out ++ ws
  entries : ∀ y, y < 2 → Dry i u y s → (t.getWu i u).entries y = f y ((s.getWu i u).entries y)
  disc : (∀ y ∈ (s.getWu i u).disc, y < 2 → Dry i u y s) → (t.getWu i u).disc = (s.getWu i u).disc
  reports : ∀ k, Reports i k → t.rd k = s.rd k

section
variable {i : Fin 156} {u : Fin 16} {s t t' : State} {f : Nat → List AWord → List AWord} {ws : List AWord}

/-- No input selects a source that nothing takes. -/
theorem inSrc_ne {v x : Nat} (hu : Unread i u s) (hv : v < 16) (hx : x < 2) : s.inSrc i v x ≠ u := by
  intro he
  have hm : 2 * v + x ∈ (List.range 32).filter (fun y => s.inSrc i (y / 2) (y % 2) == u.val) :=
    List.mem_filter.2 ⟨List.mem_range.2 (by omega), by simp [show (2 * v + x) / 2 = v by omega, show (2 * v + x) % 2 = x by omega, he]⟩
  have hc : 2 * v + x ∈ s.consumers i u := by simp only [State.consumers, List.append_assoc]; exact List.mem_append_left _ hm
  rw [hu.1] at hc
  cases hc

/-- An input that is offered nothing stays so. -/
theorem Around.dry_input (h : Around i u s t) (hu : Unread i u s) {y : Nat} (hy : y < 2) (hd : Dry i u y s) : Dry i u y t := by
  rw [Dry, h.inSrc_eq]
  exact h.dry _ (inSrc_ne hu u.isLt hy) hd

namespace Flow

theorem refl (i u : Nat) (s : State) : Flow i u (fun _ l => l) [] s s :=
  ⟨.refl i u s, rfl, (List.append_nil _).symm, fun _ _ _ => rfl, fun _ => rfl, fun _ _ => rfl⟩

theorem foldl {α : Type} {g : State → α → State} {xs : List α} (hg : ∀ t, ∀ x ∈ xs, Flow i u f ws s t → Flow i u f ws s (g t x)) (h : Flow i u f ws s t) :
    Flow i u f ws s (xs.foldl g t) := by
  induction xs generalizing t with
  | nil => exact h
  | cons x xs ih => exact ih (fun t y hy => hg t y (List.mem_cons_of_mem _ hy)) (hg t x List.mem_cons_self h)

theorem f_eq (h : Flow i u f ws s t) {x : RF} (hx : Reports i x.key) : t.f x = s.f x := by rw [State.f, h.reports _ hx, State.f]

/-- The unit has kept what its core holds. -/
theorem field (h : Flow i u f ws s t) {α : Type} (p : Wu → α) (hp : ∀ w : Wu, p w.core = p w) : p (t.getWu i u) = p (s.getWu i u) :=
  Wu.field_of_core p hp h.core

/-- Words pass beside the unit. -/
theorem beside (h : Flow i u f ws s t) (h' : Beside i u t t') : Flow i u f ws s t' where
  toAround := h.toAround.trans h'.toAround
  core := by rw [h'.unit, h.core]
  out := by rw [h'.unit, h.out]
  entries y hy hd := by rw [h'.unit, h.entries y hy hd]
  disc hd := by rw [h'.unit, h.disc hd]
  reports k hk := (h'.reports k hk).trans (h.reports k hk)

/-- The unit changes in a part that neither its inputs, its output nor its core hold. -/
theorem onWu (h : Flow i u f ws s t) {g : Wu → Wu} (hc : (g (t.getWu i u)).core = (t.getWu i u).core) (ho : (g (t.getWu i u)).out = (t.getWu i u).out)
    (he : (g (t.getWu i u)).entries = (t.getWu i u).entries) (hd : (g (t.getWu i u)).disc = (t.getWu i u).disc) : Flow i u f ws s (t.onWu i u g) where
  toAround := h.toAround.onWu g
  core := by rw [State.getWu_onWu_same, hc, h.core]
  out := by rw [State.getWu_onWu_same, ho, h.out]
  entries y hy hd := by rw [State.getWu_onWu_same, he, h.entries y hy hd]
  disc h0 := by rw [State.getWu_onWu_same, hd, h.disc h0]
  reports := h.reports

/-- The entries of one input change as `e` says. -/
theorem edit (h : Flow i u f ws s t) {x : Nat} (hx : x < 2) (e : List AWord → List AWord) :
    Flow i u (editAt e x f) ws s (t.onWu i u fun w => w.setEntries x (e (w.entries x))) where
  toAround := h.toAround.onWu _
  core := by rw [State.getWu_onWu_same, Wu.core_setEntries, h.core]
  out := by rw [State.getWu_onWu_same, Wu.out_setEntries, h.out]
  entries y hy hd := by
    rw [State.getWu_onWu_same, Wu.entries_setEntries _ hx hy, editAt]
    by_cases hyx : y = x
    · rw [if_pos hyx, if_pos hyx, ← hyx, h.entries y hy hd]
    · rw [if_neg hyx, if_neg hyx, h.entries y hy hd]
  disc h0 := by rw [State.getWu_onWu_same, Wu.disc_setEntries, h.disc h0]
  reports := h.reports

/-- A word that was offered joins the entries of its input. -/
theorem fill (h : Flow i u f ws s t) {x : Nat} (hx : x < 2) (hd : ¬ Dry i u x s) (l : List AWord) :
    Flow i u f ws s (t.onWu i u fun w => w.setEntries x (w.entries x ++ l)) := by
  have he := h.edit hx (· ++ l)
  refine { he with entries := fun y hy hy' => ?_ }
  rw [he.entries y hy hy', editAt, if_neg fun e : y = x => hd (e ▸ hy')]

/-- Words join those that the unit presents. -/
theorem append (h : Flow i u f ws s t) (vs : List AWord) : Flow i u f (ws ++ vs) s (t.onWu i u fun w => { w with out := w.out ++ vs }) where
  toAround := h.toAround.onWu _
  core := by rw [State.getWu_onWu_same, ← h.core]; rfl
  out := by rw [State.getWu_onWu_same, h.out, List.append_assoc]
  entries y hy hd := by rw [State.getWu_onWu_same, ← h.entries y hy hd]; rfl
  disc h0 := by rw [State.getWu_onWu_same, ← h.disc h0]
  reports := h.reports

/-- When more was offered to an input that discards, it may discard no longer. -/
theorem redisc (h : Flow i u f ws s t) (g : List Nat → List Nat) (hn : ¬ ∀ y ∈ (s.getWu i u).disc, y < 2 → Dry i u y s) :
    Flow i u f ws s (t.onWu i u fun w => { w with disc := g w.disc }) where
  toAround := h.toAround.onWu _
  core := by rw [State.getWu_onWu_same, ← h.core]; rfl
  out := by rw [State.getWu_onWu_same, ← h.out]
  entries y hy hd := by rw [State.getWu_onWu_same, ← h.entries y hy hd]; rfl
  disc h0 := absurd h0 hn
  reports := h.reports

/-! ### The edge of the island's words (R47, R48) -/

/-- An input takes what its source offers. -/
theorem intakeOne (h : Flow i u f ws s t) (hu : Unread i u s) {v x : Nat} (hv : v < 16) (hx : x < 2) : Flow i u f ws s (intakeOne i v x t) := by
  have hut : Unread i u t := h.unread i.isLt hu
  unfold Machine.intakeOne
  extract_lets w code t1
  split
  · split
    next => exact h
    next d hw =>
    have hd : v = u → ¬ Dry i u x s := by
      rintro rfl hd
      have hn : t.srcWord i (t.inSrc i u x) = none := h.toAround.dry_input hu hx hd
      unfold State.offered at hw
      split at hw
      · rw [hn] at hw; cases hw
      · cases hw
    have h1 : Flow i u f ws s t1 := h.beside ((Beside.refl i u t).takeSrc (inSrc_ne hut hv hx) _)
    have hfill : Flow i u f ws s (t1.onWu i v fun x' => x'.setEntries x (x'.entries x ++ [d])) := by
      by_cases he : v = u
      · rw [he]
        exact h1.fill hx (hd he) _
      · exact h1.beside ((Beside.refl i u t1).onWu he fun h0 => by rw [Wu.out_setEntries, h0])
    split
    next hdisc =>
      split
      · by_cases he : v = u
        · rw [he]
          refine h1.redisc (fun l => l.erase x) fun h0 => hd he (h0 x ?_ hx)
          rw [← h.disc h0, ← he]
          simpa using hdisc.1
        · exact h1.beside ((Beside.refl i u t1).onWu he id)
      · split
        · exact hfill
        · exact h1
    next => exact hfill
  · exact h

theorem retireWords (h : Flow i u f ws s t) (hu : Unread i u s) : Flow i u f ws s (retireWords i t) := by
  unfold Machine.retireWords
  split
  · refine h.foldl fun t c _ h => ?_
    split
    next hc => exact h.beside ((Beside.refl i u t).popSrc fun e => hc.1 (e ▸ (h.unread i.isLt hu).1))
    next => exact h
  · exact h

theorem collDiscard (h : Flow i u f ws s t) (hu : Unread i u s) (cid src : Nat) : Flow i u f ws s (collDiscard i cid src t) := by
  rw [Machine.collDiscard, if_neg]
  · exact h
  · simp [State.on, (h.unread i.isLt hu).2]

theorem collTakes (h : Flow i u f ws s t) (hu : Unread i u s) : Flow i u f ws s (collTakes i t) := by
  rw [Machine.collTakes]
  simpa [State.on, (h.unread i.isLt hu).2] using h

/-- Every input of the island takes what its entries have room for. -/
theorem settle (h : Flow i u f ws s t) (hu : Unread i u s) : Flow i u f ws s (settle i t) := by
  unfold Machine.settle
  extract_lets t1 xs t2 t3 t4
  have h1 : Flow i u f ws s t1 := h.retireWords hu
  have hxs : ∀ x ∈ xs ++ xs, x < 32 := by
    intro x hx
    have hx : x ∈ xs := by simpa using hx
    exact List.mem_range.1 (List.mem_filter.1 hx).1
  have h2 : Flow i u f ws s t2 := h1.foldl fun t x hx h => h.intakeOne hu (by have := hxs x hx; omega) (Nat.mod_lt _ (by decide))
  have h3 : Flow i u f ws s t3 := h2.collDiscard hu ..
  have h4 : Flow i u f ws s t4 := by
    unfold t4
    split
    · exact h3
    · exact h3.collDiscard hu ..
  exact h4.collTakes hu

/-! ### What the unit does at an edge (R48, R52, R53) -/

/-- The unit consumes the word at the head of an input that is no parameter word. -/
theorem consumeIn (h : Flow i u f ws s t) (hu : Unread i u s) {x : Nat} (hx : x < 3) (hs : x < 2 → s.inSrc i u x < 0x30) :
    Flow i u (editAt List.tail x f) ws s (consumeIn i u x t) := by
  unfold Machine.consumeIn
  extract_lets w
  by_cases h2 : x = 2
  · have hf : ∀ y l, y < 2 → editAt List.tail x f y l = f y l := fun y l hy => if_neg (by omega)
    have key {r : State} (hr : Flow i u f ws s r) : Flow i u (editAt List.tail x f) ws s r :=
      { hr with entries := fun y hy hd => by rw [hf _ _ hy, hr.entries y hy hd] }
    rw [if_pos h2]
    split
    · split
      next q hq => exact key (h.beside ((Beside.refl i u t).takeQueue (mQueue_lt hq) u))
      next => exact key h
    · exact key (h.onWu rfl rfl rfl rfl)
  · have hx2 : x < 2 := by omega
    rw [if_neg h2, if_neg (by rw [h.inSrc_eq]; have := hs hx2; omega)]
    exact (h.edit hx2 List.tail).settle hu

/-- The unit consumes the words at the heads of several inputs. -/
theorem consumeAll (h : Flow i u f ws s t) (hu : Unread i u s) {xs : List Nat} (hx : ∀ x ∈ xs, x < 3 ∧ (x < 2 → s.inSrc i u x < 0x30)) :
    Flow i u (editAll List.tail xs f) ws s (xs.foldl (fun t x => Machine.consumeIn i u x t) t) := by
  induction xs generalizing t f with
  | nil => exact h
  | cons x xs ih =>
    obtain ⟨h3, hs⟩ := hx x List.mem_cons_self
    exact ih (h.consumeIn hu h3 hs) fun y hy => hx y (List.mem_cons_of_mem _ hy)

/-- Data words at the head of an input are discarded. -/
theorem discardData (h : Flow i u f ws s t) (hu : Unread i u s) {x : Nat} (hx : x < 3) :
    Flow i u (editAt (List.dropWhile fun d => !AWord.tk d) x f) ws s (discardData i u x t) := by
  unfold Machine.discardData
  split
  next h2 => exact { h with entries := fun y hy hd => by rw [editAt, if_neg (by omega), h.entries y hy hd] }
  next h2 => exact (h.edit (show x < 2 by omega) _).settle hu

theorem discardAll (h : Flow i u f ws s t) (hu : Unread i u s) {xs : List Nat} (hx : ∀ x ∈ xs, x < 3) :
    Flow i u (editAll (List.dropWhile fun d => !AWord.tk d) xs f) ws s (xs.foldl (fun t x => Machine.discardData i u x t) t) := by
  induction xs generalizing t f with
  | nil => exact h
  | cons x xs ih => exact ih (h.discardData hu (hx x List.mem_cons_self)) fun y hy => hx y (List.mem_cons_of_mem _ hy)

/-- A token passes input A. -/
theorem passesA (h : Flow i u f ws s t) (n : Nat) : Flow i u f ws s (passesA i u n t) := by
  unfold Machine.passesA
  split
  · exact h.onWu rfl rfl rfl rfl
  · exact h

/-- The unit notes that it has emitted the block result of the token at A. -/
theorem endBlock (h : Flow i u f ws s t) : Flow i u f ws s (t.onWu i u fun w => { w with blkDone := true }) := h.onWu rfl rfl rfl rfl

/-- Words are placed in the output register, or behind those that stand there. -/
theorem place (h : Flow i u f ws s t) (hu : Unread i u s) (vs : List AWord) : Flow i u f (ws ++ vs) s (place i u vs t) := by
  unfold Machine.place
  extract_lets t1
  have h1 : Flow i u f ws s t1 := by
    unfold t1
    split
    · exact (h.onWu (g := fun w => { w with taken := [] }) rfl rfl rfl rfl).beside ((Beside.refl i u _).noteToken ..)
    · exact h
  exact (h1.append vs).settle hu

end Flow

end

end Sys2Proof.Proofs
end

