-- ==== Sys2Proof/Proofs/Tokens.lean ====
section
/-!
PROOFS. Proofs/Tokens.lean: tokens that pass, join or abort at a word unit (R42, R48, R52, R53).
-/
namespace Sys2Proof.Machine

/-- A bit that is set in a field reads 1. -/
theorem State.f_bit_orF (s : State) {x : RF} {n : Nat} (hn : x.lo + n ≤ x.hi) (hx : x.hi < 64) : (s.orF x (2 ^ n)).f (x.bit n) = 1 := by
  have hb : (setBits (s.rd x.key) x.hi x.lo (s.f x ||| 2 ^ n)).getLsbD (x.lo + n) = true := by
    rw [setBits_bit _ _ _ _ _ (by omega) hx (by omega), if_pos (by omega), Nat.testBit_or, Nat.add_sub_cancel_left, Nat.testBit_two_pow_self, Bool.or_true]
  have hr : (s.orF x (2 ^ n)).rd x.key = setBits (s.rd x.key) x.hi x.lo (s.f x ||| 2 ^ n) := by rw [State.orF, State.rd_setF, if_pos rfl]
  rw [State.f, RF.bit, hr]
  exact Proofs.getBits_bit_eq_one.2 hb

end Sys2Proof.Machine

namespace Sys2Proof.Proofs
open Sys2Proof.Machine Sys2Proof.Safety

section
variable {i : Fin 156} {u : Fin 16} {x : Nat} {v : AWord} {s t : State} {f : Nat → List AWord → List AWord} {ws : List AWord}

theorem emitFree_iff : s.emitFree i u = true ↔ s.islRuns i = true ∧ (s.getWu i u).out = [] ∧ (s.getWu i u).pipe = [] := by
  simp [State.emitFree, and_assoc]

theorem nodup_streams (s : State) (i u : Nat) : (s.streams i u).Nodup := List.Nodup.filter _ (by decide)

/-- A stream input is one of three, and A or B takes from a source. -/
theorem streams_source (h : x ∈ s.streams i u) : x < 3 ∧ (x < 2 → s.inSrc i u x < 0x30) := by
  obtain ⟨hx, hs⟩ := List.mem_filter.1 h
  have h3 : x < 3 := by simp only [List.mem_cons, List.not_mem_nil, or_false] at hx; omega
  refine ⟨h3, fun h2 => ?_⟩
  rw [State.isStream, if_neg (show x ≠ 2 by omega), Bool.and_eq_true, decide_eq_true_eq] at hs
  exact hs.2

/-! ### What a unit leaves that passes tokens -/

/-- The other islands keep their state, and so does the memory while no combining buffer keeps a word. -/
theorem Around.rest {u : Nat} (h : Around i u s t) : IslesBut [i.val] s t ∧ ((s.getIsl i).comb = [] → t.mem = s.mem) := ⟨h.isles, fun hc => (h.mem hc).1⟩

/-- The unit has kept its accumulator and its block state. -/
def BlockKept (i u : Nat) (s t : State) : Prop :=
  (t.getWu i u).acc = (s.getWu i u).acc ∧ (t.getWu i u).bexp = (s.getWu i u).bexp ∧ (t.getWu i u).best = (s.getWu i u).best ∧ (t.getWu i u).index = (s.getWu i u).index

theorem blockKept_of_core (h : (t.getWu i u).core = (s.getWu i u).core) : BlockKept i u s t :=
  ⟨Wu.field_of_core Wu.acc (fun _ => rfl) h, Wu.field_of_core Wu.bexp (fun _ => rfl) h, Wu.field_of_core Wu.best (fun _ => rfl) h,
    Wu.field_of_core Wu.index (fun _ => rfl) h⟩

theorem Flow.blockKept (h : Flow i u f ws s t) : BlockKept i u s t := blockKept_of_core h.core

/-- A free unit presents the words that it has placed. -/
theorem Flow.out_of_free (h : Flow i u f ws s t) (hf : s.emitFree i u = true) : (t.getWu i u).out = ws := by
  rw [h.out, (emitFree_iff.1 hf).2.1, List.nil_append]

/-- The unit forwards the token of one of its stream inputs. -/
theorem forward_flow (hu : Unread i u s) (hx : x ∈ s.streams i u) (hv : s.inHead i u x = some v) :
    Flow i u (editAt List.tail x fun _ l => l) [v] s (forward i u x s) := by
  obtain ⟨h3, hs⟩ := streams_source hx
  have h := (Flow.refl i u s).consumeIn hu h3 hs
  rw [forward, hv]
  dsimp only
  split
  · exact (h.passesA _).place hu [v]
  · exact h.place hu [v]

/-! ### The commands -/

/-- A unit in pass mode takes the token of its earliest input that presents one, and emits it. -/
theorem tokenPass_forwards (hf : s.emitFree i u = true) (hu : Unread i u s) (hj : opTJ (s.curOp i u) = false)
    (hx : (s.streams i u).find? (s.plainToken i u) = some x) (hv : s.inHead i u x = some v) :
    ∃ t, exec (.tokenPass i u) s = .next t ∧ Flow i u (editAt List.tail x fun _ l => l) [v] s t := by
  refine ⟨_, ?_, forward_flow hu (List.mem_of_find?_eq_some hx) hv⟩
  show execTokenPass i u s = _
  rw [execTokenPass, if_pos ⟨hf, hj⟩, hx]

/-- A unit in join mode takes the token of every stream input, and emits that of the earliest; `TKMIS` notes tokens of several types. -/
theorem tokenJoin_joins (hf : s.emitFree i u = true) (hu : Unread i u s) (hj : opTJ (s.curOp i u) = true) (hx : s.streams i u = x :: (s.streams i u).tail)
    (hall : (s.streams i u).all (s.plainToken i u) = true) (hv : s.inHead i u x = some v) :
    ∃ r, Flow i u (editAll List.tail (s.streams i u) fun _ l => l) [v] s r ∧
      exec (.tokenJoin i u) s = .next (if (s.streams i u).all (fun y => s.headType i u y == s.headType i u x) then r else r.orF (ISL_WU_STAT2.TKMIS i) (2 ^ u.val)) := by
  have hne : s.streams i u ≠ [] := by rw [hx]; exact List.cons_ne_nil _ _
  have hjoin : Flow i u (editAll List.tail (s.streams i u) fun _ l => l) [v] s (joinTokens i u (s.streams i u) s) := by
    have h := (Flow.refl i u s).consumeAll hu fun y hy => streams_source hy
    rw [hx] at h ⊢
    simp only [joinTokens, hv]
    split
    · exact (h.passesA _).place hu [v]
    · exact h.place hu [v]
  refine ⟨_, hjoin, ?_⟩
  show execTokenJoin i u s = _
  rw [execTokenJoin]
  extract_lets typ mix r
  rw [if_pos ⟨hf, hj, hne, hall⟩]
  have ht : typ = s.headType i u x := by
    unfold typ
    rw [hx]
    rfl
  simp only [mix, ht]
  by_cases h : (s.streams i u).all (fun y => s.headType i u y == s.headType i u x) = true
  · rw [h]
    rfl
  · rw [Bool.not_eq_true] at h
    rw [h]
    rfl

/-- With no input that discards, the ABORT token of the earliest input is forwarded; in join mode the data at the others are dropped. -/
theorem exec_abortToken (hf : s.emitFree i u = true) (hd : (s.getWu i u).disc = [])
    (hx : (s.streams i u).find? (fun y => s.headType i u y == tokABORT) = some x) :
    exec (.abortToken i u) s = .next (if opTJ (s.curOp i u) then ((s.streams i u).filter (fun y => y != x)).foldl (fun t y => discardData i u y t)
      ((forward i u x s).onWu i u fun w => { w with disc := w.disc ++ (s.streams i u).filter (fun y => y != x) }) else forward i u x s) := by
  show execAbortToken i u s = _
  obtain ⟨hr, -⟩ := emitFree_iff.1 hf
  simp only [execAbortToken, hr, Bool.not_true, Bool.false_eq_true, if_false, hd, List.any_nil, hf, if_true, hx]

/-- The ABORT token of one input is emitted; in join mode the others drop their data and discard from now on. -/
theorem abortToken_joins (hu : Unread i u s) (hd : (s.getWu i u).disc = []) (hx : x ∈ s.streams i u) (hv : s.inHead i u x = some v) {ys : List Nat}
    (hys : ys = (s.streams i u).filter (fun y => y != x)) :
    let t := ys.foldl (fun t y => discardData i u y t) ((forward i u x s).onWu i u fun w => { w with disc := w.disc ++ ys })
    Around i u s t ∧ (t.getWu i u).core = (s.getWu i u).core ∧ (t.getWu i u).out = (s.getWu i u).out ++ [v] ∧
      ((∀ z ∈ s.streams i u, z < 2 → Dry i u z s) → (t.getWu i u).disc = ys ∧
        ∀ y ∈ s.streams i u, y < 2 → (t.getWu i u).entries y =
          if y = x then ((s.getWu i u).entries y).tail else ((s.getWu i u).entries y).dropWhile (fun d => !AWord.tk d)) := by
  have hmem {y : Nat} : y ∈ ys ↔ y ∈ s.streams i u ∧ y ≠ x := by rw [hys, List.mem_filter, bne_iff_ne]
  have h1 := forward_flow hu hx hv
  have h12 := h1.toAround.onWu fun w => { w with disc := w.disc ++ ys }
  have h2 := (Flow.refl i u ((forward i u x s).onWu i u fun w => { w with disc := w.disc ++ ys })).discardAll (xs := ys) (h12.unread i.isLt hu)
    fun y hy => (streams_source (hmem.1 hy).1).1
  have hd1 : (forward i u x s).getWu i u = { (forward i u x s).getWu i u with disc := [] } := by
    rw [← hd, ← h1.disc (by rw [hd]; exact fun _ h => absurd h List.not_mem_nil)]
  intro t
  refine ⟨h12.trans h2.toAround, ?_, ?_, fun hq => ⟨?_, fun y hy hy2 => ?_⟩⟩
  · rw [h2.core, State.getWu_onWu_same]
    exact h1.core
  · rw [h2.out, State.getWu_onWu_same, List.append_nil]
    exact h1.out
  · rw [h2.disc, State.getWu_onWu_same, hd1]
    · rfl
    · rw [State.getWu_onWu_same, hd1]
      exact fun y hy hy2 => h12.dry_input hu hy2 (hq y (hmem.1 hy).1 hy2)
  · have he : (((forward i u x s).onWu i u fun w => { w with disc := w.disc ++ ys }).getWu i u).entries y = ((forward i u x s).getWu i u).entries y := by
      rw [State.getWu_onWu_same]
      rfl
    rw [h2.entries y hy2 (h12.dry_input hu hy2 (hq y hy hy2)), he, h1.entries y hy2 (hq y hy hy2)]
    by_cases hyx : y = x
    · rw [editAll_of_not_mem _ fun hm => (hmem.1 hm).2 hyx, if_pos hyx, editAt, if_pos hyx]
    · rw [editAll_of_mem _ (hmem.2 ⟨hy, hyx⟩) (hys ▸ (nodup_streams s i u).filter _), if_neg hyx, editAt, if_neg hyx]

/-- The one input that discards drops a data word, or the ABORT token with which its discard ends. -/
theorem abortToken_discards (hf : s.emitFree i u = true) (hu : Unread i u s) (hd : (s.getWu i u).disc = [x]) (hx : x < 2) (hs : s.inSrc i u x < 0x30) (hq : Dry i u x s)
    (hv : s.inHead i u x = some v) (ht : AWord.tk v = false ∨ v.type = tokABORT) :
    ∃ t, exec (.abortToken i u) s = .next t ∧ Around i u s t ∧ (t.getWu i u).core = (s.getWu i u).core ∧ (t.getWu i u).out = (s.getWu i u).out ∧
      (t.getWu i u).entries x = ((s.getWu i u).entries x).tail ∧ (t.getWu i u).disc = if AWord.tk v then [] else [x] := by
  have h := (Flow.refl i u s).consumeIn hu (show x < 3 by omega) fun _ => hs
  have he : ((consumeIn i u x s).getWu i u).entries x = ((s.getWu i u).entries x).tail := by rw [h.entries x hx hq, editAt, if_pos rfl]
  have hdisc : ((consumeIn i u x s).getWu i u).disc = [x] := by
    rw [h.disc, hd]
    rw [hd]
    exact fun y hy _ => List.mem_singleton.1 hy ▸ hq
  have hexec : exec (.abortToken i u) s = .next (discardStep i u x s) := by
    show execAbortToken i u s = _
    have hany : s.discards i u x = true := by
      rw [State.discards, hv]
      rcases ht with ht | ht
      · simp [ht]
      · simp [ht]
    obtain ⟨hr, -⟩ := emitFree_iff.1 hf
    simp only [execAbortToken, hr, Bool.not_true, Bool.false_eq_true, if_false, hd, List.any_cons, hany, Bool.true_or, if_true]
    rfl
  refine ⟨_, hexec, ?_⟩
  rw [discardStep, hv]
  dsimp only
  split
  next htk =>
    rw [if_pos (ht.resolve_left (by rw [htk]; decide))]
    exact ⟨h.toAround.onWu _, by rw [State.getWu_onWu_same]; exact h.core, by rw [State.getWu_onWu_same]; exact h.out.trans (List.append_nil _),
      by rw [State.getWu_onWu_same]; exact he, by rw [State.getWu_onWu_same, hdisc]; simp⟩
  next => exact ⟨h.toAround, h.core, h.out.trans (List.append_nil _), he, hdisc⟩

end

end Sys2Proof.Proofs
end

