-- ==== Sys2Proof/Proofs/TokensAndBlocks.lean ====
section
/-!
PROOFS. Proofs/TokensAndBlocks.lean: the block results of a word unit (R64 to R68), and the statement on tokens and block ends.
-/
namespace Sys2Proof.Machine

theorem b2n_le (b : Bool) : b2n b ≤ 1 := by cases b <;> decide

theorem AWord.toNat_mk (tk st : Bool) (tags : BitVec 2) (d : W32) :
    (AWord.mk tk st tags d).toNat = b2n tk * 2 ^ 35 + b2n st * 2 ^ 34 + tags.toNat * 2 ^ 32 + d.toNat := by
  have := b2n_le tk
  have := b2n_le st
  have := tags.isLt
  have := d.isLt
  rw [AWord.mk, BitVec.toNat_ofNat, Nat.mod_eq_of_lt (by omega)]

@[simp] theorem AWord.data_mk (tk st : Bool) (tags : BitVec 2) (d : W32) : AWord.data (AWord.mk tk st tags d) = d := by
  apply BitVec.eq_of_toNat_eq
  have := d.isLt
  rw [AWord.data, BitVec.extractLsb'_toNat, AWord.toNat_mk, Nat.shiftRight_zero]
  omega

@[simp] theorem AWord.tk_mk (tk st : Bool) (tags : BitVec 2) (d : W32) : AWord.tk (AWord.mk tk st tags d) = tk := by
  have := b2n_le st
  have := tags.isLt
  have := d.isLt
  rw [AWord.tk, BitVec.getLsbD, AWord.toNat_mk, Nat.testBit_eq_decide_div_mod_eq,
    show (b2n tk * 2 ^ 35 + b2n st * 2 ^ 34 + tags.toNat * 2 ^ 32 + d.toNat) / 2 ^ 35 = b2n tk by omega]
  cases tk <;> rfl

@[simp] theorem AWord.st_mk (tk st : Bool) (tags : BitVec 2) (d : W32) : AWord.st (AWord.mk tk st tags d) = st := by
  have := tags.isLt
  have := d.isLt
  rw [AWord.st, BitVec.getLsbD, AWord.toNat_mk, Nat.testBit_eq_decide_div_mod_eq,
    show (b2n tk * 2 ^ 35 + b2n st * 2 ^ 34 + tags.toNat * 2 ^ 32 + d.toNat) / 2 ^ 34 = 2 * b2n tk + b2n st by omega,
    show (2 * b2n tk + b2n st) % 2 = b2n st by have := b2n_le st; omega]
  cases st <;> rfl

/-- The saturated value of a store, and whether it saturated, by where the shifted accumulator lies (R64). -/
theorem accStore_eq (k : Nat) (sat : Bool) (acc : BitVec 72) :
    let q := acc.toInt / 2 ^ k
    accStore k sat acc = if sat = true ∧ 0x7FFF_FFFF < q then (0x7FFF_FFFF, true) else if sat = true ∧ q < -0x8000_0000 then (0x8000_0000, true) else (BitVec.ofInt 32 q, false) := by
  intro q
  cases sat with
  | false => rfl
  | true =>
    simp only [accStore, clampS, if_true, true_and]
    change (BitVec.ofInt 32 (if q > 0x7FFF_FFFF then ((0x7FFF_FFFF : Int), true) else if q < -0x8000_0000 then (-0x8000_0000, true) else (q, false)).1,
      (if q > 0x7FFF_FFFF then ((0x7FFF_FFFF : Int), true) else if q < -0x8000_0000 then (-0x8000_0000, true) else (q, false)).2) = _
    split
    · rfl
    · split
      · rfl
      · rfl

end Sys2Proof.Machine

namespace Sys2Proof.Proofs
open Sys2Proof.Machine Sys2Proof.Safety

section
variable {i : Fin 156} {u : Fin 16} {v : AWord} {s t : State} {f : Nat → List AWord → List AWord} {ws : List AWord}

/-- An assigned operation code is in effect. -/
theorem opCode_of {op c : Nat} (h : opc op = c) (hc : opAssigned c = true) : opCode op = c := by rw [opCode, h, if_pos hc]

/-! ### The block results (R65, R67, R68) -/

/-- The status nibble of a unit is set. -/
theorem Around.setWuFlags {u v : Nat} (h : Around i u s t) (fl : Flags) : Around i u s (t.setWuFlags i v fl) := h.wr _ <| by
  simp only [Selects, RF.elem, ISL_WU_FLAGS, ISL_PLANE_CUR, ISL_PLANE_AUX, ISL_FCAP_CFG]
  omega

theorem Around.orSats {u : Nat} (h : Around i u s t) (n : Nat) : Around i u s (t.orF (ISL_WU_STAT.SATS i) n) := h.wr _ <| by
  simp only [Selects, ISL_WU_STAT.SATS, ISL_WU_STAT, ISL_PLANE_CUR, ISL_PLANE_AUX, ISL_FCAP_CFG]
  omega

/-- The flags of a unit, as they were set. -/
theorem flagsOf_setWuFlags (s : State) (i : Nat) (u : Fin 16) (fl : Flags) : flagsOf i u (s.setWuFlags i u fl) = fl.toNat := by
  refine f_setF_fits s (x := (⟨ISL_WU_FLAGS i, 63, 0⟩ : RF).elem 4 u) (RFok_iff.2 ?_) ?_
  · simp only [RF.elem]
    omega
  · rw [show ((⟨ISL_WU_FLAGS i, 63, 0⟩ : RF).elem 4 u).hi + 1 - ((⟨ISL_WU_FLAGS i, 63, 0⟩ : RF).elem 4 u).lo = 4 by simp only [RF.elem]; omega]
    have := b2n_le fl.z
    have := b2n_le fl.n
    have := b2n_le fl.c
    have := b2n_le fl.v
    unfold Flags.toNat
    omega

theorem getWu_setWuFlags (s : State) (i u v : Nat) (fl : Flags) : (s.setWuFlags i u fl).getWu i v = s.getWu i v := rfl

theorem getWu_clearAcc (s : State) (i u : Nat) : (clearAcc i u s).getWu i u = { s.getWu i u with acc := 0, pinned := false, poison := false } := by
  rw [clearAcc, getWu_setWuFlags, State.getWu_onWu_same]

/-- The block result of BEXP. -/
theorem blockResult_exponent (h : opc (s.curOp i u) = 0x58) :
    let w := s.getWu i u
    blockResult i u s = ([AWord.mk false w.blkSt w.lastTags (BitVec.ofNat 32 w.bexp)],
      (s.setWuFlags i u (resR (BitVec.ofNat 32 w.bexp) false false).f).onWu i u (blockInit (s.curOp i u))) := by
  simp only [blockResult, opCode_of h (by decide)]
  rfl

/-- The block result of SMAX and SMIN. -/
theorem blockResult_best (h : opc (s.curOp i u) = 0x5C ∨ opc (s.curOp i u) = 0x5D) :
    let w := s.getWu i u
    blockResult i u s = ([AWord.mk false w.blkSt w.lastTags w.best, AWord.mk false (w.blkSt || w.posStop) w.lastTags w.index],
      (s.setWuFlags i u (resR w.best w.replaced false).f).onWu i u (blockInit (s.curOp i u))) := by
  rcases h with h | h
  · simp only [blockResult, opCode_of h (by decide)]
    rfl
  · simp only [blockResult, opCode_of h (by decide)]
    rfl

/-- What a store from the accumulator reports. -/
def storeReports (i u : Nat) (s : State) : State :=
  if (accStore (opK (s.curOp i u)) (opSAT (s.curOp i u)) (s.getWu i u).acc).2 then s.orF (ISL_WU_STAT.SATS i) (2 ^ u) else s

theorem getWu_storeReports : (storeReports i u s).getWu i u = s.getWu i u := by
  unfold storeReports
  split <;> rfl

/-- The block result of MAC. -/
theorem blockResult_store (h : opc (s.curOp i u) = 0x48) :
    let w := s.getWu i u
    let p := accStore (opK (s.curOp i u)) (opSAT (s.curOp i u)) w.acc
    blockResult i u s = ([AWord.mk false (p.2 || w.pinned || w.poison) w.lastTags p.1],
      if opEMIT (s.curOp i u) = 2 then clearAcc i u (storeReports i u s) else storeReports i u s) := by
  simp only [blockResult, opCode_of h (by decide), storeAcc, h]
  rfl

/-- The unit's own state and its reports apart, a block result changes nothing, and it leaves the output register to what is placed. -/
theorem blockResult_around : Around i u s (blockResult i u s).2 ∧ ((blockResult i u s).2.getWu i u).out = (s.getWu i u).out := by
  have hinit (r : State) (op : Nat) : ((r.onWu i u (blockInit op)).getWu i u).out = (r.getWu i u).out := by
    rw [State.getWu_onWu_same, blockInit]
    split <;> rfl
  have hA := Around.refl i u s
  simp only [blockResult]
  split
  · have hst : Around i u s (storeAcc i u (s.curOp i u) (s.getWu i u).lastTags s).2 ∧
        ((storeAcc i u (s.curOp i u) (s.getWu i u).lastTags s).2.getWu i u).out = (s.getWu i u).out := by
      unfold storeAcc
      dsimp only
      split
      · exact ⟨hA, rfl⟩
      · split
        · exact ⟨hA.orSats _, rfl⟩
        · exact ⟨hA, rfl⟩
    split
    · exact ⟨(hst.1.onWu _).setWuFlags _, by rw [getWu_clearAcc]; exact hst.2⟩
    · exact hst
  · split
    · exact ⟨(hA.setWuFlags _).onWu _, by rw [hinit, getWu_setWuFlags]⟩
    · exact ⟨(hA.setWuFlags _).onWu _, by rw [hinit, getWu_setWuFlags]⟩

/-- The unit emits its block result, and in pass mode the token behind it. -/
theorem blockEnd_emits (hf : s.emitFree i u = true) (hu : Unread i u s) (ho : s.owesBlock i u = true) (hv : s.inHead i u 0 = some v) :
    ∃ t f, exec (.blockEndEmission i u) s = .next t ∧
      Flow i u f ((blockResult i u s).1 ++ if opTJ (s.curOp i u) then [] else [v]) (blockResult i u s).2 t := by
  obtain ⟨hA, -⟩ := blockResult_around (i := i) (u := u) (s := s)
  have hu' := hA.unread i.isLt hu
  have hs : s.isStream i u 0 = true := by
    simp only [State.owesBlock, Bool.and_eq_true] at ho
    exact ho.1.1.1
  have hsrc := streams_source (List.mem_filter.2 ⟨List.mem_cons_self, hs⟩ : 0 ∈ s.streams i u)
  have hr := Flow.refl i u (blockResult i u s).2
  have e : exec (.blockEndEmission i u) s = .next (if opTJ (s.curOp i u)
      then place i u (blockResult i u s).1 ((blockResult i u s).2.onWu i u fun w => { w with blkDone := true })
      else place i u ((blockResult i u s).1 ++ [v]) (passesA i u (AWord.type v) (consumeIn i u 0 (blockResult i u s).2))) := by
    show execBlockEndEmission i u s = _
    rw [execBlockEndEmission, if_pos ⟨hf, ho⟩, hv]
    dsimp only [Option.getD_some]
    split <;> rfl
  refine ⟨_, if opTJ (s.curOp i u) then fun _ l => l else editAt List.tail 0 fun _ l => l, e, ?_⟩
  split
  · rw [List.append_nil]
    exact hr.endBlock.place hu' _
  · exact ((hr.consumeIn hu' (by decide) fun h0 => by rw [hA.inSrc_eq]; exact hsrc.2 h0).passesA _).place hu' _

section results
variable {tl : List AWord} (h : Flow i u f ((blockResult i u s).1 ++ tl) (blockResult i u s).2 t) (hf : s.emitFree i u = true)
include h hf

/-- What a free unit presents at the end of a block: its block result, and what follows it. -/
theorem out_of_blockEnd : (t.getWu i u).out = (blockResult i u s).1 ++ tl := by
  rw [h.out, blockResult_around.2, (emitFree_iff.1 hf).2.1, List.nil_append]

/-- The block exponent is emitted, and the next block starts from the greatest headroom. -/
theorem exponent_of_blockEnd (hc : opc (s.curOp i u) = 0x58) :
    let w := s.getWu i u
    (t.getWu i u).out = AWord.mk false w.blkSt w.lastTags (BitVec.ofNat 32 w.bexp) :: tl ∧ (t.getWu i u).bexp = if bitOf (opK (s.curOp i u)) 0 then 15 else 31 := by
  have hb := h.field Wu.bexp fun _ => rfl
  have ho := out_of_blockEnd h hf
  rw [blockResult_exponent hc] at hb ho
  refine ⟨ho, hb.trans ?_⟩
  rw [State.getWu_onWu_same, blockInit, if_pos hc]
  rfl

/-- The best value and its index are emitted, and the next block starts from the initial ones. -/
theorem best_of_blockEnd (hc : opc (s.curOp i u) = 0x5C ∨ opc (s.curOp i u) = 0x5D) :
    let w := s.getWu i u
    (t.getWu i u).out = AWord.mk false w.blkSt w.lastTags w.best :: AWord.mk false (w.blkSt || w.posStop) w.lastTags w.index :: tl ∧
      (t.getWu i u).index = 0xFFFF_FFFF ∧ (t.getWu i u).pos = 0 ∧ (t.getWu i u).best = bestInit (s.curOp i u) := by
  have hix := h.field Wu.index fun _ => rfl
  have hp := h.field Wu.pos fun _ => rfl
  have hb := h.field Wu.best fun _ => rfl
  have ho := out_of_blockEnd h hf
  have hne : opc (s.curOp i u) ≠ 0x58 := by omega
  rw [blockResult_best hc] at hix hp hb ho
  rw [State.getWu_onWu_same, blockInit, if_neg hne] at hix hp hb
  exact ⟨ho, hix, hp, hb⟩

/-- The stored accumulator is emitted; `EMIT` 2 clears it, and `EMIT` 3 keeps it. -/
theorem store_of_blockEnd (hc : opc (s.curOp i u) = 0x48) :
    let w := s.getWu i u
    let p := accStore (opK (s.curOp i u)) (opSAT (s.curOp i u)) w.acc
    (t.getWu i u).out = AWord.mk false (p.2 || w.pinned || w.poison) w.lastTags p.1 :: tl ∧
      (opEMIT (s.curOp i u) = 2 → (t.getWu i u).acc = 0 ∧ (t.getWu i u).pinned = false ∧ (t.getWu i u).poison = false ∧ flagsOf i u t = 1) ∧
      (opEMIT (s.curOp i u) = 3 → (t.getWu i u).acc = w.acc) := by
  have ha := h.field Wu.acc fun _ => rfl
  have hp := h.field Wu.pinned fun _ => rfl
  have hq := h.field Wu.poison fun _ => rfl
  have hfl : flagsOf i u t = flagsOf i u (blockResult i u s).2 := h.f_eq (.inl rfl)
  have ho := out_of_blockEnd h hf
  rw [blockResult_store hc] at ha hp hq hfl ho
  refine ⟨ho, fun he => ?_, fun he => ?_⟩
  · rw [if_pos he, getWu_clearAcc] at ha hp hq
    rw [if_pos he, clearAcc, flagsOf_setWuFlags] at hfl
    exact ⟨ha, hp, hq, hfl⟩
  · rwa [if_neg (by omega), getWu_storeReports] at ha

end results

/-- The initial best values, written out (R68). -/
theorem bestInit_eq {op : Nat} (hc : opc op = 0x5C ∨ opc op = 0x5D) :
    bestInit op = if opc op = 0x5C then (if bitOf (opK op) 0 then 0 else 0x8000_0000) else if bitOf (opK op) 0 then 0xFFFF_FFFF else 0x7FFF_FFFF := by
  rcases hc with h | h
  · cases hb : bitOf (opK op) 0 <;> simp [bestInit, h, hb]
  · cases hb : bitOf (opK op) 0 <;> simp [bestInit, h, hb]

end

/-! ### The statement -/

/-- Settles O37: each command by the token that it takes and the words that it places, around which words pass through the island; the block end by what its block result leaves. -/
theorem tokensPassAndBlocksEndInOrder : Obligations.TokensPassAndBlocksEndInOrder := by
  unfold Obligations.TokensPassAndBlocksEndInOrder
  intro i u x v s hf hu w op xs quiet left rest kept
  have hout : w.out = [] := (emitFree_iff.1 hf).2.1
  refine ⟨fun hj hx hv => ?_, fun hj hx hall hv => ?_, fun hd hx hv => ?_, fun hd hx2 hs hq hv ht => ?_, fun ho hv => ?_⟩
  · obtain ⟨t, he, h⟩ := tokenPass_forwards hf hu hj hx hv
    refine ⟨t, he, h.out_of_free hf, fun hq hx2 => ?_, h.rest, h.blockKept⟩
    rw [h.entries x hx2 (hq hx2), editAt, if_pos rfl]
  · obtain ⟨r, h, he⟩ := tokenJoin_joins hf hu hj hx hall hv
    have hleft (y : Nat) (hy : y ∈ xs) (hq : ∀ z ∈ xs, quiet z) : left r y := fun hy2 => by
      rw [h.entries y hy2 (hq y hy hy2), editAll_of_mem _ hy (nodup_streams s i u)]
    have htk := h.f_eq (x := (ISL_WU_STAT2.TKMIS i).bit u) (.inr (.inr rfl))
    refine ⟨_, he, ?_⟩
    by_cases hsame : xs.all (fun y => s.headType i u y == s.headType i u x) = true
    · rw [if_pos hsame, if_pos hsame]
      exact ⟨h.out_of_free hf, hleft, h.rest, h.blockKept, htk⟩
    · rw [if_neg hsame, if_neg hsame]
      exact ⟨h.out_of_free hf, hleft, h.rest, h.blockKept, State.f_bit_orF r (by simp only [ISL_WU_STAT2.TKMIS]; omega) (by simp only [ISL_WU_STAT2.TKMIS]; omega)⟩
  · refine ⟨_, exec_abortToken hf hd hx, ?_⟩
    have hxs : x ∈ xs := List.mem_of_find?_eq_some hx
    cases hj : opTJ op with
    | false =>
      have h := forward_flow hu hxs hv
      rw [if_neg Bool.false_ne_true]
      refine ⟨h.out_of_free hf, h.rest, h.blockKept, fun hq => ⟨?_, fun hx2 => ?_, fun y hy hyx hy2 => ?_⟩⟩
      · rw [h.disc (by rw [hd]; exact fun _ h0 => absurd h0 List.not_mem_nil), hd]
        rfl
      · rw [h.entries x hx2 (hq x hxs hx2), editAt, if_pos rfl]
      · rw [h.entries y hy2 (hq y hy hy2), editAt, if_neg hyx]
        rfl
    | true =>
      rw [if_pos rfl]
      obtain ⟨hA, hcore, hout', hquiet⟩ := abortToken_joins hu hd hxs hv rfl
      refine ⟨by rw [hout', hout]; rfl, hA.rest, blockKept_of_core hcore, fun hq => ?_⟩
      obtain ⟨hdisc, hent⟩ := hquiet hq
      exact ⟨hdisc, fun hx2 => by rw [hent x hxs hx2, if_pos rfl], fun y hy hyx hy2 => by rw [hent y hy hy2, if_neg hyx]; rfl⟩
  · obtain ⟨t, he, hA, hcore, hout', hent, hdisc⟩ := abortToken_discards hf hu hd hx2 hs (hq hx2) hv ht
    exact ⟨t, he, fun _ => hent, hout'.trans hout, hdisc, hA.rest, blockKept_of_core hcore⟩
  · obtain ⟨t, f, he, h⟩ := blockEnd_emits hf hu ho hv
    have hA := (blockResult_around (i := i) (u := u) (s := s)).1.trans h.toAround
    refine ⟨t, he, hA.rest, fun hc => ?_, fun hc => ?_, fun hc => ?_⟩
    · obtain ⟨hw, hb⟩ := exponent_of_blockEnd h hf hc
      exact ⟨_, hw, AWord.data_mk .., AWord.tk_mk .., AWord.st_mk .., hb⟩
    · obtain ⟨hw, hix, hp, hb⟩ := best_of_blockEnd h hf hc
      exact ⟨_, _, hw, AWord.data_mk .., AWord.data_mk .., AWord.st_mk .., AWord.st_mk .., hix, hp, hb.trans (bestInit_eq hc)⟩
    · obtain ⟨hw, h2, h3⟩ := store_of_blockEnd h hf hc
      refine ⟨_, hw, ?_, h2, h3⟩
      rw [AWord.data_mk, AWord.st_mk, accStore_eq]
      dsimp only
      split
      · exact ⟨rfl, rfl⟩
      · split
        · exact ⟨rfl, rfl⟩
        · exact ⟨rfl, rfl⟩

end Sys2Proof.Proofs
end
